-- ==== Sys2Proof/Word.lean ====
section
/-!
DEFINITION. The word types of the X9 and their plainest readings (03 R61, R76; 04 R91).
-/

namespace Sys2Proof

/-- One byte of storage. -/
abbrev Byte := BitVec 8
/-- One instruction word or one lane word (03 R61, 06 R143). -/
abbrev Word := BitVec 32
/-- One scalar register or one address (06 R139, 09 R193). -/
abbrev Word64 := BitVec 64

/-- `sext(x, n)` of R76 on a natural number: the n-bit two's-complement reading of its low n bits. -/
def sextN (n x : Nat) : Int :=
  let y := x % 2 ^ n
  if n ≠ 0 ∧ 2 ^ (n - 1) ≤ y then (y : Int) - (2 ^ n : Nat) else y

/-- The n-bit pattern of an integer: r mod 2^n (R164). -/
def patN (n : Nat) (r : Int) : Nat := (r % ((2 ^ n : Nat) : Int)).toNat

/-- `x[hi:lo]` of R34 on a natural number. -/
def bitsN (x hi lo : Nat) : Nat := x / 2 ^ lo % 2 ^ (hi + 1 - lo)

end Sys2Proof
end

