-- ==== Sys2Proof/Syntax.lean ====
section
/-!
DEFINITION. The whole syntax of the X9: one constructor of `Instr` for each row of the opcode
table, 31 short forms, 195 extended operations and 113 events (03 R63-R80; 95_what_each_step_holds).
-/

namespace Sys2Proof

/-- The types of R67, in code order. -/
inductive Ty where
  | b32 | i8 | n8 | i16 | n16 | i32 | n32 | i64 | n64 | f16 | bf16 | f32 | f64
  | e4m3 | e5m2 | e2m1 | i4 | i8x4 | i4x8 | f16x2 | bf16x2 | e4m3x4 | e5m2x4 | e2m1x8 | n8x4 | b64
  deriving DecidableEq, Repr

/-- The rounding field of R66: from `status`, or one of the five modes of R93. -/
inductive Rnd where
  | rs | rne | rtz | rdn | rup | rna
  deriving DecidableEq, Repr

/-- The operand classes of R68. Class 11 with code 0xFF is the literal where the owner takes one. -/
inductive Cls where
  | vec | sc | pred | obj
  deriving DecidableEq, Repr

/-- One source field of an extended form: class, code and full/empty mode (R63, R65, R68, R73). -/
structure Src where
  cls  : Cls
  code : BitVec 8
  trp  : Bool
  deriving DecidableEq, Repr

/-- The fields of an extended form (R63, R65): guard, rounding, type, operands, X24 and literal. -/
structure Ext where
  neg : Bool
  g   : BitVec 5
  rnd : Rnd
  ty  : Ty
  d   : BitVec 8
  a   : Src
  b   : Src
  c   : Src
  x24 : BitVec 24
  lit : Option Word64
  deriving DecidableEq, Repr

/-- The fields of a one-word form (R63, R77): guard, D, A with its mode, and the literal of `len` 10. -/
structure Short where
  neg : Bool
  g   : BitVec 5
  d   : BitVec 8
  a   : BitVec 8
  fa  : Bool
  lit : Option Word64
  deriving DecidableEq, Repr

/-- The operands of a mailbox command (20 R440). `resv` says whether a reserved byte is set. -/
structure Mail where
  op0  : Word64
  op1  : Word64
  op2  : Word64
  op3  : Word64
  resv : Bool
  deriving DecidableEq, Repr

/-- An access that a Palyr peer makes to this device's memory (09 R215): a read of `len` bytes, a write
of bytes, or an atomic with the operation and type codes of R225 and its data and compare value. -/
inductive PeerAccess where
  | read (pa len : Nat)
  | write (pa : Nat) (data : List Byte)
  | atomic (pa op : Nat) (ty : Ty) (data cmp : Word64)
  deriving DecidableEq, Repr

/-- The steps of the part: every instruction and every event of the opcode table. An event's arguments
name the thing it happens to (a team's uid, a core, a flight, a launch) and what comes from outside. -/
inductive Instr where
  /-- R134: One-word nop that changes nothing but the program counter; D and A are ignored. -/
  | nopShort (x : Short)
  /-- R79: Copies vA, or a b32 literal, into vD in each active lane, taking vA's shape tag under a full write. -/
  | vmov (x : Short)
  /-- R79: Copies a scalar code, or a literal, into sD. -/
  | smov (x : Short)
  /-- R77: Short form of vint vadd.i32 with D as destination and first source. -/
  | vaddI32Short (x : Short)
  /-- R77: Short form of vint vsub.i32. -/
  | vsubI32Short (x : Short)
  /-- R77: Short form of vint vand.b32. -/
  | vandShort (x : Short)
  /-- R77: Short form of vint vor.b32. -/
  | vorShort (x : Short)
  /-- R77: Short form of vint vxor.b32. -/
  | vxorShort (x : Short)
  /-- R77: Short form of vint vshl.b32. -/
  | vshlShort (x : Short)
  /-- R77: Short form of vint vshr.b32. -/
  | vshrShort (x : Short)
  /-- R77: Short form of vfp vadd.f32 with rounding from status. -/
  | vaddF32Short (x : Short)
  /-- R77: Short form of vfp vmul.f32. -/
  | vmulF32Short (x : Short)
  /-- R77: Short form of vfp vmin.f32. -/
  | vminF32Short (x : Short)
  /-- R77: Short form of vfp vmax.f32. -/
  | vmaxF32Short (x : Short)
  /-- R77: Short form of salu sadd.i64. -/
  | saddShort (x : Short)
  /-- R77: Short form of salu ssub.i64. -/
  | ssubShort (x : Short)
  /-- R77: Short form of salu sand.b64. -/
  | sandShort (x : Short)
  /-- R77: Short form of salu sor.b64. -/
  | sorShort (x : Short)
  /-- R77: Short form of salu sshl.b64. -/
  | sshlShort (x : Short)
  /-- R77: Short form of salu sshr.b64. -/
  | sshrShort (x : Short)
  /-- R130: Short branch by a 16-bit word offset split over D and A. -/
  | braShort (x : Short)
  /-- R130: Short branch taken when msum is zero. -/
  | bmzShort (x : Short)
  /-- R130: Short branch taken when msum is non-zero. -/
  | bmnzShort (x : Short)
  /-- R132: Short count-down loop with an 8-bit word offset in A. -/
  | loopShort (x : Short)
  /-- R219: Short ldv.b32 loading lane L from sA + 4L. -/
  | ldvShort (x : Short)
  /-- R219: Short stv.b32 storing lane L of vD at sA + 4L. -/
  | stvShort (x : Short)
  /-- R219: Short lds.b64 loading sD from [sA]. -/
  | ldsShort (x : Short)
  /-- R219: Short sts.b64 storing sD at [sA]. -/
  | stsShort (x : Short)
  /-- R344: Short blocking qpop into sD to sD+3 from queue A. -/
  | qpopShort (x : Short)
  /-- R347: Short tend closing the open task. -/
  | tendShort (x : Short)
  /-- R432: Short ychk writing whether a pre-emption request is pending into pD. -/
  | ychkShort (x : Short)
  /-- R130: Extended branch by a signed 24-bit word offset. -/
  | bra (x : Ext)
  /-- R130: Extended branch taken when msum is zero. -/
  | bmz (x : Ext)
  /-- R130: Extended branch taken when msum is non-zero. -/
  | bmnz (x : Ext)
  /-- R130: Branches when a scalar satisfies the condition code cc. -/
  | bsc (x : Ext)
  /-- R131: Writes the return address to sD and branches. -/
  | call (x : Ext)
  /-- R131: Jumps to the address in sA, trapping align when misaligned. -/
  | ret (x : Ext)
  /-- R131: Jumps to a register or literal address. -/
  | jmp (x : Ext)
  /-- R132: Decrements sD and branches while it is non-zero. -/
  | loop (x : Ext)
  /-- R133: Ends the team: implicit tend, then waits for full registers and performed writes before releasing resources. -/
  | texit (x : Ext)
  /-- R134: Delivers trap brk with its code and skip set. -/
  | brk (x : Ext)
  /-- R134: Extended nop. -/
  | nop (x : Ext)
  /-- R136: Writes the ballot of pA over active lanes into a run of scalar registers. -/
  | pmask (x : Ext)
  /-- R136: Copies bits of a scalar run into a predicate for active lanes. -/
  | mpred (x : Ext)
  /-- R136: Counts set bits of a scalar run over W lanes. -/
  | mpop (x : Ext)
  /-- R136: Finds the lowest set bit of a scalar run. -/
  | mfirst (x : Ext)
  /-- R166: Scalar integer add. -/
  | sadd (x : Ext)
  /-- R166: Scalar integer subtract. -/
  | ssub (x : Ext)
  /-- R166: Scalar integer multiply, low half. -/
  | smul (x : Ext)
  /-- R166: Scalar integer multiply, high half. -/
  | smulh (x : Ext)
  /-- R166: Scalar bitwise and. -/
  | sand (x : Ext)
  /-- R166: Scalar bitwise or. -/
  | sor (x : Ext)
  /-- R166: Scalar bitwise xor. -/
  | sxor (x : Ext)
  /-- R166: Scalar and with complement. -/
  | sandn (x : Ext)
  /-- R166: Scalar shift left. -/
  | sshl (x : Ext)
  /-- R166: Scalar logical shift right. -/
  | sshr (x : Ext)
  /-- R166: Scalar arithmetic shift right. -/
  | ssar (x : Ext)
  /-- R166: Scalar minimum. -/
  | smin (x : Ext)
  /-- R166: Scalar maximum. -/
  | smax (x : Ext)
  /-- R166: Scalar count of leading zeros. -/
  | sclz (x : Ext)
  /-- R166: Scalar population count. -/
  | spopc (x : Ext)
  /-- R169: Scalar bit-field extract. -/
  | sbfe (x : Ext)
  /-- R169: Scalar bit-field insert. -/
  | sbfi (x : Ext)
  /-- R168: Scalar select by a non-zero condition. -/
  | ssel (x : Ext)
  /-- R168: Scalar compare writing 0 or 1. -/
  | scmp (x : Ext)
  /-- R167: Scalar truncating division or remainder, all ones on a zero divisor. -/
  | sdiv (x : Ext)
  /-- R171: Vector integer add, optionally saturating. -/
  | vintVadd (x : Ext)
  /-- R171: Vector integer subtract, optionally saturating. -/
  | vintVsub (x : Ext)
  /-- R171: Vector integer multiply, low half. -/
  | vintVmul (x : Ext)
  /-- R172: Vector integer multiply, high half. -/
  | vmulh (x : Ext)
  /-- R172: Vector integer multiply-add, exact then wrapped. -/
  | vmad (x : Ext)
  /-- R171: Vector integer minimum. -/
  | vintVmin (x : Ext)
  /-- R171: Vector integer maximum. -/
  | vintVmax (x : Ext)
  /-- R171: Vector integer absolute value. -/
  | vabs (x : Ext)
  /-- R171: Vector bitwise and. -/
  | vand (x : Ext)
  /-- R171: Vector bitwise or. -/
  | vor (x : Ext)
  /-- R171: Vector bitwise xor. -/
  | vxor (x : Ext)
  /-- R171: Vector and with complement. -/
  | vandn (x : Ext)
  /-- R171: Vector bitwise not. -/
  | vnot (x : Ext)
  /-- R171: Vector shift left. -/
  | vshl (x : Ext)
  /-- R171: Vector logical shift right. -/
  | vshr (x : Ext)
  /-- R171: Vector arithmetic shift right. -/
  | vsar (x : Ext)
  /-- R171: Vector count of leading zeros. -/
  | vclz (x : Ext)
  /-- R171: Vector population count. -/
  | vpopc (x : Ext)
  /-- R171: Vector bit reverse. -/
  | vbrev (x : Ext)
  /-- R169: Vector bit-field extract. -/
  | vbfe (x : Ext)
  /-- R169: Vector bit-field insert. -/
  | vbfi (x : Ext)
  /-- R174: Vector select by a predicate. -/
  | vsel (x : Ext)
  /-- R175: Interleaves bits of two or three sources. -/
  | vilv (x : Ext)
  /-- R175: De-interleaves one phase of bits. -/
  | vdil (x : Ext)
  /-- R176: Writes each lane's index. -/
  | vlaneid (x : Ext)
  /-- R173: Vector add with carry in and carry out through predicates. -/
  | vaddc (x : Ext)
  /-- R181: Floating-point add rounded once. -/
  | vfpVadd (x : Ext)
  /-- R181: Floating-point subtract rounded once. -/
  | vfpVsub (x : Ext)
  /-- R181: Floating-point multiply rounded once. -/
  | vfpVmul (x : Ext)
  /-- R181: Fused multiply-add rounded once. -/
  | vfma (x : Ext)
  /-- R182: Floating-point minimum with NaN and signed-zero rules. -/
  | vfpVmin (x : Ext)
  /-- R182: Floating-point maximum with NaN and signed-zero rules. -/
  | vfpVmax (x : Ext)
  /-- R182: Median of three by the min/max formula. -/
  | vmed3 (x : Ext)
  /-- R183: Rounds to an integral value. -/
  | vrint (x : Ext)
  /-- R183: Fractional part. -/
  | vfract (x : Ext)
  /-- R183: Scales by a power of two. -/
  | vldexp (x : Ext)
  /-- R183: Splits into mantissa or exponent. -/
  | vfrexp (x : Ext)
  /-- R183: Classifies a value into a one-hot word. -/
  | vclass (x : Ext)
  /-- R183: Replaces the sign bit of a with that of b. -/
  | vcopysign (x : Ext)
  /-- R185: Converts between float and integer types. -/
  | vcvt (x : Ext)
  /-- R186: Packs f32 registers into narrow elements with a plain scale. -/
  | vpackn (x : Ext)
  /-- R186: Unpacks narrow elements into f32 registers. -/
  | vunpackn (x : Ext)
  /-- R187: Computes block deltas per sub-group. -/
  | vbscale (x : Ext)
  /-- R186: Quantises f32 registers into scaled narrow elements. -/
  | vquant (x : Ext)
  /-- R188: Approximate reciprocal. -/
  | vrcp (x : Ext)
  /-- R188: Approximate reciprocal square root. -/
  | vrsq (x : Ext)
  /-- R188: Correctly rounded square root, long-latency. -/
  | vsqrt (x : Ext)
  /-- R188: Approximate power of two. -/
  | vex2 (x : Ext)
  /-- R188: Approximate base-2 logarithm. -/
  | vlg2 (x : Ext)
  /-- R188: Sine of an argument in turns, long-latency. -/
  | vsin (x : Ext)
  /-- R188: Cosine of an argument in turns, long-latency. -/
  | vcos (x : Ext)
  /-- R188: Hyperbolic tangent, long-latency. -/
  | vtanh (x : Ext)
  /-- R190: Rotates an f32 pair by an exact angle. -/
  | vrot (x : Ext)
  /-- R188: Correctly rounded division, long-latency. -/
  | vdiv (x : Ext)
  /-- R192: Exact 8-bit integer dot product plus addend. -/
  | vdot8 (x : Ext)
  /-- R192: Exact 4-bit integer dot product plus addend. -/
  | vdot4 (x : Ext)
  /-- R192: 8-bit float dot product rounded once. -/
  | vdotf8 (x : Ext)
  /-- R192: 4-bit float dot product rounded once. -/
  | vdotf4 (x : Ext)
  /-- R161: Indexed shuffle within sub-groups. -/
  | shfl (x : Ext)
  /-- R161: Xor shuffle within sub-groups. -/
  | shfx (x : Ext)
  /-- R161: Rotate shuffle within sub-groups. -/
  | shfr (x : Ext)
  /-- R161: Broadcasts one lane within sub-groups. -/
  | bcast (x : Ext)
  /-- R162: Any, all or equal vote of a predicate over sub-groups. -/
  | vote (x : Ext)
  /-- R163: Reduces active lanes of each sub-group by a fixed tree. -/
  | reduce (x : Ext)
  /-- R163: Inclusive or exclusive scan over sub-groups. -/
  | scan (x : Ext)
  /-- R159: Compares and writes a predicate and its complement. -/
  | vcmp (x : Ext)
  /-- R159: Applies a truth table to three predicates. -/
  | plog (x : Ext)
  /-- R159: Sets a predicate from a bit of a source. -/
  | pset (x : Ext)
  /-- R221: Vector load with base, index and offset. -/
  | ld (x : Ext)
  /-- R221: Vector store with base, index and offset. -/
  | st (x : Ext)
  /-- R221: Vector load of consecutive words. -/
  | ldv (x : Ext)
  /-- R221: Vector store of consecutive words. -/
  | stv (x : Ext)
  /-- R221: Scalar load. -/
  | lds (x : Ext)
  /-- R221: Scalar store. -/
  | sts (x : Ext)
  /-- R222: Vector load from scratch. -/
  | ldsp (x : Ext)
  /-- R222: Vector store to scratch. -/
  | stsp (x : Ext)
  /-- R224: Hints fetching lines into L1 or the home slice. -/
  | pref (x : Ext)
  /-- R226: Per-lane atomic read-modify-write at the home slice. -/
  | atom (x : Ext)
  /-- R227: Memory-side reduction at the base die on path ms. -/
  | red (x : Ext)
  /-- R226: Scalar atomic read-modify-write. -/
  | atoms (x : Ext)
  /-- R271: Acquire, release, acquire-release or sc fence at a scope. -/
  | fence (x : Ext)
  /-- R272: Cross-path fence ordering source-path accesses before destination-path accesses. -/
  | xfence (x : Ext)
  /-- R280: Parks until a location leaves a value, or times out. -/
  | mwait (x : Ext)
  /-- R234: Looks up pool lines by address, or reads a tag entry. -/
  | tlook (x : Ext)
  /-- R235: Claims a pool line and starts its fill. -/
  | tfill (x : Ext)
  /-- R236: Releases a pool line, writing it back when dirty. -/
  | tevict (x : Ext)
  /-- R235: Claims a pool line as valid and dirty without filling. -/
  | tset (x : Ext)
  /-- R237: Discards the context's pool lines in an address range. -/
  | tinv (x : Ext)
  /-- R240: Starts a copy from a 128-byte descriptor. -/
  | cpy (x : Ext)
  /-- R248: Starts a gathering copy of one row per active lane. -/
  | cpyg (x : Ext)
  /-- R249: Starts a copy described in four scalar registers. -/
  | cpyw (x : Ext)
  /-- R250: Queries a copy's status, filling sD when it has completed. -/
  | cpyq (x : Ext)
  /-- R255: Sets a latch's target and clears its count. -/
  | ltinit (x : Ext)
  /-- R255: Makes an arrival on a latch after earlier accesses are performed. -/
  | ltarr (x : Ext)
  /-- R255: Parks until a latch leaves a phase. -/
  | ltwait (x : Ext)
  /-- R255: Parks until a latch flips or a copy completes, then branches. -/
  | yield (x : Ext)
  /-- R301: Requests the matrix lease for a count of issues. -/
  | mlease (x : Ext)
  /-- R301: Ends the held matrix lease. -/
  | mrelease (x : Ext)
  /-- R301: Passes the pintle to the other leaf. -/
  | pintle (x : Ext)
  /-- R301: Parks until this leaf holds the pintle. -/
  | pnwait (x : Ext)
  /-- R302: Creates an operand-buffer reservation record. -/
  | obres (x : Ext)
  /-- R302: Invalidates a reservation after pending reads and copies. -/
  | obfree (x : Ext)
  /-- R303: Writes lane data into a reservation. -/
  | obput (x : Ext)
  /-- R305: Accumulates a dense 64x64 product into a tile. -/
  | mma (x : Ext)
  /-- R305: Accumulates a product with a sparse B operand. -/
  | mmas (x : Ext)
  /-- R306: Zeroes a tile and sets its anchor. -/
  | acz (x : Ext)
  /-- R308: Rounds tile elements once into vector registers. -/
  | resolve (x : Ext)
  /-- R309: Compares exact tile values with a threshold into predicates. -/
  | accmp (x : Ext)
  /-- R312: Captures a tile and writes its image on path mx. -/
  | acst (x : Ext)
  /-- R312: Reads a tile image and replaces the tile. -/
  | acld (x : Ext)
  /-- R310: Enters one lane value per tile element. -/
  | acadd (x : Ext)
  /-- R306: Moves a tile's anchor. -/
  | acanch (x : Ext)
  /-- R333: Declares an atomic-set range in a slot. -/
  | asdecl (x : Ext)
  /-- R333: Empties a declared slot. -/
  | asclr (x : Ext)
  /-- R333: Reads slot state, length or restart and record counts. -/
  | asqry (x : Ext)
  /-- R333: Moves the undo log to a new area. -/
  | asundo (x : Ext)
  /-- R344: Implicit tend, then pops an entry and opens a task. -/
  | qpop (x : Ext)
  /-- R345: Pushes an entry to a queue, or defers it under sets. -/
  | qpush (x : Ext)
  /-- R346: Writes a payload from scratch and then enqueues an entry. -/
  | qwpush (x : Ext)
  /-- R347: Closes the open task, committing and releasing its sets. -/
  | tend (x : Ext)
  /-- R349: Decrements a dependence counter at its queue unit. -/
  | dcdec (x : Ext)
  /-- R350: Reads one value of a queue record. -/
  | qinfo (x : Ext)
  /-- R369: Walks motion fields back and samples the old frame per lane. -/
  | hld (x : Ext)
  /-- R370: Walks motion fields and writes the landing position and status. -/
  | hwalk (x : Ext)
  /-- R371: Sends field-entry writes to the chain's home slice. -/
  | mfst (x : Ext)
  /-- R372: Seals a field after earlier mfst writes are performed. -/
  | mfseal (x : Ext)
  /-- R373: Advances a chain by one frame. -/
  | chadv (x : Ext)
  /-- R374: Starts composing a shortcut field. -/
  | mfshort (x : Ext)
  /-- R375: Invalidates a logical slot and the shortcuts across it. -/
  | mfinv (x : Ext)
  /-- R376: Reads chain state, epoch, shortcut records or the drop flag. -/
  | chqry (x : Ext)
  /-- R385: Translates sequence positions to addresses with causes and a replay mask. -/
  | kvx (x : Ext)
  /-- R389: Allocates, fetches or frees the block of one position. -/
  | kvmap (x : Ext)
  /-- R390: Shares a prefix of one sequence with another. -/
  | kvshare (x : Ext)
  /-- R392: Reads or sets a sequence length, or reads and clears err. -/
  | kvlen (x : Ext)
  /-- R393: Pins a mapped block. -/
  | kvpin (x : Ext)
  /-- R393: Removes a pin or the team's use of a block. -/
  | kvunpin (x : Ext)
  /-- R406: Loads whole texel channels of a surface. -/
  | sld (x : Ext)
  /-- R406: Stores texel channels to a surface. -/
  | sst (x : Ext)
  /-- R407: Samples a surface with point or bilinear filtering. -/
  | samp (x : Ext)
  /-- R408: Reads fields of a surface descriptor. -/
  | sqry (x : Ext)
  /-- R419: Opens a render pass on the die's tiler. -/
  | binbeg (x : Ext)
  /-- R412: Emits rectangles into an open pass. -/
  | primr (x : Ext)
  /-- R412: Emits triangles into an open pass. -/
  | primt (x : Ext)
  /-- R412: Emits Gaussian splats into an open pass. -/
  | prims (x : Ext)
  /-- R419: Closes emission and parks until every tile of the pass has committed. -/
  | binend (x : Ext)
  /-- R416: Answers a fragment entry with a colour. -/
  | fragout (x : Ext)
  /-- R419: Reads a committed pass counter or the pass flags. -/
  | tstat (x : Ext)
  /-- R430: Reads a control register. -/
  | srd (x : Ext)
  /-- R430: Writes a control register with its checks. -/
  | swr (x : Ext)
  /-- R431: Delivers swtrap with its code and skip set. -/
  | trap (x : Ext)
  /-- R431: Restores mask and status from the frame and re-injects replay entries. -/
  | tret (x : Ext)
  /-- R432: Extended ychk writing whether a pre-emption request is pending. -/
  | ychk (x : Ext)
  /-- R432: Saves the team cooperatively when a request is pending. -/
  | ysave (x : Ext)
  /-- R154: Moves from a computed register number. -/
  | rmovx (x : Ext)
  /-- R154: Stores to a computed register number. -/
  | rstx (x : Ext)
  /-- R155: Rewrites a register's shape tag. -/
  | shape (x : Ext)
  /-- R155: Reads a register's shape tag. -/
  | shqry (x : Ext)
  /-- R156: Arms or disarms the keep range for a successor. -/
  | rkeep (x : Ext)
  /-- R157: Broadcasts a scalar or literal to every active lane. -/
  | vbcs (x : Ext)
  /-- R157: Extracts one lane into a scalar register. -/
  | vext (x : Ext)
  /-- R85: An instruction is fetched whole from executable pages, faulting replayably when absent. -/
  | instructionFetch (team : Nat)
  /-- R440: Mailbox command 0x01 creates a context from its record. -/
  | mailboxCreateContext (m : Mail)
  /-- R440: Mailbox command 0x02 destroys a context. -/
  | mailboxDestroyContext (m : Mail)
  /-- R335: Mailbox command 0x03 with op3 bit 0 clear creates a queue and updates the binding table. -/
  | mailboxCreateQueue (m : Mail)
  /-- R335: Mailbox command 0x03 with op3 bit 0 set destroys an empty queue with no parked team. -/
  | mailboxDestroyQueue (m : Mail)
  /-- R125: Mailbox command 0x04 switches a context out by pre-empting its teams. -/
  | mailboxSwitchContextOut (m : Mail)
  /-- R128: Mailbox command 0x04 switches a context back in. -/
  | mailboxSwitchContextIn (m : Mail)
  /-- R214: Mailbox command 0x05 grants a CXL extent to a context. -/
  | mailboxGrantExtent (m : Mail)
  /-- R214: Mailbox command 0x05 requests release of a CXL extent. -/
  | mailboxReleaseExtent (m : Mail)
  /-- R214: A held extent release takes effect once its pages are unmapped and shot down. -/
  | extentReleaseDone (extent : Nat)
  /-- R341: Mailbox command 0x06 clears a queue's overflow flag. -/
  | mailboxClearOverflow (m : Mail)
  /-- R444: Mailbox command 0x07 loads, checks and measures a Xedoldo image, then marks code executable. -/
  | mailboxLoadImage (m : Mail)
  /-- R444: Mailbox command 0x08 writes a signed attestation quote. -/
  | mailboxAttestationQuote (m : Mail)
  /-- R448: Mailbox command 0x09 starts a live firmware update of one die. -/
  | mailboxUpdate (m : Mail)
  /-- R448: A live update finishes and the die's deferred work resumes. -/
  | updateComplete (die : Nat)
  /-- R441: Mailbox command 0x0A selects the context BAR4 reaches. -/
  | mailboxSelectBar4Context (m : Mail)
  /-- R439: A host write of 0 clears the host-error counter. -/
  | hosterrClear
  /-- R439: A host write to a BAR0 register without its own row, or to a reserved offset, which is dropped and counted. -/
  | bar0RegisterWrite (offset : Nat) (data : List Byte)
  /-- R340: A 32-byte posted write to BAR2 appends an entry to a queue or holds it in the overflow buffer. -/
  | hostEnqueue (offset : Nat) (data : List Byte)
  /-- R340: A held host entry is appended when its queue frees a slot. -/
  | overflowAppend (queue : Nat)
  /-- R441: A host read through BAR4 translates in the selected context. -/
  | bar4Read (va : Word64) (len : Nat)
  /-- R441: A host write through BAR4 translates in the selected context. -/
  | bar4Write (va : Word64) (data : List Byte)
  /-- R445: At reset the hub measures firmware, trains links, starts dies and calibrates HBM. -/
  | deviceStart
  /-- R445: Ready not set within 20 s fails the start; after three failures minimal mode boots. -/
  | bootFailure (reason : Nat)
  /-- R443: A CXL port goes down and accesses behind it trap with cause 0x05. -/
  | cxlPortDown (port : Nat)
  /-- R443: A Palyr port whose retries fail is taken down and its traffic moves to other planes. -/
  | palyrPortDown (port : Nat)
  /-- R274: The domain heartbeat counter ticks every 2 µs. -/
  | heartbeatTick
  /-- R216: The pool revokes an extent; firmware clears its entries and shoots them down. -/
  | extentRevoke (extent : Nat)
  /-- R200: Firmware shoots down translations of a context and range device-wide. -/
  | shootdown (ctx : Nat) (va : Word64) (len : Nat) (ptes : List (Nat × Word64))
  /-- R127: A core or slot is spared; its saved images are freed and their kernels ended with status 0x08. -/
  | spareCore (core : Nat) (slot : Option Nat)
  /-- R446: An HBM channel is spared onto spare rows or a spare channel. -/
  | spareChannel (channel : Nat)
  /-- R446: A home slice is spared by re-homing its lines. -/
  | spareSlice (slice : Nat) (moves : List (Nat × Nat))
  /-- R446: Sparing ends and the waiting accesses proceed. -/
  | sparingEnd
  /-- R447: A corrected soft error is counted in health. -/
  | softErrorCorrected
  /-- R209: A subarray refreshes while its bank serves reads elsewhere. -/
  | subarrayRefresh (bank subarray : Nat)
  /-- R115: A launch entry reaches the queue unit and firmware checks it and its header. -/
  | launchEntryArrival (queue : Nat) (entry : List Word64)
  /-- R121: The launch header fetch completes and a template is loaded. -/
  | headerFetch (launch : Nat)
  /-- R121: Once resources are free, firmware places teams and writes bind records ready. -/
  | teamPlacement (launch : Nat) (places : List (Nat × Nat))
  /-- R120: Dispatch starts a team from a ready record and issues its first instruction. -/
  | dispatchStart (core place : Nat)
  /-- R120: An argument register's 8 bytes arrive and it becomes full. -/
  | argumentArrival (team index : Nat)
  /-- R116: After all teams end and writes perform, firmware writes the status to done as a release. -/
  | launchStatusWrite (launch : Nat)
  /-- R133: texit's waits end, resources are released and the record becomes empty. -/
  | texitComplete (team : Nat)
  /-- R125: Firmware writes a deadline into a team's ydl. -/
  | preemptRequest (team : Nat)
  /-- R125: ydl reaches 0 and the hardware forces a save. -/
  | ydlExpiry (team : Nat)
  /-- R125: A 2 ms slice ends and firmware rotates places among contexts of equal ceiling. -/
  | timesliceExpiry (team : Nat)
  /-- R126: The image is written, the record becomes saved and its resources are freed. -/
  | saveComplete (team : Nat)
  /-- R119: Firmware takes a saved record back to empty. -/
  | recordReclaim (core place : Nat)
  /-- R119: Firmware writes saved into an empty record to request a restore. -/
  | restoreRequest (core place team : Nat)
  /-- R435: A restore finishes and issue resumes at the image's pc. -/
  | restoreComplete (team : Nat)
  /-- R208: A request's data returns and fills its lanes, making the destination full when all have arrived. -/
  | accessResponse (flight : Nat)
  /-- R202: A translation-cache miss walks the page table. -/
  | translationWalk (flight : Nat)
  /-- R203: Firmware writes a missing entry and the faulted requests are replayed. -/
  | faultServiced (ctx : Nat) (va : Word64) (pteAddr : Nat) (pte : Word64)
  /-- R205: Firmware declines a fault and the lanes trap page. -/
  | faultDeclined (ctx : Nat) (va : Word64)
  /-- R206: A store fails for good after issue and an imprecise trap becomes pending. -/
  | storeFailure (write cause : Nat)
  /-- R276: A release's count of earlier writes reaches zero and it is applied. -/
  | releaseGateOpen (write : Nat)
  /-- R227: A red arrival is combined at the base die. -/
  | redCombine (write : Nat)
  /-- R280: A write to the watched location wakes an mwait to re-read. -/
  | mwaitWake (team : Nat)
  /-- R280: An mwait's timeout expires. -/
  | mwaitTimeout (team : Nat)
  /-- R280: An unwatched location is read again after 4,096 cycles. -/
  | mwaitRepoll (team : Nat)
  /-- R271: A fence's wait ends and later instructions may issue. -/
  | fenceComplete (team : Nat)
  /-- R230: A tfill's last byte is written and the line becomes valid with its latch arrival. -/
  | fillComplete (core line : Nat)
  /-- R238: A fill fails for good; the line is freed and an imprecise trap follows. -/
  | fillFailure (core line cause : Nat)
  /-- R230: A write-back is performed and the line becomes free. -/
  | writebackComplete (core line : Nat)
  /-- R238: A write-back fails for good; the line returns valid and dirty. -/
  | writebackFailure (core line cause : Nat)
  /-- R232: After the context's last team leaves, fills and copies end and dirty lines are written back and freed. -/
  | poolUseEnd (core ctx : Nat)
  /-- R240: A copy descriptor read completes and the copy is captured. -/
  | copyDescriptorRead (core copy : Nat)
  /-- R245: A copy's writes are performed and it ends with a status. -/
  | copyComplete (core copy : Nat)
  /-- R252: An arrival is applied to a latch, possibly flipping its phase and waking waiters. -/
  | latchArrival (core launch latch count : Nat)
  /-- R289: The arbiter grants the lease to the head of the queue. -/
  | leaseGrant (core : Nat)
  /-- R290: No issue for 4,096 cycles with a non-empty queue ends the lease. -/
  | leaseIdleExpiry (core : Nat)
  /-- R305: The engine starts an accepted mma or mmas and enters its products into the tile. -/
  | mmaExecute (core : Nat)
  /-- R302: After pending reads and copies, the record becomes invalid. -/
  | obfreeRelease (core record : Nat)
  /-- R308: The resolve run becomes full. -/
  | resolveComplete (flight : Nat)
  /-- R312: An acst image is performed and its latch arrival is made. -/
  | acstComplete (flight : Nat)
  /-- R312: An acld read completes, replacing the tile or flagging a malformed image. -/
  | acldComplete (flight : Nat)
  /-- R188: A long-latency special function fills its destination. -/
  | sfuComplete (flight : Nat)
  /-- R317: A set request reaches a hasp table and is granted, parks or wounds younger holders. -/
  | setRequestArrival (team slot : Nat)
  /-- R317: After entries release, the slice grants waiting requests oldest first. -/
  | setGrant (slice : Nat)
  /-- R329: The victim takes the wound at an instruction boundary and discards in-flight work. -/
  | woundTake (team : Nat)
  /-- R329: The undo engine restores logged lines, releases entries and restarts the task. -/
  | rollbackComplete (team : Nat)
  /-- R327: tend's drain ends; entries are released and the deferred list is performed. -/
  | tendCommit (team : Nat)
  /-- R337: A push reaches the queue unit and is handed over, appended or parked. -/
  | queuePushArrival (push : Nat)
  /-- R337: A pop reaches the queue unit and takes the head entry or parks. -/
  | queuePopArrival (team : Nat)
  /-- R349: The queue unit decrements a counter and enqueues its entry at zero. -/
  | dcdecApply (flight : Nat)
  /-- R346: A qwpush payload is performed and its entry is enqueued. -/
  | qwpushPayloadDone (flight : Nat)
  /-- R369: A history walk ends and fills hld or hwalk destinations, possibly with trap disocc. -/
  | walkComplete (flight : Nat)
  /-- R369: A .w lane waiting on an unwritten entry retests after a write, seal or mfinv. -/
  | walkWaitRetest (flight : Nat)
  /-- R371: The chain's slice resolves the slot and writes or drops an entry. -/
  | mfstApply (flight : Nat)
  /-- R372: After earlier mfst writes are performed, the field is sealed. -/
  | mfsealApply (flight : Nat)
  /-- R373: After earlier walks drain, the chain advances. -/
  | chadvApply (flight : Nat)
  /-- R374: The shortcut composition ends and its status fills sD. -/
  | mfshortComplete (flight : Nat)
  /-- R385: kvx lookups end and fill addresses, causes and the replay run. -/
  | kvxComplete (flight : Nat)
  /-- R385: A .w lane retests when its entry leaves pending or uses fall. -/
  | kvxWaitRetest (flight : Nat)
  /-- R391: A hub fetch or share copy completes and the entry becomes mapped, or fails and sets err. -/
  | kvMoveComplete (move : Nat)
  /-- R394: The detent expires and remaining victim entries are evicted. -/
  | detentExpiry
  /-- R394: Firmware confirms a victim entry, evicting it at once. -/
  | victimConfirm (index : Nat)
  /-- R394: Firmware vetoes a victim entry. -/
  | victimVeto (index : Nat)
  /-- R394: Firmware reorders the victim queue. -/
  | victimReorder (order : List Nat)
  /-- R395: An eviction's write to backing ends, marking the entry evicted or restoring it on failure. -/
  | evictionComplete (move : Nat)
  /-- R409: sld or samp texel reads return and fill the destinations. -/
  | samplerComplete (flight : Nat)
  /-- R414: The tiler starts a tile, finding top primitives per pixel. -/
  | tileProcess (die pass : Nat)
  /-- R415: A fragment entry is pushed to the fragment queue when room exists. -/
  | fragmentPush (die pass : Nat)
  /-- R414: After every entry is answered, splats are composited and the tile resolves and commits. -/
  | tileComposite (die pass : Nat)
  /-- R417: Firmware kills a tile in progress; its attempt is discarded. -/
  | tileKill (die pass : Nat)
  /-- R424: At a boundary, earlier instructions finish, the frame is written and the handler starts. -/
  | trapDelivery (team : Nat)
  /-- R431: Re-injected entries and the partial run complete and the team leaves the handler. -/
  | tretResume (team : Nat)
  /-- R432: ysave's wait ends and the image is written. -/
  | ysaveImage (team : Nat)
  /-- R200: A translation shootdown completes device-wide, after which no access uses the old translation. -/
  | shootdownComplete (ctx : Nat) (va : Word64) (len : Nat)
  /-- R201: The PCIe link goes down and host-tier accesses trap with page, cause 0x05. -/
  | pcieLinkDown
  /-- R258: A store or other write is applied at its home slice and becomes performed at the wider scopes. -/
  | writePerformed (write : Nat)
  /-- R215: A peer device's access or atomic arrives over Palyr and is performed at this device's home slice. -/
  | palyrPeerAccess (access : PeerAccess)
  /-- R447: An uncorrectable error occurs, and its recurrence sets the replace bit in health. -/
  | uncorrectableError (unit : Nat)
  /-- R447: A corrected soft error leaves the one-hour window and the soft count falls. -/
  | softErrorWindowExpiry
  deriving DecidableEq, Repr

end Sys2Proof
end

