-- ==== Sys2Proof/WellFormed.lean ====
section
/-!
DEFINITION. Which instructions are well-formed: checks 4 to 12 of R82 over the table of operands, types and
X24 fields that each group's owner gives, and the codes of the opcode map (R78, R80).
-/

namespace Sys2Proof

/-- The width of a type in bits (R67). -/
def Ty.width : Ty → Nat
  | .i64 | .n64 | .f64 | .b64 => 64
  | .i8 | .n8 | .e4m3 | .e5m2 => 8
  | .i16 | .n16 | .f16 | .bf16 => 16
  | .i4 | .e2m1 => 4
  | .b32 | .i32 | .n32 | .f32 | .i8x4 | .i4x8 | .f16x2 | .bf16x2 | .e4m3x4 | .e5m2x4 | .e2m1x8 | .n8x4 => 32

/-- Whether a type is 64 bits wide, so that a vector operand of it is a register pair (R68). -/
def Ty.wide (t : Ty) : Bool := t.width = 64

/-- The signed integer types, whose literals sign-extend (R18, R72). -/
def Ty.signed : Ty → Bool
  | .i8 | .i16 | .i32 | .i64 | .i4 => true
  | _ => false

/-- The TY codes of R67 in order. -/
def Ty.all : List Ty :=
  [.b32, .i8, .n8, .i16, .n16, .i32, .n32, .i64, .n64, .f16, .bf16, .f32, .f64, .e4m3, .e5m2, .e2m1, .i4,
   .i8x4, .i4x8, .f16x2, .bf16x2, .e4m3x4, .e5m2x4, .e2m1x8, .n8x4, .b64]

/-- The TY code of a type (R67). -/
def Ty.code : Ty → Nat
  | .b32 => 0 | .i8 => 1 | .n8 => 2 | .i16 => 3 | .n16 => 4 | .i32 => 5 | .n32 => 6 | .i64 => 7 | .n64 => 8
  | .f16 => 9 | .bf16 => 10 | .f32 => 11 | .f64 => 12 | .e4m3 => 13 | .e5m2 => 14 | .e2m1 => 15 | .i4 => 16
  | .i8x4 => 17 | .i4x8 => 18 | .f16x2 => 19 | .bf16x2 => 20 | .e4m3x4 => 21 | .e5m2x4 => 22
  | .e2m1x8 => 23 | .n8x4 => 24 | .b64 => 25

/-- The type of a TY code; none for the reserved codes (R67). -/
def Ty.ofCode (c : Nat) : Option Ty := Ty.all[c]?

/-- The RND code of a rounding field (R66). -/
def Rnd.code : Rnd → Nat
  | .rs => 0 | .rne => 1 | .rtz => 2 | .rdn => 3 | .rup => 4 | .rna => 5

/-- The rounding field of an RND code; none for the reserved codes (R66). -/
def Rnd.ofCode : Nat → Option Rnd
  | 0 => some .rs | 1 => some .rne | 2 => some .rtz | 3 => some .rdn | 4 => some .rup | 5 => some .rna
  | _ => none

/-- The class code of an operand class (R68). -/
def Cls.code : Cls → Nat
  | .vec => 0 | .sc => 1 | .pred => 2 | .obj => 3

/-- The operand class of a class code (R68). -/
def Cls.ofCode : Nat → Cls
  | 0 => .vec | 1 => .sc | 2 => .pred | _ => .obj

/-- An unused operand field: class 00, code 0, mode 0 (R68). -/
def Src.none : Src := { cls := .vec, code := 0, trp := false }
/-- The literal: class 11, code 0xFF (R68). -/
def Src.litS : Src := { cls := .obj, code := 0xFF, trp := false }
/-- Whether a source field names the literal. -/
def Src.isLit (s : Src) : Bool := s.cls = .obj && s.code = 0xFF

/-- The field `X24[hi:lo]` of an extended form. -/
def Ext.f (x : Ext) (hi lo : Nat) : Nat := bitsN x.x24.toNat hi lo
/-- One bit of X24. -/
def Ext.bit (x : Ext) (i : Nat) : Bool := x.x24.toNat.testBit i

/-- The engine objects with an allotment (R83), and the others. -/
inductive ObjK where
  | tile | rcd | latch | other
  deriving DecidableEq, Repr

/-- What an owner accepts in a source position: the classes, the largest object code, whether the field may be
unused (`opt`) or a base may be absent (`abs`, R218), whether a literal is taken whole (`raw`, R72), whether the
position is unused and a literal there is a field that is not 0 (`zero`, 07 R170), whether the owner refuses the whole field by
an X24 value (`x24`, 17 R388), the type in which it is read (R18, R72) and how many consecutive registers it names. -/
structure SK where
  vec  : Bool := false
  even : Bool := false
  sc   : Bool := false
  lo   : Bool := false
  pred : Bool := false
  lit  : Bool := false
  opt  : Bool := false
  abs  : Bool := false
  raw  : Bool := false
  zero : Bool := false
  x24  : Bool := false
  obj  : Option (ObjK × Nat) := none
  ty   : Ty := .b64
  n    : Nat := 1
  deriving DecidableEq, Repr

/-- Whether the instruction uses the position. -/
def SK.used (k : SK) : Bool := k.vec || k.sc || k.lo || k.pred || k.lit || k.opt || k.abs || k.obj.isSome

/-- The kinds of D (R74). -/
inductive DK where
  | none | vec | sc | pred
  | obj (k : ObjK) (max : Nat)
  deriving DecidableEq, Repr

/-- One row of an owner's table: operands, types, rounding, defined X24 bits, the lowest bits of the X24 fields that
hold a reserved value, whether D is read and written, how many registers it names (an even pair counts
two), the objects named in X24, and whether the instruction is long-latency (R147) or runs per lane (R43). -/
structure Row where
  d    : DK := .none
  even : Bool := false
  dn   : Nat := 1
  dr   : Bool := false
  dw   : Bool := true
  a    : SK := {}
  b    : SK := {}
  c    : SK := {}
  tys  : List Ty := [.b32]
  rnd  : Bool := false
  mask : Nat := 0
  bad  : List Nat := []
  objs : List (ObjK × Nat) := []
  long : Bool := false
  v    : Bool := false
  deriving DecidableEq, Repr

/-- `[n]` when c holds: a reserved value in the X24 field whose lowest bit is n. -/
def badIf (c : Bool) (n : Nat) : List Nat := if c then [n] else []

/-- The number of mask registers of a team of width W (R39). -/
def maskRegs (w : Nat) : Nat := if w ≤ 64 then 1 else (w + 63) / 64

namespace SK
/-- Class 00. -/
def v (t : Ty) : SK := { vec := true, ty := t }
/-- Class 00 or 01. -/
def vs (t : Ty) : SK := { vec := true, sc := true, ty := t }
/-- Class 00, 01 or the literal. -/
def vsl (t : Ty) : SK := { vec := true, sc := true, lit := true, ty := t }
/-- Class 01 or the literal. -/
def sl (t : Ty) : SK := { sc := true, lit := true, ty := t }
/-- Class 01. -/
def s (t : Ty) : SK := { sc := true, ty := t }
/-- Class 01 with codes 0-127 only, n registers. -/
def r (n : Nat) : SK := { lo := true, n := n }
/-- Class 10. -/
def p : SK := { pred := true }
/-- An engine object of class 11. -/
def o (k : ObjK) (m : Nat) : SK := { obj := some (k, m) }
/-- A base address: class 01, the literal or absent (R218). -/
def base : SK := { sc := true, lit := true, abs := true }
/-- An index vector when `ix` is set (R218). -/
def index (ix : Bool) : SK := if ix then { vec := true, ty := .b32 } else {}
/-- A vector pair or an even vector register and its partner. -/
def pair : SK := { vec := true, even := true, ty := .b32, n := 2 }
/-- A position that is unused and must be class 00, code 0 whatever stands there (07 R170). -/
def empty : SK := { zero := true }
/-- A position that the owner's X24 field governs alone (17 R388). -/
def byX24 : SK := { x24 := true }
/-- A latch number or an absent operand. -/
def lat : SK := { obj := some (.latch, 31), opt := true }
end SK

/-- The types of the scalar integer arithmetic (R165). -/
def tysI4 : List Ty := [.i64, .n64, .i32, .n32]
/-- The bit types. -/
def tysB : List Ty := [.b32, .b64]
/-- The types of `vint` addition and comparison (R170). -/
def tysI7 : List Ty := [.i32, .n32, .i64, .n64, .i8x4, .n8x4, .i4x8]
/-- The types of `vfp` arithmetic (R180). -/
def tysF6 : List Ty := [.f32, .f64, .f16, .bf16, .f16x2, .bf16x2]
/-- The scalar floating-point types of `vfp` (R180). -/
def tysF4 : List Ty := [.f32, .f64, .f16, .bf16]
/-- The types of `vcvt` (R184). -/
def tysCvt : List Ty := [.f64, .f32, .f16, .bf16, .i8, .n8, .i16, .n16, .i32, .n32, .i64, .n64]
/-- The packed types of `vpackn` (R184). -/
def tysPack : List Ty := [.f16x2, .bf16x2, .e4m3x4, .e5m2x4, .e2m1x8, .i8x4, .n8x4, .i4x8]
/-- The types of vector and scratch loads (R219). -/
def tysLd : List Ty := [.b32, .b64, .n8, .i8, .n16, .i16, .f16, .bf16]
/-- The types of vector and scratch stores (R219). -/
def tysSt : List Ty := [.b32, .b64, .n8, .n16, .f16, .bf16]

/-- The integer types of R67 (i and n, not packed). -/
def Ty.isInt : Ty → Bool
  | .i8 | .n8 | .i16 | .n16 | .i32 | .n32 | .i64 | .n64 | .i4 => true
  | _ => false
/-- The bit types b32 and b64. -/
def Ty.isBits (t : Ty) : Bool := t = .b32 || t = .b64
/-- The scalar floating-point types. -/
def Ty.isFloat : Ty → Bool
  | .f16 | .bf16 | .f32 | .f64 | .e4m3 | .e5m2 | .e2m1 => true
  | _ => false
/-- The number of elements of a packed type, and 1 otherwise (R90). -/
def Ty.elems : Ty → Nat
  | .f16x2 | .bf16x2 => 2
  | .i8x4 | .n8x4 | .e4m3x4 | .e5m2x4 => 4
  | .i4x8 | .e2m1x8 => 8
  | _ => 1
/-- The element type of a packed type (R90). -/
def Ty.elem : Ty → Ty
  | .f16x2 => .f16 | .bf16x2 => .bf16 | .i8x4 => .i8 | .n8x4 => .n8 | .i4x8 => .i4 | .e4m3x4 => .e4m3
  | .e5m2x4 => .e5m2 | .e2m1x8 => .e2m1 | t => t

/-- Registers of a vector operand of type t: a pair for a 64-bit type. -/
def nOf (t : Ty) : Nat := if t.wide then 2 else 1

/-- Rows of ctrl (R129, R130). -/
def rowCtrl (sub : Nat) (_x : Ext) : Row :=
  match sub with
  | 0 | 1 | 2 => { mask := 0xFFFFFF }
  | 3 => { a := SK.s .i64, b := SK.o .other 5, mask := 0xFFFFFF }
  | 4 => { d := .sc, mask := 0xFFFFFF }
  | 5 => { a := SK.r 1 }
  | 6 => { a := { lo := true, lit := true } }
  | 7 => { d := .sc, dr := true, mask := 0xFFFFFF }
  | 9 => { mask := 0xFFFF }
  | _ => {}

/-- Rows of mask (R135). -/
def rowMask (w sub : Nat) (_x : Ext) : Row :=
  match sub with
  | 0 => { d := .sc, dn := maskRegs w, a := SK.p, v := true }
  | 1 => { d := .pred, a := SK.r (maskRegs w), v := true }
  | _ => { d := .sc, a := SK.r (maskRegs w) }

/-- Rows of salu (R165). -/
def rowSalu (sub : Nat) (x : Ext) : Row :=
  let k := SK.sl x.ty
  let two : Row := { d := .sc, a := k, b := k }
  match sub with
  | 0 | 1 | 2 | 3 | 11 | 12 => { two with tys := tysI4 }
  | 4 | 5 | 6 | 7 | 8 | 9 => { two with tys := tysB }
  | 10 => { two with tys := [.i64, .i32] }
  | 13 | 14 => { d := .sc, a := k, tys := tysB }
  | 15 => { two with tys := tysI4 }
  | 16 => { two with tys := tysB, c := k }
  | 17 => { two with tys := [.b64], c := k }
  | 18 => { two with tys := tysI4, mask := 7, bad := badIf (5 < x.f 2 0) 0 }
  | 19 => { two with tys := tysI4, mask := 1 }
  | _ => {}

/-- Rows of vint (R170). -/
def rowVint (sub : Nat) (x : Ext) : Row :=
  let t := x.ty
  let one : Row := { d := .vec, dn := nOf t, a := SK.vs t, v := true }
  let two : Row := { one with b := SK.vsl t }
  match sub with
  | 0 | 1 => { two with tys := tysI7, mask := 1 }
  | 2 => { two with tys := [.i32, .n32, .b32, .i64, .n64, .b64] }
  | 3 => { two with tys := [.i32, .n32, .i64, .n64] }
  | 4 => { two with tys := [.i32, .n32, .i64, .n64], c := SK.vsl t }
  | 5 | 6 => { two with tys := tysI7 }
  | 7 => { one with tys := [.i32, .i64, .i8x4, .i4x8], mask := 1 }
  | 8 | 9 | 10 | 11 | 13 | 14 => { two with tys := tysB }
  | 12 | 16 | 17 | 18 => { one with tys := tysB }
  | 15 => { two with tys := [.i32, .i64] }
  | 19 => { two with tys := [.n32, .i32, .n64, .i64] }
  | 20 => { two with tys := tysB, c := SK.vsl t }
  | 21 => { two with tys := tysB, c := SK.p }
  | 22 => { two with mask := 1, c := if x.bit 0 then SK.vsl t else SK.empty }
  | 23 => { one with mask := 7, bad := badIf (if x.bit 0 then 2 < x.f 2 1 else 1 < x.f 2 1) 1 }
  | 24 => { d := .vec, v := true }
  | 25 => { two with tys := [.n32, .n64], c := SK.p, mask := 0x1F, bad := badIf (23 < x.f 4 0) 0 }
  | _ => {}

/-- Rows of vfp (R180). -/
def rowVfp (sub : Nat) (x : Ext) : Row :=
  let t := x.ty
  let one : Row := { d := .vec, dn := nOf t, a := SK.vsl t, v := true }
  let two : Row := { one with b := SK.vsl t }
  match sub with
  | 0 | 1 | 2 => { two with tys := tysF6, rnd := true, mask := 0x1F }
  | 3 => { two with tys := tysF6, rnd := true, mask := 0x7F, c := SK.vsl t }
  | 4 | 5 => { two with tys := tysF6, mask := 0x1E }
  | 6 => { two with tys := tysF6, mask := 0x7E, c := SK.vsl t }
  | 7 | 8 => { one with tys := tysF4, rnd := true, mask := 6 }
  | 9 => { one with tys := tysF4, rnd := true, mask := 7, b := SK.vsl .i32 }
  | 10 => { one with tys := tysF4, mask := 0x86, dn := if x.bit 7 then 1 else nOf t }
  | 11 => { one with tys := tysF4, dn := 1 }
  | 12 => { two with tys := tysF4 }
  | _ => {}

/-- Rows of vcvt (R184). The delta operand of `vquant` is read at B[3:0], for which no type is named: its literal is taken whole
(the model's choice, log 63). -/
def rowVcvt (sub : Nat) (x : Ext) : Row :=
  let t := x.ty
  let fr := Ty.ofCode (x.f 4 0)
  match sub with
  | 0 =>
    let ft := fr.getD .b32
    let okF := match fr with
      | some u => tysCvt.contains u && u ≠ t && !(u.isInt && t.isInt)
      | none => false
    { d := .vec, dn := nOf t, a := { SK.vsl ft with raw := fr.isNone }, tys := tysCvt, rnd := true, mask := 0x3F, v := true,
      bad := badIf (!okF) 0 ++ badIf (x.bit 5 && t.isInt) 5 }
  | 1 => { d := .vec, a := { SK.v .b32 with n := t.elems }, b := SK.vsl .i32, tys := tysPack, rnd := true,
           mask := 1, v := true, bad := badIf (x.bit 0 && t.elem.isInt) 0 }
  | 2 => { d := .vec, dn := t.elems, a := SK.v t, b := SK.vsl .i32, tys := tysPack, rnd := true, v := true }
  | 3 => { d := .vec, a := SK.vsl .f32, b := SK.sl .b64, tys := [.e4m3, .e5m2, .e2m1], mask := 0xF, v := true,
           bad := badIf (x.f 3 0 < 4 || 6 < x.f 3 0) 0 }
  | 4 => { d := .vec, a := { SK.v .f32 with n := t.elems }, b := { SK.vsl .b32 with raw := true }, c := SK.sl .b64,
           tys := [.e4m3x4, .e5m2x4, .e2m1x8], rnd := true, mask := 1, v := true }
  | _ => {}

/-- Rows of vsfu (R188-R190). -/
def rowVsfu (sub : Nat) (x : Ext) : Row :=
  let t := x.ty
  let one : Row := { d := .vec, dn := nOf t, a := SK.vsl t, tys := [.f32], v := true }
  match sub with
  | 0 | 1 | 3 | 4 => one
  | 2 => { one with tys := [.f32, .f64], rnd := true, long := true }
  | 5 | 6 | 7 => { one with long := true }
  | 8 => { d := .vec, even := true, dn := 2, a := SK.pair, b := SK.vsl .n32, c := SK.vsl .n32, tys := [.f32],
           long := true, v := true }
  | 9 => { one with tys := [.f32, .f64], rnd := true, b := SK.vsl t, long := true }
  | _ => {}

/-- Rows of vdot (R191). -/
def rowVdot (sub : Nat) (x : Ext) : Row :=
  let k := SK.vsl x.ty
  match sub with
  | 0 => { d := .vec, a := k, b := k, c := SK.vsl .i32, tys := [.i8x4, .n8x4], mask := 3, v := true }
  | 1 => { d := .vec, a := k, b := k, c := SK.vsl .i32, tys := [.i4x8], mask := 2, v := true }
  | 2 => { d := .vec, a := k, b := k, c := SK.vsl .f32, tys := [.e4m3x4, .e5m2x4], rnd := true, mask := 0x7FF,
           v := true }
  | 3 => { d := .vec, a := k, b := k, c := SK.vsl .f32, tys := [.e2m1x8], rnd := true, mask := 0x7FE, v := true }
  | _ => {}

/-- Rows of vxl (R160). -/
def rowVxl (sub : Nat) (x : Ext) : Row :=
  let t := x.ty
  let lg := badIf (10 < x.f 3 0) 0
  let red : Row := { d := .vec, dn := nOf t, a := SK.v t, v := true,
                     tys := [.i32, .n32, .b32, .i64, .n64, .b64, .f32, .f64] }
  let op := badIf (5 < x.f 6 4 || (t.isBits && x.f 6 4 < 3) || (t.isFloat && 2 < x.f 6 4)) 4
  match sub with
  | 0 | 1 | 2 => { d := .vec, dn := nOf t, a := SK.v t, b := SK.vs .n32, tys := tysB, mask := 0xF, bad := lg,
                   v := true }
  | 3 => { d := .vec, dn := nOf t, a := SK.v t, b := SK.s .n32, tys := tysB, mask := 0xF, bad := lg, v := true }
  | 4 => { d := .pred, a := SK.p, mask := 0x7F, bad := lg ++ badIf (2 < x.f 6 4) 4, v := true }
  | 5 => { red with mask := 0x7F, bad := lg ++ op }
  | 6 => { red with mask := 0xFF, bad := lg ++ op }
  | _ => {}

/-- Rows of pred (R158). -/
def rowPred (sub : Nat) (x : Ext) : Row :=
  let t := x.ty
  match sub with
  | 0 =>
    let top := if t.isBits then 1 else if t.isInt then 5 else 7
    { d := .pred, a := SK.v t, b := SK.vsl t, mask := 0x3FF, v := true,
      tys := [.i32, .n32, .i64, .n64, .f32, .f16, .bf16, .f64, .b32, .b64],
      bad := badIf (23 < x.f 4 0) 0 ++ badIf (top < x.f 7 5) 5 ++ badIf (2 < x.f 9 8) 8 }
  | 1 => { d := .pred, a := SK.p, b := SK.p, c := SK.p, mask := 0xFF, v := true }
  | 2 =>
    let top := match x.a.cls with
      | .vec => 31 | .sc => 63 | _ => 0
    { d := .pred, a := { vec := true, sc := true, pred := true, ty := .b32 }, mask := 0x3F, v := true,
      bad := badIf (top < x.f 5 0) 0 }
  | _ => {}

/-- Rows of ldst (R218, R219, R224). -/
def rowLdst (sub : Nat) (x : Ext) : Row :=
  let t := x.ty
  let sco := badIf (5 < x.f 21 19 || (x.f 21 19 ≠ 0 && !x.bit 18)) 19
  let noIx := badIf (x.bit 14) 14 ++ badIf (x.f 16 15 ≠ 0) 15 ++ sco
  let noOrd := badIf (x.bit 17) 17 ++ badIf (x.bit 18) 18 ++ sco
  let m : Row := { a := SK.base, b := SK.index (x.bit 14), mask := 0x3FFFFF }
  let ld : Row := { m with d := .vec, dn := nOf t, long := true, v := true }
  let st : Row := { m with d := .vec, dn := nOf t, dr := true, dw := false, v := true }
  match sub with
  | 0 => { ld with tys := tysLd, bad := sco }
  | 1 => { st with tys := tysSt, bad := sco }
  | 2 => { ld with tys := tysB, bad := noIx }
  | 3 => { st with tys := tysB, bad := noIx }
  | 4 => { m with d := .sc, long := true, tys := [.b64, .n8, .i8, .n16, .i16, .n32, .i32], bad := noIx }
  | 5 => { m with d := .sc, dr := true, dw := false, tys := [.b64, .n8, .n16, .n32], bad := noIx }
  | 6 => { ld with tys := tysLd, bad := noOrd }
  | 7 => { st with tys := tysSt, bad := noOrd }
  | 8 => { a := SK.base, b := SK.index (x.bit 14), mask := 0x3DFFFF, bad := badIf (x.f 21 19 ≠ 0) 19, v := true }
  | _ => {}

/-- Rows of atom (R225). -/
def rowAtom (sub : Nat) (x : Ext) : Row :=
  let t := x.ty
  let op := x.f 17 15
  let opOk := if t.isBits then 3 ≤ op else op ≤ 2 || 6 ≤ op
  let ret := x.bit 23
  let cas := op = 7
  let sco := badIf (5 < x.f 22 20 || (x.f 22 20 ≠ 0 && x.f 19 18 = 0)) 20
  let tys : List Ty := [.i32, .n32, .i64, .n64, .b32, .b64, .f32]
  let bad := badIf (!opOk) 15 ++ sco ++ badIf (!ret && (cas || x.d ≠ 0)) 23
  match sub with
  | 0 => { d := .vec, dn := nOf t, dr := cas, dw := ret, a := SK.base, b := SK.index (x.bit 12), c := SK.vsl t,
           tys := tys, mask := 0xFFFFFF, bad := bad, long := ret, v := true }
  | 1 => { a := SK.base, b := SK.index (x.bit 12), c := SK.vsl t, tys := [.i32, .f32, .f16x2, .bf16x2],
           mask := 0xFFFFFF, v := true,
           bad := badIf (2 < op) 15 ++ badIf (x.f 19 18 ≠ 0) 18 ++ badIf (x.f 22 20 ≠ 0) 20 ++ badIf ret 23 }
  | 2 => { d := .sc, dr := cas, dw := ret, a := SK.base, c := SK.sl t, tys := tys,
           mask := 0xFFFFFF, bad := badIf (x.bit 12) 12 ++ bad, long := ret }
  | _ => {}

/-- Rows of fence (R270, R272, R280). -/
def rowFence (sub : Nat) (x : Ext) : Row :=
  match sub with
  | 0 => { mask := 0x1F, bad := badIf (5 < x.f 4 2) 2 }
  | 1 => { mask := 0x7FFFF,
           bad := badIf (x.f 7 0 = 0) 0 ++ badIf (x.f 15 8 = 0) 8 ++ badIf (5 < x.f 18 16) 16 }
  | 2 => { d := .sc, dn := 2, a := SK.base, b := SK.sl x.ty, c := SK.sl .n32, tys := tysB, mask := 0x3FFFF,
           bad := badIf (5 < x.f 17 15 || (x.f 17 15 ≠ 0 && !x.bit 14)) 15 }
  | _ => {}

/-- Rows of spad (R233). -/
def rowSpad (sub : Nat) (x : Ext) : Row :=
  match sub with
  | 0 =>
    let one := x.bit 17 || x.bit 18
    { d := if one then .sc else .vec, a := if x.bit 18 then SK.s .n64 else SK.base, b := SK.index (x.bit 14), mask := 0x7FFFF, v := !one,
      bad := badIf (x.bit 17 && (x.bit 14 || x.f 16 15 ≠ 0 || x.bit 18)) 17 ++
             badIf (x.bit 18 && x.x24.toNat ≠ 0x40000) 18 }
  | 1 => { d := .sc, a := SK.base, b := SK.s .n32, c := SK.lat, mask := 0x3FFF }
  | 2 => { d := .sc, a := SK.s .n32, c := SK.lat, mask := 1 }
  | 3 => { d := .sc, a := SK.base, b := SK.s .n32, mask := 0x3FFF }
  | 4 => { d := .sc, a := SK.base, b := SK.sl .b64 }
  | _ => {}

/-- Rows of copy (R240, R248-R250). -/
def rowCopy (sub : Nat) (_x : Ext) : Row :=
  match sub with
  | 0 => { d := .sc, a := SK.sl .b64, mask := 0x7FFF }
  | 1 => { d := .sc, a := SK.sl .b64, b := SK.v .b32, mask := 0x7FFF }
  | 2 => { d := .sc, a := SK.r 4 }
  | 3 => { d := .sc, a := SK.sl .b64, long := true }
  | _ => {}

/-- Rows of latch (R254). -/
def rowLatch (sub : Nat) (x : Ext) : Row :=
  match sub with
  | 0 | 1 => { d := .obj .latch 31, a := SK.sl .n32 }
  | 2 => { d := .sc, a := SK.o .latch 31, b := SK.sl .n32 }
  | 3 => if x.bit 23 then { a := SK.s .b64, mask := 0xFFFFFF }
         else { a := SK.o .latch 31, b := SK.sl .n32, mask := 0xFFFFFF }
  | _ => {}

/-- Rows of mxl (R300). -/
def rowMxl (sub : Nat) (x : Ext) : Row :=
  match sub with
  | 0 => { a := SK.sl .b64 }
  | 4 => { d := .obj .rcd 15, a := SK.sl .b64, b := SK.sl .b64, c := { SK.sl .b64 with opt := true }, mask := 0x1F,
           tys := [.f16, .bf16, .e4m3, .e5m2, .e2m1, .i8, .i4], bad := badIf (2 < x.f 1 0) 0 }
  | 5 => { d := .obj .rcd 15 }
  | 6 => { d := .obj .rcd 15, a := SK.vsl x.ty, b := SK.sl .b64,
           tys := [.b32, .f16, .bf16, .e4m3, .e5m2, .i8, .f16x2, .bf16x2, .e4m3x4, .e5m2x4, .e2m1x8, .i8x4,
                   .i4x8] }
  | _ => {}

/-- Rows of mma (R304). -/
def rowMma (sub : Nat) (x : Ext) : Row :=
  let t := x.ty
  match sub with
  | 0 | 1 => { d := .obj .tile 3, a := SK.sl .b64, b := SK.sl .b64, mask := 0xFF,
               objs := [(.rcd, x.f 3 0), (.rcd, x.f 7 4)] }
  | 2 | 8 => { d := .obj .tile 3, a := SK.sl .b64 }
  | 3 => { d := .vec, dn := x.f 7 0 + 1, a := SK.o .tile 3, b := SK.sl .n32, mask := 0xFF, rnd := true,
           tys := [.f32, .bf16, .f16, .i32], long := true, v := true }
  | 4 => { d := .pred, a := SK.o .tile 3, b := SK.sl .n32, c := SK.vsl t, mask := 0x3F, tys := [.f32, .i32],
           v := true }
  | 5 | 6 => { d := .obj .tile 3, a := SK.base, c := SK.lat, mask := 0x3FFF }
  | 7 => { d := .obj .tile 3, a := { SK.v t with n := x.f 7 0 + 1 }, b := SK.sl .n32, mask := 0xFF,
           tys := [.f32, .bf16, .f16, .i32], v := true }
  | _ => {}

/-- Rows of aset (R321). -/
def rowAset (sub : Nat) (_x : Ext) : Row :=
  match sub with
  | 0 => { d := .obj .other 7, a := SK.sl .b64, b := SK.sl .b64 }
  | 1 => { d := .obj .other 7 }
  | 2 => { d := .sc, a := SK.sl .b64 }
  | 3 => { a := SK.sl .b64, b := SK.sl .b64 }
  | _ => {}

/-- Rows of task (R342). -/
def rowTask (sub : Nat) (x : Ext) : Row :=
  match sub with
  | 0 => { d := .sc, dn := 4, a := SK.sl .b64, mask := 0xFF, bad := badIf (x.f 7 1 ≠ 0 && !x.bit 0) 1,
           long := true }
  | 1 => { d := .sc, a := SK.sl .b64, b := SK.r 4, mask := 1 }
  | 2 => { d := .sc, a := SK.sl .b64, b := SK.r 4, c := SK.r 3, mask := 1 }
  | 4 => { d := .sc, a := SK.base, mask := 0x3FFF }
  | 5 => { d := .sc, a := SK.sl .b64, mask := 3 }
  | _ => {}

/-- Rows of hist (R368). An `mfshort` with j < i + 2 is refused at bit 3, where the field j lies (the model's choice, log 63). -/
def rowHist (sub : Nat) (x : Ext) : Row :=
  let ch := SK.sl .b64
  match sub with
  | 0 => { d := .vec, dn := if x.f 6 5 = 0 then 2 else 1, a := ch, b := SK.pair, c := SK.vsl .n32, tys := [.f32],
           mask := 0x1FF, bad := badIf (1 < x.f 6 5) 5, long := true, v := true }
  | 1 => { d := .vec, dn := 3, a := ch, b := SK.pair, c := SK.vsl .n32, mask := 0x183, long := true, v := true }
  | 2 => { a := ch, b := SK.v .b32, c := SK.pair, mask := 7, bad := badIf (x.f 2 0 = 7) 0, v := true }
  | 3 => { a := ch, mask := 7, bad := badIf (x.f 2 0 = 7) 0 }
  | 4 => { a := ch }
  | 5 => { d := .sc, a := ch, mask := 0xFF, bad := badIf (x.f 5 3 < x.f 2 0 + 2) 3, long := true }
  | 6 => { a := ch, mask := 7 }
  | 7 => { d := .sc, a := ch, mask := 3 }
  | _ => {}

/-- Rows of seq (R388). -/
def rowSeq (sub : Nat) (x : Ext) : Row :=
  let m := SK.sl .b64
  let n := SK.sl .n32
  match sub with
  | 0 => { d := .vec, even := true, dn := 3, a := m, b := SK.vs .b32, c := SK.vs .b32, mask := 0xFF, long := true,
           v := true }
  | 1 => { d := .sc, a := m, b := n, c := n, mask := 3, bad := badIf (x.f 1 0 = 3) 0 }
  | 2 => { d := .sc, a := m, b := SK.r 3 }
  | 3 => { d := .sc, a := m, b := n, c := if x.bit 0 then n else SK.byX24, mask := 1,
           bad := badIf (!x.bit 0 && (x.c.cls ≠ .vec || x.c.code ≠ 0)) 0 }
  | 4 => { d := .sc, a := m, b := n, c := n }
  | 5 => { d := .sc, a := m, b := n, c := n, mask := 1 }
  | _ => {}

/-- Rows of surf (R404). -/
def rowSurf (sub : Nat) (x : Ext) : Row :=
  let cnt := x.f 3 2 + 1
  let h := SK.sl .b64
  match sub with
  | 0 => { d := .vec, dn := cnt, a := h, b := SK.pair, tys := [.f32, .b32], mask := 0xF, long := true, v := true }
  | 1 => { a := h, b := SK.pair, c := { SK.v .b32 with n := cnt }, tys := [.f32, .b32], mask := 0xF, v := true }
  | 2 => { d := .vec, dn := cnt, a := h, b := SK.pair, tys := [.f32], mask := 0x7F, long := true, v := true }
  | 3 => { d := .sc, a := h, mask := 3 }
  | _ => {}

/-- Rows of tile (R420). -/
def rowTile (sub : Nat) (_x : Ext) : Row :=
  let h := SK.sl .b64
  match sub with
  | 0 => { d := .sc, a := SK.base, mask := 0x3FFF }
  | 1 => { a := h, b := { SK.v .b32 with n := 6 }, v := true }
  | 2 => { a := h, b := { SK.v .b32 with n := 8 }, v := true }
  | 3 => { a := h, b := { SK.v .b32 with n := 11 }, v := true }
  | 4 => { a := h }
  | 5 => { d := .sc, a := SK.r 4, b := { SK.v .b32 with n := 4 } }
  | 6 => { d := .sc, a := h, mask := 7 }
  | _ => {}

/-- Rows of sys (R429). -/
def rowSys (sub : Nat) (x : Ext) : Row :=
  let cr := x.f 11 0
  let bad := badIf ((7 < cr && cr < 16) || 19 < cr) 0
  match sub with
  | 0 => { d := .sc, mask := 0xFFF, bad := bad }
  | 1 => { a := SK.sl .b64, mask := 0xFFF, bad := bad }
  | 2 => { mask := 0xFFFF }
  | 4 => { d := .pred, v := true }
  | _ => {}

/-- Rows of reg (R153). -/
def rowReg (sub : Nat) (x : Ext) : Row :=
  let t := x.ty
  let sc := x.bit 8
  let ts : List Ty := if sc then [.b64] else [.b32, .b64]
  match sub with
  | 0 => { d := if sc then .sc else .vec, dn := if sc then 1 else nOf t, a := SK.s .b64, tys := ts, mask := 0x1FF,
           v := !sc }
  | 1 => { a := SK.s .b64, b := if sc then SK.r 1 else SK.v t, tys := ts, mask := 0x1FF, v := !sc }
  | 2 => { d := .vec, dr := true, mask := 3, bad := badIf (1 < x.f 1 0) 0, v := true }
  | 3 => { d := .sc, a := SK.v .b32 }
  | 4 => { mask := 1 }
  | 5 => { d := .vec, dn := nOf t, a := SK.sl t, tys := [.b32, .i32, .n32, .f32, .b64, .i64, .n64, .f64], v := true }
  | 6 => { d := .sc, a := SK.v t, b := SK.s .n32, tys := [.b32, .i32, .b64] }
  | _ => {}

/-- The row of an operation of a team of width w (the width sizes the mask runs of R135 only). -/
def rowOf (w opc sub : Nat) (x : Ext) : Row :=
  match opc with
  | 0x40 => rowCtrl sub x | 0x41 => rowMask w sub x | 0x42 => rowSalu sub x | 0x43 => rowVint sub x
  | 0x44 => rowVfp sub x | 0x45 => rowVcvt sub x | 0x46 => rowVsfu sub x | 0x47 => rowVdot sub x
  | 0x48 => rowVxl sub x | 0x49 => rowPred sub x | 0x4A => rowLdst sub x | 0x4B => rowAtom sub x
  | 0x4C => rowFence sub x | 0x4D => rowSpad sub x | 0x4E => rowCopy sub x | 0x4F => rowLatch sub x
  | 0x50 => rowMxl sub x | 0x51 => rowMma sub x | 0x52 => rowAset sub x | 0x53 => rowTask sub x
  | 0x54 => rowHist sub x | 0x55 => rowSeq sub x | 0x56 => rowSurf sub x | 0x57 => rowTile sub x
  | 0x58 => rowSys sub x | 0x59 => rowReg sub x
  | _ => {}

/-! ## The checks of R82 -/

/-- The first of a list of optional answers. -/
def firstSome {α : Type} : List (Option α) → Option α
  | [] => none
  | some a :: _ => some a
  | none :: l => firstSome l

/-- An answer when a condition holds. -/
def errIf (c : Bool) (reason detail : Nat) : Option (Nat × Nat) := if c then some (reason, detail) else none

/-- Check 7 for one position: the class is one the owner permits. Class 00 with another code than 0 fails here where it means an
absent base, and under check 10 where it means an absent latch or record count (the model's choice, log 63). -/
def clsBad (k : SK) (s : Src) : Bool :=
  if !k.used then s.isLit && !k.zero && !k.x24
  else match s.cls with
    | .vec => !(k.vec || k.opt || (k.abs && s.code = 0))
    | .sc => !(k.sc || k.lo)
    | .pred => !k.pred
    | .obj => if s.code = 0xFF then !k.lit else k.obj.isNone

/-- Check 8 for one position: the code is one the owner permits. An odd code where the owner asks for an even pair of 32-bit
registers fails this check too (the model's choice, log 63). -/
def codeBad (k : SK) (s : Src) : Bool :=
  if !k.used then false
  else match s.cls with
    | .vec => k.vec && (k.even || k.ty.wide) && s.code.toNat % 2 = 1
    | .sc => (142 ≤ s.code.toNat && s.code.toNat ≤ 191) || (!k.sc && 128 ≤ s.code.toNat)
    | .pred => 23 < s.code.toNat
    | .obj => s.code ≠ 0xFF && (match k.obj with
        | some (_, m) => m < s.code.toNat
        | none => false)

/-- Check 10 for one position: a mode bit that R73 requires to be 0, or an unused field that is not 0. -/
def modeBad (k : SK) (s : Src) : Bool :=
  if k.x24 then s.trp
  else if !k.used then s.cls ≠ .vec || s.code ≠ 0 || s.trp
  else if k.opt && s.cls = .vec && !k.vec then s.code ≠ 0 || s.trp
  else s.trp && !((s.cls = .vec && k.vec) || (s.cls = .sc && s.code.toNat < 128))

/-- Whether a literal's high bits are the widening of its low bits in a type (R72). -/
def litOk (t : Ty) (l : Word64) : Bool :=
  if t.width = 64 then true
  else
    let low := l.toNat % 2 ^ t.width
    if t.signed then l.toNat = patN 64 (sextN t.width low) else l.toNat = low

/-- Check 8 for D (R74), with an odd code of an even pair of 32-bit registers (the model's choice, log 63). -/
def dBad (r : Row) (t : Ty) (x : Ext) : Bool :=
  match r.d with
  | .none => false
  | .vec => (r.even || t.wide) && x.d.toNat % 2 = 1
  | .sc => 127 < x.d.toNat
  | .pred => 23 < x.d.toNat
  | .obj _ m => m < x.d.toNat

/-- `accmp` with a run of predicates beyond p22 (R304). -/
def accmpBad (opc sub : Nat) (x : Ext) : Bool :=
  opc = 0x51 && sub = 4 && 22 < x.d.toNat + x.f 5 3

/-- The operand positions that name the literal, with their tables' rows. -/
def litPos (r : Row) (x : Ext) : List (Nat × SK) :=
  (if x.a.isLit then [(1, r.a)] else []) ++ (if x.b.isLit then [(2, r.b)] else []) ++
  (if x.c.isLit then [(3, r.c)] else [])

/-- Check 9 of R82. Of two operands that name the literal the second is reported when a literal is present and the first when
none is; a literal whose high bits break R72 is reported at position 4, not at the operand that names it (the model's choice, log
63). -/
def litErr (r : Row) (x : Ext) : Option (Nat × Nat) :=
  match x.lit with
  | none => ((litPos r x).find? (fun p => p.2.lit)).map (fun p => (9, p.1))
  | some l => match litPos r x with
    | [] => some (9, 4)
    | [(_, k)] => if k.raw || litOk k.ty l then none else some (9, 4)
    | _ :: (q, _) :: _ => some (9, q)

/-- The lowest set bit below 24, or 24. -/
def lowBit (n : Nat) : Nat := ((List.range 24).find? (fun i => n.testBit i)).getD 24

/-- The least of a list of numbers, none when it is empty: of several X24 fields that hold reserved values check 12 reports the
lowest (the model's choice, log 63). -/
def leastOf : List Nat → Option Nat
  | [] => none
  | a :: l => match leastOf l with
    | none => some a
    | some b => some (min a b)

/-- Checks 4 to 12 of R82 on an extended form: the reason and detail of the first that fails. Of two positions that fail one
check the first in the order D, A, B, C is reported (the model's choice, log 63). -/
def extErr (opc sub : Nat) (x : Ext) : Option (Nat × Nat) :=
  let r := rowOf 32 opc sub x
  firstSome [
    errIf (23 < x.g.toNat) 4 x.g.toNat,
    errIf (!r.rnd && x.rnd ≠ .rs) 5 x.rnd.code,
    errIf (!r.tys.contains x.ty) 6 x.ty.code,
    errIf (clsBad r.a x.a) 7 1, errIf (clsBad r.b x.b) 7 2, errIf (clsBad r.c x.c) 7 3,
    errIf (dBad r x.ty x || accmpBad opc sub x) 8 0,
    errIf (codeBad r.a x.a) 8 1, errIf (codeBad r.b x.b) 8 2, errIf (codeBad r.c x.c) 8 3,
    litErr r x,
    errIf (r.d = .none && x.d ≠ 0) 10 0,
    errIf (modeBad r.a x.a) 10 1, errIf (modeBad r.b x.b) 10 2, errIf (modeBad r.c x.c) 10 3,
    errIf (x.x24.toNat &&& (0xFFFFFF - r.mask) ≠ 0) 11 (lowBit (x.x24.toNat &&& (0xFFFFFF - r.mask))),
    match leastOf r.bad with
    | none => none
    | some n => some (12, n)]

/-- What the fields of a one-word form mean (R78). -/
inductive ShortK where
  | nop | vmov | smov | v2 (t : Ty) | s2 (t : Ty) | br | loop | memV | memS | qpop | tend | ychk
  deriving DecidableEq, Repr

/-- The kind of each one-word form (R78). -/
def shortKind (opc : Nat) : ShortK :=
  match opc with
  | 0x01 => .vmov | 0x02 => .smov
  | 0x03 | 0x04 => .v2 .i32
  | 0x05 | 0x06 | 0x07 | 0x08 | 0x09 => .v2 .b32
  | 0x0A | 0x0B | 0x0C | 0x0D => .v2 .f32
  | 0x0E | 0x0F => .s2 .i64
  | 0x10 | 0x11 | 0x12 | 0x13 => .s2 .b64
  | 0x14 | 0x15 | 0x16 => .br
  | 0x17 => .loop
  | 0x18 | 0x19 => .memV
  | 0x1A | 0x1B => .memS
  | 0x1C => .qpop | 0x1D => .tend | 0x1E => .ychk
  | _ => .nop

/-- The type in which a form reads its literal; none where `len` 10 is refused (R78). -/
def ShortK.litTy : ShortK → Option Ty
  | .vmov => some .b32 | .smov => some .b64
  | .v2 t | .s2 t => some t
  | _ => none

/-- Whether D is a scalar register. -/
def ShortK.dSc : ShortK → Bool
  | .smov | .s2 _ | .loop | .memS | .qpop => true
  | _ => false

/-- Whether A is a scalar code. -/
def ShortK.aSc : ShortK → Bool
  | .smov | .s2 _ | .memV | .memS | .qpop => true
  | _ => false

/-- Whether A is a vector register. -/
def ShortK.aVec : ShortK → Bool
  | .vmov | .v2 _ => true
  | _ => false

/-- Check 9 of R82 on a one-word form. A literal on a form that R78 refuses, and one whose high bits break R72, are reported at
position 4, the literal itself (the model's choice, log 63). -/
def shortLit (k : ShortK) (x : Short) : Option (Nat × Nat) :=
  match x.lit with
  | none => none
  | some l => match k.litTy with
    | none => some (9, 4)
    | some t => if x.a ≠ 0 || x.fa then some (9, 1) else if litOk t l then none else some (9, 4)

/-- Checks 4 to 12 of R82 on a one-word form (R73, R78). -/
def shortErr (opc : Nat) (x : Short) : Option (Nat × Nat) :=
  let k := shortKind opc
  let a := x.a.toNat
  firstSome [
    errIf (23 < x.g.toNat) 4 x.g.toNat,
    errIf ((k.dSc && 127 < x.d.toNat) || (k = .ychk && 23 < x.d.toNat)) 8 0,
    errIf (k.aSc && 142 ≤ a && a ≤ 191) 8 1,
    shortLit k x,
    errIf (k = .tend && x.d ≠ 0) 10 0,
    errIf ((x.fa && !(k.aVec || (k.aSc && a < 128))) || ((k = .tend || k = .ychk) && x.a ≠ 0)) 10 1]

/-- What the words of an instruction carry: a one-word form with its OPC, an extended form with OPC and
SUB, or nothing (an event has no encoding). -/
inductive Form where
  | one (opc : Nat) (x : Short)
  | ext (opc sub : Nat) (x : Ext)
  | event
  deriving DecidableEq, Repr

/-- The OPC, SUB and fields of each instruction (R78, R80). -/
def Instr.form : Instr → Form
  | .nopShort x => .one 0x00 x
  | .vmov x => .one 0x01 x
  | .smov x => .one 0x02 x
  | .vaddI32Short x => .one 0x03 x
  | .vsubI32Short x => .one 0x04 x
  | .vandShort x => .one 0x05 x
  | .vorShort x => .one 0x06 x
  | .vxorShort x => .one 0x07 x
  | .vshlShort x => .one 0x08 x
  | .vshrShort x => .one 0x09 x
  | .vaddF32Short x => .one 0x0A x
  | .vmulF32Short x => .one 0x0B x
  | .vminF32Short x => .one 0x0C x
  | .vmaxF32Short x => .one 0x0D x
  | .saddShort x => .one 0x0E x
  | .ssubShort x => .one 0x0F x
  | .sandShort x => .one 0x10 x
  | .sorShort x => .one 0x11 x
  | .sshlShort x => .one 0x12 x
  | .sshrShort x => .one 0x13 x
  | .braShort x => .one 0x14 x
  | .bmzShort x => .one 0x15 x
  | .bmnzShort x => .one 0x16 x
  | .loopShort x => .one 0x17 x
  | .ldvShort x => .one 0x18 x
  | .stvShort x => .one 0x19 x
  | .ldsShort x => .one 0x1A x
  | .stsShort x => .one 0x1B x
  | .qpopShort x => .one 0x1C x
  | .tendShort x => .one 0x1D x
  | .ychkShort x => .one 0x1E x
  | .bra x => .ext 0x40 0x00 x
  | .bmz x => .ext 0x40 0x01 x
  | .bmnz x => .ext 0x40 0x02 x
  | .bsc x => .ext 0x40 0x03 x
  | .call x => .ext 0x40 0x04 x
  | .ret x => .ext 0x40 0x05 x
  | .jmp x => .ext 0x40 0x06 x
  | .loop x => .ext 0x40 0x07 x
  | .texit x => .ext 0x40 0x08 x
  | .brk x => .ext 0x40 0x09 x
  | .nop x => .ext 0x40 0x0A x
  | .pmask x => .ext 0x41 0x00 x
  | .mpred x => .ext 0x41 0x01 x
  | .mpop x => .ext 0x41 0x02 x
  | .mfirst x => .ext 0x41 0x03 x
  | .sadd x => .ext 0x42 0x00 x
  | .ssub x => .ext 0x42 0x01 x
  | .smul x => .ext 0x42 0x02 x
  | .smulh x => .ext 0x42 0x03 x
  | .sand x => .ext 0x42 0x04 x
  | .sor x => .ext 0x42 0x05 x
  | .sxor x => .ext 0x42 0x06 x
  | .sandn x => .ext 0x42 0x07 x
  | .sshl x => .ext 0x42 0x08 x
  | .sshr x => .ext 0x42 0x09 x
  | .ssar x => .ext 0x42 0x0A x
  | .smin x => .ext 0x42 0x0B x
  | .smax x => .ext 0x42 0x0C x
  | .sclz x => .ext 0x42 0x0D x
  | .spopc x => .ext 0x42 0x0E x
  | .sbfe x => .ext 0x42 0x0F x
  | .sbfi x => .ext 0x42 0x10 x
  | .ssel x => .ext 0x42 0x11 x
  | .scmp x => .ext 0x42 0x12 x
  | .sdiv x => .ext 0x42 0x13 x
  | .vintVadd x => .ext 0x43 0x00 x
  | .vintVsub x => .ext 0x43 0x01 x
  | .vintVmul x => .ext 0x43 0x02 x
  | .vmulh x => .ext 0x43 0x03 x
  | .vmad x => .ext 0x43 0x04 x
  | .vintVmin x => .ext 0x43 0x05 x
  | .vintVmax x => .ext 0x43 0x06 x
  | .vabs x => .ext 0x43 0x07 x
  | .vand x => .ext 0x43 0x08 x
  | .vor x => .ext 0x43 0x09 x
  | .vxor x => .ext 0x43 0x0A x
  | .vandn x => .ext 0x43 0x0B x
  | .vnot x => .ext 0x43 0x0C x
  | .vshl x => .ext 0x43 0x0D x
  | .vshr x => .ext 0x43 0x0E x
  | .vsar x => .ext 0x43 0x0F x
  | .vclz x => .ext 0x43 0x10 x
  | .vpopc x => .ext 0x43 0x11 x
  | .vbrev x => .ext 0x43 0x12 x
  | .vbfe x => .ext 0x43 0x13 x
  | .vbfi x => .ext 0x43 0x14 x
  | .vsel x => .ext 0x43 0x15 x
  | .vilv x => .ext 0x43 0x16 x
  | .vdil x => .ext 0x43 0x17 x
  | .vlaneid x => .ext 0x43 0x18 x
  | .vaddc x => .ext 0x43 0x19 x
  | .vfpVadd x => .ext 0x44 0x00 x
  | .vfpVsub x => .ext 0x44 0x01 x
  | .vfpVmul x => .ext 0x44 0x02 x
  | .vfma x => .ext 0x44 0x03 x
  | .vfpVmin x => .ext 0x44 0x04 x
  | .vfpVmax x => .ext 0x44 0x05 x
  | .vmed3 x => .ext 0x44 0x06 x
  | .vrint x => .ext 0x44 0x07 x
  | .vfract x => .ext 0x44 0x08 x
  | .vldexp x => .ext 0x44 0x09 x
  | .vfrexp x => .ext 0x44 0x0A x
  | .vclass x => .ext 0x44 0x0B x
  | .vcopysign x => .ext 0x44 0x0C x
  | .vcvt x => .ext 0x45 0x00 x
  | .vpackn x => .ext 0x45 0x01 x
  | .vunpackn x => .ext 0x45 0x02 x
  | .vbscale x => .ext 0x45 0x03 x
  | .vquant x => .ext 0x45 0x04 x
  | .vrcp x => .ext 0x46 0x00 x
  | .vrsq x => .ext 0x46 0x01 x
  | .vsqrt x => .ext 0x46 0x02 x
  | .vex2 x => .ext 0x46 0x03 x
  | .vlg2 x => .ext 0x46 0x04 x
  | .vsin x => .ext 0x46 0x05 x
  | .vcos x => .ext 0x46 0x06 x
  | .vtanh x => .ext 0x46 0x07 x
  | .vrot x => .ext 0x46 0x08 x
  | .vdiv x => .ext 0x46 0x09 x
  | .vdot8 x => .ext 0x47 0x00 x
  | .vdot4 x => .ext 0x47 0x01 x
  | .vdotf8 x => .ext 0x47 0x02 x
  | .vdotf4 x => .ext 0x47 0x03 x
  | .shfl x => .ext 0x48 0x00 x
  | .shfx x => .ext 0x48 0x01 x
  | .shfr x => .ext 0x48 0x02 x
  | .bcast x => .ext 0x48 0x03 x
  | .vote x => .ext 0x48 0x04 x
  | .reduce x => .ext 0x48 0x05 x
  | .scan x => .ext 0x48 0x06 x
  | .vcmp x => .ext 0x49 0x00 x
  | .plog x => .ext 0x49 0x01 x
  | .pset x => .ext 0x49 0x02 x
  | .ld x => .ext 0x4A 0x00 x
  | .st x => .ext 0x4A 0x01 x
  | .ldv x => .ext 0x4A 0x02 x
  | .stv x => .ext 0x4A 0x03 x
  | .lds x => .ext 0x4A 0x04 x
  | .sts x => .ext 0x4A 0x05 x
  | .ldsp x => .ext 0x4A 0x06 x
  | .stsp x => .ext 0x4A 0x07 x
  | .pref x => .ext 0x4A 0x08 x
  | .atom x => .ext 0x4B 0x00 x
  | .red x => .ext 0x4B 0x01 x
  | .atoms x => .ext 0x4B 0x02 x
  | .fence x => .ext 0x4C 0x00 x
  | .xfence x => .ext 0x4C 0x01 x
  | .mwait x => .ext 0x4C 0x02 x
  | .tlook x => .ext 0x4D 0x00 x
  | .tfill x => .ext 0x4D 0x01 x
  | .tevict x => .ext 0x4D 0x02 x
  | .tset x => .ext 0x4D 0x03 x
  | .tinv x => .ext 0x4D 0x04 x
  | .cpy x => .ext 0x4E 0x00 x
  | .cpyg x => .ext 0x4E 0x01 x
  | .cpyw x => .ext 0x4E 0x02 x
  | .cpyq x => .ext 0x4E 0x03 x
  | .ltinit x => .ext 0x4F 0x00 x
  | .ltarr x => .ext 0x4F 0x01 x
  | .ltwait x => .ext 0x4F 0x02 x
  | .yield x => .ext 0x4F 0x03 x
  | .mlease x => .ext 0x50 0x00 x
  | .mrelease x => .ext 0x50 0x01 x
  | .pintle x => .ext 0x50 0x02 x
  | .pnwait x => .ext 0x50 0x03 x
  | .obres x => .ext 0x50 0x04 x
  | .obfree x => .ext 0x50 0x05 x
  | .obput x => .ext 0x50 0x06 x
  | .mma x => .ext 0x51 0x00 x
  | .mmas x => .ext 0x51 0x01 x
  | .acz x => .ext 0x51 0x02 x
  | .resolve x => .ext 0x51 0x03 x
  | .accmp x => .ext 0x51 0x04 x
  | .acst x => .ext 0x51 0x05 x
  | .acld x => .ext 0x51 0x06 x
  | .acadd x => .ext 0x51 0x07 x
  | .acanch x => .ext 0x51 0x08 x
  | .asdecl x => .ext 0x52 0x00 x
  | .asclr x => .ext 0x52 0x01 x
  | .asqry x => .ext 0x52 0x02 x
  | .asundo x => .ext 0x52 0x03 x
  | .qpop x => .ext 0x53 0x00 x
  | .qpush x => .ext 0x53 0x01 x
  | .qwpush x => .ext 0x53 0x02 x
  | .tend x => .ext 0x53 0x03 x
  | .dcdec x => .ext 0x53 0x04 x
  | .qinfo x => .ext 0x53 0x05 x
  | .hld x => .ext 0x54 0x00 x
  | .hwalk x => .ext 0x54 0x01 x
  | .mfst x => .ext 0x54 0x02 x
  | .mfseal x => .ext 0x54 0x03 x
  | .chadv x => .ext 0x54 0x04 x
  | .mfshort x => .ext 0x54 0x05 x
  | .mfinv x => .ext 0x54 0x06 x
  | .chqry x => .ext 0x54 0x07 x
  | .kvx x => .ext 0x55 0x00 x
  | .kvmap x => .ext 0x55 0x01 x
  | .kvshare x => .ext 0x55 0x02 x
  | .kvlen x => .ext 0x55 0x03 x
  | .kvpin x => .ext 0x55 0x04 x
  | .kvunpin x => .ext 0x55 0x05 x
  | .sld x => .ext 0x56 0x00 x
  | .sst x => .ext 0x56 0x01 x
  | .samp x => .ext 0x56 0x02 x
  | .sqry x => .ext 0x56 0x03 x
  | .binbeg x => .ext 0x57 0x00 x
  | .primr x => .ext 0x57 0x01 x
  | .primt x => .ext 0x57 0x02 x
  | .prims x => .ext 0x57 0x03 x
  | .binend x => .ext 0x57 0x04 x
  | .fragout x => .ext 0x57 0x05 x
  | .tstat x => .ext 0x57 0x06 x
  | .srd x => .ext 0x58 0x00 x
  | .swr x => .ext 0x58 0x01 x
  | .trap x => .ext 0x58 0x02 x
  | .tret x => .ext 0x58 0x03 x
  | .ychk x => .ext 0x58 0x04 x
  | .ysave x => .ext 0x58 0x05 x
  | .rmovx x => .ext 0x59 0x00 x
  | .rstx x => .ext 0x59 0x01 x
  | .shape x => .ext 0x59 0x02 x
  | .shqry x => .ext 0x59 0x03 x
  | .rkeep x => .ext 0x59 0x04 x
  | .vbcs x => .ext 0x59 0x05 x
  | .vext x => .ext 0x59 0x06 x
  | .instructionFetch _ => .event
  | .mailboxCreateContext _ => .event
  | .mailboxDestroyContext _ => .event
  | .mailboxCreateQueue _ => .event
  | .mailboxDestroyQueue _ => .event
  | .mailboxSwitchContextOut _ => .event
  | .mailboxSwitchContextIn _ => .event
  | .mailboxGrantExtent _ => .event
  | .mailboxReleaseExtent _ => .event
  | .extentReleaseDone _ => .event
  | .mailboxClearOverflow _ => .event
  | .mailboxLoadImage _ => .event
  | .mailboxAttestationQuote _ => .event
  | .mailboxUpdate _ => .event
  | .updateComplete _ => .event
  | .mailboxSelectBar4Context _ => .event
  | .hosterrClear => .event
  | .bar0RegisterWrite _ _ => .event
  | .hostEnqueue _ _ => .event
  | .overflowAppend _ => .event
  | .bar4Read _ _ => .event
  | .bar4Write _ _ => .event
  | .deviceStart => .event
  | .bootFailure _ => .event
  | .cxlPortDown _ => .event
  | .palyrPortDown _ => .event
  | .heartbeatTick => .event
  | .extentRevoke _ => .event
  | .shootdown _ _ _ _ => .event
  | .spareCore _ _ => .event
  | .spareChannel _ => .event
  | .spareSlice _ _ => .event
  | .sparingEnd => .event
  | .softErrorCorrected => .event
  | .subarrayRefresh _ _ => .event
  | .launchEntryArrival _ _ => .event
  | .headerFetch _ => .event
  | .teamPlacement _ _ => .event
  | .dispatchStart _ _ => .event
  | .argumentArrival _ _ => .event
  | .launchStatusWrite _ => .event
  | .texitComplete _ => .event
  | .preemptRequest _ => .event
  | .ydlExpiry _ => .event
  | .timesliceExpiry _ => .event
  | .saveComplete _ => .event
  | .recordReclaim _ _ => .event
  | .restoreRequest _ _ _ => .event
  | .restoreComplete _ => .event
  | .accessResponse _ => .event
  | .translationWalk _ => .event
  | .faultServiced _ _ _ _ => .event
  | .faultDeclined _ _ => .event
  | .storeFailure _ _ => .event
  | .releaseGateOpen _ => .event
  | .redCombine _ => .event
  | .mwaitWake _ => .event
  | .mwaitTimeout _ => .event
  | .mwaitRepoll _ => .event
  | .fenceComplete _ => .event
  | .fillComplete _ _ => .event
  | .fillFailure _ _ _ => .event
  | .writebackComplete _ _ => .event
  | .writebackFailure _ _ _ => .event
  | .poolUseEnd _ _ => .event
  | .copyDescriptorRead _ _ => .event
  | .copyComplete _ _ => .event
  | .latchArrival _ _ _ _ => .event
  | .leaseGrant _ => .event
  | .leaseIdleExpiry _ => .event
  | .mmaExecute _ => .event
  | .obfreeRelease _ _ => .event
  | .resolveComplete _ => .event
  | .acstComplete _ => .event
  | .acldComplete _ => .event
  | .sfuComplete _ => .event
  | .setRequestArrival _ _ => .event
  | .setGrant _ => .event
  | .woundTake _ => .event
  | .rollbackComplete _ => .event
  | .tendCommit _ => .event
  | .queuePushArrival _ => .event
  | .queuePopArrival _ => .event
  | .dcdecApply _ => .event
  | .qwpushPayloadDone _ => .event
  | .walkComplete _ => .event
  | .walkWaitRetest _ => .event
  | .mfstApply _ => .event
  | .mfsealApply _ => .event
  | .chadvApply _ => .event
  | .mfshortComplete _ => .event
  | .kvxComplete _ => .event
  | .kvxWaitRetest _ => .event
  | .kvMoveComplete _ => .event
  | .detentExpiry => .event
  | .victimConfirm _ => .event
  | .victimVeto _ => .event
  | .victimReorder _ => .event
  | .evictionComplete _ => .event
  | .samplerComplete _ => .event
  | .tileProcess _ _ => .event
  | .fragmentPush _ _ => .event
  | .tileComposite _ _ => .event
  | .tileKill _ _ => .event
  | .trapDelivery _ => .event
  | .tretResume _ => .event
  | .ysaveImage _ => .event
  | .shootdownComplete _ _ _ => .event
  | .pcieLinkDown => .event
  | .writePerformed _ => .event
  | .palyrPeerAccess _ => .event
  | .uncorrectableError _ => .event
  | .softErrorWindowExpiry => .event

/-- The one-word form of an OPC (R78). -/
def mkShort : Nat → Option (Short → Instr)
  | 0x00 => some .nopShort
  | 0x01 => some .vmov
  | 0x02 => some .smov
  | 0x03 => some .vaddI32Short
  | 0x04 => some .vsubI32Short
  | 0x05 => some .vandShort
  | 0x06 => some .vorShort
  | 0x07 => some .vxorShort
  | 0x08 => some .vshlShort
  | 0x09 => some .vshrShort
  | 0x0A => some .vaddF32Short
  | 0x0B => some .vmulF32Short
  | 0x0C => some .vminF32Short
  | 0x0D => some .vmaxF32Short
  | 0x0E => some .saddShort
  | 0x0F => some .ssubShort
  | 0x10 => some .sandShort
  | 0x11 => some .sorShort
  | 0x12 => some .sshlShort
  | 0x13 => some .sshrShort
  | 0x14 => some .braShort
  | 0x15 => some .bmzShort
  | 0x16 => some .bmnzShort
  | 0x17 => some .loopShort
  | 0x18 => some .ldvShort
  | 0x19 => some .stvShort
  | 0x1A => some .ldsShort
  | 0x1B => some .stsShort
  | 0x1C => some .qpopShort
  | 0x1D => some .tendShort
  | 0x1E => some .ychkShort
  | _ => none

/-- The operations of group 0x40 by SUB (R80). -/
def mkExt40 : Nat → Option (Ext → Instr)
  | 0x00 => some .bra
  | 0x01 => some .bmz
  | 0x02 => some .bmnz
  | 0x03 => some .bsc
  | 0x04 => some .call
  | 0x05 => some .ret
  | 0x06 => some .jmp
  | 0x07 => some .loop
  | 0x08 => some .texit
  | 0x09 => some .brk
  | 0x0A => some .nop
  | _ => none

/-- The operations of group 0x41 by SUB (R80). -/
def mkExt41 : Nat → Option (Ext → Instr)
  | 0x00 => some .pmask
  | 0x01 => some .mpred
  | 0x02 => some .mpop
  | 0x03 => some .mfirst
  | _ => none

/-- The operations of group 0x42 by SUB (R80). -/
def mkExt42 : Nat → Option (Ext → Instr)
  | 0x00 => some .sadd
  | 0x01 => some .ssub
  | 0x02 => some .smul
  | 0x03 => some .smulh
  | 0x04 => some .sand
  | 0x05 => some .sor
  | 0x06 => some .sxor
  | 0x07 => some .sandn
  | 0x08 => some .sshl
  | 0x09 => some .sshr
  | 0x0A => some .ssar
  | 0x0B => some .smin
  | 0x0C => some .smax
  | 0x0D => some .sclz
  | 0x0E => some .spopc
  | 0x0F => some .sbfe
  | 0x10 => some .sbfi
  | 0x11 => some .ssel
  | 0x12 => some .scmp
  | 0x13 => some .sdiv
  | _ => none

/-- The operations of group 0x43 by SUB (R80). -/
def mkExt43 : Nat → Option (Ext → Instr)
  | 0x00 => some .vintVadd
  | 0x01 => some .vintVsub
  | 0x02 => some .vintVmul
  | 0x03 => some .vmulh
  | 0x04 => some .vmad
  | 0x05 => some .vintVmin
  | 0x06 => some .vintVmax
  | 0x07 => some .vabs
  | 0x08 => some .vand
  | 0x09 => some .vor
  | 0x0A => some .vxor
  | 0x0B => some .vandn
  | 0x0C => some .vnot
  | 0x0D => some .vshl
  | 0x0E => some .vshr
  | 0x0F => some .vsar
  | 0x10 => some .vclz
  | 0x11 => some .vpopc
  | 0x12 => some .vbrev
  | 0x13 => some .vbfe
  | 0x14 => some .vbfi
  | 0x15 => some .vsel
  | 0x16 => some .vilv
  | 0x17 => some .vdil
  | 0x18 => some .vlaneid
  | 0x19 => some .vaddc
  | _ => none

/-- The operations of group 0x44 by SUB (R80). -/
def mkExt44 : Nat → Option (Ext → Instr)
  | 0x00 => some .vfpVadd
  | 0x01 => some .vfpVsub
  | 0x02 => some .vfpVmul
  | 0x03 => some .vfma
  | 0x04 => some .vfpVmin
  | 0x05 => some .vfpVmax
  | 0x06 => some .vmed3
  | 0x07 => some .vrint
  | 0x08 => some .vfract
  | 0x09 => some .vldexp
  | 0x0A => some .vfrexp
  | 0x0B => some .vclass
  | 0x0C => some .vcopysign
  | _ => none

/-- The operations of group 0x45 by SUB (R80). -/
def mkExt45 : Nat → Option (Ext → Instr)
  | 0x00 => some .vcvt
  | 0x01 => some .vpackn
  | 0x02 => some .vunpackn
  | 0x03 => some .vbscale
  | 0x04 => some .vquant
  | _ => none

/-- The operations of group 0x46 by SUB (R80). -/
def mkExt46 : Nat → Option (Ext → Instr)
  | 0x00 => some .vrcp
  | 0x01 => some .vrsq
  | 0x02 => some .vsqrt
  | 0x03 => some .vex2
  | 0x04 => some .vlg2
  | 0x05 => some .vsin
  | 0x06 => some .vcos
  | 0x07 => some .vtanh
  | 0x08 => some .vrot
  | 0x09 => some .vdiv
  | _ => none

/-- The operations of group 0x47 by SUB (R80). -/
def mkExt47 : Nat → Option (Ext → Instr)
  | 0x00 => some .vdot8
  | 0x01 => some .vdot4
  | 0x02 => some .vdotf8
  | 0x03 => some .vdotf4
  | _ => none

/-- The operations of group 0x48 by SUB (R80). -/
def mkExt48 : Nat → Option (Ext → Instr)
  | 0x00 => some .shfl
  | 0x01 => some .shfx
  | 0x02 => some .shfr
  | 0x03 => some .bcast
  | 0x04 => some .vote
  | 0x05 => some .reduce
  | 0x06 => some .scan
  | _ => none

/-- The operations of group 0x49 by SUB (R80). -/
def mkExt49 : Nat → Option (Ext → Instr)
  | 0x00 => some .vcmp
  | 0x01 => some .plog
  | 0x02 => some .pset
  | _ => none

/-- The operations of group 0x4A by SUB (R80). -/
def mkExt4A : Nat → Option (Ext → Instr)
  | 0x00 => some .ld
  | 0x01 => some .st
  | 0x02 => some .ldv
  | 0x03 => some .stv
  | 0x04 => some .lds
  | 0x05 => some .sts
  | 0x06 => some .ldsp
  | 0x07 => some .stsp
  | 0x08 => some .pref
  | _ => none

/-- The operations of group 0x4B by SUB (R80). -/
def mkExt4B : Nat → Option (Ext → Instr)
  | 0x00 => some .atom
  | 0x01 => some .red
  | 0x02 => some .atoms
  | _ => none

/-- The operations of group 0x4C by SUB (R80). -/
def mkExt4C : Nat → Option (Ext → Instr)
  | 0x00 => some .fence
  | 0x01 => some .xfence
  | 0x02 => some .mwait
  | _ => none

/-- The operations of group 0x4D by SUB (R80). -/
def mkExt4D : Nat → Option (Ext → Instr)
  | 0x00 => some .tlook
  | 0x01 => some .tfill
  | 0x02 => some .tevict
  | 0x03 => some .tset
  | 0x04 => some .tinv
  | _ => none

/-- The operations of group 0x4E by SUB (R80). -/
def mkExt4E : Nat → Option (Ext → Instr)
  | 0x00 => some .cpy
  | 0x01 => some .cpyg
  | 0x02 => some .cpyw
  | 0x03 => some .cpyq
  | _ => none

/-- The operations of group 0x4F by SUB (R80). -/
def mkExt4F : Nat → Option (Ext → Instr)
  | 0x00 => some .ltinit
  | 0x01 => some .ltarr
  | 0x02 => some .ltwait
  | 0x03 => some .yield
  | _ => none

/-- The operations of group 0x50 by SUB (R80). -/
def mkExt50 : Nat → Option (Ext → Instr)
  | 0x00 => some .mlease
  | 0x01 => some .mrelease
  | 0x02 => some .pintle
  | 0x03 => some .pnwait
  | 0x04 => some .obres
  | 0x05 => some .obfree
  | 0x06 => some .obput
  | _ => none

/-- The operations of group 0x51 by SUB (R80). -/
def mkExt51 : Nat → Option (Ext → Instr)
  | 0x00 => some .mma
  | 0x01 => some .mmas
  | 0x02 => some .acz
  | 0x03 => some .resolve
  | 0x04 => some .accmp
  | 0x05 => some .acst
  | 0x06 => some .acld
  | 0x07 => some .acadd
  | 0x08 => some .acanch
  | _ => none

/-- The operations of group 0x52 by SUB (R80). -/
def mkExt52 : Nat → Option (Ext → Instr)
  | 0x00 => some .asdecl
  | 0x01 => some .asclr
  | 0x02 => some .asqry
  | 0x03 => some .asundo
  | _ => none

/-- The operations of group 0x53 by SUB (R80). -/
def mkExt53 : Nat → Option (Ext → Instr)
  | 0x00 => some .qpop
  | 0x01 => some .qpush
  | 0x02 => some .qwpush
  | 0x03 => some .tend
  | 0x04 => some .dcdec
  | 0x05 => some .qinfo
  | _ => none

/-- The operations of group 0x54 by SUB (R80). -/
def mkExt54 : Nat → Option (Ext → Instr)
  | 0x00 => some .hld
  | 0x01 => some .hwalk
  | 0x02 => some .mfst
  | 0x03 => some .mfseal
  | 0x04 => some .chadv
  | 0x05 => some .mfshort
  | 0x06 => some .mfinv
  | 0x07 => some .chqry
  | _ => none

/-- The operations of group 0x55 by SUB (R80). -/
def mkExt55 : Nat → Option (Ext → Instr)
  | 0x00 => some .kvx
  | 0x01 => some .kvmap
  | 0x02 => some .kvshare
  | 0x03 => some .kvlen
  | 0x04 => some .kvpin
  | 0x05 => some .kvunpin
  | _ => none

/-- The operations of group 0x56 by SUB (R80). -/
def mkExt56 : Nat → Option (Ext → Instr)
  | 0x00 => some .sld
  | 0x01 => some .sst
  | 0x02 => some .samp
  | 0x03 => some .sqry
  | _ => none

/-- The operations of group 0x57 by SUB (R80). -/
def mkExt57 : Nat → Option (Ext → Instr)
  | 0x00 => some .binbeg
  | 0x01 => some .primr
  | 0x02 => some .primt
  | 0x03 => some .prims
  | 0x04 => some .binend
  | 0x05 => some .fragout
  | 0x06 => some .tstat
  | _ => none

/-- The operations of group 0x58 by SUB (R80). -/
def mkExt58 : Nat → Option (Ext → Instr)
  | 0x00 => some .srd
  | 0x01 => some .swr
  | 0x02 => some .trap
  | 0x03 => some .tret
  | 0x04 => some .ychk
  | 0x05 => some .ysave
  | _ => none

/-- The operations of group 0x59 by SUB (R80). -/
def mkExt59 : Nat → Option (Ext → Instr)
  | 0x00 => some .rmovx
  | 0x01 => some .rstx
  | 0x02 => some .shape
  | 0x03 => some .shqry
  | 0x04 => some .rkeep
  | 0x05 => some .vbcs
  | 0x06 => some .vext
  | _ => none

/-- The table of groups (R80): none where OPC is unassigned. -/
def mkGroup : Nat → Option (Nat → Option (Ext → Instr))
  | 0x40 => some mkExt40
  | 0x41 => some mkExt41
  | 0x42 => some mkExt42
  | 0x43 => some mkExt43
  | 0x44 => some mkExt44
  | 0x45 => some mkExt45
  | 0x46 => some mkExt46
  | 0x47 => some mkExt47
  | 0x48 => some mkExt48
  | 0x49 => some mkExt49
  | 0x4A => some mkExt4A
  | 0x4B => some mkExt4B
  | 0x4C => some mkExt4C
  | 0x4D => some mkExt4D
  | 0x4E => some mkExt4E
  | 0x4F => some mkExt4F
  | 0x50 => some mkExt50
  | 0x51 => some mkExt51
  | 0x52 => some mkExt52
  | 0x53 => some mkExt53
  | 0x54 => some mkExt54
  | 0x55 => some mkExt55
  | 0x56 => some mkExt56
  | 0x57 => some mkExt57
  | 0x58 => some mkExt58
  | 0x59 => some mkExt59
  | _ => none
/-- The first check of R82 (4 to 12) that an instruction fails: its reason and detail. -/
def Instr.illegal (i : Instr) : Option (Nat × Nat) :=
  match i.form with
  | .one opc x => shortErr opc x
  | .ext opc sub x => extErr opc sub x
  | .event => none

/-- A well-formed instruction: one that no check of R82 refuses. An event has no encoding to check. -/
def Instr.wf (i : Instr) : Bool := i.illegal.isNone

/-- Whether the instruction has an encoding, so that it is no event. -/
def Instr.coded (i : Instr) : Bool := i.form ≠ .event

end Sys2Proof
end

