-- ==== Sys2Proof/Decode.lean ====
section
/-!
DEFINITION. Decoding of instruction words in the order of checks of R82, and the encoder written from
the same tables (03 R61-R73).
-/

namespace Sys2Proof

/-- The answer of the decoder: an instruction, the reason and detail of the first check of R82 that
fails, or fewer words than `len` asks for. -/
inductive Decoded where
  | ok (i : Instr)
  | illegal (reason detail : Nat)
  | truncated
  deriving DecidableEq, Repr

/-- The length in words that bits [1:0] of word 0 fix (R62). -/
def lenWords (w0 : Nat) : Nat :=
  match w0 % 4 with
  | 0 => 1 | 1 => 3 | 2 => 3 | _ => 5

/-- A little-endian word of four bytes (R61). -/
def wordOf (b0 b1 b2 b3 : Byte) : Word := b3 ++ b2 ++ b1 ++ b0

/-- The little-endian words of a byte string; a tail of fewer than four bytes is dropped. -/
def wordsOf : List Byte → List Word
  | b0 :: b1 :: b2 :: b3 :: l => wordOf b0 b1 b2 b3 :: wordsOf l
  | _ => []

/-- The four bytes of a word, lowest address first (R61). -/
def wordBytes (w : Word) : List Byte :=
  [w.extractLsb' 0 8, w.extractLsb' 8 8, w.extractLsb' 16 8, w.extractLsb' 24 8]

/-- The literal of two words, low word first (R72, R76). -/
def litOf (lo hi : Word) : Word64 := hi ++ lo

/-- A source field from its class, code and mode bits (R63, R65). -/
def srcOf (cls code mode : Nat) : Src :=
  { cls := Cls.ofCode cls, code := BitVec.ofNat 8 code, trp := mode = 1 }

/-- The fields of a one-word form (R63). -/
def shortOf (w0 : Word) (lit : Option Word64) : Short :=
  let n := w0.toNat
  { neg := bitsN n 14 14 = 1, g := BitVec.ofNat 5 (bitsN n 13 9), d := BitVec.ofNat 8 (bitsN n 23 16),
    a := BitVec.ofNat 8 (bitsN n 31 24), fa := bitsN n 15 15 = 1, lit := lit }

/-- The fields of an extended form whose RND and TY are assigned (R63, R65). -/
def extOf (w0 w1 w2 : Word) (rnd : Rnd) (ty : Ty) (lit : Option Word64) : Ext :=
  let n := w0.toNat
  let m := w1.toNat
  { neg := bitsN n 14 14 = 1, g := BitVec.ofNat 5 (bitsN n 13 9), rnd := rnd, ty := ty,
    d := BitVec.ofNat 8 (bitsN n 23 16),
    a := srcOf (bitsN m 19 18) (bitsN n 31 24) (bitsN n 15 15),
    b := srcOf (bitsN m 21 20) (bitsN m 7 0) (bitsN m 16 16),
    c := srcOf (bitsN m 23 22) (bitsN m 15 8) (bitsN m 17 17),
    x24 := BitVec.ofNat 24 (bitsN w2.toNat 31 8), lit := lit }

/-- A decoded instruction after checks 4 to 12 of R82. -/
def checked (i : Instr) : Decoded :=
  match i.illegal with
  | none => .ok i
  | some (r, d) => .illegal r d

/-- Decoding of a one-word form: checks 2 and 4 to 12. -/
def decodeShort (w0 : Word) (lit : Option Word64) : Decoded :=
  let opc := bitsN w0.toNat 8 2
  match mkShort opc with
  | none => .illegal 2 opc
  | some mk => checked (mk (shortOf w0 lit))

/-- Decoding of an extended form: checks 2 to 12. A reserved RND or TY has no reading, so checks 4 to 6 are made
here on the codes; `checked` makes them again on the fields. -/
def decodeExt (w0 w1 w2 : Word) (lit : Option Word64) : Decoded :=
  let opc := bitsN w0.toNat 8 2
  let sub := bitsN w2.toNat 7 0
  match mkGroup opc with
  | none => .illegal 2 opc
  | some g =>
    match g sub with
    | none => .illegal 3 sub
    | some mk =>
      let gd := bitsN w0.toNat 13 9
      let rc := bitsN w1.toNat 31 29
      let tc := bitsN w1.toNat 28 24
      if 23 < gd then .illegal 4 gd
      else match Rnd.ofCode rc with
        | none => .illegal 5 rc
        | some rnd =>
          match Ty.ofCode tc with
          | some ty => checked (mk (extOf w0 w1 w2 rnd ty lit))
          | none =>
            let row := rowOf 32 opc sub (extOf w0 w1 w2 rnd .b32 lit)
            if !row.rnd && rnd ≠ .rs then .illegal 5 rc else .illegal 6 tc

/-- Decoding of the words at a program counter (R62, R82): the word count is that of `len`, and words beyond
it are not looked at. -/
def decode (ws : List Word) : Decoded :=
  match ws with
  | [] => .truncated
  | w0 :: rest =>
    let opc := bitsN w0.toNat 8 2
    match w0.toNat % 4, rest with
    | 0, _ => if opc < 0x40 then decodeShort w0 none else .illegal 1 opc
    | 1, w1 :: w2 :: _ => if opc < 0x40 then .illegal 1 opc else decodeExt w0 w1 w2 none
    | 2, w1 :: w2 :: _ => if opc < 0x40 then decodeShort w0 (some (litOf w1 w2)) else .illegal 1 opc
    | 3, w1 :: w2 :: w3 :: w4 :: _ =>
      if opc < 0x40 then .illegal 1 opc else decodeExt w0 w1 w2 (some (litOf w3 w4))
    | _, _ => .truncated

/-- Decoding of bytes. -/
def decodeBytes (bs : List Byte) : Decoded := decode (wordsOf bs)

/-! ## The encoder -/

/-- A Bool as a bit. -/
def bitNat (b : Bool) : Nat := if b then 1 else 0

/-- Word 0 (R63). -/
def encWord0 (a d : Nat) (fa neg : Bool) (g opc len : Nat) : Word :=
  BitVec.ofNat 32 (a * 2 ^ 24 + d * 2 ^ 16 + bitNat fa * 2 ^ 15 + bitNat neg * 2 ^ 14 + g * 2 ^ 9 + opc * 4 + len)

/-- Word 1 (R65). -/
def encWord1 (x : Ext) : Word :=
  BitVec.ofNat 32 (x.rnd.code * 2 ^ 29 + x.ty.code * 2 ^ 24 + x.c.cls.code * 2 ^ 22 + x.b.cls.code * 2 ^ 20 +
    x.a.cls.code * 2 ^ 18 + bitNat x.c.trp * 2 ^ 17 + bitNat x.b.trp * 2 ^ 16 + x.c.code.toNat * 2 ^ 8 +
    x.b.code.toNat)

/-- Word 2 (R65). -/
def encWord2 (x : Ext) (sub : Nat) : Word := BitVec.ofNat 32 (x.x24.toNat * 2 ^ 8 + sub)

/-- The two words of a literal, low word first (R72). -/
def encLit (l : Word64) : List Word := [l.extractLsb' 0 32, l.extractLsb' 32 32]

/-- The words of an instruction (R61-R65); an event has none. -/
def encode (i : Instr) : List Word :=
  match i.form with
  | .one opc x =>
    match x.lit with
    | none => [encWord0 x.a.toNat x.d.toNat x.fa x.neg x.g.toNat opc 0]
    | some l => encWord0 x.a.toNat x.d.toNat x.fa x.neg x.g.toNat opc 2 :: encLit l
  | .ext opc sub x =>
    match x.lit with
    | none => [encWord0 x.a.code.toNat x.d.toNat x.a.trp x.neg x.g.toNat opc 1, encWord1 x, encWord2 x sub]
    | some l =>
      encWord0 x.a.code.toNat x.d.toNat x.a.trp x.neg x.g.toNat opc 3 :: encWord1 x :: encWord2 x sub :: encLit l
  | .event => []

/-- The bytes of an instruction, lowest address first (R61). -/
def encodeBytes (i : Instr) : List Byte := (encode i).flatMap wordBytes

/-- The length of an instruction in bytes (R61, R62); an event has none. -/
def Instr.bytes (i : Instr) : Nat :=
  match i.form with
  | .one _ x => if x.lit.isSome then 12 else 4
  | .ext _ _ x => if x.lit.isSome then 20 else 12
  | .event => 0

/-- The bytes of a table word: nbits bits, then zeros up to the longest instruction. -/
def tableBytes (nbits w : Nat) : List Byte :=
  (List.range 20).map (fun k => BitVec.ofNat 8 (w % 2 ^ nbits / 2 ^ (8 * k)))

/-- The instruction that the decoder reads from a word of the opcode table. -/
def decodeTableWord (nbits w : Nat) : Option Instr :=
  match decodeBytes (tableBytes nbits w) with
  | .ok i => some i
  | .illegal _ _ => none
  | .truncated => none

end Sys2Proof
end

