-- ==== Sys2Proof/Config.lean ====
section
/-!
DEFINITION. What an implementation fixes and the manual leaves open: constants without a body, so that
no proof can see a value. Each is named in the assumption log.
-/

namespace Sys2Proof.Config

/-- The cycles that pass in step n beyond the first: R4 gives upper bounds only (log 2, 10). -/
opaque cycles : Nat → Nat
/-- The bits that `vrcp` answers for an input, before the bound of R188 is applied (log 11). -/
opaque rcp : Word → Word
/-- As `rcp`, for `vrsq`. -/
opaque rsq : Word → Word
/-- As `rcp`, for `vex2` and the ex2 of R414. -/
opaque ex2 : Word → Word
/-- As `rcp`, for `vlg2`. -/
opaque lg2 : Word → Word
/-- As `rcp`, for `vsin`. -/
opaque sin : Word → Word
/-- As `rcp`, for `vcos`. -/
opaque cos : Word → Word
/-- As `rcp`, for `vtanh`. -/
opaque tanh : Word → Word
/-- The two outputs of `vrot` for x, y and the angle in turns x 2^32 (R190). -/
opaque rot : Word → Word → Word → Word × Word
/-- The carry half that an image shows for element e of the n-th captured tile (R101, log 7). -/
opaque carryHalf : Nat → Nat → BitVec 72
/-- The public key of an index of the device's key list: x and y (R444: the list is not given, log 12). -/
opaque signKey : Nat → Nat × Nat
/-- Whether a signature over a measurement takes the measurement for the digest that it is, and not for a message (R444, log 12). -/
opaque measIsDigest : Bool
/-- The private part of the device identity key (R444, log 12). -/
opaque deviceKey : Nat
/-- The secret numbers of the device's signatures (00 R12, log 12). -/
opaque quoteNonce : Nat → Nat
/-- The table descriptors that a segment of descriptors holds: the table (0 chains, 1 sequence maps, 2 surfaces), the number in it and
the bytes with the names resolved (16 R355, 17 R384, 18 R403: the layout of R444 has no place for the number, log 68). -/
opaque descriptors : List Byte → List (Nat × Nat × List Byte)
/-- The order of the serial steps that lanes naming one location take, as a rank of lanes in step n
(R226: the order is not stated, log 13). -/
opaque laneRank : Nat → Nat → Nat
/-- The detent period loaded in step n, before the limits of R394 are applied (log 14). -/
opaque detent : Nat → Nat
/-- The stepping of the part, BAR0 ident [39:32] (R439, log 15). -/
opaque stepping : Byte

/-- The HBM channel of a 2 KB block (09 R207: fixed at boot and not otherwise architected, log 5). -/
opaque channelOf : Nat → Nat
/-- The CXL port that an extent lies behind (20 R443, log 5). -/
opaque extentPort : Nat → Nat
/-- The number of spare units of a kind: 0 cores, 1 channels, 2 slices (20 R447 names the pools and not their sizes, log 20). -/
opaque sparePool : Nat → Nat
/-- The address of a context's record in the context table (05 R111, log 20). -/
opaque ctxRecord : Nat → Nat
/-- The home slice whose queue unit firmware prefers for a queue (15 R334, log 20). -/
opaque queueSlice : Nat → Nat

/-- What a shuffle reads in step n from a lane that its sub-group has and its team has not (06 R160, R161: a sub-group of 64 lanes in
a team of 96, log 22). -/
opaque absentLane : Nat → Nat → Word64

/-- The subcode of the `align` trap of a program counter with bits [1:0] not 0 (R85 states none, log 16). -/
opaque fetchAlign : BitVec 16

/-- The colour channels of the n-th pixel that a primitive covers and that no active lane of a `fragout` coloured (18 R414, R416: none
is stated, log 43). -/
opaque uncoloured : Nat → Word

/-- The bytes whose meaning is the device's own: bin records (18 R411) and the task lists of an image (19 R435). The manual
states where they lie and how many there are, not what they hold (log 17). -/
opaque privateByte : Nat → Byte

end Sys2Proof.Config
end

