-- ==== Sys2Proof/Machine/State.lean ====
section
/-!
DEFINITION. The state of the device as plain data: every piece of state the manual names
(INVENTORY.md, State), and the state after reset.
-/

namespace Sys2Proof.Machine

/-- Bytes by address, in the canonical form of `Memory.wf`: addresses strictly rising, no byte that an
unlisted address reads as. -/
abbrev Memory := List Host.Cell

/-- The events that wait in the agenda: one for each row of the opcode table that is an event, with the
arguments of its constructor of `Instr`; and the AtomicOp of the host, which the table does not list (20 R438). -/
inductive Ev where
  | instructionFetch (team : Nat)
  | mailboxCreateContext (m : Mail)
  | mailboxDestroyContext (m : Mail)
  | mailboxCreateQueue (m : Mail)
  | mailboxDestroyQueue (m : Mail)
  | mailboxSwitchContextOut (m : Mail)
  | mailboxSwitchContextIn (m : Mail)
  | mailboxGrantExtent (m : Mail)
  | mailboxReleaseExtent (m : Mail)
  | extentReleaseDone (extent : Nat)
  | mailboxClearOverflow (m : Mail)
  | mailboxLoadImage (m : Mail)
  | mailboxAttestationQuote (m : Mail)
  | mailboxUpdate (m : Mail)
  | updateComplete (die : Nat)
  | mailboxSelectBar4Context (m : Mail)
  | hosterrClear
  | bar0RegisterWrite (offset : Nat) (data : List Byte)
  | hostEnqueue (offset : Nat) (data : List Byte)
  | overflowAppend (queue : Nat)
  | bar4Read (va : Word64) (len : Nat)
  | bar4Write (va : Word64) (data : List Byte)
  | hostAtomicOp (va : Word64) (op : Nat) (ty : Ty) (data cmp : Word64)
  | deviceStart
  | bootFailure (reason : Nat)
  | cxlPortDown (port : Nat)
  | palyrPortDown (port : Nat)
  | heartbeatTick
  | extentRevoke (extent : Nat)
  | shootdown (ctx : Nat) (va : Word64) (len : Nat) (ptes : List (Nat × Word64))
  | spareCore (core : Nat) (slot : Option Nat)
  | spareChannel (channel : Nat)
  | spareSlice (slice : Nat) (moves : List (Nat × Nat))
  | sparingEnd
  | softErrorCorrected
  | subarrayRefresh (bank subarray : Nat)
  | launchEntryArrival (queue : Nat) (entry : List Word64)
  | headerFetch (launch : Nat)
  | teamPlacement (launch : Nat) (places : List (Nat × Nat))
  | dispatchStart (core place : Nat)
  | argumentArrival (team index : Nat)
  | launchStatusWrite (launch : Nat)
  | texitComplete (team : Nat)
  | preemptRequest (team : Nat)
  | ydlExpiry (team : Nat)
  | timesliceExpiry (team : Nat)
  | saveComplete (team : Nat)
  | recordReclaim (core place : Nat)
  | restoreRequest (core place team : Nat)
  | restoreComplete (team : Nat)
  | accessResponse (flight : Nat)
  | translationWalk (flight : Nat)
  | faultServiced (ctx : Nat) (va : Word64) (pteAddr : Nat) (pte : Word64)
  | faultDeclined (ctx : Nat) (va : Word64)
  | storeFailure (write cause : Nat)
  | releaseGateOpen (write : Nat)
  | redCombine (write : Nat)
  | mwaitWake (team : Nat)
  | mwaitTimeout (team : Nat)
  | mwaitRepoll (team : Nat)
  | fenceComplete (team : Nat)
  | fillComplete (core line : Nat)
  | fillFailure (core line cause : Nat)
  | writebackComplete (core line : Nat)
  | writebackFailure (core line cause : Nat)
  | poolUseEnd (core ctx : Nat)
  | copyDescriptorRead (core copy : Nat)
  | copyComplete (core copy : Nat)
  | latchArrival (core launch latch count : Nat)
  | leaseGrant (core : Nat)
  | leaseIdleExpiry (core : Nat)
  | mmaExecute (core : Nat)
  | obfreeRelease (core record : Nat)
  | resolveComplete (flight : Nat)
  | acstComplete (flight : Nat)
  | acldComplete (flight : Nat)
  | sfuComplete (flight : Nat)
  | setRequestArrival (team slot : Nat)
  | setGrant (slice : Nat)
  | woundTake (team : Nat)
  | rollbackComplete (team : Nat)
  | tendCommit (team : Nat)
  | queuePushArrival (push : Nat)
  | queuePopArrival (team : Nat)
  | dcdecApply (flight : Nat)
  | qwpushPayloadDone (flight : Nat)
  | walkComplete (flight : Nat)
  | walkWaitRetest (flight : Nat)
  | mfstApply (flight : Nat)
  | mfsealApply (flight : Nat)
  | chadvApply (flight : Nat)
  | mfshortComplete (flight : Nat)
  | kvxComplete (flight : Nat)
  | kvxWaitRetest (flight : Nat)
  | kvMoveComplete (move : Nat)
  | detentExpiry
  | victimConfirm (index : Nat)
  | victimVeto (index : Nat)
  | victimReorder (order : List Nat)
  | evictionComplete (move : Nat)
  | samplerComplete (flight : Nat)
  | tileProcess (die pass : Nat)
  | fragmentPush (die pass : Nat)
  | tileComposite (die pass : Nat)
  | tileKill (die pass : Nat)
  | trapDelivery (team : Nat)
  | tretResume (team : Nat)
  | ysaveImage (team : Nat)
  | shootdownComplete (ctx : Nat) (va : Word64) (len : Nat)
  | pcieLinkDown
  | writePerformed (write : Nat)
  | palyrPeerAccess (access : PeerAccess)
  | uncorrectableError (unit : Nat)
  | softErrorWindowExpiry
  deriving DecidableEq, Repr

/-- The event that an instruction of the table is; none for an instruction with an encoding. -/
def evOf : Instr → Option Ev
  | .instructionFetch team => some (.instructionFetch team)
  | .mailboxCreateContext m => some (.mailboxCreateContext m)
  | .mailboxDestroyContext m => some (.mailboxDestroyContext m)
  | .mailboxCreateQueue m => some (.mailboxCreateQueue m)
  | .mailboxDestroyQueue m => some (.mailboxDestroyQueue m)
  | .mailboxSwitchContextOut m => some (.mailboxSwitchContextOut m)
  | .mailboxSwitchContextIn m => some (.mailboxSwitchContextIn m)
  | .mailboxGrantExtent m => some (.mailboxGrantExtent m)
  | .mailboxReleaseExtent m => some (.mailboxReleaseExtent m)
  | .extentReleaseDone extent => some (.extentReleaseDone extent)
  | .mailboxClearOverflow m => some (.mailboxClearOverflow m)
  | .mailboxLoadImage m => some (.mailboxLoadImage m)
  | .mailboxAttestationQuote m => some (.mailboxAttestationQuote m)
  | .mailboxUpdate m => some (.mailboxUpdate m)
  | .updateComplete die => some (.updateComplete die)
  | .mailboxSelectBar4Context m => some (.mailboxSelectBar4Context m)
  | .hosterrClear => some .hosterrClear
  | .bar0RegisterWrite offset data => some (.bar0RegisterWrite offset data)
  | .hostEnqueue offset data => some (.hostEnqueue offset data)
  | .overflowAppend queue => some (.overflowAppend queue)
  | .bar4Read va len => some (.bar4Read va len)
  | .bar4Write va data => some (.bar4Write va data)
  | .deviceStart => some .deviceStart
  | .bootFailure reason => some (.bootFailure reason)
  | .cxlPortDown port => some (.cxlPortDown port)
  | .palyrPortDown port => some (.palyrPortDown port)
  | .heartbeatTick => some .heartbeatTick
  | .extentRevoke extent => some (.extentRevoke extent)
  | .shootdown ctx va len ptes => some (.shootdown ctx va len ptes)
  | .spareCore core slot => some (.spareCore core slot)
  | .spareChannel channel => some (.spareChannel channel)
  | .spareSlice slice moves => some (.spareSlice slice moves)
  | .sparingEnd => some .sparingEnd
  | .softErrorCorrected => some .softErrorCorrected
  | .subarrayRefresh bank subarray => some (.subarrayRefresh bank subarray)
  | .launchEntryArrival queue entry => some (.launchEntryArrival queue entry)
  | .headerFetch launch => some (.headerFetch launch)
  | .teamPlacement launch places => some (.teamPlacement launch places)
  | .dispatchStart core place => some (.dispatchStart core place)
  | .argumentArrival team index => some (.argumentArrival team index)
  | .launchStatusWrite launch => some (.launchStatusWrite launch)
  | .texitComplete team => some (.texitComplete team)
  | .preemptRequest team => some (.preemptRequest team)
  | .ydlExpiry team => some (.ydlExpiry team)
  | .timesliceExpiry team => some (.timesliceExpiry team)
  | .saveComplete team => some (.saveComplete team)
  | .recordReclaim core place => some (.recordReclaim core place)
  | .restoreRequest core place team => some (.restoreRequest core place team)
  | .restoreComplete team => some (.restoreComplete team)
  | .accessResponse flight => some (.accessResponse flight)
  | .translationWalk flight => some (.translationWalk flight)
  | .faultServiced ctx va pteAddr pte => some (.faultServiced ctx va pteAddr pte)
  | .faultDeclined ctx va => some (.faultDeclined ctx va)
  | .storeFailure write cause => some (.storeFailure write cause)
  | .releaseGateOpen write => some (.releaseGateOpen write)
  | .redCombine write => some (.redCombine write)
  | .mwaitWake team => some (.mwaitWake team)
  | .mwaitTimeout team => some (.mwaitTimeout team)
  | .mwaitRepoll team => some (.mwaitRepoll team)
  | .fenceComplete team => some (.fenceComplete team)
  | .fillComplete core line => some (.fillComplete core line)
  | .fillFailure core line cause => some (.fillFailure core line cause)
  | .writebackComplete core line => some (.writebackComplete core line)
  | .writebackFailure core line cause => some (.writebackFailure core line cause)
  | .poolUseEnd core ctx => some (.poolUseEnd core ctx)
  | .copyDescriptorRead core copy => some (.copyDescriptorRead core copy)
  | .copyComplete core copy => some (.copyComplete core copy)
  | .latchArrival core launch latch count => some (.latchArrival core launch latch count)
  | .leaseGrant core => some (.leaseGrant core)
  | .leaseIdleExpiry core => some (.leaseIdleExpiry core)
  | .mmaExecute core => some (.mmaExecute core)
  | .obfreeRelease core record => some (.obfreeRelease core record)
  | .resolveComplete flight => some (.resolveComplete flight)
  | .acstComplete flight => some (.acstComplete flight)
  | .acldComplete flight => some (.acldComplete flight)
  | .sfuComplete flight => some (.sfuComplete flight)
  | .setRequestArrival team slot => some (.setRequestArrival team slot)
  | .setGrant slice => some (.setGrant slice)
  | .woundTake team => some (.woundTake team)
  | .rollbackComplete team => some (.rollbackComplete team)
  | .tendCommit team => some (.tendCommit team)
  | .queuePushArrival push => some (.queuePushArrival push)
  | .queuePopArrival team => some (.queuePopArrival team)
  | .dcdecApply flight => some (.dcdecApply flight)
  | .qwpushPayloadDone flight => some (.qwpushPayloadDone flight)
  | .walkComplete flight => some (.walkComplete flight)
  | .walkWaitRetest flight => some (.walkWaitRetest flight)
  | .mfstApply flight => some (.mfstApply flight)
  | .mfsealApply flight => some (.mfsealApply flight)
  | .chadvApply flight => some (.chadvApply flight)
  | .mfshortComplete flight => some (.mfshortComplete flight)
  | .kvxComplete flight => some (.kvxComplete flight)
  | .kvxWaitRetest flight => some (.kvxWaitRetest flight)
  | .kvMoveComplete move => some (.kvMoveComplete move)
  | .detentExpiry => some .detentExpiry
  | .victimConfirm index => some (.victimConfirm index)
  | .victimVeto index => some (.victimVeto index)
  | .victimReorder order => some (.victimReorder order)
  | .evictionComplete move => some (.evictionComplete move)
  | .samplerComplete flight => some (.samplerComplete flight)
  | .tileProcess die pass => some (.tileProcess die pass)
  | .fragmentPush die pass => some (.fragmentPush die pass)
  | .tileComposite die pass => some (.tileComposite die pass)
  | .tileKill die pass => some (.tileKill die pass)
  | .trapDelivery team => some (.trapDelivery team)
  | .tretResume team => some (.tretResume team)
  | .ysaveImage team => some (.ysaveImage team)
  | .shootdownComplete ctx va len => some (.shootdownComplete ctx va len)
  | .pcieLinkDown => some .pcieLinkDown
  | .writePerformed write => some (.writePerformed write)
  | .palyrPeerAccess access => some (.palyrPeerAccess access)
  | .uncorrectableError unit => some (.uncorrectableError unit)
  | .softErrorWindowExpiry => some .softErrorWindowExpiry
  | .nopShort _ => none
  | .vmov _ => none
  | .smov _ => none
  | .vaddI32Short _ => none
  | .vsubI32Short _ => none
  | .vandShort _ => none
  | .vorShort _ => none
  | .vxorShort _ => none
  | .vshlShort _ => none
  | .vshrShort _ => none
  | .vaddF32Short _ => none
  | .vmulF32Short _ => none
  | .vminF32Short _ => none
  | .vmaxF32Short _ => none
  | .saddShort _ => none
  | .ssubShort _ => none
  | .sandShort _ => none
  | .sorShort _ => none
  | .sshlShort _ => none
  | .sshrShort _ => none
  | .braShort _ => none
  | .bmzShort _ => none
  | .bmnzShort _ => none
  | .loopShort _ => none
  | .ldvShort _ => none
  | .stvShort _ => none
  | .ldsShort _ => none
  | .stsShort _ => none
  | .qpopShort _ => none
  | .tendShort _ => none
  | .ychkShort _ => none
  | .bra _ => none
  | .bmz _ => none
  | .bmnz _ => none
  | .bsc _ => none
  | .call _ => none
  | .ret _ => none
  | .jmp _ => none
  | .loop _ => none
  | .texit _ => none
  | .brk _ => none
  | .nop _ => none
  | .pmask _ => none
  | .mpred _ => none
  | .mpop _ => none
  | .mfirst _ => none
  | .sadd _ => none
  | .ssub _ => none
  | .smul _ => none
  | .smulh _ => none
  | .sand _ => none
  | .sor _ => none
  | .sxor _ => none
  | .sandn _ => none
  | .sshl _ => none
  | .sshr _ => none
  | .ssar _ => none
  | .smin _ => none
  | .smax _ => none
  | .sclz _ => none
  | .spopc _ => none
  | .sbfe _ => none
  | .sbfi _ => none
  | .ssel _ => none
  | .scmp _ => none
  | .sdiv _ => none
  | .vintVadd _ => none
  | .vintVsub _ => none
  | .vintVmul _ => none
  | .vmulh _ => none
  | .vmad _ => none
  | .vintVmin _ => none
  | .vintVmax _ => none
  | .vabs _ => none
  | .vand _ => none
  | .vor _ => none
  | .vxor _ => none
  | .vandn _ => none
  | .vnot _ => none
  | .vshl _ => none
  | .vshr _ => none
  | .vsar _ => none
  | .vclz _ => none
  | .vpopc _ => none
  | .vbrev _ => none
  | .vbfe _ => none
  | .vbfi _ => none
  | .vsel _ => none
  | .vilv _ => none
  | .vdil _ => none
  | .vlaneid _ => none
  | .vaddc _ => none
  | .vfpVadd _ => none
  | .vfpVsub _ => none
  | .vfpVmul _ => none
  | .vfma _ => none
  | .vfpVmin _ => none
  | .vfpVmax _ => none
  | .vmed3 _ => none
  | .vrint _ => none
  | .vfract _ => none
  | .vldexp _ => none
  | .vfrexp _ => none
  | .vclass _ => none
  | .vcopysign _ => none
  | .vcvt _ => none
  | .vpackn _ => none
  | .vunpackn _ => none
  | .vbscale _ => none
  | .vquant _ => none
  | .vrcp _ => none
  | .vrsq _ => none
  | .vsqrt _ => none
  | .vex2 _ => none
  | .vlg2 _ => none
  | .vsin _ => none
  | .vcos _ => none
  | .vtanh _ => none
  | .vrot _ => none
  | .vdiv _ => none
  | .vdot8 _ => none
  | .vdot4 _ => none
  | .vdotf8 _ => none
  | .vdotf4 _ => none
  | .shfl _ => none
  | .shfx _ => none
  | .shfr _ => none
  | .bcast _ => none
  | .vote _ => none
  | .reduce _ => none
  | .scan _ => none
  | .vcmp _ => none
  | .plog _ => none
  | .pset _ => none
  | .ld _ => none
  | .st _ => none
  | .ldv _ => none
  | .stv _ => none
  | .lds _ => none
  | .sts _ => none
  | .ldsp _ => none
  | .stsp _ => none
  | .pref _ => none
  | .atom _ => none
  | .red _ => none
  | .atoms _ => none
  | .fence _ => none
  | .xfence _ => none
  | .mwait _ => none
  | .tlook _ => none
  | .tfill _ => none
  | .tevict _ => none
  | .tset _ => none
  | .tinv _ => none
  | .cpy _ => none
  | .cpyg _ => none
  | .cpyw _ => none
  | .cpyq _ => none
  | .ltinit _ => none
  | .ltarr _ => none
  | .ltwait _ => none
  | .yield _ => none
  | .mlease _ => none
  | .mrelease _ => none
  | .pintle _ => none
  | .pnwait _ => none
  | .obres _ => none
  | .obfree _ => none
  | .obput _ => none
  | .mma _ => none
  | .mmas _ => none
  | .acz _ => none
  | .resolve _ => none
  | .accmp _ => none
  | .acst _ => none
  | .acld _ => none
  | .acadd _ => none
  | .acanch _ => none
  | .asdecl _ => none
  | .asclr _ => none
  | .asqry _ => none
  | .asundo _ => none
  | .qpop _ => none
  | .qpush _ => none
  | .qwpush _ => none
  | .tend _ => none
  | .dcdec _ => none
  | .qinfo _ => none
  | .hld _ => none
  | .hwalk _ => none
  | .mfst _ => none
  | .mfseal _ => none
  | .chadv _ => none
  | .mfshort _ => none
  | .mfinv _ => none
  | .chqry _ => none
  | .kvx _ => none
  | .kvmap _ => none
  | .kvshare _ => none
  | .kvlen _ => none
  | .kvpin _ => none
  | .kvunpin _ => none
  | .sld _ => none
  | .sst _ => none
  | .samp _ => none
  | .sqry _ => none
  | .binbeg _ => none
  | .primr _ => none
  | .primt _ => none
  | .prims _ => none
  | .binend _ => none
  | .fragout _ => none
  | .tstat _ => none
  | .srd _ => none
  | .swr _ => none
  | .trap _ => none
  | .tret _ => none
  | .ychk _ => none
  | .ysave _ => none
  | .rmovx _ => none
  | .rstx _ => none
  | .shape _ => none
  | .shqry _ => none
  | .rkeep _ => none
  | .vbcs _ => none
  | .vext _ => none

/-! ## Registers of a team -/

/-- The shape tags of R143. -/
inductive Tag where
  | uni | aff | gen
  deriving DecidableEq, Repr

/-- A vector register: its tag, its full/empty bit and the value of every lane (06 R143, R147). -/
structure VReg where
  tag   : Tag
  full  : Bool
  lanes : List Word
  deriving DecidableEq, Repr

/-- A scalar register and its full/empty bit (06 R139, R147). -/
structure SReg where
  val  : Word64
  full : Bool
  deriving DecidableEq, Repr

/-! ## Tasks and atomic sets -/

/-- The four states of a declaration slot (14 R315). -/
inductive SetState where
  | empty | declared | waiting | acquired
  deriving DecidableEq, Repr

/-- One declaration slot k0-k7 (14 R315). -/
structure SetSlot where
  st   : SetState
  base : Word64
  len  : Word64
  deriving DecidableEq, Repr

/-- One operation of a task's deferred list (14 R326); `flight` names the payload that a `qwpush` writes (15 R346),
0 for a `qpush`. -/
inductive Deferred where
  | push (flight queue : Nat) (entry : List Word64)
  | dec (ea : Word64)
  deriving DecidableEq, Repr

/-- The open task of a team (02 R52-R55, 14 R326, R329): `dst` is the first entry register, `logged` names the
lines that have a record (R324), and `declared` says that the task declared a set (R327). -/
structure Task where
  age      : Word64
  queue    : Nat
  entry    : List Word64
  dst      : Nat
  restart  : Word64
  restarts : Nat
  deferred : List Deferred
  logged   : List Nat
  declared : Bool
  deriving DecidableEq, Repr

/-! ## Traps -/

/-- A trap to be delivered: what its frame will hold (19 R425). `op` is the store that an imprecise trap is of, so that the
failing lanes of one store make one trap (09 R206), or the flight that a precise trap is of, which orders the held ones (19
R431); 0 otherwise. -/
structure Trap where
  code      : Nat
  sub       : Nat
  addr      : Word64
  payload   : Nat
  lanes     : List Nat
  pc        : Word64
  npc       : Word64
  imprecise : Bool
  partly    : Bool
  skip      : Bool
  op        : Nat
  deriving DecidableEq, Repr

/-- What a parked team waits for (02 R58). -/
inductive Park where
  | qpop | qpush | ltwait | yield | mwait | pnwait | binend | texit | lease | pintle | setWait
  | fault | tret | ysave | apply
  deriving DecidableEq, Repr

/-- The states of a team (02 R58). `waiting` is not held: a running team whose next instruction cannot
issue waits. `stopped` is a team ended by firmware (19 R428). -/
inductive RunState where
  | ready | running | parked (why : Park) | saved (wasParked : Option Park) | done | stopped
  deriving DecidableEq, Repr

/-- How a wait of `mwait` ended (11 R280, R281). -/
inductive MwaitEnd where
  | none | timeout | resumed
  deriving DecidableEq, Repr

/-- A translated piece of an access (09 R199): the physical key of its first byte, its length and the
page's ordering kind and CXL extent (R195). -/
structure Seg where
  key  : Nat
  len  : Nat
  kind : Nat
  ext  : Nat := 0
  deriving DecidableEq, Repr

/-- How far one lane of an instruction in flight is: not translated, translated, in the fault buffer,
waiting under `.w`, performed, or failed with a trap code, subcode and address (09 R203, R205). -/
inductive LaneSt where
  | todo | ready (segs : List Seg) | faulted | waitW | done | failed (code sub addr : Nat)
  deriving DecidableEq, Repr

/-- One lane of a flight: its captured address and data (19 R426), and how far its walk is, which reads each entry once
(16 R363). -/
structure LaneReq where
  lane : Nat
  addr : Word64
  data : Word64
  st   : LaneSt
  pos  : List Nat := []
  deriving DecidableEq, Repr

/-- An instruction in flight (09 R203, 19 R426): where it stands, its words' meaning, its lanes, the
registers it fills (`dvec`, `dst`, `dnum`), the chain snapshot it walks against (16 R359), what its owner
keeps in `aux` (the head is 1 for a withdrawn release, 11 R278), whether `tret` re-injected it, whether it keeps
its team from issuing (`gate`: it may trap when it ends, 04 R99, or is an acquire, 11 R261), the writes and
flights that it waits for, the `status` in force when it issued (04 R98), and the number of instructions that its team had issued
before it (`no`), which tells whether the team has gone on (09 R206). -/
structure Flight where
  id     : Nat
  team   : Nat
  pc     : Word64
  npc    : Word64
  instr  : Instr
  dvec   : Bool
  dst    : Nat
  dnum   : Nat
  lanes  : List LaneReq
  snap   : List Nat
  aux    : List Nat
  again  : Bool
  gate   : Bool
  waits  : List Nat
  status : Word64 := 0
  no     : Nat := 0
  deriving DecidableEq, Repr

/-- A fence or xfence whose wait has not ended (11 R271, R272): the writes and flights it waits for, the
path classes it holds (bits 0-7), whether it holds only writes on `ls`, its scope, and the instruction (`op` numbers it). -/
structure Hold where
  waits  : List Nat
  paths  : Nat
  writesOnly : Bool
  scope  : Nat
  sc     : Bool
  dropL1 : Bool
  heart  : Option Nat
  op     : Nat
  pc     : Word64
  npc    : Word64
  instr  : Instr
  deriving DecidableEq, Repr

/-- The states of a bind record (05 R119). -/
inductive RecState where
  | empty | ready | running | parked | saved
  deriving DecidableEq, Repr

/-- The fields of a bind record that its team uses (05 R118). -/
structure Bind where
  st    : RecState
  team  : Nat
  vbase : Nat
  sbase : Nat
  ssize : Nat
  obase : Nat
  osize : Nat
  acc0  : Nat
  accN  : Nat
  lat0  : Nat
  latN  : Nat
  kimg  : Nat
  inh   : Nat
  deriving DecidableEq, Repr

/-- A team (02 R36, 19 R423, R434). The last fields serve traps and waits: imprecise traps pending (`pending`),
traps held until after `tret` (`held`, R431), the precise trap whose delivery has begun (`due`), the
lanes of the partial run of a `tret` and the address it resumes at (`part`, `retPc`), the registers
that replay entries will fill (`rdst`, R427), and what a waiting instruction keeps (`aux`). `entries` are the replay
entries of its save image (R433), `savedNo` orders the saved teams (05 R128), and `rec0` is the contents of its bind
record, which a restore needs again (05 R119); `imgAt` is where in its image the tiles begin,
and `forced` says how it was saved. `lastIssue` and `readyAt` are the clock when it last issued a pass and since when it is
ready (05 R122). `issueNo` counts the instructions that it has issued, and `ordAt` is the number of the first flight after its last
fence of scope `team`, which orders the team's own events (11 R261, R271). `savedAt` is the place of its last save in the order, which a
restore given up takes again, and `pop` what a `qpop` waits for that its queue has not answered (15 R344). -/
structure Team where
  uid     : Nat
  launch  : Nat
  ctx     : Nat
  core    : Nat
  place   : Nat
  width   : Nat
  nv      : Nat
  index   : Nat
  widt    : Word64
  leaf    : Nat
  partner : Nat
  pc      : Word64
  s       : List SReg
  v       : List VReg
  p       : List (List Bool)
  status  : Word64
  trapv   : Word64
  trapa   : Word64
  prio    : Nat
  prioMax : Nat
  role    : Word64
  ydl     : Word64
  undob   : Word64
  undol   : Word64
  ctxs    : Word64
  chainb  : Word64
  seqb    : Word64
  surfb   : Word64
  run     : RunState
  handler : Bool
  wound   : Bool
  armed   : Bool
  task    : Option Task
  sets    : List SetSlot
  uses    : List (Nat × Nat)
  holds   : List Hold
  mwEnd   : MwaitEnd
  pending : List Trap
  held    : List Trap
  due     : Option Trap
  part    : Option (List Nat)
  retPc   : Word64
  rdst    : List (Bool × Nat)
  aux     : List Nat
  image   : Nat
  forced  : Bool
  entries : List Flight
  savedNo : Nat
  rec0    : Bind
  imgAt   : Nat
  lastIssue : Option Nat := none
  readyAt : Option Nat := none
  caught  : List Flight := []
  issueNo : Nat := 0
  ordAt   : Nat := 0
  savedAt : Nat := 0
  pop     : List Nat := []
  deriving DecidableEq, Repr

/-! ## Cores -/

/-- The states of a scratch pool line (10 R229). -/
inductive LineState where
  | free | filling | valid | evicting
  deriving DecidableEq, Repr

/-- A tag entry that is not free (10 R229), with the latch its transfer arrives at, its issuer and the step at which it issued
its transfer, which orders it on path `cp` (11 R263). -/
structure Line where
  num   : Nat
  tag   : Nat
  st    : LineState
  dirty : Bool
  ctx   : Nat
  latch : Option (Nat × Nat)
  team  : Nat
  seq   : Nat := 0
  deriving DecidableEq, Repr

/-- A copy descriptor as captured (10 R241, R249): kinds, type, addresses, dimensions
(extent, source stride, destination stride), latch arrival. -/
structure CopyDesc where
  src   : Nat
  dst   : Nat
  ndim  : Nat
  ty    : Nat
  skind : Nat
  dkind : Nat
  lat   : Option Nat
  dims  : List (Nat × Int × Int)
  bad   : Bool
  deriving DecidableEq, Repr

/-- An outstanding copy (10 R239): its issuer and the place of its issuer's record, 16 while the team has none, its description,
the row indices of `cpyg`, whether a save cancelled it until its team resumes (10 R246), and the step at which it started, which
orders it on path `cp` (11 R263). -/
structure Copy where
  id     : Nat
  team   : Nat
  launch : Nat
  ctx    : Nat
  place  : Nat
  desc   : CopyDesc
  rows   : Option (List Nat)
  held   : Bool
  seq    : Nat := 0
  deriving DecidableEq, Repr

/-- A latch (10 R251). -/
structure Latch where
  launch : Nat
  num    : Nat
  count  : Nat
  target : Nat
  phase  : Bool
  ovr    : Bool
  deriving DecidableEq, Repr

/-- A valid reservation record (13 R294), with the kernel it belongs to: a context and a header (R295). -/
structure Reserve where
  num   : Nat
  own   : Nat
  lay   : Nat
  bl    : Nat
  ty    : Nat
  doff  : Nat
  size  : Nat
  base  : Nat
  ctx   : Nat
  hdr   : Word64
  deriving DecidableEq, Repr

/-- The architected part of an accumulator element (04 R101): (S + C) mod 2^72 and the three flags. -/
structure Acc where
  sum  : BitVec 72
  nan  : Bool
  pinf : Bool
  ninf : Bool
  deriving DecidableEq, Repr

/-- An accumulator tile: its anchor and its elements; an element beyond the list is zero (04 R101). -/
structure Tile where
  anc   : Int
  elems : List Acc
  deriving DecidableEq, Repr

/-- A queued lease request (13 R289). -/
structure LeaseReq where
  key   : Nat
  team  : Nat
  prio  : Nat
  count : Nat
  last  : Nat
  passed : Nat
  isMlease : Bool
  deriving DecidableEq, Repr

/-- A holder's relation to the lease when it does not hold it (13 R290). -/
structure LeaseLost where
  key   : Nat
  count : Nat
  last  : Nat
  deriving DecidableEq, Repr

/-- An `mma` or `mmas` that the engine has accepted (13 R305): the tile, the records as checked, the base
exponents and the team. -/
structure Mma where
  team   : Nat
  tile   : Nat
  x      : Reserve
  y      : Reserve
  ea     : Int
  eb     : Int
  sparse : Bool
  deriving DecidableEq, Repr

/-- The lease and the queue of one core's matrix engine (13 R289); `since` is the clock of the holder's last issue
(R290). -/
structure Lease where
  holder : Option Nat
  count  : Nat
  last   : Nat
  since  : Nat
  queue  : List LeaseReq
  lost   : List LeaseLost
  deriving DecidableEq, Repr

/-- A cached translation (09 R202): context, first address, size and the leaf entry. -/
structure Tlb where
  ctx  : Nat
  va   : Nat
  size : Nat
  pte  : Word64
  deriving DecidableEq, Repr

/-- One 128-byte line of an L1 read cache (09 R198): its physical key, its bytes, and the number of the first flight after its
fetch, since an earlier load that missed takes its value from home (11 R263, `uo` pages). -/
structure L1Line where
  key   : Nat
  bytes : Memory
  seq   : Nat := 0
  deriving DecidableEq, Repr

/-- An entry of a tumbler's field cache (16 R360): the header of a physical field of a chain, or its entry of a cell. -/
structure FieldLine where
  ctx   : Nat
  chain : Nat
  field : Nat
  cell  : Option Nat
  bytes : List Byte
  deriving DecidableEq, Repr

/-- An entry of a core's VRB index cache (18 R402): the 8 bytes of the side index entry of a block. -/
structure IndexLine where
  ctx    : Nat
  handle : Nat
  block  : Nat
  bytes  : List Byte
  deriving DecidableEq, Repr

/-- The state of one core (00 R5): `icache` holds the lines of its instruction cache, `fields` its tumbler's field cache (16
R360), `texels` and `vrbs` the sampler's two caches (18 R402, R409), and `stalled` says that its request port has a fault to
add to a full buffer (09 R204). -/
structure Core where
  num     : Nat
  recs    : List Bind
  scratch : Memory
  lines   : List Line
  copies  : List Copy
  ended   : List (Nat × Nat × Nat × Nat)
  nextCopy : Nat
  latches : List Latch
  obuf    : Memory
  obres   : List Reserve
  tiles   : List Tile
  lease   : Lease
  pintle  : List (Nat × Nat)
  engine  : List Mma
  tlb     : List Tlb
  l1      : List L1Line
  icache  : List L1Line
  fields  : List FieldLine
  texels  : List L1Line
  vrbs    : List IndexLine
  stalled : Bool
  deriving DecidableEq, Repr

/-! ## Device tables -/

/-- A context (05 R111). `hold` names the launch whose kept ranges are held (06 R141). -/
structure Context where
  num    : Nat
  ceil   : Nat
  grace  : Word64
  ptroot : Nat
  surfb  : Word64
  chainb : Word64
  seqb   : Word64
  qbind  : Nat
  trapv  : Word64
  savep  : Nat
  savesz : Nat
  recA   : Nat
  msix   : Nat
  isIn   : Bool
  hold   : Option Nat
  deriving DecidableEq, Repr

/-- Whose a push is (15 R337): a `qpush`, a `qwpush`, a deferred operation of a `tend` (14 R327), a dependence
counter's (R349), or a tiler's (18 R414). -/
inductive PushKind where
  | qpush | qwpush | tend | counter | fragment
  deriving DecidableEq, Repr

/-- A push on its way to its queue unit or waiting there (15 R337), with the team and register that its status
reaches; `len` is the payload length of a `qwpush` (R346). -/
structure PushMsg where
  id    : Nat
  queue : Nat
  entry : List Word64
  team  : Nat
  kind  : PushKind
  nb    : Bool
  dst   : Nat
  len   : Nat
  deriving DecidableEq, Repr

/-- A valid queue record with its FIFOs (15 R334, R337). -/
structure Queue where
  num     : Nat
  ring    : Nat
  head    : BitVec 32
  tail    : BitVec 32
  ctx     : Nat
  isLaunch : Bool
  ovf     : Bool
  lcap    : Nat
  slice   : Nat
  poppers : List Nat
  pushers : List PushMsg
  deriving DecidableEq, Repr

/-- A launch header as read (05 R114). -/
structure Header where
  width  : Nat
  wid    : List Nat
  role   : Nat
  clev   : Nat
  dlev   : Nat
  leaf   : Bool
  vregs  : Nat
  acc    : Nat
  lat    : Nat
  prio   : Nat
  qarg   : Option Nat
  nargs  : Nat
  scratch : Nat
  obuf   : Nat
  undo   : Nat
  keep   : Option (Nat × Nat × Nat × Nat)
  inh    : Option (Nat × Nat × Nat × Nat)
  entry  : Word64
  deriving DecidableEq, Repr

/-- How far a launch is (05 R115-R121). -/
inductive LaunchPhase where
  | arrived | checked | placed | ended
  deriving DecidableEq, Repr

/-- A launch, which is one run of a kernel (05 R113-R121); `pred` is the launch whose held ranges its teams bind to, once the
first of them is bound (06 R141). -/
structure Launch where
  id     : Nat
  ctx    : Nat
  die    : Nat
  hdrA   : Word64
  args   : Word64
  done   : Word64
  teams  : Nat
  follow : Bool
  hdr    : Option Header
  phase  : LaunchPhase
  status : Nat
  sent   : Bool
  pred   : Option Nat := none
  deriving DecidableEq, Repr

/-- A range held for a successor (06 R141): the vector registers and scalars of one team. -/
structure KeepHold where
  ctx    : Nat
  launch : Nat
  index  : Nat
  core   : Nat
  place  : Nat
  width  : Nat
  vbase  : Nat
  units  : Nat
  range  : Nat × Nat × Nat × Nat
  vregs  : List VReg
  sregs  : List SReg
  image  : Nat
  deriving DecidableEq, Repr

/-- An area carved from a context's save pool (19 R436): context, base, size, what it serves: a team, or (`team` 0) a
kernel on a core, with the length of its latch run there (10 R251). -/
structure PoolArea where
  ctx  : Nat
  base : Nat
  size : Nat
  team : Nat
  launch : Nat
  core : Nat
  lats : Nat
  deriving DecidableEq, Repr

/-- A placement template (05 R117): the header's copy and the precomputed core and record of each team. -/
structure Template where
  die   : Nat
  hdrA  : Word64
  ctx   : Nat
  teams : Nat
  hdr   : Header
  places : List (Nat × Nat)
  deriving DecidableEq, Repr

/-- An entry of a hasp table or of its wait list (14 R316-R318): the slice, the task's stamp and team,
the declaration slot and the physical 64-byte lines of the range that the slice homes. -/
structure Hasp where
  slice   : Nat
  age     : Word64
  team    : Nat
  slot    : Nat
  lines   : List Nat
  granted : Bool
  deriving DecidableEq, Repr

/-- A write on its way to its home slice (11 R258): its bytes by physical key, path, scope of a release,
and the earlier writes and flights that a release waits for (11 R276). `op` is the flight it came from, and
`red` carries the operation for the base die, and `frame` the code of the trap whose frame the write is (19 R428). -/
structure BufWrite where
  id     : Nat
  op     : Nat
  team   : Nat
  core   : Nat
  ctx    : Nat
  path   : Nat
  lane   : Nat
  va     : Word64
  cells  : List (Nat × Byte)
  kind   : Nat
  release : Option Nat
  waits  : List Nat
  red    : Option (Nat × Ty × Word64)
  pc     : Word64
  npc    : Word64
  instr  : Option Instr
  data   : Word64
  frame  : Option Nat := none
  deriving DecidableEq, Repr

/-- A faulted request (09 R203): the die, the flight or engine transfer, the 2 KB block of its virtual address,
and the event that replays it. A request of lanes names their pass and its sector count (R207); `undo` is the lane whose record
of the undo log the absent page was to hold (14 R325). -/
structure FaultReq where
  die    : Nat
  ctx    : Nat
  blk    : Nat
  path   : Nat
  flight : Nat
  retry  : Ev
  pass   : Nat := 0
  sectors : Nat := 0
  undo   : Option Nat := none
  deriving DecidableEq, Repr

/-- A move the hub makes for a sequence map (17 R391, R395). -/
structure KvMove where
  id    : Nat
  kind  : Nat
  ctx   : Nat
  map   : Nat
  seq   : Nat
  entry : Nat
  block : Nat
  slot  : Nat
  bytes : Nat
  srcBlock : Nat
  deriving DecidableEq, Repr

/-- An entry of the victim queue (17 R394). -/
structure Victim where
  ctx : Nat
  map : Nat
  seq : Nat
  idx : Nat
  confirmed : Bool
  deriving DecidableEq, Repr

/-- A CXL extent granted to a context (09 R214, R216). -/
structure Extent where
  num     : Nat
  ctx     : Option Nat
  held    : Bool
  revoked : Bool
  deriving DecidableEq, Repr

/-- A primitive emitted into a pass (18 R411-R413): its sequence number, form (0 rectangle, 1 triangle,
2 splat), field words and binned tiles. -/
structure Prim where
  seq   : Nat
  form  : Nat
  words : List Word
  tiles : List Nat
  deriving DecidableEq, Repr

/-- A fragment entry of the current tile (18 R415, R416). -/
structure Frag where
  block    : Nat
  seq      : Nat
  id       : Word
  cover    : Nat
  pushed   : Bool
  answered : Bool
  deriving DecidableEq, Repr

/-- An open or readable render pass of a tiler (18 R410-R419). -/
structure Pass where
  die     : Nat
  id      : Nat
  ctx     : Nat
  opener  : Nat
  isOpen  : Bool
  closing : Bool
  ovf     : Bool
  err     : Bool
  desc    : List Nat
  nextSeq : Nat
  binUsed : Nat
  prims   : List Prim
  tile    : Nat
  attempt : Nat
  active  : Bool
  frags   : List Frag
  colours : List (Nat × List Word)
  counts  : List Nat
  errAt   : Option Nat
  deriving DecidableEq, Repr

/-- A host entry in the overflow buffer (15 R340). -/
structure Held where
  queue : Nat
  entry : List Word64
  deriving DecidableEq, Repr

/-- Boot and health words, the mailbox and the other host-visible registers of BAR0 (20 R439-R447). `moving` names the slices
that are being spared and where their lines go, `movingCh` the channels, and `spareHomes` the slices that replace spared ones
(R446); `inbox` holds the appends and mailbox writes that wait for an update of the hub, in order (R448), and `fresh` says that the hub has still to take up the
command in the mailbox (R440). -/
structure Hub where
  ready    : Bool
  minimal  : Bool
  fails    : Nat
  reason   : Nat
  cores    : Nat
  chans    : Nat
  slices   : Nat
  soft     : Nat
  replace  : Bool
  errSeen  : List Nat
  hosterr  : Word64
  fwfault  : List Word64
  mail     : List Byte
  msix     : Memory
  pba      : List Nat
  attRec   : List Byte
  recCount : Nat
  bar4     : Option Nat
  bar4Data : List Byte
  msiLog   : List Nat
  overflow : List Held
  victims  : List Victim
  detent   : Nat
  moves    : List KvMove
  extents  : List Extent
  cxlUp    : List Bool
  palyrUp  : List Bool
  pcieUp   : Bool
  updating : List Nat
  moving   : List (Nat × List (Nat × Nat))
  movingCh : List Nat
  spareHomes : List (Nat × Nat)
  sparedSlots : List (Nat × Nat)
  shoots   : List (Nat × Nat × Nat)
  inbox    : List (Nat × List Byte) := []
  fresh    : Bool := false
  deriving DecidableEq, Repr

/-- The state of the device. `slices` names the 256-byte lines that the memory-side cache holds (00 R6); its bytes are those of
`mem`, to which every access of a home slice goes. -/
structure State where
  stepNo  : Nat
  nextId  : Nat
  agenda  : List Ev
  choices : List Nat
  cur     : Nat
  clk     : Word64
  beat    : Word64
  age     : Word64
  mem     : Memory
  slices  : List Nat
  homes   : List (Nat × Nat)
  teams   : List Team
  cores   : List Core
  ctxs    : List Context
  queues  : List Queue
  pushes  : List PushMsg
  launches : List Launch
  keeps   : List KeepHold
  areas   : List PoolArea
  temps   : List Template
  hasps   : List Hasp
  writes  : List BufWrite
  flights : List Flight
  faults  : List FaultReq
  declined : List Ev
  passes  : List Pass
  hub     : Hub
  deriving DecidableEq, Repr

/-- Why the machine stops with a fault. -/
inductive Fault where
  /-- Raised by the meaning of an instruction when State.cur names no team: the manual gives an
  instruction no effect without a team to run it (02 R36). `step` never makes such a call. Safe. -/
  | noTeam
  deriving DecidableEq, Repr

/-- Why an instruction has no meaning. -/
inductive Refusal where
  /-- Raised by an arm of `exec` whose instruction has no meaning yet; `mnemonic` is its name in the
  opcode table. Safe. -/
  | notModelled (mnemonic : String)
  deriving DecidableEq, Repr

/-- A free bind record (05 R119). -/
def Bind.reset : Bind :=
  { st := .empty, team := 0, vbase := 0, sbase := 0, ssize := 0, obase := 0, osize := 0, acc0 := 0,
    accN := 0, lat0 := 0, latN := 0, kimg := 0,
    inh := 0 }

/-- An accumulator element after `acz` (04 R101). -/
def Acc.zero : Acc := { sum := 0, nan := false, pinf := false, ninf := false }

/-- A tile after `acz` with anchor 0 (13 R292). -/
def Tile.zero : Tile := { anc := 0, elems := [] }

/-- A core after reset (00 R5, 10 R239, 13 R294). -/
def Core.reset (n : Nat) : Core :=
  { num := n, recs := List.replicate 16 Bind.reset, scratch := [], lines := [], copies := [], ended := [],
    nextCopy := 1, latches := [], obuf := [], obres := [], tiles := List.replicate 4 Tile.zero,
    lease := { holder := none, count := 0, last := 0, since := 0, queue := [], lost := [] }, pintle := [],
    engine := [], tlb := [], l1 := [], icache := [], fields := [], texels := [], vrbs := [], stalled := false }

/-- The hub after reset (20 R439, R444-R447). -/
def Hub.reset : Hub :=
  { ready := false, minimal := false, fails := 0, reason := 0, cores := 0, chans := 0, slices := 0,
    soft := 0, replace := false, errSeen := [], hosterr := 0, fwfault := List.replicate 4 0,
    mail := List.replicate 64 0, msix := [], pba := [],
    attRec := List.replicate 64 0, recCount := 0, bar4 := none, bar4Data := [], msiLog := [], overflow := [],
    victims := [], detent := 0, moves := [], extents := [], cxlUp := List.replicate 2 false,
    palyrUp := List.replicate 72 false, pcieUp := true, updating := [], moving := [],
    movingCh := [], spareHomes := [], sparedSlots := [], shoots := [] }

/-- The machine right after reset: no context, no team, every table empty, the age counter at 1 (02 R53)
and `clk` at 0 (03 R70). The first event of a start stands in the agenda (20 R445). -/
def State.reset : State :=
  { stepNo := 0, nextId := 1, agenda := [.deviceStart], choices := [], cur := 0, clk := 0, beat := 0,
    age := 1, mem := [], slices := [], homes := [], teams := [], cores := (List.range 256).map Core.reset, ctxs := [],
    queues := [], pushes := [], launches := [], keeps := [], areas := [], temps := [], hasps := [],
    writes := [], flights := [], faults := [], declined := [], passes := [], hub := Hub.reset }

end Sys2Proof.Machine
end

