-- ==== Sys2Proof/Machine/Ops.lean ====
section
/-!
DEFINITION. The named operations over memory, tables, registers and translations that the meanings share,
the taking of a trap (19 R424-R428) and the return from one (R431).
-/

namespace Sys2Proof.Machine

/-- What `exec` and `step` answer. -/
abbrev Out := Host.Outcome State Fault Refusal

/-! ## Lists -/

/-- Inserts into a sorted list, before what is equal. -/
def insertBy {α : Type} (le : α → α → Bool) (x : α) : List α → List α
  | [] => [x]
  | y :: l => if le x y then x :: y :: l else y :: insertBy le x l

/-- Sorts a list; equal elements keep their order. -/
def sortBy {α : Type} (le : α → α → Bool) : List α → List α
  | [] => []
  | x :: l => insertBy le x (sortBy le l)

/-- The elements of a list without repeats. -/
def uniq {α : Type} [DecidableEq α] : List α → List α
  | [] => []
  | x :: l => x :: (uniq l).filter (fun y => y ≠ x)

/-! ## Memory: sparse bytes -/

/-- The canonical form: addresses strictly rising, and no byte that an unlisted address reads as (0, log 4). -/
def Memory.wf : Memory → Bool
  | [] => true
  | (a, b) :: l => b ≠ 0 && l.all (fun c => a < c.1) && Memory.wf l

/-- One byte; an unlisted address reads 0 (log 4). -/
def Memory.get : Memory → Nat → Byte
  | [], _ => 0
  | (a, b) :: l, k => if a = k then b else Memory.get l k

/-- Writing one byte keeps the canonical form. -/
def Memory.set : Memory → Nat → Byte → Memory
  | [], k, v => if v = 0 then [] else [(k, v)]
  | (a, b) :: l, k, v =>
    if k < a then (if v = 0 then (a, b) :: l else (k, v) :: (a, b) :: l)
    else if k = a then (if v = 0 then l else (k, v) :: l)
    else (a, b) :: Memory.set l k v

/-- Writing a list of addressed bytes, in order. -/
def Memory.setAll (m : Memory) (cs : List (Nat × Byte)) : Memory :=
  cs.foldl (fun acc c => acc.set c.1 c.2) m

/-- The bytes of n consecutive addresses. -/
def Memory.bytes (m : Memory) (k n : Nat) : List Byte := (List.range n).map (fun i => m.get (k + i))

/-- Consecutive bytes as addressed bytes. -/
def cellsAt (k : Nat) (bs : List Byte) : List (Nat × Byte) :=
  (List.range bs.length).zipWith (fun i b => (k + i, b)) bs

/-- Writing consecutive bytes. -/
def Memory.setBytes (m : Memory) (k : Nat) (bs : List Byte) : Memory := m.setAll (cellsAt k bs)

/-- A little-endian number of bytes (03 R61). -/
def leNat : List Byte → Nat
  | [] => 0
  | b :: l => b.toNat + 256 * leNat l

/-- The n bytes of a number, lowest address first. -/
def leBytes (n x : Nat) : List Byte := (List.range n).map (fun i => BitVec.ofNat 8 (x / 256 ^ i))

/-- The little-endian number at an address. -/
def Memory.num (m : Memory) (k n : Nat) : Nat := leNat (m.bytes k n)

/-- Writing a little-endian number. -/
def Memory.setNum (m : Memory) (k n x : Nat) : Memory := m.setBytes k (leBytes n x)

/-! ## Physical keys -/

/-- The key of a physical byte: the tier above 48 address bits (09 R195). -/
def physKey (tier pa : Nat) : Nat := tier * 2 ^ 48 + pa % 2 ^ 48

/-- The bytes of the eight HBM stacks (00 R7): 384 GB. -/
def hbmSize : Nat := 384 * 2 ^ 30

/-- Whether n bytes of HBM stand at a physical address; beyond the stacks nothing answers (00 R7, log 65). -/
def inHbm (pa n : Nat) : Bool := decide (pa % 2 ^ 48 + n ≤ hbmSize)

/-- The tier of a key: 0 HBM, 1 CXL, 2 host, 3 peer. -/
def tierOf (key : Nat) : Nat := key / 2 ^ 48

/-- The home slice of the 256-byte line of a key (09 R207): the boot map is line mod 256, `homes` holds the lines that sparing
moved, and `spareHomes` the slices that replace spared ones (20 R446, log 5). -/
def homeSlice (s : State) (key : Nat) : Nat :=
  match s.homes.find? (fun h => h.1 = key / 256) with
  | some h => h.2
  | none => match s.hub.spareHomes.find? (fun h => h.1 = key / 256 % 256) with
    | some h => h.2
    | none => key / 256 % 256

/-- The lines that a slice of the memory-side cache holds: 1 MB (00 R6). -/
def sliceCap : Nat := 4096

/-- The line of a key enters its slice of the memory-side cache, and the line that entered first leaves a full one (00 R6). -/
def sliceHold (s : State) (key : Nat) : State :=
  let n := key / 256
  if s.slices.contains n then s
  else
    let mine := s.slices.filter (fun l => homeSlice s (l * 256) = homeSlice s key)
    let old := if sliceCap ≤ mine.length then mine.getLast? else none
    { s with slices := n :: s.slices.filter (fun l => some l ≠ old) }

/-- The line of a key leaves the memory-side cache (09 R213). -/
def sliceDrop (s : State) (key : Nat) : State := { s with slices := s.slices.filter (fun l => l ≠ key / 256) }

/-- Whether the line of a key is being moved to a spare slice or channel, so that accesses to it wait (20 R446). The channel of
a 2 KB block is the device's own (09 R207). -/
def lineMoves (s : State) (key : Nat) : Bool :=
  s.hub.moving.any (fun m => m.1 = homeSlice s key) || s.hub.movingCh.any (fun c => c = Config.channelOf (key / 2048) % 256)

/-- Whether the device moves lines to a spare slice or channel (20 R446). -/
def State.sparing (s : State) : Bool := !s.hub.moving.isEmpty || !s.hub.movingCh.isEmpty

/-! ## Finding and replacing the parts of the state -/

/-- The team with a uid. -/
def State.team? (s : State) (u : Nat) : Option Team := s.teams.find? (fun t => t.uid = u)

/-- Replaces the team with the same uid. -/
def State.setTeam (s : State) (t : Team) : State :=
  { s with teams := s.teams.map (fun x => if x.uid = t.uid then t else x) }

/-- Changes the team with a uid. -/
def State.onTeam (s : State) (u : Nat) (f : Team → Team) : State :=
  { s with teams := s.teams.map (fun x => if x.uid = u then f x else x) }

/-- Core n. -/
def State.core (s : State) (n : Nat) : Core := s.cores.getD n (Core.reset n)

/-- Changes core n. -/
def State.onCore (s : State) (n : Nat) (f : Core → Core) : State :=
  { s with cores := s.cores.modify n f }

/-- The bind record of a team (05 R118). -/
def State.bind (s : State) (t : Team) : Bind := (s.core t.core).recs.getD t.place Bind.reset

/-- Changes the bind record of a place. -/
def State.onRec (s : State) (core place : Nat) (f : Bind → Bind) : State :=
  s.onCore core (fun c => { c with recs := c.recs.modify place f })

/-- The context with a number (05 R111). -/
def State.ctx? (s : State) (n : Nat) : Option Context := s.ctxs.find? (fun c => c.num = n)

/-- Changes a context. -/
def State.onCtx (s : State) (n : Nat) (f : Context → Context) : State :=
  { s with ctxs := s.ctxs.map (fun c => if c.num = n then f c else c) }

/-- The launch with an id (05 R113). -/
def State.launch? (s : State) (n : Nat) : Option Launch := s.launches.find? (fun l => l.id = n)

/-- Changes a launch. -/
def State.onLaunch (s : State) (n : Nat) (f : Launch → Launch) : State :=
  { s with launches := s.launches.map (fun l => if l.id = n then f l else l) }

/-- The valid queue record of a queue number (15 R334). -/
def State.queue? (s : State) (n : Nat) : Option Queue := s.queues.find? (fun q => q.num = n)

/-- Changes a queue. -/
def State.onQueue (s : State) (n : Nat) (f : Queue → Queue) : State :=
  { s with queues := s.queues.map (fun q => if q.num = n then f q else q) }

/-- The flight with an id. -/
def State.flight? (s : State) (n : Nat) : Option Flight := s.flights.find? (fun f => f.id = n)

/-- Replaces the flight with the same id. -/
def State.setFlight (s : State) (f : Flight) : State :=
  { s with flights := s.flights.map (fun x => if x.id = f.id then f else x) }

/-- Removes a flight. -/
def State.dropFlight (s : State) (n : Nat) : State :=
  { s with flights := s.flights.filter (fun f => f.id ≠ n) }

/-- The buffered write with an id. -/
def State.write? (s : State) (n : Nat) : Option BufWrite := s.writes.find? (fun w => w.id = n)

/-- The open or readable pass with an id on a die (18 R410). -/
def State.pass? (s : State) (die id : Nat) : Option Pass :=
  s.passes.find? (fun p => p.die = die && p.id = id)

/-- Changes a pass. -/
def State.onPass (s : State) (die id : Nat) (f : Pass → Pass) : State :=
  { s with passes := s.passes.map (fun p => if p.die = die && p.id = id then f p else p) }

/-- Changes the hub. -/
def State.onHub (s : State) (f : Hub → Hub) : State := { s with hub := f s.hub }

/-- Appends an event to the agenda. -/
def State.post (s : State) (e : Ev) : State := { s with agenda := s.agenda ++ [e] }

/-- Appends an event to the agenda unless it stands there already. -/
def State.postOnce (s : State) (e : Ev) : State := if s.agenda.contains e then s else s.post e

/-- The die of a core (00 R5). -/
def dieOf (core : Nat) : Nat := core / 64

/-- The issue slot of a place (05 R110). -/
def slotOf (place : Nat) : Nat := place / 4

/-! ## Registers of a team -/

/-- Scalar register n. -/
def Team.sval (t : Team) (n : Nat) : Word64 := (t.s.getD n { val := 0, full := true }).val

/-- Whether scalar register n is full. -/
def Team.sfull (t : Team) (n : Nat) : Bool := (t.s.getD n { val := 0, full := true }).full

/-- Vector register n. -/
def Team.vreg (t : Team) (n : Nat) : VReg := t.v.getD n { tag := .uni, full := true, lanes := [] }

/-- Lane L of vector register n. -/
def Team.lane (t : Team) (n l : Nat) : Word := (t.vreg n).lanes.getD l 0

/-- Predicate `code` in lane L; code 23 is pT (02 R64, 06 R152). -/
def Team.pr (t : Team) (code l : Nat) : Bool := if code = 23 then true else (t.p.getD code []).getD l false

/-- Writes scalar register n; its full/empty bit stays (06 R147). -/
def Team.setS (t : Team) (n : Nat) (x : Word64) : Team :=
  { t with s := t.s.modify n (fun r => { r with val := x }) }

/-- Writes consecutive scalar registers. -/
def Team.setSs (t : Team) (n : Nat) : List Word64 → Team
  | [] => t
  | x :: l => (t.setS n x).setSs (n + 1) l

/-- Sets the full/empty bit of scalar register n. -/
def Team.setSFull (t : Team) (n : Nat) (b : Bool) : Team :=
  { t with s := t.s.modify n (fun r => { r with full := b }) }

/-- Sets the full/empty bit of vector register n. -/
def Team.setVFull (t : Team) (n : Nat) (b : Bool) : Team :=
  { t with v := t.v.modify n (fun r => { r with full := b }) }

/-- Sets the full/empty bits of a run. -/
def Team.setFull (t : Team) (vec : Bool) (n : Nat) (b : Bool) : Nat → Team
  | 0 => t
  | k + 1 => (if vec then t.setVFull (n + k) b else t.setSFull (n + k) b).setFull vec n b k

/-- The lanes 0 to W - 1. -/
def Team.laneIxs (t : Team) : List Nat := List.range t.width

/-- The execution mask bit of a lane (02 R39). -/
def Team.mask (t : Team) (l : Nat) : Bool := (t.sval (l / 64)).getLsbD (l % 64)

/-- The mask of every lane. -/
def Team.masks (t : Team) : List Bool := t.laneIxs.map t.mask

/-- The mask summary (02 R41): bit j is the OR of the mask bits of lanes 32j to 32j + 31. -/
def Team.msum (t : Team) : Nat :=
  ((List.range (t.width / 32)).filter
    (fun j => (List.range 32).any (fun i => t.mask (32 * j + i)))).foldl (fun a j => a + 2 ^ j) 0

/-- The guard value of a lane (03 R64). -/
def Team.guard (t : Team) (g : BitVec 5) (neg : Bool) (l : Nat) : Bool := (t.pr g.toNat l).xor neg

/-- Whether a scalar instruction executes (02 R44). -/
def Team.go (t : Team) (g : BitVec 5) (neg : Bool) : Bool :=
  if g = 23 then !neg else t.laneIxs.any (fun l => t.mask l && t.guard g neg l)

/-- The active lanes of a vector instruction (02 R43), limited to the lanes of a partial run (19 R431). -/
def Team.acts (t : Team) (g : BitVec 5) (neg : Bool) : List Bool :=
  t.laneIxs.map (fun l => t.mask l && t.guard g neg l &&
    (match t.part with
     | none => true
     | some ls => ls.contains l))

/-- The tag that a write leaves (06 R144): a write that is not full leaves `gen`, and a write whose passes are all
skipped leaves the tag. -/
def Team.tagAfter (t : Team) (act : List Bool) (old new : Tag) : Tag :=
  if act.all id then new else if t.msum = 0 then old else .gen

/-- Writes the active lanes of vector register n (02 R43). The full/empty bit stays. -/
def Team.writeV (t : Team) (n : Nat) (act : List Bool) (vals : List Word) (tag : Tag) : Team :=
  { t with v := t.v.modify n (fun r =>
      { r with tag := t.tagAfter act r.tag tag,
               lanes := (act.zip (r.lanes.zip vals)).map (fun (a, o, x) => if a then x else o) }) }

/-- Writes the active lanes of a run of n-bit values: one register for 32 bits, a pair for 64 (03 R76). -/
def Team.writeN (t : Team) (n : Nat) (wide : Bool) (act : List Bool) (vals : List Nat) (tag : Tag) : Team :=
  let t := t.writeV n act (vals.map (BitVec.ofNat 32)) tag
  if wide then t.writeV (n + 1) act (vals.map (fun x => BitVec.ofNat 32 (x / 2 ^ 32))) tag else t

/-- Writes the active lanes of a predicate; a write to pT is discarded (06 R152). -/
def Team.writeP (t : Team) (n : Nat) (act : List Bool) (vals : List Bool) : Team :=
  if n = 23 then t
  else { t with p := t.p.modify n (fun r => (act.zip (r.zip vals)).map (fun (a, o, x) => if a then x else o)) }

/-- The mask registers set to every lane of the team, with the ordinary bits 0 (02 R40). -/
def Team.maskAll (t : Team) : Team :=
  (List.range (maskRegs t.width)).foldl
    (fun t k => t.setS k (BitVec.ofNat 64 (2 ^ (min 64 (t.width - 64 * k)) - 1))) t

/-- The passes of a lane list in which some lane is set: the numbers of the lanes that are true. -/
def lanesOf (act : List Bool) : List Nat :=
  ((List.range act.length).zip act).filterMap (fun (i, b) => if b then some i else none)

/-! ## Specials -/

/-- The special with a scalar code of 128 to 141 (03 R69). -/
def special (s : State) (t : Team) (code : Nat) : Word64 :=
  match code with
  | 128 => BitVec.ofNat 64 t.width
  | 129 => BitVec.ofNat 64 (t.width / 32)
  | 130 => BitVec.ofNat 64 t.index
  | 131 => BitVec.ofNat 64 t.core
  | 132 => BitVec.ofNat 64 (slotOf t.place)
  | 133 => BitVec.ofNat 64 (dieOf t.core)
  | 134 => t.widt
  | 135 => t.role
  | 136 => match t.task with
    | some k => k.age
    | none => 0
  | 137 => BitVec.ofNat 64 t.ctx
  | 138 => s.clk
  | 139 => BitVec.ofNat 64 t.msum
  | 140 => BitVec.ofNat 64 t.leaf
  | 141 => match t.task with
    | some k => BitVec.ofNat 64 k.queue
    | none => 0xFFFFFFFF
  | _ => 0

/-- A scalar code: a register, a special, or a small integer as its 64-bit pattern (03 R69, R71, R76). -/
def scalarCode (s : State) (t : Team) (code : Nat) : Word64 :=
  if code < 128 then t.sval code
  else if code < 192 then special s t code
  else BitVec.ofInt 64 ((code : Int) - 224)

/-! ## Page tables and translations (09 R193-R206) -/

/-- Whether an address is canonical: bits [63:57] equal bit 56 (09 R193). -/
def canonical (a : Nat) : Bool := a % 2 ^ 64 < 2 ^ 56 || 2 ^ 64 - 2 ^ 56 ≤ a % 2 ^ 64

/-- The fields of a page-table entry (09 R195). -/
def pteBit (e : Word64) (i : Nat) : Bool := e.getLsbD i
/-- The tier field. -/
def pteTier (e : Word64) : Nat := bitsN e.toNat 7 6
/-- The ordering kind field. -/
def pteKind (e : Word64) : Nat := bitsN e.toNat 5 4
/-- The physical base. -/
def pteBase (e : Word64) : Nat := bitsN e.toNat 47 12 * 4096
/-- The CXL extent. -/
def pteExt (e : Word64) : Nat := bitsN e.toNat 63 48

/-- What a walk ends on: a leaf with the page size, an entry with v = 0, or a malformed entry. -/
inductive Walk where
  | leaf (pte : Word64) (size : Nat)
  | absent (pte : Word64)
  | bad
  deriving DecidableEq, Repr

/-- The size of the page that a leaf at a level maps (09 R194). -/
def levelSize : Nat → Nat
  | 0 => 2 ^ 16 | 1 => 2 ^ 21 | 2 => 2 ^ 30 | 3 => 2 ^ 39 | _ => 2 ^ 48

/-- The index into the table of a level (09 R194). -/
def levelIdx (va : Nat) (lev : Nat) : Nat :=
  match lev with
  | 0 => va / 2 ^ 16 % 32
  | n + 1 => va / 2 ^ (21 + 9 * n) % 512

/-- Whether an entry with v = 1 is malformed (09 R196). -/
def pteBad (e : Word64) (lev : Nat) : Bool :=
  let leaf := pteBit e 1
  pteBit e 11 || pteBit e 8 || pteKind e = 3 || (pteExt e ≠ 0 && pteTier e ≠ 1) ||
  (if leaf then decide (2 < lev) || pteBase e % levelSize lev ≠ 0
   else decide (lev = 0) || e.toNat % 4096 ≠ 1 || pteExt e ≠ 0 || pteBase e % 4096 ≠ 0)

/-- A walk from the table at `pa` of level lev down (09 R194): tables lie in HBM, and an entry beyond it is malformed (log 65). -/
def walkFrom (m : Memory) (va : Nat) : Nat → Nat → Walk
  | lev, pa =>
    let e : Word64 := BitVec.ofNat 64 (m.num (physKey 0 (pa + 8 * levelIdx va lev)) 8)
    if !inHbm (pa + 8 * levelIdx va lev) 8 then .bad
    else if !pteBit e 0 then .absent e
    else if pteBad e lev then .bad
    else if pteBit e 1 then .leaf e (levelSize lev)
    else match lev with
      | 0 => .bad
      | n + 1 => walkFrom m va n (pteBase e)

/-- The walk of an address in a context (09 R194). -/
def walk (s : State) (ctx va : Nat) : Walk :=
  match s.ctx? ctx with
  | none => .absent 0
  | some c => walkFrom s.mem (va % 2 ^ 57) 4 c.ptroot

/-- The cached translation of an address (09 R202). -/
def tlbHit (s : State) (core ctx va : Nat) : Option Tlb :=
  (s.core core).tlb.find? (fun e => e.ctx = ctx && e.va ≤ va % 2 ^ 57 && va % 2 ^ 57 < e.va + e.size)

/-- Enters a translation; the cache holds 2,048 entries and drops the one entered first (09 R202). -/
def tlbAdd (s : State) (core : Nat) (e : Tlb) : State :=
  s.onCore core (fun c => { c with tlb := if c.tlb.contains e then c.tlb else (e :: c.tlb).take 2048 })

/-- What an access does, for the checks of 09 R197. -/
inductive Access where
  | read | write | atomic | red | fetch | sparse
  deriving DecidableEq, Repr

/-- The answer for one piece of an access: its physical piece, a replayable fault, or a trap code and
cause (09 R196, R197, R201, R203). -/
inductive Tr where
  | ok (seg : Seg)
  | absent
  | fail (code cause : Nat)
  deriving DecidableEq, Repr

/-- Whether the path to a page is up (09 R201, cause 0x05): a CXL extent lies behind one port, and peer memory is reached
while any Palyr port is up (20 R443). -/
def tierUp (s : State) (tier ext : Nat) : Bool :=
  match tier with
  | 0 => true
  | 1 => s.hub.cxlUp.getD (Config.extentPort ext % 2) false
  | 2 => s.hub.pcieUp
  | _ => s.hub.palyrUp.any id

/-- Whether a CXL extent is revoked (09 R216). -/
def extRevoked (s : State) (n : Nat) : Bool := s.hub.extents.any (fun e => e.num = n && e.revoked)

/-- The permission that an access lacks on a leaf: the cause of `prot` (09 R197). -/
def permFail (e : Word64) (a : Access) : Option Nat :=
  match a with
  | .read => none
  | .write | .atomic => if pteBit e 3 then some 2 else if !pteBit e 2 then some 1 else none
  | .red => if pteBit e 3 then some 2 else if !pteBit e 2 then some 1
            else if !pteBit e 10 || pteTier e ≠ 0 then some 4 else none
  | .fetch => if !pteBit e 3 then some 3 else none
  | .sparse => if !pteBit e 9 then some 5 else none

/-- The piece of an access of n bytes at va under a leaf: at most to the end of the page (09 R199) and of the HBM (00 R7). -/
def segOf (e : Word64) (size va n : Nat) : Seg :=
  let off := va % size
  let room := if pteTier e = 0 then min (size - off) (hbmSize - (pteBase e + off)) else size - off
  { key := physKey (pteTier e) (pteBase e + off), len := min n room, kind := pteKind e, ext := pteExt e }

/-- Whether a leaf maps an address to HBM that the eight stacks do not have (00 R7): nothing answers there (log 65). -/
def beyondHbm (e : Word64) (size va : Nat) : Bool := pteTier e = 0 && hbmSize ≤ pteBase e + va % size

/-- The checks of a leaf (09 R197, R201, R216). -/
def leafCheck (s : State) (e : Word64) (size va n : Nat) (a : Access) : Tr :=
  match permFail e a with
  | some c => .fail 0x05 c
  | none =>
    if pteTier e = 1 && extRevoked s (pteExt e) then .fail 0x06 3
    else if !tierUp s (pteTier e) (pteExt e) || beyondHbm e size va then .fail 0x06 5
    else .ok (segOf e size va n)

/-- The translation that a walk gives (09 R196, R203, R217). -/
def walkTr (s : State) (ctx va n : Nat) (a : Access) : Tr :=
  match walk s ctx va with
  | .bad => .fail 0x06 2
  | .absent e => if pteTier e = 1 && extRevoked s (pteExt e) then .fail 0x06 3 else .absent
  | .leaf e size => leafCheck s e size va n a

/-- The translation of an access through the core's cache, or by a walk on a miss (09 R202). -/
def translate (s : State) (core ctx va n : Nat) (a : Access) : Tr :=
  if !canonical va then .fail 0x06 4
  else match tlbHit s core ctx va with
    | some e => leafCheck s e.pte e.size va n a
    | none => walkTr s ctx va n a

/-- The cache entry that a walk of va leaves, when it ends on a leaf (09 R202: entries with v = 0 are never
cached). -/
def tlbFill (s : State) (core ctx va : Nat) : State :=
  match tlbHit s core ctx va, walk s ctx va with
  | none, .leaf e size =>
    tlbAdd s core { ctx := ctx, va := va % 2 ^ 57 / size * size, size := size, pte := e }
  | _, _ => s

/-- The pieces of an access of n bytes at va (09 R199), or why it cannot be made: `steps` bounds the number of
pages. -/
def pieces (s : State) (core ctx : Nat) (a : Access) : Nat → Nat → Nat → Except Tr (List Seg)
  | 0, _, _ => .ok []
  | steps + 1, va, n =>
    if n = 0 then .ok []
    else match translate s core ctx va n a with
      | .ok g =>
        if n ≤ g.len then .ok [g]
        else match pieces s core ctx a steps ((va + g.len) % 2 ^ 64) (n - g.len) with
          | .ok l => .ok (g :: l)
          | .error e => .error e
      | e => .error e

/-- A bound on the pieces of n bytes: the 64 KB pages that they can touch, and the end of the HBM. -/
def pageSteps (n : Nat) : Nat := n / 65536 + 3

/-- The pieces of an access of n bytes. -/
def piecesOf (s : State) (core ctx : Nat) (a : Access) (va n : Nat) : Except Tr (List Seg) :=
  pieces s core ctx a (pageSteps n) (va % 2 ^ 64) n

/-- The lowest address at which an access of n bytes fails (09 R201): the first of its pages, in order, that the access
cannot use, or its first byte when every page answers. -/
def failFrom (s : State) (core ctx : Nat) (a : Access) (first : Nat) : Nat → Nat → Nat → Nat
  | 0, _, _ => first
  | steps + 1, va, n =>
    match translate s core ctx va n a with
    | .ok g => if n ≤ g.len then first else failFrom s core ctx a first steps ((va + g.len) % 2 ^ 64) (n - g.len)
    | _ => va

/-- The lowest failing address of an access of n bytes. -/
def failVA (s : State) (core ctx : Nat) (a : Access) (va n : Nat) : Nat :=
  failFrom s core ctx a va (pageSteps n) (va % 2 ^ 64) n

/-- The keys of the bytes of an access, in order. -/
def segKeys (l : List Seg) : List Nat := l.flatMap (fun g => (List.range g.len).map (fun i => g.key + i))

/-- The bytes of an access as they stand at their homes. -/
def homeBytes (s : State) (l : List Seg) : List Byte := (segKeys l).map (fun k => s.mem.get k)

/-- A whole access at once, for agents whose own file gives no finer order: the bytes, or why not. -/
def readVA (s : State) (core ctx va n : Nat) : Except Tr (List Byte) :=
  match piecesOf s core ctx .read va n with
  | .ok l => .ok (homeBytes s l)
  | .error e => .error e

/-- A little-endian number read by such an agent. -/
def readNum (s : State) (core ctx va n : Nat) : Except Tr Nat :=
  match readVA s core ctx va n with
  | .ok b => .ok (leNat b)
  | .error e => .error e

/-- Whether a team waits in `mwait` for one of some keys: `aux` begins with the key and the width (11 R280). -/
def Team.watches (t : Team) (cells : List (Nat × Byte)) : Bool :=
  match t.aux with
  | k :: n :: _ => cells.any (fun c => k ≤ c.1 && c.1 < k + n)
  | _ => false

/-- The event that tests the `.w` lanes of a flight again (16 R369, 17 R385). -/
def retestOf (f : Flight) : Ev :=
  match f.instr with
  | .kvx _ => .kvxWaitRetest f.id
  | _ => .walkWaitRetest f.id

/-- The lanes that wait under `.w` are tested again: memory has changed. -/
def retestAll (s : State) : State :=
  (s.flights.filter (fun f => f.lanes.any (fun l => l.st = .waitW))).foldl (fun s f => s.postOnce (retestOf f)) s

/-- Bytes applied at their home slices. A team parked in `mwait` on one of them reads again, one saved in its
`mwait` is marked (11 R280, R281), and lanes that wait under `.w` are tested again. -/
def State.apply (s : State) (cells : List (Nat × Byte)) : State :=
  let s := retestAll { s with mem := s.mem.setAll cells }
  let woken := s.teams.filter (fun t => t.run = .parked .mwait && t.watches cells)
  let s := { s with teams := s.teams.map (fun t =>
    if t.run = .saved (some .mwait) && t.watches cells then { t with mwEnd := .resumed } else t) }
  woken.foldl (fun s t => s.postOnce (.mwaitWake t.uid)) s

/-- The leaf that maps an address for a core. -/
def leafFor (s : State) (core ctx va : Nat) : Option Word64 :=
  match tlbHit s core ctx va with
  | some e => some e.pte
  | none => match walk s ctx va with
    | .leaf e _ => some e
    | _ => none

/-- A write by such an agent, performed at once at its home slices. -/
def writeVA (s : State) (core ctx va : Nat) (bs : List Byte) : Except Tr State :=
  match piecesOf s core ctx .write va bs.length with
  | .ok l => .ok (s.apply ((segKeys l).zip bs))
  | .error e => .error e

/-- The longest front of a write by such an agent that its pages take, with the failing address and translation where the
front is not the whole (09 R201). -/
def writeUpto (s : State) (core ctx va : Nat) (bs : List Byte) : State × Option (Nat × Tr) :=
  match writeVA s core ctx va bs with
  | .ok s => (s, none)
  | .error e =>
    let stop := failVA s core ctx .write va bs.length
    match writeVA s core ctx va (bs.take (stop - va)) with
    | .ok s => (s, some (stop, e))
    | .error _ => (s, some (stop, e))

/-! ## Buffered writes and the L1 (09 R198, 11 R258) -/

/-- Whether an L1 may hold the line of a piece (09 R198): `rc` and `uo` pages of the HBM and CXL tiers. -/
def l1Ok (g : Seg) : Bool := g.kind ≠ 1 && tierOf g.key ≤ 1

/-- The L1 line that holds a key. -/
def l1Find (c : Core) (key : Nat) : Option L1Line := c.l1.find? (fun l => l.key = key / 128 * 128)

/-- The bytes of the memory that lie in one line of 128 bytes. -/
def lineCells (m : Memory) (key : Nat) : Memory := m.filter (fun c => key ≤ c.1 && c.1 < key + 128)

/-- The bytes of a line as a core fetches it: the home slice's, with the writes of the core still on their way (09 R198). -/
def fetchedLine (s : State) (core base : Nat) : Memory :=
  (s.writes.filter (fun w => w.core = core && w.path = 0 && w.waits.isEmpty)).foldl
    (fun m w => m.setAll (w.cells.filter (fun x => x.1 / 128 * 128 = base))) (lineCells s.mem base)

/-- Fetches the line of a key into a core's L1; 128 KB hold 1,024 lines, and the line fetched first leaves
(00 R5). -/
def l1Fetch (s : State) (core key : Nat) : State :=
  let base := key / 128 * 128
  match l1Find (s.core core) key with
  | some _ => s
  | none => (sliceHold s key).onCore core (fun c =>
      { c with l1 := ({ key := base, bytes := fetchedLine s core base, seq := s.nextId } :: c.l1).take 1024 })

/-- Drops a core's whole L1 (11 R273). -/
def l1Drop (s : State) (core : Nat) : State := s.onCore core (fun c => { c with l1 := [] })

/-- Drops both caches of a core's sampler (18 R409). -/
def texDrop (s : State) (core : Nat) : State := s.onCore core (fun c => { c with texels := [], vrbs := [] })

/-- What an acquire of scope `die` or wider drops: a core's L1 (11 R273) and the caches of its sampler (18 R409). -/
def acqDrop (s : State) (core : Nat) : State := texDrop (l1Drop s core) core

/-- Drops the texel lines that hold some keys from a core's sampler. -/
def texDropKeys (s : State) (core : Nat) (keys : List Nat) : State :=
  s.onCore core (fun c => { c with texels := c.texels.filter (fun l => !keys.any (fun k => l.key = k / 128 * 128)) })

/-- The lines of a texel cache; the manual gives it no size (log 66). -/
def texelCap : Nat := 1024

/-- A line enters a core's texel cache, and the one fetched first leaves a full one (18 R409). -/
def texFetch (s : State) (core key : Nat) : State :=
  let base := key / 128 * 128
  if (s.core core).texels.any (fun l => l.key = base) then s
  else (sliceHold s key).onCore core (fun c =>
    { c with texels := ({ key := base, bytes := lineCells s.mem base } :: c.texels).take texelCap })

/-- Drops the line of a key from a core's L1 (09 R198). -/
def l1DropLine (s : State) (core key : Nat) : State :=
  s.onCore core (fun c => { c with l1 := c.l1.filter (fun l => l.key ≠ key / 128 * 128) })

/-- The copies that the cores hold of the lines of some pieces leave their L1 and texel caches, and the index entries, which name
no line, leave with them: every agent that learns of a move sees the data on any path (17 R391). -/
def dropCopies (s : State) (segs : List Seg) : State :=
  let meets (l : L1Line) : Bool := segs.any (fun g => g.key < l.key + 128 && l.key < g.key + g.len)
  { s with cores := s.cores.map (fun c => { c with
      l1 := c.l1.filter (fun l => !meets l), texels := c.texels.filter (fun l => !meets l), vrbs := [] }) }

/-- A store updates its own core's L1 copy (09 R198). -/
def l1Store (s : State) (core : Nat) (cells : List (Nat × Byte)) : State :=
  s.onCore core (fun c => { c with l1 := c.l1.map (fun l =>
    { l with bytes := l.bytes.setAll (cells.filter (fun x => x.1 / 128 * 128 = l.key)) }) })

/-- One byte as a load of a core sees it: the youngest write of the core still on its way, else its L1
copy where the page allows one, else the home slice (09 R198, R221). A release at its gate is not seen (11 R267). -/
def coreByte (s : State) (core : Nat) (useL1 : Bool) (key : Nat) : Byte :=
  let own := (s.writes.filter (fun w => w.core = core && w.path = 0 && w.waits.isEmpty)).foldl
    (fun acc w => w.cells.foldl (fun a c => if c.1 = key then some c.2 else a) acc) (none : Option Byte)
  match own with
  | some b => b
  | none =>
    match (if useL1 then l1Find (s.core core) key else none) with
    | some l => l.bytes.get key
    | none => s.mem.get key

/-- The bytes of pieces as a load of a core sees them. -/
def coreBytes (s : State) (core : Nat) (l : List Seg) : List Byte :=
  l.flatMap (fun g => (List.range g.len).map (fun i => coreByte s core (l1Ok g) (g.key + i)))

/-- Whether a load may take a byte from the core's L1: not on a `uo` page from a line that a later load fetched, because it has
missed (11 R263; its place among the flights is `id`). -/
def l1Serves (s : State) (core id : Nat) (g : Seg) (key : Nat) : Bool :=
  l1Ok g && !(g.kind = 2 && (l1Find (s.core core) key).any (fun l => id < l.seq))

/-- The bytes of pieces as the load of a flight sees them. -/
def loadBytes (s : State) (core id : Nat) (l : List Seg) : List Byte :=
  l.flatMap (fun g => (List.range g.len).map (fun i => coreByte s core (l1Serves s core id g (g.key + i)) (g.key + i)))

/-- The lines that a load fetches into the core's L1 (09 R198). -/
def l1Load (s : State) (core : Nat) (l : List Seg) : State :=
  l.foldl (fun s g => if l1Ok g then l1Fetch (l1Fetch s core g.key) core (g.key + g.len - 1) else s) s

/-- A write of a team started on a path: its bytes travel to their home slices until WRITE_PERFORMED
(11 R258). A release write carries its scope and the writes it waits for (11 R276). -/
def startWrite (s : State) (t : Team) (path lane : Nat) (va : Word64) (cells : List (Nat × Byte)) (kind : Nat)
    (release : Option Nat) (waits : List Nat) (red : Option (Nat × Ty × Word64))
    (op : Nat) (pc npc : Word64) (i : Option Instr) (data : Word64) : State :=
  let w : BufWrite :=
    { id := s.nextId, op := op, team := t.uid, core := t.core, ctx := t.ctx, path := path, lane := lane,
      va := va, cells := cells, kind := kind, release := release, waits := waits, red := red, pc := pc,
      npc := npc, instr := i, data := data }
  let s := { s with writes := s.writes ++ [w], nextId := s.nextId + 1 }
  if waits.isEmpty then s.post (if red.isSome then .redCombine w.id else .writePerformed w.id) else s

/-- A plain write of bytes of a team on path `ls`, whose pieces are known. -/
def storeSegs (s : State) (t : Team) (lane : Nat) (va : Word64) (segs : List Seg) (bs : List Byte)
    (pc npc : Word64) (i : Option Instr) (data : Word64) : State :=
  let cells := (segKeys segs).zip bs
  let kind := match segs with
    | g :: _ => g.kind
    | [] => 0
  startWrite (l1Store s t.core cells) t 0 lane va cells kind none [] none 0 pc npc i data

/-! ## Flights -/

/-- Whether a flight is a release withdrawn from its gate (11 R278). -/
def Flight.withdrawn (f : Flight) : Bool := f.aux.head? = some 1

/-- Whether a flight still waits on an event outside the team: a fault being serviced, a `.w` wait, or a release
withdrawn (19 R424). -/
def Flight.stuck (f : Flight) : Bool :=
  f.withdrawn || f.lanes.any (fun l => l.st = .faulted || l.st = .waitW)

/-- Whether an instruction runs on without its team once it has issued: `mfshort`, `acst` and `acld` (09 R203). -/
def runsOn (i : Instr) : Bool :=
  match i with
  | .mfshort _ => true
  | .acst _ => true
  | .acld _ => true
  | _ => false

/-- Whether a flight still has lanes that can finish by themselves. -/
def Flight.moving (f : Flight) : Bool := !runsOn f.instr && (!f.stuck ||
  (!f.withdrawn && f.lanes.any (fun l => match l.st with
    | .todo | .ready _ => true
    | _ => false)))

/-! ## One-word forms that access memory (03 R77, R78) -/

/-- A source field in `blk` mode. -/
def srcBlk (cls : Cls) (code : BitVec 8) : Src := { cls := cls, code := code, trp := false }

/-- The second source of a one-word arithmetic form: A, or the literal. -/
def shortSecond (x : Short) (cls : Cls) : Src :=
  if x.lit.isSome then Src.litS else { cls := cls, code := x.a, trp := x.fa }

/-- A form whose A is its only source, in the extended form's A. -/
def shortOne (x : Short) (cls : Cls) (ty : Ty) : Ext :=
  { neg := x.neg, g := x.g, rnd := .rs, ty := ty, d := x.d, a := shortSecond x cls, b := Src.none, c := Src.none,
    x24 := 0, lit := x.lit }

/-! ## Memory instructions -/

/-- What a memory instruction does with a location. -/
inductive MemKind where
  | load | store | atomic | red
  deriving DecidableEq, Repr

/-- A memory instruction: its fields as R218 and R225 lay them out. -/
structure MemOp where
  kind   : MemKind
  x      : Ext
  scalar : Bool
  each   : Bool
  off    : Int
  scl    : Nat
  ix     : Bool
  al     : Bool
  acq    : Bool
  rel    : Bool
  scope  : Nat
  op     : Nat
  ret    : Bool
  wait   : Bool

/-- The width of an access in bytes. -/
def MemOp.size (m : MemOp) : Nat := m.x.ty.width / 8

/-- The path of an access: `ls`, or `ms` for `red` (00, path table). -/
def MemOp.path (m : MemOp) : Nat := if m.kind = .red then 7 else 0

/-- What the checks of R197 call it. -/
def MemOp.access (m : MemOp) : Access :=
  match m.kind with
  | .load => .read | .store => .write | .atomic => .atomic | .red => .red

/-- An instruction of group ldst on `ls` (R218). -/
def ldstOp (sub : Nat) (x : Ext) : MemOp :=
  let st := sub % 2 = 1
  { kind := if st then .store else .load, x := x, scalar := sub = 4 || sub = 5, each := sub = 2 || sub = 3,
    off := sextN 14 (x.f 13 0), scl := x.f 16 15, ix := x.bit 14, al := x.bit 17, acq := x.bit 18 && !st,
    rel := x.bit 18 && st, scope := x.f 21 19, op := 0, ret := !st, wait := false }

/-- An instruction of group atom (R225). -/
def atomOp (sub : Nat) (x : Ext) : MemOp :=
  { kind := if sub = 1 then .red else .atomic, x := x, scalar := sub = 2, each := false,
    off := sextN 12 (x.f 11 0), scl := x.f 14 13, ix := x.bit 12, al := false, acq := x.bit 18, rel := x.bit 19,
    scope := x.f 22 20, op := x.f 17 15, ret := x.bit 23, wait := false }

/-- `mwait`, which reads as a scalar load (11 R270, R280). -/
def mwaitOp (x : Ext) : MemOp :=
  { kind := .load, x := x, scalar := true, each := false, off := sextN 14 (x.f 13 0), scl := 0, ix := false, al := false,
    acq := x.bit 14, rel := false, scope := x.f 17 15, op := 0, ret := false, wait := true }

/-- The memory instruction that an instruction is. -/
def memOp? (i : Instr) : Option MemOp :=
  match i with
  | .ld x => some (ldstOp 0 x)
  | .st x => some (ldstOp 1 x)
  | .ldv x => some (ldstOp 2 x)
  | .stv x => some (ldstOp 3 x)
  | .lds x => some (ldstOp 4 x)
  | .sts x => some (ldstOp 5 x)
  | .ldvShort x => some (ldstOp 2 (shortOne x .sc .b32))
  | .stvShort x => some (ldstOp 3 (shortOne x .sc .b32))
  | .ldsShort x => some (ldstOp 4 (shortOne x .sc .b64))
  | .stsShort x => some (ldstOp 5 (shortOne x .sc .b64))
  | .atom x => some (atomOp 0 x)
  | .red x => some (atomOp 1 x)
  | .atoms x => some (atomOp 2 x)
  | .mwait x => some (mwaitOp x)
  | _ => none

/-- Whether all pieces of an access lie on `uo` pages. -/
def uoOnly (segs : List Seg) : Bool := segs.all (fun g => g.kind = 2)

/-- Whether two accesses of a team to common bytes of `uo` pages are unordered: not both are writes (11 R260, R263). A fence of any
scope between them orders them (R261). -/
def uoFree (m n : MemOp) (a b : List Seg) : Bool :=
  (m.kind = .load || n.kind = .load) && uoOnly a && uoOnly b

/-- Whether n bytes at a and k bytes at b may be the same memory: a page is 64 KB at least, and two pages may be one place. -/
def mayMeet (a n b k : Nat) : Bool := (b + 65536 - a % 65536) % 65536 < n || (a + 65536 - b % 65536) % 65536 < k

/-- Whether a flight has a translated lane. -/
def Flight.hasReady (f : Flight) : Bool := f.lanes.any (fun l => match l.st with
  | .ready _ => true
  | _ => false)

/-- Whether an instruction only writes memory: it is over for its team once it has issued, and what fails later is imprecise
(09 R206, 16 R371). -/
def writesOnly (i : Instr) : Bool :=
  match i with
  | .st _ | .stv _ | .sts _ | .stvShort _ | .stsShort _ | .red _ | .mfst _ => true
  | _ => false

/-- Whether an instruction traps on the statuses of its lanes: `hld` in mode `.f` (16 R369). -/
def trapsOnStatus (i : Instr) : Bool :=
  match i with
  | .hld x => x.f 6 5 = 1
  | _ => false

/-- Whether a flight keeps its team from issuing: a lane has failed, or is not translated where its trap would be precise, or waits
under `.w` for a status that may trap, so that the boundary after the instruction stands (DEDUCED from R205 and R422, log 10). What
only writes does not keep it: its trap is imprecise once the team has gone on (09 R206, 11 R278). -/
def Flight.blocks (f : Flight) : Bool :=
  !f.withdrawn && (f.gate || f.lanes.any (fun l => match l.st with
    | .todo => !writesOnly f.instr
    | .failed _ _ _ => true
    | .waitW => trapsOnStatus f.instr
    | _ => false))

/-- The flights of a team, in program order. -/
def State.flightsOf (s : State) (u : Nat) : List Flight := s.flights.filter (fun f => f.team = u)

/-! ## What waits for a write, a flight or a transfer -/

/-- What waits for a copy of a core, as a number apart from those of writes and flights. -/
def copyKey (core id : Nat) : Nat := 2 ^ 64 + core * 2 ^ 32 + id

/-- As `copyKey`, for the transfer of a scratch line. -/
def lineKey (core n : Nat) : Nat := 2 ^ 65 + core * 2 ^ 11 + n

/-- As `copyKey`, for a render pass of a die. -/
def passKey (die id : Nat) : Nat := 2 ^ 66 + die * 2 ^ 32 + id

/-- The transfer that an event carries on. -/
def Ev.transfer : Ev → List Nat
  | .copyDescriptorRead c k => [copyKey c k]
  | .copyComplete c k => [copyKey c k]
  | .fillComplete c n => [lineKey c n]
  | .writebackComplete c n => [lineKey c n]
  | _ => []

/-! ## Which lanes go before which (11 R260-R263) -/

/-- Whether a lane of a flight comes after an unfinished lane of an earlier flight of its team: they name a byte in common, but on
`uo` pages, or are both on `so` pages (11 R261, R263). -/
def laneAfter (s : State) (f : Flight) (m : MemOp) (r : LaneReq) (segs : List Seg) (g : Flight) : Bool :=
  let so := segs.any (fun x => x.kind = 1)
  decide (g.id < f.id) && !g.withdrawn && (match memOp? g.instr with
    | none => false
    | some n => m.kind ≠ .red && n.kind ≠ .red && g.lanes.any (fun l => match l.st with
      | .done => false
      | .failed _ _ _ => false
      | .ready gs => !(uoFree m n segs gs && (s.team? f.team).any (fun t => t.ordAt ≤ g.id)) &&
        ((segKeys gs).any (fun k => (segKeys segs).contains k) || (so && gs.any (fun x => x.kind = 1)))
      | _ => so || mayMeet l.addr.toNat n.size r.addr.toNat m.size))

/-- Whether a lane of a flight may be performed: its line does not move, and it comes after no unfinished lane. -/
def laneFree (s : State) (f : Flight) (m : MemOp) (r : LaneReq) (segs : List Seg) : Bool :=
  !(segKeys segs).any (lineMoves s) && !(s.flightsOf f.team).any (laneAfter s f m r segs)

/-- Whether a flight waits for some flights and transfers: it counts one, or each of its lanes that is left comes after one. -/
def Flight.heldBy (s : State) (ids : List Nat) (f : Flight) : Bool :=
  f.waits.any ids.contains || (match memOp? f.instr with
    | none => false
    | some m => f.hasReady && f.lanes.all (fun r => match r.st with
      | .todo => false
      | .ready segs => (s.flightsOf f.team).any (fun g => ids.contains g.id && laneAfter s f m r segs g)
      | _ => true))

/-- What a team may wait for that waits itself on an event outside (19 R424): transfers on a fault, and its flights that are stuck
or wait for what is. -/
def stuckIds (s : State) (u : Nat) : List Nat :=
  (s.flightsOf u).foldl (fun ids f => if f.stuck || f.heldBy s ids then ids ++ [f.id] else ids)
    (s.faults.flatMap (fun q => q.retry.transfer))

/-- Whether earlier instructions of a team can still finish by themselves (19 R424, step 2): flights, releases at their gates,
fences, a pop, and what the matrix engine has accepted. -/
def State.busy (s : State) (u : Nat) : Bool :=
  let ids := stuckIds s u
  (s.flightsOf u).any (fun f => f.moving && !f.heldBy s ids) ||
  s.writes.any (fun w => w.team = u && !w.waits.isEmpty && !w.waits.any ids.contains) ||
  (s.team? u).any (fun t => !t.pop.isEmpty || t.holds.any (fun h => !h.waits.any ids.contains) ||
    (s.core t.core).engine.any (fun m => m.team = u))

/-- Whether a team waits in the fault buffer (09 R203). -/
def State.inFault (s : State) (u : Nat) : Bool :=
  (s.flightsOf u).any (fun f => f.lanes.any (fun l => l.st = .faulted))

/-- The scalar registers that an instruction fills beside its D: the replay run of `kvx` (17 R385) and the status of
`qpop.nb` (15 R344), as first register and count. -/
def extraRun (w opc sub : Nat) (x : Ext) : Option (Nat × Nat) :=
  if opc = 0x55 && sub = 0 then some (x.f 6 0, maskRegs w)
  else if opc = 0x53 && sub = 0 && x.bit 0 then some (x.f 7 1, 1)
  else none

/-- Those registers of an instruction in flight. -/
def extraRegs (w : Nat) (i : Instr) : List Nat :=
  match i.form with
  | .ext opc sub x => match extraRun w opc sub x with
    | some (n, k) => (List.range k).map (fun j => n + j)
    | none => []
  | _ => []

/-- The registers of a flight become full (06 R148), but for those that a replay entry will fill (19 R427). -/
def fillDst (s : State) (f : Flight) : State :=
  s.onTeam f.team (fun t =>
    let t := (List.range f.dnum).foldl (fun t k =>
      if t.rdst.contains (f.dvec, f.dst + k) then t
      else if f.dvec then t.setVFull (f.dst + k) true else t.setSFull (f.dst + k) true) t
    (extraRegs t.width f.instr).foldl (fun t k =>
      if t.rdst.contains (false, k) then t else t.setSFull k true) t)

/-- The trap of the failed lanes of a flight (09 R205): the code and cause of the lowest failing address. -/
def flightTrap (f : Flight) : Option Trap :=
  let bad := f.lanes.filterMap (fun l => match l.st with
    | .failed c sb a => some (l.lane, c, sb, a)
    | _ => none)
  match bad with
  | [] => none
  | x :: rest =>
    let low := rest.foldl (fun m y => if y.2.2.2 < m.2.2.2 then y else m) x
    some { code := low.2.1, sub := low.2.2.1, addr := BitVec.ofNat 64 low.2.2.2, payload := 0,
           lanes := bad.map (fun y => y.1),
           pc := f.pc, npc := f.npc, imprecise := false, partly := true, skip := false, op := f.id }

/-- A held trap stands in program order (19 R431). -/
def holdTrap (hs : List Trap) (tr : Trap) : List Trap :=
  hs.takeWhile (fun h => h.op ≤ tr.op) ++ tr :: hs.dropWhile (fun h => h.op ≤ tr.op)

/-- Records a precise trap of a team: held until after `tret` when its instruction was re-injected or is a partial
run (19 R431), else due at the boundary where the instruction stands. -/
def raise (s : State) (u : Nat) (again : Bool) (tr : Trap) : State :=
  s.onTeam u (fun t => if again then { t with held := holdTrap t.held tr }
    else { t with due := some tr, pc := tr.pc })

/-- A team with a pending wound that is parked on a fault or in `mwait` takes it at once (14 R328). -/
def wakeWound (s : State) (u : Nat) : State :=
  match s.team? u with
  | none => s
  | some t => if t.wound && !t.handler && (t.run = .parked .fault || t.run = .parked .mwait) then s.postOnce (.woundTake u) else s

/-- A running team parks on a replayable fault (09 R203). -/
def parkFault (s : State) (u : Nat) : State :=
  wakeWound (s.onTeam u (fun t => if t.run = .running then { t with run := .parked .fault } else t)) u

/-- After a flight of a team moved: a team parked on its faults leaves `parked` when none is left (09 R203), one in `mwait` whose
read has failed takes its trap (11 R280), and a `tret` whose entries have all ended resumes (19 R431). -/
def settle (s : State) (u : Nat) : State :=
  match s.team? u with
  | none => s
  | some t =>
    match t.run with
    | .parked .fault => if s.inFault u then s else s.onTeam u (fun t => { t with run := .running })
    | .parked .mwait =>
      if (s.flightsOf u).any (fun f => some f.id = t.aux[2]?) then s
      else if t.due.isSome then s.onTeam u (fun t => { t with run := .running })
      else (s.onTeam u (fun t => { t with run := .parked .tret })).postOnce (.tretResume u)
    | .parked .tret => if (s.flightsOf u).all (fun f => !f.again) then s.postOnce (.tretResume u) else s
    | _ => s

/-- An imprecise trap becomes pending at a team; the lanes of one store share one (09 R206). -/
def addPending (s : State) (u : Nat) (tr : Trap) : State :=
  s.onTeam u (fun t =>
    if tr.op ≠ 0 && t.pending.any (fun p => p.op = tr.op && p.code = tr.code && p.sub = tr.sub) then
      { t with pending := t.pending.map (fun p => if p.op = tr.op && p.code = tr.code && p.sub = tr.sub
          then { p with lanes := p.lanes ++ tr.lanes, addr := if tr.addr.toNat < p.addr.toNat then tr.addr else p.addr }
          else p) }
    else { t with pending := t.pending ++ [tr] })

/-- Whether a team has issued instructions after a flight. -/
def wentOn (s : State) (f : Flight) : Bool := (s.team? f.team).any (fun t => f.no + 1 < t.issueNo)

/-- The trap of a flight whose lanes failed: precise at the boundary after it; where its team has gone on, that of a store is
imprecise (09 R206), and another names the instruction at which the team stands as the next (log 10). -/
def raiseFlight (s : State) (f : Flight) (tr : Trap) : State :=
  if f.again || !wentOn s f then raise s f.team f.again tr
  else if writesOnly f.instr then addPending s f.team { tr with imprecise := true, partly := false }
  else match s.team? f.team with
    | some t => raise s f.team false { tr with npc := t.pc }
    | none => s

/-- A flight that has no lane left to perform ends: its registers become full, and a lane trap is
raised (09 R205). -/
def endFlight (s : State) (f : Flight) : State :=
  let s := fillDst (s.dropFlight f.id) f
  settle (match flightTrap f with
    | none => s
    | some tr => raiseFlight s f tr) f.team

/-- A write or flight is finished: what waited for it waits no longer. Releases whose gate opens and fences whose wait
ends are posted (11 R271, R276). -/
def clearWait (s : State) (id : Nat) : State :=
  let open_ := s.writes.filter (fun w => w.waits = [id])
  let holds := s.teams.filter (fun t => t.holds.any (fun h => h.waits = [id]))
  let s := { s with
    writes := s.writes.map (fun w => { w with waits := w.waits.filter (· ≠ id) })
    flights := s.flights.map (fun f => { f with waits := f.waits.filter (· ≠ id) })
    teams := s.teams.map (fun t => { t with
      holds := t.holds.map (fun h => { h with waits := h.waits.filter (· ≠ id) }) }) }
  let s := open_.foldl (fun s w => s.postOnce (.releaseGateOpen w.id)) s
  holds.foldl (fun s t => s.postOnce (.fenceComplete t.uid)) s

/-- Places a flight among the flights in the order of their ids. -/
def insertFlight (s : State) (f : Flight) : State :=
  { s with flights := insertBy (fun a b => a.id ≤ b.id) f s.flights }

/-- A release store that stands at its gate becomes an unfinished instruction again, with all its waiting lanes
(11 R278). -/
def withdrawOp (s : State) (u op : Nat) : State :=
  let ws := s.writes.filter (fun w => w.team = u && w.op = op && !w.waits.isEmpty)
  match ws with
  | [] => s
  | w :: _ => match w.instr with
    | none => s
    | some i =>
      let f : Flight :=
        { id := w.id, team := u, pc := w.pc, npc := w.npc, instr := i, dvec := false, dst := 0, dnum := 0,
          lanes := ws.map (fun w => { lane := w.lane, addr := w.va, data := w.data, st := .todo }),
          snap := [], aux := [1], again := false, gate := false, waits := [] }
      let s := { s with writes := s.writes.filter (fun w => !(w.team = u && w.op = op && !w.waits.isEmpty)) }
      insertFlight (ws.foldl (fun s w => clearWait s w.id) s) f

/-- The fences of a team that wait for what is stuck, as flights without lanes to finish. -/
def heldFences (t : Team) (ids : List Nat) : List Flight :=
  let hs := t.holds.filter (fun h => h.waits.any ids.contains)
  (uniq (hs.map (fun h => h.op))).filterMap (fun o => (hs.find? (fun h => h.op = o)).map (fun h =>
    { id := o, team := t.uid, pc := h.pc, npc := h.npc, instr := h.instr, dvec := false, dst := 0, dnum := 0,
      lanes := [{ lane := 0, addr := 0, data := 0, st := .todo }], snap := [], aux := [1], again := false, gate := false,
      waits := [] }))

/-- What waits for an instruction that is stuck is stuck with it (19 R424, R433): releases at their gates become
unfinished instructions again, and fences stand as unfinished instructions. -/
def captureReady (s : State) (u : Nat) : State :=
  let ids := stuckIds s u
  if ids.isEmpty then s
  else
    let ops := uniq ((s.writes.filter (fun w => w.team = u && w.waits.any ids.contains)).map (fun w => w.op))
    let s := ops.foldl (fun s o => withdrawOp s u o) s
    let s := { s with flights := s.flights.map (fun f => if f.team = u && f.heldBy s ids
      then { f with aux := 1 :: f.aux.tail, again := false, waits := [], lanes := f.lanes.map (fun l => match l.st with
        | .ready _ => { l with st := .todo }
        | _ => l) }
      else f) }
    match s.team? u with
    | none => s
    | some t =>
      let fs := heldFences t ids
      let s := s.setTeam { t with holds := t.holds.filter (fun h => !fs.any (fun f => f.id = h.op)) }
      fs.foldl insertFlight s

/-! ## The fault buffers (09 R203, R204) -/

/-- The number of requests that a die's fault buffer holds (09 R203). -/
def faultCap : Nat := 4096

/-- Whether the fault buffer of a die is full. -/
def faultsFull (s : State) (die : Nat) : Bool := faultCap ≤ (s.faults.filter (fun q => q.die = die)).length

/-- The number that names the agents of a die beside its cores: its firmware and tiler, and on die 0 the hub. -/
def dieAgent (die : Nat) : Nat := 256 + die

/-- The die whose fault buffer serves a core or such an agent. -/
def faultDie (core : Nat) : Nat := if core < 256 then dieOf core else core - 256

/-- A request of a core enters the fault buffer of its die, once for each page and cause of retry. While the buffer is full it
does not, and the request port of the core stalls (09 R204). -/
def addFault (s : State) (core : Nat) (q : FaultReq) : State :=
  if s.faults.contains q then s
  else if faultsFull s q.die then s.onCore core (fun c => { c with stalled := true })
  else { s with faults := s.faults ++ [q] }

/-- Whether the request port of a core is stalled: the fault buffer of its die is full and the core has a request to
add (09 R204). -/
def portStalled (s : State) (core : Nat) : Bool := faultsFull s (dieOf core) && (s.core core).stalled

/-- Requests leave the fault buffers, and the ports of a die whose buffer has an entry free go on. -/
def dropFaults (s : State) (p : FaultReq → Bool) : State :=
  let s := { s with faults := s.faults.filter (fun q => !p q) }
  { s with cores := s.cores.map (fun c => if faultsFull s (dieOf c.num) then c else { c with stalled := false }) }

/-! ## What firmware and the hub take up again -/

/-- An MSI-X vector is raised (20 R442); one whose table entry is masked becomes pending (R439, log 19). -/
def raiseVec (s : State) (n : Nat) : State :=
  s.onHub (fun h =>
    if (h.msix.get (16 * n + 12)).getLsbD 0 then { h with pba := if h.pba.contains n then h.pba else h.pba ++ [n] }
    else { h with msiLog := h.msiLog ++ [n] })

/-- The priority ceiling of a context (05 R111). -/
def ceilOf (s : State) (ctx : Nat) : Nat := match s.ctx? ctx with
  | some c => c.ceil
  | none => 0

/-- The launches that wait for places or resources are looked at again, the highest ceiling first (05 R121). -/
def wakeLaunches (s : State) : State :=
  (sortBy (fun a b => decide (ceilOf s b.ctx ≤ ceilOf s a.ctx)) (s.launches.filter (fun l => l.phase = .checked))).foldl
    (fun s l => s.postOnce (.teamPlacement l.id [])) s

/-- The statuses that are still to be written are looked at again (05 R116). -/
def wakeStatus (s : State) : State :=
  (s.launches.filter (fun l => l.phase = .ended && !l.sent)).foldl (fun s l => s.postOnce (.launchStatusWrite l.id)) s

/-! ## Taking a trap (19 R424-R428) -/

/-- The 128 bytes of a lane set (19 R425). -/
def laneBytes (ls : List Nat) : List Byte :=
  leBytes 128 (ls.foldl (fun a l => if a.testBit l then a else a + 2 ^ l) 0)

/-- The words of a flight's instruction in 20 bytes (19 R426). -/
def instrBytes (i : Instr) : List Byte := ((encodeBytes i) ++ List.replicate 20 0).take 20

/-- The lanes that a captured flight has not finished: one that failed has had no effect, and fails again when it is replayed
(09 R205, 16 R377). -/
def Flight.left (f : Flight) : List LaneReq := f.lanes.filter (fun l => l.st ≠ .done)

/-- Whether an instruction is a fence. -/
def isFence (i : Instr) : Bool :=
  match i with
  | .fence _ => true
  | .xfence _ => true
  | _ => false

/-- The replay entry of a flight (19 R426), in 192 + 16W bytes. -/
def entryBytes (w : Nat) (f : Flight) : List Byte :=
  let flags := (if f.withdrawn && (memOp? f.instr).any (fun m => m.rel) then 1 else 0) +
    (if f.lanes.any (fun l => l.st = .waitW) then 2 else 0) +
    (if f.lanes.any (fun l => l.st = .faulted) then 4 else 0)
  instrBytes f.instr ++ leBytes 4 0 ++ leBytes 8 f.pc.toNat ++ leBytes 1 flags ++ leBytes 31 0 ++
  laneBytes (f.left.map (fun l => l.lane)) ++
  (List.range w).flatMap (fun k => match f.left.find? (fun l => l.lane = k) with
    | some l => leBytes 8 l.addr.toNat ++ leBytes 8 l.data.toNat
    | none => leBytes 16 0)

/-- The flights captured at a trap or a save: those that wait on an outside event (19 R424). A write
withdrawn from the release gate is one (11 R278); it is a flight of its own by then. -/
def captured (s : State) (u : Nat) : List Flight := (s.flightsOf u).filter Flight.stuck

/-- The frame of R425 for a trap of a team, without the bytes beyond the last entry. -/
def frameBytes (t : Team) (tr : Trap) (es : List Flight) : List Byte :=
  let ctl := (if tr.skip then 1 else 0) + (if tr.imprecise then 2 else 0) + (if tr.partly then 4 else 0)
  leBytes 8 (tr.code + tr.sub % 2 ^ 16 * 2 ^ 8 + es.length * 2 ^ 24 + tr.payload % 2 ^ 16 * 2 ^ 32) ++
  leBytes 8 ctl ++ leBytes 8 tr.pc.toNat ++ leBytes 8 tr.npc.toNat ++ leBytes 8 tr.addr.toNat ++
  leBytes 8 t.status.toNat ++ leBytes 16 0 ++ laneBytes tr.lanes ++
  (List.range 16).flatMap (fun k => leBytes 8 (if k < maskRegs t.width then (t.sval k).toNat else 0)) ++
  leBytes 704 0 ++ es.flatMap (entryBytes t.width)

/-- The registers that a flight fills. -/
def flightRegs (w : Nat) (f : Flight) : List (Bool × Nat) :=
  (List.range f.dnum).map (fun k => (f.dvec, f.dst + k)) ++ (extraRegs w f.instr).map (fun k => (false, k))

/-- A team stops for good: firmware ends its kernel with status 0x09 and the trap code (19 R428). -/
def unhandled (s : State) (t : Team) (code : Nat) : State :=
  let st := 0x09 + code * 2 ^ 8 + (if t.handler then 2 ^ 16 else 0)
  let s := s.setTeam { t with run := .stopped, due := none, holds := [] }
  let s := dropFaults s (fun q => match s.flight? q.flight with
    | some f => f.team = t.uid
    | none => false)
  let gone := s.flightsOf t.uid
  let s := gone.foldl (fun s f => clearWait s f.id) { s with flights := s.flights.filter (fun f => f.team ≠ t.uid) }
  let s := s.onLaunch t.launch (fun l => { l with phase := .ended, status := if l.status = 0 then st else l.status })
  s.postOnce (.launchStatusWrite t.launch)

/-- Whether the instruction of a precise trap has had its effect, in part or whole, so that its trap belongs to no later issue:
the lane traps of R205 and R369, and `fpexc` (04 R99). -/
def Trap.after (tr : Trap) : Bool := tr.partly || tr.skip

/-- Removes a delivered trap from where it waited. An imprecise one goes before that of the instruction at the boundary: an
instruction that has had its effect keeps its trap until after the handler, another is issued again (log 70). -/
def Team.dropTrap (t : Team) (tr : Trap) : Team :=
  if tr.imprecise then { t with
    pending := t.pending.tail, due := none, held := match t.due.filter Trap.after with
      | some d => holdTrap t.held d
      | none => t.held }
  else if t.due = some tr then { t with due := none }
  else { t with held := t.held.erase tr }

/-- Handler entry (19 R424, step 4): the mask set to every lane, `status` [14:10] cleared, the team in a handler,
the program counter at `trapv`; the registers that the replay entries will fill are named (R427), and what an entry's engine took
at issue is kept beside the frame (14 R320). -/
def Team.enter (t : Team) (es : List Flight) : Team :=
  { t.maskAll with
    status := t.status &&& ~~~(0x7C00#64), handler := true, pc := t.trapv, rdst := es.flatMap (flightRegs t.width),
    run := .running, caught := es }

/-- The delivery of a trap at a boundary whose earlier instructions have finished (19 R424): the waiting flights are
captured, the frame is written, the handler is entered. A replayable fault on the frame delays it. -/
def deliver (s : State) (t : Team) (tr : Trap) : State :=
  let s := captureReady (s.setTeam t) t.uid
  let t := (s.team? t.uid).getD t
  if t.trapv = 0 || t.trapa = 0 || t.handler then unhandled s t tr.code
  else
    let es := captured s t.uid
    let bs := frameBytes t tr es
    match piecesOf s t.core t.ctx .write t.trapa.toNat bs.length with
    | .error .absent =>
      let q : FaultReq :=
        { die := dieOf t.core, ctx := t.ctx, path := 0, flight := 0, retry := .trapDelivery t.uid,
          blk := failVA s t.core t.ctx .write t.trapa.toNat bs.length % 2 ^ 57 / 2048 }
      if s.declined.contains q.retry then
        unhandled { s with declined := s.declined.erase q.retry } t tr.code
      else
        let t := { t with due := if tr.imprecise || t.held.contains tr then t.due else some tr }
        let full := faultsFull s (dieOf t.core) && !s.faults.contains q
        (addFault s t.core q).setTeam (if full then t else { t with run := .parked .fault })
    | .error _ => unhandled s t tr.code
    | .ok segs =>
      let s := dropFaults { s with flights := s.flights.filter (fun f => !(f.team = t.uid && f.stuck)) }
        (fun q => es.any (fun f => f.id = q.flight))
      let id := s.nextId
      let s := storeSegs s t 0 t.trapa segs bs tr.pc tr.npc none 0
      let s := { s with writes := s.writes.map (fun (w : BufWrite) => if w.id = id then { w with frame := some tr.code } else w) }
      s.setTeam (((t.dropTrap tr).enter es))

/-- Taking a trap at an instruction (19 R424): at once when every earlier instruction that can finish has finished and the frame
can be sent (09 R204), else when it can; a trap of a re-injected entry or a partial run is held (R431). -/
def takeTrap (s : State) (t : Team) (tr : Trap) : State :=
  if t.part.isSome then
    settle (s.setTeam
      { t with held := holdTrap t.held { tr with op := s.nextId, partly := true, lanes := if tr.lanes.isEmpty then t.part.getD []
          else tr.lanes }, part := none, run := .parked .tret }) t.uid
  else if s.busy t.uid || portStalled s t.core then s.setTeam { t with due := some tr }
  else deliver s t tr

/-- A precise trap of the instruction at pc. -/
def trapHere (pc npc : Word64) (code sub : Nat) : Trap :=
  { code := code, sub := sub, addr := 0, payload := 0, lanes := [], pc := pc, npc := npc, imprecise := false,
    partly := false, skip := false, op := 0 }

/-- The trap that a boundary delivers first (19 R424, R431): the oldest pending imprecise one, then the one of the instruction at
the boundary, then the held ones. In a handler only the instruction's own is delivered. -/
def nextTrap (t : Team) : Option Trap :=
  if t.handler then t.due
  else match t.pending, t.due, t.held with
    | p :: _, _, _ => some { p with pc := t.pc, npc := t.pc }
    | [], some d, _ => some d
    | [], none, h :: _ => some h
    | [], none, [] => none

end Sys2Proof.Machine
end

