-- ==== Sys2Proof/Machine/Flags.lean ====
section
/-!
DEFINITION. The number formats, the one rounding step of the part and the flags of `status` (04 R88-R99).
-/

namespace Sys2Proof.Machine

/-! ## Flags -/

/-- A set of flags in the order of `status` [9:5]: nv is bit 4, dz 3, of 2, uf 1, nx 0 (04 R96, R99). -/
abbrev Flg := Nat
/-- Invalid operation. -/
def fNV : Flg := 16
/-- Division by zero. -/
def fDZ : Flg := 8
/-- Overflow. -/
def fOF : Flg := 4
/-- Underflow. -/
def fUF : Flg := 2
/-- Inexact. -/
def fNX : Flg := 1

/-- The enabled flags among those raised (04 R99): the enables are `status` [14:10], in the order of the flags. -/
def enabled (status : Word64) (f : Flg) : Flg := f &&& bitsN status.toNat 14 10

/-- The sticky flags after an instruction raised f (04 R98). -/
def orFlags (status : Word64) (f : Flg) : Word64 := status ||| BitVec.ofNat 64 (f % 32 * 32)

/-- Whether a value breaks the layout of `status` (04 R96, 19 R430). -/
def statusBad (x : Word64) : Bool :=
  x.toNat / 2 ^ 15 ≠ 0 || x.getLsbD 3 || x.toNat % 8 = 0 || 5 < x.toNat % 8

/-- Whether `status.ftz` is set (04 R97). -/
def Team.ftz (t : Team) : Bool := t.status.getLsbD 4

/-- The effective rounding mode (04 R93). A reserved rm code, which only the `status` of a frame that a handler edited can bring in (19
R431), rounds as `rne` (the model's choice, log 28). -/
def Team.mode (t : Team) (r : Rnd) : Rnd :=
  match r with
  | .rs => (Rnd.ofCode (t.status.toNat % 8)).getD .rne
  | m => m

/-! ## Values -/

/-- A value of a floating-point format: a NaN, an infinity, a zero of a sign, or m x 2^e with m not 0 (04 R88). -/
inductive FV where
  | nan (signalling : Bool)
  | inf (neg : Bool)
  | zero (neg : Bool)
  | fin (m : Int) (e : Int)
  deriving DecidableEq, Repr

/-- A floating-point format (04 R88, R89): field widths, bias, the exponent and significand of the largest finite
value, whether the top exponent code is reserved, and the canonical NaN. -/
structure Fmt where
  ebits : Nat
  mbits : Nat
  bias  : Nat
  emax  : Int
  maxN  : Nat
  ieee  : Bool
  flush : Bool
  cnan  : Nat
  deriving DecidableEq, Repr

/-- The format f64. -/
def fmt64 : Fmt :=
  { ebits := 11, mbits := 52, bias := 1023, emax := 1023, maxN := 2 ^ 53 - 1, ieee := true, flush := true,
    cnan := 0x7FF8000000000000 }
/-- The format f32. -/
def fmt32 : Fmt :=
  { ebits := 8, mbits := 23, bias := 127, emax := 127, maxN := 2 ^ 24 - 1, ieee := true, flush := true,
    cnan := 0x7FC00000 }
/-- The format f16. -/
def fmt16 : Fmt :=
  { ebits := 5, mbits := 10, bias := 15, emax := 15, maxN := 2 ^ 11 - 1, ieee := true, flush := true,
    cnan := 0x7E00 }
/-- The format bf16. -/
def fmtB16 : Fmt :=
  { ebits := 8, mbits := 7, bias := 127, emax := 127, maxN := 255, ieee := true, flush := true, cnan := 0x7FC0 }
/-- The format e4m3. -/
def fmtE4 : Fmt :=
  { ebits := 4, mbits := 3, bias := 7, emax := 8, maxN := 14, ieee := false, flush := false, cnan := 0x7F }
/-- The format e5m2. -/
def fmtE5 : Fmt :=
  { ebits := 5, mbits := 2, bias := 15, emax := 15, maxN := 7, ieee := true, flush := false, cnan := 0x7E }
/-- The format e2m1. -/
def fmtE2 : Fmt :=
  { ebits := 2, mbits := 1, bias := 1, emax := 2, maxN := 3, ieee := false, flush := false, cnan := 0 }

/-- The format of a floating-point type. -/
def tyFmt : Ty → Fmt
  | .f64 => fmt64 | .f16 => fmt16 | .bf16 => fmtB16 | .e4m3 => fmtE4 | .e5m2 => fmtE5 | .e2m1 => fmtE2
  | _ => fmt32

/-- The width of a format in bits. -/
def Fmt.width (f : Fmt) : Nat := f.ebits + f.mbits + 1

/-- The sign bit of a pattern. -/
def Fmt.sign (f : Fmt) (x : Nat) : Bool := x.testBit (f.ebits + f.mbits)

/-- The exponent of the smallest subnormal's unit: 1 - bias - mbits. -/
def Fmt.qmin (f : Fmt) : Int := 1 - f.bias - f.mbits

/-- The value of a pattern (04 R88, R89). -/
def Fmt.value (f : Fmt) (x : Nat) : FV :=
  let neg := f.sign x
  let e := x / 2 ^ f.mbits % 2 ^ f.ebits
  let fr := x % 2 ^ f.mbits
  let sg : Int := if neg then -1 else 1
  if f.ieee && e = 2 ^ f.ebits - 1 then
    (if fr = 0 then .inf neg else .nan (!fr.testBit (f.mbits - 1)))
  else if f = fmtE4 && e = 15 && fr = 7 then .nan false
  else if e = 0 then (if fr = 0 then .zero neg else .fin (sg * fr) f.qmin)
  else .fin (sg * (fr + 2 ^ f.mbits : Nat)) (f.qmin + e - 1)

/-- Whether a pattern is a subnormal. -/
def Fmt.subnormal (f : Fmt) (x : Nat) : Bool :=
  x / 2 ^ f.mbits % 2 ^ f.ebits = 0 && x % 2 ^ f.mbits ≠ 0

/-- The value of an input, read under flushing (04 R97). -/
def Fmt.input (f : Fmt) (ftz : Bool) (x : Nat) : FV :=
  if ftz && f.flush && f.subnormal x then .zero (f.sign x) else f.value x

/-- A sign as the pattern's sign bit. -/
def Fmt.signBits (f : Fmt) (neg : Bool) : Nat := if neg then 2 ^ (f.ebits + f.mbits) else 0

/-- The pattern of the largest finite value of a sign (04 R89). -/
def Fmt.maxFin (f : Fmt) (neg : Bool) : Nat :=
  f.signBits neg + (f.emax + f.bias).toNat * 2 ^ f.mbits + (f.maxN - 2 ^ f.mbits)

/-- The pattern of an infinity of a sign (04 R89). -/
def Fmt.infBits (f : Fmt) (neg : Bool) : Nat := f.signBits neg + (2 ^ f.ebits - 1) * 2 ^ f.mbits

/-! ## Rounding -/

/-- The number of bits of a natural number. -/
def bitLen (n : Nat) : Nat := if n = 0 then 0 else Nat.log2 n + 1

/-- The magnitude a x 2^k rounded to an integer by a mode for a value of a sign, and whether it was exact (04
R93). -/
def rndMag (mode : Rnd) (neg : Bool) (a : Nat) (k : Int) : Nat × Bool :=
  match k with
  | .ofNat n => (a * 2 ^ n, true)
  | .negSucc n =>
    let d := 2 ^ (n + 1)
    let q := a / d
    let r := a % d
    if r = 0 then (q, true)
    else
      let up := match mode with
        | .rtz => false
        | .rdn => neg
        | .rup => !neg
        | .rna => decide (d ≤ 2 * r)
        | .rne | .rs => decide (d < 2 * r) || (decide (2 * r = d) && q % 2 = 1)
      (if up then q + 1 else q, false)

/-- As `rndMag`, for a value whose exponent may be far below the unit: a magnitude under a quarter unit rounds as a
quarter does. -/
def rndMagAt (mode : Rnd) (neg : Bool) (a : Nat) (e q : Int) : Nat × Bool :=
  if (bitLen a : Int) + e < q - 2 then rndMag mode neg 1 (-2) else rndMag mode neg a (e - q)

/-- Overflow (04 R94, step 3). -/
def Fmt.overflow (f : Fmt) (mode : Rnd) (sat neg : Bool) : Nat :=
  if sat || f = fmtE2 then f.maxFin neg
  else if f = fmtE4 then f.cnan
  else match mode with
    | .rne | .rna | .rs => f.infBits neg
    | .rtz => f.maxFin neg
    | .rdn => if neg then f.infBits true else f.maxFin false
    | .rup => if neg then f.maxFin true else f.infBits false

/-- Rounding of a non-zero exact value m x 2^e (04 R94, steps 2 to 5), with flushing of the result (R97). -/
def Fmt.roundFin (f : Fmt) (mode : Rnd) (sat ftz : Bool) (m e : Int) : Nat × Flg :=
  let neg := decide (m < 0)
  let a := m.natAbs
  let top : Int := (bitLen a : Int) + e - 1
  if f.emax < top then (f.overflow mode sat neg, fOF ||| fNX)
  else
    let q := top - f.mbits
    let r := rndMag mode neg a (e - q)
    let carry := decide (2 ^ (f.mbits + 1) ≤ r.1)
    let n := if carry then r.1 / 2 else r.1
    let top' := if carry then top + 1 else top
    if f.emax < top' || (f.emax = top' && f.maxN < n) then (f.overflow mode sat neg, fOF ||| fNX)
    else if top' < 1 - (f.bias : Int) then
      if ftz && f.flush then (f.signBits neg, fUF ||| fNX)
      else
        let u := rndMagAt mode neg a e f.qmin
        (f.signBits neg + u.1, if u.2 then 0 else fUF ||| fNX)
    else (f.signBits neg + (top' + f.bias).toNat * 2 ^ f.mbits + (n - 2 ^ f.mbits), if r.2 then 0 else fNX)

/-- `round(v, F, mode, sat)` (04 R94), with the result flushed under `ftz` (R97). -/
def Fmt.round (f : Fmt) (mode : Rnd) (sat ftz : Bool) : FV → Nat × Flg
  | .nan _ => if f = fmtE2 then (0, fNV) else (f.cnan, 0)
  | .inf neg =>
    if sat then (f.maxFin neg, 0)
    else if f = fmtE4 then (f.cnan, fNV)
    else if f = fmtE2 then (f.maxFin neg, fNV)
    else (f.infBits neg, 0)
  | .zero neg => (f.signBits neg, 0)
  | .fin m e => if m = 0 then (0, 0) else f.roundFin mode sat ftz m e

/-- The range of an integer type (04 R91). -/
def tyRange (t : Ty) : Int × Int :=
  let n := t.width
  if t.signed then (-(2 ^ (n - 1) : Nat), (2 ^ (n - 1) : Nat) - 1) else (0, (2 ^ n : Nat) - 1)

/-- m x 2^e rounded to an integer, with whether it was exact; far exponents are cut at 2^2200, beyond every
range (04 R95). -/
def rndInt (mode : Rnd) (m e : Int) : Int × Bool :=
  let neg := decide (m < 0)
  let r := rndMagAt mode neg m.natAbs (min e 2200) 0
  (if neg then -(r.1 : Int) else r.1, r.2)

/-- `round_int(v, T, mode)` (04 R95): the integer and the flags. -/
def roundInt (t : Ty) (mode : Rnd) : FV → Int × Flg
  | .nan _ => (0, fNV)
  | .inf neg => (if neg then (tyRange t).1 else (tyRange t).2, fNV)
  | .zero _ => (0, 0)
  | .fin m e =>
    let r := rndInt mode m e
    if r.1 < (tyRange t).1 then ((tyRange t).1, fNV)
    else if (tyRange t).2 < r.1 then ((tyRange t).2, fNV)
    else (r.1, if r.2 then 0 else fNX)

/-! ## Exact arithmetic on values -/

/-- The sign of a value; a NaN counts as positive. -/
def FV.neg : FV → Bool
  | .nan _ => false
  | .inf s => s
  | .zero s => s
  | .fin m _ => m < 0

/-- Whether a value is a NaN. -/
def FV.isNan : FV → Bool
  | .nan _ => true
  | _ => false

/-- Whether a value is a signalling NaN. -/
def FV.isSig : FV → Bool
  | .nan s => s
  | _ => false

/-- Whether a value is an infinity of a sign. -/
def FV.isInf (s : Bool) : FV → Bool
  | .inf n => n = s
  | _ => false

/-- The value with the other sign. -/
def FV.flip : FV → FV
  | .nan s => .nan s
  | .inf s => .inf (!s)
  | .zero s => .zero (!s)
  | .fin m e => .fin (-m) e

/-- The flag of signalling operands (04 R96). -/
def sigFlag (l : List FV) : Flg := if l.any FV.isSig then fNV else 0

/-- The exact product; 0 x infinity is a NaN and raises nv (08 R181). -/
def FV.mul : FV → FV → FV × Flg
  | .inf s, .inf r => (.inf (s != r), 0)
  | .inf s, .fin m _ => (.inf (s != decide (m < 0)), 0)
  | .fin m _, .inf s => (.inf (s != decide (m < 0)), 0)
  | .inf _, .zero _ => (.nan false, fNV)
  | .zero _, .inf _ => (.nan false, fNV)
  | .zero s, .zero r => (.zero (s != r), 0)
  | .zero s, .fin m _ => (.zero (s != decide (m < 0)), 0)
  | .fin m _, .zero s => (.zero (s != decide (m < 0)), 0)
  | .fin m e, .fin n g => (.fin (m * n) (e + g), 0)
  | .nan _, _ => (.nan false, 0)
  | _, .nan _ => (.nan false, 0)

/-- The exact sum of two dyadic numbers. -/
def dyAdd (m e n g : Int) : Int × Int :=
  if e ≤ g then (m + n * 2 ^ (g - e).toNat, e) else (m * 2 ^ (e - g).toNat + n, g)

/-- The exact sum of the finite terms of a list. -/
def dySum : List FV → Int × Int
  | [] => (0, 0)
  | .fin m e :: l => let r := dySum l; if r.1 = 0 then (m, e) else dyAdd m e r.1 r.2
  | _ :: l => dySum l

/-- The exact sum of terms (08 R179, R181, R192): opposing infinities raise nv, and a zero takes its sign from the terms
and the mode. -/
def sumFV (mode : Rnd) (l : List FV) : FV × Flg :=
  let pi := l.any (FV.isInf false)
  let ni := l.any (FV.isInf true)
  if pi && ni then (.nan false, fNV)
  else if l.any FV.isNan then (.nan false, 0)
  else if pi then (.inf false, 0)
  else if ni then (.inf true, 0)
  else
    let r := dySum l
    if r.1 ≠ 0 then (.fin r.1 r.2, 0)
    else if l.all (fun v => match v with
        | .zero s => s
        | _ => false) then (.zero true, 0)
    else if l.all (fun v => match v with
        | .zero s => !s
        | _ => false) then (.zero false, 0)
    else (.zero (mode = .rdn), 0)

/-- The quotient of two non-zero dyadic numbers to 130 bits with a sticky last bit, so that every rounding of it is the
rounding of the exact quotient. -/
def dyDiv (m e n g : Int) : Int × Int :=
  let k := 130 + bitLen n.natAbs
  let q := m.natAbs * 2 ^ k / n.natAbs
  let r := m.natAbs * 2 ^ k % n.natAbs
  let a : Int := 2 * q + (if r = 0 then 0 else 1)
  (if decide (m < 0) != decide (n < 0) then -a else a, e - g - k - 1)

/-- The exact quotient up to the sticky bit, with the flags of R96. -/
def FV.div : FV → FV → FV × Flg
  | .nan _, _ => (.nan false, 0)
  | _, .nan _ => (.nan false, 0)
  | .inf _, .inf _ => (.nan false, fNV)
  | .zero _, .zero _ => (.nan false, fNV)
  | .inf s, b => (.inf (s != b.neg), 0)
  | a, .inf s => (.zero (a.neg != s), 0)
  | .zero s, b => (.zero (s != b.neg), 0)
  | .fin m _, .zero s => (.inf (decide (m < 0) != s), fDZ)
  | .fin m e, .fin n g => let r := dyDiv m e n g; (.fin r.1 r.2, 0)

/-- The square root of a positive dyadic number with a sticky last bit. -/
def dySqrt (m e : Int) : Int × Int :=
  let e' := if e % 2 = 0 then e else e - 1
  let a := if e % 2 = 0 then m.natAbs else 2 * m.natAbs
  let b := a * 2 ^ 260
  let r := Nat.sqrt b
  (2 * (r : Int) + (if r * r = b then 0 else 1), e' / 2 - 130 - 1)

/-- The square root with the flags of R96 (08 R189). -/
def FV.sqrt : FV → FV × Flg
  | .nan _ => (.nan false, 0)
  | .inf s => if s then (.nan false, fNV) else (.inf false, 0)
  | .zero s => (.zero s, 0)
  | .fin m e => if m < 0 then (.nan false, fNV) else let r := dySqrt m e; (.fin r.1 r.2, 0)

/-- Whether a < b on numbers and infinities, with the two zeros equal (06 R159). -/
def FV.lt : FV → FV → Bool
  | .nan _, _ => false
  | _, .nan _ => false
  | .inf s, .inf r => s && !r
  | .inf s, _ => s
  | _, .inf s => !s
  | .zero _, .zero _ => false
  | .zero _, .fin n _ => 0 < n
  | .fin m _, .zero _ => m < 0
  | .fin m e, .fin n g => (dyAdd m e (-n) g).1 < 0

/-- Equality of numbers, with the two zeros equal (06 R159). -/
def FV.eqv (a b : FV) : Bool := !a.isNan && !b.isNan && !FV.lt a b && !FV.lt b a

/-- a x 2^b for an exponent cut at 5,000, beyond every format's range (08 R183). -/
def FV.scale (b : Int) : FV → FV
  | .fin m e => .fin m (e + max (-5000) (min 5000 b))
  | v => v

/-- The effect of raised flags on a team: sticky bits, and the trap `fpexc` of R99 with its lanes. -/
def fpTrap (t : Team) (pc npc : Word64) (fl : List (Nat × Flg)) : Option Trap :=
  let f := fl.foldl (fun a x => a ||| x.2) 0
  if enabled t.status f = 0 then none
  else some { code := 0x0D, sub := enabled t.status f, addr := 0, payload := 0,
              lanes := (fl.filter (fun x => enabled t.status x.2 ≠ 0)).map (fun x => x.1), pc := pc, npc := npc,
              imprecise := false, partly := false, skip := true, op := 0 }

end Sys2Proof.Machine
end

