-- ==== Sys2Proof/Machine/Operands.lean ====
section
/-!
DEFINITION. Issue of an instruction: the checks of R83 and R84, the reading of operands (03 R68-R76) and what
every instruction does around its effect (02 R42-R44, 06 R147-R151).
-/

namespace Sys2Proof.Machine

/-- An instruction at issue: its team, itself, its fields and row, the address after it, its active lanes
(02 R43) and whether it executes as a scalar instruction (02 R44). -/
structure C where
  t   : Team
  i   : Instr
  x   : Ext
  row : Row
  npc : Word64
  act : List Bool
  go  : Bool

/-- How an issue ends: done, done with a branch, waiting to be issued again, or in a trap. -/
inductive Eff where
  | done (s : State)
  | jump (s : State) (pc : Word64)
  | wait (s : State)
  | trap (s : State) (tr : Trap)

/-! ## Registers touched (03 R83, 06 R149-R150) -/

/-- The registers that a source field names: vector or scalar, first and count. -/
def srcRun (k : SK) (x : Src) : Option (Bool × Nat × Nat) :=
  match x.cls with
  | .vec => if k.vec then
      some (true, x.code.toNat, if k.ty.wide && !k.even then 2 * k.n else k.n) else none
  | .sc => if (k.sc || k.lo) && x.code.toNat < 128 then some (false, x.code.toNat, k.n) else none
  | .pred => none
  | .obj => none

/-- The registers that D names. -/
def dstRun (r : Row) (x : Ext) : Option (Bool × Nat × Nat) :=
  match r.d with
  | .vec => if r.dr || r.dw then some (true, x.d.toNat, r.dn) else none
  | .sc => if r.dr || r.dw then some (false, x.d.toNat, r.dn) else none
  | _ => none

/-- The registers of a run. -/
def runRegs : Option (Bool × Nat × Nat) → List (Bool × Nat)
  | none => []
  | some (v, n, k) => (List.range k).map (fun j => (v, n + j))

/-- The first register of a run that the team does not have (03 R83). -/
def runBad (t : Team) : Option (Bool × Nat × Nat) → Option Nat
  | none => none
  | some (v, n, k) =>
    let lim := if v then t.nv else 128
    if lim < n + k then some (max n lim) else none

/-- The number of objects of a kind that the team's kernel has on its core (03 R83): tiles of the bind record, all
16 reservation records, or none without an operand-buffer allotment (13 R295), the latch run of the kernel (10 R251). -/
def objLimit (s : State) (t : Team) (k : ObjK) : Nat :=
  match k with
  | .tile => (s.bind t).accN
  | .rcd => if (s.bind t).osize = 0 then 0 else 16
  | .latch => ((s.core t.core).latches.filter (fun l => l.launch = t.launch)).length
  | .other => 256

/-- An object in a source field, when the row takes one there. -/
def srcObj (k : SK) (x : Src) : Option (ObjK × Nat) :=
  match k.obj with
  | some (o, _) => if x.cls = .obj && x.code ≠ 0xFF then some (o, x.code.toNat) else none
  | none => none

/-- An object beyond the allotment, as its number. -/
def objBad (s : State) (t : Team) : Option (ObjK × Nat) → Option Nat
  | none => none
  | some (k, n) => if objLimit s t k ≤ n then some n else none

/-- A position and a number as a subcode (03 R83). The number 256, one past the last vector register, leaves its low 8 bits
(the model's choice, log 64). -/
def posSub (pos : Nat) (n : Option Nat) : Option Nat := n.map (fun m => pos * 256 + m % 256)

/-- The check of R83: the subcode of the first register or object out of range, in the order D, A, B, C, X24. A scalar
run that X24 names is at position 5 as its objects are (DEDUCED). -/
def regErr (s : State) (t : Team) (r : Row) (x : Ext) (extra : Option (Nat × Nat)) : Option Nat :=
  let dObj := match r.d with
    | .obj k _ => some (k, x.d.toNat)
    | _ => none
  firstSome ([posSub 0 (runBad t (dstRun r x)), posSub 0 (objBad s t dObj),
    posSub 1 (runBad t (srcRun r.a x.a)), posSub 1 (objBad s t (srcObj r.a x.a)),
    posSub 2 (runBad t (srcRun r.b x.b)), posSub 2 (objBad s t (srcObj r.b x.b)),
    posSub 3 (runBad t (srcRun r.c x.c)), posSub 3 (objBad s t (srcObj r.c x.c))] ++
    r.objs.map (fun o => posSub 5 (objBad s t (some o))) ++
    [posSub 5 (runBad t (extra.map (fun e => (false, e))))])

/-- Whether a register is empty for a reader or writer; in a handler a register that a replay entry will fill
counts as full (19 R427). -/
def Team.isEmpty (t : Team) (r : Bool × Nat) : Bool :=
  !(if r.1 then (t.vreg r.2).full else t.sfull r.2) && !(t.handler && t.rdst.contains r)

/-- Whether the passes of an instruction are all skipped (02 R43): a vector instruction under a mask that is 0. `pmask` issues
every pass (06 R136). -/
def skips (t : Team) (opc sub : Nat) (r : Row) : Bool := r.v && t.msum = 0 && !(opc = 0x41 && sub = 0)

/-- Whether the number of a register of an instruction comes from source A, which is therefore read and checked also when all its
passes are skipped: `rmovx` and `rstx` (06 R154). -/
def computed (opc sub : Nat) : Bool := opc = 0x59 && decide (sub ≤ 1)

/-- Whether a source is a scalar run (02 R42, 06 R149). -/
def scalarRun (k : SK) : Bool := k.lo && 1 < k.n

/-- The first register of a run that is empty. -/
def firstEmpty (t : Team) (v : Bool) (n k : Nat) : Option Nat :=
  ((List.range k).find? (fun j => t.isEmpty (v, n + j))).map (fun j => n + j)

/-- The `trp` source that is empty: its subcode (06 R149). Of a vector run or pair the register that the field names reads by the
mode and the others in `blk` mode; a scalar run reads in `blk` mode (10 R247, 15 R342), but for the runs of group mask, which
read each register in the source's mode (06 R135). -/
def trpErr (t : Team) (opc : Nat) (r : Row) (x : Ext) : Option Nat :=
  let one (pos : Nat) (k : SK) (y : Src) : Option Nat :=
    match srcRun k y with
    | some (v, n, m) =>
      if !y.trp then none
      else (firstEmpty t v n (if !scalarRun k then 1 else if opc = 0x41 then m else 0)).map (fun e => pos * 256 + e)
    | none => none
  firstSome [one 1 r.a x.a, one 2 r.b x.b, one 3 r.c x.c]

/-- The mask registers, implicit sources of every instruction in `blk` mode (02 R42). -/
def maskWait (t : Team) : Bool := (List.range (maskRegs t.width)).any (fun k => t.isEmpty (false, k))

/-- The registers an instruction waits for: its sources, and D whether read or written (06 R149, R150). -/
def waitRegs (r : Row) (x : Ext) (extra : Option (Nat × Nat)) : List (Bool × Nat) :=
  runRegs (srcRun r.a x.a) ++ runRegs (srcRun r.b x.b) ++ runRegs (srcRun r.c x.c) ++ runRegs (dstRun r x) ++
  runRegs (extra.map (fun e => (false, e)))

/-! ## Fences that hold later accesses (11 R271, R272) -/

/-- The path classes, as mask bits, on which an operation makes accesses (00, path table): ls 0, cp 1, mx 2, hp 3,
kp 4, sp 5, rs 6, ms 7. -/
def pathBits (opc sub : Nat) : Nat :=
  match opc, sub with
  | 0x4A, _ => 1
  | 0x4B, 1 => 128
  | 0x4B, _ => 1
  | 0x4C, 2 => 1
  | 0x4D, 1 => 2
  | 0x4D, 2 => 2
  | 0x4E, 3 => 0
  | 0x4E, _ => 2
  | 0x51, 5 => 4
  | 0x51, 6 => 4
  | 0x52, 3 => 1
  | 0x53, 2 => 2
  | 0x53, 4 => 1
  | 0x54, _ => 8
  | 0x55, 0 => 16
  | 0x55, _ => 16
  | 0x56, _ => 32
  | 0x57, 0 => 96
  | 0x57, 5 => 0
  | 0x57, 6 => 0
  | 0x57, _ => 64
  | _, _ => 0

/-- Whether the frame that an operation reads goes through the request port of the core: `tret` (19 R431). -/
def readsFrame (opc sub : Nat) : Bool := opc = 0x58 && sub = 3

/-- Whether an operation accesses memory at issue for an engine, apart from lanes and copies that wait by themselves: it waits
while lines move to a spare unit (20 R446, log 70). -/
def accessesNow (opc sub : Nat) : Bool :=
  readsFrame opc sub || (pathBits opc sub ≠ 0 && opc ≠ 0x4A && opc ≠ 0x4B)

/-- Whether an operation writes memory on its path. -/
def pathWrites (opc sub : Nat) : Bool :=
  match opc, sub with
  | 0x4A, 1 => true
  | 0x4A, 3 => true
  | 0x4A, 5 => true
  | 0x4A, 7 => true
  | 0x4B, 0 => true
  | 0x4B, 2 => true
  | 0x52, _ => true
  | 0x53, _ => true
  | _, _ => false

/-- Whether a fence whose wait has not ended holds an operation. -/
def Team.fenced (t : Team) (opc sub : Nat) : Bool :=
  t.holds.any (fun h => 256 ≤ h.paths ||
    (h.paths &&& pathBits opc sub ≠ 0 && (!h.writesOnly || pathWrites opc sub)))

/-! ## Reading operands (03 R76) -/

/-- The literal of the instruction. -/
def C.lit (c : C) : Word64 := c.x.lit.getD 0

/-- `opnd` of R76: the value of a source in lane l, n bits wide. -/
def C.opnd (c : C) (s : State) (y : Src) (n l : Nat) : Nat :=
  match y.cls with
  | .vec =>
    if n = 64 then (c.t.lane y.code.toNat l).toNat + 2 ^ 32 * (c.t.lane (y.code.toNat + 1) l).toNat
    else (c.t.lane y.code.toNat l).toNat % 2 ^ n
  | .sc => (scalarCode s c.t y.code.toNat).toNat % 2 ^ n
  | .pred => if c.t.pr y.code.toNat l then 1 else 0
  | .obj => if y.code = 0xFF then c.lit.toNat % 2 ^ n else y.code.toNat

/-- A scalar-class source, read once as 64 bits. -/
def C.sc64 (c : C) (s : State) (y : Src) : Word64 := BitVec.ofNat 64 (c.opnd s y 64 0)

/-- A source in every lane. -/
def C.lanes (c : C) (s : State) (y : Src) (n : Nat) : List Nat := c.t.laneIxs.map (c.opnd s y n)

/-- The active lanes' numbers. -/
def C.actives (c : C) : List Nat := lanesOf c.act

/-- Whether all passes of the instruction are skipped (02 R43). -/
def C.skipped (c : C) : Bool := c.row.v && c.t.msum = 0

/-- Whether some lane is active. -/
def C.any (c : C) : Bool := c.act.any id

/-- Whether a source leaves the result uniform (06 R144, rule 6; 07 R170 for predicates). -/
def C.isUni (c : C) (k : SK) (y : Src) : Bool :=
  match srcRun k y with
  | some (true, n, m) => (List.range m).all (fun j => (c.t.vreg (n + j)).tag = .uni)
  | _ => !(y.cls = .pred && k.pred && y.code ≠ 23)

/-- The tag of a lane-wise result under a full write (06 R144, rules 6 and 7). -/
def C.tag (c : C) : Tag :=
  if c.isUni c.row.a c.x.a && c.isUni c.row.b c.x.b && c.isUni c.row.c c.x.c then .uni else .gen

/-- Writes n-bit results to D in the active lanes (02 R43). -/
def C.putV (c : C) (s : State) (wide : Bool) (vals : List Nat) (tag : Tag) : State :=
  s.onTeam c.t.uid (fun t => t.writeN c.x.d.toNat wide c.act vals tag)

/-- Writes sD; a mask register changes `msum` with it, which is derived (02 R41). -/
def C.putS (c : C) (s : State) (x : Word64) : State := s.onTeam c.t.uid (fun t => t.setS c.x.d.toNat x)

/-- A precise trap of this instruction without lanes. -/
def C.trap (c : C) (code sub : Nat) : Trap := trapHere c.t.pc c.npc code sub

/-- A precise trap of this instruction that names lanes and the lowest failing address. -/
def C.trapAt (c : C) (code sub : Nat) (addr : Nat) (lanes : List Nat) : Trap :=
  { c.trap code sub with addr := BitVec.ofNat 64 addr, lanes := lanes }

/-! ## Issue -/

/-- The issue ends: the program counter moves, and the team has issued one instruction more. A partial run ends the same way but for the counter, and `tret`
waits for what it started (19 R431). -/
def endIssue (s : State) (c : C) (pc : Word64) : State :=
  match c.t.part with
  | none => s.onTeam c.t.uid (fun t => { t with pc := pc, issueNo := t.issueNo + 1 })
  | some _ => settle (s.onTeam c.t.uid (fun t => { t with part := none, run := .parked .tret })) c.t.uid

/-- What an issue leaves. -/
def finish (c : C) : Eff → State
  | .done s => endIssue s c c.npc
  | .jump s pc => endIssue s c pc
  | .wait s => s
  | .trap s tr => match s.team? c.t.uid with
    | some t => takeTrap s t tr
    | none => s

/-- The operand of a subcode as its instruction's own word has it: the second source of a one-word form stands in A (03 R77). -/
def ownPos (i : Instr) (n : Nat) : Nat :=
  match i.form with
  | .one _ _ => if n / 256 = 2 then n - 256 else n
  | _ => n

/-- A sub-group size beyond the team's width, which R160 and R184 refuse at issue with reason 0x0C. The decoder does not know the
width, so a reserved value in another X24 field of the same word is reported before it (the model's choice, log 63). -/
def lgBad (t : Team) (opc sub : Nat) (x : Ext) : Bool :=
  (opc = 0x48 || (opc = 0x45 && sub = 3)) && decide (t.width < 2 ^ x.f 3 0)

/-- Whether a source that reads in `trp` mode is empty, for an instruction that reads its sources (02 R43, 03 R84). -/
def srcErr (t : Team) (opc sub : Nat) (r : Row) (x : Ext) : Option Nat :=
  if !skips t opc sub r then trpErr t opc r x
  else if computed opc sub then trpErr t opc { r with b := SK.empty, c := SK.empty } x
  else none

/-- Whether an operation waits for a pop that is on its way: it accesses memory, for the pop is an acquire (15 R339), acts on queues
or the task that the pop opens, or reads what it sets (R344). -/
def needsPop (opc sub : Nat) (x : Ext) : Bool :=
  pathBits opc sub ≠ 0 || opc = 0x52 || opc = 0x53 || (opc = 0x40 && sub = 8) ||
  [x.a, x.b, x.c].any (fun y => y.cls = .sc && (y.code = 136 || y.code = 141))

/-- Whether an instruction waits to issue: on a register, on a fence or xfence whose destination names its path, on a pop, or on a
stalled request port, or at the memory while lines move (20 R446). One whose passes are all skipped waits only for a scalar D and
for the register that gives a computed number (02 R43, 06 R154). -/
def mustWait (s : State) (t : Team) (opc sub : Nat) (r : Row) (x : Ext) : Bool :=
  if skips t opc sub r then (r.d = .sc && (runRegs (dstRun r x)).any t.isEmpty) ||
    (computed opc sub && (runRegs (srcRun r.a x.a)).any t.isEmpty)
  else (waitRegs r x (extraRun t.width opc sub x)).any t.isEmpty || t.fenced opc sub ||
    (!t.pop.isEmpty && needsPop opc sub x) || ((pathBits opc sub ≠ 0 || readsFrame opc sub) && portStalled s t.core) || (accessesNow opc sub && s.sparing)

/-- The issue of an instruction of the current team (03 R83, R84): register range, the mask (02 R42), `trp` sources, waits,
effect. An empty `trp` source traps before the instruction has waited for its `blk` sources (the model's choice, log 64). -/
def issue (i : Instr) (opc sub len : Nat) (x : Ext) (eff : C → State → Eff) (s : State) : Out :=
  match s.team? s.cur with
  | none => .fault .noTeam
  | some t =>
    let r := rowOf t.width opc sub x
    let npc := t.pc + BitVec.ofNat 64 len
    let c : C := { t := t, i := i, x := x, row := r, npc := npc, act := t.acts x.g x.neg, go := t.go x.g x.neg }
    if lgBad t opc sub x then .next (takeTrap s t (c.trap 0x01 0x0C00))
    else match regErr s t r x (extraRun t.width opc sub x) with
    | some n => .next (takeTrap s t (c.trap 0x03 (ownPos i n)))
    | none =>
      if maskWait t then .next s
      else match srcErr t opc sub r x with
      | some n => .next (takeTrap s t { c.trap 0x02 (ownPos i n) with lanes := c.actives })
      | none =>
        if mustWait s t opc sub r x then .next s
        else .next (finish c (eff c s))

/-- The length of an extended form in bytes (03 R62). -/
def extLen (x : Ext) : Nat := if x.lit.isSome then 20 else 12

/-- The length of a one-word form in bytes (03 R62). -/
def shortLen (x : Short) : Nat := if x.lit.isSome then 12 else 4

/-- The issue of an extended form. -/
def issueExt (i : Instr) (opc sub : Nat) (x : Ext) (eff : C → State → Eff) (s : State) : Out :=
  issue i opc sub (extLen x) x eff s

/-- A scalar instruction: no effect where R44 does not let it execute. -/
def onGo (f : C → State → Eff) (c : C) (s : State) : Eff := if c.go then f c s else .done s

/-- An effect on flags after the results are written (04 R98, R99). -/
def C.fpDone (c : C) (s : State) (fl : List (Nat × Flg)) : Eff :=
  let f := fl.foldl (fun a x => a ||| x.2) 0
  let s := s.onTeam c.t.uid (fun t => { t with status := orFlags t.status f })
  match fpTrap c.t c.t.pc c.npc fl with
  | none => .done s
  | some tr => .trap s tr

/-! ## Instructions in flight -/

/-- The number of registers that a flight fills: the run of D of a long-latency producer (06 R147). -/
def rowFills (r : Row) : Nat :=
  if !r.dw || !r.long then 0 else match r.d with
    | .vec => r.dn
    | .sc => r.dn
    | _ => 0

/-- The instruction goes into flight: its destinations become empty (06 R148). -/
def C.launch (c : C) (s : State) (lanes : List LaneReq) (snap aux : List Nat) (gate : Bool) : State :=
  let n := rowFills c.row
  let f : Flight :=
    { id := s.nextId, team := c.t.uid, pc := c.t.pc, npc := c.npc, instr := c.i, dvec := c.row.d = .vec,
      dst := c.x.d.toNat, dnum := n, lanes := lanes, snap := snap, aux := aux, again := c.t.part.isSome,
      gate := gate, waits := [], status := c.t.status, no := c.t.issueNo }
  let s := s.onTeam c.t.uid (fun t => (extraRegs t.width c.i).foldl (fun t k => t.setSFull k false)
    (t.setFull f.dvec f.dst false n))
  { s with flights := s.flights ++ [f], nextId := s.nextId + 1 }

/-- Words that arrive in lanes of a vector register: the lanes are written, and the tag is the given one when every
lane of the team arrives, else `gen` (06 R144). -/
def Team.fillV (t : Team) (n : Nat) (ws : List (Nat × Word)) (tag : Tag) : Team :=
  { t with v := t.v.modify n (fun r =>
      { r with tag := if ws.length = t.width then tag else .gen,
               lanes := ws.foldl (fun l w => l.set w.1 w.2) r.lanes }) }

/-- n-bit values that arrive in lanes: one register, or a pair for 64 bits. -/
def Team.fillN (t : Team) (n : Nat) (wide : Bool) (ws : List (Nat × Nat)) (tag : Tag) : Team :=
  let t := t.fillV n (ws.map (fun w => (w.1, BitVec.ofNat 32 w.2))) tag
  if wide then t.fillV (n + 1) (ws.map (fun w => (w.1, BitVec.ofNat 32 (w.2 / 2 ^ 32)))) tag else t

/-! ## One-word forms as their extended equivalents (03 R77, R78) -/

/-- A two-address form: D is the destination and first source (03 R77). -/
def shortTwo (x : Short) (cls : Cls) (ty : Ty) : Ext :=
  { neg := x.neg, g := x.g, rnd := .rs, ty := ty, d := x.d, a := srcBlk cls x.d, b := shortSecond x cls, c := Src.none,
    x24 := 0, lit := x.lit }

/-- A form without sources, with an X24 value. -/
def shortBare (x : Short) (d : BitVec 8) (x24 : BitVec 24) : Ext :=
  { neg := x.neg, g := x.g, rnd := .rs, ty := .b32, d := d, a := Src.none, b := Src.none, c := Src.none, x24 := x24,
    lit := x.lit }

/-- The branch offset of a short branch: D x 256 + A as a 24-bit field (03 R78). -/
def shortOff16 (x : Short) : BitVec 24 := BitVec.ofInt 24 (sextN 16 (x.d.toNat * 256 + x.a.toNat))

/-- The branch offset of the short `loop` (03 R78). -/
def shortOff8 (x : Short) : BitVec 24 := BitVec.ofInt 24 (sextN 8 x.a.toNat)

end Sys2Proof.Machine
end

