-- ==== Sys2Proof/Machine/Fetch.lean ====
section
/-!
DEFINITION. Fetching an instruction (03 R61, R62, R85) and placing one where the next step fetches.
-/

namespace Sys2Proof.Machine

/-- What a fetch gives: an instruction or its refusal (R82), a trap, or a replayable fault at an address. -/
inductive Fetched where
  | words (d : Decoded)
  | trap (code sub : Nat) (addr : Nat)
  | fault (va : Nat)
  deriving DecidableEq, Repr

/-- The lines that an instruction cache holds: 64 KB (00 R5). -/
def icacheCap : Nat := 512

/-- A byte as a core fetches it: the instruction cache's where it holds the line, which no store changes (03 R85), else the home
slice's. -/
def fetchByte (s : State) (core key : Nat) : Byte :=
  match (s.core core).icache.find? (fun l => l.key = key / 128 * 128) with
  | some l => l.bytes.get key
  | none => s.mem.get key

/-- The line of a key enters the instruction cache of a core; the line fetched first leaves. -/
def icacheAdd (s : State) (core key : Nat) : State :=
  let base := key / 128 * 128
  if (s.core core).icache.any (fun l => l.key = base) then s
  else s.onCore core (fun c => { c with icache := ({ key := base, bytes := lineCells s.mem base } :: c.icache).take icacheCap })

/-- The lines of some pieces enter the instruction cache. -/
def icacheFill (s : State) (core : Nat) (segs : List Seg) : State :=
  segs.foldl (fun s g => if g.len = 0 then s else icacheAdd (icacheAdd s core g.key) core (g.key + g.len - 1)) s

/-- The bytes of n words at the program counter (03 R85); stores are not observed before they are performed. -/
def fetchBytes (s : State) (t : Team) (va n : Nat) : Except Tr (List Byte) :=
  match piecesOf s t.core t.ctx .fetch va n with
  | .ok l => .ok ((segKeys l).map (fetchByte s t.core))
  | .error e => .error e

/-- The pieces of the instruction at a program counter, as far as they can be fetched. -/
def fetchSegs (s : State) (t : Team) : List Seg :=
  let pc := t.pc.toNat
  match piecesOf s t.core t.ctx .fetch pc 4 with
  | .error _ => []
  | .ok l =>
    let n := lenWords (leNat ((segKeys l).map (fetchByte s t.core)))
    l ++ (match piecesOf s t.core t.ctx .fetch ((pc + 4) % 2 ^ 64) (4 * n - 4) with
      | .ok m => m
      | .error _ => [])

/-- The lines of the instruction at a team's program counter enter the instruction cache of its core (02 R58). -/
def fetchFill (s : State) (t : Team) : State := icacheFill s t.core (fetchSegs s t)

/-- A fetch that cannot be made (03 R85, 09 R201: path code 0x08), at the lowest address that fails. -/
def fetchErr (va : Nat) : Tr → Fetched
  | .ok _ => .fault va
  | .absent => .fault va
  | .fail code cause => .trap code (cause * 256 + 8) va

/-- The fetch of the whole instruction at a team's program counter (03 R62, R85). The trap of a misaligned program counter has
address 0 (the model's choice, log 16). -/
def fetch (s : State) (t : Team) : Fetched :=
  let pc := t.pc.toNat
  if pc % 4 ≠ 0 then .trap 0x04 Config.fetchAlign.toNat 0
  else match fetchBytes s t pc 4 with
    | .error e => fetchErr pc e
    | .ok b0 =>
      let n := lenWords (leNat b0)
      match fetchBytes s t ((pc + 4) % 2 ^ 64) (4 * n - 4) with
      | .error e => fetchErr (failVA s t.core t.ctx .fetch ((pc + 4) % 2 ^ 64) (4 * n - 4)) e
      | .ok b1 => .words (decodeBytes (b0 ++ b1))

/-- The trap of a fetch or of a refused encoding, at a boundary (03 R82, R85). npc is the address after the words
that `len` gives, or after word 0 when it could not be fetched; at a misaligned program counter `len` is that of the bytes there (the
model's choice, log 16). -/
def fetchTrap (s : State) (t : Team) (code sub addr : Nat) : State :=
  let n := match fetchBytes s t t.pc.toNat 4 with
    | .ok b => lenWords (leNat b)
    | .error _ => 1
  takeTrap s t { trapHere t.pc (t.pc + BitVec.ofNat 64 (4 * n)) code sub with addr := BitVec.ofNat 64 addr }

/-- INSTRUCTION_FETCH (03 R85): the translations of the words at a team's program counter enter the core's cache; a
page that is not present is a replayable fault, on which the team parks; a declined one is `page`, cause 0x01. -/
def execInstructionFetch (u : Nat) (s : State) : Out :=
  match s.team? u with
  | none => .next s
  | some t =>
    let s := tlbFill (tlbFill s t.core t.ctx t.pc.toNat) t.core t.ctx (t.pc.toNat + 16)
    if t.run ≠ .running && t.run ≠ .parked .fault then .next s
    else match fetch s t with
    | .words _ => .next ((fetchFill s t).onTeam u (fun t =>
        if t.run = .parked .fault && !s.inFault u then { t with run := .running } else t))
    | .trap code sub addr => .next (fetchTrap s { t with run := .running } code sub addr)
    | .fault va =>
      if s.declined.contains (.instructionFetch u) then
        .next (fetchTrap { s with declined := s.declined.erase (.instructionFetch u) } { t with run := .running } 0x06
          0x0108 va)
      else
        let q : FaultReq := { die := dieOf t.core, ctx := t.ctx, blk := va % 2 ^ 57 / 2048, path := 8, flight := 0,
                              retry := .instructionFetch u }
        if faultsFull s (dieOf t.core) && !s.faults.contains q then .next (addFault s t.core q)
        else .next (addFault (parkFault s u) t.core q)

/-! ## An instruction placed for the next step -/

/-- The address of the placed words: virtual and physical. -/
def placeVA : Nat := 0x10000

/-- The leaf that maps the placed words: valid, executable, HBM. -/
def placePte : Word64 := BitVec.ofNat 64 (placeVA + 0xB)

/-- The bind record of that team. -/
def placeBind : Bind :=
  { Bind.reset with st := .running, team := 1, ssize := 512, osize := 1024, accN := 4, latN := 32 }

/-- A team of width 32 on core 0, place 0, of context 1, whose registers stand as R140 gives them. -/
def placeTeam : Team :=
  { uid := 1, launch := 0, ctx := 1, core := 0, place := 0, width := 32, nv := 256, index := 0, widt := 0,
    leaf := 2, partner := 0, pc := BitVec.ofNat 64 placeVA,
    s := { val := 0xFFFFFFFF, full := true } :: List.replicate 127 { val := 0, full := true },
    v := List.replicate 256 { tag := .uni, full := true, lanes := List.replicate 32 0 },
    p := List.replicate 23 (List.replicate 32 false), status := 1, trapv := 0, trapa := 0, prio := 0, prioMax := 0,
    role := 0, ydl := 0xFFFFFFFF, undob := 0, undol := 0, ctxs := 0, chainb := 0, seqb := 0,
    surfb := 0, run := .running, handler := false, wound := false, armed := false, task := none,
    sets := List.replicate 8 { st := .empty, base := 0, len := 0 }, uses := [], holds := [], mwEnd := .none,
    pending := [], held := [], due := none, part := none, retPc := 0, rdst := [], aux := [], image := 0, forced := false,
    entries := [], savedNo := 0, rec0 := placeBind, imgAt := 0 }

/-- A state with the bytes stored at the program counter of one running team, which the next step runs. -/
def placed (s : State) (bs : List Byte) : State :=
  let s := s.onCore 0 (fun c => { c with
    recs := c.recs.modify 0 (fun _ => placeBind),
    latches := (List.range 32).map (fun n =>
      { launch := 0, num := n, count := 0, target := 1, phase := false, ovr := false }),
    tlb := [{ ctx := 1, va := placeVA, size := 65536, pte := placePte }] })
  { s with agenda := [], choices := [], teams := [placeTeam], mem := s.mem.setBytes (physKey 0 placeVA) bs }

end Sys2Proof.Machine
end

