-- ==== Sys2Proof/Machine/Int.lean ====
section
/-!
DEFINITION. Groups salu and vint (07 R164-R176), with their one-word forms and `vmov`, `smov` (03 R79).
-/

namespace Sys2Proof.Machine

/-- A pattern read by a type's signedness (07 R164). -/
def intRead (t : Ty) (x : Nat) : Int := if t.signed then sextN t.width x else ((x % 2 ^ t.width : Nat) : Int)

/-- An integer operation: the exact result of two patterns of a type (07 R166). -/
abbrev IntOp := Ty → Nat → Nat → Int

/-- add. -/
def opAdd : IntOp := fun t a b => intRead t a + intRead t b
/-- sub. -/
def opSub : IntOp := fun t a b => intRead t a - intRead t b
/-- mul. -/
def opMul : IntOp := fun t a b => intRead t a * intRead t b
/-- mulh: the high n bits of the product. -/
def opMulh : IntOp := fun t a b => Int.fdiv (intRead t a * intRead t b) (2 ^ t.width : Nat)
/-- and. -/
def opAnd : IntOp := fun _ a b => (a &&& b : Nat)
/-- or. -/
def opOr : IntOp := fun _ a b => (a ||| b : Nat)
/-- xor. -/
def opXor : IntOp := fun _ a b => (a ^^^ b : Nat)
/-- andn: a and not b. -/
def opAndn : IntOp := fun t a b => (a &&& (2 ^ t.width - 1 - b) : Nat)
/-- not. -/
def opNot : IntOp := fun t a _ => (2 ^ t.width - 1 - a : Nat)
/-- shl. -/
def opShl : IntOp := fun t a b => (a * 2 ^ (b % t.width) : Nat)
/-- shr. -/
def opShr : IntOp := fun t a b => (a / 2 ^ (b % t.width) : Nat)
/-- sar. -/
def opSar : IntOp := fun t a b => Int.fdiv (sextN t.width a) (2 ^ (b % t.width) : Nat)
/-- min. -/
def opMin : IntOp := fun t a b => min (intRead t a) (intRead t b)
/-- max. -/
def opMax : IntOp := fun t a b => max (intRead t a) (intRead t b)
/-- abs. -/
def opAbs : IntOp := fun t a _ => (intRead t a).natAbs
/-- clz. -/
def opClz : IntOp := fun t a _ => (t.width - bitLen a : Nat)
/-- popc. -/
def opPopc : IntOp := fun t a _ => (((List.range t.width).filter (fun i => a.testBit i)).length : Nat)
/-- brev. -/
def opBrev : IntOp := fun t a _ =>
  ((List.range t.width).foldl (fun r i => if a.testBit i then r + 2 ^ (t.width - 1 - i) else r) 0 : Nat)

/-- The width of a bit field after it is cut at the top (07 R169). -/
def fieldLen (n pos len : Nat) : Nat := if n ≤ pos then 0 else min len (n - pos)

/-- bfe (07 R169): F is the second operand. -/
def opBfe : IntOp := fun t a f =>
  let pos := f % 256
  let len := fieldLen t.width pos (f / 256 % 256)
  let x := a / 2 ^ pos % 2 ^ len
  if t.signed && len ≠ 0 then sextN len x else x

/-- bfi (07 R169): F is the third operand. -/
def bfi (n a b f : Nat) : Nat :=
  let pos := f % 256
  let len := fieldLen n pos (f / 256 % 256)
  let m := (2 ^ len - 1) * 2 ^ pos
  (a &&& (2 ^ n - 1 - m)) ||| ((b * 2 ^ pos) &&& m)

/-- `sdiv` (07 R167): quotient or remainder as an integer. -/
def divRem (t : Ty) (rem : Bool) (a b : Nat) : Int :=
  if b % 2 ^ t.width = 0 then (if rem then intRead t a else (2 ^ t.width - 1 : Nat))
  else
    let q := Int.tdiv (intRead t a) (intRead t b)
    if rem then intRead t a - q * intRead t b else q

/-- The condition codes of `vcmp` and `scmp` on integers (06 R158, 07 R168). -/
def condInt (cc : Nat) (a b : Int) : Bool :=
  match cc with
  | 0 => a = b | 1 => a ≠ b | 2 => a < b | 3 => a ≤ b | 4 => b < a | _ => b ≤ a

/-! ## salu -/

/-- A result widened to 64 bits: i32 sign-extends, the others zero-extend (07 R165). -/
def widen (t : Ty) (r : Int) : Word64 :=
  BitVec.ofInt 64 (if t.signed then sextN t.width (patN t.width r) else (patN t.width r : Int))

/-- A scalar operation of one or two sources (07 R165, R166). -/
def effSalu (op : IntOp) (c : C) (s : State) : Eff :=
  let n := c.x.ty.width
  .done (c.putS s (widen c.x.ty (op c.x.ty (c.opnd s c.x.a n 0) (c.opnd s c.x.b n 0))))

/-- `sbfi` (07 R169). -/
def effSbfi (c : C) (s : State) : Eff :=
  let n := c.x.ty.width
  .done (c.putS s (widen c.x.ty (bfi n (c.opnd s c.x.a n 0) (c.opnd s c.x.b n 0) (c.opnd s c.x.c n 0) : Nat)))

/-- `ssel` (07 R168). -/
def effSsel (c : C) (s : State) : Eff :=
  .done (c.putS s (if c.sc64 s c.x.c ≠ 0 then c.sc64 s c.x.a else c.sc64 s c.x.b))

/-- `scmp` (07 R168). -/
def effScmp (c : C) (s : State) : Eff :=
  let n := c.x.ty.width
  let r := condInt (c.x.f 2 0) (intRead c.x.ty (c.opnd s c.x.a n 0)) (intRead c.x.ty (c.opnd s c.x.b n 0))
  .done (c.putS s (if r then 1 else 0))

/-- `sdiv` (07 R167). -/
def effSdiv (c : C) (s : State) : Eff :=
  let n := c.x.ty.width
  .done (c.putS s (widen c.x.ty (divRem c.x.ty (c.x.bit 0) (c.opnd s c.x.a n 0) (c.opnd s c.x.b n 0))))

/-- SADD (07 R166). -/
def execSadd (x : Ext) (s : State) : Out := issueExt (.sadd x) 0x42 0 x (onGo (effSalu opAdd)) s
/-- SSUB (07 R166). -/
def execSsub (x : Ext) (s : State) : Out := issueExt (.ssub x) 0x42 1 x (onGo (effSalu opSub)) s
/-- SMUL (07 R166). -/
def execSmul (x : Ext) (s : State) : Out := issueExt (.smul x) 0x42 2 x (onGo (effSalu opMul)) s
/-- SMULH (07 R166). -/
def execSmulh (x : Ext) (s : State) : Out := issueExt (.smulh x) 0x42 3 x (onGo (effSalu opMulh)) s
/-- SAND (07 R166). -/
def execSand (x : Ext) (s : State) : Out := issueExt (.sand x) 0x42 4 x (onGo (effSalu opAnd)) s
/-- SOR (07 R166). -/
def execSor (x : Ext) (s : State) : Out := issueExt (.sor x) 0x42 5 x (onGo (effSalu opOr)) s
/-- SXOR (07 R166). -/
def execSxor (x : Ext) (s : State) : Out := issueExt (.sxor x) 0x42 6 x (onGo (effSalu opXor)) s
/-- SANDN (07 R166). -/
def execSandn (x : Ext) (s : State) : Out := issueExt (.sandn x) 0x42 7 x (onGo (effSalu opAndn)) s
/-- SSHL (07 R166). -/
def execSshl (x : Ext) (s : State) : Out := issueExt (.sshl x) 0x42 8 x (onGo (effSalu opShl)) s
/-- SSHR (07 R166). -/
def execSshr (x : Ext) (s : State) : Out := issueExt (.sshr x) 0x42 9 x (onGo (effSalu opShr)) s
/-- SSAR (07 R166). -/
def execSsar (x : Ext) (s : State) : Out := issueExt (.ssar x) 0x42 10 x (onGo (effSalu opSar)) s
/-- SMIN (07 R166). -/
def execSmin (x : Ext) (s : State) : Out := issueExt (.smin x) 0x42 11 x (onGo (effSalu opMin)) s
/-- SMAX (07 R166). -/
def execSmax (x : Ext) (s : State) : Out := issueExt (.smax x) 0x42 12 x (onGo (effSalu opMax)) s
/-- SCLZ (07 R166). -/
def execSclz (x : Ext) (s : State) : Out := issueExt (.sclz x) 0x42 13 x (onGo (effSalu opClz)) s
/-- SPOPC (07 R166). -/
def execSpopc (x : Ext) (s : State) : Out := issueExt (.spopc x) 0x42 14 x (onGo (effSalu opPopc)) s
/-- SBFE (07 R169). -/
def execSbfe (x : Ext) (s : State) : Out := issueExt (.sbfe x) 0x42 15 x (onGo (effSalu opBfe)) s
/-- SBFI (07 R169). -/
def execSbfi (x : Ext) (s : State) : Out := issueExt (.sbfi x) 0x42 16 x (onGo effSbfi) s
/-- SSEL (07 R168). -/
def execSsel (x : Ext) (s : State) : Out := issueExt (.ssel x) 0x42 17 x (onGo effSsel) s
/-- SCMP (07 R168). -/
def execScmp (x : Ext) (s : State) : Out := issueExt (.scmp x) 0x42 18 x (onGo effScmp) s
/-- SDIV (07 R167). -/
def execSdiv (x : Ext) (s : State) : Out := issueExt (.sdiv x) 0x42 19 x (onGo effSdiv) s

/-- SADD_SHORT (03 R78). -/
def execSaddShort (x : Short) (s : State) : Out :=
  issue (.saddShort x) 0x42 0 (shortLen x) (shortTwo x .sc .i64) (onGo (effSalu opAdd)) s
/-- SSUB_SHORT (03 R78). -/
def execSsubShort (x : Short) (s : State) : Out :=
  issue (.ssubShort x) 0x42 1 (shortLen x) (shortTwo x .sc .i64) (onGo (effSalu opSub)) s
/-- SAND_SHORT (03 R78). -/
def execSandShort (x : Short) (s : State) : Out :=
  issue (.sandShort x) 0x42 4 (shortLen x) (shortTwo x .sc .b64) (onGo (effSalu opAnd)) s
/-- SOR_SHORT (03 R78). -/
def execSorShort (x : Short) (s : State) : Out :=
  issue (.sorShort x) 0x42 5 (shortLen x) (shortTwo x .sc .b64) (onGo (effSalu opOr)) s
/-- SSHL_SHORT (03 R78). -/
def execSshlShort (x : Short) (s : State) : Out :=
  issue (.sshlShort x) 0x42 8 (shortLen x) (shortTwo x .sc .b64) (onGo (effSalu opShl)) s
/-- SSHR_SHORT (03 R78). -/
def execSshrShort (x : Short) (s : State) : Out :=
  issue (.sshrShort x) 0x42 9 (shortLen x) (shortTwo x .sc .b64) (onGo (effSalu opShr)) s

/-- `smov` (03 R79). -/
def effSmov (c : C) (s : State) : Eff := .done (c.putS s (c.sc64 s c.x.a))

/-- SMOV (03 R79). Its registers are those of the scalar row `sclz`: sD and one source. -/
def execSmov (x : Short) (s : State) : Out :=
  issue (.smov x) 0x42 13 (shortLen x) (shortOne x .sc .b64) (onGo effSmov) s

/-! ## vint -/

/-- Element j of a packed word (04 R92). -/
def elemAt (t : Ty) (x j : Nat) : Nat := x / 2 ^ ((t.width / t.elems) * j) % 2 ^ (t.width / t.elems)

/-- A packed word from its elements, the first at the bottom (04 R92). -/
def packElems (w : Nat) : List Nat → Nat
  | [] => 0
  | a :: l => a % 2 ^ w + 2 ^ w * packElems w l

/-- An operation on each element of a type (07 R171); with `sat`, the result is clamped to the element's range. -/
def laneOp (op : IntOp) (t : Ty) (sat : Bool) (a b : Nat) : Nat :=
  let w := t.width / t.elems
  let e := t.elem
  packElems w ((List.range t.elems).map (fun j =>
    let r := op e (elemAt t a j) (elemAt t b j)
    let r := if sat then min (tyRange e).2 (max (tyRange e).1 r) else r
    patN w r))

/-- The base and stride of an affine register (06 R143). -/
def baseStride (r : VReg) : Nat × Nat :=
  let b := (r.lanes.getD 0 0).toNat
  (b, ((r.lanes.getD 1 0).toNat + 2 ^ 32 - b) % 2 ^ 32)

/-- The affine form of a source: uniform values have stride 0 (06 R143, R145); none for a `gen` register. -/
def C.affine (c : C) (y : Src) : Option (Bool × Nat) :=
  match y.cls with
  | .vec => match (c.t.vreg y.code.toNat).tag with
    | .uni => some (false, 0)
    | .aff => some (true, (baseStride (c.t.vreg y.code.toNat)).2)
    | .gen => none
  | _ => some (false, 0)

/-- The kinds of affine arithmetic of R145. -/
inductive AffK where
  | add | sub | mul | shl
  deriving DecidableEq, Repr

/-- The tag of a full write under rules 5 to 7 of R144 (06 R145): a resulting stride of 0 gives `uni`. -/
def C.affTag (c : C) (s : State) (k : AffK) : Tag :=
  let ok := (c.x.ty = .i32 || c.x.ty = .n32 || c.x.ty = .b32) && c.x.x24 = 0
  match c.affine c.x.a, c.affine c.x.b with
  | some (fa, sa), some (fb, sb) =>
    if !(fa || fb) || !ok then c.tag
    else
      let u := c.opnd s c.x.b 32 0
      let v := c.opnd s c.x.a 32 0
      let stride : Option Nat := match k, fa, fb with
        | .add, _, _ => some (sa + sb)
        | .sub, _, _ => some (sa + 2 ^ 32 - sb)
        | .mul, true, false => some (sa * u)
        | .mul, false, true => some (v * sb)
        | .shl, true, false => some (sa * 2 ^ (u % 32))
        | _, _, _ => none
      match stride with
      | none => .gen
      | some st => if st % 2 ^ 32 = 0 then .uni else .aff
  | _, _ => c.tag

/-- A lane-wise operation of one or two sources with a tag rule (07 R171). -/
def effVint (op : IntOp) (sat : Bool) (tag : C → State → Tag) (c : C) (s : State) : Eff :=
  let t := c.x.ty
  let f (l : Nat) : Nat := laneOp op t (sat && c.x.bit 0) (c.opnd s c.x.a t.width l) (c.opnd s c.x.b t.width l)
  .done (c.putV s t.wide (c.t.laneIxs.map f) (tag c s))

/-- The tag of rules 6 and 7. -/
def plainTag (c : C) (_s : State) : Tag := c.tag
/-- The tag under an affine rule. -/
def affTag (k : AffK) (c : C) (s : State) : Tag := c.affTag s k

/-- A lane-wise function of the three sources, n bits each. -/
def effV3 (f : Ty → Nat → Nat → Nat → Nat) (c : C) (s : State) : Eff :=
  let t := c.x.ty
  let g (l : Nat) : Nat := f t (c.opnd s c.x.a t.width l) (c.opnd s c.x.b t.width l) (c.opnd s c.x.c t.width l)
  .done (c.putV s t.wide (c.t.laneIxs.map g) c.tag)

/-- `vmad` (07 R172). -/
def vmadOf (t : Ty) (a b d : Nat) : Nat := patN t.width (intRead t a * intRead t b + intRead t d)

/-- `vsel` (07 R174): the third source is the predicate. -/
def vselOf (_t : Ty) (a b p : Nat) : Nat := if p = 1 then a else b

/-- Bit i of a number as 0 or 1. -/
def bitAt (x i : Nat) : Nat := if x.testBit i then 1 else 0

/-- `vilv` (07 R175). -/
def vilvOf (by3 : Bool) (a b d : Nat) : Nat :=
  if by3 then (List.range 10).foldl (fun r i =>
      r + bitAt a i * 2 ^ (3 * i) + bitAt b i * 2 ^ (3 * i + 1) + bitAt d i * 2 ^ (3 * i + 2)) 0
  else (List.range 16).foldl (fun r i => r + bitAt a i * 2 ^ (2 * i) + bitAt b i * 2 ^ (2 * i + 1)) 0

/-- `vdil` (07 R175). -/
def vdilOf (by3 : Bool) (ph a : Nat) : Nat :=
  if by3 then (List.range 10).foldl (fun r i => r + bitAt a (3 * i + ph) * 2 ^ i) 0
  else (List.range 16).foldl (fun r i => r + bitAt a (2 * i + ph) * 2 ^ i) 0

/-- `vilv` (07 R175). -/
def effVilv (c : C) (s : State) : Eff := effV3 (fun _ a b d => vilvOf (c.x.bit 0) a b d) c s
/-- `vdil` (07 R175). -/
def effVdil (c : C) (s : State) : Eff := effV3 (fun _ a _ _ => vdilOf (c.x.bit 0) (c.x.f 2 1) a) c s

/-- `vlaneid` (07 R176). -/
def effVlaneid (c : C) (s : State) : Eff := .done (c.putV s false c.t.laneIxs .aff)

/-- `vaddc` (07 R173): the sum in each lane. -/
def C.carrySum (c : C) (s : State) (l : Nat) : Nat :=
  c.opnd s c.x.a c.x.ty.width l + c.opnd s c.x.b c.x.ty.width l + c.opnd s c.x.c 1 l

/-- `vaddc` (07 R173). -/
def effVaddc (c : C) (s : State) : Eff :=
  let n := c.x.ty.width
  let sums := c.t.laneIxs.map (c.carrySum s)
  let s := c.putV s c.x.ty.wide (sums.map (fun x => x % 2 ^ n)) c.tag
  .done (s.onTeam c.t.uid (fun t => t.writeP (c.x.f 4 0) c.act (sums.map (fun x => decide (2 ^ n ≤ x)))))

/-- VINT_VADD (07 R171). -/
def execVintVadd (x : Ext) (s : State) : Out :=
  issueExt (.vintVadd x) 0x43 0 x (effVint opAdd true (affTag .add)) s
/-- VINT_VSUB (07 R171). -/
def execVintVsub (x : Ext) (s : State) : Out :=
  issueExt (.vintVsub x) 0x43 1 x (effVint opSub true (affTag .sub)) s
/-- VINT_VMUL (07 R171). -/
def execVintVmul (x : Ext) (s : State) : Out :=
  issueExt (.vintVmul x) 0x43 2 x (effVint opMul false (affTag .mul)) s
/-- VMULH (07 R172). -/
def execVmulh (x : Ext) (s : State) : Out := issueExt (.vmulh x) 0x43 3 x (effVint opMulh false plainTag) s
/-- VMAD (07 R172). -/
def execVmad (x : Ext) (s : State) : Out := issueExt (.vmad x) 0x43 4 x (effV3 vmadOf) s
/-- VINT_VMIN (07 R171). -/
def execVintVmin (x : Ext) (s : State) : Out := issueExt (.vintVmin x) 0x43 5 x (effVint opMin false plainTag) s
/-- VINT_VMAX (07 R171). -/
def execVintVmax (x : Ext) (s : State) : Out := issueExt (.vintVmax x) 0x43 6 x (effVint opMax false plainTag) s
/-- VABS (07 R171). -/
def execVabs (x : Ext) (s : State) : Out := issueExt (.vabs x) 0x43 7 x (effVint opAbs true plainTag) s
/-- VAND (07 R171). -/
def execVand (x : Ext) (s : State) : Out := issueExt (.vand x) 0x43 8 x (effVint opAnd false plainTag) s
/-- VOR (07 R171). -/
def execVor (x : Ext) (s : State) : Out := issueExt (.vor x) 0x43 9 x (effVint opOr false plainTag) s
/-- VXOR (07 R171). -/
def execVxor (x : Ext) (s : State) : Out := issueExt (.vxor x) 0x43 10 x (effVint opXor false plainTag) s
/-- VANDN (07 R171). -/
def execVandn (x : Ext) (s : State) : Out := issueExt (.vandn x) 0x43 11 x (effVint opAndn false plainTag) s
/-- VNOT (07 R171). -/
def execVnot (x : Ext) (s : State) : Out := issueExt (.vnot x) 0x43 12 x (effVint opNot false plainTag) s
/-- VSHL (07 R171). -/
def execVshl (x : Ext) (s : State) : Out := issueExt (.vshl x) 0x43 13 x (effVint opShl false (affTag .shl)) s
/-- VSHR (07 R171). -/
def execVshr (x : Ext) (s : State) : Out := issueExt (.vshr x) 0x43 14 x (effVint opShr false plainTag) s
/-- VSAR (07 R171). -/
def execVsar (x : Ext) (s : State) : Out := issueExt (.vsar x) 0x43 15 x (effVint opSar false plainTag) s
/-- VCLZ (07 R171). -/
def execVclz (x : Ext) (s : State) : Out := issueExt (.vclz x) 0x43 16 x (effVint opClz false plainTag) s
/-- VPOPC (07 R171). -/
def execVpopc (x : Ext) (s : State) : Out := issueExt (.vpopc x) 0x43 17 x (effVint opPopc false plainTag) s
/-- VBREV (07 R171). -/
def execVbrev (x : Ext) (s : State) : Out := issueExt (.vbrev x) 0x43 18 x (effVint opBrev false plainTag) s
/-- VBFE (07 R169). -/
def execVbfe (x : Ext) (s : State) : Out := issueExt (.vbfe x) 0x43 19 x (effVint opBfe false plainTag) s
/-- VBFI (07 R169). -/
def execVbfi (x : Ext) (s : State) : Out := issueExt (.vbfi x) 0x43 20 x (effV3 (fun t => bfi t.width)) s
/-- VSEL (07 R174). -/
def execVsel (x : Ext) (s : State) : Out := issueExt (.vsel x) 0x43 21 x (effV3 vselOf) s
/-- VILV (07 R175). -/
def execVilv (x : Ext) (s : State) : Out := issueExt (.vilv x) 0x43 22 x effVilv s
/-- VDIL (07 R175). -/
def execVdil (x : Ext) (s : State) : Out := issueExt (.vdil x) 0x43 23 x effVdil s
/-- VLANEID (07 R176). -/
def execVlaneid (x : Ext) (s : State) : Out := issueExt (.vlaneid x) 0x43 24 x effVlaneid s
/-- VADDC (07 R173). -/
def execVaddc (x : Ext) (s : State) : Out := issueExt (.vaddc x) 0x43 25 x effVaddc s

/-- VADD_I32_SHORT (03 R78). -/
def execVaddI32Short (x : Short) (s : State) : Out :=
  issue (.vaddI32Short x) 0x43 0 (shortLen x) (shortTwo x .vec .i32) (effVint opAdd true (affTag .add)) s
/-- VSUB_I32_SHORT (03 R78). -/
def execVsubI32Short (x : Short) (s : State) : Out :=
  issue (.vsubI32Short x) 0x43 1 (shortLen x) (shortTwo x .vec .i32) (effVint opSub true (affTag .sub)) s
/-- VAND_SHORT (03 R78). -/
def execVandShort (x : Short) (s : State) : Out :=
  issue (.vandShort x) 0x43 8 (shortLen x) (shortTwo x .vec .b32) (effVint opAnd false plainTag) s
/-- VOR_SHORT (03 R78). -/
def execVorShort (x : Short) (s : State) : Out :=
  issue (.vorShort x) 0x43 9 (shortLen x) (shortTwo x .vec .b32) (effVint opOr false plainTag) s
/-- VXOR_SHORT (03 R78). -/
def execVxorShort (x : Short) (s : State) : Out :=
  issue (.vxorShort x) 0x43 10 (shortLen x) (shortTwo x .vec .b32) (effVint opXor false plainTag) s
/-- VSHL_SHORT (03 R78). -/
def execVshlShort (x : Short) (s : State) : Out :=
  issue (.vshlShort x) 0x43 13 (shortLen x) (shortTwo x .vec .b32) (effVint opShl false (affTag .shl)) s
/-- VSHR_SHORT (03 R78). -/
def execVshrShort (x : Short) (s : State) : Out :=
  issue (.vshrShort x) 0x43 14 (shortLen x) (shortTwo x .vec .b32) (effVint opShr false plainTag) s

/-- `vmov` (03 R79): the tag of vA, or `uni` for a literal. -/
def effVmov (c : C) (s : State) : Eff :=
  let tag := match c.x.a.cls with
    | .vec => (c.t.vreg c.x.a.code.toNat).tag
    | _ => .uni
  .done (c.putV s false (c.lanes s c.x.a 32) tag)

/-- VMOV (03 R79). Its registers are those of the vector row `vclass`: vD and one source. -/
def execVmov (x : Short) (s : State) : Out :=
  issue (.vmov x) 0x44 11 (shortLen x) (shortOne x .vec .b32) effVmov s

end Sys2Proof.Machine
end

