-- ==== Sys2Proof/Machine/Float.lean ====
section
/-!
DEFINITION. Groups vfp, vcvt and vdot (08 R177-R187, R191, R192), with their one-word forms.
-/

namespace Sys2Proof.Machine

/-- Results with flags of each lane: written in the active lanes, then the flags of the active lanes (04 R98). -/
def C.fpLanes (c : C) (s : State) (wide : Bool) (tag : Tag) (f : Nat → Nat × Flg) : Eff :=
  let rs := c.t.laneIxs.map f
  let s := c.putV s wide (rs.map (fun r => r.1)) tag
  c.fpDone s (c.actives.map (fun l => (l, (rs.getD l (0, 0)).2)))

/-- The source modifiers on an element's pattern: absolute value, then negation (08 R178). -/
def modPat (f : Fmt) (neg abs : Bool) (x : Nat) : Nat :=
  let m := 2 ^ (f.ebits + f.mbits)
  let y := if abs then x % m else x
  if neg then (if m ≤ y then y - m else y + m) else y

/-- The elements of a source in a lane, after the modifiers of X24 bits n and n + 1 (08 R178). -/
def C.elems (c : C) (s : State) (y : Src) (n : Nat) (l : Nat) : List Nat :=
  let t := c.x.ty
  let x := c.opnd s y t.width l
  (List.range t.elems).map (fun j => modPat (tyFmt t.elem) (c.x.bit n) (c.x.bit (n + 1)) (elemAt t x j))

/-- Results and flags of the elements of one lane as a lane value (08 R177). -/
def packFlags (t : Ty) (l : List (Nat × Flg)) : Nat × Flg :=
  (packElems (t.width / t.elems) (l.map (fun r => r.1)), l.foldl (fun a r => a ||| r.2) 0)

/-- An element operation of vfp: format, mode, sat, ftz and the three patterns. -/
abbrev FOp := Fmt → Rnd → Bool → Bool → Nat → Nat → Nat → Nat × Flg

/-- The lanes of an element operation (08 R181): absent sources supply zeros. -/
def effVfp (op : FOp) (c : C) (s : State) : Eff :=
  let t := c.x.ty
  let f := tyFmt t.elem
  let mode := c.t.mode c.x.rnd
  c.fpLanes s t.wide c.tag (fun l =>
    let a := c.elems s c.x.a 1 l
    let b := c.elems s c.x.b 3 l
    let d := c.elems s c.x.c 5 l
    packFlags t ((List.range t.elems).map (fun j =>
      op f mode (c.x.bit 0) c.t.ftz (a.getD j 0) (b.getD j 0) (d.getD j 0))))

/-- A rounded result with the flags of its operands and of the exact operation. -/
def roundWith (f : Fmt) (mode : Rnd) (sat ftz : Bool) (v : FV) (fl : Flg) : Nat × Flg :=
  let r := f.round mode sat ftz v
  (r.1, r.2 ||| fl)

/-- `vadd` (08 R181). -/
def fAdd : FOp := fun f mode sat ftz a b _ =>
  let x := f.input ftz a
  let y := f.input ftz b
  let r := sumFV mode [x, y]
  roundWith f mode sat ftz r.1 (r.2 ||| sigFlag [x, y])

/-- `vsub` (08 R181): the inverted sign of b counts (R179). -/
def fSub : FOp := fun f mode sat ftz a b _ =>
  let x := f.input ftz a
  let y := f.input ftz b
  let r := sumFV mode [x, y.flip]
  roundWith f mode sat ftz r.1 (r.2 ||| sigFlag [x, y])

/-- `vmul` (08 R181). -/
def fMul : FOp := fun f mode sat ftz a b _ =>
  let x := f.input ftz a
  let y := f.input ftz b
  let r := x.mul y
  roundWith f mode sat ftz r.1 (r.2 ||| sigFlag [x, y])

/-- `vfma` (08 R181). -/
def fFma : FOp := fun f mode sat ftz a b d =>
  let x := f.input ftz a
  let y := f.input ftz b
  let z := f.input ftz d
  let p := x.mul y
  let r := sumFV mode [p.1, z]
  roundWith f mode sat ftz r.1 (p.2 ||| r.2 ||| sigFlag [x, y, z])

/-- A pattern after flushing (08 R182). -/
def flushPat (f : Fmt) (ftz : Bool) (x : Nat) : Nat :=
  if ftz && f.flush && f.subnormal x then f.signBits (f.sign x) else x

/-- The smaller or larger operand (08 R182). -/
def fMinMax (max : Bool) (f : Fmt) (ftz : Bool) (a b : Nat) : Nat × Flg :=
  let x := f.input ftz a
  let y := f.input ftz b
  let fl := sigFlag [x, y]
  let pa := flushPat f ftz a
  let pb := flushPat f ftz b
  if x.isNan then (if y.isNan then f.cnan else pb, fl)
  else if y.isNan then (pa, fl)
  else
    let aFirst := FV.lt x y || (!FV.lt y x && x.neg)
    (if aFirst != max then pa else pb, fl)

/-- `vmin` (08 R182). -/
def fMin : FOp := fun f _ _ ftz a b _ => fMinMax false f ftz a b
/-- `vmax` (08 R182). -/
def fMax : FOp := fun f _ _ ftz a b _ => fMinMax true f ftz a b

/-- `vmed3` (08 R182): max(min(a, b), min(max(a, b), c)). -/
def fMed3 : FOp := fun f _ _ ftz a b d =>
  let lo := fMinMax false f ftz a b
  let hi := fMinMax true f ftz a b
  let m := fMinMax false f ftz hi.1 d
  let r := fMinMax true f ftz lo.1 m.1
  (r.1, lo.2 ||| hi.2 ||| m.2 ||| r.2)

/-- `vrint` (08 R183). -/
def fRint : FOp := fun f mode _ ftz a _ _ =>
  let x := f.input ftz a
  match x with
  | .fin m e =>
    let r := rndInt mode m e
    let v : FV := if r.1 = 0 then .zero (decide (m < 0)) else .fin r.1 0
    ((f.round .rne false false v).1, if r.2 then 0 else fNX)
  | v => roundWith f mode false false v (sigFlag [v])

/-- `vfract` (08 R183). -/
def fFract : FOp := fun f mode _ ftz a _ _ =>
  let x := f.input ftz a
  match x with
  | .nan q => (f.cnan, if q then fNV else 0)
  | .inf _ => (f.cnan, fNV)
  | .zero _ => (0, 0)
  | .fin m e =>
    if 0 ≤ e then (0, 0)
    else
      let r := m % (2 ^ (-e).toNat : Nat)
      if r = 0 then (0, 0)
      else
        let one := f.bias * 2 ^ f.mbits
        let y := f.round mode false ftz (.fin r e)
        (if y.1 = one then one - 1 else y.1, y.2)

/-- `vldexp` (08 R183): b is the low 32 bits of B. -/
def fLdexp (b : Int) : FOp := fun f mode sat ftz a _ _ =>
  let x := f.input ftz a
  roundWith f mode sat ftz (x.scale b) (sigFlag [x])

/-- `vfrexp` (08 R183). -/
def fFrexp (exp : Bool) : FOp := fun f _ _ ftz a _ _ =>
  let x := f.input ftz a
  match x with
  | .nan q => (if exp then 0 else f.cnan, if q then fNV else 0)
  | .inf _ => (if exp then 0 else a, 0)
  | .zero n => (if exp then 0 else f.signBits n, 0)
  | .fin m e =>
    let k : Int := bitLen m.natAbs
    (if exp then patN 32 (e + k) else (f.round .rne false false (.fin m (-k))).1, 0)

/-- `vclass` (08 R183). -/
def fClass : FOp := fun f _ _ ftz a _ _ =>
  let bit := match f.input ftz a with
    | .nan q => if q then 0 else 1
    | .inf n => if n then 2 else 9
    | .zero n => if n then 5 else 6
    | .fin m _ => if f.subnormal a then (if m < 0 then 4 else 7) else if m < 0 then 3 else 8
  (2 ^ bit, 0)

/-- `vcopysign` (08 R183). -/
def fCopysign : FOp := fun f _ _ ftz a b _ =>
  (flushPat f ftz a % 2 ^ (f.ebits + f.mbits) + f.signBits (f.sign b), 0)

/-- `vldexp` (08 R183): the exponent is read per lane. -/
def effVldexp (c : C) (s : State) : Eff :=
  let f := tyFmt c.x.ty
  c.fpLanes s c.x.ty.wide c.tag (fun l =>
    fLdexp (sextN 32 (c.opnd s c.x.b 32 l)) f (c.t.mode c.x.rnd) (c.x.bit 0) c.t.ftz
      ((c.elems s c.x.a 1 l).getD 0 0) 0 0)

/-- `vfrexp` and `vclass` (08 R183): an integer result fills vD alone. -/
def effVsplit (op : FOp) (narrow : Bool) (c : C) (s : State) : Eff :=
  let f := tyFmt c.x.ty
  c.fpLanes s (c.x.ty.wide && !narrow) c.tag (fun l =>
    op f .rne false c.t.ftz ((c.elems s c.x.a 1 l).getD 0 0) 0 0)

/-- `vfrexp` (08 R183). -/
def effVfrexp (c : C) (s : State) : Eff := effVsplit (fFrexp (c.x.bit 7)) (c.x.bit 7) c s

/-- VFP_VADD (08 R181). -/
def execVfpVadd (x : Ext) (s : State) : Out := issueExt (.vfpVadd x) 0x44 0 x (effVfp fAdd) s
/-- VFP_VSUB (08 R181). -/
def execVfpVsub (x : Ext) (s : State) : Out := issueExt (.vfpVsub x) 0x44 1 x (effVfp fSub) s
/-- VFP_VMUL (08 R181). -/
def execVfpVmul (x : Ext) (s : State) : Out := issueExt (.vfpVmul x) 0x44 2 x (effVfp fMul) s
/-- VFMA (08 R181). -/
def execVfma (x : Ext) (s : State) : Out := issueExt (.vfma x) 0x44 3 x (effVfp fFma) s
/-- VFP_VMIN (08 R182). -/
def execVfpVmin (x : Ext) (s : State) : Out := issueExt (.vfpVmin x) 0x44 4 x (effVfp fMin) s
/-- VFP_VMAX (08 R182). -/
def execVfpVmax (x : Ext) (s : State) : Out := issueExt (.vfpVmax x) 0x44 5 x (effVfp fMax) s
/-- VMED3 (08 R182). -/
def execVmed3 (x : Ext) (s : State) : Out := issueExt (.vmed3 x) 0x44 6 x (effVfp fMed3) s
/-- VRINT (08 R183). -/
def execVrint (x : Ext) (s : State) : Out := issueExt (.vrint x) 0x44 7 x (effVfp fRint) s
/-- VFRACT (08 R183). -/
def execVfract (x : Ext) (s : State) : Out := issueExt (.vfract x) 0x44 8 x (effVfp fFract) s
/-- VLDEXP (08 R183). -/
def execVldexp (x : Ext) (s : State) : Out := issueExt (.vldexp x) 0x44 9 x effVldexp s
/-- VFREXP (08 R183). -/
def execVfrexp (x : Ext) (s : State) : Out := issueExt (.vfrexp x) 0x44 10 x effVfrexp s
/-- VCLASS (08 R183). -/
def execVclass (x : Ext) (s : State) : Out := issueExt (.vclass x) 0x44 11 x (effVsplit fClass true) s
/-- VCOPYSIGN (08 R183): it takes no modifiers. -/
def execVcopysign (x : Ext) (s : State) : Out := issueExt (.vcopysign x) 0x44 12 x (effVfp fCopysign) s

/-- VADD_F32_SHORT (03 R78). -/
def execVaddF32Short (x : Short) (s : State) : Out :=
  issue (.vaddF32Short x) 0x44 0 (shortLen x) (shortTwo x .vec .f32) (effVfp fAdd) s
/-- VMUL_F32_SHORT (03 R78). -/
def execVmulF32Short (x : Short) (s : State) : Out :=
  issue (.vmulF32Short x) 0x44 2 (shortLen x) (shortTwo x .vec .f32) (effVfp fMul) s
/-- VMIN_F32_SHORT (03 R78). -/
def execVminF32Short (x : Short) (s : State) : Out :=
  issue (.vminF32Short x) 0x44 4 (shortLen x) (shortTwo x .vec .f32) (effVfp fMin) s
/-- VMAX_F32_SHORT (03 R78). -/
def execVmaxF32Short (x : Short) (s : State) : Out :=
  issue (.vmaxF32Short x) 0x44 5 (shortLen x) (shortTwo x .vec .f32) (effVfp fMax) s

/-! ## vcvt -/

/-- The value of a pattern of a type, under flushing: an integer type's value is its integer (08 R185). -/
def tyValue (t : Ty) (ftz : Bool) (x : Nat) : FV :=
  if t.isFloat then (tyFmt t).input ftz x
  else
    let n := intRead t x
    if n = 0 then .zero false else .fin n 0

/-- A value as a type: rounded once, as a pattern in the type's width (04 R94, R95). -/
def toTy (t : Ty) (mode : Rnd) (sat ftz : Bool) (v : FV) : Nat × Flg :=
  if t.isFloat then (tyFmt t).round mode sat ftz v
  else let r := roundInt t mode v; (patN t.width r.1, r.2)

/-- `vcvt` (08 R185). -/
def effVcvt (c : C) (s : State) : Eff :=
  let t := c.x.ty
  let fr := (Ty.ofCode (c.x.f 4 0)).getD .b32
  c.fpLanes s t.wide c.tag (fun l =>
    let v := tyValue fr c.t.ftz (c.opnd s c.x.a fr.width l)
    let r := toTy t (c.t.mode c.x.rnd) (c.x.bit 5) c.t.ftz v
    (if t.signed && t.width < 32 then patN 32 (sextN t.width r.1) else r.1, r.2 ||| sigFlag [v]))

/-- The f32 value of register A + j in a lane (08 R186). -/
def C.runF32 (c : C) (j l : Nat) : FV :=
  fmt32.input c.t.ftz (c.t.lane (c.x.a.code.toNat + j) l).toNat

/-- `vpackn` (08 R186). -/
def effVpackn (c : C) (s : State) : Eff :=
  let t := c.x.ty
  c.fpLanes s false c.tag (fun l =>
    let sc := sextN 32 (c.opnd s c.x.b 32 l)
    packFlags t ((List.range t.elems).map (fun j =>
      let v := c.runF32 j l
      let r := toTy t.elem (c.t.mode c.x.rnd) (c.x.bit 0) c.t.ftz (v.scale (-sc))
      (r.1, r.2 ||| sigFlag [v]))))

/-- A base exponent limited to -1,024 to 1,023 (04 R100). -/
def baseExp (x : Word64) : Int := max (-1024) (min 1023 x.toInt)

/-- `vquant` (08 R186). -/
def effVquant (c : C) (s : State) : Eff :=
  let t := c.x.ty
  let e := baseExp (c.sc64 s c.x.c)
  c.fpLanes s false c.tag (fun l =>
    let d := sextN 4 (c.opnd s c.x.b 4 l)
    packFlags t ((List.range t.elems).map (fun j =>
      let v := c.runF32 j l
      if d = -8 then (0, 0)
      else
        let r := toTy t.elem (c.t.mode c.x.rnd) (c.x.bit 0) c.t.ftz (v.scale (-(e + d)))
        (r.1, r.2 ||| sigFlag [v]))))

/-- `vunpackn` (08 R186): register D + j takes element j; a NaN element raises no nv. -/
def effVunpackn (c : C) (s : State) : Eff :=
  let t := c.x.ty
  let one (j l : Nat) : Nat × Flg :=
    let sc := sextN 32 (c.opnd s c.x.b 32 l)
    let v := tyValue t.elem c.t.ftz (elemAt t (c.opnd s c.x.a 32 l) j)
    fmt32.round (c.t.mode c.x.rnd) false c.t.ftz (v.scale sc)
  let tag := c.tag
  let s := (List.range t.elems).foldl (fun (s : State) j => s.onTeam c.t.uid (fun u =>
    u.writeN (c.x.d.toNat + j) false c.act (c.t.laneIxs.map (fun l => (one j l).1)) tag)) s
  c.fpDone s (c.actives.map (fun l => (l, (List.range t.elems).foldl (fun a j => a ||| (one j l).2) 0)))

/-- The larger of two magnitudes; NaNs are skipped (08 R187). -/
def magMax (a b : FV) : FV :=
  if b.isNan then a else if FV.lt a b then b else a

/-- The magnitude of a value. -/
def FV.mag : FV → FV
  | .nan q => .nan q
  | .inf _ => .inf false
  | .zero _ => .zero false
  | .fin m e => .fin m.natAbs e

/-- The least integer e with m x 2^k ≤ maxT x 2^e, for maxT = a x 2^b (08 R187). -/
def leastExp (m : Nat) (k : Int) (a : Nat) (b : Int) : Int :=
  let e0 := (bitLen m : Int) + k - ((bitLen a : Int) + b)
  if (dyAdd m k (-(a : Int)) (b + e0)).1 ≤ 0 then e0 else e0 + 1

/-- The block delta of a largest magnitude (08 R187). -/
def blockDelta (t : Ty) (e : Int) : FV → Int
  | .fin m k =>
    let mx : Nat × Int := match t with
      | .e4m3 => (7, 6) | .e5m2 => (7, 13) | _ => (3, 1)
    min 7 (max (-7) (leastExp m.natAbs k mx.1 mx.2 - e))
  | .inf _ => 7
  | _ => -8

/-- `vbscale` (08 R187). Under a full write its result takes the tag of rule 6 as a lane-wise one's does (the model's choice, log 22). -/
def effVbscale (c : C) (s : State) : Eff :=
  let g := 2 ^ c.x.f 3 0
  let e := baseExp (c.sc64 s c.x.b)
  let big (l : Nat) : FV := (c.actives.filter (fun i => i / g = l / g)).foldl
    (fun a i => magMax a (FV.mag (fmt32.input c.t.ftz (c.opnd s c.x.a 32 i)))) (.zero false)
  .done (c.putV s false (c.t.laneIxs.map (fun l => patN 32 (blockDelta c.x.ty e (big l)))) c.tag)

/-- VCVT (08 R185). -/
def execVcvt (x : Ext) (s : State) : Out := issueExt (.vcvt x) 0x45 0 x effVcvt s
/-- VPACKN (08 R186). -/
def execVpackn (x : Ext) (s : State) : Out := issueExt (.vpackn x) 0x45 1 x effVpackn s
/-- VUNPACKN (08 R186). -/
def execVunpackn (x : Ext) (s : State) : Out := issueExt (.vunpackn x) 0x45 2 x effVunpackn s
/-- VBSCALE (08 R187). -/
def execVbscale (x : Ext) (s : State) : Out := issueExt (.vbscale x) 0x45 3 x effVbscale s
/-- VQUANT (08 R186). -/
def execVquant (x : Ext) (s : State) : Out := issueExt (.vquant x) 0x45 4 x effVquant s

/-! ## vdot -/

/-- The element type of B (08 R191): with mix, the other signedness or the other 8-bit float. -/
def mixElem (mix : Bool) (t : Ty) : Ty :=
  if !mix then t else match t with
    | .i8 => .n8 | .n8 => .i8 | .e4m3 => .e5m2 | .e5m2 => .e4m3 | u => u

/-- The integer dots (08 R192). -/
def effVdotInt (c : C) (s : State) : Eff :=
  let t := c.x.ty
  let ta := t.elem
  let tb := mixElem (c.x.bit 0) ta
  let f (l : Nat) : Nat :=
    let a := c.opnd s c.x.a 32 l
    let b := c.opnd s c.x.b 32 l
    let r := (List.range t.elems).foldl (fun (r : Int) j =>
      r + intRead ta (elemAt t a j) * intRead tb (elemAt t b j)) (sextN 32 (c.opnd s c.x.c 32 l))
    patN 32 (if c.x.bit 1 then min (2 ^ 31 - 1) (max (-(2 ^ 31)) r) else r)
  .done (c.putV s false (c.t.laneIxs.map f) c.tag)

/-- The floating dots (08 R192). -/
def effVdotF (c : C) (s : State) : Eff :=
  let t := c.x.ty
  let ta := tyFmt t.elem
  let tb := tyFmt (mixElem (c.x.bit 0) t.elem)
  let sc := sextN 9 (c.x.f 10 2)
  let mode := c.t.mode c.x.rnd
  c.fpLanes s false c.tag (fun l =>
    let a := c.opnd s c.x.a 32 l
    let b := c.opnd s c.x.b 32 l
    let ps := (List.range t.elems).map (fun j => (ta.value (elemAt t a j)).mul (tb.value (elemAt t b j)))
    let d := fmt32.input c.t.ftz (c.opnd s c.x.c 32 l)
    let r := sumFV mode (ps.map (fun p => p.1.scale sc) ++ [d])
    let fl := ps.foldl (fun a p => a ||| p.2) (r.2 ||| sigFlag [d])
    roundWith fmt32 mode (c.x.bit 1) c.t.ftz r.1 fl)

/-- VDOT8 (08 R192). -/
def execVdot8 (x : Ext) (s : State) : Out := issueExt (.vdot8 x) 0x47 0 x effVdotInt s
/-- VDOT4 (08 R192). -/
def execVdot4 (x : Ext) (s : State) : Out := issueExt (.vdot4 x) 0x47 1 x effVdotInt s
/-- VDOTF8 (08 R192). -/
def execVdotf8 (x : Ext) (s : State) : Out := issueExt (.vdotf8 x) 0x47 2 x effVdotF s
/-- VDOTF4 (08 R192). -/
def execVdotf4 (x : Ext) (s : State) : Out := issueExt (.vdotf4 x) 0x47 3 x effVdotF s

end Sys2Proof.Machine
end

