-- ==== Sys2Proof/Machine/Lanes.lean ====
section
/-!
DEFINITION. Groups reg, pred and vxl (06 R153-R163).
-/

namespace Sys2Proof.Machine

/-! ## pred -/

/-- The condition codes on floating-point values (06 R158, R159). -/
def condF (cc : Nat) (a b : FV) : Bool :=
  let un := a.isNan || b.isNan
  match cc with
  | 0 => FV.eqv a b
  | 1 => un || !FV.eqv a b
  | 2 => FV.lt a b
  | 3 => !un && !FV.lt b a
  | 4 => FV.lt b a
  | 5 => !un && !FV.lt a b
  | 6 => un
  | _ => !un

/-- A condition on two patterns of a type (06 R159): bit types compare patterns. -/
def condTy (t : Ty) (cc : Nat) (a b : Nat) : Bool :=
  if t.isFloat then condF cc ((tyFmt t).value a) ((tyFmt t).value b) else condInt cc (intRead t a) (intRead t b)

/-- How `vcmp` combines the old value with the condition (06 R159). -/
def combP (k : Nat) (old new : Bool) : Bool :=
  match k with
  | 0 => new | 1 => old && new | _ => old || new

/-- `vcmp` (06 R159): pE's value prevails when pD and pE are one predicate. -/
def effVcmp (c : C) (s : State) : Eff :=
  let t := c.x.ty
  let e := c.x.f 4 0
  let k := c.x.f 9 8
  let cs := c.t.laneIxs.map (fun l =>
    condTy t (c.x.f 7 5) (c.opnd s c.x.a t.width l) (c.opnd s c.x.b t.width l))
  let ds := (c.t.laneIxs.zip cs).map (fun (l, r) => combP k (c.t.pr c.x.d.toNat l) r)
  let es := (c.t.laneIxs.zip cs).map (fun (l, r) => combP k (c.t.pr e l) (!r))
  .done (s.onTeam c.t.uid (fun u => (u.writeP c.x.d.toNat c.act ds).writeP e c.act es))

/-- `plog` (06 R159). -/
def effPlog (c : C) (s : State) : Eff :=
  let b (y : Src) (l : Nat) : Nat := if c.t.pr y.code.toNat l then 1 else 0
  .done (s.onTeam c.t.uid (fun u => u.writeP c.x.d.toNat c.act
    (c.t.laneIxs.map (fun l => c.x.bit (4 * b c.x.a l + 2 * b c.x.b l + b c.x.c l)))))

/-- `pset` (06 R159). -/
def effPset (c : C) (s : State) : Eff :=
  let n := match c.x.a.cls with
    | .vec => 32 | .sc => 64 | _ => 1
  .done (s.onTeam c.t.uid (fun u => u.writeP c.x.d.toNat c.act
    (c.t.laneIxs.map (fun l => (c.opnd s c.x.a n l).testBit (c.x.f 5 0)))))

/-- VCMP (06 R159). -/
def execVcmp (x : Ext) (s : State) : Out := issueExt (.vcmp x) 0x49 0 x effVcmp s
/-- PLOG (06 R159). -/
def execPlog (x : Ext) (s : State) : Out := issueExt (.plog x) 0x49 1 x effPlog s
/-- PSET (06 R159). -/
def execPset (x : Ext) (s : State) : Out := issueExt (.pset x) 0x49 2 x effPset s

/-! ## vxl -/

/-- The sub-group size (06 R160). -/
def C.grp (c : C) : Nat := if c.x.f 3 0 = 0 then c.t.width else 2 ^ c.x.f 3 0

/-- The four shuffles. -/
inductive Shuf where
  | idx | xor | rot
  deriving DecidableEq, Repr

/-- The lane that a shuffle reads (06 R161). -/
def shufLane (k : Shuf) (g l b : Nat) : Nat :=
  let base := l - l % g
  match k with
  | .idx => base + b % g
  | .xor => base + (l % g ^^^ b % g)
  | .rot => base + (l % g + b) % g

/-- A shuffle with its tag rule (06 R144, R161). For a sub-group size that is no power of two an xor index can
pass the group's end; such an index wraps within the group. A lane of the group beyond the team's width has the value of a
uniform vA (R143), and gives a free value of another (log 22). That `shfl`, `shfx` and `shfr` take the tag of rule 6 as lane-wise
instructions, and not rule 7's, is the model's choice (log 22). -/
def effShuf (k : Shuf) (tag : C → Tag) (c : C) (s : State) : Eff :=
  let w := c.x.ty.width
  let g := c.grp
  let xs := c.lanes s c.x.a w
  let pickLane (l : Nat) : Nat :=
    let j := shufLane k g l (c.opnd s c.x.b 32 l)
    let base := l - l % g
    let k := base + (j - base) % g
    if k < c.t.width then xs.getD k 0 else if c.isUni c.row.a c.x.a then xs.getD 0 0 else (Config.absentLane s.stepNo k).toNat % 2 ^ w
  .done (c.putV s c.x.ty.wide (c.t.laneIxs.map pickLane) (tag c))

/-- The tag of `bcast` and `reduce` (06 R144, rule 4): uniform when the group is the team or vA is. It stays so
for a `reduce` whose sub-groups differ in size, where the width is no multiple of g, though their results differ (the model's choice,
log 22). -/
def grpTag (c : C) : Tag := if c.grp = c.t.width || c.isUni c.row.a c.x.a then .uni else .gen

/-- `vote` (06 R162). -/
def effVote (c : C) (s : State) : Eff :=
  let g := c.grp
  let v (l : Nat) : Bool :=
    let ls := (c.actives.filter (fun i => i / g = l / g)).map (c.t.pr c.x.a.code.toNat)
    match c.x.f 6 4 with
    | 0 => ls.any id
    | 1 => ls.all id
    | _ => ls.all id || ls.all (fun b => !b)
  .done (s.onTeam c.t.uid (fun u => u.writeP c.x.d.toNat c.act (c.t.laneIxs.map v)))

/-- A node of the tree of R108: its value and the flags raised below it; absent when no lane under it is active. -/
abbrev Node := Option (Nat × Flg)

/-- One level up (04 R108). -/
def levelUp (f : Nat → Nat → Nat × Flg) : List Node → List Node
  | a :: b :: l =>
    (match a, b with
     | some x, some y => let r := f x.1 y.1; some (r.1, r.2 ||| x.2 ||| y.2)
     | some x, none => some x
     | none, y => y) :: levelUp f l
  | l => l

/-- All levels, the leaves first (04 R108). -/
def treeLevels (f : Nat → Nat → Nat × Flg) : Nat → List Node → List (List Node)
  | 0, l => [l]
  | k + 1, l => if l.length ≤ 1 then [l] else l :: treeLevels f k (levelUp f l)

/-- The top node. -/
def treeTop (ls : List (List Node)) : Node := ((ls.getLast?).getD []).headD none

/-- The nodes for the first n lanes, the largest first, summed left to right (04 R108). -/
def scanAt (f : Nat → Nat → Nat × Flg) (ls : List (List Node)) (n : Nat) : Node :=
  ((List.range ls.length).reverse.filter (fun k => n.testBit k)).foldl (fun (acc : Node) k =>
    match acc, (ls.getD k []).getD (n / 2 ^ (k + 1) * 2) none with
    | some x, some y => let r := f x.1 y.1; some (r.1, r.2 ||| x.2 ||| y.2)
    | some x, none => some x
    | none, y => y) none

/-- The combination of two entries (06 R163, 04 R108). -/
def combine (t : Ty) (op : Nat) (ftz : Bool) (a b : Nat) : Nat × Flg :=
  if t.isFloat then match op with
    | 0 => fAdd (tyFmt t) .rne false ftz a b 0
    | 1 => fMinMax false (tyFmt t) ftz a b
    | _ => fMinMax true (tyFmt t) ftz a b
  else
    let r : Int := match op with
      | 0 => opAdd t a b | 1 => opMin t a b | 2 => opMax t a b | 3 => opAnd t a b | 4 => opOr t a b
      | _ => opXor t a b
    (patN t.width r, 0)

/-- The leaf of a lane (04 R108): flushed under ftz; a NaN is canonical (R90), and nv marks a signalling one. -/
def leafOf (t : Ty) (ftz : Bool) (x : Nat) : Nat × Flg :=
  if t.isFloat then
    match (tyFmt t).value x with
    | .nan q => ((tyFmt t).cnan, if q then fNV else 0)
    | _ => (flushPat (tyFmt t) ftz x, 0)
  else (x, 0)

/-- The identity of an operation (06 R163). -/
def identity (t : Ty) (op : Nat) : Nat :=
  match op with
  | 1 => if t.isFloat then (tyFmt t).infBits false else patN t.width (tyRange t).2
  | 2 => if t.isFloat then (tyFmt t).infBits true else patN t.width (tyRange t).1
  | 3 => 2 ^ t.width - 1
  | _ => 0

/-- The tree of the sub-group of a lane. -/
def C.tree (c : C) (s : State) (l : Nat) : List (List Node) :=
  let t := c.x.ty
  let g := c.grp
  let base := l - l % g
  let leaves := (List.range (min g (c.t.width - base))).map (fun i =>
    if c.act.getD (base + i) false then some (leafOf t c.t.ftz (c.opnd s c.x.a t.width (base + i))) else none)
  treeLevels (combine t (c.x.f 6 4) c.t.ftz) 11 leaves

/-- `reduce` (06 R163). -/
def effReduce (c : C) (s : State) : Eff :=
  c.fpLanes s c.x.ty.wide (grpTag c) (fun l => (treeTop (c.tree s l)).getD (0, 0))

/-- `scan` (06 R163): a lane raises the flags of its nodes, and nv for a signalling input of its own, which under `.excl` no result
need cover. -/
def effScan (c : C) (s : State) : Eff :=
  let t := c.x.ty
  c.fpLanes s t.wide .gen (fun l =>
    let n := l % c.grp + (if c.x.bit 7 then 0 else 1)
    let r := (scanAt (combine t (c.x.f 6 4) c.t.ftz) (c.tree s l) n).getD (identity t (c.x.f 6 4), 0)
    (r.1, r.2 ||| (leafOf t c.t.ftz (c.opnd s c.x.a t.width l)).2))

/-- SHFL (06 R161). -/
def execShfl (x : Ext) (s : State) : Out := issueExt (.shfl x) 0x48 0 x (effShuf .idx C.tag) s
/-- SHFX (06 R161). -/
def execShfx (x : Ext) (s : State) : Out := issueExt (.shfx x) 0x48 1 x (effShuf .xor C.tag) s
/-- SHFR (06 R161). -/
def execShfr (x : Ext) (s : State) : Out := issueExt (.shfr x) 0x48 2 x (effShuf .rot C.tag) s
/-- BCAST (06 R161). -/
def execBcast (x : Ext) (s : State) : Out := issueExt (.bcast x) 0x48 3 x (effShuf .idx grpTag) s
/-- VOTE (06 R162). -/
def execVote (x : Ext) (s : State) : Out := issueExt (.vote x) 0x48 4 x effVote s
/-- REDUCE (06 R163). -/
def execReduce (x : Ext) (s : State) : Out := issueExt (.reduce x) 0x48 5 x effReduce s
/-- SCAN (06 R163). -/
def execScan (x : Ext) (s : State) : Out := issueExt (.scan x) 0x48 6 x effScan s

/-! ## reg -/

/-- The computed register number of `rmovx` and `rstx` (06 R154), with the offset. -/
def C.regIdx (c : C) (s : State) : Nat := (c.sc64 s c.x.a).toNat + c.x.f 7 0

/-- The trap of a computed number out of range (06 R154). -/
def C.regIdxBad (c : C) (s : State) (pos : Nat) : Option Trap :=
  let i := c.regIdx s
  let sc := c.x.bit 8
  let lim := if sc then 128 else c.t.nv
  let wide := c.x.ty.wide && !sc
  if lim ≤ i || (wide && (i % 2 = 1 || lim ≤ i + 1)) then some (c.trap 0x03 (pos * 256 + min i 255)) else none

/-- The registers of the computed number are full (06 R154: read in `blk` mode; R150 for the destination). -/
def C.idxFull (c : C) (s : State) : Bool :=
  let i := c.regIdx s
  let n := if c.x.ty.wide && !c.x.bit 8 then 2 else 1
  (List.range n).all (fun k => !c.t.isEmpty (!c.x.bit 8, i + k))

/-- Copies whole vector registers in the active lanes with their tags (06 R154). -/
def copyRegs (t u : Team) (act : List Bool) (dst src : Nat) : Nat → Team
  | 0 => u
  | k + 1 => copyRegs t (u.writeV (dst + k) act (t.vreg (src + k)).lanes (t.vreg (src + k)).tag) act dst src k

/-- `rmovx` (06 R154). -/
def effRmovx (c : C) (s : State) : Eff :=
  match c.regIdxBad s 1 with
  | some tr => .trap s tr
  | none =>
    if !c.skipped && !c.idxFull s then .wait s
    else if c.x.bit 8 then (if c.go then .done (c.putS s (c.t.sval (c.regIdx s))) else .done s)
    else .done (s.onTeam c.t.uid (fun u => copyRegs c.t u c.act c.x.d.toNat (c.regIdx s) (nOf c.x.ty)))

/-- `rstx` (06 R154). -/
def effRstx (c : C) (s : State) : Eff :=
  match c.regIdxBad s 0 with
  | some tr => .trap s tr
  | none =>
    if !c.skipped && !c.idxFull s then .wait s
    else if c.x.bit 8 then
      (if c.go then .done (s.onTeam c.t.uid (fun u => u.setS (c.regIdx s) (c.sc64 s c.x.b))) else .done s)
    else .done (s.onTeam c.t.uid (fun u => copyRegs c.t u c.act (c.regIdx s) c.x.b.code.toNat (nOf c.x.ty)))

/-- The tag that `shape.pack` gives a register (06 R155). -/
def packTag (r : VReg) : Tag :=
  let b := (r.lanes.getD 0 0).toNat
  let st := (baseStride r).2
  if r.lanes.all (fun w => w.toNat = b) then .uni
  else if ((List.range r.lanes.length).zip r.lanes).all (fun (l, w) => w.toNat = (b + l * st) % 2 ^ 32) then .aff
  else .gen

/-- `shape` (06 R155). -/
def effShape (c : C) (s : State) : Eff :=
  if !c.any then .done s
  else
    let r := c.t.vreg c.x.d.toNat
    let tag := if c.x.f 1 0 = 1 then .gen else packTag r
    .done (s.onTeam c.t.uid (fun u => { u with v := u.v.modify c.x.d.toNat (fun q => { q with tag := tag }) }))

/-- `shqry` (06 R155). -/
def effShqry (c : C) (s : State) : Eff :=
  .done (c.putS s (match (c.t.vreg c.x.a.code.toNat).tag with
    | .uni => 0 | .aff => 1 | .gen => 2))

/-- `rkeep` (06 R156). -/
def effRkeep (c : C) (s : State) : Eff :=
  match (s.launch? c.t.launch).bind (fun l => l.hdr.bind (fun h => h.keep)) with
  | none => .trap s (c.trap 0x05 0)
  | some _ => .done (s.onTeam c.t.uid (fun u => { u with armed := !c.x.bit 0 }))

/-- `vbcs` (06 R157). -/
def effVbcs (c : C) (s : State) : Eff :=
  .done (c.putV s c.x.ty.wide (c.lanes s c.x.a 64) .uni)

/-- `vext` (06 R157). -/
def effVext (c : C) (s : State) : Eff :=
  let j := (c.sc64 s c.x.b).toNat % c.t.width
  let x := c.opnd s c.x.a c.x.ty.width j
  .done (c.putS s (if c.x.ty = .i32 then BitVec.ofInt 64 (sextN 32 x) else BitVec.ofNat 64 x))

/-- RMOVX (06 R154). -/
def execRmovx (x : Ext) (s : State) : Out := issueExt (.rmovx x) 0x59 0 x effRmovx s
/-- RSTX (06 R154). -/
def execRstx (x : Ext) (s : State) : Out := issueExt (.rstx x) 0x59 1 x effRstx s
/-- SHAPE (06 R155). -/
def execShape (x : Ext) (s : State) : Out := issueExt (.shape x) 0x59 2 x effShape s
/-- SHQRY (06 R155). -/
def execShqry (x : Ext) (s : State) : Out := issueExt (.shqry x) 0x59 3 x (onGo effShqry) s
/-- RKEEP (06 R156). -/
def execRkeep (x : Ext) (s : State) : Out := issueExt (.rkeep x) 0x59 4 x (onGo effRkeep) s
/-- VBCS (06 R157). -/
def execVbcs (x : Ext) (s : State) : Out := issueExt (.vbcs x) 0x59 5 x effVbcs s
/-- VEXT (06 R157). -/
def execVext (x : Ext) (s : State) : Out := issueExt (.vext x) 0x59 6 x (onGo effVext) s

end Sys2Proof.Machine
end

