-- ==== Sys2Proof/Machine/Ldst.lean ====
section
/-!
DEFINITION. Groups ldst and atom on paths `ls` and `ms` (09 R193-R207, R213-R227), the atomic-set checks of
their accesses (14 R319-R325), and the events of translations, responses and writes.
-/

namespace Sys2Proof.Machine

/-! ## Addresses (R218, R220) -/

/-- The base of a memory operand: 0 when it is absent. -/
def C.base (c : C) (s : State) : Nat := if c.x.a.cls = .vec then 0 else (c.sc64 s c.x.a).toNat

/-- The effective address of a lane (R220). -/
def C.ea (c : C) (s : State) (m : MemOp) (l : Nat) : Nat :=
  let idx : Int := if m.ix then sextN 32 (c.opnd s c.x.b 32 l) * (2 ^ m.scl : Nat) else 0
  let step : Nat := if m.each then m.size * l else 0
  patN 64 ((c.base s : Int) + idx + m.off + step)

/-- The lanes that an access serves: the active lanes, or lane 0 of a scalar form that executes (R44). -/
def C.served (c : C) (m : MemOp) : List Nat := if m.scalar then (if c.go then [0] else []) else c.actives

/-- The data of a lane: D for a store, C for an atomic (R221, R226), B for `mwait` (11 R280). -/
def C.memData (c : C) (s : State) (m : MemOp) (l : Nat) : Nat :=
  match m.kind with
  | .load => if m.wait then c.opnd s m.x.b m.x.ty.width l else 0
  | .store => if m.scalar then (c.t.sval m.x.d.toNat).toNat
    else if m.x.ty.wide then (c.t.lane m.x.d.toNat l).toNat + 2 ^ 32 * (c.t.lane (m.x.d.toNat + 1) l).toNat
    else (c.t.lane m.x.d.toNat l).toNat
  | _ => c.opnd s m.x.c m.x.ty.width l

/-- The lowest of some addresses. -/
def lowest (l : List Nat) : Nat := l.foldl (fun m a => min m a) (l.headD 0)

/-- The trap of lanes whose addresses fail a check (R193, R220). -/
def C.addrTrap (c : C) (code sub : Nat) (bad : List (Nat × Nat)) : Trap :=
  c.trapAt code sub (lowest (bad.map (fun x => x.2))) (bad.map (fun x => x.1))

/-- The checks of R220 over every served lane, before any access: the trap, if one fails. -/
def C.addrCheck (c : C) (m : MemOp) (size : Nat) (as : List (Nat × Nat)) : Option Trap :=
  let nc := as.filter (fun x => !canonical x.2)
  let mis := if m.al then [] else as.filter (fun x => x.2 % size ≠ 0)
  if !nc.isEmpty then some (c.addrTrap 0x06 (0x0400 + m.path) nc)
  else if !mis.isEmpty then some (c.addrTrap 0x04 (0x0100 + m.path) mis)
  else none

/-! ## Atomic sets at issue (14 R319, R320) -/

/-- Whether n bytes at a touch a declared range. -/
def slotHit (k : SetSlot) (a n : Nat) : Bool :=
  k.st ≠ .empty && a < k.base.toNat + k.len.toNat && k.base.toNat < a + n

/-- Whether some bytes lie in a range that the open task has declared. -/
def Team.declares (t : Team) (a n : Nat) : Bool := t.task.isSome && t.sets.any (fun k => slotHit k a n)

/-- A set whose pages failed for good while the instruction at the program counter acquired it, with the trap of the lanes that touch
it (R322, 09 R205): slot, code, subcode and address. `aux` of the team holds it until that instruction issues. -/
def Team.setFailed (t : Team) : Option (Nat × Nat × Nat × Nat) :=
  match t.task, t.aux with
  | some _, [pc, k, code, sub, va, _] => if pc = t.pc.toNat then some (k, code, sub, va) else none
  | _, _ => none

/-- Whether n bytes at a touch such a set: its code, subcode and address. -/
def Team.failsAt (t : Team) (a n : Nat) : Option (Nat × Nat × Nat) := t.setFailed.bind (fun x =>
  if t.sets[x.1]?.any (fun k => slotHit k a n) then some x.2 else none)

/-- The first declared slot, not acquired yet, that an access touches. -/
def Team.firstTouch (t : Team) (as : List (Nat × Nat)) (n : Nat) : Option Nat :=
  if t.task.isNone then none
  else (List.range t.sets.length).find? (fun k =>
    match t.sets[k]? with
    | some sl => sl.st ≠ .acquired && !t.setFailed.any (fun x => x.1 = k) && as.any (fun x => slotHit sl x.2 n)
    | none => false)

/-- A team starts to acquire a slot and parks in a set wait; its instruction issues again afterwards (R317,
R319). -/
def startAcquire (s : State) (u k : Nat) : State :=
  (s.onTeam u (fun t => { t with
    run := .parked .setWait
    sets := t.sets.modify k (fun sl => { sl with st := .waiting }) })).postOnce (.setRequestArrival u k)

/-! ## Translation of lanes (R199-R205, R215) -/

/-- Whether the host tier carries an atomic (R215). -/
def hostAtomic (op : Nat) (ty : Ty) : Bool :=
  (op = 0 || op = 6 || op = 7) && (ty.isInt || ty.isBits)

/-- How an access of a lane stands once its pages are looked up. -/
def laneTr (s : State) (core ctx : Nat) (m : MemOp) (va : Nat) : LaneSt :=
  match piecesOf s core ctx m.access va m.size with
  | .ok segs =>
    if m.kind = .atomic && segs.any (fun g => tierOf g.key = 2) && !hostAtomic m.op m.x.ty
    then .failed 0x05 (0x0600 + m.path) va
    else .ready segs
  | .error (.fail code cause) => .failed code (cause * 256 + m.path) (failVA s core ctx m.access va m.size)
  | .error _ => .faulted

/-- Whether every page of an access is in the core's cache (R202). -/
def cached (s : State) (core ctx va n : Nat) : Bool :=
  (tlbHit s core ctx va).isSome && (tlbHit s core ctx ((va + (n - 1)) % 2 ^ 64)).isSome

/-! ## What waits for a write or flight -/

/-- A write that a flight makes is waited for by what waits for the flight. -/
def shareWait (s : State) (flight write : Nat) : State :=
  let add (l : List Nat) : List Nat := if l.contains flight then write :: l else l
  { s with
    writes := s.writes.map (fun w => { w with waits := add w.waits })
    flights := s.flights.map (fun f => { f with waits := add f.waits })
    teams := s.teams.map (fun t => { t with holds := t.holds.map (fun h => { h with waits := add h.waits }) }) }

/-- The flights of a team on path `ls`. -/
def lsFlights (s : State) (u : Nat) : List Flight :=
  (s.flightsOf u).filter (fun f => match memOp? f.instr with
    | some m => m.kind ≠ .red
    | none => false)

/-- Whether a write on `ls` is on its way where every load of a core reads it: one that does not stand at a gate (11 R258). -/
def BufWrite.seenBy (w : BufWrite) (core : Nat) : Bool := w.core = core && w.path = 0 && w.waits.isEmpty

/-- The writes and flights on `ls` that a release or fence of a scope waits for (11 R258, R267, R271): the team's reads that are not
bound, and its writes that are not performed at the scope. At scope `core` and below those are the writes at their gates. Beyond it
they are all, and those of other teams that its core's loads can have read, since what a team has read must be performed before what
it releases (DEDUCED from R268 and R269, log 10). -/
def lsWaits (s : State) (u scope : Nat) : List Nat :=
  (lsFlights s u).map (fun f => f.id) ++
  (s.writes.filter (fun w => (w.team = u && w.path = 0 && (2 ≤ scope || !w.waits.isEmpty)) ||
    (2 ≤ scope && (s.team? u).any (fun t => w.seenBy t.core)))).map (fun w => w.id)

/-- The releases of a team that count a write or flight are withdrawn (11 R278): stores at their gates, and flights that wait. -/
def withdrawFor (s : State) (u id : Nat) : State :=
  let ops := uniq ((s.writes.filter (fun w => w.team = u && w.waits.contains id)).map (fun w => w.op))
  let s := ops.foldl (fun s op => withdrawOp s u op) s
  { s with flights := s.flights.map (fun f => if f.team = u && f.waits.contains id
      then { f with aux := 1 :: f.aux.tail, again := false, waits := [], lanes := f.lanes.map (fun l => match l.st with
        | .ready _ => { l with st := .todo }
        | _ => l) }
      else f) }

/-! ## Performing writes (11 R258, R263) -/

/-- Whether two writes name a byte in common. -/
def BufWrite.meets (a b : BufWrite) : Bool := a.cells.any (fun x => b.cells.any (fun y => x.1 = y.1))

/-- The earlier writes that enter co before a write: those of its team to the same bytes or, on `so` pages, to any; and
those of its core that its core's loads can have read (11 R260, R261, R263). The arrivals of one `red` have no order among
themselves (09 R227). -/
def priorWrites (s : State) (w : BufWrite) : List BufWrite :=
  s.writes.filter (fun v => v.id < w.id && v.path = w.path && !(v.op = w.op && v.red.isSome && w.red.isSome) &&
    ((v.team = w.team && (v.meets w || (v.path = 0 && v.kind = 1 && w.kind = 1))) ||
     (v.seenBy w.core && v.meets w)))

/-- One write is applied at its home slices. A release leaves its core's L1 copy out, which would hold a value older
than stores after it (09 R198). A write of an `sst` leaves no older line in its core's texel cache. -/
def applyWrite (s : State) (w : BufWrite) : State :=
  let s := { s with writes := s.writes.filter (fun v => v.id ≠ w.id) }
  let s := if w.release.isSome then w.cells.foldl (fun s c => l1DropLine s w.core c.1) s else s
  let s := if w.path = 5 then texDropKeys s w.core (w.cells.map (fun c => c.1)) else s
  clearWait (s.apply w.cells) w.id

/-- Writes are applied in order, each after those that enter co before it, as far as none stands at a gate. -/
def applyAll (s : State) : List BufWrite → State
  | [] => s
  | w :: l =>
    applyAll (if (priorWrites s w).isEmpty && w.waits.isEmpty && (s.write? w.id).isSome then applyWrite s w else s) l

/-- A write is applied, its earlier writes first; whether it was. -/
def performWrite (s : State) (w : BufWrite) : State × Bool :=
  let s := applyAll s (priorWrites s w)
  if w.waits.isEmpty && (priorWrites s w).isEmpty && (s.write? w.id).isSome then (applyWrite s w, true) else (s, false)

/-- The buffered writes that an access to some bytes at its home slice must follow: the core's, which its loads can
have read, and the team's own (11 R263). -/
def writesOn (s : State) (core u : Nat) (keys : List Nat) (so : Bool) : List BufWrite :=
  s.writes.filter (fun w => w.path = 0 &&
    ((w.seenBy core && w.cells.any (fun c => keys.contains c.1)) ||
     (w.team = u && (w.cells.any (fun c => keys.contains c.1) || (so && w.kind = 1)))))

/-! ## The undo log (14 R323-R325) -/

/-- The 64-byte lines, as virtual addresses, of acquired sets that an access writes without a record. -/
def Team.unlogged (t : Team) (a n : Nat) : List Nat :=
  match t.task with
  | none => []
  | some k =>
    (((List.range (n / 64 + 2)).map (fun i => a / 64 * 64 + 64 * i)).filter (fun l =>
      l < a + n && !k.logged.contains l &&
      t.sets.any (fun sl => sl.st = .acquired && sl.base.toNat ≤ l && l < sl.base.toNat + sl.len.toNat)))

/-- How the appending of a record ends: done, at an absent page of the record, or in a trap, with its code, its subcode, and the
failing address where it is not the access's own. -/
inductive Logged where
  | ok (s : State)
  | absent (va : Nat)
  | failed (code sub : Nat) (va : Option Nat)

/-- The home slice appends a record of a line and counts it (R323, R324). An area without room and a record's page that fails give
`undofull`; the line's own page fails as for the access (09 R216). -/
def logLine (s : State) (t : Team) (line : Nat) : Logged :=
  let b := t.undob.toNat
  if t.undol.toNat < 136 then .failed 0x08 1 none
  else match readNum s t.core t.ctx (b + 8) 4 with
  | .error .absent => .absent (failVA s t.core t.ctx .read (b + 8) 4)
  | .error _ => .failed 0x08 2 none
  | .ok n =>
    if t.undol.toNat < 64 + 72 * (n + 1) then .failed 0x08 1 none
    else
      let at_ := b + 64 + 72 * n
      match readVA s t.core t.ctx line 64 with
      | .error .absent => .absent line
      | .error (.fail code cause) => .failed code (cause * 256) (some line)
      | .error _ => .failed 0x06 0x0500 (some line)
      | .ok old =>
        match writeVA s t.core t.ctx at_ (leBytes 8 line ++ old) with
        | .error .absent => .absent (failVA s t.core t.ctx .write at_ 72)
        | .error _ => .failed 0x08 2 none
        | .ok s =>
          let age := match t.task with
            | some k => k.age.toNat
            | none => 0
          match writeVA s t.core t.ctx b (leBytes 8 age ++ leBytes 4 (n + 1)) with
          | .error .absent => .absent b
          | .error _ => .failed 0x08 2 none
          | .ok s => .ok (s.onTeam t.uid (fun t => { t with
              task := t.task.map (fun k => { k with logged := line :: k.logged }) }))

/-- Appends the records that an access needs. -/
def logLines (s : State) (u : Nat) : List Nat → Logged
  | [] => .ok s
  | l :: ls =>
    match s.team? u with
    | none => .ok s
    | some t =>
      match logLine s t l with
      | .ok s => logLines s u ls
      | e => e

/-! ## Performing lanes (R221, R226, R227) -/

/-- Sets how far a lane of a flight is. -/
def setLane (s : State) (id lane : Nat) (st : LaneSt) : State :=
  { s with flights := s.flights.map (fun f => if f.id = id
      then { f with lanes := f.lanes.map (fun l => if l.lane = lane then { l with st := st } else l) }
      else f) }

/-- The value of loaded bytes in a register (R221): zero-extended, or sign-extended for the signed types. The old value of a 32-bit
`atoms` fills its 64-bit register by the same rule, which R226 does not say (the model's choice, log 24). -/
def memVal (m : MemOp) (n : Nat) : Nat :=
  if m.x.ty.signed then patN (if m.scalar || m.x.ty.wide then 64 else 32) (sextN m.x.ty.width n) else n

/-- The value of a lane written to D. -/
def writeLane (s : State) (f : Flight) (m : MemOp) (lane n : Nat) : State :=
  s.onTeam f.team (fun t =>
    if m.scalar then t.setS f.dst (BitVec.ofNat 64 (memVal m n))
    else t.fillN f.dst m.x.ty.wide [(lane, memVal m n)] .gen)

/-- The new value of an atomic (R226), from the stored value, the data and the compare value. -/
def atomNew (op : Nat) (ty : Ty) (old d k : Nat) : Nat :=
  match op with
  | 0 => (combine ty 0 false old d).1
  | 1 => (combine ty 1 false old d).1
  | 2 => (combine ty 2 false old d).1
  | 3 => old &&& d
  | 4 => old ||| d
  | 5 => old ^^^ d
  | 6 => d
  | _ => if old = k then d else old

/-- A load of one lane; whether it was made. A load waits for its team's releases to the same bytes and, on `so` pages,
follows its team's earlier writes to such pages (11 R261, R263, R267). -/
def loadLane (s : State) (t : Team) (f : Flight) (m : MemOp) (r : LaneReq) (segs : List Seg) : State × Bool :=
  let keys := segKeys segs
  let so := segs.any (fun g => g.kind = 1)
  let mine := fun (w : BufWrite) => w.team = t.uid && w.path = 0 &&
    ((!w.waits.isEmpty && w.cells.any (fun c => keys.contains c.1)) || (so && w.kind = 1))
  let s := applyAll s (s.writes.filter mine)
  if s.writes.any mine then (s, false)
  else
    let n := leNat (loadBytes s t.core f.id segs)
    (setLane (writeLane (l1Load s t.core segs) f m r.lane n) f.id r.lane .done, true)

/-- The read of `mwait` (11 R280, R281): it ends with its two results, or its team parks. Its read passes over the L1, so
that it sees writes applied at the home slice, and drops the line, so that no later load reads an older value (R263). `aux` of the
flight holds the deadline (0 for none) and whether the team was restored; `aux` of the parked team the key, the width, the flight and the deadline. -/
def mwaitLane (s : State) (t : Team) (f : Flight) (m : MemOp) (r : LaneReq) (segs : List Seg) : State × Bool :=
  let keys := segKeys segs
  let mine := fun (w : BufWrite) => w.team = t.uid && w.path = 0 && !w.waits.isEmpty &&
    w.cells.any (fun c => keys.contains c.1)
  if s.writes.any mine then (s, false)
  else
    let v := leNat (keys.map (fun k => coreByte s t.core false k))
    let s := keys.foldl (fun s k => l1DropLine s t.core k) s
    let same := v = r.data.toNat
    let back := f.aux.getD 2 0 = 1
    let code : Option Nat :=
      if t.mwEnd = .timeout then some 1
      else if back && (!same || t.mwEnd = .resumed) then some 2
      else if same then none else some 0
    match code with
    | some x =>
      let s := s.onTeam t.uid (fun t =>
        { (t.setSs m.x.d.toNat [BitVec.ofNat 64 x, BitVec.ofNat 64 v]) with
          mwEnd := .none, aux := [], 
          run := if t.run = .parked .mwait then (if f.again then .parked .tret else .running) else t.run })
      (setLane s f.id r.lane .done, true)
    | none =>
      let key := keys.headD 0
      let s := s.setFlight { f with aux := [0, f.aux.getD 1 0, 0] }
      let s := s.onTeam t.uid (fun t => if t.run = .running || t.run = .parked .mwait || (f.again && t.run = .parked .tret)
        then { t with run := .parked .mwait, aux := [key, m.size, f.id, f.aux.getD 1 0] } else t)
      let s := wakeWound s t.uid
      (if 2 ≤ tierOf key then s.postOnce (.mwaitRepoll t.uid) else s, false)

/-- The records of a write to a set, before the write (14 R324): earlier writes to the line are applied first. -/
def withRecords (s : State) (t : Team) (f : Flight) (m : MemOp) (r : LaneReq) (k : State → State × Bool) :
    State × Bool :=
  let ls := t.unlogged r.addr.toNat m.size
  if ls.isEmpty then k s
  else
    let keys := ls.flatMap (fun l => match piecesOf s t.core t.ctx .read l 64 with
      | .ok g => segKeys g
      | .error _ => [])
    let s := applyAll s (writesOn s t.core t.uid keys false)
    if !(writesOn s t.core t.uid keys false).isEmpty then (s, false)
    else match logLines s t.uid ls with
      | .ok s => k s
      | .failed code sub va => (setLane s f.id r.lane (.failed code sub (va.getD r.addr.toNat)), true)
      | .absent va =>
        let q : FaultReq := { die := dieOf t.core, ctx := t.ctx, blk := va % 2 ^ 57 / 2048, path := 0, flight := f.id,
                              retry := .translationWalk f.id, pass := r.lane / 32, undo := some r.lane }
        if faultsFull s (dieOf t.core) && !s.faults.contains q then (addFault s t.core q, false)
        else (setLane (parkFault (addFault s t.core q) t.uid) f.id r.lane .faulted, true)

/-- The pieces that the performed lanes of a store have written, as its flight keeps them in `aux`: lane, first key, length. They
stay with a replay entry (02 R35). -/
def wrote : List Nat → List (Nat × Nat × Nat)
  | l :: k :: n :: rest => (l, k, n) :: wrote rest
  | _ => []

/-- A performed lane of a store as it enters `aux`. -/
def wroteAux (f : Flight) (lane : Nat) (segs : List Seg) : List Nat :=
  f.aux.headD 0 :: f.aux.tail ++ segs.flatMap (fun g => [lane, g.key, g.len])

/-- Whether a later lane of a store, already performed, covers a byte: the last lane in pass order prevails (02 R35, 09 R221). -/
def covered (f : Flight) (r : LaneReq) (key : Nat) : Bool :=
  (wrote f.aux.tail).any (fun x => r.lane < x.1 && x.2.1 ≤ key && key < x.2.1 + x.2.2)

/-- The bytes that a lane of a store writes, by physical key. -/
def storeCells (f : Flight) (m : MemOp) (r : LaneReq) (segs : List Seg) : List (Nat × Byte) :=
  ((segKeys segs).zip (leBytes m.size r.data.toNat)).filter (fun x => !covered f r x.1)

/-- A store of one lane: its bytes start toward their home slices (11 R258). -/
def storeLane (s : State) (t : Team) (f : Flight) (m : MemOp) (r : LaneReq) (segs : List Seg) : State × Bool :=
  withRecords s t f m r (fun s =>
    let cells := storeCells f m r segs
    let kind := if segs.any (fun g => g.kind = 1) then 1 else 0
    let id := s.nextId
    let s := if f.waits.isEmpty then l1Store s t.core cells else s
    let s := startWrite s t 0 r.lane r.addr cells kind (if m.rel then some m.scope else none) f.waits none f.id f.pc
      f.npc (some f.instr) r.data
    let s := { s with flights := s.flights.map (fun g => if g.id = f.id then { g with aux := wroteAux g r.lane segs } else g) }
    (setLane (shareWait s f.id id) f.id r.lane .done, true))

/-- An atomic of one lane at its home slice (R226). -/
def atomLane (s : State) (t : Team) (f : Flight) (m : MemOp) (r : LaneReq) (segs : List Seg) : State × Bool :=
  if !f.waits.isEmpty then (s, false)
  else withRecords s t f m r (fun s =>
    let keys := segKeys segs
    let so := segs.any (fun g => g.kind = 1)
    let s := applyAll s (writesOn s t.core t.uid keys so)
    if !(writesOn s t.core t.uid keys so).isEmpty then (s, false)
    else
      let old := leNat (homeBytes s segs)
      let k := if m.scalar then (t.sval m.x.d.toNat).toNat % 2 ^ m.x.ty.width
        else if m.x.ty.wide then
          (t.lane m.x.d.toNat r.lane).toNat + 2 ^ 32 * (t.lane (m.x.d.toNat + 1) r.lane).toNat
        else (t.lane m.x.d.toNat r.lane).toNat
      let new := atomNew m.op m.x.ty old r.data.toNat k
      let s := keys.foldl (fun s key => l1DropLine s t.core key) (s.apply (keys.zip (leBytes m.size new)))
      let s := if m.ret then writeLane s f m r.lane old else s
      (setLane s f.id r.lane .done, true))

/-- A `red` of one lane starts toward its base die (R213). -/
def redLane (s : State) (t : Team) (f : Flight) (m : MemOp) (r : LaneReq) (segs : List Seg) : State × Bool :=
  let keys := segKeys segs
  let id := s.nextId
  let s := keys.foldl (fun s key => l1DropLine s t.core key) s
  let s := startWrite s t 7 r.lane r.addr (keys.map (fun k => (k, 0))) 0 none [] (some (m.op, m.x.ty, r.data)) f.id f.pc
    f.npc (some f.instr) r.data
  (setLane (shareWait s f.id id) f.id r.lane .done, true)

/-- The address of the first piece of an access whose tier is out of reach (09 R199, R201). -/
def cutAddr (s : State) : Nat → List Seg → Option Nat
  | _, [] => none
  | va, g :: l => if !tierUp s (tierOf g.key) g.ext then some va else cutAddr s ((va + g.len) % 2 ^ 64) l

/-- One lane of a flight, translated, is performed; whether it was. -/
def performLane (s : State) (f : Flight) (m : MemOp) (r : LaneReq) (segs : List Seg) : State × Bool :=
  match s.team? f.team with
  | none => (s, false)
  | some t => match cutAddr s r.addr.toNat segs with
    | some a => (setLane s f.id r.lane (.failed 0x06 (0x0500 + m.path) a), true)
    | none => match m.kind with
      | .load => if m.wait then mwaitLane s t f m r segs else loadLane s t f m r segs
      | .store => storeLane s t f m r segs
      | .atomic => atomLane s t f m r segs
      | .red => redLane s t f m r segs

/-- The lanes of a flight in the order in which they are served: lane order, and for atomics an order that the manual
does not state (R226). -/
def laneOrder (s : State) (m : MemOp) (ls : List LaneReq) : List LaneReq :=
  if m.kind = .atomic then sortBy (fun a b => Config.laneRank s.stepNo a.lane ≤ Config.laneRank s.stepNo b.lane) ls
  else ls

/-- Performs the translated lanes of a flight that satisfy a test, as far as earlier flights allow; each lane as the flight then
stands. -/
def performLanes (s : State) (f : Flight) (m : MemOp) (p : LaneReq → Bool) : State :=
  (laneOrder s m f.lanes).foldl (fun s r => match r.st with
    | .ready segs => if p r && laneFree s f m r segs then (performLane s ((s.flight? f.id).getD f) m r segs).1 else s
    | _ => s) s

/-- Performs the translated lanes of the earlier flights of a team, oldest first. -/
def drainBefore (s : State) (u id : Nat) : State :=
  ((s.flightsOf u).filter (fun g => g.id < id && !g.withdrawn)).foldl (fun s g =>
    match memOp? g.instr with
    | some m => performLanes s g m (fun _ => true)
    | none => s) s

/-- Performs lanes of a flight, earlier flights first where they stand in the way. -/
def performFlight (s : State) (f : Flight) (m : MemOp) (p : LaneReq → Bool) : State :=
  let held := f.lanes.any (fun r => match r.st with
    | .ready segs => p r && !laneFree s f m r segs
    | _ => false)
  performLanes (if held then drainBefore s f.team f.id else s) f m p

/-- Whether a lane has failed. -/
def LaneReq.hasFailed (l : LaneReq) : Bool := match l.st with
  | .failed _ _ _ => true
  | _ => false

/-- Whether a flight has nothing left to do. -/
def Flight.over (f : Flight) : Bool := f.lanes.all (fun l => match l.st with
  | .done => true
  | .failed _ _ _ => true
  | _ => false)

/-- A memory flight ends. A store that has failed withdraws the releases that count it (11 R278), and an acquire of scope `die` or
wider drops its core's L1 (R273). -/
def memEnd (s : State) (f : Flight) (m : MemOp) : State :=
  let s := if m.kind ≠ .load && f.lanes.any LaneReq.hasFailed then withdrawFor s f.team f.id else s
  let s := clearWait s f.id
  let s := if m.acq && 2 ≤ m.scope then (match s.team? f.team with
    | some t => acqDrop s t.core
    | none => s) else s
  endFlight s f

/-- After lanes were performed: the flight ends, or what is left of it is posted. -/
def afterLanes (s : State) (id : Nat) (m : MemOp) : State :=
  match s.flight? id with
  | none => s
  | some f =>
    if f.over then memEnd s f m
    else if f.hasReady && !(m.wait && (s.team? f.team).any (fun t => t.run = .parked .mwait))
    then s.postOnce (.accessResponse id) else s

/-- Whether two lanes belong to one request: one pass, and one aligned 2 KB block of one page (09 R207). -/
def sameReq (a b : LaneReq) : Bool := a.lane / 32 = b.lane / 32 && a.addr.toNat / 2048 = b.addr.toNat / 2048

/-- The lanes of one request: those of the first translated lane's. -/
def requestOf (f : Flight) (r : LaneReq) : Bool :=
  match f.lanes.find? (fun l => match l.st with
    | .ready _ => true
    | _ => false) with
  | none => false
  | some q => sameReq q r

/-- The sector count of the request of a pass for the 2 KB block of an address (09 R207): the 32-byte sectors of the block that its
lanes touch. A lane that crosses a page makes a request for each page (R199). -/
def sectorCount (f : Flight) (m : MemOp) (pass va : Nat) : Nat :=
  (uniq ((f.lanes.filter (fun l => l.lane / 32 = pass)).flatMap (fun l =>
    ((List.range m.size).map (fun i => (l.addr.toNat + i) % 2 ^ 64)).filterMap (fun a =>
      if a / 2048 = va / 2048 then some (a / 32) else none)))).length

/-- ACCESS_RESPONSE of a memory flight (R208): one request is performed. -/
def respond (s : State) (f : Flight) (m : MemOp) : State := afterLanes (performFlight s f m (requestOf f)) f.id m

/-! ## Issue (R218-R225) -/

/-- The instructions of a team that are outstanding in memory (R203): flights, and releases of which all that is left stands at the
gate. -/
def outstanding (s : State) (u : Nat) : Nat :=
  let fs := ((s.flightsOf u).filter (fun f => f.withdrawn || !f.waits.isEmpty || f.lanes.any (fun l =>
    l.st = .todo || l.st = .faulted || l.st = .waitW))).map (fun f => f.id)
  (uniq (fs ++ (s.writes.filter (fun w => w.team = u && !w.waits.isEmpty)).map (fun w => w.op))).length

/-- The largest number of outstanding instructions (R203). -/
def outstandingCap : Nat := 16

/-- Whether the trap of a memory instruction must find its team at the boundary after it: an acquire holds what follows, and a write
that needs a record of the undo log may take `undofull`, which is precise (11 R261, 14 R325). -/
def MemOp.gated (m : MemOp) (t : Team) (as : List (Nat × Nat)) : Bool :=
  m.acq || (m.kind ≠ .load && as.any (fun x => !(t.unlogged x.2 m.size).isEmpty))

/-- A memory instruction goes into flight with its lanes; stores that are translated start at once, and an atomic drops its
core's L1 copy of its lines (R198). -/
def startMem (m : MemOp) (c : C) (s : State) (as : List (Nat × Nat)) (waits : List Nat) : State :=
  let lanes := as.map (fun (l, a) =>
    ({ lane := l, addr := BitVec.ofNat 64 a, data := BitVec.ofNat 64 (c.memData s m l),
       st := match c.t.failsAt a m.size with
         | some x => .failed x.1 x.2.1 x.2.2
         | none => if cached s c.t.core c.t.ctx a m.size then laneTr s c.t.core c.t.ctx m a else .todo } : LaneReq))
  let id := s.nextId
  let s := if m.kind = .atomic || m.kind = .red then lanes.foldl (fun s l => match l.st with
      | .ready segs => (segKeys segs).foldl (fun s k => l1DropLine s c.t.core k) s
      | _ => s) s else s
  let s := if c.t.setFailed.isSome then s.onTeam c.t.uid (fun t => { t with aux := [] }) else s
  let s := c.launch s lanes [] [0] (m.gated c.t as)
  match s.flight? id with
  | none => s
  | some f =>
    let f := { f with waits := waits }
    let s := s.setFlight f
    if lanes.any (fun l => l.st = .todo) then
      let s := s.post (.translationWalk id)
      if f.hasReady then s.post (.accessResponse id) else s
    else if (m.kind = .store || m.kind = .red) && !lanes.any LaneReq.hasFailed then
      let s := performFlight s f m (fun _ => true)
      match s.flight? id with
      | none => s
      | some g => if g.lanes.all (fun l => l.st = .done) then clearWait (s.dropFlight id) id
                  else s.post (.accessResponse id)
    else s.post (.accessResponse id)

/-- The effect of a memory instruction at issue. -/
def effMem (m : MemOp) (c : C) (s : State) : Eff :=
  let as := (c.served m).map (fun l => (l, c.ea s m l))
  if as.isEmpty then .done s
  else match c.addrCheck m m.size as with
    | some tr => .trap s tr
    | none =>
      let own := if m.kind = .red then as.filter (fun x => c.t.declares x.2 m.size) else []
      if !own.isEmpty then .trap s (c.addrTrap 0x05 0x0807 own)
      else match (if m.kind = .red then none else c.t.firstTouch as m.size) with
        | some k => .wait (startAcquire s c.t.uid k)
        | none =>
          let waits := if m.rel then lsWaits s c.t.uid m.scope else []
          let hit := as.all (fun x => cached s c.t.core c.t.ctx x.2 m.size)
          if (!hit || !waits.isEmpty) && outstandingCap ≤ outstanding s c.t.uid then .wait s
          else .done (startMem m c s as waits)

/-- LD (R218-R221). -/
def execLd (x : Ext) (s : State) : Out := issueExt (.ld x) 0x4A 0 x (effMem (ldstOp 0 x)) s
/-- ST (R218-R221). -/
def execSt (x : Ext) (s : State) : Out := issueExt (.st x) 0x4A 1 x (effMem (ldstOp 1 x)) s
/-- LDV (R219, R220). -/
def execLdv (x : Ext) (s : State) : Out := issueExt (.ldv x) 0x4A 2 x (effMem (ldstOp 2 x)) s
/-- STV (R219, R220). -/
def execStv (x : Ext) (s : State) : Out := issueExt (.stv x) 0x4A 3 x (effMem (ldstOp 3 x)) s
/-- LDS (R219-R221). -/
def execLds (x : Ext) (s : State) : Out := issueExt (.lds x) 0x4A 4 x (effMem (ldstOp 4 x)) s
/-- STS (R219-R221). -/
def execSts (x : Ext) (s : State) : Out := issueExt (.sts x) 0x4A 5 x (effMem (ldstOp 5 x)) s
/-- ATOM (R225, R226). -/
def execAtom (x : Ext) (s : State) : Out := issueExt (.atom x) 0x4B 0 x (effMem (atomOp 0 x)) s
/-- RED (R213, R225, R227). -/
def execRed (x : Ext) (s : State) : Out := issueExt (.red x) 0x4B 1 x (effMem (atomOp 1 x)) s
/-- ATOMS (R225, R226). -/
def execAtoms (x : Ext) (s : State) : Out := issueExt (.atoms x) 0x4B 2 x (effMem (atomOp 2 x)) s

/-- LDV_SHORT (03 R78, R219): `ldv.b32` with offset 0. -/
def execLdvShort (x : Short) (s : State) : Out :=
  let y := shortOne x .sc .b32
  issue (.ldvShort x) 0x4A 2 (shortLen x) y (effMem (ldstOp 2 y)) s
/-- STV_SHORT (03 R78, R219). -/
def execStvShort (x : Short) (s : State) : Out :=
  let y := shortOne x .sc .b32
  issue (.stvShort x) 0x4A 3 (shortLen x) y (effMem (ldstOp 3 y)) s
/-- LDS_SHORT (03 R78, R219). -/
def execLdsShort (x : Short) (s : State) : Out :=
  let y := shortOne x .sc .b64
  issue (.ldsShort x) 0x4A 4 (shortLen x) y (effMem (ldstOp 4 y)) s
/-- STS_SHORT (03 R78, R219). -/
def execStsShort (x : Short) (s : State) : Out :=
  let y := shortOne x .sc .b64
  issue (.stsShort x) 0x4A 5 (shortLen x) y (effMem (ldstOp 5 y)) s

/-- `pref` (R224): the lines of the active lanes' addresses enter the L1 where R198 lets it hold them, or their home slices; a
translation miss, an absent page or a refusal drops the hint. -/
def effPref (c : C) (s : State) : Eff :=
  let m := { ldstOp 0 c.x with al := true, acq := false, scope := 0 }
  let as := c.actives.map (fun l => (l, c.ea s m l))
  match c.addrCheck m 1 as with
  | some tr => .trap s tr
  | none =>
    .done (as.foldl (fun s x =>
      if cached s c.t.core c.t.ctx x.2 1 then match translate s c.t.core c.t.ctx x.2 1 .read with
        | .ok g => if c.x.bit 18 then sliceHold s g.key else l1Load s c.t.core [g]
        | _ => s
      else s) s)

/-- PREF (R224). -/
def execPref (x : Ext) (s : State) : Out := issueExt (.pref x) 0x4A 8 x effPref s

end Sys2Proof.Machine
end

