-- ==== Sys2Proof/Machine/Spad.lean ====
section
/-!
DEFINITION. The scratchpad: `ldsp` and `stsp` (09 R212, R222), the tag table and group spad (10 R228-R238),
latches and group latch (10 R251-R255).
-/

namespace Sys2Proof.Machine

/-! ## Faults of engine transfers (09 R203-R205) -/

/-- What an engine's transfer meets when a translation answers: `wait` after a request entered the fault buffer, or the
trap code and cause. A fault that firmware declined is cause 0x01 (09 R205). -/
inductive Meet where
  | wait (s : State)
  | fail (s : State) (code cause : Nat)

/-- An engine's transfer that cannot be translated: `retry` is the event that makes it. -/
def meetFault (s : State) (core ctx va path flight : Nat) (retry : Ev) : Tr → Meet
  | .fail code cause => .fail s code cause
  | _ =>
    let q : FaultReq := { die := faultDie core, ctx := ctx, blk := va % 2 ^ 57 / 2048, path := path, flight := flight,
                          retry := retry }
    if s.declined.contains retry then .fail { s with declined := s.declined.erase retry } 0x06 1
    else if faultsFull s (faultDie core) && !s.faults.contains q then .wait ((addFault s core q).post retry)
    else .wait (addFault s core q)

/-- What a write of an engine comes to: written whole, waiting with nothing written, or failed for good with the pages before
the failing one written. -/
inductive Put where
  | done (s : State)
  | wait (s : State)
  | fail (s : State) (code cause va : Nat)

/-- A write of an engine that stands partly written when it fails for good (13 R312, 14 R333). -/
def enginePut (s : State) (core ctx va path flight : Nat) (retry : Ev) (bs : List Byte) : Put :=
  match writeUpto s core ctx va bs with
  | (s, none) => .done s
  | (_, some (at_, e)) => match meetFault s core ctx at_ path flight retry e with
    | .wait s => .wait s
    | .fail s code cause => .fail (writeUpto s core ctx va bs).1 code cause at_

/-! ## Latches (10 R252) -/

/-- One arrival at a latch (10 R252). -/
def Latch.arrive (l : Latch) (a : Nat) : Latch :=
  let c := l.count + a
  if l.target ≤ c then
    if l.target ≤ c - l.target then { l with phase := !l.phase, count := l.target - 1, ovr := true }
    else { l with phase := !l.phase, count := c - l.target }
  else { l with count := c }

/-- The latch of a kernel on a core. -/
def State.latch? (s : State) (core launch n : Nat) : Option Latch :=
  (s.core core).latches.find? (fun l => l.launch = launch && l.num = n)

/-- Changes a latch. -/
def onLatch (s : State) (core launch n : Nat) (f : Latch → Latch) : State :=
  s.onCore core (fun c => { c with
    latches := c.latches.map (fun l => if l.launch = launch && l.num = n then f l else l) })

/-- The word that `ltwait` reports (10 R255). -/
def Latch.word (l : Latch) : Word64 :=
  BitVec.ofNat 64 (l.count + (if l.phase then 2 ^ 32 else 0) + (if l.ovr then 2 ^ 33 else 0))

/-- The teams parked in `ltwait` or `yield` on a latch whose condition holds leave their waits (10 R255): `aux` holds
the latch, the phase named, the address after the wait and, for `ltwait`, the destination. -/
def latchWake (s : State) (core launch n : Nat) : State :=
  match s.latch? core launch n with
  | none => s
  | some l => { s with teams := s.teams.map (fun t =>
      if t.core = core && t.launch = launch then match t.run, t.aux with
        | .parked .ltwait, [k, b, pc, d] =>
          if k = n && bitNat l.phase ≠ b then
            { (t.setS d l.word) with pc := BitVec.ofNat 64 pc, run := .running, aux := [] } else t
        | .parked .yield, [0, k, b, pc] =>
          if k = n && bitNat l.phase ≠ b then { t with pc := BitVec.ofNat 64 pc, run := .running, aux := [] } else t
        | _, _ => t
      else t) }

/-- An arrival at a latch of a core, and the waits that it ends. -/
def arriveAt (s : State) (core launch n a : Nat) : State :=
  latchWake (onLatch s core launch n (fun l => l.arrive a)) core launch n

/-- The kernel core area that serves a kernel on a core (19 R436). -/
def kernelArea? (s : State) (core launch : Nat) : Option PoolArea :=
  s.areas.find? (fun a => a.core = core && a.launch = launch && a.team = 0)

/-- A latch of a latch image at its 16 bytes (10 R251). -/
def latchOfBytes (launch n : Nat) (bs : List Byte) : Latch :=
  { launch := launch, num := n, count := leNat (bs.take 4), target := leNat ((bs.drop 4).take 4),
    phase := (leNat ((bs.drop 8).take 4)).testBit 0, ovr := (leNat ((bs.drop 8).take 4)).testBit 1 }

/-- The 16 bytes of a latch in a latch image (10 R251). -/
def Latch.bytes (l : Latch) : List Byte :=
  leBytes 4 l.count ++ leBytes 4 l.target ++ leBytes 4 (bitNat l.phase + 2 * bitNat l.ovr) ++ leBytes 4 0

/-- An arrival at a latch image meets a page that cannot be used: it waits for firmware, or goes on in the agenda while another
waits there, and is dropped where the page fails for good. -/
def arriveMeet (s : State) (core ctx va launch n a : Nat) (e : Tr) : State :=
  let again : Ev := .latchArrival core launch n a
  if s.faults.any (fun q => q.retry = again) then s.post again
  else match meetFault s core ctx va 0 0 again e with
    | .wait s => s
    | .fail s _ _ => s

/-- An arrival at the latch, or at its image while the kernel's teams on the core are saved (10 R251, R252). -/
def arriveAny (s : State) (core launch n a : Nat) : State :=
  match s.latch? core launch n with
  | some _ => arriveAt s core launch n a
  | none => match (if (s.core core).latches.any (fun l => l.launch = launch) then none else kernelArea? s core launch) with
    | none => s
    | some k =>
      let at_ := k.base + 16 * n
      match readVA s core k.ctx at_ 16 with
      | .error e => arriveMeet s core k.ctx at_ launch n a e
      | .ok bs => match writeVA s core k.ctx at_ ((latchOfBytes launch n bs).arrive a).bytes with
        | .ok s => s
        | .error e => arriveMeet s core k.ctx at_ launch n a e

/-- LATCH_ARRIVAL (10 R252). -/
def execLatchArrival (core launch n a : Nat) (s : State) : Out := .next (arriveAny s core launch n a)

/-- `ltinit` (10 R255). -/
def effLtinit (c : C) (s : State) : Eff :=
  let t := c.opnd s c.x.a 32 0
  if t = 0 then .trap s (c.trap 0x05 0x0800)
  else .done (onLatch s c.t.core c.t.launch c.x.d.toNat (fun l => { l with count := 0, target := t, ovr := false }))

/-- `ltarr` (10 R253, R255): applied after every earlier store of the team is performed at `core` scope, which a release
at its gate is not. -/
def effLtarr (c : C) (s : State) : Eff :=
  if s.writes.any (fun w => w.team = c.t.uid && w.path = 0 && !w.waits.isEmpty) ||
     (lsFlights s c.t.uid).any (fun f => match memOp? f.instr with
       | some m => m.kind = .store
       | none => false)
  then .wait s
  else .done (arriveAt s c.t.core c.t.launch c.x.d.toNat (c.opnd s c.x.a 32 0))

/-- `ltwait` (10 R255). -/
def effLtwait (c : C) (s : State) : Eff :=
  let n := c.x.a.code.toNat
  let b := c.opnd s c.x.b 32 0 % 2
  match s.latch? c.t.core c.t.launch n with
  | none => .done s
  | some l =>
    if bitNat l.phase ≠ b then .done (c.putS s l.word)
    else .wait (s.onTeam c.t.uid (fun t => { t with
      run := .parked .ltwait, aux := [n, b, c.npc.toNat, c.x.d.toNat] }))

/-- The target of `yield` (10 R254). -/
def C.yieldTgt (c : C) : Word64 := c.t.pc + BitVec.ofInt 64 (4 * sextN 23 (c.x.f 22 0))

/-- Whether a copy id is outstanding on a core (10 R239). -/
def copyOut (s : State) (core id : Nat) : Bool := (s.core core).copies.any (fun k => k.id = id)

/-- `yield` (10 R255). -/
def effYield (c : C) (s : State) : Eff :=
  let tgt := c.yieldTgt
  let park (l : List Nat) : Eff := .wait (s.onTeam c.t.uid (fun t => { t with run := .parked .yield, aux := l }))
  if c.x.bit 23 then
    let id := c.opnd s c.x.a 32 0
    if copyOut s c.t.core id then park [1, id, 0, tgt.toNat] else .jump s tgt
  else
    let n := c.x.a.code.toNat
    let b := c.opnd s c.x.b 32 0 % 2
    match s.latch? c.t.core c.t.launch n with
    | none => .jump s tgt
    | some l => if bitNat l.phase ≠ b then .jump s tgt else park [0, n, b, tgt.toNat]

/-- LTINIT (10 R255). -/
def execLtinit (x : Ext) (s : State) : Out := issueExt (.ltinit x) 0x4F 0 x (onGo effLtinit) s
/-- LTARR (10 R253, R255). -/
def execLtarr (x : Ext) (s : State) : Out := issueExt (.ltarr x) 0x4F 1 x (onGo effLtarr) s
/-- LTWAIT (10 R255). -/
def execLtwait (x : Ext) (s : State) : Out := issueExt (.ltwait x) 0x4F 2 x (onGo effLtwait) s
/-- YIELD (10 R255). -/
def execYield (x : Ext) (s : State) : Out := issueExt (.yield x) 0x4F 3 x (onGo effYield) s

/-! ## Reach of scratch addresses (09 R212, 10 R231) -/

/-- What a scratch line is for a team. -/
inductive Reach where
  | plain | pool (st : LineState) | none
  deriving DecidableEq, Repr

/-- Whether a line lies in the plain region of a record that is not empty (10 R228). -/
def plainIn (b : Bind) (n : Nat) : Bool := b.st ≠ .empty && b.sbase ≤ n && n < b.sbase + b.ssize

/-- Whether some record's plain region holds a line. -/
def isPlain (c : Core) (n : Nat) : Bool := c.recs.any (fun b => plainIn b n)

/-- The tag entry of a pool line that is not free. -/
def lineOf (c : Core) (n : Nat) : Option Line := c.lines.find? (fun l => l.num = n)

/-- What a line is for a team of a context at a place. -/
def reachOf (c : Core) (place ctx n : Nat) : Reach :=
  if 1536 ≤ n then .none
  else if plainIn (c.recs.getD place Bind.reset) n then .plain
  else match lineOf c n with
    | some l => if l.ctx = ctx && l.st ≠ .free then .pool l.st else .none
    | none => .none

/-- The lines that n bytes at a scratch address touch. -/
def linesAt (a n : Nat) : List Nat := (List.range (n / 256 + 2)).filterMap (fun i =>
  if a / 256 + i ≤ (a + (n - 1)) / 256 then some (a / 256 + i) else none)

/-- Whether all bytes of a scratch range lie within reach. -/
def scratchOk (c : Core) (place ctx a n : Nat) : Bool := (linesAt a n).all (fun l => reachOf c place ctx l ≠ .none)

/-- Whether an access to a scratch range must wait for a line that is filling or evicting. -/
def scratchHeld (c : Core) (place ctx a n : Nat) : Bool := (linesAt a n).any (fun l =>
  reachOf c place ctx l = .pool .filling || reachOf c place ctx l = .pool .evicting)

/-- Bytes written to scratch, with the dirty bits of the pool lines they touch (10 R231). -/
def Core.putScratch (c : Core) (a : Nat) (bs : List Byte) : Core :=
  { c with scratch := c.scratch.setBytes a bs
           lines := c.lines.map (fun l => if (linesAt a bs.length).contains l.num then { l with dirty := true } else l) }

/-- `ldsp` and `stsp` (09 R212, R222). A load binds its value when it issues, and ACCESS_RESPONSE fills D. -/
def effSpad (m : MemOp) (c : C) (s : State) : Eff :=
  let as := (c.served m).map (fun l => (l, c.ea s m l))
  let k := s.core c.t.core
  match c.addrCheck m m.size as with
  | some tr => .trap s tr
  | none =>
    let out := as.filter (fun x => !scratchOk k c.t.place c.t.ctx x.2 m.size)
    if !out.isEmpty then .trap s (c.addrTrap 0x05 0x0700 out)
    else if as.any (fun x => scratchHeld k c.t.place c.t.ctx x.2 m.size) then .wait s
    else if as.isEmpty then .done s
    else match m.kind with
      | .load =>
        let lanes := as.map (fun x =>
          ({ lane := x.1, addr := BitVec.ofNat 64 x.2,
             data := BitVec.ofNat 64 (k.scratch.num x.2 m.size), st := .ready [] } : LaneReq))
        .done ((c.launch s lanes [] [0] false).post (.accessResponse s.nextId))
      | _ => .done (as.foldl (fun s x =>
          s.onCore c.t.core (fun k => k.putScratch x.2 (leBytes m.size (c.memData s m x.1)))) s)

/-- LDSP (09 R222). -/
def execLdsp (x : Ext) (s : State) : Out := issueExt (.ldsp x) 0x4A 6 x (effSpad (ldstOp 6 x)) s
/-- STSP (09 R222). -/
def execStsp (x : Ext) (s : State) : Out := issueExt (.stsp x) 0x4A 7 x (effSpad (ldstOp 7 x)) s

/-- The answer of an `ldsp` (09 R222). -/
def respondSpad (s : State) (f : Flight) (m : MemOp) : State :=
  let s := f.lanes.foldl (fun s r => setLane (writeLane s f m r.lane r.data.toNat) f.id r.lane .done) s
  endFlight s f

/-- ACCESS_RESPONSE (09 R208): a request's data returns and fills its lanes. -/
def execAccessResponse (id : Nat) (s : State) : Out :=
  match s.flight? id with
  | none => .next s
  | some f => match f.instr with
    | .ldsp x => .next (respondSpad s f (ldstOp 6 x))
    | i => match memOp? i with
      | some m => .next (if f.withdrawn then s else respond s f m)
      | none => .next s

/-! ## The tag table (10 R229-R238) -/

/-- Changes the tag entry of a line. -/
def onLine (s : State) (core n : Nat) (f : Line → Line) : State :=
  s.onCore core (fun c => { c with lines := c.lines.map (fun l => if l.num = n then f l else l) })

/-- A line becomes free. -/
def freeLine (s : State) (core n : Nat) : State :=
  s.onCore core (fun c => { c with lines := c.lines.filter (fun l => l.num ≠ n) })

/-- The code of a line state (10 R229). -/
def LineState.code : LineState → Nat
  | .free => 0 | .filling => 1 | .valid => 2 | .evicting => 3

/-- The entry word of a line for a caller's context (10 R229). -/
def lineWord (c : Core) (ctx n : Nat) : Nat :=
  if isPlain c n then 4 * 2 ^ 12
  else match lineOf c n with
    | none => 0
    | some l => if l.ctx = ctx then l.tag * 2 ^ 15 + l.st.code * 2 ^ 12 + bitNat l.dirty * 2 ^ 11 + 2 ^ 10
                else l.st.code * 2 ^ 12

/-- The pool line of a context that carries a tag. -/
def lineTagged (c : Core) (ctx tag : Nat) : Option Line := c.lines.find? (fun l => l.ctx = ctx && l.tag = tag)

/-- The tag of an address: bits [56:8]. -/
def tagBits (a : Nat) : Nat := a % 2 ^ 57 / 256

/-- `tlook` of an address (10 R234). -/
def lookAddr (c : Core) (ctx a : Nat) : Nat :=
  match c.lines.find? (fun l => l.ctx = ctx && l.tag = tagBits a && (l.st = .filling || l.st = .valid)) with
  | some l => l.num * 256 + a % 256
  | none => 0xFFFFFFFF

/-- `tlook` (10 R233, R234). -/
def effTlook (c : C) (s : State) : Eff :=
  let k := s.core c.t.core
  if c.x.bit 18 then
    if c.go then
      let n := (c.sc64 s c.x.a).toNat
      if 1536 ≤ n then .trap s (c.trap 0x05 0x0701) else .done (c.putS s (BitVec.ofNat 64 (lineWord k c.t.ctx n)))
    else .done s
  else
    let m := { ldstOp 0 c.x with scalar := c.x.bit 17, al := true, acq := false, scope := 0 }
    let as := (c.served m).map (fun l => (l, c.ea s m l))
    match c.addrCheck m 1 as with
    | some tr => .trap s tr
    | none =>
      if m.scalar then (match as with
        | [] => .done s
        | x :: _ => .done (c.putS s (BitVec.ofNat 64 (lookAddr k c.t.ctx x.2))))
      else .done (c.putV s false (c.t.laneIxs.map (fun l =>
        if c.act.getD l false then lookAddr k c.t.ctx (c.ea s m l) else 0)) c.tag)

/-- The latch that C names, with the kernel (10 R233). -/
def C.latchC (c : C) : Option (Nat × Nat) :=
  if c.x.c.cls = .obj then some (c.t.launch, c.x.c.code.toNat) else none

/-- The checks of 10 R235 on a line: within the pool, and not another context's. -/
def lineBad (c : Core) (ctx n : Nat) : Bool :=
  1536 ≤ n || isPlain c n || (match lineOf c n with
    | some l => l.ctx ≠ ctx
    | none => false)

/-- The base with the offset of a spad instruction (10 R235). -/
def C.spadEa (c : C) (s : State) : Nat := patN 64 ((c.base s : Int) + sextN 14 (c.x.f 13 0))

/-- `tfill` and `tset` (10 R235). The address of a fill is checked first, as that of every data access (09 R193). -/
def effClaim (fill : Bool) (c : C) (s : State) : Eff :=
  let ea := c.spadEa s
  let n := (c.sc64 s c.x.b).toNat
  let k := s.core c.t.core
  if fill && !canonical ea then .trap s (c.trapAt 0x06 0x0401 ea [])
  else if ea % 256 ≠ 0 then .trap s (c.trapAt 0x04 0x0101 ea [])
  else if lineBad k c.t.ctx n then .trap s (c.trap 0x05 0x0701)
  else match lineTagged k c.t.ctx (tagBits ea) with
    | some l => .done (c.putS s (BitVec.ofNat 64 (1 + l.num * 2 ^ 16)))
    | none =>
      if (lineOf k n).isSome then .done (c.putS s (BitVec.ofNat 64 (2 + n * 2 ^ 16)))
      else
        let l : Line := { num := n, tag := tagBits ea, st := if fill then .filling else .valid, dirty := !fill,
                          ctx := c.t.ctx, latch := if fill then c.latchC else none, team := c.t.uid, seq := s.stepNo }
        let s := s.onCore c.t.core (fun k => { k with lines := l :: k.lines })
        let s := c.putS s (BitVec.ofNat 64 (n * 2 ^ 16))
        .done (if fill then s.post (.fillComplete c.t.core n) else s)

/-- A latch arrival of a transfer, if it has one. -/
def postArrival (s : State) (core : Nat) (latch : Option (Nat × Nat)) : State :=
  match latch with
  | some (launch, n) => s.post (.latchArrival core launch n 1)
  | none => s

/-- `tevict` (10 R236). -/
def effTevict (c : C) (s : State) : Eff :=
  let n := (c.sc64 s c.x.a).toNat
  let k := s.core c.t.core
  let say (s : State) (x : Nat) : State := c.putS s (BitVec.ofNat 64 (x + n * 2 ^ 16))
  if lineBad k c.t.ctx n then .trap s (c.trap 0x05 0x0701)
  else match lineOf k n with
    | none => .done (say s 3)
    | some l =>
      if l.st = .filling || l.st = .evicting then .done (say s 2)
      else if c.x.bit 0 && l.dirty then
        .done ((say (onLine s c.t.core n (fun l =>
          { l with st := .evicting, latch := c.latchC, team := c.t.uid, seq := s.stepNo })) 0).post
          (.writebackComplete c.t.core n))
      else .done (postArrival (say (freeLine s c.t.core n) 0) c.t.core c.latchC)

/-- Whether a line's memory image meets the whole 256-byte lines of a range (10 R237). -/
def lineIn (l : Line) (a n : Nat) : Bool :=
  n ≠ 0 && a % 2 ^ 57 / 256 ≤ l.tag && l.tag ≤ (a % 2 ^ 57 + (n - 1)) / 256

/-- `tinv` (10 R237): it waits while a line of the range fills. -/
def effTinv (c : C) (s : State) : Eff :=
  let a := c.base s
  let n := (c.sc64 s c.x.b).toNat
  let k := s.core c.t.core
  let hit := k.lines.filter (fun l => l.ctx = c.t.ctx && lineIn l a n)
  if hit.any (fun l => l.st = .filling) then .wait s
  else
    let gone := (hit.filter (fun l => l.st = .valid)).map (fun l => l.num)
    .done (c.putS (s.onCore c.t.core (fun k => { k with lines := k.lines.filter (fun l => !gone.contains l.num) }))
      (BitVec.ofNat 64 gone.length))

/-- TLOOK (10 R234). -/
def execTlook (x : Ext) (s : State) : Out := issueExt (.tlook x) 0x4D 0 x effTlook s
/-- TFILL (10 R235). -/
def execTfill (x : Ext) (s : State) : Out := issueExt (.tfill x) 0x4D 1 x (onGo (effClaim true)) s
/-- TEVICT (10 R236). -/
def execTevict (x : Ext) (s : State) : Out := issueExt (.tevict x) 0x4D 2 x (onGo effTevict) s
/-- TSET (10 R235). -/
def execTset (x : Ext) (s : State) : Out := issueExt (.tset x) 0x4D 3 x (onGo (effClaim false)) s
/-- TINV (10 R237). -/
def execTinv (x : Ext) (s : State) : Out := issueExt (.tinv x) 0x4D 4 x (onGo effTinv) s

/-! ## The ends of transfers (R230, R238) -/

/-- An imprecise trap of an engine's transfer. -/
def engineTrap (code sub va : Nat) (lanes : List Nat) : Trap :=
  { trapHere 0 0 code sub with addr := BitVec.ofNat 64 va, lanes := lanes, imprecise := true }

/-- The address of a tag, extended from bit 56. -/
def tagAddr (tag : Nat) : Nat := patN 64 (sextN 57 (tag * 256))

/-- The transfer of a line has ended: its arrival is made, and what waited for it waits no longer. -/
def lineDone (s : State) (core : Nat) (l : Line) : State :=
  clearWait (postArrival s core l.latch) (lineKey core l.num)

/-- FILL_FAILURE (10 R230, R238): the line becomes free, its arrival is made, and the issuer gets an imprecise trap;
`cause` is the trap code × 256 + the cause of R201. -/
def execFillFailure (core n cause : Nat) (s : State) : Out :=
  match lineOf (s.core core) n with
  | none => .next s
  | some l =>
    if l.st ≠ .filling then .next s
    else
      let s := lineDone (freeLine s core n) core l
      .next (addPending s l.team (engineTrap (cause / 256) (cause % 256 * 256 + 1) (tagAddr l.tag) []))

/-- WRITEBACK_FAILURE (10 R230, R238). -/
def execWritebackFailure (core n cause : Nat) (s : State) : Out :=
  match lineOf (s.core core) n with
  | none => .next s
  | some l =>
    if l.st ≠ .evicting then .next s
    else
      let s := lineDone (onLine s core n (fun l => { l with st := .valid, dirty := true })) core l
      .next (addPending s l.team (engineTrap (cause / 256) (cause % 256 * 256 + 1) (tagAddr l.tag) []))

end Sys2Proof.Machine
end

