-- ==== Sys2Proof/Machine/Access.lean ====
section
/-!
DEFINITION. The events of translations, replayable faults, buffered writes and shootdowns (09 R200-R206, R213-R217,
R227, 11 R258, R276-R278).
-/

namespace Sys2Proof.Machine

/-! ## Translation and faults -/

/-- Looks up the pages of one untranslated lane of a memory flight (09 R202, R203). A fault's request is that of the lane's pass
and 2 KB block (R207). -/
def walkLane (s : State) (t : Team) (f : Flight) (m : MemOp) (r : LaneReq) : State :=
  let va := r.addr.toNat
  let s := tlbFill (tlbFill s t.core t.ctx va) t.core t.ctx ((va + (m.size - 1)) % 2 ^ 64)
  match laneTr s t.core t.ctx m va with
  | .faulted =>
    let at_ := failVA s t.core t.ctx m.access va m.size
    let q : FaultReq := { die := dieOf t.core, ctx := t.ctx, blk := at_ % 2 ^ 57 / 2048, path := m.path, flight := f.id,
                          retry := .translationWalk f.id, pass := r.lane / 32, sectors := sectorCount f m (r.lane / 32) at_ }
    if faultsFull s (dieOf t.core) && !s.faults.contains q then addFault s t.core q
    else addFault (setLane s f.id r.lane .faulted) t.core q
  | .ready segs =>
    let s := if m.kind = .atomic || m.kind = .red
      then (segKeys segs).foldl (fun s k => l1DropLine s t.core k) s else s
    setLane s f.id r.lane (.ready segs)
  | st => setLane s f.id r.lane st

/-- TRANSLATION_WALK (09 R202, R203): the lanes of a flight that are not translated are looked up; absent pages enter
the fault buffer, and their team parks. -/
def execTranslationWalk (id : Nat) (s : State) : Out :=
  match s.flight? id with
  | none => .next s
  | some f =>
    match memOp? f.instr, s.team? f.team with
    | some m, some t =>
      if f.withdrawn then .next s
      else
        let s := (f.lanes.filter (fun l => l.st = .todo)).foldl (fun s r => walkLane s t f m r) s
        match s.flight? id with
        | none => .next s
        | some g =>
          let s := if g.lanes.any (fun l => l.st = .faulted)
            then parkFault s t.uid else s
          let s := if g.lanes.any (fun l => l.st = .todo) then s.postOnce (.translationWalk id) else s
          let s := if g.hasReady || g.over then s.postOnce (.accessResponse id) else s
          .next (settle s t.uid)
    | _, _ => .next s

/-- The lanes of a flight that wait in the fault buffer are to be looked up again. -/
def rewalk (s : State) (id : Nat) : State :=
  { s with flights := s.flights.map (fun f => if f.id = id
      then { f with lanes := f.lanes.map (fun l => if l.st = .faulted then { l with st := .todo } else l) }
      else f) }

/-- Whether a 2 KB block lies in the page of an address, of a size. -/
def blkIn (blk va size : Nat) : Bool := blk * 2048 / size = va % 2 ^ 57 / size

/-- Replays requests: their lanes are looked up again, and their events are posted. -/
def replay (s : State) (qs : List FaultReq) : State :=
  qs.foldl (fun s q => (if q.flight = 0 then s else rewalk s q.flight).postOnce q.retry) s

/-- An entry that firmware writes over an old one (09 R195): it may clear x and keep it, and cannot set it. -/
def fwPte (old : Nat) (pte : Word64) : Word64 := if old.testBit 3 then pte else pte &&& ~~~(8#64)

/-- Firmware writes a page-table entry at a physical address; no memory stands beyond the HBM (00 R7, log 65). -/
def writePte (s : State) (pa : Nat) (pte : Word64) : State :=
  if !inHbm pa 8 then s
  else s.apply (cellsAt (physKey 0 pa) (leBytes 8 (fwPte (s.mem.num (physKey 0 pa) 8) pte).toNat))

/-- Whether a request on a page is of a die whose firmware is being updated: its fault services wait (20 R448). -/
def serviceWaits (s : State) (ctx va size : Nat) : Bool :=
  s.faults.any (fun q => q.ctx = ctx && blkIn q.blk va size && s.hub.updating.contains q.die)

/-- FAULT_SERVICED (09 R203): firmware writes the entry, and the requests on its page are translated again. It fills an entry that
is not valid; a valid one changes with a shootdown only (R200). -/
def execFaultServiced (ctx : Nat) (va : Word64) (pteAddr : Nat) (pte : Word64) (s : State) : Out :=
  if serviceWaits s ctx va.toNat 65536 then .next (s.postOnce (.faultServiced ctx va pteAddr pte)) else
  let s := if pteBit (BitVec.ofNat 64 (s.mem.num (physKey 0 pteAddr) 8)) 0 then s else writePte s pteAddr pte
  match walk s ctx va.toNat with
  | .absent _ => .next s
  | w =>
    let size := match w with
      | .leaf _ n => n
      | _ => 65536
    let hit (q : FaultReq) : Bool := q.ctx = ctx && blkIn q.blk va.toNat size
    let qs := s.faults.filter hit
    .next (replay (dropFaults s hit) qs)

/-- The waiting lanes of a declined request of a memory flight fail with `page`, cause 0x01 (09 R205), or with `undofull` 0x0002
where the page was to hold a record of the undo log (14 R325). -/
def declineLanes (s : State) (f : Flight) (m : MemOp) (t : Team) (va : Nat) (q : FaultReq) : State :=
  f.lanes.foldl (fun s r =>
    if r.st ≠ .faulted then s
    else match q.undo with
      | some l => if r.lane = l then setLane s f.id r.lane (.failed 0x08 2 r.addr.toNat) else s
      | none =>
        let at_ := failVA s t.core t.ctx m.access r.addr.toNat m.size
        if blkIn (at_ % 2 ^ 57 / 2048) va 65536 then setLane s f.id r.lane (.failed 0x06 (0x0100 + m.path) at_) else s) s

/-- A request that firmware declines. -/
def declineReq (s : State) (va : Nat) (q : FaultReq) : State :=
  match (if q.flight = 0 then none else s.flight? q.flight) with
  | some f => match memOp? f.instr, s.team? f.team with
    | some m, some t =>
      let s := declineLanes s f m t va q
      settle (s.postOnce (.accessResponse f.id)) t.uid
    | _, _ => ({ rewalk s f.id with declined := s.declined ++ [q.retry] }).postOnce q.retry
  | none => ({ s with declined := s.declined ++ [q.retry] }).postOnce q.retry

/-- FAULT_DECLINED (09 R205): firmware declines the fault on a 64 KB page. -/
def execFaultDeclined (ctx : Nat) (va : Word64) (s : State) : Out :=
  if serviceWaits s ctx va.toNat 65536 then .next (s.postOnce (.faultDeclined ctx va)) else
  let hit (q : FaultReq) : Bool := q.ctx = ctx && blkIn q.blk va.toNat 65536
  let qs := s.faults.filter hit
  .next (qs.foldl (fun s q => declineReq s va.toNat q) (dropFaults s hit))

/-! ## Writes -/

/-- The offsets of the bytes of a write from its virtual address: a frame's in order (`op` 0), and those of a lane by the place in
their page, since a page is 64 KB at least and a lane may leave bytes to a later one. -/
def BufWrite.offs (w : BufWrite) : List Nat :=
  if w.op = 0 then List.range w.cells.length
  else w.cells.map (fun c => (c.1 + 65536 - w.va.toNat % 65536) % 65536)

/-- The bytes from the first to the last that a write may reach. -/
def BufWrite.span (w : BufWrite) : Nat := (w.offs.foldl max 0) + 1

/-- Whether the tier that some byte of a write goes to is out of reach (09 R199, R201, cause 0x05). -/
def BufWrite.cut (s : State) (w : BufWrite) : Bool :=
  (w.cells.zip w.offs).any (fun x =>
    let ext := match leafFor s w.core w.ctx ((w.va.toNat + x.2) % 2 ^ 64) with
      | some e => pteExt e
      | none => 0
    !tierUp s (tierOf x.1.1) ext)

/-- A write is performed, or posted again while one that enters co before it stands at a gate or its line is being moved. A tier
that is down fails it (09 R206). -/
def tryWrite (s : State) (w : BufWrite) (again : Ev) : State :=
  if w.cut s then s.postOnce (.storeFailure w.id 5)
  else if w.cells.any (fun c => lineMoves s c.1) then s.postOnce again
  else
    let r := performWrite s w
    if r.2 then r.1 else r.1.postOnce again

/-- WRITE_PERFORMED (11 R258). -/
def execWritePerformed (id : Nat) (s : State) : Out :=
  match s.write? id with
  | none => .next s
  | some w => .next (if w.waits.isEmpty && w.red.isNone then tryWrite s w (.writePerformed id) else s)

/-- RELEASE_GATE_OPEN (11 R276): nothing that the release counts is left, and it is applied. -/
def execReleaseGateOpen (id : Nat) (s : State) : Out :=
  match s.write? id with
  | none => .next s
  | some w => .next (if w.waits.isEmpty && w.release.isSome then tryWrite s w (.releaseGateOpen id) else s)

/-- The new bits of a `red` target (09 R227): element by element. -/
def redNew (op : Nat) (ty : Ty) (old d : Nat) : Nat :=
  packElems (ty.width / ty.elems) ((List.range ty.elems).map (fun j =>
    atomNew op ty.elem (elemAt ty old j) (elemAt ty d j) 0))

/-- An arrival of a `red` is combined with the stored value at the base die, after the home slice's copy of the line has left the
memory-side cache (09 R213, R227). -/
def combineWrite (s : State) (w : BufWrite) (op : Nat) (ty : Ty) (d : Word64) : State :=
  let keys := w.cells.map (fun c => c.1)
  let old := leNat (keys.map (fun k => s.mem.get k))
  let s := keys.foldl sliceDrop (s.apply (keys.zip (leBytes (ty.width / 8) (redNew op ty old d.toNat))))
  clearWait { s with writes := s.writes.filter (fun v => v.id ≠ w.id) } w.id

/-- RED_COMBINE (09 R213, R227): an arrival is combined with the stored value at the base die. -/
def execRedCombine (id : Nat) (s : State) : Out :=
  match s.write? id with
  | none => .next s
  | some w => match w.red with
    | none => .next s
    | some (op, ty, d) =>
      if w.cells.any (fun c => lineMoves s c.1) || !(priorWrites s w).isEmpty then .next (s.postOnce (.redCombine id))
      else .next (combineWrite s w op ty d)

/-- The access that a write is. -/
def BufWrite.access (w : BufWrite) : Access := if w.red.isSome then .red else .write

/-- A write fails for good (09 R206): it has no effect, not in its core's L1 either, releases that count it are withdrawn (11 R278),
and an imprecise trap becomes pending: `page` with the cause, or the trap of code `cause` / 256 with cause `cause` mod 256, at the
lowest address that fails (R201). A frame that cannot be written leaves its trap unhandled (19 R428). -/
def storeFails (s : State) (w : BufWrite) (cause : Nat) : State :=
  let low := failVA s w.core w.ctx w.access w.va.toNat w.span
  let s := withdrawFor s w.team w.id
  let s := clearWait { s with writes := s.writes.filter (fun v => v.id ≠ w.id) } w.id
  let s := w.cells.foldl (fun s c => l1DropLine s w.core c.1) s
  match w.frame with
  | some code => match s.team? w.team with
    | some t => unhandled s { t with handler := false } code
    | none => s
  | none => addPending s w.team
    { trapHere w.pc w.npc (if cause < 256 then 0x06 else cause / 256) (cause % 256 * 256 + w.path) with
      addr := BitVec.ofNat 64 low, lanes := [w.lane], imprecise := true, op := w.op }

/-- STORE_FAILURE (09 R206). -/
def execStoreFailure (id cause : Nat) (s : State) : Out :=
  match s.write? id with
  | none => .next s
  | some w => .next (storeFails s w cause)

/-! ## Shootdowns (09 R200, R216) -/

/-- Whether n bytes at va meet a range, over 57 bits. -/
def inRange (va n base len : Nat) : Bool :=
  let a := va % 2 ^ 57
  let b := base % 2 ^ 57
  a < b + len && b < a + n

/-- SHOOTDOWN (09 R200): firmware writes the entries (physical address and value) that change, for a context and an
address range. -/
def execShootdown (ctx : Nat) (va : Word64) (len : Nat) (ptes : List (Nat × Word64)) (s : State) : Out :=
  let s := ptes.foldl (fun s p => writePte s p.1 p.2) s
  let s := s.onHub (fun h => { h with shoots := h.shoots ++ [(ctx, va.toNat, len)] })
  .next (s.post (.shootdownComplete ctx va len))

/-- The translated lanes of a memory flight in a range are to be looked up again. -/
def retranslate (s : State) (ctx va len : Nat) : State :=
  s.flights.foldl (fun s f =>
    match memOp? f.instr, s.team? f.team with
    | some m, some t =>
      let hit (l : LaneReq) : Bool := (match l.st with
        | .ready _ => true
        | _ => false) && inRange l.addr.toNat m.size va len
      if t.ctx = ctx && f.lanes.any hit then
        (s.setFlight { f with lanes := f.lanes.map (fun l => if hit l then { l with st := .todo } else l) }).postOnce
          (.translationWalk f.id)
      else s
    | _, _ => s) s

/-- The writes of an instruction that stand at their gate become its unfinished lanes again, still counting what they wait for. -/
def unissue (s : State) (w : BufWrite) : State :=
  match w.instr with
  | none => s
  | some i =>
    let mine (v : BufWrite) : Bool := v.team = w.team && v.op = w.op && v.path = w.path && !v.waits.isEmpty
    let ws := s.writes.filter mine
    let f : Flight :=
      { id := w.id, team := w.team, pc := w.pc, npc := w.npc, instr := i, dvec := false, dst := 0, dnum := 0,
        lanes := ws.map (fun v => { lane := v.lane, addr := v.va, data := v.data, st := .todo }),
        snap := [], aux := [0], again := false, gate := false, waits := w.waits }
    let s := { s with writes := s.writes.filter (fun v => !mine v) }
    (insertFlight s f).postOnce (.translationWalk w.id)

/-- A buffered write whose page was shot down: it goes to the new page, fails for good, or, where the page is absent now, is
performed at the old one before the shootdown completes; a release at its gate is to be translated again. -/
def rehome (s : State) (id : Nat) : State :=
  match s.write? id with
  | none => s
  | some w =>
    match piecesOf s w.core w.ctx w.access w.va.toNat w.span with
    | .ok segs =>
      let keys := segKeys segs
      let cells := (w.cells.zip w.offs).map (fun x => (keys.getD x.2 x.1.1, x.1.2))
      { s with writes := s.writes.map (fun v => if v.id = w.id then { v with cells := cells } else v) }
    | .error (.fail code cause) => storeFails s w (code * 256 + cause)
    | .error _ => match w.red with
      | some (op, ty, d) => combineWrite s w op ty d
      | none => if w.waits.isEmpty then (performWrite s w).1 else unissue s w

/-- After a shootdown of a range no core holds an old translation, and no access uses one any more (09 R200). -/
def shootRange (s : State) (ctx va len : Nat) : State :=
  let s := { s with cores := s.cores.map (fun c => { c with
    tlb := c.tlb.filter (fun e => !(e.ctx = ctx && inRange e.va e.size va len)) }) }
  let s := retranslate s ctx va len
  let hit (w : BufWrite) : Bool := w.ctx = ctx && inRange w.va.toNat w.span va len
  let ws := s.writes.filter hit
  ((ws.filter (fun w => !w.waits.isEmpty)) ++ ws.filter (fun w => w.waits.isEmpty)).foldl (fun s w => rehome s w.id) s

/-- SHOOTDOWN_COMPLETE (09 R200): every core drops the old translations, and nothing uses them any more. -/
def execShootdownComplete (ctx : Nat) (va : Word64) (len : Nat) (s : State) : Out :=
  let s := shootRange s ctx va.toNat len
  let s := s.onHub (fun h => { h with shoots := h.shoots.erase (ctx, va.toNat, len) })
  .next ((s.hub.extents.filter (fun e => e.held)).foldl (fun s e => s.postOnce (.extentReleaseDone e.num)) s)

/-- Buffered writes to a tier that is out of reach fail for good (09 R201, cause 0x05; R206). -/
def failTier (s : State) : State :=
  (s.writes.filter (fun w => w.cut s)).foldl
    (fun s w => s.postOnce (.storeFailure w.id 5)) s

/-- PCIE_LINK_DOWN (09 R201): the host tier is out of reach. -/
def execPcieLinkDown (s : State) : Out := .next (failTier (s.onHub (fun h => { h with pcieUp := false })))

/-- PALYR_PEER_ACCESS (09 R215): a peer's access is performed at this device's home slice; what a read or atomic
returns leaves the device. No memory stands beyond the HBM (00 R7, log 65). -/
def execPalyrPeerAccess (access : PeerAccess) (s : State) : Out :=
  match access with
  | .read _ _ => .next s
  | .write pa data => .next (if inHbm pa data.length then s.apply (cellsAt (physKey 0 pa) data) else s)
  | .atomic pa op ty data cmp =>
    let n := ty.width / 8
    let old := s.mem.num (physKey 0 pa) n
    .next (if inHbm pa n then s.apply (cellsAt (physKey 0 pa) (leBytes n (atomNew op ty old data.toNat cmp.toNat))) else s)

end Sys2Proof.Machine
end

