-- ==== Sys2Proof/Machine/Fence.lean ====
section
/-!
DEFINITION. Group fence: `fence`, `xfence` and `mwait`, with the events that end their waits, and the heartbeat
(11 R270-R275, R280, R281).
-/

namespace Sys2Proof.Machine

/-! ## What a fence waits for -/

/-- The path classes on which an instruction makes accesses, as mask bits. -/
def instrPaths (i : Instr) : Nat :=
  match i.form with
  | .ext opc sub _ => pathBits opc sub
  | .one opc _ => if 0x18 ≤ opc && opc ≤ 0x1B then 1 else 0
  | .event => 0

/-- The writes, flights and engine transfers of a team on the paths of a mask that are not performed at a scope
(11 R258, R272). A write on `ls` that stands at its gate is performed at no scope; one on its way is performed at scope `core` for
the core's loads only: accesses of an engine, on the paths `dst` beside `ls`, read its home slice, and wait for it, and for the
writes of other teams that the core's loads can have read (R265, log 10). -/
def pathWaits (s : State) (t : Team) (mask dst scope : Nat) : List Nat :=
  ((s.flightsOf t.uid).filter (fun f => instrPaths f.instr &&& mask ≠ 0)).map (fun f => f.id) ++
  ((s.writes.filter (fun w =>
    (w.team = t.uid && 2 ^ w.path &&& mask ≠ 0 && (w.path ≠ 0 || 2 ≤ scope || 2 ≤ dst || !w.waits.isEmpty)) ||
    (mask.testBit 0 && (2 ≤ scope || 2 ≤ dst) && w.seenBy t.core))).map (fun w => w.id)) ++
  (if mask.testBit 1 then
    (((s.core t.core).copies.filter (fun k => k.team = t.uid)).map (fun k => copyKey t.core k.id)) ++
    (((s.core t.core).lines.filter (fun l => l.team = t.uid && (l.st = .filling || l.st = .evicting))).map
      (fun l => lineKey t.core l.num)) else []) ++
  (if mask.testBit 6 then
    ((s.passes.filter (fun p => p.opener = t.uid && p.closing)).map (fun p => passKey p.die p.id)) else [])

/-- The reads of a team on `ls` that are not bound. -/
def readWaits (s : State) (u : Nat) : List Nat :=
  ((lsFlights s u).filter (fun f => match memOp? f.instr with
    | some m => m.kind ≠ .store
    | none => false)).map (fun f => f.id)

/-- Every instruction, for a fence that holds more than accesses. -/
def holdAll : Nat := 256

/-- Whether a hold has ended: nothing is left to wait for, and its heartbeat has come (11 R274). -/
def Hold.over (h : Hold) (beat : Nat) : Bool :=
  h.waits.isEmpty && (!(h.sc && 4 ≤ h.scope) || (match h.heart with
    | some n => n ≤ beat
    | none => false))

/-- The caches that a hold drops (11 R272, R273, 18 R409): an acquire the L1 and the sampler's, an `xfence` those of the paths it
names. -/
def Hold.drops (h : Hold) (s : State) (core : Nat) : State :=
  let s := if h.dropL1 then l1Drop s core else s
  if (h.dropL1 && h.paths = holdAll) || h.paths.testBit 5 then texDrop s core else s

/-- The holds of a team after a change: a `.sc` fence of scope `fab` or `sys` that has drained reads the heartbeat
counter and waits for the next tick (11 R274); a hold that has ended goes, and drops the L1 when it must (R272,
R273). -/
def advanceHolds (s : State) (u : Nat) : State :=
  match s.team? u with
  | none => s
  | some t =>
    let beat := s.beat.toNat
    let hs := t.holds.map (fun h =>
      if h.waits.isEmpty && h.sc && 4 ≤ h.scope && h.heart.isNone then { h with heart := some (beat + 1) } else h)
    let s := (hs.filter (fun h => h.over beat)).foldl (fun s h => h.drops s t.core) s
    let s := if hs.any (fun h => h.heart.isSome && !h.over beat) then s.postOnce .heartbeatTick else s
    s.onTeam u (fun t => { t with holds := hs.filter (fun h => !h.over beat) })

/-- Adds a hold. -/
def addHold (s : State) (u : Nat) (h : Hold) : State := s.onTeam u (fun t => { t with holds := t.holds ++ [h] })

/-- `fence` (11 R271, R273, R274). A fence of scope `team` waits for nothing and orders what the team accesses before and after
it. -/
def effFence (c : C) (s : State) : Eff :=
  let sem := c.x.f 1 0
  let scope := c.x.f 4 2
  if scope = 0 then .done (s.onTeam c.t.uid (fun t => { t with ordAt := s.nextId }))
  else
    let u := c.t.uid
    let h : Hold := { waits := [], paths := holdAll, writesOnly := false, scope := scope, sc := false, dropL1 := false,
                      heart := none, op := s.nextId, pc := c.t.pc, npc := c.npc, instr := c.i }
    let s := { s with nextId := s.nextId + 1 }
    let acq := { h with waits := readWaits s u, dropL1 := decide (2 ≤ scope) }
    let rel := { h with waits := lsWaits s u scope, paths := 1, writesOnly := true }
    let s := match sem with
      | 0 => addHold s u acq
      | 1 => addHold s u rel
      | 2 => addHold (addHold s u acq) u rel
      | _ => addHold s u { acq with waits := lsWaits s u scope, sc := true }
    .done (advanceHolds s u)

/-- `xfence` (11 R272). -/
def effXfence (c : C) (s : State) : Eff :=
  let dst := c.x.f 15 8
  let s := if dst.testBit 0 then l1Drop s c.t.core else s
  let s := if dst.testBit 5 then texDrop s c.t.core else s
  let h : Hold := { waits := pathWaits s c.t (c.x.f 7 0) dst (c.x.f 18 16), paths := dst, writesOnly := false,
                    scope := c.x.f 18 16, sc := false, dropL1 := dst.testBit 0, heart := none, op := s.nextId,
                    pc := c.t.pc, npc := c.npc, instr := c.i }
  let s := { s with nextId := s.nextId + 1 }
  .done (advanceHolds (addHold s c.t.uid h) c.t.uid)

/-- FENCE (11 R271). -/
def execFence (x : Ext) (s : State) : Out := issueExt (.fence x) 0x4C 0 x (onGo effFence) s
/-- XFENCE (11 R272). -/
def execXfence (x : Ext) (s : State) : Out := issueExt (.xfence x) 0x4C 1 x (onGo effXfence) s

/-- FENCE_COMPLETE (11 R271, R272). -/
def execFenceComplete (u : Nat) (s : State) : Out := .next (advanceHolds s u)

/-- HEARTBEAT_TICK (11 R274): the counter of the domain ticks. -/
def execHeartbeatTick (s : State) : Out :=
  let s := { s with beat := s.beat + 1 }
  .next ((s.teams.filter (fun t => t.holds.any (fun h => h.heart.isSome))).foldl (fun s t => advanceHolds s t.uid) s)

/-! ## `mwait` -/

/-- `mwait` (11 R280): the checks of R220, then a read that goes on until the location leaves the value. -/
def effMwait (c : C) (s : State) : Eff :=
  let m := mwaitOp c.x
  let as := (c.served m).map (fun l => (l, c.ea s m l))
  if as.isEmpty then .done s
  else match c.addrCheck m m.size as with
    | some tr => .trap s tr
    | none =>
      if !(as.all (fun x => cached s c.t.core c.t.ctx x.2 m.size)) && outstandingCap ≤ outstanding s c.t.uid then .wait s
      else
        let t := c.opnd s c.x.c 32 0
        let due := if t = 0xFFFFFFFF then 0 else s.clk.toNat + t + 1
        let id := s.nextId
        let s := startMem m c s as []
        .done ({ s with flights := s.flights.map (fun f => if f.id = id
          then { f with aux := [0, due, 0], gate := true } else f) })

/-- MWAIT (11 R280). -/
def execMwait (x : Ext) (s : State) : Out := issueExt (.mwait x) 0x4C 2 x effMwait s

/-- The flight of a team parked in `mwait`. -/
def mwaitFlight (t : Team) : Option Nat :=
  if t.run = .parked .mwait then t.aux[2]? else none

/-- A parked `mwait` reads its location again. -/
def mwaitRead (s : State) (u : Nat) : State :=
  match (s.team? u).bind mwaitFlight with
  | none => s
  | some id => s.postOnce (.accessResponse id)

/-- MWAIT_WAKE (11 R280): a write to the location was applied. -/
def execMwaitWake (u : Nat) (s : State) : Out := .next (mwaitRead s u)

/-- MWAIT_TIMEOUT (11 R280): the cycles named have passed since issue. -/
def execMwaitTimeout (u : Nat) (s : State) : Out :=
  .next (match s.team? u with
    | none => s
    | some t =>
      if (mwaitFlight t).isSome && t.aux.getD 3 0 ≠ 0 && t.aux.getD 3 0 ≤ s.clk.toNat + 1 then
        mwaitRead (s.onTeam u (fun t => { t with mwEnd := .timeout })) u
      else s)

/-- MWAIT_REPOLL (11 R280): a location that no home slice watches is read again. -/
def execMwaitRepoll (u : Nat) (s : State) : Out := .next (mwaitRead s u)

end Sys2Proof.Machine
end

