-- ==== Sys2Proof/Machine/Sets.lean ====
section
/-!
DEFINITION. Atomic sets: acquisition at the hasp tables (14 R316-R322), the marking of wounds (R328), the release
of a task's entries (R327), and group aset (R332, R333).
-/

namespace Sys2Proof.Machine

/-! ## Hasp tables (R316-R318) -/

/-- The entries that a hasp table holds (R318). -/
def haspCap : Nat := 4096

/-- The granted entries of a slice. -/
def haspHeld (s : State) (slice : Nat) : List Hasp := s.hasps.filter (fun h => h.slice = slice && h.granted)

/-- The 64-byte lines, as key / 64, of a range's pieces. -/
def lineKeys (segs : List Seg) : List Nat :=
  segs.flatMap (fun g => (List.range ((g.len + 63) / 64)).map (fun i => g.key / 64 + i))

/-- The lines of a range that a slice homes. -/
def linesHomed (s : State) (ls : List Nat) (slice : Nat) : List Nat :=
  ls.filter (fun l => homeSlice s (l * 64) = slice)

/-- The slices that home lines of a range, in ascending order (R316). -/
def slicesOf (s : State) (ls : List Nat) : List Nat :=
  (List.range 256).filter (fun sl => ls.any (fun l => homeSlice s (l * 64) = sl))

/-- The registers that a discarded replay queue would have filled become full as they are (14 R329). -/
def Team.fillRdst (t : Team) : Team :=
  { t.rdst.foldl (fun t r => if r.1 then t.setVFull r.2 true else t.setSFull r.2 true) t with rdst := [] }

/-- What `aux` of a team holds while its `tret` acquires a set that a replay entry touches. -/
def tretMark : Nat := 2

/-- A wound is marked at a team (R328). One that is parked in a wait named there takes it at once, and so does the undo
engine for a saved team (R330); one in a handler keeps it until `tret`, which begins again where it acquires a set. -/
def markWound (s : State) (u : Nat) : State :=
  match s.team? u with
  | none => s
  | some t =>
    if t.task.isNone || t.run = .parked .apply then s
    else
      let s := s.onTeam u (fun t => { t with wound := true })
      if t.handler then s.onTeam u (fun t => if t.run = .parked .setWait && t.aux = [tretMark] then { t with run := .running } else t)
      else match t.run with
        | .parked .setWait | .parked .ltwait | .parked .yield | .parked .mwait | .parked .pnwait | .parked .lease
        | .parked .pintle | .parked .fault | .saved _ => s.postOnce (.woundTake u)
        | _ => s

/-- The holders at a slice, of other teams, whose lines meet a request's. -/
def haspMeets (s : State) (slice u : Nat) (ls : List Nat) : List Hasp :=
  (haspHeld s slice).filter (fun h => h.team ≠ u && h.lines.any (fun l => ls.contains l))

/-- The youngest of some holders that are younger than a stamp. -/
def youngest (age : Word64) (hs : List Hasp) : Option Hasp :=
  (hs.filter (fun h => age < h.age)).foldl (fun (b : Option Hasp) h => match b with
    | none => some h
    | some x => if x.age < h.age then some h else some x) none

/-- A request of a task is settled at a slice (R317, R318): granted, or parked with the younger holders wounded. -/
def settleHasp (s : State) (h : Hasp) : State :=
  let meets := haspMeets s h.slice h.team h.lines
  let rest := s.hasps.filter (fun x => !(x.slice = h.slice && x.team = h.team && x.slot = h.slot))
  if !meets.isEmpty then
    (meets.filter (fun x => h.age < x.age)).foldl (fun s x => markWound s x.team)
      { s with hasps := rest ++ [{ h with granted := false }] }
  else if haspCap ≤ (haspHeld s h.slice).length then
    let s := { s with hasps := rest ++ [{ h with granted := false }] }
    match youngest h.age ((haspHeld s h.slice).filter (fun x => x.team ≠ h.team)) with
    | some v => markWound s v.team
    | none => s
  else ({ s with hasps := rest ++ [{ h with granted := true }] }).post (.setRequestArrival h.team h.slot)

/-- SET_GRANT (R317): entries were released at a slice, and its wait list is settled again, oldest first. -/
def execSetGrant (slice : Nat) (s : State) : Out :=
  let wait := sortBy (fun (a b : Hasp) => a.age ≤ b.age) (s.hasps.filter (fun h => h.slice = slice && !h.granted))
  .next (wait.foldl settleHasp s)

/-- Removes the entries of a team that satisfy a test; the slices that held one settle their wait lists (R317). -/
def releaseHasps (s : State) (u : Nat) (p : Hasp → Bool) : State :=
  let gone := s.hasps.filter (fun h => h.team = u && p h)
  let s := { s with hasps := s.hasps.filter (fun h => !(h.team = u && p h)) }
  (uniq (gone.map (fun h => h.slice))).foldl (fun s sl => s.postOnce (.setGrant sl)) s

/-- Sets the state of a slot. -/
def setSlot (s : State) (u k : Nat) (st : SetState) : State :=
  s.onTeam u (fun t => { t with sets := t.sets.modify k (fun sl => { sl with st := st }) })

/-- An acquisition that fails for good: its entries are released, and the slot is declared again. A page of the host or peer tier
traps its access without effect; another failure is that of the access's lanes, which issue again and meet it (`access`, R322, 09
R205). A saved team meets the failure again when it has resumed. -/
def acquireFails (s : State) (t : Team) (k code sub va : Nat) (access : Bool) : State :=
  let s := setSlot (releaseHasps s t.uid (fun h => h.slot = k)) t.uid k .declared
  if t.run ≠ .parked .setWait then s
  else
    let s := s.onTeam t.uid (fun t => { t with
      run := .running, aux := if access then [t.pc.toNat, k, code, sub, va, 0] else [] })
    match s.team? t.uid with
    | none => s
    | some t => if access then s else fetchTrap s t code sub va

/-- The address of the first page of a range that is on the host or peer tier. -/
def farAddr : Nat → List Seg → Option Nat
  | _, [] => none
  | va, g :: l => if 2 ≤ tierOf g.key then some va else farAddr ((va + g.len) % 2 ^ 64) l

/-- SET_REQUEST_ARRIVAL (R316, R317): the next slice of a waiting slot's range settles the request, after the
wait list where entries were released; when the last has
granted, the set is acquired, which acts as an acquire of scope `dev` (R327). -/
def execSetRequestArrival (u k : Nat) (s : State) : Out :=
  match s.team? u with
  | none => .next s
  | some t => match t.sets[k]?, t.task with
    | some sl, some task =>
      if sl.st ≠ .waiting then .next s
      else
        let b := sl.base.toNat
        let n := sl.len.toNat
        match piecesOf s t.core t.ctx .read b n with
        | .error e =>
          let va := failVA s t.core t.ctx .read b n
          match meetFault s t.core t.ctx va 0 0 (.setRequestArrival u k) e with
          | .wait s => .next s
          | .fail s code cause => .next (acquireFails s t k code (cause * 256) va true)
        | .ok segs => match farAddr b segs with
          | some va => .next (acquireFails s t k 0x05 0x0813 va false)
          | none =>
            let ls := lineKeys segs
            let mine := s.hasps.filter (fun h => h.team = u && h.slot = k)
            if mine.any (fun h => !h.granted) then .next s
            else match (slicesOf s ls).find? (fun x => !mine.any (fun h => h.slice = x)) with
              | some x => .next (if s.agenda.contains (.setGrant x) then s.postOnce (.setRequestArrival u k) else settleHasp s
                  { slice := x, age := task.age, team := u, slot := k, lines := linesHomed s ls x, granted := false })
              | none =>
                let s := acqDrop (setSlot s u k .acquired) t.core
                .next (s.onTeam u (fun t => if t.run = .parked .setWait then { t with run := .running } else t))
    | _, _ => .next s

/-! ## The undo area (R323) -/

/-- The count of an undo area, or the address and translation that keep it from being read. -/
def undoRead (s : State) (t : Team) : Except (Nat × Tr) Nat :=
  if t.undol = 0 then .ok 0
  else match readNum s t.core t.ctx (t.undob.toNat + 8) 4 with
    | .ok n => .ok n
    | .error e => .error (t.undob.toNat, e)

/-- The count as `asqry` and an image show it: that of the header, 0 where it cannot be read. -/
def undoCount (s : State) (t : Team) : Nat := match undoRead s t with
  | .ok n => n
  | .error _ => 0

/-- The undo area of a team is emptied: count and age 0 (R327, R329). A header that cannot be written for good stays as it is. -/
def clearUndo (s : State) (t : Team) : Except (Nat × Tr) State :=
  if t.undol = 0 || t.task.isNone then .ok s
  else match writeVA s t.core t.ctx t.undob.toNat (leBytes 12 0) with
    | .ok s => .ok s
    | .error .absent => .error (t.undob.toNat, .absent)
    | .error _ => .ok s

/-! ## Group aset (R332, R333) -/

/-- `asdecl`. -/
def effAsdecl (c : C) (s : State) : Eff :=
  let b := (c.sc64 s c.x.a).toNat
  let n := (c.sc64 s c.x.b).toNat
  let k := c.x.d.toNat
  let st := match c.t.sets[k]? with
    | some sl => sl.st
    | none => .empty
  if c.t.task.isNone then .trap s (c.trap 0x05 0x0812)
  else if b % 64 ≠ 0 then .trap s (c.trapAt 0x04 0x0100 b [])
  else if n = 0 || n % 64 ≠ 0 || 2 ^ 20 < n then .trap s (c.trap 0x05 0x0810)
  else if !canonical b || !canonical ((b + n - 1) % 2 ^ 64) then .trap s (c.trapAt 0x06 0x0400 b [])
  else if st = .waiting || st = .acquired then .trap s (c.trap 0x05 0x0811)
  else .done (s.onTeam c.t.uid (fun t => { t with
    task := t.task.map (fun k => { k with declared := true })
    sets := t.sets.modify k (fun _ => { st := .declared, base := BitVec.ofNat 64 b, len := BitVec.ofNat 64 n }) }))

/-- The empty slot. -/
def SetSlot.zero : SetSlot := { st := .empty, base := 0, len := 0 }

/-- `asclr`. -/
def effAsclr (c : C) (s : State) : Eff :=
  let k := c.x.d.toNat
  let st := match c.t.sets[k]? with
    | some sl => sl.st
    | none => .empty
  if st = .waiting || st = .acquired then .trap s (c.trap 0x05 0x0811)
  else .done (s.onTeam c.t.uid (fun t => { t with sets := t.sets.modify k (fun _ => SetSlot.zero) }))

/-- The code of a slot state. -/
def SetState.code : SetState → Nat
  | .empty => 0 | .declared => 1 | .waiting => 2 | .acquired => 3

/-- The word that `asqry` answers for a selector (R333). -/
def asqryWord (s : State) (t : Team) (q : Nat) : Nat :=
  let sl (k : Nat) : SetSlot := t.sets.getD k SetSlot.zero
  if q < 8 then (if (sl q).st = .empty then 0 else (sl q).base.toNat % 2 ^ 57 / 64 * 64) + (sl q).st.code
  else if q < 16 then (if (sl (q - 8)).st = .empty then 0 else (sl (q - 8)).len.toNat)
  else if q = 16 then
    (match t.task with
     | some k => k.restarts * 2 ^ 32
     | none => 0) + undoCount s t
  else 0

/-- `asqry`. -/
def effAsqry (c : C) (s : State) : Eff :=
  .done (c.putS s (BitVec.ofNat 64 (asqryWord s c.t (c.sc64 s c.x.a).toNat)))

/-- What an access that the instruction itself makes meets: a wait with its team parked on the fault, to be issued
again, or a trap code and cause (09 R203, R205). -/
def C.meet (c : C) (s : State) (va path : Nat) (e : Tr) : Eff :=
  match meetFault s c.t.core c.t.ctx va path 0 (.instructionFetch c.t.uid) e with
  | .wait s => .wait (s.onTeam c.t.uid (fun t => { t with run := .parked .fault }))
  | .fail s code cause => .trap s (c.trapAt code (cause * 256 + path) va [])

/-- Copies bytes as they stand in memory (R333, step 2), after the team's own writes on their way to them. -/
def moveBytes (c : C) (s : State) (src dst n : Nat) (done : State → Eff) : Eff :=
  let t := c.t
  match piecesOf s t.core t.ctx .read src n with
  | .error e => c.meet s (failVA s t.core t.ctx .read src n) 0 e
  | .ok segs =>
    let s := applyAll s (writesOn s t.core t.uid (segKeys segs) false)
    match enginePut s t.core t.ctx dst 0 0 (.instructionFetch t.uid) (homeBytes s segs) with
    | .done s => done (l1Drop s t.core)
    | .wait s => .wait (s.onTeam t.uid (fun t => { t with run := .parked .fault }))
    | .fail s code cause va => .trap (l1Drop s t.core) (c.trapAt code (cause * 256) va [])

/-- `asundo`: the header and the records in use move to the new area. -/
def effAsundo (c : C) (s : State) : Eff :=
  let b := (c.sc64 s c.x.a).toNat
  let n := (c.sc64 s c.x.b).toNat
  if b % 64 ≠ 0 then .trap s (c.trapAt 0x04 0x0100 b [])
  else if n % 64 ≠ 0 || 2 ^ 24 < n then .trap s (c.trap 0x05 0x0814)
  else match undoRead s c.t with
    | .error (va, e) => c.meet s va 0 e
    | .ok cnt =>
      let upd (s : State) : State := s.onTeam c.t.uid (fun t => { t with
        undob := BitVec.ofNat 64 b, undol := BitVec.ofNat 64 n })
      if cnt ≠ 0 && n < 64 + 72 * cnt then .trap s (c.trap 0x05 0x0814)
      else if n = 0 then .done (upd s)
      else if c.t.undol = 0 then match writeVA s c.t.core c.t.ctx b (leBytes 64 0) with
        | .ok s => .done (upd s)
        | .error e => c.meet s b 0 e
      else moveBytes c s c.t.undob.toNat b (64 + 72 * cnt) (fun s => .done (upd s))

/-- ASDECL (R333). -/
def execAsdecl (x : Ext) (s : State) : Out := issueExt (.asdecl x) 0x52 0 x (onGo effAsdecl) s
/-- ASCLR (R333). -/
def execAsclr (x : Ext) (s : State) : Out := issueExt (.asclr x) 0x52 1 x (onGo effAsclr) s
/-- ASQRY (R333). -/
def execAsqry (x : Ext) (s : State) : Out := issueExt (.asqry x) 0x52 2 x (onGo effAsqry) s
/-- ASUNDO (R333). -/
def execAsundo (x : Ext) (s : State) : Out := issueExt (.asundo x) 0x52 3 x (onGo effAsundo) s

end Sys2Proof.Machine
end

