-- ==== Sys2Proof/Machine/Matrix.lean ====
section
/-!
DEFINITION. Leases, the pintle, the operand buffer, the matrix engine and accumulator tiles (13 R289-R312,
04 R100-R106).
-/

namespace Sys2Proof.Machine

/-! ## Leases (R289, R290) -/

/-- The holder that a team is: itself, or its hinge pair (02 R57). -/
def leaseKey (t : Team) : Nat := if t.leaf = 2 then 2 * t.uid else 2 * (t.launch * 2 ^ 32 + t.index / 2) + 1

/-- Changes the lease of a core. -/
def onLease (s : State) (core : Nat) (f : Lease → Lease) : State := s.onCore core (fun c => { c with lease := f c.lease })

/-- The teams of a holder. -/
def keyTeams (s : State) (core key : Nat) : List Team :=
  s.teams.filter (fun t => t.core = core && leaseKey t = key && t.run ≠ .done && t.run ≠ .stopped)

/-- The priority of a holder: a team's base priority, or the higher of a pair's (R289). -/
def keyPrio (s : State) (core key : Nat) : Nat := (keyTeams s core key).foldl (fun p t => max p t.prio) 0

/-- Whether a later request queues behind a queued one: by priority, or when that one was overtaken 15 times
(R289). -/
def behind (r q : LeaseReq) : Bool := decide (r.prio ≤ q.prio) || decide (15 ≤ q.passed)

/-- A request joins the queue; those it goes ahead of are overtaken once more. -/
def enqueue (r : LeaseReq) : List LeaseReq → List LeaseReq
  | [] => [r]
  | q :: l => if (q :: l).any (behind r) then q :: enqueue r l
              else r :: (q :: l).map (fun x => { x with passed := x.passed + 1 })

/-- A lease that stands free with requests in its queue is to be granted; one that is held beside a queue may expire
(R289, R290). -/
def postLease (s : State) (core : Nat) : State :=
  let l := (s.core core).lease
  if l.queue.isEmpty then s
  else if l.holder.isNone then s.postOnce (.leaseGrant core) else s.postOnce (.leaseIdleExpiry core)

/-- The lease of a core ends; its holder's relation is `lost` when asked. -/
def endLease (s : State) (core : Nat) (lost : Bool) : State :=
  postLease (onLease s core (fun l => match l.holder with
    | none => l
    | some k => { l with holder := none, count := 0, lost :=
        if lost then { key := k, count := l.count, last := l.last } :: l.lost.filter (fun x => x.key ≠ k) else l.lost })) core

/-- A team requests the lease. -/
def requestLease (s : State) (t : Team) (count last : Nat) (ml : Bool) : State :=
  let key := leaseKey t
  let r : LeaseReq := { key := key, team := t.uid, prio := keyPrio s t.core key, count := count, last := last, passed := 0,
                        isMlease := ml }
  postLease (onLease s t.core (fun l => { l with
    queue := enqueue r l.queue, lost := l.lost.filter (fun x => x.key ≠ key) })) t.core

/-- A team of the granted holder that is parked for the lease: its own `mlease` ends, and an `mma` issues again. Another leaf's
`mlease` waits for its own request. -/
def Team.granted (t : Team) (r : LeaseReq) : Team :=
  match t.aux with
  | [] => { t with run := .running }
  | pc :: _ => if r.isMlease && t.uid = r.team then { t with run := .running, aux := [], pc := BitVec.ofNat 64 pc } else t

/-- LEASE_GRANT (R289): the head of the queue holds the lease, and the waits of its teams end. -/
def execLeaseGrant (core : Nat) (s : State) : Out :=
  let l := (s.core core).lease
  match l.holder, l.queue with
  | none, r :: rest =>
    let s := onLease s core (fun l => { l with
      holder := some r.key, count := r.count, last := r.last, since := s.clk.toNat, queue := rest })
    .next (postLease { s with teams := s.teams.map (fun t =>
      if t.core = core && leaseKey t = r.key && t.run = .parked .lease then t.granted r else t) } core)
  | _, _ => .next s

/-- LEASE_IDLE_EXPIRY (R290): no issue of the holder for 4,096 cycles beside a queue ends the lease. -/
def execLeaseIdleExpiry (core : Nat) (s : State) : Out :=
  let l := (s.core core).lease
  if l.holder.isNone || l.queue.isEmpty then .next s
  else if l.since + 4096 ≤ s.clk.toNat then .next (endLease s core true)
  else .next (s.postOnce (.leaseIdleExpiry core))

/-- `mlease` (R301). -/
def effMlease (c : C) (s : State) : Eff :=
  let n := (c.sc64 s c.x.a).toNat
  let l := (s.core c.t.core).lease
  if n < 1 || 4096 < n then .trap s (c.trap 0x09 0x0002)
  else
    let s := if l.holder = some (leaseKey c.t) then onLease s c.t.core (fun l => { l with holder := none, count := 0 }) else s
    let s := requestLease s c.t n n true
    .wait (s.onTeam c.t.uid (fun t => { t with run := .parked .lease, aux := [c.npc.toNat] }))

/-- `mrelease` (R301). -/
def effMrelease (c : C) (s : State) : Eff :=
  let key := leaseKey c.t
  let s := if (s.core c.t.core).lease.holder = some key then endLease s c.t.core false else s
  .done (onLease s c.t.core (fun l => { l with lost := l.lost.filter (fun x => x.key ≠ key) }))

/-! ## The pintle (R291) -/

/-- The leaf of a pair that holds the pintle; leaf 0 from launch. -/
def pintleOf (s : State) (t : Team) : Nat :=
  match (s.core t.core).pintle.find? (fun p => p.1 = leaseKey t) with
  | some p => p.2
  | none => 0

/-- The pintle of a pair passes to a leaf, whose waits on it end: `pnwait` ends, and an `mma` issues again. -/
def passPintle (s : State) (t : Team) (leaf : Nat) : State :=
  let key := leaseKey t
  let s := s.onCore t.core (fun c => { c with pintle := (key, leaf) :: c.pintle.filter (fun p => p.1 ≠ key) })
  { s with teams := s.teams.map (fun u =>
      if u.core = t.core && leaseKey u = key && u.leaf = leaf then match u.run, u.aux with
        | .parked .pnwait, pc :: _ => { u with run := .running, pc := BitVec.ofNat 64 pc, aux := [] }
        | .parked .pintle, _ => { u with run := .running }
        | _, _ => u
      else u) }

/-- Whether an earlier `ls` store of a team is not performed at `core` scope (10 R253, 13 R291). -/
def storesOpen (s : State) (u : Nat) : Bool :=
  s.writes.any (fun w => w.team = u && w.path = 0 && !w.waits.isEmpty) ||
  (lsFlights s u).any (fun f => match memOp? f.instr with
    | some m => m.kind = .store
    | none => false)

/-- `pintle` (R301). -/
def effPintle (c : C) (s : State) : Eff :=
  if c.t.leaf = 2 then .trap s (c.trap 0x09 0x0003)
  else if pintleOf s c.t ≠ c.t.leaf then .done s
  else if storesOpen s c.t.uid then .wait s
  else .done (passPintle s c.t (1 - c.t.leaf))

/-- `pnwait` (R301). -/
def effPnwait (c : C) (s : State) : Eff :=
  if c.t.leaf = 2 then .trap s (c.trap 0x09 0x0003)
  else if pintleOf s c.t = c.t.leaf then .done s
  else .wait (s.onTeam c.t.uid (fun t => { t with run := .parked .pnwait, aux := [c.npc.toNat] }))

/-- MLEASE (R301). -/
def execMlease (x : Ext) (s : State) : Out := issueExt (.mlease x) 0x50 0 x (onGo effMlease) s
/-- MRELEASE (R301). -/
def execMrelease (x : Ext) (s : State) : Out := issueExt (.mrelease x) 0x50 1 x (onGo effMrelease) s
/-- PINTLE (R301). -/
def execPintle (x : Ext) (s : State) : Out := issueExt (.pintle x) 0x50 2 x (onGo effPintle) s
/-- PNWAIT (R301). -/
def execPnwait (x : Ext) (s : State) : Out := issueExt (.pnwait x) 0x50 3 x (onGo effPnwait) s

/-! ## Reservations (R294-R296, R302, R303) -/

/-- The valid record with a number on a core. -/
def State.rcd? (s : State) (core n : Nat) : Option Reserve := (s.core core).obres.find? (fun r => r.num = n)

/-- The header address of a team's kernel. -/
def hdrOf (s : State) (t : Team) : Word64 :=
  match s.launch? t.launch with
  | some l => l.hdrA
  | none => 0

/-- Checks 0x04 and 0x05 on a record (R299): the record, or the subcode. -/
def rcdCheck (s : State) (t : Team) (n : Nat) : Except Nat Reserve :=
  match s.rcd? t.core n with
  | none => .error (0x0400 + n)
  | some r => if r.ctx = t.ctx && r.hdr = hdrOf s t then .ok r else .error (0x0500 + n)

/-- Whether an accepted operation of the engine has still to read a byte range of the operand buffer (R298). -/
def engineReads (s : State) (core a n : Nat) : Bool :=
  let meets (r : Reserve) : Bool := decide (256 * r.base < a + n) && decide (a < 256 * (r.base + r.size))
  (s.core core).engine.any (fun m => meets m.x || meets m.y)

/-- Whether an outstanding copy writes into a record (R302). -/
def copyWrites (s : State) (core n : Nat) : Bool :=
  (s.core core).copies.any (fun k => k.desc.dkind = 2 && k.desc.dst % 16 = n)

/-- `obres` (R302). -/
def effObres (c : C) (s : State) : Eff :=
  let off := (c.sc64 s c.x.a).toNat
  let sz := (c.sc64 s c.x.b).toNat
  let d := if c.x.c.cls = .vec then 0 else (c.sc64 s c.x.c).toNat
  let n := c.x.d.toNat
  let b := s.bind c.t
  let base := b.obase + off / 256
  let scaled := c.x.ty = .e4m3 || c.x.ty = .e5m2 || c.x.ty = .e2m1
  if (s.rcd? c.t.core n).isSome then .trap s (c.trap 0x0A (0x0200 + n))
  else if off % 256 ≠ 0 || sz % 256 ≠ 0 || sz = 0 || 256 * b.osize < off + sz || d % 64 ≠ 0 || sz ≤ d
  then .trap s (c.trap 0x0A (0x0300 + n))
  else if scaled ≠ (c.x.f 3 2 ≠ 0) then .trap s (c.trap 0x0A (0x0600 + n))
  else if (s.core c.t.core).obres.any (fun r => r.base < base + sz / 256 && base < r.base + r.size)
  then .trap s (c.trap 0x0A (0x0100 + n))
  else
    let r : Reserve := { num := n, own := c.t.place, lay := c.x.f 1 0, bl := c.x.f 3 2, ty := c.x.ty.code, doff := d / 64,
                         size := sz / 256, base := base, ctx := c.t.ctx, hdr := hdrOf s c.t }
    .done (s.onCore c.t.core (fun k => { k with
      obres := r :: k.obres
      obuf := if c.x.bit 4 then k.obuf.filter (fun x => !(256 * base ≤ x.1 && x.1 < 256 * base + sz)) else k.obuf }))

/-- `obfree` (R302): it ends with OBFREE_RELEASE. -/
def effObfree (c : C) (s : State) : Eff :=
  let n := c.x.d.toNat
  match rcdCheck s c.t n with
  | .error e => .trap s (c.trap 0x0A e)
  | .ok _ =>
    .done ((c.launch s [{ lane := 0, addr := BitVec.ofNat 64 n, data := 0, st := .ready [] }] [] [0] true).post
      (.obfreeRelease c.t.core n))

/-- OBFREE_RELEASE (R302): the reads of R298 and the copies into the record are over, and it becomes invalid. -/
def execObfreeRelease (core n : Nat) (s : State) : Out :=
  match s.rcd? core n with
  | none => .next s
  | some r =>
    if engineReads s core (256 * r.base) (256 * r.size) || copyWrites s core n then .next (s.postOnce (.obfreeRelease core n))
    else
      let mine := s.flights.filter (fun f => (match f.instr with
        | .obfree x => x.d.toNat = n
        | _ => false) && (match s.team? f.team with
        | some t => t.core = core
        | none => false))
      if mine.isEmpty then .next s
      else
        let s := s.onCore core (fun k => { k with obres := k.obres.filter (fun r => r.num ≠ n) })
        .next (mine.foldl (fun s f => endFlight s f) s)

/-- The bytes of a lane of `obput` (R303). -/
def obputBytes (t : Ty) : Nat := t.width / 8

/-- `obput` (R303). -/
def effObput (c : C) (s : State) : Eff :=
  let n := c.x.d.toNat
  let lb := obputBytes c.x.ty
  let b := (c.sc64 s c.x.b).toNat
  match rcdCheck s c.t n with
  | .error e => .trap s (c.trap 0x0A e)
  | .ok r =>
    let top := match c.actives.getLast? with
      | some l => lb * (1 + l)
      | none => 0
    if c.x.ty ≠ .b32 && c.x.ty.elem.code ≠ r.ty then .trap s (c.trap 0x0A (0x0600 + n))
    else if b % lb ≠ 0 then .trap s (c.trapAt 0x04 0x0102 b [])
    else if 256 * r.size < b + top then .trap s (c.trap 0x0A (0x0300 + n))
    else if engineReads s c.t.core (256 * r.base + b) top then .wait s
    else .done (c.actives.foldl (fun s l => s.onCore c.t.core (fun k => { k with
      obuf := k.obuf.setBytes (256 * r.base + b + lb * l) (leBytes lb (c.opnd s c.x.a c.x.ty.width l)) })) s)

/-- OBRES (R302). -/
def execObres (x : Ext) (s : State) : Out := issueExt (.obres x) 0x50 4 x (onGo effObres) s
/-- OBFREE (R302). -/
def execObfree (x : Ext) (s : State) : Out := issueExt (.obfree x) 0x50 5 x (onGo effObfree) s
/-- OBPUT (R303). -/
def execObput (x : Ext) (s : State) : Out := issueExt (.obput x) 0x50 6 x (onGo effObput) s

/-! ## Operands (R296, R297, 04 R100) -/

/-- K of a pair of types (R297). -/
def pairK (a b : Ty) : Option Nat :=
  let f8 (t : Ty) : Bool := t = .e4m3 || t = .e5m2
  if (a = .f16 && b = .f16) || (a = .bf16 && b = .bf16) then some 64
  else if f8 a && f8 b then some 128
  else if (a = .i8 && (b = .i8 || b = .i4)) || (a = .i4 && b = .i8) then some 128
  else if a = .i4 && b = .i4 then some 256
  else if a = .e2m1 && (b = .e2m1 || f8 b) then some 256
  else if f8 a && b = .e2m1 then some 256
  else none

/-- The element type of a record. -/
def Reserve.elem (r : Reserve) : Ty := (Ty.ofCode r.ty).getD .b32

/-- The elements of a scale block of a record, 0 without scales (R294). -/
def Reserve.block (r : Reserve) : Nat := if r.bl = 0 then 0 else 2 ^ (r.bl + 3)

/-- The bytes of a group of the sparse form (09 R210). -/
def groupBytes (w : Nat) : Nat := 8 + 4 * w

/-- The bytes that an operand's elements take (R296). -/
def Reserve.need (r : Reserve) (k : Nat) : Nat :=
  let w := r.elem.width
  if r.lay = 2 then k * groupBytes w else 8 * k * w

/-- Whether an operand or its deltas exceed a record (R296). -/
def Reserve.exceeds (r : Reserve) (k : Nat) : Bool :=
  256 * r.size < r.need k || (r.bl ≠ 0 && 256 * r.size < 64 * r.doff + 32 * k / r.block)

/-- Element i of packed elements of w bits at a byte address. -/
def elemBits (m : Memory) (base w i : Nat) : Nat :=
  if w = 16 then (m.get (base + 2 * i)).toNat + 256 * (m.get (base + 2 * i + 1)).toNat
  else if w = 8 then (m.get (base + i)).toNat
  else (m.get (base + i / 2)).toNat / 2 ^ (4 * (i % 2)) % 16

/-- The value of an element of an operand type: integers are exact values (04 R104). -/
def elemFV (t : Ty) (x : Nat) : FV :=
  if t.isFloat then (tyFmt t).value x
  else
    let v := sextN t.width x
    if v = 0 then .zero false else .fin v 0

/-- The bitmap of a sparse group. -/
def groupMap (m : Memory) (a : Nat) : Nat := m.num a 8

/-- The 64 elements of a sparse group (09 R210). -/
def groupElems (m : Memory) (a w : Nat) : List Nat :=
  let bm := groupMap m a
  (List.range 64).map (fun i =>
    if bm.testBit i then elemBits m (a + 8) w (((List.range i).filter (fun j => bm.testBit j)).length) else 0)

/-- The elements of row m of an A operand, or of column n of a B operand. -/
def Reserve.run (r : Reserve) (m : Memory) (k row : Nat) : List Nat :=
  let base := 256 * r.base
  let w := r.elem.width
  if r.lay = 2 then (List.range (k / 64)).flatMap (fun g => groupElems m (base + (k / 64 * row + g) * groupBytes w) w)
  else (List.range k).map (fun i => elemBits m base w (k * row + i))

/-- The delta of block j of a row or column (R296, 04 R100). -/
def Reserve.delta (r : Reserve) (m : Memory) (k row j : Nat) : Int :=
  let i := k / r.block * row + j
  sextN 4 (elemBits m (256 * r.base + 64 * r.doff) 4 i)

/-- The elements of a row or column as values with the exponent of their scale; none in a zero block (04 R100). -/
def Reserve.scaled (r : Reserve) (m : Memory) (k row : Nat) (e : Int) : List (Option (FV × Int)) :=
  let xs := r.run m k row
  (List.range k).zipWith (fun i x =>
    if r.bl = 0 then some (elemFV r.elem x, 0)
    else
      let d := r.delta m k row (i / r.block)
      if d = -8 then none else some (elemFV r.elem x, e + d)) xs

/-! ## Accumulators (04 R101-R106) -/

/-- An integer on the grid enters an element, or sets a flag (04 R102, 13 R310). -/
def Acc.addGrid (e : Acc) (q : Int) : Acc :=
  if (2 ^ 55 : Int) ≤ q then { e with pinf := true }
  else if q ≤ -(2 ^ 55 : Int) then { e with ninf := true }
  else { e with sum := e.sum + BitVec.ofInt 72 q }

/-- A value enters an element of a tile with an anchor. -/
def Acc.addFV (e : Acc) (anc : Int) : FV → Acc
  | .nan _ => { e with nan := true }
  | .inf neg => if neg then { e with ninf := true } else { e with pinf := true }
  | .zero _ => e
  | .fin m x => e.addGrid (rndInt .rne m (x - (anc - 48))).1

/-- A product enters an element (04 R102). -/
def Acc.enter (e : Acc) (anc : Int) (a b : Option (FV × Int)) : Acc :=
  match a, b with
  | some (x, ea), some (y, eb) =>
    match (x.mul y).1 with
    | .fin m p => e.addFV anc (.fin m (p + ea + eb))
    | v => e.addFV anc v
  | _, _ => e

/-- The element of a tile. -/
def Tile.get (t : Tile) (e : Nat) : Acc := t.elems.getD e Acc.zero

/-- The elements of a tile, all 4,096. -/
def Tile.all (t : Tile) : List Acc := (t.elems ++ List.replicate 4096 Acc.zero).take 4096

/-- The value of the true sum of an element (04 R101). -/
def Acc.value (e : Acc) (anc : Int) : FV :=
  if e.nan || (e.pinf && e.ninf) then .nan false
  else if e.pinf then .inf false
  else if e.ninf then .inf true
  else if e.sum = 0 then .zero false else .fin e.sum.toInt (anc - 48)

/-- An element moved to a new anchor (04 R105). One that has a flag keeps its flags. -/
def Acc.move (e : Acc) (anc b : Int) : Acc :=
  let v := e.sum.toInt
  let plain := !e.nan && !e.pinf && !e.ninf
  if b < anc then
    let x := v * (2 ^ (anc - b).toNat : Nat)
    if x < -(2 ^ 71 : Int) then { e with sum := 0, ninf := e.ninf || plain }
    else if (2 ^ 71 : Int) ≤ x then { e with sum := 0, pinf := e.pinf || plain }
    else { e with sum := BitVec.ofInt 72 x }
  else { e with sum := BitVec.ofInt 72 (rndInt .rne v (anc - b)).1 }

/-- The tile of a core that a team's name is (R292). -/
def tileIx (s : State) (t : Team) (n : Nat) : Nat := (s.bind t).acc0 + n

/-- A tile of a core. -/
def State.tile (s : State) (core ix : Nat) : Tile := (s.core core).tiles.getD ix Tile.zero

/-- Replaces a tile. -/
def setTile (s : State) (core ix : Nat) (t : Tile) : State :=
  s.onCore core (fun c => { c with tiles := c.tiles.set ix t })

/-- Whether an earlier `acld` of a team has still to write a tile (R293). -/
def tileLoads (s : State) (t : Team) (n : Nat) : Bool :=
  (s.flightsOf t.uid).any (fun f => match f.instr with
    | .acld x => x.d.toNat = n
    | _ => false)

/-- Whether an earlier instruction of a team has still to finish with a tile (R293): an accepted `mma`, or an `acld`. -/
def tileBusy (s : State) (t : Team) (n : Nat) : Bool :=
  (s.core t.core).engine.any (fun m => m.tile = tileIx s t n) || tileLoads s t n

/-! ## `mma`, `mmas` (R305) -/

/-- The right to issue on the engine: issued with one count less, or parked for the pintle or lease, or no lease
(R290, R291, R305). -/
def engineRight (c : C) (s : State) : Except Eff State :=
  let t := c.t
  let key := leaseKey t
  let l := (s.core t.core).lease
  let park (s : State) (w : Park) : Eff := .wait (s.onTeam t.uid (fun t => { t with run := .parked w, aux := [] }))
  if t.leaf ≠ 2 && pintleOf s t ≠ t.leaf then .error (park s .pintle)
  else if l.holder = some key then
    let use (n : Nat) : State := onLease s t.core (fun l => { l with count := n - 1, since := s.clk.toNat })
    if l.count ≠ 0 then .ok (use l.count)
    else if l.queue.isEmpty then .ok (use l.last)
    else .error (park (requestLease (onLease s t.core (fun l => { l with holder := none, count := 0 })) t l.last l.last
      false) .lease)
  else match l.lost.find? (fun x => x.key = key) with
    | some x => .error (park (requestLease s t (if x.count = 0 then x.last else x.count) x.last false) .lease)
    | none =>
      if l.queue.any (fun q => q.key = key) then .error (park s .lease)
      else .error (.trap s (c.trap 0x09 0x0001))

/-- A base exponent, cut to the range beyond which nothing changes (04 R100). -/
def baseExpOf (x : Word64) : Int := max (-1024) (min 1023 x.toInt)

/-- `mma` and `mmas` (R305). -/
def effMma (sparse : Bool) (c : C) (s : State) : Eff :=
  let nx := c.x.f 3 0
  let ny := c.x.f 7 4
  match rcdCheck s c.t nx, rcdCheck s c.t ny with
  | .error e, _ => .trap s (c.trap 0x0A e)
  | _, .error e => .trap s (c.trap 0x0A e)
  | .ok x, .ok y =>
    match (if x.lay = 0 && y.lay = (if sparse then 2 else 1) then pairK x.elem y.elem else none) with
    | none => .trap s (c.trap 0x0A (0x0600 + nx))
    | some k =>
      if x.exceeds k then .trap s (c.trap 0x0A (0x0700 + nx))
      else if y.exceeds k then .trap s (c.trap 0x0A (0x0700 + ny))
      else if sparse && (List.range k).any (fun g =>
          32 < ((List.range 64).filter (fun i =>
            (groupMap (s.core c.t.core).obuf (256 * y.base + g * groupBytes y.elem.width)).testBit i)).length)
      then .trap s (c.trap 0x0A (0x0800 + ny))
      else if tileLoads s c.t c.x.d.toNat then .wait s
      else match engineRight c s with
        | .error e => e
        | .ok s =>
          let m : Mma := { team := c.t.uid, tile := tileIx s c.t c.x.d.toNat, x := x, y := y,
                           ea := baseExpOf (c.sc64 s c.x.a), eb := baseExpOf (c.sc64 s c.x.b), sparse := sparse }
          let s := s.onCore c.t.core (fun k => { k with engine := k.engine ++ [m] })
          .done (s.post (.mmaExecute c.t.core))

/-- A product of two operands entered into a tile (R305). -/
def Tile.mma (t : Tile) (ob : Memory) (m : Mma) : Tile :=
  match pairK m.x.elem m.y.elem with
  | none => t
  | some k =>
    let rows := (List.range 64).map (fun i => m.x.scaled ob k i m.ea)
    let cols := (List.range 64).map (fun i => m.y.scaled ob k i m.eb)
    let pairs := rows.flatMap (fun r => cols.map (fun q => (r, q)))
    { t with elems := t.all.zipWith (fun e p => (p.1.zip p.2).foldl (fun e x => e.enter t.anc x.1 x.2) e) pairs }

/-- MMA_EXECUTE (R293, R305): the engine starts the operation that it accepted first. -/
def execMmaExecute (core : Nat) (s : State) : Out :=
  match (s.core core).engine with
  | [] => .next s
  | m :: rest =>
    let t := (s.tile core m.tile).mma (s.core core).obuf m
    .next (setTile (s.onCore core (fun k => { k with engine := rest })) core m.tile t)

/-- MMA (R305). -/
def execMma (x : Ext) (s : State) : Out := issueExt (.mma x) 0x51 0 x (onGo (effMma false)) s
/-- MMAS (R305). -/
def execMmas (x : Ext) (s : State) : Out := issueExt (.mmas x) 0x51 1 x (onGo (effMma true)) s

/-! ## Tiles without the engine (R306-R310) -/

/-- Whether an anchor lies in its range (04 R101). -/
def anchorOk (a : Int) : Bool := -256 ≤ a && a ≤ 255

/-- `acz` and `acanch` (R306). -/
def effAnchor (f : Tile → Int → Tile) (c : C) (s : State) : Eff :=
  let a := (c.sc64 s c.x.a).toInt
  let n := c.x.d.toNat
  if !anchorOk a then .trap s (c.trap 0x05 0x1102)
  else if tileBusy s c.t n then .wait s
  else
    let ix := tileIx s c.t n
    .done (setTile s c.t.core ix (f (s.tile c.t.core ix) a))

/-- A tile after `acz`. -/
def Tile.clear (_t : Tile) (a : Int) : Tile := { anc := a, elems := [] }

/-- A tile after `acanch` (04 R105). -/
def Tile.move (t : Tile) (a : Int) : Tile := { anc := a, elems := t.elems.map (fun e => e.move t.anc a) }

/-- The elements of a span (R307): register, lane and element, for the active lanes whose element exists. -/
def C.span (c : C) (first n : Nat) : List (Nat × Nat × Nat) :=
  (List.range n).flatMap (fun j => (c.actives.map (fun l => (j, l, first + j * c.t.width + l))).filter
    (fun x => x.2.2 ≤ 4095))

/-- The rounded value of an element and its flags (04 R106). -/
def Acc.resolve (e : Acc) (anc : Int) (t : Ty) (mode : Rnd) (ftz : Bool) : Nat × Flg :=
  let v := e.value anc
  if t = .i32 then
    match v with
    | .nan _ => (0x80000000, fNV)
    | v => let r := roundInt .i32 mode v
           (patN 32 r.1, r.2)
  else match v with
    | .nan _ => ((tyFmt t).cnan, fNV)
    | v => (tyFmt t).round mode false ftz v

/-- `resolve` (R308): with no element to read its destinations stay as they are and full (R307, 06 R148); else results are
rounded from the tile and the mode at issue, and fill the run when RESOLVE_COMPLETE comes. `aux` holds register, lane, value and flags of each element. -/
def effResolve (c : C) (s : State) : Eff :=
  let n := c.x.a.code.toNat
  if !c.any then .done s
  else if tileBusy s c.t n then .wait s
  else
    let t := s.tile c.t.core (tileIx s c.t n)
    let rs := (c.span (c.opnd s c.x.b 32 0) (c.x.f 7 0 + 1)).map (fun x =>
      (x.1, x.2.1, (t.get x.2.2).resolve t.anc c.x.ty (c.t.mode c.x.rnd) c.t.ftz))
    let gate := rs.any (fun r => enabled c.t.status r.2.2.2 ≠ 0)
    if rs.isEmpty then .done s
    else
    let lanes := c.actives.map (fun l => ({ lane := l, addr := 0, data := 0, st := .ready [] } : LaneReq))
    .done ((c.launch s lanes [] (0 :: rs.flatMap (fun r => [r.1, r.2.1, r.2.2.1, r.2.2.2])) gate).post
      (.resolveComplete s.nextId))

/-- The quadruples of a list. -/
def quads : List Nat → List (Nat × Nat × Nat × Nat)
  | a :: b :: c :: d :: l => (a, b, c, d) :: quads l
  | _ => []

/-- RESOLVE_COMPLETE (R308): the run fills and the flags are raised. -/
def execResolveComplete (id : Nat) (s : State) : Out :=
  match s.flight? id with
  | none => .next s
  | some f =>
    let rs := quads (f.aux.drop 1)
    let fl := rs.map (fun r => (r.2.1, r.2.2.2))
    let all := fl.foldl (fun a x => a ||| x.2) 0
    let tr := (s.team? f.team).bind (fun t => fpTrap { t with status := f.status } f.pc f.npc fl)
    let s := s.onTeam f.team (fun t =>
      let t := (List.range f.dnum).foldl (fun t j => t.fillV (f.dst + j)
        ((rs.filter (fun r => r.1 = j)).map (fun r => (r.2.1, BitVec.ofNat 32 r.2.2.1))) .gen) t
      { t with status := orFlags t.status all })
    let s := endFlight s f
    .next (match tr with
      | none => s
      | some x => settle (raise s f.team f.again { x with lanes := uniq x.lanes, op := id }) f.team)

/-- `accmp` (R309). -/
def effAccmp (c : C) (s : State) : Eff :=
  let n := c.x.a.code.toNat
  if !c.skipped && tileBusy s c.t n then .wait s
  else
    let t := s.tile c.t.core (tileIx s c.t n)
    let k := c.x.f 5 3 + 1
    let sp := c.span (c.opnd s c.x.b 32 0) k
    let res (j l : Nat) : Option Bool := (sp.find? (fun x => x.1 = j && x.2.1 = l)).map (fun x =>
      let th := c.opnd s c.x.c 32 l
      condF (c.x.f 2 0) ((t.get x.2.2).value t.anc) (elemFV c.x.ty th))
    .done (s.onTeam c.t.uid (fun u => (List.range k).foldl (fun u j =>
      u.writeP (c.x.d.toNat + j) (c.t.laneIxs.map (fun l => (res j l).isSome))
        (c.t.laneIxs.map (fun l => (res j l).getD false))) u))

/-- `acadd` (R310). -/
def effAcadd (c : C) (s : State) : Eff :=
  let n := c.x.d.toNat
  if !c.skipped && tileBusy s c.t n then .wait s
  else
    let ix := tileIx s c.t n
    let t := s.tile c.t.core ix
    let sp := c.span (c.opnd s c.x.b 32 0) (c.x.f 7 0 + 1)
    let es := sp.foldl (fun (es : List Acc) x =>
      let bits := (c.t.lane (c.x.a.code.toNat + x.1) x.2.1).toNat % 2 ^ c.x.ty.width
      es.modify x.2.2 (fun e => e.addFV t.anc (elemFV c.x.ty bits))) t.all
    .done (if sp.isEmpty then s else setTile s c.t.core ix { t with elems := es })

/-- ACZ (R306). -/
def execAcz (x : Ext) (s : State) : Out := issueExt (.acz x) 0x51 2 x (onGo (effAnchor Tile.clear)) s
/-- RESOLVE (R308). -/
def execResolve (x : Ext) (s : State) : Out := issueExt (.resolve x) 0x51 3 x effResolve s
/-- ACCMP (R309). -/
def execAccmp (x : Ext) (s : State) : Out := issueExt (.accmp x) 0x51 4 x effAccmp s
/-- ACADD (R310). -/
def execAcadd (x : Ext) (s : State) : Out := issueExt (.acadd x) 0x51 7 x effAcadd s
/-- ACANCH (R306). -/
def execAcanch (x : Ext) (s : State) : Out := issueExt (.acanch x) 0x51 8 x (onGo (effAnchor Tile.move)) s

/-! ## Images (R311, R312) -/

/-- The bytes of an accumulator image; the carry half shown is free (04 R101, log 7). -/
def Tile.image (t : Tile) (n : Nat) : List Byte :=
  leBytes 2 (patN 16 t.anc) ++ leBytes 2 1 ++ leBytes 4 4096 ++ leBytes 56 0 ++
  ((List.range 4096).zip t.all).flatMap (fun p =>
    let cy := Config.carryHalf n p.1
    leBytes 9 (p.2.sum - cy).toNat ++ leBytes 9 cy.toNat ++
    leBytes 1 (bitNat p.2.nan + 2 * bitNat p.2.pinf + 4 * bitNat p.2.ninf) ++ leBytes 1 0)

/-- The bytes of an accumulator image (R311). -/
def imageSize : Nat := 81984

/-- The elements of 20 bytes each. -/
def accOfBytes (bs : List Byte) : Acc :=
  let fl := leNat ((bs.drop 18).take 1)
  { sum := BitVec.ofNat 72 (leNat (bs.take 9)) + BitVec.ofNat 72 (leNat ((bs.drop 9).take 9)),
    nan := fl.testBit 0, pinf := fl.testBit 1, ninf := fl.testBit 2 }

/-- Consecutive pieces of n bytes, k of them. -/
def chunks (n : Nat) : Nat → List Byte → List (List Byte)
  | 0, _ => []
  | k + 1, bs => bs.take n :: chunks n k (bs.drop n)

/-- A tile from an image; none when it is malformed (R311). -/
def tileOfImage (bs : List Byte) : Option Tile :=
  let anc := sextN 16 (leNat (bs.take 2))
  let es := chunks 20 4096 (bs.drop 64)
  if leNat ((bs.drop 2).take 2) ≠ 1 || leNat ((bs.drop 4).take 4) ≠ 4096 || leNat ((bs.drop 8).take 56) ≠ 0 ||
     !anchorOk anc || es.any (fun e => 8 ≤ leNat ((e.drop 18).take 1) || leNat ((e.drop 19).take 1) ≠ 0)
  then none
  else some { anc := anc, elems := es.map accOfBytes }

/-- A tile that a failed `acld` leaves (R312). -/
def Tile.failed : Tile := { anc := 0, elems := List.replicate 4096 { Acc.zero with nan := true } }

/-- The address of an image and its checks (R312). -/
def C.imageCheck (c : C) (s : State) : Except Trap Nat :=
  let ea := c.spadEa s
  if !canonical ea then .error (c.trapAt 0x06 0x0402 ea [])
  else if ea % 64 ≠ 0 then .error (c.trapAt 0x04 0x0102 ea [])
  else .ok ea

/-- The latch of an image transfer in `aux`: 0 for none. -/
def latchAux (l : Option (Nat × Nat)) : List Nat :=
  match l with
  | some (launch, n) => [1, launch, n]
  | none => [0, 0, 0]

/-- The latch that `aux` names. -/
def auxLatch (aux : List Nat) : Option (Nat × Nat) :=
  match aux with
  | _ :: 1 :: launch :: n :: _ => some (launch, n)
  | _ => none

/-- `acst` (R312): the tile is captured at issue. -/
def effAcst (c : C) (s : State) : Eff :=
  let n := c.x.d.toNat
  match c.imageCheck s with
  | .error tr => .trap s tr
  | .ok ea =>
    if c.t.declares ea imageSize then .trap s (c.trapAt 0x05 0x0802 ea [])
    else if tileBusy s c.t n then .wait s
    else
      let t := s.tile c.t.core (tileIx s c.t n)
      let snap := patN 16 t.anc :: t.elems.flatMap (fun e =>
        [e.sum.toNat, bitNat e.nan + 2 * bitNat e.pinf + 4 * bitNat e.ninf])
      .done ((c.launch s [{ lane := 0, addr := BitVec.ofNat 64 ea, data := 0, st := .ready [] }] snap
        (0 :: latchAux c.latchC) false).post (.acstComplete s.nextId))

/-- A captured tile. -/
def tileOfSnap (l : List Nat) : Tile :=
  let rec go : List Nat → List Acc
    | x :: f :: rest =>
      { sum := BitVec.ofNat 72 x, nan := f.testBit 0, pinf := f.testBit 1, ninf := f.testBit 2 } :: go rest
    | _ => []
  { anc := sextN 16 (l.headD 0), elems := go (l.drop 1) }

/-- An image transfer ends: its latch arrival is made, and what waited for it waits no longer. -/
def imageDone (s : State) (f : Flight) (core : Nat) : State :=
  settle (clearWait (postArrival (s.dropFlight f.id) core (auxLatch f.aux)) f.id) f.team

/-- Whether an older image operation of the team on path `mx` overlaps and one of the two writes (11 R263). -/
def imageBehind (s : State) (f : Flight) : Bool :=
  let st (i : Instr) : Bool := match i with
    | .acst _ => true
    | _ => false
  let im (i : Instr) : Bool := match i with
    | .acst _ | .acld _ => true
    | _ => false
  let ea (g : Flight) : Nat := match g.lanes with
    | l :: _ => l.addr.toNat
    | [] => 0
  s.flights.any (fun g => g.team = f.team && g.id < f.id && im g.instr && (st g.instr || st f.instr) &&
    decide (ea g < ea f + imageSize) && decide (ea f < ea g + imageSize))

/-- ACST_COMPLETE (R312): the image is written on path `mx`. -/
def execAcstComplete (id : Nat) (s : State) : Out :=
  match s.flight? id, (s.flight? id).bind (fun f => s.team? f.team) with
  | some f, some t =>
    let ea := match f.lanes with
      | l :: _ => l.addr.toNat
      | [] => 0
    if imageBehind s f then .next (s.postOnce (.acstComplete id))
    else match enginePut s t.core t.ctx ea 2 0 (.acstComplete id) ((tileOfSnap f.snap).image id) with
    | .done s => .next (imageDone s f t.core)
    | .wait s => .next s
    | .fail s code cause va =>
      .next (imageDone (addPending s t.uid (engineTrap code (cause * 256 + 2) va [])) f t.core)
  | _, _ => .next s

/-- `acld` (R312). -/
def effAcld (c : C) (s : State) : Eff :=
  match c.imageCheck s with
  | .error tr => .trap s tr
  | .ok ea =>
    if tileBusy s c.t c.x.d.toNat then .wait s
    else .done ((c.launch s [{ lane := 0, addr := BitVec.ofNat 64 ea, data := 0, st := .ready [] }] []
      (0 :: latchAux c.latchC) false).post (.acldComplete s.nextId))

/-- ACLD_COMPLETE (R312): the image is read on path `mx` and replaces the tile whole. -/
def execAcldComplete (id : Nat) (s : State) : Out :=
  match s.flight? id, (s.flight? id).bind (fun f => s.team? f.team) with
  | some f, some t =>
    let ea := match f.lanes with
      | l :: _ => l.addr.toNat
      | [] => 0
    let n := match f.instr with
      | .acld x => x.d.toNat
      | _ => 0
    let put (s : State) (x : Tile) : State := setTile s t.core (tileIx s t n) x
    if imageBehind s f then .next (s.postOnce (.acldComplete id))
    else match readVA s t.core t.ctx ea imageSize with
    | .ok bs => match tileOfImage bs with
      | some x => .next (imageDone (put s x) f t.core)
      | none => .next (imageDone (addPending (put s Tile.failed) t.uid (engineTrap 0x05 0x1002 0 [])) f t.core)
    | .error e =>
      let va := failVA s t.core t.ctx .read ea imageSize
      match meetFault s t.core t.ctx va 2 0 (.acldComplete id) e with
      | .wait s => .next s
      | .fail s code cause =>
        .next (imageDone (addPending (put s Tile.failed) t.uid (engineTrap code (cause * 256 + 2) va [])) f t.core)
  | _, _ => .next s

/-- ACST (R312). -/
def execAcst (x : Ext) (s : State) : Out := issueExt (.acst x) 0x51 5 x (onGo effAcst) s
/-- ACLD (R312). -/
def execAcld (x : Ext) (s : State) : Out := issueExt (.acld x) 0x51 6 x (onGo effAcld) s

end Sys2Proof.Machine
end

