-- ==== Sys2Proof/Machine/Sfu.lean ====
section
/-!
DEFINITION. Group vsfu (08 R188-R190): the correctly rounded forms, and the approximate functions as free values
within the accuracy that R188 states, whose bound is checked against fixed-point series (log 11).
-/

namespace Sys2Proof.Machine

/-! ## Fixed-point reference values: integers in units of 2^-200 -/

/-- The fraction bits of the reference values. -/
def fxS : Nat := 200
/-- One. -/
def fxOne : Int := 2 ^ fxS
/-- The product. -/
def fxMul (a b : Int) : Int := a * b / fxOne
/-- The quotient. -/
def fxDiv (a b : Int) : Int := a * fxOne / b

/-- The sum of k terms z^(2i+1) / (2i+1) from term i on: the arc tangent's series when `alt`, else its hyperbolic
one's. -/
def fxAtan (alt : Bool) (z2 : Int) : Nat → Nat → Int → Int
  | 0, _, _ => 0
  | k + 1, i, p =>
    let t := p / (2 * i + 1 : Nat)
    (if alt && i % 2 = 1 then -t else t) + fxAtan alt z2 k (i + 1) (fxMul p z2)

/-- The hyperbolic arc tangent of z, |z| at most 1/3. -/
def fxAtanh (z : Int) : Int := fxAtan false (fxMul z z) 70 0 z
/-- The natural logarithm of 2. -/
def fxLn2 : Int := 2 * fxAtanh (fxOne / 3)
/-- Pi, by Machin's formula. -/
def fxPi : Int :=
  let a := fxOne / 5
  let b := fxOne / 239
  16 * fxAtan true (fxMul a a) 50 0 a - 4 * fxAtan true (fxMul b b) 20 0 b

/-- The sum of k terms of the series of exp from term i on. -/
def fxExpS (y : Int) : Nat → Nat → Int → Int
  | 0, _, _ => 0
  | k + 1, i, p => p + fxExpS y k (i + 1) (fxMul p y / (i + 1 : Nat))

/-- exp of y, |y| at most 1. -/
def fxExp (y : Int) : Int := fxExpS y 50 0 fxOne

/-- The sum of k terms of sine (from p = y, i = 1) or cosine (from p = 1, i = 0), signs alternating. -/
def fxTrigS (y2 : Int) : Nat → Nat → Int → Int
  | 0, _, _ => 0
  | k + 1, i, p => p + fxTrigS y2 k (i + 2) (-(fxMul p y2 / ((i + 1) * (i + 2) : Nat)))

/-- The sine of an angle in fixed point, at most a quarter turn. -/
def fxSin (y : Int) : Int := fxTrigS (fxMul y y) 40 1 y
/-- The cosine of an angle in fixed point, at most a quarter turn. -/
def fxCos (y : Int) : Int := fxTrigS (fxMul y y) 40 0 fxOne

/-- A dyadic number in fixed point, rounded down. -/
def fxOf (m e : Int) : Int :=
  if 0 ≤ e + fxS then m * 2 ^ (e + fxS).toNat else m / 2 ^ (-(e + fxS)).toNat

/-- cos and sin of a turn fraction q / 2^32 + (fixed) by quadrant: t is a fraction of a turn in fixed point. -/
def fxTurn (t : Int) : Int × Int :=
  let q := 4 * t / fxOne
  let y := fxMul (t - q * fxOne / 4) (2 * fxPi)
  let sn := fxSin y
  let cs := fxCos y
  match q with
  | 0 => (cs, sn) | 1 => (-sn, cs) | 2 => (-cs, -sn) | _ => (sn, -cs)

/-- 2^x for x = m x 2^e, as a dyadic number; exponents are cut at 1,000, beyond f32's range. -/
def refEx2 (m e : Int) : Int × Int :=
  let x := if 1000 < (bitLen m.natAbs : Int) + e then (if m < 0 then -1000 else 1000) * fxOne else fxOf m e
  let x := max (-1000 * fxOne) (min (1000 * fxOne) x)
  let n := x / fxOne
  (fxExp (fxMul (x - n * fxOne) fxLn2), n - fxS)

/-- log2 of x = m x 2^e, m positive, as a dyadic number. -/
def refLg2 (m e : Int) : Int × Int :=
  let k : Int := (bitLen m.natAbs : Int) - 1
  let a := fxOf m (-k)
  let l := 2 * fxAtanh (fxDiv (a - fxOne) (a + fxOne))
  (fxDiv l fxLn2 + (e + k) * fxOne, -fxS)

/-- tanh of x = m x 2^e as a dyadic number. -/
def refTanh (m e : Int) : Int × Int :=
  let y := min (400 * fxOne) (2 * fxOf m.natAbs e)
  let n := fxDiv y fxLn2 / fxOne
  let t := fxExp (n * fxLn2 - y) / 2 ^ n.toNat
  let r := fxDiv (fxOne - t) (fxOne + t)
  (if m < 0 then -r else r, -fxS)

/-- cos and sin of x = m x 2^e turns (08 R188). -/
def refTurn (m e : Int) : Int × Int := fxTurn (if 0 ≤ e then 0 else fxOf (m % 2 ^ (-e).toNat) e)

/-! ## Free values within a bound -/

/-- One unit in the last place of f32 at a non-zero dyadic number (08 R188). -/
def ulp32 (m e : Int) : Int := max ((bitLen m.natAbs : Int) + e - 1) (-126) - 23

/-- Whether |v - r| is at most n x 2^k for a finite f32 value v and a dyadic r. -/
def within (v : FV) (r : Int × Int) (n : Nat) (k : Int) : Bool :=
  let d : Option (Int × Int) := match v with
    | .fin m e => some (dyAdd m e (-r.1) r.2)
    | .zero _ => some (-r.1, r.2)
    | _ => none
  match d with
  | none => false
  | some d => (dyAdd d.1.natAbs d.2 (-(n : Int)) k).1 ≤ 0

/-- The result of an approximate function: the implementation's value when it lies within n x 2^k of the reference, else
the rounded reference (08 R188, log 11). It raises nx, and of and uf by its magnitude. -/
def approx (cand : Word) (r : Int × Int) (n : Nat) (k : Int) (ftz : Bool) : Nat × Flg :=
  let ref := if r.1 = 0 then (0, 0) else fmt32.roundFin .rne false false r.1 r.2
  let y := if within (fmt32.value cand.toNat) r n k then cand.toNat else ref.1
  let small := y / 2 ^ 23 % 256 = 0 && r.1 ≠ 0
  let y' := if ftz && small then fmt32.signBits (fmt32.sign y) else y
  (y', fNX ||| (if y / 2 ^ 23 % 256 = 255 then fOF else 0) ||| (if small then fUF else 0))

/-- As `approx`, within n ulp of the reference. -/
def approxUlp (cand : Word) (r : Int × Int) (n : Nat) (ftz : Bool) : Nat × Flg :=
  approx cand r n (ulp32 r.1 r.2) ftz

/-- Whether a positive integer is a power of two. -/
def isPow2 (m : Nat) : Bool := m = 2 ^ (bitLen m - 1)

/-- A function of one f32 input: its pattern, ftz, and the answer. -/
abbrev SfuOp := Nat → Bool → Nat × Flg

/-- A NaN operand (08 R189). -/
def nanOut (q : Bool) : Nat × Flg := (fmt32.cnan, if q then fNV else 0)

/-- `vrcp` (08 R188, R189). -/
def sRcp : SfuOp := fun x ftz =>
  match fmt32.input ftz x with
  | .nan q => nanOut q
  | .inf n => (fmt32.signBits n, 0)
  | .zero n => (fmt32.infBits n, fDZ)
  | .fin m e =>
    let r := dyDiv 1 0 m e
    let y := fmt32.roundFin .rne false ftz r.1 r.2
    if isPow2 m.natAbs && y.2 = 0 then y else approxUlp (Config.rcp (BitVec.ofNat 32 x)) r 1 ftz

/-- `vrsq` (08 R188, R189). -/
def sRsq : SfuOp := fun x ftz =>
  match fmt32.input ftz x with
  | .nan q => nanOut q
  | .inf n => if n then (fmt32.cnan, fNV) else (0, 0)
  | .zero n => (if n then fmt32.infBits true else fmt32.infBits false, fDZ)
  | .fin m e =>
    if m < 0 then (fmt32.cnan, fNV)
    else
      let k : Int := (bitLen m.natAbs : Int) - 1 + e
      if isPow2 m.natAbs && k % 2 = 0 then fmt32.roundFin .rne false ftz 1 (-(k / 2))
      else
        let d := dyDiv 1 0 m e
        approxUlp (Config.rsq (BitVec.ofNat 32 x)) (dySqrt d.1 d.2) 2 ftz

/-- `vex2` (08 R188, R189). An integer whose power of two is no f32 is rounded to nearest, with nx and uf or of, where the rule calls
the result exact (the model's choice, log 11). -/
def sEx2 : SfuOp := fun x ftz =>
  match fmt32.input ftz x with
  | .nan q => nanOut q
  | .inf n => if n then (0, 0) else (fmt32.infBits false, 0)
  | .zero _ => (0x3F800000, 0)
  | .fin m e =>
    let r := refEx2 m e
    if 0 ≤ e || m % 2 ^ (-e).toNat = 0 then
      fmt32.roundFin .rne false ftz 1 (max (-1000) (min 1000 (if 0 ≤ e then m * 2 ^ (min e 200).toNat
        else m / 2 ^ (-e).toNat)))
    else approxUlp (Config.ex2 (BitVec.ofNat 32 x)) r 2 ftz

/-- `vlg2` (08 R188, R189). -/
def sLg2 : SfuOp := fun x ftz =>
  match fmt32.input ftz x with
  | .nan q => nanOut q
  | .inf n => if n then (fmt32.cnan, fNV) else (fmt32.infBits false, 0)
  | .zero _ => (fmt32.infBits true, fDZ)
  | .fin m e =>
    if m < 0 then (fmt32.cnan, fNV)
    else
      let k : Int := (bitLen m.natAbs : Int) - 1 + e
      if isPow2 m.natAbs then fmt32.round .rne false ftz (if k = 0 then .zero false else .fin k 0)
      else
        let r := refLg2 m e
        let cand := Config.lg2 (BitVec.ofNat 32 x)
        if k = -1 || k = 0 then approx cand r 1 (-22) ftz else approxUlp cand r 2 ftz

/-- `vsin` and `vcos`: 4x as an integer modulo 4, when it is one (08 R188). -/
def quarter (m e : Int) : Option Int :=
  if 0 ≤ e then some 0
  else if m % 2 ^ (max 0 (-e - 2)).toNat = 0 then
    some ((if e = -1 then 2 * m else m / 2 ^ (-e - 2).toNat) % 4)
  else none

/-- `vsin` (08 R188, R189). -/
def sSin : SfuOp := fun x ftz =>
  match fmt32.input ftz x with
  | .nan q => nanOut q
  | .inf _ => (fmt32.cnan, fNV)
  | .zero n => (fmt32.signBits n, 0)
  | .fin m e =>
    match quarter m e with
    | some q => (if q = 1 then 0x3F800000 else if q = 3 then 0xBF800000 else 0, 0)
    | none => approx (Config.sin (BitVec.ofNat 32 x)) ((refTurn m e).2, -fxS) 1 (-22) ftz

/-- `vcos` (08 R188, R189). -/
def sCos : SfuOp := fun x ftz =>
  match fmt32.input ftz x with
  | .nan q => nanOut q
  | .inf _ => (fmt32.cnan, fNV)
  | .zero _ => (0x3F800000, 0)
  | .fin m e =>
    match quarter m e with
    | some q => (if q = 0 then 0x3F800000 else if q = 2 then 0xBF800000 else 0, 0)
    | none => approx (Config.cos (BitVec.ofNat 32 x)) ((refTurn m e).1, -fxS) 1 (-22) ftz

/-- `vtanh` (08 R188, R189). -/
def sTanh : SfuOp := fun x ftz =>
  match fmt32.input ftz x with
  | .nan q => nanOut q
  | .inf n => (0x3F800000 + fmt32.signBits n, 0)
  | .zero n => (fmt32.signBits n, 0)
  | .fin m e => approxUlp (Config.tanh (BitVec.ofNat 32 x)) (refTanh m e) 2 ftz

/-- A finite value as a dyadic number. -/
def FV.dy : FV → Int × Int
  | .fin m e => (m, e)
  | _ => (0, 0)

/-- `vrot` (08 R190): both outputs of a lane and the flags. -/
def sRot (px py b c : Nat) (ftz : Bool) : (Nat × Nat) × Flg :=
  let x := fmt32.input ftz px
  let y := fmt32.input ftz py
  let bad (v : FV) : Bool := v.isNan || v.isInf true || v.isInf false
  if bad x || bad y then
    ((fmt32.cnan, fmt32.cnan),
     if x.isSig || y.isSig || [x, y].any (fun v => v.isInf true || v.isInf false) then fNV else 0)
  else
    let px := flushPat fmt32 ftz px
    let py := flushPat fmt32 ftz py
    let ng (p : Nat) : Nat := modPat fmt32 true false p
    let t : Nat := b * c % 2 ^ 32
    if t % 2 ^ 30 = 0 then
      ((match t / 2 ^ 30 with
        | 0 => (px, py) | 1 => (ng py, px) | 2 => (ng px, ng py) | _ => (py, ng px)), 0)
    else
      let w := fxTurn (fxOf t (-32))
      let dx := x.dy
      let dy := y.dy
      let r0 := dyAdd (dx.1 * w.1) (dx.2 - fxS) (-(dy.1 * w.2)) (dy.2 - fxS)
      let r1 := dyAdd (dx.1 * w.2) (dx.2 - fxS) (dy.1 * w.1) (dy.2 - fxS)
      let sm := dyAdd dx.1.natAbs dx.2 dy.1.natAbs dy.2
      let cand := Config.rot (BitVec.ofNat 32 px) (BitVec.ofNat 32 py) (BitVec.ofNat 32 t)
      let o0 := approx cand.1 r0 sm.1.toNat (sm.2 - 21) ftz
      let o1 := approx cand.2 r1 sm.1.toNat (sm.2 - 21) ftz
      ((o0.1, o1.1), o0.2 ||| o1.2)

/-! ## Issue and completion -/

/-- A short-latency function (08 R188). -/
def effSfu (op : SfuOp) (c : C) (s : State) : Eff :=
  c.fpLanes s false c.tag (fun l => op (c.opnd s c.x.a 32 l) c.t.ftz)

/-- A tag as a number. -/
def Tag.code : Tag → Nat
  | .uni => 0 | .aff => 1 | .gen => 2

/-- The tag of a number. -/
def tagOf : Nat → Tag
  | 0 => .uni | 1 => .aff | _ => .gen

/-- A long-latency function: results are computed from the sources and the mode at issue, and fill D when SFU_COMPLETE
comes (06 R148, 08 R188). It keeps its team from issuing when it may trap (04 R99). -/
def effLong (f : C → State → Nat → Nat × Flg) (c : C) (s : State) : Eff :=
  if !c.any then .done s
  else
    let rs := c.actives.map (fun l => (l, f c s l))
    let lanes := rs.map (fun r =>
      { lane := r.1, addr := 0, data := BitVec.ofNat 64 r.2.1, st := LaneSt.ready [] : LaneReq })
    let gate := rs.any (fun r => enabled c.t.status r.2.2 ≠ 0)
    let id := s.nextId
    .done ((c.launch s lanes [] (0 :: c.tag.code :: rs.map (fun r => r.2.2)) gate).post (.sfuComplete id))

/-- A correctly rounded function of f32 or f64 operands (08 R188, R189). -/
def roundedSfu (op : List FV → FV × Flg) (two : Bool) (c : C) (s : State) (l : Nat) : Nat × Flg :=
  let t := c.x.ty
  let f := tyFmt t
  let vs := f.input c.t.ftz (c.opnd s c.x.a t.width l) ::
    (if two then [f.input c.t.ftz (c.opnd s c.x.b t.width l)] else [])
  let r := op vs
  roundWith f (c.t.mode c.x.rnd) false c.t.ftz r.1 (r.2 ||| sigFlag vs)

/-- SFU_COMPLETE (08 R188): the destination fills, and the flags are raised. -/
def execSfuComplete (id : Nat) (s : State) : Out :=
  match s.flight? id with
  | none => .next s
  | some f =>
    let ws := f.lanes.map (fun l => (l.lane, l.data.toNat))
    let fl := (f.lanes.map (fun l => l.lane)).zip (f.aux.drop 2)
    let all := fl.foldl (fun a x => a ||| x.2) 0
    let tr := (s.team? f.team).bind (fun t => fpTrap { t with status := f.status } f.pc f.npc fl)
    let s := s.onTeam f.team (fun t =>
      { t.fillN f.dst (f.dnum = 2) ws (tagOf (f.aux.getD 1 2)) with status := orFlags t.status all })
    let s := endFlight s f
    .next (match tr with
      | none => s
      | some x => settle (raise s f.team f.again { x with op := id }) f.team)

/-- VRCP (08 R188). -/
def execVrcp (x : Ext) (s : State) : Out := issueExt (.vrcp x) 0x46 0 x (effSfu sRcp) s
/-- VRSQ (08 R188). -/
def execVrsq (x : Ext) (s : State) : Out := issueExt (.vrsq x) 0x46 1 x (effSfu sRsq) s
/-- VSQRT (08 R188). -/
def execVsqrt (x : Ext) (s : State) : Out :=
  issueExt (.vsqrt x) 0x46 2 x (effLong (roundedSfu (fun l => (l.headD (.zero false)).sqrt) false)) s
/-- VEX2 (08 R188). -/
def execVex2 (x : Ext) (s : State) : Out := issueExt (.vex2 x) 0x46 3 x (effSfu sEx2) s
/-- VLG2 (08 R188). -/
def execVlg2 (x : Ext) (s : State) : Out := issueExt (.vlg2 x) 0x46 4 x (effSfu sLg2) s
/-- VSIN (08 R188). -/
def execVsin (x : Ext) (s : State) : Out :=
  issueExt (.vsin x) 0x46 5 x (effLong (fun c s l => sSin (c.opnd s c.x.a 32 l) c.t.ftz)) s
/-- VCOS (08 R188). -/
def execVcos (x : Ext) (s : State) : Out :=
  issueExt (.vcos x) 0x46 6 x (effLong (fun c s l => sCos (c.opnd s c.x.a 32 l) c.t.ftz)) s
/-- VTANH (08 R188). -/
def execVtanh (x : Ext) (s : State) : Out :=
  issueExt (.vtanh x) 0x46 7 x (effLong (fun c s l => sTanh (c.opnd s c.x.a 32 l) c.t.ftz)) s
/-- VROT (08 R190): D takes the first output, D + 1 the second. -/
def execVrot (x : Ext) (s : State) : Out :=
  issueExt (.vrot x) 0x46 8 x (effLong (fun c s l =>
    let r := sRot (c.opnd s c.x.a 64 l % 2 ^ 32) (c.opnd s c.x.a 64 l / 2 ^ 32) (c.opnd s c.x.b 32 l)
      (c.opnd s c.x.c 32 l) c.t.ftz
    (r.1.1 + 2 ^ 32 * r.1.2, r.2))) s
/-- VDIV (08 R188). -/
def execVdiv (x : Ext) (s : State) : Out :=
  issueExt (.vdiv x) 0x46 9 x (effLong (roundedSfu (fun l =>
    FV.div (l.headD (.zero false)) (l.getD 1 (.zero false))) true)) s

end Sys2Proof.Machine
end

