-- ==== Sys2Proof/Machine/Engine.lean ====
section
/-!
DEFINITION. What the engines that answer lanes share: the lanes of a flight looked up one by one, faults and `.w` waits
(09 R203-R205), and tables in memory read and written through a context's page table.
-/

namespace Sys2Proof.Machine

/-! ## Lanes of an engine's flight -/

/-- What an engine finds for one lane: an answer, a `.w` wait, a trap of the lane,
a translation it cannot make, at once or on its way, or another lane that goes first. -/
inductive Found where
  | done (s : State)
  | held (s : State)
  | bad (s : State) (code sub addr : Nat)
  | meets (va : Nat) (e : Tr)
  | stops (s : State) (va : Nat) (e : Tr)
  | later (s : State)

/-- Whether an older flight of the same team and group has a lane that is still to be looked up, and one of the two writes: the
accesses of a team to one location on one path keep program order (11 R263), which the engine does for its whole group. -/
def pathBehind (s : State) (f : Flight) (group writes : Instr → Bool) : Bool :=
  s.flights.any (fun g => g.team = f.team && g.id < f.id && group g.instr && (writes g.instr || writes f.instr) &&
    g.lanes.any (fun l => l.st = .todo || l.st = .ready [] || l.st = .faulted))

/-- A lane meets a translation that it cannot make: it waits in the fault buffer, or fails. -/
def laneMeets (id path : Nat) (retry : Ev) (s : State) (t : Team) (r : LaneReq) (va : Nat) (e : Tr) : State :=
  if e = .absent && faultsFull s (dieOf t.core) && !s.declined.contains retry then s
  else match meetFault s t.core t.ctx va path id retry e with
    | .wait s => setLane s id r.lane .faulted
    | .fail s code cause => setLane s id r.lane (.failed code (cause * 256 + path) va)

/-- Keeps how far the walk of a lane is. -/
def setPos (s : State) (id lane : Nat) (pos : List Nat) : State :=
  { s with flights := s.flights.map (fun f => if f.id = id
      then { f with lanes := f.lanes.map (fun l => if l.lane = lane then { l with pos := pos } else l) } else f) }

/-- One lane of an engine's flight is looked up. -/
def engineLane (id path : Nat) (retry : Ev) (work : State → Team → Flight → LaneReq → Found) (s : State)
    (r : LaneReq) : State :=
  match s.flight? id with
  | none => s
  | some f => match s.team? f.team with
    | none => s
    | some t => match work s t f r with
      | .done s => setLane s id r.lane .done
      | .held s => setLane s id r.lane .waitW
      | .bad s code sub addr => setLane s id r.lane (.failed code sub addr)
      | .later s => s
      | .meets va e => laneMeets id path retry s t r va e
      | .stops s va e => laneMeets id path retry s t r va e

/-- The lanes of an engine's flight that are to be looked up (`.ready []` is one whose pages were found present): a fault parks the team (09 R203), and a flight that is over
ends. -/
def engineRun (s : State) (id path : Nat) (retry : Ev) (work : State → Team → Flight → LaneReq → Found)
    (close : State → Flight → State) : State :=
  match s.flight? id with
  | none => s
  | some f =>
    let s := (f.lanes.filter (fun l => l.st = .todo || l.st = .ready [])).foldl (engineLane id path retry work) s
    match s.flight? id with
    | none => s
    | some g =>
      let s := if g.lanes.any (fun l => l.st = .faulted)
        then parkFault s g.team else s
      let s := if g.lanes.any (fun l => l.st = .todo || l.st = .ready []) then s.postOnce retry else s
      if g.over then clearWait (close s g) id else settle s g.team

/-- A flight ends with a trap, or none, of its lanes that failed. -/
def closeWith (tr : Flight → Option Trap) (s : State) (f : Flight) : State :=
  let s := fillDst (s.dropFlight f.id) f
  settle (match tr f with
    | none => s
    | some x => raiseFlight s f x) f.team

/-- A flight ends, and the failure of its writes is an imprecise trap (09 R206), or a held one where it was re-injected (19 R431). -/
def closeLate (s : State) (f : Flight) : State :=
  let s := fillDst (s.dropFlight f.id) f
  settle (match flightTrap f with
    | none => s
    | some x => if f.again then raise s f.team true x else addPending s f.team { x with imprecise := true, partly := false }) f.team

/-- The lanes of a flight that wait under `.w` are to be looked up again. -/
def unwait (s : State) (id : Nat) : State :=
  { s with flights := s.flights.map (fun f => if f.id = id
      then { f with lanes := f.lanes.map (fun l => if l.st = .waitW then { l with st := .todo } else l) }
      else f) }

/-! ## Tables in memory -/

/-- Who reads a table: a core, whose translation cache serves it, and a context. `surf` names the surface that its sampler
reads, through the sampler's caches (18 R409). -/
structure Agent where
  core : Nat
  ctx  : Nat
  surf : Option Nat := none
  deriving DecidableEq, Repr

/-- The engine of a team's core. -/
def Team.agent (t : Team) : Agent := { core := t.core, ctx := t.ctx }

/-- The hub, which has no core's translation cache: 256 is the number of no core. -/
def hubAgent (ctx : Nat) : Agent := { core := 256, ctx := ctx }

/-- A result, or the address and translation that stopped it. -/
abbrev Got (α : Type) := Except (Nat × Tr) α

/-- Bytes of a table. -/
def Agent.bytes (a : Agent) (s : State) (va n : Nat) : Got (List Byte) :=
  match readVA s a.core a.ctx va n with
  | .ok b => .ok b
  | .error e => .error (failVA s a.core a.ctx .read va n, e)

/-- A number of a table. -/
def Agent.rd (a : Agent) (s : State) (va n : Nat) : Got Nat :=
  match readVA s a.core a.ctx va n with
  | .ok b => .ok (leNat b)
  | .error e => .error (failVA s a.core a.ctx .read va n, e)

/-- Bytes written to a table. -/
def Agent.put (a : Agent) (s : State) (va : Nat) (bs : List Byte) : Got State :=
  match writeVA s a.core a.ctx va bs with
  | .ok s => .ok s
  | .error e => .error (failVA s a.core a.ctx .write va bs.length, e)

/-- A number written to a table. -/
def Agent.wr (a : Agent) (s : State) (va n x : Nat) : Got State := a.put s va (leBytes n x)

/-- A number at an offset of some bytes. -/
def numAt (bs : List Byte) (lo n : Nat) : Nat := leNat ((bs.drop lo).take n)

/-- An answer, or the state before. -/
def Got.state (s : State) : Got State → State
  | .ok s' => s'
  | .error _ => s

/-- One bit of a run of scalar registers. -/
def Team.setRunBit (t : Team) (n l : Nat) (b : Bool) : Team :=
  let k := n + l / 64
  let m : Word64 := BitVec.ofNat 64 (2 ^ (l % 64))
  t.setS k (if b then t.sval k ||| m else t.sval k &&& ~~~m)

end Sys2Proof.Machine
end

