-- ==== Sys2Proof/Machine/Seq.lean ====
section
/-!
DEFINITION. Sequence maps (17): tables, group seq, use lists, moves of the hub and the victim queue.
-/

namespace Sys2Proof.Machine

/-! ## Maps and their tables (R380-R383) -/

/-- A map descriptor (R380): its address, its number and the fields that instructions read. -/
structure KMap where
  desc  : Nat
  num   : Nat
  bstk  : Nat
  bcap  : Nat
  cxlb  : Nat
  fstk  : Nat
  lowat : Nat
  nblk  : Nat
  slotb : Nat
  ptab  : Nat
  pool  : Nat
  stab  : Nat
  nseq  : Nat
  deriving DecidableEq, Repr

/-- The reading of a descriptor: its fields, or the subcode of the `prot` trap (R380). -/
inductive MapRd where
  | bad (sub : Nat)
  | ok (k : KMap)
  deriving DecidableEq, Repr

/-- The fields of the 128 bytes of a descriptor, checked (R380). -/
def parseMap (desc m : Nat) (bs : List Byte) : MapRd :=
  let k : KMap :=
    { desc := desc, num := m, bstk := numAt bs 88 8, bcap := numAt bs 80 4, cxlb := numAt bs 72 8,
      fstk := numAt bs 64 8, lowat := numAt bs 56 4, nblk := numAt bs 52 4, slotb := numAt bs 48 4,
      ptab := numAt bs 40 8, pool := numAt bs 32 8, stab := numAt bs 24 8, nseq := numAt bs 20 4 }
  if (numAt bs 0 1).testBit 0 = false then .bad 0x0A01
  else if numAt bs 96 32 ≠ 0 || numAt bs 1 19 ≠ 0 || 4 ≤ numAt bs 0 1 || k.bstk % 4 ≠ 0 || k.cxlb % 256 ≠ 0 ||
    k.fstk % 4 ≠ 0 || k.nblk = 0 || 2 ^ 24 < k.nblk || k.slotb < 16 || 65536 < k.slotb || k.slotb % 16 ≠ 0 ||
    k.ptab % 16 ≠ 0 || k.pool % 256 ≠ 0 || k.stab % 16 ≠ 0 || k.nseq = 0 || 2 ^ 20 < k.nseq then .bad 0x0A02
  else .ok k

/-- Reads the descriptor of a map below `seqb` (R380). -/
def readMap (a : Agent) (s : State) (seqb m : Nat) : Got MapRd := do
  if 64 ≤ m then return .bad 0x0A01
  let bs ← a.bytes s (seqb + 128 * m) 128
  return parseMap (seqb + 128 * m) m bs

/-- A sequence entry (R381); `cut` says that its length was cut to 32 × cap. One with a reserved flag set stays valid and has
length 0. -/
structure SeqEnt where
  valid : Bool
  cap   : Nat
  len   : Nat
  btab  : Nat
  at_   : Nat
  cut   : Bool

/-- Reads the entry of a sequence below nseq (R381). -/
def readSeq (a : Agent) (s : State) (k : KMap) (n : Nat) : Got SeqEnt := do
  let bs ← a.bytes s (k.stab + 16 * n) 16
  let valid := (numAt bs 15 1).testBit 0
  let cap := numAt bs 12 3
  let len := if numAt bs 15 1 = 1 then numAt bs 8 4 else 0
  return { valid := valid, cap := cap, len := min len (32 * cap), btab := numAt bs 0 8, at_ := k.stab + 16 * n,
           cut := decide (32 * cap < len) }

/-- The states of a block-table entry (R381). -/
inductive BlkSt where
  | absent | mapped | evicted | pending
  deriving DecidableEq, Repr

/-- The code of a state. -/
def BlkSt.code : BlkSt → Nat
  | .absent => 0 | .mapped => 1 | .evicted => 2 | .pending => 3

/-- A block-table entry: its address, state, number, and whether it is malformed (R381). -/
structure BlkEnt where
  at_ : Nat
  st  : BlkSt
  num : Nat
  bad : Bool

/-- Reads entry j of a sequence. -/
def readBlk (a : Agent) (s : State) (e : SeqEnt) (j : Nat) : Got BlkEnt := do
  let w ← a.rd s (e.btab + 4 * j) 4
  let n := w % 2 ^ 24
  return match w / 2 ^ 24 with
    | 0 => { at_ := e.btab + 4 * j, st := .absent, num := 0, bad := false }
    | 1 => { at_ := e.btab + 4 * j, st := .mapped, num := n, bad := false }
    | 2 => { at_ := e.btab + 4 * j, st := .evicted, num := n, bad := false }
    | 3 => { at_ := e.btab + 4 * j, st := .pending, num := n, bad := false }
    | _ => { at_ := e.btab + 4 * j, st := .absent, num := 0, bad := true }

/-- Writes a block-table entry. -/
def writeBlk (a : Agent) (s : State) (e : BlkEnt) (st : BlkSt) (n : Nat) : Got State :=
  a.wr s e.at_ 4 (st.code * 2 ^ 24 + n)

/-- The map's err flag is set, where it can be written (R391, R396). -/
def setErr (a : Agent) (s : State) (k : KMap) : State :=
  match a.rd s k.desc 1 with
  | .ok x => if x.testBit 1 then s else Got.state s (a.wr s k.desc 1 (x ||| 2))
  | .error _ => s

/-- As `setErr`, when a condition holds. -/
def errWhen (a : Agent) (s : State) (k : KMap) (b : Bool) : State := if b then setErr a s k else s

/-- The fields of a pool-table entry (R382). -/
def poolRef (k : KMap) (b : Nat) : Nat := k.ptab + 16 * b + 8
/-- The pins of a block. -/
def poolPins (k : KMap) (b : Nat) : Nat := k.ptab + 16 * b + 10
/-- The uses of a block. -/
def poolUses (k : KMap) (b : Nat) : Nat := k.ptab + 16 * b + 12

/-- Pops the block free stack; none when it is empty (R380). -/
def popFree (a : Agent) (s : State) (k : KMap) : Got (Option (State × Nat)) := do
  let n ← a.rd s (k.desc + 60) 4
  if n = 0 then return none
  let b ← a.rd s (k.fstk + 4 * (n - 1)) 4
  let s ← a.wr s (k.desc + 60) 4 (n - 1)
  return some (s, b % 2 ^ 24)

/-- Pushes a block onto the free stack. -/
def pushFree (a : Agent) (s : State) (k : KMap) (b : Nat) : Got State := do
  let n ← a.rd s (k.desc + 60) 4
  let s ← a.wr s (k.fstk + 4 * n) 4 b
  a.wr s (k.desc + 60) 4 (n + 1)

/-- Pops the backing free stack. -/
def popBack (a : Agent) (s : State) (k : KMap) : Got (Option (State × Nat)) := do
  let n ← a.rd s (k.desc + 84) 4
  if n = 0 then return none
  let b ← a.rd s (k.bstk + 4 * (n - 1)) 4
  let s ← a.wr s (k.desc + 84) 4 (n - 1)
  return some (s, b % 2 ^ 24)

/-- Pushes a slot onto the backing free stack. -/
def pushBack (a : Agent) (s : State) (k : KMap) (n : Nat) : Got State := do
  let m ← a.rd s (k.desc + 84) 4
  let s ← a.wr s (k.bstk + 4 * m) 4 n
  a.wr s (k.desc + 84) 4 (m + 1)

/-- The pool entry of a block just popped: ref, and no uses or pins (R389). -/
def freshBlock (a : Agent) (s : State) (k : KMap) (b ref : Nat) : Got State := do
  let s ← a.wr s (poolRef k b) 2 ref
  let s ← a.wr s (poolPins k b) 2 0
  a.wr s (poolUses k b) 2 0

/-- A block whose ref, uses and pins are 0 goes to the free stack (R389). -/
def freeIfIdle (a : Agent) (s : State) (k : KMap) (b : Nat) : Got State := do
  let x ← a.rd s (poolRef k b) 6
  if x = 0 then pushFree a s k b else return s

/-- The address of a block and of a backing slot (R380). -/
def KMap.blockAt (k : KMap) (b : Nat) : Nat := k.pool + 32 * k.slotb * b
/-- The address of a backing slot. -/
def KMap.slotAt (k : KMap) (n : Nat) : Nat := k.cxlb + 32 * k.slotb * n

/-! ## After a change -/

/-- What the hub finds at one block-table entry when it looks for victims (R394): no candidate, one with its last use, a
malformed entry, or an absent page. -/
inductive Cand where
  | no
  | some_ (last : Nat) (v : Victim)
  | malformed
  | absent (va : Nat)

/-- What a table read that failed shows: an absent page, or nothing. -/
def candOf (r : Got Cand) : Cand :=
  match r with
  | .ok x => x
  | .error (va, .absent) => .absent va
  | .error _ => .no

/-- Entry j of sequence n as a candidate (R381, R394). -/
def candAt (a : Agent) (s : State) (k : KMap) (e : SeqEnt) (n j : Nat) : Got Cand := do
  let b ← readBlk a s e j
  if b.bad then return .malformed
  if b.st ≠ .mapped then return .no
  let x ← a.rd s (poolRef k b.num) 6
  let last ← a.rd s (k.ptab + 16 * b.num) 8
  return if x = 1 then .some_ last { ctx := a.ctx, map := k.num, seq := n, idx := j, confirmed := false } else .no

/-- The entries of a map, looked at as candidates. -/
def candidates (a : Agent) (s : State) (k : KMap) : List Cand :=
  (List.range k.nseq).flatMap (fun n => match readSeq a s k n with
    | .error (va, .absent) => [.absent va]
    | .error _ => []
    | .ok e => if !e.valid then [] else (List.range e.cap).map (fun j => candOf (candAt a s k e n j)))

/-- Whether the victim queue holds an entry for a block. -/
def queuedVictim (s : State) (v : Victim) : Bool :=
  s.hub.victims.any (fun w => w.ctx = v.ctx && w.map = v.map && w.seq = v.seq && w.idx = v.idx)

/-- The detent period of R394, within its limits (log 14). -/
def detentPeriod (s : State) : Nat := max 1000 (min 10000000 (Config.detent s.stepNo))

/-- Entries enter the victim queue, the oldest last use first, and the detent is loaded (R394). -/
def queueVictims (s : State) (cs : List Cand) : State :=
  let vs := cs.filterMap (fun c => match c with
    | .some_ last v => if queuedVictim s v then none else some (last, v)
    | _ => none)
  let vs := (sortBy (fun (x y : Nat × Victim) => x.1 ≤ y.1) vs).map (fun c => c.2)
  let s := s.onHub (fun h => { h with victims := (h.victims ++ vs).take 64,
                                      detent := s.clk.toNat + detentPeriod s })
  s.postOnce .detentExpiry

/-- A move enters the hub's list, under the next id. -/
def addMove (s : State) (v : KvMove) : State :=
  { s.onHub (fun h => { h with moves := h.moves ++ [{ v with id := s.nextId }] }) with nextId := s.nextId + 1 }

/-- A transfer starts at the hub. -/
def startMove (s : State) (v : KvMove) : State :=
  (addMove s v).post (if v.kind = 2 then .evictionComplete s.nextId else .kvMoveComplete s.nextId)

/-- A move leaves the hub. -/
def dropMove (s : State) (v : KvMove) : State :=
  s.onHub (fun h => { h with moves := h.moves.filter (fun w => w.id ≠ v.id) })

/-- The hub fills the victim queue of a map (R394): a malformed entry sets the err flag (R381), and an absent page is waited
for (R383), with the search made again when firmware has answered. -/
def fillVictims (s : State) (v : KvMove) (k : KMap) : State :=
  let a := hubAgent v.ctx
  let cs := candidates a s k
  let fill (s : State) : State := queueVictims (dropMove (errWhen a s k (cs.any (fun c => match c with
    | .malformed => true
    | _ => false))) v) cs
  match firstSome (cs.map (fun c => match c with
    | .absent va => some va
    | _ => none)) with
  | none => fill s
  | some va => match meetFault s (dieAgent 0) v.ctx va 4 0 (.kvMoveComplete v.id) .absent with
    | .wait s => s
    | .fail s _ _ => fill s

/-- What follows a change of a map that left fcnt lower than it was: the hub's search for victims (R394). -/
def afterPop (a : Agent) (s : State) (k : KMap) : State :=
  match a.rd s (k.desc + 60) 4 with
  | .ok n =>
    let v : KvMove := { id := s.nextId, kind := 4, ctx := a.ctx, map := k.num, seq := 0, entry := 0, block := 0, slot := 0,
                        bytes := 0, srcBlock := 0 }
    if n < k.lowat then fillVictims (addMove s v) v k else s
  | .error _ => s

/-! ## Use lists (R387) -/

/-- A use of a block ends. -/
def dropUse (a : Agent) (s : State) (seqb m b : Nat) : Got State := do
  match (← readMap a s seqb m) with
  | .bad _ => return s
  | .ok k =>
    let u ← a.rd s (poolUses k b) 2
    let s ← a.wr s (poolUses k b) 2 (u - 1)
    freeIfIdle a s k b

/-- The address of a table of a team's use list whose page is absent. -/
def usesAbsent (s : State) (t : Team) : Option Nat :=
  firstSome (t.uses.map (fun p => match dropUse t.agent s t.seqb.toNat p.1 p.2 with
    | .error (va, .absent) => some va
    | _ => none))

/-- A release that cannot write the tables is dropped, with the map's err flag (R387). -/
def dropUseOr (t : Team) (s : State) (p : Nat × Nat) : State :=
  match dropUse t.agent s t.seqb.toNat p.1 p.2 with
  | .ok s => s
  | .error _ => match readMap t.agent s t.seqb.toNat p.1 with
    | .ok (.ok k) => setErr t.agent s k
    | _ => s

/-- The uses of a team end (R387). -/
def dropUses (s : State) (t : Team) : State :=
  if t.uses.isEmpty then s
  else retestAll ((t.uses.foldl (dropUseOr t) s).onTeam t.uid (fun t => { t with uses := [] }))

/-! ## `kvx` (R385) -/

/-- The results of one lane: address, cause and replay bit. -/
def kvxOut (s : State) (f : Flight) (se lane cause addr : Nat) : State :=
  s.onTeam f.team (fun t =>
    ((t.fillN f.dst true [(lane, addr)] .gen).fillV (f.dst + 2) [(lane, BitVec.ofNat 32 cause)] .gen).setRunBit se lane
      (decide (2 ≤ cause)))

/-- A lane that translates to a mapped block takes a use of it. -/
def kvxUse (s : State) (t : Team) (f : Flight) (k : KMap) (se wt lane p b : Nat) : Got Found := do
  let a := t.agent
  let addr := k.blockAt b + k.slotb * (p % 32)
  if t.uses.contains (k.num, b) then
    let s ← a.wr s (k.ptab + 16 * b) 8 s.clk.toNat
    return .done (kvxOut s f se lane 0 addr)
  let u ← a.rd s (poolUses k b) 2
  if u = 65535 then
    return if wt = 1 then .held s else .done (kvxOut s f se lane 4 0)
  if 512 ≤ t.uses.length then return .bad s 0x05 0x0A03 0
  let s ← a.wr s (poolUses k b) 2 (u + 1)
  let s ← a.wr s (k.ptab + 16 * b) 8 s.clk.toNat
  return .done (kvxOut (s.onTeam t.uid (fun t => { t with uses := t.uses ++ [(k.num, b)] })) f se lane 0 addr)

/-- The lookup of one lane. -/
def kvxLane (se wt m : Nat) (s : State) (t : Team) (f : Flight) (r : LaneReq) : Found :=
  let a := t.agent
  let n := r.addr.toNat % 2 ^ 32
  let p := r.addr.toNat / 2 ^ 32
  let work : Got Found := do
    match (← readMap a s t.seqb.toNat m) with
    | .bad sub => return .bad s 0x05 sub 0
    | .ok k =>
      if k.nseq ≤ n then return .done (kvxOut s f se r.lane 1 0)
      let e ← readSeq a s k n
      let s := errWhen a s k e.cut
      if e.len ≤ p then return .done (kvxOut s f se r.lane 1 0)
      let b ← readBlk a s e (p / 32)
      let s := errWhen a s k b.bad
      match b.st with
      | .absent => return .done (kvxOut s f se r.lane 2 0)
      | .evicted => return .done (kvxOut s f se r.lane 3 0)
      | .pending => return if wt = 1 then .held s else .done (kvxOut s f se r.lane 4 0)
      | .mapped => kvxUse s t f k se wt r.lane p b.num
  match work with
  | .ok x => x
  | .error (va, e) => .meets va e

/-- The fields of a `kvx` in flight: the first register of its replay run, `.w` and the map. `aux` holds 0, whether the
run's bits of inactive lanes are written, and the map. -/
def kvxFields (f : Flight) : Nat × Nat × Nat :=
  match f.instr with
  | .kvx x => (x.f 6 0, x.f 7 7, f.aux.getD 2 0)
  | _ => (0, 0, 0)

/-- The bits of inactive lanes of the replay run are written once, by the run of the whole instruction. -/
def kvxClear (s : State) (f : Flight) : State :=
  if f.aux.getD 1 0 = 1 then s
  else
    let s := s.setFlight { f with aux := [0, 1, f.aux.getD 2 0] }
    s.onTeam f.team (fun t => (t.laneIxs.filter (fun l => !f.lanes.any (fun r => r.lane = l))).foldl
      (fun t l => t.setRunBit (kvxFields f).1 l false) t)

/-- KVX_COMPLETE (R385). -/
def execKvxComplete (id : Nat) (s : State) : Out :=
  match s.flight? id with
  | none => .next s
  | some f =>
    let (se, wt, m) := kvxFields f
    .next (engineRun (kvxClear s f) id 4 (.kvxComplete id) (kvxLane se wt m) endFlight)

/-- KVX_WAIT_RETEST (R385): the waiting lanes are tested again. -/
def execKvxWaitRetest (id : Nat) (s : State) : Out :=
  match s.flight? id with
  | none => .next s
  | some f =>
    let (se, wt, m) := kvxFields f
    .next (engineRun (unwait s id) id 4 (.kvxWaitRetest id) (kvxLane se wt m) endFlight)

/-- `kvx` at issue. The partial run after a lane trap leaves the bits that the first run wrote (19 R431). -/
def effKvx (c : C) (s : State) : Eff :=
  if !c.any then .done s
  else
    let m := (c.sc64 s c.x.a).toNat
    match readMap c.t.agent s c.t.seqb.toNat m with
    | .error (va, e) => c.meet s va 4 e
    | .ok (.bad sub) => .trap s (c.trap 0x05 sub)
    | .ok (.ok _) =>
      if outstandingCap ≤ outstanding s c.t.uid then .wait s
      else
        let lanes := c.actives.map (fun l =>
          ({ lane := l, addr := BitVec.ofNat 64 (c.opnd s c.x.b 32 l + 2 ^ 32 * c.opnd s c.x.c 32 l), data := 0,
             st := .todo } : LaneReq))
        let again := match c.t.part with
          | some _ => 1
          | none => 0
        .done ((c.launch s lanes [] [0, again, m] false).post (.kvxComplete s.nextId))

/-! ## Moves of the hub (R391, R395) -/

/-- Lanes that wait under `.w` on an entry whose change at the hub failed end with cause 4 (R385, R391). -/
def failWaiters (s : State) (v : KvMove) : State :=
  s.flights.foldl (fun s f => match f.instr, s.team? f.team with
    | .kvx x, some t =>
      let hit (r : LaneReq) : Bool := r.st = .waitW && t.ctx = v.ctx && f.aux.getD 2 0 = v.map &&
        r.addr.toNat % 2 ^ 32 = v.seq && r.addr.toNat / 2 ^ 32 / 32 = v.entry
      if f.lanes.any hit then
        let s := (f.lanes.filter hit).foldl (fun s r => setLane (kvxOut s f (x.f 6 0) r.lane 4 0) f.id r.lane .done) s
        match s.flight? f.id with
        | some g => if g.over then clearWait (endFlight s g) g.id else s
        | none => s
      else s
    | _, _ => s) s

/-- The `seqb` of a context. -/
def seqbOf (s : State) (ctx : Nat) : Nat :=
  match s.ctx? ctx with
  | some c => c.seqb.toNat
  | none => 0

/-- The entry that a move is of. -/
def moveEntry (s : State) (k : KMap) (v : KvMove) : Got BlkEnt := do
  let e ← readSeq (hubAgent v.ctx) s k v.seq
  readBlk (hubAgent v.ctx) s e v.entry

/-- The bytes of a move are copied on path `cp`: source, destination. No cached copy of the destination stays (R391). -/
def moveCopy (s : State) (k : KMap) (v : KvMove) : Got State := do
  let a := hubAgent v.ctx
  let src := if v.kind = 0 then k.slotAt v.slot else if v.kind = 1 then k.blockAt v.srcBlock else k.blockAt v.block
  let dst := if v.kind = 2 then k.slotAt v.slot else k.blockAt v.block
  let bs ← a.bytes s src v.bytes
  let s ← a.put s dst bs
  return match piecesOf s a.core a.ctx .read dst v.bytes with
    | .ok segs => dropCopies s segs
    | .error _ => s

/-- The table changes of a move that succeeded. -/
def moveDone (s : State) (k : KMap) (v : KvMove) : Got State := do
  let a := hubAgent v.ctx
  let e ← moveEntry s k v
  if v.kind = 2 then
    let s ← writeBlk a s e .evicted v.slot
    let s ← a.wr s (poolRef k v.block) 2 0
    pushFree a s k v.block
  else
    let s ← writeBlk a s e .mapped v.block
    if v.kind = 0 then pushBack a s k v.slot else return s

/-- The table changes of a move whose copy failed for good. -/
def moveUndone (s : State) (k : KMap) (v : KvMove) : Got State := do
  let a := hubAgent v.ctx
  let e ← moveEntry s k v
  if v.kind = 2 then
    let s ← writeBlk a s e .mapped v.block
    pushBack a s k v.slot
  else
    let s ← if v.kind = 0 then writeBlk a s e .evicted v.slot else writeBlk a s e .absent 0
    let s ← a.wr s (poolRef k v.block) 2 0
    pushFree a s k v.block

/-- A move ends: its table changes, and who waits for them. A change that fails is dropped, with the err flag (R391). An eviction
whose write failed leaves its entry mapped, and lanes that wait on it are tested again (R395). -/
def moveEnds (s : State) (k : KMap) (v : KvMove) (good : Bool) (change : Got State) : State :=
  let s := dropMove s v
  match change with
  | .ok t =>
    let t := { t with hub := s.hub }
    if good then retestAll t
    else
      let t := setErr (hubAgent v.ctx) t k
      retestAll (if v.kind = 2 then t else failWaiters t v)
  | .error _ => failWaiters (setErr (hubAgent v.ctx) s k) v

/-- A change that the hub must make waits for an absent page (R391), or is dropped. -/
def hubChange (s : State) (k : KMap) (v : KvMove) (retry : Ev) (good : Bool) (change : Got State) : State :=
  match change with
  | .error (va, .absent) => match meetFault s (dieAgent 0) v.ctx va 4 0 retry .absent with
    | .wait s => s
    | .fail s _ _ => moveEnds s k v good change
  | _ => moveEnds s k v good change

/-- The transfer of a move, and its table changes. -/
def runCopy (s : State) (v : KvMove) (retry : Ev) (k : KMap) : State :=
  match moveCopy s k v with
  | .ok s => hubChange s k v retry true (moveDone s k v)
  | .error (va, e) => match meetFault s (dieAgent 0) v.ctx va 1 0 retry e with
    | .wait s => s
    | .fail s _ _ => hubChange s k v retry false (moveUndone s k v)

/-- Steps 1 and 2 of an eviction (R395): the entry is looked at again, a slot is popped and the entry set to `pending`; or the
entry is skipped. -/
def evictWork (s : State) (v : KvMove) (k : KMap) : Got State := do
  let a := hubAgent v.ctx
  let e ← readSeq a s k v.seq
  if !e.valid || e.cap ≤ v.entry then return dropMove s v
  let b ← readBlk a s e v.entry
  if b.bad then return dropMove (setErr a s k) v
  if b.st ≠ .mapped then return dropMove s v
  let x ← a.rd s (poolRef k b.num) 6
  if x ≠ 1 then return dropMove s v
  match (← popBack a s k) with
  | none => return dropMove s v
  | some (s, slot) =>
    let s ← writeBlk a s b .pending b.num
    return startMove (dropMove s v) { v with kind := 2, block := b.num, slot := slot, bytes := 32 * k.slotb }

/-- An eviction at the map's slice: an absent page of the tables is waited for (R383), and a change that fails for good is
dropped with the err flag (R391). -/
def runEvict (s : State) (v : KvMove) (retry : Ev) (k : KMap) : State :=
  match evictWork s v k with
  | .ok s => s
  | .error (va, e) => match meetFault s (dieAgent 0) v.ctx va 4 0 retry e with
    | .wait s => s
    | .fail s _ _ => dropMove (setErr (hubAgent v.ctx) s k) v

/-- What the hub does for a move of its list: a copy (kinds 0 to 2), an eviction that begins (3) or a search for victims (4). A
descriptor that cannot be read, or is no longer valid, ends it (R391). -/
def runMove (s : State) (v : KvMove) (retry : Ev) : State :=
  match readMap (hubAgent v.ctx) s (seqbOf s v.ctx) v.map with
  | .ok (.ok k) => if v.kind = 3 then runEvict s v retry k else if v.kind = 4 then fillVictims s v k else runCopy s v retry k
  | .ok (.bad _) => dropMove s v
  | .error (va, e) => match meetFault s (dieAgent 0) v.ctx va 4 0 retry e with
    | .wait s => s
    | .fail s _ _ => dropMove s v

/-- KV_MOVE_COMPLETE (R391). -/
def execKvMoveComplete (id : Nat) (s : State) : Out :=
  match s.hub.moves.find? (fun v => v.id = id) with
  | none => .next s
  | some v => .next (runMove s v (.kvMoveComplete id))

/-- EVICTION_COMPLETE (R395): the steps of an eviction at the map's slice, and the transfer that they need. -/
def execEvictionComplete (id : Nat) (s : State) : Out :=
  match s.hub.moves.find? (fun v => v.id = id) with
  | none => .next s
  | some v => .next (runMove s v (.evictionComplete id))

/-- An eviction of a queued entry begins (R395). -/
def evict (s : State) (v : Victim) : State :=
  let m : KvMove := { id := s.nextId, kind := 3, ctx := v.ctx, map := v.map, seq := v.seq, entry := v.idx, block := 0, slot := 0,
                      bytes := 0, srcBlock := 0 }
  runMove (addMove s m) m (.evictionComplete m.id)

/-- DETENT_EXPIRY (R394): the entries that are neither confirmed nor vetoed are evicted in order; a detent that has not
run out stands. It waits for an update of the hub (20 R448). -/
def execDetentExpiry (s : State) : Out :=
  if s.hub.updating.contains 4 then .next (s.postOnce .detentExpiry)
  else if s.hub.victims.isEmpty then .next s
  else if s.clk.toNat < s.hub.detent then .next (s.postOnce .detentExpiry)
  else
    let vs := s.hub.victims.filter (fun v => !v.confirmed)
    .next (vs.foldl evict (s.onHub (fun h => { h with victims := [], detent := 0 })))

/-- VICTIM_CONFIRM (R394). The hub's handling of the queue waits for an update of the hub (20 R448). -/
def execVictimConfirm (i : Nat) (s : State) : Out :=
  if s.hub.updating.contains 4 then .next (s.postOnce (.victimConfirm i)) else
  match s.hub.victims[i]? with
  | none => .next s
  | some v =>
    if v.confirmed then .next s
    else .next (evict (s.onHub (fun h => { h with
      victims := h.victims.modify i (fun v => { v with confirmed := true }) })) v)

/-- VICTIM_VETO (R394). -/
def execVictimVeto (i : Nat) (s : State) : Out :=
  if s.hub.updating.contains 4 then .next (s.postOnce (.victimVeto i)) else
  .next (s.onHub (fun h => { h with victims := h.victims.take i ++ h.victims.drop (i + 1) }))

/-- VICTIM_REORDER (R394): an order of the entries' positions. -/
def execVictimReorder (order : List Nat) (s : State) : Out :=
  if s.hub.updating.contains 4 then .next (s.postOnce (.victimReorder order)) else
  let n := s.hub.victims.length
  if order.length = n && (List.range n).all (fun i => order.contains i) then
    .next (s.onHub (fun h => { h with victims := order.filterMap (fun i => h.victims[i]?) }))
  else .next s

/-! ## The other instructions (R389-R393, R396) -/

/-- An instruction on a map that answers a status. -/
def effSeq (op : Agent → State → KMap → Got (State × Nat)) (c : C) (s : State) : Eff :=
  let a := c.t.agent
  match readMap a s c.t.seqb.toNat (c.sc64 s c.x.a).toNat with
  | .error (va, e) => c.meet s va 4 e
  | .ok (.bad sub) => .trap s (c.trap 0x05 sub)
  | .ok (.ok k) => match op a s k with
    | .error (va, e) => c.meet s va 4 e
    | .ok (s, x) => .done (retestAll (c.putS s (BitVec.ofNat 64 x)))

/-- The entry of a position, when it is in range (R389, test 1). -/
def entryOf (a : Agent) (s : State) (k : KMap) (n p : Nat) : Got (Option (State × BlkEnt)) := do
  if k.nseq ≤ n then return none
  let e ← readSeq a s k n
  if !e.valid || e.cap ≤ p / 32 then return none
  let b ← readBlk a s e (p / 32)
  return some (errWhen a s k b.bad, b)

/-- `kvmap` (R389). -/
def kvmapOp (op n p : Nat) (a : Agent) (s : State) (k : KMap) : Got (State × Nat) := do
  match (← entryOf a s k n p) with
  | none => return (s, 3)
  | some (s, b) =>
    match op, b.st with
    | 0, .absent => match (← popFree a s k) with
      | none => return (s, 2)
      | some (s, x) =>
        let s ← freshBlock a s k x 1
        let s ← writeBlk a s b .mapped x
        return (afterPop a s k, 0)
    | 0, .mapped => return (s, 0)
    | 1, .evicted => match (← popFree a s k) with
      | none => return (s, 2)
      | some (s, x) =>
        let s ← freshBlock a s k x 1
        let s ← writeBlk a s b .pending x
        let s := startMove s { id := 0, kind := 0, ctx := a.ctx, map := k.num, seq := n, entry := p / 32, block := x,
                               slot := b.num, bytes := 32 * k.slotb, srcBlock := 0 }
        return (afterPop a s k, 1)
    | 1, .pending => return (s, 1)
    | 1, .mapped => return (s, 0)
    | 2, .mapped =>
      let s ← writeBlk a s b .absent 0
      let r ← a.rd s (poolRef k b.num) 2
      let s ← a.wr s (poolRef k b.num) 2 (r - 1)
      let s ← freeIfIdle a s k b.num
      return (s, 0)
    | 2, .evicted =>
      let s ← writeBlk a s b .absent 0
      let s ← pushBack a s k b.num
      return (s, 0)
    | _, _ => return (s, 4)

/-- The first n entries of a sequence, from entry i. -/
def readBlks (a : Agent) (s : State) (e : SeqEnt) : Nat → Nat → Got (List BlkEnt)
  | _, 0 => return []
  | i, n + 1 => do
    let b ← readBlk a s e i
    let l ← readBlks a s e (i + 1) n
    return b :: l

/-- Whether no ref would pass 65,535 (R390). -/
def refsFit (a : Agent) (s : State) (k : KMap) (bs : List Nat) : List Nat → Got Bool
  | [] => return true
  | b :: l => do
    let r ← a.rd s (poolRef k b) 2
    if 65535 < r + bs.count b then return false
    refsFit a s k bs l

/-- Entries of dst become those of src, each with one more ref (R390). -/
def shareAll (a : Agent) (s : State) (k : KMap) : List (BlkEnt × BlkEnt) → Got State
  | [] => return s
  | (x, y) :: l => do
    let s ← writeBlk a s y .mapped x.num
    let r ← a.rd s (poolRef k x.num) 2
    let s ← a.wr s (poolRef k x.num) 2 (r + 1)
    shareAll a s k l

/-- `kvshare` (R390). -/
def kvshareOp (dst src m : Nat) (a : Agent) (s : State) (k : KMap) : Got (State × Nat) := do
  if k.nseq ≤ dst || k.nseq ≤ src then return (s, 3)
  let d ← readSeq a s k dst
  let e ← readSeq a s k src
  let s := errWhen a s k (e.cut || d.cut)
  if !d.valid || !e.valid || e.len < m || 32 * d.cap < m then return (s, 3)
  let f := m / 32
  let r := m % 32
  let n := if r = 0 then f else f + 1
  let xs ← readBlks a s e 0 n
  let ys ← readBlks a s d 0 n
  let s := errWhen a s k (xs.any (fun b => b.bad) || ys.any (fun b => b.bad))
  if xs.any (fun b => b.st ≠ .mapped) || ys.any (fun b => b.st ≠ .absent) then return (s, 4)
  let nums := (xs.take f).map (fun b => b.num)
  if !(← refsFit a s k nums nums) then return (s, 5)
  let free ← a.rd s (k.desc + 60) 4
  if r ≠ 0 && free = 0 then return (s, 2)
  let s ← shareAll a s k ((xs.take f).zip ys)
  let s ← match xs[f]?, ys[f]? with
    | some x, some y => do
      match (← popFree a s k) with
      | none => pure s
      | some (s, b) =>
        let s ← freshBlock a s k b 1
        let s ← writeBlk a s y .pending b
        let v : KvMove := { id := 0, kind := 1, ctx := a.ctx, map := k.num, seq := dst, entry := f, block := b, slot := 0,
                            bytes := r * k.slotb, srcBlock := x.num }
        pure (afterPop a (startMove s v) k)
    | _, _ => pure s
  let s ← a.wr s (d.at_ + 8) 4 m
  return (s, 0)

/-- `kvlen` (R392, R396). -/
def kvlenOp (set : Bool) (n len : Nat) (a : Agent) (s : State) (k : KMap) : Got (State × Nat) := do
  if n = 0xFFFFFFFF then
    let x ← a.rd s k.desc 1
    let s ← a.wr s k.desc 1 (x % 2)
    return (s, x / 2 % 2)
  if k.nseq ≤ n then return (s, 2 ^ 64 - 1)
  let e ← readSeq a s k n
  if !e.valid then return (s, 2 ^ 64 - 1)
  if !set then return (errWhen a s k e.cut, e.len)
  if 32 * e.cap < len then return (s, 1)
  let s ← a.wr s (e.at_ + 8) 4 len
  return (s, 0)

/-- `kvpin` (R393). -/
def kvpinOp (n p : Nat) (a : Agent) (s : State) (k : KMap) : Got (State × Nat) := do
  match (← entryOf a s k n p) with
  | none => return (s, 3)
  | some (s, b) =>
    if b.st ≠ .mapped then return (s, 4)
    let x ← a.rd s (poolPins k b.num) 2
    if x = 65535 then return (s, 5)
    let s ← a.wr s (poolPins k b.num) 2 (x + 1)
    return (s, 0)

/-- `kvunpin` (R393): the status of the entry, or the entry that it releases, in the state with the err flag that a malformed entry
sets (R381). -/
def unpinAt (n p : Nat) (a : Agent) (s : State) (k : KMap) : Got (State × Except Nat BlkEnt) := do
  match (← entryOf a s k n p) with
  | none => return (s, .error 3)
  | some (s, b) => return (s, if b.st ≠ .mapped then .error 4 else .ok b)

/-- A pin of a block ends. -/
def dropPin (a : Agent) (s : State) (k : KMap) (b : Nat) : Got (State × Nat) := do
  let x ← a.rd s (poolPins k b) 2
  if x = 0 then return (s, 4)
  let s ← a.wr s (poolPins k b) 2 (x - 1)
  return (← freeIfIdle a s k b, 0)

/-- `kvmap` at issue. -/
def effKvmap (c : C) (s : State) : Eff :=
  effSeq (kvmapOp (c.x.f 1 0) (c.opnd s c.x.b 32 0) (c.opnd s c.x.c 32 0)) c s
/-- `kvshare` at issue: the run holds dst, src and the match length. -/
def effKvshare (c : C) (s : State) : Eff :=
  let b := c.x.b.code.toNat
  let v (k : Nat) : Nat := (c.t.sval (b + k)).toNat % 2 ^ 32
  effSeq (kvshareOp (v 0) (v 1) (v 2)) c s
/-- `kvlen` at issue. -/
def effKvlen (c : C) (s : State) : Eff :=
  effSeq (kvlenOp (c.x.bit 0) (c.opnd s c.x.b 32 0) (c.opnd s c.x.c 32 0)) c s
/-- `kvpin` at issue. -/
def effKvpin (c : C) (s : State) : Eff := effSeq (kvpinOp (c.opnd s c.x.b 32 0) (c.opnd s c.x.c 32 0)) c s
/-- `kvunpin` at issue. A use whose pool table cannot be written leaves the list, and the block keeps it, with the map's err flag
and no trap (R387). -/
def effKvunpin (c : C) (s : State) : Eff :=
  let a := c.t.agent
  let ends (s : State) (x : Nat) : Eff := .done (retestAll (c.putS s (BitVec.ofNat 64 x)))
  match readMap a s c.t.seqb.toNat (c.sc64 s c.x.a).toNat with
  | .error (va, e) => c.meet s va 4 e
  | .ok (.bad sub) => .trap s (c.trap 0x05 sub)
  | .ok (.ok k) => match unpinAt (c.opnd s c.x.b 32 0) (c.opnd s c.x.c 32 0) a s k with
    | .error (va, e) => c.meet s va 4 e
    | .ok (s, .error x) => ends s x
    | .ok (s, .ok b) =>
      if c.x.bit 0 then match dropPin a s k b.num with
        | .ok (s, x) => ends s x
        | .error (va, e) => c.meet s va 4 e
      else if !c.t.uses.contains (k.num, b.num) then ends s 4
      else
        let off (s : State) : State := s.onTeam c.t.uid (fun t => { t with uses := t.uses.erase (k.num, b.num) })
        match dropUse a s c.t.seqb.toNat k.num b.num with
        | .ok s => ends (off s) 0
        | .error (va, e) => match meetFault s c.t.core c.t.ctx va 4 0 (.instructionFetch c.t.uid) e with
          | .wait s => .wait (s.onTeam c.t.uid (fun t => { t with run := .parked .fault }))
          | .fail s _ _ => ends (off (setErr a s k)) 0

/-- KVX (R385). -/
def execKvx (x : Ext) (s : State) : Out := issueExt (.kvx x) 0x55 0 x effKvx s
/-- KVMAP (R389). -/
def execKvmap (x : Ext) (s : State) : Out := issueExt (.kvmap x) 0x55 1 x (onGo effKvmap) s
/-- KVSHARE (R390). -/
def execKvshare (x : Ext) (s : State) : Out := issueExt (.kvshare x) 0x55 2 x (onGo effKvshare) s
/-- KVLEN (R392, R396). -/
def execKvlen (x : Ext) (s : State) : Out := issueExt (.kvlen x) 0x55 3 x (onGo effKvlen) s
/-- KVPIN (R393). -/
def execKvpin (x : Ext) (s : State) : Out := issueExt (.kvpin x) 0x55 4 x (onGo effKvpin) s
/-- KVUNPIN (R393). -/
def execKvunpin (x : Ext) (s : State) : Out := issueExt (.kvunpin x) 0x55 5 x (onGo effKvunpin) s

end Sys2Proof.Machine
end

