-- ==== Sys2Proof/Machine/Task.lean ====
section
/-!
DEFINITION. Queues, tasks and dependence counters (15), and the end of a task (14 R326, R327).
-/

namespace Sys2Proof.Machine

/-! ## Queue units (R334, R337) -/

/-- The number of entries in a ring. -/
def Queue.count (q : Queue) : Nat := (q.tail - q.head).toNat

/-- The capacity of a ring. -/
def Queue.cap (q : Queue) : Nat := 2 ^ q.lcap

/-- The key of entry i of a ring. -/
def Queue.at_ (q : Queue) (i : BitVec 32) : Nat := physKey 0 (q.ring + 32 * (i.toNat % q.cap))

/-- The four words of an entry in memory (R336). -/
def entryAt (m : Memory) (k : Nat) : List Word64 := (List.range 4).map (fun j => BitVec.ofNat 64 (m.num (k + 8 * j) 8))

/-- The bytes of an entry. -/
def entryBytes32 (e : List Word64) : List Byte := e.flatMap (fun w => leBytes 8 w.toNat)

/-- The pop of a team is over, and with it the team's wait for it. -/
def Team.popped (t : Team) : Team :=
  { t with
    pop := []
    run := match t.run with
      | .saved (some .qpop) => .saved none
      | .parked .qpop => .running
      | r => r }

/-- An entry is handed to a team whose pop is on its way or waits (R344): its registers become full, and a task opens with the next
stamp (02 R53). The pop is an acquire of scope `dev` (R339). `pop` holds the queue, D, `.nb`, the status register and the address of
the instruction after the `qpop`. -/
def handOver (s : State) (u : Nat) (e : List Word64) : State :=
  match s.team? u with
  | none => s
  | some t =>
    let d := t.pop.getD 1 0
    let se := t.pop.getD 3 0
    let k : Task := { age := s.age, queue := t.pop.getD 0 0, entry := e, dst := d, restart := BitVec.ofNat 64 (t.pop.getD 4 0),
                      restarts := 0, deferred := [], logged := [], declared := false }
    let u := (t.setSs d e).setFull false d true 4
    let u := if t.pop.getD 2 0 = 1 then (u.setS se 0).setSFull se true else u
    acqDrop ({ s with age := s.age + 1 }.setTeam { u.popped with task := some k, wound := false }) t.core

/-- What the team of a push learns: `code` 0 when it was accepted, 1 when the queue was full (R345, R346). -/
def pushAnswer (s : State) (m : PushMsg) (code : Nat) : State :=
  match m.kind with
  | .counter => s
  | .fragment => s.postOnce (.fragmentPush m.dst m.len)
  | .tend => s.postOnce (.tendCommit m.team)
  | .qpush => s.onTeam m.team (fun t =>
      if t.run = .parked .qpush && t.aux.head? = some m.id then
        { (t.setS m.dst (BitVec.ofNat 64 code)) with pc := BitVec.ofNat 64 (t.aux.getD 1 0), run := .running, aux := [] }
      else t)
  | .qwpush => s.onTeam m.team (fun t =>
      let t := t.setS m.dst (BitVec.ofNat 64 (m.len * 2 ^ 32 + code))
      match t.run with
      | .parked .qpush => { t with run := .running, aux := [] }
      | .saved (some .qpush) => { t with run := .saved none, aux := [] }
      | _ => t)

/-- An entry is written at the tail (R337). -/
def appendEntry (s : State) (q : Queue) (e : List Word64) : State :=
  (s.apply (cellsAt (q.at_ q.tail) (entryBytes32 e))).onQueue q.num (fun q => { q with tail := q.tail + 1 })

/-- A push at its queue unit (R337): handed to the longest-waiting popper, appended, refused or queued. A launch queue
hands its entries to firmware (05 R113). -/
def pushAt (s : State) (m : PushMsg) : State :=
  match s.queue? m.queue with
  | none => s
  | some q =>
    if q.isLaunch then pushAnswer (s.post (.launchEntryArrival q.num m.entry)) m 0
    else match q.poppers with
      | u :: us => pushAnswer (handOver (s.onQueue q.num (fun q => { q with poppers := us })) u m.entry) m 0
      | [] =>
        if q.count < q.cap then pushAnswer (appendEntry s q m.entry) m 0
        else if m.nb then pushAnswer s m 1
        else s.onQueue q.num (fun q => { q with pushers := q.pushers ++ [m] })

/-- Whether the earlier accesses of a pushing team on `ls` are performed, so that its push may arrive as a release of
scope `dev` (R339). A release withdrawn from its gate waits for a handler and is not counted. -/
def pushReady (s : State) (m : PushMsg) : Bool :=
  m.kind = .counter || m.kind = .fragment || ((lsFlights s m.team).all Flight.withdrawn && !s.writes.any (fun w => w.team = m.team && w.path = 0))

/-- QUEUE_PUSH_ARRIVAL (R337, R339). -/
def execQueuePushArrival (id : Nat) (s : State) : Out :=
  match s.pushes.find? (fun m => m.id = id) with
  | none => .next s
  | some m =>
    if pushReady s m then .next (pushAt { s with pushes := s.pushes.filter (fun m => m.id ≠ id) } m)
    else .next (s.postOnce (.queuePushArrival id))

/-- A push starts toward its queue unit. -/
def startPush (s : State) (m : PushMsg) : State :=
  { s with pushes := s.pushes ++ [{ m with id := s.nextId }], nextId := s.nextId + 1 }.post (.queuePushArrival s.nextId)

/-- A slot was freed: it goes to the longest-waiting pusher, else to an entry that the hub holds (R337, R340). -/
def slotFreed (s : State) (n : Nat) : State :=
  match s.queue? n with
  | none => s
  | some q => match q.pushers with
    | m :: ms => pushAnswer (appendEntry (s.onQueue n (fun q => { q with pushers := ms })) q m.entry) m 0
    | [] => if s.hub.overflow.any (fun h => h.queue = n) then s.postOnce (.overflowAppend n) else s

/-- A pop that finds its ring empty under `.nb`: the registers become full unchanged, the status is 1 (R344). -/
def popEmpty (t : Team) : Team :=
  let se := t.pop.getD 3 0
  (((t.setFull false (t.pop.getD 1 0) true 4).setS se 1).setSFull se true).popped

/-- QUEUE_POP_ARRIVAL (R337, R344): the entry at the head, an empty report, or a place among the poppers, for which the team parks.
While the team waits for something else it does not park, and the pop is looked at again (log 38). -/
def execQueuePopArrival (u : Nat) (s : State) : Out :=
  match s.team? u with
  | none => .next s
  | some t =>
    if t.pop.isEmpty then .next s
    else match s.queue? (t.pop.getD 0 0) with
      | none => .next s
      | some q =>
        if q.poppers.contains u then .next s
        else if 0 < q.count then
          let e := entryAt s.mem (q.at_ q.head)
          .next (slotFreed (handOver (s.onQueue q.num (fun q => { q with head := q.head + 1 })) u e) q.num)
        else if t.pop.getD 2 0 = 1 then .next (s.setTeam (popEmpty t))
        else if t.run = .running || t.run = .saved (some .qpop) then
          .next ((s.onTeam u (fun t => if t.run = .running then { t with run := .parked .qpop } else t)).onQueue q.num
            (fun q => { q with poppers := q.poppers ++ [u] }))
        else .next (s.postOnce (.queuePopArrival u))

/-- The pushes of a team of some kinds are withdrawn. -/
def leavePushes (s : State) (u : Nat) (p : PushMsg → Bool) : State :=
  { s with pushes := s.pushes.filter (fun m => !(m.team = u && p m)),
           queues := s.queues.map (fun q => { q with pushers := q.pushers.filter (fun m => !(m.team = u && p m)) }) }

/-- A team leaves every queue: its pops, and its pushes of some kinds. -/
def leaveQueues (s : State) (u : Nat) (p : PushMsg → Bool) : State :=
  leavePushes { s with queues := s.queues.map (fun q => { q with poppers := q.poppers.filter (· ≠ u) }) } u p

/-! ## The end of a task (14 R327, 15 R347) -/

/-- A `qpop` of a queue is on its way (R344): its registers are empty, and its team goes on after it. A team that is saved meanwhile
waits for it. -/
def startPop (s : State) (u q d nb se : Nat) (npc : Word64) : State :=
  (s.onTeam u (fun t =>
    let t := t.setFull false d false 4
    let t := if nb = 1 then t.setSFull se false else t
    { t with
      run := match t.run with
        | .saved _ => .saved (some .qpop)
        | _ => .running
      aux := [], pop := [q, d, nb, se, npc.toNat], pc := npc })).post (.queuePopArrival u)

/-- The task of a team is closed: no slot is declared, and `age` and `taskq` read as without a task (02 R54, R55). -/
def closeTask (s : State) (u : Nat) : State :=
  s.onTeam u (fun t => { t with task := none, sets := List.replicate 8 SetSlot.zero, wound := false })

/-- Whether an instruction that a handler's frame holds has still to be performed for the task: one on `ls`, or a deferred `qwpush`
(log 38). -/
def Team.owes (t : Team) : Bool := t.caught.any (fun f => match memOp? f.instr with
  | some m => m.kind ≠ .red
  | none => match t.task with
    | some k => k.deferred.any (fun d => match d with
      | .push g _ _ => decide (g = f.id ∧ g ≠ 0)
      | .dec _ => false)
    | none => false)

/-- Whether the stores, atomics and loads of a team on `ls` are performed and bound (14 R327, step 1), those that a frame holds
included. -/
def lsDone (s : State) (u : Nat) : Bool :=
  (lsFlights s u).isEmpty && !(s.team? u).any Team.owes && !s.writes.any (fun w => w.team = u && w.path = 0)

/-- A task ends before something else happens (02 R52): at once when it declared nothing, else after TEND_COMMIT, with
the instruction issued again when `aux` is empty. A wound that waited in a handler comes before the commit point: the handler is left
and its replay queue discarded, as by `tret` (14 R327, R330). -/
def endTask (aux : List Nat) (k : State → Eff) (c : C) (s : State) : Eff :=
  let free (s : State) : Eff := match usesAbsent s c.t with
    | some va => (match meetFault s c.t.core c.t.ctx va 4 0 (.instructionFetch c.t.uid) .absent with
      | .wait s => .wait (s.onTeam c.t.uid (fun t => { t with run := .parked .fault }))
      | .fail s _ _ => k (closeTask (dropUses s c.t) c.t.uid))
    | none => k (closeTask (dropUses s c.t) c.t.uid)
  match c.t.task with
  | none => free s
  | some t =>
    if !t.declared then free s
    else if c.t.wound then .wait (s.setTeam { c.t.fillRdst with handler := false, caught := [] })
    else if !lsDone s c.t.uid then .wait s
    else .wait ((s.onTeam c.t.uid (fun t => { t with run := .parked .apply, aux := aux })).post (.tendCommit c.t.uid))

/-- `tend` (R347). -/
def effTend (c : C) (s : State) : Eff := endTask [c.npc.toNat] .done c s

/-! ## Dependence counters (R348, R349) -/

/-- A decrement of the counter at a key, at its queue unit: the status, and the successor's entry when it fires. -/
def counterDec (s : State) (ctx k : Nat) : State × Nat :=
  let c := sextN 32 (s.mem.num k 4)
  let q := s.mem.num (k + 4) 2
  let fl := s.mem.num (k + 6) 2
  let own := (s.queue? q).any (fun r => r.ctx = ctx)
  let (fl', st) := if c = 1 then (if own then (fl ||| 2, 1) else (fl ||| 1, 3))
    else if c ≤ 0 then (fl ||| 1, 2) else (fl, 0)
  let s := s.apply (cellsAt k (leBytes 4 (patN 32 (c - 1)) ++ leBytes 2 q ++ leBytes 2 fl'))
  (if st = 1 then startPush s { id := 0, queue := q, entry := entryAt s.mem (k + 32), team := 0, kind := .counter,
                                nb := false, dst := 0, len := 0 } else s, st)

/-- A decrement by a team, after its earlier writes to the record; whether it was made. -/
def decAt (s : State) (t : Team) (k : Nat) : State × Option Nat :=
  let keys := (List.range 64).map (fun i => k + i)
  let s := applyAll s (writesOn s t.core t.uid keys true)
  if !(writesOn s t.core t.uid keys true).isEmpty then (s, none)
  else
    let r := counterDec s t.ctx k
    (keys.foldl (fun s x => l1DropLine s t.core x) r.1, some r.2)

/-- The checks of a counter's page (R349): its key, or a trap. -/
inductive CounterAt where
  | key (k : Nat)
  | tier
  | meets (e : Tr)

/-- The counter at an address: the tier of its page is judged first, then its permission (R349). -/
def counterAt (s : State) (t : Team) (va : Nat) : CounterAt :=
  match leafFor s t.core t.ctx va with
  | some e => if pteTier e ≠ 0 then .tier else match translate s t.core t.ctx va 64 .atomic with
    | .ok g => .key g.key
    | e => .meets e
  | none => match translate s t.core t.ctx va 64 .atomic with
    | .ok g => .key g.key
    | e => .meets e

/-- The room that a deferred operation needs (14 R326). -/
def Team.defers (t : Team) : Bool := t.task.isSome && t.sets.any (fun k => k.st ≠ .empty)

/-- Whether the deferred list is full. -/
def Team.listFull (t : Team) : Bool := match t.task with
  | some k => 16 ≤ k.deferred.length
  | none => false

/-- Appends to the deferred list. -/
def deferOp (s : State) (u : Nat) (d : Deferred) : State :=
  s.onTeam u (fun t => { t with task := t.task.map (fun k => { k with deferred := k.deferred ++ [d] }) })

/-- Removes the head of the deferred list. -/
def deferTail (s : State) (u : Nat) : State :=
  s.onTeam u (fun t => { t with task := t.task.map (fun k => { k with deferred := k.deferred.tail }) })

/-- The address that a base and the offset of an instruction give (R349). -/
def offAddr (x : Ext) (base : Nat) : Nat := patN 64 ((base : Int) + sextN 14 (x.f 13 0))

/-- `dcdec` (R349). -/
def effDcdec (c : C) (s : State) : Eff :=
  let ea := offAddr c.x (c.base s)
  if !canonical ea then .trap s (c.trapAt 0x06 0x0400 ea [])
  else if ea % 64 ≠ 0 then .trap s (c.trapAt 0x04 0x0100 ea [])
  else match counterAt s c.t ea with
    | .tier => .trap s (c.trap 0x0E 4)
    | .meets e => c.meet s ea 0 e
    | .key k =>
      let s := tlbFill s c.t.core c.t.ctx ea
      if c.t.defers then
        if c.t.listFull then .trap s (c.trap 0x0E 0x0010)
        else .done (c.putS (deferOp s c.t.uid (.dec (BitVec.ofNat 64 ea))) 0)
      else if outstandingCap ≤ outstanding s c.t.uid then .wait s
      else
        let id := s.nextId
        let w := lsWaits s c.t.uid 3
        let r : LaneReq := { lane := 0, addr := BitVec.ofNat 64 (c.base s), data := 0, st := .ready [{ key := k, len := 64, kind := 0 }] }
        let s := c.launch s [r] [] [0] true
        .done ({ s with flights := s.flights.map (fun (f : Flight) => if f.id = id then { f with waits := w } else f) }.post
          (.dcdecApply id))

/-- A `dcdec` whose page is looked up again waits on no fault. -/
def dcdecAgain (s : State) (f : Flight) : State :=
  if f.lanes.any (fun l => l.st = .faulted) then settle (setLane s f.id 0 (.ready [])) f.team else s

/-- DCDEC_APPLY (R349): the decrement is a release of scope `dev`, made after the team's earlier accesses; the status
reaches sD. A page that has left since is looked up again, and its lane waits for the fault (19 R433). -/
def execDcdecApply (id : Nat) (s : State) : Out :=
  match s.flight? id with
  | none => .next s
  | some f => match s.team? f.team, f.instr, f.lanes with
    | some t, .dcdec x, r :: _ =>
      let ea := offAddr x r.addr.toNat
      let s := dcdecAgain s f
      if f.withdrawn then .next s
      else if !f.waits.isEmpty then .next (s.postOnce (.dcdecApply id))
      else match counterAt s t ea with
        | .key k =>
          match decAt s t k with
          | (s, none) => .next (s.postOnce (.dcdecApply id))
          | (s, some st) =>
            let s := s.onTeam t.uid (fun t => t.setS x.d.toNat (BitVec.ofNat 64 st))
            .next (endFlight (clearWait (setLane s id 0 .done) id) { f with lanes := [] })
        | .tier =>
          let s := endFlight (clearWait s id) { f with lanes := [] }
          .next (settle (raise s t.uid f.again { trapHere f.pc f.npc 0x0E 4 with op := id }) t.uid)
        | .meets e => match meetFault s t.core t.ctx ea 0 id (.dcdecApply id) e with
          | .wait s => .next (if s.faults.any (fun q => q.flight = id)
              then parkFault (setLane s id 0 .faulted) t.uid else s)
          | .fail s code cause => .next (endFlight (clearWait s id)
              { f with lanes := [{ r with st := .failed code (cause * 256) ea }] })
    | _, _, _ => .next s

/-! ## Committing (14 R327) -/

/-- k0-k7 are empty, and no line is logged. -/
def Team.noSets (t : Team) : Team :=
  { t with sets := List.replicate 8 SetSlot.zero, task := t.task.map (fun k => { k with logged := [] }) }

/-- The entries of the task's sets are released, the undo area is emptied, and k0-k7 are empty (step 2). -/
def commitSets (s : State) (t : Team) : Got State :=
  if t.sets.all (fun k => k.st = .empty) then .ok s
  else match clearUndo s t with
    | .ok s => .ok ((releaseHasps s t.uid (fun _ => true)).onTeam t.uid Team.noSets)
    | .error e => .error e

/-- Whether a push of a team's commit is on its way or waits. -/
def pushing (s : State) (u : Nat) : Bool :=
  let mine (m : PushMsg) : Bool := m.team = u && m.kind = .tend
  s.pushes.any mine || s.queues.any (fun q => q.pushers.any mine)

/-- The task has ended: the team goes on after its `tend`, issues its `texit` again, or pops from the queue that its `qpop` read
(02 R52). -/
def commitDone (s : State) (t : Team) : State :=
  match t.aux with
  | [n, q, d, nb, se] => startPop (closeTask s t.uid) t.uid q d nb se (BitVec.ofNat 64 n)
  | _ => (closeTask s t.uid).onTeam t.uid (fun u => { u with
    pc := match t.aux with
      | [] => u.pc
      | n :: _ => BitVec.ofNat 64 n
    aux := []
    run := match t.run with
      | .saved _ => .saved none
      | _ => .running })

/-- A deferred decrement whose counter has left the HBM tier (R343): the trap is precise, at the instruction that commits, and
the list stands. A saved team meets it when it has resumed. -/
def commitStop (s : State) (t : Team) : State :=
  match t.run with
  | .saved _ => s.onTeam t.uid (fun u => { u with run := .saved none, aux := [] })
  | _ =>
    let npc := match t.aux with
      | [] => t.pc
      | n :: _ => BitVec.ofNat 64 n
    raise (s.onTeam t.uid (fun u => { u with run := .running, aux := [] })) t.uid false (trapHere t.pc npc 0x0E 4)

/-- The next deferred operation is performed (step 3), in program order. -/
def commitNext (s : State) (t : Team) (d : Deferred) : State :=
  match d with
  | .push f q e =>
    if (s.flight? f).isSome then s
    else startPush (deferTail s t.uid)
      { id := 0, queue := q, entry := e, team := t.uid, kind := .tend, nb := false, dst := 0, len := 0 }
  | .dec ea =>
    let bad (s : State) (code sub : Nat) : State :=
      (addPending (deferTail s t.uid) t.uid { trapHere 0 0 code sub with addr := ea, lanes := [0], imprecise := true }).postOnce
        (.tendCommit t.uid)
    match counterAt s t ea.toNat with
    | .key k => match decAt s t k with
      | (s, none) => s.postOnce (.tendCommit t.uid)
      | (s, some _) => (deferTail s t.uid).postOnce (.tendCommit t.uid)
    | .tier => commitStop s t
    | .meets e => match meetFault s t.core t.ctx ea.toNat 0 0 (.tendCommit t.uid) e with
      | .wait s => s
      | .fail s code cause => bad s code (cause * 256)

/-- TEND_COMMIT (14 R327): after the commit point, the sets are released and the deferred list is performed. -/
def execTendCommit (u : Nat) (s : State) : Out :=
  match s.team? u with
  | none => .next s
  | some t =>
    if t.run ≠ .parked .apply && t.run ≠ .saved (some .apply) then .next s
    else
      let retry : Ev := .tendCommit u
      let go (s : State) : State :=
        if pushing s u then s
        else match s.team? u with
          | none => s
          | some t => match t.task with
            | some { deferred := d :: _, .. } => commitNext s t d
            | _ => match usesAbsent s t with
              | none => commitDone (dropUses s t) t
              | some va => match meetFault s t.core t.ctx va 4 0 retry .absent with
                | .wait s => s
                | .fail s _ _ => commitDone (dropUses s t) t
      match commitSets s t with
      | .ok s => .next (go s)
      | .error (va, e) => match meetFault s t.core t.ctx va 0 0 retry e with
        | .wait s => .next s
        | .fail s _ _ => .next (go ((releaseHasps s u (fun _ => true)).onTeam u Team.noSets))

/-! ## Group task (R342-R346, R350) -/

/-- The queue that an operand names, when the team's context owns it (R342). -/
def C.queueOf (c : C) (s : State) : Option Queue :=
  let n := (c.sc64 s c.x.a).toNat
  if 65536 ≤ n then none
  else match s.queue? n with
    | some q => if q.ctx = c.t.ctx then some q else none
    | none => none

/-- `qpop` (R344): the checks, the implicit `tend`, and the pop on its way. The queue is read before the task ends. -/
def effQpop (c : C) (s : State) : Eff :=
  match c.queueOf s with
  | none => .trap s (c.trap 0x0E 1)
  | some q =>
    let d := c.x.d.toNat
    if q.isLaunch then .trap s (c.trap 0x0E 2)
    else endTask [c.npc.toNat, q.num, d, c.x.f 0 0, c.x.f 7 1]
      (fun s => .done (startPop s c.t.uid q.num d (c.x.f 0 0) (c.x.f 7 1) c.npc)) c s

/-- The entry in a run of four registers. -/
def C.entry (c : C) (n : Nat) : List Word64 := (List.range 4).map (fun j => c.t.sval (n + j))

/-- `qpush` (R345). -/
def effQpush (c : C) (s : State) : Eff :=
  match c.queueOf s with
  | none => .trap s (c.trap 0x0E 1)
  | some q =>
    let e := c.entry c.x.b.code.toNat
    if c.t.defers then
      if c.t.listFull then .trap s (c.trap 0x0E 0x0010)
      else .done (c.putS (deferOp s c.t.uid (.push 0 q.num e)) 0)
    else
      let id := s.nextId
      let s := startPush s { id := 0, queue := q.num, entry := e, team := c.t.uid, kind := .qpush, nb := c.x.bit 0,
                             dst := c.x.d.toNat, len := 0 }
      .wait (s.onTeam c.t.uid (fun t => { t with run := .parked .qpush, aux := [id, c.npc.toNat] }))

/-- `qwpush` at issue (R346, step 1): `aux` of its flight holds 0, the scratch source, the length, the bytes written,
whether it is deferred, the queue, the destination and the entry; a save adds the bytes of its source (R351). -/
def effQwpush (c : C) (s : State) : Eff :=
  let k := c.x.c.code.toNat
  let src := (c.t.sval k).toNat
  let dst := (c.t.sval (k + 1)).toNat
  let n := (c.t.sval (k + 2)).toNat
  let core := s.core c.t.core
  match c.queueOf s with
  | none => .trap s (c.trap 0x0E 1)
  | some q =>
    if n = 0 || 4096 < n then .trap s (c.trap 0x0E 3)
    else if !scratchOk core c.t.place c.t.ctx src n then .trap s (c.trapAt 0x05 0x0701 src [])
    else if !canonical dst || !canonical ((dst + (n - 1)) % 2 ^ 64) then .trap s (c.trapAt 0x06 0x0401 dst [])
    else if c.t.declares dst n then .trap s (c.trapAt 0x05 0x0801 dst [])
    else if c.t.defers && c.t.listFull then .trap s (c.trap 0x0E 0x0010)
    else if scratchHeld core c.t.place c.t.ctx src n || outstandingCap ≤ outstanding s c.t.uid then .wait s
    else
      let id := s.nextId
      let e := c.entry c.x.b.code.toNat
      let s := c.launch s [{ lane := 0, addr := c.sc64 s c.x.a, data := c.t.sval c.x.b.code.toNat, st := .todo }] []
        ([0, src, n, 0, bitNat c.t.defers, q.num, dst] ++ e.map (fun w => w.toNat)) true
      let s := if c.t.defers then c.putS (deferOp s c.t.uid (.push id q.num e)) 0 else s
      .done (s.post (.qwpushPayloadDone id))

/-- Byte i of the source of a payload: in scratch, or as a save captured it. -/
def payloadByte (core : Nat) (f : Flight) (s : State) (i : Nat) : Byte :=
  match f.aux.drop 11 with
  | [] => (s.core core).scratch.get (f.aux.getD 1 0 + i)
  | bs => BitVec.ofNat 8 (bs.getD i 0)

/-- The source of a `qwpush` in flight is captured, before a save frees the scratch of its team (R351). -/
def capturePayload (s : State) (u core : Nat) : State :=
  { s with flights := s.flights.map (fun (f : Flight) => match f.instr with
    | .qwpush _ => if f.team = u && f.aux.length = 11
        then { f with aux := f.aux ++ (List.range (f.aux.getD 2 0)).map (fun i => (payloadByte core f s i).toNat) } else f
    | _ => f) }

/-- Payload bytes from an offset, page by page: the state, the bytes written, and what stopped them. -/
def payload (core ctx dst n : Nat) (src : State → Nat → Byte) : Nat → State → Nat → State × Nat × Option Tr
  | 0, s, off => (s, off, none)
  | fuel + 1, s, off =>
    if n ≤ off then (s, off, none)
    else match translate s core ctx ((dst + off) % 2 ^ 64) (n - off) .write with
      | .ok g => payload core ctx dst n src fuel
          (s.apply ((List.range g.len).map (fun i => (g.key + i, src s (off + i))))) (off + g.len)
      | e => (s, off, some e)

/-- The payload of a `qwpush` is written: the enqueue, or the wait of a deferred one, follows (R346, step 3). -/
def payloadWritten (s : State) (t : Team) (f : Flight) (d : Nat) (nb : Bool) : State :=
  let s := clearWait (s.dropFlight f.id) f.id
  if f.aux.getD 4 0 = 1 then settle (s.postOnce (.tendCommit t.uid)) t.uid
  else
    let id := s.nextId
    let s := startPush s { id := 0, queue := f.aux.getD 5 0, entry := ((f.aux.drop 7).take 4).map (BitVec.ofNat 64), team := t.uid,
                           kind := .qwpush, nb := nb, dst := d, len := f.aux.getD 2 0 }
    s.onTeam t.uid (fun t => match t.run with
      | .saved _ => { t with run := .saved (some .qpush), aux := [id] }
      | _ => { t with run := .parked .qpush, aux := [id] })

/-- The payload of a `qwpush` failed for good (R346). -/
def payloadFailed (s : State) (t : Team) (f : Flight) (d off code cause : Nat) : State :=
  let s := clearWait (s.dropFlight f.id) f.id
  if f.aux.getD 4 0 = 1 then
    let s := s.onTeam t.uid (fun t => { t with task := t.task.map (fun k => { k with
      deferred := k.deferred.filter (fun x => match x with
        | .push g _ _ => g ≠ f.id
        | .dec _ => true) }) })
    let va := BitVec.ofNat 64 (f.aux.getD 6 0 + off)
    let tr : Trap := { trapHere f.pc f.npc 0x0E 0x0011 with
      addr := va, payload := cause * 256 + 1, lanes := [0], imprecise := true }
    settle ((addPending s t.uid tr).postOnce (.tendCommit t.uid)) t.uid
  else
    settle (s.onTeam t.uid (fun t => t.setS d
      (BitVec.ofNat 64 (off * 2 ^ 32 + cause * 256 + (if code = 0x06 then 2 else 3))))) t.uid

/-- `qinfo` (R350). -/
def effQinfo (c : C) (s : State) : Eff :=
  match c.queueOf s with
  | none => .trap s (c.trap 0x0E 1)
  | some q => .done (c.putS s (BitVec.ofNat 64 (match c.x.f 1 0 with
    | 0 => q.count
    | 1 => q.cap
    | 2 => q.poppers.length
    | _ => 1 + 2 * bitNat q.isLaunch + 4 * bitNat q.ovf)))

/-- QPOP (R344). -/
def execQpop (x : Ext) (s : State) : Out := issueExt (.qpop x) 0x53 0 x (onGo effQpop) s
/-- QPUSH (R345). -/
def execQpush (x : Ext) (s : State) : Out := issueExt (.qpush x) 0x53 1 x (onGo effQpush) s
/-- QWPUSH (R346). -/
def execQwpush (x : Ext) (s : State) : Out := issueExt (.qwpush x) 0x53 2 x (onGo effQwpush) s
/-- TEND (R347). -/
def execTend (x : Ext) (s : State) : Out := issueExt (.tend x) 0x53 3 x (onGo effTend) s
/-- DCDEC (R349). -/
def execDcdec (x : Ext) (s : State) : Out := issueExt (.dcdec x) 0x53 4 x (onGo effDcdec) s
/-- QINFO (R350). -/
def execQinfo (x : Ext) (s : State) : Out := issueExt (.qinfo x) 0x53 5 x (onGo effQinfo) s

/-- QPOP_SHORT (03 R78): `qpop` with nb = 0. -/
def execQpopShort (x : Short) (s : State) : Out :=
  issue (.qpopShort x) 0x53 0 (shortLen x) (shortOne x .sc .b64) (onGo effQpop) s
/-- TEND_SHORT (03 R78). -/
def execTendShort (x : Short) (s : State) : Out :=
  issue (.tendShort x) 0x53 3 (shortLen x) (shortBare x 0 0) (onGo effTend) s

end Sys2Proof.Machine
end

