-- ==== Sys2Proof/Machine/Surf.lean ====
section
/-!
DEFINITION. Surfaces (18 R398-R402), their texels and filters, and group surf (R404-R409).
-/

namespace Sys2Proof.Machine

/-! ## Descriptors (R398-R400) -/

/-- A surface descriptor that is valid and not malformed. -/
structure Surf where
  wr     : Bool
  fmt    : Nat
  layout : Nat
  width  : Nat
  height : Nat
  pitch  : Nat
  base   : Nat
  side   : Nat
  deriving DecidableEq, Repr

/-- The channels of a format (R400). -/
def fmtChans (fmt : Nat) : Nat := match fmt with
  | 1 => 2 | 2 => 4 | 4 => 4 | 6 => 4 | _ => 1

/-- The bytes of a channel of a format. -/
def chanBytes (fmt : Nat) : Nat := match fmt with
  | 0 | 1 | 2 => 2
  | 3 | 4 => 4
  | _ => 1

/-- The bytes of a texel. -/
def texBytes (fmt : Nat) : Nat := fmtChans fmt * chanBytes fmt

/-- The reading of a descriptor: the surface, or the subcode of R405. -/
inductive SurfRd where
  | bad (sub : Nat)
  | ok (f : Surf)
  deriving DecidableEq, Repr

/-- Whether a field lies outside its limit (R399). -/
def Surf.badField (f : Surf) : Bool :=
  let row := f.width * texBytes f.fmt
  6 < f.fmt || 2 < f.layout || f.width = 0 || 16384 < f.width || f.height = 0 || 16384 < f.height || f.base % 256 ≠ 0 ||
  (match f.layout with
   | 0 => f.pitch % texBytes f.fmt ≠ 0 || f.pitch < row || f.side ≠ 0
   | 1 => f.pitch < (row + 127) / 128 || f.side ≠ 0
   | _ => f.pitch ≠ 0 || f.side % 64 ≠ 0 || (f.fmt ≠ 5 && f.fmt ≠ 6) || f.wr)

/-- The fields of the 64 bytes of a descriptor, checked (R399, R405). -/
def parseSurf (bs : List Byte) : SurfRd :=
  let f : Surf :=
    { wr := (numAt bs 0 1).testBit 1, fmt := numAt bs 1 1, layout := numAt bs 2 1, width := numAt bs 16 2,
      height := numAt bs 18 2, pitch := numAt bs 20 4, base := numAt bs 24 8, side := numAt bs 32 8 }
  if !(numAt bs 0 1).testBit 0 then .bad 0x0B01
  else if 4 ≤ numAt bs 0 1 || numAt bs 3 13 ≠ 0 || numAt bs 40 24 ≠ 0 || f.badField then .bad 0x0B02
  else .ok f

/-- Reads the descriptor of a handle below `surfb` (R398, R405). -/
def readSurf (a : Agent) (s : State) (surfb h : Nat) : Got SurfRd :=
  if 2 ^ 20 ≤ h then .ok (.bad 0x0B01)
  else match a.bytes s (surfb + 64 * h) 64 with
    | .ok bs => .ok (parseSurf bs)
    | .error e => .error e

/-- The surface of a handle when its descriptor is valid and not malformed. -/
def surfOf (a : Agent) (s : State) (surfb h : Nat) : Got (Option Surf) :=
  match readSurf a s surfb h with
  | .ok (.ok f) => .ok (some f)
  | .ok (.bad _) => .ok none
  | .error e => .error e

/-- The address of a texel of a linear or blocked surface (R401). -/
def Surf.texel (f : Surf) (x y : Nat) : Nat :=
  let tb := texBytes f.fmt
  if f.layout = 0 then f.base + f.pitch * y + tb * x
  else f.base + 4096 * (y / 32 * f.pitch + tb * x / 128) + 128 * (y % 32) + tb * x % 128

/-! ## Reading texels (R400-R402) -/

/-- One byte of a texel as the sampler of a core sees it: its texel cache's, else memory's (R409). -/
def texByte (s : State) (core : Nat) (g : Seg) (key : Nat) : Byte :=
  match (if l1Ok g then (s.core core).texels.find? (fun l => l.key = key / 128 * 128) else none) with
  | some l => l.bytes.get key
  | none => s.mem.get key

/-- A number of texel data, through the texel cache where a sampler reads it. -/
def Agent.tex (a : Agent) (s : State) (va n : Nat) : Got Nat :=
  if a.surf.isNone then a.rd s va n
  else match piecesOf s a.core a.ctx .read va n with
    | .ok segs => .ok (leNat (segs.flatMap (fun g => (List.range g.len).map (fun i => texByte s a.core g (g.key + i)))))
    | .error e => .error (failVA s a.core a.ctx .read va n, e)

/-- The number and the address of the block of a VRB texel (R402). -/
def Surf.block (f : Surf) (x y : Nat) : Nat := y / 8 * ((f.width + 7) / 8) + x / 8

/-- A cached index entry of a block (R402). -/
def Agent.indexLine (a : Agent) (s : State) (n : Nat) : Option IndexLine :=
  a.surf.bind (fun h => (s.core a.core).vrbs.find? (fun l => l.ctx = a.ctx && l.handle = h && l.block = n))

/-- The side index entry of block n, from the index cache or from memory (R402). -/
def Agent.index (a : Agent) (s : State) (f : Surf) (n : Nat) : Got Nat :=
  match a.indexLine s n with
  | some l => .ok (leNat l.bytes)
  | none => a.rd s (f.side + 8 * n) 8

/-- The bits of a budget code per channel (R402). -/
def budgetBits (code : Nat) : Nat := match code with
  | 1 => 1 | 2 => 2 | 3 => 4 | 4 => 8 | 5 => 16 | _ => 0

/-- A channel of a VRB texel (R402), or the address of an index entry with a reserved budget code. -/
def vrbChan (a : Agent) (s : State) (f : Surf) (x y c : Nat) : Got (Nat ⊕ Nat) := do
  let e ← a.index s f (f.block x y)
  let code := e % 16
  if 5 < code then return .inr (f.side + 8 * f.block x y)
  if code = 0 then return .inl (e / 2 ^ (32 + 8 * c) % 256)
  let p := f.base + 16 * (bitsN e 31 4)
  let h ← a.tex s p 8
  let b := budgetBits code
  let bit := b * (fmtChans f.fmt * (8 * (y % 8) + x % 8) + c)
  let raw ← a.tex s (p + 8 + bit / 8) (if b = 16 then 2 else 1)
  let r := raw / 2 ^ (bit % 8) % 2 ^ b
  let v : Int := (h / 2 ^ (8 * c) % 256 : Nat) + (bitsN h 39 32 : Nat) * ((r : Int) - (bitsN h 55 40 : Nat))
  return .inl (min 255 (max 0 v)).toNat

/-- The bits of channel c of a texel inside a surface. -/
def chanRead (a : Agent) (s : State) (f : Surf) (x y c : Nat) : Got (Nat ⊕ Nat) := do
  if f.layout = 2 then vrbChan a s f x y c
  else
    let n ← a.tex s (f.texel x y + chanBytes f.fmt * c) (chanBytes f.fmt)
    return .inl n

/-- What a channel's value is divided by: 255 for n8 (R400). -/
def chanDen (fmt : Nat) : Int := if chanBytes fmt = 1 then 255 else 1

/-- A channel's bits as a value, before the division of `chanDen`. -/
def chanVal (fmt n : Nat) : FV := match chanBytes fmt with
  | 1 => if n = 0 then .zero false else .fin n 0
  | 2 => fmt16.value n
  | _ => fmt32.value n

/-- A value divided by the denominator and by 2^k, rounded once to f32 (R364, R406). -/
def chanF32 (fmt k : Nat) (v : FV) : Nat :=
  (fmt32.round .rne false false (FV.div v (.fin (chanDen fmt * 2 ^ k) 0)).1).1

/-! ## Filters (R364, R407) -/

/-- The floor of m × 2^e. -/
def floorDy (m e : Int) : Int := if 0 ≤ e then m * 2 ^ e.toNat else Int.fdiv m (2 ^ (-e).toNat)

/-- The floor of 256 × n times an f32, none for a NaN or a magnitude of 2^20 or more (16 R362, 18 R407). -/
def coord (n : Nat) (bits : Nat) : Option Int :=
  match fmt32.value bits with
  | .nan _ => none
  | .inf _ => none
  | .zero _ => some 0
  | .fin m e => if (2 ^ 20 : Int) ≤ floorDy (m.natAbs * n) e then none else some (floorDy (256 * n * m) e)

/-- The texels of a bilinear sample at U, V in 1/256 texel with their weights, those of weight 0 left out (R364). -/
def taps (u v : Int) : List (Int × Int × Nat) :=
  let i := Int.fdiv u 256
  let j := Int.fdiv v 256
  let fu := (u - 256 * i).toNat
  let fv := (v - 256 * j).toNat
  [(i, j, (256 - fu) * (256 - fv)), (i + 1, j, fu * (256 - fv)), (i, j + 1, (256 - fu) * fv),
   (i + 1, j + 1, fu * fv)].filter (fun t => t.2.2 ≠ 0)

/-- The weighted terms of a channel. -/
def termsOf (a : Agent) (s : State) (f : Surf) (c : Nat) (idx : Int → Nat → Nat) :
    List (Int × Int × Nat) → Got (List FV ⊕ Nat)
  | [] => return .inl []
  | (i, j, w) :: l => do
    match (← chanRead a s f (idx i f.width) (idx j f.height) c) with
    | .inr x => return .inr x
    | .inl n => match (← termsOf a s f c idx l) with
      | .inr x => return .inr x
      | .inl vs => return .inl ((FV.mul (chanVal f.fmt n) (.fin w 0)).1 :: vs)

/-- A sample of a channel at (px, py) in 1/256 texel (R364, R407). -/
def sampleAt (a : Agent) (s : State) (f : Surf) (c : Nat) (bil : Bool) (idx : Int → Nat → Nat) (px py : Int) :
    Got (Nat ⊕ Nat) := do
  if fmtChans f.fmt ≤ c then return .inl 0
  if bil then
    match (← termsOf a s f c idx (taps (px - 128) (py - 128))) with
    | .inr x => return .inr x
    | .inl vs => return .inl (chanF32 f.fmt 16 (sumFV .rne vs).1)
  else
    match (← chanRead a s f (idx (Int.fdiv px 256) f.width) (idx (Int.fdiv py 256) f.height) c) with
    | .inr x => return .inr x
    | .inl n => return .inl (chanF32 f.fmt 0 (chanVal f.fmt n))

/-- The clamping of an index (R364, R407). -/
def clampIdx (i : Int) (n : Nat) : Nat := (min ((n : Int) - 1) (max 0 i)).toNat

/-- The wrapping of an index (R407). -/
def wrapIdx (i : Int) (n : Nat) : Nat := (i % (n : Int)).toNat

/-- The bits that an f32 writes in a channel (R400). -/
def chanWrite (fmt v : Nat) : Nat := match chanBytes fmt with
  | 4 => v
  | 2 => (fmt16.round .rne false false (fmt32.value v)).1
  | _ => match fmt32.value v with
    | .nan _ => 0
    | .inf neg => if neg then 0 else 255
    | .zero _ => 0
    | .fin m e =>
      if m < 0 then 0
      else if 1 ≤ floorDy m e then 255
      else (roundInt .n8 .rne (.fin (255 * m) e)).1.toNat

/-! ## Group surf (R404-R408) -/

/-- What a lane's coordinates are: the pair of vB. -/
def pairX (w : Word64) : Int := sextN 32 (w.toNat % 2 ^ 32)
/-- The second of the pair. -/
def pairY (w : Word64) : Int := sextN 32 (w.toNat / 2 ^ 32)

/-- The values of some channels of a texel of one lane of `sld`, in order. -/
def sldVals (a : Agent) (s : State) (f : Surf) (bits : Bool) (x y : Int) : List Nat → Got (List Nat ⊕ Nat)
  | [] => return .inl []
  | c :: cs => do
    let inside := decide (0 ≤ x) && decide (x < f.width) && decide (0 ≤ y) && decide (y < f.height)
    match (← if inside && c < fmtChans f.fmt then chanRead a s f x.toNat y.toNat c else .ok (.inl 0)) with
    | .inr e => return .inr e
    | .inl n =>
      let v := if !inside || fmtChans f.fmt ≤ c then 0 else if bits then n else chanF32 f.fmt 0 (chanVal f.fmt n)
      match (← sldVals a s f bits x y cs) with
      | .inr e => return .inr e
      | .inl vs => return .inl (v :: vs)

/-- The values of some channels of a sample of one lane of `samp`. -/
def sampVals (a : Agent) (s : State) (f : Surf) (x : Ext) (p : Word64) : List Nat → Got (List Nat ⊕ Nat)
  | [] => return .inl []
  | c :: cs => do
    let nx := if x.bit 6 then f.width else 1
    let ny := if x.bit 6 then f.height else 1
    let idx := if x.bit 5 then wrapIdx else clampIdx
    match coord nx (p.toNat % 2 ^ 32), coord ny (p.toNat / 2 ^ 32) with
    | some px, some py =>
      match (← sampleAt a s f c (x.bit 4) idx px py) with
      | .inr e => return .inr e
      | .inl v => match (← sampVals a s f x p cs) with
        | .inr e => return .inr e
        | .inl vs => return .inl (v :: vs)
    | _, _ => return .inl ((c :: cs).map (fun _ => 0))

/-- The channels that an instruction of the group names. -/
def chansOf (x : Ext) : List Nat := (List.range (x.f 3 2 + 1)).map (fun m => x.f 1 0 + m)

/-- The words of a lane written to a run of vector registers. -/
def putRun (s : State) (u d lane : Nat) (vs : List Nat) : State :=
  s.onTeam u (fun t => ((List.range vs.length).zip vs).foldl
    (fun t m => t.fillV (d + m.1) [(lane, BitVec.ofNat 32 m.2)] .gen) t)

/-- An earlier lane of an `sst` that names the same texel and is not written yet. -/
def sstBehind (f : Flight) (r : LaneReq) : Bool :=
  f.lanes.any (fun q => q.lane < r.lane && q.data = r.data && (q.st = .todo || q.st = .faulted))

/-- The writes of one lane of `sst`, channel by channel, on path `sp` (R406). -/
def sstWrites (t : Team) (f : Flight) (g : Surf) (x : Ext) (r : LaneReq) : List Nat → State → Got State
  | [], s => return s
  | c :: cs, s => do
    if fmtChans g.fmt ≤ c then return s
    let va := g.texel (pairX r.data).toNat (pairY r.data).toNat + chanBytes g.fmt * c
    match piecesOf s t.core t.ctx .write va (chanBytes g.fmt) with
    | .error e => .error (failVA s t.core t.ctx .write va (chanBytes g.fmt), e)
    | .ok segs =>
      let s := texDropKeys s t.core (segKeys segs)
      let v := (t.lane (x.c.code.toNat + (c - x.f 1 0)) r.lane).toNat
      let n := if x.ty = .f32 then chanWrite g.fmt v else v
      sstWrites t f g x r cs (startWrite s t 5 r.lane (BitVec.ofNat 64 va)
        ((segKeys segs).zip (leBytes (chanBytes g.fmt) n)) 0 none [] none f.id f.pc f.npc (some f.instr) 0)

/-! ### What a lane leaves in the sampler's caches (R402, R409) -/

/-- The texels inside the surface that a lane of `sld` or `samp` reads. -/
def laneTexels (g : Surf) (i : Instr) (p : Word64) : List (Nat × Nat) :=
  match i with
  | .sld _ =>
    if 0 ≤ pairX p && pairX p < g.width && 0 ≤ pairY p && pairY p < g.height then [((pairX p).toNat, (pairY p).toNat)] else []
  | .samp x =>
    let idx := if x.bit 5 then wrapIdx else clampIdx
    match coord (if x.bit 6 then g.width else 1) (p.toNat % 2 ^ 32), coord (if x.bit 6 then g.height else 1) (p.toNat / 2 ^ 32) with
    | some u, some v =>
      if x.bit 4 then (taps (u - 128) (v - 128)).map (fun t => (idx t.1 g.width, idx t.2.1 g.height))
      else [(idx (Int.fdiv u 256) g.width, idx (Int.fdiv v 256) g.height)]
    | _, _ => []
  | _ => []

/-- The line of an address enters the texel cache, where its page allows a cached line. -/
def texFetchVA (a : Agent) (s : State) (va : Nat) : State :=
  match translate s a.core a.ctx va 1 .read with
  | .ok g => if l1Ok g then texFetch s a.core g.key else s
  | _ => s

/-- The index entries that a core's sampler holds (R402). -/
def vrbCap : Nat := 2048

/-- The index entry of block n enters the index cache, and the one fetched first leaves a full one. -/
def indexFetch (a : Agent) (s : State) (f : Surf) (n : Nat) : State :=
  match a.indexLine s n, a.surf, a.bytes s (f.side + 8 * n) 8 with
  | none, some h, .ok bs => s.onCore a.core (fun c => { c with
      vrbs := ({ ctx := a.ctx, handle := h, block := n, bytes := bs } :: c.vrbs).take vrbCap })
  | _, _, _ => s

/-- The addresses of the texel data that hold one texel: its channels, or the payload header and the residuals of its block. -/
def texelAddrs (a : Agent) (s : State) (f : Surf) (x y : Nat) : List Nat :=
  if f.layout = 2 then match a.index s f (f.block x y) with
    | .ok e =>
      let b := budgetBits (e % 16)
      let p := f.base + 16 * bitsN e 31 4
      if b = 0 then []
      else p :: (List.range (fmtChans f.fmt)).map (fun c => p + 8 + b * (fmtChans f.fmt * (8 * (y % 8) + x % 8) + c) / 8)
    | .error _ => []
  else [f.texel x y, f.texel x y + texBytes f.fmt - 1]

/-- A texel that was read enters the caches of the core's sampler. -/
def texelFill (a : Agent) (f : Surf) (s : State) (q : Nat × Nat) : State :=
  let s := if f.layout = 2 then indexFetch a s f (f.block q.1 q.2) else s
  (texelAddrs a s f q.1 q.2).foldl (texFetchVA a) s

/-- A surface as plain numbers. -/
def Surf.list (g : Surf) : List Nat := [bitNat g.wr, g.fmt, g.layout, g.width, g.height, g.pitch, g.base, g.side]

/-- The surface that a flight took at issue (R405); a re-injected one reads the descriptor again (19 R426). -/
def flightSurf (a : Agent) (s : State) (t : Team) (f : Flight) (r : LaneReq) : Got SurfRd :=
  match f.aux with
  | [_, w, fmt, layout, width, height, pitch, base, side] =>
    .ok (.ok { wr := decide (w = 1), fmt := fmt, layout := layout, width := width, height := height, pitch := pitch, base := base,
               side := side })
  | _ => readSurf a s t.surfb.toNat r.addr.toNat

/-- One lane of a `sld`, `sst` or `samp`: its values are read or written. -/
def surfLane (s : State) (t : Team) (f : Flight) (r : LaneReq) : Found :=
  let a : Agent := { t.agent with surf := some r.addr.toNat }
  let answer (d : Nat) (vals : Surf → Got (List Nat ⊕ Nat)) : Found :=
    match flightSurf a s t f r with
    | .error (va, e) => .meets va e
    | .ok (.bad sub) => .bad s 0x05 sub 0
    | .ok (.ok g) => match vals g with
      | .error (va, e) => .meets va e
      | .ok (.inr at_) => .bad s 0x05 0x0B04 at_
      | .ok (.inl vs) => .done (putRun ((laneTexels g f.instr r.data).foldl (texelFill a g) s) f.team d r.lane vs)
  match f.instr with
  | .sld x => answer f.dst (fun g => sldVals a s g (x.ty = .b32) (pairX r.data) (pairY r.data) (chansOf x))
  | .samp x => answer f.dst (fun g => sampVals a s g x r.data (chansOf x))
  | .sst x => match flightSurf a s t f r with
    | .error (va, e) => .meets va e
    | .ok (.bad sub) => .bad s 0x05 sub 0
    | .ok (.ok g) =>
      let inside := decide (0 ≤ pairX r.data) && decide (pairX r.data < g.width) && decide (0 ≤ pairY r.data) &&
        decide (pairY r.data < g.height)
      if !inside then .done s
      else if sstBehind f r then .later s
      else match sstWrites t f g x r (chansOf x) s with
        | .ok s => .done s
        | .error (va, e) => .meets va e
  | _ => .done s

/-- Whether an instruction of the group is `sst`. -/
def isSst (i : Instr) : Bool := match i with
  | .sst _ => true
  | _ => false

/-- Whether an instruction goes through the sampler. -/
def isSurf (i : Instr) : Bool := match i with
  | .sst _ | .sld _ | .samp _ => true
  | _ => false

/-- One lane in its turn on path `sp`: after the team's older accesses of the path where one of the two writes (11 R263). -/
def surfTurn (s : State) (t : Team) (f : Flight) (r : LaneReq) : Found :=
  if pathBehind s f isSurf isSst || (!isSst f.instr && s.writes.any (fun w => w.team = t.uid && w.path = 5 && w.id < f.id))
  then .later s else surfLane s t f r

/-- How a flight of the group ends: `sst` fails late (R405). -/
def surfClose (s : State) (f : Flight) : State :=
  match f.instr with
  | .sst _ => closeLate s f
  | _ => endFlight s f

/-- SAMPLER_COMPLETE (R405-R407). -/
def execSamplerComplete (id : Nat) (s : State) : Out :=
  .next (engineRun s id 5 (.samplerComplete id) surfTurn surfClose)

/-- The bytes of texels that an `sst` would write, as address and length for each lane and channel (R320). -/
def sstTargets (g : Surf) (x : Ext) (ps : List Word64) : List (Nat × Nat) :=
  ps.flatMap (fun p =>
    if 0 ≤ pairX p && pairX p < g.width && 0 ≤ pairY p && pairY p < g.height then
      ((chansOf x).filter (fun c => c < fmtChans g.fmt)).map (fun c =>
        (g.texel (pairX p).toNat (pairY p).toNat + chanBytes g.fmt * c, chanBytes g.fmt))
    else [])

/-- `sld`, `sst` and `samp` at issue: the checks of R405 and R320, and the lanes' coordinates. -/
def effSurf (st : Bool) (c : C) (s : State) : Eff :=
  if !c.any then .done s
  else
    let h := (c.sc64 s c.x.a).toNat
    match readSurf c.t.agent s c.t.surfb.toNat h with
    | .error (va, e) => c.meet s va 5 e
    | .ok (.bad sub) => .trap s (c.trap 0x05 sub)
    | .ok (.ok g) =>
      let pair (l : Nat) : Word64 := BitVec.ofNat 64
        ((c.t.lane c.x.b.code.toNat l).toNat + 2 ^ 32 * (c.t.lane (c.x.b.code.toNat + 1) l).toNat)
      let own := if st then c.actives.filter (fun l =>
        (sstTargets g c.x [pair l]).any (fun a => c.t.declares a.1 a.2)) else []
      if st && (!g.wr || g.layout = 2) then .trap s (c.trap 0x05 0x0B03)
      else if !own.isEmpty then .trap s (c.addrTrap 0x05 0x0805
        ((own.flatMap (fun l => (sstTargets g c.x [pair l]).map (fun a => (l, a.1)))).filter
          (fun x => c.t.declares x.2 (chanBytes g.fmt))))
      else if outstandingCap ≤ outstanding s c.t.uid then .wait s
      else
        let lanes := c.actives.map (fun l =>
          ({ lane := l, addr := BitVec.ofNat 64 h, data := pair l, st := .todo } : LaneReq))
        .done ((c.launch s lanes [] (0 :: g.list) false).post (.samplerComplete s.nextId))

/-- The word of `sqry` from the bytes of a descriptor (R408). -/
def sqryWord (sel : Nat) (bs : List Byte) : Nat :=
  match sel with
  | 0 => numAt bs 16 2 + numAt bs 18 2 * 2 ^ 16 + numAt bs 1 1 * 2 ^ 32 + numAt bs 2 1 * 2 ^ 40 +
         numAt bs 0 1 % 4 * 2 ^ 48
  | 1 => numAt bs 24 8
  | 2 => numAt bs 20 4
  | _ => numAt bs 32 8

/-- `sqry` (R408): a descriptor that cannot be read gives 0. -/
def effSqry (c : C) (s : State) : Eff :=
  let h := (c.sc64 s c.x.a).toNat
  if 2 ^ 20 ≤ h then .done (c.putS s 0)
  else
    let va := c.t.surfb.toNat + 64 * h
    match c.t.agent.bytes s va 64 with
    | .ok bs => .done (c.putS s (BitVec.ofNat 64 (sqryWord (c.x.f 1 0) bs)))
    | .error (va, e) => match meetFault s c.t.core c.t.ctx va 5 0 (.instructionFetch c.t.uid) e with
      | .wait s => .wait (s.onTeam c.t.uid (fun t => { t with run := .parked .fault }))
      | .fail s _ _ => .done (c.putS s 0)

/-- SLD (R406). -/
def execSld (x : Ext) (s : State) : Out := issueExt (.sld x) 0x56 0 x (effSurf false) s
/-- SST (R406). -/
def execSst (x : Ext) (s : State) : Out := issueExt (.sst x) 0x56 1 x (effSurf true) s
/-- SAMP (R407). -/
def execSamp (x : Ext) (s : State) : Out := issueExt (.samp x) 0x56 2 x (effSurf false) s
/-- SQRY (R408). -/
def execSqry (x : Ext) (s : State) : Out := issueExt (.sqry x) 0x56 3 x (onGo effSqry) s

end Sys2Proof.Machine
end

