-- ==== Sys2Proof/Machine/Tile.lean ====
section
/-!
DEFINITION. Render passes and group tile (18 R410-R421).
-/

namespace Sys2Proof.Machine

/-! ## Pass descriptors (R410) -/

/-- What a pass keeps of its descriptor and of its colour target. -/
structure View where
  vx    : Nat
  vy    : Nat
  vw    : Nat
  vh    : Nat
  clear : Nat
  opq   : Nat
  fragq : Nat
  binb  : Nat
  binsz : Nat
  at_   : Nat
  surf  : Surf
  deriving DecidableEq, Repr

/-- The plain numbers that a pass holds. -/
def View.list (v : View) : List Nat :=
  [v.vx, v.vy, v.vw, v.vh, v.clear, v.opq, v.fragq, v.binb, v.binsz, v.at_, v.surf.fmt, v.surf.layout, v.surf.width,
   v.surf.height, v.surf.pitch, v.surf.base]

/-- The view of a pass. -/
def Pass.view (p : Pass) : View :=
  let g (i : Nat) : Nat := p.desc.getD i 0
  { vx := g 0, vy := g 1, vw := g 2, vh := g 3, clear := g 4, opq := g 5, fragq := g 6, binb := g 7, binsz := g 8,
    at_ := g 9, surf := { wr := true, fmt := g 10, layout := g 11, width := g 12, height := g 13, pitch := g 14,
                          base := g 15, side := 0 } }

/-- The f16 of the transmittance threshold: a number in [0, 1]. -/
def opqOk (n : Nat) : Bool :=
  let v := fmt16.value n
  !v.isNan && !FV.lt v (.zero false) && !FV.lt (.fin 1 0) v

/-- The descriptor of a pass, none when it is malformed (R410). -/
def readView (a : Agent) (s : State) (surfb va : Nat) : Got (Option View) := do
  let bs ← a.bytes s va 128
  let n := numAt bs
  let sf ← surfOf a s surfb (n 36 4 % 2 ^ 20)
  match sf with
  | none => return none
  | some f =>
    let v : View := { vx := n 40 2, vy := n 42 2, vw := n 44 2, vh := n 46 2, clear := n 56 8, opq := n 48 2, fragq := n 50 2,
                      binb := n 64 8, binsz := n 52 4, at_ := va, surf := f }
    let own := match s.queue? v.fragq with
      | some q => decide (q.ctx = a.ctx)
      | none => false
    let good := n 0 1 = 1 && n 1 35 = 0 && n 36 4 < 2 ^ 20 && 1 ≤ v.vw && v.vw ≤ 16384 && 1 ≤ v.vh && v.vh ≤ 16384 &&
      opqOk v.opq && 256 ≤ v.binsz && v.binsz % 256 = 0 && v.binb % 256 = 0 && f.wr && f.layout < 2 && own
    return (if good then some v else none)

/-- The path on which a descriptor of a pass could not be read: `rs` for its own bytes, `sp` for those of its target's surface (R398). -/
def viewPath (a : Agent) (s : State) (va : Nat) : Nat := match a.bytes s va 128 with
  | .ok _ => 5
  | .error _ => 6

/-- The columns of tiles. -/
def View.cols (v : View) : Nat := (v.vw + 31) / 32
/-- The rows of tiles. -/
def View.rows (v : View) : Nat := (v.vh + 31) / 32
/-- The number of tiles. -/
def View.tiles (v : View) : Nat := v.cols * v.rows

/-! ## Primitives (R412, R413) -/

/-- An f32 field of a primitive. -/
def Prim.f (p : Prim) (i : Nat) : FV := fmt32.value (p.words.getD i 0).toNat

/-- The depth key of a primitive. -/
def Prim.key (p : Prim) : Nat := (p.words.getD (match p.form with
  | 0 => 4
  | 1 => 6
  | _ => 9) 0).toNat % 2 ^ 24

/-- The id of a rectangle or triangle. -/
def Prim.ident (p : Prim) : Word := p.words.getD (if p.form = 0 then 5 else 7) 0

/-- The centre of a pixel column or row. -/
def centre (n : Nat) : FV := .fin (2 * n + 1) (-1)

/-- An integer as a value. -/
def FV.ofInt (n : Int) : FV := if n = 0 then .zero false else .fin n 0

/-- The exact sum of a value and another one or its negation; an infinite second wins. -/
def FV.plus (a b : FV) : FV := match a, b with
  | _, .inf n => .inf n
  | .inf n, _ => .inf n
  | a, b =>
    let r := dySum [a, b]
    if r.1 = 0 then .zero false else .fin r.1 r.2

/-- A vertex coordinate in 1/256 pixel (R413). -/
def Prim.snap (p : Prim) (i : Nat) : Int := (roundInt .i32 .rne ((FV.mul (.fin 256 0) (p.f i)).1)).1

/-- The vertices of a triangle, so ordered that its area is not negative (R413). -/
def Prim.verts (p : Prim) : List (Int × Int) :=
  let v (k : Nat) : Int × Int := (p.snap (2 * k), p.snap (2 * k + 1))
  let a := ((v 1).1 - (v 0).1) * ((v 2).2 - (v 0).2) - ((v 2).1 - (v 0).1) * ((v 1).2 - (v 0).2)
  if a < 0 then [v 0, v 2, v 1] else [v 0, v 1, v 2]

/-- The edge function of a -> b at a point (R413). -/
def edgeFn (a b q : Int × Int) : Int := (b.1 - a.1) * (q.2 - a.2) - (b.2 - a.2) * (q.1 - a.1)

/-- Whether a point is inside an edge: to its inner side, or on a top or left edge (R413). -/
def edgeIn (a b q : Int × Int) : Bool :=
  let e := edgeFn a b q
  decide (0 < e) || (decide (e = 0) && ((decide (b.2 = a.2) && decide (a.1 < b.1)) || decide (b.2 < a.2)))

/-- Whether a rectangle or triangle covers a pixel (R412, R413). -/
def Prim.covers (p : Prim) (px py : Nat) : Bool :=
  if p.form = 0 then
    !FV.lt (centre px) (p.f 0) && FV.lt (centre px) (p.f 2) && !FV.lt (centre py) (p.f 1) && FV.lt (centre py) (p.f 3)
  else if p.form = 1 then
    let q : Int × Int := (256 * px + 128, 256 * py + 128)
    match p.verts with
    | [a, b, c] => edgeIn a b q && edgeIn b c q && edgeIn c a q
    | _ => false
  else false

/-- The bounding box of a primitive: x from and to, y from and to. -/
def Prim.box (p : Prim) : FV × FV × FV × FV :=
  if p.form = 0 then (p.f 0, p.f 2, p.f 1, p.f 3)
  else if p.form = 1 then
    let xs := [p.snap 0, p.snap 2, p.snap 4]
    let ys := [p.snap 1, p.snap 3, p.snap 5]
    let lo (l : List Int) : FV := FV.scale (-8) (FV.ofInt (l.foldl min (l.headD 0)))
    let hi (l : List Int) : FV := FV.scale (-8) (FV.ofInt (l.foldl max (l.headD 0)))
    (lo xs, hi xs, lo ys, hi ys)
  else
    let r := p.f 10
    ((p.f 0).plus r.flip, (p.f 0).plus r, (p.f 1).plus r.flip, (p.f 1).plus r)

/-- The tile columns or rows that the span of a box touches: from `base`, n pixels. The box of a rectangle is open on its
far side; those of the other forms are closed. -/
def spanTiles (isOpen : Bool) (lo hi : FV) (base n : Nat) : List Nat :=
  (List.range ((n + 31) / 32)).filter (fun i =>
    let l := FV.ofInt (base + 32 * i : Nat)
    let r := FV.ofInt (base + min n (32 * i + 32) : Nat)
    FV.lt lo r && (if isOpen then FV.lt l hi else !FV.lt hi l))

/-- The tiles that the bounding box of a primitive touches, ascending (R411). -/
def Prim.touches (v : View) (p : Prim) : List Nat :=
  let b := p.box
  let o := decide (p.form = 0)
  let xs := spanTiles o b.1 b.2.1 v.vx v.vw
  (spanTiles o b.2.2.1 b.2.2.2 v.vy v.vh).flatMap (fun y => xs.map (fun x => y * v.cols + x))

/-- Whether some pixel centre of a span of the viewport lies in [lo, hi). -/
def centreIn (lo hi : FV) (base n : Nat) : Bool :=
  (List.range n).any (fun i => !FV.lt (centre (base + i)) lo && FV.lt (centre (base + i)) hi)

/-- The number of f32 fields before the key. -/
def floatFields (form : Nat) : List Nat := match form with
  | 0 => List.range 4
  | 1 => List.range 6
  | _ => List.range 9 ++ [10]

/-- Whether a primitive is culled early (R412). -/
def Prim.culled (v : View) (p : Prim) : Bool :=
  (floatFields p.form).any (fun i => (p.f i).isNan) ||
  (match p.form with
   | 0 => !FV.lt (p.f 0) (p.f 2) || !FV.lt (p.f 1) (p.f 3) || !centreIn (p.f 0) (p.f 2) v.vx v.vw ||
       !centreIn (p.f 1) (p.f 3) v.vy v.vh
   | 1 => (match p.verts with
       | [a, b, c] => decide (edgeFn a b c = 0)
       | _ => true) || (p.touches v).isEmpty
   | _ => !FV.lt (.zero false) (p.f 5) || !FV.lt (.zero false) (p.f 10) || (p.touches v).isEmpty)

/-! ## Counters (R417) -/

/-- Adds to counter i of a pass. -/
def Pass.count (p : Pass) (i n : Nat) : Pass := { p with counts := p.counts.modify i (· + n) }

/-- A primitive at the tiler: culled, dropped for want of bin area, or accepted (R411, R412); and the bytes of the bin
area that an accepted one takes. -/
def Pass.emit (p : Pass) (form : Nat) (ws : List Word) : Pass × Option (Nat × Nat) :=
  let v := p.view
  let q : Prim := { seq := p.nextSeq, form := form, words := ws, tiles := [] }
  if q.culled v then (p.count 1 1, none)
  else
    let ts := q.touches v
    let n := 64 + 8 * ts.length
    if v.binsz < p.binUsed + n then ({ p with ovf := true }, none)
    else (({ p with prims := p.prims ++ [{ q with tiles := ts }], nextSeq := p.nextSeq + 1, binUsed := p.binUsed + n }.count
      0 1).count 2 ts.length, some (v.binb + p.binUsed, n))

/-! ## Tiles (R414-R416) -/

/-- The pixels of tile t of the viewport, as number in the tile (32 x row + column) and position. -/
def View.pixels (v : View) (t : Nat) : List (Nat × Nat × Nat) :=
  let x0 := 32 * (t % v.cols)
  let y0 := 32 * (t / v.cols)
  ((List.range 1024).map (fun i => (i, x0 + i % 32, y0 + i / 32))).filterMap (fun (i, x, y) =>
    if x < v.vw && y < v.vh then some (i, v.vx + x, v.vy + y) else none)

/-- The covering rectangle or triangle of highest sequence number at a pixel. -/
def topPrim (ps : List Prim) (px py : Nat) : Option Prim :=
  (ps.filter (fun p => p.covers px py)).foldl (fun a p => match a with
    | some q => if q.seq < p.seq then some p else a
    | none => some p) none

/-- The primitives binned to a tile. -/
def Pass.binned (p : Pass) (t : Nat) : List Prim := p.prims.filter (fun q => q.tiles.contains t)

/-- The block of a pixel of a tile, and its bit in the coverage word. -/
def blockOf (i : Nat) : Nat × Nat := (4 * (i / 32 / 4) + i % 32 / 8, 8 * (i / 32 % 4) + i % 8)

/-- The fragment entries of a tile, block by block and by ascending sequence number. -/
def Pass.entries (p : Pass) : List Frag :=
  let ps := p.binned p.tile
  let tops := (p.view.pixels p.tile).filterMap (fun (i, x, y) => (topPrim ps x y).map (fun q => (blockOf i, q)))
  (List.range 32).flatMap (fun b =>
    let mine := tops.filter (fun t => t.1.1 = b)
    (ps.filter (fun q => mine.any (fun t => t.2.seq = q.seq))).map (fun q =>
      { block := b, seq := q.seq, id := q.ident,
        cover := (mine.filter (fun t => t.2.seq = q.seq)).foldl (fun a t => a + 2 ^ t.1.2) 0, pushed := false,
        answered := false }))

/-- The four words of a fragment entry (R415). -/
def fragEntry (p : Pass) (f : Frag) : List Word64 :=
  let v := p.view
  let x := v.vx + 32 * (p.tile % v.cols) + 8 * (f.block % 4)
  let y := v.vy + 32 * (p.tile / v.cols) + 4 * (f.block / 4)
  [0x0F00 + p.id * 2 ^ 16 + p.die * 2 ^ 20 + p.attempt % 4 * 2 ^ 22 + f.block * 2 ^ 24 + p.tile * 2 ^ 32,
   f.cover + f.id.toNat * 2 ^ 32, f.seq, x + y * 2 ^ 32].map (BitVec.ofNat 64)

/-- TILE_PROCESS (R414): the tiler takes up the next tile of a closed pass with a new attempt. It processes one tile at a
time, and none of a context that is switched out (R417). -/
def execTileProcess (die id : Nat) (s : State) : Out :=
  match s.pass? die id with
  | none => .next s
  | some p =>
    if !p.closing || p.active then .next s
    else if s.passes.any (fun q => q.die = die && q.active) || !(match s.ctx? p.ctx with
        | some c => c.isIn
        | none => true) then .next (s.post (.tileProcess die id))
    else .next ((s.onPass die id (fun p => { p with
      attempt := p.attempt + 1, active := true, colours := [], frags := p.entries })).postOnce (.fragmentPush die id))

/-- FRAGMENT_PUSH (R414): the next entry of the tile goes to the fragment queue, one at a time, and waits there while the
queue is full; when every entry is answered, the tile is composited. -/
def execFragmentPush (die id : Nat) (s : State) : Out :=
  match s.pass? die id with
  | none => .next s
  | some p =>
    if !p.active then .next s
    else match p.frags.find? (fun f => !f.pushed) with
      | some f =>
        let s := s.onPass die id (fun p => { p with frags := p.frags.map (fun g =>
          if g.block = f.block && g.seq = f.seq then { g with pushed := true } else g) })
        .next (startPush s { id := 0, queue := p.view.fragq, entry := fragEntry p f, team := 0, kind := .fragment, nb := false,
                             dst := die, len := id })
      | none => .next (if p.frags.all (fun f => f.answered) then s.postOnce (.tileComposite die id) else s)

/-- f32 addition, product and so on of the tiler, rounded `rne`. -/
def t32 (op : FOp) (a b : Nat) : Nat := (op fmt32 .rne false false a b 0).1

/-- An f32 with its sign changed. -/
def negF32 (a : Nat) : Nat := a ^^^ 2 ^ 31

/-- The composition of a pixel so far: T, C, and the counts of R417. -/
structure Blend where
  t     : Nat
  c     : List Nat
  evals : Nat
  cut   : Nat

/-- Whether an f32 is below another. -/
def lt32 (a b : Nat) : Bool := FV.lt (fmt32.value a) (fmt32.value b)

/-- One splat at a pixel (R414). -/
def blendOne (opq okey cx cy : Nat) (b : Blend) (p : Prim) : Blend :=
  let w (i : Nat) : Nat := (p.words.getD i 0).toNat
  let dx := t32 fSub cx (w 0)
  let dy := t32 fSub cy (w 1)
  let near (d : Nat) : Bool := !(fmt32.value d).isNan && !lt32 (w 10) (d % 2 ^ 31)
  let go := !(fmt32.value b.t).isNan && !lt32 b.t opq
  if go && near dx && near dy && p.key < okey then
    let q1 := t32 fMul (t32 fMul (w 2) dx) dx
    let q2 := t32 fMul (t32 fMul (t32 fMul 0x40000000 (w 3)) dx) dy
    let q3 := t32 fMul (t32 fMul (w 4) dy) dy
    let q := t32 fAdd (t32 fAdd q1 q2) q3
    let a := (fMinMax false fmt32 false 0x3F7F0000 (t32 fMul (w 5) (sEx2 (negF32 q) false).1)).1
    let ta := t32 fMul b.t a
    let t' := t32 fMul b.t (t32 fSub 0x3F800000 a)
    { t := t', c := (List.range 3).map (fun c => t32 fAdd (b.c.getD c 0) (t32 fMul ta (w (6 + c)))), evals := b.evals + 1,
      cut := b.cut + (if lt32 t' opq then 1 else 0) }
  else b

/-- An f16 as an f32. -/
def f16to32 (n : Nat) : Nat := (fmt32.round .rne false false (fmt16.value n)).1

/-- A pixel centre as an f32. -/
def centre32 (n : Nat) : Nat := (fmt32.round .rne false false (centre n)).1

/-- The final colour of a pixel, with the counts. A covered pixel that no `fragout` coloured has a free colour, taken in step n. -/
def finalColour (n : Nat) (p : Pass) (i px py : Nat) : List Nat × Nat × Nat :=
  let v := p.view
  let ps := p.binned p.tile
  let top := topPrim ps px py
  let okey := match top with
    | some q => q.key
    | none => 0xFFFFFF
  let clear := (List.range 4).map (fun c => f16to32 (v.clear / 2 ^ (16 * c) % 2 ^ 16))
  let ocol := match top with
    | none => clear
    | some _ => match p.colours.find? (fun (c : Nat × List Word) => c.1 = i) with
      | some c => c.2.map (fun (w : Word) => w.toNat)
      | none => (List.range 4).map (fun c => (Config.uncoloured (4096 * n + 4 * i + c)).toNat)
  let splats := sortBy (fun (a b : Prim) => a.key < b.key || (a.key = b.key && a.seq ≤ b.seq)) (ps.filter (fun q => q.form = 2))
  let b := splats.foldl (blendOne (f16to32 v.opq) okey (centre32 px) (centre32 py))
    { t := 0x3F800000, c := [0, 0, 0], evals := 0, cut := 0 }
  ((List.range 3).map (fun c => t32 fAdd (b.c.getD c 0) (t32 fMul b.t (ocol.getD c 0))) ++ [ocol.getD 3 0], b.evals, b.cut)

/-- The bytes of a texel of the target (R400). -/
def texelBytes (f : Surf) (col : List Nat) : List Byte :=
  (List.range (fmtChans f.fmt)).flatMap (fun c => leBytes (chanBytes f.fmt) (chanWrite f.fmt (col.getD c 0)))

/-- The writes of a tile's resolve in step n, and its counts: pixels outside the target are not written. -/
def resolveOf (n : Nat) (p : Pass) : List (Nat × List Byte) × Nat × Nat :=
  let f := p.view.surf
  let px := (p.view.pixels p.tile).map (fun (i, x, y) => (x, y, finalColour n p i x y))
  ((px.filter (fun q => q.1 < f.width && q.2.1 < f.height)).map (fun (x, y, c) => (f.texel x y, texelBytes f c.1)),
   px.foldl (fun a q => a + q.2.2.2.1) 0, px.foldl (fun a q => a + q.2.2.2.2) 0)

/-- The first address of some writes whose page is absent. -/
def absentOf (a : Agent) (s : State) (ws : List (Nat × List Byte)) : Option Nat :=
  (ws.find? (fun w => match piecesOf s a.core a.ctx .write w.1 w.2.length with
    | .error .absent => true
    | _ => false)).map (fun w => w.1)

/-- Writes of the tiler on `rs`, performed at once; those that cannot be made are left out, and the opening team gets an
imprecise trap (09 R206). -/
def tilerWrites (a : Agent) (opener : Nat) (s : State) (ws : List (Nat × List Byte)) : State :=
  ws.foldl (fun s w => match writeVA s a.core a.ctx w.1 w.2 with
    | .ok s => s
    | .error (.fail code cause) => addPending s opener { engineTrap code (cause * 256 + 6) w.1 [] with op := 0 }
    | .error _ => addPending s opener (engineTrap 0x06 0x0106 w.1 [])) s

/-- Those writes once no page is absent or the fault was declined; else a wait for the replay (09 R203). -/
def tilerPut (s : State) (p : Pass) (ws : List (Nat × List Byte)) (retry : Ev) (k : State → State) : State :=
  let a := hubAgent p.ctx
  match absentOf a s ws with
  | none => k (tilerWrites a p.opener s ws)
  | some va => match meetFault s (dieAgent p.die) p.ctx va 6 0 retry .absent with
    | .wait s => s
    | .fail s _ _ => k (tilerWrites a p.opener s ws)

/-- The lowest address of some writes in a range that the opening team's open task declares (14 R320). -/
def declaredAt (s : State) (p : Pass) (ws : List (Nat × List Byte)) : Option Nat :=
  match s.team? p.opener with
  | none => none
  | some t => match (ws.filter (fun w => t.declares w.1 w.2.length)).map (fun w => w.1) with
    | [] => none
    | l => some (lowest l)

/-- The commit of a tile (R414, R417): its counts reach the pass, and the next tile follows. -/
def commitTile (s : State) (p : Pass) (evals cut : Nat) : State :=
  let cover := p.frags.foldl (fun a f => a + ((List.range 32).filter (fun i => f.cover.testBit i)).length) 0
  let s := s.onPass p.die p.id (fun p => { ((((p.count 3 p.frags.length).count 4 cover).count 5 evals).count 6 cut) with
    active := false, attempt := 0, frags := [], colours := [], tile := p.tile + 1 })
  if p.tile + 1 < p.view.tiles then s.postOnce (.tileProcess p.die p.id) else s.postOnce (.tileComposite p.die p.id)

/-- The end of a pass: the counters are in the descriptor, and the `binend` that waits retires, or traps (R414, R419). -/
def endPass (s : State) (p : Pass) : State :=
  let s := s.onPass p.die p.id (fun p => { p with closing := false })
  let mine (t : Team) : Bool := (t.run = .parked .binend || t.run = .saved (some .binend)) && t.aux.take 2 = [p.die, p.id]
  clearWait { wakeStatus s with teams := s.teams.map (fun t =>
    if mine t then
      let npc : Word64 := BitVec.ofNat 64 (t.aux.getD 2 0)
      let t := { t with aux := [], run := match t.run with
        | .saved _ => .saved none
        | _ => .running }
      match p.errAt with
      | some a => { t with due := some { trapHere t.pc npc 0x05 0x0806 with addr := BitVec.ofNat 64 a } }
      | none => { t with pc := npc }
    else t) } (passKey p.die p.id)

/-- TILE_COMPOSITE (R414): the tile is composited, resolved and committed; after the last tile the counters are written. -/
def execTileComposite (die id : Nat) (s : State) : Out :=
  match s.pass? die id with
  | none => .next s
  | some p =>
    let retry : Ev := .tileComposite die id
    if !p.closing then .next s
    else if p.view.tiles ≤ p.tile then
      let ws := (List.range 7).map (fun i => (p.view.at_ + 72 + 8 * i, leBytes 8 (p.counts.getD i 0)))
      .next (tilerPut s p ws retry (fun s => endPass s p))
    else if !p.active || !p.frags.all (fun f => f.answered) then .next s
    else
      let r := resolveOf s.stepNo p
      match declaredAt s p r.1 with
      | some a =>
        let s := s.onPass die id (fun p => { p with err := true, errAt := some (match p.errAt with
          | some b => min a b
          | none => a) })
        .next (commitTile s p r.2.1 r.2.2)
      | none => .next (tilerPut s p r.1 retry (fun s => commitTile s p r.2.1 r.2.2))

/-- The pushes of a tile that have not been accepted are taken back. -/
def dropFragments (s : State) (die id : Nat) : State :=
  let mine (m : PushMsg) : Bool := m.kind = .fragment && m.dst = die && m.len = id
  { s with pushes := s.pushes.filter (fun m => !mine m),
           queues := s.queues.map (fun q => { q with pushers := q.pushers.filter (fun m => !mine m) }) }

/-- TILE_KILL (R417): firmware kills the tile that a tiler processes; it starts again with a new attempt. -/
def execTileKill (die id : Nat) (s : State) : Out :=
  match s.pass? die id with
  | none => .next s
  | some p =>
    if !p.active then .next s
    else .next ((dropFragments (s.onPass die id (fun p => { p with active := false, frags := [], colours := [] })) die
      id).postOnce (.tileProcess die id))

/-! ## Group tile (R418-R420) -/

/-- The base and offset of `binbeg`. -/
def C.passAddr (c : C) (s : State) : Nat := patN 64 ((c.base s : Int) + sextN 14 (c.x.f 13 0))

/-- A pass just opened. -/
def Pass.fresh (die id ctx opener : Nat) (v : View) : Pass :=
  { die := die, id := id, ctx := ctx, opener := opener, isOpen := true, closing := false, ovf := false, err := false,
    desc := v.list, nextSeq := 0, binUsed := 0, prims := [], tile := 0, attempt := 0, active := false, frags := [],
    colours := [], counts := List.replicate 7 0, errAt := none }

/-- `binbeg` (R419). -/
def effBinbeg (c : C) (s : State) : Eff :=
  let va := c.passAddr s
  if va % 128 ≠ 0 then .trap s (c.trapAt 0x04 0x0101 va [])
  else match readView c.t.agent s c.t.surfb.toNat va with
    | .error (at_, e) => c.meet s at_ (viewPath c.t.agent s va) e
    | .ok none => .trap s (c.trap 0x05 0x0C02)
    | .ok (some v) =>
      let die := dieOf c.t.core
      match (List.range 16).find? (fun i => !s.passes.any (fun p => p.die = die && p.id = i && (p.isOpen || p.closing))) with
      | none => .done (c.putS s (BitVec.ofNat 64 (2 ^ 64 - 1)))
      | some id =>
        let s := { s with passes := s.passes.filter (fun p => !(p.die = die && p.id = id)) ++
          [Pass.fresh die id c.t.ctx c.t.uid v] }
        .done (c.putS s (BitVec.ofNat 64 id))

/-- The pass that A names, when emission into it is open for the team's context (R419). -/
def C.passOf (c : C) (s : State) : Option Pass :=
  let n := (c.sc64 s c.x.a).toNat
  if 15 < n then none
  else match s.pass? (dieOf c.t.core) n with
    | some p => if p.ctx = c.t.ctx && p.isOpen then some p else none
    | none => none

/-- The lanes of an emitting instruction, in order: the pass after them and the bytes of the bin area (R411). -/
def emitLanes (c : C) (form n : Nat) : List Nat → Pass → List (Nat × Nat) → Pass × List (Nat × Nat)
  | [], p, ws => (p, ws)
  | l :: ls, p, ws =>
    let r := p.emit form ((List.range n).map (fun j => c.t.lane (c.x.b.code.toNat + j) l))
    emitLanes c form n ls r.1 (match r.2 with
      | some w => ws ++ [w]
      | none => ws)

/-- `primr`, `primt` and `prims`: what the bin records hold is not stated, so each byte of them is free (log 17). -/
def effPrim (form n : Nat) (c : C) (s : State) : Eff :=
  if !c.any then .done s
  else match c.passOf s with
    | none => .trap s (c.trap 0x05 0x0C01)
    | some p =>
      let r := emitLanes c form n c.actives p []
      let put (acc : Got State) (w : Nat × Nat) : Got State := match acc with
        | .ok s => c.t.agent.put s w.1 ((List.range w.2).map (fun i => Config.privateByte (s.stepNo * 2 ^ 64 + w.1 + i)))
        | e => e
      match r.2.foldl put (.ok s) with
      | .error (va, e) => c.meet s va 6 e
      | .ok s => .done (s.onPass p.die p.id (fun _ => r.1))

/-- Closes emission: the tiler processes the pass (R419, R420). -/
def closePass (s : State) (die id : Nat) : State :=
  (s.onPass die id (fun p => { p with isOpen := false, closing := true })).post (.tileProcess die id)

/-- `binend` (R419): its team parks until every tile has committed. -/
def effBinend (c : C) (s : State) : Eff :=
  match c.passOf s with
  | none => .trap s (c.trap 0x05 0x0C01)
  | some p => .wait ((closePass s p.die p.id).onTeam c.t.uid (fun t => { t with
      run := .parked .binend, aux := [p.die, p.id, c.npc.toNat] }))

/-- The passes that a team opened and left open are closed at its exit (R420). -/
def closeOwnPasses (s : State) (u : Nat) : State :=
  (s.passes.filter (fun p => p.opener = u && p.isOpen)).foldl (fun s p => closePass s p.die p.id) s

/-- The colours that an accepted `fragout` sets (R416). -/
def fragColours (c : C) (f : Frag) : List (Nat × List Word) :=
  ((List.range 32).filter (fun l => f.cover.testBit l && c.act.getD l false)).map (fun l =>
    (32 * (4 * (f.block / 4) + l / 8) + 8 * (f.block % 4) + l % 8,
     (List.range 4).map (fun j => c.t.lane (c.x.b.code.toNat + j) l)))

/-- `fragout` (R416, R419). -/
def effFragout (c : C) (s : State) : Eff :=
  let e := c.entry c.x.a.code.toNat
  let w := (e.getD 0 0).toNat
  if w % 2 ^ 16 ≠ 0x0F00 then .trap s (c.trap 0x05 0x0C03)
  else match s.pass? (bitsN w 21 20) (bitsN w 19 16) with
    | none => .trap s (c.trap 0x05 0x0C01)
    | some p =>
      if p.ctx ≠ c.t.ctx || !(p.isOpen || p.closing) then .trap s (c.trap 0x05 0x0C01)
      else
        let here (f : Frag) : Bool := f.pushed && f.block = bitsN w 31 24 && f.seq = (e.getD 2 0).toNat
        let now := p.active && p.tile = w / 2 ^ 32 && p.attempt % 4 = bitsN w 23 22
        match (if now then p.frags.find? here else none) with
        | none => .done (c.putS s 1)
        | some f =>
          if f.answered then .done (c.putS s 2)
          else
            let s := s.onPass p.die p.id (fun p => { p with
              frags := p.frags.map (fun g => if here g then { g with answered := true } else g)
              colours := p.colours ++ fragColours c f })
            .done (c.putS (s.postOnce (.fragmentPush p.die p.id)) 0)

/-- `tstat` (R419). -/
def effTstat (c : C) (s : State) : Eff :=
  let n := (c.sc64 s c.x.a).toNat
  match (if 15 < n then none else s.pass? (dieOf c.t.core) n) with
  | none => .trap s (c.trap 0x05 0x0C01)
  | some p =>
    if p.ctx ≠ c.t.ctx then .trap s (c.trap 0x05 0x0C01)
    else
      let k := c.x.f 2 0
      .done (c.putS s (BitVec.ofNat 64 (if k < 7 then p.counts.getD k 0
        else bitNat (p.isOpen || p.closing) + 2 * bitNat p.ovf + 4 * bitNat p.err)))

/-- BINBEG (R419). -/
def execBinbeg (x : Ext) (s : State) : Out := issueExt (.binbeg x) 0x57 0 x (onGo effBinbeg) s
/-- PRIMR (R412). -/
def execPrimr (x : Ext) (s : State) : Out := issueExt (.primr x) 0x57 1 x (effPrim 0 6) s
/-- PRIMT (R412, R413). -/
def execPrimt (x : Ext) (s : State) : Out := issueExt (.primt x) 0x57 2 x (effPrim 1 8) s
/-- PRIMS (R412). -/
def execPrims (x : Ext) (s : State) : Out := issueExt (.prims x) 0x57 3 x (effPrim 2 11) s
/-- BINEND (R419). -/
def execBinend (x : Ext) (s : State) : Out := issueExt (.binend x) 0x57 4 x (onGo effBinend) s
/-- FRAGOUT (R416, R419). -/
def execFragout (x : Ext) (s : State) : Out := issueExt (.fragout x) 0x57 5 x (onGo effFragout) s
/-- TSTAT (R419). -/
def execTstat (x : Ext) (s : State) : Out := issueExt (.tstat x) 0x57 6 x (onGo effTstat) s

end Sys2Proof.Machine
end

