-- ==== Sys2Proof/Machine/Copy.lean ====
section
/-!
DEFINITION. The copy engine (10 R239-R246) and group copy (R247-R250), with the end of a context's use of the scratch pool
(R232).
-/

namespace Sys2Proof.Machine

/-! ## Descriptors (R241, R249) -/

/-- The element type of a description. -/
def CopyDesc.elem (d : CopyDesc) : Ty := (Ty.ofCode d.ty).getD .b32

/-- The bytes of a unit that the dimensions count (R241, R242). -/
def CopyDesc.unit (d : CopyDesc) : Nat :=
  if d.skind = 4 then groupBytes d.elem.width else if d.elem.width = 4 then 1 else d.elem.width / 8

/-- The product of the extents. -/
def CopyDesc.total (d : CopyDesc) : Nat := d.dims.foldl (fun a x => a * x.1) 1

/-- Whether a type has a sparse form (09 R210). -/
def sparseTy (t : Ty) : Bool := t.width ≤ 16

/-- The dense elements of a unit of the sparse-expand kind. -/
def CopyDesc.per (d : CopyDesc) : Nat := if d.elem.width = 4 then 2 else 1

/-- Whether a description without reserved bits is malformed in what it says itself (R241, R242). A sparse kind of a type wider than 16
bits, which has no sparse form (09 R210), is malformed too (the model's choice, log 35). -/
def CopyDesc.wrong (d : CopyDesc) (latches : Nat) : Bool :=
  d.ndim = 0 || 8 < d.ndim || d.dims.any (fun x => x.1 = 0) || 2 ^ 32 < d.total || (Ty.ofCode d.ty).isNone ||
  (d.elem.width = 4 && d.skind ≠ 3 && d.skind ≠ 4) || 4 < d.skind || 3 < d.dkind || (d.skind = 4 && d.dkind ≠ 2) ||
  ((d.skind = 3 || d.skind = 4) && !sparseTy d.elem) || (d.skind = 3 && d.total * d.per % 64 ≠ 0) ||
  ((d.skind = 2 || d.dkind = 3) && 2 < d.ndim) ||
  (match d.lat with
   | some n => decide (latches ≤ n)
   | none => false)

/-- A dimension of a descriptor. -/
def dimAt (bs : List Byte) (k : Nat) : Nat × Int × Int :=
  (numAt bs (32 + 12 * k) 4, sextN 32 (numAt bs (36 + 12 * k) 4), sextN 32 (numAt bs (40 + 12 * k) 4))

/-- The description in the 128 bytes of a descriptor (R241); a `cpyg` names its rows (R248). -/
def parseCopy (bs : List Byte) (rows : Option (List Nat)) (latches : Nat) : CopyDesc :=
  let nd := numAt bs 16 1
  let ds := (List.range (min nd 8)).map (dimAt bs)
  let dims := match rows, ds with
    | some l, x :: y :: _ => [x, (l.length, y.2)]
    | _, l => l
  let d : CopyDesc :=
    { src := numAt bs 0 8, dst := numAt bs 8 8, ndim := nd, ty := numAt bs 17 1, skind := numAt bs 18 1,
      dkind := numAt bs 19 1, lat := if (numAt bs 20 1).testBit 5 then some (numAt bs 20 1 % 32) else none, dims := dims,
      bad := false }
  { d with bad := numAt bs 20 1 / 64 ≠ 0 || numAt bs 21 11 ≠ 0 || (rows.isSome && nd ≠ 2) || d.wrong latches }

/-- The description in the four registers of `cpyw` (R249). -/
def wordCopy (a b c e : Nat) (latches : Nat) : CopyDesc :=
  let d : CopyDesc :=
    { src := a, dst := b, ndim := 2, ty := bitsN c 52 48, skind := bitsN c 54 53, dkind := bitsN c 56 55,
      lat := if c.testBit 62 then some (bitsN c 61 57) else none, dims := [], bad := false }
  let u : Int := d.unit
  let d := { d with dims := [(bitsN c 31 0, u, u),
    (bitsN c 47 32, sextN 32 (e % 2 ^ 32), sextN 32 (e / 2 ^ 32))] }
  { d with bad := c.testBit 63 || d.skind = 2 || d.dkind = 3 || d.wrong latches }

/-! ## Units (R241-R243, R248) -/

/-- The indices of unit u, dimension 0 fastest. -/
def digits : List (Nat × Int × Int) → Nat → List Nat
  | [], _ => []
  | (n, _) :: l, u => u % n :: digits l (u / n)

/-- The source indices of unit u: a row of `cpyg` comes from the row that its lane names. -/
def Copy.srcIx (k : Copy) (u : Nat) : List Nat :=
  match k.rows, digits k.desc.dims u with
  | some rows, [i, r] => [i, rows.getD r 0]
  | _, l => l

/-- The place of unit u among the units of a sparse source, which are numbered row by row (R248). -/
def Copy.srcUnit (k : Copy) (u : Nat) : Nat :=
  match k.rows, digits k.desc.dims u, k.desc.dims with
  | some rows, [i, r], d :: _ => rows.getD r 0 * d.1 + i
  | _, _, _ => u

/-- The source offset of unit u. -/
def Copy.srcOff (k : Copy) (u : Nat) : Int :=
  ((k.srcIx u).zip k.desc.dims).foldl (fun a x => a + (x.1 : Int) * x.2.2.1) 0

/-- The destination offset of unit u. -/
def Copy.dstOff (k : Copy) (u : Nat) : Int :=
  ((digits k.desc.dims u).zip k.desc.dims).foldl (fun a x => a + (x.1 : Int) * x.2.2.2) 0

/-- Where a unit lies. -/
inductive Loc where
  | mem (va : Nat)
  | scratch (a : Nat)
  | obuf (a : Nat)
  | outside
  deriving DecidableEq, Repr

/-- What a copy has looked up: its surfaces and its record. -/
structure CopyEnv where
  srcSurf : Option Surf
  dstSurf : Option Surf
  rcd     : Option Reserve

/-- A scratch location within reach. -/
def scratchLoc (c : Core) (k : Copy) (a : Int) : Loc :=
  if 0 ≤ a && scratchOk c k.place k.ctx a.toNat k.desc.unit then .scratch a.toNat else .outside

/-- A texel of a surface at indices (x, y), with strides in texels. -/
def texelLoc (f : Option Surf) (ix : List Nat) (st : List Int) : Loc :=
  match f with
  | none => .outside
  | some f =>
    let x := (ix.getD 0 0 : Int) * st.getD 0 0
    let y := (ix.getD 1 0 : Int) * st.getD 1 0
    if 0 ≤ x && x < f.width && 0 ≤ y && y < f.height then .mem (f.texel x.toNat y.toNat) else .outside

/-- Where unit u comes from. A group of a sparse source is addressed by the units before it. -/
def Copy.srcLoc (k : Copy) (c : Core) (e : CopyEnv) (u : Nat) : Loc :=
  match k.desc.skind with
  | 1 => scratchLoc c k ((k.desc.src : Int) + k.srcOff u)
  | 2 => texelLoc e.srcSurf (k.srcIx u) (k.desc.dims.map (fun d => d.2.1))
  | 3 => .mem ((k.desc.src + k.srcUnit u * k.desc.per / 64 * groupBytes k.desc.elem.width) % 2 ^ 64)
  | _ => .mem (patN 64 ((k.desc.src : Int) + k.srcOff u))

/-- Where unit u goes to. -/
def Copy.dstLoc (k : Copy) (c : Core) (e : CopyEnv) (u : Nat) : Loc :=
  match k.desc.dkind with
  | 1 => scratchLoc c k ((k.desc.dst : Int) + k.dstOff u)
  | 2 => match e.rcd with
    | none => .outside
    | some r =>
      let o : Int := (k.desc.dst / 2 ^ 32 : Nat) + k.dstOff u
      if 0 ≤ o && o + k.desc.unit ≤ 256 * r.size then .obuf (256 * r.base + o.toNat) else .outside
  | 3 => texelLoc e.dstSurf (digits k.desc.dims u) (k.desc.dims.map (fun d => d.2.2))
  | _ => .mem (patN 64 ((k.desc.dst : Int) + k.dstOff u))

/-- The units of a copy in order. -/
def Copy.units (k : Copy) : List Nat := List.range k.desc.total

/-! ## Moving (R243, R244) -/

/-- What stops a copy: an absent page at a unit, or its end with a code, a cause and an index. -/
inductive CopyStop where
  | absent (va unit : Nat)
  | ended (code cause idx : Nat)

/-- A translation that stops a copy. -/
def stopOf (va u : Nat) : Tr → CopyStop
  | .fail code cause => .ended (if code = 0x06 then 2 else 3) cause u
  | _ => .absent va u

/-- The bytes of a group of the sparse form, refused with more than 32 stored elements (09 R211). -/
def readGroup (s : State) (core : Nat) (k : Copy) (va u g : Nat) : Except CopyStop (List Byte) :=
  match piecesOf s core k.ctx .sparse va (groupBytes k.desc.elem.width) with
  | .error e => .error (stopOf (failVA s core k.ctx .sparse va (groupBytes k.desc.elem.width)) u e)
  | .ok segs =>
    let bs := homeBytes s segs
    if 32 < ((List.range 64).filter (fun i => (numAt bs 0 8).testBit i)).length then .error (.ended 1 0 g) else .ok bs

/-- The bytes of a unit. -/
def readUnit (s : State) (core : Nat) (k : Copy) (e : CopyEnv) (u : Nat) : Except CopyStop (List Byte) :=
  let n := k.desc.unit
  match k.srcLoc (s.core core) e u with
  | .scratch a => .ok ((s.core core).scratch.bytes a n)
  | .obuf a => .ok ((s.core core).obuf.bytes a n)
  | .outside => .error (.ended 4 0 0)
  | .mem va =>
    if k.desc.skind = 4 then readGroup s core k va u u
    else if k.desc.skind = 3 then
      let w := k.desc.elem.width
      let i := k.srcUnit u * k.desc.per
      match readGroup s core k va u (u * k.desc.per / 64) with
      | .error x => .error x
      | .ok bs =>
        let es := groupElems (Memory.setBytes [] 0 bs) 0 w
        .ok (leBytes n (packElems w ((List.range k.desc.per).map (fun j => es.getD (i % 64 + j) 0))))
    else match readVA s core k.ctx va n with
      | .ok bs => .ok bs
      | .error x => .error (stopOf (failVA s core k.ctx .read va n) u x)

/-- The bytes of a unit at their destination. A range that the issuer's open task declares refuses them (14 R320). -/
def writeUnit (s : State) (core : Nat) (k : Copy) (e : CopyEnv) (u : Nat) (bs : List Byte) : Except CopyStop State :=
  match k.dstLoc (s.core core) e u with
  | .scratch a => .ok (s.onCore core (fun c => c.putScratch a bs))
  | .obuf a => .ok (s.onCore core (fun c => { c with obuf := c.obuf.setBytes a bs }))
  | .outside => .error (.ended 4 0 0)
  | .mem va =>
    let own := match s.team? k.team with
      | some t => t.declares va bs.length
      | none => false
    if own then .error (.ended 3 8 u)
    else match writeVA s core k.ctx va bs with
      | .ok s => .ok s
      | .error x => .error (stopOf (failVA s core k.ctx .write va bs.length) u x)

/-- Units one at a time, in order: the state and what stopped them. -/
def moveUnits (core : Nat) (k : Copy) (e : CopyEnv) : List Nat → State → State × Option CopyStop
  | [], s => (s, none)
  | u :: us, s => match readUnit s core k e u with
    | .error x => (s, some x)
    | .ok bs => match writeUnit s core k e u bs with
      | .error x => (s, some x)
      | .ok s => moveUnits core k e us s

/-! ## Completion (R245, R250) -/

/-- Fills the `cpyq` flights of a core that ask for a copy. -/
def answerQueries (s : State) (core id : Nat) (w : Word64) : State :=
  let fs := s.flights.filter (fun f => (match f.instr with
    | .cpyq _ => true
    | _ => false) && f.aux = [0, core, id])
  fs.foldl (fun s f => clearWait (endFlight (s.onTeam f.team (fun t => t.setS f.dst w)) { f with lanes := [] }) f.id) s

/-- Ends the `yield.copy` waits on a copy (R255). -/
def yieldWake (s : State) (core id : Nat) : State :=
  { s with teams := s.teams.map (fun t =>
      if t.core = core && t.run = .parked .yield && t.aux.take 2 = [1, id] then
        { t with pc := BitVec.ofNat 64 (t.aux.getD 3 0), run := .running, aux := [] }
      else t) }

/-- The status word of `cpyq` (R250). -/
def copyWord (code cause idx : Nat) : Word64 := BitVec.ofNat 64 (code + cause * 2 ^ 8 + idx * 2 ^ 32)

/-- A copy leaves the engine: what waits for it waits no longer. -/
def dropCopy (s : State) (core : Nat) (k : Copy) : State :=
  let s := s.onCore core (fun c => { c with copies := c.copies.filter (fun x => x.id ≠ k.id) })
  let s := yieldWake (clearWait s (copyKey core k.id)) core k.id
  (s.teams.filter (fun t => t.run = .parked .texit && t.core = core)).foldl (fun s t => s.postOnce (.texitComplete t.uid)) s

/-- A copy completes with a status (R245): its slot is free, its arrival is made, its queries are answered. -/
def endCopy (s : State) (core : Nat) (k : Copy) (code cause idx : Nat) : State :=
  let s := dropCopy s core k
  let s := s.onCore core (fun c => { c with ended := ((k.id, code, cause, idx) :: c.ended).take 256 })
  let s := match k.desc.lat with
    | some n => arriveAny s core k.launch n 1
    | none => s
  answerQueries s core k.id (copyWord code cause idx)

/-- The surfaces and the record of a copy, or the status it ends with (R241-R243). -/
def copyEnv (s : State) (core : Nat) (k : Copy) : Except CopyStop CopyEnv := do
  let a : Agent := { core := core, ctx := k.ctx }
  let surfb := match s.ctx? k.ctx with
    | some c => c.surfb.toNat
    | none => 0
  let look (on : Bool) (h : Nat) : Except CopyStop (Option Surf) :=
    if !on then .ok none
    else match readSurf a s surfb h with
      | .error (va, x) => .error (stopOf va 0 x)
      | .ok (.bad _) => .error (.ended 5 0 0)
      | .ok (.ok f) => if f.layout = 2 then .error (.ended 5 0 0) else .ok (some f)
  let sf ← look (k.desc.skind = 2) k.desc.src
  let df ← look (k.desc.dkind = 3) k.desc.dst
  if k.desc.dkind ≠ 2 then return { srcSurf := sf, dstSurf := df, rcd := none }
  else match s.rcd? core (k.desc.dst % 16) with
    | none => .error (.ended 4 0 0)
    | some r =>
      let own := match s.launch? k.launch with
        | some l => r.ctx = k.ctx && r.hdr = l.hdrA
        | none => false
      if !own then .error (.ended 4 0 0)
      else if r.ty ≠ k.desc.ty || (k.desc.skind = 4 && r.lay ≠ 2) then .error (.ended 5 0 0)
      else return { srcSurf := sf, dstSurf := df, rcd := some r }

/-- Whether a copy waits: for a scratch line that is filling (the model's choice, log 35: R231 makes only `ldsp` and `stsp` wait) or
evicting, or for reads of the matrix engine (13 R298). -/
def copyWaits (s : State) (core : Nat) (k : Copy) (e : CopyEnv) : Bool :=
  let c := s.core core
  let held (l : Loc) : Bool := match l with
    | .scratch a => scratchHeld c k.place k.ctx a k.desc.unit
    | .obuf a => engineReads s core a k.desc.unit
    | _ => false
  k.units.any (fun u => held (k.srcLoc c e u) || held (k.dstLoc c e u))

/-- Whether some unit lies outside its range (R243). -/
def copyOutside (s : State) (core : Nat) (k : Copy) (e : CopyEnv) : Bool :=
  let c := s.core core
  k.units.any (fun u => k.srcLoc c e u = .outside || k.dstLoc c e u = .outside)

/-- A copy that was stopped: its status, or a wait in the fault buffer, after which it is made from the beginning. -/
def copyStopped (s after : State) (core : Nat) (k : Copy) : CopyStop → State
  | .ended code cause idx => endCopy after core k code cause idx
  | .absent va u => match meetFault s core k.ctx va 1 0 (.copyComplete core k.id) .absent with
    | .wait s => s
    | .fail _ _ cause => endCopy { after with declined := after.declined.erase (.copyComplete core k.id) } core k 2 cause u

/-- The span of the memory addresses of some places of n bytes: its first address and the one after its last. -/
def spanOf (n : Nat) (ls : List Loc) : Option (Nat × Nat) :=
  ls.foldl (fun b l => match l, b with
    | .mem a, none => some (a, a + n)
    | .mem a, some (lo, hi) => some (min lo a, max hi (a + n))
    | _, b => b) none

/-- Whether two spans meet. -/
def spansMeet (a b : Option (Nat × Nat)) : Bool :=
  match a, b with
  | some (lo, hi), some (lo', hi') => decide (lo < hi') && decide (lo' < hi)
  | _, _ => false

/-- The bytes that a copy reads for a unit: a sparse source is read by whole groups (09 R211). -/
def CopyDesc.readSize (d : CopyDesc) : Nat := if d.skind = 3 then groupBytes d.elem.width else d.unit

/-- The memory spans that a copy reads and writes. -/
def copySpans (s : State) (core : Nat) (k : Copy) : Option (Nat × Nat) × Option (Nat × Nat) :=
  match copyEnv s core k with
  | .error _ => (none, none)
  | .ok e => (spanOf k.desc.readSize (k.units.map (k.srcLoc (s.core core) e)),
      spanOf k.desc.unit (k.units.map (k.dstLoc (s.core core) e)))

/-- Whether an access on path `cp` of a team, which reads and writes some spans, follows an access of the team there
that has not ended and meets it, where one of the two writes: accesses of a team to one location on one path keep program
order (11 R263). Copies that a save cancelled start again later and are passed over. -/
def cpBehind (s : State) (core u seq : Nat) (r w : Option (Nat × Nat)) : Bool :=
  let c := s.core core
  (c.copies.filter (fun o => o.team = u && decide (o.seq < seq) && !o.held && !o.desc.bad)).any (fun o =>
    let (r', w') := copySpans s core o
    spansMeet w w' || spansMeet w r' || spansMeet r w') ||
  (c.lines.filter (fun l => l.team = u && decide (l.seq < seq))).any (fun l =>
    let x := some (tagAddr l.tag, tagAddr l.tag + 256)
    (l.st = .filling && spansMeet w x) || (l.st = .evicting && (spansMeet w x || spansMeet r x)))

/-- Whether a copy follows such an access. -/
def copyBehind (s : State) (core : Nat) (k : Copy) : Bool :=
  let (r, w) := copySpans s core k
  cpBehind s core k.team k.seq r w

/-- Whether the fill or the write-back of a line follows such an access. -/
def lineBehind (s : State) (core : Nat) (l : Line) : Bool :=
  let x := some (tagAddr l.tag, tagAddr l.tag + 256)
  if l.st = .filling then cpBehind s core l.team l.seq x none else cpBehind s core l.team l.seq none x

/-- Whether the payload of a `qwpush` follows such an access: every other one of its team is older. -/
def payloadBehind (s : State) (t : Team) (dst n : Nat) : Bool :=
  cpBehind s t.core t.uid (s.stepNo + 1) none (some (dst, dst + n))

/-- Whether the read of a descriptor follows such an access: it holds its team, so every other one is older. -/
def descBehind (s : State) (t : Team) (va : Nat) : Bool :=
  cpBehind s t.core t.uid (s.stepNo + 1) (some (va, va + 128)) none

/-- COPY_COMPLETE (R243-R245): the checks, the units in order, and the end of the copy. -/
def execCopyComplete (core id : Nat) (s : State) : Out :=
  match (s.core core).copies.find? (fun k => k.id = id) with
  | none => .next s
  | some k =>
    if k.held then .next s
    else if k.desc.bad then .next (endCopy s core k 5 0 0)
    else match copyEnv s core k with
      | .error x => .next (copyStopped s s core k x)
      | .ok e =>
        if copyOutside s core k e then .next (endCopy s core k 4 0 0)
        else if copyWaits s core k e || copyBehind s core k then .next (s.post (.copyComplete core id))
        else match moveUnits core k e k.units s with
          | (s, none) => .next (endCopy s core k 0 0 0)
          | (after, some x) => .next (copyStopped s after core k x)

/-! ## Starting (R239, R240) -/

/-- A description starts as a copy with the next id of the core (R239), which sD receives. -/
def startCopy (s : State) (t : Team) (sd : Nat) (d : CopyDesc) (rows : Option (List Nat)) : State :=
  let id := (s.core t.core).nextCopy
  let k : Copy :=
    { id := id, team := t.uid, launch := t.launch, ctx := t.ctx, place := t.place, desc := d, rows := rows, held := false,
      seq := s.stepNo }
  let s := s.onCore t.core (fun c => { c with
    copies := c.copies ++ [k], nextCopy := if id = 2 ^ 32 - 1 then 1 else id + 1 })
  (s.onTeam t.uid (fun t => t.setS sd (BitVec.ofNat 64 id))).post (.copyComplete t.core id)

/-- The latch run of a team's kernel on its core (R251). -/
def latchCount (s : State) (t : Team) : Nat := objLimit s t .latch

/-- Whether an instruction is a copy whose descriptor is being read. -/
def isDescRead (i : Instr) : Bool := match i with
  | .cpy _ => true
  | .cpyg _ => true
  | _ => false

/-- Whether the core has 128 copies outstanding, counting those whose descriptor is being read (R239). -/
def copiesFull (s : State) (core : Nat) : Bool :=
  let reading := s.flights.filter (fun f => isDescRead f.instr && (match s.team? f.team with
    | some t => t.core = core
    | none => false))
  128 ≤ (s.core core).copies.length + reading.length

/-- The rows that a flight of `cpyg` keeps in its lanes. -/
def Flight.rows (f : Flight) : Option (List Nat) := match f.instr with
  | .cpyg _ => some (f.lanes.map (fun l => l.data.toNat))
  | _ => none

/-- The fields of a copy instruction whose descriptor is being read. -/
def copyExt (i : Instr) : Option Ext := match i with
  | .cpy x => some x
  | .cpyg x => some x
  | _ => none

/-- What the read of a descriptor waits for: the stores and atomics of its team that memory does not show yet (R240). -/
def storesBefore (s : State) (u : Nat) : List Nat :=
  ((lsFlights s u).filter (fun f => match memOp? f.instr with
    | some m => m.kind ≠ .load
    | none => false)).map (fun f => f.id) ++
  (s.writes.filter (fun w => w.team = u && w.path = 0 && !w.waits.isEmpty)).map (fun w => w.id)

/-- COPY_DESCRIPTOR_READ (R240): the descriptor is read on path `cp` after every earlier store of the team to its bytes and every
earlier write of it on that path (11 R263), and the copy starts. -/
def execCopyDescriptorRead (core id : Nat) (s : State) : Out :=
  match s.flight? id with
  | none => .next s
  | some f => match s.team? f.team, copyExt f.instr, f.lanes with
    | some t, some x, r :: _ =>
      let va := offAddr x r.addr.toNat
      let s := tlbFill s core t.ctx va
      if !f.waits.isEmpty || descBehind s t va then .next (s.postOnce (.copyDescriptorRead core id))
      else match piecesOf s core t.ctx .read va 128 with
      | .ok segs =>
        let bs := (segKeys segs).map (coreByte s core false)
        let s := startCopy s t x.d.toNat (parseCopy bs f.rows (latchCount s t)) f.rows
        .next (clearWait (endFlight s { f with lanes := [] }) id)
      | .error e => match meetFault s core t.ctx va 1 id (.copyDescriptorRead core id) e with
        | .wait s => .next (parkFault (f.lanes.foldl (fun s l => setLane s id l.lane .faulted) s) t.uid)
        | .fail s code cause =>
          let tr : Trap := { trapHere f.pc f.npc code (cause * 256 + 1) with addr := BitVec.ofNat 64 va }
          .next (clearWait (closeWith (fun _ => some tr) s f) id)
    | _, _, _ => .next s

/-! ## Group copy -/

/-- `cpy` and `cpyg` (R247, R248). -/
def effCpy (gather : Bool) (c : C) (s : State) : Eff :=
  let va := offAddr c.x (c.base s)
  let core := s.core c.t.core
  let rowOfLane (l : Nat) : Nat := (c.t.lane c.x.b.code.toNat l).toNat
  let rows := if gather then some (c.actives.map rowOfLane) else none
  if gather && !c.any then .done s
  else if va % 128 ≠ 0 then .trap s (c.trapAt 0x04 0x0101 va [])
  else if c.x.bit 14 && !scratchOk core c.t.place c.t.ctx va 128 then .trap s (c.trapAt 0x05 0x0701 va [])
  else if copiesFull s c.t.core then .wait s
  else if c.x.bit 14 then
    if scratchHeld core c.t.place c.t.ctx va 128 then .wait s
    else .done (startCopy s c.t c.x.d.toNat (parseCopy (core.scratch.bytes va 128) rows (latchCount s c.t)) rows)
  else
    let id := s.nextId
    let ls := if gather then c.actives else [0]
    let lanes := ls.map (fun l => ({ lane := l, addr := BitVec.ofNat 64 (c.base s),
                                     data := BitVec.ofNat 64 (if gather then rowOfLane l else 0), st := .todo } : LaneReq))
    let w := storesBefore s c.t.uid
    let s := c.launch s lanes [] [0] true
    .done ({ s with flights := s.flights.map (fun (f : Flight) => if f.id = id then { f with waits := w } else f) }.post
      (.copyDescriptorRead c.t.core id))

/-- `cpyw` (R249). -/
def effCpyw (c : C) (s : State) : Eff :=
  if copiesFull s c.t.core then .wait s
  else
    let w (j : Nat) : Nat := (c.t.sval (c.x.a.code.toNat + j)).toNat
    .done (startCopy s c.t c.x.d.toNat (wordCopy (w 0) (w 1) (w 2) (w 3) (latchCount s c.t)) none)

/-- `cpyq` (R250): at once for a copy that has completed or is not known, else when it completes. -/
def effCpyq (c : C) (s : State) : Eff :=
  let id := (c.sc64 s c.x.a).toNat
  if copyOut s c.t.core id then .done (c.launch s [] [] [0, c.t.core, id] false)
  else .done (c.putS s (match (s.core c.t.core).ended.find? (fun e => e.1 = id) with
    | some (_, code, cause, idx) => copyWord code cause idx
    | none => copyWord 6 0 0))

/-- CPY (R247). -/
def execCpy (x : Ext) (s : State) : Out := issueExt (.cpy x) 0x4E 0 x (onGo (effCpy false)) s
/-- CPYG (R248): executes once when R44 lets it; the rows are those of its active lanes. -/
def execCpyg (x : Ext) (s : State) : Out := issueExt (.cpyg x) 0x4E 1 x (onGo (effCpy true)) s
/-- CPYW (R249). -/
def execCpyw (x : Ext) (s : State) : Out := issueExt (.cpyw x) 0x4E 2 x (onGo effCpyw) s
/-- CPYQ (R250). -/
def execCpyq (x : Ext) (s : State) : Out := issueExt (.cpyq x) 0x4E 3 x (onGo effCpyq) s

/-! ## Saves, ends of teams and of pool use (R232, R246, R472) -/

/-- The scratch lines that a copy's units touch, as source or destination. -/
def Copy.lines (k : Copy) : List Nat :=
  let n := k.desc.unit
  let a (on : Bool) (base : Nat) (off : Nat → Int) : List Nat :=
    if on then k.units.flatMap (fun u => linesAt ((base : Int) + off u).toNat n) else []
  a (k.desc.skind = 1) k.desc.src k.srcOff ++ a (k.desc.dkind = 1) k.desc.dst k.dstOff

/-- Whether a copy touches its team's plain scratch or a reservation (R246, R472). -/
def Copy.ofTeam (k : Copy) (c : Core) : Bool :=
  !k.desc.bad && (k.desc.dkind = 2 || k.lines.any (plainIn (c.recs.getD k.place Bind.reset)))

/-- Whether a copy touches a pool line (R232). -/
def Copy.ofPool (k : Copy) (c : Core) : Bool :=
  !k.desc.bad && k.lines.any (fun n => (lineOf c n).isSome)

/-- The copies of a team that a save cancels until it resumes (R246). The others run on, and reach no plain line (R231). -/
def holdCopies (s : State) (t : Team) : State :=
  s.onCore t.core (fun c => { c with copies := c.copies.map (fun k =>
    if k.team ≠ t.uid then k else if k.ofTeam c then { k with held := true } else { k with place := 16 }) })

/-- The copies that a save cancelled start again from the beginning when their team resumes, at its place (R246). -/
def resumeCopies (s : State) (t : Team) : State :=
  let ks := (s.core t.core).copies.filter (fun k => k.team = t.uid && k.held)
  let s := s.onCore t.core (fun c => { c with copies := c.copies.map (fun k =>
    if k.team = t.uid then { k with held := false, place := t.place } else k) })
  ks.foldl (fun s k => s.postOnce (.copyComplete t.core k.id)) s

/-- The copies of a team that ends without `texit` (R472): those into its plain scratch or reservations are cancelled, and a `cpyq` of
another team that waits for one finds it unknown, as a later one does (the model's choice, log 35). The others run on, and reach no
plain line (R231). -/
def killCopies (s : State) (t : Team) : State :=
  let s := ((s.core t.core).copies.filter (fun k => k.team = t.uid && (k.held || k.ofTeam (s.core t.core)))).foldl
    (fun s k => answerQueries (dropCopy s t.core k) t.core k.id (copyWord 6 0 0)) s
  s.onCore t.core (fun c => { c with copies := c.copies.map (fun k => if k.team = t.uid then { k with place := 16 } else k) })

/-- The write-back of one dirty line at the end of pool use: dropped when it fails for good (R232). -/
def flushLine (core ctx : Nat) (s : State) (l : Line) : Except State State :=
  let va := tagAddr l.tag
  match writeVA s core ctx va ((s.core core).scratch.bytes (256 * l.num) 256) with
  | .ok s => .ok (freeLine s core l.num)
  | .error (.fail _ _) => .ok (freeLine s core l.num)
  | .error x => match meetFault s core ctx va 1 0 (.poolUseEnd core ctx) x with
    | .wait s => .error s
    | .fail s _ _ => .ok (freeLine s core l.num)

/-- The dirty lines in turn, until one waits. -/
def flushLines (core ctx : Nat) : List Line → State → Except State State
  | [], s => .ok s
  | l :: ls, s => match flushLine core ctx s l with
    | .ok s => flushLines core ctx ls s
    | .error s => .error s

/-- POOL_USE_END (R232): the context's last team has left a core. A copy that a save cancelled runs no more until its team
resumes, and is not waited for (R246). -/
def execPoolUseEnd (core ctx : Nat) (s : State) : Out :=
  let c := s.core core
  let mine := c.lines.filter (fun l => l.ctx = ctx && l.st ≠ .free)
  if mine.any (fun l => l.st = .filling || l.st = .evicting) || c.copies.any (fun k => k.ctx = ctx && !k.held && k.ofPool c)
  then .next (s.post (.poolUseEnd core ctx))
  else match flushLines core ctx (mine.filter (fun l => l.st = .valid && l.dirty)) s with
    | .error s => .next s
    | .ok s => .next (wakeLaunches ((mine.filter (fun l => !(l.st = .valid && l.dirty))).foldl (fun s l => freeLine s core l.num) s))

/-! ## Transfers of lines and payloads, in their order on path `cp` (R230, 11 R263, 15 R346) -/

/-- FILL_COMPLETE (10 R230, R235): the 256 bytes are read on path `cp`, and the line becomes valid. -/
def execFillComplete (core n : Nat) (s : State) : Out :=
  match lineOf (s.core core) n with
  | none => .next s
  | some l =>
    if l.st ≠ .filling then .next s
    else if lineBehind s core l then .next (s.postOnce (.fillComplete core n))
    else
      let va := tagAddr l.tag
      let s := tlbFill s core l.ctx va
      match readVA s core l.ctx va 256 with
      | .ok bs =>
        let s := s.onCore core (fun c => { c with scratch := c.scratch.setBytes (256 * n) bs })
        .next (lineDone (onLine s core n (fun l => { l with st := .valid, dirty := false })) core l)
      | .error e => match meetFault s core l.ctx (failVA s core l.ctx .read va 256) 1 0 (.fillComplete core n) e with
        | .wait s => .next s
        | .fail s code cause => .next (s.post (.fillFailure core n (code * 256 + cause)))

/-- WRITEBACK_COMPLETE (10 R230, R236): the line is written on path `cp` and becomes free. -/
def execWritebackComplete (core n : Nat) (s : State) : Out :=
  match lineOf (s.core core) n with
  | none => .next s
  | some l =>
    if l.st ≠ .evicting then .next s
    else if lineBehind s core l then .next (s.postOnce (.writebackComplete core n))
    else
      let va := tagAddr l.tag
      let s := tlbFill s core l.ctx va
      match writeVA s core l.ctx va ((s.core core).scratch.bytes (256 * n) 256) with
      | .ok s => .next (lineDone (freeLine s core n) core l)
      | .error e => match meetFault s core l.ctx va 1 0 (.writebackComplete core n) e with
        | .wait s => .next s
        | .fail s code cause => .next (s.post (.writebackFailure core n (code * 256 + cause)))

/-- QWPUSH_PAYLOAD_DONE (R346): the payload goes on from where it stands, and what it ends in. -/
def execQwpushPayloadDone (id : Nat) (s : State) : Out :=
  match s.flight? id with
  | none => .next s
  | some f => match s.team? f.team, f.instr with
    | some t, .qwpush x =>
      let n := f.aux.getD 2 0
      let dst := f.aux.getD 6 0
      if payloadBehind s t dst n then .next (s.postOnce (.qwpushPayloadDone id))
      else match payload t.core t.ctx dst n (payloadByte t.core f) 4 s (f.aux.getD 3 0) with
      | (s, _, none) => .next (payloadWritten s t f x.d.toNat (x.bit 0))
      | (s, off, some e) =>
        let s := s.setFlight { f with aux := f.aux.set 3 off }
        match meetFault s t.core t.ctx (dst + off) 1 id (.qwpushPayloadDone id) e with
        | .wait s => .next (parkFault (setLane s id 0 .faulted) t.uid)
        | .fail s code cause => .next (payloadFailed s t f x.d.toNat off code cause)
    | _, _ => .next s

end Sys2Proof.Machine
end

