-- ==== Sys2Proof/Machine/Ctrl.lean ====
section
/-!
DEFINITION. Groups ctrl and mask (05 R129-R136) but for `texit`, with their one-word forms.
-/

namespace Sys2Proof.Machine

/-- The branch target: the instruction's own address + 4 x sext(off, 24) (05 R129). -/
def C.target (c : C) : Word64 := c.t.pc + BitVec.ofInt 64 (4 * sextN 24 c.x.x24.toNat)

/-- A branch when the instruction executes and a condition holds (05 R130). -/
def branchIf (p : C → State → Bool) (c : C) (s : State) : Eff :=
  if c.go && p c s then .jump s c.target else .done s

/-- The condition codes of `bsc` (05 R129, R130). -/
def bscCond (cc : Nat) (x : Int) : Bool :=
  match cc with
  | 0 => x = 0 | 1 => x ≠ 0 | 2 => x < 0 | 3 => 0 ≤ x | 4 => 0 < x | _ => x ≤ 0

/-- `bra` (05 R130). -/
def effBra : C → State → Eff := branchIf (fun _ _ => true)
/-- `bmz` (05 R130). -/
def effBmz : C → State → Eff := branchIf (fun c _ => c.t.msum = 0)
/-- `bmnz` (05 R130). -/
def effBmnz : C → State → Eff := branchIf (fun c _ => c.t.msum ≠ 0)
/-- `bsc` (05 R130). -/
def effBsc : C → State → Eff :=
  branchIf (fun c s => bscCond c.x.b.code.toNat (c.sc64 s c.x.a).toInt)

/-- `call` (05 R131). -/
def effCall (c : C) (s : State) : Eff := if c.go then .jump (c.putS s c.npc) c.target else .done s

/-- `ret` and `jmp` (05 R131). -/
def effJump (c : C) (s : State) : Eff :=
  if c.go then
    let x := c.sc64 s c.x.a
    if x.toNat % 4 ≠ 0 then .trap s (c.trap 0x04 0) else .jump s x
  else .done s

/-- `loop` (05 R132). -/
def effLoop (c : C) (s : State) : Eff :=
  if c.go then
    let x := c.t.sval c.x.d.toNat - 1
    if x ≠ 0 then .jump (c.putS s x) c.target else .done (c.putS s x)
  else .done s

/-- `brk` (05 R134). -/
def effBrk (c : C) (s : State) : Eff :=
  if c.go then .trap s { c.trap 0x0B (c.x.f 15 0) with skip := true } else .done s

/-- `nop` (05 R134). -/
def effNop (_c : C) (s : State) : Eff := .done s

/-- BRA (05 R130). -/
def execBra (x : Ext) (s : State) : Out := issueExt (.bra x) 0x40 0 x effBra s
/-- BMZ (05 R130). -/
def execBmz (x : Ext) (s : State) : Out := issueExt (.bmz x) 0x40 1 x effBmz s
/-- BMNZ (05 R130). -/
def execBmnz (x : Ext) (s : State) : Out := issueExt (.bmnz x) 0x40 2 x effBmnz s
/-- BSC (05 R130). -/
def execBsc (x : Ext) (s : State) : Out := issueExt (.bsc x) 0x40 3 x effBsc s
/-- CALL (05 R131). -/
def execCall (x : Ext) (s : State) : Out := issueExt (.call x) 0x40 4 x effCall s
/-- RET (05 R131). -/
def execRet (x : Ext) (s : State) : Out := issueExt (.ret x) 0x40 5 x effJump s
/-- JMP (05 R131). -/
def execJmp (x : Ext) (s : State) : Out := issueExt (.jmp x) 0x40 6 x effJump s
/-- LOOP (05 R132). -/
def execLoop (x : Ext) (s : State) : Out := issueExt (.loop x) 0x40 7 x effLoop s
/-- BRK (05 R134). -/
def execBrk (x : Ext) (s : State) : Out := issueExt (.brk x) 0x40 9 x effBrk s
/-- NOP (05 R134). -/
def execNop (x : Ext) (s : State) : Out := issueExt (.nop x) 0x40 10 x effNop s

/-- NOP_SHORT (05 R134): D and A are ignored. -/
def execNopShort (x : Short) (s : State) : Out :=
  issue (.nopShort x) 0x40 10 (shortLen x) (shortBare x 0 0) effNop s
/-- BRA_SHORT (03 R78, 05 R130). -/
def execBraShort (x : Short) (s : State) : Out :=
  issue (.braShort x) 0x40 0 (shortLen x) (shortBare x 0 (shortOff16 x)) effBra s
/-- BMZ_SHORT (03 R78, 05 R130). -/
def execBmzShort (x : Short) (s : State) : Out :=
  issue (.bmzShort x) 0x40 1 (shortLen x) (shortBare x 0 (shortOff16 x)) effBmz s
/-- BMNZ_SHORT (03 R78, 05 R130). -/
def execBmnzShort (x : Short) (s : State) : Out :=
  issue (.bmnzShort x) 0x40 2 (shortLen x) (shortBare x 0 (shortOff16 x)) effBmnz s
/-- LOOP_SHORT (03 R78, 05 R132). -/
def execLoopShort (x : Short) (s : State) : Out :=
  issue (.loopShort x) 0x40 7 (shortLen x) (shortBare x x.d (shortOff8 x)) effLoop s

/-! ## Group mask -/

/-- Bit L of a run of scalar registers (05 R136). -/
def Team.runBit (t : Team) (n l : Nat) : Bool := (t.sval (n + l / 64)).getLsbD (l % 64)

/-- A 64-bit register with its bits at and above k kept and the bits below taken from a list (05 R136). -/
def mergeBits (old : Word64) (bits : List Bool) : Word64 :=
  ((List.range bits.length).zip bits).foldl
    (fun (w : Word64) (x : Nat × Bool) =>
      if x.2 then w ||| BitVec.ofNat 64 (2 ^ x.1) else w &&& ~~~(BitVec.ofNat 64 (2 ^ x.1))) old

/-- The mask bits of a lane list written to a run; ordinary bits stay (05 R136). -/
def Team.putMask (t : Team) (n : Nat) (bits : List Bool) : Team :=
  (List.range (maskRegs t.width)).foldl
    (fun (u : Team) k => u.setS (n + k) (mergeBits (u.sval (n + k)) ((bits.drop (64 * k)).take 64))) t

/-- `pmask` (05 R136): every pass issues, and every mask bit of the run is written. -/
def effPmask (c : C) (s : State) : Eff :=
  let bits := c.t.laneIxs.map (fun l => c.act.getD l false && c.t.pr c.x.a.code.toNat l)
  .done (s.onTeam c.t.uid (fun t => t.putMask c.x.d.toNat bits))

/-- `mpred` (05 R136). -/
def effMpred (c : C) (s : State) : Eff :=
  .done (s.onTeam c.t.uid (fun t =>
    t.writeP c.x.d.toNat c.act (c.t.laneIxs.map (c.t.runBit c.x.a.code.toNat))))

/-- `mpop` (05 R136). -/
def effMpop (c : C) (s : State) : Eff :=
  .done (c.putS s (BitVec.ofNat 64 ((c.t.laneIxs.filter (c.t.runBit c.x.a.code.toNat)).length)))

/-- `mfirst` (05 R136). -/
def effMfirst (c : C) (s : State) : Eff :=
  .done (c.putS s (match c.t.laneIxs.find? (c.t.runBit c.x.a.code.toNat) with
    | some l => BitVec.ofNat 64 l
    | none => BitVec.ofNat 64 (2 ^ 64 - 1)))

/-- PMASK (05 R136). -/
def execPmask (x : Ext) (s : State) : Out := issueExt (.pmask x) 0x41 0 x effPmask s
/-- MPRED (05 R136). -/
def execMpred (x : Ext) (s : State) : Out := issueExt (.mpred x) 0x41 1 x effMpred s
/-- MPOP (05 R136). -/
def execMpop (x : Ext) (s : State) : Out := issueExt (.mpop x) 0x41 2 x (onGo effMpop) s
/-- MFIRST (05 R136). -/
def execMfirst (x : Ext) (s : State) : Out := issueExt (.mfirst x) 0x41 3 x (onGo effMfirst) s

end Sys2Proof.Machine
end

