-- ==== Sys2Proof/Machine/Hist.lean ====
section
/-!
DEFINITION. History chains, motion fields and the tumbler: group hist (16).
-/

namespace Sys2Proof.Machine

/-! ## Chains (R352-R354) -/

/-- A chain descriptor as its 256 bytes. -/
abbrev Chain := List Byte

/-- The physical slot of logical slot 0. -/
def cHead (d : Chain) : Nat := numAt d 17 1 % 8
/-- The number of slots in use. -/
def cNslot (d : Chain) : Nat := numAt d 16 1
/-- The physical slot of a logical one (R354). -/
def cPhys (d : Chain) (i : Nat) : Nat := (cHead d + i) % 8
/-- The logical slot of a physical one. -/
def cLog (d : Chain) (p : Nat) : Nat := (p + 8 - cHead d) % 8
/-- The state of a physical slot: 0 invalid, 1 valid, 2 retired, 3 reserved. -/
def cState (d : Chain) (p : Nat) : Nat := numAt d 18 2 / 4 ^ p % 4
/-- A shortcut record. -/
def cRec (d : Chain) (q : Nat) : Nat := numAt d (32 + 4 * q) 4
/-- A plane of a physical slot. -/
def cPlane (d : Chain) (p k : Nat) : Nat := numAt d (128 + 16 * p + 4 * k) 4
/-- The field spacing in bytes. -/
def cStride (d : Chain) : Nat := 256 * numAt d 20 4
/-- The address of field n: the fields of the slots, then those of the shortcuts (R354). -/
def cField (d : Chain) (n : Nat) : Nat := numAt d 24 8 + cStride d * n

/-- Whether a descriptor is valid and not malformed (R354). -/
def chainOk (d : Chain) : Bool :=
  numAt d 0 1 % 2 = 1 && numAt d 0 1 < 4 && numAt d 1 7 = 0 && numAt d 17 1 < 8 && numAt d 48 80 = 0 &&
  1 ≤ cNslot d && cNslot d ≤ 8 && (List.range 8).all (fun p => cState d p ≠ 3) &&
  (List.range 4).all (fun q => cRec d q &&& (2 ^ 32 - 1 - 0x777) = 0) &&
  (List.range 8).all (fun p => (List.range 4).all (fun k =>
    cPlane d p k < 2 ^ 24 && bitsN (cPlane d p k) 22 20 ≠ 7))

/-- The address of a chain's descriptor (R352). -/
def chainAt (t : Team) (n : Nat) : Nat := t.chainb.toNat + 256 * n

/-! ## Field headers (R356) -/

/-- A field header, as the number of its 64 bytes. -/
abbrev FHdr := Nat

/-- The grid width. -/
def FHdr.gw (h : FHdr) : Nat := bitsN h 12 0
/-- The grid height. -/
def FHdr.gh (h : FHdr) : Nat := bitsN h 25 13
/-- The cell width exponent. -/
def FHdr.cw (h : FHdr) : Nat := bitsN h 28 26
/-- The cell height exponent. -/
def FHdr.ch (h : FHdr) : Nat := bitsN h 31 29
/-- The generation. -/
def FHdr.gen (h : FHdr) : Nat := bitsN h 39 32
/-- Whether the field is sealed. -/
def FHdr.isSealed (h : FHdr) : Bool := Nat.testBit h 40
/-- The size of the field. -/
def FHdr.size (h : FHdr) : Nat := 64 + 8 * h.gw * h.gh
/-- Whether a field is malformed, in a chain of a spacing. -/
def FHdr.bad (h : FHdr) (stride : Nat) : Bool :=
  decide (2 ^ 42 ≤ (h : Nat)) || h.cw = 7 || h.ch = 7 || h.gw = 0 || 4096 < h.gw || h.gh = 0 || 4096 < h.gh || decide (stride < h.size)

/-! ## Snapshots (R359) -/

/-- The fields that a snapshot needs: those of the slots in use, and those of the shortcuts that are valid. -/
def usedFields (d : Chain) : List Nat :=
  ((List.range (cNslot d)).map (fun i => cPhys d i)) ++
  ((List.range 4).filter (fun q => Nat.testBit (cRec d q) 8)).map (fun q => 8 + q)

/-- A snapshot: the descriptor's bytes, then each field's header and 1, or 0 for one that is not in use or cannot be read for
good, which a lane that reaches it reads itself. An absent page of a header in use is met first, unless firmware declined it
(`lax`). -/
def takeSnap (lax : Bool) (a : Agent) (s : State) (va : Nat) : Got (List Nat) := do
  let d ← a.bytes s va 256
  let hs := (List.range 12).map (fun n => a.rd s (cField d n) 64)
  let gone := if lax || !chainOk d then none else firstSome ((usedFields d).map (fun n => match hs.getD n (.ok 0) with
    | .error (va, .absent) => some va
    | _ => none))
  match gone with
  | some va => .error (va, .absent)
  | none => return d.map (fun b => b.toNat) ++ hs.map (fun h => match h with
    | .ok h => h + 1
    | .error _ => 0)

/-- The descriptor in a snapshot. -/
def snapChain (snap : List Nat) : Chain := (snap.take 256).map (BitVec.ofNat 8)

/-- The header of a field in a snapshot. -/
def snapHdr (a : Agent) (s : State) (snap : List Nat) (n : Nat) : Got FHdr :=
  match snap.getD (256 + n) 0 with
  | 0 => a.rd s (cField (snapChain snap) n) 64
  | h + 1 => .ok h

/-! ## The field cache (R360) -/

/-- The entries of a tumbler's field cache (00 R5). -/
def fieldCap : Nat := 4096

/-- What a walk reads with: its agent, its chain's number and descriptor, its snapshot, `.w`, `.short` and its depth. -/
structure Walker where
  a     : Agent
  num   : Nat
  va    : Nat
  snap  : List Nat
  wt    : Bool
  sh    : Bool
  depth : Nat

/-- The cached header of a field, or its cached entry of a cell. -/
def Walker.cached (k : Walker) (s : State) (n : Nat) (cell : Option Nat) : Option Nat :=
  ((s.core k.a.core).fields.find? (fun l => l.ctx = k.a.ctx && l.chain = k.num && l.field = n && l.cell = cell)).map
    (fun l => leNat l.bytes)

/-- The header of a field for a walk: generation and seal from the snapshot, and the rest of a sealed one from the cache where it
stands there. -/
def Walker.hdr (k : Walker) (s : State) (n : Nat) : Got FHdr :=
  match snapHdr k.a s k.snap n with
  | .error e => .error e
  | .ok h => match (if FHdr.isSealed h then k.cached s n none else none) with
    | none => .ok h
    | some c => .ok (c - bitsN c 40 32 * 2 ^ 32 + bitsN h 40 32 * 2 ^ 32)

/-- The entry of a cell of a field at an address: from the cache for a sealed field. -/
def Walker.entry (k : Walker) (s : State) (n : Nat) (h : FHdr) (cell va : Nat) : Got Nat :=
  match (if FHdr.isSealed h then k.cached s n (some cell) else none) with
  | some e => .ok e
  | none => k.a.rd s va 8

/-- What a lane read of sealed fields enters its core's field cache, and what was entered first leaves a full one. -/
def fieldFill (k : Walker) (s : State) (seen : List (Nat × Option Nat × Nat)) : State :=
  s.onCore k.a.core (fun c => seen.foldl (fun c x =>
    if (c.fields.any (fun l => l.ctx = k.a.ctx && l.chain = k.num && l.field = x.1 && l.cell = x.2.1)) then c
    else { c with fields := ({ ctx := k.a.ctx, chain := k.num, field := x.1, cell := x.2.1,
                               bytes := leBytes (if x.2.1.isNone then 64 else 8) x.2.2 } :: c.fields).take fieldCap }) c)

/-- The entries of a chain leave the field caches of every core. -/
def fieldDrop (s : State) (ctx num : Nat) : State :=
  { s with cores := s.cores.map (fun c => { c with fields := c.fields.filter (fun l => !(l.ctx = ctx && l.chain = num)) }) }

/-! ## The walk (R362, R363) -/

/-- How far a walk is: its position in 1/256 pixel and what it gathered, with what it read of sealed fields (field, cell and
value). -/
structure Walked where
  x     : Int
  y     : Int
  stat  : Bool
  edge  : Bool
  conf  : Nat
  steps : Nat
  seen  : List (Nat × Option Nat × Nat) := []

/-- The status word of a walk that ended with a code (R365). -/
def Walked.word (w : Walked) (code : Nat) : Nat :=
  code + 8 * bitNat w.stat + 16 * bitNat w.edge + 2 ^ 8 * w.conf + 2 ^ 16 * w.steps

/-- How a walk ends: a status, an arrival, or, at a logical slot, a `.w` wait or a read that cannot be made. -/
inductive WalkEnd where
  | code (c : Nat) (w : Walked)
  | ok (w : Walked)
  | held (i : Nat) (w : Walked)
  | stop (i : Nat) (w : Walked) (va : Nat) (e : Tr)

/-- A walk that stands at a logical slot, as a lane keeps it, with whether it waits under `.w`. -/
def Walked.keep (w : Walked) (i : Nat) (waits : Bool) : List Nat :=
  [i, patN 64 w.x, patN 64 w.y, bitNat w.stat, bitNat w.edge, w.conf, w.steps, bitNat waits]

/-- The walk that a lane kept: its logical slot, and how far it is. -/
def walkedOf (pos : List Nat) : Nat × Walked :=
  let n (k : Nat) : Nat := pos.getD k 0
  (n 0, { x := sextN 64 (n 1), y := sextN 64 (n 2), stat := n 3 = 1, edge := n 4 = 1, conf := n 5, steps := n 6 })

/-- The slot and field of the next step: a shortcut with the largest target within the depth, else the slot's field
(R363). -/
def nextStep (d : Chain) (sh : Bool) (i depth : Nat) : Nat × Nat :=
  let good := (List.range 4).filter (fun q =>
    let r := cRec d q
    Nat.testBit r 8 && Nat.testBit r 9 && cLog d (r % 8) = i && cLog d (bitsN r 6 4) ≤ depth && i + 2 ≤ cLog d (bitsN r 6 4))
  if !sh then (i + 1, cPhys d i)
  else match good with
    | [] => (i + 1, cPhys d i)
    | q :: qs =>
      let best := qs.foldl (fun b x => if cLog d (bitsN (cRec d b) 6 4) < cLog d (bitsN (cRec d x) 6 4) then x else b) q
      (cLog d (bitsN (cRec d best) 6 4), 8 + best)

/-- An entry applied to a walk. -/
def Walked.apply (w : Walked) (e : Nat) : Walked :=
  { w with
    x := w.x + 16 * sextN 16 (e % 2 ^ 16), y := w.y + 16 * sextN 16 (bitsN e 31 16),
    stat := w.stat && e.testBit 49, edge := e.testBit 50, conf := min w.conf (bitsN e 39 32), steps := w.steps + 1 }

/-- The cell of a position in a field, when it lies in the grid. -/
def cellOf (h : FHdr) (x y : Int) : Option (Nat × Nat) :=
  let cx := Int.fdiv x (256 * 2 ^ h.cw : Nat)
  let cy := Int.fdiv y (256 * 2 ^ h.ch : Nat)
  if cx < 0 || cy < 0 || (h.gw : Int) ≤ cx || (h.gh : Int) ≤ cy then none else some (cx.toNat, cy.toNat)

/-- The address of the entry of a cell. -/
def entryVA (d : Chain) (n : Nat) (h : FHdr) (c : Nat × Nat) : Nat := cField d n + 64 + 8 * (c.2 * h.gw + c.1)

/-- A cut of the chain on the way of a walk is seen as it stands (R367). -/
def Walker.cut (k : Walker) (s : State) : Got Bool := do
  let live ← k.a.bytes s k.va 256
  return (List.range (k.depth + 1)).any (fun i => cState live (cPhys (snapChain k.snap) i) ≠ 1)

/-- What an unwritten entry of an unsealed field n gives under `.w`: a status, or none for a wait; the seal and a cut are seen as
they stand (R367, R369). -/
def Walker.heldOr (k : Walker) (s : State) (n : Nat) : Got (Option Nat) := do
  if (← k.cut s) then return some 4
  let h ← k.a.rd s (cField (snapChain k.snap) n) 8
  return if h.testBit 40 then some 1 else none

/-- Notes what a walk read of a sealed field, for the field cache: the header as it stands, and nothing of a field whose header has
changed since the snapshot (R360). -/
def Walker.note (k : Walker) (s : State) (w : Walked) (n : Nat) (h : FHdr) (cell e : Nat) : Walked :=
  match k.a.rd s (cField (snapChain k.snap) n) 64 with
  | .ok live => if h.isSealed && FHdr.isSealed live && (live : Nat) % 2 ^ 32 = (h : Nat) % 2 ^ 32
      then { w with seen := (n, none, live) :: (n, some cell, e) :: w.seen } else w
  | .error _ => w

/-- The steps of a walk from logical slot i; `fuel` bounds their number. -/
def Walker.steps (k : Walker) (s : State) : Nat → Nat → Walked → WalkEnd
  | 0, _, w => .ok w
  | fuel + 1, i, w =>
    if k.depth ≤ i then .ok w
    else
      let d := snapChain k.snap
      let (j, n) := nextStep d k.sh i k.depth
      match k.hdr s n with
      | .error (va, e) => .stop i w va e
      | .ok h =>
        if h.bad (cStride d) then .code 4 w
        else match cellOf h w.x w.y with
        | none => .code 2 w
        | some c => match k.entry s n h (c.2 * h.gw + c.1) (entryVA d n h c) with
          | .error (va, e) => .stop i w va e
          | .ok e =>
            let w := k.note s w n h (c.2 * h.gw + c.1) e
            if bitsN e 47 40 ≠ h.gen then
              if h.isSealed then .code 1 w
              else if !k.wt then .code 3 w
              else match k.heldOr s n with
                | .error (va, e) => .stop i w va e
                | .ok (some c) => .code c w
                | .ok none => .held i w
            else if !e.testBit 48 then .code 1 w
            else
              let w := w.apply e
              if (2 ^ 28 : Int) ≤ w.x.natAbs || (2 ^ 28 : Int) ≤ w.y.natAbs then .code 2 w
              else k.steps s fuel j w

/-- The plane of a walk: absent, not usable, or its surface and scale. -/
inductive Plane where
  | none
  | bad
  | ok (f : Surf) (scale : Nat)

/-- Plane k of a physical slot (R363). -/
def planeOf (a : Agent) (s : State) (t : Team) (d : Chain) (p k : Nat) : Got Plane := do
  let w := cPlane d p k
  if !w.testBit 23 then return .none
  match (← surfOf a s t.surfb.toNat (w % 2 ^ 20)) with
  | some f => return .ok f (bitsN w 22 20)
  | none => return .bad

/-- The start position of a walk, with 0x80000000 for what cannot be converted (R362). -/
def startAt (p : Word64) : Walked × Bool :=
  let x := coord 1 (p.toNat % 2 ^ 32)
  let y := coord 1 (p.toNat / 2 ^ 32)
  ({ x := x.getD (-2147483648), y := y.getD (-2147483648), stat := true, edge := false, conf := 255, steps := 0 },
   x.isSome && y.isSome)

/-- Where a walk arrives: in its plane, or outside it (R363). -/
def landed (pl : Plane) (w : Walked) : WalkEnd × Plane :=
  match pl with
  | .ok f sc =>
    let px := Int.fdiv w.x (2 ^ sc : Nat)
    let py := Int.fdiv w.y (2 ^ sc : Nat)
    if px < 0 || py < 0 || (256 * f.width : Nat) ≤ px || (256 * f.height : Nat) ≤ py then (.code 2 w, .none) else (.ok w, pl)
  | _ => (.ok w, pl)

/-- A walk from a logical slot to its end. -/
def Walker.from (k : Walker) (s : State) (pl : Plane) (i : Nat) (w : Walked) : WalkEnd × Plane :=
  match k.steps s 8 i w with
  | .ok w => landed pl w
  | e => (e, .none)

/-- A whole walk, with the plane at its end (R363, R370): `must` says that the plane has to be present. A lane that stood on its
way (`pos`) goes on from there; one that waited under `.w` ends where the chain was cut (R367). -/
def Walker.walk (k : Walker) (s : State) (t : Team) (must : Bool) (plane : Nat) (p : Word64) (pos : List Nat) :
    Got (WalkEnd × Plane) := do
  let d := snapChain k.snap
  let (w, conv) := startAt p
  if !chainOk d then return (.code 4 w, .none)
  if 7 < k.depth || cNslot d ≤ k.depth then return (.code 5 w, .none)
  if (List.range (k.depth + 1)).any (fun i => cState d (cPhys d i) ≠ 1) then return (.code 4 w, .none)
  let pl ← planeOf k.a s t d (cPhys d k.depth) plane
  match pl with
  | .bad => return (.code 4 w, .none)
  | .none => if must then return (.code 4 w, .none)
  | .ok _ _ => pure ()
  if pos.isEmpty then return if !conv then (.code 2 w, .none) else k.from s pl 0 w
  let (i, w) := walkedOf pos
  if pos.getD 7 0 = 1 then
    if (← k.cut s) then return (.code 4 w, .none)
  return k.from s pl i w

/-- The chain of a flight, with the address of its descriptor. -/
def flightChain (t : Team) (f : Flight) : Nat := chainAt t (f.aux.getD 1 0)

/-- A status of a lane of `hld` that did not end `ok` (R369). -/
def hldFail (s : State) (f : Flight) (x : Ext) (lane code : Nat) (w : Walked) : Found :=
  if x.f 6 5 = 0 then .done (putRun s f.team f.dst lane [0, w.word code])
  else .bad s 0x07 (2 ^ code) 0

/-- The sample of a lane of `hld` that arrived (R364). -/
def hldSample (a : Agent) (s : State) (f : Flight) (x : Ext) (lane : Nat) (w : Walked) (g : Surf) (sc : Nat) : Found :=
  let px := Int.fdiv w.x (2 ^ sc : Nat)
  let py := Int.fdiv w.y (2 ^ sc : Nat)
  match sampleAt a s g (x.f 3 2) (x.bit 4 && !w.edge) clampIdx px py with
  | .error (va, e) => .meets va e
  | .ok (.inr at_) => .bad s 0x05 0x0B04 at_
  | .ok (.inl v) => .done (putRun s f.team f.dst lane (if x.f 6 5 = 0 then [v, w.word 0] else [v]))

/-- What a flight of `hld` or `hwalk` walks with. -/
def walkerOf (t : Team) (f : Flight) (x : Ext) (r : LaneReq) : Walker :=
  { a := t.agent, num := f.aux.getD 1 0, va := flightChain t f, snap := f.snap, wt := x.bit 7, sh := x.bit 8,
    depth := r.data.toNat }

/-- One lane of `hld` or `hwalk`. A replayed one takes its snapshot first. -/
def tumbleLane (s : State) (t : Team) (f : Flight) (r : LaneReq) : Found :=
  let go (x : Ext) (must : Bool) (k : State → WalkEnd × Plane → Found) : Found :=
    let wk := walkerOf t f x r
    if f.snap.isEmpty then match takeSnap false wk.a s wk.va with
      | .error (va, e) => .meets va e
      | .ok _ => .later s
    else match wk.walk s t must (x.f 1 0) r.addr r.pos with
      | .error (va, e) => .meets va e
      | .ok (.held i w, _) => .held (setPos s f.id r.lane (w.keep i true))
      | .ok (.stop i w va e, _) => .stops (setPos s f.id r.lane (w.keep i false)) va e
      | .ok (.code c w, pl) => k (fieldFill wk s w.seen) (.code c w, pl)
      | .ok (.ok w, pl) => k (fieldFill wk s w.seen) (.ok w, pl)
  match f.instr with
  | .hld x => go x true (fun s e => match e with
    | (.code c w, _) => hldFail s f x r.lane c w
    | (.ok w, .ok g sc) => hldSample t.agent s f x r.lane w g sc
    | (.ok w, _) => hldFail s f x r.lane 4 w
    | _ => .later s)
  | .hwalk x => go x false (fun s e => match e with
    | (.code c w, _) => .done (putRun s f.team f.dst r.lane [patN 32 w.x, patN 32 w.y, w.word c])
    | (.ok w, _) => .done (putRun s f.team f.dst r.lane [patN 32 w.x, patN 32 w.y, w.word 0])
    | _ => .later s)
  | _ => .done s

/-- The trap of a walk: that of a failed read when there is one, with every lane that did not end `ok` at fault, else
`disocc` with the statuses reached (R369). -/
def walkTrap (f : Flight) : Option Trap :=
  let bad := f.lanes.filterMap (fun l => match l.st with
    | .failed c sb _ => some (l.lane, c, sb)
    | _ => none)
  let reads := f.lanes.filter (fun l => match l.st with
    | .failed c _ _ => c ≠ 0x07
    | _ => false)
  match flightTrap { f with lanes := if reads.isEmpty then f.lanes else reads } with
  | none => none
  | some tr => some { tr with
      lanes := bad.map (fun b => b.1)
      sub := if reads.isEmpty then bad.foldl (fun m b => m ||| b.2.2) 0 else tr.sub }

/-- Whether an instruction writes field entries. -/
def isMfst (i : Instr) : Bool := match i with
  | .mfst _ => true
  | _ => false

/-- Whether an instruction reads or writes field entries for its lanes. -/
def isField (i : Instr) : Bool := match i with
  | .mfst _ | .hld _ | .hwalk _ => true
  | _ => false

/-- One lane of a walk in its turn on path `hp` (11 R263). One that does not trap on its status and meets no fault stops keeping its
team from issuing, and is read in a later event: what the team does next may come first (R378, 23 R461, log 10). -/
def tumbleTurn (s : State) (t : Team) (f : Flight) (r : LaneReq) : Found :=
  if pathBehind s f isField isMfst then .later s
  else match tumbleLane s t f r with
    | .done s' => if r.st = .todo && !trapsOnStatus f.instr then .later (setLane s f.id r.lane (.ready [])) else .done s'
    | x => x

/-- A walk of a chain that a `chadv` is draining waits for it: the home slice applies changes in arrival order (R359). `aux` of a
`chadv` that has arrived holds 1 and the ids that were free. -/
def chainBusy (s : State) (ctx n id : Nat) : Bool := s.flights.any (fun f => (match f.instr with
  | .chadv _ => true
  | _ => false) && f.id ≠ id && f.aux.getD 1 0 = n && f.aux.getD 2 0 = 1 && (s.team? f.team).any (fun t => t.ctx = ctx))

/-- A replayed walk takes its snapshot when it begins, if it can; a header that firmware declined is left to the lanes. -/
def withSnap (s : State) (id : Nat) (retry : Ev) : State :=
  match s.flight? id, (s.flight? id).bind (fun f => s.team? f.team) with
  | some f, some t =>
    if !f.snap.isEmpty || chainBusy s t.ctx (f.aux.getD 1 0) id then s
    else match takeSnap (s.declined.contains retry) t.agent s (flightChain t f) with
      | .ok snap => { s with declined := s.declined.erase retry }.setFlight { f with snap := snap }
      | .error _ => s
  | _, _ => s

/-- WALK_COMPLETE (R361, R369). -/
def execWalkComplete (id : Nat) (s : State) : Out :=
  .next (engineRun (withSnap s id (.walkComplete id)) id 3 (.walkComplete id) tumbleTurn (closeWith walkTrap))

/-- WALK_WAIT_RETEST (R369). -/
def execWalkWaitRetest (id : Nat) (s : State) : Out :=
  .next (engineRun (unwait s id) id 3 (.walkWaitRetest id) tumbleTurn (closeWith walkTrap))

/-- What a read of a walk at issue meets: a fault, or a trap of every active lane (R369). -/
def C.meetLanes (c : C) (s : State) (va path : Nat) (e : Tr) : Eff :=
  match c.meet s va path e with
  | .trap s tr => .trap s { tr with lanes := c.actives, partly := true }
  | e => e

/-- The number of the chain that A names. -/
def C.chain (c : C) (s : State) : Nat := (c.sc64 s c.x.a).toNat

/-- The lanes of a walk: the pair (x, y) and the depth (19 R426). -/
def C.walkLanes (c : C) (s : State) : List LaneReq := c.actives.map (fun l =>
  { lane := l
    addr := BitVec.ofNat 64 ((c.t.lane c.x.b.code.toNat l).toNat +
      2 ^ 32 * (c.t.lane (c.x.b.code.toNat + 1) l).toNat)
    data := BitVec.ofNat 64 (c.opnd s c.x.c 32 l), st := .todo })

/-- A walk goes into flight with its snapshot. -/
def startWalk (c : C) (s : State) (snap : List Nat) : Eff :=
  .done ((c.launch s (c.walkLanes s) snap [0, c.chain s] false).post (.walkComplete s.nextId))

/-- `hld` and `hwalk` at issue: one snapshot serves every lane (R359). The chain's number is checked when a pass issues (R352),
and what is done after a trap of the snapshot's own reads is the lanes' to say. -/
def effWalk (c : C) (s : State) : Eff :=
  if c.t.msum = 0 then .done s
  else if 256 ≤ c.chain s then .trap s (c.trap 0x05 0x0901)
  else if !c.any then .done s
  else if outstandingCap ≤ outstanding s c.t.uid || chainBusy s c.t.ctx (c.chain s) 0 then .wait s
  else
    let va := chainAt c.t (c.chain s)
    match takeSnap false c.t.agent s va with
    | .ok snap => startWalk c s snap
    | .error (at_, e) => match c.meetLanes s at_ 3 e with
      | .trap s tr => (match takeSnap true c.t.agent s va with
        | .ok snap => startWalk c s snap
        | .error _ => .trap s tr)
      | e => e

/-- HLD (R369). -/
def execHld (x : Ext) (s : State) : Out := issueExt (.hld x) 0x54 0 x effWalk s
/-- HWALK (R370). -/
def execHwalk (x : Ext) (s : State) : Out := issueExt (.hwalk x) 0x54 1 x effWalk s

/-! ## `mfst` (R371) -/

/-- The ranges that a team's open task has declared, as numbers. -/
def declaredOf (t : Team) : List Nat :=
  if t.task.isNone then []
  else (t.sets.filter (fun k => k.st ≠ .empty)).flatMap (fun k => [k.base.toNat, k.len.toNat])

/-- Whether n bytes at an address meet one of such ranges. -/
def meetsRanges (a n : Nat) : List Nat → Bool
  | b :: l :: rest => (a < b + l && b < a + n) || meetsRanges a n rest
  | _ => false

/-- The drop flag of a chain is set (R353, R371). -/
def setDrop (a : Agent) (s : State) (va : Nat) : Got State := do
  let x ← a.rd s va 1
  if x.testBit 1 then return s else a.wr s va 1 (x ||| 2)

/-- An earlier lane of an `mfst` that names the same cell and is not written yet. -/
def mfstBehind (f : Flight) (r : LaneReq) : Bool :=
  f.lanes.any (fun q => q.lane < r.lane && q.data = r.data && (q.st = .todo || q.st = .faulted))

/-- The pair C of an `mfst` in a lane, the two words that it writes. -/
def mfstPair (t : Team) (i : Instr) (lane : Nat) : List Nat := match i with
  | .mfst x => [(t.lane x.c.code.toNat lane).toNat, (t.lane (x.c.code.toNat + 1) lane).toNat]
  | _ => []

/-- One lane of an `mfst` at the chain's home slice: `aux` holds 0, the chain, the slot and the declared ranges, and the lane the
cell and its two words. -/
def mfstLane (s : State) (t : Team) (f : Flight) (r : LaneReq) : Found :=
  let a := t.agent
  let va := flightChain t f
  let i := f.aux.getD 2 0
  let work : Got Found := do
    let d ← a.bytes s va 256
    if !chainOk d || cNslot d ≤ i + 1 || cState d (cPhys d i) ≠ 1 then return .done (← setDrop a s va)
    let h ← a.rd s (cField d (cPhys d i)) 64
    let cx := r.data.toNat % 2 ^ 16
    let cy := r.data.toNat / 2 ^ 16 % 2 ^ 16
    if FHdr.bad h (cStride d) || FHdr.isSealed h || FHdr.gw h ≤ cx || FHdr.gh h ≤ cy then
      return .done (← setDrop a s va)
    let at_ := entryVA d (cPhys d i) h (cx, cy)
    if meetsRanges at_ 8 (f.aux.drop 3) then return .bad s 0x05 0x0803 at_
    let lo := r.pos.getD 0 0
    let hi := r.pos.getD 1 0
    let s ← a.wr s at_ 8 (lo + 2 ^ 32 * (hi % 256) + 2 ^ 40 * FHdr.gen h + 2 ^ 48 * bitsN hi 18 16)
    return .done s
  if mfstBehind f r || pathBehind s f isField isMfst || chainBusy s t.ctx (f.aux.getD 1 0) 0 then .later s
  else match work with
    | .ok x => x
    | .error (va, e) => .meets va e

/-- MFST_APPLY (R371): a write that fails for good traps imprecisely. -/
def execMfstApply (id : Nat) (s : State) : Out :=
  .next (engineRun s id 3 (.mfstApply id) mfstLane closeLate)

/-- `mfst` at issue. -/
def effMfst (c : C) (s : State) : Eff :=
  if c.t.msum = 0 then .done s
  else if 256 ≤ c.chain s then .trap s (c.trap 0x05 0x0901)
  else if !c.any then .done s
  else if outstandingCap ≤ outstanding s c.t.uid then .wait s
  else
    let lanes := c.actives.map (fun l =>
      ({ lane := l, addr := BitVec.ofNat 64 (c.chain s), data := BitVec.ofNat 64 (c.opnd s c.x.b 32 l), st := .todo,
         pos := mfstPair c.t c.i l } : LaneReq))
    .done ((c.launch s lanes [] ([0, c.chain s, c.x.f 2 0] ++ declaredOf c.t) false).post (.mfstApply s.nextId))

/-- MFST (R371). -/
def execMfst (x : Ext) (s : State) : Out := issueExt (.mfst x) 0x54 2 x effMfst s

/-! ## Changes of a chain (R372, R373, R375, R376) -/

/-- The chain that an instruction of the group names, when it is valid and not malformed (R352, R354). -/
def onChain (k : Nat → Chain → C → State → Eff) (c : C) (s : State) : Eff :=
  let n := c.chain s
  if 256 ≤ n then .trap s (c.trap 0x05 0x0901)
  else match c.t.agent.bytes s (chainAt c.t n) 256 with
    | .error (va, e) => c.meet s va 3 e
    | .ok d => if chainOk d then k n d c s else .trap s (c.trap 0x05 0x0902)

/-- A field is sealed, a malformed one too (R372). -/
def sealField (a : Agent) (s : State) (d : Chain) (p : Nat) : Got State := do
  let h ← a.rd s (cField d p) 64
  if FHdr.isSealed h then return s
  a.wr s (cField d p) 8 (h % 2 ^ 64 + 2 ^ 40)

/-- Whether a team has an `mfst` to a chain under way. -/
def mfstOn (s : State) (u n : Nat) : Bool := (s.flightsOf u).any (fun f => match f.instr with
  | .mfst _ => f.aux.getD 1 0 = n
  | _ => false)

/-- A change of a chain goes to its home slice, and the team waits until it is applied. -/
def startChange (n i : Nat) (e : Nat → Ev) (c : C) (s : State) : Eff :=
  if outstandingCap ≤ outstanding s c.t.uid then .wait s
  else .done ((c.launch s [{ lane := 0, addr := BitVec.ofNat 64 n, data := 0, st := .todo }] [] [0, n, i]
    true).post (e s.nextId))

/-- `mfseal` (R372). -/
def effMfseal (c : C) (s : State) : Eff :=
  onChain (fun n _ c s => if mfstOn s c.t.uid n then .wait s else startChange n (c.x.f 2 0) .mfsealApply c s) c s

/-- `chadv` (R373). -/
def effChadv (c : C) (s : State) : Eff := onChain (fun n _ c s => startChange n 0 .chadvApply c s) c s

/-- A change of a chain in its turn at the home slice (R359). One that is applied removes the chain's entries from the field caches
(R360); one that finds the chain not valid or malformed traps (R354). -/
def changeLane (k : Agent → State → Nat → Chain → Got Found) (s : State) (t : Team) (f : Flight) (_r : LaneReq) : Found :=
  let a := t.agent
  let va := flightChain t f
  let n := f.aux.getD 1 0
  let work : Got Found := do
    let d ← a.bytes s va 256
    if !chainOk d then return .bad s 0x05 0x0902 0
    k a s va d
  if chainBusy s t.ctx n f.id then .later s
  else match work with
    | .ok (.done s) => .done (fieldDrop s t.ctx n)
    | .ok x => x
    | .error (va, e) => .meets va e

/-- The flight of a change ends. The trap of R354 is of the whole instruction; one re-injected is held as for a lane (19 R431). -/
def closeChange (s : State) (f : Flight) : State :=
  if !f.again && f.lanes.any (fun l => l.st = .failed 0x05 0x0902 0) then
    settle (raise (fillDst (s.dropFlight f.id) f) f.team false { trapHere f.pc f.npc 0x05 0x0902 with op := f.id }) f.team
  else endFlight s f

/-- MFSEAL_APPLY (R372). -/
def execMfsealApply (id : Nat) (s : State) : Out :=
  .next (engineRun s id 3 (.mfsealApply id) (fun s t f r => changeLane (fun a s _ d => do
    return .done (← sealField a s d (cPhys d (f.aux.getD 2 0)))) s t f r) closeChange)

/-- Seals some fields, in order. -/
def sealEach (a : Agent) (s : State) (d : Chain) : List Nat → Got State
  | [] => return s
  | n :: ns => do
    let s ← sealField a s d n
    sealEach a s d ns

/-- The fields of a chain: those of its eight physical slots, and those of its shortcuts that stand or are being built (R354). -/
def chainFields (d : Chain) : List Nat :=
  List.range 8 ++ ((List.range 4).filter (fun q => Nat.testBit (cRec d q) 8 || Nat.testBit (cRec d q) 10)).map (fun q => 8 + q)

/-- Every field of a chain is sealed (R373, step 1). -/
def sealAll (a : Agent) (s : State) (d : Chain) : Got State := sealEach a s d (chainFields d)

/-- Whether a walk of a chain whose snapshot was taken before some id is still reading (R359). -/
def walksOn (s : State) (ctx n before : Nat) : Bool := s.flights.any (fun f =>
  (match f.instr with
   | .hld _ => true
   | .hwalk _ => true
   | _ => false) && f.aux.getD 1 0 = n && !f.snap.isEmpty && f.id < before && (s.team? f.team).any (fun t => t.ctx = ctx))

/-- A number of 8 slot states with one changed. -/
def withState (n p st : Nat) : Nat := n - n / 4 ^ p % 4 * 4 ^ p + st * 4 ^ p

/-- The generation of a field advances, and its sealed bit is cleared (R358, R373 step 4). -/
def advanceField (a : Agent) (s : State) (d : Chain) (n : Nat) : Got State := do
  let h ← a.rd s (cField d n) 64
  if FHdr.bad h (cStride d) then return s
  let g := (FHdr.gen h + 1) % 256
  let s ← if g = 0 then a.put s (cField d n + 64) (List.replicate (8 * FHdr.gw h * FHdr.gh h) 0) else pure s
  a.wr s (cField d n + 4) 2 ((if g = 0 then 1 else g) + (h / 2 ^ 41 % 2) * 2 ^ 9)

/-- The shortcut records that satisfy a test become not valid. -/
def cutRecs (a : Agent) (s : State) (va : Nat) (d : Chain) (p : Nat → Bool) : List Nat → Got State
  | [] => return s
  | q :: qs => do
    let r := cRec d q
    let s ← if p r && Nat.testBit r 8 then a.wr s (va + 32 + 4 * q) 4 (r - 2 ^ 8) else pure s
    cutRecs a s va d p qs

/-- `chadv` at the home slice, steps 3 to 5. -/
def advance (a : Agent) (s : State) (va : Nat) (d : Chain) : Got State := do
  let head := (cHead d + 7) % 8
  let st := (List.range 8).foldl (fun n i =>
    if i = 0 then withState n head 1
    else if cNslot d ≤ i then withState n ((head + i) % 8) 2 else n) (numAt d 18 2)
  let s ← a.wr s (va + 17) 1 head
  let s ← a.wr s (va + 18) 2 st
  let s ← a.wr s (va + 8) 8 ((numAt d 8 8 + 1) % 2 ^ 64)
  let s ← advanceField a s d head
  cutRecs a s va d (fun r => st / 4 ^ (r % 8) % 4 = 2 || st / 4 ^ (bitsN r 6 4) % 4 = 2) [0, 1, 2, 3]

/-- A `chadv` at the home slice: it arrives with its seals, waits for the walks taken before it, and is applied. -/
def chadvLane (f : Flight) (t : Team) (a : Agent) (s : State) (va : Nat) (d : Chain) : Got Found := do
  let n := f.aux.getD 1 0
  let s ← sealAll a s d
  let here := f.aux.getD 2 0 = 1
  let before := if here then f.aux.getD 3 0 else s.nextId
  if walksOn s t.ctx n before then return .later (s.setFlight { f with aux := [0, n, 1, before] })
  return .done (← advance a s va d)

/-- CHADV_APPLY (R373): the fields are sealed, the walks taken before it finish, and the chain advances. -/
def execChadvApply (id : Nat) (s : State) : Out :=
  .next (engineRun s id 3 (.chadvApply id) (fun s t f r => changeLane (chadvLane f t) s t f r) closeChange)

/-- `mfinv` (R367, R375). -/
def effMfinv (c : C) (s : State) : Eff :=
  onChain (fun n d c s =>
    let j := c.x.f 2 0
    let va := chainAt c.t n
    if chainBusy s c.t.ctx n 0 then .wait s
    else if cNslot d ≤ j then .done s
    else
      let work : Got State := do
        let s ← c.t.agent.wr s (va + 18) 2 (withState (numAt d 18 2) (cPhys d j) 0)
        cutRecs c.t.agent s va d (fun r => cLog d (r % 8) ≤ j && j ≤ cLog d (bitsN r 6 4)) [0, 1, 2, 3]
      match work with
      | .ok s => .done (fieldDrop s c.t.ctx n)
      | .error (va, e) => c.meet s va 3 e) c s

/-- The byte of `chqry` for a shortcut record (R376). -/
def recByte (d : Chain) (q : Nat) : Nat :=
  let r := cRec d q
  if cState d (r % 8) = 2 || cState d (bitsN r 6 4) = 2 then 0
  else cLog d (r % 8) + 8 * cLog d (bitsN r 6 4) + 64 * bitNat (Nat.testBit r 8 && Nat.testBit r 9) +
       128 * bitNat (Nat.testBit r 10)

/-- `chqry` (R376). -/
def effChqry (c : C) (s : State) : Eff :=
  onChain (fun n d c s =>
    let va := chainAt c.t n
    match c.x.f 1 0 with
    | 0 => .done (c.putS s (BitVec.ofNat 64 (cNslot d + 16 * cHead d + 128 +
        (List.range 8).foldl (fun m i => m + cState d (cPhys d i) * 4 ^ i * 2 ^ 8) 0)))
    | 1 => .done (c.putS s (BitVec.ofNat 64 (numAt d 8 8)))
    | 2 => .done (c.putS s (BitVec.ofNat 64 ((List.range 4).foldl (fun m q => m + recByte d q * 256 ^ q) 0)))
    | _ =>
      let f := numAt d 0 1
      if f.testBit 1 then match c.t.agent.wr s va 1 (f - 2) with
        | .ok s => .done (c.putS s 1)
        | .error (va, e) => c.meet s va 3 e
      else .done (c.putS s 0)) c s

/-- MFSEAL (R372). -/
def execMfseal (x : Ext) (s : State) : Out := issueExt (.mfseal x) 0x54 3 x (onGo effMfseal) s
/-- CHADV (R373). -/
def execChadv (x : Ext) (s : State) : Out := issueExt (.chadv x) 0x54 4 x (onGo effChadv) s
/-- MFINV (R367, R375). -/
def execMfinv (x : Ext) (s : State) : Out := issueExt (.mfinv x) 0x54 6 x (onGo effMfinv) s
/-- CHQRY (R376). -/
def execChqry (x : Ext) (s : State) : Out := issueExt (.chqry x) 0x54 7 x (onGo effChqry) s

/-! ## Shortcuts (R366, R374) -/

/-- `mfshort` at issue: it runs without the team. `aux` holds 0, the chain, the phase, the epoch at its start, and the
physical slots i to j. -/
def effMfshort (c : C) (s : State) : Eff :=
  onChain (fun n _ c s => .done ((c.launch s [] [] [0, n, 0] false).post (.mfshortComplete s.nextId))) c s

/-- The header of a field with its descriptor's stride, for a list of fields. -/
def readHdrs (a : Agent) (s : State) (d : Chain) : List Nat → Got (List FHdr)
  | [] => return []
  | p :: ps => do
    let h ← a.rd s (cField d p) 64
    let hs ← readHdrs a s d ps
    return h :: hs

/-- The tests of R366 and R374 on the physical slots i to j, whose last logical number is now `last`: the slots first, then the
headers of the fields but the last, which are read then. A status, or the headers. -/
def shortTest (a : Agent) (s : State) (d : Chain) (ps : List Nat) (last : Nat) : Got (Nat ⊕ List FHdr) := do
  if !chainOk d || cNslot d ≤ last || ps.any (fun p => cState d p ≠ 1) then return .inl 2
  let hs ← readHdrs a s d ps.dropLast
  if hs.any (fun h => h.bad (cStride d)) then return .inl 2
  if hs.any (fun h => !h.isSealed) then return .inl 1
  if hs.any (fun h => decide (cStride d < h.size)) then return .inl 3
  return .inr hs

/-- A composition through the fields: whether every entry was found valid, the sums, and the position and what it gathered. -/
def composeCell (a : Agent) (s : State) (d : Chain) : List (Nat × FHdr) → Int × Int → Walked → Got (Bool × (Int × Int) × Walked)
  | [], sm, w => return (true, sm, w)
  | (p, h) :: l, sm, w => do
    match cellOf h w.x w.y with
    | none => return (false, sm, w)
    | some c =>
      let e ← a.rd s (entryVA d p h c) 8
      if bitsN e 47 40 ≠ h.gen || !e.testBit 48 then return (false, sm, w)
      composeCell a s d l (sm.1 + sextN 16 (e % 2 ^ 16), sm.2 + sextN 16 (bitsN e 31 16)) (w.apply e)

/-- The entry of a composed cell (R366). -/
def composed (g : Nat) : Bool × (Int × Int) × Walked → Nat
  | (v, (sx, sy), w) =>
    let fits := v && decide (-32768 ≤ sx) && decide (sx ≤ 32767) && decide (-32768 ≤ sy) && decide (sy ≤ 32767)
    (if fits then patN 16 sx + 2 ^ 16 * patN 16 sy + 2 ^ 48 + 2 ^ 49 * bitNat w.stat else 0) +
      2 ^ 32 * w.conf + 2 ^ 40 * g + 2 ^ 50 * bitNat w.edge

/-- The cells of a composition, from cell n on. -/
def composeAll (a : Agent) (s : State) (d : Chain) (fs : List (Nat × FHdr)) (h : FHdr) (g : Nat) :
    Nat → Nat → Got (List Byte)
  | 0, _ => return []
  | k + 1, n => do
    let cx := n % h.gw
    let cy := n / h.gw
    let w : Walked := { x := (128 * 2 ^ h.cw * (2 * cx + 1) : Nat), y := (128 * 2 ^ h.ch * (2 * cy + 1) : Nat), stat := true,
                        edge := false, conf := 255, steps := 0 }
    let e ← composeCell a s d fs (0, 0) w
    let rest ← composeAll a s d fs h g k (n + 1)
    return leBytes 8 (composed g e) ++ rest

/-- The start of `mfshort` at the home slice: a status, or the record building and the shortcut's header (R366). -/
def shortStart (a : Agent) (s : State) (va : Nat) (x : Ext) : Got (State × Option Nat × List Nat) := do
  let d ← a.bytes s va 256
  let i := x.f 2 0
  let j := x.f 5 3
  let q := x.f 7 6
  let ps := (List.range (j + 1 - i)).map (fun m => cPhys d (i + m))
  match (← shortTest a s d ps j) with
  | .inl st => return (s, some st, [])
  | .inr hs =>
    let h := hs.headD 0
    let old ← a.rd s (cField d (8 + q)) 8
    let g := (bitsN old 39 32 + 1) % 256
    let s ← if g = 0 then a.put s (cField d (8 + q) + 64) (List.replicate (8 * h.gw * h.gh) 0) else pure s
    let g := if g = 0 then 1 else g
    let s ← a.put s (cField d (8 + q)) (leBytes 64 ((h : Nat) % 2 ^ 32 + 2 ^ 32 * g + 2 ^ 41))
    let s ← a.wr s (va + 32 + 4 * q) 4 (ps.headD 0 + 16 * ps.getLastD 0 + 2 ^ 10)
    return (s, none, numAt d 8 8 :: g :: ps)

/-- The end of `mfshort`: the cells are composed and the record is built, or a status says why not. `keep` holds the
epoch at the start, the generation and the physical slots. -/
def shortEnd (a : Agent) (s : State) (va : Nat) (x : Ext) (keep : List Nat) : Got (State × Nat) := do
  let d ← a.bytes s va 256
  let q := x.f 7 6
  let g := keep.getD 1 1
  let ps := keep.drop 2
  let moved := patN 64 ((numAt d 8 8 : Int) - (keep.getD 0 0 : Nat))
  match (← shortTest a s d ps (x.f 5 3 + moved)) with
  | .inl n =>
    let r := cRec d q
    let s ← if Nat.testBit r 10 then a.wr s (va + 32 + 4 * q) 4 (r - 2 ^ 10) else pure s
    return (s, n)
  | .inr hs =>
    let h := hs.headD 0
    let bs ← composeAll a s d (ps.dropLast.zip hs) h g (h.gw * h.gh) 0
    let s ← a.put s (cField d (8 + q) + 64) bs
    let s ← a.put s (cField d (8 + q)) (leBytes 64 ((h : Nat) % 2 ^ 32 + 2 ^ 32 * g + 2 ^ 40 + 2 ^ 41))
    let s ← a.wr s (va + 32 + 4 * q) 4 (ps.headD 0 + 16 * ps.getLastD 0 + 2 ^ 8 + 2 ^ 9)
    return (s, 0)

/-- The status of `mfshort` reaches sD (R374), after the chain's entries left the field caches (R360). -/
def shortDone (s : State) (t : Team) (f : Flight) (st : Nat) : State :=
  let s := fieldDrop s t.ctx (f.aux.getD 1 0)
  endFlight (clearWait (s.onTeam f.team (fun t => t.setS f.dst (BitVec.ofNat 64 st))) f.id) f

/-- A read or write of `mfshort` that cannot be made: a fault, or status 4 with the cause (R374). -/
def shortMeet (s : State) (t : Team) (f : Flight) (va : Nat) (e : Tr) : State :=
  match meetFault s t.core t.ctx va 3 0 (.mfshortComplete f.id) e with
  | .wait s => s
  | .fail s _ cause =>
    let a := t.agent
    let d := flightChain t f
    let q := match f.instr with
      | .mfshort x => x.f 7 6
      | _ => 0
    let s := if f.aux.getD 2 0 = 0 then s else match a.rd s (d + 32 + 4 * q) 4 with
      | .ok r => if r.testBit 10 then Got.state s (a.wr s (d + 32 + 4 * q) 4 (r - 2 ^ 10)) else s
      | .error _ => s
    shortDone s t f (4 + 256 * cause)

/-- MFSHORT_COMPLETE (R366, R374): first the start at the home slice, then the composition. -/
def execMfshortComplete (id : Nat) (s : State) : Out :=
  match s.flight? id with
  | none => .next s
  | some f => match s.team? f.team, f.instr with
    | some t, .mfshort x =>
      let va := flightChain t f
      if chainBusy s t.ctx (f.aux.getD 1 0) id then .next (s.postOnce (.mfshortComplete id))
      else if f.aux.getD 2 0 = 0 then match shortStart t.agent s va x with
        | .error (va, e) => .next (shortMeet s t f va e)
        | .ok (s, some st, _) => .next (shortDone s t f st)
        | .ok (s, none, keep) => .next ((s.setFlight { f with aux := [0, f.aux.getD 1 0, 1] ++ keep }).post
            (.mfshortComplete id))
      else match shortEnd t.agent s va x (f.aux.drop 3) with
        | .error (va, e) => .next (shortMeet s t f va e)
        | .ok (s, st) => .next (shortDone s t f st)
    | _, _ => .next s

/-- MFSHORT (R374). -/
def execMfshort (x : Ext) (s : State) : Out := issueExt (.mfshort x) 0x54 5 x (onGo effMfshort) s

end Sys2Proof.Machine
end

