-- ==== Sys2Proof/Machine/Sys.lean ====
section
/-!
DEFINITION. Group sys: control registers, `trap`, `tret`, `ychk` and `ysave` (19 R423, R429-R432), and the delivery of traps
and the replay of captured instructions (R424-R427, R431).
-/

namespace Sys2Proof.Machine

/-! ## Control registers (R423, R430) -/

/-- The value of a control register (R423). -/
def Team.cr (t : Team) (n : Nat) : Word64 :=
  match n with
  | 0 => t.status | 1 => t.trapv | 2 => t.trapa
  | 3 => BitVec.ofNat 64 t.prio
  | 4 => t.role | 5 => t.ydl | 6 => t.undob | 7 => t.undol
  | 0x10 => t.ctxs | 0x11 => t.chainb | 0x12 => t.seqb | 0x13 => t.surfb
  | _ => 0

/-- Whether software may write a control register (R423). -/
def crWritable (n : Nat) : Bool := n ≤ 4

/-- The subcode and code of the trap that a write takes, in the order of R430. -/
def Team.crRefuse (t : Team) (n : Nat) (x : Word64) : Option (Nat × Nat) :=
  if !crWritable n then some (0x05, 0x0D02)
  else if n = 0 && statusBad x then some (0x01, 0x0D00)
  else if n = 3 && t.prioMax < x.toNat then some (0x05, 0x0D03)
  else if (n = 1 && x.toNat % 4 ≠ 0) || (n = 2 && x.toNat % 256 ≠ 0) then some (0x05, 0x0D04)
  else none

/-- A control register written. -/
def Team.setCr (t : Team) (n : Nat) (x : Word64) : Team :=
  match n with
  | 0 => { t with status := x }
  | 1 => { t with trapv := x }
  | 2 => { t with trapa := x }
  | 3 => { t with prio := x.toNat }
  | 4 => { t with role := x }
  | _ => t

/-- Whether an instruction in flight will raise flags in `status` (04 R98). -/
def raisesFlags (i : Instr) : Bool :=
  match i.form with
  | .ext opc sub _ => opc = 0x46 || (opc = 0x51 && sub = 3)
  | _ => false

/-- `srd` (R430): a read of `status` waits for the flags of earlier instructions (04 R98). -/
def effSrd (c : C) (s : State) : Eff :=
  let n := c.x.f 11 0
  if n = 0 && (s.flightsOf c.t.uid).any (fun f => raisesFlags f.instr) then .wait s
  else .done (c.putS s (c.t.cr n))

/-- `swr` (R430). -/
def effSwr (c : C) (s : State) : Eff :=
  let n := c.x.f 11 0
  let x := c.sc64 s c.x.a
  match c.t.crRefuse n x with
  | some (code, sub) => .trap s (c.trap code sub)
  | none => .done (s.onTeam c.t.uid (fun t => t.setCr n x))

/-- `trap` (R431). -/
def effTrap (c : C) (s : State) : Eff := .trap s { c.trap 0x0C (c.x.f 15 0) with skip := true }

/-- SRD (R430). -/
def execSrd (x : Ext) (s : State) : Out := issueExt (.srd x) 0x58 0 x (onGo effSrd) s
/-- SWR (R430). -/
def execSwr (x : Ext) (s : State) : Out := issueExt (.swr x) 0x58 1 x (onGo effSwr) s
/-- TRAP (R431). -/
def execTrap (x : Ext) (s : State) : Out := issueExt (.trap x) 0x58 2 x (onGo effTrap) s

/-- TRAP_DELIVERY (R424): the trap that the boundary chooses, once earlier instructions have finished. -/
def execTrapDelivery (u : Nat) (s : State) : Out :=
  match s.team? u with
  | none => .next s
  | some t =>
    if t.run ≠ .running && t.run ≠ .parked .fault then .next s
    else match nextTrap t with
      | none => .next s
      | some tr => .next (if s.busy u || portStalled s t.core then s.postOnce (.trapDelivery u) else deliver s t tr)

/-! ## Replay entries (R426, R431) -/

/-- A replay entry as the frame holds it: the instruction, its operation and fields, its length, its address, and the
remaining lanes with their captured address and data; `kept` is the flight that was captured, where its engine keeps what it took
at issue. -/
structure Entry where
  instr : Instr
  opc   : Nat
  sub   : Nat
  x     : Ext
  len   : Nat
  pc    : Word64
  drop  : Bool
  lanes : List (Nat × Word64 × Word64)
  kept  : Option Flight := none

/-- The operation and fields of an instruction that can stand in the replay queue: an extended form, or a one-word form of
group ldst by its extended equivalent (03 R78). -/
def replayForm (i : Instr) : Option (Nat × Nat × Ext) :=
  match i with
  | .ldvShort x => some (0x4A, 2, shortOne x .sc .b32)
  | .stvShort x => some (0x4A, 3, shortOne x .sc .b32)
  | .ldsShort x => some (0x4A, 4, shortOne x .sc .b64)
  | .stsShort x => some (0x4A, 5, shortOne x .sc .b64)
  | i => match i.form with
    | .ext opc sub x => some (opc, sub, x)
    | _ => none

/-- A replay entry of a team of width w; none when its words are no instruction that can be replayed. -/
def parseEntry (w : Nat) (bs : List Byte) : Option Entry :=
  match decodeBytes (bs.take 20) with
  | .ok i => match replayForm i with
    | none => none
    | some (opc, sub, x) =>
      let set := numAt bs 64 128
      some { instr := i, opc := opc, sub := sub, x := x, len := i.bytes, pc := BitVec.ofNat 64 (numAt bs 24 8),
             drop := (numAt bs 32 1).testBit 3,
             lanes := ((List.range w).filter (fun l => set.testBit l)).map (fun l =>
               (l, BitVec.ofNat 64 (numAt bs (192 + 16 * l) 8), BitVec.ofNat 64 (numAt bs (200 + 16 * l) 8))) }
  | _ => none

/-- The issue record of an instruction that is replayed: its sources are read again (03 R86). -/
def Entry.c (e : Entry) (t : Team) : C :=
  let t := { t with pc := e.pc, part := some [] }
  { t := t, i := e.instr, x := e.x, row := rowOf t.width e.opc e.sub e.x, npc := e.pc + BitVec.ofNat 64 e.len,
    act := t.acts e.x.g e.x.neg, go := t.go e.x.g e.x.neg }

/-- The new flight of an entry, with what its engine keeps and the event that takes it up. -/
def relaunch (s : State) (e : Entry) (t : Team) (snap aux : List Nat) (gate : Bool) (waits : List Nat) (ev : Nat → Ev) :
    State :=
  let id := s.nextId
  let lanes := e.lanes.map (fun l => ({ lane := l.1, addr := l.2.1, data := l.2.2, st := .todo,
                                          pos := mfstPair t e.instr l.1 } : LaneReq))
  let s := (e.c t).launch s lanes snap aux gate
  ({ s with flights := s.flights.map (fun (f : Flight) => if f.id = id then { f with waits := waits } else f) }).post (ev id)

/-- Each entry of a frame with the captured flight that it is of, the oldest first. -/
def keepFlights : List Entry → List Flight → List Entry
  | [], _ => []
  | e :: es, fs =>
    let f := fs.find? (fun f => decide (f.pc = e.pc ∧ f.instr = e.instr))
    { e with kept := f } :: keepFlights es (match f with
      | some f => fs.erase f
      | none => fs)

/-- The push of a deferred list that waits for the payload of a captured flight. -/
def Entry.deferredIn (e : Entry) (t : Team) : Option Nat := e.kept.bind (fun f => t.task.bind (fun k =>
  k.deferred.findIdx? (fun d => match d with
    | .push g _ _ => decide (g = f.id ∧ g ≠ 0)
    | .dec _ => false)))

/-- A deferred push whose payload was captured goes on under the new flight (15 R346). -/
def rebind (s : State) (u i id : Nat) : State :=
  s.onTeam u (fun t => { t with task := t.task.map (fun k => { k with
    deferred := k.deferred.modify i (fun d => match d with
      | .push _ q e => .push id q e
      | d => d) }) })

/-- A `qwpush` whose payload starts again: `aux` of its flight as at issue, with registers read again. It is deferred when it was
deferred at issue (14 R326). -/
def qwAux (t : Team) (x : Ext) (q : Nat) (deferred : Bool) : List Nat :=
  let k := x.c.code.toNat
  [0, (t.sval k).toNat, (t.sval (k + 2)).toNat, 0, bitNat deferred, q, (t.sval (k + 1)).toNat] ++
  (List.range 4).map (fun j => (t.sval (x.b.code.toNat + j)).toNat)

/-- The trap of an entry that fails as it is re-injected is held until after `tret` (R431). -/
def Entry.hold (e : Entry) (s : State) (u code sub : Nat) : State :=
  raise s u true { trapHere e.pc (e.pc + BitVec.ofNat 64 e.len) code sub with
    lanes := e.lanes.map (fun l => l.1), partly := true, op := s.nextId }

/-- The state after a fence of the replay queue. -/
def finishHold (c : C) : Eff → State
  | .done s => s
  | e => finish c e

/-- An entry is re-injected (R431): memory operations are translated again, engines take their lanes up again. -/
def reinject (s : State) (u : Nat) (e : Entry) : State :=
  match s.team? u with
  | none => s
  | some t =>
    let c := e.c t
    let go (snap aux : List Nat) (gate : Bool) (ev : Nat → Ev) : State := relaunch s e t snap aux gate [] ev
    let named (n : Nat) (r : State) : State := if 256 ≤ n then e.hold s u 0x05 0x0901 else r
    let first := match e.lanes with
      | l :: _ => l.2.1.toNat
      | [] => 0
    match memOp? e.instr with
    | some m =>
      let waits := if m.rel then lsWaits s u m.scope else []
      let tmo := match e.instr with
        | .mwait x => c.opnd s x.c 32 0
        | _ => 0
      let due := if tmo = 0xFFFFFFFF then 0 else s.clk.toNat + tmo + 1
      let pieces := match e.kept with
        | some f => f.aux.tail
        | none => []
      relaunch s e t [] (if m.wait then [0, due, 0] else if m.kind = .store then 0 :: pieces else [0]) (m.wait || m.acq) waits
        .translationWalk
    | none => match e.instr with
      | .kvx x => go [] [0, 1, (c.sc64 s x.a).toNat] false .kvxComplete
      | .hld _ | .hwalk _ => named (c.chain s) (go [] [0, c.chain s] false .walkComplete)
      | .mfst x =>
        let ranges := match e.kept with
          | some f => f.aux.drop 3
          | none => declaredOf t
        named first (go [] ([0, first, x.f 2 0] ++ ranges) false .mfstApply)
      | .mfseal x => named first (go [] [0, first, x.f 2 0] true .mfsealApply)
      | .chadv _ => named first (go [] [0, first, 0] true .chadvApply)
      | .sld _ | .sst _ | .samp _ => go [] [0] false .samplerComplete
      | .cpy _ | .cpyg _ => go [] [0] true (.copyDescriptorRead t.core)
      | .dcdec _ => relaunch s e t [] [0] true (lsWaits s u 3) .dcdecApply
      | .fence _ => finishHold c (effFence c s)
      | .xfence _ => finishHold c (effXfence c s)
      | .qwpush x =>
        match e.deferredIn t with
        | some i => rebind (go [] (qwAux t x first true) true .qwpushPayloadDone) u i s.nextId
        | none => go [] (qwAux t x first false) true .qwpushPayloadDone
      | _ => s

/-- The frame as `tret` reads it (R425). -/
structure Frame where
  skip    : Bool
  partly  : Bool
  pc      : Word64
  npc     : Word64
  status  : Word64
  mask    : List Word64
  lanes   : Nat
  entries : List (List Byte)

/-- The fields of a frame's bytes. -/
def parseFrame (w : Nat) (bs : List Byte) (n : Nat) : Frame :=
  let ctl := numAt bs 8 8
  let sz := 192 + 16 * w
  { skip := ctl.testBit 0, partly := ctl.testBit 2, pc := BitVec.ofNat 64 (numAt bs 16 8),
    npc := BitVec.ofNat 64 (numAt bs 24 8), status := BitVec.ofNat 64 (numAt bs 40 8),
    mask := (List.range 16).map (fun k => BitVec.ofNat 64 (numAt bs (192 + 8 * k) 8)), lanes := numAt bs 64 128,
    entries := (List.range n).map (fun i => (bs.drop (1024 + sz * i)).take sz) }

/-- The frame at `trapa`, read on path `ls`. -/
def readFrame (s : State) (t : Team) : Got Frame :=
  let va := t.trapa.toNat
  match piecesOf s t.core t.ctx .read va 1024 with
  | .error e => .error (failVA s t.core t.ctx .read va 1024, e)
  | .ok segs =>
    let n := min 16 (bitsN (numAt (coreBytes s t.core segs) 0 8) 28 24)
    let len := 1024 + n * (192 + 16 * t.width)
    match piecesOf s t.core t.ctx .read va len with
    | .error e => .error (failVA s t.core t.ctx .read va len, e)
    | .ok segs => .ok (parseFrame t.width (coreBytes s t.core segs) n)

/-- The mask registers and `status` of a frame in the team (R431). A reserved rm code in the frame is taken as it is (the model's
choice, log 28). -/
def Team.restoreFrame (t : Team) (f : Frame) : Team :=
  (List.range (maskRegs t.width)).foldl (fun t k => t.setS k (f.mask.getD k 0))
    { t with status := f.status &&& 0x7FF7#64, rdst := [] }

/-- The lanes of the partial run (R431). -/
def Frame.partLanes (f : Frame) (w : Nat) : List Nat :=
  (List.range w).filter (fun l => f.lanes.testBit l && (f.mask.getD (l / 64) 0).getLsbD (l % 64))

/-- The first declared slot that the accesses of some entries touch (14 R319). -/
def entryTouch (t : Team) (es : List Entry) : Option Nat :=
  es.findSome? (fun e => match memOp? e.instr with
    | some m => if m.kind = .red || m.wait then none else t.firstTouch (e.lanes.map (fun l => (l.1, l.2.1.toNat))) m.size
    | none => none)

/-- An entry is re-injected but for its lanes that touch a set whose pages failed for good: these hold their trap until after `tret`,
and the registers of an entry that has no other lane become full (14 R322, 09 R205). -/
def Entry.reinjectPart (e : Entry) (s : State) (t : Team) (m : MemOp) : State :=
  let bad (l : Nat × Word64 × Word64) : Bool := (t.failsAt l.2.1.toNat m.size).isSome
  match (e.lanes.find? bad).bind (fun l => t.failsAt l.2.1.toNat m.size) with
  | none => reinject s t.uid e
  | some (code, sub, va) =>
    let s := raise s t.uid true { trapHere e.pc (e.pc + BitVec.ofNat 64 e.len) code sub with
      addr := BitVec.ofNat 64 va, lanes := (e.lanes.filter bad).map (fun l => l.1), partly := true, op := s.nextId }
    match e.lanes.filter (fun l => !bad l), e.kept with
    | [], some f => fillDst s f
    | [], none => s
    | ls, _ => reinject s t.uid { e with lanes := ls }

/-- `tret` (R431), once what the handler issued before has finished (25 R468, log 70): the team stays in the handler until every
entry and the partial run are over. A wound that waited discards the entries and is taken at the boundary (14 R330). A set that an
entry touches is acquired before the entry is re-injected (14 R319). -/
def effTret (c : C) (s : State) : Eff :=
  if !c.t.handler then .trap s (c.trap 0x05 0x0D01)
  else if s.busy c.t.uid then .wait s
  else match readFrame s c.t with
    | .error (va, e) => c.meet s va 0 e
    | .ok f =>
      let t := c.t.restoreFrame f
      let es := (keepFlights (f.entries.filterMap (parseEntry t.width)) t.caught).filter (fun e => !e.drop)
      let back := if f.skip || f.partly then f.npc else f.pc
      let again (s : State) (e : Entry) : State := match memOp? e.instr with
        | some m => if m.kind = .red then reinject s t.uid e else e.reinjectPart s t m
        | none => reinject s t.uid e
      if t.wound then .wait (s.setTeam { c.t.fillRdst.restoreFrame f with handler := false, pc := back, caught := [], aux := [] })
      else match entryTouch t es with
      | some k => .wait ((startAcquire s t.uid k).onTeam t.uid (fun t => { t with aux := [tretMark] }))
      | none =>
        let redo := !f.skip && f.partly
        let s := s.setTeam { t with retPc := back, caught := [], aux := [], run := if redo then .running else .parked .tret }
        let s := es.foldl again s
        if redo then .wait (s.onTeam t.uid (fun t => { t with pc := f.pc, part := some (f.partLanes t.width) }))
        else .wait (settle s t.uid)

/-- TRET (R431). -/
def execTret (x : Ext) (s : State) : Out := issueExt (.tret x) 0x58 3 x (onGo effTret) s

/-- Whether what a `tret` began, and can finish by itself, is not over: a release at its gate, or a fence. -/
def tretHeld (s : State) (t : Team) : Bool :=
  let ids := stuckIds s t.uid
  s.writes.any (fun w => w.team = t.uid && !w.waits.isEmpty && !w.waits.any ids.contains) ||
  t.holds.any (fun h => !h.waits.any ids.contains)

/-- TRET_RESUME (R431): everything that `tret` began is over, and the handler is left. A restored team resumes the same way
(R433) and keeps its place in a handler, which `aux` says. -/
def execTretResume (u : Nat) (s : State) : Out :=
  match s.team? u with
  | none => .next s
  | some t =>
    if t.run ≠ .parked .tret || (s.flightsOf u).any (fun f => f.again) then .next s
    else if tretHeld s t then .next (s.postOnce (.tretResume u))
    else .next (s.setTeam { t with run := .running, pc := t.retPc, handler := t.handler && t.aux = [1], aux := [] })

/-! ## Pre-emption by the team itself (R432) -/

/-- The value of `ydl` when no request is pending (05 R125). -/
def noDeadline : Word64 := 0xFFFFFFFF

/-- `ychk` (R432). -/
def effYchk (c : C) (s : State) : Eff :=
  .done (s.onTeam c.t.uid (fun t => t.writeP c.x.d.toNat c.act (t.laneIxs.map (fun _ => decide (t.ydl ≠ noDeadline)))))

/-- Whether every register of a team is full. -/
def Team.allFull (t : Team) : Bool := t.s.all (fun r => r.full) && t.v.all (fun r => r.full)

/-- Whether every earlier instruction of a team has completed and every register is full (R432). -/
def quiet (s : State) (t : Team) : Bool :=
  (s.flightsOf t.uid).isEmpty && t.holds.isEmpty && t.allFull && !s.writes.any (fun w => w.team = t.uid && !w.waits.isEmpty) &&
  !(s.core t.core).engine.any (fun m => m.team = t.uid)

/-- `ysave` (R432). -/
def effYsave (c : C) (s : State) : Eff :=
  if c.t.ydl = noDeadline then .done s
  else if !quiet s c.t then .wait s
  else .wait ((s.onTeam c.t.uid (fun t => { t with pc := c.npc, run := .parked .ysave })).post (.ysaveImage c.t.uid))

/-- YCHK (R432). -/
def execYchk (x : Ext) (s : State) : Out := issueExt (.ychk x) 0x58 4 x effYchk s
/-- YSAVE (R432). -/
def execYsave (x : Ext) (s : State) : Out := issueExt (.ysave x) 0x58 5 x (onGo effYsave) s
/-- YCHK_SHORT (03 R78). -/
def execYchkShort (x : Short) (s : State) : Out :=
  issue (.ychkShort x) 0x58 4 (shortLen x) (shortBare x x.d 0) effYchk s

end Sys2Proof.Machine
end

