-- ==== Sys2Proof/Machine/Wound.lean ====
section
/-!
DEFINITION. Taking a wound and rolling a task back (14 R328-R330).
-/

namespace Sys2Proof.Machine

/-- Whether a wound discards an instruction in flight (R329, step 1; 16 R377): the loads and atomics, and the reads of the
engines. -/
def woundDrops (i : Instr) : Bool :=
  match memOp? i with
  | some m => m.kind ≠ .store && m.kind ≠ .red
  | none => match i with
    | .hld _ => true
    | .hwalk _ => true
    | .kvx _ => true
    | .sld _ => true
    | .samp _ => true
    | _ => isFence i

/-- The lanes of a store that lie in the task's sets are over: what they would write is rolled back. -/
def dropSetLanes (t : Team) (f : Flight) : Flight :=
  match memOp? f.instr with
  | none => f
  | some m => { f with lanes := f.lanes.map (fun l =>
      if m.kind = .store && t.declares l.addr.toNat m.size then { l with st := .done } else l) }

/-- Whether an event takes up what a team asked for itself, apart from its flights: its fetch or an access at issue, its acquisition
of a set, the frame of its trap. -/
def requestFor (u : Nat) (e : Ev) : Bool :=
  match e with
  | .setRequestArrival v _ => u = v
  | .instructionFetch v => u = v
  | .trapDelivery v => u = v
  | _ => false

/-- The requests of flights and of a team itself leave the fault buffer, and what firmware declined of them is forgotten. -/
def dropRequests (s : State) (u : Nat) (ids : List Nat) : State :=
  dropFaults { s with declined := s.declined.filter (fun e => !requestFor u e) }
    (fun q => (q.flight ≠ 0 && ids.contains q.flight) || requestFor u q.retry)

/-- A flight is discarded: its registers become full with the lanes already written. -/
def discard (s : State) (f : Flight) : State := clearWait (fillDst (s.dropFlight f.id) f) f.id

/-- Step 1 of R329: loads and atomics are discarded; stores outside the task's sets stand. -/
def discardFlights (s : State) (t : Team) : State :=
  let gone := (s.flightsOf t.uid).filter (fun f => woundDrops f.instr)
  let s := gone.foldl discard (dropRequests s t.uid (gone.map (fun f => f.id)))
  let s := { s with flights := s.flights.map (fun (f : Flight) => if f.team = t.uid then dropSetLanes t f else f) }
  let s := (s.flightsOf t.uid).foldl (fun s f => if f.lanes.all (fun l => l.st = .done) && (memOp? f.instr).isSome
    then discard s f else s) s
  let s := (t.entries.filter (fun f => woundDrops f.instr)).foldl fillDst s
  s.onTeam t.uid (fun t => { t with entries := (t.entries.filter (fun f => !woundDrops f.instr)).map (dropSetLanes t) })

/-- Step 2 of R329, before the rollback: the stores to the task's sets are drained. One that stands at its gate has written
nothing, and is dropped. -/
def drainSets (s : State) (t : Team) : State :=
  let mine := s.writes.filter (fun w => w.team = t.uid && w.path = 0 && t.declares w.va.toNat w.cells.length)
  let s := (mine.filter (fun w => !w.waits.isEmpty)).foldl
    (fun s w => clearWait { s with writes := s.writes.filter (fun v => v.id ≠ w.id) } w.id) s
  mine.foldl (fun s w => match s.write? w.id with
    | some w => applyWrite s w
    | none => s) s

/-- A team's queued request for the lease is withdrawn; its counts stand for the next one (13 R290, R313). Its hinge partner that
waits for the same request issues its `mma` again, and so requests anew. -/
def withdrawLease (s : State) (t : Team) : State :=
  let mine := (s.core t.core).lease.queue.filter (fun r => r.team = t.uid)
  let s := onLease s t.core (fun l =>
    { l with queue := l.queue.filter (fun r => r.team ≠ t.uid),
             lost := mine.map (fun r => { key := r.key, count := r.count, last := r.last }) ++
               l.lost.filter (fun x => !mine.any (fun r => r.key = x.key)) })
  { s with teams := s.teams.map (fun (u : Team) =>
      if u.core = t.core && u.uid ≠ t.uid && u.run = .parked .lease && u.aux = [] && mine.any (fun r => r.key = leaseKey u)
      then { u with run := .running } else u) }

/-- The requests of a team for sets and for the lease are withdrawn. -/
def withdrawRequests (s : State) (t : Team) : State :=
  let s := releaseHasps s t.uid (fun h => !h.granted)
  let s := s.onTeam t.uid (fun t => { t with sets := t.sets.map (fun k =>
    if k.st = .waiting then { k with st := .declared } else k) })
  withdrawLease s t

/-- Whether a wound can be taken now. -/
def canTakeWound (t : Team) : Bool :=
  t.wound && t.task.isSome && !t.handler &&
  (match t.run with
   | .running => true
   | .parked w => w ≠ .apply && w ≠ .qpush && w ≠ .tret && w ≠ .qpop && w ≠ .texit
   | .saved w => w ≠ some .apply
   | _ => false)

/-- WOUND_TAKE (R329): the loads are discarded, the stores to sets are drained, the uses of the task end, and the undo
engine begins. The team is off issue until it has ended. -/
def execWoundTake (u : Nat) (s : State) : Out :=
  match s.team? u with
  | none => .next s
  | some t =>
    if !canTakeWound t then .next s
    else
      let start (s : State) : State :=
        let s := drainSets (withdrawRequests (discardFlights (dropUses s t) t) t) t
        (s.onTeam u (fun t => match t.run with
          | .saved _ => { t with run := .saved (some .setWait), due := none, part := none }
          | _ => { t with run := .parked .setWait, due := none, part := none })).postOnce (.rollbackComplete u)
      match usesAbsent s t with
      | none => .next (start s)
      | some va => match meetFault s t.core t.ctx va 4 0 (.woundTake u) .absent with
        | .wait s => .next s
        | .fail s _ _ => .next (start s)

/-- One record of the undo log written back to its line, as a write of the victim on `ls`. -/
def undoRecord (t : Team) (s : State) (i : Nat) : Got State :=
  let a := t.agent
  let at_ := t.undob.toNat + 64 + 72 * i
  match a.rd s at_ 8, a.bytes s (at_ + 8) 64 with
  | .ok line, .ok bs => match piecesOf s t.core t.ctx .write line 64 with
    | .ok segs =>
      let cells := (segKeys segs).zip bs
      .ok ((l1Store s t.core cells).apply cells)
    | .error e => .error (line, e)
  | .error e, _ => .error e
  | _, .error e => .error e

/-- The records from the last to the first; one that cannot be read or written for good is passed over, and so is one on an
absent page when firmware has declined such a page. -/
def undoRecords (t : Team) (declined : Bool) : List Nat → State → Got State
  | [], s => .ok s
  | i :: is, s => match undoRecord t s i with
    | .ok s => undoRecords t declined is s
    | .error (va, .absent) => if declined then undoRecords t declined is s else .error (va, .absent)
    | .error _ => undoRecords t declined is s

/-- Whether a step that an absent page stopped goes on without it: a page fails for good, or firmware declined it. -/
def passOver (declined : Bool) (s : State) (r : Got State) : Got State :=
  match r with
  | .ok s => .ok s
  | .error (va, .absent) => if declined then .ok s else .error (va, .absent)
  | .error _ => .ok s

/-- Step 2 of R329: the records are written back, every entry of the task is released, and count and age are 0. An absent page
of the log keeps the whole step until it is there. -/
def rollback (declined : Bool) (s : State) (t : Team) : Got State := do
  let logged := match t.task with
    | some k => !k.logged.isEmpty
    | none => false
  let s ← if logged then passOver declined s (undoRead s t >>= fun n => undoRecords t declined (List.range n).reverse s)
    else pure s
  let s ← passOver declined s (clearUndo s t)
  return releaseHasps s t.uid (fun _ => true)

/-- Step 4 of R329: the task begins again. -/
def restartTask (t : Team) : Team :=
  match t.task with
  | none => { t with wound := false }
  | some k =>
    { ((t.setSs k.dst k.entry).setFull false k.dst true 4) with
      task := some { k with restarts := min (2 ^ 32 - 1) (k.restarts + 1), deferred := [], logged := [], declared := false }
      sets := List.replicate 8 SetSlot.zero, pc := k.restart, wound := false, aux := [], mwEnd := .none
      entries := t.entries.filter (fun f => f.id ≠ 0)
      run := match t.run with
        | .saved _ => .saved none
        | _ => .running }

/-- ROLLBACK_COMPLETE (R329): the records are written back, every entry of the task is released, and the task restarts. -/
def execRollbackComplete (u : Nat) (s : State) : Out :=
  match s.team? u with
  | none => .next s
  | some t =>
    if !t.wound then .next s
    else
      let retry : Ev := .rollbackComplete u
      let gone := s.declined.contains retry
      match rollback gone s t with
      | .ok s => .next ({ s with declined := s.declined.erase retry }.onTeam t.uid restartTask)
      | .error (va, _) => match meetFault s t.core t.ctx va 0 0 retry .absent with
        | .wait s => .next s
        | .fail s _ _ => .next (s.postOnce retry)

end Sys2Proof.Machine
end

