-- ==== Sys2Proof/Machine/Save.lean ====
section
/-!
DEFINITION. Pre-emption, saves and restores (05 R125-R128, R473, 19 R433-R436), with the bytes of the images.
-/

namespace Sys2Proof.Machine

/-! ## Images (R434, R435) -/

/-- Bytes padded with zeros to a multiple of n. -/
def padTo (n : Nat) (bs : List Byte) : List Byte := bs ++ List.replicate ((n - bs.length % n) % n) 0

/-- Bits as bytes, bit i of the list at bit i mod 8 of byte i / 8. -/
def bitBytes (l : List Bool) : List Byte :=
  leBytes ((l.length + 7) / 8) (((List.range l.length).zip l).foldl (fun a x => if x.2 then a + 2 ^ x.1 else a) 0)

/-- The 512-byte header of an image (R434): a waiting instruction that is a replay entry lies before the resume address. -/
def imageHeader (s : State) (t : Team) (forced : Bool) : List Byte :=
  let pc := match t.entries.find? (fun f => f.id = 0) with
    | some f => f.npc
    | none => t.pc
  let info := 1 + 2 ^ 8 * bitNat forced + 2 ^ 9 * bitNat t.handler + 2 ^ 10 * bitNat t.wound + 2 ^ 16 * t.entries.length
  let task := match t.task with
    | some k => leBytes 8 k.age.toNat ++ leBytes 4 k.queue ++ leBytes 4 1 ++ leBytes 8 k.restarts ++
        k.entry.flatMap (fun w => leBytes 8 w.toNat)
    | none => leBytes 8 0 ++ leBytes 4 0xFFFFFFFF ++ leBytes 4 0 ++ leBytes 40 0
  let wait := if t.run = .saved (some .mwait) then leBytes 4 (t.aux.getD 3 0) ++ leBytes 4 1 else leBytes 8 0
  let imp := match t.pending with
    | p :: _ => leBytes 8 (p.code + p.sub % 2 ^ 16 * 2 ^ 8 + 2 ^ 24) ++ leBytes 8 p.addr.toNat
    | [] => leBytes 16 0
  leBytes 8 info ++ leBytes 8 pc.toNat ++ leBytes 8 t.status.toNat ++ leBytes 8 t.role.toNat ++ leBytes 8 (t.prio % 16) ++
  leBytes 8 t.trapv.toNat ++ leBytes 8 t.trapa.toNat ++ leBytes 8 t.undob.toNat ++ leBytes 8 t.undol.toNat ++ task ++ wait ++
  imp ++ leBytes 104 0 ++
  (List.range 8).flatMap (fun q => leBytes 8 (asqryWord s t q) ++ leBytes 8 (t.sets.getD q SetSlot.zero).len.toNat) ++
  leBytes 128 0

/-- The tag-shaped bytes of a vector register (06 R146). -/
def VReg.image (r : VReg) : List Byte :=
  let x (i : Nat) : Nat := (r.lanes.getD i 0).toNat
  match r.tag with
  | .uni => leBytes 4 (x 0)
  | .aff => leBytes 4 (x 0) ++ leBytes 4 (x 1 + 2 ^ 32 - x 0)
  | .gen => r.lanes.flatMap (fun w => leBytes 4 w.toNat)

/-- The vector section (06 R146): the tag map, the registers, and the full/empty bits. -/
def vectorSection (t : Team) : List Byte :=
  let tags := ((List.range t.v.length).zip t.v).foldl (fun a r => a + r.2.tag.code * 4 ^ r.1) 0
  padTo 64 (leBytes 64 tags ++ t.v.flatMap VReg.image) ++ (bitBytes (t.v.map (fun (r : VReg) => r.full)) ++ List.replicate 32 0).take 32

/-- The sections of an image before the tiles (R435); the task lists have a layout of the device's own (log 17). -/
def imageFront (s : State) (t : Team) (forced : Bool) : List Byte :=
  imageHeader s t forced ++
  padTo 64 (t.s.flatMap (fun r => leBytes 8 r.val.toNat) ++ bitBytes (t.s.map (fun (r : SReg) => r.full))) ++
  padTo 64 (t.p.flatMap bitBytes) ++ padTo 64 (vectorSection t) ++
  (List.range 5120).map (fun i => Config.privateByte (s.stepNo * 2 ^ 64 + i)) ++
  padTo 64 (t.entries.flatMap (entryBytes t.width))

/-- The tile images and the plain scratch of a team (R435). -/
def imageBack (s : State) (t : Team) : List Byte :=
  let b := s.bind t
  let c := s.core t.core
  (List.range b.accN).flatMap (fun n => padTo 64 ((c.tiles.getD (b.acc0 + n) Tile.zero).image (s.stepNo + n))) ++
  c.scratch.bytes (256 * b.sbase) (256 * b.ssize)

/-- The size of a team image area (R436). -/
def imageRoom (w n acc ssize : Nat) : Nat :=
  let up (k x : Nat) : Nat := (x + k - 1) / k * k
  up 4096 (512 + 1088 + up 64 (23 * w / 8) + up 64 (up 64 (64 + 4 * w * n) + 32) + 5120 + up 64 (16 * (192 + 16 * w)) +
    acc * 81984 + 256 * ssize)

/-! ## The kernel core area (R436) -/

/-- The teams of a launch on a core, saved ones too, that have not ended. -/
def kernelTeams (s : State) (core launch : Nat) : List Team :=
  s.teams.filter (fun t => t.core = core && t.launch = launch && t.run ≠ .done && t.run ≠ .stopped)

/-- The teams on a core, of whatever launch, that bear a context and a header: a kernel as reservation records know it (13 R295). -/
def recTeams (s : State) (core ctx : Nat) (hdr : Word64) : List Team :=
  s.teams.filter (fun t => t.core = core && t.ctx = ctx && hdrOf s t = hdr && t.run ≠ .done && t.run ≠ .stopped)

/-- Whether a team occupies its place. -/
def Team.resident (t : Team) : Bool := match t.run with
  | .running => true
  | .parked _ => true
  | .ready => true
  | _ => false

/-- The operand-buffer lines of a kernel on a core, ascending. -/
def kernelLines (s : State) (core launch : Nat) : List Nat :=
  let bs := (kernelTeams s core launch).map (fun t => t.rec0)
  (List.range 1024).filter (fun n => bs.any (fun b => b.obase ≤ n && n < b.obase + b.osize))

/-- The record word of R294. -/
def Reserve.word (r : Reserve) : Nat :=
  r.base + r.size * 2 ^ 10 + r.doff * 2 ^ 21 + r.ty * 2 ^ 33 + r.bl * 2 ^ 38 + r.lay * 2 ^ 40 + r.own * 2 ^ 42 + 2 ^ 46

/-- A record from its word, when it is valid. -/
def reserveOf (n ctx : Nat) (hdr : Word64) (w : Nat) : Option Reserve :=
  if w.testBit 46 then
    some { num := n, own := bitsN w 45 42, lay := bitsN w 41 40, bl := bitsN w 39 38, ty := bitsN w 37 33,
           doff := bitsN w 32 21, size := bitsN w 20 10, base := bitsN w 9 0, ctx := ctx, hdr := hdr }
  else none

/-- Whether a record reserves bytes of a team's allotment, so that the team is the one that reserved it (13 R295). -/
def ofAllot (t : Team) (hdr : Word64) (r : Reserve) : Bool :=
  r.ctx = t.ctx && r.hdr = hdr && decide (t.rec0.obase ≤ r.base) && decide (r.base < t.rec0.obase + t.rec0.osize)

/-- The latch image of a launch on a core, the first 512 bytes of its kernel core area (R251). -/
def latchImage (s : State) (core launch : Nat) : List Byte :=
  (List.range 32).flatMap (fun n => match s.latch? core launch n with
    | some l => l.bytes
    | none => leBytes 16 0)

/-- The rest of a kernel core area: the records whose bytes lie in the launch's allotments, and its operand lines. -/
def operandImage (s : State) (core launch : Nat) (ctx : Nat) (hdr : Word64) : List Byte :=
  let c := s.core core
  let lines := kernelLines s core launch
  (List.range 16).flatMap (fun n => match c.obres.find? (fun r => r.num = n && r.ctx = ctx && r.hdr = hdr &&
      lines.contains r.base) with
    | some r => leBytes 8 r.word
    | none => leBytes 8 0) ++
  leBytes 384 0 ++ lines.flatMap (fun n => c.obuf.bytes (256 * n) 256)

/-- The latches of a launch leave a core. -/
def dropLatches (s : State) (core launch : Nat) : State :=
  s.onCore core (fun c => { c with latches := c.latches.filter (fun l => l.launch ≠ launch) })

/-- The records of a kernel leave a core (13 R295). -/
def dropRecords (s : State) (core ctx : Nat) (hdr : Word64) : State :=
  s.onCore core (fun c => { c with obres := c.obres.filter (fun r => !(r.ctx = ctx && r.hdr = hdr)) })

/-- A latch image reloaded (R251). -/
def loadLatches (s : State) (core launch nlat : Nat) (bs : List Byte) : State :=
  s.onCore core (fun c => { c with
    latches := c.latches ++ (List.range nlat).map (fun n => latchOfBytes launch n ((bs.drop (16 * n)).take 16)) })

/-- An operand image reloaded (R313): records and lines. -/
def loadOperands (s : State) (core launch ctx : Nat) (hdr : Word64) (bs : List Byte) : State :=
  let lines := kernelLines s core launch
  s.onCore core (fun c => { c with
    obres := c.obres ++ (List.range 16).filterMap (fun n => reserveOf n ctx hdr (numAt bs (8 * n) 8)),
    obuf := ((List.range lines.length).zip lines).foldl
      (fun m x => m.setBytes (256 * x.2) ((bs.drop (512 + 256 * x.1)).take 256)) c.obuf })

/-! ## Saving (05 R126, 19 R433) -/

/-- The waits in which a request saves a team at once (05 R126). -/
def savesAtOnce (w : Park) : Bool := w = .qpop || w = .ltwait || w = .yield || w = .mwait || w = .pnwait || w = .binend

/-- Whether an instruction stays in flight across a save (15 R351, 16 R377, 11 R281). -/
def staysInFlight (i : Instr) : Bool := runsOn i || (match i with
  | .qwpush _ => true
  | .mwait _ => true
  | .cpyq _ => true
  | _ => false)

/-- Whether an `acld` of a team still changes a tile: a save waits for it, but for one that waits on a fault (13 R312, R313). -/
def loadsTile (s : State) (u : Nat) : Bool := (s.flightsOf u).any (fun f => match f.instr with
  | .acld _ => !s.faults.any (fun q => q.retry = .acldComplete f.id)
  | _ => false)

/-- Whether something that a save waits for is still under way (19 R424, R433): fences too, which stand as entries by now when they
wait for something stuck. -/
def saveWaits (s : State) (t : Team) : Bool :=
  loadsTile s t.uid || !t.holds.isEmpty || (!t.pop.isEmpty && t.run ≠ .parked .qpop) ||
  (s.flightsOf t.uid).any (fun f => f.moving && !staysInFlight f.instr) ||
  s.writes.any (fun w => w.team = t.uid && !w.waits.isEmpty) || (s.core t.core).engine.any (fun m => m.team = t.uid)

/-- What a saved team goes on with. -/
def Team.savedRun (t : Team) : RunState := match t.run with
  | .parked .qpop => .saved (some .qpop)
  | .parked .qpush => if t.aux.length = 1 then .saved (some .qpush) else .saved none
  | .parked .mwait => .saved (some .mwait)
  | .parked .binend => .saved (some .binend)
  | .parked .texit => .saved (some .texit)
  | .parked .apply => .saved (some .apply)
  | .parked .setWait => .saved (some .setWait)
  | _ => .saved none

/-- What a saved team keeps of its wait: the time of an `mwait` that remains, and nothing where it issues again. -/
def Team.savedAux (clk : Nat) (t : Team) : List Nat := match t.savedRun with
  | .saved none => []
  | .saved (some .mwait) => if t.aux.getD 3 0 = 0 then t.aux.set 3 0xFFFFFFFF else t.aux.set 3 (t.aux.getD 3 0 - clk)
  | _ => t.aux

/-- The remaining lanes of an instruction that waits at issue, with what a replay entry captures (19 R426). -/
def C.capture (c : C) (s : State) : List LaneReq :=
  let lane (l a d : Nat) : LaneReq := { lane := l, addr := BitVec.ofNat 64 a, data := BitVec.ofNat 64 d, st := .todo }
  match memOp? c.i with
  | some m => (c.served m).map (fun l => lane l (c.ea s m l) (c.memData s m l))
  | none => match c.i with
    | .hld _ | .hwalk _ => c.walkLanes s
    | _ =>
      if c.x.a.cls = .vec || c.x.b.cls = .vec then c.actives.map (fun l => lane l (c.opnd s c.x.a 32 l) (c.opnd s c.x.b 32 l))
      else [lane 0 (c.sc64 s c.x.a).toNat (c.sc64 s c.x.b).toNat]

/-- Whether the instruction at a team's program counter waits on an outside event and issues again after it: a set wait, a lease
or pintle wait of `mma` or `mmas`, a replayable fault (R433). -/
def waitsAtIssue (s : State) (t : Team) : Bool := match t.run with
  | .parked .setWait => !t.wound
  | .parked .lease => t.aux.isEmpty
  | .parked .pintle => t.aux.isEmpty
  | .parked .fault => s.faults.any (fun q => q.flight = 0 && q.retry = .instructionFetch t.uid && q.path ≠ 8)
  | _ => false

/-- The replay entry of such an instruction (R433), a flight of number 0. It is not in flight: the team issues it again when it is
restored. -/
def waitingEntry (s : State) (t : Team) : List Flight :=
  if !waitsAtIssue s t then []
  else match fetch s t with
    | .words (.ok i) => match replayForm i with
      | some (opc, sub, x) =>
        let npc := t.pc + BitVec.ofNat 64 i.bytes
        let c : C := { t := t, i := i, x := x, row := rowOf t.width opc sub x, npc := npc, act := t.acts x.g x.neg,
                       go := t.go x.g x.neg }
        [{ id := 0, team := t.uid, pc := t.pc, npc := npc, instr := i, dvec := false, dst := 0, dnum := 0,
           lanes := (c.capture s).map (fun r => if t.run = .parked .fault then { r with st := .faulted } else r),
           snap := [], aux := [], again := false, gate := false, waits := [] }]
      | none => []
    | _ => []

/-- The save begins: the waiting instructions are captured, the lease ends, copies into its scratch stop (R433, 13 R313, 15
R351, 10 R246). -/
def beginSave (s : State) (t : Team) (forced : Bool) : State :=
  let es := (captured s t.uid).filter (fun f => !staysInFlight f.instr)
  let ids := es.map (fun f => f.id)
  let es := es ++ waitingEntry s t
  let s := dropFaults (capturePayload s t.uid t.core) (fun q => (q.flight ≠ 0 && ids.contains q.flight) ||
    (q.flight = 0 && (q.retry = .instructionFetch t.uid || (s.flightsOf t.uid).any (fun f => q.retry = .acldComplete f.id))))
  let s := { s with flights := s.flights.filter (fun f => !ids.contains f.id) }
  let s := leavePushes s t.uid (fun m => m.kind = .qpush)
  let s := withdrawLease s t
  let s := if (s.core t.core).lease.holder = some (leaseKey t) then endLease s t.core true else s
  let s := holdCopies s t
  let no := s.nextId
  let s := { s with nextId := no + 1 }.onTeam t.uid (fun u => { u with
    run := t.savedRun, aux := t.savedAux s.clk.toNat, entries := es, savedNo := 0, forced := forced })
  let s := s.post (.saveComplete t.uid)
  if t.wound then s.postOnce (.woundTake t.uid) else s

/-- A save at a boundary, or later when what it waits for has ended. -/
def trySave (s : State) (t : Team) (forced : Bool) (retry : Ev) : State :=
  let s := captureReady s t.uid
  match s.team? t.uid with
  | none => s
  | some t => if saveWaits s t then s.postOnce retry else beginSave s t forced

/-- YDL_EXPIRY (05 R125, R126): the deadline has passed outside a handler. -/
def execYdlExpiry (u : Nat) (s : State) : Out :=
  match s.team? u with
  | none => .next s
  | some t =>
    if !t.resident || t.run = .ready || t.handler || t.ydl ≠ 0 then .next s
    else .next (trySave s t true (.ydlExpiry u))

/-- YSAVE_IMAGE (R432): the team saves itself. -/
def execYsaveImage (u : Nat) (s : State) : Out :=
  match s.team? u with
  | none => .next s
  | some t => if t.run ≠ .parked .ysave then .next s else .next (trySave s t false (.ysaveImage u))

/-- Whether a team's place is its own and its image is not complete yet: it is resident, or its save is under way. -/
def onPlace (s : State) (t : Team) : Bool := t.resident || (match t.run with
  | .saved _ =>
    let b := s.bind t
    b.team = t.uid && b.st ≠ .saved && t.savedNo = 0
  | _ => false)

/-- Whether another team of a launch is still on a core: its latches stay. -/
def kernelStays (s : State) (t : Team) : Bool :=
  (kernelTeams s t.core t.launch).any (fun x => x.uid ≠ t.uid && onPlace s x)

/-- Whether another team of a kernel, of whatever launch, is still on a core: its records and their bytes stay (13 R295, R313). -/
def recordsStay (s : State) (t : Team) : Bool :=
  (recTeams s t.core t.ctx (hdrOf s t)).any (fun x => x.uid ≠ t.uid && onPlace s x)

/-- The operand images of some launches are written to their areas on a core. -/
def writeOperands (s : State) (t : Team) : List Nat → Got State
  | [] => return s
  | l :: ls => do
    let s ← match kernelArea? s t.core l with
      | some a => t.agent.put s (a.base + 512) (operandImage s t.core l t.ctx (hdrOf s t))
      | none => pure s
    writeOperands s t ls

/-- What the kernel core areas take as a team leaves its place, its image being written or its life over (`ends`): the latches of its
launch, when the launch keeps saved teams there and none on its place, and likewise the operand images of its kernel's launches. -/
def leaveAreas (s : State) (t : Team) (ends : Bool) : Got State := do
  let kept (x : Team) : Bool := !(ends && x.uid = t.uid)
  let s ← match kernelArea? s t.core t.launch with
    | some a =>
      if kernelStays s t || !(kernelTeams s t.core t.launch).any kept then pure s
      else t.agent.put s a.base (latchImage s t.core t.launch)
    | none => pure s
  if recordsStay s t then return s
  writeOperands s t (uniq (((recTeams s t.core t.ctx (hdrOf s t)).filter kept).map (fun x => x.launch)))

/-- The latches and records that stay no longer leave the core. -/
def leaveCore (s : State) (t : Team) : State :=
  let s := if kernelStays s t then s else dropLatches s t.core t.launch
  if recordsStay s t then s else dropRecords s t.core t.ctx (hdrOf s t)

/-- Whether another team of a context is still on a core. -/
def contextStays (s : State) (t : Team) : Bool :=
  s.teams.any (fun x => x.uid ≠ t.uid && x.ctx = t.ctx && x.core = t.core && onPlace s x)

/-- A team leaves its place: the context's use of the pool ends with its last team there (10 R232). -/
def leavePlace (s : State) (t : Team) : State :=
  if contextStays s t || !(s.core t.core).lines.any (fun l => l.ctx = t.ctx && l.st ≠ .free) then s
  else s.postOnce (.poolUseEnd t.core t.ctx)

/-- Whether the end of a context's pool use on a core is under way. -/
def poolEnding (s : State) (core ctx : Nat) : Bool :=
  let e : Ev := .poolUseEnd core ctx
  s.agenda.contains e || s.faults.any (fun q => q.retry = e) || s.declined.contains e

/-- What the image of a saved team says anew of the team, which a pop, a push, a grant or a wound has changed since (15 R351, 14
R330, 16 R377): the sections before the tiles are written again, with the tiles and the scratch behind them. -/
def writeAgain (s : State) (t : Team) : Got State := do
  let back ← t.agent.bytes s (t.image + t.imgAt) (81984 * t.rec0.accN + 256 * t.rec0.ssize)
  let front := imageFront s t t.forced
  let s ← t.agent.put s t.image (front ++ back)
  return s.onTeam t.uid (fun t => { t with imgAt := front.length })

/-- The first writing of an image, and with the kernel's last team on the core its core area. -/
def writeImage (s : State) (t : Team) : Got State := do
  let front := imageFront s t t.forced
  let s ← t.agent.put s t.image (front ++ imageBack s t)
  let s ← leaveAreas s t false
  return s.onTeam t.uid (fun t => { t with imgAt := front.length })

/-- The team has left its place (05 R473). -/
def saveDone (s : State) (t : Team) : State :=
  let b := s.bind t
  let s := leaveCore s t
  let s := s.onRec t.core t.place (fun b => { b with st := .saved })
  let s := { s with nextId := s.nextId + 1 }.onTeam t.uid (fun t => { t with
    rec0 := { b with st := .saved }, savedNo := s.nextId, savedAt := s.nextId, ydl := noDeadline })
  leavePlace (s.post (.recordReclaim t.core t.place)) t

/-- SAVE_COMPLETE (R433-R436, 05 R473): the image is written, and written again when it has to say something new. -/
def execSaveComplete (u : Nat) (s : State) : Out :=
  match s.team? u with
  | none => .next s
  | some t =>
    let b := s.bind t
    let saved := match t.run with
      | .saved _ => true
      | _ => false
    let again := t.savedNo ≠ 0 || (b.team = t.uid && b.st = .saved)
    if !saved || (!again && b.team ≠ t.uid) then .next s
    else
      let done (s : State) : State := if again then s else saveDone s t
      match (if again then writeAgain s t else writeImage s t) with
      | .ok s => .next (done s)
      | .error (va, e) => match meetFault s t.core t.ctx va 0 0 (.saveComplete u) e with
        | .wait s => .next s
        | .fail s _ _ => .next (done s)

/-- Whether a team is saved, its image complete: its restore may be under way. -/
def imageStands (s : State) (t : Team) : Bool := (match t.run with
  | .saved _ => true
  | _ => false) && (t.savedNo ≠ 0 || ((s.bind t).team = t.uid && (s.bind t).st = .saved))

/-- Whether an image has still to be written again: a restore waits for it. -/
def imagePending (s : State) (u : Nat) : Bool :=
  let e : Ev := .saveComplete u
  s.agenda.contains e || s.faults.any (fun q => q.retry = e) || s.declined.contains e

/-- The images that no longer say what their teams hold are written again: those of the teams that an event has changed. -/
def keepImages (before s : State) : State :=
  (s.teams.filter (fun t => imageStands s t && (before.team? t.uid).any (fun o =>
    o.savedNo = t.savedNo && o ≠ { t with imgAt := o.imgAt }))).foldl (fun s t => s.postOnce (.saveComplete t.uid)) s

/-! ## Room on a core (05 R473, R50) -/

/-- Ranges that are taken, as base and length. -/
abbrev Spans := List (Nat × Nat)

/-- Whether a range lies within a size and meets none that is taken. -/
def roomFor (size : Nat) (taken : Spans) (base n : Nat) : Bool :=
  n = 0 || (base + n ≤ size && taken.all (fun x => x.2 = 0 || base + n ≤ x.1 || x.1 + x.2 ≤ base))

/-- The lowest base of a free range. -/
def firstFit (size : Nat) (taken : Spans) (n : Nat) : Option Nat :=
  if n = 0 then some 0
  else (sortBy (fun a b => decide (a ≤ b)) (0 :: taken.map (fun x => x.1 + x.2))).find? (fun b => roomFor size taken b n)

/-- The records of a core that are not empty: what they name is their teams' (05 R473, 10 R228). -/
def liveRecs (s : State) (core : Nat) : List (Nat × Bind) :=
  let rs := (s.core core).recs
  ((List.range rs.length).zip rs).filter (fun r => r.2.st ≠ .empty)

/-- The records of a core whose units and tiles are their teams': all but those whose save is complete (05 R473). -/
def heldRecs (s : State) (core : Nat) : List (Nat × Bind) :=
  (liveRecs s core).filter (fun r => !(r.2.st = .saved && (s.team? r.2.team).any (fun t => t.savedNo ≠ 0)))

/-- The vector units of a declared count for a width (06 R137). -/
def unitsOf (w n : Nat) : Nat := 8 * ((n + 7) / 8) * (w / 32)

/-- The vector units taken on a slot: by live teams and by held ranges (06 R141). -/
def takenUnits (s : State) (core slot : Nat) : Spans :=
  (heldRecs s core).filterMap (fun r => if slotOf r.1 = slot then (s.team? r.2.team).map (fun t =>
    (r.2.vbase, unitsOf t.width t.nv)) else none) ++
  (s.keeps.filter (fun k => k.core = core && slotOf k.place = slot)).map (fun k =>
    (k.vbase + k.range.1 * (k.width / 32), k.units))

/-- The scratch lines taken on a core: plain regions and pool lines in use. -/
def takenLines (s : State) (core : Nat) : Spans :=
  (liveRecs s core).map (fun r => (r.2.sbase, r.2.ssize)) ++
  ((s.core core).lines.filter (fun l => l.st ≠ .free)).map (fun l => (l.num, 1))

/-- Whether a team is on its place, or its save or restore is under way. -/
def Team.holdsCore (t : Team) : Bool := t.resident || (match t.run with
  | .saved _ => t.savedNo = 0
  | _ => false)

/-- Whether a launch has such a team on a core: its latches stay its own. -/
def kernelHolds (s : State) (core launch : Nat) : Bool := (kernelTeams s core launch).any Team.holdsCore

/-- The teams on a core whose kernel holds operand lines there: those of a kernel with such a team (13 R295, R313). -/
def kernelRecs (s : State) (core : Nat) : List Team :=
  s.teams.filter (fun t => t.core = core && t.run ≠ .done && t.run ≠ .stopped &&
    (recTeams s core t.ctx (hdrOf s t)).any Team.holdsCore)

/-- The operand lines of some teams. -/
def operandSpans (ts : List Team) : Spans := ts.map (fun t => (t.rec0.obase, t.rec0.osize))

/-- An area of a context's pool is released. -/
def freeArea (s : State) (ctx base : Nat) : State :=
  { s with areas := s.areas.filter (fun a => !(a.ctx = ctx && a.base = base)) }

/-- Held ranges are released, with their scalars' areas (06 R142). -/
def releaseHolds (s : State) (p : KeepHold → Bool) : State :=
  (s.keeps.filter p).foldl (fun s k => freeArea s k.ctx k.image) { s with keeps := s.keeps.filter (fun k => !p k) }

/-- Whether a held range is claimed: a team of a launch that binds to its predecessor's ranges is bound, so its other teams' ranges
stay for them (log 67). -/
def claimed (s : State) (k : KeepHold) : Bool :=
  s.launches.any (fun l => l.follow && l.ctx = k.ctx && l.pred = some k.launch && l.phase ≠ .ended)

/-- Whether a held range lies in the units of a saved team, which its restore needs: a hold does not outlast the demand for its slot
(06 R142). -/
def inWay (s : State) (t : Team) (k : KeepHold) : Bool :=
  k.core = t.core && slotOf k.place = slotOf t.place && !claimed s k &&
  !roomFor 1024 [(k.vbase + k.range.1 * (k.width / 32), k.units)] t.rec0.vbase (unitsOf t.width t.nv)

/-- The accumulator tiles taken on a core. -/
def takenTiles (s : State) (core : Nat) : Spans := (heldRecs s core).map (fun r => (r.2.acc0, r.2.accN))

/-- The length of the latch run of a kernel on a core (10 R251). -/
def runLen (s : State) (core launch : Nat) : Nat := match kernelArea? s core launch with
  | some k => k.lats
  | none => 0

/-- The latches of a core that a kernel has, or will have when a restore under way completes. -/
def latchesOf (s : State) (core launch : Nat) : Nat :=
  max ((s.core core).latches.filter (fun l => l.launch = launch)).length
    (if kernelHolds s core launch then runLen s core launch else 0)

/-- Whether a core has latches for a kernel's run beside those of the other kernels. -/
def latchRoom (s : State) (core launch n : Nat) : Bool :=
  let ks := uniq ((s.core core).latches.map (fun l => l.launch) ++ (s.teams.filter (fun t => t.core = core)).map (fun t => t.launch))
  decide (((ks.filter (fun k => k ≠ launch)).map (latchesOf s core)).sum + n ≤ 32)

/-- Whether all that a saved team's record names is free again (05 R473). -/
def roomToRestore (s : State) (t : Team) : Bool :=
  let b := t.rec0
  let mine := recTeams s t.core t.ctx (hdrOf s t)
  let others := operandSpans ((kernelRecs s t.core).filter (fun x => !mine.contains x))
  roomFor 1024 (takenUnits { s with keeps := s.keeps.filter (fun k => !inWay s t k) } t.core (slotOf t.place)) b.vbase (unitsOf t.width t.nv) &&
  roomFor 1536 (takenLines s t.core) b.sbase b.ssize && roomFor 4 (takenTiles s t.core) b.acc0 b.accN &&
  mine.all (fun x => roomFor 1024 others x.rec0.obase x.rec0.osize) && latchRoom s t.core t.launch (runLen s t.core t.launch)

/-! ## Restoring (05 R127, R128, R473) -/

/-- Whether a context is switched in. -/
def isIn (s : State) (ctx : Nat) : Bool := match s.ctx? ctx with
  | some c => c.isIn
  | none => false

/-- Whether the image of a team waits for a restore and could be restored now. -/
def restorable (s : State) (core slot : Nat) (t : Team) : Bool :=
  t.core = core && slotOf t.place = slot && t.savedNo ≠ 0 && isIn s t.ctx && !poolEnding s core t.ctx && !imagePending s t.uid &&
  (match t.run with
   | .saved _ => true
   | _ => false) && roomToRestore s t

/-- The saved team of a slot that is restored next (05 R128): the highest ceiling, then the earliest save. -/
def nextRestore (s : State) (core slot : Nat) : Option Team :=
  (s.teams.filter (restorable s core slot)).foldl (fun (b : Option Team) t => match b with
    | none => some t
    | some x => if ceilOf s x.ctx < ceilOf s t.ctx || (ceilOf s x.ctx = ceilOf s t.ctx && t.savedNo < x.savedNo) then some t
                else some x) none

/-- An empty place of a slot. -/
def emptyPlace (s : State) (core slot : Nat) : Option Nat :=
  ((List.range 4).map (fun i => 4 * slot + i)).find? (fun p => ((s.core core).recs.getD p Bind.reset).st = .empty)

/-- The restores that firmware can request on a core. -/
def offerRestores (s : State) (core : Nat) : State :=
  (List.range 4).foldl (fun s slot => match nextRestore s core slot, emptyPlace s core slot with
    | some t, some p => s.postOnce (.restoreRequest core p t.uid)
    | _, _ => s) s

/-- Counts a fault of a die's firmware (05 R119, R471). -/
def countFault (s : State) (die : Nat) : State := s.onHub (fun h => { h with fwfault := h.fwfault.modify die (· + 1) })

/-- Firmware gives up the restores that it was about to request at a place, or of a team. -/
def dropRestores (s : State) (core place u : Nat) : State :=
  { s with agenda := s.agenda.filter (fun e => match e with
      | .restoreRequest c p v => !((c = core && p = place) || v = u)
      | _ => true) }

/-- RESTORE_REQUEST (05 R119, R127, R128): firmware writes `saved` into an empty record, and releases the held
ranges in the way of the team's units (06 R142). A record of another slot or core is refused and counted. -/
def execRestoreRequest (core place u : Nat) (s : State) : Out :=
  match s.team? u with
  | none => .next (countFault s (dieOf core))
  | some t =>
    if ((s.core core).recs.getD place Bind.reset).st ≠ .empty || 16 ≤ place then .next (countFault s (dieOf core))
    else if t.core ≠ core || slotOf t.place ≠ slotOf place || t.savedNo = 0 then .next (countFault s (dieOf core))
    else if (nextRestore s core (slotOf place)).map (fun x => x.uid) ≠ some u then .next s
    else if s.hub.updating.contains (dieOf core) then .next (s.postOnce (.restoreRequest core place u))
    else
      let s := (releaseHolds (dropRestores s core place u) (inWay s t)).onRec core place (fun _ => { t.rec0 with st := .saved })
      .next (offerRestores ((s.onTeam u (fun t => { t with place := place, savedNo := 0 })).post (.restoreComplete u)) core)

/-- The vector registers of an image, from their tags (06 R146). -/
def imageVecs (w : Nat) : List Nat → List Byte → List VReg × List Byte
  | [], bs => ([], bs)
  | k :: ks, bs =>
    let x (i : Nat) : Word := BitVec.ofNat 32 (numAt bs (4 * i) 4)
    let (r, n) : VReg × Nat := match k with
      | 0 => ({ tag := .uni, full := true, lanes := List.replicate w (x 0) }, 4)
      | 1 => ({ tag := .aff, full := true, lanes := (List.range w).map (fun l => x 0 + BitVec.ofNat 32 l * x 1) }, 8)
      | _ => ({ tag := .gen, full := true, lanes := (List.range w).map x }, 4 * w)
    let (rs, rest) := imageVecs w ks (bs.drop n)
    (r :: rs, rest)

/-- The replay entries of an image: the captured flights with the lanes that the image gives them. -/
def imageEntries (t : Team) (bs : List Byte) (n : Nat) : List Flight :=
  let sz := 192 + 16 * t.width
  (keepFlights (((List.range n).map (fun i => (bs.drop (sz * i)).take sz)).filterMap (parseEntry t.width)) t.entries).map (fun e =>
    let f : Flight := e.kept.getD { id := 1, team := t.uid, pc := e.pc, npc := e.pc + BitVec.ofNat 64 e.len, instr := e.instr,
                                    dvec := false, dst := 0, dnum := 0, lanes := [], snap := [], aux := [], again := false,
                                    gate := false, waits := [] }
    { f with lanes := e.lanes.map (fun l => { lane := l.1, addr := l.2.1, data := l.2.2, st := .todo }) })

/-- The header state that an image gives a team (R434). -/
def Team.headerOf (t : Team) (bs : List Byte) : Team :=
  let w (o : Nat) : Word64 := BitVec.ofNat 64 (numAt bs o 8)
  { t with
    pc := if t.entries.any (fun f => f.id = 0) then t.pc else w 8
    handler := (numAt bs 1 1).testBit 1
    status := w 16, role := w 24, prio := numAt bs 32 8 % 16, trapv := w 40, trapa := w 48, undob := w 56, undol := w 64
    task := t.task.map (fun k => { k with
      age := w 72, queue := numAt bs 80 4, restarts := numAt bs 88 8, entry := (List.range 4).map (fun j => w (96 + 8 * j)) })
    aux := if t.run = .saved (some .mwait) then t.aux.set 3 (numAt bs 128 4) else t.aux
    pending := match t.pending with
      | p :: ps => (if numAt bs 139 1 = 1 then
          { p with code := numAt bs 136 1, sub := numAt bs 137 2, addr := w 144 } else p) :: ps
      | [] => []
    sets := ((List.range t.sets.length).zip t.sets).map (fun x => if x.2.st = .empty then x.2 else
      { x.2 with base := BitVec.ofInt 64 (sextN 57 (numAt bs (256 + 16 * x.1) 8 / 64 * 64)), len := w (264 + 16 * x.1) }) }

/-- What an image gives back to its team (R434, R435), in the order of its sections; the task lists, whose layout is the device's own,
stand in the team's record (log 9). -/
def Team.fromImage (t : Team) (bs : List Byte) : Team :=
  let up (x : Nat) : Nat := (x + 63) / 64 * 64
  let bit (o n i : Nat) : Bool := (numAt bs o n).testBit i
  let po := 512 + 1088
  let vo := po + up (23 * (t.width / 8))
  let tags := numAt bs vo 64
  let area := bs.drop (vo + 64)
  let (vs, rest) := imageVecs t.width ((List.range t.v.length).map (fun k => tags / 4 ^ k % 4)) area
  let fo := vo + up (64 + (area.length - rest.length))
  let ro := vo + up (fo + 32 - vo) + 5120
  { t.headerOf bs with
    s := (List.range 128).map (fun n => { val := BitVec.ofNat 64 (numAt bs (512 + 8 * n) 8), full := bit 1536 16 n })
    p := (List.range 23).map (fun n => (List.range t.width).map (bit (po + n * (t.width / 8)) (t.width / 8)))
    v := ((List.range vs.length).zip vs).map (fun x => { x.2 with full := bit fo 32 x.1 })
    entries := imageEntries t (bs.drop ro) (bitsN (numAt bs 0 8) 20 16) }

/-- The replay entry of a captured flight. -/
def flightEntry (f : Flight) : Option Entry :=
  (replayForm f.instr).map (fun (opc, sub, x) =>
    { instr := f.instr, opc := opc, sub := sub, x := x, len := f.instr.bytes, pc := f.pc, drop := false,
      lanes := f.left.map (fun l => (l.lane, l.addr, l.data)), kept := some f })

/-- The team goes on where its image says (R433, R435): a wait goes on, or its instruction issues again; the entries are
re-injected as by `tret` with skip 0 and partial 0. The entry of an instruction that waited at issue is that issue. One saved in a
handler still has the registers of its frame's entries (R427). -/
def resumeTeam (s : State) (t : Team) : State :=
  let es := (t.entries.filter (fun f => f.id ≠ 0)).filterMap flightEntry
  let s := s.setTeam { t with entries := [], rdst := if t.handler then t.rdst else [] }
  let on (s : State) (w : Park) : State := s.onTeam t.uid (fun t => { t with run := .parked w })
  let replay (s : State) : State := es.foldl (fun s e => reinject s t.uid e) s
  match t.run with
  | .saved (some .mwait) =>
    let left := t.aux.getD 3 0
    let due := if left = 0xFFFFFFFF then 0 else s.clk.toNat + left + 1
    let id := t.aux.getD 2 0
    let s := { s with flights := s.flights.map (fun (f : Flight) => if f.id = id then { f with aux := [0, due, 1] } else f) }
    replay ((on (s.onTeam t.uid (fun t => { t with aux := t.aux.set 3 due })) .mwait).postOnce (.accessResponse id))
  | .saved (some .texit) => replay ((on s .texit).postOnce (.texitComplete t.uid))
  | .saved (some .setWait) => if t.wound then replay (on s .setWait)
      else replay (s.onTeam t.uid (fun t => { t with run := .running }))
  | .saved (some w) => replay (on s w)
  | _ =>
    if es.isEmpty then s.onTeam t.uid (fun t => { t with run := .running })
    else
      let s := s.onTeam t.uid (fun t => { t with run := .parked .tret, retPc := t.pc, aux := if t.handler then [1] else [] })
      settle (replay s) t.uid

/-- The scratch and tiles of an image go back to the core (R435). -/
def loadBack (s : State) (t : Team) (bs : List Byte) : State :=
  let b := t.rec0
  let tile (n : Nat) : Tile := (tileOfImage ((bs.drop (81984 * n)).take 81984)).getD Tile.zero
  let s := (List.range b.accN).foldl (fun s n => setTile s t.core (b.acc0 + n) (tile n)) s
  s.onCore t.core (fun c => { c with
    scratch := c.scratch.setBytes (256 * b.sbase) ((bs.drop (81984 * b.accN)).take (256 * b.ssize)) })

/-- The tile loads of a team that waited on a fault at its save go on (13 R312). -/
def resumeLoads (s : State) (u : Nat) : State := (s.flightsOf u).foldl (fun s f => match f.instr with
  | .acld _ => s.postOnce (.acldComplete f.id)
  | _ => s) s

/-- The operand images of some launches come back from their areas on a core. -/
def readOperands (s : State) (t : Team) : List Nat → Got State
  | [] => return s
  | l :: ls => do
    let s ← match kernelArea? s t.core l with
      | some a => do
        let bs ← t.agent.bytes s (a.base + 512) (512 + 256 * (kernelLines s t.core l).length)
        pure (loadOperands s t.core l t.ctx (hdrOf s t) bs)
      | none => pure s
    readOperands s t ls

/-- What the kernel core areas give back to the core before the first team restored there issues (10 R251, 13 R313). -/
def readAreas (s : State) (t : Team) : Got State := do
  let s ← match kernelArea? s t.core t.launch with
    | some a =>
      if kernelStays s t then pure s
      else do
        let bs ← t.agent.bytes s a.base 512
        pure (loadLatches s t.core t.launch (runLen s t.core t.launch) bs)
    | none => pure s
  if recordsStay s t then return s
  readOperands s t (uniq ((recTeams s t.core t.ctx (hdrOf s t)).map (fun x => x.launch)))

/-- What an image and the kernel core areas give back (R435, 10 R251, 13 R313). -/
def readImage (s : State) (t : Team) : Got State := do
  let b := t.rec0
  let bs ← t.agent.bytes s t.image (t.imgAt + 81984 * b.accN + 256 * b.ssize)
  let s ← readAreas (loadBack s t (bs.drop t.imgAt)) t
  return s.setTeam (t.fromImage (bs.take t.imgAt))

/-- A restored team is on its place again. -/
def restoreDone (s : State) (t : Team) : State :=
  let s := s.onRec t.core t.place (fun b => { b with st := .running })
  let s := s.onCore t.core (fun c => { c with obres := c.obres.map (fun r =>
    if ofAllot t (hdrOf s t) r then { r with own := t.place } else r) })
  resumeLoads (resumeCopies (resumeTeam s t) t) t.uid

/-- A restore that its context's switch-out overtakes is given up: the image stands in its place of the order (R128), and
firmware takes the record back (05 R112). -/
def giveUpRestore (s : State) (t : Team) : State :=
  (s.onTeam t.uid (fun u => { u with savedNo := u.savedAt })).post (.recordReclaim t.core t.place)

/-- RESTORE_COMPLETE (R435, 05 R119): scratch, tiles and registers are back, the kernel core area is reloaded for the first
team there, and issue resumes. It waits while the pool lines of the context are on their way out (10 R232). -/
def execRestoreComplete (u : Nat) (s : State) : Out :=
  match s.team? u with
  | none => .next s
  | some t =>
    let r := (s.core t.core).recs.getD t.place Bind.reset
    if r.st ≠ .saved || r.team ≠ u || t.savedNo ≠ 0 then .next s
    else if !isIn s t.ctx then .next (giveUpRestore s t)
    else if poolEnding s t.core t.ctx || imagePending s u then .next (s.postOnce (.restoreComplete u))
    else match readImage s t with
      | .ok s => .next (restoreDone s ((s.team? u).getD t))
      | .error (va, e) => match meetFault s t.core t.ctx va 0 0 (.restoreComplete u) e with
        | .wait s => .next s
        | .fail s _ _ => .next (restoreDone s t)

end Sys2Proof.Machine
end

