-- ==== Sys2Proof/Machine/Launch.lean ====
section
/-!
DEFINITION. Launches: the entry and its checks, placement and bind, dispatch, `texit` and the end of a kernel (05 R111-R121,
R133, R471, 02 R46-R57, 06 R137-R142, 19 R428, R436).
-/

namespace Sys2Proof.Machine

/-! ## The header (R114) -/

/-- A kept or inherited range at an offset of a header; none when its four bytes are 0xFF. -/
def rangeAt (bs : List Byte) (o : Nat) : Option (Nat × Nat × Nat × Nat) :=
  if numAt bs o 4 = 0xFFFFFFFF then none else some (numAt bs o 1, numAt bs (o + 1) 1, numAt bs (o + 2) 1, numAt bs (o + 3) 1)

/-- Whether a range is malformed. -/
def rangeBad : Option (Nat × Nat × Nat × Nat) → Bool
  | none => false
  | some (a, b, c, d) => decide (b < a) || decide (d < c) || decide (127 < d)

/-- The sum of the first n WID field widths. -/
def widSum (wid : List Nat) (n : Nat) : Nat := (wid.take n).foldl (· + ·) 0

/-- The width in bits of field 0 of WID: the least b0 with W ≤ 2^b0 (02 R46). -/
def log2Up (w : Nat) : Nat := ((List.range 11).find? (fun b => decide (w ≤ 2 ^ b))).getD 10

/-- The offsets at which a header is outside its limits (R115, code 0x03; 01 R21). -/
def headerBad (bs : List Byte) : List Nat :=
  let b (o : Nat) : Nat := numAt bs o 1
  let w := numAt bs 0 2
  let wid := (List.range 5).map (fun i => b (2 + i))
  let c := b 8 % 8
  let d := b 8 / 16 % 8
  let chk (o : Nat) (bad : Bool) : List Nat := if bad then [o] else []
  chk 0 (w = 0 || w % 32 ≠ 0 || 1024 < w) ++ chk 2 (wid.all (fun x => decide (x ≤ 63)) && decide (64 < log2Up w + widSum wid 5)) ++
  (List.range 5).flatMap (fun i => chk (2 + i) (63 < b (2 + i))) ++ chk 7 (5 < b 7) ++
  chk 8 ((b 8).testBit 3 || (b 8).testBit 7 || 5 < c || 5 < d || d < c) ++ chk 9 (1 < b 9) ++ chk 11 (4 < b 11) ++
  chk 12 (32 < b 12) ++ chk 13 (15 < b 13) ++ chk 14 (b 14 ≠ 0xFF && (b 14 < 16 || 111 < b 14)) ++ chk 15 (96 < b 15) ++
  chk 16 (393216 < numAt bs 16 4 || numAt bs 16 4 % 256 ≠ 0) ++ chk 20 (262144 < numAt bs 20 4 || numAt bs 20 4 % 256 ≠ 0) ++
  chk 24 (2 ^ 24 < numAt bs 24 4 || numAt bs 24 4 % 64 ≠ 0) ++ chk 28 (rangeBad (rangeAt bs 28)) ++
  chk 32 (rangeBad (rangeAt bs 32)) ++
  ((List.range 4).map (· + 36) ++ (List.range 208).map (· + 48)).filter (fun o => b o ≠ 0)

/-- The fields of a header. -/
def parseHeader (bs : List Byte) : Header :=
  let b (o : Nat) : Nat := numAt bs o 1
  { width := numAt bs 0 2, wid := (List.range 5).map (fun i => b (2 + i)), role := b 7, clev := b 8 % 8, dlev := b 8 / 16 % 8,
    leaf := (b 9).testBit 0, vregs := b 10 + 1, acc := b 11, lat := b 12, prio := b 13,
    qarg := if b 14 = 0xFF then none else some (b 14), nargs := b 15, scratch := numAt bs 16 4, obuf := numAt bs 20 4,
    undo := numAt bs 24 4, keep := rangeAt bs 28, inh := rangeAt bs 32, entry := BitVec.ofNat 64 (numAt bs 40 8) }

/-! ## Groups and what they need (02 R49, R50, R57, 06 R137) -/

/-- The teams of a full core group: those that agree above field c, or a hinge pair. -/
def Header.coreGroup (h : Header) : Nat :=
  let g := 2 ^ widSum h.wid h.clev
  if h.leaf && g = 1 then 2 else g

/-- The teams of a full die group. -/
def Header.dieGroup (h : Header) : Nat := max h.coreGroup (2 ^ widSum h.wid h.dlev)

/-- The scratch lines of a team. -/
def Header.lines (h : Header) : Nat := h.scratch / 256
/-- The operand-buffer lines of a team. -/
def Header.olines (h : Header) : Nat := h.obuf / 256
/-- The vector units of a team. -/
def Header.units (h : Header) : Nat := unitsOf h.width h.vregs

/-- How many times a need goes into a capacity; no limit for no need. -/
def goesInto (cap need : Nat) : Nat := if need = 0 then 16 else cap / need

/-- The number of teams of a kernel that an empty core holds. -/
def Header.coreCap (h : Header) : Nat :=
  min (4 * min 4 (goesInto 1024 h.units)) (min (goesInto 1536 h.lines) (min (goesInto 4 h.acc)
    (min (goesInto 1024 h.olines) (goesInto 32 h.lat))))

/-- Whether the groups of a launch fit their units (R50): a core group its core, and the core groups of a die group, the last of
which may have fewer teams, 64 cores. -/
def Header.fits (h : Header) (teams : Nat) : Bool :=
  let g := min teams h.coreGroup
  let perCore := h.coreCap / g
  let d := min teams h.dieGroup
  let full := d / g
  decide (g ≤ h.coreCap) && (h.dlev = 0 ||
    (decide (full ≤ 64 * perCore) && (d % g = 0 || decide ((full - 63 * perCore) * g + d % g ≤ h.coreCap))))

/-- Bytes rounded up to 4,096. -/
def pageUp (n : Nat) : Nat := (n + 4095) / 4096 * 4096

/-- The size of a team image area with its undo area (19 R436, 14 R323). -/
def Header.teamArea (h : Header) : Nat := imageRoom h.width h.vregs h.acc h.lines + pageUp h.undo

/-- The size of a kernel core area for n teams on the core (19 R436). -/
def Header.coreArea (h : Header) (n : Nat) : Nat := pageUp (1024 + 256 * (n * h.olines))

/-- The kernel core areas of n teams whose core groups stand side by side on as few cores as hold them. -/
def Header.coreAreas (h : Header) (teams n : Nat) : Nat :=
  let g := max 1 (min teams h.coreGroup)
  let per := max 1 (h.coreCap / g * g)
  n / per * h.coreArea per + (if n % per = 0 then 0 else h.coreArea (n % per))

/-- What a launch needs of the save pool when it holds nothing else (R115, code 0x0A), placed as in an empty device (R117): the die
groups apart where there are any. -/
def Header.poolNeed (h : Header) (teams : Nat) : Nat :=
  let d := if h.dlev = 0 then teams else max 1 (min teams h.dieGroup)
  teams * h.teamArea + teams / d * h.coreAreas teams d + h.coreAreas teams (teams % d)

/-! ## The entry (R113, R115) -/

/-- A launch ends with a status that firmware is to write. -/
def endLaunch (s : State) (id code : Nat) : State :=
  (s.onLaunch id (fun l => { l with phase := .ended, status := code })).postOnce (.launchStatusWrite id)

/-- LAUNCH_ENTRY_ARRIVAL (R113, R115, R471): firmware takes the entry, and refuses an unknown kind or a reserved flag. -/
def execLaunchEntryArrival (qn : Nat) (entry : List Word64) (s : State) : Out :=
  let w (j : Nat) : Word64 := entry.getD j 0
  let kind := bitsN (w 0).toNat 15 0
  let flags := bitsN (w 0).toNat 31 16
  match s.queue? qn with
  | none => .next (countFault s 0)
  | some q =>
    let die := q.slice / 64
    if s.hub.updating.contains die then .next (s.post (.launchEntryArrival qn entry))
    else match s.ctx? q.ctx with
      | none => .next (countFault s die)
      | some _ =>
        let id := s.nextId
        let l : Launch :=
          { id := id, ctx := q.ctx, die := die, hdrA := w 1, args := w 2, done := w 3, teams := bitsN (w 0).toNat 63 32,
            follow := flags.testBit 0, hdr := none, phase := .arrived, status := 0, sent := false }
        let s := { s with nextId := id + 1, launches := s.launches ++ [l] }
        if kind ≠ 1 then .next (endLaunch s id 0x04)
        else if 1 < flags then .next (endLaunch s id (0x0B + 256 * (if flags % 256 / 2 ≠ 0 then 2 else 3)))
        else .next (s.post (.headerFetch id))

/-! ## The checks of the header (R115-R117) -/

/-- The held ranges of a launch. -/
def holdsOf (s : State) (ctx launch : Nat) : List KeepHold := s.keeps.filter (fun k => k.ctx = ctx && k.launch = launch)

/-- The predecessor of a launch: that of its bound teams, else the context's current hold (06 R141). -/
def predOf (s : State) (l : Launch) : Option Nat := match l.pred with
  | some p => some p
  | none => (s.ctx? l.ctx).bind (fun c => c.hold)

/-- Whether inheritance is refused (06 R142). -/
def inheritBad (s : State) (l : Launch) (h : Header) : Bool :=
  match predOf s l, h.inh with
  | some p, some r =>
    let ks := (holdsOf s l.ctx p).filter (fun k => decide (k.index < l.teams))
    ks.length ≠ l.teams || ks.any (fun k => k.range ≠ r || k.width ≠ h.width || decide (h.vregs ≤ k.range.2.1))
  | _, _ => true

/-- Whether the queue argument is not a queue of the context (R115, code 0x06). -/
def qargBad (s : State) (l : Launch) (h : Header) : Got Bool :=
  match h.qarg with
  | none => .ok false
  | some r =>
    if h.nargs ≤ r - 16 then .ok true
    else match (hubAgent l.ctx).rd s (l.args.toNat + 8 * (r - 16)) 8 with
      | .error e => .error e
      | .ok q => .ok (!(s.queue? q).any (fun x => x.ctx = l.ctx))

/-- The checks of a launch whose header is known: the status, or 0 (R115). Of several that fail, the first in this order gives the
status (DESIGN CHOICE: the spec gives no order, log 45): count, groups, entry and argument block, queue argument, save pool,
inheritance. -/
def launchCheck (s : State) (l : Launch) (h : Header) : Got Nat :=
  if l.teams = 0 || 2 ^ widSum h.wid 5 < l.teams || (h.leaf && l.teams % 2 ≠ 0) then .ok 0x01
  else if !h.fits l.teams then .ok 0x02
  else match piecesOf s 256 l.ctx .fetch h.entry.toNat 4 with
    | .error .absent => .error (h.entry.toNat, .absent)
    | .error _ => .ok 0x07
    | .ok _ => match (if h.nargs = 0 then .ok [] else (hubAgent l.ctx).bytes s l.args.toNat (8 * h.nargs)) with
      | .error (va, .absent) => .error (va, .absent)
      | .error _ => .ok 0x07
      | .ok _ => match qargBad s l h with
        | .error e => .error e
        | .ok true => .ok 0x06
        | .ok false =>
          let room := match s.ctx? l.ctx with
            | some c => c.savesz
            | none => 0
          if room < h.poolNeed l.teams then .ok 0x0A
          else if l.follow && inheritBad s l h then .ok 0x05
          else .ok 0

/-- The template of a launch that the die has loaded (R117). -/
def templateOf (s : State) (l : Launch) : Option Template :=
  s.temps.find? (fun x => x.die = l.die && x.hdrA = l.hdrA && x.ctx = l.ctx && x.teams = l.teams)

/-- The core and record of team i in an empty device (R117): core groups side by side on a core, the cores of a die group on one
die, and the teams of a core over its slots in turn. -/
def Header.planOf (h : Header) (teams i : Nat) : Nat × Nat :=
  let g := max 1 (min teams h.coreGroup)
  let perCore := max 1 (h.coreCap / g)
  let group := i / g
  let rank := group % perCore * g + i % g
  let core :=
    if h.dlev = 0 then group / perCore
    else
      let per := max 1 (h.dieGroup / g)
      let cores := max 1 ((per + perCore - 1) / perCore)
      let perDie := max 1 (64 / cores)
      let d := group / per
      d / perDie % 4 * 64 + d % perDie * cores + group % per / perCore
  (core % 256, rank % 4 * 4 + rank / 4 % 4)

/-- The template of a launch: the loaded one, or a new one with its placement computed (R117). -/
def templateFor (s : State) (l : Launch) (h : Header) : Template := (templateOf s l).getD
  { die := l.die, hdrA := l.hdrA, ctx := l.ctx, teams := l.teams, hdr := h,
    places := (List.range l.teams).map (h.planOf l.teams) }

/-- A template is used: it is the die's most recent one, and 64 stay loaded. -/
def useTemplate (s : State) (x : Template) : State :=
  let mine := x :: (s.temps.filter (fun y => y.die = x.die)).filter (fun y => y ≠ x)
  { s with temps := mine.take 64 ++ s.temps.filter (fun y => y.die ≠ x.die) }

/-- The header of a launch: the copy of its template, or its bytes (R117). -/
def headerOf (s : State) (l : Launch) : Got (Except Nat Header) :=
  match templateOf s l with
  | some x => .ok (.ok x.hdr)
  | none => match (hubAgent l.ctx).bytes s l.hdrA.toNat 256 with
    | .error e => .error e
    | .ok bs => match headerBad bs with
      | o :: os => .ok (.error (os.foldl min o))
      | [] => .ok (.ok (parseHeader bs))

/-- HEADER_FETCH (R115, R117): the header is read unless its template is loaded, and the launch is checked. An absent page is
first serviced. -/
def execHeaderFetch (id : Nat) (s : State) : Out :=
  match s.launch? id with
  | none => .next s
  | some l =>
    if l.phase ≠ .arrived then .next s
    else if s.hub.updating.contains l.die then .next (s.post (.headerFetch id))
    else if (s.ctx? l.ctx).isNone then
      .next (countFault { s with launches := s.launches.filter (fun x => x.id ≠ id) } l.die)
    else
      let meet (va : Nat) (e : Tr) : State := match meetFault s (dieAgent l.die) l.ctx va 0 0 (.headerFetch id) e with
        | .wait s => s
        | .fail s _ _ => endLaunch s id 0x07
      match headerOf s l with
      | .error (va, e) => .next (meet va e)
      | .ok (.error o) => .next (endLaunch s id (0x03 + 256 * o))
      | .ok (.ok h) => match launchCheck s l h with
        | .error (va, e) => .next (meet va e)
        | .ok 0 =>
          let s := useTemplate s (templateFor s l h)
          .next ((s.onLaunch id (fun l => { l with hdr := some h, phase := .checked })).post (.teamPlacement id []))
        | .ok c => .next (endLaunch s id c)

/-! ## Held ranges and the save pool (06 R141, R142, 19 R436) -/

/-- A free part of a context's save pool. -/
def carve (s : State) (c : Context) (n : Nat) : Option Nat :=
  (firstFit c.savesz ((s.areas.filter (fun a => a.ctx = c.num)).map (fun a => (a.base - c.savep, a.size))) n).map (· + c.savep)

/-- A kernel core area for one team more on a core: carved at the kernel's first bind there, and carved anew, with the address in
every record of the kernel there, where the sum of the teams' operand lines outgrows it (19 R436, log 18). -/
def kernelCarve (s : State) (c : Context) (l : Launch) (h : Header) (core : Nat) : Option (State × Nat) :=
  let ts := kernelTeams s core l.id
  let n := h.coreArea (ts.length + 1)
  match kernelArea? s core l.id with
  | some a =>
    if n ≤ a.size then some (s, a.base)
    else
      let s := freeArea s c.num a.base
      (carve s c n).map (fun b =>
        let s := { s with areas := s.areas ++ [{ a with base := b, size := n }] }
        (ts.foldl (fun s t => (if (s.bind t).team = t.uid then s.onRec core t.place (fun r => { r with kimg := b }) else s).onTeam
          t.uid (fun t => { t with rec0 := { t.rec0 with kimg := b } })) s, b))
  | none => (carve s c n).map (fun b =>
      ({ s with areas := s.areas ++ [{ ctx := c.num, base := b, size := n, team := 0, launch := l.id, core := core, lats := 0 }] },
       b))

/-! ## Binding (R118, R119) -/

/-- The initial registers and control registers of a team (R114, R120, 06 R140, 19 R423). -/
def newTeam (s : State) (l : Launch) (h : Header) (c : Context) (i core place image undob : Nat) : Team :=
  let sum (n : Nat) : Nat := widSum h.wid n
  let role := if h.role = 0 then 0 else i / 2 ^ sum (h.role - 1) % 2 ^ h.wid.getD (h.role - 1) 0
  let prio := min h.prio c.ceil
  let t : Team := {
    uid := s.nextId, launch := l.id, ctx := c.num, core := core, place := place, width := h.width, nv := h.vregs, index := i,
    widt := BitVec.ofNat 64 (i * 2 ^ log2Up h.width), leaf := if h.leaf then i % 2 else 2, partner := 0, pc := h.entry,
    s := List.replicate 128 { val := 0, full := true },
    v := List.replicate h.vregs { tag := .uni, full := true, lanes := List.replicate h.width 0 },
    p := List.replicate 23 (List.replicate h.width false), status := 1, trapv := c.trapv, trapa := 0, prio := prio,
    prioMax := prio, role := BitVec.ofNat 64 role, ydl := noDeadline, undob := BitVec.ofNat 64 (if h.undo = 0 then 0 else undob),
    undol := BitVec.ofNat 64 h.undo, ctxs := BitVec.ofNat 64 c.recA, chainb := c.chainb, seqb := c.seqb, surfb := c.surfb,
    run := .ready, handler := false, wound := false, armed := false, task := none, sets := List.replicate 8 SetSlot.zero,
    uses := [], holds := [], mwEnd := .none, pending := [], held := [], due := none, part := none, retPc := 0, rdst := [], aux := [],
    image := image, forced := false, entries := [], savedNo := 0, rec0 := Bind.reset, imgAt := 0 }
  t.maskAll

/-- The kept range of a predecessor in its successor (06 R141). -/
def Team.inherit (t : Team) (k : KeepHold) : Team :=
  let (a, b, c, d) := k.range
  { t with v := t.v.take a ++ k.vregs ++ t.v.drop (b + 1), s := t.s.take c ++ k.sregs ++ t.s.drop (d + 1) }

/-- The slots of a core that are in service and have an empty record. -/
def openSlots (s : State) (core : Nat) : List Nat :=
  (List.range 4).filter (fun n => !s.hub.sparedSlots.contains (core, n) && (emptyPlace s core n).isSome)

/-- The partner of a leaf that is bound, or was (02 R57). -/
def partnerOf (s : State) (l : Launch) (h : Header) (i : Nat) : Option Team :=
  if h.leaf then s.teams.find? (fun t => t.launch = l.id && t.index = i + 1 - 2 * (i % 2)) else none

/-- The held range that team i of a launch binds to. -/
def holdFor (s : State) (l : Launch) (i : Nat) : Option KeepHold :=
  if l.follow then (predOf s l).bind (fun p => (holdsOf s l.ctx p).find? (fun k => k.index = i)) else none

/-- The base in a slot's vector file for a new team: its predecessor's, or the first free one (06 R137, R141). -/
def vbaseFor (s : State) (core slot units : Nat) : Option KeepHold → Option Nat
  | some k =>
    let s := { s with keeps := s.keeps.filter (fun x => x ≠ k) }
    if k.core = core && slotOf k.place = slot && roomFor 1024 (takenUnits s core slot) k.vbase units then some k.vbase else none
  | none => firstFit 1024 (takenUnits s core slot) units

/-- Operand lines that a new team of a launch may not have: those of kernels that hold some, and of its own saved teams. -/
def takenOperands (s : State) (core launch : Nat) : Spans := operandSpans (kernelRecs s core ++ kernelTeams s core launch)

/-- The positions of a launch's latch run on a core that its teams have, those that have ended included (10 R251). One that left
unstarted leaves its positions to the next bind. -/
def takenLatches (s : State) (core launch : Nat) : Spans :=
  (s.teams.filter (fun t => t.core = core && t.launch = launch)).map (fun t => (t.rec0.lat0, t.rec0.latN))

/-- A team is bound at a place: its record is written `ready`, its areas are carved, its latches join the kernel's run, and its
tiles stand as after `acz` (R118, R119, 19 R436, 10 R251, 13 R292). -/
def bindAt (s : State) (l : Launch) (h : Header) (c : Context) (i core place : Nat) : Option State := do
  let k := holdFor s l i
  let mine := if (kernelTeams s core l.id).isEmpty then [] else takenLatches s core l.id
  let run ← firstFit 32 mine h.lat
  let lats := max ((s.core core).latches.filter (fun x => x.launch = l.id)).length (run + h.lat)
  if ((s.core core).recs.getD place Bind.reset).st ≠ .empty || poolEnding s core c.num || (l.follow && k.isNone) ||
    !latchRoom s core l.id lats || s.hub.sparedSlots.contains (core, slotOf place) ||
    s.hub.updating.contains (dieOf core) then none
  else
    let vb ← vbaseFor s core (slotOf place) h.units k
    let sb ← firstFit 1536 (takenLines s core) h.lines
    let ob ← firstFit 1024 (takenOperands s core l.id) h.olines
    let ac ← firstFit 4 (takenTiles s core) h.acc
    let img ← carve s c h.teamArea
    let u := s.nextId
    let area : PoolArea := { ctx := c.num, base := img, size := h.teamArea, team := u, launch := l.id, core := core, lats := 0 }
    let (s, kb) ← kernelCarve { s with areas := s.areas ++ [area] } c l h core
    let undob := img + imageRoom h.width h.vregs h.acc h.lines
    let r : Bind := { st := .ready, team := u, vbase := vb, sbase := sb, ssize := h.lines, obase := ob, osize := h.olines,
                      acc0 := ac, accN := h.acc, lat0 := run, latN := h.lat, kimg := kb,
                      inh := match k with
                        | some k => 16 + k.place
                        | none => 0 }
    let t := { newTeam s l h c i core place img undob with rec0 := r }
    let mate := partnerOf s l h i
    let t := { t with partner := match mate with
      | some m => m.uid
      | none => 0 }
    let t := match k with
      | some k => t.inherit k
      | none => t
    let s := { s with nextId := u + 1, teams := s.teams ++ [t] }
    let s := match mate with
      | some m => s.onTeam m.uid (fun x => { x with partner := u })
      | none => s
    let s := s.onRec core place (fun _ => r)
    let s := { s with areas := s.areas.map (fun (a : PoolArea) =>
      if a.team = 0 && a.launch = l.id && a.core = core then { a with lats := max a.lats (run + h.lat) } else a) }
    let s := s.onCore core (fun x => { x with latches := x.latches.filter (fun y => !(y.launch = l.id && run ≤ y.num &&
      y.num < run + h.lat)) ++ (List.range h.lat).map (fun n =>
      { launch := l.id, num := run + n, count := 0, target := 1, phase := false, ovr := false }) })
    let s := (List.range h.acc).foldl (fun s n => setTile s core (ac + n) Tile.zero) s
    let s := match k with
      | some k => (releaseHolds s (fun x => x = k)).onLaunch l.id (fun x => { x with pred := some k.launch })
      | none => s
    let s := if h.undo = 0 then s else match writeVA s 256 c.num undob (List.replicate 64 0) with
      | .ok s => s
      | .error _ => s
    some (offerRestores ((dropRestores s core place u).post (.dispatchStart core place)) core)

/-- A team is bound on a core: on its predecessor's slot, apart from its partner's slot, else on the first slot that holds it. -/
def bindOn (s : State) (l : Launch) (h : Header) (c : Context) (i core : Nat) : Option State :=
  let apart (n : Nat) : Bool := match partnerOf s l h i with
    | some m => slotOf m.place ≠ n
    | none => true
  let like (n : Nat) : Bool := match holdFor s l i with
    | some k => slotOf k.place = n
    | none => true
  ((openSlots s core).filter (fun n => apart n && like n)).findSome? (fun n =>
    (emptyPlace s core n).bind (fun p => bindAt s l h c i core p))

/-- The members of a core group are bound together (R50). -/
def bindGroup (l : Launch) (h : Header) (c : Context) (core : Nat) : List Nat → State → Option State
  | [], s => some s
  | i :: is, s => match bindOn s l h c i core with
    | some s => bindGroup l h c core is s
    | none => none

/-- The members of a core group are bound at given places. -/
def bindPlaces (l : Launch) (h : Header) (c : Context) : List (Nat × Nat × Nat) → State → Option State
  | [], s => some s
  | (i, core, place) :: xs, s =>
    let apart := match partnerOf s l h i with
      | some m => slotOf m.place ≠ slotOf place
      | none => true
    if !apart || 16 ≤ place || 256 ≤ core then none
    else match bindAt s l h c i core place with
      | some s => bindPlaces l h c xs s
      | none => none

/-! ## Placement (R112, R121, 02 R49, R50) -/

/-- The teams of a launch that are bound, or were. -/
def boundTeams (s : State) (id : Nat) : List Team := s.teams.filter (fun t => t.launch = id)

/-- The first team of a launch that is not bound. -/
def firstUnbound (s : State) (l : Launch) : Option Nat :=
  let used := (boundTeams s l.id).map (fun t => t.index)
  ((List.range (used.length + 1)).find? (fun i => !used.contains i)).bind (fun i => if i < l.teams then some i else none)

/-- The unbound members of the core group of a team. -/
def groupOf (s : State) (l : Launch) (h : Header) (i : Nat) : List Nat :=
  let g := min l.teams h.coreGroup
  let used := (boundTeams s l.id).map (fun t => t.index)
  ((List.range g).map (· + i / g * g)).filter (fun j => decide (j < l.teams) && !used.contains j)

/-- The cores that may hold the group of a team: that of its members that are bound or were, that of its predecessor, those of its
die group's die; of a core whose teams of the kernel are all saved, none. -/
def coresFor (s : State) (l : Launch) (h : Header) (i : Nat) : List Nat :=
  let same (g : Nat) : List Team := (boundTeams s l.id).filter (fun t => t.index / g = i / g)
  let die (n : Nat) : Bool := h.dlev = 0 || (same h.dieGroup).all (fun t => dieOf t.core = dieOf n)
  let group (n : Nat) : Bool := (same h.coreGroup).all (fun t => t.core = n)
  let like (n : Nat) : Bool := match holdFor s l i with
    | some k => k.core = n
    | none => true
  let free (n : Nat) : Bool :=
    let ts := kernelTeams s n l.id
    ts.isEmpty || ts.any Team.resident
  (List.range 256).filter (fun n => group n && die n && like n && free n)

/-- The group bound where its launch's template says (R117), when every member can be. -/
def placePlanned (s : State) (l : Launch) (h : Header) (c : Context) (is : List Nat) (cores : List Nat) : Option State :=
  match templateOf s l with
  | none => none
  | some x =>
    let ps := is.map (fun i => (i, x.places.getD i (256, 16)))
    if ps.any (fun p => !cores.contains p.2.1 || some p.2.1 ≠ ps.head?.map (fun q => q.2.1)) then none
    else bindPlaces l h c ps s

/-- A team bound on a slot of a core whose held ranges are released for it, with their areas (06 R142). -/
def bindOver (s : State) (l : Launch) (h : Header) (c : Context) (i core slot : Nat) : Option State :=
  let goes (k : KeepHold) : Bool := k.core = core && slotOf k.place = slot && !claimed s k &&
    !(l.follow && predOf s l = some k.launch && k.ctx = c.num)
  if !s.keeps.any goes then none
  else (emptyPlace s core slot).bind (fun p => (bindAt { s with keeps := s.keeps.filter (fun k => !goes k) } l h c i core p).map
    (fun r => (s.keeps.filter goes).foldl (fun r k => freeArea r k.ctx k.image) r))

/-- The members of a core group bound on a core; one that finds no slot takes the held ranges of a slot (06 R142). -/
def bindReleasing (l : Launch) (h : Header) (c : Context) (core : Nat) : List Nat → State → Option State
  | [], s => some s
  | i :: is, s =>
    let apart (n : Nat) : Bool := match partnerOf s l h i with
      | some m => slotOf m.place ≠ n
      | none => true
    match (match bindOn s l h c i core with
      | some s => some s
      | none => ((openSlots s core).filter apart).findSome? (bindOver s l h c i core)) with
    | some s => bindReleasing l h c core is s
    | none => none

/-- Firmware's choice for a group: the place of its template, else a core that holds it, else one that does without its held
ranges. -/
def placeGroup (s : State) (l : Launch) (h : Header) (c : Context) (is : List Nat) (cores : List Nat) : Option State :=
  match placePlanned s l h c is cores with
  | some s => some s
  | none => match cores.findSome? (fun n => bindGroup l h c n is s) with
    | some s => some s
    | none => cores.findSome? (fun n => bindReleasing l h c n is s)

/-- A resident team that firmware pre-empts for a launch: one of the lowest ceiling on the cores it may use (R125). -/
def victimFor (s : State) (l : Launch) (cores : List Nat) : Option Ev :=
  let up := ceilOf s l.ctx
  let ts := s.teams.filter (fun t => t.resident && cores.contains t.core && t.ctx ≠ l.ctx && decide (ceilOf s t.ctx ≤ up))
  if ts.any (fun t => t.ydl ≠ noDeadline || s.agenda.contains (.preemptRequest t.uid) || s.agenda.contains (.timesliceExpiry t.uid))
  then none
  else (ts.foldl (fun (b : Option Team) t => match b with
    | none => some t
    | some x => if ceilOf s t.ctx < ceilOf s x.ctx then some t else some x) none).map (fun t =>
      if ceilOf s t.ctx < up then .preemptRequest t.uid else .timesliceExpiry t.uid)

/-- A group that does not fit waits: a team of a context that is not above makes room (R125). -/
def placementWaits (s : State) (l : Launch) (cores : List Nat) : State :=
  match victimFor s l cores with
  | some e => s.postOnce e
  | none => s

/-- TEAM_PLACEMENT (R119, R121, 02 R49-R51, R57): one core group of the launch is bound, at the given places or at those of
firmware's choice. Inheritance is refused before any team is bound (06 R142); a place that is not empty is refused and counted. -/
def execTeamPlacement (id : Nat) (places : List (Nat × Nat)) (s : State) : Out :=
  match s.launch? id with
  | none => .next s
  | some l => match l.hdr, s.ctx? l.ctx with
    | some h, some c =>
      if l.phase ≠ .checked || !c.isIn then .next s
      else if s.hub.updating.contains l.die then .next (s.postOnce (.teamPlacement id places))
      else match firstUnbound s l with
        | none => .next (s.onLaunch id (fun l => { l with phase := .placed }))
        | some i =>
          let is := groupOf s l h i
          let cores := coresFor s l h i
          let s := if places.any (fun p => ((s.core p.1).recs.getD p.2 Bind.reset).st ≠ .empty) then countFault s l.die else s
          if l.follow && (boundTeams s id).isEmpty && inheritBad s l h then .next (endLaunch s id 0x05)
          else
            let got := if places.isEmpty then placeGroup s l h c is cores
              else if places.length ≠ is.length || places.any (fun p => !cores.contains p.1 || some p.1 ≠ (places.head?).map (fun q => q.1))
              then none else bindPlaces l h c (is.zip places) s
            match got with
            | none => .next (placementWaits s l cores)
            | some s => .next (s.post (.teamPlacement id []))
    | _, _ => .next s

/-! ## Dispatch (R120) -/

/-- The arguments of a team that are loaded: those whose registers are not inherited (06 R140, R141). -/
def argsOf (l : Launch) (h : Header) : List Nat := (List.range h.nargs).filter (fun j => match l.follow, h.inh with
  | true, some (_, _, c, d) => !(decide (c ≤ 16 + j) && decide (16 + j ≤ d))
  | _, _ => true)

/-- DISPATCH_START (R119, R120): the team starts; its arguments are empty until their bytes arrive. -/
def execDispatchStart (core place : Nat) (s : State) : Out :=
  let r := (s.core core).recs.getD place Bind.reset
  match s.team? r.team with
  | none => .next s
  | some t => match (s.launch? t.launch).bind (fun l => l.hdr.map (argsOf l)) with
    | none => .next s
    | some js =>
      if r.st ≠ .ready || t.run ≠ .ready then .next s
      else if poolEnding s core t.ctx || s.hub.updating.contains (dieOf core) then .next (s.post (.dispatchStart core place))
      else
        let s := s.onRec core place (fun b => { b with st := .running })
        let s := s.setTeam { js.foldl (fun t j => t.setSFull (16 + j) false) t with run := .running }
        .next (js.foldl (fun s j => s.post (.argumentArrival t.uid j)) s)

/-- ARGUMENT_ARRIVAL (R114, R120): the 8 bytes of an argument arrive, and its register is full. -/
def execArgumentArrival (u j : Nat) (s : State) : Out :=
  match s.team? u with
  | none => .next s
  | some t => match s.launch? t.launch with
    | none => .next s
    | some l =>
      let va := l.args.toNat + 8 * j
      let fill (s : State) (x : Word64) : State := s.onTeam u (fun t => (t.setS (16 + j) x).setSFull (16 + j) true)
      if t.run = .done || t.sfull (16 + j) then .next s
      else match t.agent.rd s va 8 with
        | .ok x => .next (fill s (BitVec.ofNat 64 x))
        | .error (a, e) => match meetFault s t.core t.ctx a 0 0 (.argumentArrival u j) e with
          | .wait s => .next s
          | .fail s code cause => .next (addPending (fill s (t.sval (16 + j))) u (engineTrap code (cause * 256) a []))

/-! ## The end of a team (R133) -/

/-- Whether the other leaf of a pair has still to end, bound or not. -/
def mateStays (s : State) (t : Team) : Bool :=
  t.leaf ≠ 2 && (s.launch? t.launch).any (fun l => l.phase ≠ .ended) &&
  !(boundTeams s t.launch).any (fun x => x.index = t.index + 1 - 2 * (t.index % 2) && (x.run = .done || x.run = .stopped))

/-- The lease of a team's holder ends with its last team, and the pintle of a pair passes to the other leaf (02 R57). -/
def leaveLease (s : State) (t : Team) : State :=
  let key := leaseKey t
  let s := withdrawLease s t
  if mateStays s t then (if pintleOf s t = t.leaf then passPintle s t (1 - t.leaf) else s)
  else
    let s := if (s.core t.core).lease.holder = some key then endLease s t.core false else s
    let s := onLease s t.core (fun l => { l with lost := l.lost.filter (fun x => x.key ≠ key) })
    s.onCore t.core (fun c => { c with pintle := c.pintle.filter (fun p => p.1 ≠ key) })

/-- The core area of a team's kernel is released. -/
def dropKernelArea (s : State) (t : Team) : State :=
  { s with areas := s.areas.filter (fun a => !(a.team = 0 && a.launch = t.launch && a.core = t.core)) }

/-- The kernel leaves a core with its last resident team: its latches, records and lines are freed, or go to the core areas
while saved teams remain (10 R251, 13 R295, R313). -/
def leaveKernel (s : State) (t : Team) : State :=
  let s := if t.savedNo ≠ 0 then s else leaveCore (Got.state s (leaveAreas s t true)) t
  if (kernelTeams s t.core t.launch).any (fun x => x.uid ≠ t.uid) then s else dropKernelArea (dropLatches s t.core t.launch) t

/-- The range that an armed team holds for its successor (06 R141). -/
def keepOf (t : Team) (h : Header) (vbase : Nat) : Option KeepHold :=
  if !t.armed then none
  else h.keep.map (fun (a, b, c, d) =>
    let vs := (t.v.take (b + 1)).drop a
    { ctx := t.ctx, launch := t.launch, index := t.index, core := t.core, place := t.place, width := t.width, vbase := vbase,
      units := vs.length * (t.width / 32), range := (a, b, c, d), vregs := vs, sregs := (t.s.take (d + 1)).drop c,
      image := t.image })

/-- The kept scalars in the scalar section of the image area (06 R141). -/
def putKept (s : State) (t : Team) (k : KeepHold) : Got State :=
  t.agent.put s (t.image + 512 + 8 * k.range.2.2.1) (k.sregs.flatMap (fun r => leBytes 8 r.val.toNat))

/-- An absent page that the end of a team needs: a pool table of its uses, its kernel's core area, or its kept scalars. -/
def endAbsent (s : State) (t : Team) (k : Option KeepHold) : Option Nat :=
  let area : Got State := if t.savedNo ≠ 0 then .ok s else leaveAreas s t true
  let kept : Got State := match k with
    | some k => putKept s t k
    | none => .ok s
  match usesAbsent s t, area, kept with
  | some va, _, _ => some va
  | none, .error (va, .absent), _ => some va
  | none, _, .error (va, .absent) => some va
  | _, _, _ => none

/-- A team's place, tiles, records, scratch, uses and areas are free; `k` is what it holds for a successor (R133, steps 4 and 5,
17 R387). -/
def freeTeam (s : State) (t : Team) (k : Option KeepHold) : State :=
  let hdr := hdrOf s t
  let s := leaveLease (dropUses s t) t
  let s := s.onCore t.core (fun c => { c with obres := c.obres.filter (fun r => !ofAllot t hdr r) })
  let s := dropRestores s 256 16 t.uid
  let s := if (s.bind t).team = t.uid then
      { s with agenda := s.agenda.filter (fun e => e ≠ Ev.recordReclaim t.core t.place) }.onRec t.core t.place (fun _ => Bind.reset)
    else s
  let s := s.onTeam t.uid (fun t => { t with run := .done, aux := [], due := none, pending := [], held := [], holds := [] })
  let s := leaveKernel s t
  let s := match k with
    | some k =>
      let s := { s with keeps := s.keeps ++ [k] }
      Got.state s (putKept s t k)
    | none => freeArea s t.ctx t.image
  wakeLaunches (offerRestores (leavePlace s t) t.core)

/-- When every team has ended by `texit`, the kernel has ended, and its armed ranges are its context's hold (R38, 06 R141). -/
def endKernel (s : State) (l : Launch) : State :=
  let ts := boundTeams s l.id
  if l.phase = .ended || (firstUnbound s l).isSome || ts.any (fun t => t.run ≠ .done) then s
  else
    let s := if (holdsOf s l.ctx l.id).isEmpty then s
      else (releaseHolds s (fun k => k.ctx = l.ctx && k.launch ≠ l.id &&
          (s.ctx? l.ctx).any (fun c => c.hold = some k.launch) && !claimed s k)).onCtx l.ctx (fun c => { c with hold := some l.id })
    endLaunch s l.id 0

/-- Whether every write of a team has been performed, with the arrivals that follow (R133, step 3), and nothing of its own is
under way. -/
def exitReady (s : State) (t : Team) : Bool :=
  let c := s.core t.core
  t.allFull && (s.flightsOf t.uid).isEmpty && !s.writes.any (fun w => w.team = t.uid) &&
  !s.pushes.any (fun m => m.team = t.uid && m.kind ≠ .fragment) &&
  !s.queues.any (fun q => q.pushers.any (fun m => m.team = t.uid)) && !c.copies.any (fun k => k.team = t.uid) &&
  !c.lines.any (fun l => l.team = t.uid && (l.st = .filling || l.st = .evicting)) && !c.engine.any (fun m => m.team = t.uid) &&
  !s.agenda.any (fun e => match e with
    | .latchArrival core launch _ _ => core = t.core && launch = t.launch
    | _ => false)

/-- TEXIT_COMPLETE (R133): the waits of `texit` are over, and what the team holds is released. A trap that a failing write
made pending meanwhile is delivered first, and `texit` issues again. -/
def execTexitComplete (u : Nat) (s : State) : Out :=
  match s.team? u with
  | none => .next s
  | some t =>
    if t.run ≠ .parked .texit then .next s
    else if !t.handler && !t.pending.isEmpty then .next (s.setTeam { t with run := .running })
    else if !exitReady s t then .next (s.postOnce (.texitComplete u))
    else
      let l := s.launch? t.launch
      let k := l.bind (fun l => l.hdr.bind (fun h => keepOf t h (s.bind t).vbase))
      let go (s : State) : State := match l with
        | none => freeTeam s t k
        | some l => endKernel (freeTeam s t k) l
      match endAbsent s t k with
      | none => .next (go s)
      | some va => match meetFault s t.core t.ctx va 0 0 (.texitComplete u) .absent with
        | .wait s => .next s
        | .fail s _ _ => .next (go s)

/-- `texit` (R133): the implicit `tend`, then the waits. A pass that the team left open is closed (18 R420). -/
def effTexit (c : C) (s : State) : Eff :=
  endTask [] (fun s => .wait (((closeOwnPasses s c.t.uid).onTeam c.t.uid (fun t => { t with run := .parked .texit })).post
    (.texitComplete c.t.uid))) c s

/-- TEXIT (R133). -/
def execTexit (x : Ext) (s : State) : Out := issueExt (.texit x) 0x40 8 x (onGo effTexit) s

/-! ## The status (R116, R471) and the end of a kernel by firmware (R127, 19 R428) -/

/-- Firmware ends a team without `texit`: its stores to sets are rolled back (14 R330), and its copies are treated under 10 R472.
Where firmware declined a page that this needs (`force`), what lies there stays as it is. -/
def killTeam (force : Bool) (s : State) (t : Team) : Got State :=
  match (if force then none else endAbsent s t none), rollback force (drainSets s t) t with
  | some va, _ => .error (va, .absent)
  | none, .error e => .error e
  | none, .ok s =>
    let s := killCopies (dropUses s t) t
    let ids := (s.flightsOf t.uid).map (fun f => f.id)
    let s := dropRequests s t.uid ids
    let s := ids.foldl clearWait { s with flights := s.flights.filter (fun f => f.team ≠ t.uid) }
    let s := leaveQueues (releaseHasps s t.uid (fun _ => true)) t.uid (fun _ => true)
    let s := s.onCore t.core (fun c => { c with engine := c.engine.filter (fun m => m.team ≠ t.uid) })
    .ok (freeTeam (closeOwnPasses s t.uid) ((s.team? t.uid).getD t) none)

/-- The teams in turn, until one waits for a page. -/
def killTeams (force : Bool) : List Team → State → Got State
  | [], s => .ok s
  | t :: ts, s => match killTeam force s t with
    | .ok s => killTeams force ts s
    | .error e => .error e

/-- Whether a pass that a team of a launch opened has not committed its last tile (R116, R420). -/
def passesOpen (s : State) (id : Nat) : Bool :=
  s.passes.any (fun p => (p.isOpen || p.closing) && (boundTeams s id).any (fun t => t.uid = p.opener))

/-- Whether a `tevict` of a launch's teams has still to write its line back (R133, step 3). -/
def evicting (s : State) (id : Nat) : Bool :=
  s.cores.any (fun c => c.lines.any (fun l => l.st = .evicting && (boundTeams s id).any (fun t => t.uid = l.team)))

/-- The status is written, or dropped: the launch is over, and the context's vector is raised (R471, 20 R442). -/
def launchOver (s : State) (l : Launch) : State :=
  let s := { s with launches := s.launches.filter (fun x => x.id ≠ l.id), teams := s.teams.filter (fun t => t.launch ≠ l.id) }
  let s := releaseHolds s (fun k => l.pred = some k.launch && k.ctx = l.ctx &&
    !(s.ctx? l.ctx).any (fun c => c.hold = some k.launch) && !claimed s k)
  match s.ctx? l.ctx with
  | some c => raiseVec s c.msix
  | none => s

/-- LAUNCH_STATUS_WRITE (R115, R116, R471): the kernel's other teams are ended, their writes are performed, its passes are over, and
the status is written as a release of scope `dev`. -/
def execLaunchStatusWrite (id : Nat) (s : State) : Out :=
  match s.launch? id with
  | none => .next s
  | some l =>
    let retry : Ev := .launchStatusWrite id
    if l.phase ≠ .ended then .next s
    else if (s.ctx? l.ctx).isNone then .next (countFault (launchOver s l) l.die)
    else if s.hub.updating.contains l.die then .next (s.postOnce retry)
    else
      let left := (boundTeams s id).filter (fun t => t.run ≠ .done)
      match killTeams false left s with
      | .error (va, e) => (match meetFault s (dieAgent l.die) l.ctx va 4 0 retry e with
        | .wait s => .next s
        | .fail s _ _ => .next ((Got.state s (killTeams true left s)).postOnce retry))
      | .ok s =>
        if passesOpen s id then .next s
        else if s.writes.any (fun w => (boundTeams s id).any (fun t => t.uid = w.team)) || evicting s id then .next (s.postOnce retry)
        else if l.done = 0 then .next (launchOver s l)
        else match writeVA s 256 l.ctx l.done.toNat (leBytes 8 l.status) with
          | .ok s => .next (launchOver s l)
          | .error e => match meetFault s (dieAgent l.die) l.ctx l.done.toNat 0 0 retry e with
            | .wait s => .next s
            | .fail s _ _ => .next (launchOver (countFault s l.die) l)

/-! ## Pre-emption by firmware (R125, R126) -/

/-- A team that has not started leaves its record, with no image, and is launched again later (R126). Its latches stay in the run
while the kernel is there, for the next bind; where it leaves only saved teams behind, the core areas are written (10 R251). -/
def unbind (s : State) (t : Team) : State :=
  let s := s.onRec t.core t.place (fun _ => Bind.reset)
  let hold := match s.launch? t.launch with
    | some l => l.follow
    | none => false
  let s := freeArea s t.ctx t.image
  let s := { s with teams := s.teams.filter (fun x => x.uid ≠ t.uid) }
  let s := leaveKernel s t
  let s := if hold then match (s.launch? t.launch).bind (fun l => l.hdr.bind (fun h => h.inh)) with
      | some (a, b, c, d) =>
        let k : KeepHold := {
          ctx := t.ctx, launch := ((s.launch? t.launch).bind (predOf s)).getD 0, index := t.index, core := t.core,
          place := t.place, width := t.width, vbase := t.rec0.vbase, units := (b + 1 - a) * (t.width / 32), range := (a, b, c, d),
          vregs := (t.v.take (b + 1)).drop a, sregs := (t.s.take (d + 1)).drop c, image := 0 }
        { s with keeps := s.keeps ++ [k] }
      | none => s
    else s
  let s := s.onLaunch t.launch (fun l => if l.phase = .ended then l else { l with phase := .checked })
  leavePlace s t

/-- Firmware asks for a team's place (R125, R126): a team that has not started leaves at once, one parked in a wait is saved at
once, and any other receives the deadline of its context. -/
def preempt (s : State) (u : Nat) (retry : Ev) : State :=
  match s.team? u with
  | none => s
  | some t =>
    if t.run = .ready then match endAbsent s t none with
      | none => wakeLaunches (unbind s t)
      | some va => match meetFault s t.core t.ctx va 0 0 retry .absent with
        | .wait s => s
        | .fail s _ _ => wakeLaunches (unbind s t)
    else if !t.resident then s
    else
      let grace := match s.ctx? t.ctx with
        | some c => c.grace
        | none => 1
      let s := if t.ydl = noDeadline then s.onTeam u (fun t => { t with ydl := grace }) else s
      let now := match t.run with
        | .parked w => savesAtOnce w
        | _ => false
      if now then trySave s ((s.team? u).getD t) true retry else s

/-- PREEMPT_REQUEST (R125, R126). -/
def execPreemptRequest (u : Nat) (s : State) : Out := .next (preempt s u (.preemptRequest u))

/-- TIMESLICE_EXPIRY (R125): the slice of a team among contexts of equal ceiling is over. -/
def execTimesliceExpiry (u : Nat) (s : State) : Out := .next (preempt s u (.timesliceExpiry u))

/-- RECORD_RECLAIM (R119, R473): firmware takes a saved record, and the place is free. A write to any other record is ignored and
counted. -/
def execRecordReclaim (core place : Nat) (s : State) : Out :=
  let r := (s.core core).recs.getD place Bind.reset
  match s.team? r.team with
  | none => .next (countFault s (dieOf core))
  | some t =>
    if r.st ≠ .saved || t.savedNo = 0 then .next (countFault s (dieOf core))
    else if s.hub.updating.contains (dieOf core) then .next (s.post (.recordReclaim core place))
    else .next (offerRestores (wakeLaunches (s.onRec core place (fun _ => Bind.reset))) core)

/-- What firmware offers when nothing else is under way: the restores of every core that has a saved team. -/
def firmwareIdle (s : State) : State :=
  (uniq ((s.teams.filter (fun t => t.savedNo ≠ 0)).map (fun t => t.core))).foldl offerRestores s

end Sys2Proof.Machine
end

