-- ==== Sys2Proof/Machine/Sha.lean ====
section
/-!
DEFINITION. SHA-512, with which the loader measures segments (20 R444, 00 R12). The function is that of the published standard
(log 12), written as two recurrences: A and E are the sequences that a round extends by one word each.
-/

namespace Sys2Proof.Machine

/-! ## Constants: the first 64 bits behind the binary point of roots of the first primes -/

/-- The primes below 410, of which there are 80. -/
def shaPrimes : List Nat :=
  (List.range 410).filter (fun n => decide (2 ≤ n) && (List.range 19).all (fun d => n % (d + 2) ≠ 0 || n = d + 2))

/-- The k-th root of a number, rounded down, of at most 72 bits. -/
def rootDown (k n : Nat) : Nat :=
  (List.range 72).foldr (fun i r => if (r + 2 ^ i) ^ k ≤ n then r + 2 ^ i else r) 0

/-- The bits of the k-th root of a prime behind the point. -/
def rootBits (k p : Nat) : Word64 := BitVec.ofNat 64 (rootDown k (p * 2 ^ (64 * k)))

/-- The round constants. -/
def shaConsts : List Word64 := shaPrimes.map (rootBits 3)

/-- The chaining value before the first block. -/
def shaSeed : List Word64 := (shaPrimes.take 8).map (rootBits 2)

/-! ## The message -/

/-- A big-endian number of bytes. -/
def beNat (bs : List Byte) : Nat := bs.foldl (fun a b => 256 * a + b.toNat) 0

/-- The n bytes of a number, highest first. -/
def beBytes (n x : Nat) : List Byte := (leBytes n x).reverse

/-- The zeros and the length that fill a message up to whole blocks, behind its end mark. -/
def shaTail (len : Nat) : List Byte :=
  let zeros := (111 + 128 - len % 128) % 128
  0x80 :: (List.replicate zeros 0 ++ beBytes 16 (8 * len))

/-- Consecutive pieces of a list: `cutAt k n l` has k pieces of n elements. -/
def cutAt {α : Type} : Nat → Nat → List α → List (List α)
  | 0, _, _ => []
  | k + 1, n, l => l.take n :: cutAt k n (l.drop n)

/-! ## One block -/

/-- The exclusive or of some rotations of a word. -/
def xorRots (ns : List Nat) (x : Word64) : Word64 := (ns.map x.rotateRight).foldl (· ^^^ ·) 0

/-- Word t of the schedule from the sixteen before it, the latest first. -/
def shaWord (back : List Word64) : Word64 :=
  let near := back.getD 1 0
  let far := back.getD 14 0
  (xorRots [19, 61] near ^^^ near >>> 6) + back.getD 6 0 + (xorRots [1, 8] far ^^^ far >>> 7) + back.getD 15 0

/-- The two sequences, the latest first, and the last sixteen words of the schedule, the latest first. -/
structure ShaRun where
  as : List Word64
  es : List Word64
  ws : List Word64

/-- The next word of the schedule that a round takes: the block's while they last, then computed ones. -/
def ShaRun.word (r : ShaRun) : List Word64 → Word64
  | w :: _ => w
  | [] => shaWord r.ws

/-- A round: E gains h + d + Σ1 + choice + K + W, and A gains the same sum without d, with Σ0 and the majority. -/
def ShaRun.round (r : ShaRun) (k w : Word64) : ShaRun :=
  let a (i : Nat) : Word64 := r.as.getD i 0
  let e (i : Nat) : Word64 := r.es.getD i 0
  let pick := e 2 ^^^ (e 0 &&& (e 1 ^^^ e 2))
  let most := (a 0 &&& a 1) ||| (a 2 &&& (a 0 ||| a 1))
  let sum := k + w + e 3 + pick + xorRots [14, 18, 41] (e 0)
  { as := (sum + most + xorRots [28, 34, 39] (a 0)) :: r.as.take 3, es := (sum + a 3) :: r.es.take 3, ws := w :: r.ws.take 15 }

/-- All rounds of a block, whose words are given. -/
def ShaRun.rounds : List Word64 → List Word64 → ShaRun → ShaRun
  | [], _, r => r
  | k :: ks, ws, r => ShaRun.rounds ks ws.tail (r.round k (r.word ws))

/-- A block added to the chaining value. -/
def shaStep (h : List Word64) (block : List Byte) : List Word64 :=
  let ws := (cutAt 16 8 block).map (fun bs => (BitVec.ofNat 64 (beNat bs) : Word64))
  let r := ShaRun.rounds shaConsts ws { as := h.take 4, es := h.drop 4, ws := [] }
  (h.zip (r.as ++ r.es)).map (fun p => p.1 + p.2)

/-- SHA-512 of some bytes. -/
def sha512 (bs : List Byte) : List Byte :=
  let whole := bs ++ shaTail bs.length
  ((cutAt (whole.length / 128) 128 whole).foldl shaStep shaSeed).flatMap (fun x => beBytes 8 x.toNat)

end Sys2Proof.Machine
end

