-- ==== Sys2Proof/Machine/Ecdsa.lean ====
section
/-!
DEFINITION. ECDSA on P-521 with SHA-512 (00 R12), with which the loader checks segments and the device signs quotes (20 R444). The
curve and the scheme are those of the published standards; the keys are the device's (log 12).
-/

namespace Sys2Proof.Machine

/-! ## The curve -/

/-- The prime of the field. -/
def ecP : Nat := 2 ^ 521 - 1

/-- The constant of the curve y² = x³ − 3x + b. -/
def ecB : Nat :=
  0x051953EB9618E1C9A1F929A21A0B68540EEA2DA725B99B315F3B8B489918EF109E156193951EC7E937B1652C0BD3BB1BF073573DF883D2C34F1EF451FD46B503F00

/-- The order of the base point. -/
def ecN : Nat := 2 ^ 521 -
  0x5AE79787C40D069948033FEB708F65A2FC44A36477663B851449048E16EC79BF7

/-- A point in Jacobian coordinates: x/z² and y/z³, or the point at infinity where z is 0. -/
structure EcPoint where
  x : Nat
  y : Nat
  z : Nat
  deriving DecidableEq, Repr

/-- The base point. -/
def ecBase : EcPoint :=
  { x := 0x0C6858E06B70404E9CD9E3ECB662395B4429C648139053FB521F828AF606B4D3DBAA14B5E77EFE75928FE1DC127A2FFA8DE3348B3C1856A429BF97E7E31C2E5BD66
    y := 0x11839296A789A3BC0045C8A5FB42C7D1BD998F54449579B446817AFBD17273E662C97EE72995EF42640C550B9013FAD0761353C7086A272C24088BE94769FD16650
    z := 1 }

/-- Subtraction in the field. -/
def ecSub (a b : Nat) : Nat := (a + (ecP - b % ecP)) % ecP

/-- Whether (x, y) satisfies the equation of the curve. -/
def onCurve (x y : Nat) : Bool :=
  decide (x < ecP) && decide (y < ecP) && ecSub (y * y) (x * x * x + ecB) = ecSub 0 (3 * x)

/-- A point doubled. -/
def EcPoint.twice (p : EcPoint) : EcPoint :=
  let zz := p.z * p.z % ecP
  let yy := p.y * p.y % ecP
  let m := 3 * ecSub p.x zz * (p.x + zz) % ecP
  let c := 4 * p.x * yy % ecP
  let x := ecSub (m * m) (2 * c)
  { x := x, y := ecSub (m * ecSub c x) (8 * yy * yy), z := 2 * p.y * p.z % ecP }

/-- The sum of two points. -/
def EcPoint.plus (p q : EcPoint) : EcPoint :=
  if p.z % ecP = 0 then q
  else if q.z % ecP = 0 then p
  else
    let pz := p.z * p.z % ecP
    let qz := q.z * q.z % ecP
    let px := p.x * qz % ecP
    let py := p.y * (q.z * qz % ecP) % ecP
    let dx := ecSub (q.x * pz) px
    let dy := ecSub (q.y * (p.z * pz % ecP)) py
    if dx = 0 then (if dy = 0 then p.twice else { x := 1, y := 1, z := 0 })
    else
      let d2 := dx * dx % ecP
      let d3 := dx * d2 % ecP
      let base := px * d2 % ecP
      let x := ecSub (dy * dy) (d3 + 2 * base)
      { x := x, y := ecSub (dy * ecSub base x) (py * d3), z := p.z * q.z % ecP * dx % ecP }

/-- The multiple of a point by the low n bits of a number. -/
def EcPoint.times (p : EcPoint) (k : Nat) : Nat → EcPoint
  | 0 => { x := 1, y := 1, z := 0 }
  | n + 1 =>
    let half := (p.twice.times (k / 2) n)
    if k % 2 = 1 then p.plus half else half

/-- A power modulo m, of the low n bits of an exponent. -/
def powMod (m b e : Nat) : Nat → Nat
  | 0 => 1 % m
  | n + 1 =>
    let rest := powMod m (b * b % m) (e / 2) n
    if e % 2 = 1 then b * rest % m else rest

/-- The inverse modulo a prime of at most 521 bits. -/
def invMod (m a : Nat) : Nat := powMod m (a % m) (m - 2) 521

/-- The x coordinate of a point, none at infinity. -/
def EcPoint.xOf (p : EcPoint) : Option Nat :=
  if p.z % ecP = 0 then none else some (p.x * invMod ecP (p.z * p.z) % ecP)

/-! ## Signatures -/

/-- Whether (r, s) is a signature of a digest e under the public key (x, y). -/
def ecVerify (x y e r s : Nat) : Bool :=
  if !onCurve x y || r = 0 || s = 0 || ecN ≤ r || ecN ≤ s then false
  else
    let w := invMod ecN s
    let p := (ecBase.times (e * w % ecN) 521).plus (({ x := x, y := y, z := 1 } : EcPoint).times (r * w % ecN) 521)
    p.xOf.any (fun v => decide (v % ecN = r))

/-- The signature of a digest under a private key, with the first of some secret numbers that gives one; (0, 0) when none does. -/
def ecSign (d e : Nat) : List Nat → Nat × Nat
  | [] => (0, 0)
  | k :: ks =>
    let r := ((ecBase.times k 521).xOf.getD 0) % ecN
    let s := invMod ecN k * (e + r * d) % ecN
    if r = 0 || s = 0 then ecSign d e ks else (r, s)

/-- The digest that a signature over some bytes signs; a measurement is signed as a message or as the digest that it is
(log 12). -/
def signedDigest (meas : Bool) (bs : List Byte) : Nat :=
  beNat (if meas && Config.measIsDigest then bs else sha512 bs)

/-- Whether a signature over a measurement is that of a key of the device's key list (20 R444). -/
def sigValid (key : Nat) (meas r s : List Byte) : Bool :=
  let q := Config.signKey key
  ecVerify q.1 q.2 (signedDigest true meas) (beNat r) (beNat s)

/-- The signature of a quote's bytes under the device identity key: r and s, 66 bytes each, big-endian (20 R444, log 12). -/
def quoteSig (step : Nat) (bs : List Byte) : List Byte :=
  let unit (n : Nat) : Nat := 1 + n % (ecN - 1)
  let g := ecSign (unit Config.deviceKey) (signedDigest false bs)
    ((List.range 8).map (fun i => unit (Config.quoteNonce (8 * step + i))))
  beBytes 66 g.1 ++ beBytes 66 g.2

end Sys2Proof.Machine
end

