-- ==== Sys2Proof/Machine/Host.lean ====
section
/-!
DEFINITION. The host's side of the device: BAR0 and its mailbox, the enqueue aperture, the memory window, images and attestation
(20 R438-R444, R448, 15 R335, R340, R341, 09 R214).
-/

namespace Sys2Proof.Machine

/-! ## Counters and answers (R439, R440, R442) -/

/-- The host-error counter goes up (15 R340). -/
def countHost (s : State) : State := raiseVec (s.onHub (fun h => { h with hosterr := h.hosterr + 1 })) 2

/-- The bytes of the mailbox from an offset on. -/
def putMail (s : State) (o : Nat) (bs : List Byte) : State :=
  s.onHub (fun h => { h with mail := h.mail.take o ++ bs ++ h.mail.drop (o + bs.length) })

/-- The command that the mailbox holds; 0 when it is free. -/
def mailCode (s : State) : Nat := numAt s.hub.mail 0 1

/-- The hub answers: result and status, then 0 into byte 0, and vector 1 (R440, R442). -/
def mailAnswer (s : State) (result status : Nat) : State :=
  raiseVec (putMail (putMail (putMail s 8 (leBytes 8 result)) 1 (leBytes 1 status)) 0 [0]) 1

/-- The offset in the hub's inbox from which on its writes are those of the mailbox; below it they are those of BAR2 (R438). -/
def mailBase : Nat := 2 ^ 22

/-- A write into the mailbox waits for an update of the hub (R448). -/
def mailWaits (s : State) (o : Nat) (data : List Byte) : State :=
  s.onHub (fun h => { h with inbox := h.inbox ++ [(mailBase + o, data)] })

/-- The mailbox record of a command, as the host writes it (R440). -/
def mailRecord (code : Nat) (m : Mail) : List Byte :=
  leBytes 16 code ++ [m.op0, m.op1, m.op2, m.op3].flatMap (fun w => leBytes 8 w.toNat) ++ leBytes 16 (bitNat m.resv)

/-- A command written by the host (R440). One that finds byte 0 taken by another is dropped and counted; one that comes while the hub is
being updated waits (R448). `bad` says that an operand is out of range. -/
def command (code : Nat) (m : Mail) (bad : Bool) (body : State → State) (s : State) : State :=
  if s.hub.updating.contains 4 then mailWaits s 0 (mailRecord code m)
  else if mailCode s ≠ 0 && !s.hub.fresh then countHost s
  else
    let ops := [m.op0, m.op1, m.op2, m.op3].flatMap (fun w => leBytes 8 w.toNat)
    let s := (putMail (putMail s 16 ops) 0 [BitVec.ofNat 8 code]).onHub (fun h => { h with fresh := false })
    if !s.hub.ready && !(s.hub.minimal && 7 ≤ code && code ≤ 9) then mailAnswer s 0 3
    else if m.resv || bad then mailAnswer s 0 2
    else body s

/-- The boot word (R445). -/
def bootWord (h : Hub) : Nat := bitNat h.ready + 2 * bitNat h.minimal + 2 ^ 8 * h.fails + 2 ^ 16 * h.reason

/-- The health word (R447). -/
def healthWord (h : Hub) : Nat :=
  bitNat h.replace + 2 ^ 16 * min 255 h.soft + 2 ^ 24 * (h.slices % 256) + 2 ^ 32 * (h.chans % 256) + 2 ^ 40 * (h.cores % 256)

/-- Vector 0, where the boot or the health word has changed (R442). -/
def noteHealth (before s : State) : State :=
  if bootWord before.hub = bootWord s.hub && healthWord before.hub = healthWord s.hub then s else raiseVec s 0

/-! ## Contexts (R440, 05 R111, R112) -/

/-- The context of a record of 256 bytes, and whether the record is well formed (05 R111). -/
def parseContext (bs : List Byte) (msix : Nat) : Context × Bool :=
  let f (o n : Nat) : Nat := numAt bs o n
  let num := f 0 2
  let bad := 16384 ≤ num || 16 ≤ f 2 1 || f 3 1 ≠ 1 || f 4 8 ≠ 0 || f 12 4 = 0 || f 12 4 = 0xFFFFFFFF || f 64 8 % 4096 ≠ 0 ||
    f 72 8 % 4096 ≠ 0 || f 56 8 % 4 ≠ 0 || (bs.drop 80).any (fun b => b ≠ 0)
  ({ num := num, ceil := f 2 1, grace := BitVec.ofNat 64 (f 12 4), ptroot := f 16 8, surfb := BitVec.ofNat 64 (f 24 8),
     chainb := BitVec.ofNat 64 (f 32 8), seqb := BitVec.ofNat 64 (f 40 8), qbind := f 48 8, trapv := BitVec.ofNat 64 (f 56 8),
     savep := f 64 8, savesz := f 72 8, recA := Config.ctxRecord num, msix := msix, isIn := true, hold := none }, !bad)

/-- The queue-binding table of a context is written (15 R335); no memory stands beyond the HBM (00 R7, log 65). -/
def writeBind (s : State) (c : Context) : State :=
  let qs := s.queues.filter (fun q => q.ctx = c.num)
  let launch := match qs.find? (fun q => q.isLaunch) with
    | some q => q.num
    | none => 0xFFFFFFFF
  let rest := sortBy (fun a b => decide (a ≤ b)) ((qs.filter (fun q => !q.isLaunch)).map (fun q => q.num))
  let bs := (qs.length :: launch :: rest).flatMap (leBytes 4)
  if inHbm c.qbind bs.length then s.apply (cellsAt (physKey 0 c.qbind) bs) else s

/-- MAILBOX_CREATE_CONTEXT (R440, 05 R111): firmware writes the context's record into the context table. A malformed record, or one
beyond the HBM, is answered with status 2 (DESIGN CHOICE: the spec names no status for it, log 50). -/
def execMailboxCreateContext (m : Mail) (s : State) : Out :=
  let v := m.op1.toNat
  .next (command 1 m (v < 3 || 2047 < v || m.op2 ≠ 0 || m.op3 ≠ 0) (fun s =>
    let bs := s.mem.bytes (physKey 0 m.op0.toNat) 256
    let (c, ok) := parseContext bs v
    if !ok || !inHbm m.op0.toNat 256 then mailAnswer s 0 2
    else if (s.ctx? c.num).isSome then mailAnswer s 0 3
    else
      let s := { s with ctxs := s.ctxs ++ [c], queues := s.queues.filter (fun q => q.ctx ≠ c.num) }
      let s := if inHbm c.recA 256 then s.apply (cellsAt (physKey 0 c.recA) bs) else s
      mailAnswer (writeBind s c) c.num 0) s)

/-- Whether a queue can be made invalid: its ring is empty and nobody waits at it or is on the way to it (15 R335). -/
def queueIdle (s : State) (q : Queue) : Bool :=
  q.count = 0 && q.poppers.isEmpty && q.pushers.isEmpty && !s.pushes.any (fun m => m.queue = q.num) &&
  !s.hub.overflow.any (fun h => h.queue = q.num) &&
  !s.teams.any (fun t => t.pop.head? = some q.num)

/-- Whether a context is in use: it has teams, launches, pool lines or an open pass, or a queue of its own that is not idle. -/
def ctxBusy (s : State) (n : Nat) : Bool :=
  s.teams.any (fun t => t.ctx = n) || s.launches.any (fun l => l.ctx = n) || s.cores.any (fun c => c.lines.any (fun l =>
    l.ctx = n && l.st ≠ .free)) || s.passes.any (fun p => p.ctx = n && (p.isOpen || p.closing)) ||
  s.queues.any (fun q => q.ctx = n && !q.isLaunch && !queueIdle s q)

/-- The leaves of an extent in the tables below one: the physical address of each entry, its first virtual address and its page
size. Only listed memory can hold an entry with v = 1. -/
def extLeaves (m : Memory) (ext : Nat) : Nat → Nat → Nat → List (Nat × Nat × Nat)
  | lev, pa, va =>
    let at_ := physKey 0 pa
    let ix := uniq ((m.filter (fun c => at_ ≤ c.1 && c.1 < at_ + 4096)).map (fun c => (c.1 - at_) / 8))
    ix.flatMap (fun i =>
      let e : Word64 := BitVec.ofNat 64 (m.num (at_ + 8 * i) 8)
      if !pteBit e 0 || pteBad e lev then []
      else if pteBit e 1 then
        (if pteTier e = 1 && pteExt e = ext then [(pa + 8 * i, va + i * levelSize lev, levelSize lev)] else [])
      else match lev with
        | 0 => []
        | n + 1 => extLeaves m ext n (pteBase e) (va + i * levelSize (n + 1)))

/-- The leaves of an extent in a context. -/
def extPages (s : State) (c : Context) (ext : Nat) : List (Nat × Nat × Nat) := extLeaves s.mem ext 4 c.ptroot 0

/-- Whether pages of an extent are mapped in some context, or a translation of one is still cached or being shot down. -/
def extMapped (s : State) (ext : Nat) : Bool :=
  s.ctxs.any (fun c => !(extPages s c ext).isEmpty) || !s.hub.shoots.isEmpty ||
  s.cores.any (fun c => c.tlb.any (fun e => pteTier e.pte = 1 && pteExt e.pte = ext))

/-- The extents of a context that is destroyed are released; one whose pages another context maps is held (09 R214). -/
def dropExtents (s : State) (n : Nat) : State :=
  let keep (e : Extent) : Bool := e.ctx ≠ some n || extMapped s e.num
  s.onHub (fun h => { h with extents := (h.extents.filter keep).map (fun (e : Extent) =>
    if e.ctx = some n then { e with held := true } else e) })

/-- The launch entries of a destroyed context that have not reached firmware are dropped and counted (05 R471). -/
def dropArrivals (s : State) (n : Nat) : State :=
  let slice (e : Ev) : Option Nat := match e with
    | .launchEntryArrival q _ => ((s.queue? q).filter (fun x => x.ctx = n)).map (fun x => x.slice)
    | _ => none
  (s.agenda.filterMap slice).foldl (fun s x => countFault s (x / 64))
    { s with agenda := s.agenda.filter (fun e => (slice e).isNone) }

/-- All that a context leaves behind is dropped; its launch queue stays, and its entries find no context (05 R471). -/
def dropContext (s : State) (n : Nat) : State :=
  let s := dropArrivals s n
  dropExtents { s with
    ctxs := s.ctxs.filter (fun c => c.num ≠ n)
    queues := s.queues.filter (fun q => q.ctx ≠ n || q.isLaunch)
    keeps := s.keeps.filter (fun k => k.ctx ≠ n)
    areas := s.areas.filter (fun a => a.ctx ≠ n)
    temps := s.temps.filter (fun x => x.ctx ≠ n)
    passes := s.passes.filter (fun p => p.ctx ≠ n)
    faults := s.faults.filter (fun q => q.ctx ≠ n)
    cores := s.cores.map (fun c => { c with tlb := c.tlb.filter (fun e => e.ctx ≠ n) })
    hub := { s.hub with
      bar4 := if s.hub.bar4 = some n then none else s.hub.bar4
      victims := s.hub.victims.filter (fun v => v.ctx ≠ n)
      moves := s.hub.moves.filter (fun m => m.ctx ≠ n) } } n

/-- MAILBOX_DESTROY_CONTEXT (R440): refused while the context is in use. -/
def execMailboxDestroyContext (m : Mail) (s : State) : Out :=
  let n := m.op0.toNat
  .next (command 2 m (16384 ≤ n || m.op1 ≠ 0 || m.op2 ≠ 0 || m.op3 ≠ 0) (fun s =>
    if (s.ctx? n).isNone || ctxBusy s n then mailAnswer s 0 3
    else mailAnswer (dropContext s n) 0 0) s)

/-! ## Queues (R440, 15 R334, R335, R341) -/

/-- The bytes of a ring, in whole pages of 4,096. -/
def ringSize (lcap : Nat) : Nat := (2 ^ lcap * 32 + 4095) / 4096 * 4096

/-- The ring of a new queue, in memory that no program maps: the free room nearest to the top of the HBM (15 R334, 00 R7, log 20);
none when the rings fill it. -/
def queueRing (s : State) (lcap : Nat) : Option Nat :=
  let spans : Spans := s.queues.map (fun q => (hbmSize - q.ring - ringSize q.lcap, ringSize q.lcap))
  (firstFit hbmSize spans (ringSize lcap)).map (fun o => hbmSize - o - ringSize lcap)

/-- The first slice in service, from one on, that has room for one of 1,024 queue records (15 R334, 20 R446). -/
def queueRoom (s : State) (from_ : Nat) : Nat :=
  (((List.range 256).map (fun i => (from_ + i) % 256)).find? (fun x =>
    !s.hub.spareHomes.any (fun h => h.1 = x) && !s.hub.moving.any (fun m => m.1 = x) &&
    decide ((s.queues.filter (fun q => q.slice = x)).length < 1024))).getD 0

/-- The home slice of a new queue record: firmware's choice among those with room (15 R334). -/
def queueHome (s : State) (n : Nat) : Nat := queueRoom s (Config.queueSlice n)

/-- MAILBOX_CREATE_QUEUE (R440, 15 R335). -/
def execMailboxCreateQueue (m : Mail) (s : State) : Out :=
  let n := m.op0.toNat
  let launch := m.op3.toNat.testBit 1
  .next (command 3 m
    (65536 ≤ n || 16384 ≤ m.op1.toNat || m.op2.toNat < 4 || 20 < m.op2.toNat || (m.op3 ≠ 0 && m.op3 ≠ 2)) (fun s =>
    match s.ctx? m.op1.toNat with
    | none => mailAnswer s 0 3
    | some c =>
      if (s.queue? n).isSome || (launch && s.queues.any (fun q => q.ctx = c.num && q.isLaunch)) then mailAnswer s 0 3
      else match queueRing s m.op2.toNat with
      | none => mailAnswer s 0 3
      | some ring =>
        let q : Queue := { num := n, ring := ring, head := 0, tail := 0, ctx := c.num, isLaunch := launch, ovf := false,
                           lcap := m.op2.toNat, slice := queueHome s n, poppers := [], pushers := [] }
        mailAnswer (writeBind { s with queues := s.queues ++ [q] } c) 0 0) s)

/-- MAILBOX_DESTROY_QUEUE (R440, 15 R335). -/
def execMailboxDestroyQueue (m : Mail) (s : State) : Out :=
  let n := m.op0.toNat
  .next (command 3 m (65536 ≤ n || 16384 ≤ m.op1.toNat || m.op2 ≠ 0 || m.op3 ≠ 1) (fun s =>
    match s.queue? n with
    | none => mailAnswer s 0 3
    | some q =>
      if q.ctx ≠ m.op1.toNat || !queueIdle s q then mailAnswer s 0 3
      else
        let s := { s with queues := s.queues.filter (fun x => x.num ≠ n) }
        mailAnswer (match s.ctx? q.ctx with
          | some c => writeBind s c
          | none => s) 0 0) s)

/-- MAILBOX_CLEAR_OVERFLOW (15 R341). -/
def execMailboxClearOverflow (m : Mail) (s : State) : Out :=
  let n := m.op0.toNat
  .next (command 6 m (65536 ≤ n || m.op1 ≠ 0 || m.op2 ≠ 0 || m.op3 ≠ 0) (fun s =>
    if (s.queue? n).isNone then mailAnswer s 0 3
    else mailAnswer (s.onQueue n (fun q => { q with ovf := false })) 0 0) s)

/-! ## Switches (R440, 05 R112, R125, R128, 06 R142) -/

/-- MAILBOX_SWITCH_CONTEXT_OUT (05 R112, R125): every team of the context is pre-empted, its held ranges are released, and the
tiles that are processed for it are killed (18 R417). -/
def execMailboxSwitchContextOut (m : Mail) (s : State) : Out :=
  let n := m.op0.toNat
  .next (command 4 m (16384 ≤ n || m.op1 ≠ 0 || m.op2 ≠ 0 || m.op3 ≠ 0) (fun s =>
    if !isIn s n then mailAnswer s 0 3
    else
      let s := releaseHolds (s.onCtx n (fun c => { c with isIn := false })) (fun k => k.ctx = n && !claimed s k)
      let s := (s.teams.filter (fun t => t.ctx = n && t.resident)).foldl (fun s t => s.postOnce (.preemptRequest t.uid)) s
      let s := (s.passes.filter (fun p => p.ctx = n && p.active)).foldl (fun s p => s.postOnce (.tileKill p.die p.id)) s
      mailAnswer s 0 0) s)

/-- MAILBOX_SWITCH_CONTEXT_IN (05 R128): its teams are restored and its launches placed as places are free. -/
def execMailboxSwitchContextIn (m : Mail) (s : State) : Out :=
  let n := m.op0.toNat
  .next (command 4 m (16384 ≤ n || m.op1 ≠ 1 || m.op2 ≠ 0 || m.op3 ≠ 0) (fun s =>
    if (s.ctx? n).isNone || isIn s n then mailAnswer s 0 3
    else
      let s := s.onCtx n (fun c => { c with isIn := true })
      let s := (s.passes.filter (fun p => p.ctx = n && p.closing && !p.active)).foldl
        (fun s p => s.postOnce (.tileProcess p.die p.id)) s
      mailAnswer (wakeLaunches (firmwareIdle s)) 0 0) s)

/-! ## Extents (R440, 09 R214) -/

/-- MAILBOX_GRANT_EXTENT (09 R214). -/
def execMailboxGrantExtent (m : Mail) (s : State) : Out :=
  let n := m.op0.toNat
  .next (command 5 m (65536 ≤ n || 16384 ≤ m.op1.toNat || m.op2 ≠ 0 || m.op3 ≠ 0) (fun s =>
    if (s.ctx? m.op1.toNat).isNone || s.hub.extents.any (fun e => e.num = n && !e.revoked) then mailAnswer s 0 3
    else
      let e : Extent := { num := n, ctx := some m.op1.toNat, held := false, revoked := false }
      mailAnswer (s.onHub (fun h => { h with extents := h.extents.filter (fun e => e.num ≠ n) ++ [e] })) 0 0) s)

/-- An extent is released. -/
def dropExtent (s : State) (n : Nat) : State :=
  s.onHub (fun h => { h with extents := h.extents.filter (fun e => e.num ≠ n) })

/-- MAILBOX_RELEASE_EXTENT (09 R214): while its pages are mapped, the release is held. -/
def execMailboxReleaseExtent (m : Mail) (s : State) : Out :=
  let n := m.op0.toNat
  .next (command 5 m (65536 ≤ n || 16384 ≤ m.op1.toNat || m.op2 ≠ 1 || m.op3 ≠ 0) (fun s =>
    if !s.hub.extents.any (fun e => e.num = n && e.ctx = some m.op1.toNat) then mailAnswer s 0 3
    else if extMapped s n then mailAnswer (s.onHub (fun h => { h with extents := h.extents.map (fun (e : Extent) =>
      if e.num = n then { e with held := true } else e) })) 0 0
    else mailAnswer (dropExtent s n) 0 0) s)

/-- EXTENT_RELEASE_DONE (09 R214): a held release takes effect when no page of the extent is mapped any more. -/
def execExtentReleaseDone (n : Nat) (s : State) : Out :=
  .next (if s.hub.extents.any (fun e => e.num = n && e.held) && !extMapped s n then dropExtent s n else s)

/-! ## Images (R444) -/

/-- A segment of an image: its descriptor and its bytes. -/
structure Segm where
  kind : Nat
  key  : Nat
  va   : Nat
  meas : List Byte
  sigr : List Byte
  sigs : List Byte
  bad  : Bool
  bytes : List Byte

/-- The key of a byte of host memory. -/
def hostKey (a : Nat) : Nat := physKey 2 a

/-- The segments of an image in host memory that lie within its length, from an offset on. -/
def segmsAt (s : State) (img len : Nat) : Nat → Nat → List Segm
  | 0, _ => []
  | n + 1, o =>
    let d := s.mem.bytes (hostKey (img + o)) 256
    let size := numAt d 8 8
    let va := numAt d 16 8
    let kind := numAt d 0 4
    let out := decide (len < o + 256 + size)
    let bad := out || 3 < kind || (kind = 0 && va % 65536 ≠ 0) || (d.drop 220).any (fun b => b ≠ 0)
    let g : Segm := { kind := kind, key := numAt d 4 4, va := va, meas := (d.drop 24).take 64, sigr := (d.drop 88).take 66,
                      sigs := (d.drop 154).take 66, bad := bad, bytes := if out then [] else s.mem.bytes (hostKey (img + o + 256)) size }
    g :: (if out then [] else segmsAt s img len n (o + 256 + size))

/-- The segments of an image, or none when its header is malformed. -/
def segms (s : State) (img : Nat) : Option (List Segm) :=
  let n := s.mem.num (hostKey img) 4
  if 4096 < n then none else some (segmsAt s img (s.mem.num (hostKey (img + 8)) 8) n 64)

/-- The physical address of the entry that a walk of an address ends on, with its page size. -/
def leafAt (m : Memory) (va : Nat) : Nat → Nat → Option (Nat × Nat)
  | lev, pa =>
    let at_ := pa + 8 * levelIdx va lev
    let e : Word64 := BitVec.ofNat 64 (m.num (physKey 0 at_) 8)
    if !inHbm at_ 8 || !pteBit e 0 || pteBad e lev then none
    else if pteBit e 1 then some (at_, levelSize lev)
    else match lev with
      | 0 => none
      | n + 1 => leafAt m va n (pteBase e)

/-- The entries of the pages of a range are written with w = 0 and a value of x, old translations are shot down, and no core fetches
old words of the range (09 R195, R200). -/
def setExec (s : State) (c : Context) (va len : Nat) (x : Bool) : State :=
  let pages := (List.range ((va % 65536 + len + 65535) / 65536)).map (fun i => va / 65536 * 65536 + 65536 * i)
  let whole := uniq (pages.filterMap (fun p => (leafAt s.mem (p % 2 ^ 57) 4 c.ptroot).map (fun e => (p / e.2 * e.2, e.2))))
  let s := pages.foldl (fun s p => match leafAt s.mem (p % 2 ^ 57) 4 c.ptroot with
    | none => s
    | some (at_, _) =>
      let e := s.mem.num (physKey 0 at_) 8
      let e := e - 4 * bitNat (e.testBit 2) - 8 * bitNat (e.testBit 3) + 8 * bitNat x
      s.apply (cellsAt (physKey 0 at_) (leBytes 8 e))) s
  let keys := match piecesOf s 256 c.num .read va len with
    | .ok segs => segs
    | .error _ => []
  let s := whole.foldl (fun s p => shootRange s c.num p.1 p.2) s
  { s with cores := s.cores.map (fun k => { k with
      icache := k.icache.filter (fun l => !keys.any (fun g => inRange l.key 128 g.key g.len)) }) }

/-- A segment is measured and checked: the status that refuses it, or the record extended (R444, steps 1 to 3). -/
def measure (s : State) (g : Segm) : Except Nat State :=
  if g.bad then .error 2
  else if sha512 g.bytes ≠ g.meas then .error 5
  else if !sigValid g.key g.meas g.sigr g.sigs then .error 4
  else .ok (s.onHub (fun h => { h with attRec := sha512 (h.attRec ++ g.meas), recCount := h.recCount + 1 }))

/-- The address and size of an entry of one of a context's tables (16 R352, 17 R380, 18 R398). -/
def tableAt (c : Context) (k num : Nat) : Option (Nat × Nat) := match k with
  | 0 => some (c.chainb.toNat + 256 * (num % 256), 256)
  | 1 => some (c.seqb.toNat + 128 * (num % 64), 128)
  | 2 => some (c.surfb.toNat + 64 * (num % 2 ^ 20), 64)
  | _ => none

/-- Where a segment's bytes go: to its address, and the descriptors of a segment of kind 2 to the context's tables (16 R355, 17 R384,
18 R403). -/
def segmPuts (c : Context) (g : Segm) : List (Nat × List Byte) :=
  (g.va, g.bytes) :: (if g.kind = 2 then (Config.descriptors g.bytes).filterMap (fun d =>
    (tableAt c d.1 d.2.1).map (fun t => (t.1, (d.2.2 ++ List.replicate t.2 0).take t.2))) else [])

/-- Bytes written by the loader, whatever w says of their pages. -/
def loaderPut (c : Context) (s : State) (p : Nat × List Byte) : Option State :=
  match piecesOf s 256 c.num .read p.1 p.2.length with
  | .ok segs => some (s.apply ((segKeys segs).zip p.2))
  | .error _ => none

/-- The pages of the code segments of an image are set executable or not. -/
def setCode (c : Context) (gs : List Segm) (x : Bool) (s : State) : State :=
  (gs.filter (fun g => g.kind = 0)).foldl (fun s g => setExec s c g.va g.bytes.length x) s

/-- A segment is treated (R444): measured, checked, and written to the pages that its address maps to. -/
def loadSegm (c : Context) (s : State) (g : Segm) : Except (State × Nat) State :=
  match measure s g with
  | .error e => .error (s, e)
  | .ok s =>
    match (segmPuts c g).foldlM (loaderPut c) s with
    | some s => .ok s
    | none => .error (s, 2)

/-- The segments in order, until one refuses the image. -/
def loadSegms (c : Context) : List Segm → State → Except (State × Nat) State
  | [], s => .ok s
  | g :: gs, s => match loadSegm c s g with
    | .ok s => loadSegms c gs s
    | e => e

/-- The first address that an image is to be written to and whose page is absent. -/
def segmAbsent (s : State) (c : Context) (gs : List Segm) : Option Nat :=
  ((gs.filter (fun g => !g.bad)).flatMap (segmPuts c)).findSome? (fun p =>
    match piecesOf s 256 c.num .read p.1 p.2.length with
    | .error .absent => some (failVA s 256 c.num .read p.1 p.2.length)
    | _ => none)

/-- MAILBOX_LOAD_IMAGE (R444): every segment in order; after the last, the pages of the code segments turn executable. An absent
page of the target is first serviced as a replayable fault. No page of the image is executable before, so a refused image leaves
none. -/
def execMailboxLoadImage (m : Mail) (s : State) : Out :=
  let again : Ev := .mailboxLoadImage m
  .next (command 7 m (16384 ≤ m.op1.toNat || m.op2 ≠ 0 || m.op3 ≠ 0) (fun s =>
    match s.ctx? m.op1.toNat, segms s m.op0.toNat with
    | some c, some gs =>
      let go (s : State) : State := match loadSegms c gs (setCode c gs false s) with
        | .error (s, e) => mailAnswer s 0 e
        | .ok s => mailAnswer (setCode c gs true s) gs.length 0
      if !s.hub.pcieUp then mailAnswer s 0 3
      else (match segmAbsent s c gs with
        | none => go s
        | some va => match meetFault s (dieAgent 0) c.num va 0 0 again .absent with
          | .wait s => s.onHub (fun h => { h with fresh := true })
          | .fail s _ _ => go s)
    | some _, none => mailAnswer s 0 2
    | none, _ => mailAnswer s 0 3) s)

/-- MAILBOX_ATTESTATION_QUOTE (R444): record, count, nonce and signature to host memory. -/
def execMailboxAttestationQuote (m : Mail) (s : State) : Out :=
  .next (command 8 m (m.op2 ≠ 0 || m.op3 ≠ 0) (fun s =>
    if !s.hub.pcieUp then mailAnswer s 0 3
    else
      let body := s.hub.attRec ++ leBytes 8 s.hub.recCount ++ s.mem.bytes (hostKey m.op0.toNat) 64
      let q := body ++ quoteSig s.stepNo body
      mailAnswer (s.apply (cellsAt (hostKey m.op1.toNat) q)) q.length 0) s)

/-- The measurements of an update image, until one refuses it. -/
def measureAll : List Segm → State → Except (State × Nat) State
  | [], s => .ok s
  | g :: gs, s => match measure s g with
    | .ok s => measureAll gs s
    | .error e => .error (s, e)

/-- MAILBOX_UPDATE (R448): a refused image leaves the old firmware running; else the die's firmware work waits until the update
ends. -/
def execMailboxUpdate (m : Mail) (s : State) : Out :=
  let die := m.op1.toNat
  .next (command 9 m (4 < die || m.op2 ≠ 0 || m.op3 ≠ 0) (fun s =>
    if !s.hub.pcieUp then mailAnswer s 0 3
    else match segms s m.op0.toNat with
      | none => mailAnswer s 0 2
      | some gs => match measureAll gs s with
        | .error (s, e) => mailAnswer s 0 e
        | .ok s => (s.onHub (fun h => { h with updating := h.updating ++ [die] })).post (.updateComplete die)) s)

/-! ## The memory window (R441) -/

/-- MAILBOX_SELECT_BAR4_CONTEXT (R441). -/
def execMailboxSelectBar4Context (m : Mail) (s : State) : Out :=
  let n := m.op0.toNat
  .next (command 10 m (16384 ≤ n || m.op1 ≠ 0 || m.op2 ≠ 0 || m.op3 ≠ 0) (fun s =>
    if (s.ctx? n).isNone then mailAnswer s 0 3
    else mailAnswer (s.onHub (fun h => { h with bar4 := some n })) 0 0) s)

/-- What a read through BAR4 returns. -/
def bar4Answer (s : State) (bs : List Byte) : State := s.onHub (fun h => { h with bar4Data := bs })

/-- Whether n bytes lie in the window of 64 GB that BAR4 is (R438); an offset in it is the virtual address (DEDUCED from R441, log
19), and an access beyond it does not reach the function. -/
def inBar4 (va : Word64) (n : Nat) : Bool := decide (va.toNat + n ≤ 2 ^ 36)

/-- BAR4_READ (R441): the bytes of the selected context, or all ones. -/
def execBar4Read (va : Word64) (len : Nat) (s : State) : Out :=
  if !inBar4 va len then .next s else
  match s.hub.bar4 with
  | none => .next (bar4Answer s (List.replicate len 0xFF))
  | some n => match readVA s 256 n va.toNat len with
    | .ok bs => .next (bar4Answer s bs)
    | .error _ => .next (countHost (bar4Answer s (List.replicate len 0xFF)))

/-- BAR4_WRITE (R441): a write that cannot be made is dropped and counted. -/
def execBar4Write (va : Word64) (data : List Byte) (s : State) : Out :=
  if !inBar4 va data.length then .next s else
  match s.hub.bar4 with
  | none => .next (countHost s)
  | some n => match writeVA s 256 n va.toNat data with
    | .ok s => .next s
    | .error _ => .next (countHost s)

/-- A PCIe AtomicOp of the host through BAR4 (R438): add, exch or cas on a 32- or 64-bit integer (09 R215), performed at the home
slice, with the old value as its answer. One that cannot be made, or is not of R215, answers all ones and is counted, as a read that
faults is (log 19). -/
def execHostAtomic (va : Word64) (op : Nat) (ty : Ty) (data cmp : Word64) (s : State) : Out :=
  let n := ty.width / 8
  let refuse : Out := .next (countHost (bar4Answer s (List.replicate n 0xFF)))
  if !inBar4 va n then .next s
  else if !hostAtomic op ty || ty.width < 32 || va.toNat % n ≠ 0 then refuse
  else match s.hub.bar4 with
  | none => refuse
  | some k => match piecesOf s 256 k .atomic va.toNat n with
    | .error _ => refuse
    | .ok segs =>
      let old := homeBytes s segs
      .next (bar4Answer (s.apply ((segKeys segs).zip (leBytes n (atomNew op ty (leNat old) data.toNat cmp.toNat)))) old)

/-! ## The enqueue aperture (15 R340, R341) -/

/-- An entry of the host at its queue: handed over, appended, held by the hub behind the entries it holds already, or dropped with the
overflow flag. -/
def hostEntry (s : State) (q : Queue) (e : List Word64) : State :=
  if q.isLaunch then s.post (.launchEntryArrival q.num e)
  else match (if s.hub.overflow.any (fun h => h.queue = q.num) then none else some q.poppers) with
    | some (u :: us) => handOver (s.onQueue q.num (fun q => { q with poppers := us })) u e
    | x =>
      if x.isSome && q.count < q.cap then appendEntry s q e
      else if s.hub.overflow.length < 1024 then
        s.onHub (fun h => { h with overflow := h.overflow ++ [{ queue := q.num, entry := e }] })
      else countHost (s.onQueue q.num (fun q => { q with ovf := true }))

/-- A posted write to the enqueue aperture is applied. -/
def hostWrite (s : State) (offset : Nat) (data : List Byte) : State :=
  if data.length ≠ 32 || offset % 64 ≠ 0 || 65536 ≤ offset / 64 then countHost s
  else match s.queue? (offset / 64) with
    | none => countHost s
    | some q =>
      if q.isLaunch && (s.ctx? q.ctx).isNone then countHost s
      else hostEntry s q ((List.range 4).map (fun j => BitVec.ofNat 64 (numAt data (8 * j) 8)))

/-- HOST_ENQUEUE (15 R340, R341): writes that come while the hub is being updated wait in their order (R448). -/
def execHostEnqueue (offset : Nat) (data : List Byte) (s : State) : Out :=
  if s.hub.updating.contains 4 then .next (s.onHub (fun h => { h with inbox := h.inbox ++ [(offset, data)] }))
  else .next (hostWrite s offset data)

/-- The first entry that the hub holds for a queue is taken out. -/
def takeHeld (n : Nat) : List Held → List Held
  | [] => []
  | h :: l => if h.queue = n then l else h :: takeHeld n l

/-- OVERFLOW_APPEND (15 R340): the oldest held entry of a queue is appended when a slot is free. -/
def execOverflowAppend (n : Nat) (s : State) : Out :=
  match s.queue? n, s.hub.overflow.find? (fun h => h.queue = n) with
  | some q, some h =>
    let taken := s.onHub (fun k => { k with overflow := takeHeld n k.overflow })
    match q.poppers with
    | u :: us => .next ((handOver (taken.onQueue n (fun q => { q with poppers := us })) u h.entry).postOnce (.overflowAppend n))
    | [] =>
      if q.count < q.cap && q.pushers.isEmpty then .next ((appendEntry taken q h.entry).postOnce (.overflowAppend n))
      else .next s
  | _, _ => .next s

/-! ## BAR0 (R439) -/

/-- HOSTERR_CLEAR (R439). -/
def execHosterrClear (s : State) : Out := .next (s.onHub (fun h => { h with hosterr := 0 }))

/-- The vectors that a write to the MSI-X table unmasked are raised, when they are pending. -/
def unmask (s : State) : State :=
  let free := s.hub.pba.filter (fun n => !(s.hub.msix.get (16 * n + 12)).getLsbD 0)
  s.onHub (fun h => { h with pba := h.pba.filter (fun n => !free.contains n), msiLog := h.msiLog ++ free })

/-- The row of the table that a command code is, with the operands that the mailbox holds. -/
def commandOf (s : State) (code : Nat) : Option Ev :=
  let w (o : Nat) : Word64 := BitVec.ofNat 64 (numAt s.hub.mail o 8)
  let m : Mail := { op0 := w 16, op1 := w 24, op2 := w 32, op3 := w 40,
                    resv := (s.hub.mail.drop 48).any (fun b => b ≠ 0) || numAt s.hub.mail 2 6 ≠ 0 }
  match code with
  | 1 => some (.mailboxCreateContext m)
  | 2 => some (.mailboxDestroyContext m)
  | 3 => some (if m.op3.getLsbD 0 then .mailboxDestroyQueue m else .mailboxCreateQueue m)
  | 4 => some (if m.op1.getLsbD 0 then .mailboxSwitchContextIn m else .mailboxSwitchContextOut m)
  | 5 => some (if m.op2.getLsbD 0 then .mailboxReleaseExtent m else .mailboxGrantExtent m)
  | 6 => some (.mailboxClearOverflow m)
  | 7 => some (.mailboxLoadImage m)
  | 8 => some (.mailboxAttestationQuote m)
  | 9 => some (.mailboxUpdate m)
  | 10 => some (.mailboxSelectBar4Context m)
  | _ => none

/-- A write into the mailbox is taken (R440): operands and reserved bytes are stored, and a code in byte 0 is a command, which is
dropped and counted while byte 0 is not 0. -/
def mailStore (s : State) (o : Nat) (data : List Byte) : State :=
  let code := if o = 0 then (data.headD 0).toNat else 0
  if mailCode s ≠ 0 then (if code ≠ 0 then countHost s else s)
  else
    let keep (i : Nat) : Bool := decide (2 ≤ i) && !(decide (8 ≤ i) && decide (i < 16))
    let s := (List.range data.length).foldl (fun s i =>
      if keep (o + i) && o + i < 64 then putMail s (o + i) [data.getD i 0] else s) s
    if code = 0 then s
    else match commandOf s code with
      | some e => ((putMail s 0 [BitVec.ofNat 8 code]).onHub (fun h => { h with fresh := true })).post e
      | none => mailAnswer s 0 1

/-- A write into the mailbox (R440): one that comes while the hub is being updated waits in its order (R448). -/
def mailWrite (s : State) (o : Nat) (data : List Byte) : State :=
  if s.hub.updating.contains 4 then mailWaits s o data else mailStore s o data

/-- The writes that waited are applied in their order. -/
def openInbox (s : State) : State :=
  if s.hub.updating.contains 4 then s
  else s.hub.inbox.foldl (fun s w => if w.1 < mailBase then hostWrite s w.1 w.2 else mailStore s (w.1 - mailBase) w.2)
    (s.onHub (fun h => { h with inbox := [] }))

/-- UPDATE_COMPLETE (R448): the deferred work resumes and the command is answered. In minimal mode the failure count is cleared
and the device starts again (R445). -/
def execUpdateComplete (die : Nat) (s : State) : Out :=
  if !s.hub.updating.contains die then .next s
  else
    let s := s.onHub (fun h => { h with updating := h.updating.filter (fun d => d ≠ die) })
    let s := if s.hub.minimal then (noteHealth s (s.onHub (fun h => { h with fails := 0, minimal := false }))).post .deviceStart
      else s
    .next (openInbox (firmwareIdle (wakeLaunches (mailAnswer s 0 0))))

/-- The regions of BAR0 that hold registers (R439), as first offset and size. -/
def bar0Regions : List (Nat × Nat) :=
  [(0x0, 8), (0x100, 8), (0x200, 8), (0x300, 8), (0x400, 32), (0x1000, 64), (0x100000, 0x40000), (0x200000, 0x8000), (0x208000, 256),
   (0x300000, 72)]

/-- BAR0_REGISTER_WRITE (R439): the mailbox, the MSI-X table and the host-error counter take writes; read-only registers drop
them, and a reserved offset drops and counts them. -/
def execBar0RegisterWrite (offset : Nat) (data : List Byte) (s : State) : Out :=
  if 0x200000 ≤ offset && offset < 0x208000 then .next (unmask (s.onHub (fun h => { h with
    msix := h.msix.setAll ((cellsAt (offset - 0x200000) data).filter (fun c => c.1 < 0x8000)) })))
  else if 0x1000 ≤ offset && offset < 0x1040 then .next (mailWrite s (offset - 0x1000) data)
  else if 0x300 ≤ offset && offset < 0x308 then
    .next (if data.all (fun b => b = 0) then s.onHub (fun h => { h with hosterr := 0 }) else s)
  else if bar0Regions.any (fun r => r.1 ≤ offset && offset < r.1 + r.2) then .next s
  else .next (countHost s)

/-- The code of a record's state (05 R119). -/
def stateCode (b : Bind) (t : Option Team) : Nat := match b.st with
  | .empty => 0
  | .ready => 1
  | .saved => 4
  | _ => match t.map (fun (t : Team) => t.run) with
    | some (.parked _) => 3
    | _ => 2

/-- The 64 bytes of a bind record (05 R118), as the copy in BAR0 shows them. An empty record shows zeros (DESIGN CHOICE: the spec
states only its state field, log 69). -/
def recordBytes (s : State) (core place : Nat) : List Byte :=
  let b := (s.core core).recs.getD place Bind.reset
  match (if b.st = .empty then none else s.team? b.team) with
  | none => leBytes 64 0
  | some t =>
    let l := s.launch? t.launch
    let mate := (s.team? t.partner).map (fun x => slotOf x.place)
    leBytes 2 t.ctx ++ leBytes 1 (t.leaf + 4 * (if t.leaf = 2 then 0 else mate.getD 0)) ++ leBytes 1 (t.prio + 16 * stateCode b (some t)) ++
    leBytes 1 b.inh ++ leBytes 2 (b.lat0 % 32 + 32 * b.latN) ++ leBytes 1 (b.acc0 + 4 * b.accN) ++ leBytes 2 b.osize ++
    leBytes 2 b.obase ++ leBytes 2 b.ssize ++ leBytes 2 b.sbase ++ leBytes 1 (t.nv - 1) ++ leBytes 1 0 ++ leBytes 2 b.vbase ++
    leBytes 4 t.index ++ leBytes 8 t.widt.toNat ++ leBytes 8 ((l.map (fun l => l.hdrA.toNat)).getD 0) ++ leBytes 8 t.image ++
    leBytes 8 ((l.map (fun l => l.args.toNat)).getD 0) ++ leBytes 8 b.kimg

/-- One byte of BAR0 as the host reads it (R439); a reserved offset reads 0. -/
def bar0Byte (s : State) (o : Nat) : Byte :=
  let h := s.hub
  let at_ (base : Nat) (bs : List Byte) : Byte := bs.getD (o - base) 0
  if o < 0x100 then at_ 0 (leBytes 2 0x1F7A ++ leBytes 2 0x0389 ++ [Config.stepping])
  else if o < 0x200 then at_ 0x100 (leBytes 8 (bootWord h))
  else if o < 0x300 then at_ 0x200 (leBytes 8 (healthWord h))
  else if o < 0x400 then at_ 0x300 (leBytes 8 h.hosterr.toNat)
  else if o < 0x1000 then at_ 0x400 (h.fwfault.flatMap (fun w => leBytes 8 w.toNat))
  else if o < 0x100000 then at_ 0x1000 h.mail
  else if o < 0x140000 then (recordBytes s ((o - 0x100000) / 1024) ((o - 0x100000) / 64 % 16)).getD (o % 64) 0
  else if 0x200000 ≤ o && o < 0x208000 then h.msix.get (o - 0x200000)
  else if 0x208000 ≤ o && o < 0x208100 then
    BitVec.ofNat 8 (((List.range 8).filter (fun i => h.pba.contains (8 * (o - 0x208000) + i))).foldl (fun a i => a + 2 ^ i) 0)
  else if 0x300000 ≤ o && o < 0x300048 then at_ 0x300000 (h.attRec ++ leBytes 8 h.recCount)
  else 0

end Sys2Proof.Machine
end

