-- ==== Sys2Proof/Machine/Service.lean ====
section
/-!
DEFINITION. Boot, links and service life (20 R443, R445-R447, 09 R209, R216, 05 R127).
-/

namespace Sys2Proof.Machine

/-! ## Boot (R445) -/

/-- DEVICE_START (R445): the links are trained, the dies run, and ready is set; after three failed starts minimal mode runs, on
C-die 0 with the PCIe link only. -/
def execDeviceStart (s : State) : Out :=
  if s.hub.ready || s.hub.minimal then .next s
  else if 3 ≤ s.hub.fails then .next (noteHealth s (s.onHub (fun h => { h with
    minimal := true, cxlUp := List.replicate 2 false, palyrUp := List.replicate 72 false })))
  else .next (noteHealth s (s.onHub (fun h => { h with
    ready := true, fails := 0, cxlUp := List.replicate 2 true, palyrUp := List.replicate 72 true })))

/-- BOOT_FAILURE (R445): a start fails, with a reason, and the hub restarts. -/
def execBootFailure (reason : Nat) (s : State) : Out :=
  if s.hub.ready || s.hub.minimal then .next s
  else
    let s := { s with agenda := s.agenda.filter (fun (e : Ev) => e ≠ Ev.deviceStart) }
    .next ((noteHealth s (s.onHub (fun h => { h with fails := min 3 (h.fails + 1), reason := reason % 256 }))).post .deviceStart)

/-! ## Links and extents (R443, 09 R201, R216) -/

/-- CXL_PORT_DOWN (R443): the extents behind the port are out of reach. -/
def execCxlPortDown (port : Nat) (s : State) : Out :=
  .next (failTier (s.onHub (fun h => { h with cxlUp := h.cxlUp.modify port (fun _ => false) })))

/-- PALYR_PORT_DOWN (R443): the traffic moves to the other planes; with the last port, peers are out of reach. -/
def execPalyrPortDown (port : Nat) (s : State) : Out :=
  .next (failTier (s.onHub (fun h => { h with palyrUp := h.palyrUp.modify port (fun _ => false) })))

/-- The pages of an extent in one context are unmapped, and their shootdowns begin (09 R216). -/
def unmapExtent (ext : Nat) (s : State) (c : Context) : State :=
  (extPages s c ext).foldl (fun s p =>
    let e := s.mem.num (physKey 0 p.1) 8
    let s := s.apply (cellsAt (physKey 0 p.1) (leBytes 8 (e - e % 2)))
    let va : Word64 := BitVec.ofNat 64 (tagAddr (p.2.1 / 256))
    (s.onHub (fun h => { h with shoots := h.shoots ++ [(c.num, va.toNat, p.2.2)] })).post (.shootdownComplete c.num va p.2.2)) s

/-- Whether a request of the fault buffer waits for a page of an extent (09 R217). -/
def waitsFor (s : State) (ext : Nat) (q : FaultReq) : Bool :=
  match walk s q.ctx (2048 * q.blk) with
  | .absent e => pteTier e = 1 && pteExt e = ext
  | _ => false

/-- EXTENT_REVOKE (09 R216, R217): the pool takes an extent by force. Requests that wait for a page of it are looked up again and
fail. -/
def execExtentRevoke (ext : Nat) (s : State) : Out :=
  let s := s.onHub (fun h => { h with extents := match h.extents.find? (fun e => e.num = ext) with
    | some _ => h.extents.map (fun e => if e.num = ext then { e with revoked := true, held := false } else e)
    | none => h.extents ++ [{ num := ext, ctx := none, held := false, revoked := true }] })
  let s := s.ctxs.foldl (unmapExtent ext) s
  let qs := s.faults.filter (waitsFor s ext)
  .next (replay { s with faults := s.faults.filter (fun q => !waitsFor s ext q) } qs)

/-! ## Sparing (R446, R447, 05 R127) -/

/-- A unit of a kind was spared: the counter, and `replace` when the pool is exhausted (R447). -/
def spared (s : State) (kind : Nat) : State :=
  let before := s
  let s := s.onHub (fun h => match kind with
    | 0 => { h with cores := h.cores + 1 }
    | 1 => { h with chans := h.chans + 1 }
    | _ => { h with slices := h.slices + 1 })
  let n := match kind with
    | 0 => s.hub.cores
    | 1 => s.hub.chans
    | _ => s.hub.slices
  noteHealth before (s.onHub (fun h => { h with replace := h.replace || decide (Config.sparePool kind ≤ n) }))

/-- The launches that have a team on spared places: each ends with status 0x08, and a team that has not started is placed
elsewhere (05 R127). -/
def losePlaces (s : State) (lost : Team → Bool) : State :=
  s.teams.foldl (fun s t =>
    if !lost t || t.run = .done then s
    else if t.run = .ready then unbind s t
    else match s.launch? t.launch with
      | some l => if l.phase = .ended then s else endLaunch s l.id 0x08
      | none => s) s

/-- SPARE_CORE (R446, 05 R127): a core, or one slot of it, goes out of service. A slot is no spared core of the health word (R447). -/
def execSpareCore (core : Nat) (slot : Option Nat) (s : State) : Out :=
  let slots := match slot with
    | some n => [n]
    | none => [0, 1, 2, 3]
  let hit (c place : Nat) : Bool := c = core && slots.contains (slotOf place)
  let s := s.onHub (fun h => { h with sparedSlots := uniq (h.sparedSlots ++ slots.map (fun n => (core, n))) })
  let s := releaseHolds s (fun k => hit k.core k.place)
  let s := losePlaces s (fun t => hit t.core t.place)
  .next (wakeLaunches (if slot.isNone then spared s 0 else s))

/-- SPARE_CHANNEL (R446): the blocks of a channel move; accesses to them wait until the sparing ends. -/
def execSpareChannel (channel : Nat) (s : State) : Out :=
  .next ((spared (s.onHub (fun h => { h with movingCh := h.movingCh ++ [channel] })) 1).postOnce .sparingEnd)

/-- SPARE_SLICE (R446): the lines of a slice move to the slices that `moves` names, the others to firmware's choice; accesses to
them wait until the sparing ends. -/
def execSpareSlice (slice : Nat) (moves : List (Nat × Nat)) (s : State) : Out :=
  .next ((spared (s.onHub (fun h => { h with moving := h.moving ++ [(slice, moves)] })) 2).postOnce .sparingEnd)

/-- The slice that takes over from a spared one: the next that is in service. -/
def replacement (s : State) (slice : Nat) : Nat :=
  ((List.range 255).map (fun i => (slice + 1 + i) % 256)).find? (fun x =>
    !s.hub.spareHomes.any (fun h => h.1 = x) && !s.hub.moving.any (fun m => m.1 = x)) |>.getD slice

/-- The lines of a slice have their new homes, and with them the entries of its hasp table and its queue records, of which a slice
holds 1,024 (00 R6, 15 R334). -/
def rehomeSlice (s : State) (slice : Nat) (moves : List (Nat × Nat)) : State :=
  let y := replacement s slice
  let mine := moves.filter (fun m => homeSlice s (256 * m.1) = slice)
  let moved := s.homes.map (fun (x : Nat × Nat) => if x.2 = slice then (x.1, y) else x)
  let homes := moved.filter (fun h => !mine.any (fun m => m.1 = h.1)) ++ mine
  let s := { s with homes := homes }
  let took := s.hub.spareHomes.map (fun (x : Nat × Nat) => if x.2 = slice then (x.1, y) else x)
  let s := s.onHub (fun h => { h with spareHomes := took ++ [(slice, y)] })
  let s := { s with
    hasps := s.hasps.flatMap (fun (h : Hasp) =>
      if h.slice ≠ slice then [h]
      else (slicesOf s h.lines).map (fun n => ({ h with slice := n, lines := linesHomed s h.lines n } : Hasp))) }
  (s.queues.filter (fun q => q.slice = slice)).foldl (fun s q => s.onQueue q.num (fun q => { q with slice := queueRoom s y })) s

/-- SPARING_END (R446): the lines have moved, and the waiting accesses proceed. -/
def execSparingEnd (s : State) : Out :=
  let ms := s.hub.moving
  let s := ms.foldl (fun s m => rehomeSlice s m.1 m.2) s
  let s := s.onHub (fun h => { h with moving := [], movingCh := [] })
  .next ((uniq (s.hasps.map (fun h => h.slice))).foldl (fun s n => s.postOnce (.setGrant n)) s)

/-! ## Errors and refresh (R447, 09 R209) -/

/-- SOFT_ERROR_CORRECTED (R447): the count of the last hour goes up. -/
def execSoftErrorCorrected (s : State) : Out :=
  .next ((noteHealth s (s.onHub (fun h => { h with soft := h.soft + 1 }))).post .softErrorWindowExpiry)

/-- SOFT_ERROR_WINDOW_EXPIRY (R447): an error leaves the window of an hour. -/
def execSoftErrorWindowExpiry (s : State) : Out := .next (noteHealth s (s.onHub (fun h => { h with soft := h.soft - 1 })))

/-- UNCORRECTABLE_ERROR (R447): an error that recurs in a unit sets `replace`. -/
def execUncorrectableError (unit : Nat) (s : State) : Out :=
  if s.hub.errSeen.contains unit then .next (noteHealth s (s.onHub (fun h => { h with replace := true })))
  else .next (s.onHub (fun h => { h with errSeen := h.errSeen ++ [unit] }))

/-- SUBARRAY_REFRESH (09 R209): it delays reads, and changes nothing that a program or the host reads. -/
def execSubarrayRefresh (_bank _subarray : Nat) (s : State) : Out := .next s

end Sys2Proof.Machine
end

