-- ==== Sys2Proof/Machine/Dispatch.lean ====
section
/-!
DEFINITION. One arm for each constructor of `Instr`: the call of its meaning.
-/

namespace Sys2Proof.Machine

/-- The meaning of every instruction and event. -/
def exec (i : Instr) (s : State) : Host.Outcome State Fault Refusal :=
  match i with
  | .nopShort x => Sys2Proof.Machine.execNopShort x s
  | .vmov x => Sys2Proof.Machine.execVmov x s
  | .smov x => Sys2Proof.Machine.execSmov x s
  | .vaddI32Short x => Sys2Proof.Machine.execVaddI32Short x s
  | .vsubI32Short x => Sys2Proof.Machine.execVsubI32Short x s
  | .vandShort x => Sys2Proof.Machine.execVandShort x s
  | .vorShort x => Sys2Proof.Machine.execVorShort x s
  | .vxorShort x => Sys2Proof.Machine.execVxorShort x s
  | .vshlShort x => Sys2Proof.Machine.execVshlShort x s
  | .vshrShort x => Sys2Proof.Machine.execVshrShort x s
  | .vaddF32Short x => Sys2Proof.Machine.execVaddF32Short x s
  | .vmulF32Short x => Sys2Proof.Machine.execVmulF32Short x s
  | .vminF32Short x => Sys2Proof.Machine.execVminF32Short x s
  | .vmaxF32Short x => Sys2Proof.Machine.execVmaxF32Short x s
  | .saddShort x => Sys2Proof.Machine.execSaddShort x s
  | .ssubShort x => Sys2Proof.Machine.execSsubShort x s
  | .sandShort x => Sys2Proof.Machine.execSandShort x s
  | .sorShort x => Sys2Proof.Machine.execSorShort x s
  | .sshlShort x => Sys2Proof.Machine.execSshlShort x s
  | .sshrShort x => Sys2Proof.Machine.execSshrShort x s
  | .braShort x => Sys2Proof.Machine.execBraShort x s
  | .bmzShort x => Sys2Proof.Machine.execBmzShort x s
  | .bmnzShort x => Sys2Proof.Machine.execBmnzShort x s
  | .loopShort x => Sys2Proof.Machine.execLoopShort x s
  | .ldvShort x => Sys2Proof.Machine.execLdvShort x s
  | .stvShort x => Sys2Proof.Machine.execStvShort x s
  | .ldsShort x => Sys2Proof.Machine.execLdsShort x s
  | .stsShort x => Sys2Proof.Machine.execStsShort x s
  | .qpopShort x => Sys2Proof.Machine.execQpopShort x s
  | .tendShort x => Sys2Proof.Machine.execTendShort x s
  | .ychkShort x => Sys2Proof.Machine.execYchkShort x s
  | .bra x => Sys2Proof.Machine.execBra x s
  | .bmz x => Sys2Proof.Machine.execBmz x s
  | .bmnz x => Sys2Proof.Machine.execBmnz x s
  | .bsc x => Sys2Proof.Machine.execBsc x s
  | .call x => Sys2Proof.Machine.execCall x s
  | .ret x => Sys2Proof.Machine.execRet x s
  | .jmp x => Sys2Proof.Machine.execJmp x s
  | .loop x => Sys2Proof.Machine.execLoop x s
  | .texit x => Sys2Proof.Machine.execTexit x s
  | .brk x => Sys2Proof.Machine.execBrk x s
  | .nop x => Sys2Proof.Machine.execNop x s
  | .pmask x => Sys2Proof.Machine.execPmask x s
  | .mpred x => Sys2Proof.Machine.execMpred x s
  | .mpop x => Sys2Proof.Machine.execMpop x s
  | .mfirst x => Sys2Proof.Machine.execMfirst x s
  | .sadd x => Sys2Proof.Machine.execSadd x s
  | .ssub x => Sys2Proof.Machine.execSsub x s
  | .smul x => Sys2Proof.Machine.execSmul x s
  | .smulh x => Sys2Proof.Machine.execSmulh x s
  | .sand x => Sys2Proof.Machine.execSand x s
  | .sor x => Sys2Proof.Machine.execSor x s
  | .sxor x => Sys2Proof.Machine.execSxor x s
  | .sandn x => Sys2Proof.Machine.execSandn x s
  | .sshl x => Sys2Proof.Machine.execSshl x s
  | .sshr x => Sys2Proof.Machine.execSshr x s
  | .ssar x => Sys2Proof.Machine.execSsar x s
  | .smin x => Sys2Proof.Machine.execSmin x s
  | .smax x => Sys2Proof.Machine.execSmax x s
  | .sclz x => Sys2Proof.Machine.execSclz x s
  | .spopc x => Sys2Proof.Machine.execSpopc x s
  | .sbfe x => Sys2Proof.Machine.execSbfe x s
  | .sbfi x => Sys2Proof.Machine.execSbfi x s
  | .ssel x => Sys2Proof.Machine.execSsel x s
  | .scmp x => Sys2Proof.Machine.execScmp x s
  | .sdiv x => Sys2Proof.Machine.execSdiv x s
  | .vintVadd x => Sys2Proof.Machine.execVintVadd x s
  | .vintVsub x => Sys2Proof.Machine.execVintVsub x s
  | .vintVmul x => Sys2Proof.Machine.execVintVmul x s
  | .vmulh x => Sys2Proof.Machine.execVmulh x s
  | .vmad x => Sys2Proof.Machine.execVmad x s
  | .vintVmin x => Sys2Proof.Machine.execVintVmin x s
  | .vintVmax x => Sys2Proof.Machine.execVintVmax x s
  | .vabs x => Sys2Proof.Machine.execVabs x s
  | .vand x => Sys2Proof.Machine.execVand x s
  | .vor x => Sys2Proof.Machine.execVor x s
  | .vxor x => Sys2Proof.Machine.execVxor x s
  | .vandn x => Sys2Proof.Machine.execVandn x s
  | .vnot x => Sys2Proof.Machine.execVnot x s
  | .vshl x => Sys2Proof.Machine.execVshl x s
  | .vshr x => Sys2Proof.Machine.execVshr x s
  | .vsar x => Sys2Proof.Machine.execVsar x s
  | .vclz x => Sys2Proof.Machine.execVclz x s
  | .vpopc x => Sys2Proof.Machine.execVpopc x s
  | .vbrev x => Sys2Proof.Machine.execVbrev x s
  | .vbfe x => Sys2Proof.Machine.execVbfe x s
  | .vbfi x => Sys2Proof.Machine.execVbfi x s
  | .vsel x => Sys2Proof.Machine.execVsel x s
  | .vilv x => Sys2Proof.Machine.execVilv x s
  | .vdil x => Sys2Proof.Machine.execVdil x s
  | .vlaneid x => Sys2Proof.Machine.execVlaneid x s
  | .vaddc x => Sys2Proof.Machine.execVaddc x s
  | .vfpVadd x => Sys2Proof.Machine.execVfpVadd x s
  | .vfpVsub x => Sys2Proof.Machine.execVfpVsub x s
  | .vfpVmul x => Sys2Proof.Machine.execVfpVmul x s
  | .vfma x => Sys2Proof.Machine.execVfma x s
  | .vfpVmin x => Sys2Proof.Machine.execVfpVmin x s
  | .vfpVmax x => Sys2Proof.Machine.execVfpVmax x s
  | .vmed3 x => Sys2Proof.Machine.execVmed3 x s
  | .vrint x => Sys2Proof.Machine.execVrint x s
  | .vfract x => Sys2Proof.Machine.execVfract x s
  | .vldexp x => Sys2Proof.Machine.execVldexp x s
  | .vfrexp x => Sys2Proof.Machine.execVfrexp x s
  | .vclass x => Sys2Proof.Machine.execVclass x s
  | .vcopysign x => Sys2Proof.Machine.execVcopysign x s
  | .vcvt x => Sys2Proof.Machine.execVcvt x s
  | .vpackn x => Sys2Proof.Machine.execVpackn x s
  | .vunpackn x => Sys2Proof.Machine.execVunpackn x s
  | .vbscale x => Sys2Proof.Machine.execVbscale x s
  | .vquant x => Sys2Proof.Machine.execVquant x s
  | .vrcp x => Sys2Proof.Machine.execVrcp x s
  | .vrsq x => Sys2Proof.Machine.execVrsq x s
  | .vsqrt x => Sys2Proof.Machine.execVsqrt x s
  | .vex2 x => Sys2Proof.Machine.execVex2 x s
  | .vlg2 x => Sys2Proof.Machine.execVlg2 x s
  | .vsin x => Sys2Proof.Machine.execVsin x s
  | .vcos x => Sys2Proof.Machine.execVcos x s
  | .vtanh x => Sys2Proof.Machine.execVtanh x s
  | .vrot x => Sys2Proof.Machine.execVrot x s
  | .vdiv x => Sys2Proof.Machine.execVdiv x s
  | .vdot8 x => Sys2Proof.Machine.execVdot8 x s
  | .vdot4 x => Sys2Proof.Machine.execVdot4 x s
  | .vdotf8 x => Sys2Proof.Machine.execVdotf8 x s
  | .vdotf4 x => Sys2Proof.Machine.execVdotf4 x s
  | .shfl x => Sys2Proof.Machine.execShfl x s
  | .shfx x => Sys2Proof.Machine.execShfx x s
  | .shfr x => Sys2Proof.Machine.execShfr x s
  | .bcast x => Sys2Proof.Machine.execBcast x s
  | .vote x => Sys2Proof.Machine.execVote x s
  | .reduce x => Sys2Proof.Machine.execReduce x s
  | .scan x => Sys2Proof.Machine.execScan x s
  | .vcmp x => Sys2Proof.Machine.execVcmp x s
  | .plog x => Sys2Proof.Machine.execPlog x s
  | .pset x => Sys2Proof.Machine.execPset x s
  | .ld x => Sys2Proof.Machine.execLd x s
  | .st x => Sys2Proof.Machine.execSt x s
  | .ldv x => Sys2Proof.Machine.execLdv x s
  | .stv x => Sys2Proof.Machine.execStv x s
  | .lds x => Sys2Proof.Machine.execLds x s
  | .sts x => Sys2Proof.Machine.execSts x s
  | .ldsp x => Sys2Proof.Machine.execLdsp x s
  | .stsp x => Sys2Proof.Machine.execStsp x s
  | .pref x => Sys2Proof.Machine.execPref x s
  | .atom x => Sys2Proof.Machine.execAtom x s
  | .red x => Sys2Proof.Machine.execRed x s
  | .atoms x => Sys2Proof.Machine.execAtoms x s
  | .fence x => Sys2Proof.Machine.execFence x s
  | .xfence x => Sys2Proof.Machine.execXfence x s
  | .mwait x => Sys2Proof.Machine.execMwait x s
  | .tlook x => Sys2Proof.Machine.execTlook x s
  | .tfill x => Sys2Proof.Machine.execTfill x s
  | .tevict x => Sys2Proof.Machine.execTevict x s
  | .tset x => Sys2Proof.Machine.execTset x s
  | .tinv x => Sys2Proof.Machine.execTinv x s
  | .cpy x => Sys2Proof.Machine.execCpy x s
  | .cpyg x => Sys2Proof.Machine.execCpyg x s
  | .cpyw x => Sys2Proof.Machine.execCpyw x s
  | .cpyq x => Sys2Proof.Machine.execCpyq x s
  | .ltinit x => Sys2Proof.Machine.execLtinit x s
  | .ltarr x => Sys2Proof.Machine.execLtarr x s
  | .ltwait x => Sys2Proof.Machine.execLtwait x s
  | .yield x => Sys2Proof.Machine.execYield x s
  | .mlease x => Sys2Proof.Machine.execMlease x s
  | .mrelease x => Sys2Proof.Machine.execMrelease x s
  | .pintle x => Sys2Proof.Machine.execPintle x s
  | .pnwait x => Sys2Proof.Machine.execPnwait x s
  | .obres x => Sys2Proof.Machine.execObres x s
  | .obfree x => Sys2Proof.Machine.execObfree x s
  | .obput x => Sys2Proof.Machine.execObput x s
  | .mma x => Sys2Proof.Machine.execMma x s
  | .mmas x => Sys2Proof.Machine.execMmas x s
  | .acz x => Sys2Proof.Machine.execAcz x s
  | .resolve x => Sys2Proof.Machine.execResolve x s
  | .accmp x => Sys2Proof.Machine.execAccmp x s
  | .acst x => Sys2Proof.Machine.execAcst x s
  | .acld x => Sys2Proof.Machine.execAcld x s
  | .acadd x => Sys2Proof.Machine.execAcadd x s
  | .acanch x => Sys2Proof.Machine.execAcanch x s
  | .asdecl x => Sys2Proof.Machine.execAsdecl x s
  | .asclr x => Sys2Proof.Machine.execAsclr x s
  | .asqry x => Sys2Proof.Machine.execAsqry x s
  | .asundo x => Sys2Proof.Machine.execAsundo x s
  | .qpop x => Sys2Proof.Machine.execQpop x s
  | .qpush x => Sys2Proof.Machine.execQpush x s
  | .qwpush x => Sys2Proof.Machine.execQwpush x s
  | .tend x => Sys2Proof.Machine.execTend x s
  | .dcdec x => Sys2Proof.Machine.execDcdec x s
  | .qinfo x => Sys2Proof.Machine.execQinfo x s
  | .hld x => Sys2Proof.Machine.execHld x s
  | .hwalk x => Sys2Proof.Machine.execHwalk x s
  | .mfst x => Sys2Proof.Machine.execMfst x s
  | .mfseal x => Sys2Proof.Machine.execMfseal x s
  | .chadv x => Sys2Proof.Machine.execChadv x s
  | .mfshort x => Sys2Proof.Machine.execMfshort x s
  | .mfinv x => Sys2Proof.Machine.execMfinv x s
  | .chqry x => Sys2Proof.Machine.execChqry x s
  | .kvx x => Sys2Proof.Machine.execKvx x s
  | .kvmap x => Sys2Proof.Machine.execKvmap x s
  | .kvshare x => Sys2Proof.Machine.execKvshare x s
  | .kvlen x => Sys2Proof.Machine.execKvlen x s
  | .kvpin x => Sys2Proof.Machine.execKvpin x s
  | .kvunpin x => Sys2Proof.Machine.execKvunpin x s
  | .sld x => Sys2Proof.Machine.execSld x s
  | .sst x => Sys2Proof.Machine.execSst x s
  | .samp x => Sys2Proof.Machine.execSamp x s
  | .sqry x => Sys2Proof.Machine.execSqry x s
  | .binbeg x => Sys2Proof.Machine.execBinbeg x s
  | .primr x => Sys2Proof.Machine.execPrimr x s
  | .primt x => Sys2Proof.Machine.execPrimt x s
  | .prims x => Sys2Proof.Machine.execPrims x s
  | .binend x => Sys2Proof.Machine.execBinend x s
  | .fragout x => Sys2Proof.Machine.execFragout x s
  | .tstat x => Sys2Proof.Machine.execTstat x s
  | .srd x => Sys2Proof.Machine.execSrd x s
  | .swr x => Sys2Proof.Machine.execSwr x s
  | .trap x => Sys2Proof.Machine.execTrap x s
  | .tret x => Sys2Proof.Machine.execTret x s
  | .ychk x => Sys2Proof.Machine.execYchk x s
  | .ysave x => Sys2Proof.Machine.execYsave x s
  | .rmovx x => Sys2Proof.Machine.execRmovx x s
  | .rstx x => Sys2Proof.Machine.execRstx x s
  | .shape x => Sys2Proof.Machine.execShape x s
  | .shqry x => Sys2Proof.Machine.execShqry x s
  | .rkeep x => Sys2Proof.Machine.execRkeep x s
  | .vbcs x => Sys2Proof.Machine.execVbcs x s
  | .vext x => Sys2Proof.Machine.execVext x s
  | .instructionFetch team => Sys2Proof.Machine.execInstructionFetch team s
  | .mailboxCreateContext m => Sys2Proof.Machine.execMailboxCreateContext m s
  | .mailboxDestroyContext m => Sys2Proof.Machine.execMailboxDestroyContext m s
  | .mailboxCreateQueue m => Sys2Proof.Machine.execMailboxCreateQueue m s
  | .mailboxDestroyQueue m => Sys2Proof.Machine.execMailboxDestroyQueue m s
  | .mailboxSwitchContextOut m => Sys2Proof.Machine.execMailboxSwitchContextOut m s
  | .mailboxSwitchContextIn m => Sys2Proof.Machine.execMailboxSwitchContextIn m s
  | .mailboxGrantExtent m => Sys2Proof.Machine.execMailboxGrantExtent m s
  | .mailboxReleaseExtent m => Sys2Proof.Machine.execMailboxReleaseExtent m s
  | .extentReleaseDone extent => Sys2Proof.Machine.execExtentReleaseDone extent s
  | .mailboxClearOverflow m => Sys2Proof.Machine.execMailboxClearOverflow m s
  | .mailboxLoadImage m => Sys2Proof.Machine.execMailboxLoadImage m s
  | .mailboxAttestationQuote m => Sys2Proof.Machine.execMailboxAttestationQuote m s
  | .mailboxUpdate m => Sys2Proof.Machine.execMailboxUpdate m s
  | .updateComplete die => Sys2Proof.Machine.execUpdateComplete die s
  | .mailboxSelectBar4Context m => Sys2Proof.Machine.execMailboxSelectBar4Context m s
  | .hosterrClear => Sys2Proof.Machine.execHosterrClear s
  | .bar0RegisterWrite offset data => Sys2Proof.Machine.execBar0RegisterWrite offset data s
  | .hostEnqueue offset data => Sys2Proof.Machine.execHostEnqueue offset data s
  | .overflowAppend queue => Sys2Proof.Machine.execOverflowAppend queue s
  | .bar4Read va len => Sys2Proof.Machine.execBar4Read va len s
  | .bar4Write va data => Sys2Proof.Machine.execBar4Write va data s
  | .deviceStart => Sys2Proof.Machine.execDeviceStart s
  | .bootFailure reason => Sys2Proof.Machine.execBootFailure reason s
  | .cxlPortDown port => Sys2Proof.Machine.execCxlPortDown port s
  | .palyrPortDown port => Sys2Proof.Machine.execPalyrPortDown port s
  | .heartbeatTick => Sys2Proof.Machine.execHeartbeatTick s
  | .extentRevoke extent => Sys2Proof.Machine.execExtentRevoke extent s
  | .shootdown ctx va len ptes => Sys2Proof.Machine.execShootdown ctx va len ptes s
  | .spareCore core slot => Sys2Proof.Machine.execSpareCore core slot s
  | .spareChannel channel => Sys2Proof.Machine.execSpareChannel channel s
  | .spareSlice slice moves => Sys2Proof.Machine.execSpareSlice slice moves s
  | .sparingEnd => Sys2Proof.Machine.execSparingEnd s
  | .softErrorCorrected => Sys2Proof.Machine.execSoftErrorCorrected s
  | .subarrayRefresh bank subarray => Sys2Proof.Machine.execSubarrayRefresh bank subarray s
  | .launchEntryArrival queue entry => Sys2Proof.Machine.execLaunchEntryArrival queue entry s
  | .headerFetch launch => Sys2Proof.Machine.execHeaderFetch launch s
  | .teamPlacement launch places => Sys2Proof.Machine.execTeamPlacement launch places s
  | .dispatchStart core place => Sys2Proof.Machine.execDispatchStart core place s
  | .argumentArrival team index => Sys2Proof.Machine.execArgumentArrival team index s
  | .launchStatusWrite launch => Sys2Proof.Machine.execLaunchStatusWrite launch s
  | .texitComplete team => Sys2Proof.Machine.execTexitComplete team s
  | .preemptRequest team => Sys2Proof.Machine.execPreemptRequest team s
  | .ydlExpiry team => Sys2Proof.Machine.execYdlExpiry team s
  | .timesliceExpiry team => Sys2Proof.Machine.execTimesliceExpiry team s
  | .saveComplete team => Sys2Proof.Machine.execSaveComplete team s
  | .recordReclaim core place => Sys2Proof.Machine.execRecordReclaim core place s
  | .restoreRequest core place team => Sys2Proof.Machine.execRestoreRequest core place team s
  | .restoreComplete team => Sys2Proof.Machine.execRestoreComplete team s
  | .accessResponse flight => Sys2Proof.Machine.execAccessResponse flight s
  | .translationWalk flight => Sys2Proof.Machine.execTranslationWalk flight s
  | .faultServiced ctx va pteAddr pte => Sys2Proof.Machine.execFaultServiced ctx va pteAddr pte s
  | .faultDeclined ctx va => Sys2Proof.Machine.execFaultDeclined ctx va s
  | .storeFailure write cause => Sys2Proof.Machine.execStoreFailure write cause s
  | .releaseGateOpen write => Sys2Proof.Machine.execReleaseGateOpen write s
  | .redCombine write => Sys2Proof.Machine.execRedCombine write s
  | .mwaitWake team => Sys2Proof.Machine.execMwaitWake team s
  | .mwaitTimeout team => Sys2Proof.Machine.execMwaitTimeout team s
  | .mwaitRepoll team => Sys2Proof.Machine.execMwaitRepoll team s
  | .fenceComplete team => Sys2Proof.Machine.execFenceComplete team s
  | .fillComplete core line => Sys2Proof.Machine.execFillComplete core line s
  | .fillFailure core line cause => Sys2Proof.Machine.execFillFailure core line cause s
  | .writebackComplete core line => Sys2Proof.Machine.execWritebackComplete core line s
  | .writebackFailure core line cause => Sys2Proof.Machine.execWritebackFailure core line cause s
  | .poolUseEnd core ctx => Sys2Proof.Machine.execPoolUseEnd core ctx s
  | .copyDescriptorRead core copy => Sys2Proof.Machine.execCopyDescriptorRead core copy s
  | .copyComplete core copy => Sys2Proof.Machine.execCopyComplete core copy s
  | .latchArrival core launch latch count => Sys2Proof.Machine.execLatchArrival core launch latch count s
  | .leaseGrant core => Sys2Proof.Machine.execLeaseGrant core s
  | .leaseIdleExpiry core => Sys2Proof.Machine.execLeaseIdleExpiry core s
  | .mmaExecute core => Sys2Proof.Machine.execMmaExecute core s
  | .obfreeRelease core record => Sys2Proof.Machine.execObfreeRelease core record s
  | .resolveComplete flight => Sys2Proof.Machine.execResolveComplete flight s
  | .acstComplete flight => Sys2Proof.Machine.execAcstComplete flight s
  | .acldComplete flight => Sys2Proof.Machine.execAcldComplete flight s
  | .sfuComplete flight => Sys2Proof.Machine.execSfuComplete flight s
  | .setRequestArrival team slot => Sys2Proof.Machine.execSetRequestArrival team slot s
  | .setGrant slice => Sys2Proof.Machine.execSetGrant slice s
  | .woundTake team => Sys2Proof.Machine.execWoundTake team s
  | .rollbackComplete team => Sys2Proof.Machine.execRollbackComplete team s
  | .tendCommit team => Sys2Proof.Machine.execTendCommit team s
  | .queuePushArrival push => Sys2Proof.Machine.execQueuePushArrival push s
  | .queuePopArrival team => Sys2Proof.Machine.execQueuePopArrival team s
  | .dcdecApply flight => Sys2Proof.Machine.execDcdecApply flight s
  | .qwpushPayloadDone flight => Sys2Proof.Machine.execQwpushPayloadDone flight s
  | .walkComplete flight => Sys2Proof.Machine.execWalkComplete flight s
  | .walkWaitRetest flight => Sys2Proof.Machine.execWalkWaitRetest flight s
  | .mfstApply flight => Sys2Proof.Machine.execMfstApply flight s
  | .mfsealApply flight => Sys2Proof.Machine.execMfsealApply flight s
  | .chadvApply flight => Sys2Proof.Machine.execChadvApply flight s
  | .mfshortComplete flight => Sys2Proof.Machine.execMfshortComplete flight s
  | .kvxComplete flight => Sys2Proof.Machine.execKvxComplete flight s
  | .kvxWaitRetest flight => Sys2Proof.Machine.execKvxWaitRetest flight s
  | .kvMoveComplete move => Sys2Proof.Machine.execKvMoveComplete move s
  | .detentExpiry => Sys2Proof.Machine.execDetentExpiry s
  | .victimConfirm index => Sys2Proof.Machine.execVictimConfirm index s
  | .victimVeto index => Sys2Proof.Machine.execVictimVeto index s
  | .victimReorder order => Sys2Proof.Machine.execVictimReorder order s
  | .evictionComplete move => Sys2Proof.Machine.execEvictionComplete move s
  | .samplerComplete flight => Sys2Proof.Machine.execSamplerComplete flight s
  | .tileProcess die pass => Sys2Proof.Machine.execTileProcess die pass s
  | .fragmentPush die pass => Sys2Proof.Machine.execFragmentPush die pass s
  | .tileComposite die pass => Sys2Proof.Machine.execTileComposite die pass s
  | .tileKill die pass => Sys2Proof.Machine.execTileKill die pass s
  | .trapDelivery team => Sys2Proof.Machine.execTrapDelivery team s
  | .tretResume team => Sys2Proof.Machine.execTretResume team s
  | .ysaveImage team => Sys2Proof.Machine.execYsaveImage team s
  | .shootdownComplete ctx va len => Sys2Proof.Machine.execShootdownComplete ctx va len s
  | .pcieLinkDown => Sys2Proof.Machine.execPcieLinkDown s
  | .writePerformed write => Sys2Proof.Machine.execWritePerformed write s
  | .palyrPeerAccess access => Sys2Proof.Machine.execPalyrPeerAccess access s
  | .uncorrectableError unit => Sys2Proof.Machine.execUncorrectableError unit s
  | .softErrorWindowExpiry => Sys2Proof.Machine.execSoftErrorWindowExpiry s

end Sys2Proof.Machine
end

