-- ==== Sys2Proof/Machine/Events.lean ====
section
/-!
DEFINITION. The events of the agenda: each does what `exec` does for its constructor of `Instr`; the AtomicOp of the
host, which has no row in the table, stands here alone (20 R438).
-/

namespace Sys2Proof.Machine

/-- What an event of the agenda does. -/
def execEv (e : Ev) (s : State) : Out :=
  match e with
  | .instructionFetch team => execInstructionFetch team s
  | .mailboxCreateContext m => execMailboxCreateContext m s
  | .mailboxDestroyContext m => execMailboxDestroyContext m s
  | .mailboxCreateQueue m => execMailboxCreateQueue m s
  | .mailboxDestroyQueue m => execMailboxDestroyQueue m s
  | .mailboxSwitchContextOut m => execMailboxSwitchContextOut m s
  | .mailboxSwitchContextIn m => execMailboxSwitchContextIn m s
  | .mailboxGrantExtent m => execMailboxGrantExtent m s
  | .mailboxReleaseExtent m => execMailboxReleaseExtent m s
  | .extentReleaseDone extent => execExtentReleaseDone extent s
  | .mailboxClearOverflow m => execMailboxClearOverflow m s
  | .mailboxLoadImage m => execMailboxLoadImage m s
  | .mailboxAttestationQuote m => execMailboxAttestationQuote m s
  | .mailboxUpdate m => execMailboxUpdate m s
  | .updateComplete die => execUpdateComplete die s
  | .mailboxSelectBar4Context m => execMailboxSelectBar4Context m s
  | .hosterrClear => execHosterrClear s
  | .bar0RegisterWrite offset data => execBar0RegisterWrite offset data s
  | .hostEnqueue offset data => execHostEnqueue offset data s
  | .overflowAppend queue => execOverflowAppend queue s
  | .bar4Read va len => execBar4Read va len s
  | .bar4Write va data => execBar4Write va data s
  | .hostAtomicOp va op ty data cmp => execHostAtomic va op ty data cmp s
  | .deviceStart => execDeviceStart s
  | .bootFailure reason => execBootFailure reason s
  | .cxlPortDown port => execCxlPortDown port s
  | .palyrPortDown port => execPalyrPortDown port s
  | .heartbeatTick => execHeartbeatTick s
  | .extentRevoke extent => execExtentRevoke extent s
  | .shootdown ctx va len ptes => execShootdown ctx va len ptes s
  | .spareCore core slot => execSpareCore core slot s
  | .spareChannel channel => execSpareChannel channel s
  | .spareSlice slice moves => execSpareSlice slice moves s
  | .sparingEnd => execSparingEnd s
  | .softErrorCorrected => execSoftErrorCorrected s
  | .subarrayRefresh bank subarray => execSubarrayRefresh bank subarray s
  | .launchEntryArrival queue entry => execLaunchEntryArrival queue entry s
  | .headerFetch launch => execHeaderFetch launch s
  | .teamPlacement launch places => execTeamPlacement launch places s
  | .dispatchStart core place => execDispatchStart core place s
  | .argumentArrival team index => execArgumentArrival team index s
  | .launchStatusWrite launch => execLaunchStatusWrite launch s
  | .texitComplete team => execTexitComplete team s
  | .preemptRequest team => execPreemptRequest team s
  | .ydlExpiry team => execYdlExpiry team s
  | .timesliceExpiry team => execTimesliceExpiry team s
  | .saveComplete team => execSaveComplete team s
  | .recordReclaim core place => execRecordReclaim core place s
  | .restoreRequest core place team => execRestoreRequest core place team s
  | .restoreComplete team => execRestoreComplete team s
  | .accessResponse flight => execAccessResponse flight s
  | .translationWalk flight => execTranslationWalk flight s
  | .faultServiced ctx va pteAddr pte => execFaultServiced ctx va pteAddr pte s
  | .faultDeclined ctx va => execFaultDeclined ctx va s
  | .storeFailure write cause => execStoreFailure write cause s
  | .releaseGateOpen write => execReleaseGateOpen write s
  | .redCombine write => execRedCombine write s
  | .mwaitWake team => execMwaitWake team s
  | .mwaitTimeout team => execMwaitTimeout team s
  | .mwaitRepoll team => execMwaitRepoll team s
  | .fenceComplete team => execFenceComplete team s
  | .fillComplete core line => execFillComplete core line s
  | .fillFailure core line cause => execFillFailure core line cause s
  | .writebackComplete core line => execWritebackComplete core line s
  | .writebackFailure core line cause => execWritebackFailure core line cause s
  | .poolUseEnd core ctx => execPoolUseEnd core ctx s
  | .copyDescriptorRead core copy => execCopyDescriptorRead core copy s
  | .copyComplete core copy => execCopyComplete core copy s
  | .latchArrival core launch latch count => execLatchArrival core launch latch count s
  | .leaseGrant core => execLeaseGrant core s
  | .leaseIdleExpiry core => execLeaseIdleExpiry core s
  | .mmaExecute core => execMmaExecute core s
  | .obfreeRelease core record => execObfreeRelease core record s
  | .resolveComplete flight => execResolveComplete flight s
  | .acstComplete flight => execAcstComplete flight s
  | .acldComplete flight => execAcldComplete flight s
  | .sfuComplete flight => execSfuComplete flight s
  | .setRequestArrival team slot => execSetRequestArrival team slot s
  | .setGrant slice => execSetGrant slice s
  | .woundTake team => execWoundTake team s
  | .rollbackComplete team => execRollbackComplete team s
  | .tendCommit team => execTendCommit team s
  | .queuePushArrival push => execQueuePushArrival push s
  | .queuePopArrival team => execQueuePopArrival team s
  | .dcdecApply flight => execDcdecApply flight s
  | .qwpushPayloadDone flight => execQwpushPayloadDone flight s
  | .walkComplete flight => execWalkComplete flight s
  | .walkWaitRetest flight => execWalkWaitRetest flight s
  | .mfstApply flight => execMfstApply flight s
  | .mfsealApply flight => execMfsealApply flight s
  | .chadvApply flight => execChadvApply flight s
  | .mfshortComplete flight => execMfshortComplete flight s
  | .kvxComplete flight => execKvxComplete flight s
  | .kvxWaitRetest flight => execKvxWaitRetest flight s
  | .kvMoveComplete move => execKvMoveComplete move s
  | .detentExpiry => execDetentExpiry s
  | .victimConfirm index => execVictimConfirm index s
  | .victimVeto index => execVictimVeto index s
  | .victimReorder order => execVictimReorder order s
  | .evictionComplete move => execEvictionComplete move s
  | .samplerComplete flight => execSamplerComplete flight s
  | .tileProcess die pass => execTileProcess die pass s
  | .fragmentPush die pass => execFragmentPush die pass s
  | .tileComposite die pass => execTileComposite die pass s
  | .tileKill die pass => execTileKill die pass s
  | .trapDelivery team => execTrapDelivery team s
  | .tretResume team => execTretResume team s
  | .ysaveImage team => execYsaveImage team s
  | .shootdownComplete ctx va len => execShootdownComplete ctx va len s
  | .pcieLinkDown => execPcieLinkDown s
  | .writePerformed write => execWritePerformed write s
  | .palyrPeerAccess access => execPalyrPeerAccess access s
  | .uncorrectableError unit => execUncorrectableError unit s
  | .softErrorWindowExpiry => execSoftErrorWindowExpiry s

end Sys2Proof.Machine
end

