-- ==== Sys2Proof/Machine/Sched.lean ====
section
/-!
DEFINITION. Which team or event takes a step, what happens at the boundary of a team, and the passing of time (02 R45, R58,
05 R122, R125, 09 R204, 19 R424).
-/

namespace Sys2Proof.Machine

/-- Whether the words at a team's program counter may lie in lines that move to a spare unit (20 R446). -/
def fetchMoves (s : State) (t : Team) : Bool :=
  s.sparing && (List.range 5).any (fun k => match translate s t.core t.ctx ((t.pc.toNat + 4 * k) % 2 ^ 64) 4 .fetch with
    | .ok g => lineMoves s g.key
    | _ => false)

/-- Whether a team may take a step now: it runs, and either a trap or wound can be taken at its boundary or its next instruction
may issue (02 R58, 19 R424). A team whose deadline is over issues no more (05 R125). A team parked on a fault takes a pending
imprecise trap (09 R206). The frame of a trap waits for the request port (R204). -/
def canStep (s : State) (t : Team) : Bool :=
  match t.run with
  | .running => (t.handler || t.ydl ≠ 0) && (match nextTrap t with
    | some _ => !s.busy t.uid && !portStalled s t.core
    | none => !(s.flightsOf t.uid).any Flight.blocks && !fetchMoves s t)
  | .parked .fault => !t.handler && t.ydl ≠ 0 && !t.pending.isEmpty && !s.busy t.uid && !portStalled s t.core
  | _ => false

/-! ## The issue choice of a slot (05 R122) -/

/-- Whether two teams are on one slot. -/
def sameSlot (t x : Team) : Bool := x.core = t.core && slotOf x.place = slotOf t.place

/-- Whether what a boundary has for a team is its next instruction, not a trap, a wound or a fetch that fails. -/
def atIssue (s : State) (t : Team) : Bool :=
  (nextTrap t).isNone && !(t.wound && !t.handler) && (match fetch s t with
    | .words (.ok _) => true
    | _ => false)

/-- What an instruction changes in its team when it issues: the program counter, the wait, a trap, the end of a partial run, and the
count of the instructions issued. -/
structure Mark where
  pc   : Word64
  run  : RunState
  aux  : List Nat
  due  : Option Trap
  part : Option (List Nat)
  no   : Nat
  deriving DecidableEq, Repr

/-- The mark of a team. -/
def Team.mark (t : Team) : Mark := { pc := t.pc, run := t.run, aux := t.aux, due := t.due, part := t.part, no := t.issueNo }

/-- Whether a team's instruction issued between two states. -/
def issued (before after : State) (u : Nat) : Bool :=
  decide ((after.team? u).map Team.mark ≠ (before.team? u).map Team.mark)

/-- Whether a team's next instruction issues now: the team is ready and not waiting (02 R58). -/
def issuesNow (s : State) (t : Team) : Bool :=
  canStep s t && atIssue s t && (match fetch s t with
    | .words (.ok i) =>
      (match exec i { s with cur := t.uid } with
       | .next u => issued s u t.uid
       | _ => true)
    | _ => false)

/-- The cycles that a team has waited since it last issued or last became ready. -/
def waited (s : State) (t : Team) : Nat := match t.readyAt with
  | none => 0
  | some r => s.clk.toNat - max r (t.lastIssue.getD 0)

/-- The effective priority of a team. -/
def effective (s : State) (t : Team) : Nat := t.prio + min 15 (waited s t / 256)

/-- Whether a team goes before another: the higher effective priority, then the earlier last issue, one that has never issued
before the others, and then the lower record. -/
def outranks (s : State) (t x : Team) : Bool :=
  decide (effective s x < effective s t) || (effective s t = effective s x && (match t.lastIssue, x.lastIssue with
    | none, none => decide (t.place < x.place)
    | none, some _ => true
    | some _, none => false
    | some m, some n => decide (m < n) || (m = n && decide (t.place < x.place))))

/-- The teams of a slot that may take a step. -/
def rivals (s : State) (t : Team) : List Team := s.teams.filter (fun x => canStep s x && sameSlot t x)

/-- Whether a team may be the one that takes a step: of the teams of a slot whose next instruction issues, the highest one; and any
team whose boundary has something else for it. -/
def eligible (s : State) (t : Team) : Bool :=
  canStep s t && (decide ((rivals s t).length ≤ 1) || !atIssue s t ||
    (issuesNow s t && (rivals s t).all (fun x => x.uid = t.uid || !issuesNow s x || outranks s t x)))

/-- The time at which a team became ready, kept while it stays ready, on a slot that has other teams (R122). -/
def Team.keepReady (s : State) (t : Team) : Team :=
  if (s.teams.filter (fun x => sameSlot t x && x.resident)).length ≤ 1 then { t with readyAt := none }
  else { t with readyAt := if issuesNow s t then some (t.readyAt.getD s.clk.toNat) else none }

/-- The time of an instruction's issue. -/
def stamp (before : State) (u : Nat) (s : State) : State :=
  if issued before s u then s.onTeam u (fun t => { t with lastIssue := some before.clk.toNat }) else s

/-! ## The request port (09 R204) -/

/-- The core whose request port an event goes through. -/
def Ev.portOf (s : State) (e : Ev) : Option Nat :=
  let team (u : Nat) : Option Nat := (s.team? u).map (fun t => t.core)
  let flight (f : Nat) : Option Nat := (s.flight? f).bind (fun f => team f.team)
  match e with
  | .translationWalk f | .walkComplete f | .walkWaitRetest f | .kvxComplete f | .kvxWaitRetest f | .samplerComplete f
  | .acstComplete f | .acldComplete f | .dcdecApply f | .qwpushPayloadDone f | .mfstApply f | .mfsealApply f | .chadvApply f
  | .mfshortComplete f | .accessResponse f => flight f
  | .copyDescriptorRead c _ | .copyComplete c _ | .fillComplete c _ | .writebackComplete c _ | .poolUseEnd c _ => some c
  | .instructionFetch u | .argumentArrival u _ | .setRequestArrival u _ | .mwaitRepoll u | .saveComplete u | .restoreComplete u
  | .trapDelivery u | .rollbackComplete u | .tendCommit u | .texitComplete u => team u
  | _ => none

/-- Whether an event accesses no memory, or waits itself for lines that move. -/
def Ev.spares : Ev → Bool
  | .sparingEnd | .spareCore _ _ | .spareChannel _ | .spareSlice _ _ | .softErrorCorrected | .softErrorWindowExpiry
  | .uncorrectableError _ | .subarrayRefresh _ _ | .deviceStart | .bootFailure _ | .updateComplete _ | .pcieLinkDown
  | .cxlPortDown _ | .palyrPortDown _ | .heartbeatTick | .hosterrClear | .bar0RegisterWrite _ _ | .accessResponse _
  | .writePerformed _ | .releaseGateOpen _ | .redCombine _ | .storeFailure _ _ | .fenceComplete _ | .mwaitWake _
  | .mwaitTimeout _ | .mwaitRepoll _ | .ydlExpiry _ | .ysaveImage _ | .tretResume _ | .leaseGrant _ | .leaseIdleExpiry _
  | .mmaExecute _ | .obfreeRelease _ _ | .resolveComplete _ | .sfuComplete _ | .latchArrival _ _ _ _ | .setGrant _
  | .faultDeclined _ _ => true
  | _ => false

/-- Whether an event waits: its core's request port is stalled (09 R204), or it accesses memory, of which some lines move to a spare
unit (20 R446, log 70). -/
def portHolds (s : State) (e : Ev) : Bool := (s.sparing && !e.spares) || (match e.portOf s with
  | some c => portStalled s c
  | none => false)

/-! ## A step's choice and its time -/

/-- The agenda without its n-th event. -/
def dropNth (l : List Ev) (n : Nat) : List Ev := l.take n ++ l.drop (n + 1)

/-- The choice of this step: the head of `choices`; else the oldest event, and at every fourth step a team, in turn (log 1). -/
def pick (s : State) (teams : Nat) : Nat :=
  match s.choices with
  | k :: _ => k
  | [] =>
    if s.agenda.isEmpty || (s.stepNo % 4 = 3 && teams ≠ 0) then s.agenda.length + s.stepNo / 4 % (max 1 teams) else 0

/-- The boundary of a team: a trap (19 R424), a wound (14 R329), or its next instruction (03 R85). -/
def stepTeam (s : State) (t : Team) : Out :=
  match nextTrap t with
  | some _ => execEv (.trapDelivery t.uid) s
  | none =>
    if t.wound && !t.handler then execEv (.woundTake t.uid) s
    else match fetch s t with
      | .words (.ok i) => exec i (fetchFill s t)
      | .words (.illegal r d) => .next (fetchTrap s t 0x01 (r * 256 + d) 0)
      | .words .truncated => execEv (.instructionFetch t.uid) s
      | .trap _ _ _ => execEv (.instructionFetch t.uid) s
      | .fault _ => execEv (.instructionFetch t.uid) s

/-- The cycles that pass in this step: at least one (03 R70, log 2). -/
def elapsed (s : State) : Nat := 1 + Config.cycles s.stepNo

/-- Whether the deadline of a team runs (05 R125): a request is pending, the team is resident and not in a handler. -/
def Team.counts (t : Team) : Bool := t.ydl ≠ noDeadline && !t.handler && t.run ≠ .ready && t.resident

/-- The deadline of a team after some cycles. -/
def Team.age (n : Nat) (t : Team) : Team := if t.counts then { t with ydl := BitVec.ofNat 64 (t.ydl.toNat - n) } else t

/-- Whether the time that an `mwait` names is over (11 R280). -/
def Team.mwaitDue (clk : Nat) (t : Team) : Bool := t.run = .parked .mwait && t.aux.getD 3 0 ≠ 0 && t.aux.getD 3 0 ≤ clk

/-- The clock after some cycles: it does not wrap (03 R70). -/
def clockAfter (clk : Word64) (n : Nat) : Word64 := BitVec.ofNat 64 (min (2 ^ 64 - 1) (clk.toNat + n))

/-- Time passes: deadlines run down, and those that are over are taken up (05 R122, R125, 11 R280). -/
def tick (s : State) : State :=
  let n := elapsed s
  let s := { s with clk := clockAfter s.clk n, stepNo := s.stepNo + 1, choices := s.choices.tail,
                    teams := s.teams.map (fun (t : Team) => (t.keepReady s).age n) }
  let s := (s.teams.filter (fun t => t.counts && t.ydl = 0)).foldl (fun s t => s.postOnce (.ydlExpiry t.uid)) s
  (s.teams.filter (Team.mwaitDue s.clk.toNat)).foldl (fun s t => s.postOnce (.mwaitTimeout t.uid)) s

/-- The teams that a step may choose from. -/
def stepTeams (s : State) : List Team := s.teams.filter (eligible s)

/-- Whether an event is a posted write of the host. -/
def Ev.posted : Ev → Bool
  | .hostEnqueue _ _ => true
  | .bar4Write _ _ => true
  | .bar0RegisterWrite _ _ => true
  | _ => false

/-- The posted writes of the host are applied in the order in which they were made (15 R340, 20 R441): the first of them goes where
one is chosen. -/
def inOrder (s : State) (k : Nat) : Nat := match s.agenda[k]? with
  | some e => if e.posted then (s.agenda.findIdx? Ev.posted).getD k else k
  | none => k

/-- An event that waits goes behind the others on the agenda; the host's posted writes keep their order. -/
def putOff (s : State) (e : Ev) : State :=
  if e.posted then { s with agenda := s.agenda.filter (fun x => !x.posted) ++ e :: s.agenda.filter Ev.posted } else s.post e

/-- What a step chooses: an index into the agenda and, behind it, the teams. -/
def chosen (s : State) : Nat := inOrder s (pick s (stepTeams s).length % max 1 (s.agenda.length + (stepTeams s).length))

/-- The state in which a step runs what it chose: a chosen event has left the agenda, and time has passed. -/
def ahead (s : State) : State := tick { s with agenda := dropNth s.agenda (chosen s) }

/-- A team as a step runs it, after the time that has passed. -/
def Team.ahead (s : State) (t : Team) : Team := (t.keepReady s).age (elapsed s)

end Sys2Proof.Machine
end

