-- ==== Sys2Proof/Machine/Step.lean ====
section
/-!
DEFINITION. One step of the device: one event of the agenda, or one instruction of one team (02 R45, R58).
-/

namespace Sys2Proof.Machine

/-- What a step adds to what it ran: the time of a team's issue (05 R122), and the images that have to be written again. -/
def wrapUp (before : State) (u : Option Nat) : Out → Out
  | .next s => .next (keepImages before (match u with
      | some u => stamp before u s
      | none => s))
  | o => o

/-- One step. An event whose core's port is stalled, or that accesses memory while lines move, stays on the agenda (09 R204, 20 R446). When nothing is under way, firmware looks at the
images that wait for a restore (05 R128). -/
def step (s : State) : Host.Outcome State Fault Refusal :=
  match s.agenda[chosen s]? with
  | some e => if portHolds (ahead s) e then .next (putOff (ahead s) e) else wrapUp (ahead s) none (execEv e (ahead s))
  | none =>
    match (stepTeams s)[chosen s - s.agenda.length]? with
    | some t => wrapUp (ahead s) (some t.uid) (stepTeam { ahead s with cur := t.uid } (t.ahead s))
    | none => .next (firmwareIdle (ahead s))

/-- The state in which the next step fetches and runs the instruction of a table word. -/
def State.withFetchWord (s : State) (nbits w : Nat) : State := placed s (tableBytes nbits w)

end Sys2Proof.Machine
end

