-- ==== Sys2Proof/Safety.lean ====
section
/-!
DEFINITION. What the claims are stated with: what a safe run is, when an instruction issues, what a source field
holds, and what an instruction leaves as it was.
-/

namespace Sys2Proof.Machine

/-- Whether an answer is a next state. -/
def runs : Out → Bool
  | .next _ => true
  | .fault _ => false
  | .refused _ => false

/-- The memories of the device keep the canonical form: device memory, and the scratchpad, operand buffer and
L1 lines of every core. -/
def State.memWf (s : State) : Bool :=
  s.mem.wf && s.cores.all (fun c => c.scratch.wf && c.obuf.wf && c.l1.all (fun l => l.bytes.wf) && c.icache.all (fun l => l.bytes.wf) &&
    c.texels.all (fun l => l.bytes.wf))

/-- The current team t issues an operation (02 R42; 03 R83, R84; 06 R149; 11 R271; 09 R204): its registers and objects exist,
its mask registers are full, no `trp` source is empty, every register it waits for is full, no fence holds it and its request
port is free. The team is not in a partial run, and a sub-group is no wider than the team. -/
abbrev Issues (opc sub : Nat) (x : Ext) (s : State) (t : Team) : Prop :=
  s.team? s.cur = some t ∧ t.part = none ∧ lgBad t opc sub x = false ∧
  regErr s t (rowOf t.width opc sub x) x (extraRun t.width opc sub x) = none ∧
  maskWait t = false ∧ srcErr t opc sub (rowOf t.width opc sub x) x = none ∧
  mustWait s t opc sub (rowOf t.width opc sub x) x = false

/-- The instruction as an issue passes it to its effect. -/
def ctxAt (i : Instr) (opc sub len : Nat) (x : Ext) (t : Team) : C :=
  { t := t, i := i, x := x, row := rowOf t.width opc sub x, npc := t.pc + BitVec.ofNat 64 len,
    act := t.acts x.g x.neg, go := t.go x.g x.neg }

/-- A source field in lane l, n bits wide (03 R76): a vector register or pair, a scalar code, a predicate, the
literal, or an object's number. -/
def srcVal (s : State) (t : Team) (x : Ext) (y : Src) (n l : Nat) : Nat :=
  match y.cls with
  | .vec =>
    if n = 64 then (t.lane y.code.toNat l).toNat + 2 ^ 32 * (t.lane (y.code.toNat + 1) l).toNat
    else (t.lane y.code.toNat l).toNat % 2 ^ n
  | .sc => (scalarCode s t y.code.toNat).toNat % 2 ^ n
  | .pred => if t.pr y.code.toNat l then 1 else 0
  | .obj => if y.code = 0xFF then (x.lit.getD 0).toNat % 2 ^ n else y.code.toNat

/-- A scalar source as 64 bits. -/
def srcScalar (s : State) (t : Team) (x : Ext) (y : Src) : Word64 := BitVec.ofNat 64 (srcVal s t x y 64 0)

/-- The instruction is over and the program counter of the team stands at a; the team has issued one instruction more. -/
def goTo (s : State) (t : Team) (a : Word64) : State :=
  s.onTeam t.uid (fun u => { u with pc := a, issueNo := u.issueNo + 1 })

/-- The instruction is over: the program counter of the team stands len bytes further (03 R62). -/
def retire (s : State) (t : Team) (len : Nat) : State := goTo s t (t.pc + BitVec.ofNat 64 len)

/-- The scalar register d of the team holds v; `msum` is derived from the mask registers (02 R41). -/
def putScalar (s : State) (t : Team) (d : BitVec 8) (v : Word64) : State :=
  s.onTeam t.uid (fun u => u.setS d.toNat v)

/-- A branch target: the instruction's own address + 4 x sext(off, 24) (05 R129). -/
def branchTarget (t : Team) (x : Ext) : Word64 := t.pc + BitVec.ofInt 64 (4 * sextN 24 x.x24.toNat)

/-- The active lanes (02 R43): the mask bit is 1 and the guard is true. -/
def activeLanes (t : Team) (x : Ext) : List Bool := t.acts x.g x.neg

/-- The results of n-bit lane values in D: one register, or a pair (03 R76, 02 R43). -/
def putLanes (s : State) (t : Team) (x : Ext) (wide : Bool) (f : Nat → Nat) (g : Tag) : State :=
  s.onTeam t.uid (fun u => u.writeN x.d.toNat wide (activeLanes t x) ((List.range t.width).map f) g)

/-- A predicate written in the active lanes; a write to pT is discarded (06 R152). -/
def putPred (s : State) (t : Team) (x : Ext) (d : Nat) (f : Nat → Bool) : State :=
  s.onTeam t.uid (fun u => u.writeP d (activeLanes t x) ((List.range t.width).map f))

/-- What an instruction of the current team that only works on registers leaves as it was: memory at every address,
the other teams, and every other part of the device. -/
def SameOutside (s s' : State) (u : Nat) : Prop :=
  (∀ a, s'.mem.get a = s.mem.get a) ∧ (∀ v, v ≠ u → s'.team? v = s.team? v) ∧
  ∃ ts, s' = { s with teams := ts }

/-! ## Shapes of statements -/

/-- The comparisons of `scmp` and `vcmp` on integers (06 R158, 07 R165): eq 0, ne 1, lt 2, le 3, gt 4, ge 5. -/
def intCompare (cc : Nat) (a b : Int) : Bool :=
  if cc = 0 then a = b else if cc = 1 then a ≠ b else if cc = 2 then a < b else if cc = 3 then a ≤ b
  else if cc = 4 then a > b else a ≥ b

/-- The conditions of `bsc` (05 R129): z 0, nz 1, lt 2, ge 3, gt 4, le 5. -/
def signTest (cc : Nat) (a : Int) : Bool :=
  if cc = 0 then a = 0 else if cc = 1 then a ≠ 0 else if cc = 2 then a < 0 else if cc = 3 then a ≥ 0
  else if cc = 4 then a > 0 else a ≤ 0

/-- The field of `sbfe` and `vbfe` (07 R169): it is cut at bit n - 1 and empty when it starts beyond. -/
def bitField (ty : Ty) (a pos len : Nat) : Int :=
  let k := if ty.width ≤ pos then 0 else min len (ty.width - pos)
  if ty.signed ∧ 0 < k then sextN k (a / 2 ^ pos % 2 ^ k) else ((a / 2 ^ pos % 2 ^ k : Nat) : Int)

/-- `sbfi` and `vbfi` (07 R169): bits of b in the field, bits of a elsewhere. -/
def bitInsert (n a b pos len : Nat) : Nat :=
  let k := if n ≤ pos then 0 else min len (n - pos)
  let m := (2 ^ k - 1) * 2 ^ pos
  (a &&& (2 ^ n - 1 - m)) ||| ((b * 2 ^ pos) &&& m)

/-- A scalar instruction (02 R44, 07 R165): when it executes, sD holds a function of its sources, n bits wide; the
program counter moves past it. `ext` gives the extended form that a one-word form stands for (03 R77). -/
def ScalarOp {α : Type} (mk : α → Instr) (ext : α → Ext) (len : α → Nat) (opc sub : Nat)
    (val : Ext → Nat → Nat → Nat → Word64) : Prop :=
  ∀ (y : α) (s : State) (t : Team), let x := ext y
    let n := x.ty.width
    Issues opc sub x s t → exec (mk y) s = .next (retire
      (if t.go x.g x.neg then
        putScalar s t x.d (val x (srcVal s t x x.a n 0) (srcVal s t x x.b n 0) (srcVal s t x x.c n 0)) else s)
      t (len y))

/-- A branch (05 R130): taken when it executes and its condition holds. -/
def BranchOp {α : Type} (mk : α → Instr) (ext : α → Ext) (len : α → Nat) (sub : Nat) (cond : Team → State → Bool) :
    Prop :=
  ∀ (y : α) (s : State) (t : Team), let x := ext y
    Issues 0x40 sub x s t → exec (mk y) s = .next
      (if t.go x.g x.neg && cond t s then goTo s t (branchTarget t x) else retire s t (len y))

/-- `loop` (05 R132): sD counts down and the branch is taken while it is not 0. -/
def LoopOp {α : Type} (mk : α → Instr) (ext : α → Ext) (len : α → Nat) : Prop :=
  ∀ (y : α) (s : State) (t : Team), let x := ext y
    let v := t.sval x.d.toNat - 1
    Issues 0x40 7 x s t → exec (mk y) s = .next
      (if t.go x.g x.neg then
        (if v ≠ 0 then goTo (putScalar s t x.d v) t (branchTarget t x) else retire (putScalar s t x.d v) t (len y))
       else retire s t (len y))

/-- Whether a source is uniform (06 R144, rule 6): a run of vector registers by their tags; a scalar code, the literal and pT
are (03 R76), another predicate is not (07 R170). `k` says what the form reads there. -/
def uniSource (t : Team) (k : SK) (y : Src) : Bool :=
  match srcRun k y with
  | some (true, n, m) => (List.range m).all (fun j => (t.vreg (n + j)).tag = .uni)
  | _ => !(y.cls = .pred && k.pred && y.code ≠ 23)

/-- The tag of a lane-wise result under a full write (06 R144, rules 6 and 7). A partial write makes it `gen` (rule 1), which
`Team.writeV` does. -/
def laneTag (opc sub : Nat) (t : Team) (x : Ext) : Tag :=
  let r := rowOf t.width opc sub x
  if uniSource t r.a x.a && uniSource t r.b x.b && uniSource t r.c x.c then .uni else .gen

/-- The tag of a source of affine arithmetic (06 R144, rule 5). -/
def srcTag (t : Team) (y : Src) : Tag := if y.cls = .vec then (t.vreg y.code.toNat).tag else .uni

/-- The stride of such a source, modulo 2^32 (06 R143). -/
def srcStride (t : Team) (y : Src) : Nat :=
  if srcTag t y = .aff then
    ((t.lane y.code.toNat 1).toNat + 2 ^ 32 - (t.lane y.code.toNat 0).toNat) % 2 ^ 32 else 0

/-- The four forms of affine arithmetic (06 R145), with the stride that they give two sources. -/
def affineStride (op : Nat) (s : State) (t : Team) (x : Ext) : Option Nat :=
  let p := srcStride t x.a
  let q := srcStride t x.b
  let u (y : Src) : Nat := srcVal s t x y 32 0
  if op = 0 then some (p + q)
  else if op = 1 then some (p + 2 ^ 32 - q)
  else if op = 2 then
    (if srcTag t x.b = .uni then some (p * u x.b) else if srcTag t x.a = .uni then some (u x.a * q) else none)
  else if srcTag t x.b = .uni then some (p * 2 ^ (u x.b % 32)) else none

/-- The tag of `vadd` (op 0), `vsub` (1), `vmul` (2) and `vshl` (3) under a full write (06 R144, rules 5 to 7; R145): a stride of
0 gives `uni`. -/
def affineTag (op sub : Nat) (s : State) (t : Team) (x : Ext) : Tag :=
  if (x.ty = .i32 ∨ x.ty = .n32 ∨ x.ty = .b32) ∧ x.x24 = 0 ∧ srcTag t x.a ≠ .gen ∧ srcTag t x.b ≠ .gen ∧
      (srcTag t x.a = .aff ∨ srcTag t x.b = .aff) then
    (match affineStride op s t x with
      | none => .gen
      | some st => if st % 2 ^ 32 = 0 then .uni else .aff)
  else laneTag 0x43 sub t x

/-- The size of a sub-group (06 R160). -/
def groupSize (t : Team) (x : Ext) : Nat := if x.f 3 0 = 0 then t.width else 2 ^ x.f 3 0

/-- The tag of `bcast` and `reduce` under a full write (06 R144, rule 4). -/
def groupTag (sub : Nat) (t : Team) (x : Ext) : Tag :=
  if groupSize t x = t.width ∨ uniSource t (rowOf t.width 0x48 sub x).a x.a then .uni else .gen

/-- An integer vector instruction (07 R170): D holds a function of the source lanes in the active lanes, with the tag that R144
gives. -/
def VectorOp {α : Type} (mk : α → Instr) (ext : α → Ext) (len : α → Nat) (opc sub : Nat)
    (val : Ext → Nat → Nat → Nat → Nat) (tag : State → Team → Ext → Tag := fun _ t x => laneTag opc sub t x) : Prop :=
  ∀ (y : α) (s : State) (t : Team), let x := ext y
    let n := x.ty.width
    Issues opc sub x s t → exec (mk y) s = .next (retire (putLanes s t x x.ty.wide
      (fun l => val x (srcVal s t x x.a n l) (srcVal s t x x.b n l) (srcVal s t x x.c n l)) (tag s t x)) t (len y))

/-- Each element of a packed type apart (07 R171), wrapped, or clamped to the element's range. -/
def eachElem (f : Ty → Nat → Nat → Int) (ty : Ty) (sat : Bool) (a b : Nat) : Nat :=
  let w := ty.width / ty.elems
  packElems w ((List.range ty.elems).map (fun j =>
    let r := f ty.elem (a / 2 ^ (w * j) % 2 ^ w) (b / 2 ^ (w * j) % 2 ^ w)
    patN w (if sat then min (tyRange ty.elem).2 (max (tyRange ty.elem).1 r) else r)))

/-- The union of the flags of the active lanes (04 R98). -/
def raised (t : Team) (x : Ext) (res : Nat → Nat × Flg) : Flg :=
  (lanesOf (activeLanes t x)).foldl (fun a l => a ||| (res l).2) 0

/-- The status flags of the team with some added (04 R98). -/
def addFlags (s : State) (t : Team) (f : Flg) : State :=
  s.onTeam t.uid (fun u => { u with status := orFlags u.status f })

/-- The trap of an enabled flag (04 R99): code 0x0D, the enabled flags in the subcode, the lanes that raised one, with skip
set. -/
def flagTrap (t : Team) (x : Ext) (len : Nat) (res : Nat → Nat × Flg) : Trap :=
  { trapHere t.pc (t.pc + BitVec.ofNat 64 len) 0x0D (enabled t.status (raised t x res)) with
      skip := true, lanes := (lanesOf (activeLanes t x)).filter (fun l => enabled t.status (res l).2 ≠ 0) }

/-- The state in which the results of the active lanes stand in D, with the tag that R144 gives, and their flags in `status`
(04 R98). -/
def fpWritten (s : State) (t : Team) (x : Ext) (wide : Bool) (res : Nat → Nat × Flg) (tag : Tag) : State :=
  addFlags (putLanes s t x wide (fun l => (res l).1) tag) t (raised t x res)

/-- A floating-point vector instruction that raises an enabled flag traps after its effects (04 R99). -/
def FpTraps {α : Type} (mk : α → Instr) (ext : α → Ext) (len : α → Nat) (opc sub : Nat) (wide : Ext → Bool)
    (res : State → Team → Ext → Nat → Nat × Flg) (tag : Team → Ext → Tag := laneTag opc sub) : Prop :=
  ∀ (y : α) (s : State) (t : Team), let x := ext y
    let s' := fpWritten s t x (wide x) (res s t x) (tag t x)
    Issues opc sub x s t → enabled t.status (raised t x (res s t x)) ≠ 0 → ∃ t', s'.team? t.uid = some t' ∧
      exec (mk y) s = .next (takeTrap s' t' (flagTrap t x (len y) (res s t x)))

/-- A floating-point vector instruction (08 R177, 04 R98, R99): its results and flags are written; when no flag raised is
enabled the program counter moves on, else the trap of R99 follows. -/
def FpOp {α : Type} (mk : α → Instr) (ext : α → Ext) (len : α → Nat) (opc sub : Nat) (wide : Ext → Bool)
    (res : State → Team → Ext → Nat → Nat × Flg) (tag : Team → Ext → Tag := laneTag opc sub) : Prop :=
  (∀ (y : α) (s : State) (t : Team), let x := ext y
    Issues opc sub x s t → enabled t.status (raised t x (res s t x)) = 0 →
      exec (mk y) s = .next (retire (fpWritten s t x (wide x) (res s t x) (tag t x)) t (len y))) ∧
  FpTraps mk ext len opc sub wide res tag

/-- The elements of a floating-point source after its modifiers, X24 bits n (negate) and n + 1 (absolute value)
(08 R178). -/
def fpElems (s : State) (t : Team) (x : Ext) (y : Src) (n l : Nat) : List Nat :=
  (List.range x.ty.elems).map (fun j =>
    modPat (tyFmt x.ty.elem) (x.bit n) (x.bit (n + 1)) (elemAt x.ty (srcVal s t x y x.ty.width l) j))

/-- A function of each element of the three sources, under the instruction's rounding mode and X24 [0] `sat`
(08 R177). -/
def fpEach (op : Fmt → Rnd → Bool → Bool → Nat → Nat → Nat → Nat × Flg) (s : State) (t : Team) (x : Ext) (l : Nat) :
    Nat × Flg :=
  packFlags x.ty ((List.range x.ty.elems).map (fun j =>
    op (tyFmt x.ty.elem) (t.mode x.rnd) (x.bit 0) t.ftz ((fpElems s t x x.a 1 l).getD j 0)
      ((fpElems s t x x.b 3 l).getD j 0) ((fpElems s t x x.c 5 l).getD j 0)))

/-- A shuffle (06 R160, R161): D holds, in the active lanes, vA of the lane of the sub-group that `pick` names from the group's
size, the lane's place in it and B. A lane beyond the team's width has the value of a uniform vA (R143); of another vA it gives
a free value (log 22). -/
def ShuffleOp (mk : Ext → Instr) (sub : Nat) (tag : Team → Ext → Tag) (pick : Nat → Nat → Nat → Nat) : Prop :=
  ∀ (x : Ext) (s : State) (t : Team), Issues 0x48 sub x s t →
    let g := groupSize t x
    let n := x.ty.width
    let val (l : Nat) : Nat :=
      let k := l - l % g + pick g (l % g) (srcVal s t x x.b 32 l) % g
      if k < t.width then srcVal s t x x.a n k
      else if uniSource t (rowOf t.width 0x48 sub x).a x.a then srcVal s t x x.a n 0
      else (Config.absentLane s.stepNo k).toNat % 2 ^ n
    exec (mk x) s = .next (retire (putLanes s t x x.ty.wide val (tag t x)) t (extLen x))

/-- The tree of R108 over the active lanes of the sub-group of a lane. -/
def groupTree (s : State) (t : Team) (x : Ext) (l : Nat) : List (List Node) :=
  let g := groupSize t x
  let base := l - l % g
  treeLevels (combine x.ty (x.f 6 4) t.ftz) 11 ((List.range (min g (t.width - base))).map (fun i =>
    if (activeLanes t x).getD (base + i) false then some (leafOf x.ty t.ftz (srcVal s t x x.a x.ty.width (base + i)))
    else none))

/-- A long-latency function of each active lane (06 R148, 08 R188): with no lane active nothing happens; else the
results of the active lanes are on their way, D is empty, and SFU_COMPLETE is due. -/
def LongOp (mk : Ext → Instr) (sub : Nat) (res : State → Team → Ext → Nat → Nat × Flg) : Prop :=
  ∀ (x : Ext) (s : State) (t : Team), Issues 0x46 sub x s t →
    let ls := lanesOf (activeLanes t x)
    let g := match laneTag 0x46 sub t x with
      | .uni => 0
      | .aff => 1
      | .gen => 2
    let gate := ls.any (fun l => enabled t.status (res s t x l).2 ≠ 0)
    exec (mk x) s = .next (retire (if (activeLanes t x).any id then
      ((ctxAt (mk x) 0x46 sub (extLen x) x t).launch s (ls.map (fun l =>
        { lane := l, addr := 0, data := BitVec.ofNat 64 (res s t x l).1, st := .ready [] })) []
        (0 :: g :: ls.map (fun l => (res s t x l).2)) gate).post (.sfuComplete s.nextId) else s) t (extLen x))

/-- A correctly rounded function of one or two operands (08 R188): rounded once from the exact result. -/
def roundedOnce (op : List FV → FV × Flg) (two : Bool) (s : State) (t : Team) (x : Ext) (l : Nat) : Nat × Flg :=
  let f := tyFmt x.ty
  let vs := f.input t.ftz (srcVal s t x x.a x.ty.width l) ::
    (if two then [f.input t.ftz (srcVal s t x x.b x.ty.width l)] else [])
  let r := op vs
  let y := f.round (t.mode x.rnd) false t.ftz r.1
  (y.1, y.2 ||| (r.2 ||| sigFlag vs))

/-- The elements of A after its modifiers. -/
def fpElems1 (s : State) (t : Team) (x : Ext) (l : Nat) : List Nat := fpElems s t x x.a 1 l

/-- The control registers (19 R423). -/
def crRead (t : Team) (n : Nat) : Word64 :=
  if n = 0 then t.status else if n = 1 then t.trapv else if n = 2 then t.trapa else if n = 3 then BitVec.ofNat 64 t.prio
  else if n = 4 then t.role else if n = 5 then t.ydl else if n = 6 then t.undob else if n = 7 then t.undol
  else if n = 0x10 then t.ctxs else if n = 0x11 then t.chainb else if n = 0x12 then t.seqb
  else if n = 0x13 then t.surfb else 0

/-! ## Memory -/

/-- Memory after firmware writes a page-table entry at a physical address (09 R195): it cannot set x, bit 3, and no memory stands
beyond the 384 GB of HBM (00 R7, log 65). -/
def entryWritten (m : Memory) (pa : Nat) (pte : Word64) : Memory :=
  if 384 * 2 ^ 30 < pa % 2 ^ 48 + 8 then m
  else m.setAll (cellsAt (physKey 0 pa) (leBytes 8
    (if (m.num (physKey 0 pa) 8).testBit 3 then pte else pte &&& ~~~(8#64)).toNat))

/-- The fields of a memory instruction that its address needs (09 R218, R219): base in A, index in B scaled by 2^scl
when ix is set, the byte offset, and for `ldv` and `stv` one element more in each lane; modulo 2^64. -/
def memAddr (s : State) (t : Team) (x : Ext) (ix each : Bool) (scl : Nat) (off : Int) (l : Nat) : Nat :=
  let base : Nat := if x.a.cls = .vec then 0 else (srcScalar s t x x.a).toNat
  let idx : Int := if ix then sextN 32 (srcVal s t x x.b 32 l) * (2 ^ scl : Nat) else 0
  let step : Nat := if each then x.ty.width / 8 * l else 0
  patN 64 ((base : Int) + idx + off + step)

/-- The lanes that a memory instruction serves: the active ones, or lane 0 of a scalar one that executes. -/
def servedLanes (t : Team) (x : Ext) (scalar : Bool) : List Nat :=
  if scalar then (if t.go x.g x.neg then [0] else []) else lanesOf (activeLanes t x)

/-- No flight and no write of the state has an id still to be given out. -/
abbrev FreshIds (s : State) : Prop := (∀ f ∈ s.flights, f.id < s.nextId) ∧ ∀ w ∈ s.writes, w.id < s.nextId

/-- An access that passes the checks at issue (09 R220): canonical addresses, aligned unless `.al`, and room among the
outstanding instructions. No acquisition for it has failed. -/
abbrev MemChecks (s : State) (t : Team) (x : Ext) (al : Bool) (as : List (Nat × Nat)) : Prop :=
  (∀ p ∈ as, canonical p.2 = true) ∧ (al = false → ∀ p ∈ as, p.2 % (x.ty.width / 8) = 0) ∧
  t.setFailed = none ∧ outstanding s t.uid < outstandingCap ∧ FreshIds s

/-- n bytes at an address touch the range of a slot that is in use (14 R319). -/
abbrev SlotTouched (k : SetSlot) (a n : Nat) : Prop :=
  k.st ≠ .empty ∧ a < k.base.toNat + k.len.toNat ∧ k.base.toNat < a + n

/-- Every declared set that accesses of n bytes touch has been acquired (14 R319). Outside a task nothing is declared. -/
abbrev SetsHeld (t : Team) (n : Nat) (as : List (Nat × Nat)) : Prop :=
  t.task = none ∨ ∀ k ∈ t.sets, k.st ≠ .acquired → ∀ p ∈ as, ¬ SlotTouched k p.2 n

/-- An access that passes the checks at issue and acquires no set. -/
abbrev MemIssues (s : State) (t : Team) (x : Ext) (al : Bool) (as : List (Nat × Nat)) : Prop :=
  MemChecks s t x al as ∧ SetsHeld t (x.ty.width / 8) as

/-- The lanes of a memory instruction with the addresses of its form. -/
def laneAddrs (addr : State → Team → Ext → Nat → Nat) (scalar : Bool) (s : State) (t : Team) (x : Ext) :
    List (Nat × Nat) := (servedLanes t x scalar).map (fun l => (l, addr s t x l))

/-- The first access of a task to a declared set (14 R319): the lowest such slot is acquired, its team parks in the set wait, and
the instruction issues again afterwards. -/
def TouchOp {α : Type} (mk : α → Instr) (ext : α → Ext) (opc sub : Nat) (scalar : Bool)
    (addr : State → Team → Ext → Nat → Nat) (al : Ext → Bool) : Prop :=
  ∀ (y : α) (s : State) (t : Team) (k : Nat), let x := ext y
    let as := laneAddrs addr scalar s t x
    let first (sl : SetSlot) : Prop := sl.st ≠ .acquired ∧ ∃ p ∈ as, SlotTouched sl p.2 (x.ty.width / 8)
    Issues opc sub x s t → MemChecks s t x (al x) as → t.task ≠ none → (∃ sl, t.sets[k]? = some sl ∧ first sl) →
    (∀ j < k, ∀ sl, t.sets[j]? = some sl → ¬ first sl) →
    exec (mk y) s = .next ((s.onTeam t.uid (fun u => { u with
      run := .parked .setWait, sets := u.sets.modify k (fun q => { q with st := .waiting }) })).postOnce
        (.setRequestArrival t.uid k))

/-- A memory instruction that reads (09 R219, R225): with no lane to serve nothing happens; else its lanes with their
addresses and data are in flight and D is empty, and memory is as it was. -/
def MemReadOp {α : Type} (mk : α → Instr) (ext : α → Ext) (len : α → Nat) (opc sub : Nat) (m : Ext → MemOp)
    (addr : State → Team → Ext → Nat → Nat) : Prop :=
  ∀ (y : α) (s : State) (t : Team), let x := ext y
    let as := laneAddrs addr (m x).scalar s t x
    Issues opc sub x s t → MemIssues s t x (m x).al as →
      (as = [] → exec (mk y) s = .next (retire s t (len y))) ∧
      (as ≠ [] → ∃ s' f, exec (mk y) s = .next (retire s' t (len y)) ∧ s'.flight? s.nextId = some f ∧
        f.instr = mk y ∧ f.team = t.uid ∧ f.pc = t.pc ∧ f.dst = x.d.toNat ∧
        f.lanes.map (fun r => (r.lane, r.addr)) = as.map (fun p => (p.1, BitVec.ofNat 64 p.2)) ∧
        (.translationWalk s.nextId ∈ s'.agenda ∨ .accessResponse s.nextId ∈ s'.agenda) ∧
        (∀ a, s'.mem.get a = s.mem.get a) ∧ s'.writes = s.writes)

/-- A store that issues (09 R219, R222): with no lane to serve nothing happens; when every lane's page is cached and
writable and no line needs a record of the undo log, its bytes are on their way from the addresses that the form computes, one write
for each lane in lane order, and memory is as it was until WRITE_PERFORMED; a release's writes stand at the gate with what they count
(11 R276); else its lanes wait for their translations. -/
def MemStoreOp {α : Type} (mk : α → Instr) (ext : α → Ext) (len : α → Nat) (opc sub : Nat) (scalar : Bool)
    (addr : State → Team → Ext → Nat → Nat) (al : Ext → Bool) : Prop :=
  ∀ (y : α) (s : State) (t : Team) (segs : Nat → List Seg), let x := ext y
    let n := x.ty.width / 8
    let as := laneAddrs addr scalar s t x
    let waits := if x.bit 18 then lsWaits s t.uid (x.f 21 19) else []
    let data (l : Nat) : Nat := if scalar then (t.sval x.d.toNat).toNat
      else if x.ty.wide then (t.lane x.d.toNat l).toNat + 2 ^ 32 * (t.lane (x.d.toNat + 1) l).toNat
      else (t.lane x.d.toNat l).toNat
    Issues opc sub x s t → MemIssues s t x (al x) as →
      (as = [] → exec (mk y) s = .next (retire s t (len y))) ∧
      (as ≠ [] → s.flightsOf t.uid = [] → (∀ w ∈ s.writes, s.nextId ∉ w.waits) → (∀ g ∈ s.flights, s.nextId ∉ g.waits) →
        (∀ p ∈ as, t.unlogged p.2 n = []) →
        (∀ p ∈ as, cached s t.core t.ctx p.2 n = true ∧ piecesOf s t.core t.ctx .write p.2 n = .ok (segs p.1) ∧
          ∀ g ∈ segs p.1, tierOf g.key = 0 ∧ ∀ k ∈ segKeys [g], lineMoves s k = false) →
        ∃ s' ws, exec (mk y) s = .next (retire s' t (len y)) ∧ s'.writes = s.writes ++ ws ∧
          ws.map (fun w => (w.lane, w.va, w.cells)) =
            as.map (fun p => (p.1, BitVec.ofNat 64 p.2, (segKeys (segs p.1)).zip (leBytes n (data p.1)))) ∧
          (∀ w ∈ ws, w.team = t.uid ∧ w.waits = waits ∧ w.release = (if x.bit 18 then some (x.f 21 19) else none) ∧
            (waits = [] → .writePerformed w.id ∈ s'.agenda)) ∧
          (∀ a, s'.mem.get a = s.mem.get a) ∧ s'.flights = s.flights) ∧
      (as ≠ [] → (∃ p ∈ as, cached s t.core t.ctx p.2 n = false) →
        ∃ s' f, exec (mk y) s = .next (retire s' t (len y)) ∧ s'.flight? s.nextId = some f ∧ f.instr = mk y ∧
          f.lanes.map (fun r => (r.lane, r.addr, r.data)) =
            as.map (fun p => (p.1, BitVec.ofNat 64 p.2, BitVec.ofNat 64 (data p.1))) ∧
          .translationWalk s.nextId ∈ s'.agenda ∧ (∀ a, s'.mem.get a = s.mem.get a) ∧ s'.writes = s.writes)

/-- The traps of a memory instruction's addresses (09 R193, R220): not canonical first, then not aligned. -/
def AddressTraps (mk : Ext → Instr) (opc sub : Nat) (scalar : Bool) (al : Ext → Bool)
    (addr : State → Team → Ext → Nat → Nat) : Prop :=
  ∀ (x : Ext) (s : State) (t : Team), Issues opc sub x s t →
    let as := laneAddrs addr scalar s t x
    let nc := as.filter (fun p => !canonical p.2)
    let mis := as.filter (fun p => p.2 % (x.ty.width / 8) ≠ 0)
    let trap (code cause : Nat) (bad : List (Nat × Nat)) : Trap :=
      { trapHere t.pc (t.pc + BitVec.ofNat 64 (extLen x)) code (cause * 256) with
          addr := BitVec.ofNat 64 (lowest (bad.map (fun p => p.2))), lanes := bad.map (fun p => p.1) }
    (nc ≠ [] → exec (mk x) s = .next (takeTrap s t (trap 0x06 0x04 nc))) ∧
    (nc = [] → al x = false → mis ≠ [] → exec (mk x) s = .next (takeTrap s t (trap 0x04 0x01 mis)))

/-! ## Scratch lines and copies -/

/-- `tfill` and `tset` (10 R234, R235): a misaligned address and a line that the context may not claim trap; else the line is
claimed, unless the tag is held already or the line is taken. -/
def ClaimOp (mk : Ext → Instr) (sub : Nat) (fill : Bool) : Prop :=
  ∀ (x : Ext) (s : State) (t : Team), Issues 0x4D sub x s t → t.go x.g x.neg = true →
    let ea := patN 64 (((if x.a.cls = .vec then 0 else (srcScalar s t x x.a).toNat : Nat) : Int) + sextN 14 (x.f 13 0))
    let n := (srcScalar s t x x.b).toNat
    let k := s.core t.core
    let latch : Option (Nat × Nat) := if x.c.cls = .obj then some (t.launch, x.c.code.toNat) else none
    let say (s : State) (v : Nat) : State := putScalar s t x.d (BitVec.ofNat 64 v)
    let trap (code sub addr : Nat) : Trap := { trapHere t.pc (t.pc + BitVec.ofNat 64 (extLen x)) code sub with addr := BitVec.ofNat 64 addr }
    ((fill = true → canonical ea = true) → ea % 256 ≠ 0 → exec (mk x) s = .next (takeTrap s t (trap 0x04 0x0101 ea))) ∧
    ((fill = true → canonical ea = true) → ea % 256 = 0 → lineBad k t.ctx n = true →
      exec (mk x) s = .next (takeTrap s t (trap 0x05 0x0701 0))) ∧
    ((fill = true → canonical ea = true) → ea % 256 = 0 → lineBad k t.ctx n = false →
      (∀ l, lineTagged k t.ctx (tagBits ea) = some l →
        exec (mk x) s = .next (retire (say s (1 + l.num * 2 ^ 16)) t (extLen x))) ∧
      (lineTagged k t.ctx (tagBits ea) = none → (lineOf k n).isSome →
        exec (mk x) s = .next (retire (say s (2 + n * 2 ^ 16)) t (extLen x))) ∧
      (lineTagged k t.ctx (tagBits ea) = none → lineOf k n = none →
        let s1 := say (s.onCore t.core (fun k => { k with lines :=
          { num := n, tag := tagBits ea, st := if fill then .filling else .valid, dirty := !fill, ctx := t.ctx,
            latch := if fill then latch else none, team := t.uid, seq := s.stepNo } :: k.lines })) (n * 2 ^ 16)
        exec (mk x) s = .next (retire (if fill then s1.post (.fillComplete t.core n) else s1) t (extLen x))))

/-- `cpy` and `cpyg` with room for a copy (10 R239, R240): the descriptor's address is A plus the offset; in scratch it is
read at once, in memory its reading is in flight. -/
def CopyIssue (mk : Ext → Instr) (sub : Nat) (gather : Bool) : Prop :=
  ∀ (x : Ext) (s : State) (t : Team), Issues 0x4E sub x s t → t.go x.g x.neg = true →
    let base := if x.a.cls = .vec then 0 else (srcScalar s t x x.a).toNat
    let va := offAddr x base
    let row (l : Nat) : Nat := (t.lane x.b.code.toNat l).toNat
    let rows := if gather then some ((lanesOf (activeLanes t x)).map row) else none
    (gather = true → (activeLanes t x).any id = true) → copiesFull s t.core = false → va % 128 = 0 →
      (x.bit 14 = true → scratchOk (s.core t.core) t.place t.ctx va 128 = true →
        scratchHeld (s.core t.core) t.place t.ctx va 128 = false → exec (mk x) s = .next (retire (startCopy s t x.d.toNat
          (parseCopy ((s.core t.core).scratch.bytes va 128) rows (latchCount s t)) rows) t (extLen x))) ∧
      (x.bit 14 = false →
        let r := (ctxAt (mk x) 0x4E sub (extLen x) x t).launch s ((if gather then lanesOf (activeLanes t x) else [0]).map
          (fun l => { lane := l, addr := BitVec.ofNat 64 base, data := BitVec.ofNat 64 (if gather then row l else 0),
                      st := .todo })) [] [0] true
        exec (mk x) s = .next (retire ({ r with flights := r.flights.map (fun (f : Flight) =>
          if f.id = s.nextId then { f with waits := storesBefore s t.uid } else f) }.post
            (.copyDescriptorRead t.core s.nextId)) t (extLen x)))

/-! ## Tasks -/

/-- `qpop` of a ring that the context owns, outside a declaring task (15 R344): the task ends, the registers that the
entry will fill become empty, and the team goes on with its pop under way. -/
def PopOp {α : Type} (mk : α → Instr) (ext : α → Ext) (len : α → Nat) : Prop :=
  ∀ (y : α) (s : State) (t : Team) (q : Queue), let x := ext y
    let n := (srcScalar s t x x.a).toNat
    Issues 0x53 0 x s t → t.go x.g x.neg = true → n < 65536 → s.queue? n = some q → q.ctx = t.ctx → q.isLaunch = false →
    (∀ k, t.task = some k → k.declared = false) → usesAbsent s t = none → t.run = .running →
    exec (mk y) s = .next (retire (((closeTask (dropUses s t) t.uid).onTeam t.uid (fun u =>
      let v := u.setFull false x.d.toNat false 4
      { (if x.f 0 0 = 1 then v.setSFull (x.f 7 1) false else v) with
          run := match u.run with
            | .saved _ => .saved (some .qpop)
            | _ => .running
          aux := [], pop := [q.num, x.d.toNat, x.f 0 0, x.f 7 1, (t.pc + BitVec.ofNat 64 (len y)).toNat]
          pc := t.pc + BitVec.ofNat 64 (len y) })).post (.queuePopArrival t.uid)) t (len y))

/-- An operand of group task that names no queue of the context (15 R342): a number beyond 65,535, of no valid record, or of
another context's queue. -/
def NotOwned (s : State) (t : Team) (n : Nat) : Prop := ∀ q, n < 65536 → s.queue? n = some q → q.ctx ≠ t.ctx

/-- A form with a queue operand takes `qerr`, subcode 0x0001, of such an operand (15 R342, R343). -/
def QueueTraps {α : Type} (mk : α → Instr) (ext : α → Ext) (len : α → Nat) (sub : Nat) : Prop :=
  ∀ (y : α) (s : State) (t : Team), let x := ext y
    Issues 0x53 sub x s t → t.go x.g x.neg = true → NotOwned s t (srcScalar s t x x.a).toNat →
    exec (mk y) s = .next (takeTrap s t (trapHere t.pc (t.pc + BitVec.ofNat 64 (len y)) 0x0E 1))

/-- `tend` (14 R327, 15 R347): a task that declared nothing is closed at once; else the team parks for its commit, once
its accesses on `ls` are over; a wound that a handler held back comes first, and its replay queue is discarded (R330). -/
def TendOp {α : Type} (mk : α → Instr) (ext : α → Ext) (len : α → Nat) : Prop :=
  ∀ (y : α) (s : State) (t : Team), let x := ext y
    Issues 0x53 3 x s t → t.go x.g x.neg = true →
    ((∀ k, t.task = some k → k.declared = false) → usesAbsent s t = none →
      exec (mk y) s = .next (retire (closeTask (dropUses s t) t.uid) t (len y))) ∧
    (∀ k, t.task = some k → k.declared = true → t.wound = false → lsDone s t.uid = true →
      exec (mk y) s = .next ((s.onTeam t.uid (fun u => { u with
        run := .parked .apply, aux := [(t.pc + BitVec.ofNat 64 (len y)).toNat] })).post (.tendCommit t.uid))) ∧
    (∀ k, t.task = some k → k.declared = true → t.wound = false → lsDone s t.uid = false → exec (mk y) s = .next s) ∧
    (∀ k, t.task = some k → k.declared = true → t.wound = true →
      exec (mk y) s = .next (s.setTeam { t.fillRdst with handler := false, caught := [] }))

/-! ## The matrix engine -/

/-- The span of a tile instruction (13 R307): register, lane and element of each active lane whose element exists. -/
def tileSpan (s : State) (t : Team) (x : Ext) (n : Nat) : List (Nat × Nat × Nat) :=
  (List.range n).flatMap (fun j => ((lanesOf (activeLanes t x)).map (fun l =>
    (j, l, srcVal s t x x.b 32 0 + j * t.width + l))).filter (fun p => p.2.2 ≤ 4095))

/-- `mma` and `mmas` that are accepted (13 R291, R299, R305): the records are the kernel's own, of fitting layouts and
types, in bounds, no `acld` still loads the tile, and the team holds the lease with a count left, and the pintle when it is a leaf of a pair. -/
def MmaOp (mk : Ext → Instr) (sub : Nat) (sparse : Bool) : Prop :=
  ∀ (x : Ext) (s : State) (t : Team) (a b : Reserve) (k : Nat), Issues 0x51 sub x s t → t.go x.g x.neg = true →
    rcdCheck s t (x.f 3 0) = .ok a → rcdCheck s t (x.f 7 4) = .ok b → a.lay = 0 → b.lay = (if sparse then 2 else 1) →
    pairK a.elem b.elem = some k → a.exceeds k = false → b.exceeds k = false →
    (sparse = true → ∀ g < k, ((List.range 64).filter (fun i => (groupMap (s.core t.core).obuf
      (256 * b.base + g * groupBytes b.elem.width)).testBit i)).length ≤ 32) →
    (t.leaf = 2 ∨ pintleOf s t = t.leaf) → (s.core t.core).lease.holder = some (leaseKey t) →
    (s.core t.core).lease.count ≠ 0 → tileLoads s t x.d.toNat = false →
    exec (mk x) s = .next (retire (((onLease s t.core (fun l => { l with
        count := (s.core t.core).lease.count - 1, since := s.clk.toNat })).onCore t.core (fun c => { c with
      engine := c.engine ++ [{ team := t.uid, tile := tileIx s t x.d.toNat, x := a, y := b,
                               ea := baseExpOf (srcScalar s t x x.a), eb := baseExpOf (srcScalar s t x x.b),
                               sparse := sparse }] })).post (.mmaExecute t.core)) t (extLen x))

/-- The traps of `mma` and `mmas` (13 R299, R305), in the order of their checks: a record not valid or another kernel's, a layout
or type that does not fit, an operand beyond its record, a sparse group of more than 32, and no relation to the lease. -/
def MmaTraps (mk : Ext → Instr) (sub : Nat) (sparse : Bool) : Prop :=
  ∀ (x : Ext) (s : State) (t : Team), Issues 0x51 sub x s t → t.go x.g x.neg = true →
    let na := x.f 3 0
    let nb := x.f 7 4
    let trap (code sub : Nat) : Out := .next (takeTrap s t (trapHere t.pc (t.pc + BitVec.ofNat 64 (extLen x)) code sub))
    let full (b : Reserve) (g : Nat) : Prop := 32 < ((List.range 64).filter (fun i => (groupMap (s.core t.core).obuf
      (256 * b.base + g * groupBytes b.elem.width)).testBit i)).length
    (∀ e, rcdCheck s t na = .error e → exec (mk x) s = trap 0x0A e) ∧
    (∀ a e, rcdCheck s t na = .ok a → rcdCheck s t nb = .error e → exec (mk x) s = trap 0x0A e) ∧
    (∀ a b, rcdCheck s t na = .ok a → rcdCheck s t nb = .ok b →
      (a.lay ≠ 0 ∨ b.lay ≠ (if sparse then 2 else 1) ∨ pairK a.elem b.elem = none → exec (mk x) s = trap 0x0A (0x0600 + na)) ∧
      (∀ k, a.lay = 0 → b.lay = (if sparse then 2 else 1) → pairK a.elem b.elem = some k →
        (a.exceeds k = true → exec (mk x) s = trap 0x0A (0x0700 + na)) ∧
        (a.exceeds k = false → b.exceeds k = true → exec (mk x) s = trap 0x0A (0x0700 + nb)) ∧
        (a.exceeds k = false → b.exceeds k = false → sparse = true → (∃ g < k, full b g) →
          exec (mk x) s = trap 0x0A (0x0800 + nb)) ∧
        (a.exceeds k = false → b.exceeds k = false → (sparse = true → ∀ g < k, ¬ full b g) → tileLoads s t x.d.toNat = false →
          (t.leaf = 2 ∨ pintleOf s t = t.leaf) → (s.core t.core).lease.holder ≠ some (leaseKey t) →
          (∀ y ∈ (s.core t.core).lease.lost, y.key ≠ leaseKey t) → (∀ q ∈ (s.core t.core).lease.queue, q.key ≠ leaseKey t) →
          exec (mk x) s = trap 0x09 1)))

/-! ## Chains and sequence maps -/

/-- `hld` and `hwalk` with an active lane, a snapshot, room and no change of the chain under way (16 R352, R359): the lanes are in
flight with their start and depth. -/
def WalkIssue (mk : Ext → Instr) (sub : Nat) : Prop :=
  ∀ (x : Ext) (s : State) (t : Team) (snap : List Nat), Issues 0x54 sub x s t → (activeLanes t x).any id = true →
    (srcScalar s t x x.a).toNat < 256 → takeSnap false t.agent s (chainAt t (srcScalar s t x x.a).toNat) = .ok snap →
    outstanding s t.uid < outstandingCap → chainBusy s t.ctx (srcScalar s t x x.a).toNat 0 = false →
    exec (mk x) s = .next (retire (((ctxAt (mk x) 0x54 sub (extLen x) x t).launch s ((lanesOf (activeLanes t x)).map (fun l =>
      { lane := l, data := BitVec.ofNat 64 (srcVal s t x x.c 32 l), st := .todo,
        addr := BitVec.ofNat 64 ((t.lane x.b.code.toNat l).toNat + 2 ^ 32 * (t.lane (x.b.code.toNat + 1) l).toNat) }))
      snap [0, (srcScalar s t x x.a).toNat] false).post (.walkComplete s.nextId)) t (extLen x))

/-- An instruction on a chain that is valid and not malformed (16 R352, R354) leaves a state given by its number and
descriptor; on one that is not it takes `prot`. -/
def ChainOp (mk : Ext → Instr) (sub : Nat) (next : State → Team → Ext → Nat → Chain → State) : Prop :=
  ∀ (x : Ext) (s : State) (t : Team), Issues 0x54 sub x s t → t.go x.g x.neg = true →
    let n := (srcScalar s t x x.a).toNat
    let trap (sub : Nat) : Trap := trapHere t.pc (t.pc + BitVec.ofNat 64 (extLen x)) 0x05 sub
    (256 ≤ n → exec (mk x) s = .next (takeTrap s t (trap 0x0901))) ∧
    (∀ d, n < 256 → t.agent.bytes s (chainAt t n) 256 = .ok d → chainOk d = false →
      exec (mk x) s = .next (takeTrap s t (trap 0x0902))) ∧
    (∀ d, n < 256 → t.agent.bytes s (chainAt t n) 256 = .ok d → chainOk d = true →
      exec (mk x) s = .next (next s t x n d))

/-- A change of a chain on its way to the home slice, which its team waits for. -/
def chainChange (s : State) (t : Team) (x : Ext) (mk : Ext → Instr) (sub n i : Nat) (e : Ev) : State :=
  ((ctxAt (mk x) 0x54 sub (extLen x) x t).launch s
    [{ lane := 0, addr := BitVec.ofNat 64 n, data := 0, st := .todo }] [] [0, n, i] true).post e

/-- An instruction on a map that answers a status (17 R380): on a good map whose tables can be reached it leaves what its
rule gives, with the status in sD; on another it takes `prot`. -/
def MapOp (mk : Ext → Instr) (sub : Nat) (op : State → Team → Ext → Agent → State → KMap → Got (State × Nat)) : Prop :=
  ∀ (x : Ext) (s : State) (t : Team), Issues 0x55 sub x s t → t.go x.g x.neg = true →
    let m := (srcScalar s t x x.a).toNat
    (∀ code, readMap t.agent s t.seqb.toNat m = .ok (.bad code) → exec (mk x) s =
      .next (takeTrap s t (trapHere t.pc (t.pc + BitVec.ofNat 64 (extLen x)) 0x05 code))) ∧
    (∀ k s1 v, readMap t.agent s t.seqb.toNat m = .ok (.ok k) → op s t x t.agent s k = .ok (s1, v) → exec (mk x) s =
      .next (retire (retestAll (putScalar s1 t x.d (BitVec.ofNat 64 v))) t (extLen x)))

/-- The shares of `kvshare` (17 R390): each entry of dst becomes that of src, with one ref more. -/
def SharesOne (a : Agent) (k : KMap) : Prop :=
  ∀ (s : State), shareAll a s k [] = .ok s ∧ ∀ (x y : BlkEnt) l s1 r s2, writeBlk a s y .mapped x.num = .ok s1 →
    a.rd s1 (k.ptab + 16 * x.num + 8) 2 = .ok r → a.wr s1 (k.ptab + 16 * x.num + 8) 2 (r + 1) = .ok s2 →
    shareAll a s k ((x, y) :: l) = shareAll a s2 k l

/-- `kvshare` of m positions (17 R390): the first check that fails answers its status and changes nothing; else the whole blocks
are shared, a part of a block gets a block of its own whose copy starts, and dst has m positions. -/
def ShareSays : Prop := ∀ (a : Agent) (s : State) (k : KMap) (dst src m : Nat),
  let f := m / 32
  let n := if m % 32 = 0 then f else f + 1
  SharesOne a k ∧
  (k.nseq ≤ dst ∨ k.nseq ≤ src → kvshareOp dst src m a s k = .ok (s, 3)) ∧
  (∀ d e, dst < k.nseq → src < k.nseq → readSeq a s k dst = .ok d → readSeq a s k src = .ok e → d.cut = false → e.cut = false →
    (d.valid = false ∨ e.valid = false ∨ e.len < m ∨ 32 * d.cap < m → kvshareOp dst src m a s k = .ok (s, 3)) ∧
    (∀ xs ys, d.valid = true → e.valid = true → m ≤ e.len → m ≤ 32 * d.cap → readBlks a s e 0 n = .ok xs →
      readBlks a s d 0 n = .ok ys → (∀ b ∈ xs ++ ys, b.bad = false) →
      ((∃ b ∈ xs, b.st ≠ .mapped) ∨ (∃ b ∈ ys, b.st ≠ .absent) → kvshareOp dst src m a s k = .ok (s, 4)) ∧
      ((∀ b ∈ xs, b.st = .mapped) → (∀ b ∈ ys, b.st = .absent) →
        let nums := (xs.take f).map (fun b => b.num)
        (refsFit a s k nums nums = .ok false → kvshareOp dst src m a s k = .ok (s, 5)) ∧
        (∀ free, refsFit a s k nums nums = .ok true → a.rd s (k.desc + 60) 4 = .ok free →
          (m % 32 ≠ 0 → free = 0 → kvshareOp dst src m a s k = .ok (s, 2)) ∧
          (∀ s1 s2, m % 32 = 0 → shareAll a s k (xs.zip ys) = .ok s1 → a.wr s1 (d.at_ + 8) 4 m = .ok s2 →
            kvshareOp dst src m a s k = .ok (s2, 0)) ∧
          (∀ s1 s2 s3 s4 s5 b x y, m % 32 ≠ 0 → free ≠ 0 → shareAll a s k ((xs.take f).zip ys) = .ok s1 →
            xs[f]? = some x → ys[f]? = some y → popFree a s1 k = .ok (some (s2, b)) → freshBlock a s2 k b 1 = .ok s3 →
            writeBlk a s3 y .pending b = .ok s4 →
            let v : KvMove :=
              { id := 0, kind := 1, ctx := a.ctx, map := k.num, seq := dst, entry := f, block := b, slot := 0,
                bytes := m % 32 * k.slotb, srcBlock := x.num }
            a.wr (afterPop a (startMove s4 v) k) (d.at_ + 8) 4 m = .ok s5 → kvshareOp dst src m a s k = .ok (s5, 0))))))

/-! ## Surfaces and passes -/

/-- The pair of vector registers from n, in lane l. -/
def lanePair (t : Team) (n l : Nat) : Word64 :=
  BitVec.ofNat 64 ((t.lane n l).toNat + 2 ^ 32 * (t.lane (n + 1) l).toNat)

/-- An access to a surface on its way (18 R405): one lane for each active lane, with its coordinates, and the surface as read at
issue. -/
def surfIssue (mk : Ext → Instr) (sub : Nat) (x : Ext) (s : State) (t : Team) (g : Surf) : State :=
  ((ctxAt (mk x) 0x56 sub (extLen x) x t).launch s ((lanesOf (activeLanes t x)).map (fun l =>
    { lane := l, addr := BitVec.ofNat 64 (srcScalar s t x x.a).toNat, data := lanePair t x.b.code.toNat l, st := .todo }))
    [] (0 :: g.list) false).post (.samplerComplete s.nextId)

/-- An emitting instruction on a pass that is open for the team's context (18 R411, R412, R419): the active lanes are
emitted in order, and the bin area takes their records, whose bytes are free (log 17). -/
def PrimOp (mk : Ext → Instr) (sub form n : Nat) : Prop :=
  ∀ (x : Ext) (s : State) (t : Team), Issues 0x57 sub x s t →
    ((activeLanes t x).any id = false → exec (mk x) s = .next (retire s t (extLen x))) ∧
    (∀ p s1, (activeLanes t x).any id = true → (srcScalar s t x x.a).toNat < 16 →
      s.pass? (dieOf t.core) (srcScalar s t x x.a).toNat = some p → p.ctx = t.ctx → p.isOpen = true →
      let r := emitLanes (ctxAt (mk x) 0x57 sub (extLen x) x t) form n (lanesOf (activeLanes t x)) p []
      (r.2.foldl (fun (acc : Got State) w => match acc with
        | .ok s => t.agent.put s w.1 ((List.range w.2).map (fun i =>
            Config.privateByte (s.stepNo * 2 ^ 64 + w.1 + i)))
        | e => e) (.ok s)) = .ok s1 →
      exec (mk x) s = .next (retire (s1.onPass p.die p.id (fun _ => r.1)) t (extLen x)))

/-- A prim form with an active lane on a pass that is not open for the context traps (18 R419). -/
def PrimTraps (mk : Ext → Instr) (sub : Nat) : Prop :=
  ∀ (x : Ext) (s : State) (t : Team), Issues 0x57 sub x s t → (activeLanes t x).any id = true →
    (∀ p, (srcScalar s t x x.a).toNat < 16 → s.pass? (dieOf t.core) (srcScalar s t x x.a).toNat = some p → p.ctx = t.ctx →
      p.isOpen = false) →
    exec (mk x) s = .next (takeTrap s t (trapHere t.pc (t.pc + BitVec.ofNat 64 (extLen x)) 0x05 0x0C01))

/-- One splat at a pixel, with the arithmetic of R414: it changes nothing unless T has not fallen below opq, the pixel lies within
its radius and it is in front of the opaque primitive. -/
def BlendSays : Prop := ∀ (opq okey cx cy : Nat) (b : Blend) (q : Prim),
  let w (i : Nat) : Nat := (q.words.getD i 0).toNat
  let below (x y : Nat) : Bool := FV.lt (fmt32.value x) (fmt32.value y)
  let dx := t32 fSub cx (w 0)
  let dy := t32 fSub cy (w 1)
  let within (d : Nat) : Prop := (fmt32.value d).isNan = false ∧ below (w 10) (d % 2 ^ 31) = false
  let seen : Prop := (fmt32.value b.t).isNan = false ∧ below b.t opq = false ∧ within dx ∧ within dy ∧ q.key < okey
  (¬ seen → blendOne opq okey cx cy b q = b) ∧
  (seen →
    let e := t32 fAdd (t32 fAdd (t32 fMul (t32 fMul (w 2) dx) dx) (t32 fMul (t32 fMul (t32 fMul 0x40000000 (w 3)) dx) dy))
      (t32 fMul (t32 fMul (w 4) dy) dy)
    let al := (fMinMax false fmt32 false 0x3F7F0000 (t32 fMul (w 5) (sEx2 (e ^^^ 2 ^ 31) false).1)).1
    let t' := t32 fMul b.t (t32 fSub 0x3F800000 al)
    blendOne opq okey cx cy b q =
      { t := t', c := (List.range 3).map (fun c => t32 fAdd (b.c.getD c 0) (t32 fMul (t32 fMul b.t al) (w (6 + c))))
        evals := b.evals + 1, cut := b.cut + (if below t' opq then 1 else 0) })

/-- The resolve of a tile (18 R414): the colour of a pixel is that of its splats, in order of key and sequence, over its opaque
colour, which is the answer of the topmost primitive or the clear colour; and the pixels inside the target are written. -/
def ResolveSays : Prop := ∀ (n : Nat) (p : Pass),
  let v := p.view
  let clear := (List.range 4).map (fun c => f16to32 (v.clear / 2 ^ (16 * c) % 2 ^ 16))
  (∀ i x y okey ocol,
    (topPrim (p.binned p.tile) x y = none ∧ okey = 0xFFFFFF ∧ ocol = clear ∨
      ∃ (q : Prim) (c : Nat × List Word), topPrim (p.binned p.tile) x y = some q ∧ okey = q.key ∧ p.colours.find? (fun (c : Nat × List Word) => c.1 = i) = some c ∧
        ocol = c.2.map (fun (w : Word) => w.toNat)) →
    let splats := sortBy (fun (a b : Prim) => a.key < b.key || (a.key = b.key && a.seq ≤ b.seq))
      ((p.binned p.tile).filter (fun q => q.form = 2))
    let b := splats.foldl (blendOne (f16to32 v.opq) okey (centre32 x) (centre32 y))
      { t := 0x3F800000, c := [0, 0, 0], evals := 0, cut := 0 }
    finalColour n p i x y = ((List.range 3).map (fun c => t32 fAdd (b.c.getD c 0) (t32 fMul b.t (ocol.getD c 0))) ++
      [ocol.getD 3 0], b.evals, b.cut)) ∧
  (∀ w, w ∈ (resolveOf n p).1 ↔ ∃ i x y, (i, x, y) ∈ v.pixels p.tile ∧ x < v.surf.width ∧ y < v.surf.height ∧
    w = (v.surf.texel x y, texelBytes v.surf (finalColour n p i x y).1)) ∧
  (resolveOf n p).2.1 = ((v.pixels p.tile).map (fun q => (finalColour n p q.1 q.2.1 q.2.2).2.1)).sum ∧
  (resolveOf n p).2.2 = ((v.pixels p.tile).map (fun q => (finalColour n p q.1 q.2.1 q.2.2).2.2)).sum

/-- The commit of a tile (18 R414, R417): its counts reach the pass, and the next tile, or the end of the pass, follows. -/
def CommitSays : Prop := ∀ (s : State) (p : Pass) (evals cut : Nat), s.pass? p.die p.id = some p →
  let s' := commitTile s p evals cut
  let covered := (p.frags.map (fun f => ((List.range 32).filter (fun i => f.cover.testBit i)).length)).sum
  s'.pass? p.die p.id = some { p with
    counts := (((p.counts.modify 3 (· + p.frags.length)).modify 4 (· + covered)).modify 5 (· + evals)).modify 6 (· + cut)
    active := false, attempt := 0, frags := [], colours := [], tile := p.tile + 1 } ∧
  s'.mem = s.mem ∧ s'.teams = s.teams ∧
  (p.tile + 1 < p.view.tiles → .tileProcess p.die p.id ∈ s'.agenda) ∧
  (p.view.tiles ≤ p.tile + 1 → .tileComposite p.die p.id ∈ s'.agenda)

/-! ## The host -/

/-- The hub takes a mailbox command: no update of it is under way, the mailbox is free and the device is ready (20 R440,
R448). -/
abbrev HostReady (s : State) : Prop :=
  s.hub.updating.contains 4 = false ∧ (mailCode s = 0 ∨ s.hub.fresh = true) ∧ s.hub.ready = true

/-- The commands of the hub, each with its code (20 R440). -/
def hubCommands : List (Nat × (Mail → Instr)) :=
  [(1, .mailboxCreateContext), (2, .mailboxDestroyContext), (3, .mailboxCreateQueue), (3, .mailboxDestroyQueue),
   (4, .mailboxSwitchContextOut), (4, .mailboxSwitchContextIn), (5, .mailboxGrantExtent), (5, .mailboxReleaseExtent),
   (6, .mailboxClearOverflow), (7, .mailboxLoadImage), (8, .mailboxAttestationQuote), (9, .mailboxUpdate),
   (10, .mailboxSelectBar4Context)]

/-- The mailbox with a command and its operands in it (20 R440). -/
def mailTaken (s : State) (code : Nat) (m : Mail) : State :=
  (putMail (putMail s 16 ([m.op0, m.op1, m.op2, m.op3].flatMap (fun w => leBytes 8 w.toNat))) 0 [BitVec.ofNat 8 code]).onHub
    (fun h => { h with fresh := false })

/-! ## Frames -/

/-- What an instruction that only works on registers leaves as it was: everything outside the team; in the team every
scalar register but those of sD, every vector register but those of vD, every predicate but those of pD, every lane that
is not active, every full/empty bit, and every special and control register. The program counter may move. With `flags`
the sticky flags of `status` may become 1 (04 R98); every other bit of it stays. -/
def Kept (s s' : State) (t : Team) (x : Ext) (sD vD pD : Nat → Bool) (flags : Bool) : Prop :=
  SameOutside s s' t.uid ∧ ∃ u, s'.team? t.uid = some u ∧
    u = { t with pc := u.pc, s := u.s, v := u.v, p := u.p, status := u.status, issueNo := u.issueNo } ∧
    (∀ n, sD n = false → u.sval n = t.sval n) ∧ (∀ n, u.sfull n = t.sfull n) ∧
    (∀ n, vD n = false → u.vreg n = t.vreg n) ∧ (∀ n, (u.vreg n).full = (t.vreg n).full) ∧
    (∀ n l, pD n = false → u.pr n l = t.pr n l) ∧
    (∀ l, l < t.width → (activeLanes t x).getD l false = false →
      ∀ n, u.lane n l = t.lane n l ∧ u.pr n l = t.pr n l) ∧
    (∀ b, t.status.getLsbD b = true → u.status.getLsbD b = true) ∧
    (∀ b, (flags = false ∨ b < 5 ∨ 9 < b) → u.status.getLsbD b = t.status.getLsbD b)

/-- The frame of the forms of a list, each with its group and its number in the group. -/
def FrameOf (forms : List (Nat × Nat × (Ext → Instr))) (flags : Bool) (sD vD pD : Ext → Nat → Bool) : Prop :=
  ∀ f ∈ forms, ∀ x s t s', Issues f.1 f.2.1 x s t → (flags = true → ∀ g, enabled t.status g = 0) →
    exec (f.2.2 x) s = .next s' → Kept s s' t x (sD x) (vD x) (pD x) flags

/-- The frame of the one-word forms of a list, each with its group, its number in the group and the extended form that it stands for
(03 R77). -/
def FrameShort (forms : List (Nat × Nat × (Short → Instr) × (Short → Ext))) (flags : Bool) (sD vD pD : Ext → Nat → Bool) : Prop :=
  ∀ f ∈ forms, ∀ y s t s', Issues f.1 f.2.1 (f.2.2.2 y) s t → (flags = true → ∀ g, enabled t.status g = 0) →
    exec (f.2.2.1 y) s = .next s' →
    Kept s s' t (f.2.2.2 y) (sD (f.2.2.2 y)) (vD (f.2.2.2 y)) (pD (f.2.2.2 y)) flags

/-- The frame of a function of group vsfu whose result comes later (08 R188): at its issue no byte of memory, no other team and no
value of a register, predicate, special or control register changes, and no register becomes empty but those of its destination. -/
def LongKept (mk : Ext → Instr) (sub : Nat) (vD : Ext → Nat → Bool) : Prop :=
  ∀ x s t s', Issues 0x46 sub x s t → exec (mk x) s = .next s' →
    (∀ a, s'.mem.get a = s.mem.get a) ∧ (∀ v, v ≠ t.uid → s'.team? v = s.team? v) ∧
    ∃ u, s'.team? t.uid = some u ∧ u = { t with pc := u.pc, v := u.v, issueNo := u.issueNo } ∧
      ∀ n l, u.lane n l = t.lane n l ∧ (u.vreg n).tag = (t.vreg n).tag ∧ (vD x n = false → (u.vreg n).full = (t.vreg n).full)

/-- What a memory instruction that issues leaves as it was, with no other instruction of its team in flight: every byte of
memory; the registers of every other team; in its own team every value of every register, every predicate, and every
special and control register. It makes no register empty but those of its destination, `sD` and `vD`. -/
def MemKept {α : Type} (mk : α → Instr) (ext : α → Ext) (opc sub : Nat) (scalar : Bool) (addr : State → Team → Ext → Nat → Nat) (al : Ext → Bool)
    (sD vD : Ext → Nat → Bool) : Prop :=
  ∀ y s t s', let x := ext y
    Issues opc sub x s t →
    MemIssues s t x (al x) (laneAddrs addr scalar s t x) → s.flightsOf t.uid = [] →
    (∀ p ∈ laneAddrs addr scalar s t x, t.unlogged p.2 (x.ty.width / 8) = []) →
    exec (mk y) s = .next s' →
    (∀ a, s'.mem.get a = s.mem.get a) ∧
    (∀ v, v ≠ t.uid → (s'.team? v).map (fun u => (u.pc, u.s, u.v, u.p, u.status)) =
      (s.team? v).map (fun u => (u.pc, u.s, u.v, u.p, u.status))) ∧
    ∃ u, s'.team? t.uid = some u ∧ u = { t with pc := u.pc, s := u.s, v := u.v, holds := u.holds, issueNo := u.issueNo } ∧
      (∀ n, u.sval n = t.sval n ∧ (sD x n = false → u.sfull n = t.sfull n)) ∧
      (∀ n l, u.lane n l = t.lane n l ∧ (u.vreg n).tag = (t.vreg n).tag ∧
        (vD x n = false → (u.vreg n).full = (t.vreg n).full))

end Sys2Proof.Machine
end

