-- ==== Sys2Proof/Certificates/Slice0/Obligations.lean ====
section
/-!
DEFINITION. The statements for the provers: what the instructions and events of the X9 do, from the rules of its manual.
-/

open Sys2Proof Sys2Proof.Machine

/-- 07 R164-R167, R169: a scalar integer instruction that executes (02 R44) writes its result, reduced to the type and
widened to 64 bits, to sD; one that does not execute writes nothing. Either way the program counter moves on. -/
def Obligations.ScalarArithmeticWritesItsResult : Prop :=
  ScalarOp Instr.sadd id extLen 0x42 0 (fun x a b _ => widen x.ty (intRead x.ty a + intRead x.ty b)) ∧
  ScalarOp Instr.ssub id extLen 0x42 1 (fun x a b _ => widen x.ty (intRead x.ty a - intRead x.ty b)) ∧
  ScalarOp Instr.smul id extLen 0x42 2 (fun x a b _ => widen x.ty (intRead x.ty a * intRead x.ty b)) ∧
  ScalarOp Instr.smulh id extLen 0x42 3
    (fun x a b _ => widen x.ty (Int.fdiv (intRead x.ty a * intRead x.ty b) (2 ^ x.ty.width : Nat))) ∧
  ScalarOp Instr.sand id extLen 0x42 4 (fun x a b _ => widen x.ty (a &&& b : Nat)) ∧
  ScalarOp Instr.sor id extLen 0x42 5 (fun x a b _ => widen x.ty (a ||| b : Nat)) ∧
  ScalarOp Instr.sxor id extLen 0x42 6 (fun x a b _ => widen x.ty (a ^^^ b : Nat)) ∧
  ScalarOp Instr.sandn id extLen 0x42 7 (fun x a b _ => widen x.ty (a &&& (2 ^ x.ty.width - 1 - b) : Nat)) ∧
  ScalarOp Instr.sshl id extLen 0x42 8 (fun x a b _ => widen x.ty (a * 2 ^ (b % x.ty.width) : Nat)) ∧
  ScalarOp Instr.sshr id extLen 0x42 9 (fun x a b _ => widen x.ty (a / 2 ^ (b % x.ty.width) : Nat)) ∧
  ScalarOp Instr.ssar id extLen 0x42 10
    (fun x a b _ => widen x.ty (Int.fdiv (sextN x.ty.width a) (2 ^ (b % x.ty.width) : Nat))) ∧
  ScalarOp Instr.smin id extLen 0x42 11 (fun x a b _ => widen x.ty (min (intRead x.ty a) (intRead x.ty b))) ∧
  ScalarOp Instr.smax id extLen 0x42 12 (fun x a b _ => widen x.ty (max (intRead x.ty a) (intRead x.ty b))) ∧
  ScalarOp Instr.sclz id extLen 0x42 13 (fun x a _ _ => widen x.ty (x.ty.width - bitLen a : Nat)) ∧
  ScalarOp Instr.spopc id extLen 0x42 14
    (fun x a _ _ => widen x.ty (((List.range x.ty.width).filter (fun i => a.testBit i)).length : Nat)) ∧
  ScalarOp Instr.sbfe id extLen 0x42 15 (fun x a f _ => widen x.ty (bitField x.ty a (f % 256) (f / 256 % 256))) ∧
  ScalarOp Instr.sbfi id extLen 0x42 16
    (fun x a b f => widen x.ty (bitInsert x.ty.width a b (f % 256) (f / 256 % 256) : Nat)) ∧
  ScalarOp Instr.sdiv id extLen 0x42 19 (fun x a b _ => widen x.ty
    (if b % 2 ^ x.ty.width = 0 then (if x.bit 0 then intRead x.ty a else (2 ^ x.ty.width - 1 : Nat))
     else if x.bit 0 then intRead x.ty a - Int.tdiv (intRead x.ty a) (intRead x.ty b) * intRead x.ty b
     else Int.tdiv (intRead x.ty a) (intRead x.ty b))) ∧
  ScalarOp Instr.saddShort (shortTwo · .sc .i64) shortLen 0x42 0 (fun x a b _ => widen x.ty (intRead .i64 a + intRead .i64 b)) ∧
  ScalarOp Instr.ssubShort (shortTwo · .sc .i64) shortLen 0x42 1 (fun x a b _ => widen x.ty (intRead .i64 a - intRead .i64 b)) ∧
  ScalarOp Instr.sandShort (shortTwo · .sc .b64) shortLen 0x42 4 (fun x a b _ => widen x.ty (a &&& b : Nat)) ∧
  ScalarOp Instr.sorShort (shortTwo · .sc .b64) shortLen 0x42 5 (fun x a b _ => widen x.ty (a ||| b : Nat)) ∧
  ScalarOp Instr.sshlShort (shortTwo · .sc .b64) shortLen 0x42 8 (fun x a b _ => widen x.ty (a * 2 ^ (b % 64) : Nat)) ∧
  ScalarOp Instr.sshrShort (shortTwo · .sc .b64) shortLen 0x42 9 (fun x a b _ => widen x.ty (a / 2 ^ (b % 64) : Nat))

/-- 07 R168, 03 R79 and 05 R136: `scmp` writes 1 or 0, `ssel` chooses by C read as 64 bits, `smov` copies, `mpop` counts
and `mfirst` finds set bits of a scalar run over the lanes of the team. -/
def Obligations.ScalarTestAndMoveWriteTheirResult : Prop :=
  ScalarOp Instr.scmp id extLen 0x42 18
    (fun x a b _ => if intCompare (x.f 2 0) (intRead x.ty a) (intRead x.ty b) then 1 else 0) ∧
  (∀ x s t, Issues 0x42 17 x s t → exec (.ssel x) s = .next (retire (if t.go x.g x.neg then putScalar s t x.d
    (if srcScalar s t x x.c ≠ 0 then srcScalar s t x x.a else srcScalar s t x x.b) else s) t (extLen x))) ∧
  (∀ (x : Short) s t, Issues 0x42 13 (shortOne x .sc .b64) s t → exec (.smov x) s = .next (retire (if t.go x.g x.neg then
    putScalar s t x.d (match x.lit with
      | some l => l
      | none => scalarCode s t x.a.toNat) else s) t (shortLen x))) ∧
  (∀ x s t, Issues 0x41 2 x s t → exec (.mpop x) s = .next (retire (if t.go x.g x.neg then putScalar s t x.d
    (BitVec.ofNat 64 ((List.range t.width).filter (fun l => t.runBit x.a.code.toNat l)).length) else s) t (extLen x))) ∧
  (∀ x s t, Issues 0x41 3 x s t → exec (.mfirst x) s = .next (retire (if t.go x.g x.neg then putScalar s t x.d
    (match (List.range t.width).find? (fun l => t.runBit x.a.code.toNat l) with
      | some l => BitVec.ofNat 64 l
      | none => 0xFFFFFFFFFFFFFFFF) else s) t (extLen x)))

/-- 05 R130, R132: the branches and `loop`, with their short forms, and the `nop`s of R134. A branch that is not taken moves
to the next instruction. -/
def Obligations.BranchesMoveTheProgramCounter : Prop :=
  BranchOp Instr.bra id extLen 0 (fun _ _ => true) ∧
  BranchOp Instr.bmz id extLen 1 (fun t _ => t.msum = 0) ∧
  BranchOp Instr.bmnz id extLen 2 (fun t _ => t.msum ≠ 0) ∧
  BranchOp Instr.braShort (fun x => shortBare x 0 (shortOff16 x)) shortLen 0 (fun _ _ => true) ∧
  BranchOp Instr.bmzShort (fun x => shortBare x 0 (shortOff16 x)) shortLen 1 (fun t _ => t.msum = 0) ∧
  BranchOp Instr.bmnzShort (fun x => shortBare x 0 (shortOff16 x)) shortLen 2 (fun t _ => t.msum ≠ 0) ∧
  (∀ x s t, Issues 0x40 3 x s t → exec (.bsc x) s = .next
    (if t.go x.g x.neg && signTest x.b.code.toNat (srcScalar s t x x.a).toInt then goTo s t (branchTarget t x)
     else retire s t (extLen x))) ∧
  LoopOp Instr.loop id extLen ∧
  LoopOp Instr.loopShort (fun x => shortBare x x.d (shortOff8 x)) shortLen ∧
  (∀ x s t, Issues 0x40 10 x s t → exec (.nop x) s = .next (retire s t (extLen x))) ∧
  (∀ (x : Short) s t, Issues 0x40 10 (shortBare x 0 0) s t → exec (.nopShort x) s = .next (retire s t (shortLen x)))

/-- 05 R136: `pmask` writes bit L of its run for every lane, active or not, and keeps the ordinary bits; `mpred` writes
pD in the active lanes, and nothing when pD is pT. -/
def Obligations.MaskAndPredicateMovesWriteTheirBits : Prop :=
  (∀ x s t, Issues 0x41 0 x s t → exec (.pmask x) s = .next (retire (s.onTeam t.uid (fun u => u.putMask x.d.toNat
    ((List.range t.width).map (fun l => (activeLanes t x).getD l false && t.pr x.a.code.toNat l)))) t (extLen x))) ∧
  (∀ (t : Team) (n : Nat) (bits : List Bool), bits.length = t.width → n + maskRegs t.width ≤ t.s.length →
    (∀ l, l < t.width → (t.putMask n bits).runBit n l = bits.getD l false) ∧
    (∀ l, t.width ≤ l → l < 64 * maskRegs t.width → (t.putMask n bits).runBit n l = t.runBit n l) ∧
    (∀ k, (k < n ∨ n + maskRegs t.width ≤ k) → (t.putMask n bits).sval k = t.sval k) ∧
    { t.putMask n bits with s := t.s } = t) ∧
  (∀ x s t, Issues 0x41 1 x s t → exec (.mpred x) s = .next
    (retire (putPred s t x x.d.toNat (fun l => t.runBit x.a.code.toNat l)) t (extLen x)))

/-- 07 R166, R169-R172: each of these integer vector instructions writes its result, wrapped to the element or clamped
under `sat`, in the active lanes of D (a pair for 64-bit types) and leaves every other lane. The tag of a full write is that of 06 R144, with R145 for
`vadd`, `vsub` and `vmul`. -/
def Obligations.VectorArithmeticWritesActiveLanes : Prop :=
  VectorOp Instr.vintVadd id extLen 0x43 0 (fun x a b _ => eachElem (fun e a b => intRead e a + intRead e b) x.ty (x.bit 0) a b) (affineTag 0 0) ∧
  VectorOp Instr.vintVsub id extLen 0x43 1 (fun x a b _ => eachElem (fun e a b => intRead e a - intRead e b) x.ty (x.bit 0) a b) (affineTag 1 1) ∧
  VectorOp Instr.vintVmul id extLen 0x43 2 (fun x a b _ => eachElem (fun e a b => intRead e a * intRead e b) x.ty false a b) (affineTag 2 2) ∧
  VectorOp Instr.vmulh id extLen 0x43 3 (fun x a b _ => eachElem (fun e a b => Int.fdiv (intRead e a * intRead e b) (2 ^ e.width : Nat)) x.ty false a b) ∧
  VectorOp Instr.vmad id extLen 0x43 4 (fun x a b c => patN x.ty.width (intRead x.ty a * intRead x.ty b + intRead x.ty c)) ∧
  VectorOp Instr.vintVmin id extLen 0x43 5 (fun x a b _ => eachElem (fun e a b => min (intRead e a) (intRead e b)) x.ty false a b) ∧
  VectorOp Instr.vintVmax id extLen 0x43 6 (fun x a b _ => eachElem (fun e a b => max (intRead e a) (intRead e b)) x.ty false a b) ∧
  VectorOp Instr.vabs id extLen 0x43 7 (fun x a b _ => eachElem (fun e a _ => ((intRead e a).natAbs : Int)) x.ty (x.bit 0) a b) ∧
  VectorOp Instr.vsar id extLen 0x43 15 (fun x a b _ => eachElem (fun e a b => Int.fdiv (sextN e.width a) (2 ^ (b % e.width) : Nat)) x.ty false a b) ∧
  VectorOp Instr.vbfe id extLen 0x43 19 (fun x a b _ => eachElem (fun e a f => bitField e a (f % 256) (f / 256 % 256)) x.ty false a b) ∧
  VectorOp Instr.vbfi id extLen 0x43 20 (fun x a b f => bitInsert x.ty.width a b (f % 256) (f / 256 % 256)) ∧
  VectorOp Instr.vaddI32Short (shortTwo · .vec .i32) shortLen 0x43 0 (fun x a b _ => eachElem (fun e a b => intRead e a + intRead e b) x.ty false a b) (affineTag 0 0) ∧
  VectorOp Instr.vsubI32Short (shortTwo · .vec .i32) shortLen 0x43 1 (fun x a b _ => eachElem (fun e a b => intRead e a - intRead e b) x.ty false a b) (affineTag 1 1)

/-- 07 R166, R171, R173-R176 and 03 R79: the bitwise, shift, count and interleave instructions, `vsel`, `vlaneid`,
`vaddc` with its carry-out predicate, and `vmov`. The tag of a full write is that of 06 R144 and R145. -/
def Obligations.VectorBitOperationsWriteActiveLanes : Prop :=
  VectorOp Instr.vand id extLen 0x43 8 (fun x a b _ => eachElem (fun _ a b => ((a &&& b : Nat) : Int)) x.ty false a b) ∧
  VectorOp Instr.vor id extLen 0x43 9 (fun x a b _ => eachElem (fun _ a b => ((a ||| b : Nat) : Int)) x.ty false a b) ∧
  VectorOp Instr.vxor id extLen 0x43 10 (fun x a b _ => eachElem (fun _ a b => ((a ^^^ b : Nat) : Int)) x.ty false a b) ∧
  VectorOp Instr.vandn id extLen 0x43 11 (fun x a b _ => eachElem (fun e a b => ((a &&& (2 ^ e.width - 1 - b) : Nat) : Int)) x.ty false a b) ∧
  VectorOp Instr.vnot id extLen 0x43 12 (fun x a b _ => eachElem (fun e a _ => ((2 ^ e.width - 1 - a : Nat) : Int)) x.ty false a b) ∧
  VectorOp Instr.vshl id extLen 0x43 13 (fun x a b _ => eachElem (fun e a b => ((a * 2 ^ (b % e.width) : Nat) : Int)) x.ty false a b) (affineTag 3 13) ∧
  VectorOp Instr.vshr id extLen 0x43 14 (fun x a b _ => eachElem (fun e a b => ((a / 2 ^ (b % e.width) : Nat) : Int)) x.ty false a b) ∧
  VectorOp Instr.vclz id extLen 0x43 16 (fun x a b _ => eachElem (fun e a _ => ((e.width - bitLen a : Nat) : Int)) x.ty false a b) ∧
  VectorOp Instr.vpopc id extLen 0x43 17 (fun x a b _ => eachElem (fun e a _ => ((((List.range e.width).filter (fun i => a.testBit i)).length : Nat) : Int)) x.ty false a b) ∧
  VectorOp Instr.vbrev id extLen 0x43 18 (fun x a b _ => eachElem (fun e a _ => ((((List.range e.width).foldl (fun r i => if a.testBit i then r + 2 ^ (e.width - 1 - i) else r) 0) : Nat) : Int)) x.ty false a b) ∧
  VectorOp Instr.vilv id extLen 0x43 22 (fun x a b c => if x.bit 0 then (List.range 10).foldl (fun r i => r + bitAt a i * 2 ^ (3 * i) + bitAt b i * 2 ^ (3 * i + 1) +
      bitAt c i * 2 ^ (3 * i + 2)) 0
    else (List.range 16).foldl (fun r i => r + bitAt a i * 2 ^ (2 * i) + bitAt b i * 2 ^ (2 * i + 1)) 0) ∧
  VectorOp Instr.vdil id extLen 0x43 23 (fun x a _ _ => if x.bit 0 then (List.range 10).foldl (fun r i => r + bitAt a (3 * i + x.f 2 1) * 2 ^ i) 0
    else (List.range 16).foldl (fun r i => r + bitAt a (2 * i + x.f 2 1) * 2 ^ i) 0) ∧
  VectorOp Instr.vandShort (shortTwo · .vec .b32) shortLen 0x43 8 (fun x a b _ => eachElem (fun _ a b => ((a &&& b : Nat) : Int)) x.ty false a b) ∧
  VectorOp Instr.vorShort (shortTwo · .vec .b32) shortLen 0x43 9 (fun x a b _ => eachElem (fun _ a b => ((a ||| b : Nat) : Int)) x.ty false a b) ∧
  VectorOp Instr.vxorShort (shortTwo · .vec .b32) shortLen 0x43 10 (fun x a b _ => eachElem (fun _ a b => ((a ^^^ b : Nat) : Int)) x.ty false a b) ∧
  VectorOp Instr.vshlShort (shortTwo · .vec .b32) shortLen 0x43 13 (fun x a b _ => eachElem (fun e a b => ((a * 2 ^ (b % e.width) : Nat) : Int)) x.ty false a b) (affineTag 3 13) ∧
  VectorOp Instr.vshrShort (shortTwo · .vec .b32) shortLen 0x43 14 (fun x a b _ => eachElem (fun e a b => ((a / 2 ^ (b % e.width) : Nat) : Int)) x.ty false a b) ∧
  (∀ x s t, Issues 0x43 21 x s t → exec (.vsel x) s = .next (retire (putLanes s t x x.ty.wide
    (fun l => if srcVal s t x x.c x.ty.width l = 1 then srcVal s t x x.a x.ty.width l else srcVal s t x x.b x.ty.width l)
    (laneTag 0x43 21 t x))
    t (extLen x))) ∧
  (∀ x s t, Issues 0x43 24 x s t → exec (.vlaneid x) s = .next (retire (putLanes s t x false id .aff) t (extLen x))) ∧
  (∀ x s t, Issues 0x43 25 x s t →
    let sum (l : Nat) : Nat := srcVal s t x x.a x.ty.width l + srcVal s t x x.b x.ty.width l + srcVal s t x x.c 1 l
    exec (.vaddc x) s = .next (retire (putPred (putLanes s t x x.ty.wide (fun l => sum l % 2 ^ x.ty.width) (laneTag 0x43 25 t x)) t x
      (x.f 4 0) (fun l => decide (2 ^ x.ty.width ≤ sum l))) t (extLen x))) ∧
  (∀ (x : Short) s t, Issues 0x44 11 (shortOne x .vec .b32) s t → exec (.vmov x) s = .next (retire
    (putLanes s t (shortOne x .vec .b32) false (fun l => match x.lit with
      | some v => v.toNat % 2 ^ 32
      | none => (t.lane x.a.toNat l).toNat % 2 ^ 32) (match x.lit with
      | some _ => .uni
      | none => (t.vreg x.a.toNat).tag)) t (shortLen x)))

/-- 06 R152, R159, R162: `vcmp` combines its comparison into pD and the opposite into pE, whose value prevails when they
are one predicate, with integers compared by their type and floating-point values as numbers; `plog` looks up its truth table; `pset` takes a bit; `vote` gathers pA over the active lanes of the
sub-group. -/
def Obligations.PredicatesAndVotesWriteActiveLanes : Prop :=
  (∀ x s t, Issues 0x49 0 x s t →
    let c (l : Nat) : Bool := condTy x.ty (x.f 7 5) (srcVal s t x x.a x.ty.width l) (srcVal s t x x.b x.ty.width l)
    let comb (old new : Bool) : Bool := if x.f 9 8 = 0 then new else if x.f 9 8 = 1 then old && new else old || new
    exec (.vcmp x) s = .next (retire (putPred (putPred s t x x.d.toNat (fun l => comb (t.pr x.d.toNat l) (c l))) t x
      (x.f 4 0) (fun l => comb (t.pr (x.f 4 0) l) (!c l))) t (extLen x))) ∧
  (∀ x s t, Issues 0x49 1 x s t → exec (.plog x) s = .next (retire (putPred s t x x.d.toNat (fun l =>
    x.x24.toNat.testBit (4 * (if t.pr x.a.code.toNat l then 1 else 0) + 2 * (if t.pr x.b.code.toNat l then 1 else 0) +
      (if t.pr x.c.code.toNat l then 1 else 0)))) t (extLen x))) ∧
  (∀ x s t, Issues 0x49 2 x s t → exec (.pset x) s = .next (retire (putPred s t x x.d.toNat (fun l =>
    (srcVal s t x x.a (if x.a.cls = .vec then 32 else if x.a.cls = .sc then 64 else 1) l).testBit (x.f 5 0)))
      t (extLen x))) ∧
  (∀ x s t, Issues 0x48 4 x s t →
    let g := if x.f 3 0 = 0 then t.width else 2 ^ x.f 3 0
    let held (l : Nat) : List Bool :=
      ((lanesOf (activeLanes t x)).filter (fun i => i / g = l / g)).map (fun i => t.pr x.a.code.toNat i)
    exec (.vote x) s = .next (retire (putPred s t x x.d.toNat (fun l =>
      if x.f 6 4 = 0 then (held l).any id else if x.f 6 4 = 1 then (held l).all id
      else (held l).all id || (held l).all (fun b => !b))) t (extLen x))) ∧
  (∀ ty cc a b, ty.isFloat = false → cc < 6 → condTy ty cc a b = intCompare cc (intRead ty a) (intRead ty b)) ∧
  (∀ ty a b, ty.isFloat = true →
    let v := (tyFmt ty).value a
    let w := (tyFmt ty).value b
    let nan := v.isNan || w.isNan
    condTy ty 6 a b = nan ∧ condTy ty 7 a b = !nan ∧ condTy ty 1 a b = !condTy ty 0 a b ∧
    (nan = true → ∀ cc ∈ [0, 2, 3, 4, 5], condTy ty cc a b = false) ∧
    (nan = false → condTy ty 2 a b = FV.lt v w ∧ condTy ty 4 a b = FV.lt w v ∧
      condTy ty 0 a b = (!FV.lt v w && !FV.lt w v) ∧ condTy ty 3 a b = !FV.lt w v ∧ condTy ty 5 a b = !FV.lt v w)) ∧
  (∀ m e n k p q, FV.lt (.zero p) (.zero q) = false ∧ FV.lt (.inf p) (.inf q) = (p && !q) ∧
    FV.lt (.inf p) (.fin m e) = p ∧ FV.lt (.fin m e) (.inf q) = !q ∧ FV.lt (.inf p) (.zero q) = p ∧
    FV.lt (.zero p) (.inf q) = !q ∧ FV.lt (.zero p) (.fin n k) = decide (0 < n) ∧
    FV.lt (.fin m e) (.zero q) = decide (m < 0) ∧
    (FV.lt (.fin m e) (.fin n k) = true ↔ m * 2 ^ (e - min e k).toNat < n * 2 ^ (k - min e k).toNat))

/-- 06 R160, R161: for every sub-group size, each shuffle writes, in the active lanes, vA of the lane that its rule names, read before
any write, whether that lane is active or not. Choices of log 22: an xor index wraps in a group whose size is no power of two, a lane
beyond the team's width gives a free value unless vA is uniform, and `shfl`, `shfx` and `shfr` take the tag of rule 6 of R144. -/
def Obligations.ShufflesReadWithinTheirSubGroup : Prop :=
  ShuffleOp Instr.shfl 0 (laneTag 0x48 0) (fun g _ k => k % g) ∧
  ShuffleOp Instr.shfx 1 (laneTag 0x48 1) (fun g i k => i ^^^ k % g) ∧
  ShuffleOp Instr.shfr 2 (laneTag 0x48 2) (fun g i k => (i + k) % g) ∧
  ShuffleOp Instr.bcast 3 (groupTag 3) (fun g _ k => k % g)

/-- 06 R163, 04 R108: `reduce` writes the top of the sub-group's tree, `scan` the combination of the lanes up to its own,
or before it, with the identity where no lane is present. Flags of floating-point types are added, and an enabled one traps after
the effect (04 R99). -/
def Obligations.ReduceAndScanWriteTheirTree : Prop :=
  FpOp Instr.reduce id extLen 0x48 5 (fun x => x.ty.wide) (fun s t x l => (treeTop (groupTree s t x l)).getD (0, 0))
    (groupTag 5) ∧
  FpOp Instr.scan id extLen 0x48 6 (fun x => x.ty.wide) (fun s t x l =>
    let g := groupSize t x
    let r := (scanAt (combine x.ty (x.f 6 4) t.ftz) (groupTree s t x l) (l % g + (if x.bit 7 then 0 else 1))).getD
      (identity x.ty (x.f 6 4), 0)
    (r.1, r.2 ||| (leafOf x.ty t.ftz (srcVal s t x x.a x.ty.width l)).2)) (fun _ _ => .gen)

/-- 06 R154-R157: the indexed moves with an index in range whose registers are full, the tag instructions, the moves between
the files, and the arming of a keep range. -/
def Obligations.RegisterMovesAndTagsFollowR154 : Prop :=
  (∀ x s t, Issues 0x59 0 x s t → x.bit 8 = true →
    let i := (srcScalar s t x x.a).toNat + x.f 7 0
    i < 128 → t.sfull i = true → exec (.rmovx x) s = .next
      (retire (if t.go x.g x.neg then putScalar s t x.d (t.sval i) else s) t (extLen x))) ∧
  (∀ x s t, Issues 0x59 0 x s t → x.bit 8 = false →
    let i := (srcScalar s t x x.a).toNat + x.f 7 0
    i < t.nv → (x.ty.wide → i % 2 = 0 ∧ i + 1 < t.nv) →
    (t.msum ≠ 0 → (t.vreg i).full = true) → (t.msum ≠ 0 → x.ty.wide → (t.vreg (i + 1)).full = true) → exec (.rmovx x) s = .next
      (retire (s.onTeam t.uid (fun u => copyRegs t u (activeLanes t x) x.d.toNat i (if x.ty.wide then 2 else 1)))
        t (extLen x))) ∧
  (∀ x s t, Issues 0x59 1 x s t → x.bit 8 = true →
    let i := (srcScalar s t x x.a).toNat + x.f 7 0
    i < 128 → t.sfull i = true → exec (.rstx x) s = .next
      (retire (if t.go x.g x.neg then s.onTeam t.uid (fun u => u.setS i (srcScalar s t x x.b)) else s) t (extLen x))) ∧
  (∀ x s t, Issues 0x59 1 x s t → x.bit 8 = false →
    let i := (srcScalar s t x x.a).toNat + x.f 7 0
    i < t.nv → (x.ty.wide → i % 2 = 0 ∧ i + 1 < t.nv) →
    (t.msum ≠ 0 → (t.vreg i).full = true) → (t.msum ≠ 0 → x.ty.wide → (t.vreg (i + 1)).full = true) → exec (.rstx x) s = .next
      (retire (s.onTeam t.uid (fun u => copyRegs t u (activeLanes t x) i x.b.code.toNat (if x.ty.wide then 2 else 1)))
        t (extLen x))) ∧
  (∀ x s t, Issues 0x59 2 x s t → exec (.shape x) s = .next (retire (if (activeLanes t x).any id then
      s.onTeam t.uid (fun u => { u with v := u.v.modify x.d.toNat (fun q =>
        { q with tag := if x.f 1 0 = 1 then .gen else packTag (t.vreg x.d.toNat) }) }) else s) t (extLen x))) ∧
  (∀ x s t, Issues 0x59 3 x s t → exec (.shqry x) s = .next (retire (if t.go x.g x.neg then
      putScalar s t x.d (match (t.vreg x.a.code.toNat).tag with
        | .uni => 0
        | .aff => 1
        | .gen => 2) else s) t (extLen x))) ∧
  (∀ x s t l h, Issues 0x59 4 x s t → s.launch? t.launch = some l → l.hdr = some h → h.keep ≠ none →
    exec (.rkeep x) s = .next (retire (if t.go x.g x.neg then
      s.onTeam t.uid (fun u => { u with armed := !x.bit 0 }) else s) t (extLen x))) ∧
  (∀ x s t, Issues 0x59 5 x s t → exec (.vbcs x) s = .next
    (retire (putLanes s t x x.ty.wide (srcVal s t x x.a 64) .uni) t (extLen x))) ∧
  (∀ x s t, Issues 0x59 6 x s t →
    let v := srcVal s t x x.a x.ty.width ((srcScalar s t x x.b).toNat % t.width)
    exec (.vext x) s = .next (retire (if t.go x.g x.neg then putScalar s t x.d
      (if x.ty = .i32 then BitVec.ofInt 64 (sextN 32 v) else BitVec.ofNat 64 v) else s) t (extLen x)))

/-- 08 R177-R181: sum, difference, product and fused product-sum of each element are formed exactly and rounded once in
the mode of the instruction; invalid operations and signalling operands raise nv. An enabled flag traps after the effect
(04 R99). The tag of a full write is that of 06 R144. -/
def Obligations.FloatArithmeticRoundsTheExactResultOnce : Prop :=
  FpOp Instr.vfpVadd id extLen 0x44 0 (fun x => x.ty.wide) (fpEach (fun f mode sat ftz a b _ =>
    let r := sumFV mode [f.input ftz a, f.input ftz b]
    let y := f.round mode sat ftz r.1
    (y.1, y.2 ||| (r.2 ||| sigFlag [f.input ftz a, f.input ftz b])))) ∧
  FpOp Instr.vfpVsub id extLen 0x44 1 (fun x => x.ty.wide) (fpEach (fun f mode sat ftz a b _ =>
    let r := sumFV mode [f.input ftz a, (f.input ftz b).flip]
    let y := f.round mode sat ftz r.1
    (y.1, y.2 ||| (r.2 ||| sigFlag [f.input ftz a, f.input ftz b])))) ∧
  FpOp Instr.vfpVmul id extLen 0x44 2 (fun x => x.ty.wide) (fpEach (fun f mode sat ftz a b _ =>
    let r := (f.input ftz a).mul (f.input ftz b)
    let y := f.round mode sat ftz r.1
    (y.1, y.2 ||| (r.2 ||| sigFlag [f.input ftz a, f.input ftz b])))) ∧
  FpOp Instr.vfma id extLen 0x44 3 (fun x => x.ty.wide) (fpEach (fun f mode sat ftz a b c =>
    let p := (f.input ftz a).mul (f.input ftz b)
    let r := sumFV mode [p.1, f.input ftz c]
    let y := f.round mode sat ftz r.1
    (y.1, y.2 ||| (p.2 ||| r.2 ||| sigFlag [f.input ftz a, f.input ftz b, f.input ftz c])))) ∧
  FpOp Instr.vaddF32Short (shortTwo · .vec .f32) shortLen 0x44 0 (fun x => x.ty.wide) (fpEach (fun f mode sat ftz a b _ =>
    let r := sumFV mode [f.input ftz a, f.input ftz b]
    let y := f.round mode sat ftz r.1
    (y.1, y.2 ||| (r.2 ||| sigFlag [f.input ftz a, f.input ftz b])))) ∧
  FpOp Instr.vmulF32Short (shortTwo · .vec .f32) shortLen 0x44 2 (fun x => x.ty.wide) (fpEach (fun f mode sat ftz a b _ =>
    let r := (f.input ftz a).mul (f.input ftz b)
    let y := f.round mode sat ftz r.1
    (y.1, y.2 ||| (r.2 ||| sigFlag [f.input ftz a, f.input ftz b]))))

/-- 08 R182, R183: the selecting and splitting instructions of group vfp. An integer result of `vfrexp` and `vclass`
fills vD alone. What each gives for one element, by the operands' values, stands in the later clauses. -/
def Obligations.FloatSelectionAndSplitWriteTheirResult : Prop :=
  FpOp Instr.vfpVmin id extLen 0x44 4 (fun x => x.ty.wide) (fpEach (fun f _ _ ftz a b _ => fMinMax false f ftz a b)) ∧
  FpOp Instr.vfpVmax id extLen 0x44 5 (fun x => x.ty.wide) (fpEach (fun f _ _ ftz a b _ => fMinMax true f ftz a b)) ∧
  FpOp Instr.vmed3 id extLen 0x44 6 (fun x => x.ty.wide) (fpEach (fun f _ _ ftz a b c =>
    let lo := fMinMax false f ftz a b
    let hi := fMinMax true f ftz a b
    let m := fMinMax false f ftz hi.1 c
    let r := fMinMax true f ftz lo.1 m.1
    (r.1, lo.2 ||| hi.2 ||| m.2 ||| r.2))) ∧
  FpOp Instr.vrint id extLen 0x44 7 (fun x => x.ty.wide) (fpEach fRint) ∧
  FpOp Instr.vfract id extLen 0x44 8 (fun x => x.ty.wide) (fpEach fFract) ∧
  FpOp Instr.vldexp id extLen 0x44 9 (fun x => x.ty.wide) (fun s t x l =>
    let v := (tyFmt x.ty).input t.ftz ((fpElems1 s t x l).getD 0 0)
    let y := (tyFmt x.ty).round (t.mode x.rnd) (x.bit 0) t.ftz (v.scale (sextN 32 (srcVal s t x x.b 32 l)))
    (y.1, y.2 ||| sigFlag [v])) ∧
  FpOp Instr.vfrexp id extLen 0x44 10 (fun x => x.ty.wide && !x.bit 7) (fun s t x l => fFrexp (x.bit 7) (tyFmt x.ty) .rne false t.ftz ((fpElems1 s t x l).getD 0 0) 0 0) ∧
  FpOp Instr.vclass id extLen 0x44 11 (fun _ => false) (fun s t x l => fClass (tyFmt x.ty) .rne false t.ftz ((fpElems1 s t x l).getD 0 0) 0 0) ∧
  FpOp Instr.vcopysign id extLen 0x44 12 (fun x => x.ty.wide) (fpEach (fun f _ _ ftz a b _ => (flushPat f ftz a % 2 ^ (f.ebits + f.mbits) + f.signBits (f.sign b), 0))) ∧
  FpOp Instr.vminF32Short (shortTwo · .vec .f32) shortLen 0x44 4 (fun x => x.ty.wide) (fpEach (fun f _ _ ftz a b _ => fMinMax false f ftz a b)) ∧
  FpOp Instr.vmaxF32Short (shortTwo · .vec .f32) shortLen 0x44 5 (fun x => x.ty.wide) (fpEach (fun f _ _ ftz a b _ => fMinMax true f ftz a b)) ∧
  (∀ (f : Fmt) (ftz : Bool) (a b : Nat),
    let x := f.input ftz a
    let y := f.input ftz b
    let pa := flushPat f ftz a
    let pb := flushPat f ftz b
    let nv := sigFlag [x, y]
    let both (lo hi : Nat) : Prop := fMinMax false f ftz a b = (lo, nv) ∧ fMinMax true f ftz a b = (hi, nv)
    (x.isNan = true → y.isNan = true → both f.cnan f.cnan) ∧ (x.isNan = true → y.isNan = false → both pb pb) ∧
    (x.isNan = false → y.isNan = true → both pa pa) ∧
    (FV.lt x y = true → both pa pb) ∧ (FV.lt y x = true → both pb pa) ∧
    (∀ p q, x = .zero p → y = .zero q → p ≠ q → if p then both pa pb else both pb pa)) ∧
  (∀ (f : Fmt) (mode : Rnd) (sat ftz : Bool) (a b c : Nat) (n : Bool),
    (f.input ftz a = .nan n → let nv := if n then fNV else 0
      fRint f mode sat ftz a b c = (f.cnan, nv) ∧ fFract f mode sat ftz a b c = (f.cnan, nv) ∧
      fFrexp false f mode sat ftz a b c = (f.cnan, nv) ∧ fFrexp true f mode sat ftz a b c = (0, nv) ∧
      fClass f mode sat ftz a b c = (if n then 1 else 2, 0)) ∧
    (f.input ftz a = .inf n → (f.ieee = true → fRint f mode sat ftz a b c = (f.infBits n, 0)) ∧
      fFract f mode sat ftz a b c = (f.cnan, fNV) ∧ fFrexp false f mode sat ftz a b c = (a, 0) ∧
      fFrexp true f mode sat ftz a b c = (0, 0) ∧ fClass f mode sat ftz a b c = (if n then 4 else 512, 0)) ∧
    (f.input ftz a = .zero n → fRint f mode sat ftz a b c = (f.signBits n, 0) ∧ fFract f mode sat ftz a b c = (0, 0) ∧
      fFrexp false f mode sat ftz a b c = (f.signBits n, 0) ∧ fFrexp true f mode sat ftz a b c = (0, 0) ∧
      fClass f mode sat ftz a b c = (if n then 32 else 64, 0))) ∧
  (∀ (f : Fmt) (mode : Rnd) (sat ftz : Bool) (a b c : Nat) (m e : Int), f.input ftz a = .fin m e →
    let i := rndInt mode m e
    let k : Int := bitLen m.natAbs
    let r := m % (2 ^ (-e).toNat : Nat)
    let one := f.bias * 2 ^ f.mbits
    let y := f.round mode false ftz (.fin r e)
    (i.1 ≠ 0 → fRint f mode sat ftz a b c = ((f.round .rne false false (.fin i.1 0)).1, if i.2 then 0 else fNX)) ∧
    (i.1 = 0 → fRint f mode sat ftz a b c = (f.signBits (decide (m < 0)), if i.2 then 0 else fNX)) ∧
    ((0 ≤ e ∨ r = 0) → fFract f mode sat ftz a b c = (0, 0)) ∧
    (e < 0 → r ≠ 0 → fFract f mode sat ftz a b c = (if y.1 = one then one - 1 else y.1, y.2)) ∧
    fFrexp true f mode sat ftz a b c = (patN 32 (e + k), 0) ∧
    fFrexp false f mode sat ftz a b c = ((f.round .rne false false (.fin m (-k))).1, 0) ∧
    fClass f mode sat ftz a b c = (if f.subnormal a then (if m < 0 then 16 else 128) else if m < 0 then 8 else 256, 0))

/-- 08 R185-R187: conversion rounds the source value once to the destination type; the packing forms scale by a power of
two; `vbscale` gives the block delta of the largest magnitude of the active lanes of its group. An enabled flag traps after the
effect (04 R99); that of `vunpackn` is in `EnabledFloatFlagTraps`. That a NaN element of `vunpackn` raises no nv is log 26, and
that `vbscale` takes the tag of rule 6 of R144 is log 22. -/
def Obligations.ConversionsRoundOnceAndPack : Prop :=
  FpOp Instr.vcvt id extLen 0x45 0 (fun x => x.ty.wide) (fun s t x l =>
    let fr := (Ty.ofCode (x.f 4 0)).getD .b32
    let v := tyValue fr t.ftz (srcVal s t x x.a fr.width l)
    let r := toTy x.ty (t.mode x.rnd) (x.bit 5) t.ftz v
    (if x.ty.signed && x.ty.width < 32 then patN 32 (sextN x.ty.width r.1) else r.1, r.2 ||| sigFlag [v])) ∧
  FpOp Instr.vpackn id extLen 0x45 1 (fun _ => false) (fun s t x l => packFlags x.ty ((List.range x.ty.elems).map (fun j =>
    let v := fmt32.input t.ftz (t.lane (x.a.code.toNat + j) l).toNat
    let r := toTy x.ty.elem (t.mode x.rnd) (x.bit 0) t.ftz (v.scale (-(sextN 32 (srcVal s t x x.b 32 l))))
    (r.1, r.2 ||| sigFlag [v])))) ∧
  FpOp Instr.vquant id extLen 0x45 4 (fun _ => false) (fun s t x l => packFlags x.ty ((List.range x.ty.elems).map (fun j =>
    let v := fmt32.input t.ftz (t.lane (x.a.code.toNat + j) l).toNat
    let d := sextN 4 (srcVal s t x x.b 4 l)
    if d = -8 then (0, 0)
    else
      let r := toTy x.ty.elem (t.mode x.rnd) (x.bit 0) t.ftz
        (v.scale (-(max (-1024) (min 1023 (srcScalar s t x x.c).toInt) + d)))
      (r.1, r.2 ||| sigFlag [v])))) ∧
  (∀ x s t, Issues 0x45 2 x s t →
    let one (j l : Nat) : Nat × Flg := fmt32.round (t.mode x.rnd) false t.ftz
      ((tyValue x.ty.elem t.ftz (elemAt x.ty (srcVal s t x x.a 32 l) j)).scale (sextN 32 (srcVal s t x x.b 32 l)))
    let fl := raised t x (fun l => (0, (List.range x.ty.elems).foldl (fun a j => a ||| (one j l).2) 0))
    enabled t.status fl = 0 → exec (.vunpackn x) s = .next (retire (addFlags
      ((List.range x.ty.elems).foldl (fun s j => s.onTeam t.uid (fun u => u.writeN (x.d.toNat + j) false
        (activeLanes t x) ((List.range t.width).map (fun l => (one j l).1)) (laneTag 0x45 2 t x))) s) t fl) t (extLen x))) ∧
  (∀ x s t, Issues 0x45 3 x s t →
    let e := max (-1024) (min 1023 (srcScalar s t x x.b).toInt)
    let big (l : Nat) : FV := ((lanesOf (activeLanes t x)).filter (fun i => i / 2 ^ x.f 3 0 = l / 2 ^ x.f 3 0)).foldl
      (fun a i => magMax a (FV.mag (fmt32.input t.ftz (srcVal s t x x.a 32 i)))) (.zero false)
    exec (.vbscale x) s = .next (retire (putLanes s t x false (fun l => patN 32 (blockDelta x.ty e (big l)))
      (laneTag 0x45 3 t x))
      t (extLen x)))

/-- 08 R191, R192: the integer dots wrap or clamp the exact sum to 32 bits; the floating ones scale the products by 2^sc,
add them and C exactly, and round once; an enabled flag traps after the effect (04 R99). -/
def Obligations.DotProductsSumExactly : Prop :=
  (∀ x s t, Issues 0x47 0 x s t →
    let ta := x.ty.elem
    let dot (l : Nat) : Int := (List.range x.ty.elems).foldl (fun (r : Int) j =>
      r + intRead ta (elemAt x.ty (srcVal s t x x.a 32 l) j) *
        intRead (mixElem (x.bit 0) ta) (elemAt x.ty (srcVal s t x x.b 32 l) j)) (sextN 32 (srcVal s t x x.c 32 l))
    exec (.vdot8 x) s = .next (retire (putLanes s t x false (fun l =>
      patN 32 (if x.bit 1 then min (2 ^ 31 - 1) (max (-(2 ^ 31)) (dot l)) else dot l)) (laneTag 0x47 0 t x)) t (extLen x))) ∧
  (∀ x s t, Issues 0x47 1 x s t →
    let ta := x.ty.elem
    let dot (l : Nat) : Int := (List.range x.ty.elems).foldl (fun (r : Int) j =>
      r + intRead ta (elemAt x.ty (srcVal s t x x.a 32 l) j) *
        intRead (mixElem (x.bit 0) ta) (elemAt x.ty (srcVal s t x x.b 32 l) j)) (sextN 32 (srcVal s t x x.c 32 l))
    exec (.vdot4 x) s = .next (retire (putLanes s t x false (fun l =>
      patN 32 (if x.bit 1 then min (2 ^ 31 - 1) (max (-(2 ^ 31)) (dot l)) else dot l)) (laneTag 0x47 1 t x)) t (extLen x))) ∧
  FpOp Instr.vdotf8 id extLen 0x47 2 (fun _ => false) (fun s t x l =>
    let ps := (List.range x.ty.elems).map (fun j => ((tyFmt x.ty.elem).value (elemAt x.ty (srcVal s t x x.a 32 l) j)).mul
      ((tyFmt (mixElem (x.bit 0) x.ty.elem)).value (elemAt x.ty (srcVal s t x x.b 32 l) j)))
    let d := fmt32.input t.ftz (srcVal s t x x.c 32 l)
    let r := sumFV (t.mode x.rnd) (ps.map (fun p => p.1.scale (sextN 9 (x.f 10 2))) ++ [d])
    let y := fmt32.round (t.mode x.rnd) (x.bit 1) t.ftz r.1
    (y.1, y.2 ||| ps.foldl (fun a p => a ||| p.2) (r.2 ||| sigFlag [d]))) ∧
  FpOp Instr.vdotf4 id extLen 0x47 3 (fun _ => false) (fun s t x l =>
    let ps := (List.range x.ty.elems).map (fun j => ((tyFmt x.ty.elem).value (elemAt x.ty (srcVal s t x x.a 32 l) j)).mul
      ((tyFmt (mixElem (x.bit 0) x.ty.elem)).value (elemAt x.ty (srcVal s t x x.b 32 l) j)))
    let d := fmt32.input t.ftz (srcVal s t x x.c 32 l)
    let r := sumFV (t.mode x.rnd) (ps.map (fun p => p.1.scale (sextN 9 (x.f 10 2))) ++ [d])
    let y := fmt32.round (t.mode x.rnd) (x.bit 1) t.ftz r.1
    (y.1, y.2 ||| ps.foldl (fun a p => a ||| p.2) (r.2 ||| sigFlag [d])))

/-- 08 R188-R190, 06 R148: `vrcp`, `vrsq`, `vex2` and `vlg2` write at once; the others put the results of the active lanes
in flight with D empty, and SFU_COMPLETE fills D and adds the flags; an enabled flag of the first four traps after the effect, and
one of a flight is in `EnabledFloatFlagTraps`. The approximate values are free within the
bounds of R188 (log 11). -/
def Obligations.SpecialFunctionsAnswerOrFly : Prop :=
  FpOp Instr.vrcp id extLen 0x46 0 (fun _ => false) (fun s t x l => sRcp (srcVal s t x x.a 32 l) t.ftz) ∧
  FpOp Instr.vrsq id extLen 0x46 1 (fun _ => false) (fun s t x l => sRsq (srcVal s t x x.a 32 l) t.ftz) ∧
  FpOp Instr.vex2 id extLen 0x46 3 (fun _ => false) (fun s t x l => sEx2 (srcVal s t x x.a 32 l) t.ftz) ∧
  FpOp Instr.vlg2 id extLen 0x46 4 (fun _ => false) (fun s t x l => sLg2 (srcVal s t x x.a 32 l) t.ftz) ∧
  LongOp .vsqrt 2 (roundedOnce (fun l => (l.headD (.zero false)).sqrt) false) ∧
  LongOp .vsin 5 (fun s t x l => sSin (srcVal s t x x.a 32 l) t.ftz) ∧
  LongOp .vcos 6 (fun s t x l => sCos (srcVal s t x x.a 32 l) t.ftz) ∧
  LongOp .vtanh 7 (fun s t x l => sTanh (srcVal s t x x.a 32 l) t.ftz) ∧
  LongOp .vrot 8 (fun s t x l =>
    let r := sRot (srcVal s t x x.a 64 l % 2 ^ 32) (srcVal s t x x.a 64 l / 2 ^ 32) (srcVal s t x x.b 32 l)
      (srcVal s t x x.c 32 l) t.ftz
    (r.1.1 + 2 ^ 32 * r.1.2, r.2)) ∧
  LongOp .vdiv 9 (roundedOnce (fun l => FV.div (l.headD (.zero false)) (l.getD 1 (.zero false))) true) ∧
  (∀ id s (f : Flight), s.flight? id = some f → flightTrap f = none →
    let fl := (f.lanes.map (fun l => l.lane)).zip (f.aux.drop 2)
    let all := fl.foldl (fun a p => a ||| p.2) 0
    enabled f.status all = 0 →
    exec (.sfuComplete id) s = .next (settle (fillDst ((s.onTeam f.team (fun u =>
      { u.fillN f.dst (f.dnum = 2) (f.lanes.map (fun l => (l.lane, l.data.toNat))) (tagOf (f.aux.getD 1 2)) with
          status := orFlags u.status all })).dropFlight f.id) f) f.team))

/-- 19 R424, 05 R134: `trap` (0x0C) and `brk` (0x0B), when they execute, take their trap with X24 [15:0] as the subcode and
skip set, so that `tret` resumes after them. What taking a trap does is in `DeliveringATrapEntersTheHandler`. -/
def Obligations.SoftwareTrapsAreTaken : Prop :=
  (∀ x s t, Issues 0x58 2 x s t → exec (.trap x) s = .next (if t.go x.g x.neg then
    takeTrap s t { trapHere t.pc (t.pc + BitVec.ofNat 64 (extLen x)) 0x0C (x.f 15 0) with skip := true } else retire s t (extLen x))) ∧
  (∀ x s t, Issues 0x40 9 x s t → exec (.brk x) s = .next (if t.go x.g x.neg then
    takeTrap s t { trapHere t.pc (t.pc + BitVec.ofNat 64 (extLen x)) 0x0B (x.f 15 0) with skip := true } else retire s t (extLen x)))

/-- 05 R131: `call` writes sD and moves to its target in one step, so that sD stands before the target is fetched; a misaligned
target of `ret` or `jmp` takes `align` (0x04) with subcode 0, and the program counter stays on the instruction. -/
def Obligations.CallsAndJumpsMoveOrTrap : Prop :=
  (∀ x s t, Issues 0x40 4 x s t → exec (.call x) s = .next
    (if t.go x.g x.neg then goTo (putScalar s t x.d (t.pc + BitVec.ofNat 64 (extLen x))) t (branchTarget t x)
     else retire s t (extLen x))) ∧
  (∀ x s t, Issues 0x40 5 x s t → (t.go x.g x.neg = true → (srcScalar s t x x.a).toNat % 4 = 0) → exec (.ret x) s = .next
    (if t.go x.g x.neg then goTo s t (srcScalar s t x x.a) else retire s t (extLen x))) ∧
  (∀ x s t, Issues 0x40 6 x s t → (t.go x.g x.neg = true → (srcScalar s t x x.a).toNat % 4 = 0) → exec (.jmp x) s = .next
    (if t.go x.g x.neg then goTo s t (srcScalar s t x x.a) else retire s t (extLen x))) ∧
  (∀ x s t, Issues 0x40 5 x s t → t.go x.g x.neg = true → (srcScalar s t x x.a).toNat % 4 ≠ 0 →
    exec (.ret x) s = .next (takeTrap s t (trapHere t.pc (t.pc + BitVec.ofNat 64 (extLen x)) 0x04 0))) ∧
  (∀ x s t, Issues 0x40 6 x s t → t.go x.g x.neg = true → (srcScalar s t x x.a).toNat % 4 ≠ 0 →
    exec (.jmp x) s = .next (takeTrap s t (trapHere t.pc (t.pc + BitVec.ofNat 64 (extLen x)) 0x04 0)))

/-- 04 R99: the trap comes after the effect: the results and the flags are in place, the subcode holds the enabled flags
raised, the lanes at fault are those that raised one, and skip is set. Stated here of `vmul`, `vfma`, `vrcp`, `vcvt`, `vunpackn` and
of the functions that SFU_COMPLETE ends, under the `status` they issued with; `FpOp` says it of every other floating-point form, in
its own statement. -/
def Obligations.EnabledFloatFlagTraps : Prop :=
  FpTraps .vfpVmul id extLen 0x44 2 (fun x => x.ty.wide) (fpEach (fun f mode sat ftz a b _ =>
    let r := (f.input ftz a).mul (f.input ftz b)
    let y := f.round mode sat ftz r.1
    (y.1, y.2 ||| (r.2 ||| sigFlag [f.input ftz a, f.input ftz b])))) ∧
  FpTraps .vfma id extLen 0x44 3 (fun x => x.ty.wide) (fpEach (fun f mode sat ftz a b c =>
    let p := (f.input ftz a).mul (f.input ftz b)
    let r := sumFV mode [p.1, f.input ftz c]
    let y := f.round mode sat ftz r.1
    (y.1, y.2 ||| (p.2 ||| r.2 ||| sigFlag [f.input ftz a, f.input ftz b, f.input ftz c])))) ∧
  FpTraps .vrcp id extLen 0x46 0 (fun _ => false) (fun s t x l => sRcp (srcVal s t x x.a 32 l) t.ftz) ∧
  FpTraps .vcvt id extLen 0x45 0 (fun x => x.ty.wide) (fun s t x l =>
    let fr := (Ty.ofCode (x.f 4 0)).getD .b32
    let v := tyValue fr t.ftz (srcVal s t x x.a fr.width l)
    let r := toTy x.ty (t.mode x.rnd) (x.bit 5) t.ftz v
    (if x.ty.signed && x.ty.width < 32 then patN 32 (sextN x.ty.width r.1) else r.1, r.2 ||| sigFlag [v])) ∧
  (∀ x s t, Issues 0x45 2 x s t →
    let one (j l : Nat) : Nat × Flg := fmt32.round (t.mode x.rnd) false t.ftz
      ((tyValue x.ty.elem t.ftz (elemAt x.ty (srcVal s t x x.a 32 l) j)).scale (sextN 32 (srcVal s t x x.b 32 l)))
    let res (l : Nat) : Nat × Flg := (0, (List.range x.ty.elems).foldl (fun a j => a ||| (one j l).2) 0)
    enabled t.status (raised t x res) ≠ 0 → ∃ s' t',
      s' = addFlags ((List.range x.ty.elems).foldl (fun s j => s.onTeam t.uid (fun u => u.writeN (x.d.toNat + j) false
        (activeLanes t x) ((List.range t.width).map (fun l => (one j l).1)) (laneTag 0x45 2 t x))) s) t (raised t x res) ∧
      s'.team? t.uid = some t' ∧ exec (.vunpackn x) s = .next (takeTrap s' t' (flagTrap t x (extLen x) res))) ∧
  (∀ id s (f : Flight) t, s.flight? id = some f → s.team? f.team = some t → flightTrap f = none →
    let fl := (f.lanes.map (fun l => l.lane)).zip (f.aux.drop 2)
    let all := fl.foldl (fun a p => a ||| p.2) 0
    enabled f.status all ≠ 0 →
    let s' := settle (fillDst ((s.onTeam f.team (fun u =>
      { u.fillN f.dst (f.dnum = 2) (f.lanes.map (fun l => (l.lane, l.data.toNat))) (tagOf (f.aux.getD 1 2)) with
          status := orFlags u.status all })).dropFlight f.id) f) f.team
    exec (.sfuComplete id) s = .next (settle (raise s' f.team f.again { trapHere f.pc f.npc 0x0D (enabled f.status all) with
      skip := true, op := id
      lanes := (fl.filter (fun p => enabled f.status p.2 ≠ 0)).map (fun p => p.1) }) f.team))

/-- 19 R423, R430: `srd` waits while a flag-raising instruction is in flight when it reads `status`; `swr` traps on a register
that is not writable, a reserved status value, a priority above the limit, or a misaligned vector or area. -/
def Obligations.ControlRegistersReadAndWrite : Prop :=
  (∀ x s t, Issues 0x58 0 x s t →
    (x.f 11 0 ≠ 0 ∨ (s.flightsOf t.uid).any (fun f => raisesFlags f.instr) = false) →
    exec (.srd x) s = .next (retire (if t.go x.g x.neg then putScalar s t x.d (crRead t (x.f 11 0)) else s) t (extLen x))) ∧
  (∀ x s t, Issues 0x58 1 x s t → t.go x.g x.neg = true →
    let n := x.f 11 0
    let v := srcScalar s t x x.a
    (n = 0 → statusBad v = false → exec (.swr x) s =
      .next (retire (s.onTeam t.uid (fun u => { u with status := v })) t (extLen x))) ∧
    (n = 1 → v.toNat % 4 = 0 → exec (.swr x) s =
      .next (retire (s.onTeam t.uid (fun u => { u with trapv := v })) t (extLen x))) ∧
    (n = 2 → v.toNat % 256 = 0 → exec (.swr x) s =
      .next (retire (s.onTeam t.uid (fun u => { u with trapa := v })) t (extLen x))) ∧
    (n = 3 → v.toNat ≤ t.prioMax → exec (.swr x) s =
      .next (retire (s.onTeam t.uid (fun u => { u with prio := v.toNat })) t (extLen x))) ∧
    (n = 4 → exec (.swr x) s = .next (retire (s.onTeam t.uid (fun u => { u with role := v })) t (extLen x))) ∧
    (4 < n → exec (.swr x) s = .next (takeTrap s t (trapHere t.pc (t.pc + BitVec.ofNat 64 (extLen x)) 0x05 0x0D02))) ∧
    (n = 0 → statusBad v = true → exec (.swr x) s = .next (takeTrap s t (trapHere t.pc (t.pc + BitVec.ofNat 64 (extLen x)) 0x01 0x0D00))) ∧
    (n = 3 → t.prioMax < v.toNat → exec (.swr x) s = .next (takeTrap s t (trapHere t.pc (t.pc + BitVec.ofNat 64 (extLen x)) 0x05 0x0D03))) ∧
    (n = 1 → v.toNat % 4 ≠ 0 → exec (.swr x) s = .next (takeTrap s t (trapHere t.pc (t.pc + BitVec.ofNat 64 (extLen x)) 0x05 0x0D04))) ∧
    (n = 2 → v.toNat % 256 ≠ 0 → exec (.swr x) s = .next (takeTrap s t (trapHere t.pc (t.pc + BitVec.ofNat 64 (extLen x)) 0x05 0x0D04)))) ∧
  (∀ x s t, Issues 0x58 4 x s t → exec (.ychk x) s = .next (retire (s.onTeam t.uid (fun u => u.writeP x.d.toNat
    (activeLanes t x) (u.laneIxs.map (fun _ => decide (u.ydl ≠ noDeadline))))) t (extLen x))) ∧
  (∀ (x : Short) s t, Issues 0x58 4 (shortBare x x.d 0) s t → exec (.ychkShort x) s = .next (retire (s.onTeam t.uid
    (fun u => u.writeP x.d.toNat (activeLanes t (shortBare x x.d 0))
      (u.laneIxs.map (fun _ => decide (u.ydl ≠ noDeadline))))) t (shortLen x)))

/-- 19 R424-R427: with a vector and an area, no handler entered, nothing in flight and the frame's page present, the
delivery sends the 1,024 bytes of the frame to `trapa`, sets the mask to every lane, clears the exception enables
`status` [14:10], and goes on at `trapv`; no other register, and no byte of memory at once, changes. Without a vector
or an area, or in a handler, firmware ends the kernel with status 0x09 and the code (R428). A boundary delivers the oldest
imprecise trap first, then its own, then a held one (log 70); it waits while an earlier instruction can finish, or the port is
stalled (09 R204). -/
def Obligations.DeliveringATrapEntersTheHandler : Prop :=
  (∀ (s : State) (t : Team) (tr : Trap) (segs : List Seg), s.team? t.uid = some t → t.handler = false → t.trapv ≠ 0 →
    t.trapa ≠ 0 → s.flightsOf t.uid = [] → stuckIds s t.uid = [] → (∀ w ∈ s.writes, w.id ≠ s.nextId) → t.width ≤ 1024 → maskRegs t.width ≤ t.s.length →
    piecesOf s t.core t.ctx .write t.trapa.toNat 1024 = .ok segs →
    ∃ t' w, (deliver s t tr).team? t.uid = some t' ∧ t'.pc = t.trapv ∧ t'.handler = true ∧ t'.run = .running ∧
      t'.status = t.status &&& ~~~(0x7C00#64) ∧ (∀ l, l < t.width → t'.mask l = true) ∧
      (∀ n, maskRegs t.width ≤ n → t'.sval n = t.sval n) ∧ t'.v = t.v ∧ t'.p = t.p ∧
      (deliver s t tr).writes = s.writes ++ [w] ∧ w.cells = (segKeys segs).zip (frameBytes t tr []) ∧
      (frameBytes t tr []).length = 1024 ∧ (∀ a, (deliver s t tr).mem.get a = s.mem.get a) ∧
      (∀ v, v ≠ t.uid → (deliver s t tr).team? v = s.team? v)) ∧
  (∀ (s : State) (t : Team) (tr : Trap) (l : Launch), s.team? t.uid = some t → s.flightsOf t.uid = [] → stuckIds s t.uid = [] →
    (t.trapv = 0 ∨ t.trapa = 0 ∨ t.handler = true) → s.launch? t.launch = some l → l.status = 0 →
    ∃ t' l', (deliver s t tr).team? t.uid = some t' ∧ t'.run = .stopped ∧ (deliver s t tr).launch? t.launch = some l' ∧
      l'.phase = .ended ∧ l'.status = 0x09 + tr.code * 2 ^ 8 + (if t.handler then 2 ^ 16 else 0)) ∧
  (∀ u s t tr, s.team? u = some t → t.run = .running → nextTrap t = some tr →
    (s.busy u = false → portStalled s t.core = false → exec (.trapDelivery u) s = .next (deliver s t tr)) ∧
    ((s.busy u = true ∨ portStalled s t.core = true) →
      exec (.trapDelivery u) s = .next (s.postOnce (.trapDelivery u)))) ∧
  (∀ s t tr, t.part = none →
    (s.busy t.uid = false → portStalled s t.core = false → takeTrap s t tr = deliver s t tr) ∧
    ((s.busy t.uid = true ∨ portStalled s t.core = true) → takeTrap s t tr = s.setTeam { t with due := some tr })) ∧
  (∀ (t : Team) (p : Trap) (ps : List Trap), t.handler = false → t.pending = p :: ps →
    nextTrap t = some { p with pc := t.pc, npc := t.pc }) ∧
  (∀ (t : Team) (d : Trap), (t.handler = true ∨ t.pending = []) → t.due = some d → nextTrap t = some d) ∧
  (∀ (t : Team) (h : Trap) (hs : List Trap), t.handler = false → t.pending = [] → t.due = none → t.held = h :: hs →
    nextTrap t = some h) ∧
  (∀ t : Team, t.handler = true → t.due = none → nextTrap t = none)

/-- 19 R431: a `tret` in a handler whose frame can be read, holds no entry and asks for no partial run restores the mask
and `status`, and waits until everything it began is over; TRET_RESUME then runs the team at the frame's pc, or npc
under skip. Outside a handler `tret` takes `prot` with 0x0D01. It waits for what the handler issued before (log 70), and a wound
that waited in the handler is left pending at the boundary, with no entry (14 R330). -/
def Obligations.TretReturnsFromTheHandler : Prop :=
  (∀ x s t, Issues 0x58 3 x s t → t.go x.g x.neg = true → t.handler = false →
    exec (.tret x) s = .next (takeTrap s t (trapHere t.pc (t.pc + BitVec.ofNat 64 (extLen x)) 0x05 0x0D01))) ∧
  (∀ x s t f, Issues 0x58 3 x s t → t.go x.g x.neg = true → t.handler = true → s.busy t.uid = false →
    t.wound = false → readFrame s t = .ok f → f.entries = [] → f.partly = false → exec (.tret x) s = .next
      (settle (s.setTeam { t.restoreFrame f with
        retPc := (if f.skip then f.npc else f.pc), run := .parked .tret, caught := [], aux := [] }) t.uid)) ∧
  (∀ x s t, Issues 0x58 3 x s t → t.go x.g x.neg = true → t.handler = true → s.busy t.uid = true →
    exec (.tret x) s = .next s) ∧
  (∀ x s t f, Issues 0x58 3 x s t → t.go x.g x.neg = true → t.handler = true → s.busy t.uid = false → t.wound = true →
    readFrame s t = .ok f → ∃ t', exec (.tret x) s = .next (s.setTeam t') ∧ t'.handler = false ∧ t'.caught = [] ∧
      t'.rdst = [] ∧ t'.pc = (if f.skip || f.partly then f.npc else f.pc) ∧ t'.status = f.status &&& 0x7FF7#64 ∧
      (∀ k, k < maskRegs t.width → k < t.s.length → t'.sval k = f.mask.getD k 0) ∧
      (∀ n, (true, n) ∈ t.rdst → n < t.v.length → (t'.vreg n).full = true) ∧
      (∀ n, (false, n) ∈ t.rdst → n < t.s.length → t'.sfull n = true)) ∧
  (∀ u s t, s.team? u = some t → t.run = .parked .tret → (s.flightsOf u).any (fun f => f.again) = false →
    (∀ w ∈ s.writes, w.team = u → w.waits = []) → t.holds = [] →
    exec (.tretResume u) s = .next (s.setTeam
      { t with run := .running, pc := t.retPc, handler := t.handler && decide (t.aux = [1]), aux := [] }))

/-- 14 R328, R329: WOUND_TAKE of a team that can take one takes it off issue and starts the
undo engine; ROLLBACK_COMPLETE writes the records back, releases every hasp, and restarts the task at its restart
address with its entry words, one more restart, no set and no wound. -/
def Obligations.WoundsRollTheTaskBack : Prop :=
  (∀ u s t, s.team? u = some t → canTakeWound t = true → t.run = .running → usesAbsent s t = none → ∃ s' t',
    exec (.woundTake u) s = .next s' ∧ s'.team? u = some t' ∧ t'.run = .parked .setWait ∧ t'.due = none ∧
    t'.part = none ∧ .rollbackComplete u ∈ s'.agenda) ∧
  (∀ u s t k s', s.team? u = some t → t.wound = true → t.task = some k → k.logged = [] → clearUndo s t = .ok s' →
    let r := releaseHasps s' t.uid (fun _ => true)
    exec (.rollbackComplete u) s = .next ({ r with declined := r.declined.erase (.rollbackComplete u) }.onTeam u restartTask)) ∧
  (∀ u s t k n s' s'', s.team? u = some t → t.wound = true → t.task = some k → k.logged ≠ [] → undoRead s t = .ok n →
    undoRecords t false (List.range n).reverse s = .ok s' → clearUndo s' t = .ok s'' →
    let r := releaseHasps s'' t.uid (fun _ => true)
    exec (.rollbackComplete u) s = .next ({ r with declined := r.declined.erase (.rollbackComplete u) }.onTeam u restartTask)) ∧
  (∀ s t s', t.undol ≠ 0 → t.task.isSome → writeVA s t.core t.ctx t.undob.toNat (leBytes 12 0) = .ok s' →
    clearUndo s t = .ok s') ∧
  (∀ (t : Team) (k : Task), t.task = some k → k.entry.length = 4 → k.dst + 4 ≤ t.s.length →
    (restartTask t).pc = k.restart ∧ (restartTask t).wound = false ∧
    (∀ j, j < 4 → (restartTask t).sval (k.dst + j) = k.entry.getD j 0 ∧ (restartTask t).sfull (k.dst + j) = true) ∧
    (restartTask t).sets = List.replicate 8 SetSlot.zero ∧
    ∃ k', (restartTask t).task = some k' ∧ k'.restarts = min (2 ^ 32 - 1) (k.restarts + 1) ∧ k'.deferred = [] ∧
      k'.age = k.age ∧ k'.restart = k.restart)

/-- 03 R83, R84; 06 R149: for every row of the extended operations, whatever it does: a register or object out of range
takes `regidx` (0x03) with the first one as subcode, an empty mask register makes it wait (02 R42), an empty `trp` source takes
`empty` (0x02), and an empty register to wait for leaves the state as it is. No effect comes before these checks. That the mask is
waited for first, and that an empty `trp` source traps before the `blk` sources are waited for, is the model's choice (log 64). -/
def Obligations.EveryExtendedFormMakesTheIssueChecks : Prop :=
  ∀ (opc sub : Nat) (g : Nat → Option (Ext → Instr)) (mk : Ext → Instr) (x : Ext) (s : State) (t : Team),
    mkGroup opc = some g → g sub = some mk → s.team? s.cur = some t →
    (lgBad t opc sub x = true → exec (mk x) s = .next (takeTrap s t (trapHere t.pc (t.pc + BitVec.ofNat 64 (extLen x)) 0x01 0x0C00))) ∧
    (lgBad t opc sub x = false →
    let r := rowOf t.width opc sub x
    let e := extraRun t.width opc sub x
    (∀ n, regErr s t r x e = some n → exec (mk x) s = .next (takeTrap s t (trapHere t.pc (t.pc + BitVec.ofNat 64 (extLen x)) 0x03 n))) ∧
    (regErr s t r x e = none → maskWait t = true → exec (mk x) s = .next s) ∧
    (∀ n, regErr s t r x e = none → maskWait t = false → srcErr t opc sub r x = some n → exec (mk x) s =
      .next (takeTrap s t { trapHere t.pc (t.pc + BitVec.ofNat 64 (extLen x)) 0x02 n with lanes := lanesOf (activeLanes t x) })) ∧
    (regErr s t r x e = none → maskWait t = false → srcErr t opc sub r x = none → mustWait s t opc sub r x = true →
      exec (mk x) s = .next s) ∧
    (skips t opc sub r = true → ¬ (opc = 0x59 ∧ sub ≤ 1) →
      srcErr t opc sub r x = none ∧ (r.d ≠ .sc → mustWait s t opc sub r x = false)))

/-- 09 R218-R220, R225, 11 R280: the address of each lane is base + index x 2^scl + offset (+ the lane's element for `ldv`)
modulo 2^64. Lanes that fail at issue are in `MisalignedAccessTraps`. In an open task the first access to a declared set acquires it
(14 R319); what follows is in `SetsAreDeclaredRequestedAndGranted`. -/
def Obligations.ReadsLeaveTheirAddressesInFlight : Prop :=
  MemReadOp Instr.ld id extLen 0x4A 0 (ldstOp 0)
    (fun s t x l => memAddr s t x (x.bit 14) false (x.f 16 15) (sextN 14 (x.f 13 0)) l) ∧
  MemReadOp Instr.ldv id extLen 0x4A 2 (ldstOp 2)
    (fun s t x l => memAddr s t x (x.bit 14) true (x.f 16 15) (sextN 14 (x.f 13 0)) l) ∧
  MemReadOp Instr.lds id extLen 0x4A 4 (ldstOp 4)
    (fun s t x l => memAddr s t x (x.bit 14) false (x.f 16 15) (sextN 14 (x.f 13 0)) l) ∧
  MemReadOp Instr.ldvShort (shortOne · .sc .b32) shortLen 0x4A 2 (ldstOp 2)
    (fun s t x l => memAddr s t x (x.bit 14) true (x.f 16 15) (sextN 14 (x.f 13 0)) l) ∧
  MemReadOp Instr.ldsShort (shortOne · .sc .b64) shortLen 0x4A 4 (ldstOp 4)
    (fun s t x l => memAddr s t x (x.bit 14) false (x.f 16 15) (sextN 14 (x.f 13 0)) l) ∧
  MemReadOp Instr.atom id extLen 0x4B 0 (atomOp 0)
    (fun s t x l => memAddr s t x (x.bit 12) false (x.f 14 13) (sextN 12 (x.f 11 0)) l) ∧
  MemReadOp Instr.atoms id extLen 0x4B 2 (atomOp 2)
    (fun s t x l => memAddr s t x (x.bit 12) false (x.f 14 13) (sextN 12 (x.f 11 0)) l) ∧
  (∀ x s t, Issues 0x4C 2 x s t →
    let as := laneAddrs (fun s t x l => memAddr s t x false false 0 (sextN 14 (x.f 13 0)) l) true s t x
    MemChecks s t x false as → (as = [] → exec (.mwait x) s = .next (retire s t (extLen x))) ∧
    (as ≠ [] → ∃ s' f, exec (.mwait x) s = .next (retire s' t (extLen x)) ∧
      s'.flight? s.nextId = some f ∧ f.instr = .mwait x ∧
      f.lanes.map (fun r => (r.lane, r.addr, r.data)) =
        as.map (fun p => (p.1, BitVec.ofNat 64 p.2, BitVec.ofNat 64 (srcVal s t x x.b x.ty.width p.1))) ∧
      f.aux = [0, (let w := srcVal s t x x.c 32 0; if w = 0xFFFFFFFF then 0 else s.clk.toNat + w + 1), 0] ∧
      (.translationWalk s.nextId ∈ s'.agenda ∨ .accessResponse s.nextId ∈ s'.agenda) ∧
      (∀ a, s'.mem.get a = s.mem.get a) ∧ s'.writes = s.writes)) ∧
  TouchOp Instr.ld id 0x4A 0 false
    (fun s t x l => memAddr s t x (x.bit 14) false (x.f 16 15) (sextN 14 (x.f 13 0)) l) (fun x => x.bit 17) ∧
  TouchOp Instr.ldv id 0x4A 2 false
    (fun s t x l => memAddr s t x (x.bit 14) true (x.f 16 15) (sextN 14 (x.f 13 0)) l) (fun x => x.bit 17) ∧
  TouchOp Instr.lds id 0x4A 4 true
    (fun s t x l => memAddr s t x (x.bit 14) false (x.f 16 15) (sextN 14 (x.f 13 0)) l) (fun x => x.bit 17) ∧
  TouchOp Instr.ldvShort (shortOne · .sc .b32) 0x4A 2 false
    (fun s t x l => memAddr s t x (x.bit 14) true (x.f 16 15) (sextN 14 (x.f 13 0)) l) (fun x => x.bit 17) ∧
  TouchOp Instr.ldsShort (shortOne · .sc .b64) 0x4A 4 true
    (fun s t x l => memAddr s t x (x.bit 14) false (x.f 16 15) (sextN 14 (x.f 13 0)) l) (fun x => x.bit 17) ∧
  TouchOp Instr.atom id 0x4B 0 false
    (fun s t x l => memAddr s t x (x.bit 12) false (x.f 14 13) (sextN 12 (x.f 11 0)) l) (fun _ => false) ∧
  TouchOp Instr.atoms id 0x4B 2 true
    (fun s t x l => memAddr s t x (x.bit 12) false (x.f 14 13) (sextN 12 (x.f 11 0)) l) (fun _ => false)

/-- 09 R219, R222, R227: where the pages are cached, HBM and writable, each served lane's bytes, little-endian and as wide as
the type, are on their way to the pieces of the lane's address; where one is not cached, the lanes wait with
address and data. No byte of memory changes at issue: `WritesReachMemory` says when it does. A release's bytes stand at the gate (11
R276), and loads of its core do not see them. In an open task the first access to a declared set acquires it (14 R319), and a `red`
into one is refused (R320). -/
def Obligations.StoresSendTheirBytesToTheirAddresses : Prop :=
  MemStoreOp Instr.st id extLen 0x4A 1 false
    (fun s t x l => memAddr s t x (x.bit 14) false (x.f 16 15) (sextN 14 (x.f 13 0)) l) (fun x => x.bit 17) ∧
  MemStoreOp Instr.stv id extLen 0x4A 3 false
    (fun s t x l => memAddr s t x (x.bit 14) true (x.f 16 15) (sextN 14 (x.f 13 0)) l) (fun x => x.bit 17) ∧
  MemStoreOp Instr.sts id extLen 0x4A 5 true
    (fun s t x l => memAddr s t x (x.bit 14) false (x.f 16 15) (sextN 14 (x.f 13 0)) l) (fun x => x.bit 17) ∧
  MemStoreOp Instr.stvShort (shortOne · .sc .b32) shortLen 0x4A 3 false
    (fun s t x l => memAddr s t x (x.bit 14) true (x.f 16 15) (sextN 14 (x.f 13 0)) l) (fun x => x.bit 17) ∧
  MemStoreOp Instr.stsShort (shortOne · .sc .b64) shortLen 0x4A 5 true
    (fun s t x l => memAddr s t x (x.bit 14) false (x.f 16 15) (sextN 14 (x.f 13 0)) l) (fun x => x.bit 17) ∧
  (∀ x s t (segs : Nat → List Seg), Issues 0x4B 1 x s t →
    let n := x.ty.width / 8
    let as := laneAddrs (fun s t x l => memAddr s t x (x.bit 12) false (x.f 14 13) (sextN 12 (x.f 11 0)) l) false s t x
    let own := as.filter (fun p => t.task.isSome && t.sets.any (fun k => decide (SlotTouched k p.2 n)))
    MemChecks s t x false as →
    (own ≠ [] → exec (.red x) s = .next (takeTrap s t { trapHere t.pc (t.pc + BitVec.ofNat 64 (extLen x)) 0x05 0x0807 with
      addr := BitVec.ofNat 64 (lowest (own.map (fun p => p.2))), lanes := own.map (fun p => p.1) })) ∧
    (as = [] → exec (.red x) s = .next (retire s t (extLen x))) ∧
    (as ≠ [] → own = [] → s.flightsOf t.uid = [] → x.bit 19 = false → (∀ w ∈ s.writes, s.nextId ∉ w.waits) →
    (∀ p ∈ as, cached s t.core t.ctx p.2 n = true ∧ piecesOf s t.core t.ctx .red p.2 n = .ok (segs p.1) ∧
      ∀ g ∈ segs p.1, tierOf g.key = 0 ∧ ∀ k ∈ segKeys [g], lineMoves s k = false) →
    ∃ s' ws, exec (.red x) s = .next (retire s' t (extLen x)) ∧ s'.writes = s.writes ++ ws ∧
      ws.map (fun w => (w.lane, w.path, w.cells.map (fun c => c.1), w.red)) = as.map (fun p =>
        (p.1, 7, segKeys (segs p.1), some (x.f 17 15, x.ty, BitVec.ofNat 64 (srcVal s t x x.c x.ty.width p.1)))) ∧
      (∀ w ∈ ws, .redCombine w.id ∈ s'.agenda) ∧ (∀ a, s'.mem.get a = s.mem.get a))) ∧
  TouchOp Instr.st id 0x4A 1 false
    (fun s t x l => memAddr s t x (x.bit 14) false (x.f 16 15) (sextN 14 (x.f 13 0)) l) (fun x => x.bit 17) ∧
  TouchOp Instr.stv id 0x4A 3 false
    (fun s t x l => memAddr s t x (x.bit 14) true (x.f 16 15) (sextN 14 (x.f 13 0)) l) (fun x => x.bit 17) ∧
  TouchOp Instr.sts id 0x4A 5 true
    (fun s t x l => memAddr s t x (x.bit 14) false (x.f 16 15) (sextN 14 (x.f 13 0)) l) (fun x => x.bit 17) ∧
  TouchOp Instr.stvShort (shortOne · .sc .b32) 0x4A 3 false
    (fun s t x l => memAddr s t x (x.bit 14) true (x.f 16 15) (sextN 14 (x.f 13 0)) l) (fun x => x.bit 17) ∧
  TouchOp Instr.stsShort (shortOne · .sc .b64) 0x4A 5 true
    (fun s t x l => memAddr s t x (x.bit 14) false (x.f 16 15) (sextN 14 (x.f 13 0)) l) (fun x => x.bit 17)

/-- 09 R193, R220, R201: a lane whose address is not canonical takes `page` (0x06) with cause 0x04; a misaligned one, where the
form is not `.al`, takes `align` (0x04) with cause 0x01; the frame names every such lane and the lowest address. That a scalar form
names lane 0 is the model's reading (DEDUCED, log 24). -/
def Obligations.MisalignedAccessTraps : Prop :=
  AddressTraps .ld 0x4A 0 false (fun x => x.bit 17) (fun s t x l => memAddr s t x (x.bit 14) false (x.f 16 15) (sextN 14 (x.f 13 0)) l) ∧
  AddressTraps .st 0x4A 1 false (fun x => x.bit 17) (fun s t x l => memAddr s t x (x.bit 14) false (x.f 16 15) (sextN 14 (x.f 13 0)) l) ∧
  AddressTraps .lds 0x4A 4 true (fun x => x.bit 17) (fun s t x l => memAddr s t x (x.bit 14) false (x.f 16 15) (sextN 14 (x.f 13 0)) l) ∧
  AddressTraps .atom 0x4B 0 false (fun _ => false) (fun s t x l => memAddr s t x (x.bit 12) false (x.f 14 13) (sextN 12 (x.f 11 0)) l)

/-- 09 R221, R222, R225, R226; 11 R273, R280; 14 R324, R325: with nothing of the team in the way, the response for the last lane of a
load writes its little-endian bytes, extended by the type, to sD or to that lane of vD, which becomes full; an acquire of scope `die` or
wider drops the L1. That of an atomic stores the new value at its home and returns the old one where asked; the old value of a 32-bit
`atoms` fills its register as a load's does (the model's choice, log 24). `mwait` ends with its two words, or parks. A write to a line of a
set without a record puts the record first. -/
def Obligations.LoadsAndAtomicsDeliverTheirLane : Prop :=
  (∀ id s f m r segs t, s.flight? id = some f → memOp? f.instr = some m → m.kind = .load → m.wait = false →
    f.withdrawn = false → r ∈ f.lanes → r.st = .ready segs → (∀ q ∈ f.lanes, q ≠ r → q.st = .done ∧ q.lane ≠ r.lane) →
    s.team? f.team = some t → s.flightsOf f.team = [f] → (∀ w ∈ s.writes, w.team = t.uid → w.path ≠ 0) →
    (∀ g ∈ segs, tierOf g.key = 0) → (∀ k ∈ segKeys segs, lineMoves s k = false) →
    let n := leNat (loadBytes s t.core id segs)
    let v := if m.x.ty.signed then patN (if m.scalar || m.x.ty.wide then 64 else 32) (sextN m.x.ty.width n) else n
    ∃ s' t', exec (.accessResponse id) s = .next s' ∧ s'.team? f.team = some t' ∧ s'.flight? id = none ∧
      (∀ a, s'.mem.get a = s.mem.get a) ∧
      (m.acq = true → 2 ≤ m.scope → (s'.core t.core).l1 = [] ∧ (s'.core t.core).texels = []) ∧
      (m.scalar = true → f.dst < t.s.length → f.dnum = 1 → f.dvec = false → t'.sval f.dst = BitVec.ofNat 64 v ∧
        (t.rdst.contains (false, f.dst) = false → t'.sfull f.dst = true)) ∧
      (m.scalar = false → f.dvec = true → f.dnum = (if m.x.ty.wide then 2 else 1) → f.dst + f.dnum ≤ t.v.length →
        (∀ k < f.dnum, r.lane < (t.vreg (f.dst + k)).lanes.length) →
        t'.lane f.dst r.lane = BitVec.ofNat 32 v ∧
        (m.x.ty.wide = true → t'.lane (f.dst + 1) r.lane = BitVec.ofNat 32 (v / 2 ^ 32)) ∧
        ∀ k < f.dnum, (t'.vreg (f.dst + k)).tag = .gen ∧
          (∀ l, l ≠ r.lane → t'.lane (f.dst + k) l = t.lane (f.dst + k) l) ∧
          (t.rdst.contains (true, f.dst + k) = false → (t'.vreg (f.dst + k)).full = true))) ∧
  (∀ id s f x t, s.flight? id = some f → f.instr = .ldsp x → s.team? f.team = some t →
    (f.lanes.map (fun r => r.lane)).Nodup → (∀ r ∈ f.lanes, r.st = .ready []) → f.dst < t.v.length →
    (∀ r ∈ f.lanes, r.lane < (t.vreg f.dst).lanes.length) →
    ∃ s' t', exec (.accessResponse id) s = .next s' ∧ s'.team? f.team = some t' ∧ s'.flight? id = none ∧
      (∀ a, s'.mem.get a = s.mem.get a) ∧ ∀ r ∈ f.lanes, t'.lane f.dst r.lane = BitVec.ofNat 32
        (if x.ty.signed then patN (if x.ty.wide then 64 else 32) (sextN x.ty.width r.data.toNat) else r.data.toNat)) ∧
  (∀ id s f m r segs t, s.flight? id = some f → memOp? f.instr = some m → m.kind = .atomic → f.withdrawn = false →
    f.waits = [] → r ∈ f.lanes → r.st = .ready segs → (∀ q ∈ f.lanes, q ≠ r → q.st = .done ∧ q.lane ≠ r.lane) →
    f.lanes.Nodup → s.team? f.team = some t → t.unlogged r.addr.toNat m.size = [] →
    f.dst = m.x.d.toNat → s.flightsOf f.team = [f] →
    (∀ w ∈ s.writes, w.path ≠ 0) → (∀ g ∈ segs, tierOf g.key = 0) → (∀ k ∈ segKeys segs, lineMoves s k = false) →
    let old := leNat (homeBytes s segs)
    let cmp := if m.scalar then (t.sval m.x.d.toNat).toNat % 2 ^ m.x.ty.width
      else if m.x.ty.wide then (t.lane m.x.d.toNat r.lane).toNat + 2 ^ 32 * (t.lane (m.x.d.toNat + 1) r.lane).toNat
      else (t.lane m.x.d.toNat r.lane).toNat
    let new := atomNew m.op m.x.ty old r.data.toNat cmp
    let v := if m.x.ty.signed then patN (if m.scalar || m.x.ty.wide then 64 else 32) (sextN m.x.ty.width old) else old
    ∃ s' t', exec (.accessResponse id) s = .next s' ∧ s'.team? f.team = some t' ∧ s'.flight? id = none ∧
      s'.mem = s.mem.setAll ((segKeys segs).zip (leBytes m.size new)) ∧
      (m.acq = true → 2 ≤ m.scope → (s'.core t.core).l1 = [] ∧ (s'.core t.core).texels = []) ∧
      (m.ret = true → m.scalar = true → f.dst < t.s.length → t'.sval f.dst = BitVec.ofNat 64 v) ∧
      (m.ret = true → m.scalar = false → f.dst < t.v.length → r.lane < (t.vreg f.dst).lanes.length →
        t'.lane f.dst r.lane = BitVec.ofNat 32 v)) ∧
  (∀ id s f x r segs t l, s.flight? id = some f → f.instr = .sts x → f.withdrawn = false → f.waits = [] → f.lanes = [r] →
    f.aux = [0] → r.st = .ready segs → s.team? f.team = some t → t.unlogged r.addr.toNat (ldstOp 5 x).size = [l] →
    s.flightsOf f.team = [f] → (∀ w ∈ s.writes, w.path ≠ 0 ∧ id ∉ w.waits) →
    (∀ g ∈ segs, tierOf g.key = 0) → (∀ k ∈ segKeys segs, lineMoves s k = false) →
    (∀ s1, logLine s t l = .ok s1 → s1.writes = s.writes → s1.flights = s.flights → s1.nextId = s.nextId →
      ∃ s' w, exec (.accessResponse id) s = .next s' ∧ (∀ a, s'.mem.get a = s1.mem.get a) ∧
        s'.writes = s.writes ++ [w] ∧ w.cells = (segKeys segs).zip (leBytes (ldstOp 5 x).size r.data.toNat) ∧
        s'.flight? id = none) ∧
    (∀ code sub va, logLine s t l = .failed code sub va → wentOn s f = false → f.again = false →
      ∃ s' t' d, exec (.accessResponse id) s = .next s' ∧ (∀ a, s'.mem.get a = s.mem.get a) ∧ s'.writes = s.writes ∧
        s'.team? f.team = some t' ∧ t'.due = some d ∧ d.code = code ∧ d.sub = sub ∧ d.lanes = [r.lane] ∧ d.pc = f.pc)) ∧
  (∀ s t l k n old s1 s2, t.task = some k →
    (t.undol.toNat < 136 → logLine s t l = .failed 0x08 1 none) ∧
    (136 ≤ t.undol.toNat → readNum s t.core t.ctx (t.undob.toNat + 8) 4 = .ok n →
      (t.undol.toNat < 64 + 72 * (n + 1) → logLine s t l = .failed 0x08 1 none) ∧
      (64 + 72 * (n + 1) ≤ t.undol.toNat → readVA s t.core t.ctx l 64 = .ok old →
        writeVA s t.core t.ctx (t.undob.toNat + 64 + 72 * n) (leBytes 8 l ++ old) = .ok s1 →
        writeVA s1 t.core t.ctx t.undob.toNat (leBytes 8 k.age.toNat ++ leBytes 4 (n + 1)) = .ok s2 →
        logLine s t l = .ok (s2.onTeam t.uid (fun u => { u with
          task := u.task.map (fun k => { k with logged := l :: k.logged }) }))))) ∧
  (∀ (t : Team) (k : Task) (a n l : Nat), t.task = some k → 0 < n → n ≤ 64 →
    (l ∈ t.unlogged a n ↔ l % 64 = 0 ∧ a / 64 * 64 ≤ l ∧ l < a + n ∧ l ∉ k.logged ∧
      ∃ q ∈ t.sets, q.st = .acquired ∧ q.base.toNat ≤ l ∧ l < q.base.toNat + q.len.toNat)) ∧
  (∀ id s f x r segs t, s.flight? id = some f → f.instr = .mwait x → f.withdrawn = false → f.lanes = [r] →
    r.st = .ready segs → s.team? f.team = some t → (t.run = .running ∨ t.run = .parked .mwait) → f.again = false →
    s.flightsOf f.team = [f] → (∀ w ∈ s.writes, w.team = t.uid → w.path ≠ 0) → f.dst = x.d.toNat → f.dnum = 2 →
    f.dvec = false → f.dst + 2 ≤ t.s.length → (∀ g ∈ segs, tierOf g.key = 0) → (∀ k ∈ segKeys segs, lineMoves s k = false) →
    let v := leNat ((segKeys segs).map (fun k => coreByte s t.core false k))
    let code : Option Nat := if t.mwEnd = .timeout then some 1
      else if f.aux.getD 2 0 = 1 ∧ (v ≠ r.data.toNat ∨ t.mwEnd = .resumed) then some 2 else if v ≠ r.data.toNat then some 0 else none
    ∃ s' t', exec (.accessResponse id) s = .next s' ∧ s'.team? f.team = some t' ∧ (∀ a, s'.mem.get a = s.mem.get a) ∧
      (∀ c, code = some c → t'.run = .running ∧ t'.sval f.dst = BitVec.ofNat 64 c ∧
        t'.sval (f.dst + 1) = BitVec.ofNat 64 v ∧ s'.flight? id = none) ∧
      (code = none → t'.run = .parked .mwait ∧ t'.s = t.s ∧ (s'.flight? id).isSome))

/-- 11 R258, R276; 09 R206, R227: a buffered write with none before it is applied at its home slices and leaves the buffer;
a combine applies its operation to each element; a write that fails has no effect and its team gets an imprecise
trap, and the releases that count it leave the gate as unfinished instructions (R278). One that counts something is not applied. -/
def Obligations.WritesReachMemory : Prop :=
  (∀ id s w, s.write? id = some w → w.waits = [] → w.red = none → priorWrites s w = [] →
    (∀ c ∈ w.cells, tierOf c.1 = 0 ∧ lineMoves s c.1 = false) →
    ∃ s', exec (.writePerformed id) s = .next s' ∧ s'.mem = s.mem.setAll w.cells ∧ s'.write? id = none ∧
      (s.mem.wf = true → ∀ a, (∀ c ∈ w.cells, c.1 ≠ a) → s'.mem.get a = s.mem.get a)) ∧
  (∀ id s w, s.write? id = some w → w.waits = [] → w.release ≠ none → priorWrites s w = [] →
    (∀ c ∈ w.cells, tierOf c.1 = 0 ∧ lineMoves s c.1 = false) →
    ∃ s', exec (.releaseGateOpen id) s = .next s' ∧ s'.mem = s.mem.setAll w.cells ∧ s'.write? id = none) ∧
  (∀ id s w op ty d, s.write? id = some w → w.red = some (op, ty, d) → priorWrites s w = [] →
    (∀ c ∈ w.cells, lineMoves s c.1 = false) →
    let keys := w.cells.map (fun c => c.1)
    let old := leNat (keys.map (fun k => s.mem.get k))
    ∃ s', exec (.redCombine id) s = .next s' ∧ s'.write? id = none ∧ s'.mem = s.mem.setAll (keys.zip (leBytes (ty.width / 8)
      (packElems (ty.width / ty.elems) ((List.range ty.elems).map (fun j =>
        atomNew op ty.elem (elemAt ty old j) (elemAt ty d.toNat j) 0)))))) ∧
  (∀ id s w, s.write? id = some w → w.waits ≠ [] →
    exec (.releaseGateOpen id) s = .next s ∧ exec (.writePerformed id) s = .next s) ∧
  (∀ id cause s w v, s.write? id = some w → v ∈ s.writes → v.team = w.team → w.id ∈ v.waits →
    (∀ y ∈ s.writes, y.team = w.team → y.waits ≠ [] → y.instr ≠ none) → w.frame = none →
    ∃ s', exec (.storeFailure id cause) s = .next s' ∧
      (∀ y ∈ s'.writes, y.team = w.team → y.op = v.op → y.waits = []) ∧
      ∃ f ∈ s'.flights, f.team = w.team ∧ f.withdrawn = true ∧ ∃ r ∈ f.lanes, r.lane = v.lane ∧ r.addr = v.va ∧
        r.data = v.data ∧ r.st = .todo) ∧
  (∀ id cause s w t, s.write? id = some w → s.team? w.team = some t → w.frame = none → ∃ s' t',
    exec (.storeFailure id cause) s = .next s' ∧ s'.write? id = none ∧ (∀ a, s'.mem.get a = s.mem.get a) ∧
      s'.team? w.team = some t' ∧ ∃ p ∈ t'.pending, w.lane ∈ p.lanes ∧
        p.code = (if cause < 256 then 0x06 else cause / 256) ∧ p.sub = cause % 256 * 256 + w.path)

/-- 09 R202-R205: the walk of a lane on plain memory either leaves it translated with a response due, or faulted with a
request in the die's fault buffer and its team parked, or failed with the trap of R197 or R201. FAULT_SERVICED fills an
entry that is not valid (a valid one changes with a shootdown only, R200) and replays every request of the page; FAULT_DECLINED hands the failure to each. -/
def Obligations.TranslationsFillLanesOrPark : Prop :=
  (∀ id s f m r t, s.flight? id = some f → memOp? f.instr = some m → f.withdrawn = false → f.lanes = [r] →
    r.st = .todo → s.team? f.team = some t → t.run = .running →
    let s1 := tlbFill (tlbFill s t.core t.ctx r.addr.toNat) t.core t.ctx ((r.addr.toNat + (m.size - 1)) % 2 ^ 64)
    (∀ segs, laneTr s1 t.core t.ctx m r.addr.toNat = .ready segs → ∃ s' g, exec (.translationWalk id) s = .next s' ∧
      s'.flight? id = some g ∧ g.lanes = [{ r with st := .ready segs }] ∧ .accessResponse id ∈ s'.agenda ∧
      (∀ a, s'.mem.get a = s.mem.get a)) ∧
    (laneTr s1 t.core t.ctx m r.addr.toNat = .faulted → faultsFull s1 (dieOf t.core) = false → ∃ s' g t' q,
      exec (.translationWalk id) s = .next s' ∧ s'.flight? id = some g ∧ g.lanes = [{ r with st := .faulted }] ∧
      s'.team? f.team = some t' ∧ t'.run = .parked .fault ∧ q ∈ s'.faults ∧ q.flight = id ∧ q.ctx = t.ctx ∧
      q.die = dieOf t.core ∧ q.retry = .translationWalk id)) ∧
  (∀ ctx va pa pte s e n,
    let old := s.mem.num (physKey 0 pa) 8
    let m := if old.testBit 0 then s.mem else entryWritten s.mem pa pte
    serviceWaits s ctx va.toNat 65536 = false → walk { s with mem := m } ctx va.toNat = .leaf e n →
    ∃ s', exec (.faultServiced ctx va pa pte) s = .next s' ∧ s'.mem = m ∧
      ∀ q ∈ s.faults, q.ctx = ctx → blkIn q.blk va.toNat n = true → q ∉ s'.faults ∧ q.retry ∈ s'.agenda) ∧
  (∀ ctx va s, serviceWaits s ctx va.toNat 65536 = false → ∃ s', exec (.faultDeclined ctx va) s = .next s' ∧ (∀ a, s'.mem.get a = s.mem.get a) ∧
    ∀ q ∈ s.faults, q.ctx = ctx → blkIn q.blk va.toNat 65536 = true →
      q ∉ s'.faults ∧ (q.flight = 0 → q.retry ∈ s'.declined ∧ q.retry ∈ s'.agenda)) ∧
  (∀ ctx va pa pte s, serviceWaits s ctx va.toNat 65536 = true →
    exec (.faultServiced ctx va pa pte) s = .next (s.postOnce (.faultServiced ctx va pa pte)) ∧
    exec (.faultDeclined ctx va) s = .next (s.postOnce (.faultDeclined ctx va)))

/-- 09 R200, R201, R206, R215: SHOOTDOWN writes the page-table entries, SHOOTDOWN_COMPLETE leaves no cached translation of the
context in the range in any core, PCIE_LINK_DOWN makes every buffered write to the host tier fail, and
PALYR_PEER_ACCESS reads, writes or exchanges bytes at this device's home slice. `pref` changes no byte of memory. -/
def Obligations.ShootdownsAndLinksAct : Prop :=
  (∀ ctx va len ptes s, ∃ s', exec (.shootdown ctx va len ptes) s = .next s' ∧
    s'.mem = ptes.foldl (fun m p => entryWritten m p.1 p.2) s.mem ∧
    s'.hub.shoots = s.hub.shoots ++ [(ctx, va.toNat, len)] ∧ .shootdownComplete ctx va len ∈ s'.agenda) ∧
  (∀ ctx va len s, ∃ s', exec (.shootdownComplete ctx va len) s = .next s' ∧
    ∀ c ∈ s'.cores, ∀ e ∈ c.tlb, ¬ (e.ctx = ctx ∧ inRange e.va e.size va.toNat len = true)) ∧
  (∀ s, ∃ s', exec .pcieLinkDown s = .next s' ∧ s'.hub.pcieUp = false ∧ (∀ a, s'.mem.get a = s.mem.get a) ∧
    ∀ w ∈ s.writes, w.cut s' = true → .storeFailure w.id 5 ∈ s'.agenda) ∧
  (∀ pa len s, exec (.palyrPeerAccess (.read pa len)) s = .next s) ∧
  (∀ pa data s, ∃ s', exec (.palyrPeerAccess (.write pa data)) s = .next s' ∧
    s'.mem = if pa % 2 ^ 48 + data.length ≤ 384 * 2 ^ 30 then s.mem.setBytes (physKey 0 pa) data else s.mem) ∧
  (∀ pa op ty data cmp s, ∃ s', exec (.palyrPeerAccess (.atomic pa op ty data cmp)) s = .next s' ∧
    s'.mem = if 384 * 2 ^ 30 < pa % 2 ^ 48 + ty.width / 8 then s.mem else s.mem.setBytes (physKey 0 pa) (leBytes (ty.width / 8)
      (atomNew op ty (s.mem.num (physKey 0 pa) (ty.width / 8)) data.toNat cmp.toNat))) ∧
  (∀ x s t, Issues 0x4A 8 x s t →
    (∀ l ∈ lanesOf (activeLanes t x), canonical (memAddr s t x (x.bit 14) false (x.f 16 15) (sextN 14 (x.f 13 0)) l) = true) →
    ∃ s', exec (.pref x) s = .next (retire s' t (extLen x)) ∧ (∀ a, s'.mem.get a = s.mem.get a) ∧ s'.teams = s.teams ∧
      s'.flights = s.flights ∧ s'.writes = s.writes ∧ (x.bit 18 = true → s'.cores = s.cores))

/-- 11 R270-R274: a fence waits for the team's own accesses on `ls` of its kind and scope, `xfence` for those on its source
paths; until then they hold later accesses, and nothing else. A fence of scope `team` marks where the team's accesses of `uo` pages are
ordered (R261). What a release or fence beyond scope `core` waits for takes in the writes that its core's loads can have read (log 10,
DEDUCED from R268 and R269). A hold ends when nothing is left to wait for and, for
`.sc` at scope `fab` or `sys`, when a later heartbeat tick is seen. -/
def Obligations.FencesHoldTheirPathsUntilDrained : Prop :=
  (∀ x s t, Issues 0x4C 0 x s t → t.go x.g x.neg = true → x.f 4 2 ≠ 0 →
    let sem := x.f 1 0
    let h : Hold := { waits := [], paths := 256, writesOnly := false, scope := x.f 4 2, sc := false, dropL1 := false,
                      heart := none, op := s.nextId, pc := t.pc, npc := t.pc + BitVec.ofNat 64 (extLen x), instr := .fence x }
    let acq := { h with waits := readWaits s t.uid, dropL1 := decide (2 ≤ x.f 4 2) }
    let rel := { h with waits := lsWaits s t.uid (x.f 4 2), paths := 1, writesOnly := true }
    let full := { acq with waits := lsWaits s t.uid (x.f 4 2), sc := true }
    let s1 := { s with nextId := s.nextId + 1 }
    exec (.fence x) s = .next (retire (advanceHolds
      (if sem = 0 then addHold s1 t.uid acq else if sem = 1 then addHold s1 t.uid rel
       else if sem = 2 then addHold (addHold s1 t.uid acq) t.uid rel else addHold s1 t.uid full) t.uid) t (extLen x))) ∧
  (∀ x s t, Issues 0x4C 0 x s t → t.go x.g x.neg = false → exec (.fence x) s = .next (retire s t (extLen x))) ∧
  (∀ x s t, Issues 0x4C 0 x s t → t.go x.g x.neg = true → x.f 4 2 = 0 →
    exec (.fence x) s = .next (retire (s.onTeam t.uid (fun u => { u with ordAt := s.nextId })) t (extLen x))) ∧
  (∀ s u scope i, i ∈ lsWaits s u scope ↔
    (∃ f ∈ s.flights, f.team = u ∧ f.id = i ∧ ∃ m, memOp? f.instr = some m ∧ m.kind ≠ .red) ∨
    (∃ w ∈ s.writes, w.id = i ∧ w.path = 0 ∧ ((w.team = u ∧ (2 ≤ scope ∨ w.waits ≠ [])) ∨
      (2 ≤ scope ∧ w.waits = [] ∧ ∃ t, s.team? u = some t ∧ w.core = t.core)))) ∧
  (∀ s u i, i ∈ readWaits s u ↔ ∃ f ∈ s.flights, f.team = u ∧ f.id = i ∧
    ∃ m, memOp? f.instr = some m ∧ (m.kind = .load ∨ m.kind = .atomic)) ∧
  (∀ x s t, Issues 0x4C 1 x s t → t.go x.g x.neg = true →
    let s1 := if (x.f 15 8).testBit 0 then l1Drop s t.core else s
    let s0 := if (x.f 15 8).testBit 5 then texDrop s1 t.core else s1
    let h : Hold := { waits := pathWaits s0 t (x.f 7 0) (x.f 15 8) (x.f 18 16), paths := x.f 15 8, writesOnly := false,
                      scope := x.f 18 16, sc := false, dropL1 := (x.f 15 8).testBit 0, heart := none, op := s.nextId,
                      pc := t.pc, npc := t.pc + BitVec.ofNat 64 (extLen x), instr := .xfence x }
    exec (.xfence x) s = .next (retire (advanceHolds (addHold { s0 with nextId := s.nextId + 1 } t.uid h) t.uid) t
      (extLen x))) ∧
  (∀ u s t, s.team? u = some t → ∃ s' t', exec (.fenceComplete u) s = .next s' ∧ s'.team? u = some t' ∧
    (∀ h ∈ t'.holds, h.waits ≠ [] ∨ (h.sc = true ∧ 4 ≤ h.scope ∧ ∃ n, h.heart = some n ∧ s.beat.toNat < n)) ∧
    (∀ h ∈ t.holds, h.waits ≠ [] → h ∈ t'.holds) ∧ (∀ a, s'.mem.get a = s.mem.get a)) ∧
  (∀ s, ∃ s', exec .heartbeatTick s = .next s' ∧ s'.beat = s.beat + 1 ∧ (∀ a, s'.mem.get a = s.mem.get a))

/-- 11 R280: a team parked in `mwait` tests its location again when it is written, polled again, or its time is over. -/
def Obligations.MwaitIsTestedAgain : Prop :=
  (∀ u s t id, s.team? u = some t → t.run = .parked .mwait → t.aux[2]? = some id →
    exec (.mwaitWake u) s = .next (s.postOnce (.accessResponse id)) ∧
    exec (.mwaitRepoll u) s = .next (s.postOnce (.accessResponse id)) ∧
    (t.aux.getD 3 0 ≠ 0 → t.aux.getD 3 0 ≤ s.clk.toNat + 1 → exec (.mwaitTimeout u) s =
      .next ((s.onTeam u (fun v => { v with mwEnd := .timeout })).postOnce (.accessResponse id))) ∧
    (s.clk.toNat + 1 < t.aux.getD 3 0 → exec (.mwaitTimeout u) s = .next s))

/-- 10 R251-R255: an arrival adds to the count, and at the target flips the phase and takes the target off; a wait ends when
the phase differs from the one named; `ltinit` of a target 0 takes `prot`. -/
def Obligations.LatchesCountAndRelease : Prop :=
  (∀ x s t, Issues 0x4F 0 x s t → t.go x.g x.neg = true → let a := srcVal s t x x.a 32 0
    (a ≠ 0 → exec (.ltinit x) s = .next (retire (onLatch s t.core t.launch x.d.toNat
      (fun l => { l with count := 0, target := a, ovr := false })) t (extLen x))) ∧
    (a = 0 → exec (.ltinit x) s =
      .next (takeTrap s t (trapHere t.pc (t.pc + BitVec.ofNat 64 (extLen x)) 0x05 0x0800)))) ∧
  (∀ x s t, Issues 0x4F 1 x s t → t.go x.g x.neg = true →
    (∀ w ∈ s.writes, w.team = t.uid → w.path = 0 → w.waits = []) →
    (∀ f ∈ lsFlights s t.uid, ∀ m, memOp? f.instr = some m → m.kind ≠ .store) →
    exec (.ltarr x) s = .next (retire (arriveAt s t.core t.launch x.d.toNat (srcVal s t x x.a 32 0)) t (extLen x))) ∧
  (∀ x s t l, Issues 0x4F 2 x s t → t.go x.g x.neg = true →
    s.latch? t.core t.launch x.a.code.toNat = some l → let b := srcVal s t x x.b 32 0 % 2
    ((if l.phase then 1 else 0) ≠ b → exec (.ltwait x) s = .next (retire (putScalar s t x.d l.word) t (extLen x))) ∧
    ((if l.phase then 1 else 0) = b → exec (.ltwait x) s = .next (s.onTeam t.uid (fun u => { u with
      run := .parked .ltwait
      aux := [x.a.code.toNat, b, (t.pc + BitVec.ofNat 64 (extLen x)).toNat, x.d.toNat] })))) ∧
  (∀ x s t, Issues 0x4F 3 x s t → t.go x.g x.neg = true →
    let tgt := t.pc + BitVec.ofInt 64 (4 * sextN 23 (x.f 22 0))
    let id := srcVal s t x x.a 32 0
    let b := srcVal s t x x.b 32 0 % 2
    (x.bit 23 = true → (s.core t.core).copies.any (fun k => k.id = id) = false →
      exec (.yield x) s = .next (goTo s t tgt)) ∧
    (x.bit 23 = true → (s.core t.core).copies.any (fun k => k.id = id) = true → exec (.yield x) s =
      .next (s.onTeam t.uid (fun u => { u with run := .parked .yield, aux := [1, id, 0, tgt.toNat] }))) ∧
    (∀ l, x.bit 23 = false → s.latch? t.core t.launch x.a.code.toNat = some l → (if l.phase then 1 else 0) ≠ b →
      exec (.yield x) s = .next (goTo s t tgt)) ∧
    (∀ l, x.bit 23 = false → s.latch? t.core t.launch x.a.code.toNat = some l → (if l.phase then 1 else 0) = b →
      exec (.yield x) s = .next (s.onTeam t.uid (fun u =>
        { u with run := .parked .yield, aux := [0, x.a.code.toNat, b, tgt.toNat] })))) ∧
  (∀ core launch n a s l, s.latch? core launch n = some l →
    exec (.latchArrival core launch n a) s = .next (arriveAt s core launch n a)) ∧
  (∀ (l : Latch) (a : Nat), 0 < l.target →
    (l.count + a < l.target → l.arrive a = { l with count := l.count + a }) ∧
    (l.target ≤ l.count + a → l.count + a < 2 * l.target →
      l.arrive a = { l with phase := !l.phase, count := l.count + a - l.target }) ∧
    (2 * l.target ≤ l.count + a → l.arrive a = { l with phase := !l.phase, count := l.target - 1, ovr := true }))

/-- 09 R212, R222; 10 R229-R237: a scratch access within reach reads or writes scratch bytes; the tag instructions look up,
claim, evict and drop lines, answering a status in sD. A scratch address out of reach and a line of another context take
`prot`, a misaligned address `align`. That an `ldsp` binds its bytes when it issues is the model's reading (log 32, DEDUCED). -/
def Obligations.ScratchAccessesAndLinesAct : Prop :=
  (∀ x s t, Issues 0x4A 6 x s t →
    let as := (lanesOf (activeLanes t x)).map (fun l => (l, memAddr s t x (x.bit 14) false (x.f 16 15) (sextN 14 (x.f 13 0)) l))
    let n := x.ty.width / 8
    let out := as.filter (fun p => !scratchOk (s.core t.core) t.place t.ctx p.2 n)
    (∀ p ∈ as, canonical p.2 = true ∧ (x.bit 17 = false → p.2 % n = 0)) →
    (out = [] → as ≠ [] → (∀ p ∈ as, scratchHeld (s.core t.core) t.place t.ctx p.2 n = false) →
      exec (.ldsp x) s = .next (retire (((ctxAt (.ldsp x) 0x4A 6 (extLen x) x t).launch s (as.map (fun p =>
        { lane := p.1, addr := BitVec.ofNat 64 p.2, data := BitVec.ofNat 64 ((s.core t.core).scratch.num p.2 n),
          st := .ready [] })) [] [0] false).post (.accessResponse s.nextId)) t (extLen x))) ∧
    (as = [] → exec (.ldsp x) s = .next (retire s t (extLen x))) ∧
    (out ≠ [] → exec (.ldsp x) s = .next (takeTrap s t { trapHere t.pc (t.pc + BitVec.ofNat 64 (extLen x)) 0x05 0x0700 with
      addr := BitVec.ofNat 64 (lowest (out.map (fun p => p.2))), lanes := out.map (fun p => p.1) })) ∧
    (out = [] → (∃ p ∈ as, scratchHeld (s.core t.core) t.place t.ctx p.2 n = true) → exec (.ldsp x) s = .next s)) ∧
  (∀ x s t, Issues 0x4A 7 x s t →
    let as := (lanesOf (activeLanes t x)).map (fun l => (l, memAddr s t x (x.bit 14) false (x.f 16 15) (sextN 14 (x.f 13 0)) l))
    let n := x.ty.width / 8
    let out := as.filter (fun p => !scratchOk (s.core t.core) t.place t.ctx p.2 n)
    (∀ p ∈ as, canonical p.2 = true ∧ (x.bit 17 = false → p.2 % n = 0)) →
    let data (l : Nat) : Nat := if x.ty.wide then (t.lane x.d.toNat l).toNat + 2 ^ 32 * (t.lane (x.d.toNat + 1) l).toNat
      else (t.lane x.d.toNat l).toNat
    (out = [] → (∀ p ∈ as, scratchHeld (s.core t.core) t.place t.ctx p.2 n = false) →
      exec (.stsp x) s = .next (retire (as.foldl (fun s p =>
        s.onCore t.core (fun k => k.putScratch p.2 (leBytes n (data p.1)))) s) t (extLen x))) ∧
    (out ≠ [] → exec (.stsp x) s = .next (takeTrap s t { trapHere t.pc (t.pc + BitVec.ofNat 64 (extLen x)) 0x05 0x0700 with
      addr := BitVec.ofNat 64 (lowest (out.map (fun p => p.2))), lanes := out.map (fun p => p.1) })) ∧
    (out = [] → (∃ p ∈ as, scratchHeld (s.core t.core) t.place t.ctx p.2 n = true) → exec (.stsp x) s = .next s)) ∧
  (∀ x s t, Issues 0x4D 0 x s t → x.bit 18 = false →
    let ea := memAddr s t x (x.bit 14) false (x.f 16 15) (sextN 14 (x.f 13 0))
    let word (l : Nat) : Nat := match (s.core t.core).lines.find? (fun k => k.ctx = t.ctx && k.tag = tagBits (ea l) &&
        (k.st = .filling || k.st = .valid)) with
      | some k => k.num * 256 + ea l % 256
      | none => 2 ^ 32 - 1
    (∀ l ∈ servedLanes t x (x.bit 17), canonical (ea l) = true) →
    (x.bit 17 = true → exec (.tlook x) s = .next (retire (if t.go x.g x.neg then
      putScalar s t x.d (BitVec.ofNat 64 (word 0)) else s) t (extLen x))) ∧
    (x.bit 17 = false → exec (.tlook x) s = .next (retire (putLanes s t x false
      (fun l => if (activeLanes t x).getD l false then word l else 0) (laneTag 0x4D 0 t x)) t (extLen x)))) ∧
  (∀ x s t, Issues 0x4D 0 x s t → x.bit 18 = true →
    (t.go x.g x.neg = true → (srcScalar s t x x.a).toNat < 1536 → exec (.tlook x) s = .next (retire (putScalar s t x.d
      (BitVec.ofNat 64 (lineWord (s.core t.core) t.ctx (srcScalar s t x x.a).toNat))) t (extLen x))) ∧
    (t.go x.g x.neg = true → 1536 ≤ (srcScalar s t x x.a).toNat → exec (.tlook x) s =
      .next (takeTrap s t (trapHere t.pc (t.pc + BitVec.ofNat 64 (extLen x)) 0x05 0x0701))) ∧
    (t.go x.g x.neg = false → exec (.tlook x) s = .next (retire s t (extLen x)))) ∧
  ClaimOp .tfill 1 true ∧ ClaimOp .tset 3 false ∧
  (∀ x s t, Issues 0x4D 2 x s t → t.go x.g x.neg = true →
    let n := (srcScalar s t x x.a).toNat
    let say (s : State) (v : Nat) : State := putScalar s t x.d (BitVec.ofNat 64 (v + n * 2 ^ 16))
    let latch : Option (Nat × Nat) := if x.c.cls = .obj then some (t.launch, x.c.code.toNat) else none
    (lineBad (s.core t.core) t.ctx n = true → exec (.tevict x) s =
      .next (takeTrap s t (trapHere t.pc (t.pc + BitVec.ofNat 64 (extLen x)) 0x05 0x0701))) ∧
    (lineBad (s.core t.core) t.ctx n = false → lineOf (s.core t.core) n = none →
      exec (.tevict x) s = .next (retire (say s 3) t (extLen x))) ∧
    (∀ l, lineBad (s.core t.core) t.ctx n = false → lineOf (s.core t.core) n = some l →
      ((l.st = .filling ∨ l.st = .evicting) → exec (.tevict x) s = .next (retire (say s 2) t (extLen x))) ∧
      (l.st ≠ .filling → l.st ≠ .evicting → x.bit 0 = true → l.dirty = true →
        exec (.tevict x) s = .next (retire ((say (onLine s t.core n (fun l =>
          { l with st := .evicting, latch := latch, team := t.uid, seq := s.stepNo })) 0).post
          (.writebackComplete t.core n)) t (extLen x))) ∧
      (l.st ≠ .filling → l.st ≠ .evicting → (x.bit 0 && l.dirty) = false →
        exec (.tevict x) s = .next (retire (postArrival (say (freeLine s t.core n) 0) t.core latch) t (extLen x))))) ∧
  (∀ x s t, Issues 0x4D 4 x s t → t.go x.g x.neg = true →
    let a := if x.a.cls = .vec then 0 else (srcScalar s t x x.a).toNat
    let hit := (s.core t.core).lines.filter (fun l => l.ctx = t.ctx && lineIn l a (srcScalar s t x x.b).toNat)
    let gone := (hit.filter (fun l => l.st = .valid)).map (fun l => l.num)
    (hit.any (fun l => l.st = .filling) = false → exec (.tinv x) s = .next (retire (putScalar
      (s.onCore t.core (fun k => { k with lines := k.lines.filter (fun l => !gone.contains l.num) })) t x.d
      (BitVec.ofNat 64 gone.length)) t (extLen x))) ∧
    (hit.any (fun l => l.st = .filling) = true → exec (.tinv x) s = .next s)) ∧
  (∀ (x : Ext) (s : State) (t : Team), t.go x.g x.neg = false →
    (Issues 0x4D 1 x s t → exec (.tfill x) s = .next (retire s t (extLen x))) ∧
    (Issues 0x4D 2 x s t → exec (.tevict x) s = .next (retire s t (extLen x))) ∧
    (Issues 0x4D 3 x s t → exec (.tset x) s = .next (retire s t (extLen x))) ∧
    (Issues 0x4D 4 x s t → exec (.tinv x) s = .next (retire s t (extLen x))))

/-- 10 R230, R238, R232: FILL_COMPLETE copies the line's bytes from memory and makes it valid and clean; WRITEBACK_COMPLETE
stores them and frees the line; FILL_FAILURE frees the line and WRITEBACK_FAILURE keeps it valid and dirty, each
with an imprecise trap; POOL_USE_END writes the dirty lines of a context back and frees all of them. -/
def Obligations.LineTransfersFillAndWriteBack : Prop :=
  (∀ core n s l bs, lineOf (s.core core) n = some l → l.st = .filling → core < s.cores.length →
    lineBehind s core l = false → let s1 := tlbFill s core l.ctx (tagAddr l.tag)
    readVA s1 core l.ctx (tagAddr l.tag) 256 = .ok bs → ∃ s' l', exec (.fillComplete core n) s = .next s' ∧
      lineOf (s'.core core) n = some l' ∧ l'.st = .valid ∧ l'.dirty = false ∧ l'.tag = l.tag ∧ l'.ctx = l.ctx ∧
      (s'.core core).scratch = (s.core core).scratch.setBytes (256 * n) bs ∧ (∀ a, s'.mem.get a = s.mem.get a)) ∧
  (∀ core n cause s l t, lineOf (s.core core) n = some l → l.st = .filling → s.team? l.team = some t →
    core < s.cores.length → ∃ s' t', exec (.fillFailure core n cause) s = .next s' ∧ lineOf (s'.core core) n = none ∧
      s'.team? l.team = some t' ∧ ∃ p ∈ t'.pending, p.code = cause / 256 ∧ p.sub = cause % 256 * 256 + 1) ∧
  (∀ core n s l segs, lineOf (s.core core) n = some l → l.st = .evicting → core < s.cores.length →
    lineBehind s core l = false → let s1 := tlbFill s core l.ctx (tagAddr l.tag)
    piecesOf s1 core l.ctx .write (tagAddr l.tag) 256 = .ok segs → ∃ s', exec (.writebackComplete core n) s = .next s' ∧
      lineOf (s'.core core) n = none ∧
      s'.mem = s.mem.setAll ((segKeys segs).zip ((s.core core).scratch.bytes (256 * n) 256))) ∧
  (∀ core n cause s l t, lineOf (s.core core) n = some l → l.st = .evicting → s.team? l.team = some t →
    core < s.cores.length → ∃ s' l' t', exec (.writebackFailure core n cause) s = .next s' ∧
      lineOf (s'.core core) n = some l' ∧ l'.st = .valid ∧ l'.dirty = true ∧ (∀ a, s'.mem.get a = s.mem.get a) ∧
      s'.team? l.team = some t' ∧ ∃ p ∈ t'.pending, p.code = cause / 256 ∧ p.sub = cause % 256 * 256 + 1) ∧
  (∀ core ctx s, core < s.cores.length →
    (∀ l ∈ (s.core core).lines, l.ctx = ctx → l.st = .valid ∧ l.dirty = false) →
    (s.core core).copies.any (fun k => k.ctx = ctx && !k.held && k.ofPool (s.core core)) = false →
    ∃ s', exec (.poolUseEnd core ctx) s = .next s' ∧ (∀ l ∈ (s'.core core).lines, l.ctx ≠ ctx) ∧
      (∀ a, s'.mem.get a = s.mem.get a)) ∧
  (∀ core ctx s l, l ∈ (s.core core).lines → l.ctx = ctx → (l.st = .filling ∨ l.st = .evicting) →
    exec (.poolUseEnd core ctx) s = .next (s.post (.poolUseEnd core ctx)))

/-- 10 R239-R250: a copy from scratch or from words starts at once; one described in memory starts when its descriptor is read;
COPY_COMPLETE of a copy that may run moves its units in order and records the end word; `cpyq` answers the end word of
a copy that is over. That one event moves every unit and makes the arrival with the end is the model's choice (log 35, DESIGN CHOICE). -/
def Obligations.CopiesStartRunAndEnd : Prop :=
  CopyIssue .cpy 0 false ∧ CopyIssue .cpyg 1 true ∧
  (∀ x s t, Issues 0x4E 2 x s t → t.go x.g x.neg = true → copiesFull s t.core = false →
    let w (j : Nat) : Nat := (t.sval (x.a.code.toNat + j)).toNat
    exec (.cpyw x) s = .next (retire (startCopy s t x.d.toNat (wordCopy (w 0) (w 1) (w 2) (w 3) (latchCount s t)) none)
      t (extLen x))) ∧
  (∀ x s t, Issues 0x4E 3 x s t → t.go x.g x.neg = true →
    (s.core t.core).copies.any (fun k => k.id = (srcScalar s t x x.a).toNat) = false →
    exec (.cpyq x) s = .next (retire (putScalar s t x.d
      (match (s.core t.core).ended.find? (fun e => e.1 = (srcScalar s t x x.a).toNat) with
        | some (_, code, cause, idx) => BitVec.ofNat 64 (code + cause * 2 ^ 8 + idx * 2 ^ 32)
        | none => 6)) t (extLen x))) ∧
  (∀ core id s f t x r rs segs, s.flight? id = some f → s.team? f.team = some t → copyExt f.instr = some x →
    f.waits = [] → f.lanes = r :: rs → let va := offAddr x r.addr.toNat
    let s1 := tlbFill s core t.ctx va
    descBehind s1 t va = false → piecesOf s1 core t.ctx .read va 128 = .ok segs → exec (.copyDescriptorRead core id) s = .next (clearWait (endFlight
      (startCopy s1 t x.d.toNat (parseCopy ((segKeys segs).map (fun k => coreByte s1 core false k)) f.rows
        (latchCount s1 t)) f.rows) { f with lanes := [] }) id)) ∧
  (∀ core id s k e s1, (s.core core).copies.find? (fun c => c.id = id) = some k → k.held = false → k.desc.bad = false →
    copyEnv s core k = .ok e → copyOutside s core k e = false → copyWaits s core k e = false →
    copyBehind s core k = false → moveUnits core k e k.units s = (s1, none) →
    exec (.copyComplete core id) s = .next (endCopy s1 core k 0 0 0)) ∧
  (∀ core id s k e s1 code cause idx, (s.core core).copies.find? (fun c => c.id = id) = some k → k.held = false →
    k.desc.bad = false → copyEnv s core k = .ok e → copyOutside s core k e = false → copyWaits s core k e = false →
    copyBehind s core k = false → moveUnits core k e k.units s = (s1, some (.ended code cause idx)) →
    exec (.copyComplete core id) s = .next (endCopy s1 core k code cause idx)) ∧
  (∀ core k e u s t va bs, s.team? k.team = some t → k.dstLoc (s.core core) e u = .mem va → t.declares va bs.length = true →
    ∃ s', writeUnit s core k e u bs = .error (.ended 3 8 u) ∧ s' = s) ∧
  (∀ core id s k, (s.core core).copies.find? (fun c => c.id = id) = some k → k.held = false → k.desc.bad = true →
    exec (.copyComplete core id) s = .next (endCopy s core k 5 0 0))

/-- 14 R315-R318, R323, R327, R333: `asdecl` and `asclr` change one slot, `asqry` answers it, `asundo` moves the undo area. A
request that meets no held line is granted; one that does waits, with the younger holders wounded; when every slice
has granted, the slot is acquired. A page on the host or peer tier traps the access (R322); a range that fails for good leaves its
failure to the access (R205). -/
def Obligations.SetsAreDeclaredRequestedAndGranted : Prop :=
  (∀ x s t, Issues 0x52 0 x s t → t.go x.g x.neg = true →
    let b := (srcScalar s t x x.a).toNat
    let n := (srcScalar s t x x.b).toNat
    (∀ sl, t.sets[x.d.toNat]? = some sl → sl.st = .empty ∨ sl.st = .declared) →
    (t.task = none → exec (.asdecl x) s =
      .next (takeTrap s t (trapHere t.pc (t.pc + BitVec.ofNat 64 (extLen x)) 0x05 0x0812))) ∧
    (t.task.isSome → b % 64 = 0 → 0 < n → n % 64 = 0 → n ≤ 2 ^ 20 → canonical b = true →
      canonical ((b + n - 1) % 2 ^ 64) = true →
      exec (.asdecl x) s = .next (retire (s.onTeam t.uid (fun u => { u with
        task := u.task.map (fun k => { k with declared := true })
        sets := u.sets.modify x.d.toNat (fun _ =>
          { st := .declared, base := BitVec.ofNat 64 b, len := BitVec.ofNat 64 n }) })) t (extLen x)))) ∧
  (∀ x s t, Issues 0x52 1 x s t → t.go x.g x.neg = true →
    (∀ sl, t.sets[x.d.toNat]? = some sl → sl.st = .empty ∨ sl.st = .declared) →
    exec (.asclr x) s = .next (retire (s.onTeam t.uid (fun u => { u with
      sets := u.sets.modify x.d.toNat (fun _ => { st := .empty, base := 0, len := 0 }) })) t (extLen x))) ∧
  (∀ x s t, Issues 0x52 2 x s t → t.go x.g x.neg = true → let q := (srcScalar s t x x.a).toNat
    let say (v : Nat) : State := retire (putScalar s t x.d (BitVec.ofNat 64 v)) t (extLen x)
    (∀ sl, q < 8 → t.sets[q]? = some sl → exec (.asqry x) s = .next (say (match sl.st with
      | .empty => 0
      | .declared => sl.base.toNat % 2 ^ 57 / 64 * 64 + 1
      | .waiting => sl.base.toNat % 2 ^ 57 / 64 * 64 + 2
      | .acquired => sl.base.toNat % 2 ^ 57 / 64 * 64 + 3))) ∧
    (∀ sl, 8 ≤ q → q < 16 → t.sets[q - 8]? = some sl →
      exec (.asqry x) s = .next (say (if sl.st = .empty then 0 else sl.len.toNat))) ∧
    (∀ k, q = 16 → t.task = some k → exec (.asqry x) s = .next (say (k.restarts * 2 ^ 32 + undoCount s t))) ∧
    (16 < q → exec (.asqry x) s = .next (say 0))) ∧
  (∀ x s t, Issues 0x52 3 x s t → t.go x.g x.neg = true →
    let b := (srcScalar s t x x.a).toNat
    let n := (srcScalar s t x x.b).toNat
    let area (s : State) : State := s.onTeam t.uid (fun u =>
      { u with undob := BitVec.ofNat 64 b, undol := BitVec.ofNat 64 n })
    ∀ cnt, b % 64 = 0 → n % 64 = 0 → n ≤ 2 ^ 24 → undoRead s t = .ok cnt → (cnt = 0 ∨ 64 + 72 * cnt ≤ n) →
    (n = 0 → exec (.asundo x) s = .next (retire (area s) t (extLen x))) ∧
    (∀ s1, n ≠ 0 → t.undol = 0 → writeVA s t.core t.ctx b (leBytes 64 0) = .ok s1 →
      exec (.asundo x) s = .next (retire (area s1) t (extLen x))) ∧
    (∀ segs s1, n ≠ 0 → t.undol ≠ 0 → piecesOf s t.core t.ctx .read t.undob.toNat (64 + 72 * cnt) = .ok segs →
      let s0 := applyAll s (writesOn s t.core t.uid (segKeys segs) false)
      writeVA s0 t.core t.ctx b (homeBytes s0 segs) = .ok s1 →
      exec (.asundo x) s = .next (retire (area (l1Drop s1 t.core)) t (extLen x)))) ∧
  (∀ u k s t sl task segs, s.team? u = some t → t.sets[k]? = some sl → t.task = some task → sl.st = .waiting →
    piecesOf s t.core t.ctx .read sl.base.toNat sl.len.toNat = .ok segs → farAddr sl.base.toNat segs = none →
    let ls := lineKeys segs
    let mine := s.hasps.filter (fun h => h.team = u && h.slot = k)
    (∀ h ∈ mine, h.granted = true) →
    (∀ sc, (slicesOf s ls).find? (fun x => !mine.any (fun h => h.slice = x)) = some sc → .setGrant sc ∉ s.agenda →
      exec (.setRequestArrival u k) s = .next (settleHasp s
        { slice := sc, age := task.age, team := u, slot := k, lines := linesHomed s ls sc, granted := false })) ∧
    ((∀ sc ∈ slicesOf s ls, ∃ h ∈ mine, h.slice = sc) → t.run = .parked .setWait →
      ∃ s' t', exec (.setRequestArrival u k) s = .next s' ∧ s'.team? u = some t' ∧ t'.run = .running ∧
        (t'.sets[k]?).map (fun y => y.st) = some .acquired ∧ s'.hasps = s.hasps)) ∧
  (∀ u k s t sl task, s.team? u = some t → t.sets[k]? = some sl → t.task = some task → sl.st = .waiting →
    t.run = .parked .setWait →
    let back (aux : Team → List Nat) : State :=
      ((releaseHasps s u (fun h => h.slot = k)).onTeam u (fun v => { v with
        sets := v.sets.modify k (fun y => { y with st := .declared }) })).onTeam u (fun v =>
          { v with run := .running, aux := aux v })
    (∀ segs va t', piecesOf s t.core t.ctx .read sl.base.toNat sl.len.toNat = .ok segs →
      farAddr sl.base.toNat segs = some va → (back (fun _ => [])).team? u = some t' →
      exec (.setRequestArrival u k) s = .next (fetchTrap (back (fun _ => [])) t' 0x05 0x0813 va)) ∧
    (∀ code cause, piecesOf s t.core t.ctx .read sl.base.toNat sl.len.toNat = .error (.fail code cause) →
      exec (.setRequestArrival u k) s = .next (back (fun v => [v.pc.toNat, k, code, cause * 256,
        failVA s t.core t.ctx .read sl.base.toNat sl.len.toNat, 0])))) ∧
  (∀ s h, let others := s.hasps.filter (fun x => !(x.slice = h.slice && x.team = h.team && x.slot = h.slot))
    (haspMeets s h.slice h.team h.lines = [] → (haspHeld s h.slice).length < haspCap →
      (settleHasp s h).hasps = others ++ [{ h with granted := true }] ∧
      .setRequestArrival h.team h.slot ∈ (settleHasp s h).agenda) ∧
    (haspMeets s h.slice h.team h.lines = [] → haspCap ≤ (haspHeld s h.slice).length →
      (settleHasp s h).hasps = others ++ [{ h with granted := false }]) ∧
    (haspMeets s h.slice h.team h.lines ≠ [] → (settleHasp s h).hasps = others ++ [{ h with granted := false }] ∧
      ∀ m ∈ haspMeets s h.slice h.team h.lines, h.age < m.age → ∀ v, s.team? m.team = some v → v.task.isSome →
        v.run ≠ .parked .apply → ∃ v', (settleHasp s h).team? m.team = some v' ∧ v'.wound = true)) ∧
  (∀ sc s, exec (.setGrant sc) s = .next ((sortBy (fun (a b : Hasp) => a.age ≤ b.age)
    (s.hasps.filter (fun h => h.slice = sc && !h.granted))).foldl settleHasp s))

/-- 15 R337, R344, R345, R350; 14 R326; 02 R53: a push goes to the longest-waiting popper, else to the tail of the ring, else it
waits; under an open set declaration it is deferred. A pop takes the entry at the head, else waits, or reports empty. That the queue
answers in an event of its own, and looks again at the pop of a team that waits for something else, is the model's reading (log 38). -/
def Obligations.QueuesHandEntriesOver : Prop :=
  (∀ x s t q, Issues 0x53 1 x s t → t.go x.g x.neg = true → (srcScalar s t x x.a).toNat < 65536 →
    s.queue? (srcScalar s t x x.a).toNat = some q → q.ctx = t.ctx →
    let e := (List.range 4).map (fun j => t.sval (x.b.code.toNat + j))
    (t.defers = false → exec (.qpush x) s = .next ((startPush s
        { id := 0, queue := q.num, entry := e, team := t.uid, kind := .qpush, nb := x.bit 0, dst := x.d.toNat, len := 0 }).onTeam t.uid (fun u =>
        { u with run := .parked .qpush, aux := [s.nextId, (t.pc + BitVec.ofNat 64 (extLen x)).toNat] }))) ∧
    (∀ k, t.defers = true → t.task = some k → k.deferred.length < 16 → exec (.qpush x) s = .next (retire (putScalar
      (s.onTeam t.uid (fun u => { u with task := u.task.map (fun k =>
        { k with deferred := k.deferred ++ [.push 0 q.num e] }) })) t x.d 0) t (extLen x)))) ∧
  PopOp .qpop id extLen ∧ PopOp .qpopShort (fun y => shortOne y .sc .b64) shortLen ∧
  (∀ x s t q, Issues 0x53 5 x s t → t.go x.g x.neg = true → (srcScalar s t x x.a).toNat < 65536 →
    s.queue? (srcScalar s t x x.a).toNat = some q → q.ctx = t.ctx →
    let v := if x.f 1 0 = 0 then (q.tail - q.head).toNat else if x.f 1 0 = 1 then 2 ^ q.lcap
      else if x.f 1 0 = 2 then q.poppers.length
      else 1 + 2 * (if q.isLaunch then 1 else 0) + 4 * (if q.ovf then 1 else 0)
    exec (.qinfo x) s = .next (retire (putScalar s t x.d (BitVec.ofNat 64 v)) t (extLen x))) ∧
  (∀ id s m q, s.pushes.find? (fun m => m.id = id) = some m → pushReady s m = true → s.queue? m.queue = some q →
    q.isLaunch = false →
    (∀ u us t, q.poppers = u :: us → s.team? u = some t → t.run = .parked .qpop →
      ∃ s' t' k, exec (.queuePushArrival id) s = .next s' ∧ s'.team? u = some t' ∧ t'.run = .running ∧
        t'.task = some k ∧ k.entry = m.entry ∧ k.age = s.age ∧ s'.age = s.age + 1 ∧ s'.mem = s.mem) ∧
    (q.poppers = [] → (q.tail - q.head).toNat < 2 ^ q.lcap → ∃ s' q', exec (.queuePushArrival id) s = .next s' ∧
      s'.queue? m.queue = some q' ∧ q'.tail = q.tail + 1 ∧ q'.head = q.head ∧
      s'.mem = s.mem.setAll (cellsAt (physKey 0 (q.ring + 32 * (q.tail.toNat % 2 ^ q.lcap)))
        (m.entry.flatMap (fun w => leBytes 8 w.toNat)))) ∧
    (q.poppers = [] → 2 ^ q.lcap ≤ (q.tail - q.head).toNat → m.nb = false → ∃ s' q',
      exec (.queuePushArrival id) s = .next s' ∧ s'.queue? m.queue = some q' ∧ q'.pushers = q.pushers ++ [m] ∧
      s'.mem = s.mem)) ∧
  (∀ u s t q, s.team? u = some t → t.pop ≠ [] → s.queue? (t.pop.getD 0 0) = some q → u ∉ q.poppers →
    (0 < (q.tail - q.head).toNat → exec (.queuePopArrival u) s = .next (slotFreed (handOver
      (s.onQueue q.num (fun q => { q with head := q.head + 1 })) u
      (entryAt s.mem (physKey 0 (q.ring + 32 * (q.head.toNat % 2 ^ q.lcap))))) q.num)) ∧
    (q.tail = q.head → t.pop.getD 2 0 = 1 → exec (.queuePopArrival u) s = .next (s.setTeam (popEmpty t))) ∧
    (q.tail = q.head → t.pop.getD 2 0 ≠ 1 → t.run = .running → exec (.queuePopArrival u) s =
      .next ((s.onTeam u (fun v => if v.run = .running then { v with run := .parked .qpop } else v)).onQueue q.num
        (fun q => { q with poppers := q.poppers ++ [u] }))) ∧
    (q.tail = q.head → t.pop.getD 2 0 ≠ 1 → t.run = .saved (some .qpop) → exec (.queuePopArrival u) s =
      .next ((s.onTeam u (fun v => if v.run = .running then { v with run := .parked .qpop } else v)).onQueue q.num
        (fun q => { q with poppers := q.poppers ++ [u] }))) ∧
    (q.tail = q.head → t.pop.getD 2 0 ≠ 1 → t.run ≠ .running → t.run ≠ .saved (some .qpop) →
      exec (.queuePopArrival u) s = .next (s.postOnce (.queuePopArrival u)))) ∧
  QueueTraps .qpop id extLen 0 ∧ QueueTraps .qpopShort (fun y => shortOne y .sc .b64) shortLen 0 ∧
  QueueTraps .qpush id extLen 1 ∧ QueueTraps .qwpush id extLen 2 ∧ QueueTraps .qinfo id extLen 5 ∧
  (∀ (x : Ext) (s : State) (t : Team) (q : Queue), (srcScalar s t x x.a).toNat < 65536 →
    s.queue? (srcScalar s t x x.a).toNat = some q → q.ctx = t.ctx → t.go x.g x.neg = true →
    let trap (sub : Nat) : Out := .next (takeTrap s t (trapHere t.pc (t.pc + BitVec.ofNat 64 (extLen x)) 0x0E sub))
    (Issues 0x53 0 x s t → q.isLaunch = true → exec (.qpop x) s = trap 2) ∧
    (∀ k, Issues 0x53 1 x s t → t.defers = true → t.task = some k → 16 ≤ k.deferred.length →
      exec (.qpush x) s = trap 0x10))

/-- 14 R326, R327; 15 R346-R349: a task that declared nothing ends at once; else, when its own accesses are over, the commit
releases its sets and performs the deferred operations in order. A counter that was 1 fires its successor's entry. The traps at issue
follow R343, R346 and R349. That the wait of a `tend` in a handler counts what the frame has captured is the model's reading (log 38). -/
def Obligations.TasksEndAndCountersCount : Prop :=
  TendOp .tend id extLen ∧ TendOp .tendShort (fun y => shortBare y 0 0) shortLen ∧
  (∀ u s t, s.team? u = some t → (t.run = .parked .apply ∨ t.run = .saved (some .apply)) →
    ∀ s1 t1 k, commitSets s t = .ok s1 → pushing s1 u = false → s1.team? u = some t1 → t1.task = some k →
      (∀ d ds, k.deferred = d :: ds → exec (.tendCommit u) s = .next (commitNext s1 t1 d)) ∧
      (k.deferred = [] → usesAbsent s1 t1 = none →
        exec (.tendCommit u) s = .next (commitDone (dropUses s1 t1) t1))) ∧
  (∀ x s t k, Issues 0x53 4 x s t → t.go x.g x.neg = true →
    let base := if x.a.cls = .vec then 0 else (srcScalar s t x x.a).toNat
    let ea := offAddr x base
    canonical ea = true → ea % 64 = 0 → counterAt s t ea = .key k → FreshIds s → outstanding s t.uid < outstandingCap →
    (t.defers = false → ∃ s' f, exec (.dcdec x) s = .next (retire s' t (extLen x)) ∧ s'.flight? s.nextId = some f ∧
      f.instr = .dcdec x ∧ f.waits = lsWaits s t.uid 3 ∧ f.lanes.map (fun r => r.addr) = [BitVec.ofNat 64 base] ∧
      .dcdecApply s.nextId ∈ s'.agenda ∧ s'.mem = s.mem) ∧
    (∀ task, t.defers = true → t.task = some task → task.deferred.length < 16 → exec (.dcdec x) s = .next (retire (putScalar
      (deferOp (tlbFill s t.core t.ctx ea) t.uid (.dec (BitVec.ofNat 64 ea))) t x.d 0) t (extLen x)))) ∧
  (∀ id s f t x r rs k, s.flight? id = some f → s.team? f.team = some t → f.instr = .dcdec x → f.lanes = r :: rs →
    f.waits = [] → f.withdrawn = false → (∀ l ∈ f.lanes, l.st ≠ .faulted) → counterAt s t (offAddr x r.addr.toNat) = .key k →
    writesOn s t.core t.uid ((List.range 64).map (fun i => k + i)) true = [] →
    let c := sextN 32 (s.mem.num k 4)
    let q := s.mem.num (k + 4) 2
    let own := (s.queue? q).any (fun y => y.ctx = t.ctx)
    let fl := s.mem.num (k + 6) 2
    ∃ s', exec (.dcdecApply id) s = .next s' ∧ s'.flight? id = none ∧
      s'.mem = s.mem.setAll (cellsAt k (leBytes 4 (patN 32 (c - 1)) ++ leBytes 2 q ++
        leBytes 2 (if c = 1 ∧ own = true then fl ||| 2 else if c ≤ 1 then fl ||| 1 else fl))) ∧
      (t.s.length = 128 → x.d.toNat < 128 → ∃ t', s'.team? f.team = some t' ∧ t'.sval x.d.toNat =
        (if c = 1 then (if own = true then 1 else 3) else if c ≤ 0 then 2 else 0)) ∧
      (c = 1 → own = true → ∃ m ∈ s'.pushes, m.queue = q ∧ m.entry = entryAt s'.mem (k + 32) ∧ m.kind = .counter)) ∧
  (∀ x s t q, Issues 0x53 2 x s t → t.go x.g x.neg = true → (srcScalar s t x x.a).toNat < 65536 →
    s.queue? (srcScalar s t x x.a).toNat = some q → q.ctx = t.ctx →
    let k := x.c.code.toNat
    let src := (t.sval k).toNat
    let dst := (t.sval (k + 1)).toNat
    let n := (t.sval (k + 2)).toNat
    let e := (List.range 4).map (fun j => t.sval (x.b.code.toNat + j))
    0 < n → n ≤ 4096 → scratchOk (s.core t.core) t.place t.ctx src n = true → canonical dst = true →
    canonical ((dst + (n - 1)) % 2 ^ 64) = true → t.declares dst n = false →
    (t.defers = true → t.listFull = false) → outstanding s t.uid < outstandingCap → scratchHeld (s.core t.core) t.place t.ctx src n = false →
    let s1 := (ctxAt (.qwpush x) 0x53 2 (extLen x) x t).launch s
      [{ lane := 0, addr := srcScalar s t x x.a, data := t.sval x.b.code.toNat, st := .todo }] []
      ([0, src, n, 0, if t.defers then 1 else 0, q.num, dst] ++ e.map (fun w => w.toNat)) true
    exec (.qwpush x) s = .next (retire ((if t.defers then
      putScalar (deferOp s1 t.uid (.push s.nextId q.num e)) t x.d 0 else s1).post (.qwpushPayloadDone s.nextId)) t
      (extLen x))) ∧
  (∀ id s f t x s1 off, s.flight? id = some f → s.team? f.team = some t → f.instr = .qwpush x →
    payloadBehind s t (f.aux.getD 6 0) (f.aux.getD 2 0) = false →
    payload t.core t.ctx (f.aux.getD 6 0) (f.aux.getD 2 0) (payloadByte t.core f) 4 s (f.aux.getD 3 0) = (s1, off, none) →
    exec (.qwpushPayloadDone id) s = .next (payloadWritten s1 t f x.d.toNat (x.bit 0))) ∧
  (∀ (x : Ext) (s : State) (t : Team), Issues 0x53 4 x s t → t.go x.g x.neg = true →
    let base := if x.a.cls = .vec then 0 else (srcScalar s t x x.a).toNat
    let ea := offAddr x base
    let trap (code sub addr : Nat) : Out := .next (takeTrap s t
      { trapHere t.pc (t.pc + BitVec.ofNat 64 (extLen x)) code sub with addr := BitVec.ofNat 64 addr })
    (canonical ea = false → exec (.dcdec x) s = trap 0x06 0x0400 ea) ∧
    (canonical ea = true → ea % 64 ≠ 0 → exec (.dcdec x) s = trap 0x04 0x0100 ea) ∧
    (∀ e, canonical ea = true → ea % 64 = 0 → leafFor s t.core t.ctx ea = some e → pteTier e ≠ 0 →
      exec (.dcdec x) s = trap 0x0E 4 0) ∧
    (∀ k task, canonical ea = true → ea % 64 = 0 → counterAt s t ea = .key k → t.defers = true → t.task = some task →
      16 ≤ task.deferred.length →
      exec (.dcdec x) s = .next (takeTrap (tlbFill s t.core t.ctx ea) t
        (trapHere t.pc (t.pc + BitVec.ofNat 64 (extLen x)) 0x0E 0x10)))) ∧
  (∀ (x : Ext) (s : State) (t : Team) (q : Queue), Issues 0x53 2 x s t → t.go x.g x.neg = true →
    (srcScalar s t x x.a).toNat < 65536 → s.queue? (srcScalar s t x x.a).toNat = some q → q.ctx = t.ctx →
    let k := x.c.code.toNat
    let src := (t.sval k).toNat
    let dst := (t.sval (k + 1)).toNat
    let n := (t.sval (k + 2)).toNat
    let len := n ≠ 0 ∧ n ≤ 4096
    let here := scratchOk (s.core t.core) t.place t.ctx src n = true
    let there := canonical dst = true ∧ canonical ((dst + (n - 1)) % 2 ^ 64) = true
    let trap (code sub addr : Nat) : Out := .next (takeTrap s t
      { trapHere t.pc (t.pc + BitVec.ofNat 64 (extLen x)) code sub with addr := BitVec.ofNat 64 addr })
    (¬ len → exec (.qwpush x) s = trap 0x0E 3 0) ∧ (len → ¬ here → exec (.qwpush x) s = trap 0x05 0x0701 src) ∧
    (len → here → ¬ there → exec (.qwpush x) s = trap 0x06 0x0401 dst) ∧
    (len → here → there → t.declares dst n = true → exec (.qwpush x) s = trap 0x05 0x0801 dst) ∧
    (len → here → there → t.declares dst n = false → t.defers = true → t.listFull = true →
      exec (.qwpush x) s = trap 0x0E 0x10 0))

/-- 13 R289-R291, R301: a lease request queues; the head of the queue is granted when the lease is free, and its parked team goes
on; 4,096 idle cycles beside a queue end a lease. The pintle of a pair passes to the partner, whose wait ends. -/
def Obligations.LeasesAndPintlePass : Prop :=
  (∀ x s t, Issues 0x50 0 x s t → t.go x.g x.neg = true → let n := (srcScalar s t x x.a).toNat
    (1 ≤ n → n ≤ 4096 → exec (.mlease x) s = .next ((requestLease
      (if (s.core t.core).lease.holder = some (leaseKey t) then
        onLease s t.core (fun l => { l with holder := none, count := 0 }) else s) t n n true).onTeam t.uid (fun u =>
      { u with run := .parked .lease, aux := [(t.pc + BitVec.ofNat 64 (extLen x)).toNat] }))) ∧
    (n = 0 ∨ 4096 < n → exec (.mlease x) s =
      .next (takeTrap s t (trapHere t.pc (t.pc + BitVec.ofNat 64 (extLen x)) 0x09 0x0002)))) ∧
  (∀ x s t, Issues 0x50 1 x s t → t.go x.g x.neg = true → t.core < s.cores.length →
    ∃ s', exec (.mrelease x) s = .next (retire s' t (extLen x)) ∧ (s'.core t.core).lease.holder ≠ some (leaseKey t) ∧
      (∀ y ∈ (s'.core t.core).lease.lost, y.key ≠ leaseKey t) ∧
      (s'.core t.core).lease.queue = (s.core t.core).lease.queue ∧ s'.teams = s.teams ∧ s'.mem = s.mem ∧
      ((s.core t.core).lease.holder ≠ some (leaseKey t) →
        (s'.core t.core).lease.holder = (s.core t.core).lease.holder ∧
        (s'.core t.core).lease.count = (s.core t.core).lease.count)) ∧
  (∀ x s t, Issues 0x50 2 x s t → t.go x.g x.neg = true →
    (t.leaf = 2 → exec (.pintle x) s =
      .next (takeTrap s t (trapHere t.pc (t.pc + BitVec.ofNat 64 (extLen x)) 0x09 0x0003))) ∧
    (t.leaf ≠ 2 → pintleOf s t ≠ t.leaf → exec (.pintle x) s = .next (retire s t (extLen x))) ∧
    (t.leaf ≠ 2 → pintleOf s t = t.leaf → storesOpen s t.uid = false →
      exec (.pintle x) s = .next (retire (passPintle s t (1 - t.leaf)) t (extLen x)))) ∧
  (∀ x s t, Issues 0x50 3 x s t → t.go x.g x.neg = true → t.leaf ≠ 2 →
    (pintleOf s t = t.leaf → exec (.pnwait x) s = .next (retire s t (extLen x))) ∧
    (pintleOf s t ≠ t.leaf → exec (.pnwait x) s = .next (s.onTeam t.uid (fun u =>
      { u with run := .parked .pnwait, aux := [(t.pc + BitVec.ofNat 64 (extLen x)).toNat] })))) ∧
  (∀ x s t, Issues 0x50 3 x s t → t.go x.g x.neg = true → t.leaf = 2 → exec (.pnwait x) s =
    .next (takeTrap s t (trapHere t.pc (t.pc + BitVec.ofNat 64 (extLen x)) 0x09 0x0003))) ∧
  (∀ s t leaf, (t.core < s.cores.length → pintleOf (passPintle s t leaf) t = leaf) ∧
    ∀ v u pc, s.team? v = some u → u.core = t.core → leaseKey u = leaseKey t → u.leaf = leaf → u.run = .parked .pnwait →
      u.aux = [pc] → (passPintle s t leaf).team? v = some { u with run := .running, pc := BitVec.ofNat 64 pc, aux := [] }) ∧
  (∀ core s r rest, core < s.cores.length → (s.core core).lease.holder = none → (s.core core).lease.queue = r :: rest →
    ∃ s', exec (.leaseGrant core) s = .next s' ∧ (s'.core core).lease.holder = some r.key ∧
      (s'.core core).lease.count = r.count ∧ (s'.core core).lease.queue = rest ∧
      (∀ t pc, s.team? r.team = some t → t.core = core → leaseKey t = r.key → t.run = .parked .lease → t.aux = [pc] →
        r.isMlease = true → s'.team? r.team = some { t with run := .running, aux := [], pc := BitVec.ofNat 64 pc }) ∧
      ∀ v t, s.team? v = some t → t.core = core → leaseKey t = r.key → t.run = .parked .lease → t.aux = [] →
        s'.team? v = some { t with run := .running }) ∧
  (∀ core s k, core < s.cores.length → (s.core core).lease.holder = some k → (s.core core).lease.queue ≠ [] →
    ((s.core core).lease.since + 4096 ≤ s.clk.toNat → ∃ s' y, exec (.leaseIdleExpiry core) s = .next s' ∧
      (s'.core core).lease.holder = none ∧ y ∈ (s'.core core).lease.lost ∧ y.key = k ∧
      y.count = (s.core core).lease.count ∧ (s'.core core).lease.queue = (s.core core).lease.queue ∧
      .leaseGrant core ∈ s'.agenda) ∧
    (s.clk.toNat < (s.core core).lease.since + 4096 →
      exec (.leaseIdleExpiry core) s = .next (s.postOnce (.leaseIdleExpiry core))))

/-- 13 R294-R305; 04 R102: a reservation takes a free range of the allotment, a put writes into it, a free ends when the engine
and the copies are done with it. An operation that passes its checks under the lease is accepted, counts the lease down
and, when executed, adds its products to each element. The traps follow R299. -/
def Obligations.ReservationsFeedTheEngine : Prop :=
  (∀ x s t, Issues 0x50 4 x s t → t.go x.g x.neg = true →
    let off := (srcScalar s t x x.a).toNat
    let sz := (srcScalar s t x x.b).toNat
    let d := if x.c.cls = .vec then 0 else (srcScalar s t x x.c).toNat
    let base := (s.bind t).obase + off / 256
    ((s.rcd? t.core x.d.toNat).isSome → exec (.obres x) s =
      .next (takeTrap s t (trapHere t.pc (t.pc + BitVec.ofNat 64 (extLen x)) 0x0A (0x0200 + x.d.toNat)))) ∧
    (s.rcd? t.core x.d.toNat = none → off % 256 = 0 → sz % 256 = 0 → sz ≠ 0 → off + sz ≤ 256 * (s.bind t).osize →
      d % 64 = 0 → d < sz → ((x.ty = .e4m3 ∨ x.ty = .e5m2 ∨ x.ty = .e2m1) ↔ x.f 3 2 ≠ 0) →
      (∀ r ∈ (s.core t.core).obres, ¬ (r.base < base + sz / 256 ∧ base < r.base + r.size)) →
      exec (.obres x) s = .next (retire (s.onCore t.core (fun k => { k with
        obres := { num := x.d.toNat, own := t.place, lay := x.f 1 0, bl := x.f 3 2, ty := x.ty.code, doff := d / 64,
                   size := sz / 256, base := base, ctx := t.ctx, hdr := hdrOf s t } :: k.obres
        obuf := if x.bit 4 then k.obuf.filter (fun y => !(256 * base ≤ y.1 && y.1 < 256 * base + sz)) else k.obuf }))
        t (extLen x))) ∧
    (let trap (sub : Nat) : Out := .next (takeTrap s t (trapHere t.pc (t.pc + BitVec.ofNat 64 (extLen x)) 0x0A (sub + x.d.toNat)))
     let good := off % 256 = 0 ∧ sz % 256 = 0 ∧ sz ≠ 0 ∧ off + sz ≤ 256 * (s.bind t).osize ∧ d % 64 = 0 ∧ d < sz
     let fits := (x.ty = .e4m3 ∨ x.ty = .e5m2 ∨ x.ty = .e2m1) ↔ x.f 3 2 ≠ 0
     s.rcd? t.core x.d.toNat = none →
      (¬ good → exec (.obres x) s = trap 0x0300) ∧ (good → ¬ fits → exec (.obres x) s = trap 0x0600) ∧
      (good → fits → (∃ r ∈ (s.core t.core).obres, r.base < base + sz / 256 ∧ base < r.base + r.size) →
        exec (.obres x) s = trap 0x0100))) ∧
  (∀ (x : Ext) (s : State) (t : Team), t.go x.g x.neg = true →
    let trap (sub : Nat) : Out := .next (takeTrap s t (trapHere t.pc (t.pc + BitVec.ofNat 64 (extLen x)) 0x0A (sub + x.d.toNat)))
    (s.rcd? t.core x.d.toNat = none → (Issues 0x50 5 x s t → exec (.obfree x) s = trap 0x0400) ∧
      (Issues 0x50 6 x s t → exec (.obput x) s = trap 0x0400)) ∧
    (∀ r, s.rcd? t.core x.d.toNat = some r → (r.ctx ≠ t.ctx ∨ r.hdr ≠ hdrOf s t) →
      (Issues 0x50 5 x s t → exec (.obfree x) s = trap 0x0500) ∧ (Issues 0x50 6 x s t → exec (.obput x) s = trap 0x0500)) ∧
    (∀ r, rcdCheck s t x.d.toNat = .ok r → Issues 0x50 6 x s t →
      let lb := x.ty.width / 8
      let b := (srcScalar s t x x.b).toNat
      let fits := x.ty = .b32 ∨ x.ty.elem.code = r.ty
      (¬ fits → exec (.obput x) s = trap 0x0600) ∧
      (fits → b % lb ≠ 0 → exec (.obput x) s = .next (takeTrap s t
        { trapHere t.pc (t.pc + BitVec.ofNat 64 (extLen x)) 0x04 0x0102 with addr := BitVec.ofNat 64 b })) ∧
      (fits → b % lb = 0 → ((∃ l ∈ lanesOf (activeLanes t x), 256 * r.size < b + lb * (1 + l)) ∨ 256 * r.size < b) →
        exec (.obput x) s = trap 0x0300))) ∧
  (∀ x s t r, Issues 0x50 5 x s t → t.go x.g x.neg = true → rcdCheck s t x.d.toNat = .ok r →
    exec (.obfree x) s = .next (retire (((ctxAt (.obfree x) 0x50 5 (extLen x) x t).launch s
      [{ lane := 0, addr := BitVec.ofNat 64 x.d.toNat, data := 0, st := .ready [] }] [] [0] true).post
      (.obfreeRelease t.core x.d.toNat)) t (extLen x))) ∧
  (∀ core n s r f x t, s.rcd? core n = some r → engineReads s core (256 * r.base) (256 * r.size) = false →
    copyWrites s core n = false → f ∈ s.flights → f.instr = .obfree x → x.d.toNat = n → s.team? f.team = some t →
    t.core = core → ∃ s', exec (.obfreeRelease core n) s = .next s' ∧ s'.rcd? core n = none ∧
      s'.flight? f.id = none ∧ s'.mem = s.mem) ∧
  (∀ x s t r, Issues 0x50 6 x s t → t.go x.g x.neg = true → rcdCheck s t x.d.toNat = .ok r →
    let lb := x.ty.width / 8
    let b := (srcScalar s t x x.b).toNat
    let ls := lanesOf (activeLanes t x)
    (x.ty = .b32 ∨ x.ty.elem.code = r.ty) → b % lb = 0 → (∀ l ∈ ls, b + lb * (1 + l) ≤ 256 * r.size) → b ≤ 256 * r.size →
    (∀ top, engineReads s t.core (256 * r.base + b) top = false) →
    exec (.obput x) s = .next (retire (ls.foldl (fun s l => s.onCore t.core (fun k => { k with
      obuf := k.obuf.setBytes (256 * r.base + b + lb * l) (leBytes lb (srcVal s t x x.a x.ty.width l)) })) s)
      t (extLen x))) ∧
  MmaOp .mma 0 false ∧ MmaOp .mmas 1 true ∧ MmaTraps .mma 0 false ∧ MmaTraps .mmas 1 true ∧
  (∀ core s m rest, (s.core core).engine = m :: rest → exec (.mmaExecute core) s = .next (setTile
    (s.onCore core (fun k => { k with engine := rest })) core m.tile ((s.tile core m.tile).mma (s.core core).obuf m))) ∧
  (∀ (T : Tile) (ob : Memory) (m : Mma) (k i j : Nat), pairK m.x.elem m.y.elem = some k → i < 64 → j < 64 →
    (T.mma ob m).anc = T.anc ∧ (T.mma ob m).get (64 * i + j) =
      ((m.x.scaled ob k i m.ea).zip (m.y.scaled ob k j m.eb)).foldl (fun e p => e.enter T.anc p.1 p.2)
        (T.get (64 * i + j)))

/-- 13 R306-R312; 04 R101, R105, R106: on a tile that no earlier operation of the team still works on, `acz` clears and anchors,
`acanch` moves every element, `acadd` adds lanes, `accmp` compares, `resolve` rounds. `acst` captures the tile and writes
its image; `acld` replaces the tile by an image. -/
def Obligations.TilesAreClearedReadAndStored : Prop :=
  (∀ x s t, Issues 0x51 2 x s t → t.go x.g x.neg = true → tileBusy s t x.d.toNat = false →
    let a := (srcScalar s t x x.a).toInt
    (-256 ≤ a → a ≤ 255 → exec (.acz x) s =
      .next (retire (setTile s t.core (tileIx s t x.d.toNat) { anc := a, elems := [] }) t (extLen x))) ∧
    (a < -256 ∨ 255 < a → exec (.acz x) s =
      .next (takeTrap s t (trapHere t.pc (t.pc + BitVec.ofNat 64 (extLen x)) 0x05 0x1102)))) ∧
  (∀ x s t, Issues 0x51 8 x s t → t.go x.g x.neg = true → tileBusy s t x.d.toNat = false →
    let a := (srcScalar s t x x.a).toInt
    let T := s.tile t.core (tileIx s t x.d.toNat)
    (-256 ≤ a → a ≤ 255 → exec (.acanch x) s = .next (retire (setTile s t.core (tileIx s t x.d.toNat)
      { anc := a, elems := T.elems.map (fun e => e.move T.anc a) }) t (extLen x))) ∧
    (a < -256 ∨ 255 < a → exec (.acanch x) s =
      .next (takeTrap s t (trapHere t.pc (t.pc + BitVec.ofNat 64 (extLen x)) 0x05 0x1102)))) ∧
  (∀ x s t, Issues 0x51 7 x s t → tileBusy s t x.d.toNat = false →
    let T := s.tile t.core (tileIx s t x.d.toNat)
    let sp := tileSpan s t x (x.f 7 0 + 1)
    (sp = [] → exec (.acadd x) s = .next (retire s t (extLen x))) ∧
    (sp ≠ [] → exec (.acadd x) s = .next (retire (setTile s t.core (tileIx s t x.d.toNat) { T with
      elems := sp.foldl (fun es p => es.modify p.2.2 (fun e => e.addFV T.anc
        (elemFV x.ty ((t.lane (x.a.code.toNat + p.1) p.2.1).toNat % 2 ^ x.ty.width)))) T.all }) t (extLen x)))) ∧
  (∀ x s t, Issues 0x51 4 x s t → tileBusy s t x.a.code.toNat = false →
    let T := s.tile t.core (tileIx s t x.a.code.toNat)
    let res (j l : Nat) : Option Bool := ((tileSpan s t x (x.f 5 3 + 1)).find? (fun p => p.1 = j && p.2.1 = l)).map
      (fun p => condF (x.f 2 0) ((T.get p.2.2).value T.anc) (elemFV x.ty (srcVal s t x x.c 32 l)))
    exec (.accmp x) s = .next (retire (s.onTeam t.uid (fun u => (List.range (x.f 5 3 + 1)).foldl (fun u j =>
      u.writeP (x.d.toNat + j) ((List.range t.width).map (fun l => (res j l).isSome))
        ((List.range t.width).map (fun l => (res j l).getD false))) u)) t (extLen x))) ∧
  (∀ x s t, Issues 0x51 3 x s t →
    ((activeLanes t x).any id = false → exec (.resolve x) s = .next (retire s t (extLen x))) ∧
    ((activeLanes t x).any id = true → tileBusy s t x.a.code.toNat = false → tileSpan s t x (x.f 7 0 + 1) = [] →
      exec (.resolve x) s = .next (retire s t (extLen x))) ∧
    ((activeLanes t x).any id = true → tileBusy s t x.a.code.toNat = false → FreshIds s →
      tileSpan s t x (x.f 7 0 + 1) ≠ [] →
      let T := s.tile t.core (tileIx s t x.a.code.toNat)
      ∃ s' f, exec (.resolve x) s = .next (retire s' t (extLen x)) ∧ s'.flight? s.nextId = some f ∧
        .resolveComplete s.nextId ∈ s'.agenda ∧ f.dst = x.d.toNat ∧ f.team = t.uid ∧
        quads (f.aux.drop 1) = (tileSpan s t x (x.f 7 0 + 1)).map (fun p =>
          (p.1, p.2.1, (T.get p.2.2).resolve T.anc x.ty (t.mode x.rnd) t.ftz)))) ∧
  (∀ id s f t, s.flight? id = some f → s.team? f.team = some t → let rs := quads (f.aux.drop 1)
    let all := rs.foldl (fun a r => a ||| r.2.2.2) 0
    let s1 := endFlight (s.onTeam f.team (fun u =>
      let v := (List.range f.dnum).foldl (fun v j => v.fillV (f.dst + j)
        ((rs.filter (fun r => r.1 = j)).map (fun r => (r.2.1, BitVec.ofNat 32 r.2.2.1))) .gen) u
      { v with status := orFlags v.status all })) f
    (enabled f.status all = 0 → exec (.resolveComplete id) s = .next s1) ∧
    (enabled f.status all ≠ 0 → exec (.resolveComplete id) s = .next (settle (raise s1 f.team f.again
      { trapHere f.pc f.npc 0x0D (enabled f.status all) with
        skip := true, op := id
        lanes := uniq ((rs.filter (fun r => enabled f.status r.2.2.2 ≠ 0)).map (fun r => r.2.1)) }) f.team))) ∧
  (∀ (x : Ext) (s : State) (t : Team), t.go x.g x.neg = true →
    let ea := offAddr x (if x.a.cls = .vec then 0 else (srcScalar s t x x.a).toNat)
    let trap (code sub : Nat) : Out := .next (takeTrap s t
      { trapHere t.pc (t.pc + BitVec.ofNat 64 (extLen x)) code sub with addr := BitVec.ofNat 64 ea })
    (canonical ea = false → (Issues 0x51 5 x s t → exec (.acst x) s = trap 0x06 0x0402) ∧
      (Issues 0x51 6 x s t → exec (.acld x) s = trap 0x06 0x0402)) ∧
    (canonical ea = true → ea % 64 ≠ 0 → (Issues 0x51 5 x s t → exec (.acst x) s = trap 0x04 0x0102) ∧
      (Issues 0x51 6 x s t → exec (.acld x) s = trap 0x04 0x0102)) ∧
    (canonical ea = true → ea % 64 = 0 → t.declares ea imageSize = true → Issues 0x51 5 x s t →
      exec (.acst x) s = trap 0x05 0x0802)) ∧
  (∀ x s t, Issues 0x51 5 x s t → t.go x.g x.neg = true → tileBusy s t x.d.toNat = false → FreshIds s →
    let base := if x.a.cls = .vec then 0 else (srcScalar s t x x.a).toNat
    let ea := offAddr x base
    let T := s.tile t.core (tileIx s t x.d.toNat)
    canonical ea = true → ea % 64 = 0 → t.declares ea imageSize = false → ∃ s' f,
      exec (.acst x) s = .next (retire s' t (extLen x)) ∧ s'.flight? s.nextId = some f ∧ f.team = t.uid ∧
      f.lanes.map (fun r => r.addr) = [BitVec.ofNat 64 ea] ∧ .acstComplete s.nextId ∈ s'.agenda ∧
      (anchorOk T.anc = true → tileOfSnap f.snap = T)) ∧
  (∀ x s t, Issues 0x51 6 x s t → t.go x.g x.neg = true → tileBusy s t x.d.toNat = false → FreshIds s →
    let ea := offAddr x (if x.a.cls = .vec then 0 else (srcScalar s t x x.a).toNat)
    canonical ea = true → ea % 64 = 0 → ∃ s' f, exec (.acld x) s = .next (retire s' t (extLen x)) ∧
      s'.flight? s.nextId = some f ∧ f.instr = .acld x ∧ f.team = t.uid ∧
      f.lanes.map (fun r => r.addr) = [BitVec.ofNat 64 ea] ∧ .acldComplete s.nextId ∈ s'.agenda) ∧
  (∀ id s s1 f t r, s.flight? id = some f → s.team? f.team = some t → f.lanes = [r] → imageBehind s f = false →
    writeVA s t.core t.ctx r.addr.toNat ((tileOfSnap f.snap).image id) = .ok s1 →
    exec (.acstComplete id) s = .next (imageDone s1 f t.core)) ∧
  (∀ id s f t r x bs T, s.flight? id = some f → s.team? f.team = some t → f.instr = .acld x → f.lanes = [r] →
    imageBehind s f = false → readVA s t.core t.ctx r.addr.toNat imageSize = .ok bs → tileOfImage bs = some T →
    exec (.acldComplete id) s = .next (imageDone (setTile s t.core (tileIx s t x.d.toNat) T) f t.core))

/-- 16 R359-R370: a walk reads the chain's snapshot, moves by 16 times the entry of the cell that it stands in, field by field,
and its lane ends with the position (`hwalk`) or the sample (`hld`) and the status word of R365. That a lane without a fault is read in
an event after the one that tests its pages is the model's choice (log 10). -/
def Obligations.WalksFollowTheFields : Prop :=
  WalkIssue .hld 0 ∧ WalkIssue .hwalk 1 ∧
  (∀ (k : Walker) s fuel i w h c e, let d := snapChain k.snap
    let n := cPhys d i
    let w1 : Walked := { k.note s w n h (c.2 * FHdr.gw h + c.1) e with
      x := w.x + 16 * sextN 16 (e % 2 ^ 16), y := w.y + 16 * sextN 16 (bitsN e 31 16),
      stat := w.stat && e.testBit 49, edge := e.testBit 50, conf := min w.conf (bitsN e 39 32), steps := w.steps + 1 }
    i < k.depth → k.sh = false → k.hdr s n = .ok h → FHdr.bad h (cStride d) = false → cellOf h w.x w.y = some c →
    k.entry s n h (c.2 * FHdr.gw h + c.1) (cField d n + 64 + 8 * (c.2 * FHdr.gw h + c.1)) = .ok e →
    bitsN e 47 40 = FHdr.gen h → e.testBit 48 = true → w1.x.natAbs < 2 ^ 28 → w1.y.natAbs < 2 ^ 28 →
    k.steps s (fuel + 1) i w = k.steps s fuel (i + 1) w1) ∧
  (∀ (k : Walker) s n cell h va, snapHdr k.a s k.snap n = .ok h → (FHdr.isSealed h = false ∨
      ∀ l ∈ (s.core k.a.core).fields, ¬ (l.ctx = k.a.ctx ∧ l.chain = k.num ∧ l.field = n)) →
    k.hdr s n = .ok h ∧ k.entry s n h cell va = k.a.rd s va 8) ∧
  (∀ ev id s f t r s1, (ev = .walkComplete id ∧ r.st = .todo ∨ ev = .walkWaitRetest id ∧ r.st = .waitW) →
    s.flight? id = some f → s.team? f.team = some t → f.lanes = [r] → f.snap ≠ [] → trapsOnStatus f.instr = false →
    let s0 := if r.st = .waitW then unwait s id else s
    let r0 := { r with st := .todo }
    let f0 := { f with lanes := [r0] }
    pathBehind s0 f isField isMfst = false → tumbleLane s0 t f0 r0 = .done s1 →
    ∃ s', exec ev s = .next s' ∧ s'.flight? id = some { f with lanes := [{ r with st := .ready [] }] } ∧
      (∀ e, evOf ev = some e → e ∈ s'.agenda) ∧ s'.mem = s.mem ∧ (s'.team? f.team).map (fun u => (u.v, u.s, u.p)) = some (t.v, t.s, t.p)) ∧
  (∀ ev id s f t r, (ev = .walkComplete id ∨ ev = .walkWaitRetest id) → r.st = .ready [] →
    s.flight? id = some f → s.team? f.team = some t → f.lanes = [r] → f.snap ≠ [] →
    (∀ n < 3, r.lane < (t.vreg (f.dst + n)).lanes.length) →
    pathBehind s f isField isMfst = false →
    let walk (x : Ext) (must : Bool) := (walkerOf t f x r).walk s t must (x.f 1 0) r.addr r.pos
    (∀ x w pl, f.instr = .hwalk x → walk x false = .ok (.ok w, pl) → ∃ s' t', exec ev s = .next s' ∧
      s'.flight? id = none ∧ s'.team? f.team = some t' ∧ s'.mem = s.mem ∧
      t'.lane f.dst r.lane = BitVec.ofInt 32 w.x ∧ t'.lane (f.dst + 1) r.lane = BitVec.ofInt 32 w.y ∧
      t'.lane (f.dst + 2) r.lane = BitVec.ofNat 32 (w.word 0)) ∧
    (∀ x w c, f.instr = .hld x → x.f 6 5 = 0 → walk x true = .ok (.code c w, .none) → ∃ s' t', exec ev s = .next s' ∧
      s'.flight? id = none ∧ s'.team? f.team = some t' ∧ s'.mem = s.mem ∧
      t'.lane f.dst r.lane = 0 ∧ t'.lane (f.dst + 1) r.lane = BitVec.ofNat 32 (w.word c)) ∧
    (∀ x w g sc v, f.instr = .hld x → x.f 6 5 = 0 → walk x true = .ok (.ok w, .ok g sc) →
      sampleAt t.agent (fieldFill (walkerOf t f x r) s w.seen) g (x.f 3 2) (x.bit 4 && !w.edge) clampIdx
        (Int.fdiv w.x (2 ^ sc : Nat)) (Int.fdiv w.y (2 ^ sc : Nat)) = .ok (.inl v) → ∃ s' t', exec ev s = .next s' ∧
      s'.flight? id = none ∧ s'.team? f.team = some t' ∧ s'.mem = s.mem ∧
      t'.lane f.dst r.lane = BitVec.ofNat 32 v ∧ t'.lane (f.dst + 1) r.lane = BitVec.ofNat 32 (w.word 0)))

/-- 16 R366, R367, R371-R376: the changes of a chain go to its home slice and are applied there in one event each; a query
answers from the descriptor. That later changes wait while a `chadv` drains, and that `mfinv` leaves header and entries as they are, is
the model's choice (log 41). -/
def Obligations.ChainsAreWrittenSealedAndAdvanced : Prop :=
  (∀ x s t, Issues 0x54 2 x s t → (activeLanes t x).any id = true → (srcScalar s t x x.a).toNat < 256 →
    outstanding s t.uid < outstandingCap → exec (.mfst x) s = .next (retire (((ctxAt (.mfst x) 0x54 2 (extLen x) x t).launch s
      ((lanesOf (activeLanes t x)).map (fun l =>
      { lane := l, addr := BitVec.ofNat 64 (srcScalar s t x x.a).toNat, data := BitVec.ofNat 64 (srcVal s t x x.b 32 l),
        st := .todo, pos := [(t.lane x.c.code.toNat l).toNat, (t.lane (x.c.code.toNat + 1) l).toNat] })) []
      ([0, (srcScalar s t x x.a).toNat, x.f 2 0] ++ declaredOf t) false).post
      (.mfstApply s.nextId)) t (extLen x))) ∧
  (∀ id s f t x r d h s1, s.flight? id = some f → s.team? f.team = some t → f.instr = .mfst x → f.lanes = [r] →
    r.st = .todo → pathBehind s f isField isMfst = false → chainBusy s t.ctx (f.aux.getD 1 0) 0 = false →
    let i := f.aux.getD 2 0
    let cx := r.data.toNat % 2 ^ 16
    let cy := r.data.toNat / 2 ^ 16 % 2 ^ 16
    let lo := r.pos.getD 0 0
    let hi := r.pos.getD 1 0
    let at_ := cField d (cPhys d i) + 64 + 8 * (cy * FHdr.gw h + cx)
    t.agent.bytes s (chainAt t (f.aux.getD 1 0)) 256 = .ok d → chainOk d = true → i + 1 < cNslot d →
    cState d (cPhys d i) = 1 → t.agent.rd s (cField d (cPhys d i)) 64 = .ok h → FHdr.bad h (cStride d) = false →
    FHdr.isSealed h = false → cx < FHdr.gw h → cy < FHdr.gh h → meetsRanges at_ 8 (f.aux.drop 3) = false →
    t.agent.wr s at_ 8 (lo + 2 ^ 32 * (hi % 256) + 2 ^ 40 * FHdr.gen h + 2 ^ 48 * bitsN hi 18 16) = .ok s1 →
    ∃ s', exec (.mfstApply id) s = .next s' ∧ s'.mem = s1.mem ∧ s'.flight? id = none) ∧
  (∀ id s f t x r d h, s.flight? id = some f → s.team? f.team = some t → f.instr = .mfst x → f.lanes = [r] →
    r.st = .todo → f.again = false → pathBehind s f isField isMfst = false → chainBusy s t.ctx (f.aux.getD 1 0) 0 = false →
    let i := f.aux.getD 2 0
    let cx := r.data.toNat % 2 ^ 16
    let cy := r.data.toNat / 2 ^ 16 % 2 ^ 16
    let at_ := cField d (cPhys d i) + 64 + 8 * (cy * FHdr.gw h + cx)
    t.agent.bytes s (chainAt t (f.aux.getD 1 0)) 256 = .ok d → chainOk d = true → i + 1 < cNslot d →
    cState d (cPhys d i) = 1 → t.agent.rd s (cField d (cPhys d i)) 64 = .ok h → FHdr.bad h (cStride d) = false →
    FHdr.isSealed h = false → cx < FHdr.gw h → cy < FHdr.gh h → meetsRanges at_ 8 (f.aux.drop 3) = true →
    ∃ s' t', exec (.mfstApply id) s = .next s' ∧ s'.mem = s.mem ∧ s'.flight? id = none ∧ s'.team? f.team = some t' ∧
      ∃ p ∈ t'.pending, p.code = 0x05 ∧ p.sub = 0x0803 ∧ p.lanes = [r.lane] ∧ p.imprecise = true) ∧
  (∀ id s f t r, s.flight? id = some f → s.team? f.team = some t → f.lanes = [r] → r.st = .todo →
    (∀ e, (e = .mfsealApply id ∨ e = .chadvApply id) → chainBusy s t.ctx (f.aux.getD 1 0) f.id = true →
      ∃ s', exec e s = .next s' ∧ s'.mem = s.mem ∧ s'.flight? id = some f ∧ ∀ e', evOf e = some e' → e' ∈ s'.agenda) ∧
    (chainBusy s t.ctx (f.aux.getD 1 0) 0 = true → ∃ s', exec (.mfstApply id) s = .next s' ∧ s'.mem = s.mem ∧
      s'.flight? id = some f ∧ .mfstApply id ∈ s'.agenda) ∧
    (∀ e d, (e = .mfsealApply id ∨ e = .chadvApply id) → chainBusy s t.ctx (f.aux.getD 1 0) f.id = false → f.again = false →
      t.agent.bytes s (chainAt t (f.aux.getD 1 0)) 256 = .ok d → chainOk d = false → ∃ s' t', exec e s = .next s' ∧
        s'.mem = s.mem ∧ s'.flight? id = none ∧ s'.team? f.team = some t' ∧
        t'.due = some { trapHere f.pc f.npc 0x05 0x0902 with op := f.id })) ∧
  ChainOp .mfseal 3 (fun s t x n _ => if mfstOn s t.uid n ∨ outstandingCap ≤ outstanding s t.uid then s else retire (chainChange s t x .mfseal 3 n (x.f 2 0)
    (.mfsealApply s.nextId)) t (extLen x)) ∧
  ChainOp .chadv 4 (fun s t x n _ => if outstandingCap ≤ outstanding s t.uid then s else retire (chainChange s t x .chadv 4 n 0 (.chadvApply s.nextId)) t (extLen x)) ∧
  ChainOp .mfshort 5 (fun s t x n _ => retire (((ctxAt (.mfshort x) 0x54 5 (extLen x) x t).launch s [] [] [0, n, 0]
    false).post (.mfshortComplete s.nextId)) t (extLen x)) ∧
  (∀ x s t d s1 s2, Issues 0x54 6 x s t → t.go x.g x.neg = true → let n := (srcScalar s t x x.a).toNat
    let j := x.f 2 0
    n < 256 → t.agent.bytes s (chainAt t n) 256 = .ok d → chainOk d = true → chainBusy s t.ctx n 0 = false → j < cNslot d →
    t.agent.wr s (chainAt t n + 18) 2 (withState (numAt d 18 2) (cPhys d j) 0) = .ok s1 →
    cutRecs t.agent s1 (chainAt t n) d (fun r => cLog d (r % 8) ≤ j && j ≤ cLog d (bitsN r 6 4)) [0, 1, 2, 3] = .ok s2 →
    exec (.mfinv x) s = .next (retire (fieldDrop s2 t.ctx n) t (extLen x))) ∧
  (∀ x s t d, Issues 0x54 6 x s t → t.go x.g x.neg = true → let n := (srcScalar s t x x.a).toNat
    n < 256 → t.agent.bytes s (chainAt t n) 256 = .ok d → chainOk d = true →
    (chainBusy s t.ctx n 0 = true → exec (.mfinv x) s = .next s) ∧
    (chainBusy s t.ctx n 0 = false → cNslot d ≤ x.f 2 0 → exec (.mfinv x) s = .next (retire s t (extLen x)))) ∧
  (∀ x s t d, Issues 0x54 7 x s t → t.go x.g x.neg = true → let n := (srcScalar s t x x.a).toNat
    let say (s : State) (v : Nat) : State := retire (putScalar s t x.d (BitVec.ofNat 64 v)) t (extLen x)
    n < 256 → t.agent.bytes s (chainAt t n) 256 = .ok d → chainOk d = true →
    (x.f 1 0 = 0 → exec (.chqry x) s = .next (say s (cNslot d + 16 * cHead d + 128 +
      (List.range 8).foldl (fun m i => m + cState d (cPhys d i) * 4 ^ i * 2 ^ 8) 0))) ∧
    (x.f 1 0 = 1 → exec (.chqry x) s = .next (say s (numAt d 8 8))) ∧
    (x.f 1 0 = 2 → exec (.chqry x) s = .next (say s ((List.range 4).foldl (fun m q => m + recByte d q * 256 ^ q) 0))) ∧
    (x.f 1 0 = 3 → (numAt d 0 1).testBit 1 = false → exec (.chqry x) s = .next (say s 0)) ∧
    (∀ s1, x.f 1 0 = 3 → (numAt d 0 1).testBit 1 = true → t.agent.wr s (chainAt t n) 1 (numAt d 0 1 - 2) = .ok s1 →
      exec (.chqry x) s = .next (say s1 1))) ∧
  (∀ id s f t r d, s.flight? id = some f → s.team? f.team = some t → f.lanes = [r] → r.st = .todo →
    t.agent.bytes s (chainAt t (f.aux.getD 1 0)) 256 = .ok d → chainOk d = true →
    chainBusy s t.ctx (f.aux.getD 1 0) f.id = false →
    let before (s1 : State) : Nat := if f.aux.getD 2 0 = 1 then f.aux.getD 3 0 else s1.nextId
    (∀ s1, sealField t.agent s d (cPhys d (f.aux.getD 2 0)) = .ok s1 →
      ∃ s', exec (.mfsealApply id) s = .next s' ∧ s'.mem = s1.mem ∧ s'.flight? id = none) ∧
    (∀ s1 s2, sealAll t.agent s d = .ok s1 → walksOn s1 t.ctx (f.aux.getD 1 0) (before s1) = false →
      advance t.agent s1 (chainAt t (f.aux.getD 1 0)) d = .ok s2 →
      ∃ s', exec (.chadvApply id) s = .next s' ∧ s'.mem = s2.mem ∧ s'.flight? id = none) ∧
    (∀ s1, sealAll t.agent s d = .ok s1 → walksOn s1 t.ctx (f.aux.getD 1 0) (before s1) = true →
      ∃ s', exec (.chadvApply id) s = .next s' ∧ s'.mem = s1.mem ∧ (s'.flight? id).isSome ∧ .chadvApply id ∈ s'.agenda)) ∧
  (∀ a s d p h, a.rd s (cField d p) 64 = .ok h → sealField a s d p =
    (if FHdr.isSealed h then .ok s else a.wr s (cField d p) 8 (h % 2 ^ 64 + 2 ^ 40))) ∧
  (∀ id s f t x, s.flight? id = some f → s.team? f.team = some t → f.instr = .mfshort x →
    let va := chainAt t (f.aux.getD 1 0)
    chainBusy s t.ctx (f.aux.getD 1 0) id = false →
    (∀ s1 st keep, f.aux.getD 2 0 = 0 → shortStart t.agent s va x = .ok (s1, some st, keep) →
      exec (.mfshortComplete id) s = .next (shortDone s1 t f st)) ∧
    (∀ s1 keep, f.aux.getD 2 0 = 0 → shortStart t.agent s va x = .ok (s1, none, keep) → exec (.mfshortComplete id) s =
      .next ((s1.setFlight { f with aux := [0, f.aux.getD 1 0, 1] ++ keep }).post (.mfshortComplete id))) ∧
    (∀ s1 st, f.aux.getD 2 0 ≠ 0 → shortEnd t.agent s va x (f.aux.drop 3) = .ok (s1, st) →
      exec (.mfshortComplete id) s = .next (shortDone s1 t f st)))

/-- 17 R380-R396: a lookup answers the address of a mapped position, or a cause; the other instructions answer a status and
change the tables of the map in memory. What `kvshare` does is said check by check (R390). -/
def Obligations.SequenceMapsAnswerAndChange : Prop :=
  (∀ x s t k, Issues 0x55 0 x s t → (activeLanes t x).any id = true →
    let m := (srcScalar s t x x.a).toNat
    readMap t.agent s t.seqb.toNat m = .ok (.ok k) → outstanding s t.uid < outstandingCap → exec (.kvx x) s = .next (retire
      (((ctxAt (.kvx x) 0x55 0 (extLen x) x t).launch s ((lanesOf (activeLanes t x)).map (fun l =>
        { lane := l, addr := BitVec.ofNat 64 (srcVal s t x x.b 32 l + 2 ^ 32 * srcVal s t x x.c 32 l), data := 0,
          st := .todo })) [] [0, 0, m] false).post (.kvxComplete s.nextId)) t (extLen x))) ∧
  (∀ ev id s f t x r k, (ev = .kvxComplete id ∧ r.st = .todo ∨ ev = .kvxWaitRetest id ∧ r.st = .waitW) →
    s.flight? id = some f → s.team? f.team = some t → f.instr = .kvx x → f.lanes = [r] →
    (∀ n < 3, r.lane < (t.vreg (f.dst + n)).lanes.length) →
    readMap t.agent s t.seqb.toNat (f.aux.getD 2 0) = .ok (.ok k) →
    let n := r.addr.toNat % 2 ^ 32
    let p := r.addr.toNat / 2 ^ 32
    let answers (addr cause : Nat) : Prop := ∃ s' t', exec ev s = .next s' ∧ s'.flight? id = none ∧
      s'.team? f.team = some t' ∧ (t'.lane f.dst r.lane).toNat + 2 ^ 32 * (t'.lane (f.dst + 1) r.lane).toNat = addr % 2 ^ 64 ∧
      t'.lane (f.dst + 2) r.lane = BitVec.ofNat 32 cause ∧ (t.s.length = 128 → x.f 6 0 + r.lane / 64 < 128 →
        (t'.sval (x.f 6 0 + r.lane / 64)).getLsbD (r.lane % 64) = decide (2 ≤ cause))
    (k.nseq ≤ n → answers 0 1) ∧
    (∀ e, n < k.nseq → readSeq t.agent s k n = .ok e → e.cut = false → e.len ≤ p → answers 0 1) ∧
    (∀ e b, n < k.nseq → readSeq t.agent s k n = .ok e → e.cut = false → p < e.len → readBlk t.agent s e (p / 32) = .ok b →
      b.bad = false → (b.st = .absent → answers 0 2) ∧ (b.st = .evicted → answers 0 3) ∧
      (b.st = .pending → x.f 7 7 = 0 → answers 0 4) ∧
      (∀ s1, b.st = .mapped → (k.num, b.num) ∈ t.uses →
        t.agent.wr (if r.st = .waitW then unwait s id else s) (k.ptab + 16 * b.num) 8 s.clk.toNat = .ok s1 →
        answers (k.pool + 32 * k.slotb * b.num + k.slotb * (p % 32)) 0))) ∧
  MapOp .kvmap 1 (fun s t x => kvmapOp (x.f 1 0) (srcVal s t x x.b 32 0) (srcVal s t x x.c 32 0)) ∧
  MapOp .kvshare 2 (fun _ t x => kvshareOp ((t.sval x.b.code.toNat).toNat % 2 ^ 32)
    ((t.sval (x.b.code.toNat + 1)).toNat % 2 ^ 32) ((t.sval (x.b.code.toNat + 2)).toNat % 2 ^ 32)) ∧
  MapOp .kvlen 3 (fun s t x => kvlenOp (x.bit 0) (srcVal s t x x.b 32 0) (srcVal s t x x.c 32 0)) ∧
  MapOp .kvpin 4 (fun s t x => kvpinOp (srcVal s t x x.b 32 0) (srcVal s t x x.c 32 0)) ∧
  (∀ x s t, Issues 0x55 5 x s t → t.go x.g x.neg = true →
    let m := (srcScalar s t x x.a).toNat
    let say (s1 : State) (v : Nat) : State := retire (retestAll (putScalar s1 t x.d (BitVec.ofNat 64 v))) t (extLen x)
    (∀ code, readMap t.agent s t.seqb.toNat m = .ok (.bad code) → exec (.kvunpin x) s =
      .next (takeTrap s t (trapHere t.pc (t.pc + BitVec.ofNat 64 (extLen x)) 0x05 code))) ∧
    (∀ k, readMap t.agent s t.seqb.toNat m = .ok (.ok k) →
      let found := unpinAt (srcVal s t x x.b 32 0) (srcVal s t x x.c 32 0) t.agent s k
      (∀ s1 v, found = .ok (s1, .error v) → exec (.kvunpin x) s = .next (say s1 v)) ∧
      (∀ s1 b, found = .ok (s1, .ok b) →
        (∀ s2 v, x.bit 0 = true → dropPin t.agent s1 k b.num = .ok (s2, v) → exec (.kvunpin x) s = .next (say s2 v)) ∧
        (x.bit 0 = false → (k.num, b.num) ∉ t.uses → exec (.kvunpin x) s = .next (say s1 4)) ∧
        (∀ s2, x.bit 0 = false → (k.num, b.num) ∈ t.uses → dropUse t.agent s1 t.seqb.toNat k.num b.num = .ok s2 →
          exec (.kvunpin x) s = .next (say (s2.onTeam t.uid (fun u => { u with uses := u.uses.erase (k.num, b.num) })) 0))))) ∧
  (∀ (a : Agent) (s : State) (k : KMap) (n p : Nat),
    (k.nseq ≤ n → (∀ op, kvmapOp op n p a s k = .ok (s, 3)) ∧ kvpinOp n p a s k = .ok (s, 3) ∧
      unpinAt n p a s k = .ok (s, .error 3) ∧
      (n ≠ 0xFFFFFFFF → kvlenOp false n p a s k = .ok (s, 2 ^ 64 - 1))) ∧
    (∀ e b, n < k.nseq → readSeq a s k n = .ok e → e.valid = true → p / 32 < e.cap → readBlk a s e (p / 32) = .ok b →
      unpinAt n p a s k = .ok (if b.bad then setErr a s k else s, if b.st = .mapped then .ok b else .error 4)) ∧
    (∀ e, n < k.nseq → n ≠ 0xFFFFFFFF → readSeq a s k n = .ok e → e.valid = true →
      (e.cut = false → kvlenOp false n p a s k = .ok (s, e.len)) ∧ (32 * e.cap < p → kvlenOp true n p a s k = .ok (s, 1)) ∧
      (∀ s1, p ≤ 32 * e.cap → a.wr s (e.at_ + 8) 4 p = .ok s1 → kvlenOp true n p a s k = .ok (s1, 0))) ∧
    (∀ e b, n < k.nseq → readSeq a s k n = .ok e → e.valid = true → p / 32 < e.cap → readBlk a s e (p / 32) = .ok b →
      b.bad = false → (b.st ≠ .mapped → kvpinOp n p a s k = .ok (s, 4)) ∧
      (b.st = .mapped → kvmapOp 0 n p a s k = .ok (s, 0) ∧ kvmapOp 1 n p a s k = .ok (s, 0)) ∧
      (∀ c s1, b.st = .mapped → a.rd s (k.ptab + 16 * b.num + 10) 2 = .ok c → c ≠ 65535 →
        a.wr s (k.ptab + 16 * b.num + 10) 2 (c + 1) = .ok s1 → kvpinOp n p a s k = .ok (s1, 0)))) ∧
  ShareSays

/-- 17 R391, R394, R395: KV_MOVE_COMPLETE and EVICTION_COMPLETE copy the block and make the table changes; the victim queue
is evicted when its detent expires, or entry by entry when firmware confirms; a veto drops an entry, a reorder permutes. -/
def Obligations.TheHubMovesAndEvictsBlocks : Prop :=
  (∀ ev id s v k s1 s2, (ev = .kvMoveComplete id ∨ ev = .evictionComplete id) →
    s.hub.moves.find? (fun v => v.id = id) = some v → v.kind < 3 →
    readMap (hubAgent v.ctx) s (seqbOf s v.ctx) v.map = .ok (.ok k) → moveCopy s k v = .ok s1 → moveDone s1 k v = .ok s2 →
    ∃ s', exec ev s = .next s' ∧ s'.mem = s2.mem ∧ s'.hub.moves = s.hub.moves.filter (fun w => w.id ≠ v.id)) ∧
  (∀ s (k : KMap) (v : KvMove) bs, let a := hubAgent v.ctx
    let copied (dst : Nat) : Prop := ∀ s1, a.put s dst bs = .ok s1 → ∃ s2, moveCopy s k v = .ok s2 ∧ s2.mem = s1.mem
    (v.kind = 0 → a.bytes s (k.slotAt v.slot) v.bytes = .ok bs → copied (k.blockAt v.block)) ∧
    (v.kind = 1 → a.bytes s (k.blockAt v.srcBlock) v.bytes = .ok bs → copied (k.blockAt v.block)) ∧
    (v.kind = 2 → a.bytes s (k.blockAt v.block) v.bytes = .ok bs → copied (k.slotAt v.slot))) ∧
  (∀ s, s.hub.updating.contains 4 = true → exec .detentExpiry s = .next (s.postOnce .detentExpiry)) ∧
  (∀ s, s.hub.updating.contains 4 = false → s.hub.victims ≠ [] →
    (s.clk.toNat < s.hub.detent → exec .detentExpiry s = .next (s.postOnce .detentExpiry)) ∧
    (s.hub.detent ≤ s.clk.toNat → exec .detentExpiry s = .next ((s.hub.victims.filter (fun v => !v.confirmed)).foldl evict
      (s.onHub (fun h => { h with victims := [], detent := 0 }))))) ∧
  (∀ s, s.hub.updating.contains 4 = false → s.hub.victims = [] → exec .detentExpiry s = .next s) ∧
  (∀ i s, s.hub.updating.contains 4 = false → (s.hub.victims[i]? = none → exec (.victimConfirm i) s = .next s) ∧
    (∀ v, s.hub.victims[i]? = some v → v.confirmed = true → exec (.victimConfirm i) s = .next s) ∧
    (∀ v, s.hub.victims[i]? = some v → v.confirmed = false → exec (.victimConfirm i) s = .next (evict
      (s.onHub (fun h => { h with victims := h.victims.modify i (fun v => { v with confirmed := true }) })) v))) ∧
  (∀ i s, s.hub.updating.contains 4 = false → ∃ s', exec (.victimVeto i) s = .next s' ∧ s'.hub.victims = s.hub.victims.eraseIdx i ∧
    s' = { s with hub := { s.hub with victims := s.hub.victims.eraseIdx i } }) ∧
  (∀ order s, s.hub.updating.contains 4 = false → let n := s.hub.victims.length
    (order.length = n → (∀ i < n, i ∈ order) → exec (.victimReorder order) s = .next (s.onHub (fun h =>
      { h with victims := order.filterMap (fun i => h.victims[i]?) }))) ∧
    (order.length ≠ n ∨ (∃ i < n, i ∉ order) → exec (.victimReorder order) s = .next s)) ∧
  (∀ i order s, s.hub.updating.contains 4 = true → exec (.victimConfirm i) s = .next (s.postOnce (.victimConfirm i)) ∧
    exec (.victimVeto i) s = .next (s.postOnce (.victimVeto i)) ∧
    exec (.victimReorder order) s = .next (s.postOnce (.victimReorder order)))

/-- 18 R398-R408: on a valid surface the lanes of an access go to the sampler; SAMPLER_COMPLETE delivers the channels of each lane,
0 outside the surface, or starts the writes of the texels inside it. `sqry` answers fields of the descriptor. -/
def Obligations.SurfacesAreReadWrittenAndSampled : Prop :=
  (∀ mk sub, (mk = .sld ∧ sub = 0 ∨ mk = .samp ∧ sub = 2) → ∀ x s t g, Issues 0x56 sub x s t → (activeLanes t x).any id = true →
    readSurf t.agent s t.surfb.toNat (srcScalar s t x x.a).toNat = .ok (.ok g) → outstanding s t.uid < outstandingCap →
    exec (mk x) s = .next (retire (surfIssue mk sub x s t g) t (extLen x))) ∧
  (∀ x s t g, Issues 0x56 1 x s t → (activeLanes t x).any id = true →
    readSurf t.agent s t.surfb.toNat (srcScalar s t x x.a).toNat = .ok (.ok g) →
    (g.wr = false ∨ g.layout = 2 → exec (.sst x) s =
      .next (takeTrap s t (trapHere t.pc (t.pc + BitVec.ofNat 64 (extLen x)) 0x05 0x0B03))) ∧
    (let own := (lanesOf (activeLanes t x)).flatMap (fun l => ((sstTargets g x [lanePair t x.b.code.toNat l]).filter (fun a =>
        t.declares a.1 a.2)).map (fun a => (l, a.1)))
     g.wr = true → g.layout ≠ 2 → own ≠ [] → exec (.sst x) s = .next (takeTrap s t
        { trapHere t.pc (t.pc + BitVec.ofNat 64 (extLen x)) 0x05 0x0805 with
          addr := BitVec.ofNat 64 (lowest (own.map (fun p => p.2))), lanes := own.map (fun p => p.1) })) ∧
    (g.wr = true → g.layout ≠ 2 → (∀ l ∈ lanesOf (activeLanes t x),
        ∀ a ∈ sstTargets g x [lanePair t x.b.code.toNat l], t.declares a.1 a.2 = false) →
      outstanding s t.uid < outstandingCap → exec (.sst x) s = .next (retire (surfIssue .sst 1 x s t g) t (extLen x)))) ∧
  (∀ id s f t r g, s.flight? id = some f → s.team? f.team = some t → f.lanes = [r] → r.st = .todo →
    let a : Agent := { t.agent with surf := some r.addr.toNat }
    pathBehind s f isSurf isSst = false → flightSurf a s t f r = .ok (.ok g) →
    let answers (vs : List Nat) : Prop := (∀ m < vs.length, r.lane < (t.vreg (f.dst + m)).lanes.length) →
      ∃ s' t', exec (.samplerComplete id) s = .next s' ∧ s'.flight? id = none ∧ s'.team? f.team = some t' ∧
        s'.mem = s.mem ∧ ∀ m v, vs[m]? = some v → t'.lane (f.dst + m) r.lane = BitVec.ofNat 32 v
    (∀ w ∈ s.writes, w.team = t.uid → w.path = 5 → f.id ≤ w.id) →
    (∀ x vs, f.instr = .sld x → sldVals a s g (x.ty = .b32) (sextN 32 (r.data.toNat % 2 ^ 32))
      (sextN 32 (r.data.toNat / 2 ^ 32)) (chansOf x) = .ok (.inl vs) → answers vs) ∧
    (∀ x vs, f.instr = .samp x → sampVals a s g x r.data (chansOf x) = .ok (.inl vs) → answers vs)) ∧
  (∀ id s f t r g x, s.flight? id = some f → s.team? f.team = some t → f.lanes = [r] → r.st = .todo →
    let a : Agent := { t.agent with surf := some r.addr.toNat }
    pathBehind s f isSurf isSst = false → flightSurf a s t f r = .ok (.ok g) → f.instr = .sst x →
    let inside : Prop := 0 ≤ pairX r.data ∧ pairX r.data < g.width ∧ 0 ≤ pairY r.data ∧ pairY r.data < g.height
    (¬ inside → ∃ s', exec (.samplerComplete id) s = .next s' ∧ s'.flight? id = none ∧ s'.mem = s.mem ∧
      s'.writes.length = s.writes.length) ∧
    (∀ s1, inside → sstWrites t f g x r (chansOf x) s = .ok s1 → ∃ s', exec (.samplerComplete id) s = .next s' ∧
      s'.flight? id = none ∧ s'.mem = s.mem ∧
      s'.writes.map (fun w => (w.id, w.cells)) = s1.writes.map (fun w => (w.id, w.cells)))) ∧
  (∀ a s t (f : Flight) r (g : Surf), f.aux = 0 :: g.list → flightSurf a s t f r = .ok (.ok g)) ∧
  (∀ a s t (f : Flight) r, f.aux = [0] → flightSurf a s t f r = readSurf a s t.surfb.toNat r.addr.toNat) ∧
  (∀ a s (g : Surf) bits x y cs, (x < 0 ∨ (g.width : Int) ≤ x ∨ y < 0 ∨ (g.height : Int) ≤ y) →
    sldVals a s g bits x y cs = .ok (.inl (cs.map (fun _ => 0)))) ∧
  (∀ x s t, Issues 0x56 3 x s t → t.go x.g x.neg = true → let h := (srcScalar s t x x.a).toNat
    let say (v : Nat) : State := retire (putScalar s t x.d (BitVec.ofNat 64 v)) t (extLen x)
    (2 ^ 20 ≤ h → exec (.sqry x) s = .next (say 0)) ∧
    (∀ bs, h < 2 ^ 20 → t.agent.bytes s (t.surfb.toNat + 64 * h) 64 = .ok bs →
      (x.f 1 0 = 0 → exec (.sqry x) s = .next (say (numAt bs 16 2 + numAt bs 18 2 * 2 ^ 16 + numAt bs 1 1 * 2 ^ 32 +
        numAt bs 2 1 * 2 ^ 40 + numAt bs 0 1 % 4 * 2 ^ 48))) ∧
      (x.f 1 0 = 1 → exec (.sqry x) s = .next (say (numAt bs 24 8))) ∧
      (x.f 1 0 = 2 → exec (.sqry x) s = .next (say (numAt bs 20 4))) ∧
      (x.f 1 0 = 3 → exec (.sqry x) s = .next (say (numAt bs 32 8)))))

/-- 18 R410-R420: `binbeg` opens a pass, the emitting instructions add primitives in lane order, `binend` closes it and parks.
Each tile is taken up, its fragment entries pushed and answered by `fragout`, then composited and committed. That `tstat` shows a pass as open until its last tile has committed, and that a tile commits in one
event, is the model's choice (log 43). -/
def Obligations.PassesAreBinnedTiledAndCommitted : Prop :=
  (∀ x s t, Issues 0x57 0 x s t → t.go x.g x.neg = true →
    let va := offAddr x (if x.a.cls = .vec then 0 else (srcScalar s t x x.a).toNat)
    let die := dieOf t.core
    let id? := (List.range 16).find? (fun i => !s.passes.any (fun p => p.die = die && p.id = i && (p.isOpen || p.closing)))
    va % 128 = 0 →
    (readView t.agent s t.surfb.toNat va = .ok none → exec (.binbeg x) s =
      .next (takeTrap s t (trapHere t.pc (t.pc + BitVec.ofNat 64 (extLen x)) 0x05 0x0C02))) ∧
    (∀ v, readView t.agent s t.surfb.toNat va = .ok (some v) →
      (id? = none → exec (.binbeg x) s = .next (retire (putScalar s t x.d (BitVec.ofInt 64 (-1))) t (extLen x))) ∧
      (∀ i, id? = some i → exec (.binbeg x) s = .next (retire (putScalar { s with
        passes := s.passes.filter (fun p => !(p.die = die && p.id = i)) ++ [Pass.fresh die i t.ctx t.uid v] } t x.d
        (BitVec.ofNat 64 i)) t (extLen x))))) ∧
  PrimOp .primr 1 0 6 ∧ PrimOp .primt 2 1 8 ∧ PrimOp .prims 3 2 11 ∧
  PrimTraps .primr 1 ∧ PrimTraps .primt 2 ∧ PrimTraps .prims 3 ∧ BlendSays ∧ ResolveSays ∧ CommitSays ∧
  (∀ (x : Ext) (s : State) (t : Team), t.go x.g x.neg = true →
    let n := (srcScalar s t x x.a).toNat
    let trap (code sub : Nat) : Trap := trapHere t.pc (t.pc + BitVec.ofNat 64 (extLen x)) code sub
    let va := offAddr x (if x.a.cls = .vec then 0 else (srcScalar s t x x.a).toNat)
    (Issues 0x57 0 x s t → va % 128 ≠ 0 → exec (.binbeg x) s =
      .next (takeTrap s t { trap 0x04 0x0101 with addr := BitVec.ofNat 64 va })) ∧
    (Issues 0x57 4 x s t → (∀ p, n < 16 → s.pass? (dieOf t.core) n = some p → p.ctx = t.ctx → p.isOpen = false) →
      exec (.binend x) s = .next (takeTrap s t (trap 0x05 0x0C01))) ∧
    (Issues 0x57 6 x s t → (∀ p, n < 16 → s.pass? (dieOf t.core) n = some p → p.ctx ≠ t.ctx) →
      exec (.tstat x) s = .next (takeTrap s t (trap 0x05 0x0C01))) ∧
    (Issues 0x57 5 x s t → let w := (t.sval x.a.code.toNat).toNat
      (w % 2 ^ 16 ≠ 0x0F00 → exec (.fragout x) s = .next (takeTrap s t (trap 0x05 0x0C03))) ∧
      (w % 2 ^ 16 = 0x0F00 → (∀ p, s.pass? (bitsN w 21 20) (bitsN w 19 16) = some p → p.ctx = t.ctx →
        p.isOpen = false ∧ p.closing = false) → exec (.fragout x) s = .next (takeTrap s t (trap 0x05 0x0C01))))) ∧
  (∀ (p : Pass) (form : Nat) (ws : List Word), let q : Prim := { seq := p.nextSeq, form := form, words := ws, tiles := [] }
    let ts := q.touches p.view
    (q.culled p.view = true → p.emit form ws = ({ p with counts := p.counts.modify 1 (· + 1) }, none)) ∧
    (q.culled p.view = false → p.view.binsz < p.binUsed + (64 + 8 * ts.length) →
      p.emit form ws = ({ p with ovf := true }, none)) ∧
    (q.culled p.view = false → p.binUsed + (64 + 8 * ts.length) ≤ p.view.binsz → ∃ p',
      p.emit form ws = (p', some (p.view.binb + p.binUsed, 64 + 8 * ts.length)) ∧
      p'.prims = p.prims ++ [{ q with tiles := ts }] ∧ p'.nextSeq = p.nextSeq + 1 ∧
      p'.binUsed = p.binUsed + (64 + 8 * ts.length))) ∧
  (∀ x s t p, Issues 0x57 4 x s t → t.go x.g x.neg = true → (srcScalar s t x x.a).toNat < 16 →
    s.pass? (dieOf t.core) (srcScalar s t x x.a).toNat = some p → p.ctx = t.ctx → p.isOpen = true →
    exec (.binend x) s = .next ((((s.onPass p.die p.id (fun p => { p with isOpen := false, closing := true })).post
      (.tileProcess p.die p.id)).onTeam t.uid (fun u => { u with
        run := .parked .binend, aux := [p.die, p.id, (t.pc + BitVec.ofNat 64 (extLen x)).toNat] })))) ∧
  (∀ x s t p, Issues 0x57 5 x s t → t.go x.g x.neg = true →
    let w := (t.sval x.a.code.toNat).toNat
    let here (f : Frag) : Bool := f.pushed && f.block = bitsN w 31 24 && f.seq = (t.sval (x.a.code.toNat + 2)).toNat
    let current : Prop := p.active = true ∧ p.tile = w / 2 ^ 32 ∧ p.attempt % 4 = bitsN w 23 22
    w % 2 ^ 16 = 0x0F00 → s.pass? (bitsN w 21 20) (bitsN w 19 16) = some p → p.ctx = t.ctx →
    (p.isOpen = true ∨ p.closing = true) →
    ((¬ current ∨ p.frags.find? here = none) →
      exec (.fragout x) s = .next (retire (putScalar s t x.d 1) t (extLen x))) ∧
    (∀ f, current → p.frags.find? here = some f → f.answered = true →
      exec (.fragout x) s = .next (retire (putScalar s t x.d 2) t (extLen x))) ∧
    (∀ f, current → p.frags.find? here = some f → f.answered = false → exec (.fragout x) s = .next (retire (putScalar
      ((s.onPass p.die p.id (fun p => { p with
        frags := p.frags.map (fun g => if here g then { g with answered := true } else g)
        colours := p.colours ++ fragColours (ctxAt (.fragout x) 0x57 5 (extLen x) x t) f })).postOnce
        (.fragmentPush p.die p.id)) t x.d 0) t (extLen x)))) ∧
  (∀ x s t p, Issues 0x57 6 x s t → t.go x.g x.neg = true → (srcScalar s t x x.a).toNat < 16 →
    s.pass? (dieOf t.core) (srcScalar s t x x.a).toNat = some p → p.ctx = t.ctx →
    exec (.tstat x) s = .next (retire (putScalar s t x.d (BitVec.ofNat 64
      (if x.f 2 0 < 7 then p.counts.getD (x.f 2 0) 0
       else (if p.isOpen || p.closing then 1 else 0) + 2 * (if p.ovf then 1 else 0) + 4 * (if p.err then 1 else 0)))) t
      (extLen x))) ∧
  (∀ die id s p, s.pass? die id = some p →
    (p.closing = true → p.active = false → (∀ q ∈ s.passes, q.die = die → q.active = false) →
      (∀ c, s.ctx? p.ctx = some c → c.isIn = true) →
      exec (.tileProcess die id) s = .next ((s.onPass die id (fun q => { q with
        attempt := q.attempt + 1, active := true, colours := [], frags := q.entries })).postOnce (.fragmentPush die id))) ∧
    (∀ f, p.active = true → p.frags.find? (fun f => !f.pushed) = some f → ∃ s' m, exec (.fragmentPush die id) s = .next s' ∧
      m ∈ s'.pushes ∧ m.queue = p.view.fragq ∧ m.entry = fragEntry p f ∧ m.kind = .fragment ∧ s'.mem = s.mem) ∧
    (p.active = true → (∀ f ∈ p.frags, f.pushed = true ∧ f.answered = true) →
      exec (.fragmentPush die id) s = .next (s.postOnce (.tileComposite die id))) ∧
    (p.active = true → ∃ s' q, exec (.tileKill die id) s = .next s' ∧ s'.pass? die id = some q ∧ q.active = false ∧
      q.frags = [] ∧ q.prims = p.prims ∧ q.tile = p.tile ∧ .tileProcess die id ∈ s'.agenda)) ∧
  (∀ die id s p, s.pass? die id = some p → p.closing = true →
    (p.tile < p.view.tiles → p.active = true → (∀ f ∈ p.frags, f.answered = true) →
      declaredAt s p (resolveOf s.stepNo p).1 = none → absentOf (hubAgent p.ctx) s (resolveOf s.stepNo p).1 = none →
      exec (.tileComposite die id) s = .next (commitTile (tilerWrites (hubAgent p.ctx) p.opener s (resolveOf s.stepNo p).1) p
        (resolveOf s.stepNo p).2.1 (resolveOf s.stepNo p).2.2)) ∧
    (∀ a, p.tile < p.view.tiles → p.active = true → (∀ f ∈ p.frags, f.answered = true) →
      declaredAt s p (resolveOf s.stepNo p).1 = some a → exec (.tileComposite die id) s = .next (commitTile
        (s.onPass die id (fun q => { q with err := true, errAt := some (match q.errAt with
          | some b => min a b
          | none => a) })) p (resolveOf s.stepNo p).2.1 (resolveOf s.stepNo p).2.2)) ∧
    (p.view.tiles ≤ p.tile →
      let ws := (List.range 7).map (fun i => (p.view.at_ + 72 + 8 * i, leBytes 8 (p.counts.getD i 0)))
      absentOf (hubAgent p.ctx) s ws = none →
      exec (.tileComposite die id) s = .next (endPass (tilerWrites (hubAgent p.ctx) p.opener s ws) p))) ∧
  (∀ s p v t, s.team? v = some t → t.run = .parked .binend → t.aux.take 2 = [p.die, p.id] →
    let npc : Word64 := BitVec.ofNat 64 (t.aux.getD 2 0)
    ∃ t', (endPass s p).team? v = some t' ∧ t'.run = .running ∧ (p.errAt = none → t'.pc = npc ∧ t'.due = t.due) ∧
      ∀ a, p.errAt = some a → t'.pc = t.pc ∧
        t'.due = some { trapHere t.pc npc 0x05 0x0806 with addr := BitVec.ofNat 64 a })

/-- 05 R113-R121, R133; 03 R85: LAUNCH_ENTRY_ARRIVAL makes the launch, HEADER_FETCH checks it, TEAM_PLACEMENT binds a group,
DISPATCH_START starts a team, ARGUMENT_ARRIVAL fills an argument, `texit` waits and frees, LAUNCH_STATUS_WRITE writes the
status. INSTRUCTION_FETCH translates the words at a program counter or parks the team on the fault. -/
def Obligations.LaunchesAreCheckedPlacedAndEnded : Prop :=
  (∀ qn e s q c, s.queue? qn = some q → s.ctx? q.ctx = some c → s.hub.updating.contains (q.slice / 64) = false →
    let w (j : Nat) : Nat := (e.getD j (0 : Word64)).toNat
    ∃ s' l, exec (.launchEntryArrival qn e) s = .next s' ∧ s'.launches.map (fun x => x.id) =
        s.launches.map (fun x => x.id) ++ [s.nextId] ∧ l ∈ s'.launches ∧ l.id = s.nextId ∧ l.ctx = q.ctx ∧
      l.hdrA.toNat = w 1 ∧ l.args.toNat = w 2 ∧ l.done.toNat = w 3 ∧ l.teams = bitsN (w 0) 63 32 ∧
      (bitsN (w 0) 15 0 = 1 → bitsN (w 0) 31 16 ≤ 1 → (∀ x ∈ s.launches, x.id ≠ s.nextId) →
        l.phase = .arrived ∧ .headerFetch s.nextId ∈ s'.agenda) ∧
      (bitsN (w 0) 15 0 ≠ 1 → l.phase = .ended ∧ l.status = 4)) ∧
  (∀ id s l, s.launch? id = some l → l.phase = .arrived → s.hub.updating.contains l.die = false → (s.ctx? l.ctx).isSome →
    (∀ o, headerOf s l = .ok (.error o) → exec (.headerFetch id) s = .next (endLaunch s id (0x03 + 256 * o))) ∧
    (∀ h c, headerOf s l = .ok (.ok h) → launchCheck s l h = .ok c → c ≠ 0 →
      exec (.headerFetch id) s = .next (endLaunch s id c)) ∧
    (∀ h, headerOf s l = .ok (.ok h) → launchCheck s l h = .ok 0 → ∃ s' l', exec (.headerFetch id) s = .next s' ∧
      s'.launch? id = some l' ∧ l'.hdr = some h ∧ l'.phase = .checked ∧ .teamPlacement id [] ∈ s'.agenda ∧ s'.mem = s.mem)) ∧
  (∀ id s l h c, s.launch? id = some l → l.hdr = some h → s.ctx? l.ctx = some c → l.phase = .checked → c.isIn = true →
    s.hub.updating.contains l.die = false →
    (firstUnbound s l = none → exec (.teamPlacement id []) s = .next (s.onLaunch id (fun l => { l with phase := .placed }))) ∧
    (∀ i, firstUnbound s l = some i → l.follow = false →
      (∀ s1, placeGroup s l h c (groupOf s l h i) (coresFor s l h i) = some s1 →
        exec (.teamPlacement id []) s = .next (s1.post (.teamPlacement id []))) ∧
      (placeGroup s l h c (groupOf s l h i) (coresFor s l h i) = none →
        exec (.teamPlacement id []) s = .next (placementWaits s l (coresFor s l h i)))) ∧
    (∀ i, firstUnbound s l = some i → l.follow = true → boundTeams s id = [] → inheritBad s l h = true →
      exec (.teamPlacement id []) s = .next (endLaunch s id 0x05)) ∧
    (∀ i places core s1, firstUnbound s l = some i → l.follow = false → places ≠ [] →
      places.length = (groupOf s l h i).length → core ∈ coresFor s l h i → (∀ p ∈ places, p.1 = core ∧
        ((s.core core).recs.getD p.2 Bind.reset).st = .empty) →
      bindPlaces l h c ((groupOf s l h i).zip places) s = some s1 →
      exec (.teamPlacement id places) s = .next (s1.post (.teamPlacement id [])))) ∧
  (∀ core place s t l h, s.team? ((s.core core).recs.getD place Bind.reset).team = some t → s.launch? t.launch = some l →
    l.hdr = some h → ((s.core core).recs.getD place Bind.reset).st = .ready → t.run = .ready →
    poolEnding s core t.ctx = false → s.hub.updating.contains (dieOf core) = false → ∃ s' t', exec (.dispatchStart core place) s = .next s' ∧ s'.team? t.uid = some t' ∧
      t'.run = .running ∧ t'.pc = t.pc ∧ (t.s.length = 128 → ∀ j ∈ argsOf l h, 16 + j < 128 → t'.sfull (16 + j) = false) ∧
      ∀ j ∈ argsOf l h, .argumentArrival t.uid j ∈ s'.agenda) ∧
  (∀ (l : Launch) (h : Header) (j : Nat), j ∈ argsOf l h ↔ j < h.nargs ∧
    (l.follow = true → ∀ a b c d, h.inh = some (a, b, c, d) → ¬ (c ≤ 16 + j ∧ 16 + j ≤ d))) ∧
  (∀ u j s t l x, s.team? u = some t → s.launch? t.launch = some l → t.run ≠ .done → t.sfull (16 + j) = false →
    t.agent.rd s (l.args.toNat + 8 * j) 8 = .ok x → exec (.argumentArrival u j) s = .next (s.onTeam u (fun v =>
      (v.setS (16 + j) (BitVec.ofNat 64 x)).setSFull (16 + j) true))) ∧
  (∀ x s t, Issues 0x40 8 x s t → t.go x.g x.neg = true → (∀ k, t.task = some k → k.declared = false) →
    usesAbsent s t = none → exec (.texit x) s = .next (((closeOwnPasses (closeTask (dropUses s t) t.uid) t.uid).onTeam
      t.uid (fun u => { u with run := .parked .texit })).post (.texitComplete t.uid))) ∧
  (∀ u s t, s.team? u = some t → t.run = .parked .texit → (t.handler = true ∨ t.pending = []) →
    (exitReady s t = false → exec (.texitComplete u) s = .next (s.postOnce (.texitComplete u))) ∧
    (∀ l, exitReady s t = true → s.launch? t.launch = some l →
      let k := l.hdr.bind (fun h => keepOf t h (s.bind t).vbase)
      endAbsent s t k = none → exec (.texitComplete u) s = .next (endKernel (freeTeam s t k) l))) ∧
  (∀ id s l c, s.launch? id = some l → l.phase = .ended → s.ctx? l.ctx = some c → s.hub.updating.contains l.die = false →
    (∀ t ∈ s.teams, t.launch = id → t.run = .done ∧ ∀ w ∈ s.writes, t.uid ≠ w.team) → passesOpen s id = false →
    (evicting s id = true → exec (.launchStatusWrite id) s = .next (s.postOnce (.launchStatusWrite id))) ∧
    (evicting s id = false → l.done = 0 → exec (.launchStatusWrite id) s = .next (launchOver s l)) ∧
    (∀ s1, evicting s id = false → l.done ≠ 0 → writeVA s 256 l.ctx l.done.toNat (leBytes 8 l.status) = .ok s1 →
      exec (.launchStatusWrite id) s = .next (launchOver s1 l))) ∧
  (∀ u s t, s.team? u = some t → t.run = .running →
    let s1 := tlbFill (tlbFill s t.core t.ctx t.pc.toNat) t.core t.ctx (t.pc.toNat + 16)
    (∀ d, fetch s1 t = .words d → ∃ s', exec (.instructionFetch u) s = .next s' ∧ s'.team? u = some t ∧ s'.mem = s.mem) ∧
    (∀ va, fetch s1 t = .fault va → .instructionFetch u ∉ s.declined → faultsFull s1 (dieOf t.core) = false →
      ∃ s' t' q, exec (.instructionFetch u) s = .next s' ∧
      s'.team? u = some t' ∧ t'.run = .parked .fault ∧ q ∈ s'.faults ∧ q.retry = .instructionFetch u ∧ q.ctx = t.ctx ∧
      q.blk = va % 2 ^ 57 / 2048))

/-- 05 R125-R128, R473; 19 R432-R435: PREEMPT_REQUEST and TIMESLICE_EXPIRY give a running team its deadline, YDL_EXPIRY and `ysave`
save it; SAVE_COMPLETE writes its image, RECORD_RECLAIM frees the place, RESTORE_REQUEST and RESTORE_COMPLETE bring the
team back. That the task lists, whose layout is the device's own, come back from the team's record and everything else from the image is
the model's choice (log 9). -/
def Obligations.TeamsAreSavedAndRestored : Prop :=
  (∀ ev u s t, (ev = .preemptRequest u ∨ ev = .timesliceExpiry u) → s.team? u = some t →
    (t.run = .ready → endAbsent s t none = none → exec ev s = .next (wakeLaunches (unbind s t))) ∧
    (∀ c, t.run = .running → s.ctx? t.ctx = some c → t.ydl = noDeadline →
      exec ev s = .next (s.onTeam u (fun v => { v with ydl := c.grace }))) ∧
    (t.run = .running → t.ydl ≠ noDeadline → exec ev s = .next s)) ∧
  (∀ u s t, s.team? u = some t → t.run ≠ .ready → t.resident = true → t.handler = false → t.ydl = 0 →
    exec (.ydlExpiry u) s = .next (trySave s t true (.ydlExpiry u))) ∧
  (∀ u s t, s.team? u = some t → t.ydl ≠ 0 → exec (.ydlExpiry u) s = .next s) ∧
  (∀ u s t, s.team? u = some t → t.run = .parked .ysave →
    exec (.ysaveImage u) s = .next (trySave s t false (.ysaveImage u))) ∧
  (∀ x s t, Issues 0x58 5 x s t → t.go x.g x.neg = true →
    (t.ydl = noDeadline → exec (.ysave x) s = .next (retire s t (extLen x))) ∧
    (t.ydl ≠ noDeadline → quiet s t = false → exec (.ysave x) s = .next s) ∧
    (t.ydl ≠ noDeadline → quiet s t = true → exec (.ysave x) s = .next ((s.onTeam t.uid (fun u => { u with
      pc := t.pc + BitVec.ofNat 64 (extLen x), run := .parked .ysave })).post (.ysaveImage t.uid)))) ∧
  (∀ s t forced retry t1, (captureReady s t.uid).team? t.uid = some t1 →
    (saveWaits (captureReady s t.uid) t1 = true → trySave s t forced retry = (captureReady s t.uid).postOnce retry) ∧
    (saveWaits (captureReady s t.uid) t1 = false → ∃ t', (trySave s t forced retry).team? t.uid = some t' ∧
      (∃ w, t'.run = .saved w) ∧ t'.forced = forced ∧ .saveComplete t.uid ∈ (trySave s t forced retry).agenda)) ∧
  (∀ u s t w s1, s.team? u = some t → t.run = .saved w → t.savedNo = 0 → t.core < s.cores.length →
    t.place < (s.core t.core).recs.length → (s.bind t).team = t.uid → (s.bind t).st ≠ .saved →
    writeImage s t = .ok s1 → ∃ s' t', exec (.saveComplete u) s = .next s' ∧ s'.mem = s1.mem ∧ s'.team? u = some t' ∧
      t'.savedNo = s1.nextId ∧ t'.savedAt = s1.nextId ∧ t'.ydl = noDeadline ∧ (s'.bind t).st = .saved ∧ .recordReclaim t.core t.place ∈ s'.agenda) ∧
  (∀ s t s1, t.agent.put s t.image (imageFront s t t.forced ++ imageBack s t) = .ok s1 →
    ∀ s2, leaveAreas s1 t false = .ok s2 → ∃ s3, writeImage s t = .ok s3 ∧ s3.mem = s2.mem) ∧
  (∀ u s t w s1, s.team? u = some t → t.run = .saved w → t.savedNo ≠ 0 → writeAgain s t = .ok s1 →
    exec (.saveComplete u) s = .next s1) ∧
  (∀ s t, (kernelStays s t = true → recordsStay s t = true → leaveAreas s t false = .ok s ∧ readAreas s t = .ok s) ∧
    ∀ k, kernelArea? s t.core t.launch = some k → kernelStays s t = false → recordsStay s t = false →
      t ∈ kernelTeams s t.core t.launch → uniq ((recTeams s t.core t.ctx (hdrOf s t)).map (fun x => x.launch)) = [t.launch] →
      (∀ s1 s2, t.agent.put s k.base (latchImage s t.core t.launch) = .ok s1 →
        t.agent.put s1 (k.base + 512) (operandImage s1 t.core t.launch t.ctx (hdrOf s1 t)) = .ok s2 →
        leaveAreas s t false = .ok s2) ∧
      (∀ ls bs, t.agent.bytes s k.base 512 = .ok ls →
        let s1 := loadLatches s t.core t.launch (runLen s t.core t.launch) ls
        t.agent.bytes s1 (k.base + 512) (512 + 256 * (kernelLines s1 t.core t.launch).length) = .ok bs →
        readAreas s t = .ok (loadOperands s1 t.core t.launch t.ctx (hdrOf s1 t) bs))) ∧
  (∀ core place s t, let r := (s.core core).recs.getD place Bind.reset
    s.team? r.team = some t → r.st = .saved → t.savedNo ≠ 0 → s.hub.updating.contains (dieOf core) = false →
    exec (.recordReclaim core place) s =
      .next (offerRestores (wakeLaunches (s.onRec core place (fun _ => Bind.reset))) core)) ∧
  (∀ core place u s t, s.team? u = some t → ((s.core core).recs.getD place Bind.reset).st = .empty → place < 16 →
    t.core = core → slotOf t.place = slotOf place → t.savedNo ≠ 0 → nextRestore s core (slotOf place) = some t →
    s.hub.updating.contains (dieOf core) = false → exec (.restoreRequest core place u) s = .next (offerRestores
      ((((releaseHolds (dropRestores s core place u) (inWay s t)).onRec core place (fun _ => { t.rec0 with st := .saved })).onTeam u
        (fun v => { v with place := place, savedNo := 0 })).post (.restoreComplete u)) core)) ∧
  (∀ u s t s1, s.team? u = some t → let r := (s.core t.core).recs.getD t.place Bind.reset
    r.st = .saved → r.team = u → t.savedNo = 0 → isIn s t.ctx = true → poolEnding s t.core t.ctx = false →
    imagePending s u = false → readImage s t = .ok s1 → ∀ t1, s1.team? u = some t1 →
    let s2 := s1.onRec t1.core t1.place (fun b => { b with st := .running })
    exec (.restoreComplete u) s = .next (resumeLoads (resumeCopies (resumeTeam (s2.onCore t1.core (fun c => { c with
      obres := c.obres.map (fun r => if ofAllot t1 (hdrOf s2 t1) r then { r with own := t1.place } else r) })) t1) t1) t1.uid)) ∧
  (∀ u s t, s.team? u = some t → let r := (s.core t.core).recs.getD t.place Bind.reset
    r.st = .saved → r.team = u → t.savedNo = 0 → isIn s t.ctx = false → exec (.restoreComplete u) s =
      .next ((s.onTeam t.uid (fun v => { v with savedNo := v.savedAt })).post (.recordReclaim t.core t.place))) ∧
  (∀ s t bs s1, t.agent.bytes s t.image (t.imgAt + 81984 * t.rec0.accN + 256 * t.rec0.ssize) = .ok bs →
    readAreas (loadBack s t (bs.drop t.imgAt)) t = .ok s1 →
    readImage s t = .ok (s1.setTeam (t.fromImage (bs.take t.imgAt)))) ∧
  (∀ (t : Team) bs, let u := t.fromImage bs
    (∀ n < 128, u.sval n = BitVec.ofNat 64 (numAt bs (512 + 8 * n) 8)) ∧ u.status.toNat = numAt bs 16 8 ∧
    u.role.toNat = numAt bs 24 8 ∧ u.trapv.toNat = numAt bs 40 8 ∧ u.trapa.toNat = numAt bs 48 8 ∧
    ((∀ f ∈ t.entries, f.id ≠ 0) → u.pc.toNat = numAt bs 8 8))

/-- 20 R440, R448; 05 R111, R112, R125, R128; 15 R335, R341: the commands on contexts and queues, each answered with its result and
status in the mailbox, and what every command of the table meets first. The model's own choices in it: that a switch-out is answered when it
is accepted (log 48, DESIGN CHOICE), and which status a malformed record, what is in use and what does not exist give (log 50, DESIGN
CHOICE). -/
def Obligations.MailboxCommandsOnContextsAndQueues : Prop :=
  (∀ m s c v, HostReady s → m.resv = false → inHbm m.op0.toNat 256 = true → m.op1.toNat = v → 3 ≤ v → v ≤ 2047 → m.op2 = 0 → m.op3 = 0 →
    let s1 := mailTaken s 1 m
    let bs := s1.mem.bytes (physKey 0 m.op0.toNat) 256
    parseContext bs v = (c, true) → s.ctx? c.num = none →
    let s2 : State := { s1 with ctxs := s1.ctxs ++ [c], queues := s1.queues.filter (fun q => q.ctx ≠ c.num) }
    exec (.mailboxCreateContext m) s = .next (mailAnswer (writeBind (if inHbm (Config.ctxRecord c.num) 256
      then s2.apply (cellsAt (physKey 0 (Config.ctxRecord c.num)) bs) else s2) c) c.num 0)) ∧
  (∀ m s, HostReady s → m.resv = false → m.op0.toNat < 16384 → m.op1 = 0 → m.op2 = 0 → m.op3 = 0 →
    (s.ctx? m.op0.toNat).isSome → ctxBusy s m.op0.toNat = false →
    exec (.mailboxDestroyContext m) s = .next (mailAnswer (dropContext (mailTaken s 2 m) m.op0.toNat) 0 0)) ∧
  (∀ m s c ring, HostReady s → m.resv = false → m.op0.toNat < 65536 → m.op1.toNat < 16384 → 4 ≤ m.op2.toNat →
    m.op2.toNat ≤ 20 → (m.op3 = 0 ∨ m.op3 = 2) → s.ctx? m.op1.toNat = some c → s.queue? m.op0.toNat = none →
    (m.op3 = 2 → ∀ q ∈ s.queues, q.ctx = c.num → q.isLaunch = false) → queueRing s m.op2.toNat = some ring →
    let s1 := mailTaken s 3 m
    let q : Queue := { num := m.op0.toNat, ring := ring, head := 0, tail := 0, ctx := c.num, isLaunch := decide (m.op3 = 2),
                       ovf := false, lcap := m.op2.toNat, slice := queueHome s m.op0.toNat, poppers := [], pushers := [] }
    exec (.mailboxCreateQueue m) s = .next (mailAnswer (writeBind { s1 with queues := s1.queues ++ [q] } c) 0 0)) ∧
  (∀ m s q c, HostReady s → m.resv = false → m.op0.toNat < 65536 → m.op1.toNat < 16384 → m.op2 = 0 → m.op3 = 1 →
    s.queue? m.op0.toNat = some q → q.ctx = m.op1.toNat → s.ctx? q.ctx = some c → queueIdle s q = true →
    let s1 := mailTaken s 3 m
    exec (.mailboxDestroyQueue m) s = .next (mailAnswer (writeBind { s1 with
      queues := s1.queues.filter (fun x => x.num ≠ m.op0.toNat) } c) 0 0)) ∧
  (∀ m s c, HostReady s → m.resv = false → m.op0.toNat < 16384 → m.op1 = 0 → m.op2 = 0 → m.op3 = 0 →
    s.ctx? m.op0.toNat = some c → c.isIn = true → ∃ s' c', exec (.mailboxSwitchContextOut m) s = .next s' ∧
      s'.ctx? m.op0.toNat = some c' ∧ c'.isIn = false ∧ s'.teams = s.teams ∧ s'.mem = s.mem ∧
      (∀ k, k ∈ s'.keeps ↔ k ∈ s.keeps ∧ (k.ctx ≠ m.op0.toNat ∨ claimed s k = true)) ∧
      (∀ t ∈ s.teams, t.ctx = m.op0.toNat → t.resident = true → .preemptRequest t.uid ∈ s'.agenda) ∧
      (∀ p ∈ s.passes, p.ctx = m.op0.toNat → p.active = true → .tileKill p.die p.id ∈ s'.agenda) ∧
      s'.hub.mail = (mailAnswer (mailTaken s 4 m) 0 0).hub.mail) ∧
  (∀ m s c, HostReady s → m.resv = false → m.op0.toNat < 16384 → m.op1 = 1 → m.op2 = 0 → m.op3 = 0 →
    s.ctx? m.op0.toNat = some c → c.isIn = false → ∃ s' c', exec (.mailboxSwitchContextIn m) s = .next s' ∧
      s'.ctx? m.op0.toNat = some c' ∧ c'.isIn = true ∧ s'.teams = s.teams ∧ s'.mem = s.mem ∧
      (∀ l ∈ s.launches, l.phase = .checked → .teamPlacement l.id [] ∈ s'.agenda) ∧
      s'.hub.mail = (mailAnswer (mailTaken s 4 m) 0 0).hub.mail) ∧
  (∀ m s q, HostReady s → m.resv = false → m.op0.toNat < 65536 → m.op1 = 0 → m.op2 = 0 → m.op3 = 0 →
    s.queue? m.op0.toNat = some q → exec (.mailboxClearOverflow m) s = .next (mailAnswer
      ((mailTaken s 6 m).onQueue m.op0.toNat (fun q => { q with ovf := false })) 0 0)) ∧
  (∀ m s c, HostReady s → m.resv = false → m.op0.toNat < 16384 → m.op1 = 0 → m.op2 = 0 → m.op3 = 0 →
    s.ctx? m.op0.toNat = some c → exec (.mailboxSelectBar4Context m) s = .next (mailAnswer
      ((mailTaken s 10 m).onHub (fun h => { h with bar4 := some m.op0.toNat })) 0 0)) ∧
  (∀ p ∈ hubCommands, ∀ m s,
    (s.hub.updating.contains 4 = true → ∃ bs, bs.length = 64 ∧ numAt bs 0 1 = p.1 ∧ numAt bs 16 8 = m.op0.toNat ∧
      numAt bs 24 8 = m.op1.toNat ∧ numAt bs 32 8 = m.op2.toNat ∧ numAt bs 40 8 = m.op3.toNat ∧
      exec (p.2 m) s = .next (s.onHub (fun h => { h with inbox := h.inbox ++ [(2 ^ 22, bs)] }))) ∧
    (s.hub.updating.contains 4 = false → mailCode s ≠ 0 → s.hub.fresh = false → exec (p.2 m) s = .next (countHost s)) ∧
    (s.hub.updating.contains 4 = false → (mailCode s = 0 ∨ s.hub.fresh = true) → s.hub.ready = false → (s.hub.minimal = false ∨ p.1 < 7 ∨ 9 < p.1) →
      exec (p.2 m) s = .next (mailAnswer (mailTaken s p.1 m) 0 3)) ∧
    (HostReady s → m.resv = true → exec (p.2 m) s = .next (mailAnswer (mailTaken s p.1 m) 0 2))) ∧
  (∀ s r st, s.hub.mail.length = 64 → (mailAnswer s r st).hub.mail.length = 64 ∧
    numAt (mailAnswer s r st).hub.mail 0 1 = 0 ∧ numAt (mailAnswer s r st).hub.mail 1 1 = st % 256 ∧
    numAt (mailAnswer s r st).hub.mail 8 8 = r % 2 ^ 64) ∧
  (∀ s, (countHost s).hub.hosterr = s.hub.hosterr + 1)

/-- 20 R439-R444, R448; 09 R214; 15 R340, R341: images and attestation, extents, the memory window, the enqueue aperture and the
register writes of BAR0. The model's own choices in it: that w is cleared and x set on the code pages after the last segment, that an update is
measured and not stored (log 52, DESIGN CHOICE), the keys and secret numbers of signatures (free, log 12, DESIGN CHOICE), what a
non-zero write of hosterr or a write of a read-only region does (log 53, DESIGN CHOICE), that an offset in BAR4 is the virtual
address and what a refused AtomicOp answers (log 19), and that a queue's ring lies at the top of the HBM (log 20). -/
def Obligations.ImagesExtentsAndTheHostApertures : Prop :=
  (∀ m s c, HostReady s → m.resv = false → m.op0.toNat < 65536 → m.op1.toNat < 16384 → m.op2 = 0 → m.op3 = 0 →
    s.ctx? m.op1.toNat = some c → (∀ e ∈ s.hub.extents, e.num = m.op0.toNat → e.revoked = true) →
    exec (.mailboxGrantExtent m) s = .next (mailAnswer ((mailTaken s 5 m).onHub (fun h => { h with
      extents := h.extents.filter (fun e => e.num ≠ m.op0.toNat) ++
        [{ num := m.op0.toNat, ctx := some m.op1.toNat, held := false, revoked := false }] })) 0 0)) ∧
  (∀ m s, HostReady s → m.resv = false → m.op0.toNat < 65536 → m.op1.toNat < 16384 → m.op2 = 1 → m.op3 = 0 →
    s.hub.extents.any (fun e => e.num = m.op0.toNat && e.ctx = some m.op1.toNat) = true →
    let s1 := mailTaken s 5 m
    (extMapped s m.op0.toNat = false →
      exec (.mailboxReleaseExtent m) s = .next (mailAnswer (dropExtent s1 m.op0.toNat) 0 0)) ∧
    (extMapped s m.op0.toNat = true →
      exec (.mailboxReleaseExtent m) s = .next (mailAnswer (s1.onHub (fun h => { h with extents := h.extents.map (fun e =>
        if e.num = m.op0.toNat then { e with held := true } else e) })) 0 0))) ∧
  (∀ n s, s.hub.extents.any (fun e => e.num = n && e.held) = true →
    (extMapped s n = false → exec (.extentReleaseDone n) s = .next (dropExtent s n)) ∧
    (extMapped s n = true → exec (.extentReleaseDone n) s = .next s)) ∧
  (∀ n s, ∀ e ∈ (dropExtent s n).hub.extents, e.num ≠ n) ∧
  (∀ m s c gs s2, HostReady s → m.resv = false → m.op1.toNat < 16384 → m.op2 = 0 → m.op3 = 0 → s.hub.pcieUp = true →
    let s1 := mailTaken s 7 m
    s.ctx? m.op1.toNat = some c → segms s1 m.op0.toNat = some gs → segmAbsent s1 c gs = none →
    let code (x : Bool) (s : State) : State := (gs.filter (fun g => g.kind = 0)).foldl (fun s g => setExec s c g.va g.bytes.length x) s
    (loadSegms c gs (code false s1) = .ok s2 →
      exec (.mailboxLoadImage m) s = .next (mailAnswer (code true s2) gs.length 0)) ∧
    (∀ e, loadSegms c gs (code false s1) = .error (s2, e) → exec (.mailboxLoadImage m) s = .next (mailAnswer s2 0 e))) ∧
  (∀ m s, HostReady s → m.resv = false → m.op2 = 0 → m.op3 = 0 → s.hub.pcieUp = true →
    let s1 := mailTaken s 8 m
    let body := s.hub.attRec ++ leBytes 8 s.hub.recCount ++ s.mem.bytes (physKey 2 m.op0.toNat) 64
    let q := body ++ quoteSig s.stepNo body
    exec (.mailboxAttestationQuote m) s =
      .next (mailAnswer (s1.apply (cellsAt (physKey 2 m.op1.toNat) q)) q.length 0)) ∧
  (∀ m s gs s2, HostReady s → m.resv = false → m.op1.toNat ≤ 4 → m.op2 = 0 → m.op3 = 0 → s.hub.pcieUp = true →
    let s1 := mailTaken s 9 m
    segms s1 m.op0.toNat = some gs → measureAll gs s1 = .ok s2 → exec (.mailboxUpdate m) s = .next
      ((s2.onHub (fun h => { h with updating := h.updating ++ [m.op1.toNat] })).post (.updateComplete m.op1.toNat))) ∧
  (∀ die s, die ∈ s.hub.updating → s.hub.inbox = [] → ∃ s', exec (.updateComplete die) s = .next s' ∧
    s'.hub.updating = s.hub.updating.filter (fun d => d ≠ die) ∧ s'.mem = s.mem ∧
    s'.hub.mail = (mailAnswer s 0 0).hub.mail ∧
    (s.hub.minimal = true → .deviceStart ∈ s'.agenda ∧ s'.hub.minimal = false ∧ s'.hub.fails = 0)) ∧
  (∀ s, exec .hosterrClear s = .next { s with hub := { s.hub with hosterr := 0 } }) ∧
  (∀ s bs, (∀ b ∈ bs, b = 0) → exec (.bar0RegisterWrite 0x300 bs) s = .next { s with hub := { s.hub with hosterr := 0 } }) ∧
  (∀ s o bs, (o < 8 ∨ 0x100 ≤ o ∧ o < 0x108 ∨ 0x200 ≤ o ∧ o < 0x208 ∨ 0x400 ≤ o ∧ o < 0x420 ∨
    0x100000 ≤ o ∧ o < 0x140000 ∨ 0x208000 ≤ o ∧ o < 0x208100 ∨ 0x300000 ≤ o ∧ o < 0x300048) →
    exec (.bar0RegisterWrite o bs) s = .next s) ∧
  (∀ s o bs, (8 ≤ o ∧ o < 0x100 ∨ 0x108 ≤ o ∧ o < 0x200 ∨ 0x208 ≤ o ∧ o < 0x300 ∨ 0x308 ≤ o ∧ o < 0x400 ∨ 0x420 ≤ o ∧ o < 0x1000 ∨
      0x1040 ≤ o ∧ o < 0x100000 ∨ 0x140000 ≤ o ∧ o < 0x200000 ∨ 0x208100 ≤ o ∧ o < 0x300000 ∨ 0x300048 ≤ o) → exec (.bar0RegisterWrite o bs) s = .next (countHost s)) ∧
  (∀ s o bs, o < 64 →
    (s.hub.updating.contains 4 = true → exec (.bar0RegisterWrite (0x1000 + o) bs) s =
      .next (s.onHub (fun h => { h with inbox := h.inbox ++ [(2 ^ 22 + o, bs)] }))) ∧
    (s.hub.updating.contains 4 = false → exec (.bar0RegisterWrite (0x1000 + o) bs) s = .next (mailStore s o bs))) ∧
  (∀ s b bs, mailCode s ≠ 0 → b ≠ 0 → mailStore s 0 (b :: bs) = countHost s) ∧
  (∀ s b, mailCode s = 0 → 10 < BitVec.toNat b → mailStore s 0 [b] = mailAnswer s 0 1) ∧
  (∀ s o bs, s.hub.updating.contains 4 = true → exec (.hostEnqueue o bs) s =
    .next (s.onHub (fun h => { h with inbox := h.inbox ++ [(o, bs)] }))) ∧
  (∀ s o bs, s.hub.updating.contains 4 = false → (bs.length ≠ 32 ∨ o % 64 ≠ 0 ∨ 65536 ≤ o / 64 ∨ s.queue? (o / 64) = none) →
    exec (.hostEnqueue o bs) s = .next (countHost s)) ∧
  (∀ s n q bs, s.hub.updating.contains 4 = false → bs.length = 32 → n < 65536 → s.queue? n = some q →
    let entry := (List.range 4).map (fun j => BitVec.ofNat 64 (numAt bs (8 * j) 8))
    let held := s.hub.overflow.any (fun h => h.queue = q.num)
    let full := decide (2 ^ q.lcap ≤ (q.tail - q.head).toNat)
    (q.isLaunch = true → (s.ctx? q.ctx).isSome →
      exec (.hostEnqueue (64 * n) bs) s = .next (s.post (.launchEntryArrival q.num entry))) ∧
    (q.isLaunch = false → q.poppers = [] → held = false → full = false →
      exec (.hostEnqueue (64 * n) bs) s = .next (appendEntry s q entry)) ∧
    (q.isLaunch = false → q.poppers = [] → held = true ∨ full = true → s.hub.overflow.length < 1024 →
      exec (.hostEnqueue (64 * n) bs) s = .next (s.onHub (fun h => { h with
        overflow := h.overflow ++ [{ queue := q.num, entry := entry }] }))) ∧
    (q.isLaunch = false → q.poppers = [] → held = true ∨ full = true → 1024 ≤ s.hub.overflow.length →
      exec (.hostEnqueue (64 * n) bs) s = .next (countHost (s.onQueue q.num (fun q => { q with ovf := true }))))) ∧
  (∀ s n q h, s.queue? n = some q → s.hub.overflow.find? (fun h => h.queue = n) = some h → q.poppers = [] → q.pushers = [] →
    (q.tail - q.head).toNat < 2 ^ q.lcap → exec (.overflowAppend n) s = .next ((appendEntry (s.onHub (fun k =>
      { k with overflow := takeHeld n k.overflow })) q h.entry).postOnce (.overflowAppend n))) ∧
  (∀ va len s, va.toNat + len ≤ 2 ^ 36 → (s.hub.bar4 = none → exec (.bar4Read va len) s = .next (bar4Answer s (List.replicate len 0xFF))) ∧
    (∀ n bs, s.hub.bar4 = some n → readVA s 256 n va.toNat len = .ok bs →
      exec (.bar4Read va len) s = .next (bar4Answer s bs)) ∧
    (∀ n e, s.hub.bar4 = some n → readVA s 256 n va.toNat len = .error e →
      exec (.bar4Read va len) s = .next (countHost (bar4Answer s (List.replicate len 0xFF))))) ∧
  (∀ va bs s, va.toNat + bs.length ≤ 2 ^ 36 → (s.hub.bar4 = none → exec (.bar4Write va bs) s = .next (countHost s)) ∧
    (∀ n s1, s.hub.bar4 = some n → writeVA s 256 n va.toNat bs = .ok s1 → exec (.bar4Write va bs) s = .next s1) ∧
    (∀ n e, s.hub.bar4 = some n → writeVA s 256 n va.toNat bs = .error e →
      exec (.bar4Write va bs) s = .next (countHost s))) ∧
  (∀ (va : Word64) op ty (d c : Word64) s, hostAtomic op ty = true → 32 ≤ ty.width →
    let n := ty.width / 8
    va.toNat + n ≤ 2 ^ 36 → va.toNat % n = 0 →
    (s.hub.bar4 = none → execEv (.hostAtomicOp va op ty d c) s = .next (countHost (bar4Answer s (List.replicate n 0xFF)))) ∧
    (∀ k g, s.hub.bar4 = some k → piecesOf s 256 k .atomic va.toNat n = .ok g →
      let old := (segKeys g).map (fun k => s.mem.get k)
      let new := atomNew op ty (leNat old) d.toNat c.toNat
      execEv (.hostAtomicOp va op ty d c) s = .next (bar4Answer (s.apply ((segKeys g).zip (leBytes n new))) old)) ∧
    (∀ k e, s.hub.bar4 = some k → piecesOf s 256 k .atomic va.toNat n = .error e →
      execEv (.hostAtomicOp va op ty d c) s = .next (countHost (bar4Answer s (List.replicate n 0xFF))))) ∧
  (∀ (va : Word64) s, (∀ len, 2 ^ 36 < va.toNat + len → exec (.bar4Read va len) s = .next s) ∧
    (∀ bs, 2 ^ 36 < va.toNat + List.length bs → exec (.bar4Write va bs) s = .next s) ∧
    (∀ op ty d c, 2 ^ 36 < va.toNat + ty.width / 8 → execEv (.hostAtomicOp va op ty d c) s = .next s))

/-- 20 R443, R445-R447; 09 R209, R216; 05 R127: DEVICE_START and BOOT_FAILURE, ports that go down, revocation, sparing, and the
health counters. The model's own choices in it: that ready stays 0 in minimal mode (log 51, DESIGN CHOICE), that the map of the lines
changes at SPARING_END, with the next slice in service for a spared one, and that a spared slot is no spared core (log 54, DESIGN
CHOICE), and when an uncorrectable error recurs (log 55, DESIGN CHOICE). -/
def Obligations.TheDeviceStartsLosesAndSparesUnits : Prop :=
  (∀ s, s.hub.ready = false → s.hub.minimal = false →
    (s.hub.fails < 3 → ∃ s', exec .deviceStart s = .next s' ∧ s'.hub.ready = true ∧ s'.hub.fails = 0 ∧
      (∀ p ∈ s'.hub.cxlUp, p = true) ∧ (∀ p ∈ s'.hub.palyrUp, p = true) ∧ s'.mem = s.mem) ∧
    (3 ≤ s.hub.fails → ∃ s', exec .deviceStart s = .next s' ∧ s'.hub.minimal = true ∧ s'.hub.ready = false ∧
      (∀ p ∈ s'.hub.cxlUp, p = false) ∧ s'.mem = s.mem) ∧
    (∀ reason, ∃ s', exec (.bootFailure reason) s = .next s' ∧ s'.hub.fails = min 3 (s.hub.fails + 1) ∧
      s'.hub.reason = reason % 256 ∧ s'.hub.ready = false ∧ s'.agenda.count .deviceStart = 1)) ∧
  (∀ s, s.hub.ready = true ∨ s.hub.minimal = true →
    exec .deviceStart s = .next s ∧ ∀ reason, exec (.bootFailure reason) s = .next s) ∧
  (∀ p s, ∃ s', exec (.cxlPortDown p) s = .next s' ∧ s'.hub.cxlUp = s.hub.cxlUp.set p false ∧ s'.mem = s.mem) ∧
  (∀ p s, ∃ s', exec (.palyrPortDown p) s = .next s' ∧ s'.hub.palyrUp = s.hub.palyrUp.set p false ∧ s'.mem = s.mem) ∧
  (∀ n s, ∃ s' e, exec (.extentRevoke n) s = .next s' ∧ e ∈ s'.hub.extents ∧ e.num = n ∧
    (∀ x ∈ s'.hub.extents, x.num = n → x.revoked = true ∧ x.held = false) ∧
    (∀ q ∈ s'.faults, waitsFor s' n q = false)) ∧
  (∀ core slot s, ∃ s', exec (.spareCore core slot) s = .next s' ∧ s'.hub.cores = (if slot.isNone then s.hub.cores + 1 else s.hub.cores) ∧ s'.mem = s.mem ∧
    (∀ n, (slot = some n ∨ slot = none ∧ n < 4) → (core, n) ∈ s'.hub.sparedSlots) ∧
    (slot = none → Config.sparePool 0 ≤ s.hub.cores + 1 → s'.hub.replace = true)) ∧
  (∀ c s, ∃ s', exec (.spareChannel c) s = .next s' ∧ s'.hub.chans = s.hub.chans + 1 ∧ c ∈ s'.hub.movingCh ∧
    .sparingEnd ∈ s'.agenda ∧ s'.mem = s.mem ∧ (Config.sparePool 1 ≤ s.hub.chans + 1 → s'.hub.replace = true)) ∧
  (∀ n ms s, ∃ s', exec (.spareSlice n ms) s = .next s' ∧ s'.hub.slices = s.hub.slices + 1 ∧ (n, ms) ∈ s'.hub.moving ∧
    .sparingEnd ∈ s'.agenda ∧ s'.mem = s.mem ∧ (Config.sparePool 2 ≤ s.hub.slices + 1 → s'.hub.replace = true) ∧
    (∀ k, homeSlice s k = n → lineMoves s' k = true)) ∧
  (∀ s, ∃ s', exec .sparingEnd s = .next s' ∧ s'.hub.moving = [] ∧ s'.hub.movingCh = [] ∧ s'.mem = s.mem ∧
    (∀ k, lineMoves s' k = false)) ∧
  (∀ s, ∃ s', exec .softErrorCorrected s = .next s' ∧ s'.hub.soft = s.hub.soft + 1 ∧
    .softErrorWindowExpiry ∈ s'.agenda ∧ s'.mem = s.mem ∧
    (255 ≤ s.hub.soft → s'.hub.msiLog = s.hub.msiLog ∧ s'.hub.pba = s.hub.pba)) ∧
  (∀ s, ∃ s', exec .softErrorWindowExpiry s = .next s' ∧ s'.hub.soft = s.hub.soft - 1 ∧ s'.mem = s.mem ∧
    (s.hub.soft = 0 ∨ 255 < s.hub.soft → s'.hub.msiLog = s.hub.msiLog ∧ s'.hub.pba = s.hub.pba)) ∧
  (∀ n s, (n ∈ s.hub.errSeen → ∃ s', exec (.uncorrectableError n) s = .next s' ∧ s'.hub.replace = true ∧ s'.mem = s.mem ∧
      (s.hub.replace = true → s'.hub.msiLog = s.hub.msiLog ∧ s'.hub.pba = s.hub.pba)) ∧
    (n ∉ s.hub.errSeen → exec (.uncorrectableError n) s =
      .next { s with hub := { s.hub with errSeen := s.hub.errSeen ++ [n] } })) ∧
  (∀ s s2, noteHealth s s2 =
    if bootWord s.hub = bootWord s2.hub ∧ healthWord s.hub = healthWord s2.hub then s2 else raiseVec s2 0) ∧
  (∀ s i, let has (x : Nat) : Prop := x < 256 ∧ (∀ h ∈ s.hub.spareHomes, h.1 ≠ x) ∧ (∀ m ∈ s.hub.moving, m.1 ≠ x) ∧
      (s.queues.filter (fun q => q.slice = x)).length < 1024
    (∃ x, has x) → has (queueRoom s i)) ∧
  (∀ b r s, exec (.subarrayRefresh b r) s = .next s)

/-- 02 R43, R44, R41, 06 R152, 04 R98: the frame of the scalar, vector, predicate and floating-point instructions, of the moves by
number, of the control registers and of the one-word forms. A floating-point instruction is taken with no trap enabled; its sticky
flags may become 1. -/
def Obligations.RegisterInstructionsLeaveEverythingElse : Prop :=
  FrameOf
    [(0x42, 0, .sadd), (0x42, 1, .ssub), (0x42, 2, .smul), (0x42, 3, .smulh), (0x42, 4, .sand),
     (0x42, 5, .sor), (0x42, 6, .sxor), (0x42, 7, .sandn), (0x42, 8, .sshl), (0x42, 9, .sshr),
     (0x42, 10, .ssar), (0x42, 11, .smin), (0x42, 12, .smax), (0x42, 13, .sclz), (0x42, 14, .spopc),
     (0x42, 15, .sbfe), (0x42, 16, .sbfi), (0x42, 17, .ssel), (0x42, 18, .scmp), (0x42, 19, .sdiv),
     (0x41, 2, .mpop), (0x41, 3, .mfirst), (0x40, 4, .call), (0x40, 7, .loop), (0x59, 3, .shqry),
     (0x59, 6, .vext)]
    false (fun x n => decide (n = x.d.toNat)) (fun _ _ => false) (fun _ _ => false) ∧
  FrameOf
    [(0x43, 0, .vintVadd), (0x43, 1, .vintVsub), (0x43, 2, .vintVmul), (0x43, 3, .vmulh), (0x43, 4, .vmad),
     (0x43, 5, .vintVmin), (0x43, 6, .vintVmax), (0x43, 7, .vabs), (0x43, 8, .vand), (0x43, 9, .vor),
     (0x43, 10, .vxor), (0x43, 11, .vandn), (0x43, 12, .vnot), (0x43, 13, .vshl), (0x43, 14, .vshr),
     (0x43, 15, .vsar), (0x43, 16, .vclz), (0x43, 17, .vpopc), (0x43, 18, .vbrev), (0x43, 19, .vbfe),
     (0x43, 20, .vbfi), (0x43, 21, .vsel), (0x43, 22, .vilv), (0x43, 23, .vdil), (0x43, 24, .vlaneid),
     (0x48, 0, .shfl), (0x48, 1, .shfx), (0x48, 2, .shfr), (0x48, 3, .bcast), (0x59, 5, .vbcs)]
    false (fun _ _ => false) (fun x n => decide (n = x.d.toNat) || x.ty.wide && decide (n = x.d.toNat + 1))
    (fun _ _ => false) ∧
  FrameOf [(0x49, 1, .plog), (0x49, 2, .pset), (0x48, 4, .vote), (0x41, 1, .mpred)]
    false (fun _ _ => false) (fun _ _ => false) (fun x n => decide (n = x.d.toNat)) ∧
  FrameOf [(0x49, 0, .vcmp)] false (fun _ _ => false) (fun _ _ => false)
    (fun x n => decide (n = x.d.toNat) || decide (n = x.f 4 0)) ∧
  FrameOf [(0x43, 25, .vaddc)] false (fun _ _ => false)
    (fun x n => decide (n = x.d.toNat) || x.ty.wide && decide (n = x.d.toNat + 1)) (fun x n => decide (n = x.f 4 0)) ∧
  FrameOf
    [(0x44, 0, .vfpVadd), (0x44, 1, .vfpVsub), (0x44, 2, .vfpVmul), (0x44, 3, .vfma), (0x44, 4, .vfpVmin),
     (0x44, 5, .vfpVmax), (0x44, 6, .vmed3), (0x44, 7, .vrint), (0x44, 8, .vfract), (0x44, 12, .vcopysign),
     (0x48, 5, .reduce), (0x48, 6, .scan)]
    true (fun _ _ => false) (fun x n => decide (n = x.d.toNat) || x.ty.wide && decide (n = x.d.toNat + 1))
    (fun _ _ => false) ∧
  FrameOf [(0x40, 0, .bra), (0x40, 1, .bmz), (0x40, 2, .bmnz), (0x40, 3, .bsc), (0x40, 10, .nop)]
    false (fun _ _ => false) (fun _ _ => false) (fun _ _ => false) ∧
  FrameOf
    [(0x44, 9, .vldexp), (0x45, 0, .vcvt), (0x45, 1, .vpackn), (0x45, 4, .vquant), (0x46, 0, .vrcp),
     (0x46, 1, .vrsq), (0x46, 3, .vex2), (0x46, 4, .vlg2), (0x47, 2, .vdotf8), (0x47, 3, .vdotf4)]
    true (fun _ _ => false) (fun x n => decide (n = x.d.toNat) || x.ty.wide && decide (n = x.d.toNat + 1))
    (fun _ _ => false) ∧
  FrameOf [(0x45, 2, .vunpackn)] true (fun _ _ => false)
    (fun x n => decide (x.d.toNat ≤ n) && decide (n < x.d.toNat + x.ty.elems)) (fun _ _ => false) ∧
  FrameOf [(0x44, 10, .vfrexp)] true (fun _ _ => false)
    (fun x n => decide (n = x.d.toNat) || x.ty.wide && !x.bit 7 && decide (n = x.d.toNat + 1)) (fun _ _ => false) ∧
  FrameOf [(0x44, 11, .vclass)] true (fun _ _ => false) (fun x n => decide (n = x.d.toNat)) (fun _ _ => false) ∧
  FrameOf [(0x45, 3, .vbscale), (0x47, 0, .vdot8), (0x47, 1, .vdot4), (0x59, 2, .shape)]
    false (fun _ _ => false) (fun x n => decide (n = x.d.toNat)) (fun _ _ => false) ∧
  FrameOf [(0x58, 0, .srd)] false (fun x n => decide (n = x.d.toNat)) (fun _ _ => false) (fun _ _ => false) ∧
  FrameOf [(0x58, 4, .ychk)] false (fun _ _ => false) (fun _ _ => false) (fun x n => decide (n = x.d.toNat)) ∧
  (∀ x s t s' u, Issues 0x59 2 x s t → exec (.shape x) s = .next s' → s'.team? t.uid = some u → ∀ n l, u.lane n l = t.lane n l) ∧
  (∀ x s t s', Issues 0x41 0 x s t → exec (.pmask x) s = .next s' → Kept s s' t x
    (fun n => decide (x.d.toNat ≤ n) && decide (n < x.d.toNat + (t.width + 63) / 64)) (fun _ => false) (fun _ => false) false) ∧
  (∀ x s t s', let i := (srcScalar s t x x.a).toNat + x.f 7 0
    let good := if x.bit 8 then i < 128 else i < t.nv ∧ (x.ty.wide → i % 2 = 0 ∧ i + 1 < t.nv)
    let at_ (d n : Nat) : Bool := decide (n = d) || x.ty.wide && decide (n = d + 1)
    (Issues 0x59 0 x s t → good → exec (.rmovx x) s = .next s' → Kept s s' t x (fun n => x.bit 8 && decide (n = x.d.toNat))
      (fun n => !x.bit 8 && at_ x.d.toNat n) (fun _ => false) false) ∧
    (Issues 0x59 1 x s t → good → exec (.rstx x) s = .next s' → Kept s s' t x (fun n => x.bit 8 && decide (n = i))
      (fun n => !x.bit 8 && at_ i n) (fun _ => false) false)) ∧
  (∀ x s t s', Issues 0x58 1 x s t → t.crRefuse (x.f 11 0) (srcScalar s t x x.a) = none → exec (.swr x) s = .next s' →
    SameOutside s s' t.uid ∧ ∃ u, s'.team? t.uid = some u ∧ u = { t with
      pc := u.pc, status := u.status, trapv := u.trapv, trapa := u.trapa, prio := u.prio, role := u.role, issueNo := u.issueNo } ∧
      (x.f 11 0 ≠ 0 → u.status = t.status) ∧ (x.f 11 0 ≠ 1 → u.trapv = t.trapv) ∧ (x.f 11 0 ≠ 2 → u.trapa = t.trapa) ∧
      (x.f 11 0 ≠ 3 → u.prio = t.prio) ∧ (x.f 11 0 ≠ 4 → u.role = t.role)) ∧
  LongKept .vsqrt 2 (fun x n => decide (n = x.d.toNat) || x.ty.wide && decide (n = x.d.toNat + 1)) ∧
  LongKept .vsin 5 (fun x n => decide (n = x.d.toNat) || x.ty.wide && decide (n = x.d.toNat + 1)) ∧
  LongKept .vcos 6 (fun x n => decide (n = x.d.toNat) || x.ty.wide && decide (n = x.d.toNat + 1)) ∧
  LongKept .vtanh 7 (fun x n => decide (n = x.d.toNat) || x.ty.wide && decide (n = x.d.toNat + 1)) ∧
  LongKept .vrot 8 (fun x n => decide (n = x.d.toNat) || decide (n = x.d.toNat + 1)) ∧
  LongKept .vdiv 9 (fun x n => decide (n = x.d.toNat) || x.ty.wide && decide (n = x.d.toNat + 1)) ∧
  FrameShort
    [(0x42, 0, .saddShort, (shortTwo · .sc .i64)), (0x42, 1, .ssubShort, (shortTwo · .sc .i64)),
     (0x42, 4, .sandShort, (shortTwo · .sc .b64)), (0x42, 5, .sorShort, (shortTwo · .sc .b64)),
     (0x42, 8, .sshlShort, (shortTwo · .sc .b64)), (0x42, 9, .sshrShort, (shortTwo · .sc .b64)),
     (0x42, 13, .smov, (shortOne · .sc .b64)), (0x40, 7, .loopShort, fun y => shortBare y y.d (shortOff8 y))]
    false (fun x n => decide (n = x.d.toNat)) (fun _ _ => false) (fun _ _ => false) ∧
  FrameShort
    [(0x43, 0, .vaddI32Short, (shortTwo · .vec .i32)), (0x43, 1, .vsubI32Short, (shortTwo · .vec .i32)),
     (0x43, 8, .vandShort, (shortTwo · .vec .b32)), (0x43, 9, .vorShort, (shortTwo · .vec .b32)),
     (0x43, 10, .vxorShort, (shortTwo · .vec .b32)), (0x43, 13, .vshlShort, (shortTwo · .vec .b32)),
     (0x43, 14, .vshrShort, (shortTwo · .vec .b32)), (0x44, 11, .vmov, (shortOne · .vec .b32))]
    false (fun _ _ => false) (fun x n => decide (n = x.d.toNat)) (fun _ _ => false) ∧
  FrameShort
    [(0x44, 0, .vaddF32Short, (shortTwo · .vec .f32)), (0x44, 2, .vmulF32Short, (shortTwo · .vec .f32)),
     (0x44, 4, .vminF32Short, (shortTwo · .vec .f32)), (0x44, 5, .vmaxF32Short, (shortTwo · .vec .f32))]
    true (fun _ _ => false) (fun x n => decide (n = x.d.toNat)) (fun _ _ => false) ∧
  FrameShort
    [(0x40, 10, .nopShort, (shortBare · 0 0)), (0x40, 0, .braShort, fun y => shortBare y 0 (shortOff16 y)),
     (0x40, 1, .bmzShort, fun y => shortBare y 0 (shortOff16 y)),
     (0x40, 2, .bmnzShort, fun y => shortBare y 0 (shortOff16 y))]
    false (fun _ _ => false) (fun _ _ => false) (fun _ _ => false) ∧
  FrameShort [(0x58, 4, .ychkShort, fun y => shortBare y y.d 0)] false (fun _ _ => false) (fun _ _ => false) (fun x n => decide (n = x.d.toNat))

/-- 06 R148, 09 R221, 11 R258: the frame of an access at its issue, with no other instruction of its team in flight. A read makes its
destination empty, a store makes nothing empty, and memory changes only when WRITE_PERFORMED, RED_COMBINE or ACCESS_RESPONSE
makes it (`WritesReachMemory`, `LoadsAndAtomicsDeliverTheirLane`). -/
def Obligations.MemoryInstructionsLeaveRegistersAndMemory : Prop :=
  MemKept Instr.ld id 0x4A 0 false
    (fun s t x l => memAddr s t x (x.bit 14) false (x.f 16 15) (sextN 14 (x.f 13 0)) l)
    (fun x => x.bit 17) (fun _ _ => false) (fun x n => decide (n = x.d.toNat) || x.ty.wide && decide (n = x.d.toNat + 1)) ∧
  MemKept Instr.ldv id 0x4A 2 false
    (fun s t x l => memAddr s t x (x.bit 14) true (x.f 16 15) (sextN 14 (x.f 13 0)) l)
    (fun x => x.bit 17) (fun _ _ => false) (fun x n => decide (n = x.d.toNat) || x.ty.wide && decide (n = x.d.toNat + 1)) ∧
  MemKept Instr.lds id 0x4A 4 true
    (fun s t x l => memAddr s t x (x.bit 14) false (x.f 16 15) (sextN 14 (x.f 13 0)) l)
    (fun x => x.bit 17) (fun x n => decide (n = x.d.toNat)) (fun _ _ => false) ∧
  MemKept Instr.atom id 0x4B 0 false
    (fun s t x l => memAddr s t x (x.bit 12) false (x.f 14 13) (sextN 12 (x.f 11 0)) l)
    (fun _ => false) (fun _ _ => false) (fun x n => decide (n = x.d.toNat) || x.ty.wide && decide (n = x.d.toNat + 1)) ∧
  MemKept Instr.atoms id 0x4B 2 true
    (fun s t x l => memAddr s t x (x.bit 12) false (x.f 14 13) (sextN 12 (x.f 11 0)) l)
    (fun _ => false) (fun x n => decide (n = x.d.toNat)) (fun _ _ => false) ∧
  MemKept Instr.st id 0x4A 1 false
    (fun s t x l => memAddr s t x (x.bit 14) false (x.f 16 15) (sextN 14 (x.f 13 0)) l)
    (fun x => x.bit 17) (fun _ _ => false) (fun _ _ => false) ∧
  MemKept Instr.stv id 0x4A 3 false
    (fun s t x l => memAddr s t x (x.bit 14) true (x.f 16 15) (sextN 14 (x.f 13 0)) l)
    (fun x => x.bit 17) (fun _ _ => false) (fun _ _ => false) ∧
  MemKept Instr.sts id 0x4A 5 true
    (fun s t x l => memAddr s t x (x.bit 14) false (x.f 16 15) (sextN 14 (x.f 13 0)) l)
    (fun x => x.bit 17) (fun _ _ => false) (fun _ _ => false) ∧
  MemKept Instr.red id 0x4B 1 false
    (fun s t x l => memAddr s t x (x.bit 12) false (x.f 14 13) (sextN 12 (x.f 11 0)) l)
    (fun _ => false) (fun _ _ => false) (fun _ _ => false) ∧
  MemKept Instr.ldvShort (shortOne · .sc .b32) 0x4A 2 false
    (fun s t x l => memAddr s t x (x.bit 14) true (x.f 16 15) (sextN 14 (x.f 13 0)) l)
    (fun x => x.bit 17) (fun _ _ => false) (fun x n => decide (n = x.d.toNat) || x.ty.wide && decide (n = x.d.toNat + 1)) ∧
  MemKept Instr.ldsShort (shortOne · .sc .b64) 0x4A 4 true
    (fun s t x l => memAddr s t x (x.bit 14) false (x.f 16 15) (sextN 14 (x.f 13 0)) l)
    (fun x => x.bit 17) (fun x n => decide (n = x.d.toNat)) (fun _ _ => false) ∧
  MemKept Instr.stvShort (shortOne · .sc .b32) 0x4A 3 false
    (fun s t x l => memAddr s t x (x.bit 14) true (x.f 16 15) (sextN 14 (x.f 13 0)) l)
    (fun x => x.bit 17) (fun _ _ => false) (fun _ _ => false) ∧
  MemKept Instr.stsShort (shortOne · .sc .b64) 0x4A 5 true
    (fun s t x l => memAddr s t x (x.bit 14) false (x.f 16 15) (sextN 14 (x.f 13 0)) l)
    (fun x => x.bit 17) (fun _ _ => false) (fun _ _ => false)

/-- 03 R61-R65, R72, R82: for every instruction with an encoding that passes the checks of R82, decoding its bytes gives it
back with every operand; and whatever the decoder accepts encodes to exactly the words it read, so that no bit of an encoding is
dropped. -/
def Obligations.EncodingAndDecodingAgree : Prop :=
  (∀ (i : Instr) (rest : List Byte), i.form ≠ .event → i.illegal = none → decodeBytes (encodeBytes i ++ rest) = .ok i) ∧
  (∀ (ws : List Word) (i : Instr), decode ws = .ok i →
    i.illegal = none ∧ evOf i = none ∧ encode i = ws.take (encode i).length ∧ 4 * (encode i).length = i.bytes)

/-- 09 R195, R207: memory is one list of bytes by address. From every state whose memory is canonical (addresses strictly rising, no
byte that an unlisted address reads as), whatever instruction or event runs next, memory is canonical afterwards, so that
equal memories stay equal data. What an unlisted address reads as is the choice of log 4. -/
def Obligations.EveryStepKeepsTheMemoryCanonical : Prop :=
  ∀ s s', s.mem.wf = true → step s = .next s' → s'.mem.wf = true

/-- 02 R53, 03 R70, 10 R239, 20 R445: the values that the rules give for reset. That nothing is listed in memory is the choice of
log 4, that no object stands in any list that of log 57, and that a start of the device is the
one event due that of log 1 (each DESIGN CHOICE). -/
def Obligations.ResetLeavesAnEmptyDevice : Prop :=
  State.reset.mem.wf = true ∧ State.reset.memWf = true ∧ State.reset.age = 1 ∧ State.reset.clk = 0 ∧ State.reset.cores.length = 256 ∧
  (∀ c ∈ State.reset.cores, c.nextCopy = 1 ∧ c.copies = [] ∧ c.ended = [] ∧ ∀ b ∈ c.recs, b.st = .empty) ∧
  State.reset.hub.ready = false ∧ State.reset.hub.minimal = false ∧ State.reset.hub.fails = 0 ∧
  State.reset.agenda = [.deviceStart] ∧ State.reset.ctxs = [] ∧ State.reset.queues = [] ∧
  State.reset.launches = [] ∧ State.reset.teams = []

/-- 03 R61, R62, R85, 03 R70, 05 R122: when a team is chosen that is at no trap and no wound, and the words at its program counter, as
many as `len` asks for, can be fetched and decode to an instruction, the step is `exec` of it at the state in which the cycles of
the step have passed and the words have entered the instruction cache, with the time of the issue noted after it. Words that R82
refuses take the trap `illegal` with the reason and its operand as subcode. When an event is
chosen, the step is `exec` of its constructor. Which of the agenda and the slots is served is log 1, how many cycles pass is log 2. -/
def Obligations.AStepRunsTheDecodedInstruction : Prop :=
  (∀ s e i, s.agenda[chosen s]? = some e → evOf i = some e →
    (portHolds (ahead s) e = false → step s = wrapUp (ahead s) none (exec i (ahead s))) ∧
    (portHolds (ahead s) e = true → e.posted = false → step s = .next { ahead s with agenda := (ahead s).agenda ++ [e] }) ∧
    (portHolds (ahead s) e = true → e.posted = true → step s = .next { ahead s with
      agenda := (ahead s).agenda.filter (fun x => !x.posted) ++ e :: (ahead s).agenda.filter Ev.posted })) ∧
  (∀ s t b0 b1 i, let u := t.ahead s
    let s1 := { ahead s with cur := t.uid }
    s.agenda.length ≤ chosen s → (stepTeams s)[chosen s - s.agenda.length]? = some t → nextTrap u = none →
    (u.wound = false ∨ u.handler = true) → u.pc.toNat % 4 = 0 → fetchBytes s1 u u.pc.toNat 4 = .ok b0 →
    fetchBytes s1 u ((u.pc.toNat + 4) % 2 ^ 64) (4 * lenWords (leNat b0) - 4) = .ok b1 →
    decodeBytes (b0 ++ b1) = .ok i → step s = wrapUp (ahead s) (some t.uid) (exec i (fetchFill s1 u))) ∧
  (∀ s t b0 b1 r d, let u := t.ahead s
    let s1 := { ahead s with cur := t.uid }
    s.agenda.length ≤ chosen s → (stepTeams s)[chosen s - s.agenda.length]? = some t → nextTrap u = none →
    (u.wound = false ∨ u.handler = true) → u.pc.toNat % 4 = 0 → fetchBytes s1 u u.pc.toNat 4 = .ok b0 →
    fetchBytes s1 u ((u.pc.toNat + 4) % 2 ^ 64) (4 * lenWords (leNat b0) - 4) = .ok b1 →
    decodeBytes (b0 ++ b1) = .illegal r d → step s = wrapUp (ahead s) (some t.uid)
      (.next (takeTrap s1 u (trapHere u.pc (u.pc + BitVec.ofNat 64 (4 * lenWords (leNat b0))) 0x01 (r * 256 + d))))) ∧
  (∀ s u o s', wrapUp s u o = .next s' → ∃ s0, o = .next s0 ∧ s'.mem = s0.mem ∧ s'.cores = s0.cores ∧ s'.hub = s0.hub ∧
    s'.teams.map (fun t => (t.uid, t.pc, t.s, t.v, t.p, t.status, t.run)) =
      s0.teams.map (fun t => (t.uid, t.pc, t.s, t.v, t.p, t.status, t.run)) ∧
    (∀ e ∈ s0.agenda, e ∈ s'.agenda)) ∧
  (∀ s, 1 ≤ elapsed s ∧ (tick s).clk.toNat = min (2 ^ 64 - 1) (s.clk.toNat + elapsed s) ∧ s.clk.toNat ≤ (tick s).clk.toNat ∧
    (tick s).mem = s.mem ∧ (ahead s).mem = s.mem ∧ (ahead s).clk = (tick s).clk)

/-- 03 R63, R65, R67, R72, R78, R80, R82: a one-word form, one with a literal, three extended forms, one of them with its literal, and
the refusal of a reserved length, group, operation, guard and X24 bit. -/
def Obligations.WordsDecodeAsTheTablesSay : Prop :=
  decode [(4#8 ++ 3#8 ++ 0#1 ++ 0#1 ++ 23#5 ++ 0x0E#7 ++ 0#2 : Word)] =
    .ok (.saddShort { neg := false, g := 23, d := 3, a := 4, fa := false, lit := none }) ∧
  decode [(0#8 ++ 5#8 ++ 0#1 ++ 0#1 ++ 23#5 ++ 0x03#7 ++ 2#2 : Word), 9, 0] =
    .ok (.vaddI32Short { neg := false, g := 23, d := 5, a := 0, fa := false, lit := some 9 }) ∧
  decode [(4#8 ++ 3#8 ++ 0#1 ++ 0#1 ++ 23#5 ++ 0x42#7 ++ 1#2 : Word),
      (0#3 ++ 7#5 ++ 0#2 ++ 1#2 ++ 1#2 ++ 0#1 ++ 0#1 ++ 0#8 ++ 5#8 : Word), (0#24 ++ 0#8 : Word)] =
    .ok (.sadd
      { neg := false, g := 23, rnd := .rs, ty := .i64, d := 3, a := { cls := .sc, code := 4, trp := false },
        b := { cls := .sc, code := 5, trp := false }, c := { cls := .vec, code := 0, trp := false }, x24 := 0, lit := none }) ∧
  decode [(2#8 ++ 1#8 ++ 0#1 ++ 1#1 ++ 2#5 ++ 0x44#7 ++ 1#2 : Word),
      (2#3 ++ 0x0B#5 ++ 0#2 ++ 0#2 ++ 0#2 ++ 0#1 ++ 0#1 ++ 4#8 ++ 3#8 : Word), (0#24 ++ 3#8 : Word)] =
    .ok (.vfma
      { neg := true, g := 2, rnd := .rtz, ty := .f32, d := 1, a := { cls := .vec, code := 2, trp := false },
        b := { cls := .vec, code := 3, trp := false }, c := { cls := .vec, code := 4, trp := false }, x24 := 0, lit := none }) ∧
  decode [(4#8 ++ 3#8 ++ 0#1 ++ 0#1 ++ 23#5 ++ 0x42#7 ++ 3#2 : Word),
      (0#3 ++ 0x19#5 ++ 0#2 ++ 3#2 ++ 1#2 ++ 0#1 ++ 0#1 ++ 0#8 ++ 0xFF#8 : Word), (0#24 ++ 5#8 : Word),
      0x9ABCDEF0, 0x12345678] =
    .ok (.sor
      { neg := false, g := 23, rnd := .rs, ty := .b64, d := 3, a := { cls := .sc, code := 4, trp := false },
        b := { cls := .obj, code := 0xFF, trp := false }, c := { cls := .vec, code := 0, trp := false }, x24 := 0,
        lit := some 0x123456789ABCDEF0 }) ∧
  decode [(4#8 ++ 3#8 ++ 0#1 ++ 0#1 ++ 23#5 ++ 0x0E#7 ++ 1#2 : Word), 0, 0] = .illegal 0x01 0x0E ∧
  decode [(4#8 ++ 3#8 ++ 0#1 ++ 0#1 ++ 23#5 ++ 0x7E#7 ++ 1#2 : Word), 0, 0] = .illegal 0x02 0x7E ∧
  decode [(4#8 ++ 3#8 ++ 0#1 ++ 0#1 ++ 23#5 ++ 0x42#7 ++ 1#2 : Word), 0, (0#24 ++ 0x14#8 : Word)] =
    .illegal 0x03 0x14 ∧
  decode [(4#8 ++ 3#8 ++ 0#1 ++ 0#1 ++ 24#5 ++ 0x0E#7 ++ 0#2 : Word)] = .illegal 0x04 24 ∧
  decode [(4#8 ++ 3#8 ++ 0#1 ++ 0#1 ++ 23#5 ++ 0x42#7 ++ 1#2 : Word),
      (0#3 ++ 7#5 ++ 0#2 ++ 1#2 ++ 1#2 ++ 0#1 ++ 0#1 ++ 0#8 ++ 5#8 : Word), (0x800000#24 ++ 0#8 : Word)] =
    .illegal 0x0B 23
end

