-- ==== Sys2Proof/Laws/Memory.lean ====
section
/-!
SUPPORT. The sparse memory: a byte read after writes, and the canonical form that every write keeps.
-/

namespace Sys2Proof.Machine

/-! ## Reading after writing -/

theorem Memory.get_set (m : Memory) (k k' : Nat) (v : Byte) (h : m.wf = true) :
    (m.set k v).get k' = if k' = k then v else m.get k' := by
  induction m with
  | nil =>
    simp only [Memory.set]
    by_cases hk : k' = k
    · subst hk; split <;> simp_all [Memory.get]
    · split <;> simp [Memory.get, Ne.symm hk]
  | cons c l ih =>
    obtain ⟨a, b⟩ := c
    simp only [Memory.wf, Bool.and_eq_true, decide_eq_true_eq, List.all_eq_true] at h
    obtain ⟨⟨hb, hl⟩, hw⟩ := h
    have absent : ∀ (l : Memory) (x : Nat), (∀ c ∈ l, x < c.1) → Memory.get l x = 0 := by
      intro l x hx
      induction l with
      | nil => rfl
      | cons c l ih =>
        have h1 := hx c (by simp)
        have h2 := ih (fun d hd => hx d (by simp [hd]))
        simp only [Memory.get]; rw [if_neg (by omega)]; exact h2
    have hget : ∀ x, x ≤ a → x ≠ a → Memory.get l x = 0 := by
      intro x hx hxa
      exact absent l x (fun c hc => Nat.lt_of_le_of_lt hx (hl c hc))
    have haa : Memory.get l a = 0 := absent l a (fun c hc => hl c hc)
    simp only [Memory.set]
    split
    · rename_i hka
      have h0 : Memory.get l k = 0 := hget k (by omega) (by omega)
      by_cases hv : v = 0
      · simp only [hv, if_true, Memory.get]
        by_cases hk : k' = k
        · subst hk; rw [if_neg (by omega), if_pos rfl]; exact h0
        · rw [if_neg hk]
      · simp only [hv, if_false, Memory.get]
        by_cases hk : k' = k
        · subst hk; simp
        · rw [if_neg (Ne.symm hk), if_neg hk]
    · split
      · rename_i h1 hka
        subst hka
        by_cases hv : v = 0
        · simp only [hv, if_true, Memory.get]
          by_cases hk : k' = k
          · subst hk; simp [haa]
          · rw [if_neg hk, if_neg (Ne.symm hk)]
        · simp only [hv, if_false, Memory.get]
          by_cases hk : k' = k
          · subst hk; simp
          · rw [if_neg (Ne.symm hk), if_neg hk, if_neg (Ne.symm hk)]
      · rename_i h1 h2
        simp only [Memory.get]
        by_cases hk : a = k'
        · subst hk; rw [if_pos rfl, if_neg (by omega), if_pos rfl]
        · rw [if_neg hk, ih hw, if_neg hk]

/-! ## The canonical form -/

theorem Memory.set_keys (m : Memory) (k : Nat) (v : Byte) (c : Nat × Byte) (h : c ∈ m.set k v) :
    c.1 = k ∨ c ∈ m := by
  induction m with
  | nil => by_cases hv : v = 0 <;> simp_all [Memory.set]
  | cons d l ih =>
    obtain ⟨a, b⟩ := d
    simp only [Memory.set] at h
    split at h
    · split at h <;> simp at h ⊢
      · exact .inr h
      · rcases h with rfl | h
        · simp
        · exact .inr h
    · split at h
      · split at h <;> simp at h ⊢
        · exact .inr (.inr h)
        · rcases h with rfl | h
          · simp
          · exact .inr (.inr h)
      · simp at h
        rcases h with rfl | h
        · simp
        · rcases ih h with h | h
          · exact .inl h
          · simp [h]

theorem Memory.wf_set (m : Memory) (k : Nat) (v : Byte) (h : m.wf = true) : (m.set k v).wf = true := by
  induction m with
  | nil =>
    simp only [Memory.set]
    split
    · rfl
    · simp_all [Memory.wf]
  | cons c l ih =>
    obtain ⟨a, b⟩ := c
    have h' := h
    simp only [Memory.wf, Bool.and_eq_true, decide_eq_true_eq, List.all_eq_true] at h
    obtain ⟨⟨hb, hl⟩, hw⟩ := h
    simp only [Memory.set]
    split
    · split
      · exact h'
      · rename_i hka hv
        simp only [Memory.wf, Bool.and_eq_true, decide_eq_true_eq, List.all_eq_true]
        refine ⟨⟨hv, ?_⟩, ⟨⟨hb, hl⟩, hw⟩⟩
        intro c hc
        rcases List.mem_cons.mp hc with rfl | hc
        · exact hka
        · exact Nat.lt_trans hka (hl c hc)
    · split
      · split
        · exact hw
        · rename_i h1 hka hv
          simp only [Memory.wf, Bool.and_eq_true, decide_eq_true_eq, List.all_eq_true]
          exact ⟨⟨hv, fun c hc => hka ▸ hl c hc⟩, hw⟩
      · rename_i h1 h2
        simp only [Memory.wf, Bool.and_eq_true, decide_eq_true_eq, List.all_eq_true]
        refine ⟨⟨hb, ?_⟩, ih hw⟩
        intro c hc
        rcases Memory.set_keys l k v c hc with h | h
        · omega
        · exact hl c h

theorem Memory.wf_setAll (m : Memory) (cs : List (Nat × Byte)) (h : m.wf = true) : (m.setAll cs).wf = true := by
  induction cs generalizing m with
  | nil => exact h
  | cons c cs ih => exact ih _ (Memory.wf_set m c.1 c.2 h)

theorem Memory.wf_setBytes (m : Memory) (k : Nat) (bs : List Byte) (h : m.wf = true) : (m.setBytes k bs).wf = true :=
  Memory.wf_setAll m _ h

theorem Memory.wf_setNum (m : Memory) (k n x : Nat) (h : m.wf = true) : (m.setNum k n x).wf = true :=
  Memory.wf_setAll m _ h

theorem Memory.wf_filter (m : Memory) (p : Nat × Byte → Bool) (h : m.wf = true) :
    Memory.wf (m.filter p) = true := by
  induction m with
  | nil => exact h
  | cons c l ih =>
    obtain ⟨a, b⟩ := c
    simp only [Memory.wf, Bool.and_eq_true, decide_eq_true_eq, List.all_eq_true] at h
    obtain ⟨⟨hb, hl⟩, hw⟩ := h
    by_cases hp : p (a, b) = true
    · rw [List.filter_cons_of_pos hp]
      simp only [Memory.wf, Bool.and_eq_true, decide_eq_true_eq, List.all_eq_true]
      exact ⟨⟨hb, fun c hc => hl c (List.mem_filter.mp hc).1⟩, ih hw⟩
    · rw [List.filter_cons_of_neg hp]; exact ih hw

/-- A byte that no write of a list names reads as before. -/
theorem Memory.get_setAll_other (m : Memory) (cs : List (Nat × Byte)) (k : Nat) (h : m.wf = true)
    (hk : ∀ c ∈ cs, c.1 ≠ k) : (m.setAll cs).get k = m.get k := by
  induction cs generalizing m with
  | nil => rfl
  | cons c cs ih =>
    have h1 : (m.set c.1 c.2).get k = m.get k := by
      rw [Memory.get_set m c.1 k c.2 h, if_neg (fun e => hk c (by simp) e.symm)]
    exact (ih _ (Memory.wf_set m c.1 c.2 h) (fun d hd => hk d (by simp [hd]))).trans h1

end Sys2Proof.Machine
end

