-- ==== Sys2Proof/Laws/State.lean ====
section
/-!
SUPPORT. What each update of the state and of a team leaves alone: one lemma for each field.
-/

namespace Sys2Proof.Machine

/-! ## State.setTeam -/

@[simp] theorem State.setTeam_stepNo (s : State) (t : Team) : (s.setTeam t).stepNo = s.stepNo := rfl
@[simp] theorem State.setTeam_nextId (s : State) (t : Team) : (s.setTeam t).nextId = s.nextId := rfl
@[simp] theorem State.setTeam_agenda (s : State) (t : Team) : (s.setTeam t).agenda = s.agenda := rfl
@[simp] theorem State.setTeam_choices (s : State) (t : Team) : (s.setTeam t).choices = s.choices := rfl
@[simp] theorem State.setTeam_cur (s : State) (t : Team) : (s.setTeam t).cur = s.cur := rfl
@[simp] theorem State.setTeam_clk (s : State) (t : Team) : (s.setTeam t).clk = s.clk := rfl
@[simp] theorem State.setTeam_beat (s : State) (t : Team) : (s.setTeam t).beat = s.beat := rfl
@[simp] theorem State.setTeam_age (s : State) (t : Team) : (s.setTeam t).age = s.age := rfl
@[simp] theorem State.setTeam_mem (s : State) (t : Team) : (s.setTeam t).mem = s.mem := rfl
@[simp] theorem State.setTeam_slices (s : State) (t : Team) : (s.setTeam t).slices = s.slices := rfl
@[simp] theorem State.setTeam_homes (s : State) (t : Team) : (s.setTeam t).homes = s.homes := rfl
@[simp] theorem State.setTeam_cores (s : State) (t : Team) : (s.setTeam t).cores = s.cores := rfl
@[simp] theorem State.setTeam_ctxs (s : State) (t : Team) : (s.setTeam t).ctxs = s.ctxs := rfl
@[simp] theorem State.setTeam_queues (s : State) (t : Team) : (s.setTeam t).queues = s.queues := rfl
@[simp] theorem State.setTeam_pushes (s : State) (t : Team) : (s.setTeam t).pushes = s.pushes := rfl
@[simp] theorem State.setTeam_launches (s : State) (t : Team) : (s.setTeam t).launches = s.launches := rfl
@[simp] theorem State.setTeam_keeps (s : State) (t : Team) : (s.setTeam t).keeps = s.keeps := rfl
@[simp] theorem State.setTeam_areas (s : State) (t : Team) : (s.setTeam t).areas = s.areas := rfl
@[simp] theorem State.setTeam_temps (s : State) (t : Team) : (s.setTeam t).temps = s.temps := rfl
@[simp] theorem State.setTeam_hasps (s : State) (t : Team) : (s.setTeam t).hasps = s.hasps := rfl
@[simp] theorem State.setTeam_writes (s : State) (t : Team) : (s.setTeam t).writes = s.writes := rfl
@[simp] theorem State.setTeam_flights (s : State) (t : Team) : (s.setTeam t).flights = s.flights := rfl
@[simp] theorem State.setTeam_faults (s : State) (t : Team) : (s.setTeam t).faults = s.faults := rfl
@[simp] theorem State.setTeam_declined (s : State) (t : Team) : (s.setTeam t).declined = s.declined := rfl
@[simp] theorem State.setTeam_passes (s : State) (t : Team) : (s.setTeam t).passes = s.passes := rfl
@[simp] theorem State.setTeam_hub (s : State) (t : Team) : (s.setTeam t).hub = s.hub := rfl

/-! ## State.onTeam -/

@[simp] theorem State.onTeam_stepNo (s : State) (u : Nat) (f : Team → Team) : (s.onTeam u f).stepNo = s.stepNo := rfl
@[simp] theorem State.onTeam_nextId (s : State) (u : Nat) (f : Team → Team) : (s.onTeam u f).nextId = s.nextId := rfl
@[simp] theorem State.onTeam_agenda (s : State) (u : Nat) (f : Team → Team) : (s.onTeam u f).agenda = s.agenda := rfl
@[simp] theorem State.onTeam_choices (s : State) (u : Nat) (f : Team → Team) : (s.onTeam u f).choices = s.choices := rfl
@[simp] theorem State.onTeam_cur (s : State) (u : Nat) (f : Team → Team) : (s.onTeam u f).cur = s.cur := rfl
@[simp] theorem State.onTeam_clk (s : State) (u : Nat) (f : Team → Team) : (s.onTeam u f).clk = s.clk := rfl
@[simp] theorem State.onTeam_beat (s : State) (u : Nat) (f : Team → Team) : (s.onTeam u f).beat = s.beat := rfl
@[simp] theorem State.onTeam_age (s : State) (u : Nat) (f : Team → Team) : (s.onTeam u f).age = s.age := rfl
@[simp] theorem State.onTeam_mem (s : State) (u : Nat) (f : Team → Team) : (s.onTeam u f).mem = s.mem := rfl
@[simp] theorem State.onTeam_slices (s : State) (u : Nat) (f : Team → Team) : (s.onTeam u f).slices = s.slices := rfl
@[simp] theorem State.onTeam_homes (s : State) (u : Nat) (f : Team → Team) : (s.onTeam u f).homes = s.homes := rfl
@[simp] theorem State.onTeam_cores (s : State) (u : Nat) (f : Team → Team) : (s.onTeam u f).cores = s.cores := rfl
@[simp] theorem State.onTeam_ctxs (s : State) (u : Nat) (f : Team → Team) : (s.onTeam u f).ctxs = s.ctxs := rfl
@[simp] theorem State.onTeam_queues (s : State) (u : Nat) (f : Team → Team) : (s.onTeam u f).queues = s.queues := rfl
@[simp] theorem State.onTeam_pushes (s : State) (u : Nat) (f : Team → Team) : (s.onTeam u f).pushes = s.pushes := rfl
@[simp] theorem State.onTeam_launches (s : State) (u : Nat) (f : Team → Team) : (s.onTeam u f).launches = s.launches := rfl
@[simp] theorem State.onTeam_keeps (s : State) (u : Nat) (f : Team → Team) : (s.onTeam u f).keeps = s.keeps := rfl
@[simp] theorem State.onTeam_areas (s : State) (u : Nat) (f : Team → Team) : (s.onTeam u f).areas = s.areas := rfl
@[simp] theorem State.onTeam_temps (s : State) (u : Nat) (f : Team → Team) : (s.onTeam u f).temps = s.temps := rfl
@[simp] theorem State.onTeam_hasps (s : State) (u : Nat) (f : Team → Team) : (s.onTeam u f).hasps = s.hasps := rfl
@[simp] theorem State.onTeam_writes (s : State) (u : Nat) (f : Team → Team) : (s.onTeam u f).writes = s.writes := rfl
@[simp] theorem State.onTeam_flights (s : State) (u : Nat) (f : Team → Team) : (s.onTeam u f).flights = s.flights := rfl
@[simp] theorem State.onTeam_faults (s : State) (u : Nat) (f : Team → Team) : (s.onTeam u f).faults = s.faults := rfl
@[simp] theorem State.onTeam_declined (s : State) (u : Nat) (f : Team → Team) : (s.onTeam u f).declined = s.declined := rfl
@[simp] theorem State.onTeam_passes (s : State) (u : Nat) (f : Team → Team) : (s.onTeam u f).passes = s.passes := rfl
@[simp] theorem State.onTeam_hub (s : State) (u : Nat) (f : Team → Team) : (s.onTeam u f).hub = s.hub := rfl

/-! ## State.onCore -/

@[simp] theorem State.onCore_stepNo (s : State) (n : Nat) (f : Core → Core) : (s.onCore n f).stepNo = s.stepNo := rfl
@[simp] theorem State.onCore_nextId (s : State) (n : Nat) (f : Core → Core) : (s.onCore n f).nextId = s.nextId := rfl
@[simp] theorem State.onCore_agenda (s : State) (n : Nat) (f : Core → Core) : (s.onCore n f).agenda = s.agenda := rfl
@[simp] theorem State.onCore_choices (s : State) (n : Nat) (f : Core → Core) : (s.onCore n f).choices = s.choices := rfl
@[simp] theorem State.onCore_cur (s : State) (n : Nat) (f : Core → Core) : (s.onCore n f).cur = s.cur := rfl
@[simp] theorem State.onCore_clk (s : State) (n : Nat) (f : Core → Core) : (s.onCore n f).clk = s.clk := rfl
@[simp] theorem State.onCore_beat (s : State) (n : Nat) (f : Core → Core) : (s.onCore n f).beat = s.beat := rfl
@[simp] theorem State.onCore_age (s : State) (n : Nat) (f : Core → Core) : (s.onCore n f).age = s.age := rfl
@[simp] theorem State.onCore_mem (s : State) (n : Nat) (f : Core → Core) : (s.onCore n f).mem = s.mem := rfl
@[simp] theorem State.onCore_slices (s : State) (n : Nat) (f : Core → Core) : (s.onCore n f).slices = s.slices := rfl
@[simp] theorem State.onCore_homes (s : State) (n : Nat) (f : Core → Core) : (s.onCore n f).homes = s.homes := rfl
@[simp] theorem State.onCore_teams (s : State) (n : Nat) (f : Core → Core) : (s.onCore n f).teams = s.teams := rfl
@[simp] theorem State.onCore_ctxs (s : State) (n : Nat) (f : Core → Core) : (s.onCore n f).ctxs = s.ctxs := rfl
@[simp] theorem State.onCore_queues (s : State) (n : Nat) (f : Core → Core) : (s.onCore n f).queues = s.queues := rfl
@[simp] theorem State.onCore_pushes (s : State) (n : Nat) (f : Core → Core) : (s.onCore n f).pushes = s.pushes := rfl
@[simp] theorem State.onCore_launches (s : State) (n : Nat) (f : Core → Core) : (s.onCore n f).launches = s.launches := rfl
@[simp] theorem State.onCore_keeps (s : State) (n : Nat) (f : Core → Core) : (s.onCore n f).keeps = s.keeps := rfl
@[simp] theorem State.onCore_areas (s : State) (n : Nat) (f : Core → Core) : (s.onCore n f).areas = s.areas := rfl
@[simp] theorem State.onCore_temps (s : State) (n : Nat) (f : Core → Core) : (s.onCore n f).temps = s.temps := rfl
@[simp] theorem State.onCore_hasps (s : State) (n : Nat) (f : Core → Core) : (s.onCore n f).hasps = s.hasps := rfl
@[simp] theorem State.onCore_writes (s : State) (n : Nat) (f : Core → Core) : (s.onCore n f).writes = s.writes := rfl
@[simp] theorem State.onCore_flights (s : State) (n : Nat) (f : Core → Core) : (s.onCore n f).flights = s.flights := rfl
@[simp] theorem State.onCore_faults (s : State) (n : Nat) (f : Core → Core) : (s.onCore n f).faults = s.faults := rfl
@[simp] theorem State.onCore_declined (s : State) (n : Nat) (f : Core → Core) : (s.onCore n f).declined = s.declined := rfl
@[simp] theorem State.onCore_passes (s : State) (n : Nat) (f : Core → Core) : (s.onCore n f).passes = s.passes := rfl
@[simp] theorem State.onCore_hub (s : State) (n : Nat) (f : Core → Core) : (s.onCore n f).hub = s.hub := rfl

/-! ## State.onRec -/

@[simp] theorem State.onRec_stepNo (s : State) (n p : Nat) (f : Bind → Bind) : (s.onRec n p f).stepNo = s.stepNo := rfl
@[simp] theorem State.onRec_nextId (s : State) (n p : Nat) (f : Bind → Bind) : (s.onRec n p f).nextId = s.nextId := rfl
@[simp] theorem State.onRec_agenda (s : State) (n p : Nat) (f : Bind → Bind) : (s.onRec n p f).agenda = s.agenda := rfl
@[simp] theorem State.onRec_choices (s : State) (n p : Nat) (f : Bind → Bind) : (s.onRec n p f).choices = s.choices := rfl
@[simp] theorem State.onRec_cur (s : State) (n p : Nat) (f : Bind → Bind) : (s.onRec n p f).cur = s.cur := rfl
@[simp] theorem State.onRec_clk (s : State) (n p : Nat) (f : Bind → Bind) : (s.onRec n p f).clk = s.clk := rfl
@[simp] theorem State.onRec_beat (s : State) (n p : Nat) (f : Bind → Bind) : (s.onRec n p f).beat = s.beat := rfl
@[simp] theorem State.onRec_age (s : State) (n p : Nat) (f : Bind → Bind) : (s.onRec n p f).age = s.age := rfl
@[simp] theorem State.onRec_mem (s : State) (n p : Nat) (f : Bind → Bind) : (s.onRec n p f).mem = s.mem := rfl
@[simp] theorem State.onRec_slices (s : State) (n p : Nat) (f : Bind → Bind) : (s.onRec n p f).slices = s.slices := rfl
@[simp] theorem State.onRec_homes (s : State) (n p : Nat) (f : Bind → Bind) : (s.onRec n p f).homes = s.homes := rfl
@[simp] theorem State.onRec_teams (s : State) (n p : Nat) (f : Bind → Bind) : (s.onRec n p f).teams = s.teams := rfl
@[simp] theorem State.onRec_ctxs (s : State) (n p : Nat) (f : Bind → Bind) : (s.onRec n p f).ctxs = s.ctxs := rfl
@[simp] theorem State.onRec_queues (s : State) (n p : Nat) (f : Bind → Bind) : (s.onRec n p f).queues = s.queues := rfl
@[simp] theorem State.onRec_pushes (s : State) (n p : Nat) (f : Bind → Bind) : (s.onRec n p f).pushes = s.pushes := rfl
@[simp] theorem State.onRec_launches (s : State) (n p : Nat) (f : Bind → Bind) : (s.onRec n p f).launches = s.launches := rfl
@[simp] theorem State.onRec_keeps (s : State) (n p : Nat) (f : Bind → Bind) : (s.onRec n p f).keeps = s.keeps := rfl
@[simp] theorem State.onRec_areas (s : State) (n p : Nat) (f : Bind → Bind) : (s.onRec n p f).areas = s.areas := rfl
@[simp] theorem State.onRec_temps (s : State) (n p : Nat) (f : Bind → Bind) : (s.onRec n p f).temps = s.temps := rfl
@[simp] theorem State.onRec_hasps (s : State) (n p : Nat) (f : Bind → Bind) : (s.onRec n p f).hasps = s.hasps := rfl
@[simp] theorem State.onRec_writes (s : State) (n p : Nat) (f : Bind → Bind) : (s.onRec n p f).writes = s.writes := rfl
@[simp] theorem State.onRec_flights (s : State) (n p : Nat) (f : Bind → Bind) : (s.onRec n p f).flights = s.flights := rfl
@[simp] theorem State.onRec_faults (s : State) (n p : Nat) (f : Bind → Bind) : (s.onRec n p f).faults = s.faults := rfl
@[simp] theorem State.onRec_declined (s : State) (n p : Nat) (f : Bind → Bind) : (s.onRec n p f).declined = s.declined := rfl
@[simp] theorem State.onRec_passes (s : State) (n p : Nat) (f : Bind → Bind) : (s.onRec n p f).passes = s.passes := rfl
@[simp] theorem State.onRec_hub (s : State) (n p : Nat) (f : Bind → Bind) : (s.onRec n p f).hub = s.hub := rfl

/-! ## State.onCtx -/

@[simp] theorem State.onCtx_stepNo (s : State) (n : Nat) (f : Context → Context) : (s.onCtx n f).stepNo = s.stepNo := rfl
@[simp] theorem State.onCtx_nextId (s : State) (n : Nat) (f : Context → Context) : (s.onCtx n f).nextId = s.nextId := rfl
@[simp] theorem State.onCtx_agenda (s : State) (n : Nat) (f : Context → Context) : (s.onCtx n f).agenda = s.agenda := rfl
@[simp] theorem State.onCtx_choices (s : State) (n : Nat) (f : Context → Context) : (s.onCtx n f).choices = s.choices := rfl
@[simp] theorem State.onCtx_cur (s : State) (n : Nat) (f : Context → Context) : (s.onCtx n f).cur = s.cur := rfl
@[simp] theorem State.onCtx_clk (s : State) (n : Nat) (f : Context → Context) : (s.onCtx n f).clk = s.clk := rfl
@[simp] theorem State.onCtx_beat (s : State) (n : Nat) (f : Context → Context) : (s.onCtx n f).beat = s.beat := rfl
@[simp] theorem State.onCtx_age (s : State) (n : Nat) (f : Context → Context) : (s.onCtx n f).age = s.age := rfl
@[simp] theorem State.onCtx_mem (s : State) (n : Nat) (f : Context → Context) : (s.onCtx n f).mem = s.mem := rfl
@[simp] theorem State.onCtx_slices (s : State) (n : Nat) (f : Context → Context) : (s.onCtx n f).slices = s.slices := rfl
@[simp] theorem State.onCtx_homes (s : State) (n : Nat) (f : Context → Context) : (s.onCtx n f).homes = s.homes := rfl
@[simp] theorem State.onCtx_teams (s : State) (n : Nat) (f : Context → Context) : (s.onCtx n f).teams = s.teams := rfl
@[simp] theorem State.onCtx_cores (s : State) (n : Nat) (f : Context → Context) : (s.onCtx n f).cores = s.cores := rfl
@[simp] theorem State.onCtx_queues (s : State) (n : Nat) (f : Context → Context) : (s.onCtx n f).queues = s.queues := rfl
@[simp] theorem State.onCtx_pushes (s : State) (n : Nat) (f : Context → Context) : (s.onCtx n f).pushes = s.pushes := rfl
@[simp] theorem State.onCtx_launches (s : State) (n : Nat) (f : Context → Context) : (s.onCtx n f).launches = s.launches := rfl
@[simp] theorem State.onCtx_keeps (s : State) (n : Nat) (f : Context → Context) : (s.onCtx n f).keeps = s.keeps := rfl
@[simp] theorem State.onCtx_areas (s : State) (n : Nat) (f : Context → Context) : (s.onCtx n f).areas = s.areas := rfl
@[simp] theorem State.onCtx_temps (s : State) (n : Nat) (f : Context → Context) : (s.onCtx n f).temps = s.temps := rfl
@[simp] theorem State.onCtx_hasps (s : State) (n : Nat) (f : Context → Context) : (s.onCtx n f).hasps = s.hasps := rfl
@[simp] theorem State.onCtx_writes (s : State) (n : Nat) (f : Context → Context) : (s.onCtx n f).writes = s.writes := rfl
@[simp] theorem State.onCtx_flights (s : State) (n : Nat) (f : Context → Context) : (s.onCtx n f).flights = s.flights := rfl
@[simp] theorem State.onCtx_faults (s : State) (n : Nat) (f : Context → Context) : (s.onCtx n f).faults = s.faults := rfl
@[simp] theorem State.onCtx_declined (s : State) (n : Nat) (f : Context → Context) : (s.onCtx n f).declined = s.declined := rfl
@[simp] theorem State.onCtx_passes (s : State) (n : Nat) (f : Context → Context) : (s.onCtx n f).passes = s.passes := rfl
@[simp] theorem State.onCtx_hub (s : State) (n : Nat) (f : Context → Context) : (s.onCtx n f).hub = s.hub := rfl

/-! ## State.onLaunch -/

@[simp] theorem State.onLaunch_stepNo (s : State) (n : Nat) (f : Launch → Launch) : (s.onLaunch n f).stepNo = s.stepNo := rfl
@[simp] theorem State.onLaunch_nextId (s : State) (n : Nat) (f : Launch → Launch) : (s.onLaunch n f).nextId = s.nextId := rfl
@[simp] theorem State.onLaunch_agenda (s : State) (n : Nat) (f : Launch → Launch) : (s.onLaunch n f).agenda = s.agenda := rfl
@[simp] theorem State.onLaunch_choices (s : State) (n : Nat) (f : Launch → Launch) : (s.onLaunch n f).choices = s.choices := rfl
@[simp] theorem State.onLaunch_cur (s : State) (n : Nat) (f : Launch → Launch) : (s.onLaunch n f).cur = s.cur := rfl
@[simp] theorem State.onLaunch_clk (s : State) (n : Nat) (f : Launch → Launch) : (s.onLaunch n f).clk = s.clk := rfl
@[simp] theorem State.onLaunch_beat (s : State) (n : Nat) (f : Launch → Launch) : (s.onLaunch n f).beat = s.beat := rfl
@[simp] theorem State.onLaunch_age (s : State) (n : Nat) (f : Launch → Launch) : (s.onLaunch n f).age = s.age := rfl
@[simp] theorem State.onLaunch_mem (s : State) (n : Nat) (f : Launch → Launch) : (s.onLaunch n f).mem = s.mem := rfl
@[simp] theorem State.onLaunch_slices (s : State) (n : Nat) (f : Launch → Launch) : (s.onLaunch n f).slices = s.slices := rfl
@[simp] theorem State.onLaunch_homes (s : State) (n : Nat) (f : Launch → Launch) : (s.onLaunch n f).homes = s.homes := rfl
@[simp] theorem State.onLaunch_teams (s : State) (n : Nat) (f : Launch → Launch) : (s.onLaunch n f).teams = s.teams := rfl
@[simp] theorem State.onLaunch_cores (s : State) (n : Nat) (f : Launch → Launch) : (s.onLaunch n f).cores = s.cores := rfl
@[simp] theorem State.onLaunch_ctxs (s : State) (n : Nat) (f : Launch → Launch) : (s.onLaunch n f).ctxs = s.ctxs := rfl
@[simp] theorem State.onLaunch_queues (s : State) (n : Nat) (f : Launch → Launch) : (s.onLaunch n f).queues = s.queues := rfl
@[simp] theorem State.onLaunch_pushes (s : State) (n : Nat) (f : Launch → Launch) : (s.onLaunch n f).pushes = s.pushes := rfl
@[simp] theorem State.onLaunch_keeps (s : State) (n : Nat) (f : Launch → Launch) : (s.onLaunch n f).keeps = s.keeps := rfl
@[simp] theorem State.onLaunch_areas (s : State) (n : Nat) (f : Launch → Launch) : (s.onLaunch n f).areas = s.areas := rfl
@[simp] theorem State.onLaunch_temps (s : State) (n : Nat) (f : Launch → Launch) : (s.onLaunch n f).temps = s.temps := rfl
@[simp] theorem State.onLaunch_hasps (s : State) (n : Nat) (f : Launch → Launch) : (s.onLaunch n f).hasps = s.hasps := rfl
@[simp] theorem State.onLaunch_writes (s : State) (n : Nat) (f : Launch → Launch) : (s.onLaunch n f).writes = s.writes := rfl
@[simp] theorem State.onLaunch_flights (s : State) (n : Nat) (f : Launch → Launch) : (s.onLaunch n f).flights = s.flights := rfl
@[simp] theorem State.onLaunch_faults (s : State) (n : Nat) (f : Launch → Launch) : (s.onLaunch n f).faults = s.faults := rfl
@[simp] theorem State.onLaunch_declined (s : State) (n : Nat) (f : Launch → Launch) : (s.onLaunch n f).declined = s.declined := rfl
@[simp] theorem State.onLaunch_passes (s : State) (n : Nat) (f : Launch → Launch) : (s.onLaunch n f).passes = s.passes := rfl
@[simp] theorem State.onLaunch_hub (s : State) (n : Nat) (f : Launch → Launch) : (s.onLaunch n f).hub = s.hub := rfl

/-! ## State.onQueue -/

@[simp] theorem State.onQueue_stepNo (s : State) (n : Nat) (f : Queue → Queue) : (s.onQueue n f).stepNo = s.stepNo := rfl
@[simp] theorem State.onQueue_nextId (s : State) (n : Nat) (f : Queue → Queue) : (s.onQueue n f).nextId = s.nextId := rfl
@[simp] theorem State.onQueue_agenda (s : State) (n : Nat) (f : Queue → Queue) : (s.onQueue n f).agenda = s.agenda := rfl
@[simp] theorem State.onQueue_choices (s : State) (n : Nat) (f : Queue → Queue) : (s.onQueue n f).choices = s.choices := rfl
@[simp] theorem State.onQueue_cur (s : State) (n : Nat) (f : Queue → Queue) : (s.onQueue n f).cur = s.cur := rfl
@[simp] theorem State.onQueue_clk (s : State) (n : Nat) (f : Queue → Queue) : (s.onQueue n f).clk = s.clk := rfl
@[simp] theorem State.onQueue_beat (s : State) (n : Nat) (f : Queue → Queue) : (s.onQueue n f).beat = s.beat := rfl
@[simp] theorem State.onQueue_age (s : State) (n : Nat) (f : Queue → Queue) : (s.onQueue n f).age = s.age := rfl
@[simp] theorem State.onQueue_mem (s : State) (n : Nat) (f : Queue → Queue) : (s.onQueue n f).mem = s.mem := rfl
@[simp] theorem State.onQueue_slices (s : State) (n : Nat) (f : Queue → Queue) : (s.onQueue n f).slices = s.slices := rfl
@[simp] theorem State.onQueue_homes (s : State) (n : Nat) (f : Queue → Queue) : (s.onQueue n f).homes = s.homes := rfl
@[simp] theorem State.onQueue_teams (s : State) (n : Nat) (f : Queue → Queue) : (s.onQueue n f).teams = s.teams := rfl
@[simp] theorem State.onQueue_cores (s : State) (n : Nat) (f : Queue → Queue) : (s.onQueue n f).cores = s.cores := rfl
@[simp] theorem State.onQueue_ctxs (s : State) (n : Nat) (f : Queue → Queue) : (s.onQueue n f).ctxs = s.ctxs := rfl
@[simp] theorem State.onQueue_pushes (s : State) (n : Nat) (f : Queue → Queue) : (s.onQueue n f).pushes = s.pushes := rfl
@[simp] theorem State.onQueue_launches (s : State) (n : Nat) (f : Queue → Queue) : (s.onQueue n f).launches = s.launches := rfl
@[simp] theorem State.onQueue_keeps (s : State) (n : Nat) (f : Queue → Queue) : (s.onQueue n f).keeps = s.keeps := rfl
@[simp] theorem State.onQueue_areas (s : State) (n : Nat) (f : Queue → Queue) : (s.onQueue n f).areas = s.areas := rfl
@[simp] theorem State.onQueue_temps (s : State) (n : Nat) (f : Queue → Queue) : (s.onQueue n f).temps = s.temps := rfl
@[simp] theorem State.onQueue_hasps (s : State) (n : Nat) (f : Queue → Queue) : (s.onQueue n f).hasps = s.hasps := rfl
@[simp] theorem State.onQueue_writes (s : State) (n : Nat) (f : Queue → Queue) : (s.onQueue n f).writes = s.writes := rfl
@[simp] theorem State.onQueue_flights (s : State) (n : Nat) (f : Queue → Queue) : (s.onQueue n f).flights = s.flights := rfl
@[simp] theorem State.onQueue_faults (s : State) (n : Nat) (f : Queue → Queue) : (s.onQueue n f).faults = s.faults := rfl
@[simp] theorem State.onQueue_declined (s : State) (n : Nat) (f : Queue → Queue) : (s.onQueue n f).declined = s.declined := rfl
@[simp] theorem State.onQueue_passes (s : State) (n : Nat) (f : Queue → Queue) : (s.onQueue n f).passes = s.passes := rfl
@[simp] theorem State.onQueue_hub (s : State) (n : Nat) (f : Queue → Queue) : (s.onQueue n f).hub = s.hub := rfl

/-! ## State.setFlight -/

@[simp] theorem State.setFlight_stepNo (s : State) (f : Flight) : (s.setFlight f).stepNo = s.stepNo := rfl
@[simp] theorem State.setFlight_nextId (s : State) (f : Flight) : (s.setFlight f).nextId = s.nextId := rfl
@[simp] theorem State.setFlight_agenda (s : State) (f : Flight) : (s.setFlight f).agenda = s.agenda := rfl
@[simp] theorem State.setFlight_choices (s : State) (f : Flight) : (s.setFlight f).choices = s.choices := rfl
@[simp] theorem State.setFlight_cur (s : State) (f : Flight) : (s.setFlight f).cur = s.cur := rfl
@[simp] theorem State.setFlight_clk (s : State) (f : Flight) : (s.setFlight f).clk = s.clk := rfl
@[simp] theorem State.setFlight_beat (s : State) (f : Flight) : (s.setFlight f).beat = s.beat := rfl
@[simp] theorem State.setFlight_age (s : State) (f : Flight) : (s.setFlight f).age = s.age := rfl
@[simp] theorem State.setFlight_mem (s : State) (f : Flight) : (s.setFlight f).mem = s.mem := rfl
@[simp] theorem State.setFlight_slices (s : State) (f : Flight) : (s.setFlight f).slices = s.slices := rfl
@[simp] theorem State.setFlight_homes (s : State) (f : Flight) : (s.setFlight f).homes = s.homes := rfl
@[simp] theorem State.setFlight_teams (s : State) (f : Flight) : (s.setFlight f).teams = s.teams := rfl
@[simp] theorem State.setFlight_cores (s : State) (f : Flight) : (s.setFlight f).cores = s.cores := rfl
@[simp] theorem State.setFlight_ctxs (s : State) (f : Flight) : (s.setFlight f).ctxs = s.ctxs := rfl
@[simp] theorem State.setFlight_queues (s : State) (f : Flight) : (s.setFlight f).queues = s.queues := rfl
@[simp] theorem State.setFlight_pushes (s : State) (f : Flight) : (s.setFlight f).pushes = s.pushes := rfl
@[simp] theorem State.setFlight_launches (s : State) (f : Flight) : (s.setFlight f).launches = s.launches := rfl
@[simp] theorem State.setFlight_keeps (s : State) (f : Flight) : (s.setFlight f).keeps = s.keeps := rfl
@[simp] theorem State.setFlight_areas (s : State) (f : Flight) : (s.setFlight f).areas = s.areas := rfl
@[simp] theorem State.setFlight_temps (s : State) (f : Flight) : (s.setFlight f).temps = s.temps := rfl
@[simp] theorem State.setFlight_hasps (s : State) (f : Flight) : (s.setFlight f).hasps = s.hasps := rfl
@[simp] theorem State.setFlight_writes (s : State) (f : Flight) : (s.setFlight f).writes = s.writes := rfl
@[simp] theorem State.setFlight_faults (s : State) (f : Flight) : (s.setFlight f).faults = s.faults := rfl
@[simp] theorem State.setFlight_declined (s : State) (f : Flight) : (s.setFlight f).declined = s.declined := rfl
@[simp] theorem State.setFlight_passes (s : State) (f : Flight) : (s.setFlight f).passes = s.passes := rfl
@[simp] theorem State.setFlight_hub (s : State) (f : Flight) : (s.setFlight f).hub = s.hub := rfl

/-! ## State.dropFlight -/

@[simp] theorem State.dropFlight_stepNo (s : State) (n : Nat) : (s.dropFlight n).stepNo = s.stepNo := rfl
@[simp] theorem State.dropFlight_nextId (s : State) (n : Nat) : (s.dropFlight n).nextId = s.nextId := rfl
@[simp] theorem State.dropFlight_agenda (s : State) (n : Nat) : (s.dropFlight n).agenda = s.agenda := rfl
@[simp] theorem State.dropFlight_choices (s : State) (n : Nat) : (s.dropFlight n).choices = s.choices := rfl
@[simp] theorem State.dropFlight_cur (s : State) (n : Nat) : (s.dropFlight n).cur = s.cur := rfl
@[simp] theorem State.dropFlight_clk (s : State) (n : Nat) : (s.dropFlight n).clk = s.clk := rfl
@[simp] theorem State.dropFlight_beat (s : State) (n : Nat) : (s.dropFlight n).beat = s.beat := rfl
@[simp] theorem State.dropFlight_age (s : State) (n : Nat) : (s.dropFlight n).age = s.age := rfl
@[simp] theorem State.dropFlight_mem (s : State) (n : Nat) : (s.dropFlight n).mem = s.mem := rfl
@[simp] theorem State.dropFlight_slices (s : State) (n : Nat) : (s.dropFlight n).slices = s.slices := rfl
@[simp] theorem State.dropFlight_homes (s : State) (n : Nat) : (s.dropFlight n).homes = s.homes := rfl
@[simp] theorem State.dropFlight_teams (s : State) (n : Nat) : (s.dropFlight n).teams = s.teams := rfl
@[simp] theorem State.dropFlight_cores (s : State) (n : Nat) : (s.dropFlight n).cores = s.cores := rfl
@[simp] theorem State.dropFlight_ctxs (s : State) (n : Nat) : (s.dropFlight n).ctxs = s.ctxs := rfl
@[simp] theorem State.dropFlight_queues (s : State) (n : Nat) : (s.dropFlight n).queues = s.queues := rfl
@[simp] theorem State.dropFlight_pushes (s : State) (n : Nat) : (s.dropFlight n).pushes = s.pushes := rfl
@[simp] theorem State.dropFlight_launches (s : State) (n : Nat) : (s.dropFlight n).launches = s.launches := rfl
@[simp] theorem State.dropFlight_keeps (s : State) (n : Nat) : (s.dropFlight n).keeps = s.keeps := rfl
@[simp] theorem State.dropFlight_areas (s : State) (n : Nat) : (s.dropFlight n).areas = s.areas := rfl
@[simp] theorem State.dropFlight_temps (s : State) (n : Nat) : (s.dropFlight n).temps = s.temps := rfl
@[simp] theorem State.dropFlight_hasps (s : State) (n : Nat) : (s.dropFlight n).hasps = s.hasps := rfl
@[simp] theorem State.dropFlight_writes (s : State) (n : Nat) : (s.dropFlight n).writes = s.writes := rfl
@[simp] theorem State.dropFlight_faults (s : State) (n : Nat) : (s.dropFlight n).faults = s.faults := rfl
@[simp] theorem State.dropFlight_declined (s : State) (n : Nat) : (s.dropFlight n).declined = s.declined := rfl
@[simp] theorem State.dropFlight_passes (s : State) (n : Nat) : (s.dropFlight n).passes = s.passes := rfl
@[simp] theorem State.dropFlight_hub (s : State) (n : Nat) : (s.dropFlight n).hub = s.hub := rfl

/-! ## State.onPass -/

@[simp] theorem State.onPass_stepNo (s : State) (d i : Nat) (f : Pass → Pass) : (s.onPass d i f).stepNo = s.stepNo := rfl
@[simp] theorem State.onPass_nextId (s : State) (d i : Nat) (f : Pass → Pass) : (s.onPass d i f).nextId = s.nextId := rfl
@[simp] theorem State.onPass_agenda (s : State) (d i : Nat) (f : Pass → Pass) : (s.onPass d i f).agenda = s.agenda := rfl
@[simp] theorem State.onPass_choices (s : State) (d i : Nat) (f : Pass → Pass) : (s.onPass d i f).choices = s.choices := rfl
@[simp] theorem State.onPass_cur (s : State) (d i : Nat) (f : Pass → Pass) : (s.onPass d i f).cur = s.cur := rfl
@[simp] theorem State.onPass_clk (s : State) (d i : Nat) (f : Pass → Pass) : (s.onPass d i f).clk = s.clk := rfl
@[simp] theorem State.onPass_beat (s : State) (d i : Nat) (f : Pass → Pass) : (s.onPass d i f).beat = s.beat := rfl
@[simp] theorem State.onPass_age (s : State) (d i : Nat) (f : Pass → Pass) : (s.onPass d i f).age = s.age := rfl
@[simp] theorem State.onPass_mem (s : State) (d i : Nat) (f : Pass → Pass) : (s.onPass d i f).mem = s.mem := rfl
@[simp] theorem State.onPass_slices (s : State) (d i : Nat) (f : Pass → Pass) : (s.onPass d i f).slices = s.slices := rfl
@[simp] theorem State.onPass_homes (s : State) (d i : Nat) (f : Pass → Pass) : (s.onPass d i f).homes = s.homes := rfl
@[simp] theorem State.onPass_teams (s : State) (d i : Nat) (f : Pass → Pass) : (s.onPass d i f).teams = s.teams := rfl
@[simp] theorem State.onPass_cores (s : State) (d i : Nat) (f : Pass → Pass) : (s.onPass d i f).cores = s.cores := rfl
@[simp] theorem State.onPass_ctxs (s : State) (d i : Nat) (f : Pass → Pass) : (s.onPass d i f).ctxs = s.ctxs := rfl
@[simp] theorem State.onPass_queues (s : State) (d i : Nat) (f : Pass → Pass) : (s.onPass d i f).queues = s.queues := rfl
@[simp] theorem State.onPass_pushes (s : State) (d i : Nat) (f : Pass → Pass) : (s.onPass d i f).pushes = s.pushes := rfl
@[simp] theorem State.onPass_launches (s : State) (d i : Nat) (f : Pass → Pass) : (s.onPass d i f).launches = s.launches := rfl
@[simp] theorem State.onPass_keeps (s : State) (d i : Nat) (f : Pass → Pass) : (s.onPass d i f).keeps = s.keeps := rfl
@[simp] theorem State.onPass_areas (s : State) (d i : Nat) (f : Pass → Pass) : (s.onPass d i f).areas = s.areas := rfl
@[simp] theorem State.onPass_temps (s : State) (d i : Nat) (f : Pass → Pass) : (s.onPass d i f).temps = s.temps := rfl
@[simp] theorem State.onPass_hasps (s : State) (d i : Nat) (f : Pass → Pass) : (s.onPass d i f).hasps = s.hasps := rfl
@[simp] theorem State.onPass_writes (s : State) (d i : Nat) (f : Pass → Pass) : (s.onPass d i f).writes = s.writes := rfl
@[simp] theorem State.onPass_flights (s : State) (d i : Nat) (f : Pass → Pass) : (s.onPass d i f).flights = s.flights := rfl
@[simp] theorem State.onPass_faults (s : State) (d i : Nat) (f : Pass → Pass) : (s.onPass d i f).faults = s.faults := rfl
@[simp] theorem State.onPass_declined (s : State) (d i : Nat) (f : Pass → Pass) : (s.onPass d i f).declined = s.declined := rfl
@[simp] theorem State.onPass_hub (s : State) (d i : Nat) (f : Pass → Pass) : (s.onPass d i f).hub = s.hub := rfl

/-! ## State.onHub -/

@[simp] theorem State.onHub_stepNo (s : State) (f : Hub → Hub) : (s.onHub f).stepNo = s.stepNo := rfl
@[simp] theorem State.onHub_nextId (s : State) (f : Hub → Hub) : (s.onHub f).nextId = s.nextId := rfl
@[simp] theorem State.onHub_agenda (s : State) (f : Hub → Hub) : (s.onHub f).agenda = s.agenda := rfl
@[simp] theorem State.onHub_choices (s : State) (f : Hub → Hub) : (s.onHub f).choices = s.choices := rfl
@[simp] theorem State.onHub_cur (s : State) (f : Hub → Hub) : (s.onHub f).cur = s.cur := rfl
@[simp] theorem State.onHub_clk (s : State) (f : Hub → Hub) : (s.onHub f).clk = s.clk := rfl
@[simp] theorem State.onHub_beat (s : State) (f : Hub → Hub) : (s.onHub f).beat = s.beat := rfl
@[simp] theorem State.onHub_age (s : State) (f : Hub → Hub) : (s.onHub f).age = s.age := rfl
@[simp] theorem State.onHub_mem (s : State) (f : Hub → Hub) : (s.onHub f).mem = s.mem := rfl
@[simp] theorem State.onHub_slices (s : State) (f : Hub → Hub) : (s.onHub f).slices = s.slices := rfl
@[simp] theorem State.onHub_homes (s : State) (f : Hub → Hub) : (s.onHub f).homes = s.homes := rfl
@[simp] theorem State.onHub_teams (s : State) (f : Hub → Hub) : (s.onHub f).teams = s.teams := rfl
@[simp] theorem State.onHub_cores (s : State) (f : Hub → Hub) : (s.onHub f).cores = s.cores := rfl
@[simp] theorem State.onHub_ctxs (s : State) (f : Hub → Hub) : (s.onHub f).ctxs = s.ctxs := rfl
@[simp] theorem State.onHub_queues (s : State) (f : Hub → Hub) : (s.onHub f).queues = s.queues := rfl
@[simp] theorem State.onHub_pushes (s : State) (f : Hub → Hub) : (s.onHub f).pushes = s.pushes := rfl
@[simp] theorem State.onHub_launches (s : State) (f : Hub → Hub) : (s.onHub f).launches = s.launches := rfl
@[simp] theorem State.onHub_keeps (s : State) (f : Hub → Hub) : (s.onHub f).keeps = s.keeps := rfl
@[simp] theorem State.onHub_areas (s : State) (f : Hub → Hub) : (s.onHub f).areas = s.areas := rfl
@[simp] theorem State.onHub_temps (s : State) (f : Hub → Hub) : (s.onHub f).temps = s.temps := rfl
@[simp] theorem State.onHub_hasps (s : State) (f : Hub → Hub) : (s.onHub f).hasps = s.hasps := rfl
@[simp] theorem State.onHub_writes (s : State) (f : Hub → Hub) : (s.onHub f).writes = s.writes := rfl
@[simp] theorem State.onHub_flights (s : State) (f : Hub → Hub) : (s.onHub f).flights = s.flights := rfl
@[simp] theorem State.onHub_faults (s : State) (f : Hub → Hub) : (s.onHub f).faults = s.faults := rfl
@[simp] theorem State.onHub_declined (s : State) (f : Hub → Hub) : (s.onHub f).declined = s.declined := rfl
@[simp] theorem State.onHub_passes (s : State) (f : Hub → Hub) : (s.onHub f).passes = s.passes := rfl

/-! ## State.post -/

@[simp] theorem State.post_stepNo (s : State) (e : Ev) : (s.post e).stepNo = s.stepNo := rfl
@[simp] theorem State.post_nextId (s : State) (e : Ev) : (s.post e).nextId = s.nextId := rfl
@[simp] theorem State.post_choices (s : State) (e : Ev) : (s.post e).choices = s.choices := rfl
@[simp] theorem State.post_cur (s : State) (e : Ev) : (s.post e).cur = s.cur := rfl
@[simp] theorem State.post_clk (s : State) (e : Ev) : (s.post e).clk = s.clk := rfl
@[simp] theorem State.post_beat (s : State) (e : Ev) : (s.post e).beat = s.beat := rfl
@[simp] theorem State.post_age (s : State) (e : Ev) : (s.post e).age = s.age := rfl
@[simp] theorem State.post_mem (s : State) (e : Ev) : (s.post e).mem = s.mem := rfl
@[simp] theorem State.post_slices (s : State) (e : Ev) : (s.post e).slices = s.slices := rfl
@[simp] theorem State.post_homes (s : State) (e : Ev) : (s.post e).homes = s.homes := rfl
@[simp] theorem State.post_teams (s : State) (e : Ev) : (s.post e).teams = s.teams := rfl
@[simp] theorem State.post_cores (s : State) (e : Ev) : (s.post e).cores = s.cores := rfl
@[simp] theorem State.post_ctxs (s : State) (e : Ev) : (s.post e).ctxs = s.ctxs := rfl
@[simp] theorem State.post_queues (s : State) (e : Ev) : (s.post e).queues = s.queues := rfl
@[simp] theorem State.post_pushes (s : State) (e : Ev) : (s.post e).pushes = s.pushes := rfl
@[simp] theorem State.post_launches (s : State) (e : Ev) : (s.post e).launches = s.launches := rfl
@[simp] theorem State.post_keeps (s : State) (e : Ev) : (s.post e).keeps = s.keeps := rfl
@[simp] theorem State.post_areas (s : State) (e : Ev) : (s.post e).areas = s.areas := rfl
@[simp] theorem State.post_temps (s : State) (e : Ev) : (s.post e).temps = s.temps := rfl
@[simp] theorem State.post_hasps (s : State) (e : Ev) : (s.post e).hasps = s.hasps := rfl
@[simp] theorem State.post_writes (s : State) (e : Ev) : (s.post e).writes = s.writes := rfl
@[simp] theorem State.post_flights (s : State) (e : Ev) : (s.post e).flights = s.flights := rfl
@[simp] theorem State.post_faults (s : State) (e : Ev) : (s.post e).faults = s.faults := rfl
@[simp] theorem State.post_declined (s : State) (e : Ev) : (s.post e).declined = s.declined := rfl
@[simp] theorem State.post_passes (s : State) (e : Ev) : (s.post e).passes = s.passes := rfl
@[simp] theorem State.post_hub (s : State) (e : Ev) : (s.post e).hub = s.hub := rfl

/-! ## Team.setS -/

@[simp] theorem Team.setS_uid (t : Team) (n : Nat) (x : Word64) : (t.setS n x).uid = t.uid := rfl
@[simp] theorem Team.setS_launch (t : Team) (n : Nat) (x : Word64) : (t.setS n x).launch = t.launch := rfl
@[simp] theorem Team.setS_ctx (t : Team) (n : Nat) (x : Word64) : (t.setS n x).ctx = t.ctx := rfl
@[simp] theorem Team.setS_core (t : Team) (n : Nat) (x : Word64) : (t.setS n x).core = t.core := rfl
@[simp] theorem Team.setS_place (t : Team) (n : Nat) (x : Word64) : (t.setS n x).place = t.place := rfl
@[simp] theorem Team.setS_width (t : Team) (n : Nat) (x : Word64) : (t.setS n x).width = t.width := rfl
@[simp] theorem Team.setS_nv (t : Team) (n : Nat) (x : Word64) : (t.setS n x).nv = t.nv := rfl
@[simp] theorem Team.setS_index (t : Team) (n : Nat) (x : Word64) : (t.setS n x).index = t.index := rfl
@[simp] theorem Team.setS_widt (t : Team) (n : Nat) (x : Word64) : (t.setS n x).widt = t.widt := rfl
@[simp] theorem Team.setS_leaf (t : Team) (n : Nat) (x : Word64) : (t.setS n x).leaf = t.leaf := rfl
@[simp] theorem Team.setS_partner (t : Team) (n : Nat) (x : Word64) : (t.setS n x).partner = t.partner := rfl
@[simp] theorem Team.setS_pc (t : Team) (n : Nat) (x : Word64) : (t.setS n x).pc = t.pc := rfl
@[simp] theorem Team.setS_v (t : Team) (n : Nat) (x : Word64) : (t.setS n x).v = t.v := rfl
@[simp] theorem Team.setS_p (t : Team) (n : Nat) (x : Word64) : (t.setS n x).p = t.p := rfl
@[simp] theorem Team.setS_status (t : Team) (n : Nat) (x : Word64) : (t.setS n x).status = t.status := rfl
@[simp] theorem Team.setS_trapv (t : Team) (n : Nat) (x : Word64) : (t.setS n x).trapv = t.trapv := rfl
@[simp] theorem Team.setS_trapa (t : Team) (n : Nat) (x : Word64) : (t.setS n x).trapa = t.trapa := rfl
@[simp] theorem Team.setS_prio (t : Team) (n : Nat) (x : Word64) : (t.setS n x).prio = t.prio := rfl
@[simp] theorem Team.setS_prioMax (t : Team) (n : Nat) (x : Word64) : (t.setS n x).prioMax = t.prioMax := rfl
@[simp] theorem Team.setS_role (t : Team) (n : Nat) (x : Word64) : (t.setS n x).role = t.role := rfl
@[simp] theorem Team.setS_ydl (t : Team) (n : Nat) (x : Word64) : (t.setS n x).ydl = t.ydl := rfl
@[simp] theorem Team.setS_undob (t : Team) (n : Nat) (x : Word64) : (t.setS n x).undob = t.undob := rfl
@[simp] theorem Team.setS_undol (t : Team) (n : Nat) (x : Word64) : (t.setS n x).undol = t.undol := rfl
@[simp] theorem Team.setS_ctxs (t : Team) (n : Nat) (x : Word64) : (t.setS n x).ctxs = t.ctxs := rfl
@[simp] theorem Team.setS_chainb (t : Team) (n : Nat) (x : Word64) : (t.setS n x).chainb = t.chainb := rfl
@[simp] theorem Team.setS_seqb (t : Team) (n : Nat) (x : Word64) : (t.setS n x).seqb = t.seqb := rfl
@[simp] theorem Team.setS_surfb (t : Team) (n : Nat) (x : Word64) : (t.setS n x).surfb = t.surfb := rfl
@[simp] theorem Team.setS_run (t : Team) (n : Nat) (x : Word64) : (t.setS n x).run = t.run := rfl
@[simp] theorem Team.setS_handler (t : Team) (n : Nat) (x : Word64) : (t.setS n x).handler = t.handler := rfl
@[simp] theorem Team.setS_wound (t : Team) (n : Nat) (x : Word64) : (t.setS n x).wound = t.wound := rfl
@[simp] theorem Team.setS_armed (t : Team) (n : Nat) (x : Word64) : (t.setS n x).armed = t.armed := rfl
@[simp] theorem Team.setS_task (t : Team) (n : Nat) (x : Word64) : (t.setS n x).task = t.task := rfl
@[simp] theorem Team.setS_sets (t : Team) (n : Nat) (x : Word64) : (t.setS n x).sets = t.sets := rfl
@[simp] theorem Team.setS_uses (t : Team) (n : Nat) (x : Word64) : (t.setS n x).uses = t.uses := rfl
@[simp] theorem Team.setS_holds (t : Team) (n : Nat) (x : Word64) : (t.setS n x).holds = t.holds := rfl
@[simp] theorem Team.setS_mwEnd (t : Team) (n : Nat) (x : Word64) : (t.setS n x).mwEnd = t.mwEnd := rfl
@[simp] theorem Team.setS_pending (t : Team) (n : Nat) (x : Word64) : (t.setS n x).pending = t.pending := rfl
@[simp] theorem Team.setS_held (t : Team) (n : Nat) (x : Word64) : (t.setS n x).held = t.held := rfl
@[simp] theorem Team.setS_due (t : Team) (n : Nat) (x : Word64) : (t.setS n x).due = t.due := rfl
@[simp] theorem Team.setS_part (t : Team) (n : Nat) (x : Word64) : (t.setS n x).part = t.part := rfl
@[simp] theorem Team.setS_retPc (t : Team) (n : Nat) (x : Word64) : (t.setS n x).retPc = t.retPc := rfl
@[simp] theorem Team.setS_rdst (t : Team) (n : Nat) (x : Word64) : (t.setS n x).rdst = t.rdst := rfl
@[simp] theorem Team.setS_aux (t : Team) (n : Nat) (x : Word64) : (t.setS n x).aux = t.aux := rfl
@[simp] theorem Team.setS_image (t : Team) (n : Nat) (x : Word64) : (t.setS n x).image = t.image := rfl
@[simp] theorem Team.setS_forced (t : Team) (n : Nat) (x : Word64) : (t.setS n x).forced = t.forced := rfl
@[simp] theorem Team.setS_entries (t : Team) (n : Nat) (x : Word64) : (t.setS n x).entries = t.entries := rfl
@[simp] theorem Team.setS_savedNo (t : Team) (n : Nat) (x : Word64) : (t.setS n x).savedNo = t.savedNo := rfl
@[simp] theorem Team.setS_rec0 (t : Team) (n : Nat) (x : Word64) : (t.setS n x).rec0 = t.rec0 := rfl
@[simp] theorem Team.setS_imgAt (t : Team) (n : Nat) (x : Word64) : (t.setS n x).imgAt = t.imgAt := rfl
@[simp] theorem Team.setS_lastIssue (t : Team) (n : Nat) (x : Word64) : (t.setS n x).lastIssue = t.lastIssue := rfl
@[simp] theorem Team.setS_readyAt (t : Team) (n : Nat) (x : Word64) : (t.setS n x).readyAt = t.readyAt := rfl
@[simp] theorem Team.setS_caught (t : Team) (n : Nat) (x : Word64) : (t.setS n x).caught = t.caught := rfl
@[simp] theorem Team.setS_issueNo (t : Team) (n : Nat) (x : Word64) : (t.setS n x).issueNo = t.issueNo := rfl
@[simp] theorem Team.setS_ordAt (t : Team) (n : Nat) (x : Word64) : (t.setS n x).ordAt = t.ordAt := rfl
@[simp] theorem Team.setS_savedAt (t : Team) (n : Nat) (x : Word64) : (t.setS n x).savedAt = t.savedAt := rfl
@[simp] theorem Team.setS_pop (t : Team) (n : Nat) (x : Word64) : (t.setS n x).pop = t.pop := rfl

/-! ## Team.setSFull -/

@[simp] theorem Team.setSFull_uid (t : Team) (n : Nat) (b : Bool) : (t.setSFull n b).uid = t.uid := rfl
@[simp] theorem Team.setSFull_launch (t : Team) (n : Nat) (b : Bool) : (t.setSFull n b).launch = t.launch := rfl
@[simp] theorem Team.setSFull_ctx (t : Team) (n : Nat) (b : Bool) : (t.setSFull n b).ctx = t.ctx := rfl
@[simp] theorem Team.setSFull_core (t : Team) (n : Nat) (b : Bool) : (t.setSFull n b).core = t.core := rfl
@[simp] theorem Team.setSFull_place (t : Team) (n : Nat) (b : Bool) : (t.setSFull n b).place = t.place := rfl
@[simp] theorem Team.setSFull_width (t : Team) (n : Nat) (b : Bool) : (t.setSFull n b).width = t.width := rfl
@[simp] theorem Team.setSFull_nv (t : Team) (n : Nat) (b : Bool) : (t.setSFull n b).nv = t.nv := rfl
@[simp] theorem Team.setSFull_index (t : Team) (n : Nat) (b : Bool) : (t.setSFull n b).index = t.index := rfl
@[simp] theorem Team.setSFull_widt (t : Team) (n : Nat) (b : Bool) : (t.setSFull n b).widt = t.widt := rfl
@[simp] theorem Team.setSFull_leaf (t : Team) (n : Nat) (b : Bool) : (t.setSFull n b).leaf = t.leaf := rfl
@[simp] theorem Team.setSFull_partner (t : Team) (n : Nat) (b : Bool) : (t.setSFull n b).partner = t.partner := rfl
@[simp] theorem Team.setSFull_pc (t : Team) (n : Nat) (b : Bool) : (t.setSFull n b).pc = t.pc := rfl
@[simp] theorem Team.setSFull_v (t : Team) (n : Nat) (b : Bool) : (t.setSFull n b).v = t.v := rfl
@[simp] theorem Team.setSFull_p (t : Team) (n : Nat) (b : Bool) : (t.setSFull n b).p = t.p := rfl
@[simp] theorem Team.setSFull_status (t : Team) (n : Nat) (b : Bool) : (t.setSFull n b).status = t.status := rfl
@[simp] theorem Team.setSFull_trapv (t : Team) (n : Nat) (b : Bool) : (t.setSFull n b).trapv = t.trapv := rfl
@[simp] theorem Team.setSFull_trapa (t : Team) (n : Nat) (b : Bool) : (t.setSFull n b).trapa = t.trapa := rfl
@[simp] theorem Team.setSFull_prio (t : Team) (n : Nat) (b : Bool) : (t.setSFull n b).prio = t.prio := rfl
@[simp] theorem Team.setSFull_prioMax (t : Team) (n : Nat) (b : Bool) : (t.setSFull n b).prioMax = t.prioMax := rfl
@[simp] theorem Team.setSFull_role (t : Team) (n : Nat) (b : Bool) : (t.setSFull n b).role = t.role := rfl
@[simp] theorem Team.setSFull_ydl (t : Team) (n : Nat) (b : Bool) : (t.setSFull n b).ydl = t.ydl := rfl
@[simp] theorem Team.setSFull_undob (t : Team) (n : Nat) (b : Bool) : (t.setSFull n b).undob = t.undob := rfl
@[simp] theorem Team.setSFull_undol (t : Team) (n : Nat) (b : Bool) : (t.setSFull n b).undol = t.undol := rfl
@[simp] theorem Team.setSFull_ctxs (t : Team) (n : Nat) (b : Bool) : (t.setSFull n b).ctxs = t.ctxs := rfl
@[simp] theorem Team.setSFull_chainb (t : Team) (n : Nat) (b : Bool) : (t.setSFull n b).chainb = t.chainb := rfl
@[simp] theorem Team.setSFull_seqb (t : Team) (n : Nat) (b : Bool) : (t.setSFull n b).seqb = t.seqb := rfl
@[simp] theorem Team.setSFull_surfb (t : Team) (n : Nat) (b : Bool) : (t.setSFull n b).surfb = t.surfb := rfl
@[simp] theorem Team.setSFull_run (t : Team) (n : Nat) (b : Bool) : (t.setSFull n b).run = t.run := rfl
@[simp] theorem Team.setSFull_handler (t : Team) (n : Nat) (b : Bool) : (t.setSFull n b).handler = t.handler := rfl
@[simp] theorem Team.setSFull_wound (t : Team) (n : Nat) (b : Bool) : (t.setSFull n b).wound = t.wound := rfl
@[simp] theorem Team.setSFull_armed (t : Team) (n : Nat) (b : Bool) : (t.setSFull n b).armed = t.armed := rfl
@[simp] theorem Team.setSFull_task (t : Team) (n : Nat) (b : Bool) : (t.setSFull n b).task = t.task := rfl
@[simp] theorem Team.setSFull_sets (t : Team) (n : Nat) (b : Bool) : (t.setSFull n b).sets = t.sets := rfl
@[simp] theorem Team.setSFull_uses (t : Team) (n : Nat) (b : Bool) : (t.setSFull n b).uses = t.uses := rfl
@[simp] theorem Team.setSFull_holds (t : Team) (n : Nat) (b : Bool) : (t.setSFull n b).holds = t.holds := rfl
@[simp] theorem Team.setSFull_mwEnd (t : Team) (n : Nat) (b : Bool) : (t.setSFull n b).mwEnd = t.mwEnd := rfl
@[simp] theorem Team.setSFull_pending (t : Team) (n : Nat) (b : Bool) : (t.setSFull n b).pending = t.pending := rfl
@[simp] theorem Team.setSFull_held (t : Team) (n : Nat) (b : Bool) : (t.setSFull n b).held = t.held := rfl
@[simp] theorem Team.setSFull_due (t : Team) (n : Nat) (b : Bool) : (t.setSFull n b).due = t.due := rfl
@[simp] theorem Team.setSFull_part (t : Team) (n : Nat) (b : Bool) : (t.setSFull n b).part = t.part := rfl
@[simp] theorem Team.setSFull_retPc (t : Team) (n : Nat) (b : Bool) : (t.setSFull n b).retPc = t.retPc := rfl
@[simp] theorem Team.setSFull_rdst (t : Team) (n : Nat) (b : Bool) : (t.setSFull n b).rdst = t.rdst := rfl
@[simp] theorem Team.setSFull_aux (t : Team) (n : Nat) (b : Bool) : (t.setSFull n b).aux = t.aux := rfl
@[simp] theorem Team.setSFull_image (t : Team) (n : Nat) (b : Bool) : (t.setSFull n b).image = t.image := rfl
@[simp] theorem Team.setSFull_forced (t : Team) (n : Nat) (b : Bool) : (t.setSFull n b).forced = t.forced := rfl
@[simp] theorem Team.setSFull_entries (t : Team) (n : Nat) (b : Bool) : (t.setSFull n b).entries = t.entries := rfl
@[simp] theorem Team.setSFull_savedNo (t : Team) (n : Nat) (b : Bool) : (t.setSFull n b).savedNo = t.savedNo := rfl
@[simp] theorem Team.setSFull_rec0 (t : Team) (n : Nat) (b : Bool) : (t.setSFull n b).rec0 = t.rec0 := rfl
@[simp] theorem Team.setSFull_imgAt (t : Team) (n : Nat) (b : Bool) : (t.setSFull n b).imgAt = t.imgAt := rfl
@[simp] theorem Team.setSFull_lastIssue (t : Team) (n : Nat) (b : Bool) : (t.setSFull n b).lastIssue = t.lastIssue := rfl
@[simp] theorem Team.setSFull_readyAt (t : Team) (n : Nat) (b : Bool) : (t.setSFull n b).readyAt = t.readyAt := rfl
@[simp] theorem Team.setSFull_caught (t : Team) (n : Nat) (b : Bool) : (t.setSFull n b).caught = t.caught := rfl
@[simp] theorem Team.setSFull_issueNo (t : Team) (n : Nat) (b : Bool) : (t.setSFull n b).issueNo = t.issueNo := rfl
@[simp] theorem Team.setSFull_ordAt (t : Team) (n : Nat) (b : Bool) : (t.setSFull n b).ordAt = t.ordAt := rfl
@[simp] theorem Team.setSFull_savedAt (t : Team) (n : Nat) (b : Bool) : (t.setSFull n b).savedAt = t.savedAt := rfl
@[simp] theorem Team.setSFull_pop (t : Team) (n : Nat) (b : Bool) : (t.setSFull n b).pop = t.pop := rfl

/-! ## Team.setVFull -/

@[simp] theorem Team.setVFull_uid (t : Team) (n : Nat) (b : Bool) : (t.setVFull n b).uid = t.uid := rfl
@[simp] theorem Team.setVFull_launch (t : Team) (n : Nat) (b : Bool) : (t.setVFull n b).launch = t.launch := rfl
@[simp] theorem Team.setVFull_ctx (t : Team) (n : Nat) (b : Bool) : (t.setVFull n b).ctx = t.ctx := rfl
@[simp] theorem Team.setVFull_core (t : Team) (n : Nat) (b : Bool) : (t.setVFull n b).core = t.core := rfl
@[simp] theorem Team.setVFull_place (t : Team) (n : Nat) (b : Bool) : (t.setVFull n b).place = t.place := rfl
@[simp] theorem Team.setVFull_width (t : Team) (n : Nat) (b : Bool) : (t.setVFull n b).width = t.width := rfl
@[simp] theorem Team.setVFull_nv (t : Team) (n : Nat) (b : Bool) : (t.setVFull n b).nv = t.nv := rfl
@[simp] theorem Team.setVFull_index (t : Team) (n : Nat) (b : Bool) : (t.setVFull n b).index = t.index := rfl
@[simp] theorem Team.setVFull_widt (t : Team) (n : Nat) (b : Bool) : (t.setVFull n b).widt = t.widt := rfl
@[simp] theorem Team.setVFull_leaf (t : Team) (n : Nat) (b : Bool) : (t.setVFull n b).leaf = t.leaf := rfl
@[simp] theorem Team.setVFull_partner (t : Team) (n : Nat) (b : Bool) : (t.setVFull n b).partner = t.partner := rfl
@[simp] theorem Team.setVFull_pc (t : Team) (n : Nat) (b : Bool) : (t.setVFull n b).pc = t.pc := rfl
@[simp] theorem Team.setVFull_s (t : Team) (n : Nat) (b : Bool) : (t.setVFull n b).s = t.s := rfl
@[simp] theorem Team.setVFull_p (t : Team) (n : Nat) (b : Bool) : (t.setVFull n b).p = t.p := rfl
@[simp] theorem Team.setVFull_status (t : Team) (n : Nat) (b : Bool) : (t.setVFull n b).status = t.status := rfl
@[simp] theorem Team.setVFull_trapv (t : Team) (n : Nat) (b : Bool) : (t.setVFull n b).trapv = t.trapv := rfl
@[simp] theorem Team.setVFull_trapa (t : Team) (n : Nat) (b : Bool) : (t.setVFull n b).trapa = t.trapa := rfl
@[simp] theorem Team.setVFull_prio (t : Team) (n : Nat) (b : Bool) : (t.setVFull n b).prio = t.prio := rfl
@[simp] theorem Team.setVFull_prioMax (t : Team) (n : Nat) (b : Bool) : (t.setVFull n b).prioMax = t.prioMax := rfl
@[simp] theorem Team.setVFull_role (t : Team) (n : Nat) (b : Bool) : (t.setVFull n b).role = t.role := rfl
@[simp] theorem Team.setVFull_ydl (t : Team) (n : Nat) (b : Bool) : (t.setVFull n b).ydl = t.ydl := rfl
@[simp] theorem Team.setVFull_undob (t : Team) (n : Nat) (b : Bool) : (t.setVFull n b).undob = t.undob := rfl
@[simp] theorem Team.setVFull_undol (t : Team) (n : Nat) (b : Bool) : (t.setVFull n b).undol = t.undol := rfl
@[simp] theorem Team.setVFull_ctxs (t : Team) (n : Nat) (b : Bool) : (t.setVFull n b).ctxs = t.ctxs := rfl
@[simp] theorem Team.setVFull_chainb (t : Team) (n : Nat) (b : Bool) : (t.setVFull n b).chainb = t.chainb := rfl
@[simp] theorem Team.setVFull_seqb (t : Team) (n : Nat) (b : Bool) : (t.setVFull n b).seqb = t.seqb := rfl
@[simp] theorem Team.setVFull_surfb (t : Team) (n : Nat) (b : Bool) : (t.setVFull n b).surfb = t.surfb := rfl
@[simp] theorem Team.setVFull_run (t : Team) (n : Nat) (b : Bool) : (t.setVFull n b).run = t.run := rfl
@[simp] theorem Team.setVFull_handler (t : Team) (n : Nat) (b : Bool) : (t.setVFull n b).handler = t.handler := rfl
@[simp] theorem Team.setVFull_wound (t : Team) (n : Nat) (b : Bool) : (t.setVFull n b).wound = t.wound := rfl
@[simp] theorem Team.setVFull_armed (t : Team) (n : Nat) (b : Bool) : (t.setVFull n b).armed = t.armed := rfl
@[simp] theorem Team.setVFull_task (t : Team) (n : Nat) (b : Bool) : (t.setVFull n b).task = t.task := rfl
@[simp] theorem Team.setVFull_sets (t : Team) (n : Nat) (b : Bool) : (t.setVFull n b).sets = t.sets := rfl
@[simp] theorem Team.setVFull_uses (t : Team) (n : Nat) (b : Bool) : (t.setVFull n b).uses = t.uses := rfl
@[simp] theorem Team.setVFull_holds (t : Team) (n : Nat) (b : Bool) : (t.setVFull n b).holds = t.holds := rfl
@[simp] theorem Team.setVFull_mwEnd (t : Team) (n : Nat) (b : Bool) : (t.setVFull n b).mwEnd = t.mwEnd := rfl
@[simp] theorem Team.setVFull_pending (t : Team) (n : Nat) (b : Bool) : (t.setVFull n b).pending = t.pending := rfl
@[simp] theorem Team.setVFull_held (t : Team) (n : Nat) (b : Bool) : (t.setVFull n b).held = t.held := rfl
@[simp] theorem Team.setVFull_due (t : Team) (n : Nat) (b : Bool) : (t.setVFull n b).due = t.due := rfl
@[simp] theorem Team.setVFull_part (t : Team) (n : Nat) (b : Bool) : (t.setVFull n b).part = t.part := rfl
@[simp] theorem Team.setVFull_retPc (t : Team) (n : Nat) (b : Bool) : (t.setVFull n b).retPc = t.retPc := rfl
@[simp] theorem Team.setVFull_rdst (t : Team) (n : Nat) (b : Bool) : (t.setVFull n b).rdst = t.rdst := rfl
@[simp] theorem Team.setVFull_aux (t : Team) (n : Nat) (b : Bool) : (t.setVFull n b).aux = t.aux := rfl
@[simp] theorem Team.setVFull_image (t : Team) (n : Nat) (b : Bool) : (t.setVFull n b).image = t.image := rfl
@[simp] theorem Team.setVFull_forced (t : Team) (n : Nat) (b : Bool) : (t.setVFull n b).forced = t.forced := rfl
@[simp] theorem Team.setVFull_entries (t : Team) (n : Nat) (b : Bool) : (t.setVFull n b).entries = t.entries := rfl
@[simp] theorem Team.setVFull_savedNo (t : Team) (n : Nat) (b : Bool) : (t.setVFull n b).savedNo = t.savedNo := rfl
@[simp] theorem Team.setVFull_rec0 (t : Team) (n : Nat) (b : Bool) : (t.setVFull n b).rec0 = t.rec0 := rfl
@[simp] theorem Team.setVFull_imgAt (t : Team) (n : Nat) (b : Bool) : (t.setVFull n b).imgAt = t.imgAt := rfl
@[simp] theorem Team.setVFull_lastIssue (t : Team) (n : Nat) (b : Bool) : (t.setVFull n b).lastIssue = t.lastIssue := rfl
@[simp] theorem Team.setVFull_readyAt (t : Team) (n : Nat) (b : Bool) : (t.setVFull n b).readyAt = t.readyAt := rfl
@[simp] theorem Team.setVFull_caught (t : Team) (n : Nat) (b : Bool) : (t.setVFull n b).caught = t.caught := rfl
@[simp] theorem Team.setVFull_issueNo (t : Team) (n : Nat) (b : Bool) : (t.setVFull n b).issueNo = t.issueNo := rfl
@[simp] theorem Team.setVFull_ordAt (t : Team) (n : Nat) (b : Bool) : (t.setVFull n b).ordAt = t.ordAt := rfl
@[simp] theorem Team.setVFull_savedAt (t : Team) (n : Nat) (b : Bool) : (t.setVFull n b).savedAt = t.savedAt := rfl
@[simp] theorem Team.setVFull_pop (t : Team) (n : Nat) (b : Bool) : (t.setVFull n b).pop = t.pop := rfl

/-! ## Team.writeV -/

@[simp] theorem Team.writeV_uid (t : Team) (n : Nat) (a : List Bool) (l : List Word) (g : Tag) : (t.writeV n a l g).uid = t.uid := rfl
@[simp] theorem Team.writeV_launch (t : Team) (n : Nat) (a : List Bool) (l : List Word) (g : Tag) : (t.writeV n a l g).launch = t.launch := rfl
@[simp] theorem Team.writeV_ctx (t : Team) (n : Nat) (a : List Bool) (l : List Word) (g : Tag) : (t.writeV n a l g).ctx = t.ctx := rfl
@[simp] theorem Team.writeV_core (t : Team) (n : Nat) (a : List Bool) (l : List Word) (g : Tag) : (t.writeV n a l g).core = t.core := rfl
@[simp] theorem Team.writeV_place (t : Team) (n : Nat) (a : List Bool) (l : List Word) (g : Tag) : (t.writeV n a l g).place = t.place := rfl
@[simp] theorem Team.writeV_width (t : Team) (n : Nat) (a : List Bool) (l : List Word) (g : Tag) : (t.writeV n a l g).width = t.width := rfl
@[simp] theorem Team.writeV_nv (t : Team) (n : Nat) (a : List Bool) (l : List Word) (g : Tag) : (t.writeV n a l g).nv = t.nv := rfl
@[simp] theorem Team.writeV_index (t : Team) (n : Nat) (a : List Bool) (l : List Word) (g : Tag) : (t.writeV n a l g).index = t.index := rfl
@[simp] theorem Team.writeV_widt (t : Team) (n : Nat) (a : List Bool) (l : List Word) (g : Tag) : (t.writeV n a l g).widt = t.widt := rfl
@[simp] theorem Team.writeV_leaf (t : Team) (n : Nat) (a : List Bool) (l : List Word) (g : Tag) : (t.writeV n a l g).leaf = t.leaf := rfl
@[simp] theorem Team.writeV_partner (t : Team) (n : Nat) (a : List Bool) (l : List Word) (g : Tag) : (t.writeV n a l g).partner = t.partner := rfl
@[simp] theorem Team.writeV_pc (t : Team) (n : Nat) (a : List Bool) (l : List Word) (g : Tag) : (t.writeV n a l g).pc = t.pc := rfl
@[simp] theorem Team.writeV_s (t : Team) (n : Nat) (a : List Bool) (l : List Word) (g : Tag) : (t.writeV n a l g).s = t.s := rfl
@[simp] theorem Team.writeV_p (t : Team) (n : Nat) (a : List Bool) (l : List Word) (g : Tag) : (t.writeV n a l g).p = t.p := rfl
@[simp] theorem Team.writeV_status (t : Team) (n : Nat) (a : List Bool) (l : List Word) (g : Tag) : (t.writeV n a l g).status = t.status := rfl
@[simp] theorem Team.writeV_trapv (t : Team) (n : Nat) (a : List Bool) (l : List Word) (g : Tag) : (t.writeV n a l g).trapv = t.trapv := rfl
@[simp] theorem Team.writeV_trapa (t : Team) (n : Nat) (a : List Bool) (l : List Word) (g : Tag) : (t.writeV n a l g).trapa = t.trapa := rfl
@[simp] theorem Team.writeV_prio (t : Team) (n : Nat) (a : List Bool) (l : List Word) (g : Tag) : (t.writeV n a l g).prio = t.prio := rfl
@[simp] theorem Team.writeV_prioMax (t : Team) (n : Nat) (a : List Bool) (l : List Word) (g : Tag) : (t.writeV n a l g).prioMax = t.prioMax := rfl
@[simp] theorem Team.writeV_role (t : Team) (n : Nat) (a : List Bool) (l : List Word) (g : Tag) : (t.writeV n a l g).role = t.role := rfl
@[simp] theorem Team.writeV_ydl (t : Team) (n : Nat) (a : List Bool) (l : List Word) (g : Tag) : (t.writeV n a l g).ydl = t.ydl := rfl
@[simp] theorem Team.writeV_undob (t : Team) (n : Nat) (a : List Bool) (l : List Word) (g : Tag) : (t.writeV n a l g).undob = t.undob := rfl
@[simp] theorem Team.writeV_undol (t : Team) (n : Nat) (a : List Bool) (l : List Word) (g : Tag) : (t.writeV n a l g).undol = t.undol := rfl
@[simp] theorem Team.writeV_ctxs (t : Team) (n : Nat) (a : List Bool) (l : List Word) (g : Tag) : (t.writeV n a l g).ctxs = t.ctxs := rfl
@[simp] theorem Team.writeV_chainb (t : Team) (n : Nat) (a : List Bool) (l : List Word) (g : Tag) : (t.writeV n a l g).chainb = t.chainb := rfl
@[simp] theorem Team.writeV_seqb (t : Team) (n : Nat) (a : List Bool) (l : List Word) (g : Tag) : (t.writeV n a l g).seqb = t.seqb := rfl
@[simp] theorem Team.writeV_surfb (t : Team) (n : Nat) (a : List Bool) (l : List Word) (g : Tag) : (t.writeV n a l g).surfb = t.surfb := rfl
@[simp] theorem Team.writeV_run (t : Team) (n : Nat) (a : List Bool) (l : List Word) (g : Tag) : (t.writeV n a l g).run = t.run := rfl
@[simp] theorem Team.writeV_handler (t : Team) (n : Nat) (a : List Bool) (l : List Word) (g : Tag) : (t.writeV n a l g).handler = t.handler := rfl
@[simp] theorem Team.writeV_wound (t : Team) (n : Nat) (a : List Bool) (l : List Word) (g : Tag) : (t.writeV n a l g).wound = t.wound := rfl
@[simp] theorem Team.writeV_armed (t : Team) (n : Nat) (a : List Bool) (l : List Word) (g : Tag) : (t.writeV n a l g).armed = t.armed := rfl
@[simp] theorem Team.writeV_task (t : Team) (n : Nat) (a : List Bool) (l : List Word) (g : Tag) : (t.writeV n a l g).task = t.task := rfl
@[simp] theorem Team.writeV_sets (t : Team) (n : Nat) (a : List Bool) (l : List Word) (g : Tag) : (t.writeV n a l g).sets = t.sets := rfl
@[simp] theorem Team.writeV_uses (t : Team) (n : Nat) (a : List Bool) (l : List Word) (g : Tag) : (t.writeV n a l g).uses = t.uses := rfl
@[simp] theorem Team.writeV_holds (t : Team) (n : Nat) (a : List Bool) (l : List Word) (g : Tag) : (t.writeV n a l g).holds = t.holds := rfl
@[simp] theorem Team.writeV_mwEnd (t : Team) (n : Nat) (a : List Bool) (l : List Word) (g : Tag) : (t.writeV n a l g).mwEnd = t.mwEnd := rfl
@[simp] theorem Team.writeV_pending (t : Team) (n : Nat) (a : List Bool) (l : List Word) (g : Tag) : (t.writeV n a l g).pending = t.pending := rfl
@[simp] theorem Team.writeV_held (t : Team) (n : Nat) (a : List Bool) (l : List Word) (g : Tag) : (t.writeV n a l g).held = t.held := rfl
@[simp] theorem Team.writeV_due (t : Team) (n : Nat) (a : List Bool) (l : List Word) (g : Tag) : (t.writeV n a l g).due = t.due := rfl
@[simp] theorem Team.writeV_part (t : Team) (n : Nat) (a : List Bool) (l : List Word) (g : Tag) : (t.writeV n a l g).part = t.part := rfl
@[simp] theorem Team.writeV_retPc (t : Team) (n : Nat) (a : List Bool) (l : List Word) (g : Tag) : (t.writeV n a l g).retPc = t.retPc := rfl
@[simp] theorem Team.writeV_rdst (t : Team) (n : Nat) (a : List Bool) (l : List Word) (g : Tag) : (t.writeV n a l g).rdst = t.rdst := rfl
@[simp] theorem Team.writeV_aux (t : Team) (n : Nat) (a : List Bool) (l : List Word) (g : Tag) : (t.writeV n a l g).aux = t.aux := rfl
@[simp] theorem Team.writeV_image (t : Team) (n : Nat) (a : List Bool) (l : List Word) (g : Tag) : (t.writeV n a l g).image = t.image := rfl
@[simp] theorem Team.writeV_forced (t : Team) (n : Nat) (a : List Bool) (l : List Word) (g : Tag) : (t.writeV n a l g).forced = t.forced := rfl
@[simp] theorem Team.writeV_entries (t : Team) (n : Nat) (a : List Bool) (l : List Word) (g : Tag) : (t.writeV n a l g).entries = t.entries := rfl
@[simp] theorem Team.writeV_savedNo (t : Team) (n : Nat) (a : List Bool) (l : List Word) (g : Tag) : (t.writeV n a l g).savedNo = t.savedNo := rfl
@[simp] theorem Team.writeV_rec0 (t : Team) (n : Nat) (a : List Bool) (l : List Word) (g : Tag) : (t.writeV n a l g).rec0 = t.rec0 := rfl
@[simp] theorem Team.writeV_imgAt (t : Team) (n : Nat) (a : List Bool) (l : List Word) (g : Tag) : (t.writeV n a l g).imgAt = t.imgAt := rfl
@[simp] theorem Team.writeV_lastIssue (t : Team) (n : Nat) (a : List Bool) (l : List Word) (g : Tag) : (t.writeV n a l g).lastIssue = t.lastIssue := rfl
@[simp] theorem Team.writeV_readyAt (t : Team) (n : Nat) (a : List Bool) (l : List Word) (g : Tag) : (t.writeV n a l g).readyAt = t.readyAt := rfl
@[simp] theorem Team.writeV_caught (t : Team) (n : Nat) (a : List Bool) (l : List Word) (g : Tag) : (t.writeV n a l g).caught = t.caught := rfl
@[simp] theorem Team.writeV_issueNo (t : Team) (n : Nat) (a : List Bool) (l : List Word) (g : Tag) : (t.writeV n a l g).issueNo = t.issueNo := rfl
@[simp] theorem Team.writeV_ordAt (t : Team) (n : Nat) (a : List Bool) (l : List Word) (g : Tag) : (t.writeV n a l g).ordAt = t.ordAt := rfl
@[simp] theorem Team.writeV_savedAt (t : Team) (n : Nat) (a : List Bool) (l : List Word) (g : Tag) : (t.writeV n a l g).savedAt = t.savedAt := rfl
@[simp] theorem Team.writeV_pop (t : Team) (n : Nat) (a : List Bool) (l : List Word) (g : Tag) : (t.writeV n a l g).pop = t.pop := rfl

/-! ## Team.fillV -/

@[simp] theorem Team.fillV_uid (t : Team) (n : Nat) (l : List (Nat × Word)) (g : Tag) : (t.fillV n l g).uid = t.uid := rfl
@[simp] theorem Team.fillV_launch (t : Team) (n : Nat) (l : List (Nat × Word)) (g : Tag) : (t.fillV n l g).launch = t.launch := rfl
@[simp] theorem Team.fillV_ctx (t : Team) (n : Nat) (l : List (Nat × Word)) (g : Tag) : (t.fillV n l g).ctx = t.ctx := rfl
@[simp] theorem Team.fillV_core (t : Team) (n : Nat) (l : List (Nat × Word)) (g : Tag) : (t.fillV n l g).core = t.core := rfl
@[simp] theorem Team.fillV_place (t : Team) (n : Nat) (l : List (Nat × Word)) (g : Tag) : (t.fillV n l g).place = t.place := rfl
@[simp] theorem Team.fillV_width (t : Team) (n : Nat) (l : List (Nat × Word)) (g : Tag) : (t.fillV n l g).width = t.width := rfl
@[simp] theorem Team.fillV_nv (t : Team) (n : Nat) (l : List (Nat × Word)) (g : Tag) : (t.fillV n l g).nv = t.nv := rfl
@[simp] theorem Team.fillV_index (t : Team) (n : Nat) (l : List (Nat × Word)) (g : Tag) : (t.fillV n l g).index = t.index := rfl
@[simp] theorem Team.fillV_widt (t : Team) (n : Nat) (l : List (Nat × Word)) (g : Tag) : (t.fillV n l g).widt = t.widt := rfl
@[simp] theorem Team.fillV_leaf (t : Team) (n : Nat) (l : List (Nat × Word)) (g : Tag) : (t.fillV n l g).leaf = t.leaf := rfl
@[simp] theorem Team.fillV_partner (t : Team) (n : Nat) (l : List (Nat × Word)) (g : Tag) : (t.fillV n l g).partner = t.partner := rfl
@[simp] theorem Team.fillV_pc (t : Team) (n : Nat) (l : List (Nat × Word)) (g : Tag) : (t.fillV n l g).pc = t.pc := rfl
@[simp] theorem Team.fillV_s (t : Team) (n : Nat) (l : List (Nat × Word)) (g : Tag) : (t.fillV n l g).s = t.s := rfl
@[simp] theorem Team.fillV_p (t : Team) (n : Nat) (l : List (Nat × Word)) (g : Tag) : (t.fillV n l g).p = t.p := rfl
@[simp] theorem Team.fillV_status (t : Team) (n : Nat) (l : List (Nat × Word)) (g : Tag) : (t.fillV n l g).status = t.status := rfl
@[simp] theorem Team.fillV_trapv (t : Team) (n : Nat) (l : List (Nat × Word)) (g : Tag) : (t.fillV n l g).trapv = t.trapv := rfl
@[simp] theorem Team.fillV_trapa (t : Team) (n : Nat) (l : List (Nat × Word)) (g : Tag) : (t.fillV n l g).trapa = t.trapa := rfl
@[simp] theorem Team.fillV_prio (t : Team) (n : Nat) (l : List (Nat × Word)) (g : Tag) : (t.fillV n l g).prio = t.prio := rfl
@[simp] theorem Team.fillV_prioMax (t : Team) (n : Nat) (l : List (Nat × Word)) (g : Tag) : (t.fillV n l g).prioMax = t.prioMax := rfl
@[simp] theorem Team.fillV_role (t : Team) (n : Nat) (l : List (Nat × Word)) (g : Tag) : (t.fillV n l g).role = t.role := rfl
@[simp] theorem Team.fillV_ydl (t : Team) (n : Nat) (l : List (Nat × Word)) (g : Tag) : (t.fillV n l g).ydl = t.ydl := rfl
@[simp] theorem Team.fillV_undob (t : Team) (n : Nat) (l : List (Nat × Word)) (g : Tag) : (t.fillV n l g).undob = t.undob := rfl
@[simp] theorem Team.fillV_undol (t : Team) (n : Nat) (l : List (Nat × Word)) (g : Tag) : (t.fillV n l g).undol = t.undol := rfl
@[simp] theorem Team.fillV_ctxs (t : Team) (n : Nat) (l : List (Nat × Word)) (g : Tag) : (t.fillV n l g).ctxs = t.ctxs := rfl
@[simp] theorem Team.fillV_chainb (t : Team) (n : Nat) (l : List (Nat × Word)) (g : Tag) : (t.fillV n l g).chainb = t.chainb := rfl
@[simp] theorem Team.fillV_seqb (t : Team) (n : Nat) (l : List (Nat × Word)) (g : Tag) : (t.fillV n l g).seqb = t.seqb := rfl
@[simp] theorem Team.fillV_surfb (t : Team) (n : Nat) (l : List (Nat × Word)) (g : Tag) : (t.fillV n l g).surfb = t.surfb := rfl
@[simp] theorem Team.fillV_run (t : Team) (n : Nat) (l : List (Nat × Word)) (g : Tag) : (t.fillV n l g).run = t.run := rfl
@[simp] theorem Team.fillV_handler (t : Team) (n : Nat) (l : List (Nat × Word)) (g : Tag) : (t.fillV n l g).handler = t.handler := rfl
@[simp] theorem Team.fillV_wound (t : Team) (n : Nat) (l : List (Nat × Word)) (g : Tag) : (t.fillV n l g).wound = t.wound := rfl
@[simp] theorem Team.fillV_armed (t : Team) (n : Nat) (l : List (Nat × Word)) (g : Tag) : (t.fillV n l g).armed = t.armed := rfl
@[simp] theorem Team.fillV_task (t : Team) (n : Nat) (l : List (Nat × Word)) (g : Tag) : (t.fillV n l g).task = t.task := rfl
@[simp] theorem Team.fillV_sets (t : Team) (n : Nat) (l : List (Nat × Word)) (g : Tag) : (t.fillV n l g).sets = t.sets := rfl
@[simp] theorem Team.fillV_uses (t : Team) (n : Nat) (l : List (Nat × Word)) (g : Tag) : (t.fillV n l g).uses = t.uses := rfl
@[simp] theorem Team.fillV_holds (t : Team) (n : Nat) (l : List (Nat × Word)) (g : Tag) : (t.fillV n l g).holds = t.holds := rfl
@[simp] theorem Team.fillV_mwEnd (t : Team) (n : Nat) (l : List (Nat × Word)) (g : Tag) : (t.fillV n l g).mwEnd = t.mwEnd := rfl
@[simp] theorem Team.fillV_pending (t : Team) (n : Nat) (l : List (Nat × Word)) (g : Tag) : (t.fillV n l g).pending = t.pending := rfl
@[simp] theorem Team.fillV_held (t : Team) (n : Nat) (l : List (Nat × Word)) (g : Tag) : (t.fillV n l g).held = t.held := rfl
@[simp] theorem Team.fillV_due (t : Team) (n : Nat) (l : List (Nat × Word)) (g : Tag) : (t.fillV n l g).due = t.due := rfl
@[simp] theorem Team.fillV_part (t : Team) (n : Nat) (l : List (Nat × Word)) (g : Tag) : (t.fillV n l g).part = t.part := rfl
@[simp] theorem Team.fillV_retPc (t : Team) (n : Nat) (l : List (Nat × Word)) (g : Tag) : (t.fillV n l g).retPc = t.retPc := rfl
@[simp] theorem Team.fillV_rdst (t : Team) (n : Nat) (l : List (Nat × Word)) (g : Tag) : (t.fillV n l g).rdst = t.rdst := rfl
@[simp] theorem Team.fillV_aux (t : Team) (n : Nat) (l : List (Nat × Word)) (g : Tag) : (t.fillV n l g).aux = t.aux := rfl
@[simp] theorem Team.fillV_image (t : Team) (n : Nat) (l : List (Nat × Word)) (g : Tag) : (t.fillV n l g).image = t.image := rfl
@[simp] theorem Team.fillV_forced (t : Team) (n : Nat) (l : List (Nat × Word)) (g : Tag) : (t.fillV n l g).forced = t.forced := rfl
@[simp] theorem Team.fillV_entries (t : Team) (n : Nat) (l : List (Nat × Word)) (g : Tag) : (t.fillV n l g).entries = t.entries := rfl
@[simp] theorem Team.fillV_savedNo (t : Team) (n : Nat) (l : List (Nat × Word)) (g : Tag) : (t.fillV n l g).savedNo = t.savedNo := rfl
@[simp] theorem Team.fillV_rec0 (t : Team) (n : Nat) (l : List (Nat × Word)) (g : Tag) : (t.fillV n l g).rec0 = t.rec0 := rfl
@[simp] theorem Team.fillV_imgAt (t : Team) (n : Nat) (l : List (Nat × Word)) (g : Tag) : (t.fillV n l g).imgAt = t.imgAt := rfl
@[simp] theorem Team.fillV_lastIssue (t : Team) (n : Nat) (l : List (Nat × Word)) (g : Tag) : (t.fillV n l g).lastIssue = t.lastIssue := rfl
@[simp] theorem Team.fillV_readyAt (t : Team) (n : Nat) (l : List (Nat × Word)) (g : Tag) : (t.fillV n l g).readyAt = t.readyAt := rfl
@[simp] theorem Team.fillV_caught (t : Team) (n : Nat) (l : List (Nat × Word)) (g : Tag) : (t.fillV n l g).caught = t.caught := rfl
@[simp] theorem Team.fillV_issueNo (t : Team) (n : Nat) (l : List (Nat × Word)) (g : Tag) : (t.fillV n l g).issueNo = t.issueNo := rfl
@[simp] theorem Team.fillV_ordAt (t : Team) (n : Nat) (l : List (Nat × Word)) (g : Tag) : (t.fillV n l g).ordAt = t.ordAt := rfl
@[simp] theorem Team.fillV_savedAt (t : Team) (n : Nat) (l : List (Nat × Word)) (g : Tag) : (t.fillV n l g).savedAt = t.savedAt := rfl
@[simp] theorem Team.fillV_pop (t : Team) (n : Nat) (l : List (Nat × Word)) (g : Tag) : (t.fillV n l g).pop = t.pop := rfl

end Sys2Proof.Machine
end

