-- ==== Sys2Proof/Laws/Frame.lean ====
section
/-!
SUPPORT. Which shared operations leave device memory alone, and what bytes applied at their home slices do to it.
-/

namespace Sys2Proof.Machine

/-- A fold whose steps keep memory keeps it. -/
theorem foldl_mem {α : Type} (g : State → α → State) (h : ∀ s a, (g s a).mem = s.mem) (l : List α) (s : State) :
    (l.foldl g s).mem = s.mem := by
  induction l generalizing s with
  | nil => rfl
  | cons a l ih => exact (ih _).trans (h s a)

@[simp] theorem postOnce_mem (s : State) (e : Ev) : (s.postOnce e).mem = s.mem := by
  simp only [State.postOnce]; split <;> rfl

@[simp] theorem tlbFill_mem (s : State) (core ctx va : Nat) : (tlbFill s core ctx va).mem = s.mem := by
  simp only [tlbFill]; split <;> rfl

@[simp] theorem retestAll_mem (s : State) : (retestAll s).mem = s.mem := foldl_mem _ (fun _ _ => postOnce_mem _ _) _ _

/-- Bytes applied at their home slices change exactly those bytes. -/
@[simp] theorem apply_mem (s : State) (cells : List (Nat × Byte)) : (s.apply cells).mem = s.mem.setAll cells := by
  simp only [State.apply]
  rw [foldl_mem _ (fun _ _ => postOnce_mem _ _)]
  exact retestAll_mem _

theorem apply_wf (s : State) (cells : List (Nat × Byte)) (h : s.mem.wf = true) : (s.apply cells).mem.wf = true := by
  rw [apply_mem]; exact Memory.wf_setAll _ _ h

theorem writeVA_wf (s s' : State) (core ctx va : Nat) (bs : List Byte) (h : s.mem.wf = true)
    (e : writeVA s core ctx va bs = .ok s') : s'.mem.wf = true := by
  simp only [writeVA] at e
  split at e
  · cases e; exact apply_wf _ _ h
  · cases e

@[simp] theorem sliceHold_mem (s : State) (key : Nat) : (sliceHold s key).mem = s.mem := by
  simp only [sliceHold]; repeat (first | rfl | split)

@[simp] theorem l1Fetch_mem (s : State) (core key : Nat) : (l1Fetch s core key).mem = s.mem := by
  simp only [l1Fetch]
  split
  · rfl
  · rw [State.onCore_mem]; exact sliceHold_mem _ _

@[simp] theorem addFault_mem (s : State) (core : Nat) (q : FaultReq) : (addFault s core q).mem = s.mem := by
  simp only [addFault]; repeat (first | rfl | split)

@[simp] theorem dropFaults_mem (s : State) (p : FaultReq → Bool) : (dropFaults s p).mem = s.mem := rfl

@[simp] theorem l1Load_mem (s : State) (core : Nat) (l : List Seg) : (l1Load s core l).mem = s.mem := by
  refine foldl_mem _ (fun s g => ?_) l s
  split
  · rw [l1Fetch_mem, l1Fetch_mem]
  · rfl

@[simp] theorem startWrite_mem (s : State) (t : Team) (path lane : Nat) (va : Word64) (cells : List (Nat × Byte))
    (kind : Nat) (release : Option Nat) (waits : List Nat) (red : Option (Nat × Ty × Word64)) (op : Nat)
    (pc npc : Word64) (i : Option Instr) (data : Word64) :
    (startWrite s t path lane va cells kind release waits red op pc npc i data).mem = s.mem := by
  simp only [startWrite]; split <;> rfl

@[simp] theorem storeSegs_mem (s : State) (t : Team) (lane : Nat) (va : Word64) (segs : List Seg) (bs : List Byte)
    (pc npc : Word64) (i : Option Instr) (data : Word64) :
    (storeSegs s t lane va segs bs pc npc i data).mem = s.mem := startWrite_mem ..

@[simp] theorem clearWait_mem (s : State) (id : Nat) : (clearWait s id).mem = s.mem := by
  simp only [clearWait]
  rw [foldl_mem _ (fun _ _ => postOnce_mem _ _), foldl_mem _ (fun _ _ => postOnce_mem _ _)]

@[simp] theorem wakeWound_mem (s : State) (u : Nat) : (wakeWound s u).mem = s.mem := by
  simp only [wakeWound]
  split
  · rfl
  · split
    · exact postOnce_mem _ _
    · rfl

@[simp] theorem parkFault_mem (s : State) (u : Nat) : (parkFault s u).mem = s.mem := wakeWound_mem _ _

@[simp] theorem settle_mem (s : State) (u : Nat) : (settle s u).mem = s.mem := by
  simp only [settle]
  split
  · rfl
  · split
    · split <;> rfl
    · split
      · rfl
      · split
        · rfl
        · exact postOnce_mem _ _
    · split
      · exact postOnce_mem _ _
      · rfl
    · rfl

@[simp] theorem raiseFlight_mem (s : State) (f : Flight) (tr : Trap) : (raiseFlight s f tr).mem = s.mem := by
  simp only [raiseFlight]
  split
  · rfl
  · split
    · rfl
    · split <;> rfl

@[simp] theorem endFlight_mem (s : State) (f : Flight) : (endFlight s f).mem = s.mem := by
  simp only [endFlight]
  rw [settle_mem]
  split
  · rfl
  · exact raiseFlight_mem _ _ _

@[simp] theorem insertFlight_mem (s : State) (f : Flight) : (insertFlight s f).mem = s.mem := rfl

@[simp] theorem withdrawOp_mem (s : State) (u op : Nat) : (withdrawOp s u op).mem = s.mem := by
  simp only [withdrawOp]
  split
  · rfl
  · split
    · rfl
    · rw [insertFlight_mem, foldl_mem _ (fun _ _ => clearWait_mem _ _)]

@[simp] theorem captureReady_mem (s : State) (u : Nat) : (captureReady s u).mem = s.mem := by
  have h : ∀ (l : List Nat) (s : State), (l.foldl (fun s o => withdrawOp s u o) s).mem = s.mem :=
    foldl_mem _ (fun _ _ => withdrawOp_mem _ _ _)
  simp only [captureReady]
  split
  · rfl
  · split
    · exact h _ _
    · rw [foldl_mem _ (fun _ _ => insertFlight_mem _ _)]
      exact h _ _

@[simp] theorem wakeLaunches_mem (s : State) : (wakeLaunches s).mem = s.mem := foldl_mem _ (fun _ _ => postOnce_mem _ _) _ _

@[simp] theorem wakeStatus_mem (s : State) : (wakeStatus s).mem = s.mem := foldl_mem _ (fun _ _ => postOnce_mem _ _) _ _

@[simp] theorem unhandled_mem (s : State) (t : Team) (code : Nat) : (unhandled s t code).mem = s.mem := by
  simp only [unhandled]
  rw [postOnce_mem, State.onLaunch_mem, foldl_mem _ (fun _ _ => clearWait_mem _ _)]
  rfl

/-- The delivery of a trap changes no byte of memory by itself: its frame is a buffered write. -/
@[simp] theorem deliver_mem (s : State) (t : Team) (tr : Trap) : (deliver s t tr).mem = s.mem := by
  simp only [deliver]
  split
  · rw [unhandled_mem, captureReady_mem]; rfl
  · split
    · split
      · rw [unhandled_mem]; exact captureReady_mem _ _
      · rw [State.setTeam_mem, addFault_mem]; exact captureReady_mem _ _
    · rw [unhandled_mem, captureReady_mem]; rfl
    · rw [State.setTeam_mem, storeSegs_mem]; exact captureReady_mem _ _

/-- Taking a trap changes no byte of memory. -/
@[simp] theorem takeTrap_mem (s : State) (t : Team) (tr : Trap) : (takeTrap s t tr).mem = s.mem := by
  simp only [takeTrap]
  split
  · rw [settle_mem]; rfl
  · split
    · rfl
    · exact deliver_mem _ _ _

@[simp] theorem finish_mem (c : C) (s : State) : (finish c (.wait s)).mem = s.mem := rfl

@[simp] theorem launch_mem (c : C) (s : State) (lanes : List LaneReq) (snap aux : List Nat) (gate : Bool) :
    (c.launch s lanes snap aux gate).mem = s.mem := rfl

end Sys2Proof.Machine
end

