-- ==== Sys2Proof/Laws/Issue.lean ====
section
/-!
SUPPORT. What an issue can do: take the trap of R83, take the trap of an empty source, wait, or run.
-/

namespace Sys2Proof.Machine

theorem issue_runs (i : Instr) (opc sub len : Nat) (x : Ext) (eff : C → State → Eff) (s : State) (t : Team)
    (h : Issues opc sub x s t) :
    issue i opc sub len x eff s = .next (finish (ctxAt i opc sub len x t) (eff (ctxAt i opc sub len x t) s)) := by
  obtain ⟨h1, h2, h3, h4, h5, h6, h7⟩ := h
  simp only [issue, h1, h3, h4, h5, h6, h7, Bool.false_eq_true, if_false]
  rfl

theorem issue_next (i : Instr) (opc sub len : Nat) (x : Ext) (eff : C → State → Eff) (s : State) (t : Team)
    (h : s.team? s.cur = some t) : ∃ s', issue i opc sub len x eff s = .next s' := by
  simp only [issue, h]
  split
  · exact ⟨_, rfl⟩
  · split
    · exact ⟨_, rfl⟩
    · split
      · exact ⟨_, rfl⟩
      · split
        · exact ⟨_, rfl⟩
        · split <;> exact ⟨_, rfl⟩

theorem issue_regTrap (i : Instr) (opc sub len : Nat) (x : Ext) (eff : C → State → Eff) (s : State) (t : Team) (n : Nat)
    (h : s.team? s.cur = some t) (hg : lgBad t opc sub x = false)
    (hr : regErr s t (rowOf t.width opc sub x) x (extraRun t.width opc sub x) = some n) :
    issue i opc sub len x eff s =
      .next (takeTrap s t (trapHere t.pc (t.pc + BitVec.ofNat 64 len) 0x03 (ownPos i n))) := by
  simp only [issue, h, hg, hr, Bool.false_eq_true, if_false]
  rfl

@[simp] theorem opnd_ctxAt (i : Instr) (opc sub len : Nat) (x : Ext) (t : Team) (s : State) (y : Src) (n l : Nat) :
    (ctxAt i opc sub len x t).opnd s y n l = srcVal s t x y n l := by
  simp only [C.opnd, srcVal]
  cases y.cls <;> rfl

@[simp] theorem sc64_ctxAt (i : Instr) (opc sub len : Nat) (x : Ext) (t : Team) (s : State) (y : Src) :
    (ctxAt i opc sub len x t).sc64 s y = srcScalar s t x y := by
  simp [C.sc64, srcScalar]

@[simp] theorem finish_done (i : Instr) (opc sub len : Nat) (x : Ext) (t : Team) (s : State) (h : t.part = none) :
    finish (ctxAt i opc sub len x t) (.done s) = retire s t len := by
  simp only [finish, endIssue, ctxAt, h, retire, goTo]

@[simp] theorem finish_jump (i : Instr) (opc sub len : Nat) (x : Ext) (t : Team) (s : State) (a : Word64)
    (h : t.part = none) : finish (ctxAt i opc sub len x t) (.jump s a) = goTo s t a := by
  simp only [finish, endIssue, ctxAt, h, goTo]

theorem team_onTeam (s : State) (u v : Nat) (f : Team → Team) (hf : ∀ t, (f t).uid = t.uid) :
    (s.onTeam u f).team? v = (s.team? v).map (fun t => if t.uid = u then f t else t) := by
  simp only [State.team?, State.onTeam, List.find?_map]
  congr 1
  apply congrArg (fun p => List.find? p s.teams)
  funext t
  simp only [Function.comp]
  split <;> simp [hf]

theorem mem_onTeam_get (s : State) (u : Nat) (f : Team → Team) (a : Nat) :
    (s.onTeam u f).mem.get a = s.mem.get a := rfl

end Sys2Proof.Machine
end

