-- ==== Sys2Proof/Laws/Step.lean ====
section
/-!
SUPPORT. What a step can do: run the chosen event, run the chosen team to its boundary, or let firmware look; and what
the passing of time leaves alone.
-/

namespace Sys2Proof.Machine

/-- An event of the agenda does what `exec` does for its constructor. -/
theorem exec_evOf {i : Instr} {e : Ev} (h : evOf i = some e) (s : State) : exec i s = execEv e s := by
  cases i <;> cases h <;> rfl

theorem step_event {s : State} {e : Ev} (h : s.agenda[chosen s]? = some e) :
    step s = if portHolds (ahead s) e then .next (putOff (ahead s) e) else wrapUp (ahead s) none (execEv e (ahead s)) := by
  unfold step
  rw [h]

theorem step_team {s : State} {t : Team} (h : s.agenda[chosen s]? = none)
    (ht : (stepTeams s)[chosen s - s.agenda.length]? = some t) :
    step s = wrapUp (ahead s) (some t.uid)
      (stepTeam { ahead s with cur := t.uid } (t.ahead s)) := by
  unfold step
  rw [h, ht]

theorem step_idle {s : State} (h : s.agenda[chosen s]? = none)
    (ht : (stepTeams s)[chosen s - s.agenda.length]? = none) : step s = .next (firmwareIdle (ahead s)) := by
  unfold step
  rw [h, ht]

theorem foldl_clk {α : Type} (g : State → α → State) (h : ∀ s a, (g s a).clk = s.clk) (l : List α) (s : State) :
    (l.foldl g s).clk = s.clk := by
  induction l generalizing s with
  | nil => rfl
  | cons a l ih => exact (ih _).trans (h s a)

@[simp] theorem postOnce_clk (s : State) (e : Ev) : (s.postOnce e).clk = s.clk := by
  simp only [State.postOnce]; split <;> rfl

@[simp] theorem tick_mem (s : State) : (tick s).mem = s.mem := by
  simp only [tick]
  rw [foldl_mem _ (fun _ _ => postOnce_mem _ _), foldl_mem _ (fun _ _ => postOnce_mem _ _)]

@[simp] theorem tick_clk (s : State) : (tick s).clk = clockAfter s.clk (elapsed s) := by
  simp only [tick]
  rw [foldl_clk _ (fun _ _ => postOnce_clk _ _), foldl_clk _ (fun _ _ => postOnce_clk _ _)]

/-- Writing an image again is posted, not done: memory stands. -/
@[simp] theorem keepImages_mem (b s : State) : (keepImages b s).mem = s.mem := foldl_mem _ (fun _ _ => postOnce_mem _ _) _ _

@[simp] theorem stamp_mem (b : State) (u : Nat) (s : State) : (stamp b u s).mem = s.mem := by
  simp only [stamp]; split <;> rfl

/-- What a step adds to what it ran leaves memory alone. -/
theorem wrapUp_mem {b : State} {u : Option Nat} {o : Out} {s' : State} (h : wrapUp b u o = .next s') :
    ∃ s, o = .next s ∧ s'.mem = s.mem := by
  cases o with
  | next s =>
    refine ⟨s, rfl, ?_⟩
    simp only [wrapUp] at h
    cases u <;> (cases h; simp)
  | fault f => cases h
  | refused r => cases h

end Sys2Proof.Machine
end

