-- ==== Sys2Proof/Tests/Slice0.lean ====
section
/-!
SUPPORT. Tests: the words of every group written out from the tables of 03 R61-R80, for each statement of Obligations.lean a
witness (states and operands that meet its hypotheses, at the boundary of every clause), an ill-formed term for each check of
03 R82, and single steps worked out by hand.
-/

namespace Sys2Proof.Tests

open Sys2Proof Sys2Proof.Machine

set_option maxRecDepth 20000
set_option Elab.async false

/-! ## Decoding: words written bit by bit as word 0, word 1 and word 2 of the encoding tables, fields from the highest bit down -/

theorem test_decode_ctrl :
  decode [0b00000000_00000000_0_0_00000_1000000_01,
      0b000_00000_00_00_00_0_0_00000000_00000000, 0b100111000001001000110100_00000000] =
    .ok (.bra ⟨false, 0, .rs, .b32, 0, ⟨.vec, 0, false⟩, ⟨.vec, 0, false⟩, ⟨.vec, 0, false⟩, 0x9C1234, none⟩) ∧
  decode [0b00000000_00000000_0_0_00001_1000000_01,
      0b000_00000_00_00_00_0_0_00000000_00000000, 0b100111000001001000110100_00000001] =
    .ok (.bmz ⟨false, 1, .rs, .b32, 0, ⟨.vec, 0, false⟩, ⟨.vec, 0, false⟩, ⟨.vec, 0, false⟩, 0x9C1234, none⟩) ∧
  decode [0b00000000_00000000_0_0_00010_1000000_01,
      0b000_00000_00_00_00_0_0_00000000_00000000, 0b100111000001001000110100_00000010] =
    .ok (.bmnz ⟨false, 2, .rs, .b32, 0, ⟨.vec, 0, false⟩, ⟨.vec, 0, false⟩, ⟨.vec, 0, false⟩, 0x9C1234, none⟩) ∧
  decode [0b00000101_00000000_1_0_00011_1000000_01,
      0b000_00000_00_11_01_0_0_00000000_00000101, 0b100111000001001000110100_00000011] =
    .ok (.bsc ⟨false, 3, .rs, .b32, 0, ⟨.sc, 5, true⟩, ⟨.obj, 5, false⟩, ⟨.vec, 0, false⟩, 0x9C1234, none⟩) ∧
  decode [0b00000000_00001101_0_0_00100_1000000_01,
      0b000_00000_00_00_00_0_0_00000000_00000000, 0b100111000001001000110100_00000100] =
    .ok (.call ⟨false, 4, .rs, .b32, 13, ⟨.vec, 0, false⟩, ⟨.vec, 0, false⟩, ⟨.vec, 0, false⟩, 0x9C1234, none⟩) ∧
  decode [0b00000100_00000000_0_0_00101_1000000_01,
      0b000_00000_00_00_01_0_0_00000000_00000000, 0b000000000000000000000000_00000101] =
    .ok (.ret ⟨false, 5, .rs, .b32, 0, ⟨.sc, 4, false⟩, ⟨.vec, 0, false⟩, ⟨.vec, 0, false⟩, 0x0, none⟩) ∧
  decode [0b00000100_00000000_0_0_00110_1000000_01,
      0b000_00000_00_00_01_0_0_00000000_00000000, 0b000000000000000000000000_00000110] =
    .ok (.jmp ⟨false, 6, .rs, .b32, 0, ⟨.sc, 4, false⟩, ⟨.vec, 0, false⟩, ⟨.vec, 0, false⟩, 0x0, none⟩) ∧
  decode [0b00000000_00001101_0_0_00111_1000000_01,
      0b000_00000_00_00_00_0_0_00000000_00000000, 0b100111000001001000110100_00000111] =
    .ok (.loop ⟨false, 7, .rs, .b32, 13, ⟨.vec, 0, false⟩, ⟨.vec, 0, false⟩, ⟨.vec, 0, false⟩, 0x9C1234, none⟩) ∧
  decode [0b00000000_00000000_0_0_01000_1000000_01,
      0b000_00000_00_00_00_0_0_00000000_00000000, 0b000000000000000000000000_00001000] =
    .ok (.texit ⟨false, 8, .rs, .b32, 0, ⟨.vec, 0, false⟩, ⟨.vec, 0, false⟩, ⟨.vec, 0, false⟩, 0x0, none⟩) := by decide

theorem test_decode_ctrl2 :
  decode [0b00000000_00000000_0_0_01001_1000000_01,
      0b000_00000_00_00_00_0_0_00000000_00000000, 0b000000000001001000110100_00001001] =
    .ok (.brk ⟨false, 9, .rs, .b32, 0, ⟨.vec, 0, false⟩, ⟨.vec, 0, false⟩, ⟨.vec, 0, false⟩, 0x1234, none⟩) ∧
  decode [0b00000000_00000000_0_0_01010_1000000_01,
      0b000_00000_00_00_00_0_0_00000000_00000000, 0b000000000000000000000000_00001010] =
    .ok (.nop ⟨false, 10, .rs, .b32, 0, ⟨.vec, 0, false⟩, ⟨.vec, 0, false⟩, ⟨.vec, 0, false⟩, 0x0, none⟩) := by decide

theorem test_decode_mask :
  decode [0b00000110_00001101_0_1_00000_1000001_01,
      0b000_00000_00_00_10_0_0_00000000_00000000, 0b000000000000000000000000_00000000] =
    .ok (.pmask ⟨true, 0, .rs, .b32, 13, ⟨.pred, 6, false⟩, ⟨.vec, 0, false⟩, ⟨.vec, 0, false⟩, 0x0, none⟩) ∧
  decode [0b00000100_00000111_0_1_00001_1000001_01,
      0b000_00000_00_00_01_0_0_00000000_00000000, 0b000000000000000000000000_00000001] =
    .ok (.mpred ⟨true, 1, .rs, .b32, 7, ⟨.sc, 4, false⟩, ⟨.vec, 0, false⟩, ⟨.vec, 0, false⟩, 0x0, none⟩) ∧
  decode [0b00000100_00001101_0_1_00010_1000001_01,
      0b000_00000_00_00_01_0_0_00000000_00000000, 0b000000000000000000000000_00000010] =
    .ok (.mpop ⟨true, 2, .rs, .b32, 13, ⟨.sc, 4, false⟩, ⟨.vec, 0, false⟩, ⟨.vec, 0, false⟩, 0x0, none⟩) ∧
  decode [0b00000100_00001101_0_1_00011_1000001_01,
      0b000_00000_00_00_01_0_0_00000000_00000000, 0b000000000000000000000000_00000011] =
    .ok (.mfirst ⟨true, 3, .rs, .b32, 13, ⟨.sc, 4, false⟩, ⟨.vec, 0, false⟩, ⟨.vec, 0, false⟩, 0x0, none⟩) := by decide

theorem test_decode_salu :
  decode [0b00000101_00001101_1_0_00000_1000010_01,
      0b000_00101_00_01_01_0_1_00000000_00000111, 0b000000000000000000000000_00000000] =
    .ok (.sadd ⟨false, 0, .rs, .i32, 13, ⟨.sc, 5, true⟩, ⟨.sc, 7, true⟩, ⟨.vec, 0, false⟩, 0x0, none⟩) ∧
  decode [0b00000101_00001101_1_0_00001_1000010_01,
      0b000_00101_00_01_01_0_1_00000000_00000111, 0b000000000000000000000000_00000001] =
    .ok (.ssub ⟨false, 1, .rs, .i32, 13, ⟨.sc, 5, true⟩, ⟨.sc, 7, true⟩, ⟨.vec, 0, false⟩, 0x0, none⟩) ∧
  decode [0b00000101_00001101_1_0_00010_1000010_01,
      0b000_00101_00_01_01_0_1_00000000_00000111, 0b000000000000000000000000_00000010] =
    .ok (.smul ⟨false, 2, .rs, .i32, 13, ⟨.sc, 5, true⟩, ⟨.sc, 7, true⟩, ⟨.vec, 0, false⟩, 0x0, none⟩) ∧
  decode [0b00000101_00001101_1_0_00011_1000010_01,
      0b000_00101_00_01_01_0_1_00000000_00000111, 0b000000000000000000000000_00000011] =
    .ok (.smulh ⟨false, 3, .rs, .i32, 13, ⟨.sc, 5, true⟩, ⟨.sc, 7, true⟩, ⟨.vec, 0, false⟩, 0x0, none⟩) ∧
  decode [0b00000101_00001101_1_0_00100_1000010_01,
      0b000_00000_00_01_01_0_1_00000000_00000111, 0b000000000000000000000000_00000100] =
    .ok (.sand ⟨false, 4, .rs, .b32, 13, ⟨.sc, 5, true⟩, ⟨.sc, 7, true⟩, ⟨.vec, 0, false⟩, 0x0, none⟩) ∧
  decode [0b00000101_00001101_1_0_00101_1000010_01,
      0b000_00000_00_01_01_0_1_00000000_00000111, 0b000000000000000000000000_00000101] =
    .ok (.sor ⟨false, 5, .rs, .b32, 13, ⟨.sc, 5, true⟩, ⟨.sc, 7, true⟩, ⟨.vec, 0, false⟩, 0x0, none⟩) ∧
  decode [0b00000101_00001101_1_0_00110_1000010_01,
      0b000_00000_00_01_01_0_1_00000000_00000111, 0b000000000000000000000000_00000110] =
    .ok (.sxor ⟨false, 6, .rs, .b32, 13, ⟨.sc, 5, true⟩, ⟨.sc, 7, true⟩, ⟨.vec, 0, false⟩, 0x0, none⟩) ∧
  decode [0b00000101_00001101_1_0_00111_1000010_01,
      0b000_00000_00_01_01_0_1_00000000_00000111, 0b000000000000000000000000_00000111] =
    .ok (.sandn ⟨false, 7, .rs, .b32, 13, ⟨.sc, 5, true⟩, ⟨.sc, 7, true⟩, ⟨.vec, 0, false⟩, 0x0, none⟩) ∧
  decode [0b00000101_00001101_1_0_01000_1000010_01,
      0b000_00000_00_01_01_0_1_00000000_00000111, 0b000000000000000000000000_00001000] =
    .ok (.sshl ⟨false, 8, .rs, .b32, 13, ⟨.sc, 5, true⟩, ⟨.sc, 7, true⟩, ⟨.vec, 0, false⟩, 0x0, none⟩) := by decide

theorem test_decode_salu2 :
  decode [0b00000101_00001101_1_0_01001_1000010_01,
      0b000_00000_00_01_01_0_1_00000000_00000111, 0b000000000000000000000000_00001001] =
    .ok (.sshr ⟨false, 9, .rs, .b32, 13, ⟨.sc, 5, true⟩, ⟨.sc, 7, true⟩, ⟨.vec, 0, false⟩, 0x0, none⟩) ∧
  decode [0b00000101_00001101_1_0_01010_1000010_01,
      0b000_00101_00_01_01_0_1_00000000_00000111, 0b000000000000000000000000_00001010] =
    .ok (.ssar ⟨false, 10, .rs, .i32, 13, ⟨.sc, 5, true⟩, ⟨.sc, 7, true⟩, ⟨.vec, 0, false⟩, 0x0, none⟩) ∧
  decode [0b00000101_00001101_1_0_01011_1000010_01,
      0b000_00101_00_01_01_0_1_00000000_00000111, 0b000000000000000000000000_00001011] =
    .ok (.smin ⟨false, 11, .rs, .i32, 13, ⟨.sc, 5, true⟩, ⟨.sc, 7, true⟩, ⟨.vec, 0, false⟩, 0x0, none⟩) ∧
  decode [0b00000101_00001101_1_0_01100_1000010_01,
      0b000_00101_00_01_01_0_1_00000000_00000111, 0b000000000000000000000000_00001100] =
    .ok (.smax ⟨false, 12, .rs, .i32, 13, ⟨.sc, 5, true⟩, ⟨.sc, 7, true⟩, ⟨.vec, 0, false⟩, 0x0, none⟩) ∧
  decode [0b00000101_00001101_1_0_01101_1000010_01,
      0b000_00000_00_00_01_0_0_00000000_00000000, 0b000000000000000000000000_00001101] =
    .ok (.sclz ⟨false, 13, .rs, .b32, 13, ⟨.sc, 5, true⟩, ⟨.vec, 0, false⟩, ⟨.vec, 0, false⟩, 0x0, none⟩) ∧
  decode [0b00000101_00001101_1_0_01110_1000010_01,
      0b000_00000_00_00_01_0_0_00000000_00000000, 0b000000000000000000000000_00001110] =
    .ok (.spopc ⟨false, 14, .rs, .b32, 13, ⟨.sc, 5, true⟩, ⟨.vec, 0, false⟩, ⟨.vec, 0, false⟩, 0x0, none⟩) ∧
  decode [0b00000101_00001101_1_0_01111_1000010_01,
      0b000_00101_00_01_01_0_1_00000000_00000111, 0b000000000000000000000000_00001111] =
    .ok (.sbfe ⟨false, 15, .rs, .i32, 13, ⟨.sc, 5, true⟩, ⟨.sc, 7, true⟩, ⟨.vec, 0, false⟩, 0x0, none⟩) ∧
  decode [0b00000101_00001101_1_0_10000_1000010_01,
      0b000_00000_01_01_01_1_1_00001010_00000111, 0b000000000000000000000000_00010000] =
    .ok (.sbfi ⟨false, 16, .rs, .b32, 13, ⟨.sc, 5, true⟩, ⟨.sc, 7, true⟩, ⟨.sc, 10, true⟩, 0x0, none⟩) ∧
  decode [0b00000101_00001101_1_0_10001_1000010_01,
      0b000_11001_01_01_01_1_1_00001010_00000111, 0b000000000000000000000000_00010001] =
    .ok (.ssel ⟨false, 17, .rs, .b64, 13, ⟨.sc, 5, true⟩, ⟨.sc, 7, true⟩, ⟨.sc, 10, true⟩, 0x0, none⟩) := by decide

theorem test_decode_salu3 :
  decode [0b00000101_00001101_1_0_10010_1000010_01,
      0b000_00101_00_01_01_0_1_00000000_00000111, 0b000000000000000000000100_00010010] =
    .ok (.scmp ⟨false, 18, .rs, .i32, 13, ⟨.sc, 5, true⟩, ⟨.sc, 7, true⟩, ⟨.vec, 0, false⟩, 0x4, none⟩) ∧
  decode [0b00000101_00001101_1_0_10011_1000010_01,
      0b000_00101_00_01_01_0_1_00000000_00000111, 0b000000000000000000000000_00010011] =
    .ok (.sdiv ⟨false, 19, .rs, .i32, 13, ⟨.sc, 5, true⟩, ⟨.sc, 7, true⟩, ⟨.vec, 0, false⟩, 0x0, none⟩) := by decide

theorem test_decode_vint :
  decode [0b00000101_00001110_1_1_00000_1000011_01,
      0b000_00101_00_01_01_0_1_00000000_00000111, 0b000000000000000000000000_00000000] =
    .ok (.vintVadd ⟨true, 0, .rs, .i32, 14, ⟨.sc, 5, true⟩, ⟨.sc, 7, true⟩, ⟨.vec, 0, false⟩, 0x0, none⟩) ∧
  decode [0b00000101_00001110_1_1_00001_1000011_01,
      0b000_00101_00_01_01_0_1_00000000_00000111, 0b000000000000000000000000_00000001] =
    .ok (.vintVsub ⟨true, 1, .rs, .i32, 14, ⟨.sc, 5, true⟩, ⟨.sc, 7, true⟩, ⟨.vec, 0, false⟩, 0x0, none⟩) ∧
  decode [0b00000101_00001110_1_1_00010_1000011_01,
      0b000_00000_00_01_01_0_1_00000000_00000111, 0b000000000000000000000000_00000010] =
    .ok (.vintVmul ⟨true, 2, .rs, .b32, 14, ⟨.sc, 5, true⟩, ⟨.sc, 7, true⟩, ⟨.vec, 0, false⟩, 0x0, none⟩) ∧
  decode [0b00000101_00001110_1_1_00011_1000011_01,
      0b000_00101_00_01_01_0_1_00000000_00000111, 0b000000000000000000000000_00000011] =
    .ok (.vmulh ⟨true, 3, .rs, .i32, 14, ⟨.sc, 5, true⟩, ⟨.sc, 7, true⟩, ⟨.vec, 0, false⟩, 0x0, none⟩) ∧
  decode [0b00000101_00001110_1_1_00100_1000011_01,
      0b000_00101_01_01_01_1_1_00001010_00000111, 0b000000000000000000000000_00000100] =
    .ok (.vmad ⟨true, 4, .rs, .i32, 14, ⟨.sc, 5, true⟩, ⟨.sc, 7, true⟩, ⟨.sc, 10, true⟩, 0x0, none⟩) ∧
  decode [0b00000101_00001110_1_1_00101_1000011_01,
      0b000_00101_00_01_01_0_1_00000000_00000111, 0b000000000000000000000000_00000101] =
    .ok (.vintVmin ⟨true, 5, .rs, .i32, 14, ⟨.sc, 5, true⟩, ⟨.sc, 7, true⟩, ⟨.vec, 0, false⟩, 0x0, none⟩) ∧
  decode [0b00000101_00001110_1_1_00110_1000011_01,
      0b000_00101_00_01_01_0_1_00000000_00000111, 0b000000000000000000000000_00000110] =
    .ok (.vintVmax ⟨true, 6, .rs, .i32, 14, ⟨.sc, 5, true⟩, ⟨.sc, 7, true⟩, ⟨.vec, 0, false⟩, 0x0, none⟩) ∧
  decode [0b00000101_00001110_1_1_00111_1000011_01,
      0b000_00101_00_00_01_0_0_00000000_00000000, 0b000000000000000000000000_00000111] =
    .ok (.vabs ⟨true, 7, .rs, .i32, 14, ⟨.sc, 5, true⟩, ⟨.vec, 0, false⟩, ⟨.vec, 0, false⟩, 0x0, none⟩) ∧
  decode [0b00000101_00001110_1_1_01000_1000011_01,
      0b000_00000_00_01_01_0_1_00000000_00000111, 0b000000000000000000000000_00001000] =
    .ok (.vand ⟨true, 8, .rs, .b32, 14, ⟨.sc, 5, true⟩, ⟨.sc, 7, true⟩, ⟨.vec, 0, false⟩, 0x0, none⟩) := by decide

theorem test_decode_vint2 :
  decode [0b00000101_00001110_1_1_01001_1000011_01,
      0b000_00000_00_01_01_0_1_00000000_00000111, 0b000000000000000000000000_00001001] =
    .ok (.vor ⟨true, 9, .rs, .b32, 14, ⟨.sc, 5, true⟩, ⟨.sc, 7, true⟩, ⟨.vec, 0, false⟩, 0x0, none⟩) ∧
  decode [0b00000101_00001110_1_1_01010_1000011_01,
      0b000_00000_00_01_01_0_1_00000000_00000111, 0b000000000000000000000000_00001010] =
    .ok (.vxor ⟨true, 10, .rs, .b32, 14, ⟨.sc, 5, true⟩, ⟨.sc, 7, true⟩, ⟨.vec, 0, false⟩, 0x0, none⟩) ∧
  decode [0b00000101_00001110_1_1_01011_1000011_01,
      0b000_00000_00_01_01_0_1_00000000_00000111, 0b000000000000000000000000_00001011] =
    .ok (.vandn ⟨true, 11, .rs, .b32, 14, ⟨.sc, 5, true⟩, ⟨.sc, 7, true⟩, ⟨.vec, 0, false⟩, 0x0, none⟩) ∧
  decode [0b00000101_00001110_1_1_01100_1000011_01,
      0b000_00000_00_00_01_0_0_00000000_00000000, 0b000000000000000000000000_00001100] =
    .ok (.vnot ⟨true, 12, .rs, .b32, 14, ⟨.sc, 5, true⟩, ⟨.vec, 0, false⟩, ⟨.vec, 0, false⟩, 0x0, none⟩) ∧
  decode [0b00000101_00001110_1_1_01101_1000011_01,
      0b000_00000_00_01_01_0_1_00000000_00000111, 0b000000000000000000000000_00001101] =
    .ok (.vshl ⟨true, 13, .rs, .b32, 14, ⟨.sc, 5, true⟩, ⟨.sc, 7, true⟩, ⟨.vec, 0, false⟩, 0x0, none⟩) ∧
  decode [0b00000101_00001110_1_1_01110_1000011_01,
      0b000_00000_00_01_01_0_1_00000000_00000111, 0b000000000000000000000000_00001110] =
    .ok (.vshr ⟨true, 14, .rs, .b32, 14, ⟨.sc, 5, true⟩, ⟨.sc, 7, true⟩, ⟨.vec, 0, false⟩, 0x0, none⟩) ∧
  decode [0b00000101_00001110_1_1_01111_1000011_01,
      0b000_00101_00_01_01_0_1_00000000_00000111, 0b000000000000000000000000_00001111] =
    .ok (.vsar ⟨true, 15, .rs, .i32, 14, ⟨.sc, 5, true⟩, ⟨.sc, 7, true⟩, ⟨.vec, 0, false⟩, 0x0, none⟩) ∧
  decode [0b00000101_00001110_1_1_10000_1000011_01,
      0b000_00000_00_00_01_0_0_00000000_00000000, 0b000000000000000000000000_00010000] =
    .ok (.vclz ⟨true, 16, .rs, .b32, 14, ⟨.sc, 5, true⟩, ⟨.vec, 0, false⟩, ⟨.vec, 0, false⟩, 0x0, none⟩) ∧
  decode [0b00000101_00001110_1_1_10001_1000011_01,
      0b000_00000_00_00_01_0_0_00000000_00000000, 0b000000000000000000000000_00010001] =
    .ok (.vpopc ⟨true, 17, .rs, .b32, 14, ⟨.sc, 5, true⟩, ⟨.vec, 0, false⟩, ⟨.vec, 0, false⟩, 0x0, none⟩) := by decide

theorem test_decode_vint3 :
  decode [0b00000101_00001110_1_1_10010_1000011_01,
      0b000_00000_00_00_01_0_0_00000000_00000000, 0b000000000000000000000000_00010010] =
    .ok (.vbrev ⟨true, 18, .rs, .b32, 14, ⟨.sc, 5, true⟩, ⟨.vec, 0, false⟩, ⟨.vec, 0, false⟩, 0x0, none⟩) ∧
  decode [0b00000101_00001110_1_1_10011_1000011_01,
      0b000_00101_00_01_01_0_1_00000000_00000111, 0b000000000000000000000000_00010011] =
    .ok (.vbfe ⟨true, 19, .rs, .i32, 14, ⟨.sc, 5, true⟩, ⟨.sc, 7, true⟩, ⟨.vec, 0, false⟩, 0x0, none⟩) ∧
  decode [0b00000101_00001110_1_1_10100_1000011_01,
      0b000_00000_01_01_01_1_1_00001010_00000111, 0b000000000000000000000000_00010100] =
    .ok (.vbfi ⟨true, 20, .rs, .b32, 14, ⟨.sc, 5, true⟩, ⟨.sc, 7, true⟩, ⟨.sc, 10, true⟩, 0x0, none⟩) ∧
  decode [0b00000101_00001110_1_1_10101_1000011_01,
      0b000_00000_10_01_01_0_1_00001011_00000111, 0b000000000000000000000000_00010101] =
    .ok (.vsel ⟨true, 21, .rs, .b32, 14, ⟨.sc, 5, true⟩, ⟨.sc, 7, true⟩, ⟨.pred, 11, false⟩, 0x0, none⟩) ∧
  decode [0b00000101_00001110_1_1_10110_1000011_01,
      0b000_00000_00_01_01_0_1_00000000_00000111, 0b000000000000000000000000_00010110] =
    .ok (.vilv ⟨true, 22, .rs, .b32, 14, ⟨.sc, 5, true⟩, ⟨.sc, 7, true⟩, ⟨.vec, 0, false⟩, 0x0, none⟩) ∧
  decode [0b00000101_00001110_1_1_10111_1000011_01,
      0b000_00000_00_00_01_0_0_00000000_00000000, 0b000000000000000000000011_00010111] =
    .ok (.vdil ⟨true, 23, .rs, .b32, 14, ⟨.sc, 5, true⟩, ⟨.vec, 0, false⟩, ⟨.vec, 0, false⟩, 0x3, none⟩) ∧
  decode [0b00000000_00001110_0_1_00000_1000011_01,
      0b000_00000_00_00_00_0_0_00000000_00000000, 0b000000000000000000000000_00011000] =
    .ok (.vlaneid ⟨true, 0, .rs, .b32, 14, ⟨.vec, 0, false⟩, ⟨.vec, 0, false⟩, ⟨.vec, 0, false⟩, 0x0, none⟩) ∧
  decode [0b00000101_00001110_1_1_00001_1000011_01,
      0b000_00110_10_01_01_0_1_00001011_00000111, 0b000000000000000000010100_00011001] =
    .ok (.vaddc ⟨true, 1, .rs, .n32, 14, ⟨.sc, 5, true⟩, ⟨.sc, 7, true⟩, ⟨.pred, 11, false⟩, 0x14, none⟩) := by decide

theorem test_decode_vfp :
  decode [0b00000101_00001110_1_0_00000_1000100_01,
      0b100_01001_00_01_01_0_1_00000000_00000111, 0b000000000000000000010100_00000000] =
    .ok (.vfpVadd ⟨false, 0, .rup, .f16, 14, ⟨.sc, 5, true⟩, ⟨.sc, 7, true⟩, ⟨.vec, 0, false⟩, 0x14, none⟩) ∧
  decode [0b00000101_00001110_1_0_00001_1000100_01,
      0b100_01001_00_01_01_0_1_00000000_00000111, 0b000000000000000000010100_00000001] =
    .ok (.vfpVsub ⟨false, 1, .rup, .f16, 14, ⟨.sc, 5, true⟩, ⟨.sc, 7, true⟩, ⟨.vec, 0, false⟩, 0x14, none⟩) ∧
  decode [0b00000101_00001110_1_0_00010_1000100_01,
      0b100_01001_00_01_01_0_1_00000000_00000111, 0b000000000000000000010100_00000010] =
    .ok (.vfpVmul ⟨false, 2, .rup, .f16, 14, ⟨.sc, 5, true⟩, ⟨.sc, 7, true⟩, ⟨.vec, 0, false⟩, 0x14, none⟩) ∧
  decode [0b00000101_00001110_1_0_00011_1000100_01,
      0b100_01001_01_01_01_1_1_00001010_00000111, 0b000000000000000000110100_00000011] =
    .ok (.vfma ⟨false, 3, .rup, .f16, 14, ⟨.sc, 5, true⟩, ⟨.sc, 7, true⟩, ⟨.sc, 10, true⟩, 0x34, none⟩) ∧
  decode [0b00000101_00001110_1_0_00100_1000100_01,
      0b000_01001_00_01_01_0_1_00000000_00000111, 0b000000000000000000010100_00000100] =
    .ok (.vfpVmin ⟨false, 4, .rs, .f16, 14, ⟨.sc, 5, true⟩, ⟨.sc, 7, true⟩, ⟨.vec, 0, false⟩, 0x14, none⟩) ∧
  decode [0b00000101_00001110_1_0_00101_1000100_01,
      0b000_01001_00_01_01_0_1_00000000_00000111, 0b000000000000000000010100_00000101] =
    .ok (.vfpVmax ⟨false, 5, .rs, .f16, 14, ⟨.sc, 5, true⟩, ⟨.sc, 7, true⟩, ⟨.vec, 0, false⟩, 0x14, none⟩) ∧
  decode [0b00000101_00001110_1_0_00110_1000100_01,
      0b000_01001_01_01_01_1_1_00001010_00000111, 0b000000000000000000110100_00000110] =
    .ok (.vmed3 ⟨false, 6, .rs, .f16, 14, ⟨.sc, 5, true⟩, ⟨.sc, 7, true⟩, ⟨.sc, 10, true⟩, 0x34, none⟩) ∧
  decode [0b00000101_00001110_1_0_00111_1000100_01,
      0b100_01001_00_00_01_0_0_00000000_00000000, 0b000000000000000000000100_00000111] =
    .ok (.vrint ⟨false, 7, .rup, .f16, 14, ⟨.sc, 5, true⟩, ⟨.vec, 0, false⟩, ⟨.vec, 0, false⟩, 0x4, none⟩) ∧
  decode [0b00000101_00001110_1_0_01000_1000100_01,
      0b100_01001_00_00_01_0_0_00000000_00000000, 0b000000000000000000000100_00001000] =
    .ok (.vfract ⟨false, 8, .rup, .f16, 14, ⟨.sc, 5, true⟩, ⟨.vec, 0, false⟩, ⟨.vec, 0, false⟩, 0x4, none⟩) := by decide

theorem test_decode_vfp2 :
  decode [0b00000101_00001110_1_0_01001_1000100_01,
      0b100_01001_00_01_01_0_1_00000000_00000111, 0b000000000000000000000100_00001001] =
    .ok (.vldexp ⟨false, 9, .rup, .f16, 14, ⟨.sc, 5, true⟩, ⟨.sc, 7, true⟩, ⟨.vec, 0, false⟩, 0x4, none⟩) ∧
  decode [0b00000101_00001110_1_0_01010_1000100_01,
      0b000_01001_00_00_01_0_0_00000000_00000000, 0b000000000000000000000100_00001010] =
    .ok (.vfrexp ⟨false, 10, .rs, .f16, 14, ⟨.sc, 5, true⟩, ⟨.vec, 0, false⟩, ⟨.vec, 0, false⟩, 0x4, none⟩) ∧
  decode [0b00000101_00001110_1_0_01011_1000100_01,
      0b000_01001_00_00_01_0_0_00000000_00000000, 0b000000000000000000000000_00001011] =
    .ok (.vclass ⟨false, 11, .rs, .f16, 14, ⟨.sc, 5, true⟩, ⟨.vec, 0, false⟩, ⟨.vec, 0, false⟩, 0x0, none⟩) ∧
  decode [0b00000101_00001110_1_0_01100_1000100_01,
      0b000_01001_00_01_01_0_1_00000000_00000111, 0b000000000000000000000000_00001100] =
    .ok (.vcopysign ⟨false, 12, .rs, .f16, 14, ⟨.sc, 5, true⟩, ⟨.sc, 7, true⟩, ⟨.vec, 0, false⟩, 0x0, none⟩) := by decide

theorem test_decode_vcvt :
  decode [0b00000101_00001110_1_1_00000_1000101_01,
      0b100_01001_00_00_01_0_0_00000000_00000000, 0b000000000000000000100011_00000000] =
    .ok (.vcvt ⟨true, 0, .rup, .f16, 14, ⟨.sc, 5, true⟩, ⟨.vec, 0, false⟩, ⟨.vec, 0, false⟩, 0x23, none⟩) ∧
  decode [0b00001000_00001110_1_1_00001_1000101_01,
      0b100_10001_00_01_00_0_1_00000000_00000111, 0b000000000000000000000000_00000001] =
    .ok (.vpackn ⟨true, 1, .rup, .i8x4, 14, ⟨.vec, 8, true⟩, ⟨.sc, 7, true⟩, ⟨.vec, 0, false⟩, 0x0, none⟩) ∧
  decode [0b00001000_00001110_1_1_00010_1000101_01,
      0b100_10001_00_01_00_0_1_00000000_00000111, 0b000000000000000000000000_00000010] =
    .ok (.vunpackn ⟨true, 2, .rup, .i8x4, 14, ⟨.vec, 8, true⟩, ⟨.sc, 7, true⟩, ⟨.vec, 0, false⟩, 0x0, none⟩) ∧
  decode [0b00000101_00001110_1_1_00011_1000101_01,
      0b000_01101_00_01_01_0_1_00000000_00000111, 0b000000000000000000000100_00000011] =
    .ok (.vbscale ⟨true, 3, .rs, .e4m3, 14, ⟨.sc, 5, true⟩, ⟨.sc, 7, true⟩, ⟨.vec, 0, false⟩, 0x4, none⟩) ∧
  decode [0b00001000_00001110_1_1_00100_1000101_01,
      0b100_10101_01_01_00_1_1_00001010_00000111, 0b000000000000000000000000_00000100] =
    .ok (.vquant ⟨true, 4, .rup, .e4m3x4, 14, ⟨.vec, 8, true⟩, ⟨.sc, 7, true⟩, ⟨.sc, 10, true⟩, 0x0, none⟩) := by decide

theorem test_decode_vsfu :
  decode [0b00000101_00001110_1_0_00000_1000110_01,
      0b000_01011_00_00_01_0_0_00000000_00000000, 0b000000000000000000000000_00000000] =
    .ok (.vrcp ⟨false, 0, .rs, .f32, 14, ⟨.sc, 5, true⟩, ⟨.vec, 0, false⟩, ⟨.vec, 0, false⟩, 0x0, none⟩) ∧
  decode [0b00000101_00001110_1_0_00001_1000110_01,
      0b000_01011_00_00_01_0_0_00000000_00000000, 0b000000000000000000000000_00000001] =
    .ok (.vrsq ⟨false, 1, .rs, .f32, 14, ⟨.sc, 5, true⟩, ⟨.vec, 0, false⟩, ⟨.vec, 0, false⟩, 0x0, none⟩) ∧
  decode [0b00000101_00001110_1_0_00010_1000110_01,
      0b100_01011_00_00_01_0_0_00000000_00000000, 0b000000000000000000000000_00000010] =
    .ok (.vsqrt ⟨false, 2, .rup, .f32, 14, ⟨.sc, 5, true⟩, ⟨.vec, 0, false⟩, ⟨.vec, 0, false⟩, 0x0, none⟩) ∧
  decode [0b00000101_00001110_1_0_00011_1000110_01,
      0b000_01011_00_00_01_0_0_00000000_00000000, 0b000000000000000000000000_00000011] =
    .ok (.vex2 ⟨false, 3, .rs, .f32, 14, ⟨.sc, 5, true⟩, ⟨.vec, 0, false⟩, ⟨.vec, 0, false⟩, 0x0, none⟩) ∧
  decode [0b00000101_00001110_1_0_00100_1000110_01,
      0b000_01011_00_00_01_0_0_00000000_00000000, 0b000000000000000000000000_00000100] =
    .ok (.vlg2 ⟨false, 4, .rs, .f32, 14, ⟨.sc, 5, true⟩, ⟨.vec, 0, false⟩, ⟨.vec, 0, false⟩, 0x0, none⟩) ∧
  decode [0b00000101_00001110_1_0_00101_1000110_01,
      0b000_01011_00_00_01_0_0_00000000_00000000, 0b000000000000000000000000_00000101] =
    .ok (.vsin ⟨false, 5, .rs, .f32, 14, ⟨.sc, 5, true⟩, ⟨.vec, 0, false⟩, ⟨.vec, 0, false⟩, 0x0, none⟩) ∧
  decode [0b00000101_00001110_1_0_00110_1000110_01,
      0b000_01011_00_00_01_0_0_00000000_00000000, 0b000000000000000000000000_00000110] =
    .ok (.vcos ⟨false, 6, .rs, .f32, 14, ⟨.sc, 5, true⟩, ⟨.vec, 0, false⟩, ⟨.vec, 0, false⟩, 0x0, none⟩) ∧
  decode [0b00000101_00001110_1_0_00111_1000110_01,
      0b000_01011_00_00_01_0_0_00000000_00000000, 0b000000000000000000000000_00000111] =
    .ok (.vtanh ⟨false, 7, .rs, .f32, 14, ⟨.sc, 5, true⟩, ⟨.vec, 0, false⟩, ⟨.vec, 0, false⟩, 0x0, none⟩) ∧
  decode [0b00001000_00001110_1_0_01000_1000110_01,
      0b000_01011_01_01_00_1_1_00001010_00000111, 0b000000000000000000000000_00001000] =
    .ok (.vrot ⟨false, 8, .rs, .f32, 14, ⟨.vec, 8, true⟩, ⟨.sc, 7, true⟩, ⟨.sc, 10, true⟩, 0x0, none⟩) := by decide

theorem test_decode_vsfu2 :
  decode [0b00000101_00001110_1_0_01001_1000110_01,
      0b100_01011_00_01_01_0_1_00000000_00000111, 0b000000000000000000000000_00001001] =
    .ok (.vdiv ⟨false, 9, .rup, .f32, 14, ⟨.sc, 5, true⟩, ⟨.sc, 7, true⟩, ⟨.vec, 0, false⟩, 0x0, none⟩) := by decide

theorem test_decode_vdot :
  decode [0b00000101_00001110_1_1_00000_1000111_01,
      0b000_10001_01_01_01_1_1_00001010_00000111, 0b000000000000000000000000_00000000] =
    .ok (.vdot8 ⟨true, 0, .rs, .i8x4, 14, ⟨.sc, 5, true⟩, ⟨.sc, 7, true⟩, ⟨.sc, 10, true⟩, 0x0, none⟩) ∧
  decode [0b00000101_00001110_1_1_00001_1000111_01,
      0b000_10010_01_01_01_1_1_00001010_00000111, 0b000000000000000000000000_00000001] =
    .ok (.vdot4 ⟨true, 1, .rs, .i4x8, 14, ⟨.sc, 5, true⟩, ⟨.sc, 7, true⟩, ⟨.sc, 10, true⟩, 0x0, none⟩) ∧
  decode [0b00000101_00001110_1_1_00010_1000111_01,
      0b100_10101_01_01_01_1_1_00001010_00000111, 0b000000000000001000110100_00000010] =
    .ok (.vdotf8 ⟨true, 2, .rup, .e4m3x4, 14, ⟨.sc, 5, true⟩, ⟨.sc, 7, true⟩, ⟨.sc, 10, true⟩, 0x234, none⟩) ∧
  decode [0b00000101_00001110_1_1_00011_1000111_01,
      0b100_10111_01_01_01_1_1_00001010_00000111, 0b000000000000001000110100_00000011] =
    .ok (.vdotf4 ⟨true, 3, .rup, .e2m1x8, 14, ⟨.sc, 5, true⟩, ⟨.sc, 7, true⟩, ⟨.sc, 10, true⟩, 0x234, none⟩) := by decide

theorem test_decode_vxl :
  decode [0b00001000_00001110_1_0_00000_1001000_01,
      0b000_00000_00_01_00_0_1_00000000_00000111, 0b000000000000000000000100_00000000] =
    .ok (.shfl ⟨false, 0, .rs, .b32, 14, ⟨.vec, 8, true⟩, ⟨.sc, 7, true⟩, ⟨.vec, 0, false⟩, 0x4, none⟩) ∧
  decode [0b00001000_00001110_1_0_00001_1001000_01,
      0b000_00000_00_01_00_0_1_00000000_00000111, 0b000000000000000000000100_00000001] =
    .ok (.shfx ⟨false, 1, .rs, .b32, 14, ⟨.vec, 8, true⟩, ⟨.sc, 7, true⟩, ⟨.vec, 0, false⟩, 0x4, none⟩) ∧
  decode [0b00001000_00001110_1_0_00010_1001000_01,
      0b000_00000_00_01_00_0_1_00000000_00000111, 0b000000000000000000000100_00000010] =
    .ok (.shfr ⟨false, 2, .rs, .b32, 14, ⟨.vec, 8, true⟩, ⟨.sc, 7, true⟩, ⟨.vec, 0, false⟩, 0x4, none⟩) ∧
  decode [0b00001000_00001110_1_0_00011_1001000_01,
      0b000_00000_00_01_00_0_1_00000000_00000111, 0b000000000000000000000100_00000011] =
    .ok (.bcast ⟨false, 3, .rs, .b32, 14, ⟨.vec, 8, true⟩, ⟨.sc, 7, true⟩, ⟨.vec, 0, false⟩, 0x4, none⟩) ∧
  decode [0b00000110_00000111_0_0_00100_1001000_01,
      0b000_00000_00_00_10_0_0_00000000_00000000, 0b000000000000000000100011_00000100] =
    .ok (.vote ⟨false, 4, .rs, .b32, 7, ⟨.pred, 6, false⟩, ⟨.vec, 0, false⟩, ⟨.vec, 0, false⟩, 0x23, none⟩) ∧
  decode [0b00001000_00001110_1_0_00101_1001000_01,
      0b000_00000_00_00_00_0_0_00000000_00000000, 0b000000000000000000110100_00000101] =
    .ok (.reduce ⟨false, 5, .rs, .b32, 14, ⟨.vec, 8, true⟩, ⟨.vec, 0, false⟩, ⟨.vec, 0, false⟩, 0x34, none⟩) ∧
  decode [0b00001000_00001110_1_0_00110_1001000_01,
      0b000_00000_00_00_00_0_0_00000000_00000000, 0b000000000000000000110100_00000110] =
    .ok (.scan ⟨false, 6, .rs, .b32, 14, ⟨.vec, 8, true⟩, ⟨.vec, 0, false⟩, ⟨.vec, 0, false⟩, 0x34, none⟩) := by decide

theorem test_decode_pred :
  decode [0b00001000_00000111_1_1_00000_1001001_01,
      0b000_00000_00_01_00_0_1_00000000_00000111, 0b000000000000001000110100_00000000] =
    .ok (.vcmp ⟨true, 0, .rs, .b32, 7, ⟨.vec, 8, true⟩, ⟨.sc, 7, true⟩, ⟨.vec, 0, false⟩, 0x234, none⟩) ∧
  decode [0b00000110_00000111_0_1_00001_1001001_01,
      0b000_00000_10_10_10_0_0_00001011_00001000, 0b000000000000000000110100_00000001] =
    .ok (.plog ⟨true, 1, .rs, .b32, 7, ⟨.pred, 6, false⟩, ⟨.pred, 8, false⟩, ⟨.pred, 11, false⟩, 0x34, none⟩) ∧
  decode [0b00000101_00000111_1_1_00010_1001001_01,
      0b000_00000_00_00_01_0_0_00000000_00000000, 0b000000000000000000110100_00000010] =
    .ok (.pset ⟨true, 2, .rs, .b32, 7, ⟨.sc, 5, true⟩, ⟨.vec, 0, false⟩, ⟨.vec, 0, false⟩, 0x34, none⟩) := by decide

theorem test_decode_ldst :
  decode [0b00000101_00001110_1_0_00000_1001010_01,
      0b000_00000_00_00_01_0_0_00000000_00000000, 0b000111000001001000110100_00000000] =
    .ok (.ld ⟨false, 0, .rs, .b32, 14, ⟨.sc, 5, true⟩, ⟨.vec, 0, false⟩, ⟨.vec, 0, false⟩, 0x1C1234, none⟩) ∧
  decode [0b00000101_00001110_1_0_00001_1001010_01,
      0b000_00000_00_00_01_0_0_00000000_00000000, 0b000111000001001000110100_00000001] =
    .ok (.st ⟨false, 1, .rs, .b32, 14, ⟨.sc, 5, true⟩, ⟨.vec, 0, false⟩, ⟨.vec, 0, false⟩, 0x1C1234, none⟩) ∧
  decode [0b00000101_00001110_1_0_00010_1001010_01,
      0b000_00000_00_00_01_0_0_00000000_00000000, 0b000111000001001000110100_00000010] =
    .ok (.ldv ⟨false, 2, .rs, .b32, 14, ⟨.sc, 5, true⟩, ⟨.vec, 0, false⟩, ⟨.vec, 0, false⟩, 0x1C1234, none⟩) ∧
  decode [0b00000101_00001110_1_0_00011_1001010_01,
      0b000_00000_00_00_01_0_0_00000000_00000000, 0b000111000001001000110100_00000011] =
    .ok (.stv ⟨false, 3, .rs, .b32, 14, ⟨.sc, 5, true⟩, ⟨.vec, 0, false⟩, ⟨.vec, 0, false⟩, 0x1C1234, none⟩) ∧
  decode [0b00000101_00001101_1_0_00100_1001010_01,
      0b000_00001_00_00_01_0_0_00000000_00000000, 0b000111000001001000110100_00000100] =
    .ok (.lds ⟨false, 4, .rs, .i8, 13, ⟨.sc, 5, true⟩, ⟨.vec, 0, false⟩, ⟨.vec, 0, false⟩, 0x1C1234, none⟩) ∧
  decode [0b00000101_00001101_1_0_00101_1001010_01,
      0b000_00010_00_00_01_0_0_00000000_00000000, 0b000111000001001000110100_00000101] =
    .ok (.sts ⟨false, 5, .rs, .n8, 13, ⟨.sc, 5, true⟩, ⟨.vec, 0, false⟩, ⟨.vec, 0, false⟩, 0x1C1234, none⟩) ∧
  decode [0b00000101_00001110_1_0_00110_1001010_01,
      0b000_00000_00_00_01_0_0_00000000_00000000, 0b000000000000000000000000_00000110] =
    .ok (.ldsp ⟨false, 6, .rs, .b32, 14, ⟨.sc, 5, true⟩, ⟨.vec, 0, false⟩, ⟨.vec, 0, false⟩, 0x0, none⟩) ∧
  decode [0b00000101_00001110_1_0_00111_1001010_01,
      0b000_00000_00_00_01_0_0_00000000_00000000, 0b000000000000000000000000_00000111] =
    .ok (.stsp ⟨false, 7, .rs, .b32, 14, ⟨.sc, 5, true⟩, ⟨.vec, 0, false⟩, ⟨.vec, 0, false⟩, 0x0, none⟩) ∧
  decode [0b00000101_00000000_1_0_01000_1001010_01,
      0b000_00000_00_00_01_0_0_00000000_00000000, 0b000000000000000000000000_00001000] =
    .ok (.pref ⟨false, 8, .rs, .b32, 0, ⟨.sc, 5, true⟩, ⟨.vec, 0, false⟩, ⟨.vec, 0, false⟩, 0x0, none⟩) := by decide

theorem test_decode_atom :
  decode [0b00000101_00001110_1_1_00000_1001011_01,
      0b000_00101_01_00_01_1_1_00001010_00001100, 0b100111000001001000110100_00000000] =
    .ok (.atom ⟨true, 0, .rs, .i32, 14, ⟨.sc, 5, true⟩, ⟨.vec, 12, true⟩, ⟨.sc, 10, true⟩, 0x9C1234, none⟩) ∧
  decode [0b00000101_00000000_1_1_00001_1001011_01,
      0b000_00101_01_00_01_1_0_00001010_00000000, 0b000000010010001101000101_00000001] =
    .ok (.red ⟨true, 1, .rs, .i32, 0, ⟨.sc, 5, true⟩, ⟨.vec, 0, false⟩, ⟨.sc, 10, true⟩, 0x12345, none⟩) ∧
  decode [0b00000101_00001101_1_1_00010_1001011_01,
      0b000_00101_01_00_01_1_0_00001010_00000000, 0b100000000000000000000000_00000010] =
    .ok (.atoms ⟨true, 2, .rs, .i32, 13, ⟨.sc, 5, true⟩, ⟨.vec, 0, false⟩, ⟨.sc, 10, true⟩, 0x800000, none⟩) := by decide

theorem test_decode_fence :
  decode [0b00000000_00000000_0_0_00000_1001100_01,
      0b000_00000_00_00_00_0_0_00000000_00000000, 0b000000000000000000010100_00000000] =
    .ok (.fence ⟨false, 0, .rs, .b32, 0, ⟨.vec, 0, false⟩, ⟨.vec, 0, false⟩, ⟨.vec, 0, false⟩, 0x14, none⟩) ∧
  decode [0b00000000_00000000_0_0_00001_1001100_01,
      0b000_00000_00_00_00_0_0_00000000_00000000, 0b000001000001001000110100_00000001] =
    .ok (.xfence ⟨false, 1, .rs, .b32, 0, ⟨.vec, 0, false⟩, ⟨.vec, 0, false⟩, ⟨.vec, 0, false⟩, 0x41234, none⟩) ∧
  decode [0b00000101_00001101_1_0_00010_1001100_01,
      0b000_00000_01_01_01_1_1_00001010_00000111, 0b000000000001001000110100_00000010] =
    .ok (.mwait ⟨false, 2, .rs, .b32, 13, ⟨.sc, 5, true⟩, ⟨.sc, 7, true⟩, ⟨.sc, 10, true⟩, 0x1234, none⟩) := by decide

theorem test_decode_spad :
  decode [0b00000101_00001110_1_1_00000_1001101_01,
      0b000_00000_00_00_01_0_0_00000000_00000000, 0b000000000000000100100011_00000000] =
    .ok (.tlook ⟨true, 0, .rs, .b32, 14, ⟨.sc, 5, true⟩, ⟨.vec, 0, false⟩, ⟨.vec, 0, false⟩, 0x123, none⟩) ∧
  decode [0b00000101_00001101_1_1_00001_1001101_01,
      0b000_00000_11_01_01_0_1_00001001_00000111, 0b000000000001001000110100_00000001] =
    .ok (.tfill ⟨true, 1, .rs, .b32, 13, ⟨.sc, 5, true⟩, ⟨.sc, 7, true⟩, ⟨.obj, 9, false⟩, 0x1234, none⟩) ∧
  decode [0b00000101_00001101_1_1_00010_1001101_01,
      0b000_00000_11_00_01_0_0_00001001_00000000, 0b000000000000000000000000_00000010] =
    .ok (.tevict ⟨true, 2, .rs, .b32, 13, ⟨.sc, 5, true⟩, ⟨.vec, 0, false⟩, ⟨.obj, 9, false⟩, 0x0, none⟩) ∧
  decode [0b00000101_00001101_1_1_00011_1001101_01,
      0b000_00000_00_01_01_0_1_00000000_00000111, 0b000000000001001000110100_00000011] =
    .ok (.tset ⟨true, 3, .rs, .b32, 13, ⟨.sc, 5, true⟩, ⟨.sc, 7, true⟩, ⟨.vec, 0, false⟩, 0x1234, none⟩) ∧
  decode [0b00000101_00001101_1_1_00100_1001101_01,
      0b000_00000_00_01_01_0_1_00000000_00000111, 0b000000000000000000000000_00000100] =
    .ok (.tinv ⟨true, 4, .rs, .b32, 13, ⟨.sc, 5, true⟩, ⟨.sc, 7, true⟩, ⟨.vec, 0, false⟩, 0x0, none⟩) := by decide

theorem test_decode_copy :
  decode [0b00000101_00001101_1_0_00000_1001110_01,
      0b000_00000_00_00_01_0_0_00000000_00000000, 0b000000000001001000110100_00000000] =
    .ok (.cpy ⟨false, 0, .rs, .b32, 13, ⟨.sc, 5, true⟩, ⟨.vec, 0, false⟩, ⟨.vec, 0, false⟩, 0x1234, none⟩) ∧
  decode [0b00000101_00001101_1_0_00001_1001110_01,
      0b000_00000_00_00_01_0_1_00000000_00001100, 0b000000000001001000110100_00000001] =
    .ok (.cpyg ⟨false, 1, .rs, .b32, 13, ⟨.sc, 5, true⟩, ⟨.vec, 12, true⟩, ⟨.vec, 0, false⟩, 0x1234, none⟩) ∧
  decode [0b00000100_00001101_0_0_00010_1001110_01,
      0b000_00000_00_00_01_0_0_00000000_00000000, 0b000000000000000000000000_00000010] =
    .ok (.cpyw ⟨false, 2, .rs, .b32, 13, ⟨.sc, 4, false⟩, ⟨.vec, 0, false⟩, ⟨.vec, 0, false⟩, 0x0, none⟩) ∧
  decode [0b00000101_00001101_1_0_00011_1001110_01,
      0b000_00000_00_00_01_0_0_00000000_00000000, 0b000000000000000000000000_00000011] =
    .ok (.cpyq ⟨false, 3, .rs, .b32, 13, ⟨.sc, 5, true⟩, ⟨.vec, 0, false⟩, ⟨.vec, 0, false⟩, 0x0, none⟩) := by decide

theorem test_decode_latch :
  decode [0b00000101_00000011_1_1_00000_1001111_01,
      0b000_00000_00_00_01_0_0_00000000_00000000, 0b000000000000000000000000_00000000] =
    .ok (.ltinit ⟨true, 0, .rs, .b32, 3, ⟨.sc, 5, true⟩, ⟨.vec, 0, false⟩, ⟨.vec, 0, false⟩, 0x0, none⟩) ∧
  decode [0b00000101_00000011_1_1_00001_1001111_01,
      0b000_00000_00_00_01_0_0_00000000_00000000, 0b000000000000000000000000_00000001] =
    .ok (.ltarr ⟨true, 1, .rs, .b32, 3, ⟨.sc, 5, true⟩, ⟨.vec, 0, false⟩, ⟨.vec, 0, false⟩, 0x0, none⟩) ∧
  decode [0b00000100_00001101_0_1_00010_1001111_01,
      0b000_00000_00_01_11_0_1_00000000_00000111, 0b000000000000000000000000_00000010] =
    .ok (.ltwait ⟨true, 2, .rs, .b32, 13, ⟨.obj, 4, false⟩, ⟨.sc, 7, true⟩, ⟨.vec, 0, false⟩, 0x0, none⟩) ∧
  decode [0b00000101_00000000_1_1_00011_1001111_01,
      0b000_00000_00_00_01_0_0_00000000_00000000, 0b100111000001001000110100_00000011] =
    .ok (.yield ⟨true, 3, .rs, .b32, 0, ⟨.sc, 5, true⟩, ⟨.vec, 0, false⟩, ⟨.vec, 0, false⟩, 0x9C1234, none⟩) := by decide

theorem test_decode_mxl :
  decode [0b00000101_00000000_1_0_00000_1010000_01,
      0b000_00000_00_00_01_0_0_00000000_00000000, 0b000000000000000000000000_00000000] =
    .ok (.mlease ⟨false, 0, .rs, .b32, 0, ⟨.sc, 5, true⟩, ⟨.vec, 0, false⟩, ⟨.vec, 0, false⟩, 0x0, none⟩) ∧
  decode [0b00000000_00000000_0_0_00001_1010000_01,
      0b000_00000_00_00_00_0_0_00000000_00000000, 0b000000000000000000000000_00000001] =
    .ok (.mrelease ⟨false, 1, .rs, .b32, 0, ⟨.vec, 0, false⟩, ⟨.vec, 0, false⟩, ⟨.vec, 0, false⟩, 0x0, none⟩) ∧
  decode [0b00000000_00000000_0_0_00010_1010000_01,
      0b000_00000_00_00_00_0_0_00000000_00000000, 0b000000000000000000000000_00000010] =
    .ok (.pintle ⟨false, 2, .rs, .b32, 0, ⟨.vec, 0, false⟩, ⟨.vec, 0, false⟩, ⟨.vec, 0, false⟩, 0x0, none⟩) ∧
  decode [0b00000000_00000000_0_0_00011_1010000_01,
      0b000_00000_00_00_00_0_0_00000000_00000000, 0b000000000000000000000000_00000011] =
    .ok (.pnwait ⟨false, 3, .rs, .b32, 0, ⟨.vec, 0, false⟩, ⟨.vec, 0, false⟩, ⟨.vec, 0, false⟩, 0x0, none⟩) ∧
  decode [0b00000101_00000011_1_0_00100_1010000_01,
      0b000_00001_01_01_01_1_1_00001010_00000111, 0b000000000000000000010100_00000100] =
    .ok (.obres ⟨false, 4, .rs, .i8, 3, ⟨.sc, 5, true⟩, ⟨.sc, 7, true⟩, ⟨.sc, 10, true⟩, 0x14, none⟩) ∧
  decode [0b00000000_00000011_0_0_00101_1010000_01,
      0b000_00000_00_00_00_0_0_00000000_00000000, 0b000000000000000000000000_00000101] =
    .ok (.obfree ⟨false, 5, .rs, .b32, 3, ⟨.vec, 0, false⟩, ⟨.vec, 0, false⟩, ⟨.vec, 0, false⟩, 0x0, none⟩) ∧
  decode [0b00000101_00000011_1_0_00110_1010000_01,
      0b000_00000_00_01_01_0_1_00000000_00000111, 0b000000000000000000000000_00000110] =
    .ok (.obput ⟨false, 6, .rs, .b32, 3, ⟨.sc, 5, true⟩, ⟨.sc, 7, true⟩, ⟨.vec, 0, false⟩, 0x0, none⟩) := by decide

theorem test_decode_mma :
  decode [0b00000101_00000011_1_1_00000_1010001_01,
      0b000_00000_00_01_01_0_1_00000000_00000111, 0b000000000000000000110100_00000000] =
    .ok (.mma ⟨true, 0, .rs, .b32, 3, ⟨.sc, 5, true⟩, ⟨.sc, 7, true⟩, ⟨.vec, 0, false⟩, 0x34, none⟩) ∧
  decode [0b00000101_00000011_1_1_00001_1010001_01,
      0b000_00000_00_01_01_0_1_00000000_00000111, 0b000000000000000000110100_00000001] =
    .ok (.mmas ⟨true, 1, .rs, .b32, 3, ⟨.sc, 5, true⟩, ⟨.sc, 7, true⟩, ⟨.vec, 0, false⟩, 0x34, none⟩) ∧
  decode [0b00000101_00000011_1_1_00010_1010001_01,
      0b000_00000_00_00_01_0_0_00000000_00000000, 0b000000000000000000000000_00000010] =
    .ok (.acz ⟨true, 2, .rs, .b32, 3, ⟨.sc, 5, true⟩, ⟨.vec, 0, false⟩, ⟨.vec, 0, false⟩, 0x0, none⟩) ∧
  decode [0b00000011_00001110_0_1_00011_1010001_01,
      0b100_00101_00_01_11_0_1_00000000_00000111, 0b000000000000000000110100_00000011] =
    .ok (.resolve ⟨true, 3, .rup, .i32, 14, ⟨.obj, 3, false⟩, ⟨.sc, 7, true⟩, ⟨.vec, 0, false⟩, 0x34, none⟩) ∧
  decode [0b00000011_00000111_0_1_00100_1010001_01,
      0b000_00101_01_01_11_1_1_00001010_00000111, 0b000000000000000000110100_00000100] =
    .ok (.accmp ⟨true, 4, .rs, .i32, 7, ⟨.obj, 3, false⟩, ⟨.sc, 7, true⟩, ⟨.sc, 10, true⟩, 0x34, none⟩) ∧
  decode [0b00000101_00000011_1_1_00101_1010001_01,
      0b000_00000_11_00_01_0_0_00001001_00000000, 0b000000000001001000110100_00000101] =
    .ok (.acst ⟨true, 5, .rs, .b32, 3, ⟨.sc, 5, true⟩, ⟨.vec, 0, false⟩, ⟨.obj, 9, false⟩, 0x1234, none⟩) ∧
  decode [0b00000101_00000011_1_1_00110_1010001_01,
      0b000_00000_11_00_01_0_0_00001001_00000000, 0b000000000001001000110100_00000110] =
    .ok (.acld ⟨true, 6, .rs, .b32, 3, ⟨.sc, 5, true⟩, ⟨.vec, 0, false⟩, ⟨.obj, 9, false⟩, 0x1234, none⟩) ∧
  decode [0b00001000_00000011_1_1_00111_1010001_01,
      0b000_00101_00_01_00_0_1_00000000_00000111, 0b000000000000000000110100_00000111] =
    .ok (.acadd ⟨true, 7, .rs, .i32, 3, ⟨.vec, 8, true⟩, ⟨.sc, 7, true⟩, ⟨.vec, 0, false⟩, 0x34, none⟩) ∧
  decode [0b00000101_00000011_1_1_01000_1010001_01,
      0b000_00000_00_00_01_0_0_00000000_00000000, 0b000000000000000000000000_00001000] =
    .ok (.acanch ⟨true, 8, .rs, .b32, 3, ⟨.sc, 5, true⟩, ⟨.vec, 0, false⟩, ⟨.vec, 0, false⟩, 0x0, none⟩) := by decide

theorem test_decode_aset :
  decode [0b00000101_00000011_1_0_00000_1010010_01,
      0b000_00000_00_01_01_0_1_00000000_00000111, 0b000000000000000000000000_00000000] =
    .ok (.asdecl ⟨false, 0, .rs, .b32, 3, ⟨.sc, 5, true⟩, ⟨.sc, 7, true⟩, ⟨.vec, 0, false⟩, 0x0, none⟩) ∧
  decode [0b00000000_00000011_0_0_00001_1010010_01,
      0b000_00000_00_00_00_0_0_00000000_00000000, 0b000000000000000000000000_00000001] =
    .ok (.asclr ⟨false, 1, .rs, .b32, 3, ⟨.vec, 0, false⟩, ⟨.vec, 0, false⟩, ⟨.vec, 0, false⟩, 0x0, none⟩) ∧
  decode [0b00000101_00001101_1_0_00010_1010010_01,
      0b000_00000_00_00_01_0_0_00000000_00000000, 0b000000000000000000000000_00000010] =
    .ok (.asqry ⟨false, 2, .rs, .b32, 13, ⟨.sc, 5, true⟩, ⟨.vec, 0, false⟩, ⟨.vec, 0, false⟩, 0x0, none⟩) ∧
  decode [0b00000101_00000000_1_0_00011_1010010_01,
      0b000_00000_00_01_01_0_1_00000000_00000111, 0b000000000000000000000000_00000011] =
    .ok (.asundo ⟨false, 3, .rs, .b32, 0, ⟨.sc, 5, true⟩, ⟨.sc, 7, true⟩, ⟨.vec, 0, false⟩, 0x0, none⟩) := by decide

theorem test_decode_task :
  decode [0b00000101_00001101_1_1_00000_1010011_01,
      0b000_00000_00_00_01_0_0_00000000_00000000, 0b000000000000000000100011_00000000] =
    .ok (.qpop ⟨true, 0, .rs, .b32, 13, ⟨.sc, 5, true⟩, ⟨.vec, 0, false⟩, ⟨.vec, 0, false⟩, 0x23, none⟩) ∧
  decode [0b00000101_00001101_1_1_00001_1010011_01,
      0b000_00000_00_01_01_0_0_00000000_00000110, 0b000000000000000000000000_00000001] =
    .ok (.qpush ⟨true, 1, .rs, .b32, 13, ⟨.sc, 5, true⟩, ⟨.sc, 6, false⟩, ⟨.vec, 0, false⟩, 0x0, none⟩) ∧
  decode [0b00000101_00001101_1_1_00010_1010011_01,
      0b000_00000_01_01_01_0_0_00001001_00000110, 0b000000000000000000000000_00000010] =
    .ok (.qwpush ⟨true, 2, .rs, .b32, 13, ⟨.sc, 5, true⟩, ⟨.sc, 6, false⟩, ⟨.sc, 9, false⟩, 0x0, none⟩) ∧
  decode [0b00000000_00000000_0_1_00011_1010011_01,
      0b000_00000_00_00_00_0_0_00000000_00000000, 0b000000000000000000000000_00000011] =
    .ok (.tend ⟨true, 3, .rs, .b32, 0, ⟨.vec, 0, false⟩, ⟨.vec, 0, false⟩, ⟨.vec, 0, false⟩, 0x0, none⟩) ∧
  decode [0b00000101_00001101_1_1_00100_1010011_01,
      0b000_00000_00_00_01_0_0_00000000_00000000, 0b000000000001001000110100_00000100] =
    .ok (.dcdec ⟨true, 4, .rs, .b32, 13, ⟨.sc, 5, true⟩, ⟨.vec, 0, false⟩, ⟨.vec, 0, false⟩, 0x1234, none⟩) ∧
  decode [0b00000101_00001101_1_1_00101_1010011_01,
      0b000_00000_00_00_01_0_0_00000000_00000000, 0b000000000000000000000000_00000101] =
    .ok (.qinfo ⟨true, 5, .rs, .b32, 13, ⟨.sc, 5, true⟩, ⟨.vec, 0, false⟩, ⟨.vec, 0, false⟩, 0x0, none⟩) := by decide

theorem test_decode_hist :
  decode [0b00000101_00001110_1_0_00000_1010100_01,
      0b000_01011_01_00_01_1_1_00001010_00001100, 0b000000000000000000110100_00000000] =
    .ok (.hld ⟨false, 0, .rs, .f32, 14, ⟨.sc, 5, true⟩, ⟨.vec, 12, true⟩, ⟨.sc, 10, true⟩, 0x34, none⟩) ∧
  decode [0b00000101_00001110_1_0_00001_1010100_01,
      0b000_00000_01_00_01_1_1_00001010_00001100, 0b000000000000000000000000_00000001] =
    .ok (.hwalk ⟨false, 1, .rs, .b32, 14, ⟨.sc, 5, true⟩, ⟨.vec, 12, true⟩, ⟨.sc, 10, true⟩, 0x0, none⟩) ∧
  decode [0b00000101_00000000_1_0_00010_1010100_01,
      0b000_00000_00_00_01_1_1_00010010_00001100, 0b000000000000000000000100_00000010] =
    .ok (.mfst ⟨false, 2, .rs, .b32, 0, ⟨.sc, 5, true⟩, ⟨.vec, 12, true⟩, ⟨.vec, 18, true⟩, 0x4, none⟩) ∧
  decode [0b00000101_00000000_1_0_00011_1010100_01,
      0b000_00000_00_00_01_0_0_00000000_00000000, 0b000000000000000000000100_00000011] =
    .ok (.mfseal ⟨false, 3, .rs, .b32, 0, ⟨.sc, 5, true⟩, ⟨.vec, 0, false⟩, ⟨.vec, 0, false⟩, 0x4, none⟩) ∧
  decode [0b00000101_00000000_1_0_00100_1010100_01,
      0b000_00000_00_00_01_0_0_00000000_00000000, 0b000000000000000000000000_00000100] =
    .ok (.chadv ⟨false, 4, .rs, .b32, 0, ⟨.sc, 5, true⟩, ⟨.vec, 0, false⟩, ⟨.vec, 0, false⟩, 0x0, none⟩) ∧
  decode [0b00000101_00001101_1_0_00101_1010100_01,
      0b000_00000_00_00_01_0_0_00000000_00000000, 0b000000000000000000110100_00000101] =
    .ok (.mfshort ⟨false, 5, .rs, .b32, 13, ⟨.sc, 5, true⟩, ⟨.vec, 0, false⟩, ⟨.vec, 0, false⟩, 0x34, none⟩) ∧
  decode [0b00000101_00000000_1_0_00110_1010100_01,
      0b000_00000_00_00_01_0_0_00000000_00000000, 0b000000000000000000000100_00000110] =
    .ok (.mfinv ⟨false, 6, .rs, .b32, 0, ⟨.sc, 5, true⟩, ⟨.vec, 0, false⟩, ⟨.vec, 0, false⟩, 0x4, none⟩) ∧
  decode [0b00000101_00001101_1_0_00111_1010100_01,
      0b000_00000_00_00_01_0_0_00000000_00000000, 0b000000000000000000000000_00000111] =
    .ok (.chqry ⟨false, 7, .rs, .b32, 13, ⟨.sc, 5, true⟩, ⟨.vec, 0, false⟩, ⟨.vec, 0, false⟩, 0x0, none⟩) := by decide

theorem test_decode_seq :
  decode [0b00000101_00001110_1_1_00000_1010101_01,
      0b000_00000_01_01_01_1_1_00001010_00000111, 0b000000000000000000110100_00000000] =
    .ok (.kvx ⟨true, 0, .rs, .b32, 14, ⟨.sc, 5, true⟩, ⟨.sc, 7, true⟩, ⟨.sc, 10, true⟩, 0x34, none⟩) ∧
  decode [0b00000101_00001101_1_1_00001_1010101_01,
      0b000_00000_01_01_01_1_1_00001010_00000111, 0b000000000000000000000000_00000001] =
    .ok (.kvmap ⟨true, 1, .rs, .b32, 13, ⟨.sc, 5, true⟩, ⟨.sc, 7, true⟩, ⟨.sc, 10, true⟩, 0x0, none⟩) ∧
  decode [0b00000101_00001101_1_1_00010_1010101_01,
      0b000_00000_00_01_01_0_0_00000000_00000110, 0b000000000000000000000000_00000010] =
    .ok (.kvshare ⟨true, 2, .rs, .b32, 13, ⟨.sc, 5, true⟩, ⟨.sc, 6, false⟩, ⟨.vec, 0, false⟩, 0x0, none⟩) ∧
  decode [0b00000101_00001101_1_1_00011_1010101_01,
      0b000_00000_00_01_01_0_1_00000000_00000111, 0b000000000000000000000000_00000011] =
    .ok (.kvlen ⟨true, 3, .rs, .b32, 13, ⟨.sc, 5, true⟩, ⟨.sc, 7, true⟩, ⟨.vec, 0, false⟩, 0x0, none⟩) ∧
  decode [0b00000101_00001101_1_1_00100_1010101_01,
      0b000_00000_01_01_01_1_1_00001010_00000111, 0b000000000000000000000000_00000100] =
    .ok (.kvpin ⟨true, 4, .rs, .b32, 13, ⟨.sc, 5, true⟩, ⟨.sc, 7, true⟩, ⟨.sc, 10, true⟩, 0x0, none⟩) ∧
  decode [0b00000101_00001101_1_1_00101_1010101_01,
      0b000_00000_01_01_01_1_1_00001010_00000111, 0b000000000000000000000000_00000101] =
    .ok (.kvunpin ⟨true, 5, .rs, .b32, 13, ⟨.sc, 5, true⟩, ⟨.sc, 7, true⟩, ⟨.sc, 10, true⟩, 0x0, none⟩) := by decide

theorem test_decode_surf :
  decode [0b00000101_00001110_1_0_00000_1010110_01,
      0b000_00000_00_00_01_0_1_00000000_00001100, 0b000000000000000000000100_00000000] =
    .ok (.sld ⟨false, 0, .rs, .b32, 14, ⟨.sc, 5, true⟩, ⟨.vec, 12, true⟩, ⟨.vec, 0, false⟩, 0x4, none⟩) ∧
  decode [0b00000101_00000000_1_0_00001_1010110_01,
      0b000_00000_00_00_01_1_1_00010010_00001100, 0b000000000000000000000100_00000001] =
    .ok (.sst ⟨false, 1, .rs, .b32, 0, ⟨.sc, 5, true⟩, ⟨.vec, 12, true⟩, ⟨.vec, 18, true⟩, 0x4, none⟩) ∧
  decode [0b00000101_00001110_1_0_00010_1010110_01,
      0b000_01011_00_00_01_0_1_00000000_00001100, 0b000000000000000000110100_00000010] =
    .ok (.samp ⟨false, 2, .rs, .f32, 14, ⟨.sc, 5, true⟩, ⟨.vec, 12, true⟩, ⟨.vec, 0, false⟩, 0x34, none⟩) ∧
  decode [0b00000101_00001101_1_0_00011_1010110_01,
      0b000_00000_00_00_01_0_0_00000000_00000000, 0b000000000000000000000000_00000011] =
    .ok (.sqry ⟨false, 3, .rs, .b32, 13, ⟨.sc, 5, true⟩, ⟨.vec, 0, false⟩, ⟨.vec, 0, false⟩, 0x0, none⟩) := by decide

theorem test_decode_tile :
  decode [0b00000101_00001101_1_1_00000_1010111_01,
      0b000_00000_00_00_01_0_0_00000000_00000000, 0b000000000001001000110100_00000000] =
    .ok (.binbeg ⟨true, 0, .rs, .b32, 13, ⟨.sc, 5, true⟩, ⟨.vec, 0, false⟩, ⟨.vec, 0, false⟩, 0x1234, none⟩) ∧
  decode [0b00000101_00000000_1_1_00001_1010111_01,
      0b000_00000_00_00_01_0_1_00000000_00001100, 0b000000000000000000000000_00000001] =
    .ok (.primr ⟨true, 1, .rs, .b32, 0, ⟨.sc, 5, true⟩, ⟨.vec, 12, true⟩, ⟨.vec, 0, false⟩, 0x0, none⟩) ∧
  decode [0b00000101_00000000_1_1_00010_1010111_01,
      0b000_00000_00_00_01_0_1_00000000_00001100, 0b000000000000000000000000_00000010] =
    .ok (.primt ⟨true, 2, .rs, .b32, 0, ⟨.sc, 5, true⟩, ⟨.vec, 12, true⟩, ⟨.vec, 0, false⟩, 0x0, none⟩) ∧
  decode [0b00000101_00000000_1_1_00011_1010111_01,
      0b000_00000_00_00_01_0_1_00000000_00001100, 0b000000000000000000000000_00000011] =
    .ok (.prims ⟨true, 3, .rs, .b32, 0, ⟨.sc, 5, true⟩, ⟨.vec, 12, true⟩, ⟨.vec, 0, false⟩, 0x0, none⟩) ∧
  decode [0b00000101_00000000_1_1_00100_1010111_01,
      0b000_00000_00_00_01_0_0_00000000_00000000, 0b000000000000000000000000_00000100] =
    .ok (.binend ⟨true, 4, .rs, .b32, 0, ⟨.sc, 5, true⟩, ⟨.vec, 0, false⟩, ⟨.vec, 0, false⟩, 0x0, none⟩) ∧
  decode [0b00000100_00001101_0_1_00101_1010111_01,
      0b000_00000_00_00_01_0_1_00000000_00001100, 0b000000000000000000000000_00000101] =
    .ok (.fragout ⟨true, 5, .rs, .b32, 13, ⟨.sc, 4, false⟩, ⟨.vec, 12, true⟩, ⟨.vec, 0, false⟩, 0x0, none⟩) ∧
  decode [0b00000101_00001101_1_1_00110_1010111_01,
      0b000_00000_00_00_01_0_0_00000000_00000000, 0b000000000000000000000100_00000110] =
    .ok (.tstat ⟨true, 6, .rs, .b32, 13, ⟨.sc, 5, true⟩, ⟨.vec, 0, false⟩, ⟨.vec, 0, false⟩, 0x4, none⟩) := by decide

theorem test_decode_sys :
  decode [0b00000000_00001101_0_0_00000_1011000_01,
      0b000_00000_00_00_00_0_0_00000000_00000000, 0b000000000000000000000000_00000000] =
    .ok (.srd ⟨false, 0, .rs, .b32, 13, ⟨.vec, 0, false⟩, ⟨.vec, 0, false⟩, ⟨.vec, 0, false⟩, 0x0, none⟩) ∧
  decode [0b00000101_00000000_1_0_00001_1011000_01,
      0b000_00000_00_00_01_0_0_00000000_00000000, 0b000000000000000000000000_00000001] =
    .ok (.swr ⟨false, 1, .rs, .b32, 0, ⟨.sc, 5, true⟩, ⟨.vec, 0, false⟩, ⟨.vec, 0, false⟩, 0x0, none⟩) ∧
  decode [0b00000000_00000000_0_0_00010_1011000_01,
      0b000_00000_00_00_00_0_0_00000000_00000000, 0b000000000001001000110100_00000010] =
    .ok (.trap ⟨false, 2, .rs, .b32, 0, ⟨.vec, 0, false⟩, ⟨.vec, 0, false⟩, ⟨.vec, 0, false⟩, 0x1234, none⟩) ∧
  decode [0b00000000_00000000_0_0_00011_1011000_01,
      0b000_00000_00_00_00_0_0_00000000_00000000, 0b000000000000000000000000_00000011] =
    .ok (.tret ⟨false, 3, .rs, .b32, 0, ⟨.vec, 0, false⟩, ⟨.vec, 0, false⟩, ⟨.vec, 0, false⟩, 0x0, none⟩) ∧
  decode [0b00000000_00000111_0_0_00100_1011000_01,
      0b000_00000_00_00_00_0_0_00000000_00000000, 0b000000000000000000000000_00000100] =
    .ok (.ychk ⟨false, 4, .rs, .b32, 7, ⟨.vec, 0, false⟩, ⟨.vec, 0, false⟩, ⟨.vec, 0, false⟩, 0x0, none⟩) ∧
  decode [0b00000000_00000000_0_0_00101_1011000_01,
      0b000_00000_00_00_00_0_0_00000000_00000000, 0b000000000000000000000000_00000101] =
    .ok (.ysave ⟨false, 5, .rs, .b32, 0, ⟨.vec, 0, false⟩, ⟨.vec, 0, false⟩, ⟨.vec, 0, false⟩, 0x0, none⟩) := by decide

theorem test_decode_reg :
  decode [0b00000101_00001110_1_1_00000_1011001_01,
      0b000_00000_00_00_01_0_0_00000000_00000000, 0b000000000000000000110100_00000000] =
    .ok (.rmovx ⟨true, 0, .rs, .b32, 14, ⟨.sc, 5, true⟩, ⟨.vec, 0, false⟩, ⟨.vec, 0, false⟩, 0x34, none⟩) ∧
  decode [0b00000101_00000000_1_1_00001_1011001_01,
      0b000_00000_00_00_01_0_1_00000000_00001100, 0b000000000000000000110100_00000001] =
    .ok (.rstx ⟨true, 1, .rs, .b32, 0, ⟨.sc, 5, true⟩, ⟨.vec, 12, true⟩, ⟨.vec, 0, false⟩, 0x34, none⟩) ∧
  decode [0b00000000_00001110_0_1_00010_1011001_01,
      0b000_00000_00_00_00_0_0_00000000_00000000, 0b000000000000000000000000_00000010] =
    .ok (.shape ⟨true, 2, .rs, .b32, 14, ⟨.vec, 0, false⟩, ⟨.vec, 0, false⟩, ⟨.vec, 0, false⟩, 0x0, none⟩) ∧
  decode [0b00001000_00001101_1_1_00011_1011001_01,
      0b000_00000_00_00_00_0_0_00000000_00000000, 0b000000000000000000000000_00000011] =
    .ok (.shqry ⟨true, 3, .rs, .b32, 13, ⟨.vec, 8, true⟩, ⟨.vec, 0, false⟩, ⟨.vec, 0, false⟩, 0x0, none⟩) ∧
  decode [0b00000000_00000000_0_1_00100_1011001_01,
      0b000_00000_00_00_00_0_0_00000000_00000000, 0b000000000000000000000000_00000100] =
    .ok (.rkeep ⟨true, 4, .rs, .b32, 0, ⟨.vec, 0, false⟩, ⟨.vec, 0, false⟩, ⟨.vec, 0, false⟩, 0x0, none⟩) ∧
  decode [0b00000101_00001110_1_1_00101_1011001_01,
      0b000_00000_00_00_01_0_0_00000000_00000000, 0b000000000000000000000000_00000101] =
    .ok (.vbcs ⟨true, 5, .rs, .b32, 14, ⟨.sc, 5, true⟩, ⟨.vec, 0, false⟩, ⟨.vec, 0, false⟩, 0x0, none⟩) ∧
  decode [0b00001000_00001101_1_1_00110_1011001_01,
      0b000_00000_00_01_00_0_1_00000000_00000111, 0b000000000000000000000000_00000110] =
    .ok (.vext ⟨true, 6, .rs, .b32, 13, ⟨.vec, 8, true⟩, ⟨.sc, 7, true⟩, ⟨.vec, 0, false⟩, 0x0, none⟩) := by decide

theorem test_decode_short :
  decode [0b00100101_00010101_0_0_00000_0000000_00] =
    .ok (.nopShort ⟨false, 0, 21, 37, false, none⟩) ∧
  decode [0b00100101_00010101_1_1_00001_0000001_00] =
    .ok (.vmov ⟨true, 1, 21, 37, true, none⟩) ∧
  decode [0b00000000_00010101_0_1_00001_0000001_10, 0x5, 0x0] =
    .ok (.vmov ⟨true, 1, 21, 0, false, some 5⟩) ∧
  decode [0b00100101_00010101_1_0_00010_0000010_00] =
    .ok (.smov ⟨false, 2, 21, 37, true, none⟩) ∧
  decode [0b00000000_00010101_0_0_00010_0000010_10, 0x5, 0x0] =
    .ok (.smov ⟨false, 2, 21, 0, false, some 5⟩) ∧
  decode [0b00100101_00010101_1_1_00011_0000011_00] =
    .ok (.vaddI32Short ⟨true, 3, 21, 37, true, none⟩) ∧
  decode [0b00000000_00010101_0_1_00011_0000011_10, 0x5, 0x0] =
    .ok (.vaddI32Short ⟨true, 3, 21, 0, false, some 5⟩) ∧
  decode [0b00100101_00010101_1_0_00100_0000100_00] =
    .ok (.vsubI32Short ⟨false, 4, 21, 37, true, none⟩) ∧
  decode [0b00000000_00010101_0_0_00100_0000100_10, 0x5, 0x0] =
    .ok (.vsubI32Short ⟨false, 4, 21, 0, false, some 5⟩) ∧
  decode [0b00100101_00010101_1_1_00101_0000101_00] =
    .ok (.vandShort ⟨true, 5, 21, 37, true, none⟩) := by decide

theorem test_decode_short2 :
  decode [0b00000000_00010101_0_1_00101_0000101_10, 0x5, 0x0] =
    .ok (.vandShort ⟨true, 5, 21, 0, false, some 5⟩) ∧
  decode [0b00100101_00010101_1_0_00110_0000110_00] =
    .ok (.vorShort ⟨false, 6, 21, 37, true, none⟩) ∧
  decode [0b00000000_00010101_0_0_00110_0000110_10, 0x5, 0x0] =
    .ok (.vorShort ⟨false, 6, 21, 0, false, some 5⟩) ∧
  decode [0b00100101_00010101_1_1_00111_0000111_00] =
    .ok (.vxorShort ⟨true, 7, 21, 37, true, none⟩) ∧
  decode [0b00000000_00010101_0_1_00111_0000111_10, 0x5, 0x0] =
    .ok (.vxorShort ⟨true, 7, 21, 0, false, some 5⟩) ∧
  decode [0b00100101_00010101_1_0_01000_0001000_00] =
    .ok (.vshlShort ⟨false, 8, 21, 37, true, none⟩) ∧
  decode [0b00000000_00010101_0_0_01000_0001000_10, 0x5, 0x0] =
    .ok (.vshlShort ⟨false, 8, 21, 0, false, some 5⟩) ∧
  decode [0b00100101_00010101_1_1_01001_0001001_00] =
    .ok (.vshrShort ⟨true, 9, 21, 37, true, none⟩) ∧
  decode [0b00000000_00010101_0_1_01001_0001001_10, 0x5, 0x0] =
    .ok (.vshrShort ⟨true, 9, 21, 0, false, some 5⟩) ∧
  decode [0b00100101_00010101_1_0_01010_0001010_00] =
    .ok (.vaddF32Short ⟨false, 10, 21, 37, true, none⟩) := by decide

theorem test_decode_short3 :
  decode [0b00000000_00010101_0_0_01010_0001010_10, 0x5, 0x0] =
    .ok (.vaddF32Short ⟨false, 10, 21, 0, false, some 5⟩) ∧
  decode [0b00100101_00010101_1_1_01011_0001011_00] =
    .ok (.vmulF32Short ⟨true, 11, 21, 37, true, none⟩) ∧
  decode [0b00000000_00010101_0_1_01011_0001011_10, 0x5, 0x0] =
    .ok (.vmulF32Short ⟨true, 11, 21, 0, false, some 5⟩) ∧
  decode [0b00100101_00010101_1_0_01100_0001100_00] =
    .ok (.vminF32Short ⟨false, 12, 21, 37, true, none⟩) ∧
  decode [0b00000000_00010101_0_0_01100_0001100_10, 0x5, 0x0] =
    .ok (.vminF32Short ⟨false, 12, 21, 0, false, some 5⟩) ∧
  decode [0b00100101_00010101_1_1_01101_0001101_00] =
    .ok (.vmaxF32Short ⟨true, 13, 21, 37, true, none⟩) ∧
  decode [0b00000000_00010101_0_1_01101_0001101_10, 0x5, 0x0] =
    .ok (.vmaxF32Short ⟨true, 13, 21, 0, false, some 5⟩) ∧
  decode [0b00100101_00010101_1_0_01110_0001110_00] =
    .ok (.saddShort ⟨false, 14, 21, 37, true, none⟩) ∧
  decode [0b00000000_00010101_0_0_01110_0001110_10, 0x5, 0x0] =
    .ok (.saddShort ⟨false, 14, 21, 0, false, some 5⟩) ∧
  decode [0b00100101_00010101_1_1_01111_0001111_00] =
    .ok (.ssubShort ⟨true, 15, 21, 37, true, none⟩) := by decide

theorem test_decode_short4 :
  decode [0b00000000_00010101_0_1_01111_0001111_10, 0x5, 0x0] =
    .ok (.ssubShort ⟨true, 15, 21, 0, false, some 5⟩) ∧
  decode [0b00100101_00010101_1_0_10000_0010000_00] =
    .ok (.sandShort ⟨false, 16, 21, 37, true, none⟩) ∧
  decode [0b00000000_00010101_0_0_10000_0010000_10, 0x5, 0x0] =
    .ok (.sandShort ⟨false, 16, 21, 0, false, some 5⟩) ∧
  decode [0b00100101_00010101_1_1_10001_0010001_00] =
    .ok (.sorShort ⟨true, 17, 21, 37, true, none⟩) ∧
  decode [0b00000000_00010101_0_1_10001_0010001_10, 0x5, 0x0] =
    .ok (.sorShort ⟨true, 17, 21, 0, false, some 5⟩) ∧
  decode [0b00100101_00010101_1_0_10010_0010010_00] =
    .ok (.sshlShort ⟨false, 18, 21, 37, true, none⟩) ∧
  decode [0b00000000_00010101_0_0_10010_0010010_10, 0x5, 0x0] =
    .ok (.sshlShort ⟨false, 18, 21, 0, false, some 5⟩) ∧
  decode [0b00100101_00010101_1_1_10011_0010011_00] =
    .ok (.sshrShort ⟨true, 19, 21, 37, true, none⟩) ∧
  decode [0b00000000_00010101_0_1_10011_0010011_10, 0x5, 0x0] =
    .ok (.sshrShort ⟨true, 19, 21, 0, false, some 5⟩) ∧
  decode [0b00100101_00010101_0_0_10100_0010100_00] =
    .ok (.braShort ⟨false, 20, 21, 37, false, none⟩) := by decide

theorem test_decode_short5 :
  decode [0b00100101_00010101_0_1_10101_0010101_00] =
    .ok (.bmzShort ⟨true, 21, 21, 37, false, none⟩) ∧
  decode [0b00100101_00010101_0_0_10110_0010110_00] =
    .ok (.bmnzShort ⟨false, 22, 21, 37, false, none⟩) ∧
  decode [0b00100101_00010101_0_1_10111_0010111_00] =
    .ok (.loopShort ⟨true, 23, 21, 37, false, none⟩) ∧
  decode [0b00100101_00010101_1_0_00000_0011000_00] =
    .ok (.ldvShort ⟨false, 0, 21, 37, true, none⟩) ∧
  decode [0b00100101_00010101_1_1_00001_0011001_00] =
    .ok (.stvShort ⟨true, 1, 21, 37, true, none⟩) ∧
  decode [0b00100101_00010101_1_0_00010_0011010_00] =
    .ok (.ldsShort ⟨false, 2, 21, 37, true, none⟩) ∧
  decode [0b00100101_00010101_1_1_00011_0011011_00] =
    .ok (.stsShort ⟨true, 3, 21, 37, true, none⟩) ∧
  decode [0b00100101_00010101_1_0_00100_0011100_00] =
    .ok (.qpopShort ⟨false, 4, 21, 37, true, none⟩) ∧
  decode [0b00000000_00000000_0_1_00101_0011101_00] =
    .ok (.tendShort ⟨true, 5, 0, 0, false, none⟩) ∧
  decode [0b00000000_00001011_0_0_00110_0011110_00] =
    .ok (.ychkShort ⟨false, 6, 11, 0, false, none⟩) := by decide

/-! ## A small device for the tests -/

/-- An extended form with every field 0, under ?pT. -/
def z : Ext := { neg := false, g := 23, rnd := .rs, ty := .b32, d := 0, a := Src.none, b := Src.none, c := Src.none,
                 x24 := 0, lit := none }

/-- A one-word form with every field 0, under ?pT. -/
def zs : Short := { neg := false, g := 23, d := 0, a := 0, fa := false, lit := none }

/-- A scalar source: the small integer n (03 R69), or a register. -/
def imm (n : Nat) : Src := { cls := .sc, code := BitVec.ofNat 8 (224 + n), trp := false }
/-- A scalar register as a source. -/
def sreg (n : Nat) : Src := { cls := .sc, code := BitVec.ofNat 8 n, trp := false }
/-- A vector register as a source. -/
def vreg (n : Nat) : Src := { cls := .vec, code := BitVec.ofNat 8 n, trp := false }
/-- An engine object as a source. -/
def obj (n : Nat) : Src := { cls := .obj, code := BitVec.ofNat 8 n, trp := false }

/-- A team of width 32 with lanes 0 and 1 on, 24 vector registers and 128 scalars. -/
def wt : Team :=
  { placeTeam with
    s := { val := 3, full := true } :: List.replicate 127 { val := 0, full := true }
    v := List.replicate 24 { tag := .uni, full := true, lanes := List.replicate 32 0 }
    nv := 24, trapv := 0x10000, trapa := 0x21000, chainb := 0x22000, seqb := 0x23000, surfb := 0x24000 }

/-- A context whose tables map the first gigabyte to itself, writable, in HBM. -/
def wc : Context :=
  { num := 1, ceil := 3, grace := 100, ptroot := 0x40000, surfb := 0x24000, chainb := 0x22000, seqb := 0x23000, qbind := 0,
    trapv := 0x10000, savep := 0x60000, savesz := 0x100000, recA := 0x50000, msix := 2, isIn := true, hold := none }

/-- The tables of that context. -/
def wm : Memory := Memory.setNum (Memory.setNum (Memory.setNum [] 0x40000 8 0x41001) 0x41000 8 0x42001) 0x42000 8 0x607

/-- A device with that context and that team, which is the current one. -/
def ws : State := { placed State.reset [] with teams := [wt], cur := 1, ctxs := [wc], mem := wm }

/-- That device with its team changed. -/
def wsT (f : Team → Team) : State := { ws with teams := [f wt] }

/-- That device with core 0 changed. -/
def wsC (f : Core → Core) : State := ws.onCore 0 f

/-! ## Witnesses: concrete states and operands that meet the hypotheses of each statement -/

/-- No flag traps under the status after reset. -/
theorem no_flag_enabled : ∀ f, enabled wt.status f = 0 := by simp [enabled, wt, placeTeam, bitsN]

theorem witness_ScalarArithmeticWritesItsResult :
    (∀ n ∈ List.range 17 ++ [18, 19], Issues 0x42 n { z with a := imm 3, b := imm 4, ty := .i64 } ws wt) ∧
    (∀ n ∈ [0, 1, 4, 5, 8, 9], Issues 0x42 n (shortTwo zs .sc .i64) ws wt) := by decide

theorem witness_ScalarTestAndMoveWriteTheirResult :
    Issues 0x42 18 { z with a := imm 3, b := imm 4 } ws wt ∧ Issues 0x42 17 { z with a := imm 3, b := imm 4 } ws wt ∧
    Issues 0x42 13 (shortOne zs .sc .b64) ws wt ∧ Issues 0x41 2 z ws wt ∧ Issues 0x41 3 z ws wt := by decide

theorem witness_BranchesMoveTheProgramCounter :
    (∀ n ∈ [0, 1, 2, 3, 7, 10], Issues 0x40 n { z with a := imm 1, b := obj 2 } ws wt) ∧
    (∀ n ∈ [0, 1, 2], Issues 0x40 n (shortBare zs 0 (shortOff16 zs)) ws wt) ∧
    Issues 0x40 7 (shortBare zs zs.d (shortOff8 zs)) ws wt ∧ Issues 0x40 10 (shortBare zs 0 0) ws wt := by decide

theorem witness_MaskAndPredicateMovesWriteTheirBits :
    Issues 0x41 0 z ws wt ∧ Issues 0x41 1 z ws wt ∧ (List.replicate 32 true).length = wt.width ∧
    0 + maskRegs wt.width ≤ wt.s.length ∧ 31 < wt.width ∧ wt.width ≤ 63 ∧ 63 < 64 * maskRegs wt.width := by decide

theorem witness_VectorArithmeticWritesActiveLanes :
    (∀ n ∈ List.range 8 ++ [15, 19, 20], Issues 0x43 n { z with a := vreg 2, b := imm 4, ty := .i32 } ws wt) ∧
    (∀ n ∈ [0, 1], Issues 0x43 n (shortTwo zs .vec .i32) ws wt) := by decide

theorem witness_VectorBitOperationsWriteActiveLanes :
    (∀ n ∈ [8, 9, 10, 11, 12, 13, 14, 16, 17, 18, 21, 22, 23, 24, 25], Issues 0x43 n { z with a := vreg 2, b := vreg 4 } ws wt) ∧
    (∀ n ∈ [8, 9, 10, 13, 14], Issues 0x43 n (shortTwo zs .vec .b32) ws wt) ∧
    Issues 0x44 11 (shortOne zs .vec .b32) ws wt := by decide

theorem witness_PredicatesAndVotesWriteActiveLanes :
    (∀ n ∈ [0, 1, 2], Issues 0x49 n { z with a := vreg 2 } ws wt) ∧ Issues 0x48 4 z ws wt := by decide

theorem witness_ShufflesReadWithinTheirSubGroup :
    (∀ n ∈ [0, 1, 2, 3], Issues 0x48 n { z with a := vreg 2, b := imm 1 } ws wt) ∧ wt.width = 2 ^ 5 ∧ wt.width % 2 ^ 5 = 0 ∧
    Issues 0x48 0 { z with a := vreg 2, b := imm 1, x24 := 3 } ws wt ∧ wt.width % 2 ^ 3 = 0 := by decide

theorem witness_ReduceAndScanWriteTheirTree :
    (∀ n ∈ [5, 6], Issues 0x48 n { z with a := vreg 2, ty := .n32 } ws wt) ∧ enabled wt.status 31 = 0 := by decide

/-- A header with a keep range. -/
def keepHeader : Header :=
  { width := 32, wid := [], role := 0, clev := 0, dlev := 0, leaf := false, vregs := 24, acc := 0, lat := 0, prio := 0,
    qarg := none, nargs := 2, scratch := 0, obuf := 0, undo := 0, keep := some (0, 8, 16, 4), inh := none, entry := 0x10000 }

/-- A launch of that header. -/
def wl : Launch :=
  { id := 0, ctx := 1, die := 0, hdrA := 0x18000, args := 0x19000, done := 0x1A000, teams := 1, follow := false,
    hdr := some keepHeader, phase := .placed, status := 0, sent := false }

/-- The device with that launch. -/
def wsL : State := { ws with launches := [wl] }

theorem witness_RegisterMovesAndTagsFollowR154 :
    (∀ n ∈ [0, 1], Issues 0x59 n { z with a := imm 2, x24 := 0x105 } ws wt ∧ (srcScalar ws wt z (imm 2)).toNat + 5 < 128 ∧
      wt.sfull 7 = true) ∧ wt.handler = false ∧
    (∀ n ∈ [0, 1], Issues 0x59 n { z with a := imm 2, x24 := 4, ty := .b64 } ws wt) ∧
    (srcScalar ws wt z (imm 2)).toNat + 4 + 1 < wt.nv ∧ (wt.vreg 6).full = true ∧ (wt.vreg 7).full = true ∧
    (∀ n ∈ [2, 3, 5, 6], Issues 0x59 n z ws wt) ∧
    Issues 0x59 4 z wsL wt ∧ wsL.launch? wt.launch = some wl ∧ wl.hdr = some keepHeader ∧ keepHeader.keep ≠ none := by
  decide

theorem witness_FloatArithmeticRoundsTheExactResultOnce :
    (∀ n ∈ [0, 1, 2, 3], Issues 0x44 n { z with a := vreg 2, b := vreg 4, c := vreg 6, ty := .f32 } ws wt) ∧
    (∀ n ∈ [0, 2], Issues 0x44 n (shortTwo zs .vec .f32) ws wt) ∧ enabled wt.status 31 = 0 := by decide

theorem witness_FloatSelectionAndSplitWriteTheirResult :
    (∀ n ∈ [4, 5, 6, 7, 8, 9, 10, 11, 12], Issues 0x44 n { z with a := vreg 2, b := vreg 4, ty := .f32 } ws wt) ∧
    (∀ n ∈ [4, 5], Issues 0x44 n (shortTwo zs .vec .f32) ws wt) ∧ enabled wt.status 31 = 0 := by decide

theorem witness_ConversionsRoundOnceAndPack :
    (∀ n ∈ [0, 1, 2, 3, 4], Issues 0x45 n { z with a := vreg 2, ty := .f16x2, x24 := 5 } ws wt) ∧
    enabled wt.status 31 = 0 := by decide

theorem witness_DotProductsSumExactly :
    (∀ n ∈ [0, 1, 2, 3], Issues 0x47 n { z with a := vreg 2, b := vreg 4, c := vreg 6, ty := .i8x4 } ws wt) ∧
    enabled wt.status 31 = 0 := by decide

/-- A `vsin` whose result is on its way. -/
def sinFlight : Flight :=
  { id := 7, team := 1, pc := 0x10000, npc := 0x1000C, instr := .vsin z, dvec := true, dst := 4, dnum := 1,
    lanes := [{ lane := 0, addr := 0, data := 5, st := .ready [] }], snap := [], aux := [0, 2, 1], again := false,
    gate := false, waits := [] }

theorem witness_SpecialFunctionsAnswerOrFly :
    (∀ n ∈ List.range 10, Issues 0x46 n { z with a := vreg 2, b := vreg 4, ty := .f32 } ws wt) ∧ enabled wt.status 31 = 0 ∧
    { ws with flights := [sinFlight] }.flight? 7 = some sinFlight ∧ flightTrap sinFlight = none ∧
    (∀ t, { ws with flights := [sinFlight] }.team? sinFlight.team = some t → enabled t.status 1 = 0) := by
  refine ⟨by decide, by decide, by decide, by decide, ?_⟩
  intro t h
  cases h
  decide

theorem witness_SoftwareTrapsAreTaken : Issues 0x58 2 z ws wt ∧ Issues 0x40 9 z ws wt := by decide

theorem witness_CallsAndJumpsMoveOrTrap :
    Issues 0x40 4 z ws wt ∧ (∀ n ∈ [5, 6], Issues 0x40 n { z with a := imm 4 } ws wt ∧ Issues 0x40 n { z with a := imm 2 } ws wt) ∧
    wt.go 23 false = true ∧ (srcScalar ws wt z (imm 4)).toNat % 4 = 0 ∧ (srcScalar ws wt z (imm 2)).toNat % 4 ≠ 0 := by decide

/-- The team with every floating-point trap enabled, infinity in v2 and 0 elsewhere. -/
def fpTeam : Team :=
  { wt with status := 0x7C01, v := wt.v.set 2 { tag := .uni, full := true, lanes := List.replicate 32 0x7F800000 } }

theorem witness_EnabledFloatFlagTraps :
    (∀ p ∈ [(0x44, 2), (0x44, 3), (0x46, 0), (0x45, 0)], Issues p.1 p.2 { z with a := vreg 2, b := vreg 4, ty := .f32 }
      (wsT (fun _ => fpTeam)) fpTeam) ∧
    enabled fpTeam.status 0x10 ≠ 0 ∧ ((Fmt.input fmt32 false 0x7F800000).mul (Fmt.input fmt32 false 0)).2 ≠ 0 ∧
    (sRcp 0 false).2 ≠ 0 := by decide

/-- The team below its own priority limit. -/
def prioTeam : Team := { wt with prioMax := 2 }

theorem witness_ControlRegistersReadAndWrite :
    Issues 0x58 0 z ws wt ∧ Issues 0x58 1 { z with a := imm 1 } ws wt ∧ wt.go 23 false = true ∧
    statusBad (srcScalar ws wt z (imm 1)) = false ∧ statusBad (srcScalar ws wt z (imm 8)) = true ∧
    (srcScalar ws wt z (imm 4)).toNat % 4 = 0 ∧ (srcScalar ws wt z (imm 1)).toNat % 4 ≠ 0 ∧
    (srcScalar ws wt z (imm 0)).toNat % 256 = 0 ∧ (srcScalar ws wt z (imm 1)).toNat % 256 ≠ 0 ∧
    (srcScalar ws wt z (imm 2)).toNat ≤ prioTeam.prioMax ∧ prioTeam.prioMax < (srcScalar ws wt z (imm 3)).toNat ∧
    (∀ n ∈ [0, 1, 2, 3, 4, 5, 0xFFF], Issues 0x58 1 { z with a := imm 1, x24 := BitVec.ofNat 24 n } ws wt ∧
      Ext.f { z with x24 := BitVec.ofNat 24 n } 11 0 = n) ∧
    Issues 0x58 4 z ws wt ∧ Issues 0x58 4 (shortBare zs zs.d 0) ws wt := by decide

/-- A software trap of the team at its program counter. -/
def wtrap : Trap := trapHere 0x10000 0x1000C 0x0C 5

theorem witness_DeliveringATrapEntersTheHandler :
    ws.team? wt.uid = some wt ∧ wt.handler = false ∧ wt.trapv ≠ 0 ∧ wt.trapa ≠ 0 ∧ ws.flightsOf wt.uid = [] ∧
    wt.width ≤ 1024 ∧ maskRegs wt.width ≤ wt.s.length ∧
    piecesOf ws wt.core wt.ctx .write wt.trapa.toNat 1024 = .ok [⟨0x21000, 1024, 0, 0⟩] ∧
    (wsT (fun t => { t with due := some wtrap })).busy 1 = false ∧ nextTrap { wt with due := some wtrap } = some wtrap ∧
    wsL.launch? wt.launch = some wl ∧ wl.status = 0 ∧ { wt with trapv := 0 }.trapv = 0 ∧ wt.part = none := by decide

/-- The team in its handler, whose frame of zeros lies at its trap area. -/
def handlerTeam : Team := { wt with handler := true }

theorem witness_TretReturnsFromTheHandler :
    Issues 0x58 3 z ws wt ∧ wt.go 23 false = true ∧ wt.handler = false ∧
    Issues 0x58 3 z (wsT (fun _ => handlerTeam)) handlerTeam ∧ handlerTeam.go 23 false = true ∧ handlerTeam.wound = false ∧
    (match readFrame (wsT (fun _ => handlerTeam)) handlerTeam with
      | .ok f => f.entries.isEmpty && !f.partly
      | .error _ => false) = true ∧
    { wt with run := .parked .tret }.run = .parked .tret ∧ (ws.flightsOf 1).any (fun f => f.again) = false := by decide

/-- An open task. -/
def wk : Task :=
  { age := 4, queue := 9, entry := [1, 2, 3, 4], dst := 20, restart := 0x10040, restarts := 0, deferred := [], logged := [],
    declared := true }
/-- The team wounded in its task. -/
def woundTeam : Team := { wt with wound := true, task := some wk }
/-- The same with a logged line and an undo area of zeros. -/
def loggedTeam : Team := { woundTeam with task := some { wk with logged := [0x20000] }, undob := 0x30000, undol := 4096 }

theorem witness_WoundsRollTheTaskBack :
    (wsT (fun _ => woundTeam)).team? 1 = some woundTeam ∧ canTakeWound woundTeam = true ∧ woundTeam.run = .running ∧
    usesAbsent (wsT (fun _ => woundTeam)) woundTeam = none ∧ woundTeam.wound = true ∧ woundTeam.task = some wk ∧
    wk.logged = [] ∧ wk.entry.length = 4 ∧ wk.dst + 4 ≤ woundTeam.s.length ∧
    (wsT (fun _ => loggedTeam)).team? 1 = some loggedTeam ∧ loggedTeam.wound = true ∧
    undoRead (wsT (fun _ => loggedTeam)) loggedTeam = .ok 0 ∧
    (match clearUndo (wsT (fun _ => woundTeam)) woundTeam with
      | .ok _ => true
      | .error _ => false) = true ∧
    (match undoRecords loggedTeam false (List.range 0).reverse (wsT (fun _ => loggedTeam)) with
      | .ok s => (match clearUndo s loggedTeam with
        | .ok _ => true
        | .error _ => false)
      | .error _ => false) = true ∧ loggedTeam.undol ≠ 0 ∧
    (match writeVA (wsT (fun _ => loggedTeam)) 0 1 0x30000 (leBytes 12 0) with
      | .ok _ => true
      | .error _ => false) = true := by decide

theorem witness_EveryExtendedFormMakesTheIssueChecks :
    (mkGroup 0x42).isSome ∧ ((mkGroup 0x42).bind (fun g => g 0)).isSome ∧ ws.team? ws.cur = some wt ∧ lgBad wt 0x42 0 z = false ∧
    regErr ws wt (rowOf 32 0x43 0 { z with a := vreg 200 }) { z with a := vreg 200 } none ≠ none ∧
    maskWait wt = false ∧ maskWait { wt with s := wt.s.set 0 { val := 1, full := false } } = true ∧
    srcErr { wt with s := wt.s.set 9 { val := 0, full := false } } 0x42 0
      (rowOf 32 0x42 0 { z with a := { sreg 9 with trp := true } }) { z with a := { sreg 9 with trp := true } } ≠ none ∧
    mustWait ws { wt with s := wt.s.set 9 { val := 0, full := false } } 0x42 0
      (rowOf 32 0x42 0 { z with a := sreg 9 }) { z with a := sreg 9 } = true ∧
    skips { wt with s := wt.s.set 0 { val := 0, full := true } } 0x43 0 (rowOf 32 0x43 0 z) = true ∧ (rowOf 32 0x43 0 z).d ≠ .sc := by decide

/-- The access of a form at 0x30000, in s5. -/
def xm : Ext := { z with a := sreg 5 }
/-- The team with 0x30000 in s5. -/
def memTeam : Team := { wt with s := wt.s.set 5 { val := 0x30000, full := true } }
/-- The device with that team. -/
def wsM : State := wsT (fun _ => memTeam)
/-- A cached leaf for its page, writable and with `red` allowed. -/
def dataTlb : Tlb := { ctx := 1, va := 0, size := 2 ^ 30, pte := 0x607 }
/-- That device with the page cached. -/
def wsD : State := wsM.onCore 0 (fun c => { c with tlb := [dataTlb] })
/-- The addresses of an access. -/
def asOf (scalar each : Bool) (x : Ext) : List (Nat × Nat) :=
  (servedLanes memTeam x scalar).map (fun l => (l, memAddr wsM memTeam x false each 0 0 l))

theorem witness_ReadsLeaveTheirAddressesInFlight :
    (∀ n ∈ [0, 2], Issues 0x4A n xm wsM memTeam) ∧ Issues 0x4A 4 { xm with ty := .b64 } wsM memTeam ∧
    Issues 0x4A 2 (shortOne { zs with a := 5 } .sc .b32) wsM memTeam ∧ Issues 0x4A 4 (shortOne { zs with a := 5 } .sc .b64) wsM memTeam ∧
    (∀ n ∈ [0, 2], Issues 0x4B n xm wsM memTeam) ∧ Issues 0x4C 2 xm wsM memTeam ∧
    (∀ p ∈ [asOf false false xm, asOf false true xm, asOf true false xm], MemIssues wsM memTeam xm false p ∧ p ≠ []) ∧
    Issues 0x4A 0 { xm with neg := true } wsM memTeam ∧ asOf false false { xm with neg := true } = [] := by
  and_intros <;> decide

theorem witness_StoresSendTheirBytesToTheirAddresses :
    (∀ n ∈ [1, 3, 5], Issues 0x4A n xm wsD memTeam) ∧ Issues 0x4A 3 (shortOne { zs with a := 5 } .sc .b32) wsD memTeam ∧
    Issues 0x4A 5 (shortOne { zs with a := 5 } .sc .b64) wsD memTeam ∧ Issues 0x4B 1 xm wsD memTeam ∧ xm.bit 18 = false ∧
    (∀ p ∈ [asOf false false xm, asOf false true xm, asOf true false xm], MemIssues wsD memTeam xm false p ∧ p ≠ []) ∧
    wsD.flightsOf memTeam.uid = [] ∧ wsD.writes = [] ∧ wsD.flights = [] ∧
    (∀ p ∈ asOf false true xm, cached wsD 0 1 p.2 4 = true ∧
      piecesOf wsD 0 1 .write p.2 4 = .ok [⟨0x30000 + 4 * p.1, 4, 0, 0⟩] ∧
      piecesOf wsD 0 1 .red p.2 4 = .ok [⟨0x30000 + 4 * p.1, 4, 0, 0⟩] ∧
      ∀ k ∈ segKeys [⟨0x30000 + 4 * p.1, 4, 0, 0⟩], tierOf k = 0 ∧ lineMoves wsD k = false) ∧
    (∃ p ∈ asOf false false xm, cached wsM 0 1 p.2 4 = false) := by
  and_intros <;> decide

theorem witness_MisalignedAccessTraps :
    (∀ p ∈ [(0x4A, 0), (0x4A, 1), (0x4A, 4), (0x4B, 0)], Issues p.1 p.2 { z with a := imm 2 } ws wt ∧
      Issues p.1 p.2 { z with a := { cls := .sc, code := 6, trp := false } } (wsT (fun t =>
        { t with s := t.s.set 6 { val := 0x0100000000000000, full := true } }))
        { wt with s := wt.s.set 6 { val := 0x0100000000000000, full := true } }) ∧
    canonical 2 = true ∧ 2 % 4 ≠ 0 ∧ canonical 0x0100000000000000 = false ∧ Ext.bit { z with a := imm 2 } 17 = false := by decide

/-- A scalar load of 8 bytes at 0x30000, translated. -/
def ldsFlight : Flight :=
  { id := 7, team := 1, pc := 0x10000, npc := 0x1000C, instr := .lds { xm with ty := .b64, d := 9 }, dvec := false, dst := 9,
    dnum := 1, lanes := [{ lane := 0, addr := 0x30000, data := 0, st := .ready [⟨0x30000, 8, 0, 0⟩] }], snap := [], aux := [0],
    again := false, gate := false, waits := [] }
/-- A scalar exchange at the same place. -/
def atomsFlight : Flight :=
  { ldsFlight with instr := .atoms { xm with ty := .b64, d := 9, x24 := 0x830000 }, lanes := [{ lane := 0, addr := 0x30000, data := 5, st := .ready [⟨0x30000, 8, 0, 0⟩] }] }

theorem witness_LoadsAndAtomicsDeliverTheirLane :
    ∀ p ∈ [(ldsFlight, Instr.lds { xm with ty := .b64, d := 9 }),
        (atomsFlight, Instr.atoms { xm with ty := .b64, d := 9, x24 := 0x830000 })],
      let s : State := { wsM with flights := [p.1] }
      s.flight? 7 = some p.1 ∧ p.1.instr = p.2 ∧ p.1.withdrawn = false ∧ p.1.waits = [] ∧
      p.1.lanes.map (fun r => r.st) = [.ready [⟨0x30000, 8, 0, 0⟩]] ∧ s.team? p.1.team = some memTeam ∧ memTeam.task = none ∧
      p.1.dst < memTeam.s.length ∧ p.1.dnum = 1 ∧ p.1.dvec = false ∧ s.flightsOf p.1.team = [p.1] ∧ s.writes = [] ∧
      tierOf 0x30000 = 0 ∧ (∀ k ∈ segKeys [⟨0x30000, 8, 0, 0⟩], lineMoves s k = false) := by decide

/-- A buffered write of two bytes. -/
def ww : BufWrite :=
  { id := 7, op := 0, team := 1, core := 0, ctx := 1, path := 0, lane := 0, va := 0x30000, cells := [(0x30000, 1), (0x30001, 2)],
    kind := 0, release := none, waits := [], red := none, pc := 0x10000, npc := 0x1000C, instr := none, data := 0 }

theorem witness_WritesReachMemory :
    (∀ w ∈ [ww, { ww with release := some 3 }, { ww with red := some (0, .n16, 5), path := 7 }],
      let s : State := { ws with writes := [w] }
      s.write? 7 = some w ∧ w.waits = [] ∧ priorWrites s w = [] ∧ (∀ c ∈ w.cells, tierOf c.1 = 0 ∧ lineMoves s c.1 = false) ∧
      s.team? w.team = some wt ∧ s.mem.wf = true) ∧ (∀ c ∈ ww.cells, c.1 ≠ 0x2FFFF ∧ c.1 ≠ 0x30002) := by decide

/-- A load whose lane is not translated. -/
def todoFlight (va : Word64) : Flight := { ldsFlight with lanes := [{ lane := 0, addr := va, data := 0, st := .todo }] }

/-- A request in the fault buffer. -/
def wq : FaultReq := { die := 0, ctx := 1, blk := 0x30000 / 2048, path := 0, flight := 7, retry := .translationWalk 7 }

theorem witness_TranslationsFillLanesOrPark :
    (∀ p ∈ [(0x30000, LaneSt.ready [⟨0x30000, 8, 0, 0⟩]), (0x80000000, LaneSt.faulted)],
      let f := todoFlight (BitVec.ofNat 64 p.1)
      let s : State := { wsM with flights := [f] }
      let s1 := tlbFill (tlbFill s 0 1 p.1) 0 1 (p.1 + 7)
      s.flight? 7 = some f ∧ memOp? f.instr ≠ none ∧ f.withdrawn = false ∧ s.team? 1 = some memTeam ∧ memTeam.run = .running ∧
      laneTr s1 0 1 (ldstOp 4 { xm with ty := .b64, d := 9 }) p.1 = p.2 ∧ faultsFull s1 0 = false) ∧
    (let s1 := ws.apply (cellsAt (physKey 0 0x42000) (leBytes 8 0x607))
     walk s1 1 0x30000 = .leaf 0x607 (2 ^ 30)) ∧ wq.ctx = 1 ∧ blkIn wq.blk 0x30000 (2 ^ 30) = true ∧
    blkIn wq.blk 0x30000 65536 = true ∧ { wq with flight := 0 }.flight = 0 ∧
    (∀ d ∈ [0, 1], serviceWaits { ws with faults := [wq], hub := { ws.hub with updating := [d] } } 1 0x30000 65536 = decide (d = wq.die)) := by
  decide

theorem witness_ShootdownsAndLinksAct :
    { ww with cells := [(physKey 2 0, 1)] }.cut { ws with hub := { ws.hub with pcieUp := false } } = true ∧
    Issues 0x4A 8 xm wsM memTeam ∧
    (∀ l ∈ lanesOf (activeLanes memTeam xm), canonical (memAddr wsM memTeam xm false false 0 0 l) = true) ∧
    (lanesOf (activeLanes memTeam xm)) ≠ [] := by decide

theorem witness_FencesHoldTheirPathsUntilDrained :
    (∀ n ∈ [0x8, 0x9, 0xA, 0xF], Issues 0x4C 0 { z with x24 := BitVec.ofNat 24 n } ws wt ∧ Ext.f { z with x24 := BitVec.ofNat 24 n } 4 2 ≠ 0) ∧
    wt.go 23 false = true ∧ Issues 0x4C 0 z ws wt ∧ z.f 4 2 = 0 ∧ Issues 0x4C 0 { z with neg := true, x24 := 8 } ws wt ∧
    wt.go 23 true = false ∧ Issues 0x4C 1 { z with x24 := 0x30101 } ws wt ∧ ws.team? 1 = some wt := by decide

/-- The team parked in `mwait` until cycle 9. -/
def mwaitTeam (due : Nat) : Team := { wt with run := .parked .mwait, aux := [0x30000, 4, 7, due] }

theorem witness_MwaitIsTestedAgain :
    (∀ n ∈ [0, 1, 2], (wsT (fun _ => mwaitTeam n)).team? 1 = some (mwaitTeam n) ∧ (mwaitTeam n).run = .parked .mwait ∧
      (mwaitTeam n).aux[2]? = some 7) ∧ (mwaitTeam 1).aux.getD 3 0 ≠ 0 ∧ (mwaitTeam 1).aux.getD 3 0 ≤ ws.clk.toNat + 1 ∧
    ws.clk.toNat + 1 < (mwaitTeam 2).aux.getD 3 0 := by decide

/-- A latch of the team's kernel, as it stands in the device. -/
def w0 : Latch := { launch := 0, num := 0, count := 0, target := 1, phase := false, ovr := false }
/-- An outstanding copy of words in scratch. -/
def wcp : Copy :=
  { id := 3, team := 1, launch := 0, ctx := 1, place := 0,
    desc := { src := 0x30000, dst := 0x31000, ndim := 1, ty := 0, skind := 0, dkind := 0, lat := none, dims := [(2, 4, 4)], bad := false },
    rows := none, held := false }

theorem witness_LatchesCountAndRelease :
    (∀ n ∈ [0, 1, 2, 3], Issues 0x4F n { z with a := if n < 2 then imm 1 else obj 0, b := imm 1 } ws wt) ∧ wt.go 23 false = true ∧
    Issues 0x4F 0 { z with a := imm 0 } ws wt ∧ srcVal ws wt z (imm 1) 32 0 ≠ 0 ∧ srcVal ws wt z (imm 0) 32 0 = 0 ∧
    lsFlights ws wt.uid = [] ∧ ws.writes = [] ∧ ws.latch? 0 0 0 = some w0 ∧
    (if w0.phase then 1 else 0) ≠ srcVal ws wt z (imm 1) 32 0 % 2 ∧ (if w0.phase then 1 else 0) = srcVal ws wt z (imm 0) 32 0 % 2 ∧
    Issues 0x4F 3 { z with a := imm 3, x24 := 0x800004 } ws wt ∧ Ext.bit { z with x24 := 0x800004 } 23 = true ∧
    ((ws.core 0).copies.any (fun k => k.id = 3)) = false ∧ (((wsC (fun c => { c with copies := [wcp] })).core 0).copies.any (fun k => k.id = 3)) = true ∧
    0 < w0.target ∧ w0.count + 0 < w0.target ∧ w0.target ≤ w0.count + 1 ∧ w0.count + 1 < 2 * w0.target ∧
    2 * w0.target ≤ w0.count + 2 := by decide

/-- A pool line of the context. -/
def wln (st : LineState) (dirty : Bool) : Line :=
  { num := 700, tag := 0x300, st := st, dirty := dirty, ctx := 1, latch := none, team := 1 }
/-- The device with that line. -/
def wsLn (st : LineState) (dirty : Bool) : State := wsC (fun c => { c with lines := [wln st dirty] })
/-- The team with line number 700 in s6 and its address in s5. -/
def lineTeam : Team := { memTeam with s := memTeam.s.set 6 { val := 700, full := true } }

theorem witness_ScratchAccessesAndLinesAct :
    (∀ n ∈ [6, 7], Issues 0x4A n { z with a := imm 4 } ws wt) ∧ lanesOf (activeLanes wt z) = [0, 1] ∧
    memAddr ws wt { z with a := imm 4 } false false 0 0 0 = 4 ∧ canonical 4 = true ∧ 4 % 4 = 0 ∧
    scratchOk (ws.core 0) 0 1 4 4 = true ∧ scratchHeld (ws.core 0) 0 1 4 4 = false ∧
    Issues 0x4D 0 { z with a := imm 5, x24 := 0x40000 } ws wt ∧ Ext.bit { z with x24 := 0x40000 } 18 = true ∧
    (∀ n ∈ [1, 3], Issues 0x4D n { z with a := sreg 5, b := sreg 6 } (wsT (fun _ => lineTeam)) lineTeam) ∧
    0x30000 % 256 = 0 ∧ lineBad (ws.core 0) 1 700 = false ∧ lineTagged (ws.core 0) 1 (tagBits 0x30000) = none ∧
    lineOf (ws.core 0) 700 = none ∧ lineTagged ((wsLn .valid false).core 0) 1 (tagBits 0x30000) = some (wln .valid false) ∧
    (lineOf ((wsLn .valid false).core 0) 700).isSome ∧ lineTagged ((wsLn .valid false).core 0) 1 (tagBits 0x30100) = none ∧
    (∀ n ∈ [2, 4], Issues 0x4D n { z with a := sreg 6, x24 := 1 } (wsT (fun _ => lineTeam)) lineTeam) ∧
    (∀ p ∈ [(LineState.valid, true), (.valid, false), (.filling, false), (.evicting, true)],
      lineBad ((wsLn p.1 p.2).core 0) 1 700 = false ∧ lineOf ((wsLn p.1 p.2).core 0) 700 = some (wln p.1 p.2)) ∧
    (∀ n ∈ [6, 7], Issues 0x4A n xm wsM memTeam ∧ Issues 0x4A n { z with neg := true } ws wt) ∧ memAddr wsM memTeam xm false false 0 0 0 = 0x30000 ∧
    scratchOk (wsM.core 0) 0 1 0x30000 4 = false ∧ lanesOf (activeLanes wt { z with neg := true }) = [] ∧
    scratchOk ((wsLn .filling false).core 0) 0 1 0x2BC00 4 = true ∧ scratchHeld ((wsLn .filling false).core 0) 0 1 0x2BC00 4 = true ∧
    (∀ n ∈ [0, 0x20000], let x := { xm with x24 := BitVec.ofNat 24 n }
      Issues 0x4D 0 x wsM memTeam ∧ Ext.bit x 18 = false ∧ (Ext.bit x 17 = true ↔ n = 0x20000) ∧
      ∀ l ∈ servedLanes memTeam x (Ext.bit x 17), canonical (memAddr wsM memTeam x false false 0 0 l) = true) ∧
    Issues 0x4D 0 { xm with x24 := 0x40000 } wsM memTeam ∧ 1536 ≤ (srcScalar wsM memTeam xm (sreg 5)).toNat ∧
    (srcScalar ws wt z (imm 5)).toNat < 1536 ∧ memTeam.go 23 false = true ∧ memTeam.go 23 true = false ∧
    Issues 0x4D 0 { xm with x24 := 0x40000, neg := true } wsM memTeam ∧
    (∀ n ∈ [1, 2, 3, 4], Issues 0x4D n { xm with neg := true } wsM memTeam) ∧
    canonical 0x30000 = true ∧ 4 % 256 ≠ 0 ∧ (∀ n ∈ [1, 3], Issues 0x4D n { z with a := imm 4, b := imm 5 } ws wt) ∧
    lineBad (ws.core 0) 1 5 = true ∧ Issues 0x4D 2 { z with a := imm 5 } ws wt ∧
    (∀ p ∈ [(LineState.filling, true), (.valid, false)],
      ((wsLn p.1 true).core 0).lines.any (fun l => l.ctx = 1 && lineIn l 0x30000 256 && l.st = .filling) = p.2) := by
  and_intros <;> decide +kernel

theorem witness_LineTransfersFillAndWriteBack :
    (∀ st ∈ [LineState.filling, .evicting], lineOf ((wsLn st true).core 0) 700 = some (wln st true) ∧
      lineBehind (wsLn st true) 0 (wln st true) = false ∧ (wsLn st true).team? 1 = some wt ∧ 0 < (wsLn st true).cores.length) ∧ tagAddr 0x300 = 0x30000 ∧
    (match readVA (tlbFill (wsLn .filling false) 0 1 0x30000) 0 1 0x30000 256 with
      | .ok bs => bs.length = 256
      | .error _ => false) = true ∧
    piecesOf (tlbFill (wsLn .evicting true) 0 1 0x30000) 0 1 .write 0x30000 256 = .ok [⟨0x30000, 256, 0, 0⟩] ∧
    (∀ l ∈ ((wsLn .valid false).core 0).lines, l.ctx = 1 → l.st = .valid ∧ l.dirty = false) ∧
    ((wsLn .valid false).core 0).copies.any (fun k => k.ctx = 1 && !k.held && k.ofPool ((wsLn .valid false).core 0)) = false ∧
    wln .filling false ∈ ((wsLn .filling false).core 0).lines := by decide

/-- A `cpy` whose descriptor at 0x30000 is to be read. -/
def cpyFlight : Flight :=
  { ldsFlight with instr := .cpy { xm with d := 9 }, lanes := [{ lane := 0, addr := 0x30000, data := 0, st := .todo }] }
/-- The device with an outstanding copy. -/
def wsCp (k : Copy) : State := wsC (fun c => { c with copies := [k] })

theorem witness_CopiesStartRunAndEnd :
    (∀ n ∈ [0, 1], Issues 0x4E n { xm with b := vreg 4 } wsM memTeam ∧
      Issues 0x4E n { z with a := imm 0, b := vreg 4, x24 := 0x4000 } ws wt) ∧ memTeam.go 23 false = true ∧
    copiesFull wsM 0 = false ∧ cpyFlight.waits = [] ∧ (srcScalar wsM memTeam xm (sreg 5)).toNat % 128 = 0 ∧ (activeLanes memTeam xm).any id = true ∧
    scratchOk (ws.core 0) 0 1 0 128 = true ∧ scratchHeld (ws.core 0) 0 1 0 128 = false ∧
    Issues 0x4E 2 { z with a := sreg 4 } ws wt ∧ Issues 0x4E 3 { z with a := imm 9 } ws wt ∧
    (ws.core 0).copies.any (fun k => k.id = 9) = false ∧
    { wsM with flights := [cpyFlight] }.flight? 7 = some cpyFlight ∧ wsM.team? cpyFlight.team = some memTeam ∧
    copyExt cpyFlight.instr = some { xm with d := 9 } ∧ cpyFlight.lanes ≠ [] ∧
    piecesOf (tlbFill wsM 0 1 0x30000) 0 1 .read 0x30000 128 = .ok [⟨0x30000, 128, 0, 0⟩] ∧
    (let s := wsCp wcp
     (s.core 0).copies.find? (fun c => c.id = 3) = some wcp ∧ wcp.held = false ∧ wcp.desc.bad = false ∧
     (match copyEnv s 0 wcp with
      | .ok e => !copyOutside s 0 wcp e && !copyWaits s 0 wcp e && !copyBehind s 0 wcp &&
        (moveUnits 0 wcp e wcp.units s).2.isNone
      | .error _ => false) = true) ∧
    ((wsCp { wcp with desc := { wcp.desc with bad := true } }).core 0).copies.map (fun k => k.desc.bad) = [true] := by decide

/-- The team in its task, with a slot for the line at 0x30000 and 64 in s6. -/
def setTeam (st : SetState) : Team :=
  { memTeam with task := some wk, s := memTeam.s.set 6 { val := 64, full := true }, run := .parked .setWait,
                 sets := memTeam.sets.set 0 { st := st, base := 0x30000, len := 64 } }
/-- The device with that team and some requests. -/
def wsS (st : SetState) (hs : List Hasp) : State := { wsT (fun _ => setTeam st) with hasps := hs }
/-- A request of the team for that line, and one of another team. -/
def wh (team : Nat) (granted : Bool) : Hasp :=
  { slice := 0, age := 4, team := team, slot := 0, lines := [0xC00], granted := granted }
/-- The operands of `asundo`: the area in s5 and its size in s6. -/
def xu : Ext := { z with a := sreg 5, b := sreg 6 }
/-- A team with an undo area, and the size of a new one. -/
def undoTeam (n old : Nat) : Team :=
  { memTeam with s := memTeam.s.set 6 { val := BitVec.ofNat 64 n, full := true }, undob := 0x38000,
                 undol := BitVec.ofNat 64 old }

theorem witness_SetsAreDeclaredRequestedAndGranted :
    Issues 0x52 0 xu wsM memTeam ∧ memTeam.task = none ∧ memTeam.sets[0]? = some SetSlot.zero ∧
    (let t := setTeam .declared
     Issues 0x52 0 xu (wsS .declared []) t ∧ t.task.isSome ∧ (srcScalar ws t xu (sreg 5)).toNat % 64 = 0 ∧
     (srcScalar ws t xu (sreg 6)).toNat = 64 ∧ canonical 0x30000 = true ∧ canonical ((0x30000 + 64 - 1) % 2 ^ 64) = true ∧
     Issues 0x52 1 z (wsS .declared []) t ∧ (∀ sl, t.sets[0]? = some sl → sl.st = .empty ∨ sl.st = .declared)) ∧
    (∀ q ∈ [0, 7, 8, 15, 16, 17], Issues 0x52 2 { z with a := imm q } (wsS .acquired []) (setTeam .acquired) ∧
      (srcScalar ws wt z (imm q)).toNat = q) ∧ (setTeam .acquired).sets[7]? ≠ none ∧
    (∀ p ∈ [(0, 0), (4096, 0), (4096, 8192)], Issues 0x52 3 xu (wsT (fun _ => undoTeam p.1 p.2)) (undoTeam p.1 p.2) ∧
      (srcScalar ws (undoTeam p.1 p.2) xu (sreg 6)).toNat = p.1 ∧ undoRead (wsT (fun _ => undoTeam p.1 p.2)) (undoTeam p.1 p.2) = .ok 0 ∧
      (match writeVA (wsT (fun _ => undoTeam p.1 p.2)) 0 1 0x30000 (leBytes 64 0) with
        | .ok _ => true
        | .error _ => false) = true ∧
      piecesOf (wsT (fun _ => undoTeam p.1 p.2)) 0 1 .read 0x38000 64 = .ok [⟨0x38000, 64, 0, 0⟩] ∧
      writesOn (wsT (fun _ => undoTeam p.1 p.2)) 0 1 (segKeys [⟨0x38000, 64, 0, 0⟩]) false = []) := by
  and_intros <;> decide

theorem witness_SetRequests :
    (∀ hs ∈ [[], [wh 1 true]], (wsS .waiting hs).team? 1 = some (setTeam .waiting) ∧
      piecesOf (wsS .waiting hs) 0 1 .read 0x30000 64 = .ok [⟨0x30000, 64, 0, 0⟩] ∧ (∀ h ∈ hs, h.granted = true)) ∧
    (setTeam .waiting).sets[0]? = some { st := .waiting, base := 0x30000, len := 64 } ∧ tierOf 0x30000 < 2 ∧
    slicesOf (wsS .waiting []) (lineKeys [⟨0x30000, 64, 0, 0⟩]) = [0] ∧ (setTeam .waiting).run = .parked .setWait ∧
    haspMeets (wsS .waiting []) 0 1 [0xC00] = [] ∧ haspMeets (wsS .waiting [wh 2 true]) 0 1 [0xC00] ≠ [] ∧
    (haspHeld (wsS .waiting []) 0).length < haspCap ∧ (wh 1 false).age < { wh 2 true with age := 5 }.age := by decide

/-- A queue of 16 entries, of which n are in use. -/
def wqu (n : Nat) : Queue :=
  { num := 9, ring := 0x32000, head := 0, tail := BitVec.ofNat 32 n, ctx := 1, isLaunch := false, ovf := false, lcap := 4,
    slice := 0, poppers := [], pushers := [] }
/-- A push on its way to it. -/
def wp : PushMsg := { id := 7, queue := 9, entry := [1, 2, 3, 4], team := 1, kind := .qpush, nb := false, dst := 20, len := 0 }
/-- The team that waits for an entry. -/
def popTeam (nb : Nat) : Team := { wt with run := .parked .qpop, aux := [9, 20, nb, 30] }
/-- The device with that queue and push. -/
def wsQ (q : Queue) (t : Team) : State := { ws with queues := [q], pushes := [wp], teams := [t] }

theorem witness_QueuesHandEntriesOver :
    (∀ n ∈ [0, 1, 5], Issues 0x53 n { z with a := imm 9, b := sreg 8 } (wsQ (wqu 3) wt) wt) ∧
    Issues 0x53 0 (shortOne { zs with a := 233 } .sc .b64) (wsQ (wqu 3) wt) wt ∧
    (srcScalar ws wt z (imm 9)).toNat = 9 ∧ (wsQ (wqu 3) wt).queue? 9 = some (wqu 3) ∧ (wqu 3).ctx = wt.ctx ∧ wt.defers = false ∧
    (setTeam .declared).defers = true ∧ wk.deferred.length < 16 ∧ wt.task = none ∧ usesAbsent (wsQ (wqu 3) wt) wt = none ∧
    (∀ n ∈ [0, 15, 16], (wsQ (wqu n) wt).pushes.find? (fun m => m.id = 7) = some wp ∧ pushReady (wsQ (wqu n) wt) wp = true ∧
      (wsQ (wqu n) wt).queue? wp.queue = some (wqu n)) ∧
    ((wqu 15).tail - (wqu 15).head).toNat < 2 ^ (wqu 15).lcap ∧ 2 ^ (wqu 16).lcap ≤ ((wqu 16).tail - (wqu 16).head).toNat ∧
    wp.nb = false ∧ { wqu 0 with poppers := [1] }.poppers = [1] ∧
    (∀ n ∈ [0, 1], (wsQ (wqu 0) (popTeam n)).team? 1 = some (popTeam n) ∧ (popTeam n).run = .parked .qpop ∧
      (wsQ (wqu 0) (popTeam n)).queue? ((popTeam n).aux.getD 0 0) = some (wqu 0) ∧ 1 ∉ (wqu 0).poppers ∧ (popTeam n).aux.getD 2 0 = n) ∧
    0 < ((wqu 1).tail - (wqu 1).head).toNat ∧ (wqu 0).tail = (wqu 0).head := by and_intros <;> decide

/-- The team at the commit of its task. -/
def applyTeam (ds : List Deferred) : Team :=
  { setTeam .acquired with run := .parked .apply, aux := [0x10004], task := some { wk with deferred := ds } }
/-- A `dcdec` of the counter at 0x30000, and a `qwpush` of 16 bytes from scratch 0 to 0x34000. -/
def dcFlight : Flight := { cpyFlight with instr := .dcdec { xm with d := 9 } }
/-- A payload of 16 bytes on its way. -/
def qwFlight : Flight := { cpyFlight with instr := .qwpush { z with d := 9 }, aux := [0, 0, 16, 0, 0, 9, 0x34000, 1, 2, 3, 4] }
/-- A team with a payload's place in s12 to s14. -/
def qwTeam : Team :=
  let v := (wt.s.set 12 { val := 0, full := true }).set 13 { val := 0x34000, full := true }
  { wt with s := v.set 14 { val := 16, full := true } }

theorem witness_TasksEndAndCountersCount :
    Issues 0x53 3 z (wsS .declared []) (setTeam .declared) ∧ Issues 0x53 3 (shortBare zs 0 0) ws wt ∧ wt.task = none ∧
    usesAbsent ws wt = none ∧ wk.declared = true ∧ lsDone (wsS .declared []) 1 = true ∧
    lsDone { wsS .declared [] with writes := [ww] } 1 = false ∧
    (∀ ds ∈ [[], [Deferred.dec 0x30000]], let s := wsT (fun _ => applyTeam ds)
      s.team? 1 = some (applyTeam ds) ∧ (applyTeam ds).run = .parked .apply ∧
      (match commitSets s (applyTeam ds) with
        | .ok s1 => !pushing s1 1 && decide (((s1.team? 1).bind (fun t => t.task)).map (fun k => k.deferred) = some ds) &&
          (s1.team? 1).any (fun t => (usesAbsent s1 t).isNone)
        | .error _ => false) = true) ∧
    Issues 0x53 4 xm wsM memTeam ∧ canonical 0x30000 = true ∧ 0x30000 % 64 = 0 ∧
    (match counterAt wsM memTeam 0x30000 with
      | .key k => k = 0x30000
      | _ => false) = true ∧ memTeam.defers = false ∧ (setTeam .declared).defers = true ∧
    { wsM with flights := [dcFlight] }.flight? 7 = some dcFlight ∧ dcFlight.waits = [] ∧
    writesOn wsM 0 1 ((List.range 64).map (fun i => 0x30000 + i)) true = [] ∧
    Issues 0x53 2 { z with a := imm 9, b := sreg 8, c := sreg 12 } (wsQ (wqu 0) qwTeam) qwTeam ∧
    (qwTeam.sval 14).toNat = 16 ∧ scratchOk (ws.core 0) 0 1 0 16 = true ∧ scratchHeld (ws.core 0) 0 1 0 16 = false ∧
    canonical 0x34000 = true ∧ canonical ((0x34000 + 15) % 2 ^ 64) = true ∧ qwTeam.declares 0x34000 16 = false ∧
    { ws with flights := [qwFlight] }.flight? 7 = some qwFlight ∧
    payloadBehind { ws with flights := [qwFlight] } wt 0x34000 16 = false ∧ outstanding (wsQ (wqu 0) qwTeam) 1 < outstandingCap ∧
    ((payload 0 1 0x34000 16 (payloadByte 0 qwFlight) 4 ws 0).2.2).isNone ∧ 0 < 4096 ∧ 4096 ≤ 4096 := by and_intros <;> decide

/-- A request of the team for the lease, and a holder. -/
def wlr : LeaseReq := { key := 2, team := 1, prio := 0, count := 8, last := 8, passed := 0, isMlease := true }
/-- The device with a lease held by a key and a queue. -/
def wsLe (h : Option Nat) (q : List LeaseReq) (clk : Word64) : State :=
  { wsC (fun c => { c with lease := { holder := h, count := 5, last := 8, since := 0, queue := q, lost := [] } }) with clk := clk }
/-- A leaf of a hinge pair. -/
def leafTeam : Team := { wt with leaf := 0 }

theorem witness_LeasesAndPintlePass :
    (∀ n ∈ [0, 1, 3], Issues 0x50 n { z with a := imm 1 } ws wt) ∧ Issues 0x50 0 { z with a := imm 0 } ws wt ∧
    (srcScalar ws wt z (imm 1)).toNat = 1 ∧ (srcScalar ws wt z (imm 0)).toNat = 0 ∧ wt.core < ws.cores.length ∧ wt.leaf = 2 ∧
    (∀ n ∈ [2, 3], Issues 0x50 n z (wsT (fun _ => leafTeam)) leafTeam ∧ Issues 0x50 n z (wsT (fun _ => { leafTeam with leaf := 1 })) { leafTeam with leaf := 1 }) ∧
    pintleOf (wsT (fun _ => leafTeam)) leafTeam = leafTeam.leaf ∧ leafTeam.leaf ≠ 2 ∧ storesOpen ws 1 = false ∧
    pintleOf (wsT (fun _ => { leafTeam with leaf := 1 })) { leafTeam with leaf := 1 } ≠ 1 ∧
    ((wsLe none [wlr] 0).core 0).lease.holder = none ∧ ((wsLe none [wlr] 0).core 0).lease.queue = [wlr] ∧
    ((wsLe (some 4) [wlr] 4096).core 0).lease.holder = some 4 ∧
    ((wsLe (some 4) [wlr] 4096).core 0).lease.since + 4096 ≤ (wsLe (some 4) [wlr] 4096).clk.toNat ∧
    (wsLe (some 4) [wlr] 4095).clk.toNat < ((wsLe (some 4) [wlr] 4095).core 0).lease.since + 4096 ∧
    { wt with run := .parked .lease, aux := [0x10004] }.aux = [0x10004] ∧ wlr.isMlease = true ∧ leaseKey wt = wlr.key ∧
    { wt with run := .parked .lease, aux := [] }.aux = [] ∧
    { wt with run := .parked .pnwait, aux := [0x10004] }.aux = [0x10004] := by and_intros <;> decide

/-- Two reservations of 8 KB of i8: rows and columns. -/
def wr (n lay : Nat) : Reserve :=
  { num := n, own := 0, lay := lay, bl := 0, ty := Ty.i8.code, doff := 0, size := 64, base := 64 * n, ctx := 1, hdr := hdrOf ws wt }
/-- The device with both, and the team holding the lease. -/
def wsR (lay : Nat) : State := wsC (fun c => { c with
  obres := [wr 0 0, wr 1 lay], lease := { c.lease with holder := some (leaseKey wt), count := 3 } })
/-- An operation that the engine has accepted. -/
def wmm : Mma := { team := 1, tile := 0, x := wr 0 0, y := wr 1 1, ea := 0, eb := 0, sparse := false }

theorem witness_ReservationsFeedTheEngine :
    Issues 0x50 4 { z with a := imm 0, b := sreg 6, ty := .i8 } (wsT (fun t => { t with s := t.s.set 6 { val := 256, full := true } }))
      { wt with s := wt.s.set 6 { val := 256, full := true } } ∧
    ws.rcd? 0 0 = none ∧ ((wsR 1).rcd? 0 0).isSome ∧ 0 + 256 ≤ 256 * (ws.bind wt).osize ∧ Ext.f z 3 2 = 0 ∧ (ws.core 0).obres = [] ∧
    (∀ n ∈ [4, 5], Issues 0x50 n { z with ty := .i8 } (wsR 1) wt) ∧ Issues 0x50 6 { z with a := vreg 4, b := imm 8 } (wsR 1) wt ∧
    (match rcdCheck (wsR 1) wt 0 with
      | .ok r => r = wr 0 0
      | .error _ => false) = true ∧
    engineReads (wsR 1) 0 0 (256 * 64) = false ∧ copyWrites (wsR 1) 0 0 = false ∧ 8 % 4 = 0 ∧
    (∀ l ∈ lanesOf (activeLanes wt z), 8 + 4 * (1 + l) ≤ 256 * 64) ∧ (∀ top ∈ [0, 8, 100], engineReads (wsR 1) 0 8 top = false) ∧
    Issues 0x51 0 { z with x24 := 0x10, ty := .b32 } (wsR 1) wt ∧ Issues 0x51 1 { z with x24 := 0x10, ty := .b32 } (wsR 2) wt ∧
    Ext.f { z with x24 := 0x10 } 3 0 = 0 ∧ Ext.f { z with x24 := 0x10 } 7 4 = 1 ∧ pairK (wr 0 0).elem (wr 1 1).elem = some 128 ∧
    (wr 0 0).exceeds 128 = false ∧ (wr 1 1).exceeds 128 = false ∧
    (∀ g < 128, ((List.range 64).filter (fun i => (groupMap ((wsR 2).core 0).obuf (256 * 64 + g * groupBytes 8)).testBit i)).length ≤ 32) ∧
    ((wsR 1).core 0).lease.holder = some (leaseKey wt) ∧ ((wsR 1).core 0).lease.count ≠ 0 ∧
    ((wsC (fun c => { c with engine := [wmm] })).core 0).engine = [wmm] ∧ pairK wmm.x.elem wmm.y.elem = some 128 ∧ 63 < 64 := by
  and_intros <;> decide

/-- A tile instruction in flight. -/
def tileFlight (i : Instr) : Flight :=
  { cpyFlight with instr := i, lanes := [{ lane := 0, addr := 0x30000, data := 0, st := .ready [] }], dvec := true, dst := 4, aux := [0, 0, 0, 5, 0] }

theorem witness_TilesAreClearedReadAndStored :
    (∀ n ∈ [2, 8], Issues 0x51 n { z with a := imm 3 } ws wt ∧ Issues 0x51 n { z with a := sreg 6 } (wsT (fun t => { t with s := t.s.set 6 { val := 256, full := true } }))
      { wt with s := wt.s.set 6 { val := 256, full := true } }) ∧ tileBusy ws wt 0 = false ∧
    (-256 : Int) ≤ (srcScalar ws wt z (imm 3)).toInt ∧ (srcScalar ws wt z (imm 3)).toInt ≤ 255 ∧ (255 : Int) < (256 : Word64).toInt ∧
    (∀ n ∈ [3, 4, 7], Issues 0x51 n { z with b := imm 5, c := vreg 4, ty := .f32 } ws wt) ∧
    tileSpan ws wt { z with b := imm 5 } 1 ≠ [] ∧ tileSpan ws wt { z with b := imm 5, neg := true } 1 = [] ∧
    (activeLanes wt z).any id = true ∧ (activeLanes wt { z with neg := true }).any id = false ∧ (∀ f ∈ ws.flights, f.id < ws.nextId) ∧
    { ws with flights := [tileFlight (.resolve z)] }.flight? 7 = some (tileFlight (.resolve z)) ∧ enabled wt.status 31 = 0 ∧
    (∀ n ∈ [5, 6], Issues 0x51 n xm wsM memTeam) ∧ canonical 0x30000 = true ∧ 0x30000 % 64 = 0 ∧
    memTeam.declares 0x30000 imageSize = false ∧ anchorOk (ws.tile 0 0).anc = true ∧
    (∀ i ∈ [Instr.acst xm, .acld xm], { wsM with flights := [tileFlight i] }.flight? 7 = some (tileFlight i) ∧
      imageBehind { wsM with flights := [tileFlight i] } (tileFlight i) = false) := by and_intros <;> decide

/-- A form on register 0 under ?pT with small operands. -/
def z4 (n : Nat) : Ext := { z with a := imm 0, x24 := BitVec.ofNat 24 n }
/-- Writes numbers into a memory: (address, bytes, value). -/
def pokes (m : Memory) (ws : List (Nat × Nat × Nat)) : Memory := ws.foldl (fun m w => m.setNum w.1 w.2.1 w.2.2) m
/-- A device with these numbers in memory. -/
def wsP (ws : List (Nat × Nat × Nat)) : State := { Tests.ws with mem := pokes wm ws }
/-- Whether a result is a value. -/
def okd {α β : Type} : Except α β → Bool
  | .ok _ => true
  | .error _ => false

/-- Chain 0: two valid slots of fields of 4 × 4 cells at 0x26000, the field of slot 0 with one entry at cell (0, 0), and
surface 0, which is the plane of slot 1. -/
def chainMem : List (Nat × Nat × Nat) :=
  [(0x22000, 1, 1), (0x22010, 4, 0x50002), (0x22014, 4, 1), (0x22018, 8, 0x26000), (0x22000 + 144, 4, 2 ^ 23),
   (0x26000, 8, 4 + 2 ^ 13 * 4), (0x26040, 8, 2 ^ 48 + 2 ^ 39), (0x26100, 8, 4 + 2 ^ 13 * 4),
   (0x24000, 4, 0x00000303), (0x24010, 8, 0x1000040004), (0x24018, 8, 0x25000)]
/-- The snapshot of it. -/
def wsnap : List Nat := match takeSnap false wt.agent (wsP chainMem) 0x22000 with
  | .ok l => l
  | .error _ => []
/-- A lane of `hld` or `hwalk` on its way, to slot n. -/
def walkFlight (i : Instr) (n : Nat) (st : LaneSt) : Flight :=
  { cpyFlight with instr := i, dvec := true, dst := 4, dnum := 3, snap := wsnap, aux := [0, 0], lanes := [{ lane := 0, addr := 0, data := BitVec.ofNat 64 n, st := st }] }

/-- What the lane of `hwalk` walks with. -/
def wk1 : Walker := walkerOf wt (walkFlight (.hwalk (z4 0)) 1 .todo) (z4 0) { lane := 0, addr := 0, data := 1, st := .todo }

theorem witness_WalksFollowTheFields :
    (∀ n ∈ [0, 1], Issues 0x54 n { z4 0 with b := vreg 4, c := vreg 6 } (wsP chainMem) wt) ∧
    (activeLanes wt (z4 0)).any id = true ∧ (srcScalar ws wt (z4 0) (imm 0)).toNat < 256 ∧
    okd (takeSnap false wt.agent (wsP chainMem) 0x22000) = true ∧ outstanding ws 1 < outstandingCap ∧ chainBusy (wsP chainMem) 1 0 0 = false ∧
    chainOk (snapChain wsnap) = true ∧
    wk1.depth = 1 ∧ wk1.sh = false ∧
    (match snapHdr wt.agent (wsP chainMem) wsnap 0, wk1.hdr (wsP chainMem) 0 with
      | .ok g, .ok h => g = h && !FHdr.isSealed h && !FHdr.bad h (cStride (snapChain wsnap)) && cellOf h 0 0 = some (0, 0) && FHdr.gen h = 0 &&
        (match wk1.entry (wsP chainMem) 0 h 0 0x26040 with
          | .ok e => e.testBit 48 && bitsN e 47 40 = 0
          | .error _ => false)
      | _, _ => false) = true ∧ ((wsP chainMem).core 0).fields = [] ∧
    (∀ st ∈ [LaneSt.todo, .waitW], let f := walkFlight (.hwalk (z4 0)) 1 st
      { wsP chainMem with flights := [f] }.flight? 7 = some f ∧
      pathBehind { wsP chainMem with flights := [f] } f isField isMfst = false) ∧
    (∀ n < 3, 0 < (wt.vreg (4 + n)).lanes.length) ∧
    (match wk1.walk (wsP chainMem) wt false 0 0 [] with
      | .ok (.ok w, .ok g sc) => w.steps = 1 && w.conf = 128 && g.width = 4 && sc = 0 &&
        okd (sampleAt wt.agent (fieldFill wk1 (wsP chainMem) w.seen) g 0 false clampIdx w.x w.y)
      | _ => false) = true ∧
    (match wk1.walk (wsP chainMem) wt true 0 0x7FC00000 [] with
      | .ok (.code c _, .none) => c = 2
      | _ => false) = true := by and_intros <;> decide

/-- A change of chain 0 on its way. -/
def chainFlight (i : Instr) (aux : List Nat) : Flight :=
  { cpyFlight with instr := i, aux := aux, lanes := [{ lane := 0, addr := 0, data := 0, st := .todo }] }

theorem witness_ChainsAreWrittenSealedAndAdvanced :
    Issues 0x54 2 { z4 0 with b := vreg 4, c := vreg 6 } (wsP chainMem) wt ∧
    (∀ n ∈ [3, 4, 5, 6, 7], Issues 0x54 n { z4 0 with d := 9 } (wsP chainMem) wt) ∧ wt.go 23 false = true ∧
    Issues 0x54 3 { z4 0 with a := sreg 6 } (wsT (fun t => { t with s := t.s.set 6 { val := 256, full := true } }))
      { wt with s := wt.s.set 6 { val := 256, full := true } } ∧
    (match wt.agent.bytes (wsP chainMem) 0x22000 256 with
      | .ok d => chainOk d && cNslot d = 2 && cState d (cPhys d 0) = 1 && (numAt d 0 1).testBit 1 = false &&
        okd (sealField wt.agent (wsP chainMem) d 0) && okd (sealAll wt.agent (wsP chainMem) d) &&
        okd (advance wt.agent (wsP chainMem) 0x22000 d) &&
        okd (wt.agent.wr (wsP chainMem) 0x22012 2 (withState (numAt d 18 2) 0 0)) &&
        okd (cutRecs wt.agent (wsP chainMem) 0x22000 d (fun r => cLog d (r % 8) = 0) [0, 1, 2, 3])
      | .error _ => false) = true ∧
    (match wt.agent.bytes (wsP []) 0x22000 256 with
      | .ok d => chainOk d
      | .error _ => true) = false ∧
    (match wt.agent.bytes (wsP (chainMem ++ [(0x22000, 1, 3)])) 0x22000 256 with
      | .ok d => chainOk d && (numAt d 0 1).testBit 1 && okd (wt.agent.wr (wsP chainMem) 0x22000 1 1)
      | .error _ => false) = true ∧
    (∀ i ∈ [Instr.mfst (z4 0), .mfseal (z4 0), .chadv (z4 0)], let f := chainFlight i [0, 0, 0]
      let s : State := { wsP chainMem with flights := [f] }
      s.flight? 7 = some f ∧ s.team? 1 = some wt ∧ pathBehind s f isField isMfst = false ∧ chainBusy s 1 0 0 = false ∧ chainBusy s 1 0 7 = false ∧ walksOn s 1 0 s.nextId = false) ∧
    walksOn { wsP chainMem with flights := [walkFlight (.hwalk (z4 0)) 1 .todo] } 1 0 8 = true ∧
    (match wt.agent.rd (wsP chainMem) 0x26000 64 with
      | .ok h => !FHdr.bad h 256 && !FHdr.isSealed h && 0 < FHdr.gw h && 0 < FHdr.gh h
      | .error _ => false) = true ∧ meetsRanges 0x26040 8 [] = false ∧ okd (wt.agent.wr (wsP chainMem) 0x26040 8 5) = true ∧
    (∀ p ∈ [chainMem, chainMem ++ [(0x22012, 2, 0x15), (0x22010, 1, 3), (0x26200, 8, 4 + 2 ^ 13 * 4)]],
      okd (shortStart wt.agent (wsP p) 0x22000 (z4 0)) = true) ∧
    okd (shortEnd wt.agent (wsP chainMem) 0x22000 (z4 8) [0, 1, 0, 1]) = true := by and_intros <;> decide +kernel

/-- Map 0 with one sequence of 128 positions: entry 0 mapped to block 1, 1 absent, 2 evicted, 3 pending. -/
def mapMem : List (Nat × Nat × Nat) :=
  [(0x23000, 1, 1), (0x23014, 4, 1), (0x23018, 8, 0x27000), (0x23020, 8, 0x30000), (0x23028, 8, 0x28000), (0x23030, 4, 16),
   (0x23034, 4, 4), (0x23040, 8, 0x29000), (0x23050, 4, 4), (0x23058, 8, 0x2A000), (0x27000, 8, 0x2B000), (0x27008, 4, 128),
   (0x2700C, 4, 0x01000004), (0x2B000, 4, 0x01000001), (0x2B008, 4, 0x02000002), (0x2B00C, 4, 0x03000003), (0x28018, 2, 1)]
/-- The map. -/
def wmap : KMap := match readMap wt.agent (wsP mapMem) 0x23000 0 with
  | .ok (.ok k) => k
  | _ => { desc := 0, num := 0, bstk := 0, bcap := 0, cxlb := 0, fstk := 0, lowat := 0, nblk := 0, slotb := 0, ptab := 0,
           pool := 0, stab := 0, nseq := 0 }
/-- A `kvx` of position p on its way, by a team that uses block 1. -/
def kvxFlight (n p : Nat) (st : LaneSt) : Flight :=
  { cpyFlight with instr := .kvx (z4 0), dvec := true, dst := 4, dnum := 3, aux := [0, 0, 0], lanes := [{ lane := 0, addr := BitVec.ofNat 64 (n + 2 ^ 32 * p), data := 0, st := st }] }
/-- The state and number of the entry of position p. -/
def blkAt (p : Nat) : Option (BlkSt × Nat) :=
  match readSeq wt.agent (wsP mapMem) wmap 0 with
  | .ok e => if e.valid && !e.cut && p < e.len && p / 32 < e.cap then
      (match readBlk wt.agent (wsP mapMem) e (p / 32) with
        | .ok b => if b.bad then none else some (b.st, b.num)
        | .error _ => none)
    else none
  | .error _ => none

theorem witness_SequenceMapsAnswerAndChange :
    (∀ n ∈ [0, 1, 3, 4, 5], Issues 0x55 n { z4 0 with b := vreg 4, c := vreg 5 } (wsP mapMem) wt ∨
      Issues 0x55 n { z4 0 with b := imm 0, c := imm 1 } (wsP mapMem) wt) ∧
    Issues 0x55 2 { z4 0 with b := sreg 4 } (wsP mapMem) wt ∧ wt.go 23 false = true ∧ wt.seqb.toNat = 0x23000 ∧
    readMap wt.agent (wsP mapMem) 0x23000 0 = .ok (.ok wmap) ∧ wmap.nseq = 1 ∧
    readMap wt.agent (wsP []) 0x23000 0 = .ok (.bad 0x0A01) ∧ readMap wt.agent (wsP mapMem) 0x23000 64 = .ok (.bad 0x0A01) ∧
    [0, 31, 32, 95, 96, 127, 128].map blkAt =
      [some (.mapped, 1), some (.mapped, 1), some (.absent, 0), some (.evicted, 2), some (.pending, 3), some (.pending, 3), none] ∧
    (∀ p ∈ [(0, 0, LaneSt.todo), (0, 128, .todo), (1, 0, .waitW)], let f := kvxFlight p.1 p.2.1 p.2.2
      { wsP mapMem with flights := [f] }.flight? 7 = some f) ∧ (∀ n < 3, 0 < (wt.vreg (4 + n)).lanes.length) ∧
    (wmap.num, 1) ∈ { wt with uses := [(0, 1)] }.uses ∧
    okd (wt.agent.wr (wsP mapMem) (wmap.ptab + 16) 8 9) = true ∧ (z4 0).f 7 7 = 0 ∧
    (match unpinAt 1 0 wt.agent (wsP mapMem) wmap with
      | .ok (_, .error v) => v = 3
      | _ => false) = true ∧
    (match unpinAt 0 0 wt.agent (wsP mapMem) wmap with
      | .ok (s, .ok b) => b.num = 1 && okd (dropPin wt.agent s wmap 1) && okd (dropUse wt.agent s 0x23000 0 1)
      | _ => false) = true ∧ (wmap.num, 1) ∉ wt.uses ∧
    (match wt.agent.rd (wsP mapMem) (wmap.ptab + 26) 2 with
      | .ok c => c ≠ 65535 && okd (wt.agent.wr (wsP mapMem) (wmap.ptab + 26) 2 (c + 1))
      | .error _ => false) = true ∧
    (∀ op ∈ [kvmapOp 0 0 0, kvmapOp 2 0 0, kvlenOp false 0 4, kvpinOp 0 0, kvshareOp 0 0 1],
      okd (op wt.agent (wsP mapMem) wmap) = true) := by and_intros <;> decide +kernel

/-- A move of the hub: kind 0 fills a block, 1 copies one, 2 evicts one. -/
def wmv (kind : Nat) : KvMove :=
  { id := 5, kind := kind, ctx := 1, map := 0, seq := 0, entry := 0, block := 1, slot := 0, bytes := 16, srcBlock := 2 }
/-- The map with a place for evicted blocks, and the device with a move of the hub. -/
def wsMv (kind : Nat) : State :=
  let s := wsP (mapMem ++ [(0x23048, 8, 0x31000), (0x2B000, 4, if kind = 2 then 0x01000001 else 0x03000001), (0x28018, 2, if kind = 2 then 1 else 0)])
  s.onHub (fun h => { h with moves := [wmv kind] })
/-- A victim. -/
def wv (c : Bool) : Victim := { ctx := 1, map := 0, seq := 0, idx := 0, confirmed := c }
/-- The device with one, and a detent. -/
def wsV (detent : Nat) (c : Bool) : State := ws.onHub (fun h => { h with victims := [wv c], detent := detent })

theorem witness_TheHubMovesAndEvictsBlocks :
    (∀ kind ∈ [0, 1, 2], let s := wsMv kind
      (s.hub.moves.find? (fun v => v.id = 5) = some (wmv kind)) ∧
      (match readMap (hubAgent 1) s (seqbOf s 1) 0 with
        | .ok (.ok k) => (match moveCopy s k (wmv kind) with
          | .ok s1 => okd (moveDone s1 k (wmv kind))
          | .error _ => false) && okd ((hubAgent 1).bytes s (k.slotAt 0) 16) && okd ((hubAgent 1).bytes s (k.blockAt 1) 16) &&
          okd ((hubAgent 1).bytes s (k.blockAt 2) 16) && okd ((hubAgent 1).put s (k.slotAt 0) (leBytes 16 0)) &&
          okd ((hubAgent 1).put s (k.blockAt 1) (leBytes 16 0))
        | _ => false) = true) ∧
    (wsV 0 false).hub.victims ≠ [] ∧ (wsV 0 false).hub.updating.contains 4 = false ∧
    ((wsV 0 false).onHub (fun h => { h with updating := [4] })).hub.updating.contains 4 = true ∧ (wsV 1 false).clk.toNat < (wsV 1 false).hub.detent ∧
    (wsV 0 false).hub.detent ≤ (wsV 0 false).clk.toNat ∧ ws.hub.victims = [] ∧ ws.hub.victims[0]? = none ∧
    (wsV 0 true).hub.victims[0]? = some (wv true) ∧ (wsV 0 false).hub.victims[0]? = some (wv false) ∧
    ([0].length = (wsV 0 false).hub.victims.length ∧ ∀ i < (wsV 0 false).hub.victims.length, i ∈ [0]) ∧
    ([] : List Nat).length ≠ (wsV 0 false).hub.victims.length := by and_intros <;> decide +kernel

/-- A surface access on its way: (x, y) = (1, 2), or outside the surface. -/
def surfFlight (i : Instr) (inside : Bool) : Flight :=
  { cpyFlight with instr := i, dvec := true, dst := 4, aux := [0], lanes := [{ lane := 0, addr := 0, data := if inside then 2 ^ 33 + 1 else 2 ^ 63, st := .todo }] }
/-- Surface 0. -/
def wsurf : Surf := { wr := true, fmt := 3, layout := 0, width := 4, height := 4, pitch := 16, base := 0x25000, side := 0 }

/-- The sampler on surface 0 for the team. -/
def wa : Agent := { wt.agent with surf := some 0 }

theorem witness_SurfacesAreReadWrittenAndSampled :
    (∀ n ∈ [0, 1, 2], Issues 0x56 n { z4 0 with b := vreg 4, c := if n = 1 then vreg 6 else Src.none } (wsP chainMem) wt) ∧
    (activeLanes wt (z4 0)).any id = true ∧ outstanding (wsP chainMem) 1 < outstandingCap ∧
    readSurf wt.agent (wsP chainMem) 0x24000 0 = .ok (.ok wsurf) ∧ readSurf wa (wsP chainMem) 0x24000 0 = .ok (.ok wsurf) ∧
    readSurf wt.agent (wsP (chainMem ++ [(0x24000, 4, 0x00000301)])) 0x24000 0 = .ok (.ok { wsurf with wr := false }) ∧
    (∀ l ∈ lanesOf (activeLanes wt (z4 0)), ∀ a ∈ sstTargets wsurf (z4 0) [lanePair wt 4 l], wt.declares a.1 a.2 = false) ∧
    sstTargets wsurf (z4 0) [lanePair wt 4 0] ≠ [] ∧
    (∀ p ∈ [(Instr.sld (z4 0), true), (.samp (z4 0), true), (.sst (z4 0), true), (.sst (z4 0), false)],
      let f := surfFlight p.1 p.2
      let s : State := { wsP chainMem with flights := [f] }
      s.flight? 7 = some f ∧ s.team? 1 = some wt ∧ pathBehind s f isSurf isSst = false ∧ s.writes = [] ∧
      (∀ aux ∈ [[0], 0 :: wsurf.list], ∀ r ∈ f.lanes, flightSurf wa s wt { f with aux := aux } r = .ok (.ok wsurf)) ∧
      0 < (wt.vreg 4).lanes.length) ∧
    (match sldVals wa (wsP chainMem) wsurf true 1 2 [0] with
      | .ok (.inl vs) => vs = [0]
      | _ => false) = true ∧
    (match sampVals wa (wsP chainMem) wsurf (z4 0) 0 [0] with
      | .ok (.inl vs) => vs.length = 1
      | _ => false) = true ∧
    (pairX (2 ^ 33 + 1), pairY (2 ^ 33 + 1)) = (1, 2) ∧ pairY (2 ^ 63) < 0 ∧
    okd (sstWrites wt (surfFlight (.sst (z4 0)) true) wsurf (z4 0) { lane := 0, addr := 0, data := 2 ^ 33 + 1, st := .todo } [0]
      (wsP chainMem)) = true ∧
    (∀ n < 4, Issues 0x56 3 { z4 n with d := 9 } (wsP chainMem) wt ∧ (z4 n).f 1 0 = n) ∧ wt.go 23 false = true ∧
    (wsT (fun t => { t with s := t.s.set 6 { val := 2 ^ 20, full := true } })).teams.map (fun t => (t.sval 6).toNat) = [2 ^ 20] := by
  and_intros <;> decide +kernel

/-- A view of one pixel on surface 0 with its bin area, and the descriptor of it at 0x2C000. -/
def wview : View :=
  { vx := 0, vy := 0, vw := 1, vh := 1, clear := 0, opq := 0, fragq := 9, binb := 0x38000, binsz := 256, at_ := 0x2C000, surf := wsurf }
/-- The memory with it. -/
def viewMem : List (Nat × Nat × Nat) :=
  chainMem ++ [(0x2C000, 1, 1), (0x2C000 + 44, 4, 0x10001), (0x2C000 + 50, 2, 9), (0x2C000 + 52, 4, 256), (0x2C000 + 64, 8, 0x38000)]
/-- Pass 2 of the team. -/
def wpass : Pass := Pass.fresh 0 2 1 1 wview
/-- A fragment entry. -/
def wfrag (pushed answered : Bool) : Frag := { block := 0, seq := 0, id := 5, cover := 1, pushed := pushed, answered := answered }
/-- The device with a queue and that pass. -/
def wsPass (p : Pass) : State := { wsP viewMem with queues := [wqu 0], passes := [p] }
/-- A rectangle over the pixel, and one whose box is empty. -/
def wrect (w : Word) : List Word := [0, 0, w, w, 0, 5]
/-- The team with an entry of attempt 0 in s6 to s8. -/
def fragTeam : Team :=
  { wt with s := (wt.s.set 6 { val := 0x00020F00, full := true }).set 8 { val := 0, full := true } }

theorem witness_PassesAreBinnedTiledAndCommitted :
    (∀ ps ∈ [[], (List.range 16).map (fun i => { wpass with id := i })],
      Issues 0x57 0 { z4 0 with a := sreg 6, d := 9 } { wsPass wpass with passes := ps, teams := [{ wt with s := wt.s.set 6 { val := 0x2C000, full := true } }] }
        { wt with s := wt.s.set 6 { val := 0x2C000, full := true } }) ∧ 0x2C000 % 128 = 0 ∧
    (match readView wt.agent (wsPass wpass) 0x24000 0x2C000 with
      | .ok (some v) => v = wview
      | _ => false) = true ∧
    (match readView wt.agent (wsP []) 0x24000 0x2C000 with
      | .ok none => true
      | _ => false) = true ∧
    (∀ n ∈ [1, 2, 3], Issues 0x57 n { z4 0 with a := imm 2, b := vreg 4 } (wsPass wpass) wt) ∧
    (wsPass wpass).pass? 0 2 = some wpass ∧ wpass.ctx = wt.ctx ∧ wpass.isOpen = true ∧
    (let c := ctxAt (.primr (z4 0)) 0x57 1 12 { z4 0 with a := imm 2, b := vreg 4 } wt
     (emitLanes c 0 6 [0, 1] wpass []).1.nextSeq + (emitLanes c 0 6 [0, 1] wpass []).1.counts.getD 1 0 = 2) ∧
    (let q : Prim := { seq := 0, form := 0, words := wrect 0x3F800000, tiles := [] }
     q.culled wpass.view = false ∧ q.touches wpass.view = [0] ∧ wpass.binUsed + 72 ≤ wpass.view.binsz ∧
     wpass.view.binsz < { wpass with binUsed := 200 }.binUsed + 72) ∧
    ({ seq := 0, form := 0, words := wrect 0, tiles := [] } : Prim).culled wpass.view = true ∧
    Issues 0x57 4 { z4 0 with a := imm 2 } (wsPass wpass) wt ∧ (srcScalar ws wt (z4 0) (imm 2)).toNat < 16 ∧
    (∀ p ∈ [wpass, { wpass with active := true, frags := [wfrag true false] }, { wpass with active := true, frags := [wfrag true true] }],
      Issues 0x57 5 { z4 0 with a := sreg 6, b := vreg 4, d := 9 } { wsPass p with teams := [fragTeam] } fragTeam) ∧
    (fragTeam.sval 6).toNat % 2 ^ 16 = 0x0F00 ∧ bitsN (fragTeam.sval 6).toNat 19 16 = 2 ∧ wpass.attempt % 4 = 0 ∧ wpass.active = false ∧
    (∀ n < 8, Issues 0x57 6 { z4 n with a := imm 2, d := 9 } (wsPass wpass) wt) ∧
    (let p := { wpass with isOpen := false, closing := true }
     (wsPass p).pass? 0 2 = some p ∧ (∀ q ∈ (wsPass p).passes, q.die = 0 → q.active = false) ∧
     (∀ c, (wsPass p).ctx? 1 = some c → c.isIn = true)) ∧
    (∀ f ∈ [wfrag false false, wfrag true true], let p := { wpass with closing := true, active := true, frags := [f] }
      (wsPass p).pass? 0 2 = some p) ∧ [wfrag false false].find? (fun f => !f.pushed) = some (wfrag false false) ∧
    (∀ t ∈ [0, 1], let p := { wpass with closing := true, active := t = 0, tile := t }
      (wsPass p).pass? 0 2 = some p ∧ declaredAt (wsPass p) p (resolveOf (wsPass p).stepNo p).1 = none ∧
      absentOf (hubAgent 1) (wsPass p) (resolveOf (wsPass p).stepNo p).1 = none ∧ (resolveOf 0 { wpass with tile := 0 }).1.length = 1 ∧
      absentOf (hubAgent 1) (wsPass p) ((List.range 7).map (fun i => (p.view.at_ + 72 + 8 * i, leBytes 8 (p.counts.getD i 0)))) = none ∧
      (p.tile < p.view.tiles ↔ t = 0)) := by
  and_intros <;> decide +kernel

/-- Whether a step answers a next state. -/
def okNext : Out → Bool
  | .next _ => true
  | _ => false

/-- A launch of the context with one team, whose header is at 0x2D000. -/
def wlaunch (phase : LaunchPhase) (hdr : Option Header) : Launch :=
  { id := 0, ctx := 1, die := 0, hdrA := 0x2D000, args := 0x2E000, done := 0x2F000, teams := 1, follow := false, hdr := hdr, phase := phase,
    status := 0, sent := false }
/-- A header for one team of width 32 with 24 vector registers and one argument; and one with a width of 33. -/
def hdrMem (w : Nat) : List (Nat × Nat × Nat) :=
  [(0x2D000, 2, w), (0x2D00A, 1, 23), (0x2D00E, 2, 0x1FF), (0x2D01C, 8, 2 ^ 64 - 1), (0x2D028, 8, 0x40000000), (0x42008, 8, 0x4000000B)]
/-- That header. -/
def whdr : Header :=
  { width := 32, wid := [0, 0, 0, 0, 0], role := 0, clev := 0, dlev := 0, leaf := false, vregs := 24, acc := 0, lat := 0, prio := 0,
    qarg := none, nargs := 1, scratch := 0, obuf := 0, undo := 0, keep := none, inh := none, entry := 0x40000000 }
/-- The device with such a launch. -/
def wsLa (w : Nat) (l : Launch) (ts : List Team) : State := { wsP (hdrMem w) with launches := [l], teams := ts }
/-- A launch queue. -/
def wlq : Queue := { wqu 0 with num := 8, isLaunch := true }

theorem witness_LaunchesAreCheckedPlacedAndEnded :
    { ws with queues := [wlq] }.queue? 8 = some wlq ∧ ws.ctx? 1 = some wc ∧ ws.hub.updating.contains 0 = false ∧
    ws.launches = [] ∧ bitsN 0x100000001 15 0 = 1 ∧ bitsN 0x100000001 31 16 = 0 ∧ bitsN 2 15 0 ≠ 1 ∧
    (∀ w ∈ [32, 33], (wsLa w (wlaunch .arrived none) []).launch? 0 = some (wlaunch .arrived none)) ∧
    (match headerOf (wsLa 32 (wlaunch .arrived none) []) (wlaunch .arrived none) with
      | .ok (.ok h) => h = whdr
      | _ => false) = true ∧
    (match headerOf (wsLa 33 (wlaunch .arrived none) []) (wlaunch .arrived none) with
      | .ok (.error o) => o = 0
      | _ => false) = true ∧
    (∀ p ∈ [(1, 0), (0, 1)], (match launchCheck (wsLa 32 (wlaunch .arrived none) []) { wlaunch .arrived none with teams := p.1 } whdr with
      | .ok c => decide (c = p.2)
      | .error _ => false) = true) ∧
    firstUnbound (wsLa 32 (wlaunch .checked (some whdr)) [wt]) (wlaunch .checked (some whdr)) = none ∧
    firstUnbound (wsLa 32 (wlaunch .checked (some whdr)) []) (wlaunch .checked (some whdr)) = some 0 ∧
    (placeGroup (wsLa 32 (wlaunch .checked (some whdr)) []) (wlaunch .checked (some whdr)) whdr wc [0] [0]).isSome ∧
    (placeGroup (wsLa 32 (wlaunch .checked none) []) (wlaunch .checked none) { whdr with lat := 33 } wc [0] [0]).isNone ∧
    (let s := wsLa 32 (wlaunch .checked (some whdr)) []
     let l := wlaunch .checked (some whdr)
     groupOf s l whdr 0 = [0] ∧ 0 ∈ coresFor s l whdr 0 ∧ ((s.core 0).recs.getD 3 Bind.reset).st = .empty ∧
     (bindPlaces l whdr wc [(0, (0, 3))] s).isSome) ∧
    (let h := { whdr with inh := some (0, 8, 16, 31) }
     let l := { wlaunch .checked (some h) with follow := true }
     firstUnbound (wsLa 32 l []) l = some 0 ∧ boundTeams (wsLa 32 l []) 0 = [] ∧ inheritBad (wsLa 32 l []) l h = true ∧
     argsOf l h = [] ∧ argsOf (wlaunch .checked (some whdr)) whdr = [0]) ∧
    (let t := { wt with run := .ready }
     let s : State := { wsLa 32 (wlaunch .placed (some whdr)) [t] with
       cores := (ws.onCore 0 (fun c => { c with recs := c.recs.modify 0 (fun b => { b with st := .ready, team := 1 }) })).cores }
     s.team? ((s.core 0).recs.getD 0 Bind.reset).team = some t ∧ s.launch? 0 = some (wlaunch .placed (some whdr)) ∧
     ((s.core 0).recs.getD 0 Bind.reset).st = .ready ∧ poolEnding s 0 1 = false ∧ s.hub.updating.contains 0 = false ∧ t.s.length = 128) ∧
    (let t := { wt with s := wt.s.set 16 { val := 0, full := false } }
     (wsLa 32 (wlaunch .placed (some whdr)) [t]).team? 1 = some t ∧ t.sfull 16 = false ∧
     okd (t.agent.rd (wsLa 32 (wlaunch .placed (some whdr)) [t]) 0x2E000 8) = true) ∧
    Issues 0x40 8 z ws wt ∧ wt.task = none ∧ usesAbsent ws wt = none ∧
    (∀ ws' ∈ [[], [ww]], let t := { wt with run := .parked .texit }
      let s : State := { wsLa 32 (wlaunch .placed (some whdr)) [t] with writes := ws' }
      s.team? 1 = some t ∧ t.pending = [] ∧ exitReady s t = ws'.isEmpty ∧ endAbsent s t none = none) ∧
    (∀ d ∈ [0, 0x2F000], let l := { wlaunch .ended (some whdr) with done := BitVec.ofNat 64 d }
      (wsLa 32 l []).launch? 0 = some l ∧ (∀ t ∈ (wsLa 32 l []).teams, t.launch ≠ 0) ∧ passesOpen (wsLa 32 l []) 0 = false ∧
      okd (writeVA (wsLa 32 l []) 256 1 0x2F000 (leBytes 8 0)) = true) ∧
    (∀ pc ∈ [0x10000, 0x80000000], let t := { wt with pc := BitVec.ofNat 64 pc }
      let s := wsT (fun _ => t)
      s.team? 1 = some t ∧ (match fetch (tlbFill (tlbFill s 0 1 pc) 0 1 (pc + 16)) t with
        | .words _ => pc = 0x10000
        | .fault va => va = 0x80000000
        | _ => false) = true ∧ Ev.instructionFetch 1 ∉ s.declined ∧
      faultsFull (tlbFill (tlbFill s 0 1 pc) 0 1 (pc + 16)) 0 = false) := by and_intros <;> decide +kernel

/-- A team that is to be saved, with its record. -/
def saveTeam (run : RunState) : Team := { wt with run := run, image := 0x60000, rec0 := { placeBind with team := 1, st := .saved } }
/-- A sibling of it. -/
def mateTeam : Team := { wt with uid := 2, place := 1 }
/-- The device with them, and the record of place 0. -/
def wsSv (b : Bind) (t : Team) : State :=
  { ws.onRec 0 0 (fun _ => b) with teams := [t, mateTeam] }

/-- A write goes through where its pages are present and writable. -/
theorem put_okd (a : Agent) (s : State) (va : Nat) (bs : List Byte) (l : List Seg) (h : piecesOf s a.core a.ctx .write va bs.length = .ok l) :
    ∃ cs, a.put s va bs = .ok (s.apply cs) := by simp [Agent.put, writeVA, h]

/-- The team and the device of the first save. -/
def svT : Team := { saveTeam (.saved none) with rec0 := { placeBind with team := 1, accN := 0, ssize := 1 } }
/-- As `svT`. -/
def svS : State := wsSv { placeBind with team := 1, st := .running, accN := 0, ssize := 1 } svT

/-- With the sibling on the core nothing of the core area is written. -/
theorem svS_areas (cs : List (Nat × Byte)) : leaveAreas (svS.apply cs) svT false = .ok (svS.apply cs) := rfl

/-- The image of a team whose sibling keeps its kernel on the core can be written and read. -/
theorem witness_TeamsAreSavedAndRestored_image :
    kernelStays svS svT = true ∧ (∃ s1, svT.agent.put svS svT.image (imageFront svS svT svT.forced ++ imageBack svS svT) = .ok s1) ∧
    (∃ s2, writeImage svS svT = .ok s2) ∧ okd (readImage svS svT) = true := by
  have hl : (imageFront svS svT svT.forced ++ imageBack svS svT).length = 7360 := by
    simp only [imageFront, List.length_append, List.length_map, List.length_range]
    decide +kernel
  obtain ⟨cs, h1⟩ := put_okd svT.agent svS svT.image (imageFront svS svT svT.forced ++ imageBack svS svT) [⟨0x60000, 7360, 0, 0⟩]
    (by rw [hl]; decide +kernel)
  exact ⟨by decide +kernel, ⟨_, h1⟩, by simp [writeImage, h1, svS_areas, bind, Except.bind, pure, Except.pure], by decide +kernel⟩

theorem witness_TeamsAreSavedAndRestored :
    (∀ t ∈ [saveTeam .ready, saveTeam .running, { wt with ydl := 9 }], (wsT (fun _ => t)).team? 1 = some t ∧ ws.ctx? t.ctx = some wc) ∧
    (saveTeam .running).ydl = noDeadline ∧ { wt with ydl := 9 }.ydl ≠ noDeadline ∧ { wt with ydl := 9 }.ydl ≠ 0 ∧
    (let t := { wt with ydl := 0 }
     (wsT (fun _ => t)).team? 1 = some t ∧ t.run ≠ .ready ∧ t.resident = true ∧ t.handler = false) ∧
    (wsT (fun _ => saveTeam (.parked .ysave))).team? 1 = some (saveTeam (.parked .ysave)) ∧
    Issues 0x58 5 z ws wt ∧ wt.go 23 false = true ∧ wt.ydl = noDeadline ∧
    (∀ w ∈ [[], [{ ww with waits := [9] }]], let t := { wt with ydl := 9 }
      let s : State := { wsT (fun _ => t) with writes := w }
      Issues 0x58 5 z s t ∧ quiet s t = w.isEmpty ∧ (captureReady s 1).team? 1 = some t ∧ saveWaits (captureReady s 1) t = !w.isEmpty) ∧
    (let t := saveTeam (.saved none)
     let s := wsSv { placeBind with team := 1, st := .running } t
     s.team? 1 = some t ∧ t.core < s.cores.length ∧ t.place < (s.core t.core).recs.length ∧ (s.bind t).team = t.uid ∧
     (s.bind t).st ≠ .saved ∧ kernelStays s t = true) ∧
    (let t := { saveTeam (.saved none) with savedNo := 5 }
     let s := wsSv { placeBind with team := 1, st := .saved } t
     s.team? ((s.core 0).recs.getD 0 Bind.reset).team = some t ∧ ((s.core 0).recs.getD 0 Bind.reset).st = .saved ∧ t.savedNo ≠ 0 ∧
     s.hub.updating.contains (dieOf 0) = false) ∧
    (let t := { saveTeam (.saved none) with savedNo := 5, v := List.replicate 24 { tag := .uni, full := true, lanes := List.replicate 32 0 }, rec0 := { placeBind with team := 1, ssize := 0, accN := 0, osize := 0, obase := 0 } }
     let s : State := { ws with teams := [t], cores := (ws.onCore 0 (fun c => { c with recs := c.recs.map (fun _ => Bind.reset), latches := [] })).cores }
     s.team? 1 = some t ∧ ((s.core 0).recs.getD 0 Bind.reset).st = .empty ∧ nextRestore s 0 (slotOf 0) = some t ∧ s.hub.updating.contains (dieOf 0) = false) ∧
    (let t := { saveTeam (.saved none) with rec0 := { placeBind with team := 1, accN := 0, ssize := 1 } }
     let s := wsSv { placeBind with team := 1, st := .saved } t
     s.team? 1 = some t ∧ ((s.core 0).recs.getD 0 Bind.reset).st = .saved ∧ ((s.core 0).recs.getD 0 Bind.reset).team = 1 ∧
     t.savedNo = 0 ∧ kernelStays s t = true ∧ isIn s t.ctx = true ∧ poolEnding s 0 1 = false ∧
     okd (t.agent.bytes s (t.image + t.imgAt) (81984 * t.rec0.accN + 256 * t.rec0.ssize)) = true) := by and_intros <;> decide +kernel

/-- The device after its start. -/
def wsH : State := { ws with hub := { ws.hub with ready := true, pcieUp := true } }
/-- Operands of a mailbox command. -/
def wm4 (a b c d : Word64) : Mail := { op0 := a, op1 := b, op2 := c, op3 := d, resv := false }
/-- A context descriptor at 0x48000: number 7, ceiling 3, a limit of 100. -/
def ctxMem : List (Nat × Nat × Nat) := [(0x48000, 4, 0x01030007), (0x4800C, 4, 100), (0x48010, 8, 0x40000)]

/-- A held range of launch 3. -/
def wkeep : KeepHold :=
  { ctx := 1, launch := 3, index := 0, core := 0, place := 0, width := 32, vbase := 0, units := 1, range := (0, 0, 16, 16),
    vregs := [], sregs := [], image := 0 }

theorem witness_MailboxCommandsOnContextsAndQueues :
    HostReady wsH ∧ (wm4 1 0 0 0).resv = false ∧
    (let s : State := { wsH with mem := pokes wm ctxMem, hub := { wsH.hub with mail := List.replicate 64 0 } }
     HostReady s ∧ (match parseContext ((mailTaken s 1 (wm4 0x48000 3 0 0)).mem.bytes (physKey 0 0x48000) 256) 3 with
      | (c, b) => b && c.num = 7 && (s.ctx? c.num).isNone) = true) ∧
    (3 ≤ (wm4 0 3 0 0).op1.toNat ∧ (wm4 0 2047 0 0).op1.toNat ≤ 2047) ∧
    (wsH.ctx? 1).isSome ∧ ctxBusy { wsH with teams := [] } 1 = false ∧ HostReady { wsH with teams := [] } ∧
    (∀ n ∈ [4, 20], ∀ k ∈ [0, 2], let m := wm4 9 1 (BitVec.ofNat 64 n) (BitVec.ofNat 64 k)
      m.op0.toNat < 65536 ∧ m.op1.toNat < 16384 ∧ 4 ≤ m.op2.toNat ∧ m.op2.toNat ≤ 20 ∧ (m.op3 = 0 ∨ m.op3 = 2) ∧
      wsH.ctx? m.op1.toNat = some wc ∧ wsH.queue? m.op0.toNat = none ∧ wsH.queues = []) ∧
    (let s : State := { wsH with queues := [wqu 0] }
     HostReady s ∧ s.queue? 9 = some (wqu 0) ∧ (wqu 0).ctx = 1 ∧ queueIdle s (wqu 0) = true) ∧
    wc.isIn = true ∧ (let s : State := { wsH with ctxs := [{ wc with isIn := false }] }
      HostReady s ∧ s.ctx? 1 = some { wc with isIn := false }) ∧
    (let s : State := { wsH with hub := { wsH.hub with mail := 3 :: List.replicate 63 0 } }
     s.hub.updating.contains 4 = false ∧ mailCode s ≠ 0 ∧ s.hub.fresh = false ∧ HostReady (s.onHub (fun h => { h with fresh := true }))) ∧
    (∀ k ∈ [4, 20], (queueRing wsH k).isSome) ∧ claimed wsH wkeep = false ∧
    claimed { wsH with launches := [{ wl with follow := true, pred := some 3 }] } wkeep = true ∧
    hubCommands.map (fun p => p.1) = [1, 2, 3, 3, 4, 4, 5, 5, 6, 7, 8, 9, 10] ∧
    (let s : State := { wsH with hub := { wsH.hub with updating := [4] } }
     s.hub.updating.contains 4 = true ∧ evOf (Instr.mailboxDestroyQueue (wm4 9 1 0 1)) = some (.mailboxDestroyQueue (wm4 9 1 0 1))) ∧
    (let s : State := { wsH with hub := { wsH.hub with ready := false } }
     s.hub.updating.contains 4 = false ∧ mailCode s = 0 ∧ s.hub.ready = false ∧ s.hub.minimal = false) ∧ ({ wm4 0 0 0 0 with resv := true } : Mail).resv = true ∧
    (List.replicate 64 (0 : Byte)).length = 64 := by and_intros <;> decide +kernel

/-- An extent of the context. -/
def wext (held : Bool) : Extent := { num := 6, ctx := some 1, held := held, revoked := false }
/-- The device with it. -/
def wsX (held : Bool) : State := wsH.onHub (fun h => { h with extents := [wext held] })

theorem witness_ImagesExtentsAndTheHostApertures :
    HostReady wsH ∧ wsH.ctx? 1 = some wc ∧ (∀ e ∈ wsH.hub.extents, e.num = 6 → e.revoked = true) ∧
    HostReady (wsX false) ∧ (wsX false).hub.extents.any (fun e => e.num = 6 && e.ctx = some 1) = true ∧
    extMapped (wsX false) 6 = false ∧ (wsX true).hub.extents.any (fun e => e.num = 6 && e.held) = true ∧
    wsH.hub.pcieUp = true ∧
    (match segms (mailTaken wsH 7 (wm4 0 1 0 0)) 0 with
      | some gs => (segmAbsent (mailTaken wsH 7 (wm4 0 1 0 0)) wc gs).isNone && okd (loadSegms wc gs (mailTaken wsH 7 (wm4 0 1 0 0))) &&
        okd (measureAll gs (mailTaken wsH 9 (wm4 0 1 0 0)))
      | none => false) = true ∧
    0 ∈ (wsH.onHub (fun h => { h with updating := [0], minimal := true })).hub.updating ∧
    (wsH.onHub (fun h => { h with updating := [0], minimal := true })).hub.inbox = [] ∧
    (wsH.onHub (fun h => { h with updating := [4] })).hub.updating.contains 4 = true ∧
    (∀ n ∈ [15, 16], ∀ hs ∈ [[], [({ queue := 9, entry := [] } : Held)], List.replicate 1024 { queue := 9, entry := [] }],
      let s : State := { wsH with queues := [wqu n], hub := { wsH.hub with overflow := hs } }
      s.queue? 9 = some (wqu n) ∧ (s.hub.overflow.any (fun h => h.queue = 9) = !hs.isEmpty) ∧
      (2 ^ (wqu n).lcap ≤ ((wqu n).tail - (wqu n).head).toNat ↔ n = 16) ∧ s.hub.updating.contains 4 = false) ∧
    (let s : State := { wsH with queues := [wlq] }
     s.queue? 8 = some wlq ∧ wlq.isLaunch = true ∧ (s.ctx? wlq.ctx).isSome) ∧
    (∀ o ∈ [0x420, 0xFFF], 0x420 ≤ o ∧ o < 0x1000) ∧ ([] : List Byte).length ≠ 32 ∧ 32 % 64 ≠ 0 ∧ wsH.queue? 1 = none ∧
    (let s : State := { wsH with queues := [wqu 15] }
     s.queue? 9 = some (wqu 15) ∧ (wqu 15).isLaunch = false ∧ (wqu 15).poppers = [] ∧
     ((wqu 15).tail - (wqu 15).head).toNat < 2 ^ (wqu 15).lcap ∧ s.hub.overflow = []) ∧
    (let s : State := { wsH with queues := [wqu 15], hub := { wsH.hub with overflow := [{ queue := 9, entry := [1, 2, 3, 4] }] } }
     s.queue? 9 = some (wqu 15) ∧ s.hub.overflow.find? (fun h => h.queue = 9) = some { queue := 9, entry := [1, 2, 3, 4] } ∧
     (wqu 15).pushers = []) ∧
    wsH.hub.bar4 = none ∧ (wsH.onHub (fun h => { h with bar4 := some 1 })).hub.bar4 = some 1 ∧
    okd (readVA wsH 256 1 0x30000 8) = true ∧ okd (readVA wsH 256 1 0x80000000 8) = false ∧ okd (writeVA wsH 256 1 0x30000 (leBytes 8 5)) = true ∧
    okd (writeVA wsH 256 1 0x80000000 (leBytes 8 5)) = false := by and_intros <;> decide +kernel

theorem witness_TheDeviceStartsLosesAndSparesUnits :
    State.reset.hub.ready = false ∧ State.reset.hub.minimal = false ∧ State.reset.hub.fails < 3 ∧
    3 ≤ (State.reset.onHub (fun h => { h with fails := 3 })).hub.fails ∧ wsH.hub.ready = true ∧
    (∀ n ∈ [0, 1, 2], Config.sparePool n ≤ Config.sparePool n + 1) ∧
    7 ∉ wsH.hub.errSeen ∧ 7 ∈ (wsH.onHub (fun h => { h with errSeen := [7] })).hub.errSeen := by
  and_intros <;> first | decide | (intro n _; omega)

theorem witness_RegisterInstructionsLeaveEverythingElse :
    Issues 0x42 0 { z with a := imm 1, b := imm 2, d := 9 } ws wt ∧
    okNext (exec (.sadd { z with a := imm 1, b := imm 2, d := 9 }) ws) = true ∧
    Issues 0x43 0 { z with a := vreg 1, b := vreg 2, d := 4 } ws wt ∧
    okNext (exec (.vintVadd { z with a := vreg 1, b := vreg 2, d := 4 }) ws) = true ∧
    Issues 0x49 2 z ws wt ∧ okNext (exec (.pset z) ws) = true ∧
    Issues 0x49 0 { z with a := vreg 1, b := vreg 2, ty := .i32 } ws wt ∧
    okNext (exec (.vcmp { z with a := vreg 1, b := vreg 2, ty := .i32 }) ws) = true ∧
    Issues 0x43 25 { z with a := vreg 1, b := vreg 2, d := 4 } ws wt ∧
    okNext (exec (.vaddc { z with a := vreg 1, b := vreg 2, d := 4 }) ws) = true ∧
    Issues 0x44 2 { z with a := vreg 1, b := vreg 2, d := 4, ty := .f32 } ws wt ∧
    okNext (exec (.vfpVmul { z with a := vreg 1, b := vreg 2, d := 4, ty := .f32 }) ws) = true ∧
    Issues 0x40 10 z ws wt ∧ okNext (exec (.nop z) ws) = true := by and_intros <;> decide +kernel

theorem witness_MemoryInstructionsLeaveRegistersAndMemory :
    ∀ p ∈ [(0x4A, 0, Instr.ld xm, false, false), (0x4A, 2, .ldv xm, false, true), (0x4A, 4, .lds xm, true, false), (0x4B, 0, .atom xm, false, false),
        (0x4B, 2, .atoms xm, true, false), (0x4A, 1, .st xm, false, false), (0x4A, 3, .stv xm, false, true), (0x4A, 5, .sts xm, true, false),
        (0x4B, 1, .red xm, false, false)],
      Issues p.1 p.2.1 xm wsD memTeam ∧ MemIssues wsD memTeam xm false (asOf p.2.2.2.1 p.2.2.2.2 xm) ∧
      wsD.flightsOf 1 = [] ∧ okNext (exec p.2.2.1 wsD) = true := by decide +kernel

theorem witness_EncodingAndDecodingAgree :
    (Instr.sadd { z with a := imm 1, b := imm 2, d := 9, ty := .i64 }).form ≠ .event ∧
    (Instr.sadd { z with a := imm 1, b := imm 2, d := 9, ty := .i64 }).illegal = none ∧
    decode [(0x0B803801 : Word)] = .truncated ∧
    decode (encode (.sadd { z with a := imm 1, b := imm 2, d := 9, ty := .i64 })) =
      .ok (.sadd { z with a := imm 1, b := imm 2, d := 9, ty := .i64 }) := by decide +kernel

theorem witness_EveryStepKeepsTheMemoryCanonical :
    (State.reset.withFetchWord 96 (0x22F00 * 2 ^ 64 + 1)).mem.wf = true ∧ State.reset.mem.wf = true ∧ okNext (step State.reset) = true := by
  decide +kernel

/-- A device about to run the one-word `nop`. -/
def wsN : State := State.reset.withFetchWord 32 (encode (.nopShort zs)).head!.toNat

theorem witness_AStepRunsTheDecodedInstruction :
    (let s := State.reset
     s.agenda[chosen s]? = some .deviceStart ∧ evOf Instr.deviceStart = some .deviceStart ∧ portHolds (ahead s) .deviceStart = false) ∧
    (stepTeams wsN = [placeTeam] ∧ wsN.agenda = [] ∧ chosen wsN = 0 ∧
     (let u := placeTeam.ahead wsN
      nextTrap u = none ∧ u.wound = false ∧ u.pc.toNat % 4 = 0 ∧ (fetch { ahead wsN with cur := 1 } u) = .words (.ok (.nopShort zs)))) ∧
    okNext (step wsN) = true := by
  and_intros <;> decide +kernel

/-! ## Witnesses of the later clauses -/

/-- The team of `fpTeam` with elements in v4 whose scaled values overflow. -/
def fpTeam2 : Team := { fpTeam with v := fpTeam.v.set 4 { tag := .uni, full := true, lanes := List.replicate 32 0x7B7B7B7B } }
/-- An unpacking of it by 2^200. -/
def xUn : Ext := { z with a := vreg 4, b := { cls := .obj, code := 0xFF, trp := false }, ty := .e5m2x4, lit := some 200 }
/-- A `vsin` on its way that raised an enabled flag. -/
def sinTrap : Flight := { sinFlight with aux := [0, 2, 0x10], status := 0x7C01 }

theorem witness_EnabledFloatFlagTraps_later :
    Issues 0x45 2 xUn (wsT (fun _ => fpTeam2)) fpTeam2 ∧ xUn.ty.elems = 4 ∧
    (let one (j l : Nat) : Nat × Flg := fmt32.round (fpTeam2.mode xUn.rnd) false fpTeam2.ftz
       ((tyValue xUn.ty.elem fpTeam2.ftz (elemAt xUn.ty (srcVal (wsT (fun _ => fpTeam2)) fpTeam2 xUn xUn.a 32 l) j)).scale
         (sextN 32 (srcVal (wsT (fun _ => fpTeam2)) fpTeam2 xUn xUn.b 32 l)))
     enabled fpTeam2.status (raised fpTeam2 xUn (fun l => (0, (List.range 4).foldl (fun a j => a ||| (one j l).2) 0))) ≠ 0) ∧
    { ws with flights := [sinTrap] }.flight? 7 = some sinTrap ∧ ws.team? sinTrap.team = some wt ∧ flightTrap sinTrap = none ∧
    enabled sinTrap.status 0x10 ≠ 0 := by and_intros <;> decide +kernel

/-- A full fault buffer of die 0. -/
def fullFaults : List FaultReq := (List.range faultCap).map (fun i => { die := 0, ctx := 1, blk := i, path := 0, flight := 7, retry := .translationWalk 7 })
/-- A device whose core 0 is stalled. -/
def wsStall (t : Team) : State := { (wsC (fun c => { c with stalled := true })) with faults := fullFaults, teams := [t] }

theorem witness_DeliveringATrapEntersTheHandler_later :
    (let t := { wt with due := some wtrap }
     (wsT (fun _ => t)).team? 1 = some t ∧ t.run = .running ∧ nextTrap t = some wtrap ∧ portStalled (wsT (fun _ => t)) 0 = false ∧
     stuckIds (wsT (fun _ => t)) 1 = [] ∧ (∀ w ∈ ws.writes, w.id ≠ ws.nextId) ∧
     portStalled (wsStall t) 0 = true ∧ (wsStall t).team? 1 = some t ∧
     { wsT (fun _ => t) with flights := [sinFlight] }.busy 1 = true) ∧
    (∀ d ∈ [none, some wtrap], { wt with pending := [wtrap], due := d }.handler = false) ∧
    ({ wt with held := [wtrap] }.handler = false ∧ { wt with held := [wtrap] }.pending = [] ∧ { wt with held := [wtrap] }.due = none) ∧
    handlerTeam.handler = true ∧ handlerTeam.due = none := by decide +kernel

/-- The handler's team, wounded, with two registers that the frame's instructions fill. -/
def woundHandler : Team := { handlerTeam with wound := true, rdst := [(true, 4), (false, 9)] }

theorem witness_TretReturnsFromTheHandler_later :
    (wsT (fun _ => handlerTeam)).busy 1 = false ∧
    (let s : State := { wsT (fun _ => handlerTeam) with flights := [sinFlight] }
     Issues 0x58 3 z s handlerTeam ∧ handlerTeam.go 23 false = true ∧ s.busy 1 = true) ∧
    Issues 0x58 3 z (wsT (fun _ => woundHandler)) woundHandler ∧ (wsT (fun _ => woundHandler)).busy 1 = false ∧
    woundHandler.wound = true ∧ okd (readFrame (wsT (fun _ => woundHandler)) woundHandler) = true ∧ 4 < woundHandler.v.length ∧
    9 < woundHandler.s.length ∧ handlerTeam.holds = [] := by and_intros <;> decide +kernel

theorem witness_EveryExtendedFormMakesTheIssueChecks_later :
    (mkGroup 0x48).isSome ∧ lgBad wt 0x48 0 { z with x24 := 6 } = true ∧ lgBad wt 0x48 0 { z with x24 := 5 } = false ∧
    (mkGroup 0x45).isSome ∧ lgBad wt 0x45 3 { z with x24 := 6 } = true := by decide

/-- The team in its task, running, with a declared set at 0x30000. -/
def touchTeam : Team := { setTeam .declared with run := .running }

theorem witness_ReadsLeaveTheirAddressesInFlight_later :
    (let s := wsT (fun _ => touchTeam)
     (∀ n ∈ [0, 2], Issues 0x4A n xm s touchTeam) ∧ Issues 0x4A 4 { xm with ty := .b64 } s touchTeam ∧
     Issues 0x4A 2 (shortOne { zs with a := 5 } .sc .b32) s touchTeam ∧ Issues 0x4A 4 (shortOne { zs with a := 5 } .sc .b64) s touchTeam ∧
     (∀ n ∈ [0, 2], Issues 0x4B n xm s touchTeam) ∧
     (∀ p ∈ [asOf false false xm, asOf false true xm, asOf true false xm], MemChecks s touchTeam xm false p ∧
       ∃ q ∈ p, SlotTouched { st := .declared, base := 0x30000, len := 64 } q.2 4)) ∧ touchTeam.task ≠ none ∧
    touchTeam.sets[0]? = some { st := .declared, base := 0x30000, len := 64 } ∧
    (∀ p ∈ [asOf false false xm, asOf false true xm, asOf true false xm], SetsHeld { touchTeam with
      sets := touchTeam.sets.set 0 { st := .acquired, base := 0x30000, len := 64 } } 4 p) ∧
    (∀ p ∈ asOf true false xm, p.2 = 0x30000) ∧ ¬ SlotTouched { st := .declared, base := 0x30040, len := 64 } 0x3003C 4 ∧
    SlotTouched { st := .declared, base := 0x3003C, len := 64 } 0x3003F 1 := by and_intros <;> decide +kernel

/-- A store of the team that a release is to wait for. -/
def wsRel : State := { wsD with writes := [{ ww with id := 3 }], nextId := 9 }
/-- A release of scope `dev`. -/
def xRel : Ext := { xm with x24 := BitVec.ofNat 24 (2 ^ 18 + 3 * 2 ^ 19) }

theorem witness_StoresSendTheirBytesToTheirAddresses_later :
    (∀ n ∈ [1, 3, 5], Issues 0x4A n xRel wsRel memTeam ∧ Issues 0x4A n xRel wsD memTeam) ∧ xRel.bit 18 = true ∧ xRel.f 21 19 = 3 ∧
    (∀ p ∈ [asOf false false xRel, asOf false true xRel, asOf true false xRel], MemIssues wsRel memTeam xRel false p ∧ p ≠ []) ∧
    lsWaits wsRel 1 3 = [3] ∧ lsWaits wsD 1 3 = [] ∧ (∀ w ∈ wsRel.writes, wsRel.nextId ∉ w.waits) ∧
    (∀ p ∈ asOf false true xRel, memTeam.unlogged p.2 4 = []) ∧
    Issues 0x4B 1 xm (wsT (fun _ => touchTeam)) touchTeam ∧ MemChecks (wsT (fun _ => touchTeam)) touchTeam xm false (asOf false false xm) ∧
    (∃ p ∈ asOf false false xm, touchTeam.task.isSome ∧ touchTeam.sets.any (fun k => decide (SlotTouched k p.2 4)) = true) := by
  and_intros <;> decide

/-- A lane that has its bytes, and one that has answered. -/
def lane2 (segs : List Seg) : List LaneReq :=
  [{ lane := 0, addr := 0x30000, data := 5, st := .done }, { lane := 1, addr := 0x30000, data := 5, st := .ready segs }]
/-- A vector load, an acquire, of a byte type and of a wide one, and a vector exchange. -/
def ldFlight (x : Ext) (i : Instr) : Flight :=
  { ldsFlight with instr := i, dvec := true, dst := 4, dnum := if x.ty.wide then 2 else 1, lanes := lane2 [⟨0x30000, x.ty.width / 8, 0, 0⟩] }
/-- The acquire form of scope `dev`. -/
def xAcq (ty : Ty) : Ext := { xm with d := 4, ty := ty, x24 := BitVec.ofNat 24 (2 ^ 18 + 3 * 2 ^ 19) }
/-- A team in a task with an acquired set, an undo area of 136 or fewer bytes, and a store into it. -/
def logTeam (n : Nat) : Team := { setTeam .acquired with run := .running, undob := 0x38000, undol := BitVec.ofNat 64 n }
/-- That store. -/
def stsFlight : Flight :=
  { ldsFlight with instr := .sts xm, dnum := 0, no := 4, lanes := [{ lane := 0, addr := 0x30000, data := 5, st := .ready [⟨0x30000, 4, 0, 0⟩] }] }
/-- An `mwait` of 4 bytes on its way. -/
def mwFlight : Flight :=
  { ldsFlight with instr := .mwait { xm with d := 9 }, dnum := 2, aux := [0, 0, 0], lanes := [{ lane := 0, addr := 0x30000, data := 5, st := .ready [⟨0x30000, 4, 0, 0⟩] }] }

theorem witness_LoadsAndAtomicsDeliverTheirLane_later :
    (∀ ty ∈ [Ty.i8, .b64], let f := ldFlight (xAcq ty) (.ld (xAcq ty))
      let s : State := { wsM with flights := [f] }
      s.flight? 7 = some f ∧ (match memOp? f.instr with
        | some m => m.kind = .load && !m.wait && !m.scalar && m.acq && m.scope = 3
        | none => false) = true ∧
      f.withdrawn = false ∧ (∀ q ∈ f.lanes, q.lane ≠ 1 → q.st = .done) ∧ s.team? 1 = some memTeam ∧ s.flightsOf 1 = [f] ∧
      f.dst + f.dnum ≤ memTeam.v.length ∧ f.dnum = (if ty.wide then 2 else 1) ∧ (∀ k < 2, 1 < (memTeam.vreg (4 + k)).lanes.length)) ∧
    (let f : Flight := { ldFlight xm (.ldsp { xm with d := 4 }) with lanes := [{ lane := 0, addr := 4, data := 7, st := .ready [] }] }
     { wsM with flights := [f] }.flight? 7 = some f ∧ 0 < (memTeam.vreg 4).lanes.length) ∧
    (let x : Ext := { xm with d := 4, x24 := 0x830000 }
     let f := ldFlight x (.atom x)
     { wsM with flights := [f] }.flight? 7 = some f ∧ (match memOp? f.instr with
       | some m => m.kind = .atomic && !m.scalar && m.ret && m.x.d.toNat = 4 && m.size = 4
       | none => false) = true ∧ f.waits = [] ∧ f.lanes.Nodup ∧ memTeam.unlogged 0x30000 4 = [] ∧ f.dst = 4) ∧
    (∀ n ∈ [135, 136], let t := logTeam n
      let s : State := { wsT (fun _ => t) with flights := [stsFlight] }
      s.flight? 7 = some stsFlight ∧ s.team? 1 = some t ∧ t.unlogged 0x30000 4 = [0x30000] ∧ stsFlight.aux = [0] ∧
      s.flightsOf 1 = [stsFlight] ∧ wentOn s stsFlight = false ∧ t.task = some wk ∧
      (match logLine s t 0x30000 with
        | .ok _ => n = 136
        | .failed c b v => n = 135 && c = 8 && b = 1 && v.isNone
        | .absent _ => false) = true ∧
      (∀ k ∈ segKeys [⟨0x30000, 4, 0, 0⟩], tierOf k = 0 ∧ lineMoves s k = false)) ∧
    readNum (wsT (fun _ => logTeam 136)) 0 1 (0x38000 + 8) 4 = .ok 0 ∧ okd (readVA (wsT (fun _ => logTeam 136)) 0 1 0x30000 64) = true ∧
    okd (writeVA (wsT (fun _ => logTeam 136)) 0 1 (0x38000 + 64) (leBytes 72 0)) = true ∧
    okd (writeVA (wsT (fun _ => logTeam 136)) 0 1 0x38000 (leBytes 12 0)) = true ∧
    (∀ p ∈ [(RunState.running, MwaitEnd.none), (.parked .mwait, .timeout), (.running, .resumed)], let t := { memTeam with run := p.1, mwEnd := p.2 }
      let s : State := { wsT (fun _ => t) with flights := [mwFlight] }
      s.flight? 7 = some mwFlight ∧ s.team? 1 = some t ∧ mwFlight.again = false ∧ s.flightsOf 1 = [mwFlight] ∧ mwFlight.dst = 9 ∧
      mwFlight.dst + 2 ≤ t.s.length) := by and_intros <;> decide +kernel

/-- A release at its gate that counts another write. -/
def wrel : BufWrite := { ww with id := 8, op := 8, waits := [7], release := some 3, instr := some (.sts xRel) }

theorem witness_WritesReachMemory_later :
    (let s : State := { ws with writes := [ww, wrel] }
     s.write? 8 = some wrel ∧ wrel.waits ≠ [] ∧ s.write? 7 = some ww ∧ ww.frame = none ∧ wrel.team = ww.team ∧
     (∀ y ∈ s.writes, y.team = ww.team → y.waits ≠ [] → y.instr ≠ none)) := by decide

theorem witness_TranslationsFillLanesOrPark_later :
    (∀ pa ∈ [0x42000, 0x43000], walk { ws with mem := (if (ws.mem.num (physKey 0 pa) 8).testBit 0 then ws.mem
      else entryWritten ws.mem pa 0x607) } 1 0x30000 = .leaf 0x607 (2 ^ 30)) ∧
    (ws.mem.num (physKey 0 0x42000) 8).testBit 0 = true ∧ (ws.mem.num (physKey 0 0x43000) 8).testBit 0 = false := by decide

theorem witness_FencesHoldTheirPathsUntilDrained_later :
    Issues 0x4C 0 z ws wt ∧ z.f 4 2 = 0 ∧ Issues 0x4C 0 { z with neg := true } ws wt ∧ wt.go 23 true = false ∧
    lsWaits { ws with writes := [ww, wrel] } 1 1 = [8] ∧ lsWaits { ws with writes := [ww, wrel] } 1 2 = [7, 8] ∧
    lsWaits { ws with writes := [{ ww with team := 2 }] } 1 2 = [7] ∧
    lsWaits { ws with writes := [{ ww with team := 2, core := 1 }] } 1 2 = [] := by decide

/-- A team in a task whose set is the destination of the copy. -/
def declTeam : Team := { touchTeam with sets := touchTeam.sets.set 0 { st := .declared, base := 0x31000, len := 64 } }

theorem witness_CopiesStartRunAndEnd_later :
    (let s : State := { wsCp wcp with teams := [declTeam] }
     (s.core 0).copies.find? (fun c => c.id = 3) = some wcp ∧ wcp.held = false ∧ wcp.desc.bad = false ∧ s.team? wcp.team = some declTeam ∧
     (match copyEnv s 0 wcp with
      | .ok e => !copyOutside s 0 wcp e && !copyWaits s 0 wcp e && !copyBehind s 0 wcp &&
        (match (moveUnits 0 wcp e wcp.units s).2 with
         | some (.ended c k i) => c = 3 && k = 8 && i = 0
         | _ => false)
      | .error _ => false) = true ∧ declTeam.declares 0x31000 4 = true) := by decide +kernel

/-- The first gigabyte in HBM, and the second on the host. -/
def wsFar (t : Team) : State := { wsP [(0x42008, 8, 0x687)] with teams := [t] }
/-- A team that waits for a set there, and for one that no page can ever hold. -/
def farTeam (base : Word64) : Team := { setTeam .waiting with sets := memTeam.sets.set 0 { st := .waiting, base := base, len := 64 } }

theorem witness_SetRequests_later :
    (wsFar (farTeam 0x40000000)).team? 1 = some (farTeam 0x40000000) ∧ (farTeam 0x40000000).run = .parked .setWait ∧
    piecesOf (wsFar (farTeam 0x40000000)) 0 1 .read 0x40000000 64 = .ok [⟨physKey 2 0, 64, 0, 0⟩] ∧
    farAddr 0x40000000 [⟨physKey 2 0, 64, 0, 0⟩] = some 0x40000000 ∧ farAddr 0x30000 [⟨0x30000, 64, 0, 0⟩] = none ∧
    farAddr 0x30000 [⟨0x30000, 32, 0, 0⟩, ⟨physKey 2 0, 32, 0, 0⟩] = some 0x30020 ∧
    (let s : State := { wsFar (farTeam 0x40000000) with hub := { ws.hub with pcieUp := false } }
     (match piecesOf s 0 1 .read 0x40000000 64 with
      | .error (.fail _ _) => true
      | _ => false) = true) := by and_intros <;> decide +kernel

/-- A team with a `qpop` of queue 9 that has not been answered. -/
def popTeam2 (nb : Nat) (run : RunState) : Team := { wt with run := run, pop := [9, 20, nb, 30, 0x1000C] }
/-- A task with 16 deferred operations and an open declaration. -/
def fullTask : Team := { touchTeam with task := some { wk with deferred := List.replicate 16 (.dec 0x30000) } }

theorem witness_QueuesHandEntriesOver_later :
    (∀ nb ∈ [0, 1], ∀ run ∈ [RunState.running, .saved (some .qpop), .parked .fault], let t := popTeam2 nb run
      (wsQ (wqu 0) t).team? 1 = some t ∧ t.pop ≠ [] ∧ (wsQ (wqu 0) t).queue? (t.pop.getD 0 0) = some (wqu 0) ∧ 1 ∉ (wqu 0).poppers ∧
      t.pop.getD 2 0 = nb) ∧
    (∀ n ∈ [0, 1, 2, 5], Issues 0x53 n { z with a := imm 9, b := sreg 8, c := sreg 12 } ws wt) ∧ Issues 0x53 0 (shortOne { zs with a := 233 } .sc .b64) ws wt ∧
    ws.queue? 9 = none ∧ (State.queue? (wsQ { wqu 0 with ctx := 2 } wt) 9).map (fun (q : Queue) => q.ctx) = some 2 ∧
    (let s : State := { ws with queues := [{ wqu 0 with isLaunch := true }] }
     Issues 0x53 0 { z with a := imm 9 } s wt ∧ (s.queue? 9).map (fun (q : Queue) => (q.ctx, q.isLaunch)) = some (1, true)) ∧
    Issues 0x53 1 { z with a := imm 9, b := sreg 8 } (wsQ (wqu 0) fullTask) fullTask ∧ fullTask.defers = true := by
  and_intros <;> decide

/-- The team with s12 to s14 as the source, destination and length of a payload. -/
def qw3 (src dst n : Word64) (t : Team) : Team :=
  { t with s := ((t.s.set 12 { val := src, full := true }).set 13 { val := dst, full := true }).set 14 { val := n, full := true } }

theorem witness_TasksEndAndCountersCount_later :
    (∀ p ∈ [(0x0100000000000000, false), (2, true)], let t := { wt with s := wt.s.set 6 { val := BitVec.ofNat 64 p.1, full := true } }
      Issues 0x53 4 { z with a := sreg 6 } (wsT (fun _ => t)) t ∧ canonical p.1 = p.2 ∧ offAddr { z with a := sreg 6 } p.1 = p.1 ∧
      (p.2 = true → p.1 % 64 ≠ 0)) ∧
    (let t := { wt with s := wt.s.set 6 { val := 0x40000000, full := true } }
     Issues 0x53 4 { z with a := sreg 6 } (wsFar t) t ∧ (leafFor (wsFar t) 0 1 0x40000000).map pteTier = some 2 ∧ canonical 0x40000000 = true ∧
     0x40000000 % 64 = 0) ∧
    (Issues 0x53 4 xm (wsT (fun _ => fullTask)) fullTask ∧ fullTask.defers = true ∧ fullTask.listFull = true ∧
     (match counterAt (wsT (fun _ => fullTask)) fullTask 0x30000 with
      | .key _ => true
      | _ => false) = true) ∧
    (∀ t ∈ [qw3 0 0x34000 0 wt, qw3 0 0x34000 4097 wt], Issues 0x53 2 { z with a := imm 9, b := sreg 8, c := sreg 12 } (wsQ (wqu 0) t) t) ∧
    (∀ t ∈ [qw3 0x30000 0x34000 16 wt, qw3 0 0x0100000000000000 16 wt],
      Issues 0x53 2 { z with a := imm 9, b := sreg 8, c := sreg 12 } (wsQ (wqu 0) t) t) ∧
    (Team.sval (qw3 0 0x34000 4097 wt) 14).toNat = 4097 ∧
    scratchOk (ws.core 0) 0 1 0x30000 16 = false ∧ canonical 0x0100000000000000 = false ∧ canonical 0x34000 = true ∧
    (let t := qw3 0 0x30000 16 touchTeam
     Issues 0x53 2 { z with a := imm 9, b := sreg 8, c := sreg 12 } (wsQ (wqu 0) t) t ∧ t.declares 0x30000 16 = true) ∧
    (let t := qw3 0 0x34000 16 fullTask
     Issues 0x53 2 { z with a := imm 9, b := sreg 8, c := sreg 12 } (wsQ (wqu 0) t) t ∧ t.declares 0x34000 16 = false ∧ t.listFull = true) ∧
    (∀ l ∈ dcFlight.lanes, l.st ≠ .faulted) ∧ dcFlight.withdrawn = false := by and_intros <;> decide +kernel

/-- A device with reservation 0 of a layout, type and size, and reservation 1, and a lease of another pair. -/
def wsRr (a b : Reserve) : State := wsC (fun c => { c with obres := [a, b] })
/-- The team with the offset, size and deltas of an `obres` in s6 to s8. -/
def obTeam (off sz d : Word64) : Team :=
  { wt with s := ((wt.s.set 6 { val := off, full := true }).set 7 { val := sz, full := true }).set 8 { val := d, full := true } }
/-- The operands of an `obres`. -/
def xOb : Ext := { z with a := sreg 6, b := sreg 7, c := sreg 8, ty := .i8 }

theorem witness_ReservationsFeedTheEngine_later :
    (∀ t ∈ [obTeam 0 256 0, obTeam 128 256 0], Issues 0x50 4 xOb (wsT (fun _ => t)) t ∧ (wsT (fun _ => t)).rcd? 0 0 = none) ∧
    (∀ t ∈ [obTeam 0 0 0, obTeam 0 256 256], Issues 0x50 4 xOb (wsT (fun _ => t)) t ∧ (wsT (fun _ => t)).rcd? 0 0 = none) ∧
    Issues 0x50 4 { xOb with x24 := 4 } (wsT (fun _ => obTeam 0 256 0)) (obTeam 0 256 0) ∧ Ext.f { xOb with x24 := 4 } 3 2 = 1 ∧
    (let s : State := { wsRr (wr 1 0) (wr 1 0) with teams := [obTeam (256 * 64) 256 0] }
     Issues 0x50 4 xOb s (obTeam (256 * 64) 256 0) ∧ s.rcd? 0 0 = none ∧ (wr 1 0).base < 64 + 1 ∧ 64 < (wr 1 0).base + (wr 1 0).size) ∧
    (∀ n ∈ [5, 6], Issues 0x50 n { z with a := vreg 4, b := imm 8 } ws wt ∧ Issues 0x50 n { z with a := vreg 4, b := imm 8 } (wsRr { wr 0 0 with ctx := 2 } (wr 1 1)) wt) ∧
    ws.rcd? 0 0 = none ∧ ((wsRr { wr 0 0 with ctx := 2 } (wr 1 1)).rcd? 0 0).map (fun r => r.ctx) = some 2 ∧
    (∀ b ∈ [(2, Ty.b32), (8, .i8x4), (8, .f16x2)], Issues 0x50 6 { z with a := vreg 4, b := imm b.1, ty := b.2 } (wsR 1) wt) ∧ 2 % 4 ≠ 0 ∧
    Ty.elem .f16x2 ≠ .i8 ∧
    (let t := obTeam 0x4000 0 0
     Issues 0x50 6 { z with a := vreg 4, b := sreg 6 } { wsR 1 with teams := [t] } t ∧ 256 * 64 < 0x4000 + 4) ∧
    (∀ n ∈ [0, 1], Issues 0x51 n { z with x24 := 0x10 } ws wt ∧ Issues 0x51 n { z with x24 := 0x10 } (wsRr (wr 0 0) { wr 1 1 with ctx := 2 }) wt ∧
      (∀ p ∈ [(wr 0 1, wr 1 1), (wr 0 0, wr 1 0), ({ wr 0 0 with ty := Ty.f16.code }, wr 1 (n + 1)), ({ wr 0 0 with size := 1 }, wr 1 (n + 1)),
          (wr 0 0, { wr 1 (n + 1) with size := 1 }), (wr 0 0, wr 1 (n + 1))], Issues 0x51 n { z with x24 := 0x10 } (wsRr p.1 p.2) wt)) ∧
    pairK .f16 .i8 = none ∧ { wr 0 0 with size := 1 }.exceeds 128 = true ∧
    (let s := (wsRr (wr 0 0) (wr 1 2)).onCore 0 (fun c => { c with obuf := (Memory.setNum [] (256 * 64) 8 (2 ^ 33 - 1)) })
     32 < ((List.range 64).filter (fun i => (groupMap (s.core 0).obuf (256 * 64)).testBit i)).length) ∧
    tileLoads ws wt 0 = false ∧ ((wsRr (wr 0 0) (wr 1 1)).core 0).lease.holder ≠ some (leaseKey wt) ∧
    ((wsRr (wr 0 0) (wr 1 1)).core 0).lease.lost = [] ∧ ((wsRr (wr 0 0) (wr 1 1)).core 0).lease.queue = [] := by
  and_intros <;> decide +kernel

/-- A resolve on its way that raised an enabled flag. -/
def resTrap : Flight := { tileFlight (.resolve z) with status := 0x7C01 }

theorem witness_TilesAreClearedReadAndStored_later :
    Issues 0x51 7 { z with b := imm 5, neg := true, c := vreg 4, ty := .f32 } ws wt ∧
    (let t := obTeam 4096 0 0
     Issues 0x51 7 { z with b := sreg 6, c := vreg 4, ty := .f32 } (wsT (fun _ => t)) t ∧ tileSpan (wsT (fun _ => t)) t { z with b := sreg 6 } 1 = [] ∧
     (activeLanes t z).any id = true) ∧
    { ws with flights := [resTrap] }.flight? 7 = some resTrap ∧ enabled resTrap.status 0x10 ≠ 0 ∧
    (∀ p ∈ [(0x0100000000000000, false), (2, true)], let t := obTeam (BitVec.ofNat 64 p.1) 0 0
      (∀ n ∈ [5, 6], Issues 0x51 n { z with a := sreg 6 } (wsT (fun _ => t)) t) ∧ canonical p.1 = p.2) ∧ 2 % 64 ≠ 0 ∧
    Issues 0x51 5 xm (wsT (fun _ => touchTeam)) touchTeam ∧ touchTeam.declares 0x30000 imageSize = true := by
  and_intros <;> decide +kernel

theorem witness_LeasesAndPintlePass_later : Issues 0x50 3 z ws wt ∧ wt.leaf = 2 ∧ wt.go 23 false = true := by decide

theorem witness_WalksFollowTheFields_later :
    (∀ i ∈ [Instr.hwalk (z4 0), .hld (z4 0)], ∀ st ∈ [LaneSt.todo, .ready []],
      let f := walkFlight i 1 st
      let s : State := { wsP chainMem with flights := [f] }
      s.flight? 7 = some f ∧ s.team? 1 = some wt ∧ f.snap ≠ [] ∧ trapsOnStatus f.instr = false ∧
      pathBehind s f isField isMfst = false ∧
      (∀ r ∈ f.lanes, (match tumbleLane s wt { f with lanes := [{ r with st := .todo }] } { r with st := .todo } with
        | .done _ => true
        | _ => false) = true)) ∧ (z4 0).f 6 5 = 0 ∧
    (match wk1.walk (wsP chainMem) wt true 0 0 [] with
      | .ok (.ok w, .ok g sc) => sc = 0 && (match sampleAt wt.agent (fieldFill wk1 (wsP chainMem) w.seen) g 0 false clampIdx
          (Int.fdiv w.x 1) (Int.fdiv w.y 1) with
        | .ok (.inl _) => true
        | _ => false)
      | _ => false) = true := by and_intros <;> decide +kernel

/-- A `chadv` of chain 0 that is draining. -/
def drain (id : Nat) : Flight := { chainFlight (.chadv (z4 0)) [0, 0, 1, 5] with id := id }

theorem witness_ChainsAreWrittenSealedAndAdvanced_later :
    (let f := chainFlight (.mfst (z4 0)) [0, 0, 0, 0x26040, 64]
     let s : State := { wsP chainMem with flights := [f] }
     s.flight? 7 = some f ∧ f.again = false ∧ chainBusy s 1 0 0 = false ∧ pathBehind s f isField isMfst = false ∧
     meetsRanges 0x26040 8 (f.aux.drop 3) = true) ∧
    (∀ i ∈ [Instr.mfseal (z4 0), .chadv (z4 0), .mfst (z4 0)], let f := chainFlight i [0, 0, 0]
      let s : State := { wsP chainMem with flights := [f, drain 8] }
      s.flight? 7 = some f ∧ chainBusy s 1 0 0 = true ∧ chainBusy s 1 0 7 = true) ∧
    (let f := chainFlight (.mfseal (z4 0)) [0, 0, 0]
     let s : State := { wsP [] with flights := [f] }
     s.flight? 7 = some f ∧ f.again = false ∧ chainBusy s 1 0 7 = false ∧ (match wt.agent.bytes s 0x22000 256 with
       | .ok d => chainOk d
       | .error _ => true) = false) ∧
    (∀ n ∈ [1, 2], Issues 0x54 6 (z4 n) { wsP chainMem with flights := [drain 8] } wt ∧ (z4 n).f 2 0 = n) ∧
    chainBusy { wsP chainMem with flights := [drain 8] } 1 0 0 = true ∧ mfstOn { wsP chainMem with flights := [chainFlight (.mfst (z4 0)) [0, 0, 0]] } 1 0 := by
  and_intros <;> decide +kernel

/-- `mapMem` with a second sequence of no position, of n entries, r references on block 1, and c free blocks. -/
def shareMem (n r c : Nat) : List (Nat × Nat × Nat) :=
  mapMem ++ [(0x23014, 4, 2), (0x27010, 8, 0x2B100), (0x2701C, 4, 0x01000000 + n), (0x28018, 2, r), (0x2303C, 4, c)]
/-- The map of it, and a sequence. -/
def shareMap (n r c : Nat) : KMap := match readMap wt.agent (wsP (shareMem n r c)) 0x23000 0 with
  | .ok (.ok k) => k
  | _ => wmap
/-- What a share of m positions of sequence 0 with sequence 1 answers. -/
def shareAns (n r c m : Nat) : Option Nat := match kvshareOp 1 0 m wt.agent (wsP (shareMem n r c)) (shareMap n r c) with
  | .ok (_, v) => some v
  | .error _ => none

theorem witness_SequenceMapsAnswerAndChange_later :
    [shareAns 4 1 1 32, shareAns 0 1 1 32, shareAns 4 1 1 128, shareAns 4 65535 1 32, shareAns 4 1 0 16, shareAns 4 1 1 0] =
      [some 0, some 3, some 4, some 5, some 2, some 0] := by decide +kernel

/-- The team in a task with the texels of surface 0 in a declared range. -/
def texTeam : Team := { touchTeam with sets := touchTeam.sets.set 0 { st := .declared, base := 0x25000, len := 64 } }

theorem witness_SurfacesAreReadWrittenAndSampled_later :
    (let s : State := { wsP chainMem with teams := [texTeam] }
     Issues 0x56 1 { z4 0 with b := vreg 4, c := vreg 6 } s texTeam ∧
     readSurf texTeam.agent s texTeam.surfb.toNat 0 = .ok (.ok wsurf) ∧
     (lanesOf (activeLanes texTeam (z4 0))).flatMap (fun l => ((sstTargets wsurf (z4 0) [lanePair texTeam 4 l]).filter (fun a =>
       texTeam.declares a.1 a.2)).map (fun a => (l, a.1))) = [(0, 0x25000), (1, 0x25000)]) := by and_intros <;> decide +kernel

/-- The device with that pass and one team. -/
def wsPassT (p : Pass) (t : Team) : State := { wsPass p with teams := [t] }
/-- A team with a pass address, a pass number or an entry word in s6. -/
def s6 (v : Word64) : Team := { wt with s := wt.s.set 6 { val := v, full := true } }

/-- A pass that is not open, and one of another context. -/
def shutPass : Pass := { wpass with isOpen := false }
/-- As `shutPass`. -/
def farPass : Pass := { wpass with ctx := 2 }

theorem witness_PassesAreBinnedTiledAndCommitted_traps :
    (∀ n ∈ [1, 2, 3], Issues 0x57 n { z4 0 with a := imm 2, b := vreg 4 } (wsPass shutPass) wt ∧
      Issues 0x57 n { z4 0 with a := imm 16, b := vreg 4 } (wsPass wpass) wt) ∧ (activeLanes wt (z4 0)).any id = true ∧
    Issues 0x57 0 { z4 0 with a := sreg 6, d := 9 } (wsPassT wpass (s6 0x2C008)) (s6 0x2C008) ∧
    offAddr (z4 0) 0x2C008 % 128 ≠ 0 ∧
    Issues 0x57 4 { z4 0 with a := imm 2 } (wsPass shutPass) wt ∧ (wsPass shutPass).pass? 0 2 = some shutPass ∧
    Issues 0x57 4 { z4 0 with a := imm 2 } (wsPass farPass) wt ∧ (wsPass farPass).pass? 0 2 = some farPass ∧
    Issues 0x57 6 { z4 0 with a := imm 2, d := 9 } (wsPass farPass) wt ∧ (wsPass wpass).pass? 0 3 = none ∧
    Issues 0x57 5 { z4 0 with a := sreg 6, b := vreg 4, d := 9 } (wsPassT shutPass (s6 1)) (s6 1) ∧
    Issues 0x57 5 { z4 0 with a := sreg 6, b := vreg 4, d := 9 } (wsPassT shutPass (s6 0x00020F00)) (s6 0x00020F00) ∧ bitsN 0x00020F00 19 16 = 2 ∧ shutPass.closing = false := by and_intros <;> decide +kernel

/-- The pass while its tile is resolved. -/
def tilePass : Pass := { wpass with isOpen := false, closing := true, active := true }
/-- The team that waits for the end of the pass. -/
def binT : Team := { wt with run := .parked .binend, aux := [0, 2, 0x1000C] }

theorem witness_PassesAreBinnedTiledAndCommitted_later :
    (wsPassT tilePass texTeam).pass? 0 2 = some tilePass ∧
    declaredAt (wsPassT tilePass texTeam) tilePass (resolveOf (wsPassT tilePass texTeam).stepNo tilePass).1 = some 0x25000 ∧
    tilePass.tile < tilePass.view.tiles ∧ tilePass.frags = [] ∧ (wsPassT tilePass binT).team? 1 = some binT ∧
    binT.aux.take 2 = [tilePass.die, tilePass.id] ∧ tilePass.errAt = none ∧
    { tilePass with errAt := some 0x25000 }.errAt = some 0x25000 := by and_intros <;> decide +kernel

theorem witness_LaunchesAreCheckedPlacedAndEnded_later :
    (∀ st ∈ [LineState.evicting, .valid], ∀ d ∈ [0, 0x2F000], let l := { wlaunch .ended (some whdr) with done := BitVec.ofNat 64 d }
      let t := { wt with run := .done }
      let s : State := (wsLa 32 l [t]).onCore 0 (fun c => { c with lines := [wln st true] })
      s.launch? 0 = some l ∧ (∀ t ∈ s.teams, t.launch = 0 → t.run = .done ∧ ∀ w ∈ s.writes, t.uid ≠ w.team) ∧ passesOpen s 0 = false ∧
      evicting s 0 = decide (st = .evicting) ∧ okd (writeVA s 256 1 0x2F000 (leBytes 8 0)) = true) ∧
    (∀ hs ∈ [[], [ww]], let t := { wt with run := .parked .texit, handler := hs.isEmpty, pending := if hs.isEmpty then [wtrap] else [] }
      (wsT (fun _ => t)).team? 1 = some t ∧ (t.handler = true ∨ t.pending = [])) ∧
    (let l := { wlaunch .checked (some whdr) with follow := true, pred := some 3 }
     boundTeams (wsLa 32 l []) 0 = [] ∧ firstUnbound (wsLa 32 l []) l = some 0 ∧ inheritBad (wsLa 32 l []) l whdr = true) := by
  and_intros <;> decide +kernel

/-- The team of a kernel without operand lines. -/
def arT : Team := { svT with rec0 := { svT.rec0 with osize := 0 } }
/-- The one team of its launch on the core, saved, with an area of the kernel. -/
def areaS : State :=
  { wsSv { placeBind with team := 1, st := .saved, accN := 0, ssize := 1 } arT with
    teams := [arT], areas := [{ ctx := 1, base := 0x68000, size := 4096, team := 0, launch := arT.launch, core := 0, lats := 0 }] }

theorem witness_TeamsAreSavedAndRestored_area :
    (let t := saveTeam .ready
     (wsT (fun _ => t)).team? 1 = some t ∧ endAbsent (wsT (fun _ => t)) t none = none) ∧
    (kernelArea? areaS 0 arT.launch).isSome ∧ kernelStays areaS arT = false ∧ recordsStay areaS arT = false ∧
    arT ∈ kernelTeams areaS 0 arT.launch ∧
    uniq ((recTeams areaS 0 1 (hdrOf areaS arT)).map (fun x => x.launch)) = [arT.launch] ∧
    (kernelLines areaS 0 arT.launch).length = 0 := by and_intros <;> decide +kernel

theorem witness_TeamsAreSavedAndRestored_areaBytes :
    (match arT.agent.put areaS 0x68000 (latchImage areaS 0 arT.launch) with
      | .ok s1 => okd (arT.agent.put s1 (0x68000 + 512) (operandImage s1 0 arT.launch 1 (hdrOf s1 arT)))
      | .error _ => false) = true ∧
    okd (arT.agent.bytes areaS 0x68000 512) = true ∧ okd (arT.agent.bytes areaS (0x68000 + 512) 512) = true ∧
    kernelStays svS svT = true ∧ recordsStay svS svT = true := by
  and_intros <;> decide +kernel

theorem witness_TeamsAreSavedAndRestored_back :
    (let s := wsSv { placeBind with team := 1, st := .saved, accN := 0, ssize := 1 } svT
     isIn s 1 = true ∧ poolEnding s 0 1 = false ∧ imagePending s 1 = false ∧ (match readImage s svT with
       | .ok s1 => (s1.team? 1).isSome
       | .error _ => false) = true ∧ okd (svT.agent.bytes s svT.image (svT.imgAt + 256)) = true ∧
     isIn { s with ctxs := [{ wc with isIn := false }] } 1 = false) ∧ (∀ f ∈ svT.entries, f.id ≠ 0) := by and_intros <;> decide +kernel

/-- The team with a save number, whose image is written again. -/
def againT : Team := { svT with savedNo := 5, imgAt := 7104 }

theorem witness_TeamsAreSavedAndRestored_again : (wsSv { placeBind with team := 1, st := .saved, accN := 0, ssize := 1 } againT).team? 1 =
      some againT ∧ againT.savedNo ≠ 0 ∧
    ∃ s1, writeAgain (wsSv { placeBind with team := 1, st := .saved, accN := 0, ssize := 1 } againT) againT = .ok s1 := by
  let s := wsSv { placeBind with team := 1, st := .saved, accN := 0, ssize := 1 } againT
  have hb : againT.agent.bytes s (0x60000 + 7104) 256 = .ok (List.replicate 256 0) := by decide +kernel
  have hl : (imageFront s againT againT.forced ++ List.replicate 256 0).length = 7360 := by
    simp only [imageFront, List.length_append, List.length_map, List.length_range]
    decide +kernel
  obtain ⟨cs, h1⟩ := put_okd againT.agent s againT.image (imageFront s againT againT.forced ++ List.replicate 256 0) [⟨0x60000, 7360, 0, 0⟩]
    (by rw [hl]; decide +kernel)
  refine ⟨by decide +kernel, by decide, (s.apply cs).onTeam againT.uid (fun t => { t with imgAt := (imageFront s againT againT.forced).length }), ?_⟩
  have hb' : againT.agent.bytes s (againT.image + againT.imgAt) (81984 * againT.rec0.accN + 256 * againT.rec0.ssize) =
      .ok (List.replicate 256 0) := hb
  show writeAgain s againT = .ok ((s.apply cs).onTeam againT.uid (fun t => { t with imgAt := (imageFront s againT againT.forced).length }))
  simp only [writeAgain, hb', h1, bind, Except.bind, pure, Except.pure]

theorem witness_MailboxCommandsOnContextsAndQueues_later :
    inHbm 0x48000 256 = true ∧
    (let s : State := { wsH with hub := { wsH.hub with mail := 3 :: List.replicate 63 0 } }
     mailCode s ≠ 0 ∧ s.hub.fresh = false ∧ mailCode (s.onHub (fun h => { h with mail := List.replicate 64 0 })) = 0) := by decide +kernel

/-- The memory with an image in host memory whose one segment is malformed. -/
def imgMem : Memory := pokes wm [(physKey 2 0, 4, 1), (physKey 2 8, 8, 320), (physKey 2 64, 4, 9)]

theorem witness_ImagesExtentsAndTheHostApertures_later :
    (let s := mailTaken { wsH with mem := imgMem } 7 (wm4 0 1 0 0)
     match segms s 0 with
     | some gs => gs.length = 1 && (segmAbsent s wc gs).isNone && (match loadSegms wc gs
         ((gs.filter (fun g => g.kind = 0)).foldl (fun s g => setExec s wc g.va g.bytes.length false) s) with
       | .error (_, e) => e = 2
       | .ok _ => false)
     | none => false) = true ∧
    (let s : State := { wsH with hub := { wsH.hub with mail := 3 :: List.replicate 63 0 } }
     s.hub.updating.contains 4 = false ∧ mailCode s ≠ 0) ∧ mailCode { wsH with hub := { wsH.hub with mail := List.replicate 64 0 } } = 0 ∧
    (wsH.onHub (fun h => { h with updating := [4] })).hub.updating.contains 4 = true ∧
    (∀ op ∈ [0, 6, 7], ∀ ty ∈ [Ty.i32, .n32, .b32, .i64, .n64, .b64], hostAtomic op ty = true ∧ 32 ≤ ty.width ∧ 0x30000 % (ty.width / 8) = 0) ∧
    wsH.hub.bar4 = none ∧
    (match piecesOf wsH 256 1 .atomic 0x30000 8, piecesOf wsH 256 1 .atomic 0x80000000 8 with
      | .ok _, .error _ => true
      | _, _ => false) = true ∧ (0x30000 : Word64).toNat + 8 ≤ 2 ^ 36 ∧ 2 ^ 36 < (0xFFFFFFFF8 : Word64).toNat + 9 := by and_intros <;> decide +kernel

theorem witness_TheDeviceStartsLosesAndSparesUnits_later :
    (∀ n ∈ [255, 256], 255 ≤ (wsH.onHub (fun h => { h with soft := n })).hub.soft) ∧ wsH.hub.soft = 0 ∧
    255 < (wsH.onHub (fun h => { h with soft := 256 })).hub.soft ∧
    (let s := wsH.onHub (fun h => { h with errSeen := [7], replace := true })
     7 ∈ s.hub.errSeen ∧ s.hub.replace = true) ∧
    (∃ x, x < 256 ∧ (∀ h ∈ wsH.hub.spareHomes, h.1 ≠ x) ∧ (∀ m ∈ wsH.hub.moving, m.1 ≠ x) ∧
      (wsH.queues.filter (fun q => q.slice = x)).length < 1024) ∧
    bootWord wsH.hub = bootWord wsH.hub ∧ healthWord wsH.hub ≠ healthWord { wsH.hub with replace := true } ∧
    homeSlice wsH 0x30000 < 256 := by
  refine ⟨by decide, by decide, by decide, by decide, ⟨0, by decide⟩, by decide, by decide, by decide⟩

theorem witness_RegisterInstructionsLeaveEverythingElse_later :
    (∀ p ∈ [(0x44, 9, Instr.vldexp, Ty.f32), (0x45, 0, .vcvt, .f32), (0x45, 4, .vquant, .f32), (0x45, 2, .vunpackn, .e5m2x4), (0x44, 10, .vfrexp, .f32),
        (0x44, 11, .vclass, .f32), (0x45, 3, .vbscale, .f32), (0x47, 0, .vdot8, .i8x4), (0x59, 2, .shape, .b32), (0x58, 4, .ychk, .b32),
        (0x41, 0, .pmask, .b32)],
      let x := { z with a := vreg 1, b := vreg 2, c := vreg 3, d := 4, ty := p.2.2.2 }
      Issues p.1 p.2.1 x ws wt ∧ okNext (exec (p.2.2.1 x) ws) = true) ∧
    Issues 0x58 0 { z with d := 9 } ws wt ∧ okNext (exec (.srd { z with d := 9 }) ws) = true ∧
    Issues 0x59 0 { z with a := imm 5, d := 9 } ws wt ∧ okNext (exec (.rmovx { z with a := imm 5, d := 4 }) ws) = true ∧ 5 < wt.nv ∧
    Issues 0x59 1 { z with a := imm 5, b := vreg 3 } ws wt ∧ okNext (exec (.rstx { z with a := imm 5, b := vreg 3 }) ws) = true ∧
    Issues 0x58 1 { z with a := imm 0, x24 := 1 } ws wt ∧ wt.crRefuse 1 0 = none ∧ okNext (exec (.swr { z with a := imm 0, x24 := 1 }) ws) = true ∧
    (∀ p ∈ [(2, Instr.vsqrt), (5, .vsin), (6, .vcos), (7, .vtanh), (9, .vdiv)], let x := { z with a := vreg 1, b := vreg 2, d := 4, ty := .f32 }
      Issues 0x46 p.1 x ws wt ∧ okNext (exec (p.2 x) ws) = true) ∧
    (let x := { z with a := vreg 1, b := vreg 2, c := vreg 3, d := 4, ty := .f32 }
     Issues 0x46 8 x ws wt ∧ okNext (exec (.vrot x) ws) = true) ∧
    (∀ p ∈ [(0x42, 0, Instr.saddShort), (0x42, 13, .smov)], let y := { zs with a := 4, d := 9 }
      Issues p.1 p.2.1 (shortTwo y .sc .i64) ws wt ∧ okNext (exec (p.2.2 y) ws) = true) ∧
    Issues 0x43 0 (shortTwo zs .vec .i32) ws wt ∧ okNext (exec (.vaddI32Short zs) ws) = true ∧
    Issues 0x44 0 (shortTwo zs .vec .f32) ws wt ∧ okNext (exec (.vaddF32Short zs) ws) = true ∧
    Issues 0x40 10 (shortBare zs 0 0) ws wt ∧ okNext (exec (.nopShort zs) ws) = true ∧
    Issues 0x58 4 (shortBare zs zs.d 0) ws wt ∧ okNext (exec (.ychkShort zs) ws) = true ∧
    (∀ g : Flg, enabled wt.status g = 0) := by
  and_intros <;> first | decide +kernel | exact fun g => Nat.and_zero g

theorem witness_MemoryInstructionsLeaveRegistersAndMemory_later :
    (let y : Short := { zs with a := 5, d := 4 }
     ∀ p ∈ [(0x4A, 2, Instr.ldvShort y, false, Ty.b32), (0x4A, 4, .ldsShort y, true, .b64), (0x4A, 3, .stvShort y, false, .b32),
        (0x4A, 5, .stsShort y, true, .b64)],
      let x := shortOne y .sc p.2.2.2.2
      Issues p.1 p.2.1 x wsD memTeam ∧ MemIssues wsD memTeam x (x.bit 17) (asOf p.2.2.2.1 true x) ∧
      (∀ q ∈ asOf p.2.2.2.1 true x, memTeam.unlogged q.2 4 = []) ∧ okNext (exec p.2.2.1 wsD) = true) := by decide +kernel

/-- A device whose team is about to run a word that no table has. -/
def wsIll : State := State.reset.withFetchWord 32 0x1F8
/-- A device with a core whose port is stalled, or with a read of the host due while lines move. -/
def wsPort (e : Ev) : State := { ws with agenda := [e], hub := { ws.hub with moving := [(3, [])] }, teams := [] }

theorem witness_AStepRunsTheDecodedInstruction_later :
    (stepTeams wsIll = [placeTeam] ∧ wsIll.agenda = [] ∧ chosen wsIll = 0 ∧
     (let u := placeTeam.ahead wsIll
      nextTrap u = none ∧ u.wound = false ∧ u.pc.toNat % 4 = 0 ∧
      (match fetch { ahead wsIll with cur := 1 } u with
       | .words (.illegal _ _) => true
       | _ => false) = true)) ∧
    (∀ e ∈ [Ev.bar4Write 0x30000 [1], .bar4Read 0x30000 8], portHolds (ahead (wsPort e)) e = true ∧ (wsPort e).agenda[chosen (wsPort e)]? = some e) ∧
    (Ev.bar4Write 0x30000 [1]).posted = true ∧ (Ev.bar4Read 0x30000 8).posted = false := by
  and_intros <;> decide +kernel

/-! ## Ill-formed terms, one for each check of 03 R82, which the check refuses -/

/-- A well-formed `sadd`: s9 = 1 + 2. -/
def goodAdd : Ext := { z with a := imm 1, b := imm 2, d := 9, ty := .i64 }
/-- The literal as a source. -/
def litSrc : Src := { cls := .obj, code := 0xFF, trp := false }

theorem test_check0_well_formed : (Instr.sadd goodAdd).illegal = none ∧ (Instr.saddShort { zs with d := 9, a := 4 }).illegal = none := by
  decide

theorem test_check1_to_3_length_group_operation :
    decode [0b00000100_00000011_0_0_10111_0001110_01, 0, 0] = .illegal 0x01 0x0E ∧
    decode [0b00000100_00000011_0_0_10111_1000010_00] = .illegal 0x01 0x42 ∧
    decode [0b00000100_00000011_0_0_10111_0011111_00] = .illegal 0x02 0x1F ∧
    decode [0b00000100_00000011_0_0_10111_1000010_01, 0, 0x14] = .illegal 0x03 0x14 := by decide

theorem test_check4_guard : (Instr.sadd { goodAdd with g := 24 }).illegal = some (4, 24) ∧
    (Instr.nopShort { zs with g := 31 }).illegal = some (4, 31) := by decide

theorem test_check5_rounding : (Instr.sadd { goodAdd with rnd := .rtz }).illegal = some (5, 2) := by decide

theorem test_check6_type : (Instr.sadd { goodAdd with ty := .f32 }).illegal = some (6, 11) := by decide

theorem test_check7_class : (Instr.sadd { goodAdd with a := vreg 1 }).illegal = some (7, 1) ∧
    (Instr.bsc { z with a := sreg 1, b := litSrc, lit := some 0 }).illegal = some (7, 2) := by decide

theorem test_check8_code : (Instr.sadd { goodAdd with d := 128 }).illegal = some (8, 0) ∧
    (Instr.sadd { goodAdd with a := sreg 142 }).illegal = some (8, 1) ∧
    (Instr.bsc { z with a := sreg 1, b := obj 6 }).illegal = some (8, 2) ∧
    (Instr.vintVadd { z with a := vreg 2, b := vreg 5, d := 4, ty := .i64 }).illegal = some (8, 2) ∧
    (Instr.saddShort { zs with d := 128 }).illegal = some (8, 0) ∧ (Instr.saddShort { zs with a := 191 }).illegal = some (8, 1) := by
  decide

theorem test_check9_literal : (Instr.sadd { goodAdd with b := litSrc }).illegal = some (9, 2) ∧
    (Instr.sadd { goodAdd with lit := some 1 }).illegal = some (9, 4) ∧
    (Instr.sadd { goodAdd with a := litSrc, b := litSrc, lit := some 1 }).illegal = some (9, 2) ∧
    (Instr.sadd { goodAdd with ty := .n32, b := litSrc, lit := some 0x100000000 }).illegal = some (9, 4) ∧
    (Instr.qpopShort { zs with lit := some 0 }).illegal = some (9, 4) ∧
    (Instr.saddShort { zs with a := 4, lit := some 0 }).illegal = some (9, 1) := by decide

theorem test_check10_modes_and_unused : (Instr.sadd { goodAdd with c := vreg 1 }).illegal = some (10, 3) ∧
    (Instr.sadd { goodAdd with a := { cls := .sc, code := 224, trp := true } }).illegal = some (10, 1) ∧
    (Instr.nop { z with d := 1 }).illegal = some (10, 0) ∧ (Instr.tendShort { zs with d := 1 }).illegal = some (10, 0) ∧
    (Instr.tendShort { zs with a := 1 }).illegal = some (10, 1) := by decide

theorem test_check11_undefined_x24 : (Instr.sadd { goodAdd with x24 := 0x800100 }).illegal = some (11, 8) := by decide

theorem test_check12_reserved_x24 : (Instr.scmp { goodAdd with x24 := 6 }).illegal = some (12, 0) ∧
    (Instr.srd { z with x24 := 8 }).illegal = some (12, 0) := by decide

/-! ## One step of an instruction on a small state, with results worked out by hand from the rules -/

/-- A field of the team after a step. -/
def after {α : Type} (o : Out) (f : Team → α) : Option α := match o with
  | .next s => (s.team? 1).map f
  | _ => none
/-- The device with values in s4 and s5, and in lane 0 of v4 and v5. -/
def wsR2 (a b : Nat) (x y : Word) : State :=
  wsT (fun t => { t with
    s := (t.s.set 4 { val := BitVec.ofNat 64 a, full := true }).set 5 { val := BitVec.ofNat 64 b, full := true }
    v := (t.v.set 4 { tag := .gen, full := true, lanes := x :: List.replicate 31 9 }).set 5
      { tag := .gen, full := true, lanes := y :: List.replicate 31 1 } })
/-- s9 = s4 op s5. -/
def ss (ty : Ty) : Ext := { z with a := sreg 4, b := sreg 5, d := 9, ty := ty }
/-- v9 = v4 op v5. -/
def vv (ty : Ty) : Ext := { z with a := vreg 4, b := vreg 5, d := 9, ty := ty }

/-- 07 R165: 64-bit addition wraps, and a 32-bit result is extended by its sign. -/
theorem test_sadd_wraps : after (exec (.sadd (ss .i64)) (wsR2 (2 ^ 64 - 1) 1 0 0)) (fun t => (t.sval 9).toNat) = some 0 ∧
    after (exec (.sadd (ss .i32)) (wsR2 0x7FFFFFFF 1 0 0)) (fun t => (t.sval 9).toNat) = some 0xFFFFFFFF80000000 := by decide

/-- 07 R165: the high half of −1 × −1 is 0 as i64, and 2^64 − 2 as n64. -/
theorem test_smulh_signs : after (exec (.smulh (ss .i64)) (wsR2 (2 ^ 64 - 1) (2 ^ 64 - 1) 0 0)) (fun t => (t.sval 9).toNat) = some 0 ∧
    after (exec (.smulh (ss .n64)) (wsR2 (2 ^ 64 - 1) (2 ^ 64 - 1) 0 0)) (fun t => (t.sval 9).toNat) = some (2 ^ 64 - 2) := by decide

/-- 07 R165: −1 is below 2 as i64. -/
theorem test_smin_signed : after (exec (.smin (ss .i64)) (wsR2 (2 ^ 64 - 1) 2 0 0)) (fun t => (t.sval 9).toNat) = some (2 ^ 64 - 1) := by
  decide

/-- 07 R165: an arithmetic shift of −8 by 2 is −2. -/
theorem test_ssar_sign : after (exec (.ssar (ss .i64)) (wsR2 (2 ^ 64 - 8) 2 0 0)) (fun t => (t.sval 9).toNat) = some (2 ^ 64 - 2) := by decide

/-- 07 R165: a source that is also the destination is read first. -/
theorem test_ssub_same_register : after (exec (.ssub { ss .i64 with d := 5 }) (wsR2 3 5 0 0)) (fun t => (t.sval 5).toNat) = some (2 ^ 64 - 2) := by
  decide

/-- 02 R43, 07 R170: an active lane wraps and lane 2, which is not active, keeps its value. -/
theorem test_vadd_lanes : after (exec (.vintVadd (vv .i32)) (wsR2 0 0 0xFFFFFFFF 2)) (fun t => (t.lane 9 0, t.lane 9 1, t.lane 9 2)) =
    some (1, 10, 0) := by decide

/-- 07 R170: `vclz` of 0 is 32 and `vpopc` of 0xB is 3. -/
theorem test_vclz_vpopc : after (exec (.vclz { z with a := vreg 4, d := 9 }) (wsR2 0 0 0 0)) (fun t => t.lane 9 0) = some 32 ∧
    after (exec (.vpopc { z with a := vreg 4, d := 9 }) (wsR2 0 0 0xB 0)) (fun t => t.lane 9 0) = some 3 := by decide

/-- 08 R180: 1 + 2 = 3, and 1 + 2^-24 is a tie that `rne` rounds to 1. -/
theorem test_vadd_f32_rounds : after (exec (.vfpVadd (vv .f32)) (wsR2 0 0 0x3F800000 0x40000000)) (fun t => t.lane 9 0) = some 0x40400000 ∧
    after (exec (.vfpVadd (vv .f32)) (wsR2 0 0 0x3F800000 0x33800000)) (fun t => t.lane 9 0) = some 0x3F800000 := by decide +kernel

/-- 08 R180: rounding up gives the next number for the same sum. -/
theorem test_vadd_f32_up : after (exec (.vfpVadd { vv .f32 with rnd := .rup }) (wsR2 0 0 0x3F800000 0x33800000)) (fun t => t.lane 9 0) =
    some 0x3F800001 := by decide +kernel

/-- 05 R130: `bsc` with an equal-to-zero condition moves by words from its own address, or goes on behind its 12 bytes. -/
theorem test_bsc_moves : after (exec (.bsc { z with a := sreg 4, b := obj 0, x24 := 5 }) (wsR2 0 0 0 0)) (fun t => t.pc.toNat) =
      some (0x10000 + 20) ∧
    after (exec (.bsc { z with a := sreg 4, b := obj 0, x24 := 5 }) (wsR2 1 0 0 0)) (fun t => t.pc.toNat) = some (0x10000 + 12) := by decide

/-- 19 R422: a trap goes to `trapv` and sets the handler's state. -/
theorem test_swtrap_enters_handler : after (exec (.trap { z with x24 := 7 }) (wsT (fun t => { t with trapv := 0x18000 }))) (fun t =>
    (t.pc.toNat, t.handler)) = some (0x18000, true) := by decide +kernel

/-- 09 R221, R207: a store of 4 bytes at 0x30000 is in memory when WRITE_PERFORMED has run for it, in little-endian order. -/
theorem test_sts_bytes :
    (match exec (.sts { xm with ty := .n32, d := 6 }) (wsD.onTeam 1 (fun t => { t with s := t.s.set 6 { val := 0x11223344, full := true } })) with
      | .next s => (s.writes.head?.map (fun w => match exec (.writePerformed w.id) s with
        | .next s => ((List.range 5).map (fun i => (s.mem.get (0x30000 + i)).toNat))
        | _ => []))
      | _ => none) = some [0x44, 0x33, 0x22, 0x11, 0] := by decide +kernel

/-- 03 R61: the one-word `nop` at the program counter is fetched and run by a step, which moves the program counter by 4. -/
theorem test_step_runs_nop :
    (match step (State.reset.withFetchWord 32 0b00000000_00000000_0_0_10111_0000000_00) with
      | .next s => s.teams.map (fun t => t.pc.toNat)
      | _ => []) = [0x10004] := by decide +kernel

/-- 00 R12: the base point of P-521 satisfies the curve's equation, and the point beside it does not. -/
theorem test_ecdsa_base_point_is_on_the_curve :
    onCurve ecBase.x ecBase.y = true ∧ onCurve (ecBase.x + 1) ecBase.y = false := by decide +kernel

end Sys2Proof.Tests
end

section
/-!
PROOFS. Scalar and vector integer instructions that issue (02 R43, R44): the effect of each shape of instruction at its issue, and
from it the state that the instruction leaves.
-/

namespace Sys2Proof.Machine

/-! ## From the effect at an issue to the state after it -/

@[simp] theorem ctxAt_x (i : Instr) (opc sub n : Nat) (x : Ext) (t : Team) : (ctxAt i opc sub n x t).x = x := rfl
@[simp] theorem ctxAt_t (i : Instr) (opc sub n : Nat) (x : Ext) (t : Team) : (ctxAt i opc sub n x t).t = t := rfl
@[simp] theorem ctxAt_act (i : Instr) (opc sub n : Nat) (x : Ext) (t : Team) :
    (ctxAt i opc sub n x t).act = activeLanes t x := rfl
@[simp] theorem ctxAt_go (i : Instr) (opc sub n : Nat) (x : Ext) (t : Team) :
    (ctxAt i opc sub n x t).go = t.go x.g x.neg := rfl
@[simp] theorem tag_ctxAt (i : Instr) (opc sub n : Nat) (x : Ext) (t : Team) :
    (ctxAt i opc sub n x t).tag = laneTag opc sub t x := rfl

@[simp] theorem putS_ctxAt (i : Instr) (opc sub n : Nat) (x : Ext) (t : Team) (s : State) (v : Word64) :
    (ctxAt i opc sub n x t).putS s v = putScalar s t x.d v := rfl

/-- Results listed lane by lane are the function that gives them. -/
@[simp] theorem putV_ctxAt (i : Instr) (opc sub n : Nat) (x : Ext) (t : Team) (s : State) (wide : Bool) (f : Nat → Nat)
    (g : Tag) : (ctxAt i opc sub n x t).putV s wide (t.laneIxs.map f) g = putLanes s t x wide f g := rfl

/-- An instruction that issues and is done goes on behind itself. -/
theorem exec_of_done {i : Instr} {opc sub n : Nat} {x : Ext} {eff : C → State → Eff} {s s' : State} {t : Team}
    (hexec : exec i s = issue i opc sub n x eff s) (h : Issues opc sub x s t)
    (heff : eff (ctxAt i opc sub n x t) s = .done s') : exec i s = .next (retire s' t n) := by
  rw [hexec, issue_runs _ _ _ _ _ _ _ _ h, heff, finish_done _ _ _ _ _ _ _ h.2.1]

/-- A scalar instruction whose effect writes sD is a `ScalarOp` (02 R44). -/
theorem scalarOp_of_effect {α : Type} {mk : α → Instr} {ext : α → Ext} {len : α → Nat} {opc sub : Nat}
    {val : Ext → Nat → Nat → Nat → Word64} {eff : C → State → Eff}
    (hexec : ∀ y s, exec (mk y) s = issue (mk y) opc sub (len y) (ext y) (onGo eff) s)
    (heff : ∀ i n x t s, eff (ctxAt i opc sub n x t) s = .done (putScalar s t x.d
      (val x (srcVal s t x x.a x.ty.width 0) (srcVal s t x x.b x.ty.width 0) (srcVal s t x x.c x.ty.width 0)))) :
    ScalarOp mk ext len opc sub val := by
  intro y s t x n h
  refine exec_of_done (hexec y s) h ?_
  rw [onGo, ctxAt_go, heff]
  split <;> rfl

/-- A vector instruction whose effect writes D in the active lanes is a `VectorOp` (02 R43). -/
theorem vectorOp_of_effect {α : Type} {mk : α → Instr} {ext : α → Ext} {len : α → Nat} {opc sub : Nat}
    {val : Ext → Nat → Nat → Nat → Nat} {tag : State → Team → Ext → Tag} {eff : C → State → Eff}
    (hexec : ∀ y s, exec (mk y) s = issue (mk y) opc sub (len y) (ext y) eff s)
    (heff : ∀ y i n t s, let x := ext y
      eff (ctxAt i opc sub n x t) s = .done (putLanes s t x x.ty.wide (fun l => val x (srcVal s t x x.a x.ty.width l)
        (srcVal s t x x.b x.ty.width l) (srcVal s t x x.c x.ty.width l)) (tag s t x))) :
    VectorOp mk ext len opc sub val tag := by
  intro y s t x n h
  exact exec_of_done (hexec y s) h (heff y ..)

/-! ## Scalar arithmetic -/

/-- The field that `bfe` cuts is that of R169. -/
theorem opBfe_eq_bitField (ty : Ty) (a f : Nat) : opBfe ty a f = bitField ty a (f % 256) (f / 256 % 256) := by
  refine if_congr ?_ rfl rfl
  rw [Bool.and_eq_true, decide_eq_true_eq, Nat.pos_iff_ne_zero]
  rfl

theorem effSalu_ctxAt (op : IntOp) (i : Instr) (opc sub n : Nat) (x : Ext) (t : Team) (s : State) :
    effSalu op (ctxAt i opc sub n x t) s = .done (putScalar s t x.d
      (widen x.ty (op x.ty (srcVal s t x x.a x.ty.width 0) (srcVal s t x x.b x.ty.width 0)))) := by
  simp only [effSalu, opnd_ctxAt, ctxAt_x, putS_ctxAt]

theorem effSbfi_ctxAt (i : Instr) (opc sub n : Nat) (x : Ext) (t : Team) (s : State) :
    effSbfi (ctxAt i opc sub n x t) s = .done (putScalar s t x.d (widen x.ty (bfi x.ty.width
      (srcVal s t x x.a x.ty.width 0) (srcVal s t x x.b x.ty.width 0) (srcVal s t x x.c x.ty.width 0) : Nat))) := by
  simp only [effSbfi, opnd_ctxAt, ctxAt_x, putS_ctxAt]

theorem effSdiv_ctxAt (i : Instr) (opc sub n : Nat) (x : Ext) (t : Team) (s : State) :
    effSdiv (ctxAt i opc sub n x t) s = .done (putScalar s t x.d (widen x.ty (divRem x.ty (x.bit 0)
      (srcVal s t x x.a x.ty.width 0) (srcVal s t x x.b x.ty.width 0)))) := by
  simp only [effSdiv, opnd_ctxAt, ctxAt_x, putS_ctxAt]

/-- A two-source operation of group salu writes the widened exact result of R166. -/
theorem scalarOp_salu {α : Type} {mk : α → Instr} {ext : α → Ext} {len : α → Nat} {opc sub : Nat} (op : IntOp)
    (hexec : ∀ y s, exec (mk y) s = issue (mk y) opc sub (len y) (ext y) (onGo (effSalu op)) s) :
    ScalarOp mk ext len opc sub (fun x a b _ => widen x.ty (op x.ty a b)) :=
  scalarOp_of_effect hexec (effSalu_ctxAt op · opc sub)

/-- Settles O1: each instruction issues `effSalu` of its operation, or the effect of `sbfi` or `sdiv`. -/
theorem scalarArithmeticWritesItsResult : Obligations.ScalarArithmeticWritesItsResult := by
  unfold Obligations.ScalarArithmeticWritesItsResult
  refine ⟨scalarOp_salu opAdd (fun _ _ => rfl), scalarOp_salu opSub (fun _ _ => rfl), scalarOp_salu opMul (fun _ _ => rfl),
    scalarOp_salu opMulh (fun _ _ => rfl), scalarOp_salu opAnd (fun _ _ => rfl), scalarOp_salu opOr (fun _ _ => rfl),
    scalarOp_salu opXor (fun _ _ => rfl), scalarOp_salu opAndn (fun _ _ => rfl), scalarOp_salu opShl (fun _ _ => rfl),
    scalarOp_salu opShr (fun _ _ => rfl), scalarOp_salu opSar (fun _ _ => rfl), scalarOp_salu opMin (fun _ _ => rfl),
    scalarOp_salu opMax (fun _ _ => rfl), scalarOp_salu opClz (fun _ _ => rfl), scalarOp_salu opPopc (fun _ _ => rfl), ?sbfe,
    scalarOp_of_effect (fun _ _ => rfl) (effSbfi_ctxAt · 0x42 16), scalarOp_of_effect (fun _ _ => rfl) (effSdiv_ctxAt · 0x42 19),
    scalarOp_salu opAdd (fun _ _ => rfl), scalarOp_salu opSub (fun _ _ => rfl), scalarOp_salu opAnd (fun _ _ => rfl),
    scalarOp_salu opOr (fun _ _ => rfl), scalarOp_salu opShl (fun _ _ => rfl), scalarOp_salu opShr (fun _ _ => rfl)⟩
  case sbfe =>
    have h : ScalarOp Instr.sbfe id extLen 0x42 15 _ := scalarOp_salu opBfe (fun _ _ => rfl)
    simpa only [opBfe_eq_bitField] using h

/-! ## Vector arithmetic -/

/-- An operation on each element is that of R171. -/
theorem laneOp_eq_eachElem (op : IntOp) (ty : Ty) (sat : Bool) (a b : Nat) : laneOp op ty sat a b = eachElem op ty sat a b := rfl

theorem effVint_ctxAt (op : IntOp) (sat : Bool) (tag : C → State → Tag) (i : Instr) (opc sub n : Nat) (x : Ext) (t : Team)
    (s : State) : effVint op sat tag (ctxAt i opc sub n x t) s = .done (putLanes s t x x.ty.wide (fun l =>
      eachElem op x.ty (sat && x.bit 0) (srcVal s t x x.a x.ty.width l) (srcVal s t x x.b x.ty.width l))
      (tag (ctxAt i opc sub n x t) s)) := by
  simp only [effVint, opnd_ctxAt, ctxAt_x, ctxAt_t, laneOp_eq_eachElem, putV_ctxAt]

theorem effV3_ctxAt (f : Ty → Nat → Nat → Nat → Nat) (i : Instr) (opc sub n : Nat) (x : Ext) (t : Team) (s : State) :
    effV3 f (ctxAt i opc sub n x t) s = .done (putLanes s t x x.ty.wide (fun l => f x.ty (srcVal s t x x.a x.ty.width l)
      (srcVal s t x x.b x.ty.width l) (srcVal s t x x.c x.ty.width l)) (laneTag opc sub t x)) := by
  simp only [effV3, opnd_ctxAt, ctxAt_x, ctxAt_t, tag_ctxAt, putV_ctxAt]

/-- The number by which `affineTag` names a kind of affine arithmetic. -/
def AffK.num : AffK → Nat
  | .add => 0
  | .sub => 1
  | .mul => 2
  | .shl => 3

/-- The affine form of a source is its tag and its stride (06 R143). -/
theorem affine_ctxAt (i : Instr) (opc sub n : Nat) (x : Ext) (t : Team) (y : Src) :
    (ctxAt i opc sub n x t).affine y =
      if srcTag t y = .gen then none else some (decide (srcTag t y = .aff), srcStride t y) := by
  obtain ⟨cls, code, trp⟩ := y
  cases cls
  case vec => cases hv : (t.vreg code.toNat).tag <;> simp [C.affine, srcStride, srcTag, hv, baseStride, Team.lane]
  all_goals rfl

/-- The tag that the model gives affine arithmetic is that of R145. -/
theorem affTag_ctxAt (k : AffK) (i : Instr) (sub n : Nat) (x : Ext) (t : Team) (s : State) :
    affTag k (ctxAt i 0x43 sub n x t) s = affineTag k.num sub s t x := by
  have hty : ((x.ty = .i32 || x.ty = .n32 || x.ty = .b32) && x.x24 = 0) =
      decide ((x.ty = .i32 ∨ x.ty = .n32 ∨ x.ty = .b32) ∧ x.x24 = 0) := by
    simp only [Bool.decide_and, Bool.decide_or, Bool.or_assoc]
  have hx := ctxAt_x i 0x43 sub n x t
  simp only [affTag, C.affTag, affine_ctxAt, tag_ctxAt, opnd_ctxAt, hx, hty, affineTag, affineStride]
  by_cases hok : (x.ty = .i32 ∨ x.ty = .n32 ∨ x.ty = .b32) ∧ x.x24 = 0
  · obtain ⟨hint, hx24⟩ := hok
    cases srcTag t x.a <;> cases srcTag t x.b <;> cases k <;> simp [AffK.num, hint, hx24]
  · rw [if_neg (c := (x.ty = .i32 ∨ x.ty = .n32 ∨ x.ty = .b32) ∧ x.x24 = 0 ∧ _) (fun h => hok ⟨h.1, h.2.1⟩)]
    simp only [decide_eq_false hok, Bool.not_false, Bool.or_true, if_true]
    split <;> rfl

section
variable {α : Type} {mk : α → Instr} {ext : α → Ext} {len : α → Nat} {sub : Nat}

/-- A lane-wise operation without an affine rule; under `sat` its results are clamped where X24 [0] is set. -/
theorem vectorOp_plain (op : IntOp) (sat : Bool)
    (hexec : ∀ y s, exec (mk y) s = issue (mk y) 0x43 sub (len y) (ext y) (effVint op sat plainTag) s) :
    VectorOp mk ext len 0x43 sub (fun x a b _ => eachElem op x.ty (sat && x.bit 0) a b) :=
  vectorOp_of_effect hexec (fun _ _ _ _ _ => effVint_ctxAt ..)

/-- A lane-wise operation with the affine rule of its kind (06 R145). -/
theorem vectorOp_affine (op : IntOp) (sat : Bool) (k : AffK)
    (hexec : ∀ y s, exec (mk y) s = issue (mk y) 0x43 sub (len y) (ext y) (effVint op sat (affTag k)) s) :
    VectorOp mk ext len 0x43 sub (fun x a b _ => eachElem op x.ty (sat && x.bit 0) a b) (affineTag k.num sub) :=
  vectorOp_of_effect hexec (fun _ _ _ _ _ => by simp only [effVint_ctxAt, affTag_ctxAt])

/-- The one-word form of such an operation has no X24, and therefore no `sat` (03 R77). -/
theorem vectorOp_affineShort {mk : Short → Instr} (op : IntOp) (sat : Bool) (k : AffK)
    (hexec : ∀ y s, exec (mk y) s =
      issue (mk y) 0x43 sub (shortLen y) (shortTwo y .vec .i32) (effVint op sat (affTag k)) s) :
    VectorOp mk (shortTwo · .vec .i32) shortLen 0x43 sub (fun x a b _ => eachElem op x.ty false a b)
      (affineTag k.num sub) := by
  have hsat (y : Short) : (sat && (shortTwo y .vec .i32).bit 0) = false := by simp [shortTwo, Ext.bit]
  exact vectorOp_of_effect hexec (fun y _ _ _ _ => by simp only [effVint_ctxAt, affTag_ctxAt, hsat])

/-- A lane-wise function of three sources. -/
theorem vectorOp_three (f : Ty → Nat → Nat → Nat → Nat)
    (hexec : ∀ y s, exec (mk y) s = issue (mk y) 0x43 sub (len y) (ext y) (effV3 f) s) :
    VectorOp mk ext len 0x43 sub (fun x a b c => f x.ty a b c) :=
  vectorOp_of_effect hexec (fun _ _ _ _ _ => effV3_ctxAt ..)

end

/-- Settles O5: each instruction issues `effVint` of its operation, with or without an affine rule, or `effV3`. -/
theorem vectorArithmeticWritesActiveLanes : Obligations.VectorArithmeticWritesActiveLanes := by
  unfold Obligations.VectorArithmeticWritesActiveLanes
  refine ⟨vectorOp_affine opAdd true .add (fun _ _ => rfl), vectorOp_affine opSub true .sub (fun _ _ => rfl),
    vectorOp_affine opMul false .mul (fun _ _ => rfl), vectorOp_plain opMulh false (fun _ _ => rfl),
    vectorOp_three vmadOf (fun _ _ => rfl), vectorOp_plain opMin false (fun _ _ => rfl),
    vectorOp_plain opMax false (fun _ _ => rfl), vectorOp_plain opAbs true (fun _ _ => rfl),
    vectorOp_plain opSar false (fun _ _ => rfl), ?vbfe, vectorOp_three (fun ty => bfi ty.width) (fun _ _ => rfl),
    vectorOp_affineShort opAdd true .add (fun _ _ => rfl), vectorOp_affineShort opSub true .sub (fun _ _ => rfl)⟩
  case vbfe =>
    have h : VectorOp Instr.vbfe id extLen 0x43 19 _ := vectorOp_plain opBfe false (fun _ _ => rfl)
    simpa only [eachElem, opBfe_eq_bitField, Bool.false_and] using h

/-! ## Vector bit operations, select, carry and moves -/

theorem effVlaneid_ctxAt (i : Instr) (opc sub n : Nat) (x : Ext) (t : Team) (s : State) :
    effVlaneid (ctxAt i opc sub n x t) s = .done (putLanes s t x false id .aff) := by
  rw [← putV_ctxAt i opc sub n, List.map_id]
  rfl

theorem effVaddc_ctxAt (i : Instr) (opc sub n : Nat) (x : Ext) (t : Team) (s : State) :
    let sum (l : Nat) : Nat := srcVal s t x x.a x.ty.width l + srcVal s t x x.b x.ty.width l + srcVal s t x x.c 1 l
    effVaddc (ctxAt i opc sub n x t) s = .done (putPred (putLanes s t x x.ty.wide (fun l => sum l % 2 ^ x.ty.width)
      (laneTag opc sub t x)) t x (x.f 4 0) (fun l => decide (2 ^ x.ty.width ≤ sum l))) := by
  have hsum : (ctxAt i opc sub n x t).carrySum s = fun l =>
      srcVal s t x x.a x.ty.width l + srcVal s t x x.b x.ty.width l + srcVal s t x x.c 1 l := by
    funext l
    simp only [C.carrySum, opnd_ctxAt, ctxAt_x]
  simp only [effVaddc, hsum, ctxAt_x, ctxAt_t, ctxAt_act, tag_ctxAt, List.map_map, putPred]
  rfl

/-- `vmov` copies the source register with its tag, or the low word of the literal (03 R79). -/
theorem effVmov_ctxAt (i : Instr) (opc sub n : Nat) (y : Short) (t : Team) (s : State) :
    effVmov (ctxAt i opc sub n (shortOne y .vec .b32) t) s = .done (putLanes s t (shortOne y .vec .b32) false
      (fun l => match y.lit with
        | some v => v.toNat % 2 ^ 32
        | none => (t.lane y.a.toNat l).toNat % 2 ^ 32)
      (match y.lit with
        | some _ => .uni
        | none => (t.vreg y.a.toNat).tag)) := by
  obtain ⟨neg, g, d, a, fa, lit⟩ := y
  cases lit <;> rfl

/-- Settles O6: as O5, with the effects of `vlaneid`, `vaddc` and `vmov`. -/
theorem vectorBitOperationsWriteActiveLanes : Obligations.VectorBitOperationsWriteActiveLanes := by
  unfold Obligations.VectorBitOperationsWriteActiveLanes
  refine ⟨vectorOp_plain opAnd false (fun _ _ => rfl), vectorOp_plain opOr false (fun _ _ => rfl),
    vectorOp_plain opXor false (fun _ _ => rfl), vectorOp_plain opAndn false (fun _ _ => rfl),
    vectorOp_plain opNot false (fun _ _ => rfl), vectorOp_affine opShl false .shl (fun _ _ => rfl),
    vectorOp_plain opShr false (fun _ _ => rfl), vectorOp_plain opClz false (fun _ _ => rfl),
    vectorOp_plain opPopc false (fun _ _ => rfl), vectorOp_plain opBrev false (fun _ _ => rfl), ?vilv, ?vdil,
    vectorOp_plain opAnd false (fun _ _ => rfl), vectorOp_plain opOr false (fun _ _ => rfl),
    vectorOp_plain opXor false (fun _ _ => rfl), vectorOp_affine opShl false .shl (fun _ _ => rfl),
    vectorOp_plain opShr false (fun _ _ => rfl), ?vsel, ?vlaneid, ?vaddc, ?vmov⟩
  case vilv =>
    exact vectorOp_of_effect (fun _ _ => rfl) (fun x _ _ _ _ => effV3_ctxAt (fun _ a b d => vilvOf (x.bit 0) a b d) ..)
  case vdil =>
    exact vectorOp_of_effect (fun _ _ => rfl)
      (fun x _ _ _ _ => effV3_ctxAt (fun _ a _ _ => vdilOf (x.bit 0) (x.f 2 1) a) ..)
  case vsel => exact fun x s t h => exec_of_done rfl h (effV3_ctxAt vselOf ..)
  case vlaneid => exact fun x s t h => exec_of_done rfl h (effVlaneid_ctxAt ..)
  case vaddc => exact fun x s t h => exec_of_done rfl h (effVaddc_ctxAt ..)
  case vmov => exact fun y s t h => exec_of_done rfl h (effVmov_ctxAt ..)

end Sys2Proof.Machine
end

section
/-!
PROOFS. The device after reset (02 R53, 03 R70, 10 R239, 20 R445).
-/

namespace Sys2Proof.Machine

/-- A core of the device after reset is the reset core of some number. -/
theorem mem_cores_reset {c : Core} (h : c ∈ State.reset.cores) : ∃ n, c = Core.reset n := by
  obtain ⟨n, _, hn⟩ := List.mem_map.mp h
  exact ⟨n, hn.symm⟩

theorem length_cores_reset : State.reset.cores.length = 256 :=
  (List.length_map (as := List.range 256) Core.reset).trans List.length_range

theorem memWf_reset : State.reset.memWf = true := by
  have hcores : State.reset.cores.all (fun c => c.scratch.wf && c.obuf.wf && c.l1.all (fun l => l.bytes.wf) &&
      c.icache.all (fun l => l.bytes.wf) && c.texels.all (fun l => l.bytes.wf)) = true := by
    refine List.all_eq_true.mpr (fun c hc => ?_)
    obtain ⟨n, rfl⟩ := mem_cores_reset hc
    rfl
  rw [State.memWf, hcores]
  rfl

/-- Settles O58: the state after reset is written out, and each of its cores is a reset core. -/
theorem resetLeavesAnEmptyDevice : Obligations.ResetLeavesAnEmptyDevice := by
  unfold Obligations.ResetLeavesAnEmptyDevice
  refine ⟨rfl, memWf_reset, rfl, rfl, length_cores_reset, fun c hc => ?core, rfl, rfl, rfl, rfl, rfl, rfl, rfl, rfl⟩
  case core =>
    obtain ⟨n, rfl⟩ := mem_cores_reset hc
    refine ⟨rfl, rfl, rfl, fun b hb => ?_⟩
    rw [List.eq_of_mem_replicate hb]
    rfl

end Sys2Proof.Machine
end

section
/-!
PROOFS. The frame of an instruction on registers (02 R43, R44, 06 R152, 04 R98): which changes of a team keep what `Kept` asks,
which effects make only such changes, and from them the frame of each form.
-/

namespace Sys2Proof.Machine

/-- What `Kept` asks of the team that an instruction leaves. -/
def RegsKept (t : Team) (x : Ext) (sD vD pD : Nat → Bool) (flags : Bool) (u : Team) : Prop :=
  u = { t with pc := u.pc, s := u.s, v := u.v, p := u.p, status := u.status, issueNo := u.issueNo } ∧
  (∀ n, sD n = false → u.sval n = t.sval n) ∧ (∀ n, u.sfull n = t.sfull n) ∧
  (∀ n, vD n = false → u.vreg n = t.vreg n) ∧ (∀ n, (u.vreg n).full = (t.vreg n).full) ∧
  (∀ n l, pD n = false → u.pr n l = t.pr n l) ∧
  (∀ l, l < t.width → (activeLanes t x).getD l false = false → ∀ n, u.lane n l = t.lane n l ∧ u.pr n l = t.pr n l) ∧
  (∀ b, t.status.getLsbD b = true → u.status.getLsbD b = true) ∧
  (∀ b, (flags = false ∨ b < 5 ∨ 9 < b) → u.status.getLsbD b = t.status.getLsbD b)

/-! ## Registers read after a write -/

theorem Team.sreg_setS (t : Team) (n k : Nat) (v : Word64) :
    (t.setS n v).s.getD k { val := 0, full := true } =
      if n = k ∧ k < t.s.length then { t.s.getD k { val := 0, full := true } with val := v }
      else t.s.getD k { val := 0, full := true } := by
  simp only [Team.setS, List.getD_eq_getElem?_getD, List.getElem?_modify]
  by_cases hk : k < t.s.length <;> by_cases hn : n = k <;> simp [hk, hn]

theorem Team.sval_setS_other (t : Team) (n k : Nat) (v : Word64) (h : n ≠ k) : (t.setS n v).sval k = t.sval k := by
  rw [Team.sval, Team.sreg_setS, if_neg (fun e => h e.1)]
  rfl

theorem Team.sfull_setS (t : Team) (n k : Nat) (v : Word64) : (t.setS n v).sfull k = t.sfull k := by
  rw [Team.sfull, Team.sreg_setS]
  split <;> rfl

/-- A list with the entries of the active lanes replaced; it is as long as the shortest of the three. -/
def mergeLanes {α : Type} (act : List Bool) (old new : List α) : List α :=
  (act.zip (old.zip new)).map (fun y => if y.1 then y.2.2 else y.2.1)

/-- An entry that is not active is kept, when the new list has an entry in its place. -/
theorem getD_mergeLanes_of_inactive {α : Type} (act : List Bool) (old new : List α) (z : α) (l : Nat)
    (hact : act.getD l false = false) (hlen : l < act.length) (hnew : l < new.length) :
    (mergeLanes act old new).getD l z = old.getD l z := by
  by_cases hold : l < old.length
  · have ha : act[l] = false := by simpa [List.getD_eq_getElem?_getD, hlen] using hact
    simp [mergeLanes, List.getD_eq_getElem?_getD, hlen, hnew, hold, ha]
  · simp [mergeLanes, List.getD_eq_getElem?_getD, hold]

/-- A vector register after a write of some lanes. -/
theorem Team.vreg_writeV (t : Team) (n k : Nat) (act : List Bool) (vals : List Word) (g : Tag) :
    (t.writeV n act vals g).vreg k = if n = k ∧ k < t.v.length then
      { t.vreg k with
        tag := t.tagAfter act (t.vreg k).tag g,
        lanes := mergeLanes act (t.vreg k).lanes vals }
      else t.vreg k := by
  simp only [Team.writeV, Team.vreg, List.getD_eq_getElem?_getD, List.getElem?_modify]
  by_cases hk : k < t.v.length <;> by_cases hn : n = k <;> simp [hk, hn, mergeLanes]

theorem Team.prow_writeP (t : Team) (n k : Nat) (act vals : List Bool) :
    (t.writeP n act vals).p.getD k [] = if n ≠ 23 ∧ n = k ∧ k < t.p.length then
      mergeLanes act (t.p.getD k []) vals else t.p.getD k [] := by
  by_cases h23 : n = 23
  · simp [Team.writeP, h23]
  · simp only [Team.writeP, h23, if_false, List.getD_eq_getElem?_getD, List.getElem?_modify]
    by_cases hk : k < t.p.length <;> by_cases hn : n = k <;> simp [hk, hn, mergeLanes]
    exact fun e => absurd (hn.trans e) h23

theorem Team.pr_writeP_other (t : Team) (n k l : Nat) (act vals : List Bool) (h : n ≠ k) :
    (t.writeP n act vals).pr k l = t.pr k l := by
  rw [Team.pr, Team.pr, Team.prow_writeP, if_neg (c := n ≠ 23 ∧ n = k ∧ _) (fun e => h e.2.1)]

theorem Team.pr_writeP_inactive (t : Team) (n k l : Nat) (act vals : List Bool) (hact : act.getD l false = false)
    (hlen : l < act.length) (hvals : l < vals.length) : (t.writeP n act vals).pr k l = t.pr k l := by
  rw [Team.pr, Team.pr, Team.prow_writeP]
  by_cases hw : n ≠ 23 ∧ n = k ∧ k < t.p.length
  · rw [if_pos hw, getD_mergeLanes_of_inactive act _ vals false l hact hlen hvals]
  · rw [if_neg hw]

/-! ## Writes that keep what an instruction leaves -/

theorem length_activeLanes (t : Team) (x : Ext) : (activeLanes t x).length = t.width := by
  simp [activeLanes, Team.acts, Team.laneIxs]

section
variable {t u : Team} {x : Ext} {sD vD pD : Nat → Bool} {flags : Bool}

theorem RegsKept.refl (t : Team) : RegsKept t x sD vD pD flags t :=
  ⟨rfl, fun _ _ => rfl, fun _ => rfl, fun _ _ => rfl, fun _ => rfl, fun _ _ _ => rfl, fun _ _ _ _ => ⟨rfl, rfl⟩, fun _ h => h,
    fun _ _ => rfl⟩

/-- The end of an issue moves only the program counter and the issue number. -/
theorem RegsKept.goTo (h : RegsKept t x sD vD pD flags u) (a : Word64) (n : Nat) :
    RegsKept t x sD vD pD flags { u with pc := a, issueNo := n } := by
  obtain ⟨hu, hrest⟩ := h
  exact ⟨by rw [hu], hrest⟩

theorem RegsKept.setS (h : RegsKept t x sD vD pD flags u) {n : Nat} (hn : sD n = true) (v : Word64) :
    RegsKept t x sD vD pD flags (u.setS n v) := by
  obtain ⟨hu, hs, hf, hrest⟩ := h
  refine ⟨by rw [Team.setS, hu], fun k hk => ?_, fun k => ?_, hrest⟩
  · rw [Team.sval_setS_other, hs k hk]
    rintro rfl
    rw [hn] at hk
    cases hk
  · rw [Team.sfull_setS, hf]

theorem RegsKept.writeV (h : RegsKept t x sD vD pD flags u) {n : Nat} (hn : vD n = true) {vals : List Word}
    (hvals : t.width ≤ vals.length) (g : Tag) : RegsKept t x sD vD pD flags (u.writeV n (activeLanes t x) vals g) := by
  obtain ⟨hu, hs, hf, hv, hvf, hp, hl, hst⟩ := h
  refine ⟨by rw [Team.writeV, hu], hs, hf, fun k hk => ?_, fun k => ?_, hp, fun l hlw hoff k => ⟨?_, (hl l hlw hoff k).2⟩, hst⟩
  · rw [Team.vreg_writeV, if_neg, hv k hk]
    rintro ⟨rfl, -⟩
    rw [hn] at hk
    cases hk
  · rw [Team.vreg_writeV, ← hvf k]
    split <;> rfl
  · rw [← (hl l hlw hoff k).1, Team.lane, Team.vreg_writeV]
    split
    · exact getD_mergeLanes_of_inactive _ _ _ 0 l hoff (by rwa [length_activeLanes]) (by omega)
    · rfl

theorem RegsKept.writeN (h : RegsKept t x sD vD pD flags u) {n : Nat} {wide : Bool} (hn : vD n = true)
    (hwide : wide = true → vD (n + 1) = true) {vals : List Nat} (hvals : t.width ≤ vals.length) (g : Tag) :
    RegsKept t x sD vD pD flags (u.writeN n wide (activeLanes t x) vals g) := by
  have hlow := h.writeV (vals := vals.map (BitVec.ofNat 32)) hn (by rwa [List.length_map]) g
  cases wide
  · exact hlow
  · exact hlow.writeV (hwide rfl) (by rwa [List.length_map]) g

theorem RegsKept.writeP (h : RegsKept t x sD vD pD flags u) {n : Nat} (hn : pD n = true) {vals : List Bool}
    (hvals : t.width ≤ vals.length) : RegsKept t x sD vD pD flags (u.writeP n (activeLanes t x) vals) := by
  obtain ⟨hu, hs, hf, hv, hvf, hp, hl, hst⟩ := h
  have hrest : u.writeP n (activeLanes t x) vals = { u with p := (u.writeP n (activeLanes t x) vals).p } := by
    unfold Team.writeP
    split <;> rfl
  rw [hrest]
  refine ⟨by rw [hu], hs, hf, hv, hvf, fun k l hk => ?_, fun l hlw hoff k => ⟨(hl l hlw hoff k).1, ?_⟩, hst⟩
  · refine Eq.trans ?_ (hp k l hk)
    refine Team.pr_writeP_other u n k l (activeLanes t x) vals ?_
    rintro rfl
    rw [hn] at hk
    cases hk
  · refine Eq.trans ?_ (hl l hlw hoff k).2
    exact Team.pr_writeP_inactive u n k l _ vals hoff (by rwa [length_activeLanes]) (by omega)

/-- Flags that are raised stand in bits 5 to 9 of `status` (04 R98). -/
theorem getLsbD_orFlags (w : Word64) (f : Flg) (b : Nat) :
    (orFlags w f).getLsbD b = (w.getLsbD b || (decide (5 ≤ b ∧ b < 10) && f.testBit (b - 5))) := by
  have hmul : (f % 32 * 32).testBit b = (decide (5 ≤ b) && (decide (b - 5 < 5) && f.testBit (b - 5))) := by
    rw [show f % 32 * 32 = f % 2 ^ 5 * 2 ^ 5 from rfl, Nat.testBit_mul_two_pow, Nat.testBit_mod_two_pow]
  rw [Machine.orFlags, BitVec.getLsbD_or, BitVec.getLsbD_ofNat, hmul]
  by_cases h5 : 5 ≤ b <;> by_cases h10 : b < 10
  · simp [h5, h10, show b < 64 by omega, show b - 5 < 5 by omega]
  · simp [h10, show ¬ b - 5 < 5 by omega]
  · simp [h5]
  · simp [h5]

theorem RegsKept.orFlags (h : RegsKept t x sD vD pD true u) (f : Flg) :
    RegsKept t x sD vD pD true { u with status := orFlags u.status f } := by
  obtain ⟨hu, hs, hf, hv, hvf, hp, hl, hset, hother⟩ := h
  refine ⟨by rw [hu], hs, hf, hv, hvf, hp, hl, fun b hb => ?_, fun b hb => ?_⟩
  · rw [getLsbD_orFlags, hset b hb, Bool.true_or]
  · have hout : ¬ (5 ≤ b ∧ b < 10) := by
      rcases hb with hb | hb | hb
      · cases hb
      · omega
      · omega
    rw [getLsbD_orFlags, decide_eq_false hout, Bool.false_and, Bool.or_false, hother b hb]

end

/-! ## The frame of a state -/

theorem uid_of_team? {s : State} {v : Nat} {t : Team} (h : s.team? v = some t) : t.uid = v := by
  simpa using List.find?_some h

/-- A change of one team leaves the others alone. -/
theorem team_onTeam_other (s : State) {u v : Nat} {f : Team → Team} (hf : ∀ t, (f t).uid = t.uid) (h : v ≠ u) :
    (s.onTeam u f).team? v = s.team? v := by
  rw [team_onTeam s u v f hf]
  cases ht : s.team? v with
  | none => rfl
  | some t => simp [uid_of_team? ht, h]

theorem team_onTeam_same {s : State} {u : Nat} {f : Team → Team} {t : Team} (hf : ∀ t, (f t).uid = t.uid)
    (h : s.team? u = some t) : (s.onTeam u f).team? u = some (f t) := by
  rw [team_onTeam s u u f hf, h]
  simp [uid_of_team? h]

theorem team?_goTo_other (s : State) (t : Team) (a : Word64) {v : Nat} (h : v ≠ t.uid) : (goTo s t a).team? v = s.team? v := by
  refine team_onTeam_other s ?_ h
  exact fun _ => rfl

theorem team?_goTo_same {s : State} {t u : Team} (h : s.team? t.uid = some u) (a : Word64) :
    (goTo s t a).team? t.uid = some { u with pc := a, issueNo := u.issueNo + 1 } :=
  team_onTeam_same (fun _ => rfl) h

section
variable {s s1 : State} {t : Team} {x : Ext} {sD vD pD : Nat → Bool} {flags : Bool}

theorem SameOutside.refl (s : State) (u : Nat) : SameOutside s s u := ⟨fun _ => rfl, fun _ _ => rfl, s.teams, rfl⟩

theorem SameOutside.onTeam {u : Nat} (h : SameOutside s s1 u) {f : Team → Team} (hf : ∀ u, (f u).uid = u.uid) :
    SameOutside s (s1.onTeam u f) u := by
  obtain ⟨hmem, hteams, ts, hstate⟩ := h
  refine ⟨hmem, fun v hv => ?_, (s1.onTeam u f).teams, ?_⟩
  · rw [team_onTeam_other s1 hf hv, hteams v hv]
  · subst hstate
    rfl

theorem Kept.refl (h : s.team? t.uid = some t) : Kept s s t x sD vD pD flags :=
  ⟨SameOutside.refl s t.uid, t, h, RegsKept.refl t⟩

/-- A change of the team that keeps what the instruction leaves keeps the frame of the state. -/
theorem Kept.onTeam (h : Kept s s1 t x sD vD pD flags) {f : Team → Team} (hf : ∀ u, (f u).uid = u.uid)
    (hk : ∀ u, RegsKept t x sD vD pD flags u → RegsKept t x sD vD pD flags (f u)) :
    Kept s (s1.onTeam t.uid f) t x sD vD pD flags := by
  obtain ⟨hout, u, hu, hregs⟩ := h
  exact ⟨hout.onTeam hf, f u, team_onTeam_same hf hu, hk u hregs⟩

theorem Kept.putScalar (h : Kept s s1 t x sD vD pD flags) {d : BitVec 8} (hd : sD d.toNat = true) (v : Word64) :
    Kept s (putScalar s1 t d v) t x sD vD pD flags :=
  h.onTeam (fun _ => rfl) (fun _ hu => hu.setS hd v)

theorem Kept.goTo (h : Kept s s1 t x sD vD pD flags) (a : Word64) : Kept s (goTo s1 t a) t x sD vD pD flags :=
  h.onTeam (fun _ => rfl) (fun u hu => hu.goTo a (u.issueNo + 1))

theorem uid_writeN (u : Team) (n : Nat) (wide : Bool) (act : List Bool) (vals : List Nat) (g : Tag) :
    (u.writeN n wide act vals g).uid = u.uid := by
  cases wide <;> rfl

theorem uid_writeP (u : Team) (n : Nat) (act vals : List Bool) : (u.writeP n act vals).uid = u.uid := by
  unfold Team.writeP
  split <;> rfl

theorem Kept.writeN (h : Kept s s1 t x sD vD pD flags) {d : Nat} {wide : Bool} (hd : vD d = true)
    (hwide : wide = true → vD (d + 1) = true) {vals : List Nat} (hvals : t.width ≤ vals.length) (g : Tag) :
    Kept s (s1.onTeam t.uid (fun u => u.writeN d wide (activeLanes t x) vals g)) t x sD vD pD flags :=
  h.onTeam (fun u => uid_writeN u ..) (fun _ hu => hu.writeN hd hwide hvals g)

theorem Kept.writeP (h : Kept s s1 t x sD vD pD flags) {d : Nat} (hd : pD d = true) {vals : List Bool}
    (hvals : t.width ≤ vals.length) :
    Kept s (s1.onTeam t.uid (fun u => u.writeP d (activeLanes t x) vals)) t x sD vD pD flags :=
  h.onTeam (fun u => uid_writeP u ..) (fun _ hu => hu.writeP hd hvals)

theorem Kept.addFlags (h : Kept s s1 t x sD vD pD true) (f : Flg) : Kept s (addFlags s1 t f) t x sD vD pD true :=
  h.onTeam (fun _ => rfl) (fun _ hu => hu.orFlags f)

end

/-! ## The frame of an effect -/

/-- An effect without a trap whose state keeps the frame. -/
def EffKept (s : State) (t : Team) (x : Ext) (sD vD pD : Nat → Bool) (flags : Bool) : Eff → Prop
  | .done s1 => Kept s s1 t x sD vD pD flags
  | .jump s1 _ => Kept s s1 t x sD vD pD flags
  | .wait s1 => Kept s s1 t x sD vD pD flags
  | .trap _ _ => False

/-- An instruction that issues keeps the frame that its effect keeps. -/
theorem kept_of_effect {i : Instr} {opc sub n : Nat} {x : Ext} {eff : C → State → Eff} {s s' : State} {t : Team}
    {sD vD pD : Nat → Bool} {flags : Bool} (hexec : exec i s = issue i opc sub n x eff s) (h : Issues opc sub x s t)
    (heff : EffKept s t x sD vD pD flags (eff (ctxAt i opc sub n x t) s)) (hs' : exec i s = .next s') :
    Kept s s' t x sD vD pD flags := by
  have hpart : t.part = none := h.2.1
  rw [hexec, issue_runs _ _ _ _ _ _ _ _ h] at hs'
  cases hs'
  cases he : eff (ctxAt i opc sub n x t) s with
  | done s1 =>
    rw [he] at heff
    rw [finish_done _ _ _ _ _ _ _ hpart]
    exact Kept.goTo heff _
  | jump s1 a =>
    rw [he] at heff
    rw [finish_jump _ _ _ _ _ _ _ _ hpart]
    exact Kept.goTo heff _
  | wait s1 =>
    rw [he] at heff
    exact heff
  | trap s1 tr =>
    rw [he] at heff
    exact heff.elim

theorem team?_uid_of_issues {opc sub : Nat} {x : Ext} {s : State} {t : Team} (h : Issues opc sub x s t) :
    s.team? t.uid = some t := by
  rw [uid_of_team? h.1]
  exact h.1

/-- From every state, an effect ends without a trap and keeps the frame; with `flags`, when no trap is enabled. -/
def KeepsFrame (eff : C → State → Eff) (flags : Bool) (sD vD pD : Ext → Nat → Bool) : Prop :=
  ∀ i opc sub n x s t, s.team? t.uid = some t → (flags = true → ∀ g, enabled t.status g = 0) →
    EffKept s t x (sD x) (vD x) (pD x) flags (eff (ctxAt i opc sub n x t) s)

theorem frameOf_of_keepsFrame {forms : List (Nat × Nat × (Ext → Instr))} {flags : Bool} {sD vD pD : Ext → Nat → Bool}
    (h : ∀ f ∈ forms, ∃ eff, (∀ x s, exec (f.2.2 x) s = issueExt (f.2.2 x) f.1 f.2.1 x eff s) ∧
      KeepsFrame eff flags sD vD pD) : FrameOf forms flags sD vD pD := by
  intro f hf x s t s' hi hfl hs'
  obtain ⟨eff, hexec, heff⟩ := h f hf
  exact kept_of_effect (hexec x s) hi (heff _ _ _ _ x s t (team?_uid_of_issues hi) hfl) hs'

theorem frameShort_of_keepsFrame {forms : List (Nat × Nat × (Short → Instr) × (Short → Ext))} {flags : Bool}
    {sD vD pD : Ext → Nat → Bool}
    (h : ∀ f ∈ forms, ∃ eff, (∀ y s, exec (f.2.2.1 y) s = issue (f.2.2.1 y) f.1 f.2.1 (shortLen y) (f.2.2.2 y) eff s) ∧
      KeepsFrame eff flags sD vD pD) : FrameShort forms flags sD vD pD := by
  intro f hf y s t s' hi hfl hs'
  obtain ⟨eff, hexec, heff⟩ := h f hf
  exact kept_of_effect (hexec y s) hi (heff _ _ _ _ _ s t (team?_uid_of_issues hi) hfl) hs'

section
variable {eff : C → State → Eff} {flags : Bool} {sD vD pD : Ext → Nat → Bool}

theorem KeepsFrame.onGo (h : KeepsFrame eff flags sD vD pD) : KeepsFrame (onGo eff) flags sD vD pD := by
  intro i opc sub n x s t ht hfl
  unfold Machine.onGo
  split
  · exact h i opc sub n x s t ht hfl
  · exact Kept.refl ht

theorem keepsFrame_putS (h : ∀ c s, ∃ v, eff c s = .done (c.putS s v)) (hd : ∀ x, sD x x.d.toNat = true) :
    KeepsFrame eff flags sD vD pD := by
  intro i opc sub n x s t ht _
  obtain ⟨v, hv⟩ := h (ctxAt i opc sub n x t) s
  rw [hv]
  exact (Kept.refl ht).putScalar (hd x) v

theorem keepsFrame_putV (h : ∀ c s, ∃ wide vals g, eff c s = .done (c.putV s wide vals g) ∧ vals.length = c.t.width ∧
      (wide = true → vD c.x (c.x.d.toNat + 1) = true)) (hd : ∀ x, vD x x.d.toNat = true) :
    KeepsFrame eff flags sD vD pD := by
  intro i opc sub n x s t ht _
  obtain ⟨wide, vals, g, heff, hlen, hwide⟩ := h (ctxAt i opc sub n x t) s
  rw [heff]
  exact (Kept.refl ht).writeN (hd x) hwide hlen.ge g

theorem keepsFrame_writeP (h : ∀ c s, ∃ vals, eff c s = .done (s.onTeam c.t.uid (fun u => u.writeP c.x.d.toNat c.act vals)) ∧
      vals.length = c.t.width) (hd : ∀ x, pD x x.d.toNat = true) : KeepsFrame eff flags sD vD pD := by
  intro i opc sub n x s t ht _
  obtain ⟨vals, heff, hlen⟩ := h (ctxAt i opc sub n x t) s
  rw [heff]
  exact (Kept.refl ht).writeP (hd x) hlen.ge

/-- The flags of a floating-point instruction whose traps are all disabled change `status` alone (04 R98, R99). -/
theorem effKept_fpDone {s s1 : State} {t : Team} {x : Ext} {sD vD pD : Nat → Bool} (h : Kept s s1 t x sD vD pD true)
    (hoff : ∀ g, enabled t.status g = 0) (i : Instr) (opc sub n : Nat) (fl : List (Nat × Flg)) :
    EffKept s t x sD vD pD true ((ctxAt i opc sub n x t).fpDone s1 fl) := by
  have htrap : fpTrap t t.pc (t.pc + BitVec.ofNat 64 n) fl = none := by
    rw [fpTrap, if_pos (hoff _)]
  rw [C.fpDone]
  simp only [ctxAt_t]
  rw [show (ctxAt i opc sub n x t).npc = t.pc + BitVec.ofNat 64 n from rfl, htrap]
  exact h.addFlags _

theorem keepsFrame_fpLanes (h : ∀ c s, ∃ wide tag f, eff c s = c.fpLanes s wide tag f ∧
      (wide = true → vD c.x (c.x.d.toNat + 1) = true)) (hd : ∀ x, vD x x.d.toNat = true) :
    KeepsFrame eff true sD vD pD := by
  intro i opc sub n x s t ht hoff
  obtain ⟨wide, tag, f, heff, hwide⟩ := h (ctxAt i opc sub n x t) s
  rw [heff]
  refine effKept_fpDone ((Kept.refl ht).writeN (hd x) hwide ?_ tag) (hoff rfl) ..
  simp [Team.laneIxs]

theorem keepsFrame_branchIf (p : C → State → Bool) : KeepsFrame (branchIf p) flags sD vD pD := by
  intro i opc sub n x s t ht _
  unfold branchIf
  split <;> exact Kept.refl ht

theorem keepsFrame_effNop : KeepsFrame effNop flags sD vD pD := fun _ _ _ _ _ _ _ ht _ => Kept.refl ht

theorem keepsFrame_effCall (hd : ∀ x, sD x x.d.toNat = true) : KeepsFrame effCall flags sD vD pD := by
  intro i opc sub n x s t ht _
  unfold effCall
  split
  · exact (Kept.refl ht).putScalar (hd x) _
  · exact Kept.refl ht

theorem keepsFrame_effLoop (hd : ∀ x, sD x x.d.toNat = true) : KeepsFrame effLoop flags sD vD pD := by
  intro i opc sub n x s t ht _
  simp only [effLoop]
  split
  · split <;> exact (Kept.refl ht).putScalar (hd x) _
  · exact Kept.refl ht

theorem keepsFrame_effSrd (hd : ∀ x, sD x x.d.toNat = true) : KeepsFrame effSrd flags sD vD pD := by
  intro i opc sub n x s t ht _
  simp only [effSrd]
  split
  · exact Kept.refl ht
  · exact (Kept.refl ht).putScalar (hd x) _

theorem keepsFrame_effYchk (hd : ∀ x, pD x x.d.toNat = true) : KeepsFrame effYchk flags sD vD pD := by
  intro i opc sub n x s t ht _
  refine Kept.onTeam (Kept.refl ht) (fun u => uid_writeP u ..) (fun u hu => hu.writeP (hd x) ?_)
  have hw : u.width = t.width := by rw [hu.1]
  simp [Team.laneIxs, hw]

theorem keepsFrame_effVcmp (hd : ∀ x, pD x x.d.toNat = true) (he : ∀ x, pD x (x.f 4 0) = true) :
    KeepsFrame effVcmp flags sD vD pD := by
  intro i opc sub n x s t ht _
  refine Kept.onTeam (Kept.refl ht) (fun u => (uid_writeP ..).trans (uid_writeP u ..)) (fun u hu =>
    (hu.writeP (hd x) ?_).writeP (he x) ?_)
  all_goals simp [Team.laneIxs]

theorem keepsFrame_effVaddc (hd : ∀ x, vD x x.d.toNat = true)
    (hwide : ∀ x, x.ty.wide = true → vD x (x.d.toNat + 1) = true) (he : ∀ x, pD x (x.f 4 0) = true) :
    KeepsFrame effVaddc flags sD vD pD := by
  intro i opc sub n x s t ht _
  refine ((Kept.refl ht).writeN (hd x) (hwide x) ?_ _).writeP (he x) ?_
  all_goals simp [Team.laneIxs]

end

/-- A vector register after a change of one register's tag (06 R155). -/
theorem Team.vreg_setTag (u : Team) (n k : Nat) (g : Tag) :
    Team.vreg { u with v := u.v.modify n (fun q => { q with tag := g }) } k =
      if n = k ∧ k < u.v.length then { u.vreg k with tag := g } else u.vreg k := by
  simp only [Team.vreg, List.getD_eq_getElem?_getD, List.getElem?_modify]
  by_cases hk : k < u.v.length <;> by_cases hn : n = k <;> simp [hk, hn]

theorem Team.lane_setTag (u : Team) (n : Nat) (g : Tag) (k l : Nat) :
    Team.lane { u with v := u.v.modify n (fun q => { q with tag := g }) } k l = u.lane k l := by
  rw [Team.lane, Team.vreg_setTag]
  split <;> rfl

theorem RegsKept.setTag {t u : Team} {x : Ext} {sD vD pD : Nat → Bool} {flags : Bool} (h : RegsKept t x sD vD pD flags u) {n : Nat}
    (hn : vD n = true) (g : Tag) :
    RegsKept t x sD vD pD flags { u with v := u.v.modify n (fun q => { q with tag := g }) } := by
  obtain ⟨hu, hs, hf, hv, hvf, hp, hl, hst⟩ := h
  refine ⟨by rw [hu], hs, hf, fun k hk => ?_, fun k => ?_, hp, fun l hlw hoff k => ⟨?_, (hl l hlw hoff k).2⟩, hst⟩
  · rw [Team.vreg_setTag, if_neg, hv k hk]
    rintro ⟨rfl, -⟩
    exact absurd (hn.symm.trans hk) (by decide)
  · rw [Team.vreg_setTag, ← hvf k]
    split <;> rfl
  · exact (Team.lane_setTag u n g k l).trans (hl l hlw hoff k).1

theorem keepsFrame_effShape {flags : Bool} {sD vD pD : Ext → Nat → Bool} (hd : ∀ x, vD x x.d.toNat = true) :
    KeepsFrame effShape flags sD vD pD := by
  intro i opc sub n x s t ht _
  simp only [effShape]
  split
  · exact Kept.refl ht
  · exact Kept.onTeam (Kept.refl ht) (fun _ => rfl) (fun u hu => hu.setTag (hd x) _)

/-- A fold of changes, each of which keeps the frame. -/
theorem Kept.foldl {α : Type} {s : State} {t : Team} {x : Ext} {sD vD pD : Nat → Bool} {flags : Bool} (l : List α)
    {g : State → α → State}
    (hg : ∀ s1, ∀ j ∈ l, Kept s s1 t x sD vD pD flags → Kept s (g s1 j) t x sD vD pD flags) {s1 : State}
    (h : Kept s s1 t x sD vD pD flags) : Kept s (l.foldl g s1) t x sD vD pD flags := by
  induction l generalizing s1 with
  | nil => exact h
  | cons j l ih => exact ih (fun s1 k hk => hg s1 k (.tail _ hk)) (hg s1 j (.head _) h)

/-- `vunpackn` writes one register for each element. -/
theorem keepsFrame_effVunpackn {sD vD pD : Ext → Nat → Bool} (hd : ∀ x, ∀ j < x.ty.elems, vD x (x.d.toNat + j) = true) :
    KeepsFrame effVunpackn true sD vD pD := by
  intro i opc sub n x s t ht hoff
  refine effKept_fpDone (Kept.foldl _ (fun s1 j hj h => ?_) (Kept.refl ht)) (hoff rfl) ..
  refine h.writeN (hd x j (List.mem_range.mp hj)) (fun hw => absurd hw (by decide)) ?_ _
  simp [Team.laneIxs]

theorem Team.setS_sval (u : Team) (n : Nat) : u.setS n (u.sval n) = u := by
  have hs : u.s.modify n (fun r => { r with val := u.sval n }) = u.s := by
    refine List.ext_getElem? (fun k => ?_)
    rw [List.getElem?_modify]
    by_cases hk : k < u.s.length <;> by_cases hn : n = k <;> simp [hk, hn, Team.sval]
  rw [Team.setS, hs]

theorem maskRegs_eq {w : Nat} (h : w ≠ 0) : maskRegs w = (w + 63) / 64 := by
  unfold maskRegs
  split <;> omega

/-- The run of mask registers that `pmask` writes (05 R136); for a team without lanes it writes back what it has read. -/
theorem RegsKept.putMask {t : Team} {x : Ext} {sD vD pD : Nat → Bool} {flags : Bool} {u : Team}
    (h : RegsKept t x sD vD pD flags u) {n : Nat} (hn : ∀ k < (t.width + 63) / 64, sD (n + k) = true) {bits : List Bool}
    (hbits : bits.length = t.width) : RegsKept t x sD vD pD flags (u.putMask n bits) := by
  have hw : u.width = t.width := by rw [h.1]
  unfold Team.putMask
  rw [hw]
  by_cases h0 : t.width = 0
  · rw [h0, List.length_eq_zero_iff] at hbits
    rw [h0, hbits]
    change RegsKept t x sD vD pD flags (u.setS n (u.sval n))
    rwa [Team.setS_sval]
  · rw [maskRegs_eq h0]
    refine List.foldlRecOn _ _ h (fun u hu k hk => hu.setS (hn k (List.mem_range.mp hk)) _)

theorem uid_putMask (u : Team) (n : Nat) (bits : List Bool) : (u.putMask n bits).uid = u.uid :=
  List.foldlRecOn (motive := fun v : Team => v.uid = u.uid) _ _ rfl (fun _ hv _ _ => hv)

/-- A run of vector registers copied in the active lanes (06 R154). -/
theorem RegsKept.copyRegs {t : Team} {x : Ext} {sD vD pD : Nat → Bool} {flags : Bool} {dst src : Nat} {k : Nat} {u : Team}
    (h : RegsKept t x sD vD pD flags u) (hd : ∀ j < k, vD (dst + j) = true)
    (hl : ∀ j < k, (t.vreg (src + j)).lanes.length = t.width) :
    RegsKept t x sD vD pD flags (copyRegs t u (activeLanes t x) dst src k) := by
  induction k generalizing u with
  | zero => exact h
  | succ k ih =>
    exact ih (h.writeV (hd k k.lt_succ_self) (hl k k.lt_succ_self).ge _) (fun j hj => hd j (by omega))
      (fun j hj => hl j (by omega))

theorem uid_copyRegs (t u : Team) (act : List Bool) (dst src k : Nat) : (copyRegs t u act dst src k).uid = u.uid := by
  induction k generalizing u with
  | zero => rfl
  | succ k ih => exact ih _

/-- Whether a register belongs to D: one register, or a pair for a 64-bit type (03 R76). -/
def inDest (x : Ext) (n : Nat) : Bool := decide (n = x.d.toNat) || x.ty.wide && decide (n = x.d.toNat + 1)

theorem inDest_add {x : Ext} {j : Nat} (hj : j < nOf x.ty) : inDest x (x.d.toNat + j) = true := by
  cases hw : x.ty.wide <;> simp [inDest, nOf, hw] at hj ⊢ <;> omega

/-- One-word forms whose type is 32 bits wide write one register. -/
theorem FrameShort.narrow {forms : List (Nat × Nat × (Short → Instr) × (Short → Ext))} {flags : Bool}
    {sD pD : Ext → Nat → Bool} (hty : ∀ f ∈ forms, ∀ y, (f.2.2.2 y).ty.wide = false)
    (h : FrameShort forms flags sD inDest pD) :
    FrameShort forms flags sD (fun x n => decide (n = x.d.toNat)) pD := by
  intro f hf y s t s' hi hfl hs'
  have hone : inDest (f.2.2.2 y) = fun n => decide (n = (f.2.2.2 y).d.toNat) := by
    funext n
    simp [inDest, hty f hf y]
  have hk := h f hf y s t s' hi hfl hs'
  rw [hone] at hk
  exact hk

/-! ## Functions whose result comes later -/

/-- What `LongKept` asks of the team. -/
def EmptiesOnly (t : Team) (vD : Nat → Bool) (u : Team) : Prop :=
  u = { t with pc := u.pc, v := u.v, issueNo := u.issueNo } ∧
  ∀ n l, u.lane n l = t.lane n l ∧ (u.vreg n).tag = (t.vreg n).tag ∧ (vD n = false → (u.vreg n).full = (t.vreg n).full)

theorem Team.vreg_setVFull (t : Team) (n k : Nat) (b : Bool) :
    (t.setVFull n b).vreg k = if n = k ∧ k < t.v.length then { t.vreg k with full := b } else t.vreg k := by
  simp only [Team.setVFull, Team.vreg, List.getD_eq_getElem?_getD, List.getElem?_modify]
  by_cases hk : k < t.v.length <;> by_cases hn : n = k <;> simp [hk, hn]

theorem EmptiesOnly.setVFull {t u : Team} {vD : Nat → Bool} (h : EmptiesOnly t vD u) {n : Nat} (hn : vD n = true) (b : Bool) :
    EmptiesOnly t vD (u.setVFull n b) := by
  obtain ⟨hu, hregs⟩ := h
  refine ⟨by rw [Team.setVFull, hu], fun k l => ?_⟩
  obtain ⟨hlane, htag, hfull⟩ := hregs k l
  rw [Team.lane, Team.vreg_setVFull]
  split
  case isTrue hk =>
    obtain ⟨rfl, -⟩ := hk
    exact ⟨hlane, htag, fun hoff => absurd (hn.symm.trans hoff) (by decide)⟩
  case isFalse => exact ⟨hlane, htag, hfull⟩

theorem EmptiesOnly.setFull {t u : Team} {vD : Nat → Bool} (h : EmptiesOnly t vD u) {d k : Nat} {b : Bool}
    (hd : ∀ j < k, vD (d + j) = true) : EmptiesOnly t vD (u.setFull true d b k) := by
  induction k generalizing u with
  | zero => exact h
  | succ k ih => exact ih (h.setVFull (hd k k.lt_succ_self) b) (fun j hj => hd j (by omega))

theorem uid_setFull (t : Team) (vec : Bool) (n : Nat) (b : Bool) (k : Nat) : (t.setFull vec n b k).uid = t.uid := by
  induction k generalizing t with
  | zero => rfl
  | succ k ih => cases vec <;> exact ih _

theorem EmptiesOnly.refl (t : Team) (vD : Nat → Bool) : EmptiesOnly t vD t := ⟨rfl, fun _ _ => ⟨rfl, rfl, fun _ => rfl⟩⟩

theorem EmptiesOnly.goTo {t u : Team} {vD : Nat → Bool} (h : EmptiesOnly t vD u) (a : Word64) (n : Nat) :
    EmptiesOnly t vD { u with pc := a, issueNo := n } := by
  obtain ⟨hu, hregs⟩ := h
  exact ⟨by rw [hu], hregs⟩

/-- The frame of an instruction that is done in a state whose teams are those of `s` with one changed. -/
theorem longKept_retire {s s1 : State} {t : Team} {vD : Nat → Bool} {g : Team → Team} (hself : s.team? t.uid = some t)
    (hmem : s1.mem = s.mem) (hteams : s1.teams = (s.onTeam t.uid g).teams) (hg : ∀ u, (g u).uid = u.uid)
    (h : EmptiesOnly t vD (g t)) (n : Nat) :
    (∀ a, (retire s1 t n).mem.get a = s.mem.get a) ∧ (∀ v, v ≠ t.uid → (retire s1 t n).team? v = s.team? v) ∧
    ∃ u, (retire s1 t n).team? t.uid = some u ∧ EmptiesOnly t vD u := by
  have hteam (v : Nat) : s1.team? v = (s.onTeam t.uid g).team? v := by rw [State.team?, hteams, State.team?]
  refine ⟨fun a => congrArg (Memory.get · a) hmem, fun v hv => ?_, _, team?_goTo_same ((hteam t.uid).trans
    (team_onTeam_same hg hself)) _, h.goTo _ _⟩
  rw [retire, team?_goTo_other s1 t _ hv, hteam v, team_onTeam_other s hg hv]

/-- A function of group vsfu that goes into flight at its issue makes its destination empty and changes no value (06 R148). -/
theorem longKept_of_effLong {mk : Ext → Instr} {sub : Nat} {vD : Ext → Nat → Bool} {f : C → State → Nat → Nat × Flg}
    (hexec : ∀ x s, exec (mk x) s = issueExt (mk x) 0x46 sub x (effLong f) s) (hform : ∀ x, (mk x).form = .ext 0x46 sub x)
    (hvec : ∀ x, (rowVsfu sub x).d = .vec) (hfill : ∀ x, ∀ j < rowFills (rowVsfu sub x), vD x (x.d.toNat + j) = true) :
    LongKept mk sub vD := by
  intro x s t s' hi hs'
  have hself := team?_uid_of_issues hi
  by_cases hany : (ctxAt (mk x) 0x46 sub (extLen x) x t).any = true
  case pos =>
    obtain ⟨lanes, aux, gate, hdone⟩ : ∃ lanes aux gate, effLong f (ctxAt (mk x) 0x46 sub (extLen x) x t) s =
        .done (((ctxAt (mk x) 0x46 sub (extLen x) x t).launch s lanes [] aux gate).post (.sfuComplete s.nextId)) :=
      ⟨_, _, _, by rw [effLong, hany]; rfl⟩
    rw [exec_of_done (hexec x s) hi hdone] at hs'
    cases hs'
    have hextra (w : Nat) : extraRegs w (mk x) = [] := by simp [extraRegs, hform, extraRun]
    have hrow : (ctxAt (mk x) 0x46 sub (extLen x) x t).row = rowVsfu sub x := rfl
    have hinstr : (ctxAt (mk x) 0x46 sub (extLen x) x t).i = mk x := rfl
    have hteams (lanes : List LaneReq) (aux : List Nat) (gate : Bool) (e : Ev) :
        (((ctxAt (mk x) 0x46 sub (extLen x) x t).launch s lanes [] aux gate).post e).teams =
          (s.onTeam t.uid (fun u => u.setFull true x.d.toNat false (rowFills (rowVsfu sub x)))).teams := by
      simp [C.launch, State.post, hextra, hrow, hinstr, hvec]
    have hmem : (((ctxAt (mk x) 0x46 sub (extLen x) x t).launch s lanes [] aux gate).post (.sfuComplete s.nextId)).mem = s.mem :=
      rfl
    exact longKept_retire hself hmem (hteams lanes aux gate _) (fun u => uid_setFull ..)
      ((EmptiesOnly.refl t _).setFull (hfill x)) _
  case neg =>
    have hdone : effLong f (ctxAt (mk x) 0x46 sub (extLen x) x t) s = .done s := by simp [effLong, hany]
    rw [exec_of_done (hexec x s) hi hdone] at hs'
    cases hs'
    exact longKept_retire (g := id) hself rfl (by simp [State.onTeam]) (fun _ => rfl) (EmptiesOnly.refl t _) _

/-! ## Tags and control registers -/

theorem shape_lane {x : Ext} {s s' : State} {t u : Team} (hi : Issues 0x59 2 x s t) (hs' : exec (.shape x) s = .next s')
    (hu : s'.team? t.uid = some u) (n l : Nat) : u.lane n l = t.lane n l := by
  have hself := team?_uid_of_issues hi
  have hdone : ∃ s1 u1, effShape (ctxAt (.shape x) 0x59 2 (extLen x) x t) s = .done s1 ∧ s1.team? t.uid = some u1 ∧
      ∀ n l, u1.lane n l = t.lane n l := by
    simp only [effShape]
    split
    · exact ⟨_, _, rfl, hself, fun _ _ => rfl⟩
    · exact ⟨_, _, rfl, team_onTeam_same (fun _ => rfl) hself, fun n l => Team.lane_setTag ..⟩
  obtain ⟨s1, u1, heff, hu1, hlane⟩ := hdone
  rw [exec_of_done rfl hi heff] at hs'
  cases hs'
  rw [retire, team?_goTo_same hu1] at hu
  cases hu
  exact hlane n l

/-- A control register that is written, and the others (19 R423). -/
theorem Team.setCr_frame (t : Team) (n : Nat) (v : Word64) :
    t.setCr n v = { t with
      status := (t.setCr n v).status, trapv := (t.setCr n v).trapv, trapa := (t.setCr n v).trapa, prio := (t.setCr n v).prio,
      role := (t.setCr n v).role } ∧
    (n ≠ 0 → (t.setCr n v).status = t.status) ∧ (n ≠ 1 → (t.setCr n v).trapv = t.trapv) ∧
    (n ≠ 2 → (t.setCr n v).trapa = t.trapa) ∧ (n ≠ 3 → (t.setCr n v).prio = t.prio) ∧
    (n ≠ 4 → (t.setCr n v).role = t.role) := by
  unfold Team.setCr
  split <;> simp

theorem effSwr_ctxAt {i : Instr} {opc sub n : Nat} {x : Ext} {t : Team} {s : State}
    (h : t.crRefuse (x.f 11 0) (srcScalar s t x x.a) = none) :
    effSwr (ctxAt i opc sub n x t) s = .done (s.onTeam t.uid (fun u => u.setCr (x.f 11 0) (srcScalar s t x x.a))) := by
  simp only [effSwr, ctxAt_x, ctxAt_t, sc64_ctxAt, h]

/-- `swr` of a value that is not refused changes its control register alone. -/
theorem swr_kept {x : Ext} {s s' : State} {t : Team} (hi : Issues 0x58 1 x s t)
    (hok : t.crRefuse (x.f 11 0) (srcScalar s t x x.a) = none) (hs' : exec (.swr x) s = .next s') :
    SameOutside s s' t.uid ∧ ∃ u, s'.team? t.uid = some u ∧ u = { t with
      pc := u.pc, status := u.status, trapv := u.trapv, trapa := u.trapa, prio := u.prio, role := u.role, issueNo := u.issueNo } ∧
      (x.f 11 0 ≠ 0 → u.status = t.status) ∧ (x.f 11 0 ≠ 1 → u.trapv = t.trapv) ∧ (x.f 11 0 ≠ 2 → u.trapa = t.trapa) ∧
      (x.f 11 0 ≠ 3 → u.prio = t.prio) ∧ (x.f 11 0 ≠ 4 → u.role = t.role) := by
  have hself := team?_uid_of_issues hi
  have huid (u : Team) (n : Nat) (v : Word64) : (u.setCr n v).uid = u.uid := by rw [(u.setCr_frame n v).1]
  by_cases hgo : t.go x.g x.neg = true
  case pos =>
    have hdone : onGo effSwr (ctxAt (.swr x) 0x58 1 (extLen x) x t) s = _ := (if_pos hgo).trans (effSwr_ctxAt hok)
    rw [exec_of_done rfl hi hdone] at hs'
    cases hs'
    refine ⟨((SameOutside.refl s t.uid).onTeam (fun u => huid u ..)).onTeam (fun _ => rfl), _,
      team?_goTo_same (team_onTeam_same (fun u => huid u ..) hself) _, ?_⟩
    obtain ⟨hframe, hrest⟩ := t.setCr_frame (x.f 11 0) (srcScalar s t x x.a)
    exact ⟨by rw [hframe], hrest⟩
  case neg =>
    have hdone : onGo effSwr (ctxAt (.swr x) 0x58 1 (extLen x) x t) s = .done s := if_neg hgo
    rw [exec_of_done rfl hi hdone] at hs'
    cases hs'
    exact ⟨(SameOutside.refl s t.uid).onTeam (fun _ => rfl), _, team?_goTo_same hself _, rfl, fun _ => rfl, fun _ => rfl,
      fun _ => rfl, fun _ => rfl, fun _ => rfl⟩

/-- What `rmovx` and `rstx` keep, for the teams of a kind: the clause of O54 on them. -/
def MovesKept (ok : Team → Ext → Prop) : Prop :=
  ∀ x s t s', ok t x → let i := (srcScalar s t x x.a).toNat + x.f 7 0
    let good := if x.bit 8 then i < 128 else i < t.nv ∧ (x.ty.wide → i % 2 = 0 ∧ i + 1 < t.nv)
    let at_ (d n : Nat) : Bool := decide (n = d) || x.ty.wide && decide (n = d + 1)
    (Issues 0x59 0 x s t → good → exec (.rmovx x) s = .next s' → Kept s s' t x (fun n => x.bit 8 && decide (n = x.d.toNat))
      (fun n => !x.bit 8 && at_ x.d.toNat n) (fun _ => false) false) ∧
    (Issues 0x59 1 x s t → good → exec (.rstx x) s = .next s' → Kept s s' t x (fun n => x.bit 8 && decide (n = i))
      (fun n => !x.bit 8 && at_ i n) (fun _ => false) false)

/-- The registers that a move can read hold every lane: those of the team, and those that B names. -/
def LanesHeld (t : Team) (x : Ext) : Prop :=
  ∀ n, n < t.nv ∨ n < x.b.code.toNat + nOf x.ty → (t.vreg n).lanes.length = t.width

theorem regIdx_ctxAt (i : Instr) (opc sub n : Nat) (x : Ext) (t : Team) (s : State) :
    (ctxAt i opc sub n x t).regIdx s = (srcScalar s t x x.a).toNat + x.f 7 0 := by
  simp only [C.regIdx, sc64_ctxAt, ctxAt_x]

/-- A computed number in range does not trap (06 R154). -/
theorem regIdxBad_ctxAt {i : Instr} {opc sub n : Nat} {x : Ext} {t : Team} {s : State} {k : Nat}
    (hk : k = (srcScalar s t x x.a).toNat + x.f 7 0)
    (hgood : if x.bit 8 then k < 128 else k < t.nv ∧ (x.ty.wide → k % 2 = 0 ∧ k + 1 < t.nv)) (pos : Nat) :
    (ctxAt i opc sub n x t).regIdxBad s pos = none := by
  have hx := ctxAt_x i opc sub n x t
  have ht := ctxAt_t i opc sub n x t
  simp only [C.regIdxBad, regIdx_ctxAt, hx, ht, ← hk]
  refine if_neg (fun hbad => ?_)
  simp only [Bool.or_eq_true, Bool.and_eq_true, decide_eq_true_eq] at hbad
  cases hsc : x.bit 8
  · simp only [hsc, Bool.false_eq_true, if_false] at hgood hbad
    obtain ⟨hlt, hpair⟩ := hgood
    rcases hbad with hbad | ⟨⟨hw, -⟩, hbad⟩
    · omega
    · have := hpair hw
      omega
  · simp only [hsc, if_true, Bool.not_true, Bool.false_eq_true, and_false, false_and, or_false] at hgood hbad
    omega

/-- The effect of a move by number in range: it waits, or moves a scalar when it executes, or vector registers. -/
theorem effKept_move {s s1 s2 : State} {t : Team} {x : Ext} {sD vD pD : Nat → Bool} {flags waits scalar go : Bool}
    (hself : s.team? t.uid = some t) (hs : scalar = true → Kept s s1 t x sD vD pD flags)
    (hv : scalar = false → Kept s s2 t x sD vD pD flags) : EffKept s t x sD vD pD flags
      (if waits then .wait s else if scalar then (if go then .done s1 else .done s) else .done s2) := by
  cases waits <;> cases scalar <;> cases go
  case false.false.false | false.false.true => exact hv rfl
  case false.true.true => exact hs rfl
  all_goals exact Kept.refl hself

/-- The clause of O54 on `rmovx` and `rstx` holds for teams whose registers hold every lane. -/
theorem movesKept_of_lanesHeld : MovesKept LanesHeld := by
  intro x s t s' hl i good at_
  have hrun (d j : Nat) (hj : j < nOf x.ty) : at_ d (d + j) = true := by
    cases hw : x.ty.wide <;> simp [at_, nOf, hw] at hj ⊢ <;> omega
  have hlast (hv : x.bit 8 = false) (hgood : good) : i + nOf x.ty ≤ t.nv := by
    simp only [good, hv, Bool.false_eq_true, if_false] at hgood
    cases hw : x.ty.wide <;> simp [nOf, hw] at hgood ⊢ <;> omega
  constructor
  case left =>
    intro hi hgood hs'
    have hself := team?_uid_of_issues hi
    refine kept_of_effect (eff := effRmovx) rfl hi ?_ hs'
    simp only [effRmovx, regIdxBad_ctxAt rfl hgood, ctxAt_x, ctxAt_t, ctxAt_act, ctxAt_go, regIdx_ctxAt]
    refine effKept_move hself (fun hsc => ?_) (fun hsc => ?_)
    · exact (Kept.refl hself).putScalar (by simp [hsc]) _
    · have hlim := hlast hsc hgood
      refine Kept.onTeam (Kept.refl hself) (fun u => uid_copyRegs ..) (fun u hu => hu.copyRegs (fun j hj => ?_)
        (fun j hj => hl _ (.inl (by omega))))
      simpa [hsc] using hrun x.d.toNat j hj
  case right =>
    intro hi hgood hs'
    have hself := team?_uid_of_issues hi
    refine kept_of_effect (eff := effRstx) rfl hi ?_ hs'
    simp only [effRstx, regIdxBad_ctxAt rfl hgood, ctxAt_x, ctxAt_t, ctxAt_act, ctxAt_go, regIdx_ctxAt]
    refine effKept_move hself (fun hsc => ?_) (fun hsc => ?_)
    · exact Kept.onTeam (Kept.refl hself) (fun _ => rfl) (fun u hu => hu.setS (by simp [hsc, i]) _)
    · refine Kept.onTeam (Kept.refl hself) (fun u => uid_copyRegs ..) (fun u hu => hu.copyRegs (fun j hj => ?_)
        (fun j hj => hl _ (.inr (by omega))))
      simpa [hsc] using hrun i j hj

/-- All that O54 says but its clause on `rmovx` and `rstx` holds in every state. -/
theorem registerFrame_iff_movesKept : Obligations.RegisterInstructionsLeaveEverythingElse ↔ MovesKept (fun _ _ => True) := by
  unfold Obligations.RegisterInstructionsLeaveEverythingElse
  constructor
  · rintro ⟨-, -, -, -, -, -, -, -, -, -, -, -, -, -, -, -, hmove, -⟩
    exact fun x s t s' _ => hmove x s t s'
  · intro hmove
    refine ⟨frameOf_of_keepsFrame ?scalar, frameOf_of_keepsFrame ?vector, frameOf_of_keepsFrame ?pred, frameOf_of_keepsFrame ?vcmp,
      frameOf_of_keepsFrame ?vaddc, frameOf_of_keepsFrame ?float, frameOf_of_keepsFrame ?branch, frameOf_of_keepsFrame ?convert,
      frameOf_of_keepsFrame ?vunpackn, frameOf_of_keepsFrame ?vfrexp, frameOf_of_keepsFrame ?vclass, frameOf_of_keepsFrame ?narrow,
      frameOf_of_keepsFrame ?srd, frameOf_of_keepsFrame ?ychk, ?shape, ?pmask, fun x s t s' => hmove x s t s' trivial, ?swr,
      ?vsqrt, ?vsin, ?vcos, ?vtanh, ?vrot, ?vdiv, frameShort_of_keepsFrame ?scalarShort,
      .narrow ?vectorTy (frameShort_of_keepsFrame ?vectorShort), .narrow ?floatTy (frameShort_of_keepsFrame ?floatShort),
      frameShort_of_keepsFrame ?branchShort, frameShort_of_keepsFrame ?ychkShort⟩
    case' scalar | vector | pred | vcmp | vaddc | float | branch | convert | vunpackn | vfrexp | vclass | narrow | srd | ychk |
        scalarShort | vectorShort | floatShort | branchShort | ychkShort =>
      simp only [List.forall_mem_cons, List.not_mem_nil, false_imp_iff, implies_true, and_true]
    case scalar =>
      refine ⟨?_, ?_, ?_, ?_, ?_, ?_, ?_, ?_, ?_, ?_, ?_, ?_, ?_, ?_, ?_, ?_, ?_, ?_, ?_, ?_, ?_, ?_,
        ⟨_, fun _ _ => rfl, keepsFrame_effCall (by simp)⟩, ⟨_, fun _ _ => rfl, keepsFrame_effLoop (by simp)⟩, ?_, ?_⟩
      all_goals exact ⟨_, fun _ _ => rfl, .onGo (keepsFrame_putS (fun _ _ => ⟨_, rfl⟩) (by simp))⟩
    case vector =>
      and_intros
      all_goals exact ⟨_, fun _ _ => rfl, keepsFrame_putV (fun c _ => ⟨_, _, _, rfl, by simp [Team.laneIxs, C.lanes],
        fun h => by simp [h]⟩) (by simp)⟩
    case pred =>
      and_intros
      all_goals exact ⟨_, fun _ _ => rfl, keepsFrame_writeP (fun c _ => ⟨_, rfl, by simp [Team.laneIxs]⟩) (by simp)⟩
    case vcmp => exact ⟨_, fun _ _ => rfl, keepsFrame_effVcmp (by simp) (by simp)⟩
    case vaddc => exact ⟨_, fun _ _ => rfl, keepsFrame_effVaddc (by simp) (by simp) (by simp)⟩
    case float =>
      and_intros
      all_goals exact ⟨_, fun _ _ => rfl, keepsFrame_fpLanes (fun c _ => ⟨_, _, _, rfl, fun h => by simp [h]⟩) (by simp)⟩
    case branch =>
      refine ⟨?_, ?_, ?_, ?_, ⟨_, fun _ _ => rfl, keepsFrame_effNop⟩⟩
      all_goals exact ⟨_, fun _ _ => rfl, keepsFrame_branchIf _⟩
    case convert =>
      and_intros
      all_goals exact ⟨_, fun _ _ => rfl, keepsFrame_fpLanes (fun c _ => ⟨_, _, _, rfl, fun h => by simp [h]⟩) (by simp)⟩
    case vfrexp =>
      refine ⟨_, fun _ _ => rfl, keepsFrame_fpLanes (fun c _ => ⟨_, _, _, rfl, fun h => ?_⟩) (by simp)⟩
      obtain ⟨hwide, hfrac⟩ := Bool.and_eq_true_iff.mp h
      simp [hwide, hfrac]
    case vclass =>
      exact ⟨_, fun _ _ => rfl, keepsFrame_fpLanes (fun c _ => ⟨_, _, _, rfl, fun h => absurd h (by simp)⟩) (by simp)⟩
    case srd => exact ⟨_, fun _ _ => rfl, .onGo (keepsFrame_effSrd (by simp))⟩
    case ychk => exact ⟨_, fun _ _ => rfl, keepsFrame_effYchk (by simp)⟩
    case scalarShort =>
      refine ⟨?_, ?_, ?_, ?_, ?_, ?_, ?_, ⟨_, fun _ _ => rfl, keepsFrame_effLoop (by simp)⟩⟩
      all_goals exact ⟨_, fun _ _ => rfl, .onGo (keepsFrame_putS (fun _ _ => ⟨_, rfl⟩) (by simp))⟩
    case branchShort =>
      refine ⟨⟨_, fun _ _ => rfl, keepsFrame_effNop⟩, ?_, ?_, ?_⟩
      all_goals exact ⟨_, fun _ _ => rfl, keepsFrame_branchIf _⟩
    case ychkShort => exact ⟨_, fun _ _ => rfl, keepsFrame_effYchk (by simp)⟩
    case narrow =>
      refine ⟨?_, ?_, ?_, ⟨_, fun _ _ => rfl, keepsFrame_effShape (by simp)⟩⟩
      all_goals exact ⟨_, fun _ _ => rfl, keepsFrame_putV (fun c _ => ⟨false, _, _, rfl, by simp [Team.laneIxs], by simp⟩)
        (by simp)⟩
    case vunpackn => exact ⟨_, fun _ _ => rfl, keepsFrame_effVunpackn (by simp)⟩
    case pmask =>
      intro x s t s' hi hs'
      refine kept_of_effect (eff := effPmask) rfl hi ?_ hs'
      refine Kept.onTeam (Kept.refl (team?_uid_of_issues hi)) (fun u => uid_putMask u ..) (fun u hu => hu.putMask ?_ ?_)
      · simp
      · simp [Team.laneIxs]
    case vectorTy => simp [shortTwo, shortOne, Ty.wide, Ty.width]
    case vectorShort =>
      and_intros
      all_goals exact ⟨_, fun _ _ => rfl, keepsFrame_putV (fun c _ => ⟨_, _, _, rfl, by simp [Team.laneIxs, C.lanes],
        fun h => by simp [inDest, h]⟩) (by simp [inDest])⟩
    case floatTy => simp [shortTwo, Ty.wide, Ty.width]
    case floatShort =>
      and_intros
      all_goals exact ⟨_, fun _ _ => rfl, keepsFrame_fpLanes (fun c _ => ⟨_, _, _, rfl, fun h => by simp [inDest, h]⟩)
        (by simp [inDest])⟩
    case swr =>
      intro x s t s' hi hok hs'
      exact swr_kept hi hok hs'
    case shape =>
      intro x s t s' u hi hs' hu n l
      exact shape_lane hi hs' hu n l
    case vsqrt => exact longKept_of_effLong (fun _ _ => rfl) (fun _ => rfl) (fun _ => rfl) (fun _ _ => inDest_add)
    case vsin => exact longKept_of_effLong (fun _ _ => rfl) (fun _ => rfl) (fun _ => rfl) (fun _ _ => inDest_add)
    case vcos => exact longKept_of_effLong (fun _ _ => rfl) (fun _ => rfl) (fun _ => rfl) (fun _ _ => inDest_add)
    case vtanh => exact longKept_of_effLong (fun _ _ => rfl) (fun _ => rfl) (fun _ => rfl) (fun _ _ => inDest_add)
    case vrot =>
      refine longKept_of_effLong (fun _ _ => rfl) (fun _ => rfl) (fun _ => rfl) (fun x j hj => ?_)
      have htwo : j < 2 := hj
      simp only [Bool.or_eq_true, decide_eq_true_eq]
      omega
    case vdiv => exact longKept_of_effLong (fun _ _ => rfl) (fun _ => rfl) (fun _ => rfl) (fun _ _ => inDest_add)

/-! ## A move that loses lanes -/

/-- A team of 32 lanes whose register v0 holds them and whose register v1 holds none. -/
def shortTeam : Team :=
  { placeTeam with
    nv := 2, v := [{ tag := .uni, full := true, lanes := List.replicate 32 1 }, { tag := .uni, full := true, lanes := [] }] }

/-- A device with that team, which is the current one. -/
def shortState : State := { State.reset with teams := [shortTeam], cur := 1 }

/-- `rmovx v0, v[1]` under a guard that is false in every lane. -/
def moveShort : Ext :=
  { neg := true, g := 23, rnd := .rs, ty := .b32, d := 0, a := { cls := .sc, code := 225, trp := false }, b := Src.none,
    c := Src.none, x24 := 0, lit := none }

/-- The hypothesis of `movesKept_of_lanesHeld` is met by a team whose registers are as reset leaves them. -/
theorem lanesHeld_placeTeam : LanesHeld placeTeam moveShort := by
  intro n hn
  have hlt : n < 256 := hn.elim id (fun h => Nat.lt_trans h (by decide))
  have hregs : placeTeam.v = List.replicate 256 { tag := .uni, full := true, lanes := List.replicate 32 0 } := rfl
  rw [Team.vreg, hregs, List.getD_eq_getElem?_getD, List.getElem?_replicate_of_lt hlt]
  rfl

theorem moveShort_issues : Issues 0x59 0 moveShort shortState shortTeam := by decide

/-- The move has no active lane, and leaves v0 with as few lanes as v1 has. -/
theorem moveShort_loses_lane : ∃ s' u, exec (.rmovx moveShort) shortState = .next s' ∧ s'.team? 1 = some u ∧ u.lane 0 0 = 0 :=
  ⟨_, _, rfl, rfl, rfl⟩

theorem not_movesKept : ¬ MovesKept (fun _ _ => True) := by
  intro h
  obtain ⟨s', u, hexec, hu, hzero⟩ := moveShort_loses_lane
  obtain ⟨-, u', hu', -, -, -, -, -, -, hlanes, -⟩ :=
    (h moveShort shortState shortTeam s' trivial).1 moveShort_issues (by decide) hexec
  have hsame : u' = u := Option.some.inj (hu'.symm.trans hu)
  have hone : u.lane 0 0 = shortTeam.lane 0 0 := hsame ▸ (hlanes 0 (by decide) (by decide) 0).1
  rw [hzero] at hone
  exact absurd hone (by decide)

/-- Refutes O54: `rmovx` merges D with the lanes that the register of the computed number lists, so that a lane that is not active is
lost where that register lists fewer lanes than the team has. The statement takes every state, and so also a team with such a
register, which no rule of the manual makes. The rest of the statement holds (`registerFrame_iff_movesKept`), and its clause on
`rmovx` and `rstx` does where the registers hold every lane (`movesKept_of_lanesHeld`). -/
theorem not_registerInstructionsLeaveEverythingElse : ¬ Obligations.RegisterInstructionsLeaveEverythingElse :=
  fun h => not_movesKept (registerFrame_iff_movesKept.mp h)

end Sys2Proof.Machine
end

section
/-!
PROOFS. The tables of 03 R78 and R80 against the constructors of `Instr`: `mkShort` and `mkGroup` give exactly the instruction whose
form has that OPC and SUB.
-/

namespace Sys2Proof

theorem form_of_mkShort {opc : Nat} {mk : Short → Instr} (h : mkShort opc = some mk) (x : Short) :
    (mk x).form = .one opc x := by
  unfold mkShort at h
  split at h <;> cases h <;> rfl

theorem mkShort_of_form {i : Instr} {opc : Nat} {x : Short} (h : i.form = .one opc x) :
    ∃ mk, mkShort opc = some mk ∧ mk x = i := by
  cases i <;> cases h <;> exact ⟨_, rfl, rfl⟩

/-- First the group is split, then its operations. -/
theorem form_of_mkGroup {opc sub : Nat} {g : Nat → Option (Ext → Instr)} {mk : Ext → Instr} (hg : mkGroup opc = some g)
    (hmk : g sub = some mk) (x : Ext) : (mk x).form = .ext opc sub x := by
  unfold mkGroup at hg
  split at hg <;> cases hg
  all_goals
    simp only [mkExt40, mkExt41, mkExt42, mkExt43, mkExt44, mkExt45, mkExt46, mkExt47, mkExt48, mkExt49, mkExt4A, mkExt4B,
      mkExt4C, mkExt4D, mkExt4E, mkExt4F, mkExt50, mkExt51, mkExt52, mkExt53, mkExt54, mkExt55, mkExt56, mkExt57, mkExt58,
      mkExt59] at hmk
    split at hmk <;> cases hmk <;> rfl

theorem mkGroup_of_form {i : Instr} {opc sub : Nat} {x : Ext} (h : i.form = .ext opc sub x) :
    ∃ g mk, mkGroup opc = some g ∧ g sub = some mk ∧ mk x = i := by
  cases i <;> cases h <;> exact ⟨_, _, rfl, rfl, rfl⟩

/-- The one-word forms have the OPCs below 0x40 (R62). -/
theorem opc_lt_of_form_one {i : Instr} {opc : Nat} {x : Short} (h : i.form = .one opc x) : opc < 0x40 := by
  cases i <;> cases h <;> decide

/-- The extended forms have the OPCs from 0x40 on, which fit in 7 bits, and their SUBs fit in 8 (R62, R63, R65). -/
theorem opc_sub_bounds_of_form_ext {i : Instr} {opc sub : Nat} {x : Ext} (h : i.form = .ext opc sub x) :
    ¬ opc < 0x40 ∧ opc < 128 ∧ sub < 256 := by
  cases i <;> cases h <;> decide

end Sys2Proof

namespace Sys2Proof.Machine

theorem evOf_of_form_one {i : Instr} {opc : Nat} {x : Short} (h : i.form = .one opc x) : evOf i = none := by
  cases i <;> cases h <;> rfl

theorem evOf_of_form_ext {i : Instr} {opc sub : Nat} {x : Ext} (h : i.form = .ext opc sub x) : evOf i = none := by
  cases i <;> cases h <;> rfl

/-- Every extended form is issued under its own OPC and SUB, whatever its effect is. -/
theorem exec_of_form_ext {i : Instr} {opc sub : Nat} {x : Ext} (h : i.form = .ext opc sub x) :
    ∃ eff, ∀ s, exec i s = issueExt i opc sub x eff s := by
  cases i <;> cases h <;> exact ⟨_, fun _ => rfl⟩

end Sys2Proof.Machine
end

section
/-!
PROOFS. Words and fields (03 R61-R72): a word is the encoder's word of some fields exactly when the decoder reads those fields in it.
One equivalence for each word serves both directions of the agreement of encoder and decoder.
-/

namespace Sys2Proof

/-! ## Codes of fields -/

theorem bitsN_lt (n hi lo : Nat) : bitsN n hi lo < 2 ^ (hi + 1 - lo) := Nat.mod_lt _ (Nat.two_pow_pos _)

/-- The field `[hi:lo]` is what the bits up to hi have above those below lo. -/
theorem mod_eq_bitsN (n : Nat) {hi lo : Nat} (h : lo ≤ hi + 1) : n % 2 ^ (hi + 1) = bitsN n hi lo * 2 ^ lo + n % 2 ^ lo := by
  rw [bitsN, Nat.mul_comm, Nat.add_comm (_ * _), ← Nat.mod_mul, ← Nat.pow_add, Nat.add_sub_cancel' h]

theorem bitNat_le_one (b : Bool) : bitNat b ≤ 1 := by cases b <;> decide

theorem Cls.code_lt (c : Cls) : c.code < 4 := by cases c <;> decide

theorem Rnd.code_lt (r : Rnd) : r.code < 8 := by cases r <;> decide

theorem Ty.code_lt (t : Ty) : t.code < 32 := by cases t <;> decide

theorem decide_eq_iff_bitNat {n : Nat} (h : n < 2) (b : Bool) : decide (n = 1) = b ↔ n = bitNat b := by
  interval_cases n <;> cases b <;> decide

theorem ofNat_eq_iff_toNat {k n : Nat} (h : n < 2 ^ k) (a : BitVec k) : BitVec.ofNat k n = a ↔ n = a.toNat := by
  rw [← BitVec.toNat_inj, BitVec.toNat_ofNat, Nat.mod_eq_of_lt h]

theorem Cls.ofCode_eq_iff {n : Nat} (h : n < 4) (c : Cls) : Cls.ofCode n = c ↔ n = c.code := by
  interval_cases n <;> cases c <;> decide

theorem Rnd.ofCode_eq_some_iff {n : Nat} {r : Rnd} : Rnd.ofCode n = some r ↔ n = r.code := by
  refine ⟨fun h => ?_, fun h => ?_⟩
  · unfold Rnd.ofCode at h
    split at h <;> cases h <;> rfl
  · cases r <;> cases h <;> rfl

/-- `Ty.all` lists the types in the order of their codes. -/
theorem Ty.code_all : ∀ n : Fin Ty.all.length, Ty.all[n].code = n := by decide

theorem Ty.ofCode_eq_some_iff {n : Nat} {t : Ty} : Ty.ofCode n = some t ↔ n = t.code := by
  refine ⟨fun h => ?_, fun h => ?_⟩
  · obtain ⟨hn, rfl⟩ := List.getElem?_eq_some_iff.mp h
    exact (Ty.code_all ⟨n, hn⟩).symm
  · cases t <;> cases h <;> rfl

theorem srcOf_eq_iff {c k m : Nat} (hc : c < 4) (hk : k < 2 ^ 8) (hm : m < 2) (y : Src) :
    srcOf c k m = y ↔ c = y.cls.code ∧ k = y.code.toNat ∧ m = bitNat y.trp := by
  obtain ⟨cls, code, trp⟩ := y
  simp only [srcOf, Src.mk.injEq, Cls.ofCode_eq_iff hc, ofNat_eq_iff_toNat hk, decide_eq_iff_bitNat hm]

/-! ## Words 0, 1 and 2 -/

/-- Word 0 and its fields (R63). -/
theorem encWord0_eq_iff (w : Word) {a d g opc len : Nat} (fa neg : Bool) (ha : a < 256) (hd : d < 256) (hg : g < 32)
    (hopc : opc < 128) (hlen : len < 4) : encWord0 a d fa neg g opc len = w ↔
      bitsN w.toNat 31 24 = a ∧ bitsN w.toNat 23 16 = d ∧ bitsN w.toNat 15 15 = bitNat fa ∧ bitsN w.toNat 14 14 = bitNat neg ∧
      bitsN w.toNat 13 9 = g ∧ bitsN w.toNat 8 2 = opc ∧ w.toNat % 4 = len := by
  have hfa := bitNat_le_one fa
  have hneg := bitNat_le_one neg
  have hw := w.isLt
  rw [← BitVec.toNat_inj, encWord0, BitVec.toNat_ofNat]
  simp only [bitsN]
  omega

/-- A word is the sum of the fields of R65 at their places. -/
theorem toNat_eq_fields_word1 (w : Word) : w.toNat = bitsN w.toNat 31 29 * 2 ^ 29 + bitsN w.toNat 28 24 * 2 ^ 24 +
    bitsN w.toNat 23 22 * 2 ^ 22 + bitsN w.toNat 21 20 * 2 ^ 20 + bitsN w.toNat 19 18 * 2 ^ 18 + bitsN w.toNat 17 17 * 2 ^ 17 +
    bitsN w.toNat 16 16 * 2 ^ 16 + bitsN w.toNat 15 8 * 2 ^ 8 + bitsN w.toNat 7 0 :=
  calc w.toNat = w.toNat % 2 ^ (31 + 1) := (Nat.mod_eq_of_lt w.isLt).symm
    _ = _ := by
      rw [mod_eq_bitsN _ (show 29 ≤ 31 + 1 by decide), mod_eq_bitsN _ (show 24 ≤ 28 + 1 by decide),
        mod_eq_bitsN _ (show 22 ≤ 23 + 1 by decide), mod_eq_bitsN _ (show 20 ≤ 21 + 1 by decide),
        mod_eq_bitsN _ (show 18 ≤ 19 + 1 by decide), mod_eq_bitsN _ (show 17 ≤ 17 + 1 by decide),
        mod_eq_bitsN _ (show 16 ≤ 16 + 1 by decide), mod_eq_bitsN _ (show 8 ≤ 15 + 1 by decide),
        mod_eq_bitsN _ (show 0 ≤ 7 + 1 by decide), Nat.pow_zero, Nat.mul_one, Nat.mod_one, Nat.add_zero]
      simp only [Nat.add_assoc]

/-- Word 1 and its fields (R65). -/
theorem encWord1_eq_iff (w : Word) (x : Ext) : encWord1 x = w ↔
    bitsN w.toNat 31 29 = x.rnd.code ∧ bitsN w.toNat 28 24 = x.ty.code ∧ bitsN w.toNat 23 22 = x.c.cls.code ∧
    bitsN w.toNat 21 20 = x.b.cls.code ∧ bitsN w.toNat 19 18 = x.a.cls.code ∧ bitsN w.toNat 17 17 = bitNat x.c.trp ∧
    bitsN w.toNat 16 16 = bitNat x.b.trp ∧ bitsN w.toNat 15 8 = x.c.code.toNat ∧ bitsN w.toNat 7 0 = x.b.code.toNat := by
  have hrnd := x.rnd.code_lt
  have hty := x.ty.code_lt
  have hclsA := x.a.cls.code_lt
  have hclsB := x.b.cls.code_lt
  have hclsC := x.c.cls.code_lt
  have htrpB := bitNat_le_one x.b.trp
  have htrpC := bitNat_le_one x.c.trp
  have hb := x.b.code.isLt
  have hc := x.c.code.isLt
  have hw := w.isLt
  rw [← BitVec.toNat_inj, encWord1, BitVec.toNat_ofNat]
  refine ⟨fun h => ?_, fun h => ?_⟩
  · simp only [bitsN]
    and_intros <;> omega
  · obtain ⟨eRnd, eTy, eClsC, eClsB, eClsA, eTrpC, eTrpB, eC, eB⟩ := h
    rw [toNat_eq_fields_word1 w, eRnd, eTy, eClsC, eClsB, eClsA, eTrpC, eTrpB, eC, eB]
    omega

/-- Word 2 and its fields (R65). -/
theorem encWord2_eq_iff (w : Word) (x : Ext) {sub : Nat} (hsub : sub < 256) : encWord2 x sub = w ↔
    bitsN w.toNat 31 8 = x.x24.toNat ∧ bitsN w.toNat 7 0 = sub := by
  have hx := x.x24.isLt
  have hw := w.isLt
  rw [← BitVec.toNat_inj, encWord2, BitVec.toNat_ofNat]
  simp only [bitsN]
  omega

/-- The word of a one-word form is the one in which `shortOf` reads its fields. -/
theorem encWord0_eq_iff_shortOf (w : Word) (x : Short) {opc len : Nat} (hopc : opc < 128) (hlen : len < 4) :
    encWord0 x.a.toNat x.d.toNat x.fa x.neg x.g.toNat opc len = w ↔
      shortOf w x.lit = x ∧ bitsN w.toNat 8 2 = opc ∧ w.toNat % 4 = len := by
  rw [encWord0_eq_iff w x.fa x.neg x.a.isLt x.d.isLt x.g.isLt hopc hlen]
  obtain ⟨neg, g, d, a, fa, lit⟩ := x
  simp only [shortOf, Short.mk.injEq, ofNat_eq_iff_toNat (bitsN_lt w.toNat 13 9), ofNat_eq_iff_toNat (bitsN_lt w.toNat 23 16),
    ofNat_eq_iff_toNat (bitsN_lt w.toNat 31 24), decide_eq_iff_bitNat (bitsN_lt w.toNat 14 14),
    decide_eq_iff_bitNat (bitsN_lt w.toNat 15 15)]
  tauto

/-- The words of an extended form are those in which `extOf` reads its fields, with its RND and TY. -/
theorem encWords_eq_iff_extOf (w0 w1 w2 : Word) (x : Ext) {opc sub len : Nat} (hopc : opc < 128) (hsub : sub < 256)
    (hlen : len < 4) :
    (encWord0 x.a.code.toNat x.d.toNat x.a.trp x.neg x.g.toNat opc len = w0 ∧ encWord1 x = w1 ∧ encWord2 x sub = w2) ↔
      extOf w0 w1 w2 x.rnd x.ty x.lit = x ∧ Rnd.ofCode (bitsN w1.toNat 31 29) = some x.rnd ∧
      Ty.ofCode (bitsN w1.toNat 28 24) = some x.ty ∧ bitsN w0.toNat 8 2 = opc ∧ bitsN w2.toNat 7 0 = sub ∧
      w0.toNat % 4 = len := by
  rw [encWord0_eq_iff w0 x.a.trp x.neg x.a.code.isLt x.d.isLt x.g.isLt hopc hlen, encWord1_eq_iff, encWord2_eq_iff w2 x hsub,
    Rnd.ofCode_eq_some_iff, Ty.ofCode_eq_some_iff]
  obtain ⟨neg, g, rnd, ty, d, a, b, c, x24, lit⟩ := x
  simp only [extOf, Ext.mk.injEq, ofNat_eq_iff_toNat (bitsN_lt w0.toNat 13 9), ofNat_eq_iff_toNat (bitsN_lt w0.toNat 23 16),
    ofNat_eq_iff_toNat (bitsN_lt w2.toNat 31 8), decide_eq_iff_bitNat (bitsN_lt w0.toNat 14 14),
    srcOf_eq_iff (bitsN_lt w1.toNat 19 18) (bitsN_lt w0.toNat 31 24) (bitsN_lt w0.toNat 15 15),
    srcOf_eq_iff (bitsN_lt w1.toNat 21 20) (bitsN_lt w1.toNat 7 0) (bitsN_lt w1.toNat 16 16),
    srcOf_eq_iff (bitsN_lt w1.toNat 23 22) (bitsN_lt w1.toNat 15 8) (bitsN_lt w1.toNat 17 17)]
  tauto

/-- Writing the fields read in a word gives the word back. -/
theorem encWord0_shortOf (w0 : Word) (lit : Option Word64) :
    let x := shortOf w0 lit
    encWord0 x.a.toNat x.d.toNat x.fa x.neg x.g.toNat (bitsN w0.toNat 8 2) (w0.toNat % 4) = w0 :=
  (encWord0_eq_iff_shortOf w0 _ (bitsN_lt _ 8 2) (Nat.mod_lt _ (by decide))).mpr ⟨rfl, rfl, rfl⟩

theorem encWords_extOf {w0 w1 w2 : Word} {rnd : Rnd} {ty : Ty} (lit : Option Word64)
    (hrnd : Rnd.ofCode (bitsN w1.toNat 31 29) = some rnd) (hty : Ty.ofCode (bitsN w1.toNat 28 24) = some ty) :
    let x := extOf w0 w1 w2 rnd ty lit
    encWord0 x.a.code.toNat x.d.toNat x.a.trp x.neg x.g.toNat (bitsN w0.toNat 8 2) (w0.toNat % 4) = w0 ∧ encWord1 x = w1 ∧
      encWord2 x (bitsN w2.toNat 7 0) = w2 :=
  (encWords_eq_iff_extOf w0 w1 w2 _ (bitsN_lt _ 8 2) (bitsN_lt _ 7 0) (Nat.mod_lt _ (by decide))).mpr
    ⟨rfl, hrnd, hty, rfl, rfl, rfl⟩

/-! ## The literal and the bytes -/

theorem encLit_litOf (lo hi : Word) : encLit (litOf lo hi) = [lo, hi] := by
  rw [encLit, litOf, BitVec.extractLsb'_append_eq_right, BitVec.extractLsb'_append_eq_left]

theorem litOf_extractLsb' (l : Word64) : litOf (l.extractLsb' 0 32) (l.extractLsb' 32 32) = l := by
  rw [litOf, BitVec.extractLsb'_append_extractLsb'_eq_extractLsb' (rfl : 32 = 0 + 32), BitVec.extractLsb'_eq_self]

theorem wordOf_extractLsb' (w : Word) :
    wordOf (w.extractLsb' 0 8) (w.extractLsb' 8 8) (w.extractLsb' 16 8) (w.extractLsb' 24 8) = w := by
  rw [wordOf, BitVec.extractLsb'_append_extractLsb'_eq_extractLsb' (rfl : 24 = 16 + 8),
    BitVec.extractLsb'_append_extractLsb'_eq_extractLsb' (rfl : 16 = 8 + 8),
    BitVec.extractLsb'_append_extractLsb'_eq_extractLsb' (rfl : 8 = 0 + 8), BitVec.extractLsb'_eq_self]

theorem wordsOf_flatMap_wordBytes (ws : List Word) (rest : List Byte) :
    wordsOf (ws.flatMap wordBytes ++ rest) = ws ++ wordsOf rest := by
  induction ws with
  | nil => rfl
  | cons w ws ih =>
    rw [List.flatMap_cons, List.append_assoc, List.cons_append, ← ih]
    exact congrArg (· :: _) (wordOf_extractLsb' w)

end Sys2Proof
end

section
/-!
PROOFS. Encoder and decoder agree (03 R61-R65, R72, R82): what the decoder accepts, in each of the two shapes of an encoding, and
what the encoder writes for it.
-/

namespace Sys2Proof

/-! ## What the decoder accepts -/

theorem checked_eq_ok_iff {i j : Instr} : checked j = .ok i ↔ j = i ∧ i.illegal = none := by
  unfold checked
  split
  next h => exact ⟨fun e => by cases e; exact ⟨rfl, h⟩, fun ⟨e, _⟩ => congrArg _ e⟩
  next h => exact ⟨nofun, fun ⟨e, hi⟩ => by subst e; rw [hi] at h; cases h⟩

theorem decodeShort_eq_ok_iff {w0 : Word} {lit : Option Word64} {i : Instr} : decodeShort w0 lit = .ok i ↔
    i.form = .one (bitsN w0.toNat 8 2) (shortOf w0 lit) ∧ i.illegal = none := by
  simp only [decodeShort]
  split
  next h =>
    refine ⟨nofun, fun ⟨hform, _⟩ => ?_⟩
    obtain ⟨mk, hmk, _⟩ := mkShort_of_form hform
    rw [h] at hmk
    cases hmk
  next mk h =>
    refine checked_eq_ok_iff.trans (and_congr_left' ⟨?_, fun hform => ?_⟩)
    · rintro rfl
      exact form_of_mkShort h _
    · obtain ⟨mk', hmk, hi⟩ := mkShort_of_form hform
      rw [h] at hmk
      cases hmk
      exact hi

/-- Check 4 of R82 refuses the guards above 23. -/
theorem guard_le_of_illegal_eq_none {i : Instr} {opc sub : Nat} {x : Ext} (hform : i.form = .ext opc sub x)
    (h : i.illegal = none) : ¬ 23 < x.g.toNat := by
  intro hg
  rw [Instr.illegal, hform] at h
  simp only [extErr, errIf, decide_eq_true hg] at h
  cases h

theorem decodeExt_eq_ok_iff {w0 w1 w2 : Word} {lit : Option Word64} {i : Instr} : decodeExt w0 w1 w2 lit = .ok i ↔
    (∃ rnd ty, Rnd.ofCode (bitsN w1.toNat 31 29) = some rnd ∧ Ty.ofCode (bitsN w1.toNat 28 24) = some ty ∧
      i.form = .ext (bitsN w0.toNat 8 2) (bitsN w2.toNat 7 0) (extOf w0 w1 w2 rnd ty lit)) ∧ i.illegal = none := by
  constructor
  · intro h
    simp only [decodeExt] at h
    split at h
    · cases h
    next g hg =>
    split at h
    · cases h
    next mk hmk =>
    split at h
    · cases h
    split at h
    · cases h
    next rnd hrnd =>
    split at h
    next ty hty =>
      obtain ⟨rfl, hi⟩ := checked_eq_ok_iff.mp h
      exact ⟨⟨rnd, ty, hrnd, hty, form_of_mkGroup hg hmk _⟩, hi⟩
    next => split at h <;> cases h
  · rintro ⟨⟨rnd, ty, hrnd, hty, hform⟩, hi⟩
    obtain ⟨g, mk, hg, hmk, hmki⟩ := mkGroup_of_form hform
    have hguard : ¬ 23 < bitsN w0.toNat 13 9 := by
      have hle := guard_le_of_illegal_eq_none hform hi
      rwa [extOf, BitVec.toNat_ofNat, Nat.mod_eq_of_lt (bitsN_lt w0.toNat 13 9)] at hle
    simp only [decodeExt, hg, hmk, if_neg hguard, hrnd, hty, hmki]
    exact checked_eq_ok_iff.mpr ⟨rfl, hi⟩

/-- What the decoder accepts is a one-word form or an extended form, each with or without its literal. -/
theorem decode_cases {ws : List Word} {i : Instr} (h : decode ws = .ok i) :
    (∃ w0 lit rest, ws = w0 :: lit.elim [] encLit ++ rest ∧ w0.toNat % 4 = (if lit.isSome then 2 else 0) ∧
      decodeShort w0 lit = .ok i) ∨
    (∃ w0 w1 w2 lit rest, ws = w0 :: w1 :: w2 :: lit.elim [] encLit ++ rest ∧ w0.toNat % 4 = (if lit.isSome then 3 else 1) ∧
      decodeExt w0 w1 w2 lit = .ok i) := by
  unfold decode at h
  split at h
  · cases h
  dsimp only at h
  split at h
  · split at h
    · exact .inl ⟨_, none, _, rfl, ‹_›, h⟩
    · cases h
  · split at h
    · cases h
    · exact .inr ⟨_, _, _, none, _, rfl, ‹_›, h⟩
  next w1 w2 rest _ =>
    split at h
    · exact .inl ⟨_, some (litOf w1 w2), rest, by rw [Option.elim_some, encLit_litOf]; rfl, ‹_›, h⟩
    · cases h
  next w1 w2 w3 w4 rest _ =>
    split at h
    · cases h
    · exact .inr ⟨_, w1, w2, some (litOf w3 w4), rest, by rw [Option.elim_some, encLit_litOf]; rfl, ‹_›, h⟩
  · cases h

theorem decode_shortWords {w0 : Word} {lit : Option Word64} (rest : List Word) (hopc : bitsN w0.toNat 8 2 < 0x40)
    (hlen : w0.toNat % 4 = if lit.isSome then 2 else 0) : decode (w0 :: lit.elim [] encLit ++ rest) = decodeShort w0 lit := by
  cases lit with
  | none => simp [decode, show w0.toNat % 4 = 0 from hlen, hopc]
  | some l => simp [decode, show w0.toNat % 4 = 2 from hlen, hopc, encLit, litOf_extractLsb']

theorem decode_extWords {w0 w1 w2 : Word} {lit : Option Word64} (rest : List Word) (hopc : ¬ bitsN w0.toNat 8 2 < 0x40)
    (hlen : w0.toNat % 4 = if lit.isSome then 3 else 1) :
    decode (w0 :: w1 :: w2 :: lit.elim [] encLit ++ rest) = decodeExt w0 w1 w2 lit := by
  cases lit with
  | none => simp [decode, show w0.toNat % 4 = 1 from hlen, hopc]
  | some l => simp [decode, show w0.toNat % 4 = 3 from hlen, hopc, encLit, litOf_extractLsb']

/-! ## What the encoder writes -/

theorem encode_of_form_one {i : Instr} {opc : Nat} {x : Short} (h : i.form = .one opc x) :
    encode i = encWord0 x.a.toNat x.d.toNat x.fa x.neg x.g.toNat opc (if x.lit.isSome then 2 else 0) :: x.lit.elim [] encLit := by
  rw [encode, h]
  cases hlit : x.lit <;> simp [hlit]

theorem encode_of_form_ext {i : Instr} {opc sub : Nat} {x : Ext} (h : i.form = .ext opc sub x) :
    encode i = encWord0 x.a.code.toNat x.d.toNat x.a.trp x.neg x.g.toNat opc (if x.lit.isSome then 3 else 1) ::
      encWord1 x :: encWord2 x sub :: x.lit.elim [] encLit := by
  rw [encode, h]
  cases hlit : x.lit <;> simp [hlit]

theorem length_encode (i : Instr) : 4 * (encode i).length = i.bytes := by
  cases hform : i.form with
  | one opc x =>
    rw [encode_of_form_one hform, Instr.bytes, hform]
    cases hlit : x.lit <;> simp [hlit, encLit]
  | ext opc sub x =>
    rw [encode_of_form_ext hform, Instr.bytes, hform]
    cases hlit : x.lit <;> simp [hlit, encLit]
  | event =>
    rw [encode, Instr.bytes, hform]
    rfl

/-! ## Decoding what is encoded -/

theorem decode_encode_one {i : Instr} {opc : Nat} {x : Short} (rest : List Word) (hform : i.form = .one opc x)
    (hi : i.illegal = none) : decode (encode i ++ rest) = .ok i := by
  have hopc := opc_lt_of_form_one hform
  rw [encode_of_form_one hform]
  generalize hw : encWord0 _ _ _ _ _ opc _ = w0
  obtain ⟨hx, rfl, hlen⟩ := (encWord0_eq_iff_shortOf w0 x (Nat.lt_trans hopc (by decide)) (by split <;> decide)).mp hw
  rw [decode_shortWords rest hopc hlen, decodeShort_eq_ok_iff, hform, hx]
  exact ⟨rfl, hi⟩

theorem decode_encode_ext {i : Instr} {opc sub : Nat} {x : Ext} (rest : List Word) (hform : i.form = .ext opc sub x)
    (hi : i.illegal = none) : decode (encode i ++ rest) = .ok i := by
  obtain ⟨hopc, hopc128, hsub⟩ := opc_sub_bounds_of_form_ext hform
  rw [encode_of_form_ext hform]
  generalize hw0 : encWord0 _ _ _ _ _ opc _ = w0
  generalize hw1 : encWord1 x = w1
  generalize hw2 : encWord2 x sub = w2
  obtain ⟨hx, hrnd, hty, rfl, rfl, hlen⟩ :=
    (encWords_eq_iff_extOf w0 w1 w2 x hopc128 hsub (by split <;> decide)).mp ⟨hw0, hw1, hw2⟩
  rw [decode_extWords rest hopc hlen, decodeExt_eq_ok_iff]
  exact ⟨⟨x.rnd, x.ty, hrnd, hty, by rw [hform, hx]⟩, hi⟩

theorem decode_encode {i : Instr} (rest : List Word) (hevent : i.form ≠ .event) (hi : i.illegal = none) :
    decode (encode i ++ rest) = .ok i := by
  cases hform : i.form with
  | one opc x => exact decode_encode_one rest hform hi
  | ext opc sub x => exact decode_encode_ext rest hform hi
  | event => exact absurd hform hevent

/-! ## Encoding what is decoded -/

theorem encode_of_decodeShort {w0 : Word} {lit : Option Word64} {i : Instr} (hlen : w0.toNat % 4 = if lit.isSome then 2 else 0)
    (h : decodeShort w0 lit = .ok i) : encode i = w0 :: lit.elim [] encLit := by
  obtain ⟨hform, _⟩ := decodeShort_eq_ok_iff.mp h
  have hw0 := encWord0_shortOf w0 lit
  rw [hlen] at hw0
  rw [encode_of_form_one hform]
  exact congrArg (· :: _) hw0

theorem encode_of_decodeExt {w0 w1 w2 : Word} {lit : Option Word64} {i : Instr}
    (hlen : w0.toNat % 4 = if lit.isSome then 3 else 1) (h : decodeExt w0 w1 w2 lit = .ok i) :
    encode i = w0 :: w1 :: w2 :: lit.elim [] encLit := by
  obtain ⟨⟨rnd, ty, hrnd, hty, hform⟩, _⟩ := decodeExt_eq_ok_iff.mp h
  obtain ⟨hw0, hw1, hw2⟩ := encWords_extOf (w0 := w0) (w2 := w2) lit hrnd hty
  rw [hlen] at hw0
  rw [encode_of_form_ext hform]
  exact congr (congrArg _ hw0) (congr (congrArg _ hw1) (congrArg (· :: _) hw2))

end Sys2Proof

namespace Sys2Proof.Machine

/-- What the decoder accepts is well formed, has an encoding, and is encoded as the first of the words. -/
theorem encode_prefix_of_decode {ws : List Word} {i : Instr} (h : decode ws = .ok i) :
    i.illegal = none ∧ evOf i = none ∧ encode i <+: ws := by
  obtain ⟨w0, lit, rest, rfl, hlen, hdec⟩ | ⟨w0, w1, w2, lit, rest, rfl, hlen, hdec⟩ := decode_cases h
  · obtain ⟨hform, hi⟩ := decodeShort_eq_ok_iff.mp hdec
    exact ⟨hi, evOf_of_form_one hform, rest, by rw [encode_of_decodeShort hlen hdec]⟩
  · obtain ⟨⟨_, _, _, _, hform⟩, hi⟩ := decodeExt_eq_ok_iff.mp hdec
    exact ⟨hi, evOf_of_form_ext hform, rest, by rw [encode_of_decodeExt hlen hdec]⟩

/-- Settles O56: the decoder reads in each word the fields that the encoder writes there, and the fields leave out no bit of a word. -/
theorem encodingAndDecodingAgree : Obligations.EncodingAndDecodingAgree := by
  unfold Obligations.EncodingAndDecodingAgree
  refine ⟨fun i rest hevent hi => ?_, fun ws i h => ?_⟩
  · rw [decodeBytes, encodeBytes, wordsOf_flatMap_wordBytes]
    exact decode_encode _ hevent hi
  · obtain ⟨hi, hev, hprefix⟩ := encode_prefix_of_decode h
    exact ⟨hi, hev, List.prefix_iff_eq_take.mp hprefix, length_encode i⟩

/-- Settles O60: the decoder evaluates each of these words. -/
theorem wordsDecodeAsTheTablesSay : Obligations.WordsDecodeAsTheTablesSay := by
  unfold Obligations.WordsDecodeAsTheTablesSay
  decide

end Sys2Proof.Machine
end

section
/-!
PROOFS. The checks of an issue (03 R83, R84, 06 R149): one lemma for each way in which an instruction does not reach its effect, and
what a skipped instruction does not wait for.
-/

namespace Sys2Proof.Machine

section
variable {i : Instr} {opc sub len : Nat} {x : Ext} {eff : C → State → Eff} {s : State} {t : Team}
  (h : s.team? s.cur = some t)
include h

theorem issue_of_lgBad (hg : lgBad t opc sub x = true) : issue i opc sub len x eff s =
    .next (takeTrap s t (trapHere t.pc (t.pc + BitVec.ofNat 64 len) 0x01 0x0C00)) := by
  simp only [issue, h, hg, if_true]
  rfl

variable (hg : lgBad t opc sub x = false)
  (hr : regErr s t (rowOf t.width opc sub x) x (extraRun t.width opc sub x) = none)
include hg hr

theorem issue_of_maskWait (hm : maskWait t = true) : issue i opc sub len x eff s = .next s := by
  simp only [issue, h, hg, hr, hm, Bool.false_eq_true, if_false, if_true]

variable (hm : maskWait t = false)
include hm

theorem issue_of_srcErr {n : Nat} (he : srcErr t opc sub (rowOf t.width opc sub x) x = some n) :
    issue i opc sub len x eff s = .next (takeTrap s t { trapHere t.pc (t.pc + BitVec.ofNat 64 len) 0x02 (ownPos i n) with
      lanes := lanesOf (activeLanes t x) }) := by
  simp only [issue, h, hg, hr, hm, he, Bool.false_eq_true, if_false]
  rfl

theorem issue_of_mustWait (he : srcErr t opc sub (rowOf t.width opc sub x) x = none)
    (hw : mustWait s t opc sub (rowOf t.width opc sub x) x = true) : issue i opc sub len x eff s = .next s := by
  simp only [issue, h, hg, hr, hm, he, hw, Bool.false_eq_true, if_false, if_true]

end

theorem ownPos_of_form_ext {i : Instr} {opc sub : Nat} {x : Ext} (h : i.form = .ext opc sub x) (n : Nat) : ownPos i n = n := by
  rw [ownPos, h]

theorem computed_eq_false {opc sub : Nat} (h : ¬ (opc = 0x59 ∧ sub ≤ 1)) : computed opc sub = false := by
  rw [computed, Bool.and_eq_false_iff, decide_eq_false_iff_not, decide_eq_false_iff_not]
  exact not_and_or.mp h

section
variable {t : Team} {opc sub : Nat} {r : Row} {x : Ext} (h : skips t opc sub r = true) (hc : computed opc sub = false)
include h hc

theorem srcErr_of_skips : srcErr t opc sub r x = none := by
  simp only [srcErr, h, hc, Bool.not_true, Bool.false_eq_true, if_false]

theorem mustWait_of_skips {s : State} (hd : r.d ≠ .sc) : mustWait s t opc sub r x = false := by
  simp only [mustWait, h, hc, hd, decide_false, Bool.false_and, Bool.or_false, if_true]

end

/-- Settles O23: every row of the tables is issued under its own OPC and SUB, and the checks are those of every issue. -/
theorem everyExtendedFormMakesTheIssueChecks : Obligations.EveryExtendedFormMakesTheIssueChecks := by
  unfold Obligations.EveryExtendedFormMakesTheIssueChecks
  intro opc sub g mk x s t hgroup hmk ht
  have hform := form_of_mkGroup hgroup hmk x
  obtain ⟨eff, hexec⟩ := exec_of_form_ext hform
  rw [hexec, issueExt]
  refine ⟨issue_of_lgBad ht, fun hg => ⟨fun n hr => ?regidx, issue_of_maskWait ht hg, fun n hr hm he => ?empty,
    issue_of_mustWait ht hg, fun hs hc => ?skipped⟩⟩
  case regidx => rw [issue_regTrap _ _ _ _ _ _ _ _ _ ht hg hr, ownPos_of_form_ext hform]
  case empty => rw [issue_of_srcErr ht hg hr hm he, ownPos_of_form_ext hform]
  case skipped => exact ⟨srcErr_of_skips hs (computed_eq_false hc), mustWait_of_skips hs (computed_eq_false hc)⟩

end Sys2Proof.Machine
end

section
/-!
PROOFS. One step (03 R61, R62, R70, R85, 05 R122): what it adds to what it runs, what it fetches at a team's boundary, and its time.
-/

namespace Sys2Proof.Machine

/-! ## What a step adds to what it runs -/

theorem postOnce_eq (s : State) (e : Ev) : ∃ es, s.postOnce e = { s with agenda := s.agenda ++ es } := by
  unfold State.postOnce
  split
  · exact ⟨[], by rw [List.append_nil]⟩
  · exact ⟨[e], rfl⟩

theorem foldl_postOnce_eq {α : Type} (ev : α → Ev) (l : List α) (s : State) :
    ∃ es, l.foldl (fun s a => s.postOnce (ev a)) s = { s with agenda := s.agenda ++ es } := by
  induction l generalizing s with
  | nil => exact ⟨[], by rw [List.append_nil]; rfl⟩
  | cons a l ih =>
    obtain ⟨es, hes⟩ := postOnce_eq s (ev a)
    obtain ⟨fs, hfs⟩ := ih { s with agenda := s.agenda ++ es }
    exact ⟨es ++ fs, by rw [List.foldl_cons, hes, hfs, List.append_assoc]⟩

theorem keepImages_eq (b s : State) : ∃ es, keepImages b s = { s with agenda := s.agenda ++ es } := foldl_postOnce_eq _ _ _

/-- What of a team noting the time of its issue leaves alone: its registers, program counter, predicates, status and run state. -/
def Team.regs (t : Team) : Nat × Word64 × List SReg × List VReg × List (List Bool) × Word64 × RunState :=
  (t.uid, t.pc, t.s, t.v, t.p, t.status, t.run)

theorem stamp_eq (b : State) (u : Nat) (s : State) :
    ∃ ts, stamp b u s = { s with teams := ts } ∧ ts.map Team.regs = s.teams.map Team.regs := by
  unfold stamp
  split
  · refine ⟨_, rfl, ?_⟩
    rw [List.map_map]
    refine List.map_congr_left (fun t _ => ?_)
    dsimp only [Function.comp]
    split <;> rfl
  · exact ⟨s.teams, rfl, rfl⟩

theorem wrapUp_eq {b : State} {u : Option Nat} {o : Out} {s' : State} (h : wrapUp b u o = .next s') :
    ∃ s ts es, o = .next s ∧ s' = { s with teams := ts, agenda := s.agenda ++ es } ∧
      ts.map Team.regs = s.teams.map Team.regs := by
  cases o with
  | next s =>
    cases u with
    | none =>
      obtain ⟨es, hes⟩ := keepImages_eq b s
      exact ⟨s, s.teams, es, rfl, (Host.Outcome.next.inj h).symm.trans hes, rfl⟩
    | some u =>
      obtain ⟨ts, hstamp, hregs⟩ := stamp_eq b u s
      obtain ⟨es, hes⟩ := keepImages_eq b (stamp b u s)
      refine ⟨s, ts, es, rfl, (Host.Outcome.next.inj h).symm.trans (hes.trans ?_), hregs⟩
      rw [hstamp]
  | fault f => cases h
  | refused r => cases h

/-! ## A chosen event -/

section
variable {s : State} {e : Ev} (h : s.agenda[chosen s]? = some e)
include h

theorem step_of_event {i : Instr} (hi : evOf i = some e) (hp : portHolds (ahead s) e = false) :
    step s = wrapUp (ahead s) none (exec i (ahead s)) := by
  rw [step_event h, hp, exec_evOf hi]
  rfl

theorem step_of_portHolds (hp : portHolds (ahead s) e = true) : step s = .next (putOff (ahead s) e) := by
  rw [step_event h, hp]
  rfl

end

/-! ## The boundary of a team -/

theorem fetch_of_bytes {s : State} {t : Team} {b0 b1 : List Byte} (hpc : t.pc.toNat % 4 = 0)
    (h0 : fetchBytes s t t.pc.toNat 4 = .ok b0)
    (h1 : fetchBytes s t ((t.pc.toNat + 4) % 2 ^ 64) (4 * lenWords (leNat b0) - 4) = .ok b1) :
    fetch s t = .words (decodeBytes (b0 ++ b1)) := by
  simp only [fetch, hpc, h0, h1, ne_eq, not_true_eq_false, if_false]

theorem fetchTrap_of_bytes {s : State} {t : Team} {b : List Byte} (h : fetchBytes s t t.pc.toNat 4 = .ok b) (code sub : Nat) :
    fetchTrap s t code sub 0 =
      takeTrap s t (trapHere t.pc (t.pc + BitVec.ofNat 64 (4 * lenWords (leNat b))) code sub) := by
  simp only [fetchTrap, h]
  rfl

theorem noWound_iff (t : Team) : (t.wound && !t.handler) = false ↔ t.wound = false ∨ t.handler = true := by
  rw [Bool.and_eq_false_iff, Bool.not_eq_false']

section
variable {s : State} {t : Team} (htrap : nextTrap t = none) (hwound : (t.wound && !t.handler) = false)
include htrap hwound

theorem stepTeam_of_ok {i : Instr} (h : fetch s t = .words (.ok i)) : stepTeam s t = exec i (fetchFill s t) := by
  simp only [stepTeam, htrap, hwound, h, Bool.false_eq_true, if_false]

theorem stepTeam_of_illegal {r d : Nat} (h : fetch s t = .words (.illegal r d)) :
    stepTeam s t = .next (fetchTrap s t 0x01 (r * 256 + d) 0) := by
  simp only [stepTeam, htrap, hwound, h, Bool.false_eq_true, if_false]

end

/-! ## The time of a step -/

theorem toNat_clockAfter (clk : Word64) (n : Nat) : (clockAfter clk n).toNat = min (2 ^ 64 - 1) (clk.toNat + n) := by
  rw [clockAfter, BitVec.toNat_ofNat]
  omega

theorem toNat_clk_tick (s : State) : (tick s).clk.toNat = min (2 ^ 64 - 1) (s.clk.toNat + elapsed s) := by
  rw [tick_clk, toNat_clockAfter]

theorem toNat_clk_le_tick (s : State) : s.clk.toNat ≤ (tick s).clk.toNat := by
  rw [toNat_clk_tick]
  have hclk := s.clk.isLt
  omega

theorem ahead_clk (s : State) : (ahead s).clk = (tick s).clk := by
  rw [ahead, tick_clk, tick_clk]
  rfl

/-- Settles O59: a step is its chosen event or team (`step_event`, `step_team`), and a team at no trap or wound is what its fetch
says. -/
theorem aStepRunsTheDecodedInstruction : Obligations.AStepRunsTheDecodedInstruction := by
  unfold Obligations.AStepRunsTheDecodedInstruction
  refine ⟨fun s e i h hi => ⟨step_of_event h hi, fun hp hpost => ?waits, fun hp hpost => ?posted⟩,
    fun s t b0 b1 i hteams ht htrap hw hpc h0 h1 hd => ?decoded, fun s t b0 b1 r d hteams ht htrap hw hpc h0 h1 hd => ?refused,
    fun s u o s' h => ?around, fun s => ⟨Nat.le_add_right _ _, toNat_clk_tick s, toNat_clk_le_tick s, tick_mem s, tick_mem _,
      ahead_clk s⟩⟩
  case waits =>
    rw [step_of_portHolds h hp, putOff, hpost]
    rfl
  case posted =>
    rw [step_of_portHolds h hp, putOff, hpost]
    rfl
  case decoded =>
    rw [step_team (List.getElem?_eq_none hteams) ht,
      stepTeam_of_ok htrap ((noWound_iff _).mpr hw) (hd ▸ fetch_of_bytes hpc h0 h1)]
  case refused =>
    rw [step_team (List.getElem?_eq_none hteams) ht,
      stepTeam_of_illegal htrap ((noWound_iff _).mpr hw) (hd ▸ fetch_of_bytes hpc h0 h1), fetchTrap_of_bytes h0]
  case around =>
    obtain ⟨s0, ts, es, rfl, rfl, hregs⟩ := wrapUp_eq h
    exact ⟨s0, rfl, rfl, rfl, rfl, hregs, fun e he => List.mem_append_left _ he⟩

end Sys2Proof.Machine
end

section
/-!
PROOFS. Floating-point instructions and the flags that they raise (04 R98, R99): what the active lanes raise, the effect that writes
results and flags and then traps where a flag is enabled, and from it the state that such an instruction leaves.
-/

namespace Sys2Proof.Machine

/-! ## The flags of the active lanes -/

theorem lt_length_of_mem_lanesOf {act : List Bool} {l : Nat} (h : l ∈ lanesOf act) : l < act.length := by
  obtain ⟨⟨k, b⟩, hmem, hb⟩ := List.mem_filterMap.mp h
  cases b <;> cases hb
  exact List.mem_range.mp (List.of_mem_zip hmem).1

theorem lt_width_of_mem_active {t : Team} {x : Ext} {l : Nat} (h : l ∈ lanesOf (activeLanes t x)) : l < t.width :=
  length_activeLanes t x ▸ lt_length_of_mem_lanesOf h

/-- The flags that a floating-point effect hands to `fpDone`: those of each active lane. -/
def laneFlags (t : Team) (x : Ext) (res : Nat → Nat × Flg) : List (Nat × Flg) :=
  (lanesOf (activeLanes t x)).map (fun l => (l, (res l).2))

theorem foldl_laneFlags (t : Team) (x : Ext) (res : Nat → Nat × Flg) :
    (laneFlags t x res).foldl (fun a p => a ||| p.2) 0 = raised t x res := List.foldl_map

/-- The trap `fpexc` of flags of which one is enabled (04 R99). -/
theorem fpTrap_of_enabled {t : Team} {fl : List (Nat × Flg)} (h : enabled t.status (fl.foldl (fun a p => a ||| p.2) 0) ≠ 0)
    (pc npc : Word64) : fpTrap t pc npc fl =
      some { trapHere pc npc 0x0D (enabled t.status (fl.foldl (fun a p => a ||| p.2) 0)) with
        skip := true, lanes := (fl.filter (fun p => enabled t.status p.2 ≠ 0)).map (fun p => p.1) } := if_neg h

theorem fpTrap_laneFlags (t : Team) (x : Ext) (n : Nat) (res : Nat → Nat × Flg) :
    fpTrap t t.pc (t.pc + BitVec.ofNat 64 n) (laneFlags t x res) =
      if enabled t.status (raised t x res) = 0 then none else some (flagTrap t x n res) := by
  split
  case isTrue h => exact if_pos (foldl_laneFlags t x res ▸ h)
  case isFalse h =>
    have hlanes : ((laneFlags t x res).filter (fun p => enabled t.status p.2 ≠ 0)).map (fun p => p.1) =
        (lanesOf (activeLanes t x)).filter (fun l => enabled t.status (res l).2 ≠ 0) := by
      simp [laneFlags, List.filter_map, Function.comp_def]
    rw [fpTrap_of_enabled (foldl_laneFlags t x res ▸ h), foldl_laneFlags, hlanes, flagTrap]

/-! ## The effect of a floating-point instruction -/

/-- The end of a floating-point effect: done where no raised flag is enabled, else the trap of R99. -/
def fpEnd (s : State) (t : Team) (x : Ext) (n : Nat) (res : Nat → Nat × Flg) : Eff :=
  if enabled t.status (raised t x res) = 0 then .done s else .trap s (flagTrap t x n res)

/-- Flags are added to `status` before the trap is looked at (04 R98, R99). -/
theorem fpDone_ctxAt (i : Instr) (opc sub n : Nat) (x : Ext) (t : Team) (s : State) (res : Nat → Nat × Flg) :
    (ctxAt i opc sub n x t).fpDone s (laneFlags t x res) = fpEnd (addFlags s t (raised t x res)) t x n res := by
  have hnpc : (ctxAt i opc sub n x t).npc = t.pc + BitVec.ofNat 64 n := rfl
  simp only [C.fpDone, foldl_laneFlags, hnpc, ctxAt_t, fpTrap_laneFlags, fpEnd, addFlags]
  by_cases hoff : enabled t.status (raised t x res) = 0
  · simp only [if_pos hoff]
  · simp only [if_neg hoff]

theorem fpLanes_ctxAt (i : Instr) (opc sub n : Nat) (x : Ext) (t : Team) (s : State) (wide : Bool) (tag : Tag)
    (res : Nat → Nat × Flg) : (ctxAt i opc sub n x t).fpLanes s wide tag res = fpEnd (fpWritten s t x wide res tag) t x n res := by
  have hflags : (ctxAt i opc sub n x t).actives.map (fun l => (l, ((t.laneIxs.map res).getD l (0, 0)).2)) =
      laneFlags t x res := by
    refine List.map_congr_left (fun l hl => ?_)
    have hlt : l < t.width := lt_width_of_mem_active hl
    simp [Team.laneIxs, List.getD_eq_getElem?_getD, hlt]
  simp only [C.fpLanes, ctxAt_t, hflags, fpDone_ctxAt, List.map_map]
  rfl

/-! ## From the effect to the state after it -/

theorem exists_team_onTeam {s : State} {v w : Nat} {f : Team → Team} (hf : ∀ t, (f t).uid = t.uid)
    (h : ∃ t, s.team? v = some t) : ∃ t, (s.onTeam w f).team? v = some t := by
  obtain ⟨t, ht⟩ := h
  exact ⟨_, by rw [team_onTeam s w v f hf, ht]; rfl⟩

/-- An instruction that issues and traps in its effect takes the trap in the state that the effect leaves. -/
theorem exec_of_trap {i : Instr} {opc sub n : Nat} {x : Ext} {eff : C → State → Eff} {s s' : State} {t t' : Team} {tr : Trap}
    (hexec : exec i s = issue i opc sub n x eff s) (h : Issues opc sub x s t)
    (heff : eff (ctxAt i opc sub n x t) s = .trap s' tr) (ht' : s'.team? t.uid = some t') :
    exec i s = .next (takeTrap s' t' tr) := by
  rw [hexec, issue_runs _ _ _ _ _ _ _ _ h, heff]
  simp only [finish, ctxAt_t, ht']

/-- A floating-point instruction with an enabled flag takes the trap of R99 after its effect. -/
theorem exec_of_fpEnd_enabled {i : Instr} {opc sub n : Nat} {x : Ext} {eff : C → State → Eff} {s s' : State} {t : Team}
    {res : Nat → Nat × Flg} (hexec : exec i s = issue i opc sub n x eff s) (h : Issues opc sub x s t)
    (heff : eff (ctxAt i opc sub n x t) s = fpEnd s' t x n res) (hen : enabled t.status (raised t x res) ≠ 0)
    (hteam : ∃ t', s'.team? t.uid = some t') :
    ∃ t', s'.team? t.uid = some t' ∧ exec i s = .next (takeTrap s' t' (flagTrap t x n res)) := by
  obtain ⟨t', ht'⟩ := hteam
  exact ⟨t', ht', exec_of_trap hexec h (heff.trans (if_neg hen)) ht'⟩

theorem exists_team_fpWritten {s : State} {t : Team} (h : s.team? t.uid = some t) (x : Ext) (wide : Bool)
    (res : Nat → Nat × Flg) (tag : Tag) : ∃ t', (fpWritten s t x wide res tag).team? t.uid = some t' :=
  exists_team_onTeam (fun _ => rfl) (exists_team_onTeam (fun u => uid_writeN u ..) ⟨t, h⟩)

/-- An instruction whose effect is `fpLanes` of its results is an `FpOp` (04 R98, R99). -/
theorem fpOp_of_effect {α : Type} {mk : α → Instr} {ext : α → Ext} {len : α → Nat} {opc sub : Nat} {wide : Ext → Bool}
    {res : State → Team → Ext → Nat → Nat × Flg} {tag : Team → Ext → Tag} {eff : C → State → Eff}
    (hexec : ∀ y s, exec (mk y) s = issue (mk y) opc sub (len y) (ext y) eff s)
    (heff : ∀ y i n t s, let x := ext y
      let c := ctxAt i opc sub n x t
      eff c s = c.fpLanes s (wide x) (tag t x) (res s t x)) : FpOp mk ext len opc sub wide res tag := by
  constructor
  case left =>
    intro y s t x h hoff
    exact exec_of_done (hexec y s) h ((heff ..).trans ((fpLanes_ctxAt ..).trans (if_pos hoff)))
  case right =>
    intro y s t x s' h hen
    exact exec_of_fpEnd_enabled (hexec y s) h ((heff ..).trans (fpLanes_ctxAt ..)) hen
      (exists_team_fpWritten (team?_uid_of_issues h) ..)

/-! ## The effects of groups vfp, vcvt and vsfu -/

theorem elems_ctxAt (i : Instr) (opc sub n : Nat) (x : Ext) (t : Team) (s : State) (y : Src) (k l : Nat) :
    (ctxAt i opc sub n x t).elems s y k l = fpElems s t x y k l := by
  simp only [C.elems, opnd_ctxAt, ctxAt_x, fpElems]

theorem effVfp_ctxAt (op : FOp) (i : Instr) (opc sub n : Nat) (x : Ext) (t : Team) (s : State) :
    let c := ctxAt i opc sub n x t
    effVfp op c s = c.fpLanes s x.ty.wide (laneTag opc sub t x) (fpEach op s t x) := by
  simp only [effVfp, elems_ctxAt, ctxAt_x, ctxAt_t, tag_ctxAt]
  rfl

theorem effSfu_ctxAt (op : SfuOp) (i : Instr) (opc sub n : Nat) (x : Ext) (t : Team) (s : State) :
    let c := ctxAt i opc sub n x t
    effSfu op c s = c.fpLanes s false (laneTag opc sub t x) (fun l => op (srcVal s t x x.a 32 l) t.ftz) := by
  simp only [effSfu, opnd_ctxAt, ctxAt_x, ctxAt_t, tag_ctxAt]

/-- The lane result of `vcvt` (08 R185). -/
def vcvtLane (s : State) (t : Team) (x : Ext) (l : Nat) : Nat × Flg :=
  let fr := (Ty.ofCode (x.f 4 0)).getD .b32
  let v := tyValue fr t.ftz (srcVal s t x x.a fr.width l)
  let r := toTy x.ty (t.mode x.rnd) (x.bit 5) t.ftz v
  (if x.ty.signed && x.ty.width < 32 then patN 32 (sextN x.ty.width r.1) else r.1, r.2 ||| sigFlag [v])

theorem effVcvt_ctxAt (i : Instr) (opc sub n : Nat) (x : Ext) (t : Team) (s : State) :
    let c := ctxAt i opc sub n x t
    effVcvt c s = c.fpLanes s x.ty.wide (laneTag opc sub t x) (vcvtLane s t x) := by
  simp only [effVcvt, opnd_ctxAt, ctxAt_x, ctxAt_t, tag_ctxAt]
  rfl

/-- Element j of lane l as `vunpackn` unpacks it (08 R186). -/
def unpackElem (s : State) (t : Team) (x : Ext) (j l : Nat) : Nat × Flg :=
  fmt32.round (t.mode x.rnd) false t.ftz
    ((tyValue x.ty.elem t.ftz (elemAt x.ty (srcVal s t x x.a 32 l) j)).scale (sextN 32 (srcVal s t x x.b 32 l)))

/-- The flags of every element of lane l, as the flags of one result. -/
def unpackFlags (s : State) (t : Team) (x : Ext) (l : Nat) : Nat × Flg :=
  (0, (List.range x.ty.elems).foldl (fun a j => a ||| (unpackElem s t x j l).2) 0)

/-- The state in which register D + j holds element j of the active lanes (08 R186). -/
def unpacked (s : State) (t : Team) (x : Ext) (tag : Tag) : State :=
  (List.range x.ty.elems).foldl (fun s1 j => s1.onTeam t.uid (fun u => u.writeN (x.d.toNat + j) false (activeLanes t x)
    ((List.range t.width).map (fun l => (unpackElem s t x j l).1)) tag)) s

theorem effVunpackn_ctxAt (i : Instr) (opc sub n : Nat) (x : Ext) (t : Team) (s : State) :
    effVunpackn (ctxAt i opc sub n x t) s = fpEnd (addFlags (unpacked s t x (laneTag opc sub t x)) t
      (raised t x (unpackFlags s t x))) t x n (unpackFlags s t x) := by
  rw [← fpDone_ctxAt i opc sub]
  simp only [effVunpackn, opnd_ctxAt, ctxAt_x, ctxAt_t, tag_ctxAt]
  rfl

theorem exists_team_unpacked {s : State} {t : Team} (h : s.team? t.uid = some t) (x : Ext) (tag : Tag) :
    ∃ t', (unpacked s t x tag).team? t.uid = some t' :=
  List.foldlRecOn (motive := fun s1 : State => ∃ t', s1.team? t.uid = some t') _ _ ⟨t, h⟩
    (fun _ h1 _ _ => exists_team_onTeam (fun u => uid_writeN u ..) h1)

/-! ## The end of a function in flight -/

theorem endFlight_of_noTrap {f : Flight} (h : flightTrap f = none) (s : State) :
    endFlight s f = settle (fillDst (s.dropFlight f.id) f) f.team := by
  simp only [endFlight, h]

/-- Settles O18: each instruction ends in `fpEnd` of its results, which traps where a flag is enabled; a function in flight ends in
`fpTrap` under the `status` it issued with. -/
theorem enabledFloatFlagTraps : Obligations.EnabledFloatFlagTraps := by
  unfold Obligations.EnabledFloatFlagTraps
  refine ⟨(fpOp_of_effect (fun _ _ => rfl) (fun _ _ _ _ _ => effVfp_ctxAt fMul ..)).2,
    (fpOp_of_effect (fun _ _ => rfl) (fun _ _ _ _ _ => effVfp_ctxAt fFma ..)).2,
    (fpOp_of_effect (fun _ _ => rfl) (fun _ _ _ _ _ => effSfu_ctxAt sRcp ..)).2,
    (fpOp_of_effect (fun _ _ => rfl) (fun _ _ _ _ _ => effVcvt_ctxAt ..)).2, ?vunpackn, ?sfuComplete⟩
  case vunpackn =>
    intro x s t h one res hen
    obtain ⟨t', ht', hexec⟩ := exec_of_fpEnd_enabled (i := .vunpackn x) rfl h (effVunpackn_ctxAt ..) hen
      (exists_team_onTeam (fun _ => rfl) (exists_team_unpacked (team?_uid_of_issues h) ..))
    exact ⟨_, t', rfl, ht', hexec⟩
  case sfuComplete =>
    intro id s f t hf ht hno fl all hen
    have htrap := fpTrap_of_enabled (t := { t with status := f.status }) hen f.pc f.npc
    change execSfuComplete id s = _
    simp only [execSfuComplete, hf, ht, Option.bind_some, htrap, endFlight_of_noTrap hno, fl, all]

end Sys2Proof.Machine
end

section
/-!
PROOFS. Branches, software traps, calls and jumps that issue (05 R130-R132, R134, 19 R431): from an effect that jumps, waits or
traps to the state after it.
-/

namespace Sys2Proof.Machine

/-! ## From the effect at an issue to the state after it -/

/-- An instruction that issues and jumps moves the program counter to its target. -/
theorem exec_of_jump {i : Instr} {opc sub n : Nat} {x : Ext} {eff : C → State → Eff} {s s' : State} {t : Team} {a : Word64}
    (hexec : exec i s = issue i opc sub n x eff s) (h : Issues opc sub x s t)
    (heff : eff (ctxAt i opc sub n x t) s = .jump s' a) : exec i s = .next (goTo s' t a) := by
  rw [hexec, issue_runs _ _ _ _ _ _ _ _ h, heff, finish_jump _ _ _ _ _ _ _ _ h.2.1]

/-- An instruction that issues and waits in its effect leaves the state that the effect gives. -/
theorem exec_of_wait {i : Instr} {opc sub n : Nat} {x : Ext} {eff : C → State → Eff} {s s' : State} {t : Team}
    (hexec : exec i s = issue i opc sub n x eff s) (h : Issues opc sub x s t)
    (heff : eff (ctxAt i opc sub n x t) s = .wait s') : exec i s = .next s' := by
  rw [hexec, issue_runs _ _ _ _ _ _ _ _ h, heff]
  rfl

/-- A scalar instruction that executes has its effect (02 R44). -/
theorem onGo_of_go {c : C} (hgo : c.go = true) (f : C → State → Eff) (s : State) : onGo f c s = f c s := by
  simp only [onGo, hgo, if_true]

/-! ## Branches -/

/-- A branch effect is taken exactly when the instruction executes and its condition holds (05 R130). -/
theorem exec_of_branchIf {i : Instr} {opc sub n : Nat} {x : Ext} {p : C → State → Bool} {s : State} {t : Team}
    (hexec : exec i s = issue i opc sub n x (branchIf p) s) (h : Issues opc sub x s t) :
    exec i s = .next (if t.go x.g x.neg && p (ctxAt i opc sub n x t) s then goTo s t (branchTarget t x) else retire s t n) := by
  by_cases htaken : (t.go x.g x.neg && p (ctxAt i opc sub n x t) s) = true
  · rw [if_pos htaken]
    exact exec_of_jump hexec h (if_pos htaken)
  · rw [if_neg htaken]
    exact exec_of_done hexec h (if_neg htaken)

/-- The conditions of `bsc` in the model are those of R129. -/
theorem bscCond_eq_signTest (cc : Nat) (a : Int) : bscCond cc a = signTest cc a := by
  match cc with
  | 0 | 1 | 2 | 3 | 4 | _ + 5 => rfl

/-- An instruction whose effect is that of `loop` is a `LoopOp` (05 R132). -/
theorem loopOp_of_effect {α : Type} {mk : α → Instr} {ext : α → Ext} {len : α → Nat}
    (hexec : ∀ y s, exec (mk y) s = issue (mk y) 0x40 7 (len y) (ext y) effLoop s) : LoopOp mk ext len := by
  intro y s t x v h
  have heff : effLoop (ctxAt (mk y) 0x40 7 (len y) x t) s = if t.go x.g x.neg then
      (if v ≠ 0 then .jump (putScalar s t x.d v) (branchTarget t x) else .done (putScalar s t x.d v)) else .done s := rfl
  by_cases hgo : t.go x.g x.neg = true
  · rw [if_pos hgo] at heff ⊢
    by_cases hv : v ≠ 0
    · rw [if_pos hv] at heff ⊢
      exact exec_of_jump (hexec y s) h heff
    · rw [if_neg hv] at heff ⊢
      exact exec_of_done (hexec y s) h heff
  · rw [if_neg hgo] at heff ⊢
    exact exec_of_done (hexec y s) h heff

/-- An instruction whose effect is `branchIf` of a condition is a `BranchOp` of it. -/
theorem branchOp_of_effect {α : Type} {mk : α → Instr} {ext : α → Ext} {len : α → Nat} {sub : Nat}
    {cond : Team → State → Bool}
    (hexec : ∀ y s, exec (mk y) s = issue (mk y) 0x40 sub (len y) (ext y) (branchIf (fun c s => cond c.t s)) s) :
    BranchOp mk ext len sub cond :=
  fun y s _ h => exec_of_branchIf (hexec y s) h

/-- Settles O3: each branch issues `branchIf` of its condition, and `loop` its own effect. -/
theorem branchesMoveTheProgramCounter : Obligations.BranchesMoveTheProgramCounter := by
  unfold Obligations.BranchesMoveTheProgramCounter
  refine ⟨branchOp_of_effect (fun _ _ => rfl), branchOp_of_effect (fun _ _ => rfl), branchOp_of_effect (fun _ _ => rfl),
    branchOp_of_effect (fun _ _ => rfl), branchOp_of_effect (fun _ _ => rfl), branchOp_of_effect (fun _ _ => rfl), ?bsc,
    loopOp_of_effect (fun _ _ => rfl), loopOp_of_effect (fun _ _ => rfl), fun _ _ _ h => exec_of_done rfl h rfl,
    fun _ _ _ h => exec_of_done rfl h rfl⟩
  case bsc =>
    intro x s t h
    have hbranch := exec_of_branchIf (i := .bsc x) rfl h
    rwa [sc64_ctxAt, bscCond_eq_signTest] at hbranch

/-! ## Traps, calls and jumps -/

/-- The two software traps take the trap of their code where they execute. -/
theorem exec_of_softTrap {i : Instr} {opc sub n code : Nat} {x : Ext} {eff : C → State → Eff} {s : State} {t : Team}
    (hexec : exec i s = issue i opc sub n x eff s) (h : Issues opc sub x s t)
    (heff : eff (ctxAt i opc sub n x t) s = if t.go x.g x.neg then
      .trap s { trapHere t.pc (t.pc + BitVec.ofNat 64 n) code (x.f 15 0) with skip := true } else .done s) :
    exec i s = .next (if t.go x.g x.neg then
      takeTrap s t { trapHere t.pc (t.pc + BitVec.ofNat 64 n) code (x.f 15 0) with skip := true } else retire s t n) := by
  by_cases hgo : t.go x.g x.neg = true
  · rw [if_pos hgo] at heff ⊢
    exact exec_of_trap hexec h heff (team?_uid_of_issues h)
  · rw [if_neg hgo] at heff ⊢
    exact exec_of_done hexec h heff

/-- Settles O16: `trap` and `brk` end in their trap where they execute. -/
theorem softwareTrapsAreTaken : Obligations.SoftwareTrapsAreTaken := by
  unfold Obligations.SoftwareTrapsAreTaken
  exact ⟨fun _ _ _ h => exec_of_softTrap rfl h rfl, fun _ _ _ h => exec_of_softTrap rfl h rfl⟩

/-- What `ret` and `jmp` do: a trap where their operand is misaligned, else a jump (05 R131). -/
theorem effJump_ctxAt (i : Instr) (opc sub n : Nat) (x : Ext) (t : Team) (s : State) :
    effJump (ctxAt i opc sub n x t) s = if t.go x.g x.neg then
      (if (srcScalar s t x x.a).toNat % 4 ≠ 0 then .trap s (trapHere t.pc (t.pc + BitVec.ofNat 64 n) 0x04 0)
       else .jump s (srcScalar s t x x.a)) else .done s := by
  simp only [effJump, ctxAt_go, sc64_ctxAt, ctxAt_x]
  rfl

theorem exec_of_effJump_aligned {i : Instr} {opc sub n : Nat} {x : Ext} {s : State} {t : Team}
    (hexec : exec i s = issue i opc sub n x effJump s) (h : Issues opc sub x s t)
    (hal : t.go x.g x.neg = true → (srcScalar s t x x.a).toNat % 4 = 0) :
    exec i s = .next (if t.go x.g x.neg then goTo s t (srcScalar s t x x.a) else retire s t n) := by
  have heff := effJump_ctxAt i opc sub n x t s
  by_cases hgo : t.go x.g x.neg = true
  · rw [if_pos hgo, if_neg (not_not_intro (hal hgo))] at heff
    rw [if_pos hgo]
    exact exec_of_jump hexec h heff
  · rw [if_neg hgo] at heff ⊢
    exact exec_of_done hexec h heff

theorem exec_of_effJump_misaligned {i : Instr} {opc sub n : Nat} {x : Ext} {s : State} {t : Team}
    (hexec : exec i s = issue i opc sub n x effJump s) (h : Issues opc sub x s t) (hgo : t.go x.g x.neg = true)
    (hmis : (srcScalar s t x x.a).toNat % 4 ≠ 0) :
    exec i s = .next (takeTrap s t (trapHere t.pc (t.pc + BitVec.ofNat 64 n) 0x04 0)) := by
  have heff := effJump_ctxAt i opc sub n x t s
  rw [if_pos hgo, if_pos hmis] at heff
  exact exec_of_trap hexec h heff (team?_uid_of_issues h)

/-- Settles O17: `call` jumps from the state in which sD is written; `ret` and `jmp` share `effJump`. -/
theorem callsAndJumpsMoveOrTrap : Obligations.CallsAndJumpsMoveOrTrap := by
  unfold Obligations.CallsAndJumpsMoveOrTrap
  refine ⟨?call, fun _ _ _ h hal => exec_of_effJump_aligned rfl h hal, fun _ _ _ h hal => exec_of_effJump_aligned rfl h hal,
    fun _ _ _ h hgo hmis => exec_of_effJump_misaligned rfl h hgo hmis,
    fun _ _ _ h hgo hmis => exec_of_effJump_misaligned rfl h hgo hmis⟩
  case call =>
    intro x s t h
    by_cases hgo : t.go x.g x.neg = true
    · rw [if_pos hgo]
      exact exec_of_jump (i := .call x) rfl h (if_pos hgo)
    · rw [if_neg hgo]
      exact exec_of_done (i := .call x) rfl h (if_neg hgo)

end Sys2Proof.Machine
end

section
/-!
PROOFS. Mask and predicate moves (05 R136): the bits of a run of scalar registers after the lanes of a team are merged into it.
-/

namespace Sys2Proof.Machine

/-! ## Mask and predicate moves (05 R136) -/

theorem mergeBits_append (old : Word64) (bits : List Bool) (b : Bool) :
    mergeBits old (bits ++ [b]) = if b then mergeBits old bits ||| BitVec.ofNat 64 (2 ^ bits.length)
      else mergeBits old bits &&& ~~~(BitVec.ofNat 64 (2 ^ bits.length)) := by
  simp [mergeBits, List.range_succ, List.zip_append]

theorem getLsbD_ofNat_two_pow {k l : Nat} (hk : k < 64) :
    (BitVec.ofNat 64 (2 ^ k)).getLsbD l = decide (k = l) := by
  rw [BitVec.getLsbD_ofNat, Nat.testBit_two_pow]
  by_cases h : k = l
  · simp [h ▸ hk]
  · simp [h]

/-- The low bits of a register come from the list and the others stay. -/
theorem getLsbD_mergeBits (old : Word64) (bits : List Bool) {l : Nat} (hlen : bits.length ≤ 64) (hl : l < 64) :
    (mergeBits old bits).getLsbD l = if l < bits.length then bits.getD l false else old.getLsbD l := by
  induction bits using List.reverseRecOn with
  | nil => rfl
  | append_singleton bits b ih =>
    rw [List.length_append, List.length_singleton] at hlen
    have hbit : (BitVec.ofNat 64 (2 ^ bits.length)).getLsbD l = decide (bits.length = l) :=
      getLsbD_ofNat_two_pow (by omega)
    have hnew : (mergeBits old (bits ++ [b])).getLsbD l =
        if bits.length = l then b else (mergeBits old bits).getLsbD l := by
      rw [mergeBits_append]
      cases b
      · simp only [Bool.false_eq_true, if_false, BitVec.getLsbD_and, BitVec.getLsbD_not, hbit, hl]
        by_cases hb : bits.length = l <;> simp [hb]
      · simp only [if_true, BitVec.getLsbD_or, hbit]
        by_cases hb : bits.length = l <;> simp [hb]
    rw [hnew, ih (by omega), List.length_append, List.length_singleton]
    rcases Nat.lt_trichotomy l bits.length with hlt | rfl | hgt
    · rw [if_neg (by omega), if_pos hlt, if_pos (by omega), List.getD_append _ _ _ _ hlt]
    · simp
    · rw [if_neg (by omega), if_neg (by omega), if_neg (by omega)]

theorem Team.sval_setS (t : Team) (n k : Nat) (v : Word64) :
    (t.setS n v).sval k = if n = k ∧ k < t.s.length then v else t.sval k := by
  rw [Team.sval, Team.sreg_setS]
  split <;> rfl

/-- The first m registers of a run, each replaced by a function of its number in the run and its old value. -/
def Team.setRun (t : Team) (n : Nat) (f : Nat → Word64 → Word64) (m : Nat) : Team :=
  (List.range m).foldl (fun u k => u.setS (n + k) (f k (u.sval (n + k)))) t

theorem Team.setRun_succ (t : Team) (n : Nat) (f : Nat → Word64 → Word64) (m : Nat) :
    t.setRun n f (m + 1) = (t.setRun n f m).setS (n + m) (f m ((t.setRun n f m).sval (n + m))) := by
  simp only [Team.setRun, List.range_succ, List.foldl_append, List.foldl_cons, List.foldl_nil]

theorem Team.length_s_setRun (t : Team) (n : Nat) (f : Nat → Word64 → Word64) (m : Nat) :
    (t.setRun n f m).s.length = t.s.length := by
  induction m with
  | zero => rfl
  | succ m ih => rw [Team.setRun_succ, Team.setS, List.length_modify, ih]

theorem Team.sval_setRun (t : Team) (n : Nat) (f : Nat → Word64 → Word64) (m j : Nat) :
    (t.setRun n f m).sval j = if n ≤ j ∧ j < n + m ∧ j < t.s.length then f (j - n) (t.sval j) else t.sval j := by
  induction m with
  | zero => exact (if_neg (by omega)).symm
  | succ m ih =>
    rw [Team.setRun_succ, Team.sval_setS, Team.length_s_setRun]
    by_cases hj : n + m = j
    · subst hj
      have hold : (t.setRun n f m).sval (n + m) = t.sval (n + m) := ih.trans (if_neg (by omega))
      rw [hold, Nat.add_sub_cancel_left]
      refine if_congr ?_ rfl rfl
      omega
    · rw [if_neg (fun h => hj h.1), ih]
      refine if_congr ?_ rfl rfl
      omega

/-- A change of a run of scalar registers leaves everything else of the team. -/
theorem Team.setRun_frame (t : Team) (n : Nat) (f : Nat → Word64 → Word64) (m : Nat) :
    { t.setRun n f m with s := t.s } = t := by
  induction m with
  | zero => rfl
  | succ m ih => rw [Team.setRun_succ]; exact ih

theorem Team.putMask_eq_setRun (t : Team) (n : Nat) (bits : List Bool) :
    t.putMask n bits = t.setRun n (fun k w => mergeBits w ((bits.drop (64 * k)).take 64)) (maskRegs t.width) := rfl

theorem width_le_maskRegs (w : Nat) : w ≤ 64 * maskRegs w := by
  unfold maskRegs
  split <;> omega

/-- Every bit of the mask registers of a run after `pmask`: a lane's bit is written, an ordinary bit stays. -/
theorem Team.runBit_putMask (t : Team) (n : Nat) (bits : List Bool) {l : Nat} (hs : n + maskRegs t.width ≤ t.s.length)
    (hl : l < 64 * maskRegs t.width) :
    (t.putMask n bits).runBit n l = if l < bits.length then bits.getD l false else t.runBit n l := by
  have hreg : n ≤ n + l / 64 ∧ n + l / 64 < n + maskRegs t.width ∧ n + l / 64 < t.s.length := by omega
  rw [Team.runBit, Team.putMask_eq_setRun, Team.sval_setRun, if_pos hreg, Nat.add_sub_cancel_left,
    getLsbD_mergeBits _ _ (List.length_take_le ..) (Nat.mod_lt _ (by decide)), List.length_take, List.length_drop]
  by_cases hlane : l < bits.length
  · rw [if_pos (by omega), if_pos hlane]
    simp only [List.getD_eq_getElem?_getD, List.getElem?_take, List.getElem?_drop, Nat.mod_lt _ (show 0 < 64 by decide), if_true,
      Nat.div_add_mod]
  · rw [if_neg (by omega), if_neg hlane, Team.runBit]

/-- Settles O4: `pmask` writes the run that `runBit_putMask` describes; `mpred` writes lane by lane. -/
theorem maskAndPredicateMovesWriteTheirBits : Obligations.MaskAndPredicateMovesWriteTheirBits := by
  unfold Obligations.MaskAndPredicateMovesWriteTheirBits
  refine ⟨fun _ _ _ h => exec_of_done rfl h rfl,
    fun t n bits hbits hs => ⟨fun l hl => ?_, fun l hlo hhi => ?_, fun k hk => ?_, ?_⟩,
    fun _ _ _ h => exec_of_done rfl h rfl⟩
  · rw [Team.runBit_putMask t n bits hs (hl.trans_le (width_le_maskRegs _)), if_pos (hbits ▸ hl)]
  · rw [Team.runBit_putMask t n bits hs hhi, if_neg (by omega)]
  · rw [Team.putMask_eq_setRun, Team.sval_setRun, if_neg (by omega)]
  · rw [Team.putMask_eq_setRun, Team.setRun_frame]

end Sys2Proof.Machine
end

section
/-!
PROOFS. Launches (05 R113-R121, R133) and instruction fetches (03 R85): the entry, the header, the placement, the dispatch, the end of
a team and of a kernel, each event run to the state that it answers.
-/

namespace Sys2Proof.Machine

/-! ## Events, launches and teams found after an update -/

theorem mem_agenda_post (s : State) (e : Ev) : e ∈ (s.post e).agenda := List.mem_append_right _ (List.mem_singleton_self e)

@[simp] theorem teams_postOnce (s : State) (e : Ev) : (s.postOnce e).teams = s.teams := by
  obtain ⟨es, h⟩ := postOnce_eq s e
  rw [h]

@[simp] theorem launches_postOnce (s : State) (e : Ev) : (s.postOnce e).launches = s.launches := by
  obtain ⟨es, h⟩ := postOnce_eq s e
  rw [h]

@[simp] theorem cores_postOnce (s : State) (e : Ev) : (s.postOnce e).cores = s.cores := by
  obtain ⟨es, h⟩ := postOnce_eq s e
  rw [h]

theorem foldl_post_eq {α : Type} (ev : α → Ev) (l : List α) (s : State) :
    l.foldl (fun s a => s.post (ev a)) s = { s with agenda := s.agenda ++ l.map ev } := by
  induction l generalizing s with
  | nil => simp
  | cons a l ih =>
    rw [List.foldl_cons, ih]
    simp [State.post]

theorem id_of_launch? {s : State} {id : Nat} {l : Launch} (h : s.launch? id = some l) : l.id = id := by
  simpa using List.find?_some h

theorem launch?_onLaunch_same {s : State} {id : Nat} {l : Launch} {f : Launch → Launch} (hf : ∀ l, (f l).id = l.id)
    (h : s.launch? id = some l) : (s.onLaunch id f).launch? id = some (f l) := by
  have hfind : (s.onLaunch id f).launch? id = (s.launch? id).map (fun l => if l.id = id then f l else l) := by
    simp only [State.launch?, State.onLaunch, List.find?_map]
    congr 1
    apply congrArg (fun p => List.find? p s.launches)
    funext l
    simp only [Function.comp]
    split <;> simp [hf]
  rw [hfind, h, Option.map_some, if_pos (id_of_launch? h)]

theorem team?_setTeam_same {s : State} {t u : Team} (h : s.team? t.uid = some u) : (s.setTeam t).team? t.uid = some t := by
  have hfind : (s.setTeam t).team? t.uid = (s.team? t.uid).map (fun x => if x.uid = t.uid then t else x) := by
    simp only [State.team?, State.setTeam, List.find?_map]
    congr 1
    apply congrArg (fun p => List.find? p s.teams)
    funext x
    simp only [Function.comp]
    split <;> simp [*]
  rw [hfind, h, Option.map_some, if_pos (uid_of_team? h)]

/-! ## The entry and the header of a launch (05 R113, R115) -/

@[simp] theorem launches_endLaunch (s : State) (id code : Nat) : (endLaunch s id code).launches =
    s.launches.map (fun l => if l.id = id then { l with phase := .ended, status := code } else l) := launches_postOnce ..

theorem ids_endLaunch (s : State) (id code : Nat) :
    (endLaunch s id code).launches.map (fun l => l.id) = s.launches.map (fun l => l.id) := by
  rw [launches_endLaunch, List.map_map]
  refine List.map_congr_left (fun l _ => ?_)
  dsimp only [Function.comp]
  split <;> rfl

theorem mem_launches_endLaunch {s : State} {l : Launch} (h : l ∈ s.launches) (code : Nat) :
    { l with phase := .ended, status := code } ∈ (endLaunch s l.id code).launches := by
  rw [launches_endLaunch]
  exact List.mem_map.mpr ⟨l, h, if_pos rfl⟩

/-- The launch that the entry of a queue makes. -/
def entryLaunch (s : State) (q : Queue) (e : List Word64) : Launch :=
  { id := s.nextId, ctx := q.ctx, die := q.slice / 64, hdrA := e.getD 1 0, args := e.getD 2 0, done := e.getD 3 0,
    teams := bitsN (e.getD 0 0).toNat 63 32, follow := (bitsN (e.getD 0 0).toNat 31 16).testBit 0, hdr := none,
    phase := .arrived, status := 0, sent := false }

/-- The state with that launch, before its kind and its flags are looked at. -/
def entryTaken (s : State) (q : Queue) (e : List Word64) : State :=
  { s with nextId := s.nextId + 1, launches := s.launches ++ [entryLaunch s q e] }

theorem mem_launches_entryTaken (s : State) (q : Queue) (e : List Word64) :
    entryLaunch s q e ∈ (entryTaken s q e).launches := List.mem_append_right _ (List.mem_singleton_self _)

theorem exec_launchEntryArrival {s : State} {qn : Nat} {e : List Word64} {q : Queue} {c : Context} (hq : s.queue? qn = some q)
    (hc : s.ctx? q.ctx = some c) (hup : s.hub.updating.contains (q.slice / 64) = false) :
    let flags := bitsN (e.getD 0 0).toNat 31 16
    exec (.launchEntryArrival qn e) s = .next (
      if bitsN (e.getD 0 0).toNat 15 0 ≠ 1 then endLaunch (entryTaken s q e) s.nextId 4
      else if 1 < flags then endLaunch (entryTaken s q e) s.nextId (0x0B + 256 * (if flags % 256 / 2 ≠ 0 then 2 else 3))
      else (entryTaken s q e).post (.headerFetch s.nextId)) := by
  change execLaunchEntryArrival qn e s = _
  simp only [execLaunchEntryArrival, hq, hc, hup, Bool.false_eq_true, if_false]
  by_cases hkind : bitsN (e.getD 0 0).toNat 15 0 = 1
  · by_cases hflags : 1 < bitsN (e.getD 0 0).toNat 31 16
    · simp only [hkind, hflags, ne_eq, not_true_eq_false, if_true, if_false]
      rfl
    · simp only [hkind, hflags, ne_eq, not_true_eq_false, if_false]
      rfl
  · simp only [hkind, ne_eq, not_false_eq_true, if_true]
    rfl

theorem launchEntryArrival_adds {s : State} {qn : Nat} {e : List Word64} {q : Queue} {c : Context} (hq : s.queue? qn = some q)
    (hc : s.ctx? q.ctx = some c) (hup : s.hub.updating.contains (q.slice / 64) = false) :
    let w (j : Nat) : Nat := (e.getD j (0 : Word64)).toNat
    ∃ s' l, exec (.launchEntryArrival qn e) s = .next s' ∧ s'.launches.map (fun x => x.id) =
        s.launches.map (fun x => x.id) ++ [s.nextId] ∧ l ∈ s'.launches ∧ l.id = s.nextId ∧ l.ctx = q.ctx ∧
      l.hdrA.toNat = w 1 ∧ l.args.toNat = w 2 ∧ l.done.toNat = w 3 ∧ l.teams = bitsN (w 0) 63 32 ∧
      (bitsN (w 0) 15 0 = 1 → bitsN (w 0) 31 16 ≤ 1 → (∀ x ∈ s.launches, x.id ≠ s.nextId) →
        l.phase = .arrived ∧ .headerFetch s.nextId ∈ s'.agenda) ∧
      (bitsN (w 0) 15 0 ≠ 1 → l.phase = .ended ∧ l.status = 4) := by
  intro w
  have hexec := exec_launchEntryArrival (e := e) hq hc hup
  have hl := mem_launches_entryTaken s q e
  have hids : (entryTaken s q e).launches.map (fun x => x.id) = s.launches.map (fun x => x.id) ++ [s.nextId] := List.map_append
  by_cases hkind : bitsN (w 0) 15 0 = 1
  · by_cases hflags : 1 < bitsN (w 0) 31 16
    · refine ⟨_, _, hexec.trans (congrArg _ ((if_neg (not_not_intro hkind)).trans (if_pos hflags))), (ids_endLaunch ..).trans hids,
        mem_launches_endLaunch hl _, rfl, rfl, rfl, rfl, rfl, rfl, fun _ h => absurd hflags h.not_gt, fun h => absurd hkind h⟩
    · refine ⟨_, _, hexec.trans (congrArg _ ((if_neg (not_not_intro hkind)).trans (if_neg hflags))), hids, hl, rfl, rfl, rfl, rfl,
        rfl, rfl, fun _ _ _ => ⟨rfl, mem_agenda_post ..⟩, fun h => absurd hkind h⟩
  · exact ⟨_, _, hexec.trans (congrArg _ (if_pos hkind)), (ids_endLaunch ..).trans hids, mem_launches_endLaunch hl _, rfl, rfl,
      rfl, rfl, rfl, rfl, fun h => absurd h hkind, fun _ => ⟨rfl, rfl⟩⟩

section
variable {s : State} {id : Nat} {l : Launch} (hl : s.launch? id = some l) (hphase : l.phase = .arrived)
  (hup : s.hub.updating.contains l.die = false) (hctx : (s.ctx? l.ctx).isNone = false)
include hl hphase hup hctx

theorem exec_headerFetch_malformed {o : Nat} (hh : headerOf s l = .ok (.error o)) :
    exec (.headerFetch id) s = .next (endLaunch s id (0x03 + 256 * o)) := by
  change execHeaderFetch id s = _
  simp only [execHeaderFetch, hl, hphase, hup, hctx, hh, ne_eq, not_true_eq_false, Bool.false_eq_true, if_false]

theorem exec_headerFetch_refused {h : Header} {c : Nat} (hh : headerOf s l = .ok (.ok h)) (hc : launchCheck s l h = .ok c)
    (hne : c ≠ 0) : exec (.headerFetch id) s = .next (endLaunch s id c) := by
  obtain ⟨k, rfl⟩ := Nat.exists_eq_succ_of_ne_zero hne
  change execHeaderFetch id s = _
  simp only [execHeaderFetch, hl, hphase, hup, hctx, hh, hc, ne_eq, not_true_eq_false, Bool.false_eq_true, if_false]

theorem exec_headerFetch_good {h : Header} (hh : headerOf s l = .ok (.ok h)) (hc : launchCheck s l h = .ok 0) :
    exec (.headerFetch id) s = .next (((useTemplate s (templateFor s l h)).onLaunch id
      (fun l => { l with hdr := some h, phase := .checked })).post (.teamPlacement id [])) := by
  change execHeaderFetch id s = _
  simp only [execHeaderFetch, hl, hphase, hup, hctx, hh, hc, ne_eq, not_true_eq_false, Bool.false_eq_true, if_false]

theorem headerFetch_keeps_header {h : Header} (hh : headerOf s l = .ok (.ok h)) (hc : launchCheck s l h = .ok 0) :
    ∃ s' l', exec (.headerFetch id) s = .next s' ∧ s'.launch? id = some l' ∧ l'.hdr = some h ∧ l'.phase = .checked ∧
      .teamPlacement id [] ∈ s'.agenda ∧ s'.mem = s.mem :=
  have hkept : (useTemplate s (templateFor s l h)).launch? id = some l := hl
  ⟨_, _, exec_headerFetch_good hl hphase hup hctx hh hc, launch?_onLaunch_same (fun _ => rfl) hkept, rfl, rfl,
    mem_agenda_post .., rfl⟩

end

/-! ## Placement (05 R119, R121) -/

/-- The state in which a core group is bound, at given places or where firmware finds some. -/
def groupBound (s : State) (l : Launch) (h : Header) (c : Context) (i : Nat) (places : List (Nat × Nat)) : Option State :=
  if places.isEmpty then placeGroup s l h c (groupOf s l h i) (coresFor s l h i)
  else if places.length ≠ (groupOf s l h i).length || places.any (fun p => !(coresFor s l h i).contains p.1 ||
    some p.1 ≠ (places.head?).map (fun q => q.1)) then none
  else bindPlaces l h c ((groupOf s l h i).zip places) s

theorem groupBound_of_places {s : State} {l : Launch} {h : Header} {c : Context} {i core : Nat} {places : List (Nat × Nat)}
    (hne : places ≠ []) (hlen : places.length = (groupOf s l h i).length) (hcore : core ∈ coresFor s l h i)
    (hall : ∀ p ∈ places, p.1 = core) :
    groupBound s l h c i places = bindPlaces l h c ((groupOf s l h i).zip places) s := by
  have hhead : (places.head?).map (fun q => q.1) = some core := by
    rw [List.head?_eq_some_head hne, Option.map_some, hall _ (List.head_mem hne)]
  have hany : places.any (fun p => !(coresFor s l h i).contains p.1 || some p.1 ≠ some core) = false :=
    List.any_eq_false.mpr (fun p hp => by simp [hall p hp, hcore])
  simp only [groupBound, hhead, hany, hlen, List.isEmpty_iff, hne, ne_eq, not_true_eq_false, decide_false, Bool.or_self,
    Bool.false_eq_true, if_false]

section
variable {s : State} {id : Nat} {l : Launch} {h : Header} {c : Context} (hl : s.launch? id = some l) (hh : l.hdr = some h)
  (hc : s.ctx? l.ctx = some c) (hphase : l.phase = .checked) (hin : c.isIn = true)
  (hup : s.hub.updating.contains l.die = false)
include hl hh hc hphase hin hup

theorem exec_teamPlacement_placed (places : List (Nat × Nat)) (hfirst : firstUnbound s l = none) :
    exec (.teamPlacement id places) s = .next (s.onLaunch id (fun l => { l with phase := .placed })) := by
  change execTeamPlacement id places s = _
  simp only [execTeamPlacement, hl, hh, hc, hphase, hin, hup, hfirst, ne_eq, not_true_eq_false, decide_false, Bool.not_true,
    Bool.or_self, Bool.false_eq_true, if_false]

/-- The group of the first team that is not bound is bound, or waits. -/
theorem exec_teamPlacement_group {places : List (Nat × Nat)} {i : Nat} (hfirst : firstUnbound s l = some i)
    (hfollow : l.follow = false) (hempty : ∀ p ∈ places, ((s.core p.1).recs.getD p.2 Bind.reset).st = .empty) :
    exec (.teamPlacement id places) s = .next ((groupBound s l h c i places).elim (placementWaits s l (coresFor s l h i))
      (fun s1 => s1.post (.teamPlacement id []))) := by
  have hany : places.any (fun p => ((s.core p.1).recs.getD p.2 Bind.reset).st ≠ .empty) = false :=
    List.any_eq_false.mpr (fun p hp => by simpa using hempty p hp)
  change execTeamPlacement id places s = _
  simp only [execTeamPlacement, hl, hh, hc, hphase, hin, hup, hfirst, hany, hfollow, ne_eq, not_true_eq_false, decide_false,
    Bool.not_true, Bool.or_self, Bool.false_and, Bool.false_eq_true, if_false]
  change (match groupBound s l h c i places with
    | none => Host.Outcome.next _
    | some s1 => _) = _
  cases groupBound s l h c i places <;> rfl

theorem exec_teamPlacement_inheritBad {i : Nat} (hfirst : firstUnbound s l = some i) (hfollow : l.follow = true)
    (hbound : boundTeams s id = []) (hbad : inheritBad s l h = true) :
    exec (.teamPlacement id []) s = .next (endLaunch s id 0x05) := by
  change execTeamPlacement id [] s = _
  simp only [execTeamPlacement, hl, hh, hc, hphase, hin, hup, hfirst, hbound, hfollow, hbad, ne_eq, not_true_eq_false, decide_false,
    Bool.not_true, Bool.or_self, Bool.and_self, List.any_nil, List.isEmpty_nil, Bool.false_eq_true, if_false, if_true]

end

/-! ## Dispatch and arguments (05 R114, R120) -/

/-- The argument registers of a team made empty. -/
def Team.emptyArgs (t : Team) (js : List Nat) : Team := js.foldl (fun t j => t.setSFull (16 + j) false) t

theorem Team.sfull_setSFull (t : Team) (n k : Nat) (b : Bool) :
    (t.setSFull n b).sfull k = if n = k ∧ k < t.s.length then b else t.sfull k := by
  simp only [Team.setSFull, Team.sfull, List.getD_eq_getElem?_getD, List.getElem?_modify]
  by_cases hk : k < t.s.length <;> by_cases hn : n = k <;> simp [hk, hn]

theorem Team.emptyArgs_frame (t : Team) (js : List Nat) : t.emptyArgs js = { t with s := (t.emptyArgs js).s } := by
  induction js generalizing t with
  | nil => rfl
  | cons j js ih => exact ih (t.setSFull (16 + j) false)

theorem Team.sfull_emptyArgs (t : Team) (js : List Nat) (k : Nat) :
    (t.emptyArgs js).sfull k = if (∃ j ∈ js, 16 + j = k) ∧ k < t.s.length then false else t.sfull k := by
  induction js generalizing t with
  | nil => exact (if_neg (by simp)).symm
  | cons j js ih =>
    have hstep := ih (t.setSFull (16 + j) false)
    rw [Team.sfull_setSFull, show (t.setSFull (16 + j) false).s.length = t.s.length from List.length_modify ..] at hstep
    refine Eq.trans hstep ?_
    simp only [List.mem_cons, exists_eq_or_imp]
    by_cases hk : k < t.s.length <;> by_cases hj : 16 + j = k <;> simp [hk, hj]

theorem exec_dispatchStart {core place : Nat} {s : State} {t : Team} {l : Launch} {h : Header}
    (ht : s.team? ((s.core core).recs.getD place Bind.reset).team = some t) (hl : s.launch? t.launch = some l) (hh : l.hdr = some h)
    (hst : ((s.core core).recs.getD place Bind.reset).st = .ready) (hrun : t.run = .ready)
    (hend : poolEnding s core t.ctx = false) (hup : s.hub.updating.contains (dieOf core) = false) :
    exec (.dispatchStart core place) s = .next ((argsOf l h).foldl (fun s j => s.post (.argumentArrival t.uid j))
      ((s.onRec core place (fun b => { b with st := .running })).setTeam { t.emptyArgs (argsOf l h) with run := .running })) := by
  change execDispatchStart core place s = _
  simp only [execDispatchStart, ht, hl, hh, hst, hrun, hend, hup, Option.bind_some, Option.map_some, ne_eq, not_true_eq_false,
    decide_false, Bool.or_self, Bool.false_eq_true, if_false]
  rfl

theorem dispatchStart_runs {core place : Nat} {s : State} {t : Team} {l : Launch} {h : Header}
    (ht : s.team? ((s.core core).recs.getD place Bind.reset).team = some t) (hl : s.launch? t.launch = some l) (hh : l.hdr = some h)
    (hst : ((s.core core).recs.getD place Bind.reset).st = .ready) (hrun : t.run = .ready)
    (hend : poolEnding s core t.ctx = false) (hup : s.hub.updating.contains (dieOf core) = false) :
    ∃ s' t', exec (.dispatchStart core place) s = .next s' ∧ s'.team? t.uid = some t' ∧ t'.run = .running ∧ t'.pc = t.pc ∧
      (t.s.length = 128 → ∀ j ∈ argsOf l h, 16 + j < 128 → t'.sfull (16 + j) = false) ∧
      ∀ j ∈ argsOf l h, .argumentArrival t.uid j ∈ s'.agenda := by
  have hexec := exec_dispatchStart ht hl hh hst hrun hend hup
  rw [foldl_post_eq] at hexec
  have huid : (t.emptyArgs (argsOf l h)).uid = t.uid := by rw [Team.emptyArgs_frame]
  have hteam : (s.onRec core place (fun b => { b with st := .running })).team? t.uid = some t := by
    rw [← uid_of_team? ht] at ht
    exact ht
  refine ⟨_, { t.emptyArgs (argsOf l h) with run := .running }, hexec, ?found, rfl, ?pc,
    fun hlen j hj hlt => ?empty, fun j hj => ?due⟩
  case found =>
    rw [← huid] at hteam ⊢
    exact team?_setTeam_same (t := { t.emptyArgs (argsOf l h) with run := .running }) hteam
  case pc => rw [Team.emptyArgs_frame]
  case empty => exact (t.sfull_emptyArgs _ _).trans (if_pos ⟨⟨j, hj, rfl⟩, hlen ▸ hlt⟩)
  case due => exact List.mem_append_right _ (List.mem_map_of_mem hj)

theorem mem_argsOf (l : Launch) (h : Header) (j : Nat) : j ∈ argsOf l h ↔ j < h.nargs ∧
    (l.follow = true → ∀ a b c d, h.inh = some (a, b, c, d) → ¬ (c ≤ 16 + j ∧ 16 + j ≤ d)) := by
  rw [argsOf, List.mem_filter, List.mem_range]
  cases l.follow with
  | false => simp
  | true =>
    cases hinh : h.inh with
    | none => simp
    | some r =>
      obtain ⟨a, b, c, d⟩ := r
      simp only [Option.some.injEq, Prod.mk.injEq, and_imp, forall_true_left, Bool.not_eq_true', Bool.and_eq_false_iff,
        decide_eq_false_iff_not, not_and_or]
      exact and_congr_right' ⟨fun hout _ _ _ _ _ _ hc hd => hc ▸ hd ▸ hout, fun hout => hout _ _ _ _ rfl rfl rfl rfl⟩

theorem exec_argumentArrival {u j : Nat} {s : State} {t : Team} {l : Launch} {x : Nat} (ht : s.team? u = some t)
    (hl : s.launch? t.launch = some l) (hrun : t.run ≠ .done) (hempty : t.sfull (16 + j) = false)
    (hread : t.agent.rd s (l.args.toNat + 8 * j) 8 = .ok x) : exec (.argumentArrival u j) s = .next (s.onTeam u (fun v =>
      (v.setS (16 + j) (BitVec.ofNat 64 x)).setSFull (16 + j) true)) := by
  change execArgumentArrival u j s = _
  simp only [execArgumentArrival, ht, hl, hrun, hempty, hread, decide_false, Bool.or_self, Bool.false_eq_true, if_false]

/-! ## The end of a team and of a kernel (05 R116, R133) -/

theorem exec_texit {x : Ext} {s : State} {t : Team} (h : Issues 0x40 8 x s t) (hgo : t.go x.g x.neg = true)
    (htask : ∀ k, t.task = some k → k.declared = false) (habsent : usesAbsent s t = none) :
    exec (.texit x) s = .next (((closeOwnPasses (closeTask (dropUses s t) t.uid) t.uid).onTeam
      t.uid (fun u => { u with run := .parked .texit })).post (.texitComplete t.uid)) := by
  refine exec_of_wait (i := .texit x) rfl h ((onGo_of_go hgo ..).trans ?_)
  cases hk : t.task with
  | none => simp only [effTexit, endTask, ctxAt_t, hk, habsent]
  | some k => simp only [effTexit, endTask, ctxAt_t, hk, habsent, htask k hk, Bool.not_false, if_true]

section
variable {u : Nat} {s : State} {t : Team} (ht : s.team? u = some t) (hrun : t.run = .parked .texit)
  (htrap : t.handler = true ∨ t.pending = [])
include ht hrun htrap

theorem exec_texitComplete_waits (hready : exitReady s t = false) :
    exec (.texitComplete u) s = .next (s.postOnce (.texitComplete u)) := by
  have hnone : (!t.handler && !t.pending.isEmpty) = false := by rcases htrap with h | h <;> simp [h]
  change execTexitComplete u s = _
  simp only [execTexitComplete, ht, hrun, hnone, hready, ne_eq, not_true_eq_false, Bool.not_false, Bool.false_eq_true,
    if_false, if_true]

theorem exec_texitComplete_frees {l : Launch} (hready : exitReady s t = true) (hl : s.launch? t.launch = some l)
    (habsent : endAbsent s t (l.hdr.bind (fun h => keepOf t h (s.bind t).vbase)) = none) :
    exec (.texitComplete u) s = .next (endKernel (freeTeam s t (l.hdr.bind (fun h => keepOf t h (s.bind t).vbase))) l) := by
  have hnone : (!t.handler && !t.pending.isEmpty) = false := by rcases htrap with h | h <;> simp [h]
  change execTexitComplete u s = _
  simp only [execTexitComplete, ht, hrun, hnone, hready, hl, Option.bind_some, habsent, ne_eq, not_true_eq_false, Bool.not_true,
    Bool.false_eq_true, if_false]

end

/-- The status of a launch whose teams have ended and whose writes are performed: it waits for write-backs, or is written, or
dropped where the launch names no place for it. -/
theorem exec_launchStatusWrite {id : Nat} {s : State} {l : Launch} {c : Context} (hl : s.launch? id = some l)
    (hphase : l.phase = .ended) (hc : s.ctx? l.ctx = some c) (hup : s.hub.updating.contains l.die = false)
    (hteams : ∀ t ∈ s.teams, t.launch = id → t.run = .done ∧ ∀ w ∈ s.writes, t.uid ≠ w.team)
    (hpasses : passesOpen s id = false) :
    (evicting s id = true → exec (.launchStatusWrite id) s = .next (s.postOnce (.launchStatusWrite id))) ∧
    (evicting s id = false → l.done = 0 → exec (.launchStatusWrite id) s = .next (launchOver s l)) ∧
    (∀ s1, evicting s id = false → l.done ≠ 0 → writeVA s 256 l.ctx l.done.toNat (leBytes 8 l.status) = .ok s1 →
      exec (.launchStatusWrite id) s = .next (launchOver s1 l)) := by
  have hbound : ∀ t ∈ boundTeams s id, t.run = .done ∧ ∀ w ∈ s.writes, t.uid ≠ w.team := fun t ht =>
    have ⟨hmem, hid⟩ := List.mem_filter.mp ht
    hteams t hmem (of_decide_eq_true hid)
  have hleft : (boundTeams s id).filter (fun t => t.run ≠ .done) = [] :=
    List.filter_eq_nil_iff.mpr (fun t ht => by simp [(hbound t ht).1])
  have hwrites : s.writes.any (fun w => (boundTeams s id).any (fun t => t.uid = w.team)) = false :=
    List.any_eq_false.mpr (fun w hw => by simpa using fun t ht => (hbound t ht).2 w hw)
  have hexec : exec (.launchStatusWrite id) s = execLaunchStatusWrite id s := rfl
  simp only [execLaunchStatusWrite, hl, hphase, hc, hup, hleft, killTeams, hpasses, hwrites, Option.isNone_some, ne_eq,
    not_true_eq_false, Bool.false_or, Bool.false_eq_true, if_false] at hexec
  refine ⟨fun hev => ?_, fun hev hdone => ?_, fun s1 hev hdone hwrite => ?_⟩
  · rw [hexec, if_pos hev]
  · rw [hexec, if_neg (by rw [hev]; exact Bool.false_ne_true), if_pos hdone]
  · rw [hexec, if_neg (by rw [hev]; exact Bool.false_ne_true), if_neg hdone, hwrite]

/-! ## Fetching the words of an instruction (03 R85, 09 R203) -/

/-- A cached translation is the core's own. -/
theorem tlbFill_eq_cores (s : State) (core ctx va : Nat) : ∃ cs, tlbFill s core ctx va = { s with cores := cs } := by
  unfold tlbFill
  split
  · exact ⟨_, rfl⟩
  · exact ⟨s.cores, rfl⟩

theorem icacheAdd_eq_cores (s : State) (core key : Nat) : ∃ cs, icacheAdd s core key = { s with cores := cs } := by
  simp only [icacheAdd]
  split
  · exact ⟨s.cores, rfl⟩
  · exact ⟨_, rfl⟩

theorem icacheFill_eq_cores (s : State) (core : Nat) (segs : List Seg) :
    ∃ cs, icacheFill s core segs = { s with cores := cs } := by
  unfold icacheFill
  refine List.foldlRecOn (motive := fun s1 : State => ∃ cs, s1 = { s with cores := cs }) _ _ ⟨s.cores, rfl⟩
    (fun s1 h1 g _ => ?_)
  obtain ⟨cs, rfl⟩ := h1
  split
  · exact ⟨cs, rfl⟩
  · obtain ⟨cs1, h1⟩ := icacheAdd_eq_cores { s with cores := cs } core g.key
    obtain ⟨cs2, h2⟩ := icacheAdd_eq_cores (icacheAdd { s with cores := cs } core g.key) core (g.key + g.len - 1)
    exact ⟨cs2, by rw [h2, h1]⟩

/-- The state in which an instruction fetch looks at the words: their translations are in the core's cache. -/
def fetchReady (s : State) (t : Team) : State := tlbFill (tlbFill s t.core t.ctx t.pc.toNat) t.core t.ctx (t.pc.toNat + 16)

theorem fetchReady_eq_cores (s : State) (t : Team) : ∃ cs, fetchReady s t = { s with cores := cs } := by
  obtain ⟨cs1, h1⟩ := tlbFill_eq_cores s t.core t.ctx t.pc.toNat
  obtain ⟨cs2, h2⟩ := tlbFill_eq_cores (tlbFill s t.core t.ctx t.pc.toNat) t.core t.ctx (t.pc.toNat + 16)
  exact ⟨cs2, by rw [fetchReady, h2, h1]⟩

/-- A running team that meets an absent page parks on it. -/
theorem parkFault_of_running {s : State} {u : Nat} {t : Team} (ht : s.team? u = some t) (hrun : t.run = .running) :
    ∃ es, parkFault s u = { s.onTeam u (fun t => if t.run = .running then { t with run := .parked .fault } else t) with
        agenda := s.agenda ++ es } ∧ (parkFault s u).team? u = some { t with run := .parked .fault } := by
  have hteam : (s.onTeam u (fun t => if t.run = .running then { t with run := .parked .fault } else t)).team? u =
      some { t with run := .parked .fault } := by
    rw [team_onTeam_same (fun t => by split <;> rfl) ht, if_pos hrun]
  have hpark : ∃ es, parkFault s u = { s.onTeam u (fun t => if t.run = .running then { t with run := .parked .fault } else t) with
      agenda := s.agenda ++ es } := by
    simp only [parkFault, wakeWound, hteam]
    split
    · exact postOnce_eq ..
    · exact ⟨[], by rw [List.append_nil]; rfl⟩
  obtain ⟨es, hes⟩ := hpark
  exact ⟨es, hes, hes ▸ hteam⟩

/-- With room in the fault buffer a request stands in it. -/
theorem addFault_of_room {s : State} {q : FaultReq} (core : Nat) (hroom : faultsFull s q.die = false) :
    ∃ qs, addFault s core q = { s with faults := qs } ∧ q ∈ qs := by
  unfold addFault
  by_cases hq : s.faults.contains q = true
  · exact ⟨s.faults, if_pos hq, List.contains_iff_mem.mp hq⟩
  · rw [if_neg hq, hroom]
    exact ⟨_, rfl, List.mem_append_right _ (List.mem_singleton_self q)⟩

section
variable {u : Nat} {s : State} {t : Team} (ht : s.team? u = some t) (hrun : t.run = .running)
include ht hrun

theorem instructionFetch_of_words {d : Decoded} (hf : fetch (fetchReady s t) t = .words d) :
    ∃ s', exec (.instructionFetch u) s = .next s' ∧ s'.team? u = some t ∧ s'.mem = s.mem := by
  have hexec : exec (.instructionFetch u) s = .next ((fetchFill (fetchReady s t) t).onTeam u (fun v =>
      if v.run = .parked .fault && !(fetchReady s t).inFault u then { v with run := .running } else v)) := by
    rw [fetchReady] at hf ⊢
    change execInstructionFetch u s = _
    simp only [execInstructionFetch, ht, hrun, hf, ne_eq, not_true_eq_false, decide_false, Bool.false_and, Bool.false_eq_true,
      if_false]
  obtain ⟨cs, hcs⟩ := icacheFill_eq_cores (fetchReady s t) t.core (fetchSegs (fetchReady s t) t)
  obtain ⟨cs1, hcs1⟩ := fetchReady_eq_cores s t
  have hfill : fetchFill (fetchReady s t) t = { s with cores := cs } := by rw [fetchFill, hcs, hcs1]
  have hteam : ({ s with cores := cs } : State).team? u = some t := ht
  refine ⟨_, hexec, ?_, by rw [hfill]; rfl⟩
  rw [hfill, team_onTeam_same (fun t => by split <;> rfl) hteam, hrun]
  rfl

theorem instructionFetch_of_fault {va : Nat} (hf : fetch (fetchReady s t) t = .fault va) (hd : .instructionFetch u ∉ s.declined)
    (hroom : faultsFull (fetchReady s t) (dieOf t.core) = false) :
    ∃ s' t' q, exec (.instructionFetch u) s = .next s' ∧ s'.team? u = some t' ∧ t'.run = .parked .fault ∧ q ∈ s'.faults ∧
      q.retry = .instructionFetch u ∧ q.ctx = t.ctx ∧ q.blk = va % 2 ^ 57 / 2048 := by
  obtain ⟨cs, hcs⟩ := fetchReady_eq_cores s t
  have hdecl : (fetchReady s t).declined.contains (.instructionFetch u) = false := by
    rw [hcs, ← Bool.not_eq_true, List.contains_iff_mem]
    exact hd
  have hteam : (fetchReady s t).team? u = some t := by
    rw [hcs]
    exact ht
  let q : FaultReq := { die := dieOf t.core, ctx := t.ctx, blk := va % 2 ^ 57 / 2048, path := 8, flight := 0,
                        retry := .instructionFetch u }
  have hexec : exec (.instructionFetch u) s = .next (addFault (parkFault (fetchReady s t) u) t.core q) := by
    rw [fetchReady] at hf hdecl hroom ⊢
    change execInstructionFetch u s = _
    simp only [execInstructionFetch, ht, hrun, hf, hdecl, hroom, ne_eq, not_true_eq_false, decide_false, Bool.false_and,
      Bool.false_eq_true, if_false]
    rfl
  obtain ⟨es, hpark, hparked⟩ := parkFault_of_running hteam hrun
  have hroom' : faultsFull (parkFault (fetchReady s t) u) q.die = false := by
    rw [hpark]
    exact hroom
  obtain ⟨qs, hadd, hq⟩ := addFault_of_room t.core hroom'
  refine ⟨_, { t with run := .parked .fault }, q, hexec, ?_, rfl, ?_, rfl, rfl, rfl⟩
  · rw [hadd]
    exact hparked
  · rw [hadd]
    exact hq

end

/-- Settles O49: each event is run to the state it answers, and what the statement asks is read off that state. -/
theorem launchesAreCheckedPlacedAndEnded : Obligations.LaunchesAreCheckedPlacedAndEnded := by
  unfold Obligations.LaunchesAreCheckedPlacedAndEnded
  refine ⟨fun qn e s q c hq hc hup => launchEntryArrival_adds hq hc hup,
    fun id s l hl hphase hup hctx => ⟨?malformed, ?refused, ?good⟩,
    fun id s l h c hl hh hc hphase hin hup => ⟨?placed, ?chosen, ?inherits, ?given⟩,
    fun core place s t l h ht hl hh hst hrun hend hup => dispatchStart_runs ht hl hh hst hrun hend hup, mem_argsOf,
    fun u j s t l x ht hl hrun hempty hread => exec_argumentArrival ht hl hrun hempty hread,
    fun x s t h hgo htask habsent => exec_texit h hgo htask habsent, fun u s t ht hrun htrap => ⟨?waits, ?frees⟩,
    fun id s l c hl hphase hc hup hteams hpasses => exec_launchStatusWrite hl hphase hc hup hteams hpasses,
    fun u s t ht hrun => ⟨?words, ?fault⟩⟩
  case malformed => exact fun o hh => exec_headerFetch_malformed hl hphase hup (Option.isNone_eq_false_iff.mpr hctx) hh
  case refused =>
    exact fun h c hh hchk hne => exec_headerFetch_refused hl hphase hup (Option.isNone_eq_false_iff.mpr hctx) hh hchk hne
  case good => exact fun h hh hchk => headerFetch_keeps_header hl hphase hup (Option.isNone_eq_false_iff.mpr hctx) hh hchk
  case placed => exact exec_teamPlacement_placed hl hh hc hphase hin hup []
  case chosen =>
    intro i hfirst hfollow
    have hexec := exec_teamPlacement_group hl hh hc hphase hin hup hfirst hfollow (places := []) (by simp)
    refine ⟨fun s1 hgot => ?_, fun hgot => ?_⟩
    all_goals
      rw [groupBound, List.isEmpty_nil, if_pos rfl, hgot] at hexec
      exact hexec
  case inherits =>
    exact fun i hfirst hfollow hbound hbad =>
      exec_teamPlacement_inheritBad hl hh hc hphase hin hup hfirst hfollow hbound hbad
  case given =>
    intro i places core s1 hfirst hfollow hne hlen hcore hall hgot
    have hempty : ∀ p ∈ places, ((s.core p.1).recs.getD p.2 Bind.reset).st = .empty := fun p hp => by
      obtain ⟨hp1, hst⟩ := hall p hp
      rw [hp1, hst]
    have hexec := exec_teamPlacement_group hl hh hc hphase hin hup hfirst hfollow hempty
    rwa [groupBound_of_places hne hlen hcore (fun p hp => (hall p hp).1), hgot] at hexec
  case waits => exact exec_texitComplete_waits ht hrun htrap
  case frees => exact fun l hready hl habsent => exec_texitComplete_frees ht hrun htrap hready hl habsent
  case words => exact fun d hf => instructionFetch_of_words ht hrun hf
  case fault => exact fun va hf hd hroom => instructionFetch_of_fault ht hrun hf hd hroom

end Sys2Proof.Machine
end

section
/-!
PROOFS. Pre-emption, saves and restores (05 R125-R128, R473, 19 R432-R436): what the writes of a save leave of the state, the kernel
core areas, the end of a save, and each event run to the state that it answers.
-/

namespace Sys2Proof.Machine

/-! ## Writes at their home slices (11 R258): what of the state they change -/

/-- The mark that a write leaves on a team saved in an `mwait` on its bytes (11 R281). -/
def Team.marked (cells : List (Nat × Byte)) (t : Team) : Team :=
  if t.run = .saved (some .mwait) && t.watches cells then { t with mwEnd := .resumed } else t

theorem Team.marked_eq (cells : List (Nat × Byte)) (t : Team) : ∃ e, t.marked cells = { t with mwEnd := e } := by
  unfold Team.marked
  split
  · exact ⟨.resumed, rfl⟩
  · exact ⟨t.mwEnd, rfl⟩

/-- A write changes memory, the marks of waiting teams and the agenda. -/
theorem apply_eq (s : State) (cells : List (Nat × Byte)) : ∃ es, s.apply cells = { s with
    mem := s.mem.setAll cells, teams := s.teams.map (Team.marked cells), agenda := s.agenda ++ es } := by
  obtain ⟨es1, h1⟩ := foldl_postOnce_eq retestOf
    (({ s with mem := s.mem.setAll cells } : State).flights.filter (fun f => f.lanes.any (fun l => l.st = .waitW)))
    { s with mem := s.mem.setAll cells }
  simp only [State.apply, retestAll, h1]
  obtain ⟨es2, h2⟩ := foldl_postOnce_eq (fun t : Team => .mwaitWake t.uid)
    (s.teams.filter (fun t => t.run = .parked .mwait && t.watches cells))
    { s with mem := s.mem.setAll cells, teams := s.teams.map (Team.marked cells), agenda := s.agenda ++ es1 }
  exact ⟨es1 ++ es2, h2.trans (by rw [List.append_assoc])⟩

theorem put_eq {a : Agent} {s s' : State} {va : Nat} {bs : List Byte} (h : a.put s va bs = .ok s') : ∃ cells es, s' = { s with
    mem := s.mem.setAll cells, teams := s.teams.map (Team.marked cells), agenda := s.agenda ++ es } := by
  simp only [Agent.put, writeVA] at h
  cases hp : piecesOf s a.core a.ctx .write va bs.length with
  | error e =>
    rw [hp] at h
    cases h
  | ok l =>
    rw [hp] at h
    obtain ⟨es, hes⟩ := apply_eq s ((segKeys l).zip bs)
    exact ⟨_, es, (Except.ok.inj h).symm.trans hes⟩

theorem team?_congr {s s' : State} (h : s'.teams = s.teams) (u : Nat) : s'.team? u = s.team? u := by
  rw [State.team?, State.team?, h]

theorem exists_team_map {s s' : State} {f : Team → Team} (hf : ∀ t, (f t).uid = t.uid) (hteams : s'.teams = s.teams.map f)
    {u : Nat} (h : ∃ t, s.team? u = some t) : ∃ t, s'.team? u = some t := by
  obtain ⟨t, ht⟩ := h
  refine ⟨f t, ?_⟩
  rw [State.team?, hteams, List.find?_map]
  simp only [Function.comp_def, hf]
  rw [← State.team?, ht, Option.map_some]

/-! ## Kernel core areas (10 R251, 13 R313) -/

section
variable {s s1 : State} {t : Team} {cells : List (Nat × Byte)} {es : List Ev}
  (hs1 : s1 = { s with mem := s.mem.setAll cells, teams := s.teams.map (Team.marked cells), agenda := s.agenda ++ es })
include hs1

theorem onPlace_marked (x : Team) : onPlace s1 (x.marked cells) = onPlace s x := by
  obtain ⟨e, he⟩ := x.marked_eq cells
  rw [he, hs1]
  rfl

theorem recTeams_of_write (core ctx : Nat) (hdr : Word64) :
    recTeams s1 core ctx hdr = (recTeams s core ctx hdr).map (Team.marked cells) := by
  subst hs1
  simp only [recTeams, List.filter_map]
  congr 1
  refine List.filter_congr (fun x _ => ?_)
  obtain ⟨e, he⟩ := x.marked_eq cells
  dsimp only [Function.comp]
  rw [he]
  rfl

/-- Whether records stay is not changed by a write. -/
theorem recordsStay_of_write : recordsStay s1 t = recordsStay s t := by
  have hhdr : hdrOf s1 t = hdrOf s t := by rw [hs1]; rfl
  simp only [recordsStay, hhdr, recTeams_of_write hs1, List.any_map]
  congr 1
  funext x
  obtain ⟨e, he⟩ := x.marked_eq cells
  dsimp only [Function.comp]
  rw [onPlace_marked hs1, he]

theorem launches_of_write : (recTeams s1 t.core t.ctx (hdrOf s1 t)).map (fun x => x.launch) =
    (recTeams s t.core t.ctx (hdrOf s t)).map (fun x => x.launch) := by
  have hhdr : hdrOf s1 t = hdrOf s t := by rw [hs1]; rfl
  rw [hhdr, recTeams_of_write hs1, List.map_map]
  refine List.map_congr_left (fun x _ => ?_)
  obtain ⟨e, he⟩ := x.marked_eq cells
  dsimp only [Function.comp]
  rw [he]

end

theorem core_onCore (s : State) (n m : Nat) (f : Core → Core) :
    (s.onCore n f).core m = if n = m ∧ m < s.cores.length then f (s.core m) else s.core m := by
  simp only [State.core, State.onCore, List.getD_eq_getElem?_getD, List.getElem?_modify]
  by_cases hm : m < s.cores.length <;> by_cases hn : n = m <;> simp [hm, hn]

theorem recs_onCore (s : State) (n m : Nat) {f : Core → Core} (hf : ∀ c, (f c).recs = c.recs) :
    ((s.onCore n f).core m).recs = (s.core m).recs := by
  rw [core_onCore]
  split
  · exact hf _
  · rfl

/-- A change of a core that keeps its bind records keeps which records stay. -/
theorem recordsStay_onCore {s : State} {n : Nat} {f : Core → Core} (hf : ∀ c, (f c).recs = c.recs) (t : Team) :
    recordsStay (s.onCore n f) t = recordsStay s t := by
  have hplace : ∀ x, onPlace (s.onCore n f) x = onPlace s x := fun x => by
    have hbind : (s.onCore n f).bind x = s.bind x := by rw [State.bind, State.bind, recs_onCore s n x.core hf]
    cases hrun : x.run <;> simp only [onPlace, hrun, hbind]
  simp only [recordsStay, hplace]
  rfl

/-- With other teams of its kernel on the core a team leaves the core areas as they are. -/
theorem leaveAreas_of_stays {s : State} {t : Team} (hk : kernelStays s t = true) (hr : recordsStay s t = true) (ends : Bool) :
    leaveAreas s t ends = .ok s := by
  simp only [leaveAreas, hk, Bool.true_or, if_true]
  cases kernelArea? s t.core t.launch with
  | none => exact if_pos hr
  | some a => exact if_pos hr

theorem readAreas_of_stays {s : State} {t : Team} (hk : kernelStays s t = true) (hr : recordsStay s t = true) :
    readAreas s t = .ok s := by
  simp only [readAreas, hk, if_true]
  cases kernelArea? s t.core t.launch with
  | none => exact if_pos hr
  | some a => exact if_pos hr

/-- The last team of a kernel of one launch on the core writes the latch image and the operand image. -/
theorem leaveAreas_of_last {s s1 s2 : State} {t : Team} {k : PoolArea} (ha : kernelArea? s t.core t.launch = some k)
    (hk : kernelStays s t = false) (hr : recordsStay s t = false) (ht : t ∈ kernelTeams s t.core t.launch)
    (hone : uniq ((recTeams s t.core t.ctx (hdrOf s t)).map (fun x => x.launch)) = [t.launch])
    (hlat : t.agent.put s k.base (latchImage s t.core t.launch) = .ok s1)
    (hop : t.agent.put s1 (k.base + 512) (operandImage s1 t.core t.launch t.ctx (hdrOf s1 t)) = .ok s2) :
    leaveAreas s t false = .ok s2 := by
  obtain ⟨cells, es, hs1⟩ := put_eq hlat
  have hany : (kernelTeams s t.core t.launch).any (fun x => !(false && decide (x.uid = t.uid))) = true :=
    List.any_eq_true.mpr ⟨t, ht, rfl⟩
  have hr1 : recordsStay s1 t = false := (recordsStay_of_write hs1).trans hr
  have ha1 : kernelArea? s1 t.core t.launch = some k := by
    rw [hs1]
    exact ha
  have hkept : (recTeams s1 t.core t.ctx (hdrOf s1 t)).filter (fun x => !(false && decide (x.uid = t.uid))) =
      recTeams s1 t.core t.ctx (hdrOf s1 t) := List.filter_eq_self.mpr (fun _ _ => rfl)
  have hone1 : uniq ((recTeams s1 t.core t.ctx (hdrOf s1 t)).map (fun x => x.launch)) = [t.launch] := by
    rw [launches_of_write hs1, hone]
  simp only [leaveAreas, ha, hk, hany, hlat, bind, Except.bind, pure, Except.pure, Bool.not_true, Bool.or_self, Bool.false_eq_true,
    if_false, hr1, hkept, hone1, writeOperands, ha1, hop]

/-- The first team restored there loads the latches and then the records and operand lines. -/
theorem readAreas_of_first {s s1 : State} {t : Team} {k : PoolArea} (ha : kernelArea? s t.core t.launch = some k)
    (hk : kernelStays s t = false) (hr : recordsStay s t = false)
    (hone : uniq ((recTeams s t.core t.ctx (hdrOf s t)).map (fun x => x.launch)) = [t.launch]) {ls bs : List Byte}
    (hlat : t.agent.bytes s k.base 512 = .ok ls) (hs1 : loadLatches s t.core t.launch (runLen s t.core t.launch) ls = s1)
    (hop : t.agent.bytes s1 (k.base + 512) (512 + 256 * (kernelLines s1 t.core t.launch).length) = .ok bs) :
    readAreas s t = .ok (loadOperands s1 t.core t.launch t.ctx (hdrOf s t) bs) := by
  have hr1 : recordsStay s1 t = false := by
    rw [← hs1, loadLatches, recordsStay_onCore ?_ t, hr]
    exact fun _ => rfl
  obtain ⟨cs, hcs⟩ : ∃ cs, s1 = { s with cores := cs } := ⟨_, hs1.symm⟩
  have ha1 : kernelArea? s1 t.core t.launch = some k := by
    rw [hcs]
    exact ha
  have hhdr : hdrOf s1 t = hdrOf s t := by
    rw [hcs]
    rfl
  have hrec : recTeams s1 t.core t.ctx (hdrOf s t) = recTeams s t.core t.ctx (hdrOf s t) := by
    rw [hcs]
    rfl
  simp only [readAreas, ha, hk, hlat, hs1, bind, Except.bind, pure, Except.pure, Bool.false_eq_true, if_false, hr1, hhdr, hrec, hone,
    readOperands, ha1, hop]

/-! ## Saving (05 R126, 19 R433) -/

theorem exists_savedRun (t : Team) : ∃ w, t.savedRun = .saved w := by
  unfold Team.savedRun
  split
  case h_2 => split <;> exact ⟨_, rfl⟩
  all_goals exact ⟨_, rfl⟩

@[simp] theorem teams_postLease (s : State) (core : Nat) : (postLease s core).teams = s.teams := by
  simp only [postLease]
  split
  · rfl
  · split <;> rw [teams_postOnce]

@[simp] theorem teams_endLease (s : State) (core : Nat) (lost : Bool) : (endLease s core lost).teams = s.teams :=
  teams_postLease ..

theorem exists_team_withdrawLease {s : State} {u : Nat} (t : Team) (h : ∃ x, s.team? u = some x) :
    ∃ x, (withdrawLease s t).team? u = some x := by
  obtain ⟨f, hf, hteams⟩ : ∃ f : Team → Team, (∀ x, (f x).uid = x.uid) ∧ (withdrawLease s t).teams = s.teams.map f := by
    refine ⟨_, ?_, rfl⟩
    intro x
    split <;> rfl
  exact exists_team_map hf hteams h

/-- The lease that a saved team gives up leaves every team where it was. -/
theorem exists_team_leaseEnded {s : State} {u : Nat} (t : Team) (h : ∃ x, s.team? u = some x) (p : Prop) [Decidable p] :
    ∃ x, (if p then endLease (withdrawLease s t) t.core true else withdrawLease s t).team? u = some x := by
  split
  · exact (exists_team_withdrawLease t h).imp (fun _ ht => (team?_congr (teams_endLease ..) u).trans ht)
  · exact exists_team_withdrawLease t h

theorem exists_team_holdCopies {s : State} {u : Nat} (t : Team) (h : ∃ x, s.team? u = some x) :
    ∃ x, (holdCopies s t).team? u = some x := h

/-- The team after the last part of `beginSave`: its entries captured, its save due. -/
theorem saved_of_onTeam {s : State} {t : Team} (h : ∃ t', s.team? t.uid = some t') (es : List Flight) (forced : Bool) :
    let s1 := ({ s with nextId := s.nextId + 1 }.onTeam t.uid (fun u => { u with
      run := t.savedRun, aux := t.savedAux s.clk.toNat, entries := es, savedNo := 0, forced := forced })).post (.saveComplete t.uid)
    let s2 := if t.wound then s1.postOnce (.woundTake t.uid) else s1
    ∃ t', s2.team? t.uid = some t' ∧ (∃ w, t'.run = .saved w) ∧ t'.forced = forced ∧ .saveComplete t.uid ∈ s2.agenda := by
  obtain ⟨t', ht'⟩ := h
  intro s1 s2
  have hteam : s1.team? t.uid = some { t' with
      run := t.savedRun, aux := t.savedAux s.clk.toNat, entries := es, savedNo := 0, forced := forced } :=
    team_onTeam_same (s := { s with nextId := s.nextId + 1 }) (fun _ => rfl) ht'
  have hdue : .saveComplete t.uid ∈ s1.agenda := mem_agenda_post ..
  refine ⟨_, Eq.trans (team?_congr ?_ _) hteam, exists_savedRun t, rfl, ?_⟩
  · simp only [s2]
    split
    · exact teams_postOnce ..
    · rfl
  · simp only [s2]
    split
    · obtain ⟨fs, hfs⟩ := postOnce_eq s1 (.woundTake t.uid)
      rw [hfs]
      exact List.mem_append_left _ hdue
    · exact hdue

/-- Beginning a save makes the team saved, with its image due. -/
theorem beginSave_saves {s : State} {t : Team} (h : s.team? t.uid = some t) (forced : Bool) :
    ∃ t', (beginSave s t forced).team? t.uid = some t' ∧ (∃ w, t'.run = .saved w) ∧ t'.forced = forced ∧
      .saveComplete t.uid ∈ (beginSave s t forced).agenda := by
  unfold beginSave
  refine saved_of_onTeam (exists_team_holdCopies t ?_) _ _
  refine exists_team_leaseEnded t ?_ _
  exact ⟨t, h⟩

/-- A save waits for what is under way, or begins. -/
theorem trySave_eq {s : State} {t t1 : Team} (forced : Bool) (retry : Ev) (h : (captureReady s t.uid).team? t.uid = some t1) :
    trySave s t forced retry = if saveWaits (captureReady s t.uid) t1 then (captureReady s t.uid).postOnce retry
      else beginSave (captureReady s t.uid) t1 forced := by
  simp only [trySave, h]

/-! ## The image of a save (19 R433-R436) -/

/-- What the writes of a save leave: every core, and every team in its place. -/
def WriteKeeps (s s' : State) : Prop := s'.cores = s.cores ∧ ∀ u, (∃ x, s.team? u = some x) → ∃ x, s'.team? u = some x

theorem WriteKeeps.refl (s : State) : WriteKeeps s s := ⟨rfl, fun _ h => h⟩

theorem WriteKeeps.trans {s1 s2 s3 : State} (h : WriteKeeps s1 s2) (h' : WriteKeeps s2 s3) : WriteKeeps s1 s3 :=
  ⟨h'.1.trans h.1, fun u hu => h'.2 u (h.2 u hu)⟩

theorem writeKeeps_put {a : Agent} {s s' : State} {va : Nat} {bs : List Byte} (h : a.put s va bs = .ok s') : WriteKeeps s s' := by
  obtain ⟨cells, es, rfl⟩ := put_eq h
  refine ⟨rfl, fun u hu => exists_team_map (f := Team.marked cells) (fun x => ?_) rfl hu⟩
  obtain ⟨e, he⟩ := x.marked_eq cells
  rw [he]

theorem bind_eq_ok {α β : Type} {x : Got α} {f : α → Got β} {b : β} (h : (x >>= f) = .ok b) :
    ∃ a, x = .ok a ∧ f a = .ok b := by
  cases x with
  | error e => cases h
  | ok a => exact ⟨a, rfl, h⟩

theorem writeKeeps_writeOperands {t : Team} : ∀ (ls : List Nat) {s s' : State}, writeOperands s t ls = .ok s' → WriteKeeps s s'
  | [], s, _, h => Except.ok.inj h ▸ WriteKeeps.refl s
  | l :: ls, s, s', h => by
    rw [writeOperands] at h
    split at h
    · obtain ⟨s1, hput, hls⟩ := bind_eq_ok h
      exact (writeKeeps_put hput).trans (writeKeeps_writeOperands ls hls)
    · exact writeKeeps_writeOperands ls h

theorem writeKeeps_leaveAreas {s s' : State} {t : Team} {ends : Bool} (h : leaveAreas s t ends = .ok s') : WriteKeeps s s' := by
  have hrest : ∀ {s1 : State} {ls : List Nat},
      (if recordsStay s1 t then pure s1 else writeOperands s1 t ls : Got State) = .ok s' → WriteKeeps s1 s' := fun {s1} {ls} h1 => by
    split at h1
    · exact Except.ok.inj h1 ▸ WriteKeeps.refl s1
    · exact writeKeeps_writeOperands ls h1
  unfold leaveAreas at h
  dsimp only at h
  split at h
  · split at h
    · exact hrest h
    · obtain ⟨s1, hput, h1⟩ := bind_eq_ok h
      exact (writeKeeps_put hput).trans (hrest h1)
  · exact hrest h

/-- An image is written, and then what the core areas take. -/
theorem writeImage_eq_ok {s s1 s2 : State} {t : Team}
    (hput : t.agent.put s t.image (imageFront s t t.forced ++ imageBack s t) = .ok s1) (hareas : leaveAreas s1 t false = .ok s2) :
    writeImage s t = .ok (s2.onTeam t.uid (fun u => { u with imgAt := (imageFront s t t.forced).length })) := by
  simp only [writeImage, hput, hareas, bind, Except.bind, pure, Except.pure]

theorem writeKeeps_writeImage {s s' : State} {t : Team} (h : writeImage s t = .ok s') : WriteKeeps s s' := by
  obtain ⟨s1, hput, h⟩ := bind_eq_ok h
  obtain ⟨s2, hareas, h⟩ := bind_eq_ok h
  have h2 := (writeKeeps_put hput).trans (writeKeeps_leaveAreas hareas)
  refine Except.ok.inj h ▸ ⟨h2.1, fun u hu => exists_team_onTeam (fun _ => rfl) (h2.2 u hu)⟩

/-! ## The end of a save (05 R473) -/

/-- A state that differs in cores and agenda only, with the bind records where they were. -/
def CoreChange (s s' : State) : Prop :=
  ∃ cs es, s' = { s with cores := cs, agenda := s.agenda ++ es } ∧ s'.cores.length = s.cores.length ∧
    ∀ n, (s'.core n).recs = (s.core n).recs

theorem CoreChange.refl (s : State) : CoreChange s s := ⟨s.cores, [], by rw [List.append_nil], rfl, fun _ => rfl⟩

theorem CoreChange.trans {s1 s2 s3 : State} (h : CoreChange s1 s2) (h' : CoreChange s2 s3) : CoreChange s1 s3 := by
  obtain ⟨cs, es, heq, hlen, hrecs⟩ := h
  obtain ⟨cs', es', heq', hlen', hrecs'⟩ := h'
  exact ⟨cs', es ++ es', by rw [heq', heq, List.append_assoc], hlen'.trans hlen, fun n => (hrecs' n).trans (hrecs n)⟩

theorem CoreChange.onCore (s : State) (n : Nat) {f : Core → Core} (hf : ∀ c, (f c).recs = c.recs) :
    CoreChange s (s.onCore n f) :=
  ⟨_, [], by rw [List.append_nil]; rfl, List.length_modify .., fun m => recs_onCore s n m hf⟩

theorem CoreChange.postOnce (s : State) (e : Ev) : CoreChange s (s.postOnce e) := by
  obtain ⟨es, hes⟩ := postOnce_eq s e
  exact ⟨s.cores, es, hes, by rw [cores_postOnce], fun n => by rw [State.core, cores_postOnce]; rfl⟩

/-- The latches and records of a kernel leave a core; its bind records stay. -/
theorem coreChange_leaveCore (s : State) (t : Team) : CoreChange s (leaveCore s t) := by
  have hlat : CoreChange s (if kernelStays s t then s else dropLatches s t.core t.launch) := by
    split
    · exact CoreChange.refl s
    · exact CoreChange.onCore s _ (fun _ => rfl)
  unfold leaveCore
  dsimp only
  generalize (if kernelStays s t = true then s else dropLatches s t.core t.launch) = s1 at hlat ⊢
  refine hlat.trans ?_
  split
  · exact CoreChange.refl _
  · exact CoreChange.onCore _ _ (fun _ => rfl)

theorem coreChange_leavePlace (s : State) (t : Team) : CoreChange s (leavePlace s t) := by
  unfold leavePlace
  split
  · exact CoreChange.refl s
  · exact CoreChange.postOnce ..

theorem bind_onRec_same {s : State} {t : Team} (f : Bind → Bind) (hcore : t.core < s.cores.length)
    (hplace : t.place < (s.core t.core).recs.length) : (s.onRec t.core t.place f).bind t = f (s.bind t) := by
  rw [State.onRec, State.bind, core_onCore, if_pos ⟨rfl, hcore⟩, State.bind]
  simp [List.getD_eq_getElem?_getD, hplace]

theorem CoreChange.bind {s s' : State} (h : CoreChange s s') (t : Team) : s'.bind t = s.bind t := by
  obtain ⟨cs, es, heq, hlen, hrecs⟩ := h
  rw [State.bind, hrecs, State.bind]

theorem CoreChange.mem {s s' : State} (h : CoreChange s s') : s'.mem = s.mem := by
  obtain ⟨cs, es, rfl, -⟩ := h
  rfl

theorem CoreChange.nextId {s s' : State} (h : CoreChange s s') : s'.nextId = s.nextId := by
  obtain ⟨cs, es, rfl, -⟩ := h
  rfl

theorem CoreChange.team? {s s' : State} (h : CoreChange s s') (u : Nat) : s'.team? u = s.team? u := by
  obtain ⟨cs, es, rfl, -⟩ := h
  rfl

theorem CoreChange.mem_agenda {s s' : State} (h : CoreChange s s') {e : Ev} (he : e ∈ s.agenda) : e ∈ s'.agenda := by
  obtain ⟨cs, es, rfl, -⟩ := h
  exact List.mem_append_left _ he

/-- What a complete save notes of a team, whose record was `b`: its place among the saved, and that the record is to be reclaimed. -/
def saveNoted (s : State) (t : Team) (b : Bind) : State :=
  ({ s with nextId := s.nextId + 1 }.onTeam t.uid (fun u => { u with
    rec0 := { b with st := .saved }, savedNo := s.nextId, savedAt := s.nextId, ydl := noDeadline })).post
    (.recordReclaim t.core t.place)

theorem team?_saveNoted {s : State} {t x : Team} (h : s.team? t.uid = some x) (b : Bind) : (saveNoted s t b).team? t.uid = some
    { x with rec0 := { b with st := .saved }, savedNo := s.nextId, savedAt := s.nextId, ydl := noDeadline } :=
  team_onTeam_same (s := { s with nextId := s.nextId + 1 }) (fun _ => rfl) h

theorem saveDone_eq (s : State) (t : Team) : saveDone s t =
    leavePlace (saveNoted ((leaveCore s t).onRec t.core t.place (fun b => { b with st := .saved })) t (s.bind t)) t := rfl

/-- A team whose image is complete has left its place, and its record is to be reclaimed. -/
theorem saveDone_leaves {s : State} {t : Team} (hteam : ∃ x, s.team? t.uid = some x) (hcore : t.core < s.cores.length)
    (hplace : t.place < (s.core t.core).recs.length) :
    ∃ t', (saveDone s t).mem = s.mem ∧ (saveDone s t).team? t.uid = some t' ∧ t'.savedNo = s.nextId ∧ t'.savedAt = s.nextId ∧
      t'.ydl = noDeadline ∧ ((saveDone s t).bind t).st = .saved ∧ .recordReclaim t.core t.place ∈ (saveDone s t).agenda := by
  have hleave : CoreChange s (leaveCore s t) := coreChange_leaveCore s t
  have hlast := coreChange_leavePlace
    (saveNoted ((leaveCore s t).onRec t.core t.place (fun b => { b with st := .saved })) t (s.bind t)) t
  rw [← saveDone_eq] at hlast
  obtain ⟨x, hx⟩ := hteam
  have hteam : (leaveCore s t).team? t.uid = some x := (hleave.team? _).trans hx
  have hbind : (saveDone s t).bind t = { (leaveCore s t).bind t with st := .saved } := by
    obtain ⟨cs, es, -, hlen, hrecs⟩ := hleave
    exact (hlast.bind t).trans (bind_onRec_same (fun b => { b with st := .saved }) (hlen ▸ hcore) (by rw [hrecs]; exact hplace))
  exact ⟨_, hlast.mem.trans hleave.mem, (hlast.team? _).trans (team?_saveNoted hteam _), hleave.nextId, hleave.nextId, rfl,
    by rw [hbind], hlast.mem_agenda (mem_agenda_post ..)⟩

/-! ## Pre-emption, saves and reclaims (05 R125, R126, R473) -/

/-- Both requests for a team's place do the same, whatever the event that tries again. -/
theorem exec_preempt {ev : Instr} {u : Nat} {s s' : State} (hev : ev = .preemptRequest u ∨ ev = .timesliceExpiry u)
    (h : ∀ retry, preempt s u retry = s') : exec ev s = .next s' := by
  rcases hev with rfl | rfl
  · exact congrArg _ (h _)
  · exact congrArg _ (h _)

theorem preempt_of_ready {u : Nat} {s : State} {t : Team} (ht : s.team? u = some t) (hrun : t.run = .ready)
    (habsent : endAbsent s t none = none) (retry : Ev) : preempt s u retry = wakeLaunches (unbind s t) := by
  simp only [preempt, ht, hrun, habsent, if_true]

theorem preempt_of_running {u : Nat} {s : State} {t : Team} {c : Context} (ht : s.team? u = some t) (hrun : t.run = .running)
    (hc : s.ctx? t.ctx = some c) (hydl : t.ydl = noDeadline) (retry : Ev) :
    preempt s u retry = s.onTeam u (fun v => { v with ydl := c.grace }) := by
  simp only [preempt, ht, hrun, hc, hydl, Team.resident, reduceCtorEq, Bool.not_true, Bool.false_eq_true, if_false, if_true]

/-- A team that has a deadline keeps it. -/
theorem preempt_of_deadline {u : Nat} {s : State} {t : Team} (ht : s.team? u = some t) (hrun : t.run = .running)
    (hydl : t.ydl ≠ noDeadline) (retry : Ev) : preempt s u retry = s := by
  simp only [preempt, ht, hrun, hydl, Team.resident, reduceCtorEq, Bool.not_true, Bool.false_eq_true, if_false]

theorem exec_ydlExpiry_saves {u : Nat} {s : State} {t : Team} (ht : s.team? u = some t) (hrun : t.run ≠ .ready)
    (hres : t.resident = true) (hh : t.handler = false) (hydl : t.ydl = 0) :
    exec (.ydlExpiry u) s = .next (trySave s t true (.ydlExpiry u)) := by
  change execYdlExpiry u s = _
  simp only [execYdlExpiry, ht, hrun, hres, hh, hydl, ne_eq, not_true_eq_false, decide_false, Bool.not_true, Bool.or_self,
    Bool.false_eq_true, if_false]

theorem exec_ydlExpiry_early {u : Nat} {s : State} {t : Team} (ht : s.team? u = some t) (hydl : t.ydl ≠ 0) :
    exec (.ydlExpiry u) s = .next s := by
  change execYdlExpiry u s = _
  simp only [execYdlExpiry, ht, hydl, ne_eq, not_false_eq_true, decide_true, Bool.or_true, if_true]

theorem exec_ysaveImage {u : Nat} {s : State} {t : Team} (ht : s.team? u = some t) (hrun : t.run = .parked .ysave) :
    exec (.ysaveImage u) s = .next (trySave s t false (.ysaveImage u)) := by
  change execYsaveImage u s = _
  simp only [execYsaveImage, ht, hrun, ne_eq, not_true_eq_false, if_false]

/-- `ysave` moves on without a deadline, waits for what is under way, or parks with its save due (19 R432). -/
theorem exec_ysave {x : Ext} {s : State} {t : Team} (h : Issues 0x58 5 x s t) (hgo : t.go x.g x.neg = true) :
    (t.ydl = noDeadline → exec (.ysave x) s = .next (retire s t (extLen x))) ∧
    (t.ydl ≠ noDeadline → quiet s t = false → exec (.ysave x) s = .next s) ∧
    (t.ydl ≠ noDeadline → quiet s t = true → exec (.ysave x) s = .next ((s.onTeam t.uid (fun u => { u with
      pc := t.pc + BitVec.ofNat 64 (extLen x), run := .parked .ysave })).post (.ysaveImage t.uid))) := by
  have heff : onGo effYsave (ctxAt (.ysave x) 0x58 5 (extLen x) x t) s = if t.ydl = noDeadline then .done s
      else if !quiet s t then .wait s else .wait ((s.onTeam t.uid (fun u => { u with
        pc := t.pc + BitVec.ofNat 64 (extLen x), run := .parked .ysave })).post (.ysaveImage t.uid)) := onGo_of_go hgo ..
  refine ⟨fun hydl => ?_, fun hydl hq => ?_, fun hydl hq => ?_⟩
  · rw [if_pos hydl] at heff
    exact exec_of_done (i := .ysave x) rfl h heff
  · rw [if_neg hydl, hq, Bool.not_false, if_pos rfl] at heff
    exact exec_of_wait (i := .ysave x) rfl h heff
  · rw [if_neg hydl, hq, Bool.not_true, if_neg Bool.false_ne_true] at heff
    exact exec_of_wait (i := .ysave x) rfl h heff

/-- A save waits for what is under way, or makes the team saved with its image due. -/
theorem trySave_waits_or_saves {s : State} {t t1 : Team} (forced : Bool) (retry : Ev)
    (h : (captureReady s t.uid).team? t.uid = some t1) :
    (saveWaits (captureReady s t.uid) t1 = true → trySave s t forced retry = (captureReady s t.uid).postOnce retry) ∧
    (saveWaits (captureReady s t.uid) t1 = false → ∃ t', (trySave s t forced retry).team? t.uid = some t' ∧
      (∃ w, t'.run = .saved w) ∧ t'.forced = forced ∧ .saveComplete t.uid ∈ (trySave s t forced retry).agenda) := by
  rw [trySave_eq forced retry h]
  refine ⟨fun hw => if_pos hw, fun hw => ?_⟩
  rw [hw, if_neg Bool.false_ne_true]
  have huid : t1.uid = t.uid := uid_of_team? h
  rw [← huid] at h ⊢
  exact beginSave_saves h forced

theorem saveComplete_leaves {u : Nat} {s s1 : State} {t : Team} {w : Option Park} (ht : s.team? u = some t) (hrun : t.run = .saved w)
    (hno : t.savedNo = 0) (hcore : t.core < s.cores.length) (hplace : t.place < (s.core t.core).recs.length)
    (hteam : (s.bind t).team = t.uid) (hst : (s.bind t).st ≠ .saved) (hw : writeImage s t = .ok s1) :
    ∃ s' t', exec (.saveComplete u) s = .next s' ∧ s'.mem = s1.mem ∧ s'.team? u = some t' ∧ t'.savedNo = s1.nextId ∧
      t'.savedAt = s1.nextId ∧ t'.ydl = noDeadline ∧ (s'.bind t).st = .saved ∧ .recordReclaim t.core t.place ∈ s'.agenda := by
  have hexec : exec (.saveComplete u) s = .next (saveDone s1 t) := by
    change execSaveComplete u s = _
    simp only [execSaveComplete, ht, hrun, hno, hteam, hst, hw, ne_eq, not_true_eq_false, decide_false, decide_true, Bool.and_false,
      Bool.or_self, Bool.not_true, Bool.not_false, Bool.and_false, Bool.false_eq_true, if_false]
  have huid : t.uid = u := uid_of_team? ht
  obtain ⟨hcores, hkept⟩ := writeKeeps_writeImage hw
  obtain ⟨t', hleft⟩ := saveDone_leaves (s := s1) (t := t) (hkept _ ⟨t, huid ▸ ht⟩) (by rw [hcores]; exact hcore)
    (by rw [State.core, hcores]; exact hplace)
  rw [huid] at hleft
  exact ⟨_, t', hexec, hleft⟩

theorem exec_saveComplete_again {u : Nat} {s s1 : State} {t : Team} {w : Option Park} (ht : s.team? u = some t)
    (hrun : t.run = .saved w) (hno : t.savedNo ≠ 0) (hw : writeAgain s t = .ok s1) : exec (.saveComplete u) s = .next s1 := by
  change execSaveComplete u s = _
  simp only [execSaveComplete, ht, hrun, hno, hw, ne_eq, not_false_eq_true, decide_true, Bool.true_or, Bool.not_true,
    Bool.false_and, Bool.or_self, Bool.false_eq_true, if_false, if_true]

theorem exec_recordReclaim {core place : Nat} {s : State} {t : Team}
    (ht : s.team? ((s.core core).recs.getD place Bind.reset).team = some t)
    (hst : ((s.core core).recs.getD place Bind.reset).st = .saved) (hno : t.savedNo ≠ 0)
    (hup : s.hub.updating.contains (dieOf core) = false) : exec (.recordReclaim core place) s =
      .next (offerRestores (wakeLaunches (s.onRec core place (fun _ => Bind.reset))) core) := by
  change execRecordReclaim core place s = _
  simp only [execRecordReclaim, ht, hst, hno, hup, ne_eq, not_true_eq_false, decide_false, Bool.or_self, Bool.false_eq_true, if_false]

/-! ## Restores (05 R127, R128, 19 R435) -/

theorem exec_restoreRequest {core place u : Nat} {s : State} {t : Team} (ht : s.team? u = some t)
    (hst : ((s.core core).recs.getD place Bind.reset).st = .empty) (hplace : place < 16) (hcore : t.core = core)
    (hslot : slotOf t.place = slotOf place) (hno : t.savedNo ≠ 0) (hnext : nextRestore s core (slotOf place) = some t)
    (hup : s.hub.updating.contains (dieOf core) = false) : exec (.restoreRequest core place u) s = .next (offerRestores
      ((((releaseHolds (dropRestores s core place u) (inWay s t)).onRec core place (fun _ => { t.rec0 with st := .saved })).onTeam u
        (fun v => { v with place := place, savedNo := 0 })).post (.restoreComplete u)) core) := by
  change execRestoreRequest core place u s = _
  simp only [execRestoreRequest, ht, hst, hplace.not_ge, hcore, hslot, hno, hnext, hup, Option.map_some, uid_of_team? ht, ne_eq,
    not_true_eq_false, decide_false, Bool.or_self, Bool.false_eq_true, if_false]

section
variable {u : Nat} {s : State} {t : Team} (ht : s.team? u = some t)
  (hst : ((s.core t.core).recs.getD t.place Bind.reset).st = .saved)
  (hteam : ((s.core t.core).recs.getD t.place Bind.reset).team = u) (hno : t.savedNo = 0)
include ht hst hteam hno

theorem exec_restoreComplete_ok {s1 : State} {t1 : Team} (hin : isIn s t.ctx = true) (hend : poolEnding s t.core t.ctx = false)
    (himg : imagePending s u = false) (hread : readImage s t = .ok s1) (ht1 : s1.team? u = some t1) :
    exec (.restoreComplete u) s = .next (restoreDone s1 t1) := by
  change execRestoreComplete u s = _
  simp only [execRestoreComplete, ht, hst, hteam, hno, hin, hend, himg, hread, ht1, Option.getD_some, ne_eq, not_true_eq_false,
    decide_false, Bool.or_self, Bool.not_true, Bool.false_eq_true, if_false]

theorem exec_restoreComplete_givenUp (hin : isIn s t.ctx = false) :
    exec (.restoreComplete u) s = .next (giveUpRestore s t) := by
  change execRestoreComplete u s = _
  simp only [execRestoreComplete, ht, hst, hteam, hno, hin, ne_eq, not_true_eq_false, decide_false, Bool.or_self, Bool.not_false,
    Bool.false_eq_true, if_false, if_true]

end

/-- An image that can be read gives scratch and tiles back, then the core areas, then the team's registers. -/
theorem readImage_eq_ok {s s1 : State} {t : Team} {bs : List Byte}
    (hbytes : t.agent.bytes s t.image (t.imgAt + 81984 * t.rec0.accN + 256 * t.rec0.ssize) = .ok bs)
    (hareas : readAreas (loadBack s t (bs.drop t.imgAt)) t = .ok s1) :
    readImage s t = .ok (s1.setTeam (t.fromImage (bs.take t.imgAt))) := by
  simp only [readImage, hbytes, hareas, bind, Except.bind, pure, Except.pure]

theorem leNat_lt (bs : List Byte) : leNat bs < 256 ^ bs.length := by
  induction bs with
  | nil => exact Nat.one_pos
  | cons b bs ih =>
    have hb : b.toNat < 256 := b.isLt
    rw [leNat, List.length_cons, Nat.pow_succ]
    omega

theorem numAt_lt (bs : List Byte) (o : Nat) : numAt bs o 8 < 2 ^ 64 :=
  (leNat_lt _).trans_le (Nat.pow_le_pow_right (by decide) (List.length_take_le ..))

theorem toNat_ofNat_numAt (bs : List Byte) (o : Nat) : (BitVec.ofNat 64 (numAt bs o 8)).toNat = numAt bs o 8 :=
  (BitVec.toNat_ofNat ..).trans (Nat.mod_eq_of_lt (numAt_lt bs o))

/-- What an image says of registers and control registers is what its team takes from it (19 R434, R435). -/
theorem fromImage_reads (t : Team) (bs : List Byte) : let u := t.fromImage bs
    (∀ n < 128, u.sval n = BitVec.ofNat 64 (numAt bs (512 + 8 * n) 8)) ∧ u.status.toNat = numAt bs 16 8 ∧
    u.role.toNat = numAt bs 24 8 ∧ u.trapv.toNat = numAt bs 40 8 ∧ u.trapa.toNat = numAt bs 48 8 ∧
    ((∀ f ∈ t.entries, f.id ≠ 0) → u.pc.toNat = numAt bs 8 8) := by
  refine ⟨fun n hn => ?_, toNat_ofNat_numAt bs 16, toNat_ofNat_numAt bs 24, toNat_ofNat_numAt bs 40, toNat_ofNat_numAt bs 48,
    fun hids => ?_⟩
  · simp only [Team.sval, Team.fromImage, List.getD_eq_getElem?_getD, List.getElem?_map, List.getElem?_range hn, Option.map_some,
      Option.getD_some]
  · have hany : t.entries.any (fun f => f.id = 0) = false := List.any_eq_false.mpr (fun f hf => by simpa using hids f hf)
    have hpc : (t.fromImage bs).pc = BitVec.ofNat 64 (numAt bs 8 8) := if_neg (by rw [hany]; exact Bool.false_ne_true)
    rw [hpc, toNat_ofNat_numAt]

/-- Settles O50: each event is run to the state it answers; a save ends in `saveDone`, a restore in `restoreDone`, and the core areas
follow the last team out and the first team in. -/
theorem teamsAreSavedAndRestored : Obligations.TeamsAreSavedAndRestored := by
  unfold Obligations.TeamsAreSavedAndRestored
  refine ⟨fun ev u s t hev ht => ⟨fun hrun habsent => exec_preempt hev (preempt_of_ready ht hrun habsent),
      fun c hrun hc hydl => exec_preempt hev (preempt_of_running ht hrun hc hydl),
      fun hrun hydl => exec_preempt hev (preempt_of_deadline ht hrun hydl)⟩,
    fun u s t ht hrun hres hh hydl => exec_ydlExpiry_saves ht hrun hres hh hydl, fun u s t ht hydl => exec_ydlExpiry_early ht hydl,
    fun u s t ht hrun => exec_ysaveImage ht hrun, fun x s t h hgo => exec_ysave h hgo,
    fun s t forced retry t1 h => trySave_waits_or_saves forced retry h,
    fun u s t w s1 ht hrun hno hcore hplace hteam hst hw => saveComplete_leaves ht hrun hno hcore hplace hteam hst hw,
    fun s t s1 hput s2 hareas => ⟨_, writeImage_eq_ok hput hareas, rfl⟩,
    fun u s t w s1 ht hrun hno hw => exec_saveComplete_again ht hrun hno hw, fun s t => ⟨?stays, ?last⟩,
    fun core place s t ht hst hno hup => exec_recordReclaim ht hst hno hup,
    fun core place u s t ht hst hplace hcore hslot hno hnext hup => exec_restoreRequest ht hst hplace hcore hslot hno hnext hup,
    fun u s t s1 ht hst hteam hno hin hend himg hread t1 ht1 => exec_restoreComplete_ok ht hst hteam hno hin hend himg hread ht1,
    fun u s t ht hst hteam hno hin => exec_restoreComplete_givenUp ht hst hteam hno hin,
    fun s t bs s1 hbytes hareas => readImage_eq_ok hbytes hareas, fromImage_reads⟩
  case stays => exact fun hk hr => ⟨leaveAreas_of_stays hk hr false, readAreas_of_stays hk hr⟩
  case last =>
    exact fun k ha hk hr ht hone => ⟨fun s1 s2 hlat hop => leaveAreas_of_last ha hk hr ht hone hlat hop,
      fun ls bs hlat hop => readAreas_of_first ha hk hr hone hlat rfl hop⟩

end Sys2Proof.Machine
end

section
/-!
PROOFS. Predicates, votes and shuffles (06 R152, R158-R162): the lane that a shuffle reads, the two writes of `vcmp`, and the order of
values that its comparisons follow.
-/

namespace Sys2Proof.Machine

/-! ## Writes of predicates -/

/-- Two changes of one team are one change. -/
theorem onTeam_onTeam (s : State) (u : Nat) {f : Team → Team} (g : Team → Team) (hf : ∀ t, (f t).uid = t.uid) :
    (s.onTeam u f).onTeam u g = s.onTeam u (fun t => g (f t)) := by
  simp only [State.onTeam, List.map_map]
  congr 1
  refine List.map_congr_left (fun t _ => ?_)
  dsimp only [Function.comp]
  by_cases h : t.uid = u
  · simp only [h, hf, if_true]
  · simp only [h, if_false]

/-- Values listed beside their lanes and then combined with them. -/
theorem map_zip_map_self {α β γ : Type} (l : List α) (f : α → β) (g : α → β → γ) :
    (l.zip (l.map f)).map (fun p => g p.1 p.2) = l.map (fun a => g a (f a)) := by
  rw [List.zip_map_right, List.zip, List.zipWith_self, List.map_map, List.map_map]
  rfl

/-- The three ways in which `vcmp` combines (06 R159). -/
theorem combP_eq (k : Nat) (old new : Bool) :
    combP k old new = if k = 0 then new else if k = 1 then old && new else old || new := by
  match k with
  | 0 | 1 | _ + 2 => rfl

theorem effVcmp_ctxAt (i : Instr) (opc sub n : Nat) (x : Ext) (t : Team) (s : State) :
    let c (l : Nat) : Bool := condTy x.ty (x.f 7 5) (srcVal s t x x.a x.ty.width l) (srcVal s t x x.b x.ty.width l)
    effVcmp (ctxAt i opc sub n x t) s = .done (putPred (putPred s t x x.d.toNat
      (fun l => combP (x.f 9 8) (t.pr x.d.toNat l) (c l))) t x (x.f 4 0)
      (fun l => combP (x.f 9 8) (t.pr (x.f 4 0) l) (!c l))) := by
  intro c
  simp only [effVcmp, opnd_ctxAt, ctxAt_x, ctxAt_t, ctxAt_act, putPred]
  rw [onTeam_onTeam _ _ _ (fun u => uid_writeP u ..),
    map_zip_map_self t.laneIxs c (fun l r => combP (x.f 9 8) (t.pr x.d.toNat l) r),
    map_zip_map_self t.laneIxs c (fun l r => combP (x.f 9 8) (t.pr (x.f 4 0) l) (!r))]
  rfl

theorem effPset_ctxAt (i : Instr) (opc sub n : Nat) (x : Ext) (t : Team) (s : State) :
    effPset (ctxAt i opc sub n x t) s = .done (putPred s t x x.d.toNat (fun l =>
      (srcVal s t x x.a (if x.a.cls = .vec then 32 else if x.a.cls = .sc then 64 else 1) l).testBit (x.f 5 0))) := by
  simp only [effPset, opnd_ctxAt, ctxAt_x]
  cases x.a.cls <;> rfl

/-- `vote` gathers pA over the active lanes of the sub-group of each lane (06 R162). -/
theorem effVote_ctxAt (i : Instr) (opc sub n : Nat) (x : Ext) (t : Team) (s : State) :
    let held (l : Nat) : List Bool :=
      ((lanesOf (activeLanes t x)).filter (fun i => i / groupSize t x = l / groupSize t x)).map (fun i => t.pr x.a.code.toNat i)
    effVote (ctxAt i opc sub n x t) s = .done (putPred s t x x.d.toNat (fun l =>
      if x.f 6 4 = 0 then (held l).any id else if x.f 6 4 = 1 then (held l).all id
      else (held l).all id || (held l).all (fun b => !b))) := by
  intro held
  simp only [effVote, ctxAt_x]
  match x.f 6 4 with
  | 0 | 1 | _ + 2 => rfl

/-! ## The order of values (06 R158, R159) -/

theorem condTy_of_int {ty : Ty} (hint : ty.isFloat = false) {cc : Nat} (hcc : cc < 6) (a b : Nat) :
    condTy ty cc a b = intCompare cc (intRead ty a) (intRead ty b) := by
  rw [condTy, hint, if_neg Bool.false_ne_true]
  match cc, hcc with
  | 0, _ | 1, _ | 2, _ | 3, _ | 4, _ | 5, _ => rfl

theorem condTy_of_float {ty : Ty} (hfloat : ty.isFloat = true) (cc a b : Nat) :
    condTy ty cc a b = condF cc ((tyFmt ty).value a) ((tyFmt ty).value b) := if_pos hfloat

/-- Nothing is below or above a NaN. -/
theorem FV.lt_of_nan {v w : FV} (h : (v.isNan || w.isNan) = true) : FV.lt v w = false ∧ FV.lt w v = false := by
  cases v <;> cases w <;> simp [FV.isNan, FV.lt] at h ⊢

theorem eqv_of_number {v w : FV} (h : (v.isNan || w.isNan) = false) : FV.eqv v w = (!FV.lt v w && !FV.lt w v) := by
  rw [Bool.or_eq_false_iff] at h
  rw [FV.eqv, h.1, h.2]
  rfl

/-- With a NaN no order holds, and no equality. -/
theorem condF_of_nan {v w : FV} (h : (v.isNan || w.isNan) = true) :
    ∀ cc ∈ [0, 2, 3, 4, 5], condF cc v w = false := by
  obtain ⟨hlt, hgt⟩ := FV.lt_of_nan h
  have heqv : FV.eqv v w = false := by
    rw [FV.eqv, ← Bool.not_or, h]
    rfl
  simp [condF, hlt, hgt, heqv, h]

/-- `ne` is the opposite of `eq`, on NaNs too. -/
theorem condF_ne (v w : FV) : condF 1 v w = !condF 0 v w := by
  by_cases h : (v.isNan || w.isNan) = true
  · rw [condF_of_nan h 0 (by simp)]
    simp [condF, h]
  · simp only [condF, Bool.eq_false_of_not_eq_true h, Bool.false_or]

/-- Two numbers are in order when, at the smaller of their exponents, their integers are. -/
theorem lt_fin_iff (m e n k : Int) :
    FV.lt (.fin m e) (.fin n k) = true ↔ m * 2 ^ (e - min e k).toNat < n * 2 ^ (k - min e k).toNat := by
  simp only [FV.lt, dyAdd]
  split
  case isTrue h => simp [min_eq_left h]
  case isFalse h => simp [min_eq_right (Int.le_of_not_le h)]

/-- Settles O7: each instruction writes predicates lane by lane (`effVcmp_ctxAt` and its like); `condF` follows `FV.lt`. -/
theorem predicatesAndVotesWriteActiveLanes : Obligations.PredicatesAndVotesWriteActiveLanes := by
  unfold Obligations.PredicatesAndVotesWriteActiveLanes
  refine ⟨fun x s t h => ?vcmp, fun x s t h => exec_of_done rfl h rfl, fun x s t h => exec_of_done rfl h (effPset_ctxAt ..),
    fun x s t h => exec_of_done rfl h (effVote_ctxAt ..), fun ty cc a b hint hcc => condTy_of_int hint hcc a b,
    fun ty a b hfloat => ?float, fun m e n k p q => ⟨rfl, rfl, rfl, rfl, rfl, rfl, rfl, rfl, lt_fin_iff m e n k⟩⟩
  case vcmp =>
    simp only [← combP_eq]
    exact exec_of_done rfl h (effVcmp_ctxAt ..)
  case float =>
    simp only [condTy_of_float hfloat]
    refine ⟨rfl, rfl, condF_ne .., condF_of_nan, fun hnum => ⟨rfl, rfl, eqv_of_number hnum, ?_, ?_⟩⟩
    all_goals simp only [condF, hnum, Bool.not_false, Bool.true_and]

/-! ## Shuffles (06 R160, R161) -/

theorem grp_ctxAt (i : Instr) (opc sub n : Nat) (x : Ext) (t : Team) : (ctxAt i opc sub n x t).grp = groupSize t x := rfl

theorem isUni_ctxAt (i : Instr) (opc sub n : Nat) (x : Ext) (t : Team) (k : SK) (y : Src) :
    (ctxAt i opc sub n x t).isUni k y = uniSource t k y := rfl

/-- The tag of `bcast` and `reduce` is that of rule 4 of R144. -/
theorem grpTag_ctxAt (i : Instr) (sub n : Nat) (x : Ext) (t : Team) : grpTag (ctxAt i 0x48 sub n x t) = groupTag sub t x := by
  rw [grpTag, groupTag, grp_ctxAt, isUni_ctxAt]
  simp only [Bool.or_eq_true, decide_eq_true_eq]
  rfl

/-- The lane named is the first of the sub-group and, beyond it, what `pick` names modulo the size of the group. -/
def Shuf.pick : Shuf → Nat → Nat → Nat → Nat
  | .idx, g, _, k => k % g
  | .xor, g, i, k => i ^^^ k % g
  | .rot, g, i, k => (i + k) % g

theorem shufLane_eq (k : Shuf) (g l b : Nat) : shufLane k g l b = l - l % g + k.pick g (l % g) b := by
  cases k <;> rfl

/-- Only the results of the lanes that the team has matter. -/
theorem putLanes_congr (s : State) (t : Team) (x : Ext) (wide : Bool) {f f' : Nat → Nat} (g : Tag)
    (h : ∀ l < t.width, f l = f' l) : putLanes s t x wide f g = putLanes s t x wide f' g := by
  rw [putLanes, putLanes, List.map_congr_left (fun l hl => h l (List.mem_range.mp hl))]

theorem getD_lanes_ctxAt (i : Instr) (opc sub n : Nat) (x : Ext) (t : Team) (s : State) (y : Src) (w : Nat) {l : Nat}
    (hl : l < t.width) : ((ctxAt i opc sub n x t).lanes s y w).getD l 0 = srcVal s t x y w l := by
  simp [C.lanes, Team.laneIxs, List.getD_eq_getElem?_getD, hl]

/-- A shuffle reads vA of the lane that R161 names, before any lane is written. -/
theorem effShuf_ctxAt (k : Shuf) (tag : C → Tag) (i : Instr) (sub n : Nat) (x : Ext) (t : Team) (s : State) :
    let c := ctxAt i 0x48 sub n x t
    let g := groupSize t x
    effShuf k tag c s = .done (putLanes s t x x.ty.wide (fun l =>
      let j := l - l % g + k.pick g (l % g) (srcVal s t x x.b 32 l) % g
      if j < t.width then srcVal s t x x.a x.ty.width j
      else if uniSource t (rowOf t.width 0x48 sub x).a x.a then srcVal s t x x.a x.ty.width 0
      else (Config.absentLane s.stepNo j).toNat % 2 ^ x.ty.width) (tag c)) := by
  intro c g
  simp only [effShuf, c, opnd_ctxAt, ctxAt_x, ctxAt_t, grp_ctxAt, shufLane_eq, Nat.add_sub_cancel_left, putV_ctxAt]
  refine congrArg Eff.done (putLanes_congr _ _ _ _ _ (fun l hl => ?_))
  split
  case isTrue hj => exact getD_lanes_ctxAt _ _ _ _ _ _ _ _ _ hj
  case isFalse => rw [isUni_ctxAt, getD_lanes_ctxAt _ _ _ _ _ _ _ _ _ (Nat.zero_lt_of_lt hl)]; rfl

theorem shuffleOp_of_effect {mk : Ext → Instr} {sub : Nat} (k : Shuf) {tag : Team → Ext → Tag} {ctag : C → Tag}
    (hexec : ∀ x s, exec (mk x) s = issueExt (mk x) 0x48 sub x (effShuf k ctag) s)
    (htag : ∀ i n x t, ctag (ctxAt i 0x48 sub n x t) = tag t x) : ShuffleOp mk sub tag k.pick := by
  intro x s t h g n val
  rw [exec_of_done (hexec x s) h (effShuf_ctxAt k ctag ..), htag]

/-- Settles O8: each shuffle issues `effShuf` of its kind (`effShuf_ctxAt`). -/
theorem shufflesReadWithinTheirSubGroup : Obligations.ShufflesReadWithinTheirSubGroup := by
  unfold Obligations.ShufflesReadWithinTheirSubGroup
  exact ⟨shuffleOp_of_effect .idx (fun _ _ => rfl) (fun _ _ _ _ => rfl),
    shuffleOp_of_effect .xor (fun _ _ => rfl) (fun _ _ _ _ => rfl),
    shuffleOp_of_effect .rot (fun _ _ => rfl) (fun _ _ _ _ => rfl),
    shuffleOp_of_effect .idx (fun _ _ => rfl) (fun i n x t => grpTag_ctxAt i 3 n x t)⟩

/-! ## Reductions and scans (06 R163, 04 R108) -/

theorem tree_ctxAt (i : Instr) (opc sub n : Nat) (x : Ext) (t : Team) (s : State) (l : Nat) :
    (ctxAt i opc sub n x t).tree s l = groupTree s t x l := by
  simp only [C.tree, opnd_ctxAt, ctxAt_x, ctxAt_t, ctxAt_act, grp_ctxAt, groupTree]

theorem effReduce_ctxAt (i : Instr) (n : Nat) (x : Ext) (t : Team) (s : State) :
    let c := ctxAt i 0x48 5 n x t
    effReduce c s = c.fpLanes s x.ty.wide (groupTag 5 t x) (fun l => (treeTop (groupTree s t x l)).getD (0, 0)) := by
  simp only [effReduce, tree_ctxAt, grpTag_ctxAt, ctxAt_x]

/-- The result of `scan` in a lane, with the flags of its nodes and of its own operand (06 R163). -/
def scanLane (s : State) (t : Team) (x : Ext) (l : Nat) : Nat × Flg :=
  let r := (scanAt (combine x.ty (x.f 6 4) t.ftz) (groupTree s t x l)
    (l % groupSize t x + (if x.bit 7 then 0 else 1))).getD (identity x.ty (x.f 6 4), 0)
  (r.1, r.2 ||| (leafOf x.ty t.ftz (srcVal s t x x.a x.ty.width l)).2)

theorem effScan_ctxAt (i : Instr) (opc sub n : Nat) (x : Ext) (t : Team) (s : State) :
    let c := ctxAt i opc sub n x t
    effScan c s = c.fpLanes s x.ty.wide .gen (scanLane s t x) := by
  simp only [effScan, tree_ctxAt, opnd_ctxAt, grp_ctxAt, ctxAt_x, ctxAt_t]
  rfl

/-- Settles O9: both instructions end in the flags of their lanes, over the tree of the lane's sub-group. -/
theorem reduceAndScanWriteTheirTree : Obligations.ReduceAndScanWriteTheirTree := by
  unfold Obligations.ReduceAndScanWriteTheirTree
  exact ⟨fpOp_of_effect (fun _ _ => rfl) (fun _ _ _ _ _ => effReduce_ctxAt ..),
    fpOp_of_effect (fun _ _ => rfl) (fun _ _ _ _ _ => effScan_ctxAt ..)⟩

end Sys2Proof.Machine
end

section
/-!
PROOFS. Group vfp (08 R177-R183): its effects, and the values that the selecting and splitting instructions give for one element.
-/

namespace Sys2Proof.Machine

/-- Settles O11: each instruction issues `effVfp` of its element operation. -/
theorem floatArithmeticRoundsTheExactResultOnce : Obligations.FloatArithmeticRoundsTheExactResultOnce := by
  unfold Obligations.FloatArithmeticRoundsTheExactResultOnce
  exact ⟨fpOp_of_effect (fun _ _ => rfl) (fun _ _ _ _ _ => effVfp_ctxAt fAdd ..),
    fpOp_of_effect (fun _ _ => rfl) (fun _ _ _ _ _ => effVfp_ctxAt fSub ..),
    fpOp_of_effect (fun _ _ => rfl) (fun _ _ _ _ _ => effVfp_ctxAt fMul ..),
    fpOp_of_effect (fun _ _ => rfl) (fun _ _ _ _ _ => effVfp_ctxAt fFma ..),
    fpOp_of_effect (fun _ _ => rfl) (fun _ _ _ _ _ => effVfp_ctxAt fAdd ..),
    fpOp_of_effect (fun _ _ => rfl) (fun _ _ _ _ _ => effVfp_ctxAt fMul ..)⟩

/-! ## Selection (08 R182) -/

theorem FV.not_nan_of_lt {v w : FV} (h : FV.lt v w = true) : v.isNan = false ∧ w.isNan = false := by
  cases v <;> cases w <;> simp [FV.lt, FV.isNan] at h ⊢

/-- The order of values is asymmetric. -/
theorem FV.lt_asymm {v w : FV} (h : FV.lt v w = true) : FV.lt w v = false := by
  cases v <;> cases w
  case fin.fin m e n k =>
    rw [Bool.eq_false_iff, ne_eq, lt_fin_iff, min_comm, not_lt]
    exact ((lt_fin_iff ..).mp h).le
  case zero.fin | fin.zero => simp [FV.lt] at h ⊢; omega
  all_goals simp [FV.lt] at h ⊢
  all_goals simp [h]

/-- What `vmin` and `vmax` give for one element (08 R182): the smaller and the larger pattern, with one flag. -/
def MinMaxIs (f : Fmt) (ftz : Bool) (a b lo hi : Nat) : Prop :=
  let nv := sigFlag [f.input ftz a, f.input ftz b]
  fMinMax false f ftz a b = (lo, nv) ∧ fMinMax true f ftz a b = (hi, nv)

section
variable {f : Fmt} {ftz : Bool} {a b : Nat}

theorem minMax_of_nans (hx : (f.input ftz a).isNan = true) (hy : (f.input ftz b).isNan = true) :
    MinMaxIs f ftz a b f.cnan f.cnan := by
  simp only [MinMaxIs, fMinMax, hx, hy, if_true, and_self]

theorem minMax_of_nan_left (hx : (f.input ftz a).isNan = true) (hy : (f.input ftz b).isNan = false) :
    MinMaxIs f ftz a b (flushPat f ftz b) (flushPat f ftz b) := by
  simp only [MinMaxIs, fMinMax, hx, hy, Bool.false_eq_true, if_false, if_true, and_self]

theorem minMax_of_nan_right (hx : (f.input ftz a).isNan = false) (hy : (f.input ftz b).isNan = true) :
    MinMaxIs f ftz a b (flushPat f ftz a) (flushPat f ftz a) := by
  simp only [MinMaxIs, fMinMax, hx, hy, Bool.false_eq_true, if_false, if_true, and_self]

/-- Of two numbers the first is the smaller when it is below the second, or negative and not above it. -/
theorem minMax_of_numbers (hx : (f.input ftz a).isNan = false) (hy : (f.input ftz b).isNan = false) {first : Bool}
    (hfirst : (FV.lt (f.input ftz a) (f.input ftz b) || (!FV.lt (f.input ftz b) (f.input ftz a) && (f.input ftz a).neg)) = first) :
    if first then MinMaxIs f ftz a b (flushPat f ftz a) (flushPat f ftz b)
    else MinMaxIs f ftz a b (flushPat f ftz b) (flushPat f ftz a) := by
  simp only [MinMaxIs, fMinMax, hx, hy, hfirst, Bool.false_eq_true, if_false]
  cases first <;> exact ⟨rfl, rfl⟩

theorem minMax_of_lt (h : FV.lt (f.input ftz a) (f.input ftz b) = true) :
    MinMaxIs f ftz a b (flushPat f ftz a) (flushPat f ftz b) := by
  obtain ⟨hx, hy⟩ := FV.not_nan_of_lt h
  exact minMax_of_numbers (first := true) hx hy (by rw [h, Bool.true_or])

theorem minMax_of_gt (h : FV.lt (f.input ftz b) (f.input ftz a) = true) :
    MinMaxIs f ftz a b (flushPat f ftz b) (flushPat f ftz a) := by
  obtain ⟨hy, hx⟩ := FV.not_nan_of_lt h
  exact minMax_of_numbers (first := false) hx hy (by rw [FV.lt_asymm h, h]; rfl)

/-- -0 counts below +0. -/
theorem minMax_of_zeros {p q : Bool} (hx : f.input ftz a = .zero p) (hy : f.input ftz b = .zero q) :
    if p then MinMaxIs f ftz a b (flushPat f ftz a) (flushPat f ftz b)
    else MinMaxIs f ftz a b (flushPat f ftz b) (flushPat f ftz a) := by
  refine minMax_of_numbers (by rw [hx]; rfl) (by rw [hy]; rfl) ?_
  rw [hx, hy]
  rfl

end

/-! ## Splitting (08 R183) -/

theorem effVldexp_ctxAt (i : Instr) (opc sub n : Nat) (x : Ext) (t : Team) (s : State) :
    let c := ctxAt i opc sub n x t
    effVldexp c s = c.fpLanes s x.ty.wide (laneTag opc sub t x) (fun l =>
      fLdexp (sextN 32 (srcVal s t x x.b 32 l)) (tyFmt x.ty) (t.mode x.rnd) (x.bit 0) t.ftz
        ((fpElems1 s t x l).getD 0 0) 0 0) := by
  simp only [effVldexp, elems_ctxAt, opnd_ctxAt, ctxAt_x, ctxAt_t, tag_ctxAt]
  rfl

theorem effVsplit_ctxAt (op : FOp) (narrow : Bool) (i : Instr) (opc sub n : Nat) (x : Ext) (t : Team) (s : State) :
    let c := ctxAt i opc sub n x t
    effVsplit op narrow c s = c.fpLanes s (x.ty.wide && !narrow) (laneTag opc sub t x) (fun l =>
      op (tyFmt x.ty) .rne false t.ftz ((fpElems1 s t x l).getD 0 0) 0 0) := by
  simp only [effVsplit, elems_ctxAt, ctxAt_x, ctxAt_t, tag_ctxAt]
  rfl

section
variable {f : Fmt} {ftz : Bool} {a : Nat} (mode : Rnd) (sat : Bool) (b c : Nat)

/-- The format e2m1 has no NaN (04 R88). -/
theorem input_fmtE2_isNan : (fmtE2.input ftz a).isNan = false := by
  have hie : fmtE2.ieee = false := rfl
  have hfl : fmtE2.flush = false := rfl
  have hne : fmtE2 ≠ fmtE4 := by decide
  simp only [Fmt.input, hfl, Bool.and_false, Bool.false_and, Bool.false_eq_true, if_false, Fmt.value, hie, decide_eq_false hne]
  split
  · split <;> rfl
  · rfl

theorem round_of_input_nan {q : Bool} (h : f.input ftz a = .nan q) : f.round mode false false (.nan q) = (f.cnan, 0) := by
  refine if_neg ?_
  rintro rfl
  have hnan := input_fmtE2_isNan (ftz := ftz) (a := a)
  rw [h] at hnan
  cases hnan

theorem sigFlag_nan (q : Bool) : sigFlag [.nan q] = if q then fNV else 0 := by
  cases q <;> rfl

/-- The splitting instructions of a NaN: the canonical NaN or 0, and nv for a signalling one; `vclass` raises none (log 26). -/
theorem split_of_nan {q : Bool} (h : f.input ftz a = .nan q) :
    let nv := if q then fNV else 0
    fRint f mode sat ftz a b c = (f.cnan, nv) ∧ fFract f mode sat ftz a b c = (f.cnan, nv) ∧
    fFrexp false f mode sat ftz a b c = (f.cnan, nv) ∧ fFrexp true f mode sat ftz a b c = (0, nv) ∧
    fClass f mode sat ftz a b c = (if q then 1 else 2, 0) := by
  cases q <;> simp [fRint, fFract, fFrexp, fClass, h, roundWith, round_of_input_nan mode h, sigFlag_nan]

/-- A format with infinities rounds one to itself. -/
theorem round_inf_of_ieee (hf : f.ieee = true) (q : Bool) : f.round mode false false (.inf q) = (f.infBits q, 0) := by
  have h4 : f ≠ fmtE4 := by rintro rfl; cases hf
  have h2 : f ≠ fmtE2 := by rintro rfl; cases hf
  simp only [Fmt.round, h4, h2, Bool.false_eq_true, if_false]

theorem split_of_inf {q : Bool} (h : f.input ftz a = .inf q) :
    (f.ieee = true → fRint f mode sat ftz a b c = (f.infBits q, 0)) ∧ fFract f mode sat ftz a b c = (f.cnan, fNV) ∧
    fFrexp false f mode sat ftz a b c = (a, 0) ∧ fFrexp true f mode sat ftz a b c = (0, 0) ∧
    fClass f mode sat ftz a b c = (if q then 4 else 512, 0) := by
  cases q <;> simp +contextual [fRint, fFract, fFrexp, fClass, h, roundWith, round_inf_of_ieee mode, sigFlag, FV.isSig]

theorem split_of_zero {q : Bool} (h : f.input ftz a = .zero q) :
    fRint f mode sat ftz a b c = (f.signBits q, 0) ∧ fFract f mode sat ftz a b c = (0, 0) ∧
    fFrexp false f mode sat ftz a b c = (f.signBits q, 0) ∧ fFrexp true f mode sat ftz a b c = (0, 0) ∧
    fClass f mode sat ftz a b c = (if q then 32 else 64, 0) := by
  cases q <;> simp [fRint, fFract, fFrexp, fClass, h, roundWith, Fmt.round, sigFlag, FV.isSig]

section
variable {m e : Int} (h : f.input ftz a = .fin m e)
include h

/-- `vrint` rounds to an integer, keeps the sign of a zero and raises nx when it changes the value. -/
theorem fRint_of_fin : fRint f mode sat ftz a b c = (if (rndInt mode m e).1 = 0 then f.signBits (decide (m < 0))
    else (f.round .rne false false (.fin (rndInt mode m e).1 0)).1, if (rndInt mode m e).2 then 0 else fNX) := by
  simp only [fRint, h]
  split <;> rfl

/-- `vfract` takes the remainder below 1, and the number below 1.0 where it rounds to 1.0. -/
theorem fFract_of_fin :
    let r := m % (2 ^ (-e).toNat : Nat)
    let one := f.bias * 2 ^ f.mbits
    let y := f.round mode false ftz (.fin r e)
    fFract f mode sat ftz a b c =
      if 0 ≤ e ∨ r = 0 then (0, 0) else (if y.1 = one then one - 1 else y.1, y.2) := by
  simp only [fFract, h]
  by_cases he : 0 ≤ e
  · rw [if_pos he, if_pos (.inl he)]
  · simp only [he, false_or, if_false]

theorem fFrexp_of_fin (exp : Bool) :
    let k : Int := bitLen m.natAbs
    fFrexp exp f mode sat ftz a b c = (if exp then patN 32 (e + k) else (f.round .rne false false (.fin m (-k))).1, 0) := by
  simp only [fFrexp, h]

theorem fClass_of_fin : fClass f mode sat ftz a b c =
    (if f.subnormal a then (if m < 0 then 16 else 128) else if m < 0 then 8 else 256, 0) := by
  simp only [fClass, h]
  by_cases hs : f.subnormal a = true <;> by_cases hm : m < 0 <;> simp [hs, hm]

end

end

/-- Settles O12: the instructions issue the effects above; for one element, by the kind of the operand's value. -/
theorem floatSelectionAndSplitWriteTheirResult : Obligations.FloatSelectionAndSplitWriteTheirResult := by
  unfold Obligations.FloatSelectionAndSplitWriteTheirResult
  refine ⟨fpOp_of_effect (fun _ _ => rfl) (fun _ _ _ _ _ => effVfp_ctxAt fMin ..),
    fpOp_of_effect (fun _ _ => rfl) (fun _ _ _ _ _ => effVfp_ctxAt fMax ..),
    fpOp_of_effect (fun _ _ => rfl) (fun _ _ _ _ _ => effVfp_ctxAt fMed3 ..),
    fpOp_of_effect (fun _ _ => rfl) (fun _ _ _ _ _ => effVfp_ctxAt fRint ..),
    fpOp_of_effect (fun _ _ => rfl) (fun _ _ _ _ _ => effVfp_ctxAt fFract ..),
    fpOp_of_effect (fun _ _ => rfl) (fun _ _ _ _ _ => effVldexp_ctxAt ..),
    fpOp_of_effect (fun _ _ => rfl) (fun x _ _ _ _ => effVsplit_ctxAt (fFrexp (x.bit 7)) (x.bit 7) ..),
    fpOp_of_effect (fun _ _ => rfl) (fun _ _ _ _ _ => ?vclass),
    fpOp_of_effect (fun _ _ => rfl) (fun _ _ _ _ _ => effVfp_ctxAt fCopysign ..),
    fpOp_of_effect (fun _ _ => rfl) (fun _ _ _ _ _ => effVfp_ctxAt fMin ..),
    fpOp_of_effect (fun _ _ => rfl) (fun _ _ _ _ _ => effVfp_ctxAt fMax ..),
    fun f ftz a b => ⟨minMax_of_nans, minMax_of_nan_left, minMax_of_nan_right, minMax_of_lt, minMax_of_gt,
      fun p q hx hy _ => minMax_of_zeros hx hy⟩,
    fun f mode sat ftz a b c n => ⟨split_of_nan mode sat b c, split_of_inf mode sat b c, split_of_zero mode sat b c⟩,
    fun f mode sat ftz a b c m e h => ⟨fun hi => ?rint, fun hi => ?rintZero, fun hr => ?fract, fun he hr => ?fractPart,
      fFrexp_of_fin mode sat b c h true, fFrexp_of_fin mode sat b c h false, fClass_of_fin mode sat b c h⟩⟩
  case vclass => exact (effVsplit_ctxAt fClass true ..).trans (by rw [Bool.not_true, Bool.and_false])
  case rint => rw [fRint_of_fin mode sat b c h, if_neg hi]
  case rintZero => rw [fRint_of_fin mode sat b c h, if_pos hi]
  case fract => exact (fFract_of_fin mode sat b c h).trans (if_pos hr)
  case fractPart => exact (fFract_of_fin mode sat b c h).trans (if_neg (by omega))

end Sys2Proof.Machine
end

section
/-!
PROOFS. Conversion, packing and the dot instructions (08 R185-R187, R191, R192).
-/

namespace Sys2Proof.Machine

/-! ## Conversion and packing (08 R185-R187) -/

theorem baseExp_sc64_ctxAt (i : Instr) (opc sub n : Nat) (x : Ext) (t : Team) (s : State) (y : Src) :
    baseExp ((ctxAt i opc sub n x t).sc64 s y) = max (-1024) (min 1023 (srcScalar s t x y).toInt) := by
  rw [sc64_ctxAt, baseExp]

theorem runF32_ctxAt (i : Instr) (opc sub n : Nat) (x : Ext) (t : Team) (j l : Nat) :
    (ctxAt i opc sub n x t).runF32 j l = fmt32.input t.ftz (t.lane (x.a.code.toNat + j) l).toNat := rfl

/-- The lane result of `vpackn` (08 R186). -/
def vpacknLane (s : State) (t : Team) (x : Ext) (l : Nat) : Nat × Flg :=
  packFlags x.ty ((List.range x.ty.elems).map (fun j =>
    let v := fmt32.input t.ftz (t.lane (x.a.code.toNat + j) l).toNat
    let r := toTy x.ty.elem (t.mode x.rnd) (x.bit 0) t.ftz (v.scale (-(sextN 32 (srcVal s t x x.b 32 l))))
    (r.1, r.2 ||| sigFlag [v])))

theorem effVpackn_ctxAt (i : Instr) (opc sub n : Nat) (x : Ext) (t : Team) (s : State) :
    let c := ctxAt i opc sub n x t
    effVpackn c s = c.fpLanes s false (laneTag opc sub t x) (vpacknLane s t x) := by
  simp only [effVpackn, runF32_ctxAt, opnd_ctxAt, ctxAt_x, ctxAt_t, tag_ctxAt]
  rfl

/-- The lane result of `vquant` (08 R186). -/
def vquantLane (s : State) (t : Team) (x : Ext) (l : Nat) : Nat × Flg :=
  packFlags x.ty ((List.range x.ty.elems).map (fun j =>
    let v := fmt32.input t.ftz (t.lane (x.a.code.toNat + j) l).toNat
    let d := sextN 4 (srcVal s t x x.b 4 l)
    if d = -8 then (0, 0)
    else
      let r := toTy x.ty.elem (t.mode x.rnd) (x.bit 0) t.ftz
        (v.scale (-(max (-1024) (min 1023 (srcScalar s t x x.c).toInt) + d)))
      (r.1, r.2 ||| sigFlag [v])))

theorem effVquant_ctxAt (i : Instr) (opc sub n : Nat) (x : Ext) (t : Team) (s : State) :
    let c := ctxAt i opc sub n x t
    effVquant c s = c.fpLanes s false (laneTag opc sub t x) (vquantLane s t x) := by
  simp only [effVquant, baseExp_sc64_ctxAt, runF32_ctxAt, opnd_ctxAt, ctxAt_x, ctxAt_t, tag_ctxAt]
  rfl

/-- `vbscale` writes the block delta of the largest magnitude among the active lanes of the group (08 R187). -/
theorem effVbscale_ctxAt (i : Instr) (opc sub n : Nat) (x : Ext) (t : Team) (s : State) :
    let big (l : Nat) : FV := ((lanesOf (activeLanes t x)).filter (fun i => i / 2 ^ x.f 3 0 = l / 2 ^ x.f 3 0)).foldl
      (fun a i => magMax a (FV.mag (fmt32.input t.ftz (srcVal s t x x.a 32 i)))) (.zero false)
    effVbscale (ctxAt i opc sub n x t) s = .done (putLanes s t x false (fun l =>
      patN 32 (blockDelta x.ty (max (-1024) (min 1023 (srcScalar s t x x.b).toInt)) (big l))) (laneTag opc sub t x)) := by
  simp only [effVbscale, baseExp_sc64_ctxAt, opnd_ctxAt, ctxAt_x, ctxAt_t, tag_ctxAt, putV_ctxAt]
  rfl

/-- Settles O13: the conversions end in the flags of their lanes; `vunpackn` writes a run, and `vbscale` raises nothing. -/
theorem conversionsRoundOnceAndPack : Obligations.ConversionsRoundOnceAndPack := by
  unfold Obligations.ConversionsRoundOnceAndPack
  refine ⟨fpOp_of_effect (fun _ _ => rfl) (fun _ _ _ _ _ => effVcvt_ctxAt ..),
    fpOp_of_effect (fun _ _ => rfl) (fun _ _ _ _ _ => effVpackn_ctxAt ..),
    fpOp_of_effect (fun _ _ => rfl) (fun _ _ _ _ _ => effVquant_ctxAt ..), ?vunpackn, ?vbscale⟩
  case vunpackn =>
    intro x s t h one fl hoff
    exact exec_of_done (i := .vunpackn x) rfl h ((effVunpackn_ctxAt ..).trans (if_pos hoff))
  case vbscale =>
    intro x s t h e big
    exact exec_of_done (i := .vbscale x) rfl h (effVbscale_ctxAt ..)

/-! ## Dot products (08 R191, R192) -/

theorem effVdotInt_ctxAt (i : Instr) (opc sub n : Nat) (x : Ext) (t : Team) (s : State) :
    let dot (l : Nat) : Int := (List.range x.ty.elems).foldl (fun (r : Int) j =>
      r + intRead x.ty.elem (elemAt x.ty (srcVal s t x x.a 32 l) j) *
        intRead (mixElem (x.bit 0) x.ty.elem) (elemAt x.ty (srcVal s t x x.b 32 l) j)) (sextN 32 (srcVal s t x x.c 32 l))
    effVdotInt (ctxAt i opc sub n x t) s = .done (putLanes s t x false (fun l =>
      patN 32 (if x.bit 1 then min (2 ^ 31 - 1) (max (-(2 ^ 31)) (dot l)) else dot l)) (laneTag opc sub t x)) := by
  simp only [effVdotInt, opnd_ctxAt, ctxAt_x, ctxAt_t, tag_ctxAt, putV_ctxAt]

/-- The lane result of the floating dots (08 R192): the exact sum of the scaled products and C, rounded once. -/
def dotLane (s : State) (t : Team) (x : Ext) (l : Nat) : Nat × Flg :=
  let ps := (List.range x.ty.elems).map (fun j => ((tyFmt x.ty.elem).value (elemAt x.ty (srcVal s t x x.a 32 l) j)).mul
    ((tyFmt (mixElem (x.bit 0) x.ty.elem)).value (elemAt x.ty (srcVal s t x x.b 32 l) j)))
  let d := fmt32.input t.ftz (srcVal s t x x.c 32 l)
  let r := sumFV (t.mode x.rnd) (ps.map (fun p => p.1.scale (sextN 9 (x.f 10 2))) ++ [d])
  let y := fmt32.round (t.mode x.rnd) (x.bit 1) t.ftz r.1
  (y.1, y.2 ||| ps.foldl (fun a p => a ||| p.2) (r.2 ||| sigFlag [d]))

theorem effVdotF_ctxAt (i : Instr) (opc sub n : Nat) (x : Ext) (t : Team) (s : State) :
    let c := ctxAt i opc sub n x t
    effVdotF c s = c.fpLanes s false (laneTag opc sub t x) (dotLane s t x) := by
  simp only [effVdotF, opnd_ctxAt, ctxAt_x, ctxAt_t, tag_ctxAt]
  rfl

/-- Settles O14: the two integer dots share an effect, and the two floating ones another. -/
theorem dotProductsSumExactly : Obligations.DotProductsSumExactly := by
  unfold Obligations.DotProductsSumExactly
  refine ⟨?vdot8, ?vdot4, fpOp_of_effect (fun _ _ => rfl) (fun _ _ _ _ _ => effVdotF_ctxAt ..),
    fpOp_of_effect (fun _ _ => rfl) (fun _ _ _ _ _ => effVdotF_ctxAt ..)⟩
  case vdot8 =>
    intro x s t h ta dot
    exact exec_of_done (i := .vdot8 x) rfl h (effVdotInt_ctxAt ..)
  case vdot4 =>
    intro x s t h ta dot
    exact exec_of_done (i := .vdot4 x) rfl h (effVdotInt_ctxAt ..)

end Sys2Proof.Machine
end

section
/-!
PROOFS. Group vsfu (08 R188-R190, 06 R148): the functions that write at once, those that go into flight, and the end of a flight.
-/

namespace Sys2Proof.Machine

theorem code_tag_ctxAt (i : Instr) (opc sub n : Nat) (x : Ext) (t : Team) :
    (ctxAt i opc sub n x t).tag.code = match laneTag opc sub t x with
      | .uni => 0
      | .aff => 1
      | .gen => 2 := by
  rw [tag_ctxAt]
  cases laneTag opc sub t x <;> rfl

/-- A function that goes into flight (06 R148): the results of the active lanes under way, or nothing with no lane active. -/
theorem effLong_ctxAt (f : C → State → Nat → Nat × Flg) (i : Instr) (opc sub n : Nat) (x : Ext) (t : Team) (s : State) :
    let c := ctxAt i opc sub n x t
    let ls := lanesOf (activeLanes t x)
    effLong f c s = .done (if (activeLanes t x).any id then
      (c.launch s (ls.map (fun l => { lane := l, addr := 0, data := BitVec.ofNat 64 (f c s l).1, st := .ready [] })) []
        (0 :: c.tag.code :: ls.map (fun l => (f c s l).2)) (ls.any (fun l => enabled t.status (f c s l).2 ≠ 0))).post
          (.sfuComplete s.nextId) else s) := by
  intro c ls
  have hany : c.any = (activeLanes t x).any id := rfl
  have hls : c.actives = ls := rfl
  simp only [effLong, hany, hls, List.map_map, List.any_map]
  cases (activeLanes t x).any id <;> rfl

theorem longOp_of_effect {mk : Ext → Instr} {sub : Nat} {res : State → Team → Ext → Nat → Nat × Flg}
    {f : C → State → Nat → Nat × Flg} (hexec : ∀ x s, exec (mk x) s = issueExt (mk x) 0x46 sub x (effLong f) s)
    (hf : ∀ i n x t s l, f (ctxAt i 0x46 sub n x t) s l = res s t x l) : LongOp mk sub res := by
  intro x s t h ls g gate
  rw [exec_of_done (hexec x s) h (effLong_ctxAt f ..)]
  simp only [hf, code_tag_ctxAt]
  rfl

theorem roundedSfu_ctxAt (op : List FV → FV × Flg) (two : Bool) (i : Instr) (opc sub n : Nat) (x : Ext) (t : Team) (s : State)
    (l : Nat) : roundedSfu op two (ctxAt i opc sub n x t) s l = roundedOnce op two s t x l := by
  simp only [roundedSfu, opnd_ctxAt, ctxAt_x, ctxAt_t]
  rfl

/-- Settles O15: four functions issue `effSfu`, six `effLong`, whose flights SFU_COMPLETE ends. -/
theorem specialFunctionsAnswerOrFly : Obligations.SpecialFunctionsAnswerOrFly := by
  unfold Obligations.SpecialFunctionsAnswerOrFly
  refine ⟨fpOp_of_effect (fun _ _ => rfl) (fun _ _ _ _ _ => effSfu_ctxAt sRcp ..),
    fpOp_of_effect (fun _ _ => rfl) (fun _ _ _ _ _ => effSfu_ctxAt sRsq ..),
    fpOp_of_effect (fun _ _ => rfl) (fun _ _ _ _ _ => effSfu_ctxAt sEx2 ..),
    fpOp_of_effect (fun _ _ => rfl) (fun _ _ _ _ _ => effSfu_ctxAt sLg2 ..),
    longOp_of_effect (fun _ _ => rfl) (fun _ _ _ _ _ _ => roundedSfu_ctxAt ..),
    longOp_of_effect (fun _ _ => rfl) ?sin, longOp_of_effect (fun _ _ => rfl) ?cos, longOp_of_effect (fun _ _ => rfl) ?tanh,
    longOp_of_effect (fun _ _ => rfl) ?rot, longOp_of_effect (fun _ _ => rfl) (fun _ _ _ _ _ _ => roundedSfu_ctxAt ..),
    fun id s f hf hno => ?complete⟩
  case sin | cos | tanh | rot =>
    intro i n x t s l
    simp only [opnd_ctxAt, ctxAt_x, ctxAt_t]
  case complete =>
    intro fl all hoff
    have htrap (t : Team) : fpTrap { t with status := f.status } f.pc f.npc fl = none := if_pos hoff
    change execSfuComplete id s = _
    simp only [execSfuComplete, hf, htrap, Option.bind_fun_none, endFlight_of_noTrap hno, fl, all]

end Sys2Proof.Machine
end

section
/-!
PROOFS. Group reg (06 R154-R157): moves by a computed number whose registers are full, tags, and moves between the files.
-/

namespace Sys2Proof.Machine

/-! ## Moves by a computed number (06 R154) -/

theorem isEmpty_of_full {t : Team} {r : Bool × Nat} (h : (if r.1 then (t.vreg r.2).full else t.sfull r.2) = true) :
    t.isEmpty r = false := by
  rw [Team.isEmpty, h]
  rfl

/-- A scalar whose computed number names a full register does not wait. -/
theorem noWait_of_sfull {i : Instr} {opc sub n k : Nat} {x : Ext} {t : Team} {s : State} (hsc : x.bit 8 = true)
    (hk : k = (srcScalar s t x x.a).toNat + x.f 7 0) (hfull : t.sfull k = true) :
    (!(ctxAt i opc sub n x t).skipped && !(ctxAt i opc sub n x t).idxFull s) = false := by
  have hempty : t.isEmpty (false, k) = false := isEmpty_of_full hfull
  rw [hk] at hempty
  simp [C.idxFull, regIdx_ctxAt, hsc, hempty]

/-- Vector registers that the computed number names do not make the move wait when they are full, nor when all passes are
skipped. -/
theorem noWait_of_vfull {i : Instr} {opc sub n k : Nat} {x : Ext} {t : Team} {s : State} (hvec : x.bit 8 = false)
    (hrow : (rowOf t.width opc sub x).v = true) (hk : k = (srcScalar s t x x.a).toNat + x.f 7 0)
    (hlow : t.msum ≠ 0 → (t.vreg k).full = true) (hhigh : t.msum ≠ 0 → x.ty.wide = true → (t.vreg (k + 1)).full = true) :
    (!(ctxAt i opc sub n x t).skipped && !(ctxAt i opc sub n x t).idxFull s) = false := by
  by_cases hm : t.msum = 0
  case pos =>
    have hskip : (ctxAt i opc sub n x t).skipped = true := by simp [C.skipped, ctxAt, hrow, hm]
    rw [hskip]
    rfl
  case neg =>
    have h0 : t.isEmpty (true, k) = false := isEmpty_of_full (hlow hm)
    have h1 (hw : x.ty.wide = true) : t.isEmpty (true, k + 1) = false := isEmpty_of_full (hhigh hm hw)
    rw [hk] at h0 h1
    cases hw : x.ty.wide
    · simp [C.idxFull, regIdx_ctxAt, hvec, hw, h0]
    · simp [C.idxFull, regIdx_ctxAt, hvec, hw, h0, h1 hw, List.range_succ]

section
variable {i : Instr} {sub n k : Nat} {x : Ext} {t : Team} {s : State}

theorem effRmovx_scalar (hsc : x.bit 8 = true) (hk : k = (srcScalar s t x x.a).toNat + x.f 7 0) (hlim : k < 128)
    (hfull : t.sfull k = true) : effRmovx (ctxAt i 0x59 sub n x t) s =
      .done (if t.go x.g x.neg then putScalar s t x.d (t.sval k) else s) := by
  have hbad := regIdxBad_ctxAt (i := i) (opc := 0x59) (sub := sub) (n := n) hk (by rw [if_pos hsc]; exact hlim) 1
  simp only [effRmovx, hbad, noWait_of_sfull hsc hk hfull, ctxAt_x, ctxAt_t, ctxAt_go, hsc, regIdx_ctxAt, ← hk, putS_ctxAt,
    Bool.false_eq_true, if_false, if_true]
  split <;> rfl

theorem effRstx_scalar (hsc : x.bit 8 = true) (hk : k = (srcScalar s t x x.a).toNat + x.f 7 0) (hlim : k < 128)
    (hfull : t.sfull k = true) : effRstx (ctxAt i 0x59 sub n x t) s =
      .done (if t.go x.g x.neg then s.onTeam t.uid (fun u => u.setS k (srcScalar s t x x.b)) else s) := by
  have hbad := regIdxBad_ctxAt (i := i) (opc := 0x59) (sub := sub) (n := n) hk (by rw [if_pos hsc]; exact hlim) 0
  simp only [effRstx, hbad, noWait_of_sfull hsc hk hfull, ctxAt_x, ctxAt_t, ctxAt_go, hsc, regIdx_ctxAt, ← hk, sc64_ctxAt,
    Bool.false_eq_true, if_false, if_true]
  split <;> rfl

/-- What the two vector moves ask of their computed number. -/
structure VectorIndex (s : State) (t : Team) (x : Ext) (k : Nat) : Prop where
  vec : x.bit 8 = false
  eq : k = (srcScalar s t x x.a).toNat + x.f 7 0
  lim : k < t.nv
  pair : x.ty.wide = true → k % 2 = 0 ∧ k + 1 < t.nv
  low : t.msum ≠ 0 → (t.vreg k).full = true
  high : t.msum ≠ 0 → x.ty.wide = true → (t.vreg (k + 1)).full = true

theorem VectorIndex.regIdxBad (h : VectorIndex s t x k) (opc pos : Nat) : (ctxAt i opc sub n x t).regIdxBad s pos = none :=
  regIdxBad_ctxAt h.eq (by rw [h.vec]; exact ⟨h.lim, h.pair⟩) pos

theorem effRmovx_vector (h : VectorIndex s t x k) : effRmovx (ctxAt i 0x59 0 n x t) s =
    .done (s.onTeam t.uid (fun u => copyRegs t u (activeLanes t x) x.d.toNat k (nOf x.ty))) := by
  have hrow : (rowOf t.width 0x59 0 x).v = true := by simp [rowOf, rowReg, h.vec]
  simp only [effRmovx, h.regIdxBad, noWait_of_vfull h.vec hrow h.eq h.low h.high, ctxAt_x, ctxAt_t, ctxAt_act, h.vec,
    regIdx_ctxAt, ← h.eq, Bool.false_eq_true, if_false]

theorem effRstx_vector (h : VectorIndex s t x k) : effRstx (ctxAt i 0x59 1 n x t) s =
    .done (s.onTeam t.uid (fun u => copyRegs t u (activeLanes t x) k x.b.code.toNat (nOf x.ty))) := by
  have hrow : (rowOf t.width 0x59 1 x).v = true := by simp [rowOf, rowReg, h.vec]
  simp only [effRstx, h.regIdxBad, noWait_of_vfull h.vec hrow h.eq h.low h.high, ctxAt_x, ctxAt_t, ctxAt_act, h.vec,
    regIdx_ctxAt, ← h.eq, Bool.false_eq_true, if_false]

end

/-! ## Tags, the keep range and moves between the files (06 R155-R157) -/

theorem effShape_ctxAt (i : Instr) (opc sub n : Nat) (x : Ext) (t : Team) (s : State) :
    effShape (ctxAt i opc sub n x t) s = .done (if (activeLanes t x).any id then
      s.onTeam t.uid (fun u => { u with v := u.v.modify x.d.toNat (fun q =>
        { q with tag := if x.f 1 0 = 1 then .gen else packTag (t.vreg x.d.toNat) }) }) else s) := by
  have hany : (ctxAt i opc sub n x t).any = (activeLanes t x).any id := rfl
  rw [effShape, hany]
  cases (activeLanes t x).any id <;> rfl

/-- A scalar instruction that executes has its effect, and another has none (02 R44). -/
theorem onGo_done {c : C} {f : C → State → Eff} {s s' : State} (h : f c s = .done s') :
    onGo f c s = .done (if c.go then s' else s) := by
  rw [onGo, h]
  split <;> rfl

theorem effRkeep_of_keep {i : Instr} {opc sub n : Nat} {x : Ext} {t : Team} {s : State} {l : Launch} {h : Header}
    (hl : s.launch? t.launch = some l) (hh : l.hdr = some h) (hk : h.keep ≠ none) : effRkeep (ctxAt i opc sub n x t) s =
      .done (s.onTeam t.uid (fun u => { u with armed := !x.bit 0 })) := by
  obtain ⟨k, hk⟩ := Option.ne_none_iff_exists'.mp hk
  simp only [effRkeep, ctxAt_t, ctxAt_x, hl, hh, hk, Option.bind_some]

theorem effVbcs_ctxAt (i : Instr) (opc sub n : Nat) (x : Ext) (t : Team) (s : State) :
    effVbcs (ctxAt i opc sub n x t) s = .done (putLanes s t x x.ty.wide (srcVal s t x x.a 64) .uni) := by
  have hlanes : (ctxAt i opc sub n x t).lanes s x.a 64 = t.laneIxs.map (srcVal s t x x.a 64) :=
    List.map_congr_left (fun l _ => opnd_ctxAt ..)
  simp only [effVbcs, ctxAt_x, hlanes, putV_ctxAt]

theorem effVext_ctxAt (i : Instr) (opc sub n : Nat) (x : Ext) (t : Team) (s : State) :
    let v := srcVal s t x x.a x.ty.width ((srcScalar s t x x.b).toNat % t.width)
    effVext (ctxAt i opc sub n x t) s = .done (putScalar s t x.d
      (if x.ty = .i32 then BitVec.ofInt 64 (sextN 32 v) else BitVec.ofNat 64 v)) := by
  simp only [effVext, sc64_ctxAt, opnd_ctxAt, ctxAt_x, ctxAt_t, putS_ctxAt]

/-- Settles O10: each instruction issues its effect above; the moves neither trap nor wait under their hypotheses. -/
theorem registerMovesAndTagsFollowR154 : Obligations.RegisterMovesAndTagsFollowR154 := by
  unfold Obligations.RegisterMovesAndTagsFollowR154
  refine ⟨?rmovxScalar, ?rmovxVector, ?rstxScalar, ?rstxVector, fun x s t h => exec_of_done rfl h (effShape_ctxAt ..),
    fun x s t h => exec_of_done (i := .shqry x) rfl h (onGo_done rfl),
    fun x s t l hd h hl hh hk => exec_of_done (i := .rkeep x) rfl h (onGo_done (effRkeep_of_keep hl hh hk)),
    fun x s t h => exec_of_done rfl h (effVbcs_ctxAt ..), ?vext⟩
  case rmovxScalar =>
    intro x s t h hsc i hlim hfull
    exact exec_of_done (i := .rmovx x) rfl h (effRmovx_scalar hsc rfl hlim hfull)
  case rstxScalar =>
    intro x s t h hsc i hlim hfull
    exact exec_of_done (i := .rstx x) rfl h (effRstx_scalar hsc rfl hlim hfull)
  case rmovxVector =>
    intro x s t h hvec i hlim hpair hlow hhigh
    exact exec_of_done (i := .rmovx x) rfl h (effRmovx_vector ⟨hvec, rfl, hlim, hpair, hlow, hhigh⟩)
  case rstxVector =>
    intro x s t h hvec i hlim hpair hlow hhigh
    exact exec_of_done (i := .rstx x) rfl h (effRstx_vector ⟨hvec, rfl, hlim, hpair, hlow, hhigh⟩)
  case vext =>
    intro x s t h v
    exact exec_of_done (i := .vext x) rfl h (onGo_done (effVext_ctxAt ..))

end Sys2Proof.Machine
end

section
/-!
PROOFS. Memory instructions at issue (06 R148, 09 R221, 11 R258): a `red` in a declared range takes a trap (14 R320), so that its
issue does not only give up its lanes.
-/

namespace Sys2Proof.Machine

/-- A team with lane 0 on whose open task has acquired the set of the first 64 bytes, of which the undo log holds a record. -/
def setTeam : Team :=
  { placeTeam with
    s := { val := 1, full := true } :: List.replicate 127 { val := 0, full := true },
    task := some { age := 1, queue := 0, entry := [], dst := 0, restart := 0, restarts := 0, deferred := [], logged := [0],
                   declared := true },
    sets := [{ st := .acquired, base := 0, len := 64 }] }

/-- A device with that team, which is the current one. -/
def setState : State := { State.reset with teams := [setTeam], cur := 1 }

/-- `red.add.i32` of v0 to address 0 in the active lanes. -/
def redInSet : Ext :=
  { neg := false, g := 23, rnd := .rs, ty := .i32, d := 0, a := { cls := .sc, code := 224, trp := false }, b := Src.none,
    c := { cls := .vec, code := 0, trp := false }, x24 := 0, lit := none }

/-- The current team issues it, with its address in a set that is acquired and no line left to record. -/
theorem redInSet_issues : Issues 0x4B 1 redInSet setState setTeam := by decide +kernel

/-- Its lanes with their addresses. -/
def redInSetLanes : List (Nat × Nat) :=
  laneAddrs (fun s t x l => memAddr s t x (x.bit 12) false (x.f 14 13) (sextN 12 (x.f 11 0)) l) false setState setTeam redInSet

theorem redInSet_memIssues : MemIssues setState setTeam redInSet false redInSetLanes := by decide +kernel

theorem redInSet_logged : ∀ p ∈ redInSetLanes, setTeam.unlogged p.2 (redInSet.ty.width / 8) = [] := by decide

/-- It takes trap 0x0807, and a team without a trap vector stops there. -/
theorem redInSet_stops : ∃ s' u, exec (.red redInSet) setState = .next s' ∧ s'.team? 1 = some u ∧ u.run = .stopped :=
  ⟨_, _, rfl, rfl, rfl⟩

/-- The clause of the statement on `red` fails. -/
theorem not_redKept (sD vD : Ext → Nat → Bool) : ¬ MemKept Instr.red id 0x4B 1 false
    (fun s t x l => memAddr s t x (x.bit 12) false (x.f 14 13) (sextN 12 (x.f 11 0)) l) (fun _ => false) sD vD := by
  intro h
  obtain ⟨s', u, hexec, hu, hstopped⟩ := redInSet_stops
  obtain ⟨-, -, u', hu', hsame, -⟩ :=
    h redInSet setState setTeam s' redInSet_issues redInSet_memIssues rfl redInSet_logged hexec
  have hrun : u'.run = setTeam.run := by rw [hsame]
  rw [Option.some.inj (hu'.symm.trans hu), hstopped] at hrun
  exact absurd hrun (by decide)

/-- Refutes O55: a `red` whose address lies in a declared range takes the trap 0x0807 of 14 R320, also where the set is acquired and
the line has its record, which the statement allows. In `setState` the team has no trap vector, so that it stops, while the
statement keeps the run state of the team. -/
theorem not_memoryInstructionsLeaveRegistersAndMemory : ¬ Obligations.MemoryInstructionsLeaveRegistersAndMemory := by
  intro h
  obtain ⟨-, -, -, -, -, -, -, -, hred, -⟩ := h
  exact not_redKept _ _ hred

end Sys2Proof.Machine
end

section
/-!
PROOFS. Scalar test, select and move (07 R168, 03 R79) and the two scalar results of group mask (05 R136): the value that each of them
writes to sD where it executes (02 R44).
-/

namespace Sys2Proof.Machine

/-- The condition codes of `scmp`, with 5 and above read as `ge`, are those of R158. -/
theorem condInt_eq_intCompare (cc : Nat) (a b : Int) : condInt cc a b = intCompare cc a b := by
  match cc with
  | 0 | 1 | 2 | 3 | 4 | _ + 5 => rfl

theorem effScmp_ctxAt (i : Instr) (opc sub n : Nat) (x : Ext) (t : Team) (s : State) :
    effScmp (ctxAt i opc sub n x t) s = .done (putScalar s t x.d
      (if intCompare (x.f 2 0) (intRead x.ty (srcVal s t x x.a x.ty.width 0)) (intRead x.ty (srcVal s t x x.b x.ty.width 0))
        then 1 else 0)) := by
  simp only [effScmp, condInt_eq_intCompare, opnd_ctxAt, ctxAt_x, putS_ctxAt]

theorem effSsel_ctxAt (i : Instr) (opc sub n : Nat) (x : Ext) (t : Team) (s : State) :
    effSsel (ctxAt i opc sub n x t) s = .done (putScalar s t x.d
      (if srcScalar s t x x.c ≠ 0 then srcScalar s t x x.a else srcScalar s t x x.b)) := by
  simp only [effSsel, sc64_ctxAt, ctxAt_x, putS_ctxAt]

/-- The one source of a scalar one-word form is its literal, or else its scalar code, all 64 bits of it (03 R77). -/
theorem srcScalar_shortOne (y : Short) (ty : Ty) (t : Team) (s : State) :
    srcScalar s t (shortOne y .sc ty) (shortOne y .sc ty).a = match y.lit with
      | some l => l
      | none => scalarCode s t y.a.toNat := by
  have hword (v : Word64) : BitVec.ofNat 64 (v.toNat % 2 ^ 64) = v := by
    rw [Nat.mod_eq_of_lt v.isLt, BitVec.ofNat_toNat, BitVec.setWidth_eq]
  obtain ⟨neg, g, d, a, fa, lit⟩ := y
  cases lit with
  | none => exact hword (scalarCode s t a.toNat)
  | some l => exact hword l

theorem effSmov_ctxAt (i : Instr) (opc sub n : Nat) (y : Short) (t : Team) (s : State) :
    effSmov (ctxAt i opc sub n (shortOne y .sc .b64) t) s = .done (putScalar s t y.d (match y.lit with
      | some l => l
      | none => scalarCode s t y.a.toNat)) := by
  rw [effSmov, ctxAt_x, sc64_ctxAt, srcScalar_shortOne, putS_ctxAt]
  rfl

/-- Settles O2: each instruction is a scalar one (`onGo_done`) whose effect writes sD; `effMpop` and `effMfirst` count and find
the lanes as the statement writes it. -/
theorem scalarTestAndMoveWriteTheirResult : Obligations.ScalarTestAndMoveWriteTheirResult := by
  unfold Obligations.ScalarTestAndMoveWriteTheirResult
  refine ⟨?scmp, ?ssel, ?smov, ?mpop, ?mfirst⟩
  case scmp => exact scalarOp_of_effect (fun _ _ => rfl) (effScmp_ctxAt · 0x42 18)
  case ssel => exact fun x s t h => exec_of_done (i := .ssel x) rfl h (onGo_done (effSsel_ctxAt ..))
  case smov => exact fun y s t h => exec_of_done (i := .smov y) rfl h (onGo_done (effSmov_ctxAt ..))
  case mpop => exact fun x s t h => exec_of_done (i := .mpop x) rfl h (onGo_done rfl)
  case mfirst => exact fun x s t h => exec_of_done (i := .mfirst x) rfl h (onGo_done rfl)

end Sys2Proof.Machine
end

section
/-!
PROOFS. What each function of the model does to device memory (log 4): most leave it alone (`f_mem`), the others keep its canonical
form (`f_wf`), since they change it by `State.apply` only. The lemmas stand in the order of the model's files, each by those of the
functions that it calls, up to the step of the device.
-/

namespace Sys2Proof.Machine

/-! ## The memory of an answer -/

/-- The state that an effect leaves. -/
def Eff.state : Eff → State
  | .done s => s
  | .jump s _ => s
  | .wait s => s
  | .trap s _ => s

@[simp] theorem Eff.state_done (s : State) : (Eff.done s).state = s := rfl
@[simp] theorem Eff.state_jump (s : State) (pc : Word64) : (Eff.jump s pc).state = s := rfl
@[simp] theorem Eff.state_wait (s : State) : (Eff.wait s).state = s := rfl
@[simp] theorem Eff.state_trap (s : State) (tr : Trap) : (Eff.trap s tr).state = s := rfl

/-- Whether the memory of an outcome, where it has one, is canonical. -/
def OutWf : Out → Prop
  | .next s => s.mem.wf = true
  | .fault _ => True
  | .refused _ => True

@[simp] theorem outWf_next (s : State) : OutWf (.next s) = (s.mem.wf = true) := rfl
@[simp] theorem outWf_fault (f : Fault) : OutWf (.fault f) = True := rfl
@[simp] theorem outWf_refused (r : Refusal) : OutWf (.refused r) = True := rfl

/-- Whether the memory of what an engine found for a lane, where it has one, is canonical. -/
def Found.Wf : Found → Prop
  | .done s => s.mem.wf = true
  | .held s => s.mem.wf = true
  | .bad s _ _ _ => s.mem.wf = true
  | .meets _ _ => True
  | .stops s _ _ => s.mem.wf = true
  | .later s => s.mem.wf = true

@[simp] theorem Found.wf_done (s : State) : (Found.done s).Wf = (s.mem.wf = true) := rfl
@[simp] theorem Found.wf_held (s : State) : (Found.held s).Wf = (s.mem.wf = true) := rfl
@[simp] theorem Found.wf_bad (s : State) (code sub addr : Nat) : (Found.bad s code sub addr).Wf = (s.mem.wf = true) := rfl
@[simp] theorem Found.wf_meets (va : Nat) (e : Tr) : (Found.meets va e).Wf = True := rfl
@[simp] theorem Found.wf_stops (s : State) (va : Nat) (e : Tr) : (Found.stops s va e).Wf = (s.mem.wf = true) := rfl
@[simp] theorem Found.wf_later (s : State) : (Found.later s).Wf = (s.mem.wf = true) := rfl

/-! ## Conditionals, folds and writes -/

@[simp] theorem ite_mem (p : Prop) [Decidable p] (a b : State) : (if p then a else b).mem = if p then a.mem else b.mem :=
  apply_ite ..

@[simp] theorem ite_state (p : Prop) [Decidable p] (a b : Eff) :
    (if p then a else b).state = if p then a.state else b.state := apply_ite ..

@[simp] theorem ite_outWf (p : Prop) [Decidable p] (a b : Out) :
    OutWf (if p then a else b) = if p then OutWf a else OutWf b := apply_ite ..

@[simp] theorem ite_wf (p : Prop) [Decidable p] (a b : Memory) : (if p then a else b).wf = if p then a.wf else b.wf :=
  apply_ite ..

@[simp] theorem setAll_wf {m : Memory} (cs : List (Nat × Byte)) (h : m.wf = true) : (m.setAll cs).wf = true :=
  Memory.wf_setAll m cs h

theorem foldl_wf {α : Type} (g : State → α → State) (h : ∀ s a, s.mem.wf = true → (g s a).mem.wf = true) (l : List α)
    (s : State) (hs : s.mem.wf = true) : (l.foldl g s).mem.wf = true := by
  induction l generalizing s with
  | nil => exact hs
  | cons a l ih => exact ih _ (h s a hs)

@[simp] theorem foldl_post_mem {α : Type} (e : State → α → Ev) (l : List α) (s : State) :
    (l.foldl (fun s a => s.post (e s a)) s).mem = s.mem := foldl_mem _ (fun _ _ => State.post_mem _ _) l s

@[simp] theorem foldl_onTeam_mem {α : Type} (u : State → α → Nat) (f : State → α → Team → Team) (l : List α) (s : State) :
    (l.foldl (fun s a => s.onTeam (u s a) (f s a)) s).mem = s.mem := foldl_mem _ (fun _ _ => State.onTeam_mem _ _ _) l s

@[simp] theorem foldl_onCore_mem {α : Type} (n : State → α → Nat) (f : State → α → Core → Core) (l : List α) (s : State) :
    (l.foldl (fun s a => s.onCore (n s a) (f s a)) s).mem = s.mem := foldl_mem _ (fun _ _ => State.onCore_mem _ _ _) l s

@[simp] theorem foldl_onQueue_mem {α : Type} (n : State → α → Nat) (f : State → α → Queue → Queue) (l : List α) (s : State) :
    (l.foldl (fun s a => s.onQueue (n s a) (f s a)) s).mem = s.mem := foldl_mem _ (fun _ _ => State.onQueue_mem _ _ _) l s

/-! ## Ops -/

@[simp] theorem sliceDrop_mem (s : State) (key : Nat) : (sliceDrop s key).mem = s.mem := by rfl

@[simp] theorem State.postOnce_mem (s : State) (e : Ev) : (State.postOnce s e).mem = s.mem := by
  grind [State.postOnce, State.post_mem]

@[simp] theorem writeUpto_wf (s : State) (core ctx va : Nat) (bs : List Byte) (hm : s.mem.wf = true) :
    (writeUpto s core ctx va bs).1.mem.wf = true := by
  grind [writeUpto, writeVA_wf]

@[simp] theorem l1Drop_mem (s : State) (core : Nat) : (l1Drop s core).mem = s.mem := by rfl

@[simp] theorem texDrop_mem (s : State) (core : Nat) : (texDrop s core).mem = s.mem := by rfl

@[simp] theorem acqDrop_mem (s : State) (core : Nat) : (acqDrop s core).mem = s.mem := by rfl

@[simp] theorem texDropKeys_mem (s : State) (core : Nat) (keys : List Nat) : (texDropKeys s core keys).mem = s.mem := by rfl

@[simp] theorem texFetch_mem (s : State) (core key : Nat) : (texFetch s core key).mem = s.mem := by
  simp [texFetch]

@[simp] theorem l1DropLine_mem (s : State) (core key : Nat) : (l1DropLine s core key).mem = s.mem := by rfl

@[simp] theorem dropCopies_mem (s : State) (segs : List Seg) : (dropCopies s segs).mem = s.mem := by rfl

@[simp] theorem l1Store_mem (s : State) (core : Nat) (cells : List (Nat × Byte)) : (l1Store s core cells).mem = s.mem := by
  rfl

@[simp] theorem fillDst_mem (s : State) (f : Flight) : (fillDst s f).mem = s.mem := by rfl

@[simp] theorem raise_mem (s : State) (u : Nat) (again : Bool) (tr : Trap) : (raise s u again tr).mem = s.mem := by rfl

@[simp] theorem addPending_mem (s : State) (u : Nat) (tr : Trap) : (addPending s u tr).mem = s.mem := by rfl

@[simp] theorem raiseVec_mem (s : State) (n : Nat) : (raiseVec s n).mem = s.mem := by rfl

/-! ## Operands -/

@[simp] theorem C.putV_mem (c : C) (s : State) (wide : Bool) (vals : List Nat) (tag : Tag) :
    (C.putV c s wide vals tag).mem = s.mem := by rfl

@[simp] theorem C.putS_mem (c : C) (s : State) (x : Word64) : (C.putS c s x).mem = s.mem := by rfl

@[simp] theorem endIssue_mem (s : State) (c : C) (pc : Word64) : (endIssue s c pc).mem = s.mem := by
  unfold endIssue
  split <;> simp

@[simp] theorem onGo_wf {f : C → State → Eff} {c : C} {s : State} (hm : s.mem.wf = true) (hf : (f c s).state.mem.wf = true) :
    (onGo f c s).state.mem.wf = true := by
  unfold onGo
  split
  · exact hf
  · exact hm

@[simp] theorem C.fpDone_mem (c : C) (s : State) (fl : List (Nat × Flg)) : (C.fpDone c s fl).state.mem = s.mem := by
  unfold C.fpDone
  split <;> simp

@[simp] theorem C.launch_mem (c : C) (s : State) (lanes : List LaneReq) (snap aux : List Nat) (gate : Bool) :
    (C.launch c s lanes snap aux gate).mem = s.mem := by rfl

/-! ## Fetch -/

@[simp] theorem icacheAdd_mem (s : State) (core key : Nat) : (icacheAdd s core key).mem = s.mem := by
  simp [icacheAdd]

@[simp] theorem icacheFill_mem (s : State) (core : Nat) (segs : List Seg) : (icacheFill s core segs).mem = s.mem := by
  simp [icacheFill, foldl_mem]

@[simp] theorem fetchFill_mem (s : State) (t : Team) : (fetchFill s t).mem = s.mem := by
  simp [fetchFill]

@[simp] theorem fetchTrap_mem (s : State) (t : Team) (code sub addr : Nat) : (fetchTrap s t code sub addr).mem = s.mem := by
  simp [fetchTrap]

@[simp] theorem execInstructionFetch_wf (u : Nat) (s : State) (hm : s.mem.wf = true) : OutWf (execInstructionFetch u s) := by
  unfold execInstructionFetch
  dsimp only
  repeat' split
  all_goals simp [hm]

/-! ## Int -/

@[simp] theorem effSalu_mem (op : IntOp) (c : C) (s : State) : (effSalu op c s).state.mem = s.mem := by rfl

@[simp] theorem effSbfi_mem (c : C) (s : State) : (effSbfi c s).state.mem = s.mem := by rfl

@[simp] theorem effSsel_mem (c : C) (s : State) : (effSsel c s).state.mem = s.mem := by rfl

@[simp] theorem effScmp_mem (c : C) (s : State) : (effScmp c s).state.mem = s.mem := by rfl

@[simp] theorem effSdiv_mem (c : C) (s : State) : (effSdiv c s).state.mem = s.mem := by rfl

@[simp] theorem effSmov_mem (c : C) (s : State) : (effSmov c s).state.mem = s.mem := by rfl

@[simp] theorem effVint_wf (op : IntOp) (sat : Bool) (tag : C → State → Tag) (c : C) (s : State) (hm : s.mem.wf = true) :
    (effVint op sat tag c s).state.mem.wf = true := by
  simp [effVint, hm]

@[simp] theorem effV3_mem (f : Ty → Nat → Nat → Nat → Nat) (c : C) (s : State) : (effV3 f c s).state.mem = s.mem := by rfl

@[simp] theorem effVilv_mem (c : C) (s : State) : (effVilv c s).state.mem = s.mem := by rfl

@[simp] theorem effVdil_mem (c : C) (s : State) : (effVdil c s).state.mem = s.mem := by rfl

@[simp] theorem effVlaneid_mem (c : C) (s : State) : (effVlaneid c s).state.mem = s.mem := by rfl

@[simp] theorem effVaddc_mem (c : C) (s : State) : (effVaddc c s).state.mem = s.mem := by rfl

@[simp] theorem effVmov_mem (c : C) (s : State) : (effVmov c s).state.mem = s.mem := by rfl

/-! ## Float -/

@[simp] theorem C.fpLanes_mem (c : C) (s : State) (wide : Bool) (tag : Tag) (f : Nat → Nat × Flg) :
    (C.fpLanes c s wide tag f).state.mem = s.mem := by
  simp [C.fpLanes]

@[simp] theorem effVfp_mem (op : FOp) (c : C) (s : State) : (effVfp op c s).state.mem = s.mem := by
  simp [effVfp]

@[simp] theorem effVldexp_mem (c : C) (s : State) : (effVldexp c s).state.mem = s.mem := by
  simp [effVldexp]

@[simp] theorem effVsplit_mem (op : FOp) (narrow : Bool) (c : C) (s : State) :
    (effVsplit op narrow c s).state.mem = s.mem := by
  simp [effVsplit]

@[simp] theorem effVfrexp_mem (c : C) (s : State) : (effVfrexp c s).state.mem = s.mem := by
  simp [effVfrexp]

@[simp] theorem effVcvt_mem (c : C) (s : State) : (effVcvt c s).state.mem = s.mem := by
  simp [effVcvt]

@[simp] theorem effVpackn_mem (c : C) (s : State) : (effVpackn c s).state.mem = s.mem := by
  simp [effVpackn]

@[simp] theorem effVquant_mem (c : C) (s : State) : (effVquant c s).state.mem = s.mem := by
  simp [effVquant]

@[simp] theorem effVunpackn_mem (c : C) (s : State) : (effVunpackn c s).state.mem = s.mem := by
  simp [effVunpackn]

@[simp] theorem effVbscale_mem (c : C) (s : State) : (effVbscale c s).state.mem = s.mem := by rfl

@[simp] theorem effVdotInt_mem (c : C) (s : State) : (effVdotInt c s).state.mem = s.mem := by rfl

@[simp] theorem effVdotF_mem (c : C) (s : State) : (effVdotF c s).state.mem = s.mem := by
  simp [effVdotF]

/-! ## Lanes -/

@[simp] theorem effVcmp_mem (c : C) (s : State) : (effVcmp c s).state.mem = s.mem := by rfl

@[simp] theorem effPlog_mem (c : C) (s : State) : (effPlog c s).state.mem = s.mem := by rfl

@[simp] theorem effPset_mem (c : C) (s : State) : (effPset c s).state.mem = s.mem := by rfl

@[simp] theorem effShuf_mem (k : Shuf) (tag : C → Tag) (c : C) (s : State) : (effShuf k tag c s).state.mem = s.mem := by rfl

@[simp] theorem effVote_mem (c : C) (s : State) : (effVote c s).state.mem = s.mem := by rfl

@[simp] theorem effReduce_mem (c : C) (s : State) : (effReduce c s).state.mem = s.mem := by
  simp [effReduce]

@[simp] theorem effScan_mem (c : C) (s : State) : (effScan c s).state.mem = s.mem := by
  simp [effScan]

@[simp] theorem effRmovx_mem (c : C) (s : State) : (effRmovx c s).state.mem = s.mem := by
  unfold effRmovx
  split <;> simp

@[simp] theorem effRstx_mem (c : C) (s : State) : (effRstx c s).state.mem = s.mem := by
  unfold effRstx
  split <;> simp

@[simp] theorem effShape_mem (c : C) (s : State) : (effShape c s).state.mem = s.mem := by
  simp [effShape]

@[simp] theorem effShqry_mem (c : C) (s : State) : (effShqry c s).state.mem = s.mem := by rfl

@[simp] theorem effRkeep_mem (c : C) (s : State) : (effRkeep c s).state.mem = s.mem := by
  unfold effRkeep
  split <;> simp

@[simp] theorem effVbcs_mem (c : C) (s : State) : (effVbcs c s).state.mem = s.mem := by rfl

@[simp] theorem effVext_mem (c : C) (s : State) : (effVext c s).state.mem = s.mem := by rfl

/-! ## Ldst -/

@[simp] theorem startAcquire_mem (s : State) (u k : Nat) : (startAcquire s u k).mem = s.mem := by
  simp [startAcquire]

@[simp] theorem shareWait_mem (s : State) (flight write : Nat) : (shareWait s flight write).mem = s.mem := by rfl

@[simp] theorem withdrawFor_mem (s : State) (u id : Nat) : (withdrawFor s u id).mem = s.mem := by
  simp [withdrawFor, foldl_mem]

@[simp] theorem applyWrite_wf (s : State) (w : BufWrite) (hm : s.mem.wf = true) : (applyWrite s w).mem.wf = true := by
  simp [applyWrite, foldl_mem, hm]

@[simp] theorem applyAll_wf (l : List BufWrite) {s : State} (hm : s.mem.wf = true) : (applyAll s l).mem.wf = true := by
  induction l generalizing s with
  | nil => exact hm
  | cons w l ih =>
    rw [applyAll]
    split
    · exact ih (applyWrite_wf s w hm)
    · exact ih hm

@[simp] theorem performWrite_wf (s : State) (w : BufWrite) (hm : s.mem.wf = true) : (performWrite s w).1.mem.wf = true := by
  unfold performWrite
  dsimp only
  split <;> simp [hm]

theorem logLine_wf {s s' : State} {t : Team} {line : Nat} (hm : s.mem.wf = true) (e : logLine s t line = .ok s') :
    s'.mem.wf = true := by
  simp only [logLine] at e
  repeat' split at e
  all_goals cases e
  next h1 _ _ h2 => simpa using writeVA_wf _ _ _ _ _ _ (writeVA_wf _ _ _ _ _ _ hm h1) h2

theorem logLines_wf (u : Nat) (ls : List Nat) {s s' : State} (hm : s.mem.wf = true) (e : logLines s u ls = .ok s') :
    s'.mem.wf = true := by
  induction ls generalizing s with
  | nil => cases e; exact hm
  | cons l ls ih => grind [logLines, logLine_wf]

@[simp] theorem setLane_mem (s : State) (id lane : Nat) (st : LaneSt) : (setLane s id lane st).mem = s.mem := by rfl

@[simp] theorem writeLane_mem (s : State) (f : Flight) (m : MemOp) (lane n : Nat) : (writeLane s f m lane n).mem = s.mem := by
  rfl

@[simp] theorem loadLane_wf (s : State) (t : Team) (f : Flight) (m : MemOp) (r : LaneReq) (segs : List Seg)
    (hm : s.mem.wf = true) : (loadLane s t f m r segs).1.mem.wf = true := by
  unfold loadLane
  dsimp only
  split <;> simp [hm]

@[simp] theorem mwaitLane_mem (s : State) (t : Team) (f : Flight) (m : MemOp) (r : LaneReq) (segs : List Seg) :
    (mwaitLane s t f m r segs).1.mem = s.mem := by
  unfold mwaitLane
  dsimp only
  split
  · rfl
  · split <;> simp [foldl_mem]

theorem withRecords_wf {s : State} {t : Team} {f : Flight} {m : MemOp} {r : LaneReq} {k : State → State × Bool}
    (hm : s.mem.wf = true) (hk : ∀ s, s.mem.wf = true → (k s).1.mem.wf = true) :
    (withRecords s t f m r k).1.mem.wf = true := by
  unfold withRecords
  dsimp only
  split
  · exact hk s hm
  · split
    · exact applyAll_wf _ hm
    · split
      · next e => exact hk _ (logLines_wf _ _ (applyAll_wf _ hm) e)
      · simp [hm]
      · split <;> simp [hm]

@[simp] theorem storeLane_wf (s : State) (t : Team) (f : Flight) (m : MemOp) (r : LaneReq) (segs : List Seg)
    (hm : s.mem.wf = true) : (storeLane s t f m r segs).1.mem.wf = true := by
  grind [storeLane, setLane_mem, shareWait_mem, l1Store_mem, withRecords_wf, startWrite_mem]

@[simp] theorem atomLane_wf (s : State) (t : Team) (f : Flight) (m : MemOp) (r : LaneReq) (segs : List Seg)
    (hm : s.mem.wf = true) : (atomLane s t f m r segs).1.mem.wf = true := by
  unfold atomLane
  split
  · exact hm
  · refine withRecords_wf hm fun s hm => ?_
    dsimp only
    split
    · simp [hm]
    · split <;> simp [foldl_mem, hm]

@[simp] theorem redLane_mem (s : State) (t : Team) (f : Flight) (m : MemOp) (r : LaneReq) (segs : List Seg) :
    (redLane s t f m r segs).1.mem = s.mem := by
  simp [redLane, foldl_mem]

@[simp] theorem performLane_wf (s : State) (f : Flight) (m : MemOp) (r : LaneReq) (segs : List Seg) (hm : s.mem.wf = true) :
    (performLane s f m r segs).1.mem.wf = true := by
  grind [performLane, mwaitLane_mem, setLane_mem, atomLane_wf, storeLane_wf, redLane_mem, loadLane_wf]

@[simp] theorem performLanes_wf (s : State) (f : Flight) (m : MemOp) (p : LaneReq → Bool) (hm : s.mem.wf = true) :
    (performLanes s f m p).mem.wf = true := by
  refine foldl_wf _ (fun s r h => ?_) _ _ hm
  split
  · split <;> simp [h]
  · exact h

@[simp] theorem drainBefore_wf (s : State) (u id : Nat) (hm : s.mem.wf = true) : (drainBefore s u id).mem.wf = true := by
  refine foldl_wf _ (fun s g h => ?_) _ _ hm
  split <;> simp [h]

@[simp] theorem performFlight_wf (s : State) (f : Flight) (m : MemOp) (p : LaneReq → Bool) (hm : s.mem.wf = true) :
    (performFlight s f m p).mem.wf = true := by
  simp [performFlight, hm]

@[simp] theorem memEnd_mem (s : State) (f : Flight) (m : MemOp) : (memEnd s f m).mem = s.mem := by
  unfold memEnd
  dsimp only
  repeat' split
  all_goals simp

@[simp] theorem afterLanes_mem (s : State) (id : Nat) (m : MemOp) : (afterLanes s id m).mem = s.mem := by
  unfold afterLanes
  split <;> simp

@[simp] theorem respond_wf (s : State) (f : Flight) (m : MemOp) (hm : s.mem.wf = true) : (respond s f m).mem.wf = true := by
  simp [respond, hm]

@[simp] theorem startMem_wf (m : MemOp) (c : C) (s : State) (as : List (Nat × Nat)) (waits : List Nat) (hm : s.mem.wf = true)
  :
    (startMem m c s as waits).mem.wf = true := by
  unfold startMem
  extract_lets lanes id s1 s2 s3
  have h1 : s1.mem = s.mem := by
    unfold s1
    split
    · refine foldl_mem _ (fun s l => ?_) _ _
      split <;> simp [foldl_mem]
    · rfl
  have h3 : s3.mem.wf = true := by simp [s3, s2, h1, hm]
  split
  · exact h3
  · extract_lets f' s4 s5 s6
    repeat' split
    all_goals simp_all [s4, s5, s6]

@[simp] theorem effMem_wf (m : MemOp) (c : C) (s : State) (hm : s.mem.wf = true) : (effMem m c s).state.mem.wf = true := by
  unfold effMem
  dsimp only
  repeat' split
  all_goals simp [hm]

@[simp] theorem effPref_mem (c : C) (s : State) : (effPref c s).state.mem = s.mem := by
  unfold effPref
  dsimp only
  split
  · rfl
  · refine foldl_mem _ (fun s x => ?_) _ _
    grind [sliceHold_mem, l1Load_mem]

/-! ## Spad -/

def Meet.state : Meet → State
  | .wait s => s
  | .fail s _ _ => s

theorem meetFault_mem (s : State) (core ctx va path flight : Nat) (retry : Ev) (tr : Tr) :
    (meetFault s core ctx va path flight retry tr).state.mem = s.mem := by
  unfold meetFault
  split
  · rfl
  · dsimp only
    split
    · rfl
    · split
      · exact addFault_mem _ _ _
      · exact addFault_mem _ _ _

theorem meetFault_wait_mem {s s' : State} {core ctx va path flight : Nat} {retry : Ev} {tr : Tr}
    (e : meetFault s core ctx va path flight retry tr = .wait s') : s'.mem = s.mem := by
  rw [← meetFault_mem s core ctx va path flight retry tr, e]; rfl

theorem meetFault_fail_mem {s s' : State} {core ctx va path flight code cause : Nat} {retry : Ev} {tr : Tr}
    (e : meetFault s core ctx va path flight retry tr = .fail s' code cause) : s'.mem = s.mem := by
  rw [← meetFault_mem s core ctx va path flight retry tr, e]; rfl

theorem enginePut_done_wf {s s' : State} {core ctx va path flight : Nat} {retry : Ev} {bs : List Byte} (hm : s.mem.wf = true)
    (e : enginePut s core ctx va path flight retry bs = .done s') : s'.mem.wf = true := by
  grind [enginePut, writeUpto_wf]

theorem enginePut_wait_wf {s s' : State} {core ctx va path flight : Nat} {retry : Ev} {bs : List Byte} (hm : s.mem.wf = true)
    (e : enginePut s core ctx va path flight retry bs = .wait s') : s'.mem.wf = true := by
  grind [enginePut, writeUpto_wf, meetFault_wait_mem]

theorem enginePut_fail_wf {s s' : State} {core ctx va path flight code cause at_ : Nat} {retry : Ev} {bs : List Byte}
    (hm : s.mem.wf = true) (e : enginePut s core ctx va path flight retry bs = .fail s' code cause at_) :
    s'.mem.wf = true := by
  unfold enginePut at e
  split at e
  · cases e
  · split at e
    · cases e
    · next e1 => cases e; exact writeUpto_wf _ _ _ _ _ (meetFault_fail_mem e1 ▸ hm)

@[simp] theorem onLatch_mem (s : State) (core launch n : Nat) (f : Latch → Latch) :
    (onLatch s core launch n f).mem = s.mem := by rfl

@[simp] theorem latchWake_mem (s : State) (core launch n : Nat) : (latchWake s core launch n).mem = s.mem := by
  unfold latchWake
  split <;> simp

@[simp] theorem arriveAt_mem (s : State) (core launch n a : Nat) : (arriveAt s core launch n a).mem = s.mem := by
  simp [arriveAt]

@[simp] theorem arriveMeet_mem (s : State) (core ctx va launch n a : Nat) (e : Tr) :
    (arriveMeet s core ctx va launch n a e).mem = s.mem := by
  grind [arriveMeet, meetFault_wait_mem, meetFault_fail_mem, State.post_mem]

@[simp] theorem arriveAny_wf (s : State) (core launch n a : Nat) (hm : s.mem.wf = true) :
    (arriveAny s core launch n a).mem.wf = true := by
  unfold arriveAny
  dsimp only
  grind [writeVA_wf, arriveMeet_mem, C.launch_mem, arriveAt_mem]

@[simp] theorem execLatchArrival_wf (core launch n a : Nat) (s : State) (hm : s.mem.wf = true) :
    OutWf (execLatchArrival core launch n a s) := by
  simp [execLatchArrival, hm]

@[simp] theorem effLtinit_mem (c : C) (s : State) : (effLtinit c s).state.mem = s.mem := by
  simp [effLtinit]

@[simp] theorem effLtarr_mem (c : C) (s : State) : (effLtarr c s).state.mem = s.mem := by
  simp [effLtarr]

@[simp] theorem effLtwait_mem (c : C) (s : State) : (effLtwait c s).state.mem = s.mem := by
  unfold effLtwait
  dsimp only
  repeat' split
  all_goals simp

@[simp] theorem effYield_mem (c : C) (s : State) : (effYield c s).state.mem = s.mem := by
  unfold effYield
  dsimp only
  repeat' split
  all_goals simp

@[simp] theorem effSpad_mem (m : MemOp) (c : C) (s : State) : (effSpad m c s).state.mem = s.mem := by
  unfold effSpad
  dsimp only
  repeat' split
  all_goals simp

@[simp] theorem respondSpad_mem (s : State) (f : Flight) (m : MemOp) : (respondSpad s f m).mem = s.mem := by
  simp [respondSpad, foldl_mem]

@[simp] theorem execAccessResponse_wf (id : Nat) (s : State) (hm : s.mem.wf = true) : OutWf (execAccessResponse id s) := by
  unfold execAccessResponse
  split
  · exact hm
  · split
    · simp [hm]
    · split
      · split <;> simp [hm]
      · exact hm

@[simp] theorem onLine_mem (s : State) (core n : Nat) (f : Line → Line) : (onLine s core n f).mem = s.mem := by rfl

@[simp] theorem freeLine_mem (s : State) (core n : Nat) : (freeLine s core n).mem = s.mem := by rfl

@[simp] theorem effTlook_mem (c : C) (s : State) : (effTlook c s).state.mem = s.mem := by
  unfold effTlook
  split
  · simp
  · generalize ({ ldstOp 0 c.x with scalar := c.x.bit 17, al := true, acq := false, scope := 0 } : MemOp) = m
    dsimp only
    repeat' split
    all_goals simp

@[simp] theorem effClaim_mem (fill : Bool) (c : C) (s : State) : (effClaim fill c s).state.mem = s.mem := by
  unfold effClaim
  dsimp only
  repeat' split
  all_goals simp

@[simp] theorem postArrival_mem (s : State) (core : Nat) (latch : Option (Nat × Nat)) :
    (postArrival s core latch).mem = s.mem := by
  unfold postArrival
  split <;> simp

@[simp] theorem effTevict_mem (c : C) (s : State) : (effTevict c s).state.mem = s.mem := by
  unfold effTevict
  dsimp only
  repeat' split
  all_goals simp

@[simp] theorem effTinv_mem (c : C) (s : State) : (effTinv c s).state.mem = s.mem := by
  simp [effTinv]

@[simp] theorem lineDone_mem (s : State) (core : Nat) (l : Line) : (lineDone s core l).mem = s.mem := by
  simp [lineDone]

@[simp] theorem execFillFailure_wf (core n cause : Nat) (s : State) (hm : s.mem.wf = true) :
    OutWf (execFillFailure core n cause s) := by
  unfold execFillFailure
  split <;> simp [hm]

@[simp] theorem execWritebackFailure_wf (core n cause : Nat) (s : State) (hm : s.mem.wf = true) :
    OutWf (execWritebackFailure core n cause s) := by
  unfold execWritebackFailure
  split <;> simp [hm]

/-! ## Access -/

@[simp] theorem walkLane_mem (s : State) (t : Team) (f : Flight) (m : MemOp) (r : LaneReq) :
    (walkLane s t f m r).mem = s.mem := by
  unfold walkLane
  dsimp only
  split
  · split <;> simp
  · simp [foldl_mem]
  · simp

@[simp] theorem execTranslationWalk_wf (id : Nat) (s : State) (hm : s.mem.wf = true) : OutWf (execTranslationWalk id s) := by
  unfold execTranslationWalk
  split
  · exact hm
  · split
    · split
      · exact hm
      · dsimp only
        split <;> simp [hm, foldl_mem]
    · exact hm

@[simp] theorem rewalk_mem (s : State) (id : Nat) : (rewalk s id).mem = s.mem := by rfl

@[simp] theorem replay_mem (s : State) (qs : List FaultReq) : (replay s qs).mem = s.mem := by
  simp [replay, foldl_mem]

@[simp] theorem writePte_wf (s : State) (pa : Nat) (pte : Word64) (hm : s.mem.wf = true) :
    (writePte s pa pte).mem.wf = true := by
  simp [writePte, hm]

@[simp] theorem execFaultServiced_wf (ctx : Nat) (va : Word64) (pteAddr : Nat) (pte : Word64) (s : State)
    (hm : s.mem.wf = true) : OutWf (execFaultServiced ctx va pteAddr pte s) := by
  unfold execFaultServiced
  dsimp only
  repeat' split
  all_goals simp [hm]

@[simp] theorem declineLanes_mem (s : State) (f : Flight) (m : MemOp) (t : Team) (va : Nat) (q : FaultReq) :
    (declineLanes s f m t va q).mem = s.mem := by
  refine foldl_mem _ (fun s r => ?_) _ _
  split
  · rfl
  · split
    · split <;> simp
    · simp

@[simp] theorem declineReq_mem (s : State) (va : Nat) (q : FaultReq) : (declineReq s va q).mem = s.mem := by
  unfold declineReq
  dsimp only
  repeat' split
  all_goals simp

@[simp] theorem execFaultDeclined_wf (ctx : Nat) (va : Word64) (s : State) (hm : s.mem.wf = true) :
    OutWf (execFaultDeclined ctx va s) := by
  simp [execFaultDeclined, foldl_mem, hm]

@[simp] theorem tryWrite_wf (s : State) (w : BufWrite) (again : Ev) (hm : s.mem.wf = true) :
    (tryWrite s w again).mem.wf = true := by
  simp [tryWrite, hm]

@[simp] theorem execWritePerformed_wf (id : Nat) (s : State) (hm : s.mem.wf = true) : OutWf (execWritePerformed id s) := by
  unfold execWritePerformed
  split <;> simp [hm]

@[simp] theorem execReleaseGateOpen_wf (id : Nat) (s : State) (hm : s.mem.wf = true) : OutWf (execReleaseGateOpen id s) := by
  unfold execReleaseGateOpen
  split <;> simp [hm]

@[simp] theorem combineWrite_wf (s : State) (w : BufWrite) (op : Nat) (ty : Ty) (d : Word64) (hm : s.mem.wf = true) :
    (combineWrite s w op ty d).mem.wf = true := by
  simp [combineWrite, foldl_mem, hm]

@[simp] theorem execRedCombine_wf (id : Nat) (s : State) (hm : s.mem.wf = true) : OutWf (execRedCombine id s) := by
  unfold execRedCombine
  split
  · exact hm
  · split
    · exact hm
    · split <;> simp [hm]

@[simp] theorem storeFails_mem (s : State) (w : BufWrite) (cause : Nat) : (storeFails s w cause).mem = s.mem := by
  unfold storeFails
  dsimp only
  split
  · split <;> simp [foldl_mem]
  · simp [foldl_mem]

@[simp] theorem execStoreFailure_wf (id cause : Nat) (s : State) (hm : s.mem.wf = true) :
    OutWf (execStoreFailure id cause s) := by
  unfold execStoreFailure
  split <;> simp [hm]

@[simp] theorem execShootdown_wf (ctx : Nat) (va : Word64) (len : Nat) (ptes : List (Nat × Word64)) (s : State)
    (hm : s.mem.wf = true) : OutWf (execShootdown ctx va len ptes s) := by
  have h := foldl_wf (fun s p => writePte s p.1 p.2) (fun s p h => writePte_wf s p.1 p.2 h) ptes s hm
  simpa [execShootdown] using h

@[simp] theorem retranslate_mem (s : State) (ctx va len : Nat) : (retranslate s ctx va len).mem = s.mem := by
  refine foldl_mem _ (fun s f => ?_) _ _
  split
  · dsimp only; split <;> simp
  · rfl

@[simp] theorem unissue_mem (s : State) (w : BufWrite) : (unissue s w).mem = s.mem := by
  unfold unissue
  split <;> simp

@[simp] theorem rehome_wf (s : State) (id : Nat) (hm : s.mem.wf = true) : (rehome s id).mem.wf = true := by
  unfold rehome
  dsimp only
  repeat' split
  all_goals simp [hm]

@[simp] theorem shootRange_wf (s : State) (ctx va len : Nat) (hm : s.mem.wf = true) :
    (shootRange s ctx va len).mem.wf = true := by
  refine foldl_wf _ (fun s w h => rehome_wf s _ h) _ _ ?_
  simpa using hm

@[simp] theorem execShootdownComplete_wf (ctx : Nat) (va : Word64) (len : Nat) (s : State) (hm : s.mem.wf = true) :
    OutWf (execShootdownComplete ctx va len s) := by
  simp [execShootdownComplete, foldl_mem, hm]

@[simp] theorem failTier_mem (s : State) : (failTier s).mem = s.mem := by
  simp [failTier, foldl_mem]

@[simp] theorem execPcieLinkDown_wf (s : State) (hm : s.mem.wf = true) : OutWf (execPcieLinkDown s) := by
  simp [execPcieLinkDown, hm]

@[simp] theorem execPalyrPeerAccess_wf (access : PeerAccess) (s : State) (hm : s.mem.wf = true) :
    OutWf (execPalyrPeerAccess access s) := by
  unfold execPalyrPeerAccess
  split <;> simp [hm]

/-! ## Fence -/

@[simp] theorem Hold.drops_mem (h : Hold) (s : State) (core : Nat) : (Hold.drops h s core).mem = s.mem := by
  simp [Hold.drops]

@[simp] theorem advanceHolds_mem (s : State) (u : Nat) : (advanceHolds s u).mem = s.mem := by
  unfold advanceHolds
  split
  · rfl
  · simp [foldl_mem]

@[simp] theorem addHold_mem (s : State) (u : Nat) (h : Hold) : (addHold s u h).mem = s.mem := by rfl

@[simp] theorem effFence_mem (c : C) (s : State) : (effFence c s).state.mem = s.mem := by
  unfold effFence
  dsimp only
  repeat' split
  all_goals simp

@[simp] theorem effXfence_mem (c : C) (s : State) : (effXfence c s).state.mem = s.mem := by
  simp [effXfence]

@[simp] theorem execFenceComplete_wf (u : Nat) (s : State) (hm : s.mem.wf = true) : OutWf (execFenceComplete u s) := by
  simp [execFenceComplete, hm]

@[simp] theorem execHeartbeatTick_wf (s : State) (hm : s.mem.wf = true) : OutWf (execHeartbeatTick s) := by
  simp [execHeartbeatTick, foldl_mem, hm]

@[simp] theorem effMwait_wf (c : C) (s : State) (hm : s.mem.wf = true) : (effMwait c s).state.mem.wf = true := by
  unfold effMwait
  dsimp only
  repeat' split
  all_goals simp [hm]

@[simp] theorem mwaitRead_mem (s : State) (u : Nat) : (mwaitRead s u).mem = s.mem := by
  unfold mwaitRead
  split <;> simp

@[simp] theorem execMwaitWake_wf (u : Nat) (s : State) (hm : s.mem.wf = true) : OutWf (execMwaitWake u s) := by
  simp [execMwaitWake, hm]

@[simp] theorem execMwaitTimeout_wf (u : Nat) (s : State) (hm : s.mem.wf = true) : OutWf (execMwaitTimeout u s) := by
  unfold execMwaitTimeout
  split <;> simp [hm]

@[simp] theorem execMwaitRepoll_wf (u : Nat) (s : State) (hm : s.mem.wf = true) : OutWf (execMwaitRepoll u s) := by
  simp [execMwaitRepoll, hm]

/-! ## Sets -/

@[simp] theorem markWound_wf (s : State) (u : Nat) (hm : s.mem.wf = true) : (markWound s u).mem.wf = true := by
  unfold markWound
  dsimp only
  repeat' split
  all_goals simp [hm]

@[simp] theorem settleHasp_wf (s : State) (h : Hasp) (hm : s.mem.wf = true) : (settleHasp s h).mem.wf = true := by
  unfold settleHasp
  dsimp only
  split
  · exact foldl_wf _ (fun s x h => markWound_wf s _ h) _ _ hm
  · split
    · split
      · exact markWound_wf _ _ hm
      · exact hm
    · exact hm

@[simp] theorem execSetGrant_wf (slice : Nat) (s : State) (hm : s.mem.wf = true) : OutWf (execSetGrant slice s) :=
  foldl_wf settleHasp (fun s h hs => settleHasp_wf s h hs) _ _ hm

@[simp] theorem releaseHasps_mem (s : State) (u : Nat) (p : Hasp → Bool) : (releaseHasps s u p).mem = s.mem := by
  simp [releaseHasps, foldl_mem]

@[simp] theorem setSlot_mem (s : State) (u k : Nat) (st : SetState) : (setSlot s u k st).mem = s.mem := by rfl

@[simp] theorem acquireFails_mem (s : State) (t : Team) (k code sub va : Nat) (access : Bool) :
    (acquireFails s t k code sub va access).mem = s.mem := by
  unfold acquireFails
  dsimp only
  repeat' split
  all_goals simp

@[simp] theorem execSetRequestArrival_wf (u k : Nat) (s : State) (hm : s.mem.wf = true) :
    OutWf (execSetRequestArrival u k s) := by
  unfold execSetRequestArrival
  dsimp only
  split
  · exact hm
  · split
    · split
      · exact hm
      · split
        · split
          · next e => rw [outWf_next, meetFault_wait_mem e]; exact hm
          · next e => rw [outWf_next, acquireFails_mem, meetFault_fail_mem e]; exact hm
        · split
          · simp [hm]
          · repeat' split
            all_goals simp [hm]
    · exact hm

theorem clearUndo_wf (s : State) (t : Team) {s' : State} (hm : s.mem.wf = true) (e : clearUndo s t = .ok s') :
    s'.mem.wf = true := by
  grind [clearUndo, writeVA_wf]

@[simp] theorem effAsdecl_mem (c : C) (s : State) : (effAsdecl c s).state.mem = s.mem := by
  simp [effAsdecl]

@[simp] theorem effAsclr_mem (c : C) (s : State) : (effAsclr c s).state.mem = s.mem := by
  simp [effAsclr]

@[simp] theorem effAsqry_mem (c : C) (s : State) : (effAsqry c s).state.mem = s.mem := by rfl

@[simp] theorem C.meet_mem (c : C) (s : State) (va path : Nat) (e : Tr) : (c.meet s va path e).state.mem = s.mem := by
  grind [C.meet, meetFault_wait_mem, meetFault_fail_mem, State.onTeam_mem, Eff.state_wait, Eff.state_trap]

theorem moveBytes_wf {c : C} {s : State} {src dst n : Nat} {done : State → Eff} (hm : s.mem.wf = true)
    (hd : ∀ s, s.mem.wf = true → (done s).state.mem.wf = true) : (moveBytes c s src dst n done).state.mem.wf = true := by
  unfold moveBytes
  dsimp only
  split
  · simp [hm]
  · next segs _ =>
    have ha := applyAll_wf (writesOn s c.t.core c.t.uid (segKeys segs) false) hm
    split
    · next e => exact hd _ (by simpa using enginePut_done_wf ha e)
    · next e => simpa using enginePut_wait_wf ha e
    · next e => simpa using enginePut_fail_wf ha e

@[simp] theorem effAsundo_wf (c : C) (s : State) (hm : s.mem.wf = true) : (effAsundo c s).state.mem.wf = true := by
  unfold effAsundo
  dsimp only
  repeat' split
  any_goals simp [hm]
  · next e => exact writeVA_wf _ _ _ _ _ _ hm e
  · exact moveBytes_wf hm fun s h => by simpa using h

/-! ## Matrix -/

@[simp] theorem onLease_mem (s : State) (core : Nat) (f : Lease → Lease) : (onLease s core f).mem = s.mem := by rfl

@[simp] theorem postLease_mem (s : State) (core : Nat) : (postLease s core).mem = s.mem := by
  simp [postLease]

@[simp] theorem endLease_mem (s : State) (core : Nat) (lost : Bool) : (endLease s core lost).mem = s.mem := by
  simp [endLease]

@[simp] theorem requestLease_mem (s : State) (t : Team) (count last : Nat) (ml : Bool) :
    (requestLease s t count last ml).mem = s.mem := by
  simp [requestLease]

@[simp] theorem execLeaseGrant_wf (core : Nat) (s : State) (hm : s.mem.wf = true) : OutWf (execLeaseGrant core s) := by
  unfold execLeaseGrant
  dsimp only
  repeat' split
  all_goals simp [hm]

@[simp] theorem execLeaseIdleExpiry_wf (core : Nat) (s : State) (hm : s.mem.wf = true) :
    OutWf (execLeaseIdleExpiry core s) := by
  simp [execLeaseIdleExpiry, hm]

@[simp] theorem effMlease_mem (c : C) (s : State) : (effMlease c s).state.mem = s.mem := by
  simp [effMlease]

@[simp] theorem effMrelease_mem (c : C) (s : State) : (effMrelease c s).state.mem = s.mem := by
  simp [effMrelease]

@[simp] theorem passPintle_mem (s : State) (t : Team) (leaf : Nat) : (passPintle s t leaf).mem = s.mem := by rfl

@[simp] theorem effPintle_mem (c : C) (s : State) : (effPintle c s).state.mem = s.mem := by
  simp [effPintle]

@[simp] theorem effPnwait_mem (c : C) (s : State) : (effPnwait c s).state.mem = s.mem := by
  simp [effPnwait]

@[simp] theorem effObres_mem (c : C) (s : State) : (effObres c s).state.mem = s.mem := by
  simp [effObres]

@[simp] theorem effObfree_mem (c : C) (s : State) : (effObfree c s).state.mem = s.mem := by
  unfold effObfree
  dsimp only
  repeat' split
  all_goals simp

@[simp] theorem execObfreeRelease_wf (core n : Nat) (s : State) (hm : s.mem.wf = true) :
    OutWf (execObfreeRelease core n s) := by
  unfold execObfreeRelease
  split
  · exact hm
  · split
    · simp [hm]
    · dsimp only
      split <;> simp [hm, foldl_mem]

@[simp] theorem effObput_mem (c : C) (s : State) : (effObput c s).state.mem = s.mem := by
  unfold effObput
  dsimp only
  repeat' split
  all_goals simp

@[simp] theorem setTile_mem (s : State) (core ix : Nat) (t : Tile) : (setTile s core ix t).mem = s.mem := by rfl

theorem engineRight_ok_mem {c : C} {s s' : State} (e : engineRight c s = .ok s') : s'.mem = s.mem := by
  simp only [engineRight] at e
  repeat' split at e
  all_goals cases e
  all_goals simp

theorem engineRight_error_mem {c : C} {s : State} {f : Eff} (e : engineRight c s = .error f) : f.state.mem = s.mem := by
  simp only [engineRight] at e
  repeat' split at e
  all_goals cases e
  all_goals simp

@[simp] theorem effMma_mem (sparse : Bool) (c : C) (s : State) : (effMma sparse c s).state.mem = s.mem := by
  unfold effMma
  dsimp only
  split
  · simp
  · simp
  · split
    · simp
    · repeat' split
      any_goals simp
      · next e => exact engineRight_error_mem e
      · next e => exact engineRight_ok_mem e

@[simp] theorem execMmaExecute_wf (core : Nat) (s : State) (hm : s.mem.wf = true) : OutWf (execMmaExecute core s) := by
  unfold execMmaExecute
  split <;> simp [hm]

@[simp] theorem effAnchor_mem (f : Tile → Int → Tile) (c : C) (s : State) : (effAnchor f c s).state.mem = s.mem := by
  simp [effAnchor]

@[simp] theorem effResolve_mem (c : C) (s : State) : (effResolve c s).state.mem = s.mem := by
  simp [effResolve]

@[simp] theorem execResolveComplete_wf (id : Nat) (s : State) (hm : s.mem.wf = true) : OutWf (execResolveComplete id s) := by
  unfold execResolveComplete
  dsimp only
  repeat' split
  all_goals simp [hm]

@[simp] theorem effAccmp_mem (c : C) (s : State) : (effAccmp c s).state.mem = s.mem := by
  simp [effAccmp]

@[simp] theorem effAcadd_mem (c : C) (s : State) : (effAcadd c s).state.mem = s.mem := by
  simp [effAcadd]

@[simp] theorem effAcst_mem (c : C) (s : State) : (effAcst c s).state.mem = s.mem := by
  unfold effAcst
  split <;> simp

@[simp] theorem imageDone_mem (s : State) (f : Flight) (core : Nat) : (imageDone s f core).mem = s.mem := by
  simp [imageDone]

@[simp] theorem execAcstComplete_wf (id : Nat) (s : State) (hm : s.mem.wf = true) : OutWf (execAcstComplete id s) := by
  grind [execAcstComplete, outWf_next, postOnce_mem, enginePut_done_wf, enginePut_wait_wf, enginePut_fail_wf, imageDone_mem,
    addPending_mem]

@[simp] theorem effAcld_mem (c : C) (s : State) : (effAcld c s).state.mem = s.mem := by
  unfold effAcld
  split <;> simp

@[simp] theorem execAcldComplete_wf (id : Nat) (s : State) (hm : s.mem.wf = true) : OutWf (execAcldComplete id s) := by
  unfold execAcldComplete
  dsimp only
  split
  · split
    · simp [hm]
    · split
      · split <;> simp [hm]
      · split
        · next e => rw [outWf_next, meetFault_wait_mem e]; exact hm
        · next e => simp [meetFault_fail_mem e, hm]
  · exact hm

/-! ## Sfu -/

@[simp] theorem effSfu_mem (op : SfuOp) (c : C) (s : State) : (effSfu op c s).state.mem = s.mem := by
  simp [effSfu]

@[simp] theorem effLong_wf (f : C → State → Nat → Nat × Flg) (c : C) (s : State) (hm : s.mem.wf = true) :
    (effLong f c s).state.mem.wf = true := by
  simp [effLong, hm]

@[simp] theorem execSfuComplete_wf (id : Nat) (s : State) (hm : s.mem.wf = true) : OutWf (execSfuComplete id s) := by
  unfold execSfuComplete
  dsimp only
  repeat' split
  all_goals simp [hm]

/-! ## Engine -/

@[simp] theorem laneMeets_mem (id path : Nat) (retry : Ev) (s : State) (t : Team) (r : LaneReq) (va : Nat) (e : Tr) :
    (laneMeets id path retry s t r va e).mem = s.mem := by
  grind [laneMeets, meetFault_wait_mem, meetFault_fail_mem, setLane_mem]

@[simp] theorem setPos_mem (s : State) (id lane : Nat) (pos : List Nat) : (setPos s id lane pos).mem = s.mem := by rfl

theorem engineLane_wf {id path : Nat} {retry : Ev} {work : State → Team → Flight → LaneReq → Found} {s : State} {r : LaneReq}
    (hw : ∀ s t f r, s.mem.wf = true → (work s t f r).Wf) (hm : s.mem.wf = true) :
    (engineLane id path retry work s r).mem.wf = true := by
  unfold engineLane
  split
  · exact hm
  · next f _ =>
    split
    · exact hm
    · next t _ =>
      have h := hw s t f r hm
      split <;> simp_all

theorem engineRun_wf {s : State} {id path : Nat} {retry : Ev} {work : State → Team → Flight → LaneReq → Found}
    {close : State → Flight → State} (hw : ∀ s t f r, s.mem.wf = true → (work s t f r).Wf)
    (hc : ∀ s f, (close s f).mem = s.mem) (hm : s.mem.wf = true) : (engineRun s id path retry work close).mem.wf = true := by
  unfold engineRun
  split
  · exact hm
  · next f _ =>
    have h := foldl_wf (engineLane id path retry work) (fun s r h => engineLane_wf hw h)
      (f.lanes.filter (fun l => l.st = .todo || l.st = .ready [])) s hm
    dsimp only
    split
    · exact h
    · split <;> simp [hc, h]

@[simp] theorem closeWith_mem (tr : Flight → Option Trap) (s : State) (f : Flight) : (closeWith tr s f).mem = s.mem := by
  unfold closeWith
  split <;> simp

@[simp] theorem closeLate_mem (s : State) (f : Flight) : (closeLate s f).mem = s.mem := by
  unfold closeLate
  split <;> simp

@[simp] theorem unwait_mem (s : State) (id : Nat) : (unwait s id).mem = s.mem := by rfl

theorem Agent.put_wf (a : Agent) (s : State) (va : Nat) (bs : List Byte) {s' : State} (hm : s.mem.wf = true)
    (e : Agent.put a s va bs = .ok s') : s'.mem.wf = true := by
  grind [Agent.put, writeVA_wf]

theorem Agent.wr_wf (a : Agent) (s : State) (va n x : Nat) {s' : State} (hm : s.mem.wf = true)
    (e : Agent.wr a s va n x = .ok s') : s'.mem.wf = true := by
  grind [Agent.wr, Agent.put_wf]

@[simp] theorem Got.state_wf {s : State} {g : Got State} (hm : s.mem.wf = true) (hg : ∀ s', g = .ok s' → s'.mem.wf = true) :
    (Got.state s g).mem.wf = true := by
  cases g with
  | ok s' => exact hg s' rfl
  | error e => exact hm

/-! ## Seq -/

theorem writeBlk_wf (a : Agent) (s : State) (e : BlkEnt) (st : BlkSt) (n : Nat) {s' : State} (hm : s.mem.wf = true)
    (e : writeBlk a s e st n = .ok s') : s'.mem.wf = true := by
  grind [writeBlk, Agent.wr_wf]

@[simp] theorem setErr_wf (a : Agent) (s : State) (k : KMap) (hm : s.mem.wf = true) : (setErr a s k).mem.wf = true := by
  unfold setErr
  split
  · split
    · exact hm
    · exact Got.state_wf hm fun s' e => Agent.wr_wf _ _ _ _ _ hm e
  · exact hm

@[simp] theorem errWhen_wf (a : Agent) (s : State) (k : KMap) (b : Bool) (hm : s.mem.wf = true) :
    (errWhen a s k b).mem.wf = true := by
  simp [errWhen, hm]

theorem popFree_wf (a : Agent) (s : State) (k : KMap) {r : State × Nat} (hm : s.mem.wf = true)
    (e : popFree a s k = .ok (some r)) : r.1.mem.wf = true := by
  simp only [popFree, bind, Except.bind, pure, Except.pure] at e
  grind [Agent.wr_wf]

theorem pushFree_wf (a : Agent) (s : State) (k : KMap) (b : Nat) {s' : State} (hm : s.mem.wf = true)
    (e : pushFree a s k b = .ok s') : s'.mem.wf = true := by
  obtain ⟨n, -, e⟩ := bind_eq_ok e
  obtain ⟨s1, h1, e⟩ := bind_eq_ok e
  exact Agent.wr_wf _ _ _ _ _ (Agent.wr_wf _ _ _ _ _ hm h1) e

theorem popBack_wf (a : Agent) (s : State) (k : KMap) {r : State × Nat} (hm : s.mem.wf = true)
    (e : popBack a s k = .ok (some r)) : r.1.mem.wf = true := by
  simp only [popBack, bind, Except.bind, pure, Except.pure] at e
  grind [Agent.wr_wf]

theorem pushBack_wf (a : Agent) (s : State) (k : KMap) (n : Nat) {s' : State} (hm : s.mem.wf = true)
    (e : pushBack a s k n = .ok s') : s'.mem.wf = true := by
  obtain ⟨n, -, e⟩ := bind_eq_ok e
  obtain ⟨s1, h1, e⟩ := bind_eq_ok e
  exact Agent.wr_wf _ _ _ _ _ (Agent.wr_wf _ _ _ _ _ hm h1) e

theorem freshBlock_wf (a : Agent) (s : State) (k : KMap) (b ref : Nat) {s' : State} (hm : s.mem.wf = true)
    (e : freshBlock a s k b ref = .ok s') : s'.mem.wf = true := by
  obtain ⟨s1, h1, e⟩ := bind_eq_ok e
  obtain ⟨s2, h2, e⟩ := bind_eq_ok e
  exact Agent.wr_wf _ _ _ _ _ (Agent.wr_wf _ _ _ _ _ (Agent.wr_wf _ _ _ _ _ hm h1) h2) e

theorem freeIfIdle_wf (a : Agent) (s : State) (k : KMap) (b : Nat) {s' : State} (hm : s.mem.wf = true)
    (e : freeIfIdle a s k b = .ok s') : s'.mem.wf = true := by
  simp only [freeIfIdle, bind, Except.bind, pure, Except.pure] at e
  grind [pushFree_wf]

@[simp] theorem queueVictims_mem (s : State) (cs : List Cand) : (queueVictims s cs).mem = s.mem := by
  simp [queueVictims]

@[simp] theorem addMove_mem (s : State) (v : KvMove) : (addMove s v).mem = s.mem := by rfl

@[simp] theorem startMove_mem (s : State) (v : KvMove) : (startMove s v).mem = s.mem := by rfl

@[simp] theorem dropMove_mem (s : State) (v : KvMove) : (dropMove s v).mem = s.mem := by rfl

@[simp] theorem fillVictims_wf (s : State) (v : KvMove) (k : KMap) (hm : s.mem.wf = true) :
    (fillVictims s v k).mem.wf = true := by
  unfold fillVictims
  dsimp only
  split
  · simp [hm]
  · split
    · next e => rw [meetFault_wait_mem e]; exact hm
    · next e => simp [meetFault_fail_mem e, hm]

@[simp] theorem afterPop_wf (a : Agent) (s : State) (k : KMap) (hm : s.mem.wf = true) : (afterPop a s k).mem.wf = true := by
  unfold afterPop
  split <;> simp [hm]

theorem dropUse_wf (a : Agent) (s : State) (seqb m b : Nat) {s' : State} (hm : s.mem.wf = true)
    (e : dropUse a s seqb m b = .ok s') : s'.mem.wf = true := by
  obtain ⟨x, -, e⟩ := bind_eq_ok e
  split at e
  · cases e; exact hm
  · obtain ⟨u, -, e⟩ := bind_eq_ok e
    obtain ⟨s1, h1, e⟩ := bind_eq_ok e
    exact freeIfIdle_wf _ _ _ _ (Agent.wr_wf _ _ _ _ _ hm h1) e

@[simp] theorem dropUseOr_wf (t : Team) (s : State) (p : Nat × Nat) (hm : s.mem.wf = true) :
    (dropUseOr t s p).mem.wf = true := by
  grind [dropUseOr, dropUse_wf, setErr_wf]

@[simp] theorem dropUses_wf (s : State) (t : Team) (hm : s.mem.wf = true) : (dropUses s t).mem.wf = true := by
  unfold dropUses
  split
  · exact hm
  · simpa using foldl_wf (dropUseOr t) (fun s u h => dropUseOr_wf t s u h) t.uses s hm

@[simp] theorem kvxOut_mem (s : State) (f : Flight) (se lane cause addr : Nat) :
    (kvxOut s f se lane cause addr).mem = s.mem := by rfl

@[simp] theorem kvxClear_mem (s : State) (f : Flight) : (kvxClear s f).mem = s.mem := by
  simp [kvxClear]

theorem kvxUse_wf {s : State} {t : Team} {f : Flight} {k : KMap} {se wt lane p b : Nat} {x : Found} (hm : s.mem.wf = true)
    (e : kvxUse s t f k se wt lane p b = .ok x) : x.Wf := by
  unfold kvxUse at e
  dsimp only at e
  split at e
  · obtain ⟨s1, h1, e⟩ := bind_eq_ok e
    cases e
    simpa using Agent.wr_wf _ _ _ _ _ hm h1
  · obtain ⟨u, -, e⟩ := bind_eq_ok e
    split at e
    · cases e
      split <;> simp [hm]
    · split at e
      · cases e; simp [hm]
      · obtain ⟨s1, h1, e⟩ := bind_eq_ok e
        obtain ⟨s2, h2, e⟩ := bind_eq_ok e
        cases e
        simpa using Agent.wr_wf _ _ _ _ _ (Agent.wr_wf _ _ _ _ _ hm h1) h2

theorem kvxLane_wf (se wt m : Nat) (s : State) (t : Team) (f : Flight) (r : LaneReq) (hm : s.mem.wf = true) :
    (kvxLane se wt m s t f r).Wf := by
  unfold kvxLane
  extract_lets a n p work
  have hw : ∀ x, work = .ok x → x.Wf := by
    intro x e
    obtain ⟨km, -, e⟩ := bind_eq_ok e
    split at e
    · cases e; simp [hm]
    · split at e
      · cases e; simp [hm]
      · obtain ⟨sq, -, e⟩ := bind_eq_ok e
        dsimp only at e
        split at e
        · cases e; simp [hm]
        · obtain ⟨bl, -, e⟩ := bind_eq_ok e
          split at e
          · cases e; simp [hm]
          · cases e; simp [hm]
          · cases e; split <;> simp [hm]
          · exact kvxUse_wf (by simp [hm]) e
  generalize work = work at hw
  cases work with
  | ok x => exact hw x rfl
  | error e => trivial

@[simp] theorem execKvxComplete_wf (id : Nat) (s : State) (hm : s.mem.wf = true) : OutWf (execKvxComplete id s) := by
  unfold execKvxComplete
  split
  · exact hm
  · exact engineRun_wf (kvxLane_wf _ _ _) endFlight_mem (by simp [hm])

@[simp] theorem execKvxWaitRetest_wf (id : Nat) (s : State) (hm : s.mem.wf = true) : OutWf (execKvxWaitRetest id s) := by
  unfold execKvxWaitRetest
  split
  · exact hm
  · exact engineRun_wf (kvxLane_wf _ _ _) endFlight_mem (by simp [hm])

@[simp] theorem effKvx_mem (c : C) (s : State) : (effKvx c s).state.mem = s.mem := by
  unfold effKvx
  dsimp only
  repeat' split
  all_goals simp

@[simp] theorem failWaiters_mem (s : State) (v : KvMove) : (failWaiters s v).mem = s.mem := by
  refine foldl_mem _ (fun s f => ?_) _ _
  split
  · dsimp only
    split
    · split
      · split <;> simp [foldl_mem]
      · simp [foldl_mem]
    · rfl
  · rfl

theorem moveCopy_wf (s : State) (k : KMap) (v : KvMove) {s' : State} (hm : s.mem.wf = true) (e : moveCopy s k v = .ok s') :
    s'.mem.wf = true := by
  simp only [moveCopy, bind, Except.bind, pure, Except.pure] at e
  grind [Agent.put_wf, dropCopies_mem]

theorem moveDone_wf (s : State) (k : KMap) (v : KvMove) {s' : State} (hm : s.mem.wf = true) (e : moveDone s k v = .ok s') :
    s'.mem.wf = true := by
  obtain ⟨b, -, e⟩ := bind_eq_ok e
  split at e
  · obtain ⟨s1, h1, e⟩ := bind_eq_ok e
    obtain ⟨s2, h2, e⟩ := bind_eq_ok e
    exact pushFree_wf _ _ _ _ (Agent.wr_wf _ _ _ _ _ (writeBlk_wf _ _ _ _ _ hm h1) h2) e
  · obtain ⟨s1, h1, e⟩ := bind_eq_ok e
    have h := writeBlk_wf _ _ _ _ _ hm h1
    split at e
    · exact pushBack_wf _ _ _ _ h e
    · cases e; exact h

theorem moveUndone_wf (s : State) (k : KMap) (v : KvMove) {s' : State} (hm : s.mem.wf = true) (e : moveUndone s k v = .ok s')
  :
    s'.mem.wf = true := by
  obtain ⟨b, -, e⟩ := bind_eq_ok e
  split at e
  · obtain ⟨s1, h1, e⟩ := bind_eq_ok e
    exact pushBack_wf _ _ _ _ (writeBlk_wf _ _ _ _ _ hm h1) e
  · split at e
    all_goals
      obtain ⟨s1, h1, e⟩ := bind_eq_ok e
      obtain ⟨s2, h2, e⟩ := bind_eq_ok e
      exact pushFree_wf _ _ _ _ (Agent.wr_wf _ _ _ _ _ (writeBlk_wf _ _ _ _ _ hm h1) h2) e

theorem moveEnds_wf (s : State) (k : KMap) (v : KvMove) (good : Bool) (change : Got State) (hm : s.mem.wf = true)
    (hc : ∀ t, change = .ok t → t.mem.wf = true) : (moveEnds s k v good change).mem.wf = true := by
  unfold moveEnds
  dsimp only
  split
  · next t =>
    have h := hc t rfl
    repeat' split
    all_goals simp [h]
  · simp [hm]

theorem hubChange_wf (s : State) (k : KMap) (v : KvMove) (retry : Ev) (good : Bool) (change : Got State)
    (hm : s.mem.wf = true) (hc : ∀ t, change = .ok t → t.mem.wf = true) :
    (hubChange s k v retry good change).mem.wf = true := by
  unfold hubChange
  split
  · split
    · next e => rw [meetFault_wait_mem e]; exact hm
    · next e => exact moveEnds_wf _ _ _ _ _ (by rw [meetFault_fail_mem e]; exact hm) hc
  · exact moveEnds_wf _ _ _ _ _ hm hc

@[simp] theorem runCopy_wf (s : State) (v : KvMove) (retry : Ev) (k : KMap) (hm : s.mem.wf = true) :
    (runCopy s v retry k).mem.wf = true := by
  unfold runCopy
  split
  · next e =>
    have h := moveCopy_wf _ _ _ hm e
    exact hubChange_wf _ _ _ _ _ _ h fun t e => moveDone_wf _ _ _ h e
  · split
    · next e => rw [meetFault_wait_mem e]; exact hm
    · next e =>
      have h : _ = _ := meetFault_fail_mem e
      exact hubChange_wf _ _ _ _ _ _ (by rw [h]; exact hm) fun t e => moveUndone_wf _ _ _ (by rw [h]; exact hm) e

theorem evictWork_wf (s : State) (v : KvMove) (k : KMap) {s' : State} (hm : s.mem.wf = true) (e : evictWork s v k = .ok s') :
    s'.mem.wf = true := by
  obtain ⟨sq, -, e⟩ := bind_eq_ok e
  split at e
  · cases e; simp [hm]
  · obtain ⟨b, -, e⟩ := bind_eq_ok e
    split at e
    · cases e; simp [hm]
    · split at e
      · cases e; simp [hm]
      · obtain ⟨x, -, e⟩ := bind_eq_ok e
        split at e
        · cases e; simp [hm]
        · obtain ⟨y, h1, e⟩ := bind_eq_ok e
          split at e
          · cases e; simp [hm]
          · obtain ⟨s2, h2, e⟩ := bind_eq_ok e
            cases e
            simpa using writeBlk_wf _ _ _ _ _ (popBack_wf _ _ _ hm h1) h2

@[simp] theorem runEvict_wf (s : State) (v : KvMove) (retry : Ev) (k : KMap) (hm : s.mem.wf = true) :
    (runEvict s v retry k).mem.wf = true := by
  grind [runEvict, evictWork_wf, setErr_wf, meetFault_wait_mem, meetFault_fail_mem, dropMove_mem]

@[simp] theorem runMove_wf (s : State) (v : KvMove) (retry : Ev) (hm : s.mem.wf = true) :
    (runMove s v retry).mem.wf = true := by
  grind [runMove, fillVictims_wf, runCopy_wf, meetFault_wait_mem, meetFault_fail_mem, runEvict_wf, dropMove_mem]

@[simp] theorem execKvMoveComplete_wf (id : Nat) (s : State) (hm : s.mem.wf = true) : OutWf (execKvMoveComplete id s) := by
  unfold execKvMoveComplete
  split <;> simp [hm]

@[simp] theorem execEvictionComplete_wf (id : Nat) (s : State) (hm : s.mem.wf = true) :
    OutWf (execEvictionComplete id s) := by
  unfold execEvictionComplete
  split <;> simp [hm]

@[simp] theorem evict_wf (s : State) (v : Victim) (hm : s.mem.wf = true) : (evict s v).mem.wf = true := by
  simp [evict, hm]

@[simp] theorem execDetentExpiry_wf (s : State) (hm : s.mem.wf = true) : OutWf (execDetentExpiry s) := by
  unfold execDetentExpiry
  split
  · simp [hm]
  · split
    · exact hm
    · split
      · simp [hm]
      · exact foldl_wf evict (fun s v h => evict_wf s v h) _ _ hm

@[simp] theorem execVictimConfirm_wf (i : Nat) (s : State) (hm : s.mem.wf = true) : OutWf (execVictimConfirm i s) := by
  unfold execVictimConfirm
  repeat' split
  all_goals simp [hm]

@[simp] theorem execVictimVeto_wf (i : Nat) (s : State) (hm : s.mem.wf = true) : OutWf (execVictimVeto i s) := by
  simp [execVictimVeto, hm]

@[simp] theorem execVictimReorder_wf (order : List Nat) (s : State) (hm : s.mem.wf = true) :
    OutWf (execVictimReorder order s) := by
  simp [execVictimReorder, hm]

theorem effSeq_wf {op : Agent → State → KMap → Got (State × Nat)} (c : C) (s : State) (hm : s.mem.wf = true)
    (ho : ∀ a k s r, s.mem.wf = true → op a s k = .ok r → r.1.mem.wf = true) : (effSeq op c s).state.mem.wf = true := by
  unfold effSeq
  dsimp only
  split
  · simp [hm]
  · simp [hm]
  · split
    · simp [hm]
    · next e => simpa using ho _ _ _ _ hm e

theorem entryOf_wf (a : Agent) (s : State) (k : KMap) (n p : Nat) {r : State × BlkEnt} (hm : s.mem.wf = true)
    (e : entryOf a s k n p = .ok (some r)) : r.1.mem.wf = true := by
  simp only [entryOf, bind, Except.bind, pure, Except.pure] at e
  grind [errWhen_wf]

theorem kvmapOp_wf (op n p : Nat) (a : Agent) (s : State) (k : KMap) {r : State × Nat} (hm : s.mem.wf = true)
    (e : kvmapOp op n p a s k = .ok r) : r.1.mem.wf = true := by
  obtain ⟨y, h1, e⟩ := bind_eq_ok e
  split at e
  · cases e; exact hm
  · have h := entryOf_wf _ _ _ _ _ hm h1
    dsimp only at h
    split at e
    · obtain ⟨z, h2, e⟩ := bind_eq_ok e
      split at e
      · cases e; exact h
      · have h := popFree_wf _ _ _ h h2
        obtain ⟨s2, h3, e⟩ := bind_eq_ok e
        obtain ⟨s3, h4, e⟩ := bind_eq_ok e
        cases e
        simp [writeBlk_wf _ _ _ _ _ (freshBlock_wf _ _ _ _ _ h h3) h4]
    · cases e; exact h
    · obtain ⟨z, h2, e⟩ := bind_eq_ok e
      split at e
      · cases e; exact h
      · have h := popFree_wf _ _ _ h h2
        obtain ⟨s2, h3, e⟩ := bind_eq_ok e
        obtain ⟨s3, h4, e⟩ := bind_eq_ok e
        cases e
        simp [writeBlk_wf _ _ _ _ _ (freshBlock_wf _ _ _ _ _ h h3) h4]
    · cases e; exact h
    · cases e; exact h
    · obtain ⟨s2, h3, e⟩ := bind_eq_ok e
      obtain ⟨u, -, e⟩ := bind_eq_ok e
      obtain ⟨s3, h4, e⟩ := bind_eq_ok e
      obtain ⟨s4, h5, e⟩ := bind_eq_ok e
      cases e
      exact freeIfIdle_wf _ _ _ _ (Agent.wr_wf _ _ _ _ _ (writeBlk_wf _ _ _ _ _ h h3) h4) h5
    · obtain ⟨s2, h3, e⟩ := bind_eq_ok e
      obtain ⟨s3, h4, e⟩ := bind_eq_ok e
      cases e
      exact pushBack_wf _ _ _ _ (writeBlk_wf _ _ _ _ _ h h3) h4
    · cases e; exact h

theorem shareAll_wf (a : Agent) (s : State) (k : KMap) (l : List (BlkEnt × BlkEnt)) {s' : State} (hm : s.mem.wf = true)
    (e : shareAll a s k l = .ok s') : s'.mem.wf = true := by
  induction l generalizing s with
  | nil => cases e; exact hm
  | cons x l ih =>
    rw [shareAll] at e
    obtain ⟨s1, h1, e⟩ := bind_eq_ok e
    obtain ⟨r, -, e⟩ := bind_eq_ok e
    obtain ⟨s2, h2, e⟩ := bind_eq_ok e
    exact ih _ (Agent.wr_wf _ _ _ _ _ (writeBlk_wf _ _ _ _ _ hm h1) h2) e

theorem kvshareOp_wf (dst src m : Nat) (a : Agent) (s : State) (k : KMap) {r : State × Nat} (hm : s.mem.wf = true)
    (e : kvshareOp dst src m a s k = .ok r) : r.1.mem.wf = true := by
  have hend : ∀ s1 va, s1.mem.wf = true → (do let s ← a.wr s1 va 4 m; return (s, 0) : Got (State × Nat)) = .ok r →
      r.1.mem.wf = true := by
    intro s1 va h1 e
    obtain ⟨s2, h2, e⟩ := bind_eq_ok e
    cases e
    exact Agent.wr_wf _ _ _ _ _ h1 h2
  unfold kvshareOp at e
  split at e
  · cases e; exact hm
  · obtain ⟨d, -, e⟩ := bind_eq_ok e
    obtain ⟨sq, -, e⟩ := bind_eq_ok e
    extract_lets s1 f q n at e
    have hs1 : s1.mem.wf = true := errWhen_wf _ _ _ _ hm
    split at e
    · cases e; exact hs1
    · obtain ⟨xs, -, e⟩ := bind_eq_ok e
      obtain ⟨ys, -, e⟩ := bind_eq_ok e
      extract_lets s2 nums at e
      have hs2 : s2.mem.wf = true := errWhen_wf _ _ _ _ hs1
      split at e
      · cases e; exact hs2
      · obtain ⟨fit, -, e⟩ := bind_eq_ok e
        split at e
        · cases e; exact hs2
        · obtain ⟨free, -, e⟩ := bind_eq_ok e
          split at e
          · cases e; exact hs2
          · obtain ⟨s3, h3, e⟩ := bind_eq_ok e
            have hs3 := shareAll_wf _ _ _ _ hs2 h3
            split at e
            · obtain ⟨y, h4, e⟩ := bind_eq_ok e
              split at e
              · exact hend _ _ hs3 e
              · obtain ⟨s5, h5, e⟩ := bind_eq_ok e
                obtain ⟨s6, h6, e⟩ := bind_eq_ok e
                have hs5 := freshBlock_wf _ _ _ _ _ (popFree_wf _ _ _ hs3 h4) h5
                exact hend _ _ (by simp [writeBlk_wf _ _ _ _ _ hs5 h6]) e
            · exact hend _ _ hs3 e

theorem kvlenOp_wf (set : Bool) (n len : Nat) (a : Agent) (s : State) (k : KMap) {r : State × Nat} (hm : s.mem.wf = true)
    (e : kvlenOp set n len a s k = .ok r) : r.1.mem.wf = true := by
  simp only [kvlenOp, bind, Except.bind, pure, Except.pure] at e
  grind [errWhen_wf, Agent.wr_wf]

theorem kvpinOp_wf (n p : Nat) (a : Agent) (s : State) (k : KMap) {r : State × Nat} (hm : s.mem.wf = true)
    (e : kvpinOp n p a s k = .ok r) : r.1.mem.wf = true := by
  obtain ⟨y, h1, e⟩ := bind_eq_ok e
  split at e
  · cases e; exact hm
  · have h := entryOf_wf _ _ _ _ _ hm h1
    split at e
    · cases e; exact h
    · obtain ⟨x, -, e⟩ := bind_eq_ok e
      split at e
      · cases e; exact h
      · obtain ⟨s2, h2, e⟩ := bind_eq_ok e
        cases e
        exact Agent.wr_wf _ _ _ _ _ h h2

theorem unpinAt_wf (n p : Nat) (a : Agent) (s : State) (k : KMap) {r : State × Except Nat BlkEnt} (hm : s.mem.wf = true)
    (e : unpinAt n p a s k = .ok r) : r.1.mem.wf = true := by
  obtain ⟨y, h1, e⟩ := bind_eq_ok e
  split at e
  · cases e; exact hm
  · cases e; exact entryOf_wf _ _ _ _ _ hm h1

theorem dropPin_wf (a : Agent) (s : State) (k : KMap) (b : Nat) {r : State × Nat} (hm : s.mem.wf = true)
    (e : dropPin a s k b = .ok r) : r.1.mem.wf = true := by
  obtain ⟨x, -, e⟩ := bind_eq_ok e
  split at e
  · cases e; exact hm
  · obtain ⟨s1, h1, e⟩ := bind_eq_ok e
    obtain ⟨s2, h2, e⟩ := bind_eq_ok e
    cases e
    exact freeIfIdle_wf _ _ _ _ (Agent.wr_wf _ _ _ _ _ hm h1) h2

@[simp] theorem effKvmap_wf (c : C) (s : State) (hm : s.mem.wf = true) : (effKvmap c s).state.mem.wf = true :=
  effSeq_wf c s hm fun a k s _ h e => kvmapOp_wf _ _ _ a s k h e

@[simp] theorem effKvshare_wf (c : C) (s : State) (hm : s.mem.wf = true) : (effKvshare c s).state.mem.wf = true :=
  effSeq_wf c s hm fun a k s _ h e => kvshareOp_wf _ _ _ a s k h e

@[simp] theorem effKvlen_wf (c : C) (s : State) (hm : s.mem.wf = true) : (effKvlen c s).state.mem.wf = true :=
  effSeq_wf c s hm fun a k s _ h e => kvlenOp_wf _ _ _ a s k h e

@[simp] theorem effKvpin_wf (c : C) (s : State) (hm : s.mem.wf = true) : (effKvpin c s).state.mem.wf = true :=
  effSeq_wf c s hm fun a k s _ h e => kvpinOp_wf _ _ a s k h e

@[simp] theorem effKvunpin_wf (c : C) (s : State) (hm : s.mem.wf = true) : (effKvunpin c s).state.mem.wf = true := by
  unfold effKvunpin
  dsimp only
  split
  · simp [hm]
  · simp [hm]
  · split
    · simp [hm]
    · next e => simpa using unpinAt_wf _ _ _ _ _ hm e
    · next e =>
      have h := unpinAt_wf _ _ _ _ _ hm e
      split
      · split
        · next e => simpa using dropPin_wf _ _ _ _ h e
        · simpa using h
      · split
        · simpa using h
        · split
          · next e => simpa using dropUse_wf _ _ _ _ _ h e
          · split
            · next e => simpa [meetFault_wait_mem e] using h
            · next e => simp [meetFault_fail_mem e, h]

/-! ## Task -/

@[simp] theorem handOver_mem (s : State) (u : Nat) (e : List Word64) : (handOver s u e).mem = s.mem := by
  grind [handOver, acqDrop_mem, State.setTeam_mem]

@[simp] theorem pushAnswer_mem (s : State) (m : PushMsg) (code : Nat) : (pushAnswer s m code).mem = s.mem := by
  unfold pushAnswer
  split <;> simp

@[simp] theorem appendEntry_wf (s : State) (q : Queue) (e : List Word64) (hm : s.mem.wf = true) :
    (appendEntry s q e).mem.wf = true := by
  grind [appendEntry, apply_wf, State.onQueue_mem]

@[simp] theorem pushAt_wf (s : State) (m : PushMsg) (hm : s.mem.wf = true) : (pushAt s m).mem.wf = true := by
  grind [pushAt, State.post_mem, handOver_mem, appendEntry_wf, State.onQueue_mem, pushAnswer_mem]

@[simp] theorem execQueuePushArrival_wf (id : Nat) (s : State) (hm : s.mem.wf = true) :
    OutWf (execQueuePushArrival id s) := by
  unfold execQueuePushArrival
  split <;> simp [hm]

@[simp] theorem startPush_mem (s : State) (m : PushMsg) : (startPush s m).mem = s.mem := by rfl

@[simp] theorem slotFreed_wf (s : State) (n : Nat) (hm : s.mem.wf = true) : (slotFreed s n).mem.wf = true := by
  grind [slotFreed, State.postOnce_mem, appendEntry_wf, State.onQueue_mem, pushAnswer_mem]

@[simp] theorem execQueuePopArrival_wf (u : Nat) (s : State) (hm : s.mem.wf = true) : OutWf (execQueuePopArrival u s) := by
  unfold execQueuePopArrival
  dsimp only
  repeat' split
  all_goals simp [hm]

@[simp] theorem leavePushes_mem (s : State) (u : Nat) (p : PushMsg → Bool) : (leavePushes s u p).mem = s.mem := by rfl

@[simp] theorem leaveQueues_mem (s : State) (u : Nat) (p : PushMsg → Bool) : (leaveQueues s u p).mem = s.mem := by rfl

@[simp] theorem startPop_mem (s : State) (u q d nb se : Nat) (npc : Word64) : (startPop s u q d nb se npc).mem = s.mem := by
  rfl

@[simp] theorem closeTask_mem (s : State) (u : Nat) : (closeTask s u).mem = s.mem := by rfl

theorem endTask_wf {aux : List Nat} {k : State → Eff} {c : C} {s : State} (hm : s.mem.wf = true)
    (hk : ∀ s, s.mem.wf = true → (k s).state.mem.wf = true) : (endTask aux k c s).state.mem.wf = true := by
  unfold endTask
  extract_lets free
  have hfree : ∀ s, s.mem.wf = true → (free s).state.mem.wf = true := by
    intro s hm
    unfold free
    split
    · split
      · next e => simpa [meetFault_wait_mem e] using hm
      · next e => exact hk _ (by simp [meetFault_fail_mem e, hm])
    · exact hk _ (by simp [hm])
  repeat' split
  all_goals simp [hm, hfree]

@[simp] theorem effTend_wf (c : C) (s : State) (hm : s.mem.wf = true) : (effTend c s).state.mem.wf = true :=
  endTask_wf hm fun _ h => h

@[simp] theorem counterDec_wf (s : State) (ctx k : Nat) (hm : s.mem.wf = true) : (counterDec s ctx k).1.mem.wf = true := by
  simp [counterDec, hm]

@[simp] theorem decAt_wf (s : State) (t : Team) (k : Nat) (hm : s.mem.wf = true) : (decAt s t k).1.mem.wf = true := by
  unfold decAt
  dsimp only
  split <;> simp [foldl_mem, hm]

@[simp] theorem deferOp_mem (s : State) (u : Nat) (d : Deferred) : (deferOp s u d).mem = s.mem := by rfl

@[simp] theorem deferTail_mem (s : State) (u : Nat) : (deferTail s u).mem = s.mem := by rfl

@[simp] theorem effDcdec_mem (c : C) (s : State) : (effDcdec c s).state.mem = s.mem := by
  unfold effDcdec
  dsimp only
  repeat' split
  all_goals simp

@[simp] theorem dcdecAgain_mem (s : State) (f : Flight) : (dcdecAgain s f).mem = s.mem := by
  simp [dcdecAgain]

@[simp] theorem execDcdecApply_wf (id : Nat) (s : State) (hm : s.mem.wf = true) : OutWf (execDcdecApply id s) := by
  unfold execDcdecApply
  split
  · exact hm
  · next f _ =>
    split
    · next t x r _ _ _ _ =>
      have h : (dcdecAgain s f).mem.wf = true := by simp [hm]
      generalize dcdecAgain s f = s1 at h
      dsimp only
      split
      · exact h
      · split
        · simp [h]
        · split
          · next k _ =>
            have hd := decAt_wf s1 t k h
            split <;> next e => rw [e] at hd; simp [hd]
          · simp [h]
          · split
            · next e => split <;> simp [meetFault_wait_mem e, h]
            · next e => simp [meetFault_fail_mem e, h]
    · exact hm

theorem commitSets_wf (s : State) (t : Team) {s' : State} (hm : s.mem.wf = true) (e : commitSets s t = .ok s') :
    s'.mem.wf = true := by
  grind [commitSets, State.onTeam_mem, clearUndo_wf, releaseHasps_mem]

@[simp] theorem commitDone_mem (s : State) (t : Team) : (commitDone s t).mem = s.mem := by
  unfold commitDone
  split <;> simp

@[simp] theorem commitStop_mem (s : State) (t : Team) : (commitStop s t).mem = s.mem := by
  unfold commitStop
  split <;> simp

@[simp] theorem commitNext_wf (s : State) (t : Team) (d : Deferred) (hm : s.mem.wf = true) :
    (commitNext s t d).mem.wf = true := by
  unfold commitNext
  dsimp only
  split
  · split <;> simp [hm]
  · split
    · next k _ =>
      have hd := decAt_wf s t k hm
      split <;> next e => rw [e] at hd; simp [hd]
    · simp [hm]
    · split
      · next e => simp [meetFault_wait_mem e, hm]
      · next e => simp [meetFault_fail_mem e, hm]

@[simp] theorem execTendCommit_wf (u : Nat) (s : State) (hm : s.mem.wf = true) : OutWf (execTendCommit u s) := by
  unfold execTendCommit
  split
  · exact hm
  · split
    · exact hm
    · extract_lets retry go
      have hgo : ∀ s, s.mem.wf = true → (go s).mem.wf = true := by
        intro s hm
        unfold go
        split
        · exact hm
        · split
          · exact hm
          · split
            · simp [hm]
            · split
              · simp [hm]
              · split
                · next e => simp [meetFault_wait_mem e, hm]
                · next e => simp [meetFault_fail_mem e, hm]
      split
      · next e => exact hgo _ (commitSets_wf _ _ hm e)
      · split
        · next e => simp [meetFault_wait_mem e, hm]
        · next e => exact hgo _ (by simp [meetFault_fail_mem e, hm])

@[simp] theorem effQpop_wf (c : C) (s : State) (hm : s.mem.wf = true) : (effQpop c s).state.mem.wf = true := by
  unfold effQpop
  split
  · exact hm
  · dsimp only
    split
    · exact hm
    · exact endTask_wf hm fun _ h => by simp [h]

@[simp] theorem effQpush_mem (c : C) (s : State) : (effQpush c s).state.mem = s.mem := by
  unfold effQpush
  split <;> simp

@[simp] theorem effQwpush_mem (c : C) (s : State) : (effQwpush c s).state.mem = s.mem := by
  unfold effQwpush
  split <;> simp

@[simp] theorem capturePayload_mem (s : State) (u core : Nat) : (capturePayload s u core).mem = s.mem := by rfl

@[simp] theorem payload_wf (core ctx dst n : Nat) (src : State → Nat → Byte) (fuel : Nat) (s : State) (off : Nat)
    (hm : s.mem.wf = true) : (payload core ctx dst n src fuel s off).1.mem.wf = true := by
  induction fuel generalizing s off with
  | zero => exact hm
  | succ fuel ih =>
    rw [payload]
    split
    · exact hm
    · split
      · exact ih _ _ (apply_wf _ _ hm)
      · exact hm

@[simp] theorem payloadWritten_mem (s : State) (t : Team) (f : Flight) (d : Nat) (nb : Bool) :
    (payloadWritten s t f d nb).mem = s.mem := by
  simp [payloadWritten]

@[simp] theorem payloadFailed_wf (s : State) (t : Team) (f : Flight) (d off code cause : Nat) (hm : s.mem.wf = true) :
    (payloadFailed s t f d off code cause).mem.wf = true := by
  simp [payloadFailed, hm]

@[simp] theorem effQinfo_mem (c : C) (s : State) : (effQinfo c s).state.mem = s.mem := by
  unfold effQinfo
  split <;> simp

/-! ## Surf -/

@[simp] theorem putRun_mem (s : State) (u d lane : Nat) (vs : List Nat) : (putRun s u d lane vs).mem = s.mem := by rfl

theorem sstWrites_wf (t : Team) (f : Flight) (g : Surf) (x : Ext) (r : LaneReq) (cs : List Nat) (s : State) {s' : State}
    (hm : s.mem.wf = true) (e : sstWrites t f g x r cs s = .ok s') : s'.mem.wf = true := by
  induction cs generalizing s with
  | nil => cases e; exact hm
  | cons c cs ih =>
    rw [sstWrites] at e
    split at e
    · cases e; exact hm
    · dsimp only at e
      split at e
      · cases e
      · exact ih _ (by simpa using hm) e

@[simp] theorem texFetchVA_mem (a : Agent) (s : State) (va : Nat) : (texFetchVA a s va).mem = s.mem := by
  unfold texFetchVA
  split <;> simp

@[simp] theorem indexFetch_mem (a : Agent) (s : State) (f : Surf) (n : Nat) : (indexFetch a s f n).mem = s.mem := by
  unfold indexFetch
  split <;> simp

@[simp] theorem texelFill_mem (a : Agent) (f : Surf) (s : State) (q : Nat × Nat) : (texelFill a f s q).mem = s.mem := by
  simp [texelFill, foldl_mem]

@[simp] theorem surfClose_mem (s : State) (f : Flight) : (surfClose s f).mem = s.mem := by
  unfold surfClose
  split <;> simp

theorem surfLane_wf (s : State) (t : Team) (f : Flight) (r : LaneReq) (hm : s.mem.wf = true) : (surfLane s t f r).Wf := by
  unfold surfLane
  extract_lets a0 a answer
  have ha : ∀ d vals, (answer d vals).Wf := by
    intro d vals
    unfold answer
    repeat' split
    all_goals simp [hm, foldl_mem]
  split
  · exact ha _ _
  · exact ha _ _
  · split
    · trivial
    · exact hm
    · extract_lets inside
      split
      · exact hm
      · split
        · exact hm
        · split
          · next e => exact sstWrites_wf _ _ _ _ _ _ _ hm e
          · trivial
  · exact hm

theorem surfTurn_wf (s : State) (t : Team) (f : Flight) (r : LaneReq) (hm : s.mem.wf = true) : (surfTurn s t f r).Wf := by
  unfold surfTurn
  split
  · exact hm
  · exact surfLane_wf s t f r hm

@[simp] theorem execSamplerComplete_wf (id : Nat) (s : State) (hm : s.mem.wf = true) : OutWf (execSamplerComplete id s) :=
  engineRun_wf surfTurn_wf surfClose_mem hm

@[simp] theorem effSurf_mem (st : Bool) (c : C) (s : State) : (effSurf st c s).state.mem = s.mem := by
  unfold effSurf
  dsimp only
  repeat' split
  all_goals simp

@[simp] theorem effSqry_mem (c : C) (s : State) : (effSqry c s).state.mem = s.mem := by
  grind [effSqry, meetFault_wait_mem, meetFault_fail_mem, C.putS_mem, State.onTeam_mem, Eff.state_done, Eff.state_wait]

/-! ## Tile -/

@[simp] theorem execTileProcess_wf (die id : Nat) (s : State) (hm : s.mem.wf = true) : OutWf (execTileProcess die id s) := by
  unfold execTileProcess
  split <;> simp [hm]

@[simp] theorem execFragmentPush_wf (die id : Nat) (s : State) (hm : s.mem.wf = true) :
    OutWf (execFragmentPush die id s) := by
  unfold execFragmentPush
  dsimp only
  repeat' split
  all_goals simp [hm]

@[simp] theorem tilerWrites_wf (a : Agent) (opener : Nat) (s : State) (ws : List (Nat × List Byte)) (hm : s.mem.wf = true) :
    (tilerWrites a opener s ws).mem.wf = true := by
  refine foldl_wf _ (fun s w h => ?_) _ _ hm
  split
  · next e => exact writeVA_wf _ _ _ _ _ _ h e
  · simp [h]
  · simp [h]

theorem tilerPut_wf {s : State} {p : Pass} {ws : List (Nat × List Byte)} {retry : Ev} {k : State → State}
    (hm : s.mem.wf = true) (hk : ∀ s, (k s).mem = s.mem) : (tilerPut s p ws retry k).mem.wf = true := by
  unfold tilerPut
  dsimp only
  split
  · simp [hk, hm]
  · split
    · next e => rw [meetFault_wait_mem e]; exact hm
    · next e => simp [hk, meetFault_fail_mem e, hm]

@[simp] theorem commitTile_mem (s : State) (p : Pass) (evals cut : Nat) : (commitTile s p evals cut).mem = s.mem := by
  simp [commitTile]

@[simp] theorem endPass_mem (s : State) (p : Pass) : (endPass s p).mem = s.mem := by
  simp [endPass]

@[simp] theorem execTileComposite_wf (die id : Nat) (s : State) (hm : s.mem.wf = true) :
    OutWf (execTileComposite die id s) := by
  unfold execTileComposite
  split
  · exact hm
  · dsimp only
    split
    · exact hm
    · split
      · exact tilerPut_wf hm fun s => endPass_mem s _
      · split
        · exact hm
        · split
          · simp [hm]
          · exact tilerPut_wf hm fun s => commitTile_mem s _ _ _

@[simp] theorem dropFragments_mem (s : State) (die id : Nat) : (dropFragments s die id).mem = s.mem := by rfl

@[simp] theorem execTileKill_wf (die id : Nat) (s : State) (hm : s.mem.wf = true) : OutWf (execTileKill die id s) := by
  unfold execTileKill
  split <;> simp [hm]

@[simp] theorem effBinbeg_mem (c : C) (s : State) : (effBinbeg c s).state.mem = s.mem := by
  unfold effBinbeg
  dsimp only
  repeat' split
  all_goals simp

@[simp] theorem effPrim_wf (form n : Nat) (c : C) (s : State) (hm : s.mem.wf = true) :
    (effPrim form n c s).state.mem.wf = true := by
  unfold effPrim
  split
  · exact hm
  · split
    · exact hm
    · extract_lets r put
      have hput : ∀ (ws : List (Nat × Nat)) g, (∀ s', g = .ok s' → s'.mem.wf = true) → ∀ s', ws.foldl put g = .ok s' →
        s'.mem.wf = true := by
        intro ws
        induction ws with
        | nil => intro g hg s' e; exact hg s' e
        | cons w ws ih =>
          intro g hg s' e
          refine ih _ (fun s1 e1 => ?_) s' e
          unfold put at e1
          split at e1
          · exact Agent.put_wf _ _ _ _ (hg _ rfl) e1
          · exact hg _ e1
      split
      · simp [hm]
      · next e => simpa using hput _ _ (fun s' e => Except.ok.inj e ▸ hm) _ e

@[simp] theorem closePass_mem (s : State) (die id : Nat) : (closePass s die id).mem = s.mem := by rfl

@[simp] theorem effBinend_mem (c : C) (s : State) : (effBinend c s).state.mem = s.mem := by
  unfold effBinend
  split <;> simp

@[simp] theorem closeOwnPasses_mem (s : State) (u : Nat) : (closeOwnPasses s u).mem = s.mem := by
  simp [closeOwnPasses, foldl_mem]

@[simp] theorem effFragout_mem (c : C) (s : State) : (effFragout c s).state.mem = s.mem := by
  unfold effFragout
  dsimp only
  repeat' split
  all_goals simp

@[simp] theorem effTstat_mem (c : C) (s : State) : (effTstat c s).state.mem = s.mem := by
  unfold effTstat
  dsimp only
  repeat' split
  all_goals simp

/-! ## Copy -/

theorem writeUnit_wf (s : State) (core : Nat) (k : Copy) (e : CopyEnv) (u : Nat) (bs : List Byte) {s' : State}
    (hm : s.mem.wf = true) (e : writeUnit s core k e u bs = .ok s') : s'.mem.wf = true := by
  grind [writeUnit, State.onCore_mem, writeVA_wf]

@[simp] theorem moveUnits_wf (core : Nat) (k : Copy) (e : CopyEnv) (us : List Nat) (s : State) (hm : s.mem.wf = true) :
    (moveUnits core k e us s).1.mem.wf = true := by
  induction us generalizing s with
  | nil => exact hm
  | cons u us ih => grind [moveUnits, writeUnit_wf]

@[simp] theorem answerQueries_mem (s : State) (core id : Nat) (w : Word64) : (answerQueries s core id w).mem = s.mem := by
  simp [answerQueries, foldl_mem]

@[simp] theorem yieldWake_mem (s : State) (core id : Nat) : (yieldWake s core id).mem = s.mem := by rfl

@[simp] theorem dropCopy_mem (s : State) (core : Nat) (k : Copy) : (dropCopy s core k).mem = s.mem := by
  simp [dropCopy, foldl_mem]

@[simp] theorem endCopy_wf (s : State) (core : Nat) (k : Copy) (code cause idx : Nat) (hm : s.mem.wf = true) :
    (endCopy s core k code cause idx).mem.wf = true := by
  unfold endCopy
  split <;> simp [hm]

@[simp] theorem copyStopped_wf (s after : State) (core : Nat) (k : Copy) (x : CopyStop) (hm : s.mem.wf = true)
    (ha : after.mem.wf = true) : (copyStopped s after core k x).mem.wf = true := by
  cases x with
  | ended code cause idx => exact endCopy_wf _ _ _ _ _ _ ha
  | absent va u =>
    rw [copyStopped]
    split
    · next e => rw [meetFault_wait_mem e]; exact hm
    · exact endCopy_wf _ _ _ _ _ _ ha

@[simp] theorem execCopyComplete_wf (core id : Nat) (s : State) (hm : s.mem.wf = true) :
    OutWf (execCopyComplete core id s) := by
  unfold execCopyComplete
  split
  · exact hm
  · next k _ =>
    split
    · exact hm
    · split
      · simp [hm]
      · split
        · simp [hm]
        · next e' _ =>
          have h := moveUnits_wf core k e' k.units s hm
          split
          · simp [hm]
          · split
            · simp [hm]
            · split <;> next e => rw [e] at h; simp_all

@[simp] theorem startCopy_mem (s : State) (t : Team) (sd : Nat) (d : CopyDesc) (rows : Option (List Nat)) :
    (startCopy s t sd d rows).mem = s.mem := by rfl

@[simp] theorem execCopyDescriptorRead_wf (core id : Nat) (s : State) (hm : s.mem.wf = true) :
    OutWf (execCopyDescriptorRead core id s) := by
  unfold execCopyDescriptorRead
  dsimp only
  split
  · exact hm
  · split
    · split
      · simp [hm]
      · split
        · simp [hm]
        · split
          · next e => simp [foldl_mem, meetFault_wait_mem e, hm]
          · next e => simp [meetFault_fail_mem e, hm]
    · exact hm

@[simp] theorem effCpy_mem (gather : Bool) (c : C) (s : State) : (effCpy gather c s).state.mem = s.mem := by
  simp [effCpy]

@[simp] theorem effCpyw_mem (c : C) (s : State) : (effCpyw c s).state.mem = s.mem := by
  simp [effCpyw]

@[simp] theorem effCpyq_mem (c : C) (s : State) : (effCpyq c s).state.mem = s.mem := by
  simp [effCpyq]

@[simp] theorem holdCopies_mem (s : State) (t : Team) : (holdCopies s t).mem = s.mem := by rfl

@[simp] theorem resumeCopies_mem (s : State) (t : Team) : (resumeCopies s t).mem = s.mem := by
  simp [resumeCopies, foldl_mem]

@[simp] theorem killCopies_mem (s : State) (t : Team) : (killCopies s t).mem = s.mem := by
  simp [killCopies, foldl_mem]

theorem flushLine_ok_wf (core ctx : Nat) (s : State) (l : Line) {s' : State} (hm : s.mem.wf = true)
    (e : flushLine core ctx s l = .ok s') : s'.mem.wf = true := by
  grind [flushLine, writeVA_wf, freeLine_mem, meetFault_fail_mem]

theorem flushLine_error_wf (core ctx : Nat) (s : State) (l : Line) {s' : State} (hm : s.mem.wf = true)
    (e : flushLine core ctx s l = .error s') : s'.mem.wf = true := by
  grind [flushLine, meetFault_wait_mem]

theorem flushLines_cons (core ctx : Nat) (l : Line) (ls : List Line) (s : State) : flushLines core ctx (l :: ls) s =
    match flushLine core ctx s l with
    | .ok s => flushLines core ctx ls s
    | .error s => .error s := by
  delta flushLines
  rfl

theorem flushLines_ok_wf (core ctx : Nat) (ls : List Line) (s : State) {s' : State} (hm : s.mem.wf = true)
    (e : flushLines core ctx ls s = .ok s') : s'.mem.wf = true := by
  induction ls generalizing s with
  | nil => rw [← Except.ok.inj e]; exact hm
  | cons l ls ih =>
    rw [flushLines_cons] at e
    split at e
    · next e1 => exact ih _ (flushLine_ok_wf _ _ _ _ hm e1) e
    · exact absurd e (by simp)

theorem flushLines_error_wf (core ctx : Nat) (ls : List Line) (s : State) {s' : State} (hm : s.mem.wf = true)
    (e : flushLines core ctx ls s = .error s') : s'.mem.wf = true := by
  induction ls generalizing s with
  | nil => exact Except.noConfusion rfl rfl (heq_of_eq e)
  | cons l ls ih =>
    rw [flushLines_cons] at e
    split at e
    · next e1 => exact ih _ (flushLine_ok_wf _ _ _ _ hm e1) e
    · next e1 => rw [← Except.error.inj e]; exact flushLine_error_wf _ _ _ _ hm e1

@[simp] theorem execPoolUseEnd_wf (core ctx : Nat) (s : State) (hm : s.mem.wf = true) :
    OutWf (execPoolUseEnd core ctx s) := by
  unfold execPoolUseEnd
  dsimp only
  split
  · simp [hm]
  · split
    · next e => exact flushLines_error_wf _ _ _ _ hm e
    · next e => simpa [foldl_mem] using flushLines_ok_wf _ _ _ _ hm e

@[simp] theorem execFillComplete_wf (core n : Nat) (s : State) (hm : s.mem.wf = true) :
    OutWf (execFillComplete core n s) := by
  unfold execFillComplete
  split
  · exact hm
  · dsimp only
    split
    · exact hm
    · split
      · simp [hm]
      · split
        · simp [hm]
        · split
          · next e => simp [meetFault_wait_mem e, hm]
          · next e => simp [meetFault_fail_mem e, hm]

@[simp] theorem execWritebackComplete_wf (core n : Nat) (s : State) (hm : s.mem.wf = true) :
    OutWf (execWritebackComplete core n s) := by
  unfold execWritebackComplete
  split
  · exact hm
  · next l _ =>
    have h : (tlbFill s core l.ctx (tagAddr l.tag)).mem.wf = true := by simp [hm]
    dsimp only
    split
    · exact hm
    · split
      · simp [hm]
      · split
        · next e => simpa using writeVA_wf _ _ _ _ _ _ h e
        · split
          · next e => simp [meetFault_wait_mem e, hm]
          · next e => simp [meetFault_fail_mem e, hm]

@[simp] theorem execQwpushPayloadDone_wf (id : Nat) (s : State) (hm : s.mem.wf = true) :
    OutWf (execQwpushPayloadDone id s) := by
  unfold execQwpushPayloadDone
  dsimp only
  split
  · exact hm
  · next f _ =>
    split
    · next t x _ _ =>
      have h := payload_wf t.core t.ctx (f.aux.getD 6 0) (f.aux.getD 2 0) (payloadByte t.core f) 4 s (f.aux.getD 3 0) hm
      split
      · simp [hm]
      · split
        · next e => rw [e] at h; simp [h]
        · next e =>
          rw [e] at h
          split
          · next e => simpa [meetFault_wait_mem e] using h
          · next e => exact payloadFailed_wf _ _ _ _ _ _ _ (by simpa [meetFault_fail_mem e] using h)
    · exact hm

/-! ## Ctrl -/

@[simp] theorem branchIf_mem (p : C → State → Bool) (c : C) (s : State) : (branchIf p c s).state.mem = s.mem := by
  unfold branchIf
  split <;> rfl

@[simp] theorem effBra_mem (c : C) (s : State) : (effBra c s).state.mem = s.mem := branchIf_mem _ c s

@[simp] theorem effBmz_mem (c : C) (s : State) : (effBmz c s).state.mem = s.mem := branchIf_mem _ c s

@[simp] theorem effBmnz_mem (c : C) (s : State) : (effBmnz c s).state.mem = s.mem := branchIf_mem _ c s

@[simp] theorem effBsc_mem (c : C) (s : State) : (effBsc c s).state.mem = s.mem := branchIf_mem _ c s

@[simp] theorem effCall_mem (c : C) (s : State) : (effCall c s).state.mem = s.mem := by
  simp [effCall]

@[simp] theorem effJump_mem (c : C) (s : State) : (effJump c s).state.mem = s.mem := by
  simp [effJump]

@[simp] theorem effLoop_mem (c : C) (s : State) : (effLoop c s).state.mem = s.mem := by
  simp [effLoop]

@[simp] theorem effBrk_mem (c : C) (s : State) : (effBrk c s).state.mem = s.mem := by
  simp [effBrk]

@[simp] theorem effNop_mem (_c : C) (s : State) : (effNop _c s).state.mem = s.mem := by rfl

@[simp] theorem effPmask_mem (c : C) (s : State) : (effPmask c s).state.mem = s.mem := by rfl

@[simp] theorem effMpred_mem (c : C) (s : State) : (effMpred c s).state.mem = s.mem := by rfl

@[simp] theorem effMpop_mem (c : C) (s : State) : (effMpop c s).state.mem = s.mem := by rfl

@[simp] theorem effMfirst_mem (c : C) (s : State) : (effMfirst c s).state.mem = s.mem := by rfl

/-! ## Hist -/

@[simp] theorem fieldFill_mem (k : Walker) (s : State) (seen : List (Nat × Option Nat × Nat)) :
    (fieldFill k s seen).mem = s.mem := by rfl

@[simp] theorem fieldDrop_mem (s : State) (ctx num : Nat) : (fieldDrop s ctx num).mem = s.mem := by rfl

@[simp] theorem withSnap_mem (s : State) (id : Nat) (retry : Ev) : (withSnap s id retry).mem = s.mem := by
  grind [withSnap, State.setFlight_mem]

theorem hldFail_wf (s : State) (f : Flight) (x : Ext) (lane code : Nat) (w : Walked) (hm : s.mem.wf = true) :
    (hldFail s f x lane code w).Wf := by
  unfold hldFail
  split <;> simp [hm]

theorem hldSample_wf (a : Agent) (s : State) (f : Flight) (x : Ext) (lane : Nat) (w : Walked) (g : Surf) (sc : Nat)
    (hm : s.mem.wf = true) : (hldSample a s f x lane w g sc).Wf := by
  unfold hldSample
  dsimp only
  split <;> simp [hm]

theorem tumbleLane_wf (s : State) (t : Team) (f : Flight) (r : LaneReq) (hm : s.mem.wf = true) : (tumbleLane s t f r).Wf := by
  unfold tumbleLane
  extract_lets go
  have hgo : ∀ x must k, (∀ s e, s.mem.wf = true → (k s e).Wf) → (go x must k).Wf := by
    intro x must k hk
    unfold go
    dsimp only
    repeat' split
    any_goals simp [hm]
    all_goals exact hk _ _ (by simp [hm])
  clear_value go
  split
  · apply hgo
    intro s e hm
    split
    · exact hldFail_wf _ _ _ _ _ _ hm
    · exact hldSample_wf _ _ _ _ _ _ _ _ hm
    · exact hldFail_wf _ _ _ _ _ _ hm
    · exact hm
  · apply hgo
    intro s e hm
    split <;> simp [hm]
  · exact hm

theorem tumbleTurn_wf (s : State) (t : Team) (f : Flight) (r : LaneReq) (hm : s.mem.wf = true) : (tumbleTurn s t f r).Wf := by
  have h := tumbleLane_wf s t f r hm
  unfold tumbleTurn
  split
  · exact hm
  · split
    · next e =>
      rw [e] at h
      split
      · simp [hm]
      · exact h
    · exact h

@[simp] theorem execWalkComplete_wf (id : Nat) (s : State) (hm : s.mem.wf = true) : OutWf (execWalkComplete id s) :=
  engineRun_wf tumbleTurn_wf (closeWith_mem _) (by simp [hm])

@[simp] theorem execWalkWaitRetest_wf (id : Nat) (s : State) (hm : s.mem.wf = true) : OutWf (execWalkWaitRetest id s) :=
  engineRun_wf tumbleTurn_wf (closeWith_mem _) (by simp [hm])

@[simp] theorem C.meetLanes_mem (c : C) (s : State) (va path : Nat) (e : Tr) :
    (c.meetLanes s va path e).state.mem = s.mem := by
  have h := C.meet_mem c s va path e
  unfold C.meetLanes
  split
  · next e' => rw [e'] at h; exact h
  · exact h

@[simp] theorem startWalk_mem (c : C) (s : State) (snap : List Nat) : (startWalk c s snap).state.mem = s.mem := by rfl

@[simp] theorem effWalk_mem (c : C) (s : State) : (effWalk c s).state.mem = s.mem := by
  unfold effWalk
  dsimp only
  split
  · simp
  · split
    · simp
    · split
      · simp
      · split
        · simp
        · split
          · simp
          · next va e h =>
            have hl := C.meetLanes_mem c s va 3 e
            split
            · next e1 =>
              rw [e1] at hl
              split
              · exact (startWalk_mem _ _ _).trans hl
              · exact hl
            · exact hl

theorem setDrop_wf (a : Agent) (s : State) (va : Nat) {s' : State} (hm : s.mem.wf = true) (e : setDrop a s va = .ok s') :
    s'.mem.wf = true := by
  simp only [setDrop, bind, Except.bind, pure, Except.pure] at e
  grind [Agent.wr_wf]

theorem mfstLane_wf (s : State) (t : Team) (f : Flight) (r : LaneReq) (hm : s.mem.wf = true) : (mfstLane s t f r).Wf := by
  unfold mfstLane
  extract_lets a va i cx cy lo hi work
  have hw : ∀ x, work = .ok x → x.Wf := by
    intro x e
    obtain ⟨d, -, e⟩ := bind_eq_ok e
    split at e
    · obtain ⟨s1, h1, e⟩ := bind_eq_ok e
      cases e
      exact setDrop_wf _ _ _ hm h1
    · obtain ⟨h, -, e⟩ := bind_eq_ok e
      split at e
      · obtain ⟨s1, h1, e⟩ := bind_eq_ok e
        cases e
        exact setDrop_wf _ _ _ hm h1
      · extract_lets at_ at e
        split at e
        · cases e; exact hm
        · obtain ⟨s1, h1, e⟩ := bind_eq_ok e
          cases e
          exact Agent.wr_wf _ _ _ _ _ hm h1
  generalize work = work at hw
  split
  · exact hm
  · cases work with
    | ok x => exact hw x rfl
    | error e => trivial

@[simp] theorem execMfstApply_wf (id : Nat) (s : State) (hm : s.mem.wf = true) : OutWf (execMfstApply id s) :=
  engineRun_wf mfstLane_wf closeLate_mem hm

@[simp] theorem effMfst_mem (c : C) (s : State) : (effMfst c s).state.mem = s.mem := by
  simp [effMfst]

theorem onChain_mem {k : Nat → Chain → C → State → Eff} {c : C} {s : State} (hk : ∀ n d, (k n d c s).state.mem = s.mem) :
    (onChain k c s).state.mem = s.mem := by
  unfold onChain
  dsimp only
  repeat' split
  all_goals simp [hk]

theorem onChain_wf {k : Nat → Chain → C → State → Eff} {c : C} {s : State} (hm : s.mem.wf = true)
    (hk : ∀ n d, (k n d c s).state.mem.wf = true) : (onChain k c s).state.mem.wf = true := by
  unfold onChain
  dsimp only
  repeat' split
  all_goals simp [hk, hm]

theorem sealField_wf (a : Agent) (s : State) (d : Chain) (p : Nat) {s' : State} (hm : s.mem.wf = true)
    (e : sealField a s d p = .ok s') : s'.mem.wf = true := by
  simp only [sealField, bind, Except.bind, pure, Except.pure] at e
  grind [Agent.wr_wf]

@[simp] theorem startChange_mem (n i : Nat) (e : Nat → Ev) (c : C) (s : State) :
    (startChange n i e c s).state.mem = s.mem := by
  unfold startChange
  split <;> simp

@[simp] theorem effMfseal_mem (c : C) (s : State) : (effMfseal c s).state.mem = s.mem := by
  refine onChain_mem fun n d => ?_
  split <;> simp

@[simp] theorem effChadv_mem (c : C) (s : State) : (effChadv c s).state.mem = s.mem := onChain_mem fun _ _ => startChange_mem
  ..

@[simp] theorem closeChange_mem (s : State) (f : Flight) : (closeChange s f).mem = s.mem := by
  simp [closeChange]

theorem changeLane_wf {k : Agent → State → Nat → Chain → Got Found} {s : State} {t : Team} {f : Flight} {r : LaneReq}
    (hm : s.mem.wf = true) (hk : ∀ a va d x, k a s va d = .ok x → x.Wf) : (changeLane k s t f r).Wf := by
  unfold changeLane
  extract_lets a va n work
  have hw : ∀ x, work = .ok x → x.Wf := by
    intro x e
    obtain ⟨d, -, e⟩ := bind_eq_ok e
    split at e
    · cases e; exact hm
    · exact hk _ _ _ _ e
  generalize work = work at hw
  split
  · exact hm
  · split
    · simpa using hw _ rfl
    · exact hw _ rfl
    · trivial

theorem sealLane_wf {f : Flight} {a : Agent} {s : State} {d : Chain} {x : Found} (hm : s.mem.wf = true)
    (e : (do return .done (← sealField a s d (cPhys d (f.aux.getD 2 0))) : Got Found) = .ok x) : x.Wf := by
  obtain ⟨s1, h1, e⟩ := bind_eq_ok e
  cases e
  exact sealField_wf _ _ _ _ hm h1

@[simp] theorem execMfsealApply_wf (id : Nat) (s : State) (hm : s.mem.wf = true) : OutWf (execMfsealApply id s) :=
  engineRun_wf (fun _ _ _ _ hm => changeLane_wf hm fun _ _ _ _ e => sealLane_wf hm e) closeChange_mem hm

theorem sealEach_wf (a : Agent) (s : State) (d : Chain) (ns : List Nat) {s' : State} (hm : s.mem.wf = true)
    (e : sealEach a s d ns = .ok s') : s'.mem.wf = true := by
  induction ns generalizing s with
  | nil => cases e; exact hm
  | cons n ns ih =>
    rw [sealEach] at e
    obtain ⟨s1, h1, e⟩ := bind_eq_ok e
    exact ih _ (sealField_wf _ _ _ _ hm h1) e

theorem sealAll_wf (a : Agent) (s : State) (d : Chain) {s' : State} (hm : s.mem.wf = true) (e : sealAll a s d = .ok s') :
    s'.mem.wf = true := sealEach_wf a s d _ hm e

theorem advanceField_wf (a : Agent) (s : State) (d : Chain) (n : Nat) {s' : State} (hm : s.mem.wf = true)
    (e : advanceField a s d n = .ok s') : s'.mem.wf = true := by
  obtain ⟨h, -, e⟩ := bind_eq_ok e
  split at e
  · cases e; exact hm
  · dsimp only at e
    split at e
    · obtain ⟨s1, h1, e⟩ := bind_eq_ok e
      exact Agent.wr_wf _ _ _ _ _ (Agent.put_wf _ _ _ _ hm h1) e
    · exact Agent.wr_wf _ _ _ _ _ hm e

theorem cutRecs_wf (a : Agent) (s : State) (va : Nat) (d : Chain) (p : Nat → Bool) (qs : List Nat) {s' : State}
    (hm : s.mem.wf = true) (e : cutRecs a s va d p qs = .ok s') : s'.mem.wf = true := by
  induction qs generalizing s with
  | nil => cases e; exact hm
  | cons q qs ih =>
    simp only [cutRecs, bind, Except.bind, pure, Except.pure] at e
    repeat' split at e
    all_goals grind [Agent.wr_wf]

theorem advance_wf (a : Agent) (s : State) (va : Nat) (d : Chain) {s' : State} (hm : s.mem.wf = true)
    (e : advance a s va d = .ok s') : s'.mem.wf = true := by
  obtain ⟨s1, h1, e⟩ := bind_eq_ok e
  obtain ⟨s2, h2, e⟩ := bind_eq_ok e
  obtain ⟨s3, h3, e⟩ := bind_eq_ok e
  obtain ⟨s4, h4, e⟩ := bind_eq_ok e
  have h := Agent.wr_wf _ _ _ _ _ (Agent.wr_wf _ _ _ _ _ (Agent.wr_wf _ _ _ _ _ hm h1) h2) h3
  exact cutRecs_wf _ _ _ _ _ _ (advanceField_wf _ _ _ _ h h4) e

theorem chadvLane_wf {f : Flight} {t : Team} {a : Agent} {s : State} {va : Nat} {d : Chain} {x : Found} (hm : s.mem.wf = true)
    (e : chadvLane f t a s va d = .ok x) : x.Wf := by
  obtain ⟨s1, h1, e⟩ := bind_eq_ok e
  have h := sealAll_wf _ _ _ hm h1
  extract_lets here before at e
  split at e
  · cases e; exact h
  · obtain ⟨s2, h2, e⟩ := bind_eq_ok e
    cases e
    exact advance_wf _ _ _ _ h h2

@[simp] theorem execChadvApply_wf (id : Nat) (s : State) (hm : s.mem.wf = true) : OutWf (execChadvApply id s) :=
  engineRun_wf (fun _ _ _ _ hm => changeLane_wf hm fun _ _ _ _ e => chadvLane_wf hm e) closeChange_mem hm

@[simp] theorem effMfinv_wf (c : C) (s : State) (hm : s.mem.wf = true) : (effMfinv c s).state.mem.wf = true := by
  refine onChain_wf hm fun n d => ?_
  dsimp only
  split
  · exact hm
  · split
    · exact hm
    · split
      · next e =>
        obtain ⟨s1, h1, e⟩ := bind_eq_ok e
        simpa using cutRecs_wf _ _ _ _ _ _ (Agent.wr_wf _ _ _ _ _ hm h1) e
      · simp [hm]

@[simp] theorem effChqry_wf (c : C) (s : State) (hm : s.mem.wf = true) : (effChqry c s).state.mem.wf = true := by
  refine onChain_wf hm fun n d => ?_
  dsimp only
  split
  · simp [hm]
  · simp [hm]
  · simp [hm]
  · split
    · split
      · next e => simpa using Agent.wr_wf _ _ _ _ _ hm e
      · simp [hm]
    · simp [hm]

@[simp] theorem effMfshort_mem (c : C) (s : State) : (effMfshort c s).state.mem = s.mem := by
  refine onChain_mem fun n d => ?_
  simp

theorem shortStart_wf (a : Agent) (s : State) (va : Nat) (x : Ext) {r : State × Option Nat × List Nat} (hm : s.mem.wf = true)
    (e : shortStart a s va x = .ok r) : r.1.mem.wf = true := by
  obtain ⟨d, -, e⟩ := bind_eq_ok e
  obtain ⟨y, -, e⟩ := bind_eq_ok e
  split at e
  · cases e; exact hm
  · obtain ⟨old, -, e⟩ := bind_eq_ok e
    dsimp only at e
    split at e
    · obtain ⟨s0, h0, e⟩ := bind_eq_ok e
      obtain ⟨s1, h1, e⟩ := bind_eq_ok e
      obtain ⟨s2, h2, e⟩ := bind_eq_ok e
      cases e
      exact Agent.wr_wf _ _ _ _ _ (Agent.put_wf _ _ _ _ (Agent.put_wf _ _ _ _ hm h0) h1) h2
    · obtain ⟨s0, h0, e⟩ := bind_eq_ok e
      cases h0
      obtain ⟨s1, h1, e⟩ := bind_eq_ok e
      obtain ⟨s2, h2, e⟩ := bind_eq_ok e
      cases e
      exact Agent.wr_wf _ _ _ _ _ (Agent.put_wf _ _ _ _ hm h1) h2

theorem shortEnd_wf (a : Agent) (s : State) (va : Nat) (x : Ext) (keep : List Nat) {r : State × Nat} (hm : s.mem.wf = true)
    (e : shortEnd a s va x keep = .ok r) : r.1.mem.wf = true := by
  obtain ⟨d, -, e⟩ := bind_eq_ok e
  obtain ⟨y, -, e⟩ := bind_eq_ok e
  split at e
  · dsimp only at e
    split at e
    · obtain ⟨s1, h1, e⟩ := bind_eq_ok e
      cases e
      exact Agent.wr_wf _ _ _ _ _ hm h1
    · cases e; exact hm
  · obtain ⟨bs, -, e⟩ := bind_eq_ok e
    obtain ⟨s1, h1, e⟩ := bind_eq_ok e
    obtain ⟨s2, h2, e⟩ := bind_eq_ok e
    obtain ⟨s3, h3, e⟩ := bind_eq_ok e
    cases e
    exact Agent.wr_wf _ _ _ _ _ (Agent.put_wf _ _ _ _ (Agent.put_wf _ _ _ _ hm h1) h2) h3

@[simp] theorem shortDone_mem (s : State) (t : Team) (f : Flight) (st : Nat) : (shortDone s t f st).mem = s.mem := by
  simp [shortDone]

@[simp] theorem shortMeet_wf (s : State) (t : Team) (f : Flight) (va : Nat) (e : Tr) (hm : s.mem.wf = true) :
    (shortMeet s t f va e).mem.wf = true := by
  unfold shortMeet
  dsimp only
  split
  · next e => rw [meetFault_wait_mem e]; exact hm
  · next s1 _ _ e =>
    have h : s1.mem.wf = true := by rw [meetFault_fail_mem e]; exact hm
    rw [shortDone_mem]
    split
    · exact h
    · split
      · split
        · exact Got.state_wf h fun s' e => Agent.wr_wf _ _ _ _ _ h e
        · exact h
      · exact h

@[simp] theorem execMfshortComplete_wf (id : Nat) (s : State) (hm : s.mem.wf = true) : OutWf (execMfshortComplete id s) := by
  unfold execMfshortComplete
  dsimp only
  split
  · exact hm
  · split
    · split
      · simp [hm]
      · split
        · split
          · simp [hm]
          · next e => simpa using shortStart_wf _ _ _ _ hm e
          · next e => simpa using shortStart_wf _ _ _ _ hm e
        · split
          · simp [hm]
          · next e => simpa using shortEnd_wf _ _ _ _ _ hm e
    · exact hm

/-! ## Sys -/

@[simp] theorem effSrd_mem (c : C) (s : State) : (effSrd c s).state.mem = s.mem := by
  simp [effSrd]

@[simp] theorem effSwr_mem (c : C) (s : State) : (effSwr c s).state.mem = s.mem := by
  unfold effSwr
  dsimp only
  repeat' split
  all_goals simp

@[simp] theorem effTrap_mem (c : C) (s : State) : (effTrap c s).state.mem = s.mem := by rfl

@[simp] theorem execTrapDelivery_wf (u : Nat) (s : State) (hm : s.mem.wf = true) : OutWf (execTrapDelivery u s) := by
  unfold execTrapDelivery
  repeat' split
  all_goals simp [hm]

@[simp] theorem relaunch_mem (s : State) (e : Entry) (t : Team) (snap aux : List Nat) (gate : Bool) (waits : List Nat)
    (ev : Nat → Ev) : (relaunch s e t snap aux gate waits ev).mem = s.mem := by
  grind [relaunch, State.post_mem, C.launch_mem]

@[simp] theorem rebind_mem (s : State) (u i id : Nat) : (rebind s u i id).mem = s.mem := by rfl

@[simp] theorem Entry.hold_mem (e : Entry) (s : State) (u code sub : Nat) : (Entry.hold e s u code sub).mem = s.mem := by
  grind [Entry.hold, raise_mem]

@[simp] theorem finish_mem_state (c : C) (e : Eff) : (finish c e).mem = e.state.mem := by
  cases e with
  | done s => simp [finish]
  | jump s pc => simp [finish]
  | wait s => rfl
  | trap s tr =>
    unfold finish
    dsimp only
    split <;> simp

@[simp] theorem finishHold_mem (c : C) (e : Eff) : (finishHold c e).mem = e.state.mem := by
  cases e with
  | done s => rfl
  | jump s pc => exact finish_mem_state ..
  | wait s => exact finish_mem_state ..
  | trap s tr => exact finish_mem_state ..

@[simp] theorem reinject_mem (s : State) (u : Nat) (e : Entry) : (reinject s u e).mem = s.mem := by
  unfold reinject
  split
  · rfl
  · extract_lets c go named first
    have hgo : ∀ snap aux gate ev, (go snap aux gate ev).mem = s.mem := fun _ _ _ _ => relaunch_mem ..
    have hnamed : ∀ n r, r.mem = s.mem → (named n r).mem = s.mem := by
      intro n r hr
      unfold named
      split
      · simp
      · exact hr
    clear_value go named
    split
    · simp
    · split
      any_goals simp [hgo, hnamed]
      · split <;> simp [hgo]

@[simp] theorem Entry.reinjectPart_mem (e : Entry) (s : State) (t : Team) (m : MemOp) :
    (Entry.reinjectPart e s t m).mem = s.mem := by
  grind [Entry.reinjectPart, reinject_mem, fillDst_mem, raise_mem]

@[simp] theorem effTret_mem (c : C) (s : State) : (effTret c s).state.mem = s.mem := by
  unfold effTret
  split
  · simp
  · split
    · simp
    · split
      · simp
      · extract_lets t es back again _ redo s1 s2
        have hagain : ∀ s e, (again s e).mem = s.mem := by
          intro s e
          unfold again
          split
          · split <;> simp
          · simp
        have h2 : s2.mem = s.mem := foldl_mem again hagain es s1
        repeat' split
        all_goals simp [h2]

@[simp] theorem execTretResume_wf (u : Nat) (s : State) (hm : s.mem.wf = true) : OutWf (execTretResume u s) := by
  unfold execTretResume
  split <;> simp [hm]

@[simp] theorem effYchk_mem (c : C) (s : State) : (effYchk c s).state.mem = s.mem := by rfl

@[simp] theorem effYsave_mem (c : C) (s : State) : (effYsave c s).state.mem = s.mem := by
  simp [effYsave]

/-! ## Wound -/

@[simp] theorem dropRequests_mem (s : State) (u : Nat) (ids : List Nat) : (dropRequests s u ids).mem = s.mem := by rfl

@[simp] theorem discard_mem (s : State) (f : Flight) : (discard s f).mem = s.mem := by
  simp [discard]

@[simp] theorem discardFlights_mem (s : State) (t : Team) : (discardFlights s t).mem = s.mem := by
  simp [discardFlights, foldl_mem]

@[simp] theorem drainSets_wf (s : State) (t : Team) (hm : s.mem.wf = true) : (drainSets s t).mem.wf = true := by
  refine foldl_wf _ (fun s w h => ?_) _ _ (by simpa [foldl_mem] using hm)
  split <;> simp [h]

@[simp] theorem withdrawLease_mem (s : State) (t : Team) : (withdrawLease s t).mem = s.mem := by rfl

@[simp] theorem withdrawRequests_mem (s : State) (t : Team) : (withdrawRequests s t).mem = s.mem := by
  simp [withdrawRequests]

@[simp] theorem execWoundTake_wf (u : Nat) (s : State) (hm : s.mem.wf = true) : OutWf (execWoundTake u s) := by
  unfold execWoundTake
  dsimp only
  split
  · exact hm
  · split
    · exact hm
    · split
      · simp [hm]
      · split
        · next e => simp [meetFault_wait_mem e, hm]
        · next e => simp [meetFault_fail_mem e, hm]

theorem undoRecord_wf (t : Team) (s : State) (i : Nat) {s' : State} (hm : s.mem.wf = true) (e : undoRecord t s i = .ok s') :
    s'.mem.wf = true := by
  grind [undoRecord, l1Store_mem, apply_wf]

theorem undoRecords_wf (t : Team) (declined : Bool) (is : List Nat) (s : State) {s' : State} (hm : s.mem.wf = true)
    (e : undoRecords t declined is s = .ok s') : s'.mem.wf = true := by
  induction is generalizing s with
  | nil => cases e; exact hm
  | cons i is ih => grind [undoRecords, undoRecord_wf]

theorem passOver_wf {declined : Bool} {s : State} {r : Got State} {s' : State} (hm : s.mem.wf = true)
    (hr : ∀ s', r = .ok s' → s'.mem.wf = true) (e : passOver declined s r = .ok s') : s'.mem.wf = true := by
  unfold passOver at e
  split at e
  · cases e; exact hr _ rfl
  · split at e
    · cases e; exact hm
    · cases e
  · cases e; exact hm

theorem clearUndo_releaseHasps_wf {declined : Bool} {s s' : State} {t : Team} (hm : s.mem.wf = true)
    (e : (do
      let s ← passOver declined s (clearUndo s t)
      return releaseHasps s t.uid (fun _ => true) : Got State) = .ok s') : s'.mem.wf = true := by
  obtain ⟨s2, h2, e⟩ := bind_eq_ok e
  cases e
  rw [releaseHasps_mem]
  exact passOver_wf hm (fun _ => clearUndo_wf _ _ hm) h2

theorem rollback_wf (declined : Bool) (s : State) (t : Team) {s' : State} (hm : s.mem.wf = true)
    (e : rollback declined s t = .ok s') : s'.mem.wf = true := by
  unfold rollback at e
  extract_lets logged at e
  cases h : logged
  · simp only [h] at e
    exact clearUndo_releaseHasps_wf hm e
  · simp only [h] at e
    obtain ⟨s1, h1, e⟩ := bind_eq_ok e
    refine clearUndo_releaseHasps_wf (passOver_wf hm (fun s2 e2 => ?_) h1) e
    obtain ⟨n, -, e2⟩ := bind_eq_ok e2
    exact undoRecords_wf _ _ _ _ hm e2

@[simp] theorem execRollbackComplete_wf (u : Nat) (s : State) (hm : s.mem.wf = true) : OutWf (execRollbackComplete u s) := by
  unfold execRollbackComplete
  dsimp only
  split
  · exact hm
  · split
    · exact hm
    · split
      · next e => simpa using rollback_wf _ _ _ hm e
      · split
        · next e => simp [meetFault_wait_mem e, hm]
        · next e => simp [meetFault_fail_mem e, hm]

/-! ## Save -/

@[simp] theorem dropLatches_mem (s : State) (core launch : Nat) : (dropLatches s core launch).mem = s.mem := by rfl

@[simp] theorem dropRecords_mem (s : State) (core ctx : Nat) (hdr : Word64) : (dropRecords s core ctx hdr).mem = s.mem := by
  rfl

@[simp] theorem loadLatches_mem (s : State) (core launch nlat : Nat) (bs : List Byte) :
    (loadLatches s core launch nlat bs).mem = s.mem := by rfl

@[simp] theorem loadOperands_mem (s : State) (core launch ctx : Nat) (hdr : Word64) (bs : List Byte) :
    (loadOperands s core launch ctx hdr bs).mem = s.mem := by rfl

@[simp] theorem beginSave_mem (s : State) (t : Team) (forced : Bool) : (beginSave s t forced).mem = s.mem := by
  simp [beginSave]

@[simp] theorem trySave_mem (s : State) (t : Team) (forced : Bool) (retry : Ev) : (trySave s t forced retry).mem = s.mem := by
  unfold trySave
  dsimp only
  repeat' split
  all_goals simp

@[simp] theorem execYdlExpiry_wf (u : Nat) (s : State) (hm : s.mem.wf = true) : OutWf (execYdlExpiry u s) := by
  unfold execYdlExpiry
  split <;> simp [hm]

@[simp] theorem execYsaveImage_wf (u : Nat) (s : State) (hm : s.mem.wf = true) : OutWf (execYsaveImage u s) := by
  unfold execYsaveImage
  split <;> simp [hm]

theorem writeOperands_wf (s : State) (t : Team) (ls : List Nat) {s' : State} (hm : s.mem.wf = true)
    (e : writeOperands s t ls = .ok s') : s'.mem.wf = true := by
  induction ls generalizing s with
  | nil => cases e; exact hm
  | cons l ls ih =>
    rw [writeOperands] at e
    split at e
    · obtain ⟨s1, h1, e⟩ := bind_eq_ok e
      exact ih _ (Agent.put_wf _ _ _ _ hm h1) e
    · exact ih _ hm e

theorem leaveAreas_wf (s : State) (t : Team) (ends : Bool) {s' : State} (hm : s.mem.wf = true)
    (e : leaveAreas s t ends = .ok s') : s'.mem.wf = true := by
  have hrest : ∀ s1 ls, s1.mem.wf = true → (if recordsStay s1 t then pure s1 else writeOperands s1 t ls : Got State) = .ok s'
    →
      s'.mem.wf = true := by
    intro s1 ls h1 e
    split at e
    · cases e; exact h1
    · exact writeOperands_wf _ _ _ h1 e
  unfold leaveAreas at e
  extract_lets kept at e
  split at e
  · split at e
    · exact hrest _ _ hm e
    · obtain ⟨s1, h1, e⟩ := bind_eq_ok e
      exact hrest _ _ (Agent.put_wf _ _ _ _ hm h1) e
  · exact hrest _ _ hm e

@[simp] theorem leaveCore_mem (s : State) (t : Team) : (leaveCore s t).mem = s.mem := by
  simp [leaveCore]

@[simp] theorem leavePlace_mem (s : State) (t : Team) : (leavePlace s t).mem = s.mem := by
  simp [leavePlace]

theorem writeAgain_wf (s : State) (t : Team) {s' : State} (hm : s.mem.wf = true) (e : writeAgain s t = .ok s') :
    s'.mem.wf = true := by
  simp only [writeAgain, bind, Except.bind, pure, Except.pure] at e
  grind [State.onTeam_mem, Agent.put_wf]

theorem writeImage_wf (s : State) (t : Team) {s' : State} (hm : s.mem.wf = true) (e : writeImage s t = .ok s') :
    s'.mem.wf = true := by
  obtain ⟨s1, h1, e⟩ := bind_eq_ok e
  obtain ⟨s2, h2, e⟩ := bind_eq_ok e
  have h := leaveAreas_wf _ _ _ (Agent.put_wf _ _ _ _ hm h1) h2
  cases e
  exact h

@[simp] theorem saveDone_mem (s : State) (t : Team) : (saveDone s t).mem = s.mem := by
  simp [saveDone]

@[simp] theorem execSaveComplete_wf (u : Nat) (s : State) (hm : s.mem.wf = true) : OutWf (execSaveComplete u s) := by
  unfold execSaveComplete
  split
  · exact hm
  · next t _ =>
    extract_lets b saved again done
    have hdone : ∀ s, s.mem.wf = true → (done s).mem.wf = true := by
      intro s hm
      unfold done
      split
      · exact hm
      · rwa [saveDone_mem]
    split
    · exact hm
    · split
      · next s1 e =>
        refine hdone s1 ?_
        split at e
        · exact writeAgain_wf _ _ hm e
        · exact writeImage_wf _ _ hm e
      · split
        · next e => simp [meetFault_wait_mem e, hm]
        · next e => exact hdone _ (by simp [meetFault_fail_mem e, hm])

@[simp] theorem freeArea_mem (s : State) (ctx base : Nat) : (freeArea s ctx base).mem = s.mem := by rfl

@[simp] theorem releaseHolds_mem (s : State) (p : KeepHold → Bool) : (releaseHolds s p).mem = s.mem := by
  simp [releaseHolds, foldl_mem]

@[simp] theorem offerRestores_mem (s : State) (core : Nat) : (offerRestores s core).mem = s.mem := by
  refine foldl_mem _ (fun s n => ?_) _ _
  split <;> simp

@[simp] theorem countFault_mem (s : State) (die : Nat) : (countFault s die).mem = s.mem := by rfl

@[simp] theorem dropRestores_mem (s : State) (core place u : Nat) : (dropRestores s core place u).mem = s.mem := by rfl

@[simp] theorem execRestoreRequest_wf (core place u : Nat) (s : State) (hm : s.mem.wf = true) :
    OutWf (execRestoreRequest core place u s) := by
  unfold execRestoreRequest
  split <;> simp [hm]

@[simp] theorem resumeTeam_mem (s : State) (t : Team) : (resumeTeam s t).mem = s.mem := by
  unfold resumeTeam
  dsimp only
  repeat' split
  all_goals simp [foldl_mem]

@[simp] theorem loadBack_mem (s : State) (t : Team) (bs : List Byte) : (loadBack s t bs).mem = s.mem := by
  simp [loadBack, foldl_mem]

@[simp] theorem resumeLoads_mem (s : State) (u : Nat) : (resumeLoads s u).mem = s.mem := by
  refine foldl_mem _ (fun s f => ?_) _ _
  split <;> simp

theorem readOperands_wf (s : State) (t : Team) (ls : List Nat) {s' : State} (hm : s.mem.wf = true)
    (e : readOperands s t ls = .ok s') : s'.mem.wf = true := by
  induction ls generalizing s with
  | nil => cases e; exact hm
  | cons l ls ih =>
    simp only [readOperands, bind, Except.bind, pure, Except.pure] at e
    repeat' split at e
    all_goals grind [loadOperands_mem]

theorem readAreas_wf (s : State) (t : Team) {s' : State} (hm : s.mem.wf = true) (e : readAreas s t = .ok s') :
    s'.mem.wf = true := by
  simp only [readAreas, bind, Except.bind, pure, Except.pure] at e
  grind [loadLatches_mem, C.launch_mem, readOperands_wf]

theorem readImage_wf (s : State) (t : Team) {s' : State} (hm : s.mem.wf = true) (e : readImage s t = .ok s') :
    s'.mem.wf = true := by
  simp only [readImage, bind, Except.bind, pure, Except.pure] at e
  grind [loadBack_mem, readAreas_wf, State.setTeam_mem]

@[simp] theorem restoreDone_mem (s : State) (t : Team) : (restoreDone s t).mem = s.mem := by
  simp [restoreDone]

@[simp] theorem giveUpRestore_mem (s : State) (t : Team) : (giveUpRestore s t).mem = s.mem := by rfl

@[simp] theorem execRestoreComplete_wf (u : Nat) (s : State) (hm : s.mem.wf = true) : OutWf (execRestoreComplete u s) := by
  unfold execRestoreComplete
  split
  · exact hm
  · dsimp only
    split
    · exact hm
    · split
      · simp [hm]
      · split
        · simp [hm]
        · split
          · next e => simpa using readImage_wf _ _ hm e
          · split
            · next e => simp [meetFault_wait_mem e, hm]
            · next e => simp [meetFault_fail_mem e, hm]

/-! ## Launch -/

@[simp] theorem endLaunch_mem (s : State) (id code : Nat) : (endLaunch s id code).mem = s.mem := by
  simp [endLaunch]

@[simp] theorem execLaunchEntryArrival_wf (qn : Nat) (entry : List Word64) (s : State) (hm : s.mem.wf = true) :
    OutWf (execLaunchEntryArrival qn entry s) := by
  unfold execLaunchEntryArrival
  dsimp only
  repeat' split
  all_goals simp [hm]

@[simp] theorem useTemplate_mem (s : State) (x : Template) : (useTemplate s x).mem = s.mem := by rfl

@[simp] theorem execHeaderFetch_wf (id : Nat) (s : State) (hm : s.mem.wf = true) : OutWf (execHeaderFetch id s) := by
  unfold execHeaderFetch
  split
  · exact hm
  · split
    · exact hm
    · split
      · simp [hm]
      · split
        · simp [hm]
        · extract_lets meet
          have hmeet : ∀ va e, (meet va e).mem = s.mem := by
            intro va e
            unfold meet
            split
            · next e => exact meetFault_wait_mem e
            · next e => simpa using meetFault_fail_mem e
          repeat' split
          all_goals simp [hm, hmeet]

theorem kernelCarve_wf (s : State) (c : Context) (l : Launch) (h : Header) (core : Nat) {r : State × Nat}
    (hm : s.mem.wf = true) (e : kernelCarve s c l h core = some r) : r.1.mem.wf = true := by
  unfold kernelCarve at e
  dsimp only at e
  split at e
  · split at e
    · cases e; exact hm
    · obtain ⟨b, -, rfl⟩ := Option.map_eq_some_iff.mp e
      dsimp only
      rw [foldl_mem]
      · simp [hm]
      · intro s t
        split <;> simp
  · obtain ⟨b, -, rfl⟩ := Option.map_eq_some_iff.mp e
    exact hm

theorem bindAt_wf (s : State) (l : Launch) (h : Header) (c : Context) (i core place : Nat) {s' : State} (hm : s.mem.wf = true)
    (e : bindAt s l h c i core place = some s') : s'.mem.wf = true := by
  unfold bindAt at e
  extract_lets k mine u at e
  obtain ⟨run, -, e⟩ := Option.bind_eq_some_iff.mp e
  extract_lets lats at e
  split at e
  · cases e
  · obtain ⟨vb, -, e⟩ := Option.bind_eq_some_iff.mp e
    obtain ⟨sb, -, e⟩ := Option.bind_eq_some_iff.mp e
    obtain ⟨ob, -, e⟩ := Option.bind_eq_some_iff.mp e
    obtain ⟨ac, -, e⟩ := Option.bind_eq_some_iff.mp e
    obtain ⟨img, -, e⟩ := Option.bind_eq_some_iff.mp e
    extract_lets area undob at e
    obtain ⟨⟨s0, kb⟩, h0, e⟩ := Option.bind_eq_some_iff.mp e
    have hs0 : s0.mem.wf = true := kernelCarve_wf _ _ _ _ _ (by exact hm) h0
    dsimp -zeta only at e
    extract_lets r t t1 mate t2 t3 s1 s2 s3 s4 s5 s6 s7 s8 at e
    clear_value mate k
    have h2 : s2.mem = s0.mem := by unfold s2; cases mate <;> rfl
    have h6 : s6.mem = s0.mem := by simpa [s6, s5, s4, s3, foldl_mem] using h2
    have h7 : s7.mem.wf = true := by unfold s7; cases k <;> simp [h6, hs0]
    have h8 : s8.mem.wf = true := by
      unfold s8
      split
      · exact h7
      · split
        · next e => exact writeVA_wf _ _ _ _ _ _ h7 e
        · exact h7
    rw [← Option.some.inj e]
    simp [h8]

theorem bindOn_wf (s : State) (l : Launch) (h : Header) (c : Context) (i core : Nat) {s' : State} (hm : s.mem.wf = true)
    (e : bindOn s l h c i core = some s') : s'.mem.wf = true := by
  obtain ⟨n, -, e⟩ := List.exists_of_findSome?_eq_some e
  obtain ⟨p, -, e⟩ := Option.bind_eq_some_iff.mp e
  exact bindAt_wf _ _ _ _ _ _ _ hm e

theorem bindGroup_wf (l : Launch) (h : Header) (c : Context) (core : Nat) (is : List Nat) (s : State) {s' : State}
    (hm : s.mem.wf = true) (e : bindGroup l h c core is s = some s') : s'.mem.wf = true := by
  induction is generalizing s with
  | nil => cases e; exact hm
  | cons i is ih => grind [bindGroup, bindOn_wf]

theorem bindPlaces_wf (l : Launch) (h : Header) (c : Context) (xs : List (Nat × Nat × Nat)) (s : State) {s' : State}
    (hm : s.mem.wf = true) (e : bindPlaces l h c xs s = some s') : s'.mem.wf = true := by
  induction xs generalizing s with
  | nil => cases e; exact hm
  | cons x xs ih => grind [bindPlaces, bindAt_wf]

theorem placePlanned_wf (s : State) (l : Launch) (h : Header) (c : Context) (is : List Nat) (cores : List Nat) {s' : State}
    (hm : s.mem.wf = true) (e : placePlanned s l h c is cores = some s') : s'.mem.wf = true := by
  unfold placePlanned at e
  split at e
  · cases e
  · dsimp only at e
    split at e
    · cases e
    · exact bindPlaces_wf _ _ _ _ _ hm e

theorem bindOver_wf (s : State) (l : Launch) (h : Header) (c : Context) (i core slot : Nat) {s' : State}
    (hm : s.mem.wf = true) (e : bindOver s l h c i core slot = some s') : s'.mem.wf = true := by
  unfold bindOver at e
  dsimp only at e
  split at e
  · cases e
  · obtain ⟨p, -, e⟩ := Option.bind_eq_some_iff.mp e
    obtain ⟨r, hr, rfl⟩ := Option.map_eq_some_iff.mp e
    rw [foldl_mem _ (fun _ _ => freeArea_mem _ _ _)]
    exact bindAt_wf _ _ _ _ _ _ _ (by exact hm) hr

theorem bindReleasing_wf (l : Launch) (h : Header) (c : Context) (core : Nat) (is : List Nat) (s : State) {s' : State}
    (hm : s.mem.wf = true) (e : bindReleasing l h c core is s = some s') : s'.mem.wf = true := by
  induction is generalizing s with
  | nil => cases e; exact hm
  | cons i is ih =>
    rw [bindReleasing] at e
    split at e
    · next s1 e1 =>
      refine ih _ ?_ e
      split at e1
      · next e2 => cases e1; exact bindOn_wf _ _ _ _ _ _ hm e2
      · obtain ⟨n, -, e1⟩ := List.exists_of_findSome?_eq_some e1
        exact bindOver_wf _ _ _ _ _ _ _ hm e1
    · cases e

theorem placeGroup_wf (s : State) (l : Launch) (h : Header) (c : Context) (is : List Nat) (cores : List Nat) {s' : State}
    (hm : s.mem.wf = true) (e : placeGroup s l h c is cores = some s') : s'.mem.wf = true := by
  unfold placeGroup at e
  split at e
  · next e1 => cases e; exact placePlanned_wf _ _ _ _ _ _ hm e1
  · split at e
    · next e1 =>
      cases e
      obtain ⟨n, -, e1⟩ := List.exists_of_findSome?_eq_some e1
      exact bindGroup_wf _ _ _ _ _ _ hm e1
    · obtain ⟨n, -, e1⟩ := List.exists_of_findSome?_eq_some e
      exact bindReleasing_wf _ _ _ _ _ _ hm e1

@[simp] theorem placementWaits_mem (s : State) (l : Launch) (cores : List Nat) : (placementWaits s l cores).mem = s.mem := by
  unfold placementWaits
  split <;> simp

@[simp] theorem execTeamPlacement_wf (id : Nat) (places : List (Nat × Nat)) (s : State) (hm : s.mem.wf = true) :
    OutWf (execTeamPlacement id places s) := by
  unfold execTeamPlacement
  split
  · exact hm
  · split
    · split
      · exact hm
      · split
        · simp [hm]
        · split
          · simp [hm]
          · extract_lets is cores s1 got
            have h1 : s1.mem.wf = true := by simp [s1, hm]
            split
            · simp [h1]
            · have hgot : ∀ s2, got = some s2 → s2.mem.wf = true := by
                intro s2 e
                unfold got at e
                split at e
                · exact placeGroup_wf _ _ _ _ _ _ h1 e
                · split at e
                  · cases e
                  · exact bindPlaces_wf _ _ _ _ _ h1 e
              generalize got = got at hgot
              cases got with
              | none => simp [h1]
              | some s2 => simpa using hgot s2 rfl
    · exact hm

@[simp] theorem execDispatchStart_wf (core place : Nat) (s : State) (hm : s.mem.wf = true) :
    OutWf (execDispatchStart core place s) := by
  unfold execDispatchStart
  dsimp only
  repeat' split
  all_goals simp [hm]

@[simp] theorem execArgumentArrival_wf (u j : Nat) (s : State) (hm : s.mem.wf = true) :
    OutWf (execArgumentArrival u j s) := by
  unfold execArgumentArrival
  dsimp only
  split
  · exact hm
  · split
    · exact hm
    · split
      · exact hm
      · split
        · simp [hm]
        · split
          · next e => simp [meetFault_wait_mem e, hm]
          · next e => simp [meetFault_fail_mem e, hm]

@[simp] theorem leaveLease_mem (s : State) (t : Team) : (leaveLease s t).mem = s.mem := by
  simp [leaveLease]

@[simp] theorem dropKernelArea_mem (s : State) (t : Team) : (dropKernelArea s t).mem = s.mem := by rfl

@[simp] theorem leaveKernel_wf (s : State) (t : Team) (hm : s.mem.wf = true) : (leaveKernel s t).mem.wf = true := by
  unfold leaveKernel
  dsimp only
  have h : (Got.state s (leaveAreas s t true)).mem.wf = true := Got.state_wf hm fun s' e => leaveAreas_wf _ _ _ hm e
  repeat' split
  all_goals simp [h, hm]

theorem putKept_wf (s : State) (t : Team) (k : KeepHold) {s' : State} (hm : s.mem.wf = true) (e : putKept s t k = .ok s') :
    s'.mem.wf = true := by
  grind [putKept, Agent.put_wf]

@[simp] theorem freeTeam_wf (s : State) (t : Team) (k : Option KeepHold) (hm : s.mem.wf = true) :
    (freeTeam s t k).mem.wf = true := by
  unfold freeTeam
  extract_lets hdr s1 s2 s3 s4 s5 s6 s7
  have h6 : s6.mem.wf = true := by simp [s6, s5, s4, s3, s2, s1, hm]
  have h7 : s7.mem.wf = true := by
    unfold s7
    split
    · exact Got.state_wf h6 fun s' e => putKept_wf _ _ _ (by exact h6) e
    · simp [h6]
  simp [h7]

@[simp] theorem endKernel_mem (s : State) (l : Launch) : (endKernel s l).mem = s.mem := by
  simp [endKernel]

@[simp] theorem execTexitComplete_wf (u : Nat) (s : State) (hm : s.mem.wf = true) : OutWf (execTexitComplete u s) := by
  unfold execTexitComplete
  split
  · exact hm
  · split
    · exact hm
    · split
      · simp [hm]
      · split
        · simp [hm]
        · extract_lets l k go
          have hgo : ∀ s, s.mem.wf = true → (go s).mem.wf = true := by
            intro s hm
            unfold go
            cases l <;> simp [hm]
          split
          · exact hgo s hm
          · split
            · next e => simp [meetFault_wait_mem e, hm]
            · next e => exact hgo _ (by rw [meetFault_fail_mem e]; exact hm)

@[simp] theorem effTexit_wf (c : C) (s : State) (hm : s.mem.wf = true) : (effTexit c s).state.mem.wf = true :=
  endTask_wf hm fun _ h => by simp [h]

theorem killTeam_wf (force : Bool) (s : State) (t : Team) {s' : State} (hm : s.mem.wf = true)
    (e : killTeam force s t = .ok s') : s'.mem.wf = true := by
  unfold killTeam at e
  split at e
  · exact absurd e (by simp)
  · exact absurd e (by simp)
  · next e1 =>
    have h := rollback_wf _ _ _ (drainSets_wf _ _ hm) e1
    rw [← Except.ok.inj e]
    simp [h, foldl_mem]

theorem killTeams_wf (force : Bool) (ts : List Team) (s : State) {s' : State} (hm : s.mem.wf = true)
    (e : killTeams force ts s = .ok s') : s'.mem.wf = true := by
  induction ts generalizing s with
  | nil => cases e; exact hm
  | cons t ts ih => grind [killTeams, killTeam_wf]

@[simp] theorem launchOver_mem (s : State) (l : Launch) : (launchOver s l).mem = s.mem := by
  unfold launchOver
  dsimp only
  repeat' split
  all_goals simp

@[simp] theorem execLaunchStatusWrite_wf (id : Nat) (s : State) (hm : s.mem.wf = true) :
    OutWf (execLaunchStatusWrite id s) := by
  unfold execLaunchStatusWrite
  dsimp only
  split
  · exact hm
  · split
    · exact hm
    · split
      · simp [hm]
      · split
        · simp [hm]
        · split
          · split
            · next e => simp [meetFault_wait_mem e, hm]
            · next e =>
              have h := meetFault_fail_mem e
              simp [Got.state_wf (h ▸ hm) fun s' e => killTeams_wf _ _ _ (h ▸ hm) e]
          · next e =>
            have h := killTeams_wf _ _ _ hm e
            split
            · exact h
            · split
              · simp [h]
              · split
                · simp [h]
                · split
                  · next e => simpa using writeVA_wf _ _ _ _ _ _ h e
                  · split
                    · next e => simp [meetFault_wait_mem e, h]
                    · next e => simp [meetFault_fail_mem e, h]

@[simp] theorem unbind_wf (s : State) (t : Team) (hm : s.mem.wf = true) : (unbind s t).mem.wf = true := by
  unfold unbind
  dsimp only
  repeat' split
  all_goals simp [hm]

@[simp] theorem preempt_wf (s : State) (u : Nat) (retry : Ev) (hm : s.mem.wf = true) : (preempt s u retry).mem.wf = true := by
  unfold preempt
  dsimp only
  split
  · exact hm
  · split
    · split
      · simp [hm]
      · split
        · next e => simp [meetFault_wait_mem e, hm]
        · next e => simp [meetFault_fail_mem e, hm]
    · split
      · exact hm
      · repeat' split
        all_goals simp [hm]

@[simp] theorem execPreemptRequest_wf (u : Nat) (s : State) (hm : s.mem.wf = true) : OutWf (execPreemptRequest u s) := by
  simp [execPreemptRequest, hm]

@[simp] theorem execTimesliceExpiry_wf (u : Nat) (s : State) (hm : s.mem.wf = true) : OutWf (execTimesliceExpiry u s) := by
  simp [execTimesliceExpiry, hm]

@[simp] theorem execRecordReclaim_wf (core place : Nat) (s : State) (hm : s.mem.wf = true) :
    OutWf (execRecordReclaim core place s) := by
  unfold execRecordReclaim
  dsimp only
  repeat' split
  all_goals simp [hm]

@[simp] theorem firmwareIdle_mem (s : State) : (firmwareIdle s).mem = s.mem := by
  simp [firmwareIdle, foldl_mem]

/-! ## Host -/

@[simp] theorem countHost_mem (s : State) : (countHost s).mem = s.mem := by rfl

@[simp] theorem putMail_mem (s : State) (o : Nat) (bs : List Byte) : (putMail s o bs).mem = s.mem := by rfl

@[simp] theorem mailAnswer_mem (s : State) (result status : Nat) : (mailAnswer s result status).mem = s.mem := by
  simp [mailAnswer]

@[simp] theorem mailWaits_mem (s : State) (o : Nat) (data : List Byte) : (mailWaits s o data).mem = s.mem := by rfl

theorem command_wf {code : Nat} {m : Mail} {bad : Bool} {body : State → State} {s : State} (hm : s.mem.wf = true)
    (hb : ∀ s, s.mem.wf = true → (body s).mem.wf = true) : (command code m bad body s).mem.wf = true := by
  unfold command
  dsimp only
  repeat' split
  all_goals simp [hm, hb]

@[simp] theorem noteHealth_mem (before s : State) : (noteHealth before s).mem = s.mem := by
  unfold noteHealth
  split <;> simp

@[simp] theorem writeBind_wf (s : State) (c : Context) (hm : s.mem.wf = true) : (writeBind s c).mem.wf = true := by
  simp [writeBind, hm]

@[simp] theorem execMailboxCreateContext_wf (m : Mail) (s : State) (hm : s.mem.wf = true) :
    OutWf (execMailboxCreateContext m s) := by
  refine command_wf hm fun s hm => ?_
  dsimp only
  repeat' split
  all_goals simp [hm]

@[simp] theorem dropExtents_mem (s : State) (n : Nat) : (dropExtents s n).mem = s.mem := by rfl

@[simp] theorem dropArrivals_mem (s : State) (n : Nat) : (dropArrivals s n).mem = s.mem := by
  simp [dropArrivals, foldl_mem]

@[simp] theorem dropContext_mem (s : State) (n : Nat) : (dropContext s n).mem = s.mem := by
  simp [dropContext]

@[simp] theorem execMailboxDestroyContext_wf (m : Mail) (s : State) (hm : s.mem.wf = true) :
    OutWf (execMailboxDestroyContext m s) := by
  refine command_wf hm fun s hm => ?_
  repeat' split
  all_goals simp [hm]

@[simp] theorem execMailboxCreateQueue_wf (m : Mail) (s : State) (hm : s.mem.wf = true) :
    OutWf (execMailboxCreateQueue m s) := by
  refine command_wf hm fun s hm => ?_
  dsimp only
  repeat' split
  all_goals simp [hm]

@[simp] theorem execMailboxDestroyQueue_wf (m : Mail) (s : State) (hm : s.mem.wf = true) :
    OutWf (execMailboxDestroyQueue m s) := by
  refine command_wf hm fun s hm => ?_
  dsimp only
  repeat' split
  all_goals simp [hm]

@[simp] theorem execMailboxClearOverflow_wf (m : Mail) (s : State) (hm : s.mem.wf = true) :
    OutWf (execMailboxClearOverflow m s) := by
  refine command_wf hm fun s hm => ?_
  repeat' split
  all_goals simp [hm]

@[simp] theorem execMailboxSwitchContextOut_wf (m : Mail) (s : State) (hm : s.mem.wf = true) :
    OutWf (execMailboxSwitchContextOut m s) := by
  refine command_wf hm fun s hm => ?_
  dsimp only
  repeat' split
  all_goals simp [hm, foldl_mem]

@[simp] theorem execMailboxSwitchContextIn_wf (m : Mail) (s : State) (hm : s.mem.wf = true) :
    OutWf (execMailboxSwitchContextIn m s) := by
  refine command_wf hm fun s hm => ?_
  dsimp only
  repeat' split
  all_goals simp [hm, foldl_mem]

@[simp] theorem execMailboxGrantExtent_wf (m : Mail) (s : State) (hm : s.mem.wf = true) :
    OutWf (execMailboxGrantExtent m s) := by
  refine command_wf hm fun s hm => ?_
  dsimp only
  repeat' split
  all_goals simp [hm]

@[simp] theorem dropExtent_mem (s : State) (n : Nat) : (dropExtent s n).mem = s.mem := by rfl

@[simp] theorem execMailboxReleaseExtent_wf (m : Mail) (s : State) (hm : s.mem.wf = true) :
    OutWf (execMailboxReleaseExtent m s) := by
  refine command_wf hm fun s hm => ?_
  repeat' split
  all_goals simp [hm]

@[simp] theorem execExtentReleaseDone_wf (n : Nat) (s : State) (hm : s.mem.wf = true) :
    OutWf (execExtentReleaseDone n s) := by
  simp [execExtentReleaseDone, hm]

@[simp] theorem setExec_wf (s : State) (c : Context) (va len : Nat) (x : Bool) (hm : s.mem.wf = true) :
    (setExec s c va len x).mem.wf = true := by
  unfold setExec
  extract_lets pages whole s1 keys s2
  have h1 : s1.mem.wf = true := by
    refine foldl_wf _ (fun s p h => ?_) _ _ hm
    split
    · exact h
    · exact apply_wf _ _ h
  exact foldl_wf _ (fun s p h => shootRange_wf s _ _ _ h) _ _ h1

theorem measure_wf (s : State) (g : Segm) {s' : State} (hm : s.mem.wf = true) (e : measure s g = .ok s') :
    s'.mem.wf = true := by
  grind [measure, State.onHub_mem]

theorem loaderPut_wf (c : Context) (s : State) (p : Nat × List Byte) {s' : State} (hm : s.mem.wf = true)
    (e : loaderPut c s p = some s') : s'.mem.wf = true := by
  grind [loaderPut, apply_wf]

@[simp] theorem setCode_wf (c : Context) (gs : List Segm) (x : Bool) (s : State) (hm : s.mem.wf = true) :
    (setCode c gs x s).mem.wf = true :=
  foldl_wf _ (fun s _ h => setExec_wf s c _ _ x h) _ _ hm

theorem foldlM_loaderPut_wf {c : Context} (ps : List (Nat × List Byte)) {s s' : State} (hm : s.mem.wf = true)
    (e : ps.foldlM (loaderPut c) s = some s') : s'.mem.wf = true := by
  induction ps generalizing s with
  | nil => cases e; exact hm
  | cons p ps ih =>
    rw [List.foldlM_cons] at e
    obtain ⟨s1, h1, e⟩ := Option.bind_eq_some_iff.mp e
    exact ih (loaderPut_wf _ _ _ hm h1) e

theorem loadSegm_ok_wf {c : Context} {s : State} {g : Segm} {s' : State} (hm : s.mem.wf = true) (e : loadSegm c s g = .ok s')
  :
    s'.mem.wf = true := by
  unfold loadSegm at e
  split at e
  · cases e
  · next h1 =>
    have h := measure_wf _ _ hm h1
    split at e
    · next h2 => rw [← Except.ok.inj e]; exact foldlM_loaderPut_wf _ h h2
    · cases e

theorem loadSegm_error_wf {c : Context} {s : State} {g : Segm} {r : State × Nat} (hm : s.mem.wf = true)
    (e : loadSegm c s g = .error r) : r.1.mem.wf = true := by
  unfold loadSegm at e
  split at e
  · cases e; exact hm
  · next h1 =>
    have h := measure_wf _ _ hm h1
    split at e
    · cases e
    · cases e; exact h

theorem loadSegms_ok_wf (c : Context) (gs : List Segm) {s s' : State} (hm : s.mem.wf = true) (e : loadSegms c gs s = .ok s') :
    s'.mem.wf = true := by
  induction gs generalizing s with
  | nil => cases e; exact hm
  | cons g gs ih => grind [loadSegms, loadSegm_ok_wf]

theorem loadSegms_error_wf (c : Context) (gs : List Segm) {s : State} {r : State × Nat} (hm : s.mem.wf = true)
    (e : loadSegms c gs s = .error r) : r.1.mem.wf = true := by
  induction gs generalizing s with
  | nil => cases e
  | cons g gs ih => grind [loadSegms, loadSegm_ok_wf, loadSegm_error_wf]

@[simp] theorem execMailboxLoadImage_wf (m : Mail) (s : State) (hm : s.mem.wf = true) : OutWf (execMailboxLoadImage m s) := by
  refine command_wf hm fun s hm => ?_
  split
  · next c gs _ _ =>
    extract_lets go
    have hgo : ∀ s, s.mem.wf = true → (go s).mem.wf = true := by
      intro s hm
      unfold go
      split
      · next e => simpa using loadSegms_error_wf _ _ (setCode_wf _ _ _ _ hm) e
      · next e => simp [loadSegms_ok_wf _ _ (setCode_wf _ _ _ _ hm) e]
    split
    · simp [hm]
    · split
      · exact hgo s hm
      · split
        · next e => simp [meetFault_wait_mem e, hm]
        · next e => exact hgo _ (by simp [meetFault_fail_mem e, hm])
  · simp [hm]
  · simp [hm]

@[simp] theorem execMailboxAttestationQuote_wf (m : Mail) (s : State) (hm : s.mem.wf = true) :
    OutWf (execMailboxAttestationQuote m s) := by
  refine command_wf hm fun s hm => ?_
  dsimp only
  repeat' split
  all_goals simp [hm]

theorem measureAll_ok_wf (gs : List Segm) {s s' : State} (hm : s.mem.wf = true) (e : measureAll gs s = .ok s') :
    s'.mem.wf = true := by
  induction gs generalizing s with
  | nil => cases e; exact hm
  | cons g gs ih => grind [measureAll, measure_wf]

theorem measureAll_error_wf (gs : List Segm) {s : State} {r : State × Nat} (hm : s.mem.wf = true)
    (e : measureAll gs s = .error r) : r.1.mem.wf = true := by
  induction gs generalizing s with
  | nil => cases e
  | cons g gs ih => grind [measureAll, measure_wf]

@[simp] theorem execMailboxUpdate_wf (m : Mail) (s : State) (hm : s.mem.wf = true) : OutWf (execMailboxUpdate m s) := by
  refine command_wf hm fun s hm => ?_
  split
  · simp [hm]
  · split
    · simp [hm]
    · split
      · next e => simpa using measureAll_error_wf _ hm e
      · next e => simpa using measureAll_ok_wf _ hm e

@[simp] theorem execMailboxSelectBar4Context_wf (m : Mail) (s : State) (hm : s.mem.wf = true) :
    OutWf (execMailboxSelectBar4Context m s) := by
  refine command_wf hm fun s hm => ?_
  repeat' split
  all_goals simp [hm]

@[simp] theorem bar4Answer_mem (s : State) (bs : List Byte) : (bar4Answer s bs).mem = s.mem := by rfl

@[simp] theorem execBar4Read_wf (va : Word64) (len : Nat) (s : State) (hm : s.mem.wf = true) :
    OutWf (execBar4Read va len s) := by
  unfold execBar4Read
  repeat' split
  all_goals simp [hm]

@[simp] theorem execBar4Write_wf (va : Word64) (data : List Byte) (s : State) (hm : s.mem.wf = true) :
    OutWf (execBar4Write va data s) := by
  grind [execBar4Write, outWf_next, countHost_mem, writeVA_wf]

@[simp] theorem execHostAtomic_wf (va : Word64) (op : Nat) (ty : Ty) (data cmp : Word64) (s : State) (hm : s.mem.wf = true) :
    OutWf (execHostAtomic va op ty data cmp s) := by
  unfold execHostAtomic
  dsimp only
  repeat' split
  all_goals simp [hm]

@[simp] theorem hostEntry_wf (s : State) (q : Queue) (e : List Word64) (hm : s.mem.wf = true) :
    (hostEntry s q e).mem.wf = true := by
  grind [hostEntry, State.post_mem, handOver_mem, countHost_mem, State.onHub_mem, appendEntry_wf, State.onQueue_mem]

@[simp] theorem hostWrite_wf (s : State) (offset : Nat) (data : List Byte) (hm : s.mem.wf = true) :
    (hostWrite s offset data).mem.wf = true := by
  grind [hostWrite, countHost_mem, hostEntry_wf]

@[simp] theorem execHostEnqueue_wf (offset : Nat) (data : List Byte) (s : State) (hm : s.mem.wf = true) :
    OutWf (execHostEnqueue offset data s) := by
  simp [execHostEnqueue, hm]

@[simp] theorem execOverflowAppend_wf (n : Nat) (s : State) (hm : s.mem.wf = true) : OutWf (execOverflowAppend n s) := by
  grind [execOverflowAppend, outWf_next, postOnce_mem, handOver_mem, State.onQueue_mem, State.onHub_mem, appendEntry_wf]

@[simp] theorem execHosterrClear_wf (s : State) (hm : s.mem.wf = true) : OutWf (execHosterrClear s) := by
  simp [execHosterrClear, hm]

@[simp] theorem unmask_mem (s : State) : (unmask s).mem = s.mem := by rfl

@[simp] theorem mailStore_mem (s : State) (o : Nat) (data : List Byte) : (mailStore s o data).mem = s.mem := by
  unfold mailStore
  dsimp only
  repeat' split
  all_goals simp [foldl_mem]

@[simp] theorem mailWrite_mem (s : State) (o : Nat) (data : List Byte) : (mailWrite s o data).mem = s.mem := by
  simp [mailWrite]

@[simp] theorem openInbox_wf (s : State) (hm : s.mem.wf = true) : (openInbox s).mem.wf = true := by
  unfold openInbox
  split
  · exact hm
  · refine foldl_wf _ (fun s w h => ?_) _ _ hm
    split <;> simp [h]

@[simp] theorem execUpdateComplete_wf (die : Nat) (s : State) (hm : s.mem.wf = true) : OutWf (execUpdateComplete die s) := by
  simp [execUpdateComplete, hm]

@[simp] theorem execBar0RegisterWrite_wf (offset : Nat) (data : List Byte) (s : State) (hm : s.mem.wf = true) :
    OutWf (execBar0RegisterWrite offset data s) := by
  simp [execBar0RegisterWrite, hm]

/-! ## Service -/

@[simp] theorem execDeviceStart_wf (s : State) (hm : s.mem.wf = true) : OutWf (execDeviceStart s) := by
  simp [execDeviceStart, hm]

@[simp] theorem execBootFailure_wf (reason : Nat) (s : State) (hm : s.mem.wf = true) : OutWf (execBootFailure reason s) := by
  simp [execBootFailure, hm]

@[simp] theorem execCxlPortDown_wf (port : Nat) (s : State) (hm : s.mem.wf = true) : OutWf (execCxlPortDown port s) := by
  simp [execCxlPortDown, hm]

@[simp] theorem execPalyrPortDown_wf (port : Nat) (s : State) (hm : s.mem.wf = true) : OutWf (execPalyrPortDown port s) := by
  simp [execPalyrPortDown, hm]

@[simp] theorem unmapExtent_wf (ext : Nat) (s : State) (c : Context) (hm : s.mem.wf = true) :
    (unmapExtent ext s c).mem.wf = true := by
  refine foldl_wf _ (fun s p h => ?_) _ _ hm
  exact apply_wf _ _ h

@[simp] theorem execExtentRevoke_wf (ext : Nat) (s : State) (hm : s.mem.wf = true) : OutWf (execExtentRevoke ext s) := by
  unfold execExtentRevoke
  dsimp only
  rw [outWf_next, replay_mem]
  exact foldl_wf _ (fun s c h => unmapExtent_wf ext s c h) _ _ hm

@[simp] theorem spared_mem (s : State) (kind : Nat) : (spared s kind).mem = s.mem := by
  simp [spared]

@[simp] theorem losePlaces_wf (s : State) (lost : Team → Bool) (hm : s.mem.wf = true) :
    (losePlaces s lost).mem.wf = true := by
  refine foldl_wf _ (fun s t h => ?_) _ _ hm
  repeat' split
  all_goals simp [h]

@[simp] theorem execSpareCore_wf (core : Nat) (slot : Option Nat) (s : State) (hm : s.mem.wf = true) :
    OutWf (execSpareCore core slot s) := by
  simp [execSpareCore, hm]

@[simp] theorem execSpareChannel_wf (channel : Nat) (s : State) (hm : s.mem.wf = true) :
    OutWf (execSpareChannel channel s) := by
  simp [execSpareChannel, hm]

@[simp] theorem execSpareSlice_wf (slice : Nat) (moves : List (Nat × Nat)) (s : State) (hm : s.mem.wf = true) :
    OutWf (execSpareSlice slice moves s) := by
  simp [execSpareSlice, hm]

@[simp] theorem rehomeSlice_mem (s : State) (slice : Nat) (moves : List (Nat × Nat)) :
    (rehomeSlice s slice moves).mem = s.mem := by
  simp [rehomeSlice]

@[simp] theorem execSparingEnd_wf (s : State) (hm : s.mem.wf = true) : OutWf (execSparingEnd s) := by
  simp [execSparingEnd, foldl_mem, hm]

@[simp] theorem execSoftErrorCorrected_wf (s : State) (hm : s.mem.wf = true) : OutWf (execSoftErrorCorrected s) := by
  simp [execSoftErrorCorrected, hm]

@[simp] theorem execSoftErrorWindowExpiry_wf (s : State) (hm : s.mem.wf = true) : OutWf (execSoftErrorWindowExpiry s) := by
  simp [execSoftErrorWindowExpiry, hm]

@[simp] theorem execUncorrectableError_wf (unit : Nat) (s : State) (hm : s.mem.wf = true) :
    OutWf (execUncorrectableError unit s) := by
  simp [execUncorrectableError, hm]

@[simp] theorem execSubarrayRefresh_wf (_bank _subarray : Nat) (s : State) (hm : s.mem.wf = true) :
    OutWf (execSubarrayRefresh _bank _subarray s) := by
  simp [execSubarrayRefresh, hm]

/-! ## Sched -/

@[simp] theorem putOff_mem (s : State) (e : Ev) : (putOff s e).mem = s.mem := by
  grind [putOff, State.post_mem]

@[simp] theorem ahead_mem (s : State) : (ahead s).mem = s.mem := by
  simp [ahead]

/-! ## The issue of an instruction, an event, and a step -/

theorem issue_wf {i : Instr} {opc sub len : Nat} {x : Ext} {eff : C → State → Eff} {s : State} (hm : s.mem.wf = true)
    (he : ∀ c, (eff c s).state.mem.wf = true) : OutWf (issue i opc sub len x eff s) := by
  unfold issue
  split
  · trivial
  · dsimp only
    repeat' split
    all_goals simp [hm, he]

theorem execEv_wf (e : Ev) (s : State) (hm : s.mem.wf = true) : OutWf (execEv e s) := by
  cases e
  all_goals simp [execEv, hm]

/-- An instruction of a program issues with its effect; any other constructor is an event of the agenda. -/
theorem exec_wf (i : Instr) (s : State) (hm : s.mem.wf = true) : OutWf (exec i s) := by
  cases h : evOf i with
  | some e => rw [exec_evOf h]; exact execEv_wf e s hm
  | none =>
    cases i
    any_goals cases h
    all_goals exact issue_wf hm fun c => by simp [hm]

theorem stepTeam_wf (s : State) (t : Team) (hm : s.mem.wf = true) : OutWf (stepTeam s t) := by
  unfold stepTeam
  split
  · exact execEv_wf _ s hm
  · split
    · exact execEv_wf _ s hm
    · split
      · exact exec_wf _ _ (by simp [hm])
      · simp [hm]
      all_goals exact execEv_wf _ s hm

theorem wrapUp_wf {b : State} {u : Option Nat} {o : Out} {s' : State} (ho : OutWf o) (h : wrapUp b u o = .next s') :
    s'.mem.wf = true := by
  obtain ⟨s, rfl, hs⟩ := wrapUp_mem h
  rwa [hs]

theorem step_wf {s s' : State} (hm : s.mem.wf = true) (h : step s = .next s') : s'.mem.wf = true := by
  have ha : (ahead s).mem.wf = true := by rwa [ahead_mem]
  cases he : s.agenda[chosen s]? with
  | some e =>
    rw [step_event he] at h
    split at h
    · cases h
      rwa [putOff_mem]
    · exact wrapUp_wf (execEv_wf e _ ha) h
  | none =>
    cases ht : (stepTeams s)[chosen s - s.agenda.length]? with
    | some t =>
      rw [step_team he ht] at h
      exact wrapUp_wf (stepTeam_wf { ahead s with cur := t.uid } _ ha) h
    | none =>
      rw [step_idle he ht] at h
      cases h
      rwa [firmwareIdle_mem]

/-- Settles O57: an event, an instruction and idle firmware each keep memory canonical (`execEv_wf`, `exec_wf`), and what a step adds
before and after them leaves it alone. -/
theorem everyStepKeepsTheMemoryCanonical : Obligations.EveryStepKeepsTheMemoryCanonical := fun _ _ hm h => step_wf hm h

end Sys2Proof.Machine
end

section
/-!
PROOFS. Memory instructions (09 R193-R227): the addresses, the checks and the data of their lanes at issue.
-/

namespace Sys2Proof.Machine

/-! ## Addresses and checks at issue -/

section
variable (i : Instr) (opc sub n : Nat) (x : Ext) (t : Team) (s : State) (m : MemOp)

theorem base_ctxAt : (ctxAt i opc sub n x t).base s = if x.a.cls = .vec then 0 else (srcScalar s t x x.a).toNat := by
  rw [C.base, sc64_ctxAt, ctxAt_x]

/-- The address of a lane is that of R218 and R220. -/
theorem ea_ctxAt (hx : m.x = x) (l : Nat) :
    (ctxAt i opc sub n x t).ea s m l = memAddr s t x m.ix m.each m.scl m.off l := by
  rw [C.ea, base_ctxAt, opnd_ctxAt, ctxAt_x, MemOp.size, hx]
  rfl

theorem served_ctxAt : (ctxAt i opc sub n x t).served m = servedLanes t x m.scalar := rfl

/-- The served lanes with their addresses. -/
theorem served_map_ea_ctxAt (hx : m.x = x) :
    ((ctxAt i opc sub n x t).served m).map (fun l => (l, (ctxAt i opc sub n x t).ea s m l)) =
      laneAddrs (fun s t x l => memAddr s t x m.ix m.each m.scl m.off l) m.scalar s t x := by
  simp only [served_ctxAt, ea_ctxAt _ _ _ _ _ _ _ _ hx, laneAddrs]

end

theorem isEmpty_eq_false_of_ne_nil {α : Type} {l : List α} (h : l ≠ []) : l.isEmpty = false := by
  cases l with
  | nil => exact absurd rfl h
  | cons a l => rfl

section
variable {c : C} {m : MemOp} {k : Nat} {as : List (Nat × Nat)}

theorem addrCheck_of_not_canonical (h : as.filter (fun p => !canonical p.2) ≠ []) :
    c.addrCheck m k as = some (c.addrTrap 0x06 (0x0400 + m.path) (as.filter (fun p => !canonical p.2))) := by
  simp only [C.addrCheck, isEmpty_eq_false_of_ne_nil h, Bool.not_false, if_true]

theorem addrCheck_of_misaligned (hc : as.filter (fun p => !canonical p.2) = []) (hal : m.al = false)
    (h : as.filter (fun p => p.2 % k ≠ 0) ≠ []) :
    c.addrCheck m k as = some (c.addrTrap 0x04 (0x0100 + m.path) (as.filter (fun p => p.2 % k ≠ 0))) := by
  simp only [C.addrCheck, hc, hal, Bool.false_eq_true, if_false, isEmpty_eq_false_of_ne_nil h, List.isEmpty_nil, Bool.not_true,
    Bool.not_false, if_true]

theorem addrCheck_eq_none (hc : ∀ p ∈ as, canonical p.2 = true) (hal : m.al = false → ∀ p ∈ as, p.2 % k = 0) :
    c.addrCheck m k as = none := by
  have hnc : as.filter (fun p => !canonical p.2) = [] := List.filter_eq_nil_iff.mpr fun p hp => by simp [hc p hp]
  cases h : m.al with
  | true => simp [C.addrCheck, hnc, h]
  | false =>
    have hmis : as.filter (fun p => p.2 % k ≠ 0) = [] := List.filter_eq_nil_iff.mpr fun p hp => by simp [hal h p hp]
    simp only [C.addrCheck, hnc, h, hmis, Bool.false_eq_true, if_false, List.isEmpty_nil, Bool.not_true]

theorem effMem_of_addrTrap {s : State} {tr : Trap} (hne : (c.served m).map (fun l => (l, c.ea s m l)) ≠ [])
    (h : c.addrCheck m m.size ((c.served m).map (fun l => (l, c.ea s m l))) = some tr) : effMem m c s = .trap s tr := by
  simp only [effMem, isEmpty_eq_false_of_ne_nil hne, h, Bool.false_eq_true, if_false]

end

theorem ne_nil_of_filter_ne_nil {α : Type} {p : α → Bool} {l : List α} (h : l.filter p ≠ []) : l ≠ [] := by
  rintro rfl
  exact h rfl

/-- A load, store or atomic on `ls` makes the address checks of R220 (09 R193, R201). -/
theorem addressTraps_of_effMem {mk : Ext → Instr} {opc sub : Nat} {op : Ext → MemOp}
    (hexec : ∀ x s, exec (mk x) s = issue (mk x) opc sub (extLen x) x (effMem (op x)) s) (hx : ∀ x, (op x).x = x)
    (hpath : ∀ x, (op x).path = 0) {scalar : Bool} (hsc : ∀ x, (op x).scalar = scalar) :
    AddressTraps mk opc sub scalar (fun x => (op x).al)
      (fun s t x l => memAddr s t x (op x).ix (op x).each (op x).scl (op x).off l) := by
  intro x s t hi as nc mis trap
  have hs := served_map_ea_ctxAt (mk x) opc sub (extLen x) x t s (op x) (hx x)
  rw [hsc] at hs
  change _ = as at hs
  have hsize : (op x).size = x.ty.width / 8 := by rw [MemOp.size, hx]
  refine ⟨fun hnc => ?_, fun hnc hal hmis => ?_⟩
  · refine exec_of_trap (hexec x s) hi (effMem_of_addrTrap ?_ ?_) (team?_uid_of_issues hi)
    · rw [hs]
      exact ne_nil_of_filter_ne_nil hnc
    · rw [hs, addrCheck_of_not_canonical hnc, hpath]
      rfl
  · refine exec_of_trap (hexec x s) hi (effMem_of_addrTrap ?_ ?_) (team?_uid_of_issues hi)
    · rw [hs]
      exact ne_nil_of_filter_ne_nil hmis
    · rw [hs, hsize, addrCheck_of_misaligned hnc hal hmis, hpath]
      rfl

/-- Settles O26: the four instructions are `effMem` of their operation, whose address checks come first. -/
theorem misalignedAccessTraps : Obligations.MisalignedAccessTraps :=
  ⟨addressTraps_of_effMem (op := ldstOp 0) (fun _ _ => rfl) (fun _ => rfl) (fun _ => rfl) (fun _ => rfl),
    addressTraps_of_effMem (op := ldstOp 1) (fun _ _ => rfl) (fun _ => rfl) (fun _ => rfl) (fun _ => rfl),
    addressTraps_of_effMem (op := ldstOp 4) (fun _ _ => rfl) (fun _ => rfl) (fun _ => rfl) (fun _ => rfl),
    addressTraps_of_effMem (op := atomOp 0) (fun _ _ => rfl) (fun _ => rfl) (fun _ => rfl) (fun _ => rfl)⟩

end Sys2Proof.Machine
end

section
/-!
PROOFS. Shootdowns, links and peers (09 R195, R200, R201, R206, R215, R224): the entries that firmware writes, the translations
that a shootdown leaves, the writes that a dead link fails.
-/

namespace Sys2Proof.Machine

/-! ## The cached translations of the cores -/

/-- The translations that each core caches. -/
def State.tlbs (s : State) : List (List Tlb) := s.cores.map Core.tlb

theorem tlbs_of_cores {s s' : State} (h : s'.cores = s.cores) : s'.tlbs = s.tlbs := congrArg (List.map Core.tlb) h

theorem foldl_tlbs {α : Type} (g : State → α → State) (h : ∀ s a, (g s a).tlbs = s.tlbs) (l : List α) (s : State) :
    (l.foldl g s).tlbs = s.tlbs := by
  induction l generalizing s with
  | nil => rfl
  | cons a l ih => exact (ih (g s a)).trans (h s a)

theorem onCore_tlbs (s : State) (n : Nat) {f : Core → Core} (hf : ∀ c, (f c).tlb = c.tlb) : (s.onCore n f).tlbs = s.tlbs := by
  refine List.ext_getElem? fun i => ?_
  simp only [State.tlbs, State.onCore, List.getElem?_map, List.getElem?_modify]
  cases s.cores[i]? with
  | none => simp
  | some c => by_cases hn : n = i <;> simp [hn, hf]

@[simp] theorem postOnce_tlbs (s : State) (e : Ev) : (s.postOnce e).tlbs = s.tlbs := tlbs_of_cores (cores_postOnce s e)

theorem foldl_postOnce_tlbs {α : Type} (ev : α → Ev) (l : List α) (s : State) :
    (l.foldl (fun s a => s.postOnce (ev a)) s).tlbs = s.tlbs := foldl_tlbs _ (fun s a => postOnce_tlbs s (ev a)) l s

@[simp] theorem apply_tlbs (s : State) (cells : List (Nat × Byte)) : (s.apply cells).tlbs = s.tlbs := by
  obtain ⟨es, h⟩ := apply_eq s cells
  rw [h]
  rfl

@[simp] theorem clearWait_tlbs (s : State) (id : Nat) : (clearWait s id).tlbs = s.tlbs :=
  (foldl_postOnce_tlbs (fun t : Team => .fenceComplete t.uid) _ _).trans
    (foldl_postOnce_tlbs (fun w : BufWrite => .releaseGateOpen w.id) _ _)

@[simp] theorem insertFlight_tlbs (s : State) (f : Flight) : (insertFlight s f).tlbs = s.tlbs := rfl

@[simp] theorem withdrawOp_tlbs (s : State) (u op : Nat) : (withdrawOp s u op).tlbs = s.tlbs := by
  unfold withdrawOp
  dsimp only
  split
  · rfl
  · split
    · rfl
    · exact (insertFlight_tlbs _ _).trans (foldl_tlbs _ (fun s (w : BufWrite) => clearWait_tlbs s w.id) _ _)

@[simp] theorem withdrawFor_tlbs (s : State) (u id : Nat) : (withdrawFor s u id).tlbs = s.tlbs :=
  foldl_tlbs _ (fun s op => withdrawOp_tlbs s u op) _ s

@[simp] theorem l1DropLine_tlbs (s : State) (core key : Nat) : (l1DropLine s core key).tlbs = s.tlbs :=
  onCore_tlbs s core (fun _ => rfl)

@[simp] theorem texDropKeys_tlbs (s : State) (core : Nat) (keys : List Nat) : (texDropKeys s core keys).tlbs = s.tlbs :=
  onCore_tlbs s core (fun _ => rfl)

theorem foldl_l1DropLine_tlbs (core : Nat) (l : List (Nat × Byte)) (s : State) :
    (l.foldl (fun s c => l1DropLine s core c.1) s).tlbs = s.tlbs :=
  foldl_tlbs (fun s (c : Nat × Byte) => l1DropLine s core c.1) (fun s c => l1DropLine_tlbs s core c.1) l s

@[simp] theorem dropFaults_tlbs (s : State) (p : FaultReq → Bool) : (dropFaults s p).tlbs = s.tlbs := by
  simp only [State.tlbs, dropFaults, List.map_map]
  refine List.map_congr_left fun c _ => ?_
  simp only [Function.comp_apply]
  split <;> rfl

@[simp] theorem unhandled_tlbs (s : State) (t : Team) (code : Nat) : (unhandled s t code).tlbs = s.tlbs := by
  unfold unhandled
  dsimp only
  rw [postOnce_tlbs, tlbs_of_cores (State.onLaunch_cores _ _ _), foldl_tlbs _ (fun s (f : Flight) => clearWait_tlbs s f.id)]
  exact dropFaults_tlbs _ _

@[simp] theorem addPending_tlbs (s : State) (u : Nat) (tr : Trap) : (addPending s u tr).tlbs = s.tlbs := rfl

@[simp] theorem storeFails_tlbs (s : State) (w : BufWrite) (cause : Nat) : (storeFails s w cause).tlbs = s.tlbs := by
  have hdrop : (w.cells.foldl (fun s c => l1DropLine s w.core c.1)
      (clearWait { withdrawFor s w.team w.id with writes := (withdrawFor s w.team w.id).writes.filter (fun v => v.id ≠ w.id) }
        w.id)).tlbs = s.tlbs :=
    (foldl_l1DropLine_tlbs _ _ _).trans ((clearWait_tlbs _ _).trans (withdrawFor_tlbs s w.team w.id))
  unfold storeFails
  dsimp only
  split
  · split
    · exact (unhandled_tlbs _ _ _).trans hdrop
    · exact hdrop
  · exact hdrop

@[simp] theorem combineWrite_tlbs (s : State) (w : BufWrite) (op : Nat) (ty : Ty) (d : Word64) :
    (combineWrite s w op ty d).tlbs = s.tlbs :=
  (clearWait_tlbs _ _).trans ((foldl_tlbs sliceDrop (fun _ _ => rfl) _ _).trans (apply_tlbs _ _))

@[simp] theorem applyWrite_tlbs (s : State) (w : BufWrite) : (applyWrite s w).tlbs = s.tlbs := by
  unfold applyWrite
  dsimp only
  rw [clearWait_tlbs, apply_tlbs]
  split
  · refine (texDropKeys_tlbs _ _ _).trans ?_
    split
    · exact foldl_l1DropLine_tlbs _ _ _
    · rfl
  · split
    · exact foldl_l1DropLine_tlbs _ _ _
    · rfl

@[simp] theorem applyAll_tlbs (s : State) (l : List BufWrite) : (applyAll s l).tlbs = s.tlbs := by
  induction l generalizing s with
  | nil => rfl
  | cons w l ih =>
    rw [applyAll, ih]
    split
    · exact applyWrite_tlbs s w
    · rfl

@[simp] theorem performWrite_tlbs (s : State) (w : BufWrite) : (performWrite s w).1.tlbs = s.tlbs := by
  unfold performWrite
  dsimp only
  split
  · exact (applyWrite_tlbs _ w).trans (applyAll_tlbs s _)
  · exact applyAll_tlbs s _

@[simp] theorem unissue_tlbs (s : State) (w : BufWrite) : (unissue s w).tlbs = s.tlbs := by
  unfold unissue
  split
  · rfl
  · exact postOnce_tlbs _ _

@[simp] theorem rehome_tlbs (s : State) (id : Nat) : (rehome s id).tlbs = s.tlbs := by
  unfold rehome
  split
  · rfl
  · split
    · rfl
    · exact storeFails_tlbs ..
    · split
      · exact combineWrite_tlbs ..
      · split
        · exact performWrite_tlbs ..
        · exact unissue_tlbs ..

@[simp] theorem retranslate_tlbs (s : State) (ctx va len : Nat) : (retranslate s ctx va len).tlbs = s.tlbs := by
  refine foldl_tlbs _ (fun s f => ?_) _ s
  split
  · dsimp only
    split
    · exact postOnce_tlbs _ _
    · rfl
  · rfl

/-- A shootdown drops the translations of the context that meet the range, and nothing after that caches one. -/
theorem shootRange_tlbs (s : State) (ctx va len : Nat) : (shootRange s ctx va len).tlbs =
    s.tlbs.map (fun l => l.filter (fun e => !(e.ctx = ctx && inRange e.va e.size va len))) := by
  unfold shootRange
  dsimp only
  rw [foldl_tlbs _ (fun s (w : BufWrite) => rehome_tlbs s w.id), retranslate_tlbs, State.tlbs,
    State.tlbs, List.map_map, List.map_map]
  rfl

/-! ## Entries, links and peers -/

theorem inHbm_iff (pa n : Nat) : inHbm pa n = true ↔ pa % 2 ^ 48 + n ≤ 384 * 2 ^ 30 := decide_eq_true_iff

theorem writePte_mem_eq (s : State) (pa : Nat) (pte : Word64) : (writePte s pa pte).mem = entryWritten s.mem pa pte := by
  have hout : (!inHbm pa 8) = true ↔ 384 * 2 ^ 30 < pa % 2 ^ 48 + 8 := by
    rw [Bool.not_eq_true', ← Bool.not_eq_true, inHbm_iff, Nat.not_le]
  unfold writePte entryWritten
  by_cases h : 384 * 2 ^ 30 < pa % 2 ^ 48 + 8
  · rw [if_pos (hout.mpr h), if_pos h]
  · rw [if_neg (fun hb => h (hout.mp hb)), if_neg h, apply_mem]
    rfl

theorem foldl_writePte_mem (ptes : List (Nat × Word64)) (s : State) :
    (ptes.foldl (fun s p => writePte s p.1 p.2) s).mem = ptes.foldl (fun m p => entryWritten m p.1 p.2) s.mem := by
  induction ptes generalizing s with
  | nil => rfl
  | cons p l ih => rw [List.foldl_cons, List.foldl_cons, ih, writePte_mem_eq]

theorem writePte_hub (s : State) (pa : Nat) (pte : Word64) : (writePte s pa pte).hub = s.hub := by
  unfold writePte
  split
  · rfl
  · obtain ⟨es, h⟩ := apply_eq s (cellsAt (physKey 0 pa) (leBytes 8 (fwPte (s.mem.num (physKey 0 pa) 8) pte).toNat))
    rw [h]

theorem foldl_writePte_hub (ptes : List (Nat × Word64)) (s : State) :
    (ptes.foldl (fun s p => writePte s p.1 p.2) s).hub = s.hub := by
  induction ptes generalizing s with
  | nil => rfl
  | cons p l ih => rw [List.foldl_cons, ih, writePte_hub]

theorem mem_agenda_postOnce (s : State) (e : Ev) : e ∈ (s.postOnce e).agenda := by
  unfold State.postOnce
  split
  next h => exact List.contains_iff_mem.mp h
  · exact mem_agenda_post s e

theorem mem_agenda_foldl_postOnce_of_mem {α : Type} (ev : α → Ev) (l : List α) {s : State} {e : Ev} (h : e ∈ s.agenda) :
    e ∈ (l.foldl (fun s a => s.postOnce (ev a)) s).agenda := by
  obtain ⟨es, hes⟩ := foldl_postOnce_eq ev l s
  rw [hes]
  exact List.mem_append_left _ h

theorem mem_agenda_foldl_postOnce {α : Type} (ev : α → Ev) {l : List α} (s : State) {a : α} (ha : a ∈ l) :
    ev a ∈ (l.foldl (fun s a => s.postOnce (ev a)) s).agenda := by
  induction l generalizing s with
  | nil => exact absurd ha List.not_mem_nil
  | cons b l ih =>
    rcases List.mem_cons.mp ha with rfl | ha
    · exact mem_agenda_foldl_postOnce_of_mem ev l (mem_agenda_postOnce s _)
    · exact ih _ ha

/-- The writes that a dead tier cuts fail, and nothing else happens: whether a write is cut does not depend on the agenda. -/
theorem failTier_eq (s : State) : ∃ es, failTier s = { s with agenda := s.agenda ++ es } ∧
    ∀ w ∈ s.writes, w.cut (failTier s) = true → .storeFailure w.id 5 ∈ (failTier s).agenda := by
  obtain ⟨es, hes⟩ := foldl_postOnce_eq (fun w : BufWrite => .storeFailure w.id 5) (s.writes.filter (fun w => w.cut s)) s
  have hcut : ∀ w : BufWrite, w.cut (failTier s) = w.cut s := fun w => by
    unfold failTier
    rw [hes]
    rfl
  refine ⟨es, hes, fun w hw h => ?_⟩
  rw [hcut] at h
  exact mem_agenda_foldl_postOnce (fun w : BufWrite => .storeFailure w.id 5) s (List.mem_filter.mpr ⟨hw, h⟩)

theorem execPcieLinkDown_spec (s : State) : ∃ s', exec .pcieLinkDown s = .next s' ∧ s'.hub.pcieUp = false ∧
    (∀ a, s'.mem.get a = s.mem.get a) ∧ ∀ w ∈ s.writes, w.cut s' = true → .storeFailure w.id 5 ∈ s'.agenda := by
  obtain ⟨es, hes, hdue⟩ := failTier_eq (s.onHub (fun h => { h with pcieUp := false }))
  refine ⟨_, rfl, ?_, fun a => ?_, hdue⟩
  · rw [hes]
    rfl
  · rw [hes]
    rfl

theorem execShootdown_spec (ctx : Nat) (va : Word64) (len : Nat) (ptes : List (Nat × Word64)) (s : State) :
    ∃ s', exec (.shootdown ctx va len ptes) s = .next s' ∧ s'.mem = ptes.foldl (fun m p => entryWritten m p.1 p.2) s.mem ∧
      s'.hub.shoots = s.hub.shoots ++ [(ctx, va.toNat, len)] ∧ .shootdownComplete ctx va len ∈ s'.agenda := by
  refine ⟨_, rfl, foldl_writePte_mem ptes s, ?_, mem_agenda_post _ _⟩
  change (ptes.foldl (fun s p => writePte s p.1 p.2) s).hub.shoots ++ _ = _
  rw [foldl_writePte_hub]

theorem execShootdownComplete_spec (ctx : Nat) (va : Word64) (len : Nat) (s : State) :
    ∃ s', exec (.shootdownComplete ctx va len) s = .next s' ∧
      ∀ c ∈ s'.cores, ∀ e ∈ c.tlb, ¬ (e.ctx = ctx ∧ inRange e.va e.size va.toNat len = true) := by
  refine ⟨_, rfl, fun c hc e he => ?_⟩
  have htlb := List.mem_map_of_mem (f := Core.tlb) hc
  change c.tlb ∈ State.tlbs _ at htlb
  rw [foldl_postOnce_tlbs (fun e : Extent => .extentReleaseDone e.num), tlbs_of_cores (State.onHub_cores _ _),
    shootRange_tlbs] at htlb
  obtain ⟨l, -, hl⟩ := List.mem_map.mp htlb
  rw [← hl] at he
  rintro ⟨hctx, hin⟩
  simp [hctx, hin] at he

theorem execPeerWrite_spec (pa : Nat) (data : List Byte) (s : State) :
    ∃ s', exec (.palyrPeerAccess (.write pa data)) s = .next s' ∧
      s'.mem = if pa % 2 ^ 48 + data.length ≤ 384 * 2 ^ 30 then s.mem.setBytes (physKey 0 pa) data else s.mem := by
  refine ⟨_, rfl, ?_⟩
  simp only [ite_mem, apply_mem, inHbm_iff, Memory.setBytes]

theorem execPeerAtomic_spec (pa op : Nat) (ty : Ty) (data cmp : Word64) (s : State) :
    ∃ s', exec (.palyrPeerAccess (.atomic pa op ty data cmp)) s = .next s' ∧
      s'.mem = if 384 * 2 ^ 30 < pa % 2 ^ 48 + ty.width / 8 then s.mem else s.mem.setBytes (physKey 0 pa)
        (leBytes (ty.width / 8) (atomNew op ty (s.mem.num (physKey 0 pa) (ty.width / 8)) data.toNat cmp.toNat)) := by
  refine ⟨_, rfl, ?_⟩
  by_cases h : pa % 2 ^ 48 + ty.width / 8 ≤ 384 * 2 ^ 30
  · simp only [apply_mem, inHbm_iff, Memory.setBytes, if_pos h, if_neg (Nat.not_lt.mpr h)]
  · simp only [inHbm_iff, if_neg h, if_pos (Nat.not_le.mp h)]

/-! ## pref -/

/-- What a prefetch leaves: memory, teams, flights and writes; and the cores when it goes to the slice (X24 [18]). -/
def Prefetched (slice : Bool) (s s' : State) : Prop :=
  s'.mem = s.mem ∧ s'.teams = s.teams ∧ s'.flights = s.flights ∧ s'.writes = s.writes ∧ (slice = true → s'.cores = s.cores)

theorem Prefetched.refl (b : Bool) (s : State) : Prefetched b s s := ⟨rfl, rfl, rfl, rfl, fun _ => rfl⟩

theorem Prefetched.trans {b : Bool} {s1 s2 s3 : State} (h : Prefetched b s1 s2) (h' : Prefetched b s2 s3) :
    Prefetched b s1 s3 := by
  obtain ⟨hm, ht, hf, hw, hc⟩ := h
  obtain ⟨hm', ht', hf', hw', hc'⟩ := h'
  exact ⟨hm'.trans hm, ht'.trans ht, hf'.trans hf, hw'.trans hw, fun hb => (hc' hb).trans (hc hb)⟩

theorem Prefetched.foldl {b : Bool} {α : Type} {g : State → α → State} (h : ∀ s a, Prefetched b s (g s a)) (l : List α)
    (s : State) : Prefetched b s (l.foldl g s) := by
  induction l generalizing s with
  | nil => exact .refl b s
  | cons a l ih => exact (h s a).trans (ih _)

theorem prefetched_sliceHold (b : Bool) (s : State) (key : Nat) : Prefetched b s (sliceHold s key) := by
  unfold sliceHold
  dsimp only
  split
  · exact .refl b s
  · exact ⟨rfl, rfl, rfl, rfl, fun _ => rfl⟩

theorem prefetched_l1Fetch (s : State) (core key : Nat) : Prefetched false s (l1Fetch s core key) := by
  unfold l1Fetch
  dsimp only
  split
  · exact .refl false s
  · exact (prefetched_sliceHold false s key).trans ⟨rfl, rfl, rfl, rfl, fun h => absurd h Bool.false_ne_true⟩

theorem prefetched_l1Load (s : State) (core : Nat) (l : List Seg) : Prefetched false s (l1Load s core l) := by
  refine Prefetched.foldl (fun s g => ?_) l s
  split
  · exact (prefetched_l1Fetch ..).trans (prefetched_l1Fetch ..)
  · exact .refl false s

/-- The access that `pref` checks: its address may be misaligned. -/
def prefOp (x : Ext) : MemOp := { ldstOp 0 x with al := true, acq := false, scope := 0 }

theorem effPref_spec (c : C) (s : State)
    (h : c.addrCheck (prefOp c.x) 1 (c.actives.map (fun l => (l, c.ea s (prefOp c.x) l))) = none) :
    ∃ s', effPref c s = .done s' ∧ Prefetched (c.x.bit 18) s s' := by
  unfold effPref
  dsimp only
  split
  next tr htr => exact absurd (h.symm.trans htr) (by simp)
  · refine ⟨_, rfl, Prefetched.foldl (fun s p => ?_) _ s⟩
    split
    · split
      · split
        · exact prefetched_sliceHold ..
        next hb =>
          rw [Bool.eq_false_iff.mpr hb]
          exact prefetched_l1Load ..
      · exact .refl _ _
    · exact .refl _ _

theorem execPref_spec {x : Ext} {s : State} {t : Team} (hi : Issues 0x4A 8 x s t)
    (hc : ∀ l ∈ lanesOf (activeLanes t x),
      canonical (memAddr s t x (x.bit 14) false (x.f 16 15) (sextN 14 (x.f 13 0)) l) = true) :
    ∃ s', exec (.pref x) s = .next (retire s' t (extLen x)) ∧ Prefetched (x.bit 18) s s' := by
  obtain ⟨s', hs', hp⟩ := effPref_spec (ctxAt (.pref x) 0x4A 8 (extLen x) x t) s (addrCheck_eq_none (fun p hmem => by
    obtain ⟨l, hl, rfl⟩ := List.mem_map.mp hmem
    exact (congrArg canonical (ea_ctxAt (.pref x) 0x4A 8 (extLen x) x t s (prefOp x) rfl l)).trans (hc l hl))
    (fun h => absurd h (by simp [prefOp])))
  exact ⟨s', exec_of_done rfl hi hs', hp⟩

/-- Settles O30: each event by the lemma that says what it does, `pref` by what its fold over the lanes leaves. -/
theorem shootdownsAndLinksAct : Obligations.ShootdownsAndLinksAct := by
  refine ⟨execShootdown_spec, execShootdownComplete_spec, execPcieLinkDown_spec, fun _ _ _ => rfl, execPeerWrite_spec,
    execPeerAtomic_spec, fun x s t hi hc => ?_⟩
  obtain ⟨s', he, hm, ht, hf, hw, hcores⟩ := execPref_spec hi hc
  exact ⟨s', he, fun a => by rw [hm], ht, hf, hw, hcores⟩

end Sys2Proof.Machine
end

section
/-!
PROOFS. Translations and faults (09 R195, R200, R202-R205, 20 R448): what a walk leaves of a lane, what firmware's answer does to
the requests of a page.
-/

namespace Sys2Proof.Machine

/-! ## A flight whose lane gets a state -/

theorem id_of_flight? {s : State} {id : Nat} {f : Flight} (h : s.flight? id = some f) : f.id = id :=
  of_decide_eq_true (List.find?_some (p := fun f : Flight => decide (f.id = id)) h)

theorem mem_flights_of_flight? {s : State} {id : Nat} {f : Flight} (h : s.flight? id = some f) : f ∈ s.flights :=
  List.mem_of_find?_eq_some h

/-- A flight whose lanes of a number have another state. -/
def Flight.withLane (f : Flight) (lane : Nat) (st : LaneSt) : Flight :=
  { f with lanes := f.lanes.map (fun l => if l.lane = lane then { l with st := st } else l) }

theorem withLane_lanes_of_one {f : Flight} {r : LaneReq} (h : f.lanes = [r]) (st : LaneSt) :
    (f.withLane r.lane st).lanes = [{ r with st := st }] := by
  simp [Flight.withLane, h]

theorem flight?_map {s : State} {id : Nat} {g : Flight → Flight} (hg : ∀ f, (g f).id = f.id) :
    ({ s with flights := s.flights.map g } : State).flight? id = (s.flight? id).map g := by
  simp only [State.flight?, List.find?_map, Function.comp_def, hg]

theorem flight?_setLane {s : State} {id : Nat} {f : Flight} (h : s.flight? id = some f) (lane : Nat) (st : LaneSt) :
    (setLane s id lane st).flight? id = some (f.withLane lane st) := by
  rw [setLane, flight?_map (fun f => by split <;> rfl), h, Option.map_some, if_pos (id_of_flight? h)]
  rfl

theorem foldl_l1DropLine_eq_cores {α : Type} (core : Nat) (key : α → Nat) (l : List α) (s : State) :
    ∃ cs, l.foldl (fun s a => l1DropLine s core (key a)) s = { s with cores := cs } := by
  induction l generalizing s with
  | nil => exact ⟨s.cores, rfl⟩
  | cons a l ih => exact ih (l1DropLine s core (key a))

/-! ## A team that stays as it is after a walk -/

theorem settle_of_running {s : State} {u : Nat} {t : Team} (ht : s.team? u = some t) (hrun : t.run = .running) :
    settle s u = s := by
  simp only [settle, ht, hrun]

theorem settle_of_inFault {s : State} {u : Nat} {t : Team} (ht : s.team? u = some t) (hrun : t.run = .parked .fault)
    (hf : s.inFault u = true) : settle s u = s := by
  simp only [settle, ht, hrun, hf, if_true]

theorem inFault_of_flight {s : State} {u id : Nat} {f : Flight} (h : s.flight? id = some f) (hu : f.team = u)
    (hl : f.lanes.any (fun l => l.st = .faulted) = true) : s.inFault u = true :=
  List.any_eq_true.mpr ⟨f, List.mem_filter.mpr ⟨mem_flights_of_flight? h, decide_eq_true hu⟩, hl⟩

/-! ## TRANSLATION_WALK of one lane -/

/-- The state in which a walk looks at a lane: its page or pages are in the core's cache, where they are present. -/
def walkReady (s : State) (t : Team) (m : MemOp) (va : Nat) : State :=
  tlbFill (tlbFill s t.core t.ctx va) t.core t.ctx ((va + (m.size - 1)) % 2 ^ 64)

theorem walkReady_eq_cores (s : State) (t : Team) (m : MemOp) (va : Nat) :
    ∃ cs, walkReady s t m va = { s with cores := cs } := by
  obtain ⟨cs1, h1⟩ := tlbFill_eq_cores s t.core t.ctx va
  obtain ⟨cs2, h2⟩ := tlbFill_eq_cores (tlbFill s t.core t.ctx va) t.core t.ctx ((va + (m.size - 1)) % 2 ^ 64)
  exact ⟨cs2, by rw [walkReady, h2, h1]⟩

section
variable {s : State} {t : Team} {f : Flight} {m : MemOp} {r : LaneReq}

theorem walkLane_of_ready {segs : List Seg}
    (h : laneTr (walkReady s t m r.addr.toNat) t.core t.ctx m r.addr.toNat = .ready segs) :
    ∃ cs, walkLane s t f m r = setLane { s with cores := cs } f.id r.lane (.ready segs) := by
  obtain ⟨cs, hcs⟩ := walkReady_eq_cores s t m r.addr.toNat
  simp only [walkReady] at h hcs
  simp only [walkLane, h]
  split
  · obtain ⟨cs', hcs'⟩ := foldl_l1DropLine_eq_cores t.core id (segKeys segs) { s with cores := cs }
    refine ⟨cs', ?_⟩
    rw [hcs]
    exact congrArg (fun s => setLane s f.id r.lane (.ready segs)) hcs'
  · exact ⟨cs, by rw [hcs]⟩

/-- The request of a lane that meets an absent page. -/
def walkFault (s : State) (t : Team) (f : Flight) (m : MemOp) (r : LaneReq) : FaultReq :=
  let at_ := failVA s t.core t.ctx m.access r.addr.toNat m.size
  { die := dieOf t.core, ctx := t.ctx, blk := at_ % 2 ^ 57 / 2048, path := m.path, flight := f.id,
    retry := .translationWalk f.id, pass := r.lane / 32, sectors := sectorCount f m (r.lane / 32) at_ }

theorem walkLane_of_faulted (h : laneTr (walkReady s t m r.addr.toNat) t.core t.ctx m r.addr.toNat = .faulted)
    (hroom : faultsFull (walkReady s t m r.addr.toNat) (dieOf t.core) = false) :
    ∃ cs qs q, walkLane s t f m r = { setLane { s with cores := cs } f.id r.lane .faulted with faults := qs } ∧ q ∈ qs ∧
      q.flight = f.id ∧ q.ctx = t.ctx ∧ q.die = dieOf t.core ∧ q.retry = .translationWalk f.id := by
  obtain ⟨cs, hcs⟩ := walkReady_eq_cores s t m r.addr.toNat
  obtain ⟨qs, hqs, hmem⟩ := addFault_of_room (s := setLane (walkReady s t m r.addr.toNat) f.id r.lane .faulted)
    (q := walkFault (walkReady s t m r.addr.toNat) t f m r) t.core hroom
  have heq : walkLane s t f m r = addFault (setLane (walkReady s t m r.addr.toNat) f.id r.lane .faulted) t.core
      (walkFault (walkReady s t m r.addr.toNat) t f m r) := by
    simp only [walkReady] at h hroom
    simp only [walkLane, h, hroom, Bool.false_and, Bool.false_eq_true, if_false]
    rfl
  exact ⟨cs, qs, _, by rw [heq, hqs, hcs], hmem, rfl, rfl, rfl, rfl⟩

/-- What follows the walk of the lanes of a flight. -/
def afterWalk (s : State) (id u : Nat) (g : Flight) : State :=
  let s := if g.lanes.any (fun l => l.st = .faulted) then parkFault s u else s
  let s := if g.lanes.any (fun l => l.st = .todo) then s.postOnce (.translationWalk id) else s
  let s := if g.hasReady || g.over then s.postOnce (.accessResponse id) else s
  settle s u

theorem execTranslationWalk_of_one {id : Nat} {g : Flight} (hf : s.flight? id = some f) (hm : memOp? f.instr = some m)
    (hw : f.withdrawn = false) (hl : f.lanes = [r]) (hr : r.st = .todo) (ht : s.team? f.team = some t)
    (hg : (walkLane s t f m r).flight? id = some g) :
    exec (.translationWalk id) s = .next (afterWalk (walkLane s t f m r) id t.uid g) := by
  change execTranslationWalk id s = _
  simp only [execTranslationWalk, hf, hm, ht, hw, hl, List.filter_cons, hr, decide_true, List.filter_nil, if_true,
    Bool.false_eq_true, if_false, List.foldl_cons, List.foldl_nil, hg]
  rfl

theorem flight?_postOnce (s : State) (e : Ev) (id : Nat) : (s.postOnce e).flight? id = s.flight? id := by
  obtain ⟨es, h⟩ := postOnce_eq s e
  rw [h]
  rfl

theorem team?_postOnce (s : State) (e : Ev) (u : Nat) : (s.postOnce e).team? u = s.team? u := by
  obtain ⟨es, h⟩ := postOnce_eq s e
  rw [h]
  rfl

theorem translationWalk_of_ready {id : Nat} {segs : List Seg} (hf : s.flight? id = some f) (hm : memOp? f.instr = some m)
    (hw : f.withdrawn = false) (hl : f.lanes = [r]) (hr : r.st = .todo) (ht : s.team? f.team = some t)
    (hrun : t.run = .running) (htr : laneTr (walkReady s t m r.addr.toNat) t.core t.ctx m r.addr.toNat = .ready segs) :
    ∃ s' g, exec (.translationWalk id) s = .next s' ∧ s'.flight? id = some g ∧ g.lanes = [{ r with st := .ready segs }] ∧
      .accessResponse id ∈ s'.agenda ∧ (∀ a, s'.mem.get a = s.mem.get a) := by
  have hid := id_of_flight? hf
  have huid : t.uid = f.team := uid_of_team? ht
  obtain ⟨cs, hcs⟩ := walkLane_of_ready (f := f) htr
  have hone := withLane_lanes_of_one hl (.ready segs)
  have hflight : (walkLane s t f m r).flight? id = some (f.withLane r.lane (.ready segs)) := by
    rw [hcs, hid]
    exact flight?_setLane (s := { s with cores := cs }) hf _ _
  have hteam : (walkLane s t f m r).team? t.uid = some t := by
    rw [hcs, huid]
    exact ht
  have hafter : afterWalk (walkLane s t f m r) id t.uid (f.withLane r.lane (.ready segs)) =
      (walkLane s t f m r).postOnce (.accessResponse id) := by
    have hready : (f.withLane r.lane (.ready segs)).hasReady = true := by simp [Flight.hasReady, hone]
    simp only [afterWalk, hone, List.any_cons, List.any_nil, hready, reduceCtorEq, decide_false, Bool.or_false,
      Bool.false_eq_true, if_false, Bool.true_or, if_true]
    exact settle_of_running (by rw [team?_postOnce]; exact hteam) hrun
  refine ⟨_, _, execTranslationWalk_of_one hf hm hw hl hr ht hflight, ?_, hone, ?_, fun a => ?_⟩
  · rw [hafter, flight?_postOnce]
    exact hflight
  · rw [hafter]
    exact mem_agenda_postOnce ..
  · rw [hafter, State.postOnce_mem, hcs]
    rfl

theorem translationWalk_of_faulted {id : Nat} (hf : s.flight? id = some f) (hm : memOp? f.instr = some m)
    (hw : f.withdrawn = false) (hl : f.lanes = [r]) (hr : r.st = .todo) (ht : s.team? f.team = some t)
    (hrun : t.run = .running) (htr : laneTr (walkReady s t m r.addr.toNat) t.core t.ctx m r.addr.toNat = .faulted)
    (hroom : faultsFull (walkReady s t m r.addr.toNat) (dieOf t.core) = false) :
    ∃ s' g t' q, exec (.translationWalk id) s = .next s' ∧ s'.flight? id = some g ∧ g.lanes = [{ r with st := .faulted }] ∧
      s'.team? f.team = some t' ∧ t'.run = .parked .fault ∧ q ∈ s'.faults ∧ q.flight = id ∧ q.ctx = t.ctx ∧
      q.die = dieOf t.core ∧ q.retry = .translationWalk id := by
  have hid := id_of_flight? hf
  have huid : t.uid = f.team := uid_of_team? ht
  obtain ⟨cs, qs, q, hcs, hq, hqf, hqc, hqd, hqr⟩ := walkLane_of_faulted (f := f) htr hroom
  have hone := withLane_lanes_of_one hl .faulted
  have hflight : (walkLane s t f m r).flight? id = some (f.withLane r.lane .faulted) := by
    rw [hcs, hid]
    exact flight?_setLane (s := { s with cores := cs }) hf _ _
  have hteam : (walkLane s t f m r).team? t.uid = some t := by
    rw [hcs, huid]
    exact ht
  obtain ⟨es, hpark, hparked⟩ := parkFault_of_running hteam hrun
  have hflight' : (parkFault (walkLane s t f m r) t.uid).flight? id = some (f.withLane r.lane .faulted) := by
    rw [hpark]
    exact hflight
  have hafter : afterWalk (walkLane s t f m r) id t.uid (f.withLane r.lane .faulted) =
      parkFault (walkLane s t f m r) t.uid := by
    have hready : (f.withLane r.lane .faulted).hasReady = false := by simp [Flight.hasReady, hone]
    have hover : (f.withLane r.lane .faulted).over = false := by simp [Flight.over, hone]
    simp only [afterWalk, hone, List.any_cons, List.any_nil, hready, hover, reduceCtorEq, decide_false, decide_true,
      Bool.or_false, Bool.false_eq_true, if_false, if_true]
    exact settle_of_inFault hparked rfl (inFault_of_flight hflight' huid.symm (by simp [hone]))
  rw [hid] at hqf hqr
  refine ⟨_, _, { t with run := .parked .fault }, q, execTranslationWalk_of_one hf hm hw hl hr ht hflight, ?_, hone, ?_, rfl, ?_,
    hqf, hqc, hqd, hqr⟩
  · rw [hafter]
    exact hflight'
  · rw [hafter, ← huid]
    exact hparked
  · rw [hafter, hpark, hcs]
    exact hq

end

/-! ## FAULT_SERVICED and FAULT_DECLINED -/

/-- What answers to requests leave alone: memory and the fault buffer; what was due or refused stays so. -/
def Answered (s s' : State) : Prop :=
  s'.mem = s.mem ∧ s'.faults = s.faults ∧ (∀ e ∈ s.agenda, e ∈ s'.agenda) ∧ ∀ e ∈ s.declined, e ∈ s'.declined

theorem Answered.refl (s : State) : Answered s s := ⟨rfl, rfl, fun _ h => h, fun _ h => h⟩

theorem Answered.trans {s1 s2 s3 : State} (h : Answered s1 s2) (h' : Answered s2 s3) : Answered s1 s3 := by
  obtain ⟨hm, hf, ha, hd⟩ := h
  obtain ⟨hm', hf', ha', hd'⟩ := h'
  exact ⟨hm'.trans hm, hf'.trans hf, fun e he => ha' e (ha e he), fun e he => hd' e (hd e he)⟩

theorem Answered.postOnce (s : State) (e : Ev) : Answered s (s.postOnce e) := by
  obtain ⟨es, h⟩ := postOnce_eq s e
  rw [h]
  exact ⟨rfl, rfl, fun _ he => List.mem_append_left _ he, fun _ he => he⟩

theorem Answered.foldl {α : Type} {g : State → α → State} (h : ∀ s a, Answered s (g s a)) (l : List α) (s : State) :
    Answered s (l.foldl g s) := by
  induction l generalizing s with
  | nil => exact .refl s
  | cons a l ih => exact (h s a).trans (ih _)

/-- What each request of a list gets stands at the end: later answers take nothing back. -/
theorem Answered.of_mem_foldl {α : Type} {g : State → α → State} (h : ∀ s a, Answered s (g s a)) {l : List α} {a : α}
    (ha : a ∈ l) (s : State) : ∃ s1, Answered s s1 ∧ Answered (g s1 a) (l.foldl g s) := by
  induction l generalizing s with
  | nil => exact absurd ha List.not_mem_nil
  | cons b l ih =>
    rcases List.mem_cons.mp ha with rfl | ha
    · exact ⟨s, .refl s, Answered.foldl h l _⟩
    · obtain ⟨s1, h1, h2⟩ := ih ha (g s b)
      exact ⟨s1, (h s b).trans h1, h2⟩

theorem answered_setLane (s : State) (id lane : Nat) (st : LaneSt) : Answered s (setLane s id lane st) :=
  ⟨rfl, rfl, fun _ h => h, fun _ h => h⟩

theorem answered_rewalk (s : State) (id : Nat) : Answered s (rewalk s id) := ⟨rfl, rfl, fun _ h => h, fun _ h => h⟩

theorem answered_onTeam (s : State) (u : Nat) (f : Team → Team) : Answered s (s.onTeam u f) :=
  ⟨rfl, rfl, fun _ h => h, fun _ h => h⟩

theorem answered_settle (s : State) (u : Nat) : Answered s (settle s u) := by
  unfold settle
  split
  · exact .refl s
  · split
    · split
      · exact .refl s
      · exact answered_onTeam ..
    · split
      · exact .refl s
      · split
        · exact answered_onTeam ..
        · exact (answered_onTeam ..).trans (.postOnce ..)
    · split
      · exact .postOnce ..
      · exact .refl s
    · exact .refl s

/-- A replayed request is due again, and its lanes are to be looked up again. -/
def replayOne (s : State) (q : FaultReq) : State := (if q.flight = 0 then s else rewalk s q.flight).postOnce q.retry

theorem answered_replayOne (s : State) (q : FaultReq) : Answered s (replayOne s q) := by
  unfold replayOne
  split
  · exact .postOnce ..
  · exact (answered_rewalk ..).trans (.postOnce ..)

theorem answered_declineLanes (s : State) (f : Flight) (m : MemOp) (t : Team) (va : Nat) (q : FaultReq) :
    Answered s (declineLanes s f m t va q) := by
  refine Answered.foldl (fun s r => ?_) _ s
  split
  · exact .refl s
  · split
    · split
      · exact answered_setLane ..
      · exact .refl s
    · dsimp only
      split
      · exact answered_setLane ..
      · exact .refl s

/-- The retry of a request is noted as refused. -/
theorem answered_noteDeclined (s : State) (e : Ev) : Answered s { s with declined := s.declined ++ [e] } :=
  ⟨rfl, rfl, fun _ h => h, fun _ h => List.mem_append_left _ h⟩

theorem answered_declineReq (s : State) (va : Nat) (q : FaultReq) : Answered s (declineReq s va q) := by
  unfold declineReq
  split
  · split
    · exact ((answered_declineLanes ..).trans (.postOnce ..)).trans (answered_settle ..)
    · exact ((answered_rewalk s _).trans (answered_noteDeclined ..)).trans (.postOnce ..)
  · exact (answered_noteDeclined s _).trans (.postOnce ..)

/-- `declineReq` as a step of the fold over the requests of a page. -/
def declineIn (va : Nat) (s : State) (q : FaultReq) : State := declineReq s va q

theorem declineReq_of_no_flight (s : State) (va : Nat) {q : FaultReq} (h : q.flight = 0) :
    declineReq s va q = ({ s with declined := s.declined ++ [q.retry] } : State).postOnce q.retry := by
  simp only [declineReq, h, if_true]

theorem not_mem_dropFaults {s : State} {p : FaultReq → Bool} {q : FaultReq} (h : p q = true) : q ∉ (dropFaults s p).faults :=
  fun hq => by simp [dropFaults, h] at hq

/-- The requests of a context in a page. -/
def FaultReq.inPage (ctx va size : Nat) (q : FaultReq) : Bool := q.ctx = ctx && blkIn q.blk va size

theorem inPage_eq_true {ctx va size : Nat} {q : FaultReq} (hc : q.ctx = ctx) (hb : blkIn q.blk va size = true) :
    q.inPage ctx va size = true := by
  simp [FaultReq.inPage, hc, hb]

theorem pteBit_ofNat_zero (n : Nat) : pteBit (BitVec.ofNat 64 n) 0 = n.testBit 0 := by
  rw [pteBit, BitVec.getLsbD_ofNat]
  simp

/-- What firmware's entry leaves where the old one was not valid (09 R195, R200). -/
def filledMem (s : State) (pa : Nat) (pte : Word64) : Memory :=
  if (s.mem.num (physKey 0 pa) 8).testBit 0 then s.mem else entryWritten s.mem pa pte

/-- The entry is written where it was not valid; the fault buffer and the tables' roots stay. -/
theorem writePte_unless_valid (s : State) (pa : Nat) (pte : Word64) :
    ∃ s1, (if pteBit (BitVec.ofNat 64 (s.mem.num (physKey 0 pa) 8)) 0 then s else writePte s pa pte) = s1 ∧
      s1.mem = filledMem s pa pte ∧ s1.faults = s.faults ∧ s1.ctxs = s.ctxs := by
  refine ⟨_, rfl, ?_⟩
  rw [pteBit_ofNat_zero, filledMem]
  split
  · exact ⟨rfl, rfl, rfl⟩
  · refine ⟨writePte_mem_eq s pa pte, ?_⟩
    unfold writePte
    split
    · exact ⟨rfl, rfl⟩
    · obtain ⟨es, h⟩ := apply_eq s (cellsAt (physKey 0 pa) (leBytes 8 (fwPte (s.mem.num (physKey 0 pa) 8) pte).toNat))
      rw [h]
      exact ⟨rfl, rfl⟩

theorem walk_congr {s s' : State} (hm : s'.mem = s.mem) (hc : s'.ctxs = s.ctxs) (ctx va : Nat) :
    walk s' ctx va = walk s ctx va := by
  simp only [walk, State.ctx?, hm, hc]

theorem faultServiced_of_leaf {ctx : Nat} {va : Word64} {pa : Nat} {pte : Word64} {s : State} {e : Word64} {n : Nat}
    (hno : serviceWaits s ctx va.toNat 65536 = false)
    (hwalk : walk { s with mem := filledMem s pa pte } ctx va.toNat = .leaf e n) :
    ∃ s', exec (.faultServiced ctx va pa pte) s = .next s' ∧ s'.mem = filledMem s pa pte ∧
      ∀ q ∈ s.faults, q.ctx = ctx → blkIn q.blk va.toNat n = true → q ∉ s'.faults ∧ q.retry ∈ s'.agenda := by
  obtain ⟨s1, hs1, hmem, hfaults, hctxs⟩ := writePte_unless_valid s pa pte
  have hleaf : walk s1 ctx va.toNat = .leaf e n :=
    (walk_congr (s := { s with mem := filledMem s pa pte }) hmem hctxs ctx va.toNat).trans hwalk
  have hexec : exec (.faultServiced ctx va pa pte) s = .next ((s1.faults.filter (FaultReq.inPage ctx va.toNat n)).foldl
      replayOne (dropFaults s1 (FaultReq.inPage ctx va.toNat n))) := by
    change execFaultServiced ctx va pa pte s = _
    unfold execFaultServiced
    rw [hno, hs1]
    dsimp only
    rw [hleaf]
    rfl
  obtain ⟨hm, hf, -, -⟩ := Answered.foldl answered_replayOne (s1.faults.filter (FaultReq.inPage ctx va.toNat n))
    (dropFaults s1 (FaultReq.inPage ctx va.toNat n))
  refine ⟨_, hexec, hm.trans hmem, fun q hq hc hb => ?_⟩
  have hin := inPage_eq_true hc hb
  refine ⟨hf ▸ not_mem_dropFaults hin, ?_⟩
  obtain ⟨s2, -, hlast⟩ := Answered.of_mem_foldl answered_replayOne
    (List.mem_filter.mpr ⟨hfaults ▸ hq, hin⟩) (dropFaults s1 (FaultReq.inPage ctx va.toNat n))
  obtain ⟨-, -, hagenda, -⟩ := hlast
  exact hagenda _ (mem_agenda_postOnce ..)

theorem faultDeclined_spec {ctx : Nat} {va : Word64} {s : State} (hno : serviceWaits s ctx va.toNat 65536 = false) :
    ∃ s', exec (.faultDeclined ctx va) s = .next s' ∧ (∀ a, s'.mem.get a = s.mem.get a) ∧
      ∀ q ∈ s.faults, q.ctx = ctx → blkIn q.blk va.toNat 65536 = true →
        q ∉ s'.faults ∧ (q.flight = 0 → q.retry ∈ s'.declined ∧ q.retry ∈ s'.agenda) := by
  have hexec : exec (.faultDeclined ctx va) s = .next ((s.faults.filter (FaultReq.inPage ctx va.toNat 65536)).foldl
      (declineIn va.toNat) (dropFaults s (FaultReq.inPage ctx va.toNat 65536))) := by
    change execFaultDeclined ctx va s = _
    unfold execFaultDeclined
    rw [hno]
    rfl
  have hans : ∀ s q, Answered s (declineIn va.toNat s q) := fun s q => answered_declineReq s va.toNat q
  obtain ⟨hm, hf, -, -⟩ := Answered.foldl hans (s.faults.filter (FaultReq.inPage ctx va.toNat 65536))
    (dropFaults s (FaultReq.inPage ctx va.toNat 65536))
  refine ⟨_, hexec, fun a => by rw [hm]; rfl, fun q hq hc hb => ?_⟩
  have hin := inPage_eq_true hc hb
  refine ⟨hf ▸ not_mem_dropFaults hin, fun h0 => ?_⟩
  obtain ⟨s2, -, hlast⟩ := Answered.of_mem_foldl hans (List.mem_filter.mpr ⟨hq, hin⟩)
    (dropFaults s (FaultReq.inPage ctx va.toNat 65536))
  obtain ⟨-, -, hagenda, hdeclined⟩ := hlast
  have hone : declineIn va.toNat s2 q = ({ s2 with declined := s2.declined ++ [q.retry] } : State).postOnce q.retry :=
    declineReq_of_no_flight s2 va.toNat h0
  obtain ⟨es, hes⟩ := postOnce_eq { s2 with declined := s2.declined ++ [q.retry] } q.retry
  refine ⟨hdeclined _ ?_, hagenda _ ?_⟩
  · rw [hone, hes]
    exact List.mem_append_right _ (List.mem_singleton_self _)
  · rw [hone]
    exact mem_agenda_postOnce ..

/-- Settles O29: the two ends of a walk, firmware's two answers, and their wait during an update. -/
theorem translationsFillLanesOrPark : Obligations.TranslationsFillLanesOrPark := by
  refine ⟨?_, ?_, fun ctx va s hno => faultDeclined_spec hno, fun ctx va pa pte s h => ⟨if_pos h, if_pos h⟩⟩
  · intro id s f m r t hf hm hw hl hr ht hrun s1
    exact ⟨fun segs htr => translationWalk_of_ready hf hm hw hl hr ht hrun htr,
      fun htr hroom => translationWalk_of_faulted hf hm hw hl hr ht hrun htr hroom⟩
  · intro ctx va pa pte s e n old m hno hwalk
    exact faultServiced_of_leaf hno hwalk

end Sys2Proof.Machine
end

section
/-!
PROOFS. Scratch accesses and lines (09 R212, R222, 10 R229-R237): what each instruction answers at its issue.
-/

namespace Sys2Proof.Machine

/-! ## ldsp and stsp -/

/-- The lanes with an address out of reach. -/
def spadOut (s : State) (t : Team) (n : Nat) (as : List (Nat × Nat)) : List (Nat × Nat) :=
  as.filter (fun p => !scratchOk (s.core t.core) t.place t.ctx p.2 n)

/-- The lanes of an `ldsp` in flight, with the bytes bound at issue (log 32). -/
def spadLanes (s : State) (t : Team) (n : Nat) (as : List (Nat × Nat)) : List LaneReq :=
  as.map (fun p => { lane := p.1, addr := BitVec.ofNat 64 p.2,
                     data := BitVec.ofNat 64 ((s.core t.core).scratch.num p.2 n), st := .ready [] })

section
variable {c : C} {m : MemOp} {s : State} {as : List (Nat × Nat)}

theorem effSpad_of_out (has : (c.served m).map (fun l => (l, c.ea s m l)) = as) (hcheck : c.addrCheck m m.size as = none)
    (hout : spadOut s c.t m.size as ≠ []) :
    effSpad m c s = .trap s (c.addrTrap 0x05 0x0700 (spadOut s c.t m.size as)) := by
  have hne := isEmpty_eq_false_of_ne_nil hout
  simp only [spadOut] at hne ⊢
  simp only [effSpad, has, hcheck, hne, Bool.not_false, if_true]

theorem effSpad_of_held (has : (c.served m).map (fun l => (l, c.ea s m l)) = as) (hcheck : c.addrCheck m m.size as = none)
    (hout : spadOut s c.t m.size as = [])
    (hheld : ∃ p ∈ as, scratchHeld (s.core c.t.core) c.t.place c.t.ctx p.2 m.size = true) : effSpad m c s = .wait s := by
  have hany := List.any_eq_true.mpr hheld
  simp only [spadOut] at hout
  simp only [effSpad, has, hcheck, hout, hany, List.isEmpty_nil, Bool.not_true, Bool.false_eq_true, if_false, if_true]

theorem effSpad_of_nil (has : (c.served m).map (fun l => (l, c.ea s m l)) = []) : effSpad m c s = .done s := by
  have hcheck : c.addrCheck m m.size [] = none :=
    addrCheck_eq_none (fun _ h => absurd h List.not_mem_nil) (fun _ _ h => absurd h List.not_mem_nil)
  simp only [effSpad, has, hcheck, List.filter_nil, List.any_nil, List.isEmpty_nil, Bool.not_true, Bool.false_eq_true,
    if_false, if_true]

theorem any_scratchHeld_eq_false {k : Core} {place ctx n : Nat}
    (h : ∀ p ∈ as, scratchHeld k place ctx p.2 n = false) : as.any (fun p => scratchHeld k place ctx p.2 n) = false :=
  List.any_eq_false.mpr fun p hp => by rw [h p hp]; exact Bool.false_ne_true

theorem effSpad_of_load (has : (c.served m).map (fun l => (l, c.ea s m l)) = as) (hcheck : c.addrCheck m m.size as = none)
    (hout : spadOut s c.t m.size as = [])
    (hheld : ∀ p ∈ as, scratchHeld (s.core c.t.core) c.t.place c.t.ctx p.2 m.size = false) (hne : as ≠ [])
    (hkind : m.kind = .load) :
    effSpad m c s = .done ((c.launch s (spadLanes s c.t m.size as) [] [0] false).post (.accessResponse s.nextId)) := by
  have hany := any_scratchHeld_eq_false hheld
  simp only [spadOut] at hout
  simp only [effSpad, has, hcheck, hout, hany, isEmpty_eq_false_of_ne_nil hne, hkind, List.isEmpty_nil, Bool.not_true,
    Bool.false_eq_true, if_false]
  rfl

theorem effSpad_of_store (has : (c.served m).map (fun l => (l, c.ea s m l)) = as) (hcheck : c.addrCheck m m.size as = none)
    (hout : spadOut s c.t m.size as = [])
    (hheld : ∀ p ∈ as, scratchHeld (s.core c.t.core) c.t.place c.t.ctx p.2 m.size = false) (hkind : m.kind = .store) :
    effSpad m c s = .done (as.foldl (fun s p =>
      s.onCore c.t.core (fun k => k.putScratch p.2 (leBytes m.size (c.memData s m p.1)))) s) := by
  have hany := any_scratchHeld_eq_false hheld
  cases as with
  | nil => exact effSpad_of_nil has
  | cons p l =>
    simp only [spadOut] at hout
    simp only [effSpad, has, hcheck, hout, hany, List.isEmpty_cons, hkind, List.isEmpty_nil, Bool.not_true,
      Bool.false_eq_true, if_false]

end

/-! ## tlook -/

/-- The access that `tlook` checks: its address may be misaligned. -/
def lookOp (x : Ext) : MemOp := { ldstOp 0 x with scalar := x.bit 17, al := true, acq := false, scope := 0 }

section
variable {c : C} {s : State}

theorem effTlook_of_scalar (hn : c.x.bit 18 = false) (hsc : c.x.bit 17 = true)
    (hcheck : c.addrCheck (lookOp c.x) 1 ((c.served (lookOp c.x)).map (fun l => (l, c.ea s (lookOp c.x) l))) = none) :
    effTlook c s = .done (if c.go then
      c.putS s (BitVec.ofNat 64 (lookAddr (s.core c.t.core) c.t.ctx (c.ea s (lookOp c.x) 0))) else s) := by
  have hserved : c.served (lookOp c.x) = if c.go then [0] else [] := if_pos hsc
  unfold effTlook
  simp only [hn, Bool.false_eq_true, if_false]
  split
  next tr htr => exact absurd (hcheck.symm.trans htr) (by simp)
  · rw [if_pos hsc]
    change (match (c.served (lookOp c.x)).map (fun l => (l, c.ea s (lookOp c.x) l)) with
      | [] => _
      | p :: _ => _) = _
    rw [hserved]
    cases c.go <;> rfl

theorem effTlook_of_vector (hn : c.x.bit 18 = false) (hsc : c.x.bit 17 = false)
    (hcheck : c.addrCheck (lookOp c.x) 1 ((c.served (lookOp c.x)).map (fun l => (l, c.ea s (lookOp c.x) l))) = none) :
    effTlook c s = .done (c.putV s false (c.t.laneIxs.map (fun l =>
      if c.act.getD l false then lookAddr (s.core c.t.core) c.t.ctx (c.ea s (lookOp c.x) l) else 0)) c.tag) := by
  unfold effTlook
  simp only [hn, Bool.false_eq_true, if_false]
  split
  next tr htr => exact absurd (hcheck.symm.trans htr) (by simp)
  · exact if_neg (by rw [hsc]; exact Bool.false_ne_true)

theorem effTlook_of_line (hn : c.x.bit 18 = true) (hgo : c.go = true) (h : (c.sc64 s c.x.a).toNat < 1536) :
    effTlook c s = .done (c.putS s (BitVec.ofNat 64 (lineWord (s.core c.t.core) c.t.ctx (c.sc64 s c.x.a).toNat))) := by
  simp only [effTlook, hn, hgo, if_true, if_neg (Nat.not_le.mpr h)]

theorem effTlook_of_no_line (hn : c.x.bit 18 = true) (hgo : c.go = true) (h : 1536 ≤ (c.sc64 s c.x.a).toNat) :
    effTlook c s = .trap s (c.trap 0x05 0x0701) := by
  simp only [effTlook, hn, hgo, if_true, if_pos h]

theorem effTlook_of_not_go (hn : c.x.bit 18 = true) (hgo : c.go = false) : effTlook c s = .done s := by
  simp only [effTlook, hn, hgo, if_true, Bool.false_eq_true, if_false]

end

/-! ## tfill, tset, tevict and tinv -/

/-- The address of `tfill` and `tset` (10 R235). -/
def claimAddr (s : State) (t : Team) (x : Ext) : Nat :=
  patN 64 (((if x.a.cls = .vec then 0 else (srcScalar s t x x.a).toNat : Nat) : Int) + sextN 14 (x.f 13 0))

theorem spadEa_ctxAt (i : Instr) (opc sub n : Nat) (x : Ext) (t : Team) (s : State) :
    (ctxAt i opc sub n x t).spadEa s = claimAddr s t x := by
  rw [C.spadEa, base_ctxAt, ctxAt_x, claimAddr]

theorem toNat_sc64_ctxAt (i : Instr) (opc sub n : Nat) (x : Ext) (t : Team) (s : State) (y : Src) :
    ((ctxAt i opc sub n x t).sc64 s y).toNat = (srcScalar s t x y).toNat := by
  rw [sc64_ctxAt]

section
variable {c : C} {s : State} {fill : Bool} {ea n : Nat}

theorem claim_canonical (hea : c.spadEa s = ea) (hc : fill = true → canonical ea = true) :
    (fill && !canonical (c.spadEa s)) = false := by
  cases fill with
  | false => rfl
  | true => rw [hea, hc rfl]; rfl

theorem effClaim_of_misaligned (hea : c.spadEa s = ea) (hc : fill = true → canonical ea = true) (h : ea % 256 ≠ 0) :
    effClaim fill c s = .trap s (c.trapAt 0x04 0x0101 ea []) := by
  have hcan := claim_canonical hea hc
  rw [hea] at hcan
  simp only [effClaim, hea, hcan, Bool.false_eq_true, if_false, if_pos h]

theorem effClaim_of_bad (hea : c.spadEa s = ea) (hn : (c.sc64 s c.x.b).toNat = n)
    (hc : fill = true → canonical ea = true) (h : ea % 256 = 0) (hbad : lineBad (s.core c.t.core) c.t.ctx n = true) :
    effClaim fill c s = .trap s (c.trap 0x05 0x0701) := by
  have hcan := claim_canonical hea hc
  rw [hea] at hcan
  simp only [effClaim, hea, hn, hcan, Bool.false_eq_true, if_false, h, ne_eq, not_true_eq_false, hbad, if_true]

theorem effClaim_of_good (hea : c.spadEa s = ea) (hn : (c.sc64 s c.x.b).toNat = n)
    (hc : fill = true → canonical ea = true) (h : ea % 256 = 0) (hbad : lineBad (s.core c.t.core) c.t.ctx n = false) :
    (∀ l, lineTagged (s.core c.t.core) c.t.ctx (tagBits ea) = some l →
      effClaim fill c s = .done (c.putS s (BitVec.ofNat 64 (1 + l.num * 2 ^ 16)))) ∧
    (lineTagged (s.core c.t.core) c.t.ctx (tagBits ea) = none → (lineOf (s.core c.t.core) n).isSome = true →
      effClaim fill c s = .done (c.putS s (BitVec.ofNat 64 (2 + n * 2 ^ 16)))) ∧
    (lineTagged (s.core c.t.core) c.t.ctx (tagBits ea) = none → lineOf (s.core c.t.core) n = none →
      let s1 := c.putS (s.onCore c.t.core (fun k => { k with lines :=
        { num := n, tag := tagBits ea, st := if fill then .filling else .valid, dirty := !fill, ctx := c.t.ctx,
          latch := if fill then c.latchC else none, team := c.t.uid, seq := s.stepNo } :: k.lines }))
        (BitVec.ofNat 64 (n * 2 ^ 16))
      effClaim fill c s = .done (if fill then s1.post (.fillComplete c.t.core n) else s1)) := by
  have hcan := claim_canonical hea hc
  rw [hea] at hcan
  have hgood : effClaim fill c s = effClaim fill c s := rfl
  conv at hgood =>
    rhs
    simp only [effClaim, hea, hn, hcan, Bool.false_eq_true, if_false, h, ne_eq, not_true_eq_false, hbad]
  refine ⟨fun l hl => ?_, fun hl htaken => ?_, fun hl hfree => ?_⟩
  · rw [hgood, hl]
  · rw [hgood, hl]
    exact if_pos htaken
  · rw [hgood, hl, hfree]
    rfl

end

/-- `tfill` and `tset` claim a line as R234 and R235 say. -/
theorem claimOp_of_effClaim {mk : Ext → Instr} {sub : Nat} {fill : Bool}
    (hexec : ∀ x s, exec (mk x) s = issue (mk x) 0x4D sub (extLen x) x (onGo (effClaim fill)) s) : ClaimOp mk sub fill := by
  intro x s t hi hgo ea n k latch say trap
  have heff := onGo_of_go (c := ctxAt (mk x) 0x4D sub (extLen x) x t) hgo (effClaim fill) s
  have ht := team?_uid_of_issues hi
  have hea : (ctxAt (mk x) 0x4D sub (extLen x) x t).spadEa s = ea := spadEa_ctxAt ..
  have hn : ((ctxAt (mk x) 0x4D sub (extLen x) x t).sc64 s x.b).toNat = n := toNat_sc64_ctxAt ..
  refine ⟨fun hc hmis => ?_, fun hc hal hbad => ?_, fun hc hal hbad => ?_⟩
  · exact exec_of_trap (hexec x s) hi (heff.trans (effClaim_of_misaligned hea hc hmis)) ht
  · exact exec_of_trap (hexec x s) hi (heff.trans (effClaim_of_bad hea hn hc hal hbad)) ht
  · obtain ⟨hheld, htaken, hclaimed⟩ := effClaim_of_good hea hn hc hal hbad
    exact ⟨fun l hl => exec_of_done (hexec x s) hi (heff.trans (hheld l hl)),
      fun hl h => exec_of_done (hexec x s) hi (heff.trans (htaken hl h)),
      fun hl h => exec_of_done (hexec x s) hi (heff.trans (hclaimed hl h))⟩

section
variable {c : C} {s : State} {n : Nat}

theorem effTevict_of_bad (hn : (c.sc64 s c.x.a).toNat = n) (hbad : lineBad (s.core c.t.core) c.t.ctx n = true) :
    effTevict c s = .trap s (c.trap 0x05 0x0701) := by
  simp only [effTevict, hn, hbad, if_true]

theorem effTevict_of_free (hn : (c.sc64 s c.x.a).toNat = n) (hbad : lineBad (s.core c.t.core) c.t.ctx n = false)
    (hl : lineOf (s.core c.t.core) n = none) : effTevict c s = .done (c.putS s (BitVec.ofNat 64 (3 + n * 2 ^ 16))) := by
  simp only [effTevict, hn, hbad, hl, Bool.false_eq_true, if_false]

theorem effTevict_of_line {l : Line} (hn : (c.sc64 s c.x.a).toNat = n) (hbad : lineBad (s.core c.t.core) c.t.ctx n = false)
    (hl : lineOf (s.core c.t.core) n = some l) :
    ((l.st = .filling ∨ l.st = .evicting) → effTevict c s = .done (c.putS s (BitVec.ofNat 64 (2 + n * 2 ^ 16)))) ∧
    (l.st ≠ .filling → l.st ≠ .evicting → c.x.bit 0 = true → l.dirty = true →
      effTevict c s = .done ((c.putS (onLine s c.t.core n (fun l =>
        { l with st := .evicting, latch := c.latchC, team := c.t.uid, seq := s.stepNo }))
        (BitVec.ofNat 64 (0 + n * 2 ^ 16))).post (.writebackComplete c.t.core n))) ∧
    (l.st ≠ .filling → l.st ≠ .evicting → (c.x.bit 0 && l.dirty) = false →
      effTevict c s = .done (postArrival (c.putS (freeLine s c.t.core n) (BitVec.ofNat 64 (0 + n * 2 ^ 16)))
        c.t.core c.latchC)) := by
  have hbusy : (decide (l.st = .filling) || decide (l.st = .evicting)) = true ↔ l.st = .filling ∨ l.st = .evicting := by
    rw [Bool.or_eq_true, decide_eq_true_iff, decide_eq_true_iff]
  refine ⟨fun h => ?_, fun hf he hx hd => ?_, fun hf he hx => ?_⟩
  · simp only [effTevict, hn, hbad, hl, hbusy.mpr h, Bool.false_eq_true, if_false, if_true]
  · simp only [effTevict, hn, hbad, hl, hf, he, hx, hd, decide_false, Bool.or_self, Bool.and_self, Bool.false_eq_true,
      if_false, if_true]
  · simp only [effTevict, hn, hbad, hl, hf, he, hx, decide_false, Bool.or_self, Bool.false_eq_true, if_false]

/-- The lines of a context whose image meets a range. -/
def linesHit (s : State) (t : Team) (a n : Nat) : List Line :=
  (s.core t.core).lines.filter (fun l => l.ctx = t.ctx && lineIn l a n)

theorem effTinv_of_filling {a : Nat} (ha : c.base s = a) (hn : (c.sc64 s c.x.b).toNat = n)
    (h : (linesHit s c.t a n).any (fun l => l.st = .filling) = true) : effTinv c s = .wait s := by
  simp only [linesHit] at h
  simp only [effTinv, ha, hn, h, if_true]

theorem effTinv_of_settled {a : Nat} (ha : c.base s = a) (hn : (c.sc64 s c.x.b).toNat = n)
    (h : (linesHit s c.t a n).any (fun l => l.st = .filling) = false) :
    let gone := ((linesHit s c.t a n).filter (fun l => l.st = .valid)).map (fun l => l.num)
    effTinv c s = .done (c.putS (s.onCore c.t.core (fun k =>
      { k with lines := k.lines.filter (fun l => !gone.contains l.num) })) (BitVec.ofNat 64 gone.length)) := by
  simp only [linesHit] at h ⊢
  simp only [effTinv, ha, hn, h, Bool.false_eq_true, if_false]

end

/-- A scalar instruction that does not execute only moves past itself (02 R44). -/
theorem exec_of_not_go {i : Instr} {opc sub n : Nat} {x : Ext} {f : C → State → Eff} {s : State} {t : Team}
    (hexec : exec i s = issue i opc sub n x (onGo f) s) (h : Issues opc sub x s t) (hgo : t.go x.g x.neg = false) :
    exec i s = .next (retire s t n) :=
  exec_of_done hexec h (if_neg (by rw [ctxAt_go, hgo]; exact Bool.false_ne_true))

/-! ## The obligation -/

/-- The address of a lane of `ldsp`, `stsp`, `tlook` and `pref`. -/
def spadAddr (s : State) (t : Team) (x : Ext) (l : Nat) : Nat :=
  memAddr s t x (x.bit 14) false (x.f 16 15) (sextN 14 (x.f 13 0)) l

section
variable {x : Ext} {s : State} {t : Team} {as : List (Nat × Nat)}

/-- The lanes and checks of a scratch access that issues. -/
theorem spad_checked {i : Instr} {sub : Nat} (m : MemOp) (hx : m.x = x) (hal : m.al = x.bit 17) (hsc : m.scalar = false)
    (haddr : ∀ l, (ctxAt i 0x4A sub (extLen x) x t).ea s m l = spadAddr s t x l)
    (has : as = (lanesOf (activeLanes t x)).map (fun l => (l, spadAddr s t x l)))
    (hok : ∀ p ∈ as, canonical p.2 = true ∧ (x.bit 17 = false → p.2 % (x.ty.width / 8) = 0)) :
    ((ctxAt i 0x4A sub (extLen x) x t).served m).map (fun l => (l, (ctxAt i 0x4A sub (extLen x) x t).ea s m l)) = as ∧
    (ctxAt i 0x4A sub (extLen x) x t).addrCheck m m.size as = none := by
  constructor
  · rw [served_ctxAt, servedLanes, hsc, has]
    simp only [haddr]
    rfl
  · exact addrCheck_eq_none (fun p hp => (hok p hp).1) (fun h p hp => by
      rw [MemOp.size, hx]
      exact (hok p hp).2 (hal ▸ h))

theorem ldsp_spec (hi : Issues 0x4A 6 x s t) (has : as = (lanesOf (activeLanes t x)).map (fun l => (l, spadAddr s t x l)))
    (hok : ∀ p ∈ as, canonical p.2 = true ∧ (x.bit 17 = false → p.2 % (x.ty.width / 8) = 0)) :
    (spadOut s t (x.ty.width / 8) as = [] → as ≠ [] →
      (∀ p ∈ as, scratchHeld (s.core t.core) t.place t.ctx p.2 (x.ty.width / 8) = false) →
      exec (.ldsp x) s = .next (retire (((ctxAt (.ldsp x) 0x4A 6 (extLen x) x t).launch s
        (spadLanes s t (x.ty.width / 8) as) [] [0] false).post (.accessResponse s.nextId)) t (extLen x))) ∧
    (as = [] → exec (.ldsp x) s = .next (retire s t (extLen x))) ∧
    (spadOut s t (x.ty.width / 8) as ≠ [] → exec (.ldsp x) s = .next (takeTrap s t
      ((ctxAt (.ldsp x) 0x4A 6 (extLen x) x t).addrTrap 0x05 0x0700 (spadOut s t (x.ty.width / 8) as)))) ∧
    (spadOut s t (x.ty.width / 8) as = [] →
      (∃ p ∈ as, scratchHeld (s.core t.core) t.place t.ctx p.2 (x.ty.width / 8) = true) → exec (.ldsp x) s = .next s) := by
  obtain ⟨hserved, hcheck⟩ := spad_checked (i := .ldsp x) (sub := 6) (ldstOp 6 x) rfl rfl rfl
    (fun l => ea_ctxAt _ _ _ _ _ _ _ _ rfl l) has hok
  refine ⟨fun hout hne hheld => ?_, fun hnil => ?_, fun hout => ?_, fun hout hheld => ?_⟩
  · exact exec_of_done rfl hi (effSpad_of_load hserved hcheck hout hheld hne rfl)
  · exact exec_of_done rfl hi (effSpad_of_nil (hserved.trans hnil))
  · exact exec_of_trap rfl hi (effSpad_of_out hserved hcheck hout) (team?_uid_of_issues hi)
  · exact exec_of_wait rfl hi (effSpad_of_held hserved hcheck hout hheld)

theorem stsp_spec (hi : Issues 0x4A 7 x s t) (has : as = (lanesOf (activeLanes t x)).map (fun l => (l, spadAddr s t x l)))
    (hok : ∀ p ∈ as, canonical p.2 = true ∧ (x.bit 17 = false → p.2 % (x.ty.width / 8) = 0)) :
    (spadOut s t (x.ty.width / 8) as = [] →
      (∀ p ∈ as, scratchHeld (s.core t.core) t.place t.ctx p.2 (x.ty.width / 8) = false) →
      exec (.stsp x) s = .next (retire (as.foldl (fun s p => s.onCore t.core (fun k => k.putScratch p.2 (leBytes
        (x.ty.width / 8) ((ctxAt (.stsp x) 0x4A 7 (extLen x) x t).memData s (ldstOp 7 x) p.1)))) s) t (extLen x))) ∧
    (spadOut s t (x.ty.width / 8) as ≠ [] → exec (.stsp x) s = .next (takeTrap s t
      ((ctxAt (.stsp x) 0x4A 7 (extLen x) x t).addrTrap 0x05 0x0700 (spadOut s t (x.ty.width / 8) as)))) ∧
    (spadOut s t (x.ty.width / 8) as = [] →
      (∃ p ∈ as, scratchHeld (s.core t.core) t.place t.ctx p.2 (x.ty.width / 8) = true) → exec (.stsp x) s = .next s) := by
  obtain ⟨hserved, hcheck⟩ := spad_checked (i := .stsp x) (sub := 7) (ldstOp 7 x) rfl rfl rfl
    (fun l => ea_ctxAt _ _ _ _ _ _ _ _ rfl l) has hok
  refine ⟨fun hout hheld => ?_, fun hout => ?_, fun hout hheld => ?_⟩
  · exact exec_of_done rfl hi (effSpad_of_store hserved hcheck hout hheld rfl)
  · exact exec_of_trap rfl hi (effSpad_of_out hserved hcheck hout) (team?_uid_of_issues hi)
  · exact exec_of_wait rfl hi (effSpad_of_held hserved hcheck hout hheld)

theorem tlook_of_address (hi : Issues 0x4D 0 x s t) (hn : x.bit 18 = false)
    (hc : ∀ l ∈ servedLanes t x (x.bit 17), canonical (spadAddr s t x l) = true) :
    (x.bit 17 = true → exec (.tlook x) s = .next (retire (if t.go x.g x.neg then
      putScalar s t x.d (BitVec.ofNat 64 (lookAddr (s.core t.core) t.ctx (spadAddr s t x 0))) else s) t (extLen x))) ∧
    (x.bit 17 = false → exec (.tlook x) s = .next (retire (putLanes s t x false
      (fun l => if (activeLanes t x).getD l false then lookAddr (s.core t.core) t.ctx (spadAddr s t x l) else 0)
      (laneTag 0x4D 0 t x)) t (extLen x))) := by
  let c := ctxAt (.tlook x) 0x4D 0 (extLen x) x t
  have hea : ∀ l, c.ea s (lookOp x) l = spadAddr s t x l :=
    fun l => ea_ctxAt (.tlook x) 0x4D 0 (extLen x) x t s (lookOp x) rfl l
  have hcheck : c.addrCheck (lookOp x) 1 ((c.served (lookOp x)).map (fun l => (l, c.ea s (lookOp x) l))) = none :=
    addrCheck_eq_none (fun p hp => by
      obtain ⟨l, hl, rfl⟩ := List.mem_map.mp hp
      rw [hea]
      exact hc l hl) (fun h => absurd h (by simp [lookOp]))
  refine ⟨fun hsc => ?_, fun hsc => ?_⟩
  · have h := exec_of_done (i := .tlook x) rfl hi (effTlook_of_scalar hn hsc hcheck)
    rw [ctxAt_x, hea] at h
    exact h
  · have h := exec_of_done (i := .tlook x) rfl hi (effTlook_of_vector hn hsc hcheck)
    rw [ctxAt_x] at h
    exact h

end

/-- Settles O34: each instruction by the lemmas about its effect at issue. -/
theorem scratchAccessesAndLinesAct : Obligations.ScratchAccessesAndLinesAct := by
  refine ⟨?ldsp, ?stsp, ?look, ?line, claimOp_of_effClaim (fun _ _ => rfl), claimOp_of_effClaim (fun _ _ => rfl), ?evict,
    ?inv, fun x s t hgo => ⟨fun h => exec_of_not_go rfl h hgo, fun h => exec_of_not_go rfl h hgo,
      fun h => exec_of_not_go rfl h hgo, fun h => exec_of_not_go rfl h hgo⟩⟩
  case ldsp =>
    intro x s t hi as n out hok
    exact ldsp_spec hi rfl hok
  case stsp =>
    intro x s t hi as n out hok data
    exact stsp_spec hi rfl hok
  case look =>
    intro x s t hi hn ea word hc
    exact tlook_of_address hi hn hc
  case line =>
    intro x s t hi hn
    have hsc := toNat_sc64_ctxAt (.tlook x) 0x4D 0 (extLen x) x t s x.a
    refine ⟨fun hgo h => ?_, fun hgo h => ?_, fun hgo => exec_of_done rfl hi (effTlook_of_not_go hn hgo)⟩
    · have he := exec_of_done (i := .tlook x) rfl hi (effTlook_of_line hn hgo (hsc ▸ h))
      rw [ctxAt_x, hsc] at he
      exact he
    · exact exec_of_trap rfl hi (effTlook_of_no_line hn hgo (hsc ▸ h)) (team?_uid_of_issues hi)
  case evict =>
    intro x s t hi hgo n say latch
    have hn : ((ctxAt (.tevict x) 0x4D 2 (extLen x) x t).sc64 s x.a).toNat = n := toNat_sc64_ctxAt ..
    have heff := onGo_of_go (c := ctxAt (.tevict x) 0x4D 2 (extLen x) x t) hgo effTevict s
    refine ⟨fun hbad => ?_, fun hbad hl => ?_, fun l hbad hl => ?_⟩
    · exact exec_of_trap rfl hi (heff.trans (effTevict_of_bad hn hbad)) (team?_uid_of_issues hi)
    · exact exec_of_done rfl hi (heff.trans (effTevict_of_free hn hbad hl))
    · obtain ⟨hbusy, hdirty, hclean⟩ := effTevict_of_line hn hbad hl
      exact ⟨fun h => exec_of_done rfl hi (heff.trans (hbusy h)),
        fun hf he hx hd => exec_of_done rfl hi (heff.trans (hdirty hf he hx hd)),
        fun hf he hx => exec_of_done rfl hi (heff.trans (hclean hf he hx))⟩
  case inv =>
    intro x s t hi hgo a hit gone
    have ha : (ctxAt (.tinv x) 0x4D 4 (extLen x) x t).base s = a := base_ctxAt ..
    have hn := toNat_sc64_ctxAt (.tinv x) 0x4D 4 (extLen x) x t s x.b
    have heff := onGo_of_go (c := ctxAt (.tinv x) 0x4D 4 (extLen x) x t) hgo effTinv s
    exact ⟨fun h => exec_of_done rfl hi (heff.trans (effTinv_of_settled ha hn h)),
      fun h => exec_of_wait rfl hi (heff.trans (effTinv_of_filling ha hn h))⟩

end Sys2Proof.Machine
end

section
/-!
PROOFS. Memory instructions that start (09 R218-R225, 11 R280, 14 R319): the flight that an access leaves, what a read leaves
alone, and the first access to a declared set.
-/

namespace Sys2Proof.Machine

/-! ## The start of a memory instruction -/

/-- The lanes of an access at its issue, with addresses and data. -/
def memLanes (m : MemOp) (c : C) (s : State) (as : List (Nat × Nat)) : List LaneReq :=
  as.map (fun (l, a) =>
    ({ lane := l, addr := BitVec.ofNat 64 a, data := BitVec.ofNat 64 (c.memData s m l),
       st := match c.t.failsAt a m.size with
         | some x => .failed x.1 x.2.1 x.2.2
         | none => if cached s c.t.core c.t.ctx a m.size then laneTr s c.t.core c.t.ctx m a else .todo } : LaneReq))

/-- The flight of an access at its issue. -/
def memFlight (m : MemOp) (c : C) (s : State) (as : List (Nat × Nat)) (waits : List Nat) : Flight :=
  { id := s.nextId, team := c.t.uid, pc := c.t.pc, npc := c.npc, instr := c.i, dvec := c.row.d = .vec, dst := c.x.d.toNat,
    dnum := rowFills c.row, lanes := memLanes m c s as, snap := [], aux := [0], again := c.t.part.isSome,
    gate := m.gated c.t as, waits := waits, status := c.t.status, no := c.t.issueNo }

/-- What a launch changes of the team: the registers that the flight fills become empty (06 R148). -/
def Team.launched (c : C) (t : Team) : Team :=
  (extraRegs t.width c.i).foldl (fun t k => t.setSFull k false)
    (t.setFull (decide (c.row.d = .vec)) c.x.d.toNat false (rowFills c.row))

/-- An access in flight, whose core may have dropped lines from its L1. -/
def memLaunched (m : MemOp) (c : C) (s : State) (as : List (Nat × Nat)) (waits : List Nat) (cs : List Core) : State :=
  { s.onTeam c.t.uid (Team.launched c) with
      cores := cs, flights := s.flights ++ [memFlight m c s as waits], nextId := s.nextId + 1 }

/-- What follows when an access is in flight: its lanes are to be translated, or sent, or answered. -/
def startLanes (m : MemOp) (lanes : List LaneReq) (id : Nat) (s : State) (f : Flight) : State :=
  if lanes.any (fun l => l.st = .todo) then
    let s := s.post (.translationWalk id)
    if f.hasReady then s.post (.accessResponse id) else s
  else if (m.kind = .store || m.kind = .red) && !lanes.any LaneReq.hasFailed then
    let s := performFlight s f m (fun _ => true)
    match s.flight? id with
    | none => s
    | some g => if g.lanes.all (fun l => l.st = .done) then clearWait (s.dropFlight id) id
                else s.post (.accessResponse id)
  else s.post (.accessResponse id)

/-- A memory instruction goes into flight with its lanes, which are started. -/
def startFrom (m : MemOp) (c : C) (as : List (Nat × Nat)) (waits : List Nat) (lanes : List LaneReq) (id : Nat) (s : State) :
    State :=
  let s := c.launch s lanes [] [0] (m.gated c.t as)
  match s.flight? id with
  | none => s
  | some f => startLanes m lanes id (s.setFlight { f with waits := waits }) { f with waits := waits }

theorem setFlight_append_of_fresh {s : State} {f g : Flight} {fs : List Flight} (hf : ∀ h ∈ fs, h.id < f.id)
    (hg : g.id = f.id) (hs : s.flights = fs ++ [f]) : s.setFlight g = { s with flights := fs ++ [g] } := by
  have hfs : fs.map (fun h => if h.id = g.id then g else h) = fs :=
    (List.map_congr_left fun h hh => if_neg (hg ▸ Nat.ne_of_lt (hf h hh))).trans (List.map_id fs)
  rw [State.setFlight, hs, List.map_append, hfs, List.map_singleton, if_pos hg.symm]

theorem flight?_append_of_fresh {s : State} {f : Flight} {fs : List Flight} (hf : ∀ h ∈ fs, h.id < f.id)
    (hs : s.flights = fs ++ [f]) : s.flight? f.id = some f := by
  have hnone : fs.find? (fun g => g.id = f.id) = none :=
    List.find?_eq_none.mpr fun h hh => by simpa using Nat.ne_of_lt (hf h hh)
  rw [State.flight?, hs, List.find?_append, hnone]
  simp

/-- An atomic or a `red` drops its core's L1 copy of its lines (R198). -/
def dropLanes (core : Nat) (s : State) (l : LaneReq) : State :=
  match l.st with
  | .ready segs => (segKeys segs).foldl (fun s k => l1DropLine s core k) s
  | _ => s

theorem foldl_dropLanes_eq_cores (core : Nat) (l : List LaneReq) (s : State) :
    ∃ cs, l.foldl (dropLanes core) s = { s with cores := cs } := by
  induction l generalizing s with
  | nil => exact ⟨s.cores, rfl⟩
  | cons a l ih =>
    have hone : ∃ cs, dropLanes core s a = { s with cores := cs } := by
      unfold dropLanes
      split
      · exact foldl_l1DropLine_eq_cores core id _ s
      · exact ⟨s.cores, rfl⟩
    obtain ⟨cs, hcs⟩ := hone
    obtain ⟨cs', hcs'⟩ := ih { s with cores := cs }
    exact ⟨cs', by rw [List.foldl_cons, hcs, hcs']⟩

theorem failsAt_of_setFailed {t : Team} (h : t.setFailed = none) (a n : Nat) : t.failsAt a n = none := by
  rw [Team.failsAt, h]
  rfl

section
variable (m : MemOp) (c : C) {s : State} (as : List (Nat × Nat)) (waits : List Nat)

/-- An access at its issue goes into flight, and its lanes are started. -/
theorem startMem_eq (hfail : c.t.setFailed = none) (hfresh : ∀ f ∈ s.flights, f.id < s.nextId) :
    ∃ cs, (m.kind ≠ .atomic → m.kind ≠ .red → cs = s.cores) ∧
      startMem m c s as waits =
        startLanes m (memLanes m c s as) s.nextId (memLaunched m c s as waits cs) (memFlight m c s as waits) := by
  have hdrop : ∃ cs, (m.kind ≠ .atomic → m.kind ≠ .red → cs = s.cores) ∧
      (if m.kind = .atomic || m.kind = .red then (memLanes m c s as).foldl (dropLanes c.t.core) s else s) =
        { s with cores := cs } := by
    split
    next h =>
      obtain ⟨cs, hcs⟩ := foldl_dropLanes_eq_cores c.t.core (memLanes m c s as) s
      exact ⟨cs, fun ha hr => absurd h (by simp [ha, hr]), hcs⟩
    · exact ⟨s.cores, fun _ _ => rfl, rfl⟩
  obtain ⟨cs, hcs, hdrop⟩ := hdrop
  refine ⟨cs, hcs, ?_⟩
  have hflight : (c.launch { s with cores := cs } (memLanes m c s as) [] [0] (m.gated c.t as)).flight? s.nextId =
      some (memFlight m c s as []) := flight?_append_of_fresh (f := memFlight m c s as []) hfresh rfl
  have hset : (c.launch { s with cores := cs } (memLanes m c s as) [] [0] (m.gated c.t as)).setFlight
      (memFlight m c s as waits) = memLaunched m c s as waits cs :=
    setFlight_append_of_fresh (f := memFlight m c s as []) (g := memFlight m c s as waits) hfresh rfl rfl
  have hstart : startMem m c s as waits = startFrom m c as waits (memLanes m c s as) s.nextId
      (if m.kind = .atomic || m.kind = .red then (memLanes m c s as).foldl (dropLanes c.t.core) s else s) := by
    unfold startMem
    simp only [hfail, Option.isSome_none, Bool.false_eq_true, if_false]
    rfl
  rw [hstart, hdrop]
  simp only [startFrom, hflight, ← hset]
  rfl

theorem memLaunched_flight? (hfresh : ∀ f ∈ s.flights, f.id < s.nextId) (cs : List Core) :
    (memLaunched m c s as waits cs).flight? s.nextId = some (memFlight m c s as waits) :=
  flight?_append_of_fresh (f := memFlight m c s as waits) hfresh rfl

end

/-- Lanes that do not start as writes: something is due for them. -/
theorem startLanes_of_not_sent {m : MemOp} {lanes : List LaneReq} {s : State} {f : Flight} {id : Nat}
    (h : lanes.any (fun l => l.st = .todo) = true ∨ (m.kind ≠ .store ∧ m.kind ≠ .red)) :
    ∃ es, startLanes m lanes id s f = { s with agenda := s.agenda ++ es } ∧
      (lanes.any (fun l => l.st = .todo) = true → .translationWalk id ∈ es) ∧
      (.translationWalk id ∈ es ∨ .accessResponse id ∈ es) := by
  unfold startLanes
  cases htodo : lanes.any (fun l => l.st = .todo) with
  | true =>
    rw [if_pos rfl]
    dsimp only
    split
    · exact ⟨[.translationWalk id, .accessResponse id], by simp [State.post], by simp, by simp⟩
    · exact ⟨[.translationWalk id], rfl, by simp, by simp⟩
  | false =>
    have hkind : (m.kind = .store || m.kind = .red) = false := by
      rcases h with h | ⟨hs, hr⟩
      · exact absurd (htodo.symm.trans h) (by simp)
      · simp [hs, hr]
    simp only [hkind, Bool.false_and, Bool.false_eq_true, if_false]
    exact ⟨[.accessResponse id], rfl, by simp, by simp⟩

/-! ## The effect of a memory instruction at its issue -/

theorem slotHit_iff (k : SetSlot) (a n : Nat) : slotHit k a n = true ↔ SlotTouched k a n := by
  simp [slotHit, SlotTouched, and_assoc]

theorem firstTouch_eq_none {t : Team} {as : List (Nat × Nat)} {n : Nat} (h : SetsHeld t n as) : t.firstTouch as n = none := by
  unfold Team.firstTouch
  split
  · rfl
  next htask =>
    refine List.find?_eq_none.mpr fun k _ => ?_
    split
    next sl hsl =>
      rcases h with h | h
      · exact absurd (by rw [h]; rfl) htask
      · intro hall
        simp only [Bool.and_eq_true, decide_eq_true_eq] at hall
        obtain ⟨⟨hst, -⟩, hany⟩ := hall
        obtain ⟨p, hp, hit⟩ := List.any_eq_true.mp hany
        exact h sl (List.mem_of_getElem? hsl) hst p hp ((slotHit_iff ..).mp hit)
    · exact Bool.false_ne_true

/-- A declared slot, not acquired, that an access touches. -/
abbrev SlotFirst (as : List (Nat × Nat)) (n : Nat) (sl : SetSlot) : Prop :=
  sl.st ≠ .acquired ∧ ∃ p ∈ as, SlotTouched sl p.2 n

theorem firstTouch_eq_some {t : Team} {as : List (Nat × Nat)} {n k : Nat} (htask : t.task ≠ none) (hfail : t.setFailed = none)
    (hk : ∃ sl, t.sets[k]? = some sl ∧ SlotFirst as n sl) (hlow : ∀ j < k, ∀ sl, t.sets[j]? = some sl → ¬ SlotFirst as n sl) :
    t.firstTouch as n = some k := by
  have htouch : ∀ sl, (decide (sl.st ≠ .acquired) && as.any (fun x => slotHit sl x.2 n)) = true ↔ SlotFirst as n sl :=
    fun sl => by simp [slotHit_iff, SlotFirst]
  have hsome : t.task.isNone = false := by
    cases ht : t.task with
    | none => exact absurd ht htask
    | some _ => rfl
  unfold Team.firstTouch
  simp only [hsome, Bool.false_eq_true, if_false, hfail, Option.any_none, Bool.not_false, Bool.and_true]
  obtain ⟨sl, hsl, hfirst⟩ := hk
  have hlt : k < t.sets.length := (List.getElem?_eq_some_iff.mp hsl).1
  refine List.find?_range_eq_some.mpr ⟨?_, List.mem_range.mpr hlt, fun j hj => ?_⟩
  · rw [hsl]
    exact (htouch sl).mpr hfirst
  · split
    next sj hsj => exact Bool.not_eq_true' _ ▸ Bool.eq_false_iff.mpr (fun h => hlow j hj sj hsj ((htouch sj).mp h))
    · rfl

section
variable {m : MemOp} {c : C} {s : State} {as : List (Nat × Nat)}

/-- An access that passes the checks, touches no set to be acquired, and finds room goes into flight. -/
theorem effMem_of_checked (has : (c.served m).map (fun l => (l, c.ea s m l)) = as) (hne : as ≠ [])
    (hcheck : c.addrCheck m m.size as = none) (hkind : m.kind ≠ .red) (htouch : c.t.firstTouch as m.size = none)
    (hroom : outstanding s c.t.uid < outstandingCap) :
    effMem m c s = .done (startMem m c s as (if m.rel then lsWaits s c.t.uid m.scope else [])) := by
  have hcap : (decide (outstandingCap ≤ outstanding s c.t.uid)) = false := decide_eq_false (Nat.not_le.mpr hroom)
  simp only [effMem, has, isEmpty_eq_false_of_ne_nil hne, hcheck, hkind, htouch, hcap, List.isEmpty_nil, Bool.not_true,
    Bool.and_false, Bool.false_eq_true, if_false]

theorem effMem_of_nil (has : (c.served m).map (fun l => (l, c.ea s m l)) = []) : effMem m c s = .done s := by
  simp only [effMem, has, List.isEmpty_nil, if_true]

/-- The first access to a declared set starts its acquisition (14 R319). -/
theorem effMem_of_touch {k : Nat} (has : (c.served m).map (fun l => (l, c.ea s m l)) = as) (hne : as ≠ [])
    (hcheck : c.addrCheck m m.size as = none) (hkind : m.kind ≠ .red) (htouch : c.t.firstTouch as m.size = some k) :
    effMem m c s = .wait (startAcquire s c.t.uid k) := by
  simp only [effMem, has, isEmpty_eq_false_of_ne_nil hne, hcheck, hkind, htouch, List.isEmpty_nil, Bool.not_true,
    Bool.false_eq_true, if_false]

end

/-! ## Reads at their issue -/

theorem memLanes_map_addr (m : MemOp) (c : C) (s : State) (as : List (Nat × Nat)) :
    (memLanes m c s as).map (fun r => (r.lane, r.addr)) = as.map (fun p => (p.1, BitVec.ofNat 64 p.2)) := by
  rw [memLanes, List.map_map]
  rfl

theorem memLanes_map_data (m : MemOp) (c : C) (s : State) (as : List (Nat × Nat)) :
    (memLanes m c s as).map (fun r => (r.lane, r.addr, r.data)) =
      as.map (fun p => (p.1, BitVec.ofNat 64 p.2, BitVec.ofNat 64 (c.memData s m p.1))) := by
  rw [memLanes, List.map_map]
  rfl

/-- An access whose lanes are not sent at once is in flight, and something is due for it; memory and writes are as before. -/
theorem startMem_of_not_sent {m : MemOp} {c : C} {s : State} {as : List (Nat × Nat)} (waits : List Nat)
    (hfail : c.t.setFailed = none) (hfresh : ∀ f ∈ s.flights, f.id < s.nextId)
    (h : (memLanes m c s as).any (fun l => l.st = .todo) = true ∨ (m.kind ≠ .store ∧ m.kind ≠ .red)) :
    (startMem m c s as waits).flight? s.nextId = some (memFlight m c s as waits) ∧
    ((memLanes m c s as).any (fun l => l.st = .todo) = true → .translationWalk s.nextId ∈ (startMem m c s as waits).agenda) ∧
    (.translationWalk s.nextId ∈ (startMem m c s as waits).agenda ∨
      .accessResponse s.nextId ∈ (startMem m c s as waits).agenda) ∧
    (startMem m c s as waits).mem = s.mem ∧ (startMem m c s as waits).writes = s.writes := by
  obtain ⟨cs, -, hstart⟩ := startMem_eq m c as waits hfail hfresh
  obtain ⟨es, hes, hwalk, hdue⟩ := startLanes_of_not_sent (s := memLaunched m c s as waits cs)
    (f := memFlight m c s as waits) h
  rw [hstart, hes]
  exact ⟨memLaunched_flight? m c as waits hfresh cs, fun h => List.mem_append_right _ (hwalk h),
    hdue.imp (List.mem_append_right _) (List.mem_append_right _), rfl, rfl⟩

/-- A memory instruction on `ls` that reads puts its lanes in flight. -/
theorem memReadOp_of_effMem {α : Type} {mk : α → Instr} {ext : α → Ext} {len : α → Nat} {opc sub : Nat} {op : Ext → MemOp}
    (hexec : ∀ y s, exec (mk y) s = issue (mk y) opc sub (len y) (ext y) (effMem (op (ext y))) s) (hx : ∀ x, (op x).x = x)
    (hkind : ∀ x, (op x).kind ≠ .store ∧ (op x).kind ≠ .red) :
    MemReadOp mk ext len opc sub op (fun s t x l => memAddr s t x (op x).ix (op x).each (op x).scl (op x).off l) := by
  intro y s t x as hi hissue
  obtain ⟨⟨hcan, hal, hfail, hroom, hfresh, -⟩, hsets⟩ := hissue
  have hs : ((ctxAt (mk y) opc sub (len y) x t).served (op x)).map
      (fun l => (l, (ctxAt (mk y) opc sub (len y) x t).ea s (op x) l)) = as :=
    served_map_ea_ctxAt (mk y) opc sub (len y) x t s (op x) (hx x)
  have hsize : (op x).size = x.ty.width / 8 := by rw [MemOp.size, hx]
  refine ⟨fun hnil => exec_of_done (hexec y s) hi (effMem_of_nil (hs.trans hnil)), fun hne => ?_⟩
  have heff := effMem_of_checked hs hne (addrCheck_eq_none hcan (hsize ▸ hal)) (hkind x).2
    (hsize ▸ firstTouch_eq_none hsets) hroom
  obtain ⟨hflight, -, hdue, hmem, hwrites⟩ := startMem_of_not_sent (m := op x) (c := ctxAt (mk y) opc sub (len y) x t) (as := as)
    (if (op x).rel then lsWaits s t.uid (op x).scope else []) hfail hfresh (.inr (hkind x))
  exact ⟨_, _, exec_of_done (hexec y s) hi heff, hflight, rfl, rfl, rfl, rfl, memLanes_map_addr .., hdue,
    fun a => by rw [ctxAt_t, hmem], hwrites⟩

/-- The first access of a memory instruction on `ls` to a declared set parks its team in the set wait (14 R319). -/
theorem touchOp_of_effMem {α : Type} {mk : α → Instr} {ext : α → Ext} {len : α → Nat} {opc sub : Nat} {op : Ext → MemOp}
    (hexec : ∀ y s, exec (mk y) s = issue (mk y) opc sub (len y) (ext y) (effMem (op (ext y))) s) (hx : ∀ x, (op x).x = x)
    (hkind : ∀ x, (op x).kind ≠ .red) {scalar : Bool} (hsc : ∀ x, (op x).scalar = scalar) :
    TouchOp mk ext opc sub scalar (fun s t x l => memAddr s t x (op x).ix (op x).each (op x).scl (op x).off l)
      (fun x => (op x).al) := by
  intro y s t k x as first hi hchecks htask hk hlow
  obtain ⟨hcan, hal, hfail, -, -⟩ := hchecks
  have hs : ((ctxAt (mk y) opc sub (len y) x t).served (op x)).map
      (fun l => (l, (ctxAt (mk y) opc sub (len y) x t).ea s (op x) l)) = as := by
    rw [served_map_ea_ctxAt (mk y) opc sub (len y) x t s (op x) (hx x), hsc]
    rfl
  have hsize : (op x).size = x.ty.width / 8 := by rw [MemOp.size, hx]
  have hne : as ≠ [] := by
    obtain ⟨sl, -, -, p, hp, -⟩ := hk
    exact List.ne_nil_of_mem hp
  exact exec_of_wait (hexec y s) hi (effMem_of_touch hs hne (addrCheck_eq_none hcan (hsize ▸ hal)) (hkind x)
    (hsize ▸ firstTouch_eq_some htask hfail hk hlow))

/-! ## mwait -/

/-- When an `mwait` is over at the latest (11 R280); 0 for never. -/
def mwaitDue (s : State) (t : Team) (x : Ext) : Nat :=
  if srcVal s t x x.c 32 0 = 0xFFFFFFFF then 0 else s.clk.toNat + srcVal s t x x.c 32 0 + 1

/-- The flight of an `mwait` with the time when it is over. -/
def Flight.waitsFor (f : Flight) (due : Nat) : Flight := { f with aux := [0, due, 0], gate := true }

theorem effMwait_of_checked {i : Instr} {n : Nat} {x : Ext} {t : Team} {s : State} {as : List (Nat × Nat)}
    (has : ((ctxAt i 0x4C 2 n x t).served (mwaitOp x)).map (fun l => (l, (ctxAt i 0x4C 2 n x t).ea s (mwaitOp x) l)) = as)
    (hne : as ≠ []) (hcheck : (ctxAt i 0x4C 2 n x t).addrCheck (mwaitOp x) (mwaitOp x).size as = none)
    (hroom : outstanding s t.uid < outstandingCap) : effMwait (ctxAt i 0x4C 2 n x t) s =
      .done { startMem (mwaitOp x) (ctxAt i 0x4C 2 n x t) s as [] with
        flights := (startMem (mwaitOp x) (ctxAt i 0x4C 2 n x t) s as []).flights.map (fun f =>
          if f.id = s.nextId then f.waitsFor (mwaitDue s t x) else f) } := by
  have hcap : ¬ outstandingCap ≤ outstanding s t.uid := Nat.not_le.mpr hroom
  simp only [effMwait, ctxAt_x, ctxAt_t, has, isEmpty_eq_false_of_ne_nil hne, hcheck, Bool.and_eq_true, decide_eq_true_iff, hcap,
    and_false, Bool.false_eq_true, if_false, opnd_ctxAt]
  rfl

theorem effMwait_of_nil {c : C} {s : State}
    (has : (c.served (mwaitOp c.x)).map (fun l => (l, c.ea s (mwaitOp c.x) l)) = []) : effMwait c s = .done s := by
  simp only [effMwait, has, List.isEmpty_nil, if_true]

theorem execMwait_spec {x : Ext} {s : State} {t : Team} {as : List (Nat × Nat)} (hi : Issues 0x4C 2 x s t)
    (has : as = laneAddrs (fun s t x l => memAddr s t x false false 0 (sextN 14 (x.f 13 0)) l) true s t x)
    (hchecks : MemChecks s t x false as) :
    (as = [] → exec (.mwait x) s = .next (retire s t (extLen x))) ∧
    (as ≠ [] → ∃ s' f, exec (.mwait x) s = .next (retire s' t (extLen x)) ∧
      s'.flight? s.nextId = some f ∧ f.instr = .mwait x ∧
      f.lanes.map (fun r => (r.lane, r.addr, r.data)) =
        as.map (fun p => (p.1, BitVec.ofNat 64 p.2, BitVec.ofNat 64 (srcVal s t x x.b x.ty.width p.1))) ∧
      f.aux = [0, mwaitDue s t x, 0] ∧
      (.translationWalk s.nextId ∈ s'.agenda ∨ .accessResponse s.nextId ∈ s'.agenda) ∧
      (∀ a, s'.mem.get a = s.mem.get a) ∧ s'.writes = s.writes) := by
  obtain ⟨hcan, hal, hfail, hroom, hfresh, -⟩ := hchecks
  have hs : ((ctxAt (.mwait x) 0x4C 2 (extLen x) x t).served (mwaitOp x)).map
      (fun l => (l, (ctxAt (.mwait x) 0x4C 2 (extLen x) x t).ea s (mwaitOp x) l)) = as :=
    (served_map_ea_ctxAt (.mwait x) 0x4C 2 (extLen x) x t s (mwaitOp x) rfl).trans has.symm
  refine ⟨fun hnil => exec_of_done (i := .mwait x) rfl hi (effMwait_of_nil (hs.trans hnil)), fun hne => ?_⟩
  have heff := effMwait_of_checked hs hne (addrCheck_eq_none hcan (fun _ => hal rfl)) hroom
  obtain ⟨hflight, -, hdue, hmem, hwrites⟩ := startMem_of_not_sent (m := mwaitOp x)
    (c := ctxAt (.mwait x) 0x4C 2 (extLen x) x t) (as := as) [] hfail hfresh (.inr ⟨by simp [mwaitOp], by simp [mwaitOp]⟩)
  refine ⟨_, (memFlight (mwaitOp x) (ctxAt (.mwait x) 0x4C 2 (extLen x) x t) s as []).waitsFor (mwaitDue s t x),
    exec_of_done (i := .mwait x) rfl hi heff, ?_, rfl, ?_, rfl, hdue, fun a => congrArg (Memory.get · a) hmem, hwrites⟩
  · refine (flight?_map (s := startMem (mwaitOp x) (ctxAt (.mwait x) 0x4C 2 (extLen x) x t) s as [])
      (fun f => by split <;> rfl)).trans ?_
    rw [hflight]
    exact congrArg some (if_pos rfl)
  · refine (memLanes_map_data ..).trans ?_
    simp only [C.memData, mwaitOp, if_true, opnd_ctxAt]

theorem ldstOp_kind_of_even {sub : Nat} (h : sub % 2 = 0) (x : Ext) : (ldstOp sub x).kind = .load := by
  simp [ldstOp, h]

theorem atomOp_kind_of_ne_one {sub : Nat} (h : sub ≠ 1) (x : Ext) : (atomOp sub x).kind = .atomic := if_neg h

section
variable {α : Type} {mk : α → Instr} {ext : α → Ext} {len : α → Nat} {sub : Nat}

/-- The loads of group ldst. -/
theorem memReadOp_ldst (hsub : sub % 2 = 0)
    (hexec : ∀ y s, exec (mk y) s = issue (mk y) 0x4A sub (len y) (ext y) (effMem (ldstOp sub (ext y))) s) :
    MemReadOp mk ext len 0x4A sub (ldstOp sub) (fun s t x l =>
      memAddr s t x (x.bit 14) (sub = 2 || sub = 3) (x.f 16 15) (sextN 14 (x.f 13 0)) l) :=
  memReadOp_of_effMem hexec (fun _ => rfl) (fun x => by simp [ldstOp_kind_of_even hsub])

/-- The atomics of group atom. -/
theorem memReadOp_atom (hsub : sub ≠ 1)
    (hexec : ∀ y s, exec (mk y) s = issue (mk y) 0x4B sub (len y) (ext y) (effMem (atomOp sub (ext y))) s) :
    MemReadOp mk ext len 0x4B sub (atomOp sub) (fun s t x l =>
      memAddr s t x (x.bit 12) false (x.f 14 13) (sextN 12 (x.f 11 0)) l) :=
  memReadOp_of_effMem hexec (fun _ => rfl) (fun x => by simp [atomOp_kind_of_ne_one hsub])

/-- The first access of a load or store of group ldst to a declared set. -/
theorem touchOp_ldst
    (hexec : ∀ y s, exec (mk y) s = issue (mk y) 0x4A sub (len y) (ext y) (effMem (ldstOp sub (ext y))) s) :
    TouchOp mk ext 0x4A sub (sub = 4 || sub = 5) (fun s t x l =>
      memAddr s t x (x.bit 14) (sub = 2 || sub = 3) (x.f 16 15) (sextN 14 (x.f 13 0)) l) (fun x => x.bit 17) :=
  touchOp_of_effMem hexec (fun _ => rfl) (fun x => by simp only [ldstOp]; split <;> simp) (fun _ => rfl)

/-- The first access of an atomic to a declared set. -/
theorem touchOp_atom (hsub : sub ≠ 1)
    (hexec : ∀ y s, exec (mk y) s = issue (mk y) 0x4B sub (len y) (ext y) (effMem (atomOp sub (ext y))) s) :
    TouchOp mk ext 0x4B sub (sub = 2) (fun s t x l =>
      memAddr s t x (x.bit 12) false (x.f 14 13) (sextN 12 (x.f 11 0)) l) (fun _ => false) :=
  touchOp_of_effMem hexec (fun _ => rfl) (fun x => by simp [atomOp_kind_of_ne_one hsub]) (fun _ => rfl)

end

/-- Settles O24: the flight that `startMem` leaves, and the acquisition that comes before it. -/
theorem readsLeaveTheirAddressesInFlight : Obligations.ReadsLeaveTheirAddressesInFlight :=
  ⟨memReadOp_ldst rfl (fun _ _ => rfl), memReadOp_ldst rfl (fun _ _ => rfl), memReadOp_ldst rfl (fun _ _ => rfl),
    memReadOp_ldst rfl (fun _ _ => rfl), memReadOp_ldst rfl (fun _ _ => rfl), memReadOp_atom (by decide) (fun _ _ => rfl),
    memReadOp_atom (by decide) (fun _ _ => rfl), fun _ _ _ hi => execMwait_spec hi rfl, touchOp_ldst (fun _ _ => rfl),
    touchOp_ldst (fun _ _ => rfl), touchOp_ldst (fun _ _ => rfl), touchOp_ldst (fun _ _ => rfl),
    touchOp_ldst (fun _ _ => rfl), touchOp_atom (by decide) (fun _ _ => rfl), touchOp_atom (by decide) (fun _ _ => rfl)⟩

end Sys2Proof.Machine
end

section
/-!
PROOFS. Stores and `red` (09 R219, R222, R225, R227, 11 R258, R276): the lanes of an access that are sent at once, in lane order.
-/

namespace Sys2Proof.Machine

/-! ## The pieces that a store has written (02 R35) -/

theorem wrote_flatMap (l : List (Nat × Nat × Nat)) : wrote (l.flatMap (fun x => [x.1, x.2.1, x.2.2])) = l := by
  induction l with
  | nil => rfl
  | cons x l ih => exact congrArg (x :: ·) ih

/-- The lanes of a store whose pieces stand in `aux` are of a list. -/
def WroteLanes (aux ls : List Nat) : Prop :=
  ∃ l : List (Nat × Nat × Nat), aux.tail = l.flatMap (fun x => [x.1, x.2.1, x.2.2]) ∧ ∀ x ∈ l, x.1 ∈ ls

theorem WroteLanes.mono {aux ls ls' : List Nat} (h : WroteLanes aux ls) (hsub : ∀ i ∈ ls, i ∈ ls') : WroteLanes aux ls' := by
  obtain ⟨l, hl, hmem⟩ := h
  exact ⟨l, hl, fun x hx => hsub _ (hmem x hx)⟩

theorem WroteLanes.add {g : Flight} {ls : List Nat} (h : WroteLanes g.aux ls) (lane : Nat) (segs : List Seg) :
    WroteLanes (wroteAux g lane segs) (ls ++ [lane]) := by
  obtain ⟨l, hl, hmem⟩ := h
  refine ⟨l ++ segs.map (fun q => (lane, q.key, q.len)), ?_, fun x hx => ?_⟩
  · rw [wroteAux, List.cons_append, List.tail_cons, hl, List.flatMap_append, List.flatMap_map]
  · rcases List.mem_append.mp hx with hx | hx
    · exact List.mem_append_left _ (hmem x hx)
    · obtain ⟨q, -, rfl⟩ := List.mem_map.mp hx
      exact List.mem_append_right _ (List.mem_singleton_self lane)

/-- No later lane has been performed, so that the lane writes all its bytes. -/
theorem covered_eq_false {g : Flight} {r : LaneReq} {ls : List Nat} (h : WroteLanes g.aux ls) (hlt : ∀ i ∈ ls, i < r.lane)
    (key : Nat) : covered g r key = false := by
  obtain ⟨l, hl, hmem⟩ := h
  rw [covered, hl, wrote_flatMap]
  refine List.any_eq_false.mpr fun x hx => ?_
  have := hlt _ (hmem x hx)
  simp [Nat.not_lt.mpr (Nat.le_of_lt this)]

/-! ## A flight whose lanes are sent -/

/-- What an access needs of its team stays. -/
def Team.SameAccess (t t' : Team) : Prop :=
  t'.uid = t.uid ∧ t'.core = t.core ∧ t'.ctx = t.ctx ∧ t'.task = t.task ∧ t'.sets = t.sets

/-- The other flights stay, but that those that wait for the flight `id` wait for its writes too. -/
def OthersStay (id : Nat) (fs fs' : List Flight) : Prop :=
  fs'.map (fun e => (e.id, e.team)) = fs.map (fun e => (e.id, e.team)) ∧ ((∀ e ∈ fs, id ∉ e.waits) → fs' = fs)

theorem OthersStay.exists_of_mem {id : Nat} {fs fs' : List Flight} (h : OthersStay id fs fs') {e : Flight} (he : e ∈ fs') :
    ∃ e0 ∈ fs, e0.id = e.id ∧ e0.team = e.team := by
  have hmem : (e.id, e.team) ∈ fs.map (fun e => (e.id, e.team)) := h.1 ▸ List.mem_map_of_mem he
  obtain ⟨e0, he0, heq⟩ := List.mem_map.mp hmem
  exact ⟨e0, he0, congrArg Prod.fst heq, congrArg Prod.snd heq⟩

theorem OthersStay.lt {id n : Nat} {fs fs' : List Flight} (h : OthersStay id fs fs') (hfs : ∀ e ∈ fs, e.id < n) :
    ∀ e ∈ fs', e.id < n := fun e he => by
  obtain ⟨e0, he0, hid, -⟩ := h.exists_of_mem he
  exact hid ▸ hfs e0 he0

/-- While lanes of a flight `f` are sent from a state `s0`: the flight stands behind the others as `g`, the lanes `pre` have each
put one write behind the buffered ones, and what is due for these is due. -/
structure Sending (t : Team) (s0 : State) (fs : List Flight) (f : Flight) (due : Nat → Ev) (W : LaneReq → BufWrite → Prop)
    (pre : List LaneReq) (s : State) (g : Flight) (ws : List BufWrite) : Prop where
  flights : ∃ fs', s.flights = fs' ++ [g] ∧ OthersStay f.id fs fs'
  ident : g.id = f.id ∧ g.team = f.team ∧ g.waits = f.waits
  aux : WroteLanes g.aux (pre.map (fun r => r.lane))
  writes : s.writes = s0.writes ++ ws
  sent : List.Forall₂ W pre ws
  waits : ∀ w ∈ ws, w.waits = f.waits
  isDue : f.waits = [] → ∀ w ∈ ws, due w.id ∈ s.agenda
  mem : s.mem = s0.mem
  moves : s.hub = s0.hub ∧ s.homes = s0.homes
  team : ∃ t', s.team? f.team = some t' ∧ t.SameAccess t'

section
variable {t : Team} {s0 s : State} {fs : List Flight} {f g : Flight} {due : Nat → Ev} {W : LaneReq → BufWrite → Prop}
  {pre : List LaneReq} {ws : List BufWrite}

theorem Sending.withCores (h : Sending t s0 fs f due W pre s g ws) (cs : List Core) :
    Sending t s0 fs f due W pre { s with cores := cs } g ws := { h with }

theorem Sending.flight? (h : Sending t s0 fs f due W pre s g ws) (hfs : ∀ e ∈ fs, e.id < f.id) : s.flight? f.id = some g := by
  obtain ⟨fs', heq, hothers⟩ := h.flights
  have hlt := hothers.lt hfs
  rw [← h.ident.1] at hlt ⊢
  exact flight?_append_of_fresh hlt heq

/-- The write of one more lane is behind the others. -/
theorem Sending.write (h : Sending t s0 fs f due W pre s g ws) {r : LaneReq} {w : BufWrite} (hw : W r w)
    (hwaits : w.waits = f.waits) {es : List Ev} (hdue : f.waits = [] → due w.id ∈ es) (n : Nat) :
    Sending t s0 fs f due W (pre ++ [r])
      { s with writes := s.writes ++ [w], nextId := n, agenda := s.agenda ++ es } g (ws ++ [w]) :=
  { h with
    aux := h.aux.mono fun i hi => by
      rw [List.map_append]
      exact List.mem_append_left _ hi
    writes := by rw [h.writes, List.append_assoc]
    sent := List.rel_append h.sent (.cons hw .nil)
    waits := fun v hv => by
      rcases List.mem_append.mp hv with hv | hv
      · exact h.waits v hv
      · rw [List.mem_singleton.mp hv]
        exact hwaits
    isDue := fun hnil v hv => by
      rcases List.mem_append.mp hv with hv | hv
      · exact List.mem_append_left _ (h.isDue hnil v hv)
      · rw [List.mem_singleton.mp hv]
        exact List.mem_append_right _ (hdue hnil) }

/-- The flight changes, but not in what it is and what it waits for. -/
theorem Sending.onFlight (h : Sending t s0 fs f due W pre s g ws) (hfs : ∀ e ∈ fs, e.id < f.id) (c : Flight → Flight)
    (hc : (c g).id = g.id ∧ (c g).team = g.team ∧ (c g).waits = g.waits)
    (haux : WroteLanes (c g).aux (pre.map (fun r => r.lane))) :
    Sending t s0 fs f due W pre { s with flights := s.flights.map (fun e => if e.id = f.id then c e else e) } (c g) ws := by
  obtain ⟨hid, hteam, hwaits⟩ := h.ident
  obtain ⟨cid, cteam, cwaits⟩ := hc
  refine { h with flights := ?_, ident := ⟨cid.trans hid, cteam.trans hteam, cwaits.trans hwaits⟩, aux := haux }
  obtain ⟨fs', heq, hothers⟩ := h.flights
  have hmap : fs'.map (fun e => if e.id = f.id then c e else e) = fs' :=
    (List.map_congr_left fun e he => if_neg (Nat.ne_of_lt (hothers.lt hfs e he))).trans (List.map_id fs')
  refine ⟨fs', ?_, hothers⟩
  change s.flights.map _ = _
  rw [heq, List.map_append, hmap, List.map_singleton, if_pos hid]

theorem Sending.setLane (h : Sending t s0 fs f due W pre s g ws) (hfs : ∀ e ∈ fs, e.id < f.id) (lane : Nat) (st : LaneSt) :
    Sending t s0 fs f due W pre (setLane s f.id lane st) (g.withLane lane st) ws :=
  h.onFlight hfs (fun e => e.withLane lane st) ⟨rfl, rfl, rfl⟩ h.aux

theorem team?_map {s : State} {u : Nat} {c : Team → Team} (hc : ∀ t, (c t).uid = t.uid) :
    ({ s with teams := s.teams.map c } : State).team? u = (s.team? u).map c := by
  simp only [State.team?, List.find?_map, Function.comp_def, hc]

/-- The holds of a team wait for a further write where they wait for a flight. -/
def Team.sharing (flight write : Nat) (t : Team) : Team :=
  { t with holds := t.holds.map (fun h => { h with waits := if h.waits.contains flight then write :: h.waits else h.waits }) }

theorem team?_shareWait {s : State} {u : Nat} {t : Team} (h : s.team? u = some t) (flight write : Nat) :
    (shareWait s flight write).team? u = some (t.sharing flight write) :=
  (team?_map (c := Team.sharing flight write) (fun _ => rfl)).trans (congrArg (Option.map _) h)

theorem lineMoves_congr {s s' : State} (h : s'.hub = s.hub ∧ s'.homes = s.homes) (k : Nat) :
    lineMoves s' k = lineMoves s k := by
  unfold lineMoves homeSlice
  rw [h.1, h.2]

/-- A further write for the flight's own waiters: no write and no flight waits for it. -/
theorem Sending.shareWait (h : Sending t s0 fs f due W pre s g ws) (hw : ∀ w ∈ s0.writes, f.id ∉ w.waits)
    (hf : f.id ∉ f.waits) (id : Nat) :
    Sending t s0 fs f due W pre (shareWait s f.id id) g ws := by
  have hadd : ∀ l : List Nat, f.id ∉ l → (if l.contains f.id then id :: l else l) = l := fun l hl =>
    if_neg (by simpa using hl)
  obtain ⟨hid, hteam, hwaits⟩ := h.ident
  have hwrites : s.writes.map (fun w => { w with waits := if w.waits.contains f.id then id :: w.waits else w.waits }) =
      s.writes := (List.map_congr_left fun w hw' => by
    rw [h.writes] at hw'
    rw [hadd]
    · rfl
    · rcases List.mem_append.mp hw' with hw' | hw'
      · exact hw w hw'
      · rw [h.waits w hw']
        exact hf).trans (List.map_id _)
  obtain ⟨fs', heq, hothers, hkept⟩ := h.flights
  have hflights : s.flights.map (fun e => { e with waits := if e.waits.contains f.id then id :: e.waits else e.waits }) =
      fs'.map (fun e => { e with waits := if e.waits.contains f.id then id :: e.waits else e.waits }) ++ [g] := by
    rw [heq, List.map_append, List.map_singleton, hadd g.waits (hwaits ▸ hf)]
  have hstay : OthersStay f.id fs
      (fs'.map (fun e => { e with waits := if e.waits.contains f.id then id :: e.waits else e.waits })) := by
    refine ⟨?_, fun hfw => ?_⟩
    · rw [List.map_map]
      exact hothers
    · rw [hkept hfw]
      refine (List.map_congr_left fun e he => ?_).trans (List.map_id _)
      rw [hadd _ (hfw e he)]
      rfl
  obtain ⟨t', ht', hsame⟩ := h.team
  refine { h with flights := ⟨_, hflights, hstay⟩, writes := hwrites.trans h.writes,
                  team := ⟨_, team?_shareWait ht' f.id id, hsame⟩ }

/-- A lane of the flight meets nothing that it must follow. -/
theorem Sending.laneFree (h : Sending t s0 fs f due W pre s g ws) (hteam : ∀ e ∈ fs, e.team ≠ f.team) (m : MemOp) (r : LaneReq)
    {segs : List Seg} (hmoves : ∀ k ∈ segKeys segs, lineMoves s0 k = false) : laneFree s f m r segs = true := by
  obtain ⟨hid, hgt, -⟩ := h.ident
  have hline : (segKeys segs).any (lineMoves s) = false := List.any_eq_false.mpr fun k hk => by
    rw [lineMoves_congr h.moves, hmoves k hk]
    exact Bool.false_ne_true
  have hafter : (s.flightsOf f.team).any (laneAfter s f m r segs) = false := List.any_eq_false.mpr fun e he => by
    obtain ⟨hmem, hteq⟩ := List.mem_filter.mp he
    obtain ⟨fs', heq, hothers⟩ := h.flights
    rw [heq] at hmem
    rcases List.mem_append.mp hmem with hmem | hmem
    · obtain ⟨e0, he0, -, hteam0⟩ := hothers.exists_of_mem hmem
      exact absurd (hteam0.trans (of_decide_eq_true hteq)) (hteam e0 he0)
    · rw [List.mem_singleton.mp hmem]
      simp [laneAfter, hid]
  rw [Machine.laneFree, hline, hafter]
  rfl

end

/-! ## One lane is sent -/

/-- The write that `startWrite` puts behind the others. -/
def newWrite (s : State) (t : Team) (path lane : Nat) (va : Word64) (cells : List (Nat × Byte)) (kind : Nat)
    (release : Option Nat) (waits : List Nat) (red : Option (Nat × Ty × Word64)) (op : Nat) (pc npc : Word64) (i : Option Instr)
    (data : Word64) : BufWrite :=
  { id := s.nextId, op := op, team := t.uid, core := t.core, ctx := t.ctx, path := path, lane := lane, va := va,
    cells := cells, kind := kind, release := release, waits := waits, red := red, pc := pc, npc := npc, instr := i,
    data := data }

theorem startWrite_eq (s : State) (t : Team) (path lane : Nat) (va : Word64) (cells : List (Nat × Byte)) (kind : Nat)
    (release : Option Nat) (waits : List Nat) (red : Option (Nat × Ty × Word64)) (op : Nat) (pc npc : Word64) (i : Option Instr)
    (data : Word64) : ∃ es, startWrite s t path lane va cells kind release waits red op pc npc i data =
      { s with writes := s.writes ++ [newWrite s t path lane va cells kind release waits red op pc npc i data]
               nextId := s.nextId + 1
               agenda := s.agenda ++ es } ∧
      (waits = [] → (if red.isSome then .redCombine s.nextId else .writePerformed s.nextId) ∈ es) := by
  unfold startWrite
  cases waits with
  | nil => exact ⟨[_], rfl, fun _ => List.mem_singleton_self _⟩
  | cons a l => exact ⟨[], by rw [List.append_nil]; rfl, fun h => absurd h (by simp)⟩

theorem cutAddr_eq_none {segs : List Seg} (s : State) (va : Nat) (h : ∀ q ∈ segs, tierOf q.key = 0) :
    cutAddr s va segs = none := by
  induction segs generalizing va with
  | nil => rfl
  | cons q l ih =>
    rw [cutAddr, h q List.mem_cons_self]
    exact ih _ (fun p hp => h p (List.mem_cons_of_mem q hp))

/-- The bytes of a lane of a store at the pieces of its address. -/
def laneCells (m : MemOp) (r : LaneReq) (segs : List Seg) : List (Nat × Byte) := (segKeys segs).zip (leBytes m.size r.data.toNat)

theorem storeCells_eq {g : Flight} {m : MemOp} {r : LaneReq} {segs : List Seg} {ls : List Nat} (h : WroteLanes g.aux ls)
    (hlt : ∀ i ∈ ls, i < r.lane) : storeCells g m r segs = laneCells m r segs :=
  List.filter_eq_self.mpr fun x _ => by rw [covered_eq_false h hlt]; rfl

theorem unlogged_congr {t t' : Team} (h : t.SameAccess t') (a n : Nat) : t'.unlogged a n = t.unlogged a n := by
  obtain ⟨-, -, -, htask, hsets⟩ := h
  rw [Team.unlogged, Team.unlogged, htask, hsets]

/-- What the write of a lane of a store is. -/
def StoreSent (m : MemOp) (u : Nat) (r : LaneReq) (w : BufWrite) : Prop :=
  w.lane = r.lane ∧ w.va = r.addr ∧ w.team = u ∧ w.release = (if m.rel then some m.scope else none) ∧
    ∀ segs, r.st = .ready segs → w.cells = laneCells m r segs

/-- What the write of a lane of a `red` is. -/
def RedSent (m : MemOp) (r : LaneReq) (w : BufWrite) : Prop :=
  w.lane = r.lane ∧ w.path = 7 ∧ w.red = some (m.op, m.x.ty, r.data) ∧
    ∀ segs, r.st = .ready segs → w.cells.map (fun c => c.1) = segKeys segs

/-- A lane of a store that needs no record of the undo log is sent. -/
def storeSend (s : State) (t : Team) (f : Flight) (m : MemOp) (r : LaneReq) (segs : List Seg) : State :=
  let s1 := startWrite (if f.waits.isEmpty then l1Store s t.core (storeCells f m r segs) else s) t 0 r.lane r.addr
    (storeCells f m r segs) (if segs.any (fun q => q.kind = 1) then 1 else 0) (if m.rel then some m.scope else none) f.waits
    none f.id f.pc f.npc (some f.instr) r.data
  let s2 := { s1 with flights := s1.flights.map (fun e => if e.id = f.id then { e with aux := wroteAux e r.lane segs } else e) }
  setLane (shareWait s2 f.id s.nextId) f.id r.lane .done

theorem storeLane_of_logged {s : State} {t : Team} {f : Flight} {m : MemOp} {r : LaneReq} {segs : List Seg}
    (h : t.unlogged r.addr.toNat m.size = []) : storeLane s t f m r segs = (storeSend s t f m r segs, true) := by
  rw [storeLane, withRecords, h]
  rfl

theorem storeStart_eq_cores (s : State) (t : Team) (f : Flight) (m : MemOp) (r : LaneReq) (segs : List Seg) :
    ∃ cs, (if f.waits.isEmpty then l1Store s t.core (storeCells f m r segs) else s) = { s with cores := cs } := by
  split
  · exact ⟨_, rfl⟩
  · exact ⟨s.cores, rfl⟩

section
variable {t : Team} {s0 s : State} {fs : List Flight} {f g : Flight} {pre : List LaneReq} {ws : List BufWrite} {m : MemOp}
  {r : LaneReq} {segs : List Seg}

theorem Sending.storeLane (h : Sending t s0 fs f .writePerformed (StoreSent m t.uid) pre s g ws)
    (hfs : ∀ e ∈ fs, e.id < f.id) (hw : ∀ w ∈ s0.writes, f.id ∉ w.waits)
    (hf : f.id ∉ f.waits) (hr : r.st = .ready segs) (htier : ∀ q ∈ segs, tierOf q.key = 0)
    (hlog : t.unlogged r.addr.toNat m.size = []) (hlt : ∀ q ∈ pre, q.lane < r.lane) (hkind : m.kind = .store) :
    ∃ g' w, Sending t s0 fs f .writePerformed (StoreSent m t.uid) (pre ++ [r]) (performLane s g m r segs).1 g' (ws ++ [w]) ∧
      g'.lanes = (g.withLane r.lane .done).lanes := by
  obtain ⟨hid, hteam, hwaits⟩ := h.ident
  obtain ⟨t', ht', hsame⟩ := h.team
  have hlanes : ∀ i ∈ pre.map (fun q => q.lane), i < r.lane := fun i hi => by
    obtain ⟨q, hq, rfl⟩ := List.mem_map.mp hi
    exact hlt q hq
  obtain ⟨cs, hcs⟩ := storeStart_eq_cores s t' g m r segs
  obtain ⟨es, hes, hdue⟩ := startWrite_eq { s with cores := cs } t' 0 r.lane r.addr (storeCells g m r segs)
    (if segs.any (fun q => q.kind = 1) then 1 else 0) (if m.rel then some m.scope else none) g.waits none f.id g.pc g.npc
    (some g.instr) r.data
  have hperform : (performLane s g m r segs).1 = storeSend s t' g m r segs := by
    rw [performLane, hteam, ht']
    dsimp only
    rw [cutAddr_eq_none s _ htier, hkind]
    exact congrArg Prod.fst (storeLane_of_logged (by rw [unlogged_congr hsame, hlog]))
  have hwritten := (h.withCores cs).write (r := r)
    (w := newWrite { s with cores := cs } t' 0 r.lane r.addr (storeCells g m r segs)
      (if segs.any (fun q => q.kind = 1) then 1 else 0) (if m.rel then some m.scope else none) g.waits none f.id g.pc g.npc
      (some g.instr) r.data)
    ⟨rfl, rfl, hsame.1, rfl, fun segs' hs' => by
      rw [← LaneSt.ready.inj (hr.symm.trans hs')]
      exact storeCells_eq h.aux hlanes⟩ hwaits (fun hnil => hdue (hwaits.trans hnil)) (s.nextId + 1)
  have haux := hwritten.onFlight hfs (fun e => { e with aux := wroteAux e r.lane segs }) ⟨rfl, rfl, rfl⟩ (by
    rw [List.map_append]
    exact h.aux.add r.lane segs)
  have hsent := (haux.shareWait hw hf s.nextId).setLane hfs r.lane .done
  rw [hperform, storeSend, hcs, hid, hes]
  exact ⟨_, _, hsent, rfl⟩

theorem redLane_eq_send (s : State) (t : Team) (f : Flight) (m : MemOp) (r : LaneReq) (segs : List Seg) :
    ∃ cs es, redLane s t f m r segs = (setLane (shareWait
      { s with cores := cs
               writes := s.writes ++ [newWrite { s with cores := cs } t 7 r.lane r.addr ((segKeys segs).map (fun k => (k, 0))) 0
                 none [] (some (m.op, m.x.ty, r.data)) f.id f.pc f.npc (some f.instr) r.data]
               nextId := s.nextId + 1
               agenda := s.agenda ++ es } f.id s.nextId) f.id r.lane .done, true) ∧ .redCombine s.nextId ∈ es := by
  obtain ⟨cs, hcs⟩ := foldl_l1DropLine_eq_cores t.core id (segKeys segs) s
  obtain ⟨es, hes, hdue⟩ := startWrite_eq { s with cores := cs } t 7 r.lane r.addr ((segKeys segs).map (fun k => (k, 0))) 0
    none [] (some (m.op, m.x.ty, r.data)) f.id f.pc f.npc (some f.instr) r.data
  refine ⟨cs, es, ?_, hdue rfl⟩
  simp only [id] at hcs
  simp only [redLane, hcs, hes]

theorem Sending.redLane (h : Sending t s0 fs f .redCombine (RedSent m) pre s g ws) (hfs : ∀ e ∈ fs, e.id < f.id)
    (hw : ∀ w ∈ s0.writes, f.id ∉ w.waits) (hf : f.waits = [])
    (hr : r.st = .ready segs) (htier : ∀ q ∈ segs, tierOf q.key = 0) (hkind : m.kind = .red) :
    ∃ g' w, Sending t s0 fs f .redCombine (RedSent m) (pre ++ [r]) (performLane s g m r segs).1 g' (ws ++ [w]) ∧
      g'.lanes = (g.withLane r.lane .done).lanes := by
  obtain ⟨hid, hteam, hwaits⟩ := h.ident
  obtain ⟨t', ht', hsame⟩ := h.team
  obtain ⟨cs, es, hred, hdue⟩ := redLane_eq_send s t' g m r segs
  have hperform : (performLane s g m r segs).1 = (Machine.redLane s t' g m r segs).1 := by
    rw [performLane, hteam, ht']
    dsimp only
    rw [cutAddr_eq_none s _ htier, hkind]
  have hwritten := (h.withCores cs).write (r := r)
    (w := newWrite { s with cores := cs } t' 7 r.lane r.addr ((segKeys segs).map (fun k => (k, 0))) 0 none []
      (some (m.op, m.x.ty, r.data)) f.id g.pc g.npc (some g.instr) r.data)
    ⟨rfl, rfl, rfl, fun segs' hs' => by
      rw [← LaneSt.ready.inj (hr.symm.trans hs'), newWrite, List.map_map]
      exact List.map_id _⟩ hf.symm (fun _ => hdue) (s.nextId + 1)
  have hsent := (hwritten.shareWait hw (by rw [hf]; exact List.not_mem_nil) s.nextId).setLane hfs r.lane .done
  rw [hperform, hred, hid]
  exact ⟨_, _, hsent, rfl⟩

end

/-! ## All lanes are sent -/

/-- The lanes of a flight of which some are done. -/
def doneLanes (lanes pre : List LaneReq) : List LaneReq :=
  lanes.map (fun l => if l.lane ∈ pre.map (fun r => r.lane) then { l with st := .done } else l)

theorem doneLanes_nil (lanes : List LaneReq) : doneLanes lanes [] = lanes := by
  simp [doneLanes]

theorem withLane_doneLanes {g : Flight} {lanes pre : List LaneReq} {r : LaneReq} (h : g.lanes = doneLanes lanes pre) :
    (g.withLane r.lane .done).lanes = doneLanes lanes (pre ++ [r]) := by
  simp only [Flight.withLane, h, doneLanes, List.map_map]
  refine List.map_congr_left fun l _ => ?_
  have hmem : l.lane ∈ (pre ++ [r]).map (fun q => q.lane) ↔ l.lane ∈ pre.map (fun q => q.lane) ∨ l.lane = r.lane := by simp
  simp only [Function.comp_apply, hmem]
  by_cases hp : l.lane ∈ pre.map (fun q => q.lane)
  · rw [if_pos hp, if_pos (c := _ ∨ l.lane = r.lane) (.inl hp)]
    exact ite_self _
  · rw [if_neg hp]
    exact if_congr (by simp [hp]) rfl rfl

theorem all_done_doneLanes (lanes : List LaneReq) : (doneLanes lanes lanes).all (fun l => l.st = .done) = true := by
  refine List.all_eq_true.mpr fun l hl => ?_
  obtain ⟨q, hq, rfl⟩ := List.mem_map.mp hl
  rw [if_pos (List.mem_map_of_mem hq)]
  exact decide_eq_true rfl

/-- One lane of a flight, as `performLanes` serves it. -/
def performOne (f : Flight) (m : MemOp) (s : State) (r : LaneReq) : State :=
  match r.st with
  | .ready segs => if laneFree s f m r segs then (performLane s ((s.flight? f.id).getD f) m r segs).1 else s
  | _ => s

theorem performLanes_eq_foldl {m : MemOp} (h : m.kind ≠ .atomic) (s : State) (f : Flight) :
    performLanes s f m (fun _ => true) = f.lanes.foldl (performOne f m) s := by
  simp only [performLanes, laneOrder, if_neg h]
  rfl

section
variable {t : Team} {s0 : State} {fs : List Flight} {f : Flight} {due : Nat → Ev} {W : LaneReq → BufWrite → Prop} {m : MemOp}

/-- That each lane of a flight can be sent after those before it. -/
def SendsEach (t : Team) (s0 : State) (fs : List Flight) (f : Flight) (due : Nat → Ev) (W : LaneReq → BufWrite → Prop)
    (m : MemOp) : Prop :=
  ∀ pre r post, f.lanes = pre ++ r :: post → ∃ segs, r.st = .ready segs ∧ (∀ k ∈ segKeys segs, lineMoves s0 k = false) ∧
    ∀ s g ws, Sending t s0 fs f due W pre s g ws →
      ∃ g' w, Sending t s0 fs f due W (pre ++ [r]) (performLane s g m r segs).1 g' (ws ++ [w]) ∧
        g'.lanes = (g.withLane r.lane .done).lanes

theorem Sending.foldl_performOne (hfs : ∀ e ∈ fs, e.id < f.id) (hteam : ∀ e ∈ fs, e.team ≠ f.team)
    (hsend : SendsEach t s0 fs f due W m) (rs pre : List LaneReq) (hall : f.lanes = pre ++ rs) (s : State) (g : Flight)
    (ws : List BufWrite) (h : Sending t s0 fs f due W pre s g ws) (hg : g.lanes = doneLanes f.lanes pre) :
    ∃ g' ws', Sending t s0 fs f due W f.lanes (rs.foldl (performOne f m) s) g' ws' ∧
      g'.lanes = doneLanes f.lanes f.lanes := by
  induction rs generalizing pre s g ws with
  | nil =>
    rw [List.append_nil] at hall
    rw [← hall] at h hg
    exact ⟨g, ws, h, hg⟩
  | cons r rs ih =>
    obtain ⟨segs, hr, hmoves, hone⟩ := hsend pre r rs hall
    obtain ⟨g', w, hsent, hlanes⟩ := hone s g ws h
    have hstep : performOne f m s r = (performLane s g m r segs).1 := by
      simp only [performOne, hr, h.laneFree hteam m r hmoves, if_true, h.flight? hfs, Option.getD_some]
    rw [List.foldl_cons, hstep]
    exact ih (pre ++ [r]) (by rw [hall, List.append_assoc]; rfl) _ g' _ hsent (hlanes.trans (withLane_doneLanes hg))

end

theorem clearWait_eq (s : State) (id : Nat) : ∃ es, clearWait s id = { s with
    writes := s.writes.map (fun w => { w with waits := w.waits.filter (· ≠ id) })
    flights := s.flights.map (fun f => { f with waits := f.waits.filter (· ≠ id) })
    teams := s.teams.map (fun t => { t with holds := t.holds.map (fun h => { h with waits := h.waits.filter (· ≠ id) }) })
    agenda := s.agenda ++ es } := by
  obtain ⟨es1, h1⟩ := foldl_postOnce_eq (fun w : BufWrite => .releaseGateOpen w.id) (s.writes.filter (fun w => w.waits = [id]))
    { s with
      writes := s.writes.map (fun w => { w with waits := w.waits.filter (· ≠ id) })
      flights := s.flights.map (fun f => { f with waits := f.waits.filter (· ≠ id) })
      teams := s.teams.map (fun t => { t with holds := t.holds.map (fun h => { h with waits := h.waits.filter (· ≠ id) }) }) }
  simp only [clearWait, h1]
  obtain ⟨es2, h2⟩ := foldl_postOnce_eq (fun t : Team => .fenceComplete t.uid)
    (s.teams.filter (fun t => t.holds.any (fun h => h.waits = [id]))) { s with
      writes := s.writes.map (fun w => { w with waits := w.waits.filter (· ≠ id) })
      flights := s.flights.map (fun f => { f with waits := f.waits.filter (· ≠ id) })
      teams := s.teams.map (fun t => { t with holds := t.holds.map (fun h => { h with waits := h.waits.filter (· ≠ id) }) })
      agenda := s.agenda ++ es1 }
  exact ⟨es1 ++ es2, h2.trans (by rw [List.append_assoc])⟩

theorem filter_ne_of_not_mem {l : List Nat} {id : Nat} (h : id ∉ l) : l.filter (· ≠ id) = l :=
  List.filter_eq_self.mpr fun _ hx => decide_eq_true fun he => h (he ▸ hx)

/-- What nothing waits for ends without changing a write or a flight. -/
theorem clearWait_writes_of_not_waited {s : State} {id : Nat} (hw : ∀ w ∈ s.writes, id ∉ w.waits) :
    (clearWait s id).writes = s.writes := by
  obtain ⟨es, hes⟩ := clearWait_eq s id
  rw [hes]
  refine (List.map_congr_left fun w h => ?_).trans (List.map_id _)
  rw [filter_ne_of_not_mem (hw w h)]
  rfl

theorem clearWait_flights_of_not_waited {s : State} {id : Nat} (hf : ∀ f ∈ s.flights, id ∉ f.waits) :
    (clearWait s id).flights = s.flights := by
  obtain ⟨es, hes⟩ := clearWait_eq s id
  rw [hes]
  refine (List.map_congr_left fun f h => ?_).trans (List.map_id _)
  rw [filter_ne_of_not_mem (hf f h)]
  rfl

theorem mem_agenda_clearWait {s : State} {e : Ev} (h : e ∈ s.agenda) (id : Nat) : e ∈ (clearWait s id).agenda := by
  obtain ⟨es, hes⟩ := clearWait_eq s id
  rw [hes]
  exact List.mem_append_left _ h

/-- A store or `red` whose lanes can all be sent is over at once: its writes stand behind the others. -/
theorem startLanes_of_sent {t : Team} {s : State} {fs : List Flight} {f : Flight} {due : Nat → Ev}
    {W : LaneReq → BufWrite → Prop} {m : MemOp} (hkind : m.kind = .store ∨ m.kind = .red)
    (hready : ∀ r ∈ f.lanes, ∃ segs, r.st = .ready segs) (hstart : Sending t s fs f due W [] s f [])
    (hfs : ∀ e ∈ fs, e.id < f.id) (hteam : ∀ e ∈ fs, e.team ≠ f.team) (hw : ∀ w ∈ s.writes, f.id ∉ w.waits)
    (hf : f.id ∉ f.waits) (hsend : SendsEach t s fs f due W m) :
    ∃ s' ws, startLanes m f.lanes f.id s f = s' ∧ ((∀ e ∈ fs, f.id ∉ e.waits) → s'.flights = fs) ∧ s'.writes = s.writes ++ ws ∧
      List.Forall₂ W f.lanes ws ∧ (∀ w ∈ ws, w.waits = f.waits) ∧
      (f.waits = [] → ∀ w ∈ ws, due w.id ∈ s'.agenda) ∧ s'.mem = s.mem := by
  have htodo : f.lanes.any (fun l => l.st = .todo) = false := List.any_eq_false.mpr fun r hr => by
    obtain ⟨segs, hs⟩ := hready r hr
    simp [hs]
  have hfailed : f.lanes.any LaneReq.hasFailed = false := List.any_eq_false.mpr fun r hr => by
    obtain ⟨segs, hs⟩ := hready r hr
    simp [LaneReq.hasFailed, hs]
  have hstored : (m.kind = .store || m.kind = .red) = true := by
    rcases hkind with h | h <;> simp [h]
  have hatomic : m.kind ≠ .atomic := by
    rcases hkind with h | h <;> simp [h]
  have hheld : performFlight s f m (fun _ => true) = f.lanes.foldl (performOne f m) s := by
    have hany : f.lanes.any (fun r => match r.st with
        | .ready segs => true && !laneFree s f m r segs
        | _ => false) = false := List.any_eq_false.mpr fun r hr => by
      obtain ⟨pre, post, hall⟩ := List.append_of_mem hr
      obtain ⟨segs, hs, hmoves, -⟩ := hsend pre r post hall
      simp [hs, hstart.laneFree hteam m r hmoves]
    rw [← performLanes_eq_foldl hatomic, performFlight]
    exact congrArg (fun b : Bool => performLanes (if b then drainBefore s f.team f.id else s) f m (fun _ => true)) hany
  obtain ⟨g, ws, hsent, hg⟩ := Sending.foldl_performOne hfs hteam hsend f.lanes [] rfl s f [] hstart
    (doneLanes_nil f.lanes).symm
  have hdone : g.lanes.all (fun l => l.st = .done) = true := hg ▸ all_done_doneLanes f.lanes
  have hrun : startLanes m f.lanes f.id s f = clearWait ((f.lanes.foldl (performOne f m) s).dropFlight f.id) f.id := by
    simp only [startLanes, htodo, hstored, hfailed, Bool.not_false, Bool.and_true, if_true, Bool.false_eq_true, if_false, hheld,
      hsent.flight? hfs, hdone]
  have hwaited : ∀ w ∈ ((f.lanes.foldl (performOne f m) s).dropFlight f.id).writes, f.id ∉ w.waits := fun w hmem => by
    rw [show ((f.lanes.foldl (performOne f m) s).dropFlight f.id).writes = s.writes ++ ws from hsent.writes] at hmem
    rcases List.mem_append.mp hmem with hmem | hmem
    · exact hw w hmem
    · rw [hsent.waits w hmem]
      exact hf
  refine ⟨_, ws, hrun, fun hfw => ?_, (clearWait_writes_of_not_waited hwaited).trans hsent.writes, hsent.sent, hsent.waits,
    fun hnil w hmem => mem_agenda_clearWait (s := (f.lanes.foldl (performOne f m) s).dropFlight f.id)
      (hsent.isDue hnil w hmem) f.id, (clearWait_mem _ _).trans hsent.mem⟩
  obtain ⟨fs', heq, -, hkept⟩ := hsent.flights
  have hdrop : ((f.lanes.foldl (performOne f m) s).dropFlight f.id).flights = fs := by
    change (f.lanes.foldl (performOne f m) s).flights.filter _ = fs
    rw [heq, hkept hfw, List.filter_append, List.filter_eq_self.mpr fun e he => decide_eq_true (Nat.ne_of_lt (hfs e he))]
    simp [hsent.ident.1]
  rw [clearWait_flights_of_not_waited (fun e he => hfw e (hdrop ▸ he)), hdrop]

/-! ## The lanes at issue -/

theorem patN_lt (n : Nat) (r : Int) : patN n r < 2 ^ n := by
  have h := Int.emod_lt_of_pos r (Int.natCast_pos.mpr (Nat.two_pow_pos n))
  have h0 := Int.emod_nonneg r (Int.natCast_ne_zero.mpr (Nat.two_pow_pos n).ne')
  unfold patN
  omega

theorem lanesOf_pairwise (act : List Bool) : (lanesOf act).Pairwise (· < ·) := by
  have hzip : ((List.range act.length).zip act).Pairwise (fun p q => p.1 < q.1) := by
    refine List.pairwise_map.mp ?_
    rw [List.map_fst_zip (by simp)]
    exact List.pairwise_lt_range
  refine List.pairwise_filterMap.mpr (hzip.imp fun {p q} hpq => ?_)
  intro a ha b hb
  rcases p with ⟨i, b1⟩
  rcases q with ⟨j, b2⟩
  obtain ⟨-, rfl⟩ : b1 = true ∧ i = a := by simpa using ha
  obtain ⟨-, rfl⟩ : b2 = true ∧ j = b := by simpa using hb
  exact hpq

theorem servedLanes_pairwise (t : Team) (x : Ext) (scalar : Bool) : (servedLanes t x scalar).Pairwise (· < ·) := by
  unfold servedLanes
  split
  · split
    · exact List.pairwise_singleton _ _
    · exact .nil
  · exact lanesOf_pairwise _

/-- The lanes of an access whose pages are cached and let it. -/
def readyLanes (m : MemOp) (c : C) (s : State) (segs : Nat → List Seg) (as : List (Nat × Nat)) : List LaneReq :=
  as.map (fun p => { lane := p.1, addr := BitVec.ofNat 64 p.2, data := BitVec.ofNat 64 (c.memData s m p.1),
                     st := .ready (segs p.1) })

theorem memLanes_of_ready {m : MemOp} {c : C} {s : State} {segs : Nat → List Seg} {as : List (Nat × Nat)}
    (hfail : c.t.setFailed = none) (hkind : m.kind ≠ .atomic)
    (h : ∀ p ∈ as, cached s c.t.core c.t.ctx p.2 m.size = true ∧
      piecesOf s c.t.core c.t.ctx m.access p.2 m.size = .ok (segs p.1)) :
    memLanes m c s as = readyLanes m c s segs as := by
  refine List.map_congr_left fun p hp => ?_
  obtain ⟨hcached, hpieces⟩ := h p hp
  simp only [failsAt_of_setFailed hfail, hcached, if_true, laneTr, hpieces, hkind, decide_false, Bool.false_and,
    Bool.false_eq_true, if_false]

theorem memLanes_any_todo {m : MemOp} {c : C} {s : State} {as : List (Nat × Nat)} (hfail : c.t.setFailed = none)
    {p : Nat × Nat} (hp : p ∈ as) (h : cached s c.t.core c.t.ctx p.2 m.size = false) :
    (memLanes m c s as).any (fun l => l.st = .todo) = true := by
  refine List.any_eq_true.mpr ⟨_, List.mem_map_of_mem hp, ?_⟩
  simp only [failsAt_of_setFailed hfail, h, Bool.false_eq_true, if_false, decide_true]

theorem sameAccess_setSFull (t : Team) (n : Nat) (b : Bool) : t.SameAccess (t.setSFull n b) := ⟨rfl, rfl, rfl, rfl, rfl⟩

theorem Team.SameAccess.trans {t1 t2 t3 : Team} (h : t1.SameAccess t2) (h' : t2.SameAccess t3) : t1.SameAccess t3 := by
  obtain ⟨h1, h2, h3, h4, h5⟩ := h
  obtain ⟨g1, g2, g3, g4, g5⟩ := h'
  exact ⟨g1.trans h1, g2.trans h2, g3.trans h3, g4.trans h4, g5.trans h5⟩

theorem sameAccess_setFull (t : Team) (vec : Bool) (n : Nat) (b : Bool) (k : Nat) : t.SameAccess (t.setFull vec n b k) := by
  induction k generalizing t with
  | zero => exact ⟨rfl, rfl, rfl, rfl, rfl⟩
  | succ k ih =>
    refine Team.SameAccess.trans ?_ (ih _)
    split <;> exact ⟨rfl, rfl, rfl, rfl, rfl⟩

theorem sameAccess_launched (c : C) (t : Team) : t.SameAccess (t.launched c) := by
  unfold Team.launched
  refine (sameAccess_setFull t (decide (c.row.d = .vec)) c.x.d.toNat false (rowFills c.row)).trans ?_
  generalize t.setFull (decide (c.row.d = .vec)) c.x.d.toNat false (rowFills c.row) = t1
  generalize extraRegs t.width c.i = ks
  induction ks generalizing t1 with
  | nil => exact ⟨rfl, rfl, rfl, rfl, rfl⟩
  | cons k ks ih => exact (sameAccess_setSFull t1 k false).trans (ih _)

/-- A release or fence waits for what has an id already. -/
theorem not_mem_lsWaits {s : State} (h : FreshIds s) (u scope : Nat) : s.nextId ∉ lsWaits s u scope := by
  obtain ⟨hf, hw⟩ := h
  intro hmem
  rcases List.mem_append.mp hmem with hmem | hmem
  · obtain ⟨f, hin, hid⟩ := List.mem_map.mp hmem
    have := hf f (List.mem_filter.mp (List.mem_filter.mp hin).1).1
    omega
  · obtain ⟨w, hin, hid⟩ := List.mem_map.mp hmem
    have := hw w (List.mem_filter.mp hin).1
    omega

theorem map_eq_of_forall₂ {α β γ : Type} {R : α → β → Prop} {F : β → γ} {G : α → γ} (h : ∀ a b, R a b → F b = G a)
    {l : List α} {l' : List β} (hl : List.Forall₂ R l l') : l'.map F = l.map G := by
  induction hl with
  | nil => rfl
  | cons hab _ ih => rw [List.map_cons, List.map_cons, h _ _ hab, ih]

theorem exists_of_forall₂_mem {α β : Type} {R : α → β → Prop} {l : List α} {l' : List β} (hl : List.Forall₂ R l l') {b : β}
    (hb : b ∈ l') : ∃ a, R a b := by
  induction hl with
  | nil => exact absurd hb List.not_mem_nil
  | cons hab _ ih =>
    rcases List.mem_cons.mp hb with rfl | hb
    · exact ⟨_, hab⟩
    · exact ih hb

section
variable {m : MemOp} {c : C} {s : State} {segs : Nat → List Seg} {as : List (Nat × Nat)} {waits : List Nat}
  {due : Nat → Ev} {W : LaneReq → BufWrite → Prop}

/-- A store or `red` at issue, all of whose lanes are translated and can be sent. -/
theorem startMem_of_sent (hfail : c.t.setFailed = none) (hfresh : FreshIds s) (hkind : m.kind = .store ∨ m.kind = .red)
    (ht : s.team? c.t.uid = some c.t) (hready : memLanes m c s as = readyLanes m c s segs as)
    (hflights : s.flightsOf c.t.uid = []) (hw : ∀ w ∈ s.writes, s.nextId ∉ w.waits)
    (hf : s.nextId ∉ waits)
    (hsend : ∀ cs, SendsEach c.t (memLaunched m c s as waits cs) s.flights (memFlight m c s as waits) due W m) :
    ∃ s' ws, startMem m c s as waits = s' ∧ ((∀ e ∈ s.flights, s.nextId ∉ e.waits) → s'.flights = s.flights) ∧
      s'.writes = s.writes ++ ws ∧
      List.Forall₂ W (readyLanes m c s segs as) ws ∧ (∀ w ∈ ws, w.waits = waits) ∧
      (waits = [] → ∀ w ∈ ws, due w.id ∈ s'.agenda) ∧ s'.mem = s.mem := by
  obtain ⟨cs, -, hstart⟩ := startMem_eq m c as waits hfail hfresh.1
  have hnone : ∀ e ∈ s.flights, e.team ≠ c.t.uid := fun e he hteam => by
    have hmem : e ∈ s.flightsOf c.t.uid := List.mem_filter.mpr ⟨he, decide_eq_true hteam⟩
    rw [hflights] at hmem
    exact List.not_mem_nil hmem
  have hteam : (memLaunched m c s as waits cs).team? c.t.uid = some (c.t.launched c) :=
    team_onTeam_same (fun t => (sameAccess_launched c t).1) ht
  have hbegin : Sending c.t (memLaunched m c s as waits cs) s.flights (memFlight m c s as waits) due W []
      (memLaunched m c s as waits cs) (memFlight m c s as waits) [] :=
    { flights := ⟨s.flights, rfl, rfl, fun _ => rfl⟩, ident := ⟨rfl, rfl, rfl⟩,
      aux := ⟨[], rfl, fun _ h => absurd h List.not_mem_nil⟩,
      writes := (List.append_nil _).symm, sent := .nil, waits := fun _ h => absurd h List.not_mem_nil,
      isDue := fun _ _ h => absurd h List.not_mem_nil, mem := rfl, moves := ⟨rfl, rfl⟩,
      team := ⟨_, hteam, sameAccess_launched c c.t⟩ }
  obtain ⟨s', ws, hrun, hflights', hwrites, hsent, hwaits, hdue, hmem⟩ := startLanes_of_sent hkind (fun r hr => by
      obtain ⟨p, -, rfl⟩ := List.mem_map.mp (hready ▸ hr : r ∈ readyLanes m c s segs as)
      exact ⟨_, rfl⟩) hbegin hfresh.1 hnone hw hf (hsend cs)
  exact ⟨s', ws, hstart.trans hrun, hflights', hwrites, hready ▸ hsent, hwaits, hdue, hmem⟩

end

/-! ## The stores of group ldst -/

theorem ldstOp_kind_of_odd {sub : Nat} (h : sub % 2 = 1) (x : Ext) : (ldstOp sub x).kind = .store := by
  simp [ldstOp, h]

/-- The data of a lane of a store: sD, or its lane of vD (a pair for 64-bit types). -/
def storeData (t : Team) (x : Ext) (scalar : Bool) (l : Nat) : Nat :=
  if scalar then (t.sval x.d.toNat).toNat
  else if x.ty.wide then (t.lane x.d.toNat l).toNat + 2 ^ 32 * (t.lane (x.d.toNat + 1) l).toNat
  else (t.lane x.d.toNat l).toNat

theorem storeData_lt (t : Team) (x : Ext) (scalar : Bool) (l : Nat) : storeData t x scalar l < 2 ^ 64 := by
  have h0 := (t.lane x.d.toNat l).isLt
  have h1 := (t.lane (x.d.toNat + 1) l).isLt
  have hs := (t.sval x.d.toNat).isLt
  unfold storeData
  split
  · exact hs
  · split <;> omega

theorem memData_of_store {m : MemOp} {c : C} (s : State) (h : m.kind = .store) (l : Nat) :
    c.memData s m l = storeData c.t m.x m.scalar l := by
  simp only [C.memData, h, storeData]

section
variable {i : Instr} {opc sub n : Nat} {x : Ext} {t : Team} {s : State} {as : List (Nat × Nat)} {m : MemOp}

/-- The lanes of an access at issue, as its effect lists them. -/
theorem served_map_ea_eq (hx : m.x = x)
    (has : as = laneAddrs (fun s t x l => memAddr s t x m.ix m.each m.scl m.off l) m.scalar s t x) :
    ((ctxAt i opc sub n x t).served m).map (fun l => (l, (ctxAt i opc sub n x t).ea s m l)) = as :=
  (served_map_ea_ctxAt i opc sub n x t s m hx).trans has.symm

theorem addr_lt_of_mem (has : as = laneAddrs (fun s t x l => memAddr s t x m.ix m.each m.scl m.off l) m.scalar s t x)
    {p : Nat × Nat} (hp : p ∈ as) : p.2 < 2 ^ 64 := by
  rw [has] at hp
  obtain ⟨l, -, rfl⟩ := List.mem_map.mp hp
  exact patN_lt 64 _

/-- The lanes come in lane order. -/
theorem laneAddrs_pairwise {addr : State → Team → Ext → Nat → Nat} (scalar : Bool) :
    (laneAddrs addr scalar s t x).Pairwise (fun p q => p.1 < q.1) :=
  List.pairwise_map.mpr (servedLanes_pairwise t x scalar)

/-- The lanes of a store of group ldst can all be sent, where no line needs a record and none moves. -/
theorem sendsEach_store {segs : Nat → List Seg} {waits : List Nat} {cs : List Core} (hkind : m.kind = .store)
    (hready : memLanes m (ctxAt i opc sub n x t) s as = readyLanes m (ctxAt i opc sub n x t) s segs as)
    (hfresh : FreshIds s) (hw : ∀ w ∈ s.writes, s.nextId ∉ w.waits)
    (hf : s.nextId ∉ waits) (horder : as.Pairwise (fun p q => p.1 < q.1)) (hlt : ∀ p ∈ as, p.2 < 2 ^ 64)
    (hlog : ∀ p ∈ as, t.unlogged p.2 m.size = [])
    (hsegs : ∀ p ∈ as, ∀ g ∈ segs p.1, tierOf g.key = 0 ∧ ∀ k ∈ segKeys [g], lineMoves s k = false) :
    SendsEach t (memLaunched m (ctxAt i opc sub n x t) s as waits cs) s.flights
      (memFlight m (ctxAt i opc sub n x t) s as waits) .writePerformed (StoreSent m t.uid) m := by
  intro pre r post hall
  have hlanes : readyLanes m (ctxAt i opc sub n x t) s segs as = pre ++ r :: post := hready.symm.trans hall
  obtain ⟨p, hp, hr⟩ := List.mem_map.mp (hlanes ▸ List.mem_append_right pre List.mem_cons_self)
  have hst : r.st = .ready (segs p.1) := by rw [← hr]
  have hbefore : ∀ q ∈ pre, q.lane < r.lane := by
    have hpw : (readyLanes m (ctxAt i opc sub n x t) s segs as).Pairwise (fun q q' => q.lane < q'.lane) :=
      List.pairwise_map.mpr horder
    rw [hlanes] at hpw
    exact fun q hq => (List.pairwise_append.mp hpw).2.2 q hq r List.mem_cons_self
  refine ⟨segs p.1, hst, fun k hk => ?_, fun s' g ws h => ?_⟩
  · obtain ⟨g, hg, hkg⟩ := List.mem_flatMap.mp hk
    exact (hsegs p hp g hg).2 k (List.mem_flatMap.mpr ⟨g, List.mem_singleton_self g, hkg⟩)
  · refine h.storeLane hfresh.1 hw hf hst (fun q hq => (hsegs p hp q hq).1) ?_ hbefore hkind
    rw [← hr, BitVec.toNat_ofNat, Nat.mod_eq_of_lt (hlt p hp)]
    exact hlog p hp

end

/-- A store of group ldst sends its bytes, or waits for its translations. -/
theorem memStoreOp_ldst {α : Type} {mk : α → Instr} {ext : α → Ext} {len : α → Nat} {sub : Nat} (hsub : sub % 2 = 1)
    (hexec : ∀ y s, exec (mk y) s = issue (mk y) 0x4A sub (len y) (ext y) (effMem (ldstOp sub (ext y))) s) :
    MemStoreOp mk ext len 0x4A sub (sub = 4 || sub = 5) (fun s t x l =>
      memAddr s t x (x.bit 14) (sub = 2 || sub = 3) (x.f 16 15) (sextN 14 (x.f 13 0)) l) (fun x => x.bit 17) := by
  intro y s t segs x n as waits data hi hissue
  obtain ⟨⟨hcan, hal, hfail, hroom, hfresh⟩, hsets⟩ := hissue
  have hkind := ldstOp_kind_of_odd hsub x
  have hred : (ldstOp sub x).kind ≠ .red := by simp [hkind]
  have hatomic : (ldstOp sub x).kind ≠ .atomic := by simp [hkind]
  have hrel : (ldstOp sub x).rel = x.bit 18 := by simp [ldstOp, hsub]
  have hs : ((ctxAt (mk y) 0x4A sub (len y) x t).served (ldstOp sub x)).map
      (fun l => (l, (ctxAt (mk y) 0x4A sub (len y) x t).ea s (ldstOp sub x) l)) = as := served_map_ea_eq rfl rfl
  have hwaits : (if (ldstOp sub x).rel then lsWaits s t.uid (ldstOp sub x).scope else []) = waits := by
    rw [hrel]
    rfl
  have hdata : ∀ l, (ctxAt (mk y) 0x4A sub (len y) x t).memData s (ldstOp sub x) l = data l := memData_of_store s hkind
  have heff : as ≠ [] → effMem (ldstOp sub x) (ctxAt (mk y) 0x4A sub (len y) x t) s =
      .done (startMem (ldstOp sub x) (ctxAt (mk y) 0x4A sub (len y) x t) s as waits) := fun hne => by
    rw [effMem_of_checked hs hne (addrCheck_eq_none hcan hal) hred (firstTouch_eq_none hsets) hroom, ctxAt_t, hwaits]
  have hfw : s.nextId ∉ waits := by
    rw [← hwaits]
    split
    · exact not_mem_lsWaits hfresh _ _
    · exact List.not_mem_nil
  refine ⟨fun hnil => exec_of_done (hexec y s) hi (effMem_of_nil (hs.trans hnil)),
    fun hne hflights hw hfl hlog hpages => ?sent, fun hne hmiss => ?todo⟩
  case sent =>
    have hready : memLanes (ldstOp sub x) (ctxAt (mk y) 0x4A sub (len y) x t) s as =
        readyLanes (ldstOp sub x) (ctxAt (mk y) 0x4A sub (len y) x t) s segs as :=
      memLanes_of_ready hfail hatomic fun p hp => by
        obtain ⟨hcached, hpieces, -⟩ := hpages p hp
        refine ⟨hcached, ?_⟩
        rw [MemOp.access, hkind]
        exact hpieces
    obtain ⟨s', ws, hrun, hfl', hwrites, hsent, hww, hdue, hmem⟩ := startMem_of_sent (waits := waits)
      (due := .writePerformed) (W := StoreSent (ldstOp sub x) t.uid) hfail hfresh (.inl hkind)
      (team?_uid_of_issues hi) hready hflights hw hfw (fun cs => sendsEach_store hkind hready hfresh hw hfw
        (laneAddrs_pairwise _) (fun p hp => addr_lt_of_mem (m := ldstOp sub x) rfl hp) hlog
        (fun p hp => (hpages p hp).2.2))
    refine ⟨s', ws, exec_of_done (hexec y s) hi (hrun ▸ heff hne), hwrites, ?_, fun w hmem => ?_, fun a => by rw [hmem], hfl' hfl⟩
    · refine map_eq_of_forall₂ (fun p w hpw => ?_) (List.forall₂_map_left_iff.mp hsent)
      obtain ⟨hlane, hva, -, -, hcells⟩ := hpw
      have hd : (BitVec.ofNat 64 (data p.1)).toNat = data p.1 := by
        exact (BitVec.toNat_ofNat ..).trans (Nat.mod_eq_of_lt (storeData_lt t x _ p.1))
      rw [hlane, hva, hcells _ rfl, laneCells, hdata, hd]
      rfl
    · obtain ⟨r, -, -, hteam, hrelease, -⟩ := exists_of_forall₂_mem hsent hmem
      refine ⟨hteam, hww w hmem, ?_, fun hnil => hdue hnil w hmem⟩
      rw [hrelease, hrel]
      rfl
  case todo =>
    obtain ⟨p, hp, hmissed⟩ := hmiss
    have htodo := memLanes_any_todo (m := ldstOp sub x) (c := ctxAt (mk y) 0x4A sub (len y) x t) hfail hp hmissed
    obtain ⟨hflight, hwalk, -, hmem, hwrites⟩ := startMem_of_not_sent waits hfail hfresh.1 (.inl htodo)
    refine ⟨_, _, exec_of_done (hexec y s) hi (heff hne), hflight, rfl, ?_, hwalk htodo, fun a => by rw [hmem], hwrites⟩
    refine (memLanes_map_data ..).trans ?_
    simp only [hdata]

/-! ## red -/

section
variable {x : Ext} {s : State} {t : Team} {as : List (Nat × Nat)}

theorem declares_iff (t : Team) (a n : Nat) :
    t.declares a n = (t.task.isSome && t.sets.any (fun k => decide (SlotTouched k a n))) := by
  rw [Team.declares]
  congr 1
  exact List.any_congr rfl fun k => Bool.eq_iff_iff.mpr ((slotHit_iff k a n).trans decide_eq_true_iff.symm)

/-- A `red` into a range that the open task has declared is refused (14 R320). -/
theorem effMem_red_of_declared {m : MemOp} {c : C} (has : (c.served m).map (fun l => (l, c.ea s m l)) = as)
    (hcheck : c.addrCheck m m.size as = none) (hkind : m.kind = .red)
    (hown : as.filter (fun p => c.t.declares p.2 m.size) ≠ []) :
    effMem m c s = .trap s (c.addrTrap 0x05 0x0807 (as.filter (fun p => c.t.declares p.2 m.size))) := by
  simp only [effMem, has, isEmpty_eq_false_of_ne_nil (ne_nil_of_filter_ne_nil hown), hcheck, hkind, if_true,
    isEmpty_eq_false_of_ne_nil hown, Bool.not_false, Bool.false_eq_true, if_false]

/-- A `red` outside the declared ranges, with room, goes into flight. -/
theorem effMem_red_of_checked {m : MemOp} {c : C} (has : (c.served m).map (fun l => (l, c.ea s m l)) = as) (hne : as ≠ [])
    (hcheck : c.addrCheck m m.size as = none) (hkind : m.kind = .red)
    (hown : as.filter (fun p => c.t.declares p.2 m.size) = []) (hroom : outstanding s c.t.uid < outstandingCap) :
    effMem m c s = .done (startMem m c s as (if m.rel then lsWaits s c.t.uid m.scope else [])) := by
  have hcap : (decide (outstandingCap ≤ outstanding s c.t.uid)) = false := decide_eq_false (Nat.not_le.mpr hroom)
  simp only [effMem, has, isEmpty_eq_false_of_ne_nil hne, hcheck, hkind, if_true, hown, hcap, List.isEmpty_nil, Bool.not_true,
    Bool.and_false, Bool.false_eq_true, if_false]

/-- The lanes of a `red` can all be sent, where no line moves. -/
theorem sendsEach_red {i : Instr} {opc sub n : Nat} {m : MemOp} {segs : Nat → List Seg} {cs : List Core} (hkind : m.kind = .red)
    (hready : memLanes m (ctxAt i opc sub n x t) s as = readyLanes m (ctxAt i opc sub n x t) s segs as)
    (hfresh : FreshIds s) (hw : ∀ w ∈ s.writes, s.nextId ∉ w.waits)
    (hsegs : ∀ p ∈ as, ∀ g ∈ segs p.1, tierOf g.key = 0 ∧ ∀ k ∈ segKeys [g], lineMoves s k = false) :
    SendsEach t (memLaunched m (ctxAt i opc sub n x t) s as [] cs) s.flights
      (memFlight m (ctxAt i opc sub n x t) s as []) .redCombine (RedSent m) m := by
  intro pre r post hall
  have hlanes : readyLanes m (ctxAt i opc sub n x t) s segs as = pre ++ r :: post := hready.symm.trans hall
  obtain ⟨p, hp, hr⟩ := List.mem_map.mp (hlanes ▸ List.mem_append_right pre List.mem_cons_self)
  have hst : r.st = .ready (segs p.1) := by rw [← hr]
  refine ⟨segs p.1, hst, fun k hk => ?_, fun s' g ws h => ?_⟩
  · obtain ⟨g, hg, hkg⟩ := List.mem_flatMap.mp hk
    exact (hsegs p hp g hg).2 k (List.mem_flatMap.mpr ⟨g, List.mem_singleton_self g, hkg⟩)
  · exact h.redLane hfresh.1 hw rfl hst (fun q hq => (hsegs p hp q hq).1) hkind

theorem execRed_spec {segs : Nat → List Seg} {own : List (Nat × Nat)} (hi : Issues 0x4B 1 x s t)
    (has : as = laneAddrs (fun s t x l => memAddr s t x (x.bit 12) false (x.f 14 13) (sextN 12 (x.f 11 0)) l) false s t x)
    (hown : own = as.filter (fun p => t.declares p.2 (x.ty.width / 8))) (hchecks : MemChecks s t x false as) :
    (own ≠ [] → exec (.red x) s = .next (takeTrap s t ((ctxAt (.red x) 0x4B 1 (extLen x) x t).addrTrap 0x05 0x0807 own))) ∧
    (as = [] → exec (.red x) s = .next (retire s t (extLen x))) ∧
    (as ≠ [] → own = [] → s.flightsOf t.uid = [] → x.bit 19 = false → (∀ w ∈ s.writes, s.nextId ∉ w.waits) →
      (∀ p ∈ as, cached s t.core t.ctx p.2 (x.ty.width / 8) = true ∧
        piecesOf s t.core t.ctx .red p.2 (x.ty.width / 8) = .ok (segs p.1) ∧
        ∀ g ∈ segs p.1, tierOf g.key = 0 ∧ ∀ k ∈ segKeys [g], lineMoves s k = false) →
      ∃ s' ws, exec (.red x) s = .next (retire s' t (extLen x)) ∧ s'.writes = s.writes ++ ws ∧
        ws.map (fun w => (w.lane, w.path, w.cells.map (fun c => c.1), w.red)) = as.map (fun p =>
          (p.1, 7, segKeys (segs p.1), some (x.f 17 15, x.ty, BitVec.ofNat 64 (srcVal s t x x.c x.ty.width p.1)))) ∧
        (∀ w ∈ ws, .redCombine w.id ∈ s'.agenda) ∧ (∀ a, s'.mem.get a = s.mem.get a)) := by
  obtain ⟨hcan, hal, hfail, hroom, hfresh⟩ := hchecks
  have hs : ((ctxAt (.red x) 0x4B 1 (extLen x) x t).served (atomOp 1 x)).map
      (fun l => (l, (ctxAt (.red x) 0x4B 1 (extLen x) x t).ea s (atomOp 1 x) l)) = as := served_map_ea_eq rfl has
  have hcheck : (ctxAt (.red x) 0x4B 1 (extLen x) x t).addrCheck (atomOp 1 x) (atomOp 1 x).size as = none :=
    addrCheck_eq_none hcan (fun _ => hal rfl)
  refine ⟨fun hne => ?_, fun hnil => exec_of_done (i := .red x) rfl hi (effMem_of_nil (hs.trans hnil)),
    fun hne hnone hflights hrel hw hpages => ?_⟩
  · rw [hown] at hne ⊢
    exact exec_of_trap (i := .red x) rfl hi (effMem_red_of_declared hs hcheck rfl hne) (team?_uid_of_issues hi)
  · have heff := effMem_red_of_checked hs hne hcheck rfl (hown.symm.trans hnone) hroom
    have hready : memLanes (atomOp 1 x) (ctxAt (.red x) 0x4B 1 (extLen x) x t) s as =
        readyLanes (atomOp 1 x) (ctxAt (.red x) 0x4B 1 (extLen x) x t) s segs as :=
      memLanes_of_ready hfail (by simp [atomOp]) fun p hp => ⟨(hpages p hp).1, (hpages p hp).2.1⟩
    obtain ⟨s', ws, hrun, -, hwrites, hsent, -, hdue, hmem⟩ := startMem_of_sent (waits := []) (due := .redCombine)
      (W := RedSent (atomOp 1 x)) hfail hfresh (.inr rfl) (team?_uid_of_issues hi) hready hflights hw List.not_mem_nil
      (fun cs => sendsEach_red rfl hready hfresh hw (fun p hp => (hpages p hp).2.2))
    rw [show (atomOp 1 x).rel = false from hrel, if_neg Bool.false_ne_true, hrun] at heff
    refine ⟨s', ws, exec_of_done (i := .red x) rfl hi heff, hwrites, ?_, hdue rfl, fun a => by rw [hmem]⟩
    refine map_eq_of_forall₂ (fun p w hpw => ?_) (List.forall₂_map_left_iff.mp hsent)
    obtain ⟨hlane, hpath, hred, hcells⟩ := hpw
    rw [hlane, hpath, hcells _ rfl, hred, C.memData]
    simp only [atomOp, if_true, opnd_ctxAt]

end

/-- Settles O25: the lanes of a store or `red` are sent one after another, in lane order. -/
theorem storesSendTheirBytesToTheirAddresses : Obligations.StoresSendTheirBytesToTheirAddresses := by
  refine ⟨memStoreOp_ldst rfl (fun _ _ => rfl), memStoreOp_ldst rfl (fun _ _ => rfl), memStoreOp_ldst rfl (fun _ _ => rfl),
    memStoreOp_ldst rfl (fun _ _ => rfl), memStoreOp_ldst rfl (fun _ _ => rfl), ?red, touchOp_ldst (fun _ _ => rfl),
    touchOp_ldst (fun _ _ => rfl), touchOp_ldst (fun _ _ => rfl), touchOp_ldst (fun _ _ => rfl),
    touchOp_ldst (fun _ _ => rfl)⟩
  case red =>
    intro x s t segs hi n as own hchecks
    exact execRed_spec hi rfl (List.filter_congr fun p _ => (declares_iff t p.2 n).symm) hchecks

end Sys2Proof.Machine
end

section
/-!
PROOFS. The response of a load whose flight lists one lane twice (09 R221), which `LoadsAndAtomicsDeliverTheirLane` allows.
-/

namespace Sys2Proof.Machine

/-- A scalar load of two bytes, at the keys 0 and 128. -/
def twiceLoad : Ext := { Tests.z with ty := .b32, d := 9 }

/-- Its lane, translated: each byte is a piece of its own. -/
def twiceLane : LaneReq := { lane := 0, addr := 0, data := 0, st := .ready [⟨0, 1, 0, 0⟩, ⟨128, 1, 0, 0⟩] }

/-- Its flight, in which the lane stands twice. -/
def twiceFlight : Flight :=
  { Tests.ldsFlight with instr := .lds twiceLoad, lanes := [twiceLane, twiceLane] }

/-- A core whose L1 is full: the line fetched first holds 1 at key 0, where memory holds 0. -/
def fullCore : Core :=
  { Core.reset 0 with l1 := List.replicate 1023 { key := 1, bytes := [] } ++ [{ key := 0, bytes := [(0, 1)] }] }

/-- The device with that flight and that core, and with memory of zeros. -/
def twiceState : State := { Tests.ws with mem := [], cores := [fullCore], flights := [twiceFlight] }

/-- The load sees 1 at its response. -/
theorem twice_loads_one : leNat (loadBytes twiceState 0 7 [⟨0, 1, 0, 0⟩, ⟨128, 1, 0, 0⟩]) = 1 := by decide +kernel

/-- The first of the two lanes fetches the line of key 128, by which the line of key 0 leaves the L1, so
that the second reads 0. -/
theorem twice_leaves_zero : (match exec (.accessResponse 7) twiceState with
    | .next s => (s.team? 1).map (fun t => t.sval 9)
    | _ => none) = some 0 := by decide +kernel

/-- Refutes O27: the response performs the lane twice, and what the first load fetches takes the line that it has read out of the
L1, so that the second sees another value. The clause on loads takes every flight whose lanes other than `r` are done, and so also
one that lists `r` twice, which no issue makes; its clauses on `ldsp` and on atomics ask that the lanes are distinct. -/
theorem not_loadsAndAtomicsDeliverTheirLane : ¬ Obligations.LoadsAndAtomicsDeliverTheirLane := by
  intro h
  obtain ⟨hload, -⟩ := h
  obtain ⟨s', t', hexec, ht', -, -, -, hscalar, -⟩ := hload 7 twiceState twiceFlight (ldstOp 4 twiceLoad) twiceLane
    [⟨0, 1, 0, 0⟩, ⟨128, 1, 0, 0⟩] Tests.wt rfl rfl rfl rfl rfl List.mem_cons_self rfl (by decide) rfl rfl
    (fun w hw => absurd hw List.not_mem_nil) (by decide) (by decide +kernel)
  obtain ⟨hval, -⟩ := hscalar rfl (by decide +kernel) rfl rfl
  have hzero := twice_leaves_zero
  rw [hexec] at hzero
  have hone : t'.sval 9 = 1 := hval.trans (by rw [show Tests.wt.core = 0 from rfl, twice_loads_one]; rfl)
  simp only [show s'.team? 1 = some t' from ht', Option.map_some, hone] at hzero
  exact absurd hzero (by decide)

end Sys2Proof.Machine
end

section
/-!
PROOFS. Latches (10 R251-R255): the effects of group latch at issue, and the arithmetic of an arrival.
-/

namespace Sys2Proof.Machine

/-! ## Effects at issue (10 R253-R255) -/

section
variable {c : C} {s : State}

theorem effLtinit_of_zero (ha : c.opnd s c.x.a 32 0 = 0) : effLtinit c s = .trap s (c.trap 0x05 0x0800) := if_pos ha

theorem effLtinit_of_target {a : Nat} (ha : c.opnd s c.x.a 32 0 = a) (hne : a ≠ 0) :
    effLtinit c s = .done (onLatch s c.t.core c.t.launch c.x.d.toNat
      (fun l => { l with count := 0, target := a, ovr := false })) := by
  simp only [effLtinit, ha, if_neg hne]

/-- `ltarr` arrives once no store of its team stands at a gate or is still to be sent (10 R253). -/
theorem effLtarr_of_stored (hw : ∀ w ∈ s.writes, w.team = c.t.uid → w.path = 0 → w.waits = [])
    (hf : ∀ f ∈ lsFlights s c.t.uid, ∀ m, memOp? f.instr = some m → m.kind ≠ .store) :
    effLtarr c s = .done (arriveAt s c.t.core c.t.launch c.x.d.toNat (c.opnd s c.x.a 32 0)) := by
  refine if_neg ?_
  rw [Bool.not_eq_true, Bool.or_eq_false_iff, List.any_eq_false, List.any_eq_false]
  refine ⟨fun w hmem hgated => ?_, fun f hmem hstore => ?_⟩
  · simp only [Bool.and_eq_true, decide_eq_true_eq, Bool.not_eq_true', List.isEmpty_eq_false_iff] at hgated
    exact hgated.2 (hw w hmem hgated.1.1 hgated.1.2)
  · cases hm : memOp? f.instr with
    | none => simp [hm] at hstore
    | some m => exact hf f hmem m hm (by simpa [hm] using hstore)

/-- `ltwait` goes on with the latch word where the phase differs from the one named, and else parks. -/
theorem effLtwait_of_latch {l : Latch} {b : Nat} (hl : s.latch? c.t.core c.t.launch c.x.a.code.toNat = some l)
    (hb : c.opnd s c.x.b 32 0 % 2 = b) :
    effLtwait c s = if bitNat l.phase ≠ b then .done (c.putS s l.word) else .wait (s.onTeam c.t.uid (fun t =>
      { t with run := .parked .ltwait, aux := [c.x.a.code.toNat, b, c.npc.toNat, c.x.d.toNat] })) := by
  simp only [effLtwait, hl, hb]

/-- `yield.copy` parks while the copy it names is outstanding, and else jumps. -/
theorem effYield_of_copy {id : Nat} {tgt : Word64} (htgt : c.yieldTgt = tgt) (hx : c.x.bit 23 = true)
    (hid : c.opnd s c.x.a 32 0 = id) :
    effYield c s = if (s.core c.t.core).copies.any (fun k => k.id = id) then .wait (s.onTeam c.t.uid (fun t =>
      { t with run := .parked .yield, aux := [1, id, 0, tgt.toNat] })) else .jump s tgt := by
  simp only [effYield, htgt, hx, if_true, hid, copyOut]

/-- `yield` of a latch jumps where the phase differs from the one named, and else parks. -/
theorem effYield_of_latch {l : Latch} {b : Nat} {tgt : Word64} (htgt : c.yieldTgt = tgt) (hx : c.x.bit 23 = false)
    (hl : s.latch? c.t.core c.t.launch c.x.a.code.toNat = some l) (hb : c.opnd s c.x.b 32 0 % 2 = b) :
    effYield c s = if bitNat l.phase ≠ b then .jump s tgt else .wait (s.onTeam c.t.uid (fun t =>
      { t with run := .parked .yield, aux := [0, c.x.a.code.toNat, b, tgt.toNat] })) := by
  simp only [effYield, htgt, hx, Bool.false_eq_true, if_false, hl, hb]

end

/-! ## Arrivals (10 R252) -/

/-- An arrival that leaves the sum below the target only counts. -/
theorem Latch.arrive_of_below {l : Latch} {a : Nat} (h : l.count + a < l.target) :
    l.arrive a = { l with count := l.count + a } := if_neg (Nat.not_le.mpr h)

/-- An arrival that reaches the target once flips the phase and takes the target off. -/
theorem Latch.arrive_of_once {l : Latch} {a : Nat} (hreach : l.target ≤ l.count + a) (honce : l.count + a < 2 * l.target) :
    l.arrive a = { l with phase := !l.phase, count := l.count + a - l.target } :=
  (if_pos hreach).trans (if_neg (by omega))

/-- An arrival that reaches the target twice flips the phase once and notes the overrun. -/
theorem Latch.arrive_of_twice {l : Latch} {a : Nat} (h : 2 * l.target ≤ l.count + a) :
    l.arrive a = { l with phase := !l.phase, count := l.target - 1, ovr := true } :=
  (if_pos (show l.target ≤ l.count + a by omega)).trans (if_pos (by omega))

/-- An arrival at a resident latch is made there, and not at an image. -/
theorem arriveAny_of_latch {s : State} {core launch n : Nat} {l : Latch} (h : s.latch? core launch n = some l) (a : Nat) :
    arriveAny s core launch n a = arriveAt s core launch n a := by
  simp only [arriveAny, h]

/-! ## The obligation -/

/-- Settles O33: each instruction by its effect at issue, LATCH_ARRIVAL by `arriveAny_of_latch`, and an arrival by where the sum
stands against the target. -/
theorem latchesCountAndRelease : Obligations.LatchesCountAndRelease := by
  refine ⟨?init, ?arr, ?wait, ?yield, fun core launch n a s l hl => congrArg _ (arriveAny_of_latch hl a), fun l a _ =>
    ⟨Latch.arrive_of_below, Latch.arrive_of_once, Latch.arrive_of_twice⟩⟩
  case init =>
    intro x s t hi hgo a
    have ha : (ctxAt (.ltinit x) 0x4F 0 (extLen x) x t).opnd s x.a 32 0 = a := opnd_ctxAt ..
    have heff := onGo_of_go (c := ctxAt (.ltinit x) 0x4F 0 (extLen x) x t) hgo effLtinit s
    exact ⟨fun hne => exec_of_done rfl hi (heff.trans (effLtinit_of_target ha hne)),
      fun hzero => exec_of_trap rfl hi (heff.trans (effLtinit_of_zero (ha.trans hzero))) (team?_uid_of_issues hi)⟩
  case arr =>
    intro x s t hi hgo hw hf
    have heff := (onGo_of_go (c := ctxAt (.ltarr x) 0x4F 1 (extLen x) x t) hgo effLtarr s).trans (effLtarr_of_stored hw hf)
    rw [opnd_ctxAt] at heff
    exact exec_of_done rfl hi heff
  case wait =>
    intro x s t l hi hgo hl b
    have hb : (ctxAt (.ltwait x) 0x4F 2 (extLen x) x t).opnd s x.b 32 0 % 2 = b := by rw [opnd_ctxAt]
    have heff := (onGo_of_go (c := ctxAt (.ltwait x) 0x4F 2 (extLen x) x t) hgo effLtwait s).trans (effLtwait_of_latch hl hb)
    exact ⟨fun hne => exec_of_done rfl hi (heff.trans (if_pos hne)),
      fun heq => exec_of_wait rfl hi (heff.trans (if_neg (not_not_intro heq)))⟩
  case yield =>
    intro x s t hi hgo tgt id b
    let c := ctxAt (.yield x) 0x4F 3 (extLen x) x t
    have htgt : c.yieldTgt = tgt := rfl
    have hid : c.opnd s x.a 32 0 = id := opnd_ctxAt ..
    have hb : c.opnd s x.b 32 0 % 2 = b := congrArg (· % 2) (opnd_ctxAt ..)
    have heff := onGo_of_go (c := c) hgo effYield s
    refine ⟨fun hx hout => ?_, fun hx hout => ?_, fun l hx hl hne => ?_, fun l hx hl heq => ?_⟩
    · exact exec_of_jump rfl hi (heff.trans ((effYield_of_copy htgt hx hid).trans (if_neg (ne_true_of_eq_false hout))))
    · exact exec_of_wait rfl hi (heff.trans ((effYield_of_copy htgt hx hid).trans (if_pos hout)))
    · exact exec_of_jump rfl hi (heff.trans ((effYield_of_latch htgt hx hl hb).trans (if_pos hne)))
    · exact exec_of_wait rfl hi (heff.trans ((effYield_of_latch htgt hx hl hb).trans (if_neg (not_not_intro heq))))

end Sys2Proof.Machine
end

section
/-!
PROOFS. Fills and write-backs of scratch lines (10 R230, R236, R238), and the end of a context's use of the pool (R232): what each
event leaves of the line, of memory and of its issuer.
-/

namespace Sys2Proof.Machine

/-! ## The lines of a core -/

/-- A line that became free has no entry. -/
theorem lineOf_freeLine {s : State} {core : Nat} (hcore : core < s.cores.length) (n : Nat) :
    lineOf ((freeLine s core n).core core) n = none := by
  rw [freeLine, core_onCore, if_pos ⟨rfl, hcore⟩, lineOf, List.find?_filter, List.find?_eq_none]
  simp

/-- A change of a line's entry is found there. -/
theorem lineOf_onLine {s : State} {core n : Nat} {l : Line} {f : Line → Line} (hcore : core < s.cores.length)
    (hf : ∀ l, (f l).num = l.num) (hl : lineOf (s.core core) n = some l) :
    lineOf ((onLine s core n f).core core) n = some (f l) := by
  have hnum : l.num = n := by simpa using List.find?_some hl
  have hkeeps : ∀ k : Line, (if k.num = n then f k else k).num = k.num := fun k => by split <;> simp only [hf]
  rw [onLine, core_onCore, if_pos ⟨rfl, hcore⟩, lineOf, List.find?_map]
  simp only [Function.comp_def, hkeeps]
  rw [← lineOf, hl, Option.map_some, if_pos hnum]

/-- The end of a line's transfer changes the team only in what its holds wait for. -/
theorem lineDone_eq (s : State) (core : Nat) (l : Line) : ∃ f : Team → Team, (∀ t, (f t).uid = t.uid) ∧
    (lineDone s core l).teams = s.teams.map f ∧ (lineDone s core l).cores = s.cores := by
  obtain ⟨es, hes⟩ := clearWait_eq (postArrival s core l.latch) (lineKey core l.num)
  have hpost : (postArrival s core l.latch).teams = s.teams ∧ (postArrival s core l.latch).cores = s.cores := by
    unfold postArrival
    split <;> exact ⟨rfl, rfl⟩
  rw [lineDone, hes]
  refine ⟨_, ?_, congrArg (List.map _) hpost.1, hpost.2⟩
  exact fun _ => rfl

theorem core_lineDone (s : State) (core : Nat) (l : Line) (n : Nat) : (lineDone s core l).core n = s.core n := by
  obtain ⟨f, -, -, hcores⟩ := lineDone_eq s core l
  rw [State.core, hcores, State.core]

theorem lineOf_lineDone (s : State) (core : Nat) (l : Line) (n : Nat) :
    lineOf ((lineDone s core l).core core) n = lineOf (s.core core) n := by
  rw [core_lineDone]

/-- A cached translation changes no line and no byte of the scratchpad. -/
theorem tlbFill_eq_onCore (s : State) (core ctx va : Nat) : ∃ f : Core → Core,
    (∀ c, (f c).lines = c.lines ∧ (f c).scratch = c.scratch) ∧ tlbFill s core ctx va = s.onCore core f := by
  unfold tlbFill
  split
  · refine ⟨_, ?_, rfl⟩
    exact fun _ => ⟨rfl, rfl⟩
  · refine ⟨id, fun _ => ⟨rfl, rfl⟩, ?_⟩
    rw [State.onCore, List.modify_id]

theorem tlbFill_frame (s : State) (core ctx va n : Nat) : (tlbFill s core ctx va).cores.length = s.cores.length ∧
    lineOf ((tlbFill s core ctx va).core core) n = lineOf (s.core core) n ∧
    ((tlbFill s core ctx va).core core).scratch = (s.core core).scratch := by
  obtain ⟨f, hf, h⟩ := tlbFill_eq_onCore s core ctx va
  rw [h, core_onCore]
  refine ⟨List.length_modify .., ?_, ?_⟩
  · split
    · rw [lineOf, (hf _).1, lineOf]
    · rfl
  · split
    · exact (hf _).2
    · rfl

/-! ## FILL_COMPLETE and WRITEBACK_COMPLETE (10 R230) -/

/-- The bytes of line n of the scratchpad have arrived. -/
def Core.lineRead (n : Nat) (bs : List Byte) (c : Core) : Core := { c with scratch := c.scratch.setBytes (256 * n) bs }

section
variable {core n : Nat} {s s1 : State} {l : Line}

/-- FILL_COMPLETE of a line whose bytes can be read. -/
theorem execFillComplete_of_read {bs : List Byte} (hl : lineOf (s.core core) n = some l) (hst : l.st = .filling)
    (hfirst : lineBehind s core l = false) (hs1 : tlbFill s core l.ctx (tagAddr l.tag) = s1)
    (hread : readVA s1 core l.ctx (tagAddr l.tag) 256 = .ok bs) :
    execFillComplete core n s = .next (lineDone (onLine (s1.onCore core (Core.lineRead n bs)) core n
      (fun l => { l with st := .valid, dirty := false })) core l) := by
  simp only [execFillComplete, hl, hst, ne_eq, not_true_eq_false, if_false, hfirst, Bool.false_eq_true, hs1, hread]
  rfl

/-- WRITEBACK_COMPLETE of a line whose page can be written. -/
theorem execWritebackComplete_of_written {s2 : State} (hl : lineOf (s.core core) n = some l) (hst : l.st = .evicting)
    (hfirst : lineBehind s core l = false) (hs1 : tlbFill s core l.ctx (tagAddr l.tag) = s1)
    (hwrite : writeVA s1 core l.ctx (tagAddr l.tag) ((s1.core core).scratch.bytes (256 * n) 256) = .ok s2) :
    execWritebackComplete core n s = .next (lineDone (freeLine s2 core n) core l) := by
  simp only [execWritebackComplete, hl, hst, ne_eq, not_true_eq_false, if_false, hfirst, Bool.false_eq_true, hs1, hwrite]

/-- What FILL_COMPLETE leaves of the line, the scratchpad and memory. -/
theorem fillComplete_fills {bs : List Byte} (hl : lineOf (s.core core) n = some l) (hst : l.st = .filling)
    (hcore : core < s.cores.length) (hfirst : lineBehind s core l = false)
    (hs1 : tlbFill s core l.ctx (tagAddr l.tag) = s1) (hread : readVA s1 core l.ctx (tagAddr l.tag) 256 = .ok bs) :
    ∃ s', exec (.fillComplete core n) s = .next s' ∧
      lineOf (s'.core core) n = some { l with st := .valid, dirty := false } ∧
      (s'.core core).scratch = (s.core core).scratch.setBytes (256 * n) bs ∧ s'.mem = s.mem := by
  obtain ⟨hlen, hline, hscratch⟩ := hs1 ▸ tlbFill_frame s core l.ctx (tagAddr l.tag) n
  have hmem : s1.mem = s.mem := hs1 ▸ tlbFill_mem ..
  have hcore1 : core < s1.cores.length := hlen ▸ hcore
  have hcore2 : core < (s1.onCore core (Core.lineRead n bs)).cores.length := by
    rw [State.onCore, List.length_modify]
    exact hcore1
  have hput : (s1.onCore core (Core.lineRead n bs)).core core = (s1.core core).lineRead n bs :=
    (core_onCore ..).trans (if_pos ⟨rfl, hcore1⟩)
  refine ⟨_, execFillComplete_of_read hl hst hfirst hs1 hread, ?_, ?_, ?_⟩
  · rw [lineOf_lineDone]
    exact lineOf_onLine (f := fun l => { l with st := .valid, dirty := false }) hcore2 (fun _ => rfl)
      ((congrArg (lineOf · n) hput).trans (hline.trans hl))
  · rw [core_lineDone, onLine, core_onCore, if_pos ⟨rfl, hcore2⟩, ← hscratch]
    exact congrArg Core.scratch hput
  · rw [lineDone_mem, onLine_mem, State.onCore_mem, hmem]

/-- What WRITEBACK_COMPLETE leaves of the line and of memory. -/
theorem writebackComplete_writes {segs : List Seg} (hl : lineOf (s.core core) n = some l) (hst : l.st = .evicting)
    (hcore : core < s.cores.length) (hfirst : lineBehind s core l = false)
    (hs1 : tlbFill s core l.ctx (tagAddr l.tag) = s1)
    (hsegs : piecesOf s1 core l.ctx .write (tagAddr l.tag) 256 = .ok segs) :
    ∃ s', exec (.writebackComplete core n) s = .next s' ∧ lineOf (s'.core core) n = none ∧
      s'.mem = s.mem.setAll ((segKeys segs).zip ((s.core core).scratch.bytes (256 * n) 256)) := by
  obtain ⟨hlen, -, hscratch⟩ := hs1 ▸ tlbFill_frame s core l.ctx (tagAddr l.tag) n
  have hmem : s1.mem = s.mem := hs1 ▸ tlbFill_mem ..
  have hwrite : writeVA s1 core l.ctx (tagAddr l.tag) ((s1.core core).scratch.bytes (256 * n) 256) =
      .ok (s1.apply ((segKeys segs).zip ((s1.core core).scratch.bytes (256 * n) 256))) := by
    simp only [writeVA, Memory.bytes, List.length_map, List.length_range, hsegs]
  obtain ⟨es, happly⟩ := apply_eq s1 ((segKeys segs).zip ((s1.core core).scratch.bytes (256 * n) 256))
  refine ⟨_, execWritebackComplete_of_written hl hst hfirst hs1 hwrite, ?_, ?_⟩
  · rw [lineOf_lineDone]
    refine lineOf_freeLine ?_ n
    rw [happly]
    exact hlen ▸ hcore
  · rw [lineDone_mem, freeLine_mem, apply_mem, hmem, hscratch]

end

/-! ## FILL_FAILURE and WRITEBACK_FAILURE (10 R230, R238) -/

section
variable {core n cause : Nat} {s : State} {l : Line}

theorem execFillFailure_of_filling (hl : lineOf (s.core core) n = some l) (hst : l.st = .filling) :
    execFillFailure core n cause s = .next (addPending (lineDone (freeLine s core n) core l) l.team
      (engineTrap (cause / 256) (cause % 256 * 256 + 1) (tagAddr l.tag) [])) := by
  simp only [execFillFailure, hl, hst, ne_eq, not_true_eq_false, if_false]

theorem execWritebackFailure_of_evicting (hl : lineOf (s.core core) n = some l) (hst : l.st = .evicting) :
    execWritebackFailure core n cause s = .next (addPending (lineDone (onLine s core n
      (fun l => { l with st := .valid, dirty := true })) core l) l.team
      (engineTrap (cause / 256) (cause % 256 * 256 + 1) (tagAddr l.tag) [])) := by
  simp only [execWritebackFailure, hl, hst, ne_eq, not_true_eq_false, if_false]

end

/-- An imprecise trap that shares no instruction with another becomes pending at its team. -/
theorem team?_addPending {s : State} {u : Nat} {tr : Trap} (hop : tr.op = 0) (h : ∃ t, s.team? u = some t) :
    ∃ t, (addPending s u tr).team? u = some t ∧ tr ∈ t.pending := by
  obtain ⟨t, ht⟩ := h
  refine ⟨_, team_onTeam_same (fun t => ?_) ht, ?_⟩
  · split <;> rfl
  · simp [hop]

/-- The issuer of a line whose transfer failed has the trap of the failure pending (10 R230). -/
theorem team?_failed {s : State} {core cause : Nat} {l : Line} (h : ∃ t, s.team? l.team = some t) :
    ∃ t, (addPending (lineDone s core l) l.team
      (engineTrap (cause / 256) (cause % 256 * 256 + 1) (tagAddr l.tag) [])).team? l.team = some t ∧
      ∃ p ∈ t.pending, p.code = cause / 256 ∧ p.sub = cause % 256 * 256 + 1 := by
  obtain ⟨f, hf, hteams, -⟩ := lineDone_eq s core l
  obtain ⟨t, ht, hp⟩ := team?_addPending (tr := engineTrap (cause / 256) (cause % 256 * 256 + 1) (tagAddr l.tag) []) rfl
    (exists_team_map hf hteams h)
  exact ⟨t, ht, _, hp, rfl, rfl⟩

/-! ## POOL_USE_END (10 R232) -/

/-- Some lines in turn become free: none that stays has the number of one of them. -/
theorem mem_lines_foldl_freeLine {core : Nat} (ls : List Line) {s : State} (hcore : core < s.cores.length) {k : Line}
    (hk : k ∈ ((ls.foldl (fun s l => freeLine s core l.num) s).core core).lines) :
    k ∈ (s.core core).lines ∧ ∀ l ∈ ls, k.num ≠ l.num := by
  induction ls generalizing s with
  | nil => exact ⟨hk, fun _ h => absurd h List.not_mem_nil⟩
  | cons l ls ih =>
    have hcore' : core < (freeLine s core l.num).cores.length := by
      rw [freeLine, State.onCore, List.length_modify]
      exact hcore
    obtain ⟨hmem, hothers⟩ := ih hcore' hk
    rw [freeLine, core_onCore, if_pos ⟨rfl, hcore⟩, List.mem_filter] at hmem
    exact ⟨hmem.1, List.forall_mem_cons.mpr ⟨of_decide_eq_true hmem.2, hothers⟩⟩

/-- The lines of a context that are not free. -/
def poolLines (s : State) (core ctx : Nat) : List Line := (s.core core).lines.filter (fun l => l.ctx = ctx && l.st ≠ .free)

theorem mem_poolLines {s : State} {core ctx : Nat} {l : Line} :
    l ∈ poolLines s core ctx ↔ l ∈ (s.core core).lines ∧ l.ctx = ctx ∧ l.st ≠ .free := by
  rw [poolLines, List.mem_filter, Bool.and_eq_true, decide_eq_true_iff, decide_eq_true_iff]

section
variable {core ctx : Nat} {s : State}

/-- A context whose lines are clean and at rest loses them all at once. -/
theorem execPoolUseEnd_of_clean (hclean : ∀ l ∈ (s.core core).lines, l.ctx = ctx → l.st = .valid ∧ l.dirty = false)
    (hcopies : (s.core core).copies.any (fun k => k.ctx = ctx && !k.held && k.ofPool (s.core core)) = false) :
    execPoolUseEnd core ctx s =
      .next (wakeLaunches ((poolLines s core ctx).foldl (fun s l => freeLine s core l.num) s)) := by
  have hmine : ∀ l ∈ poolLines s core ctx, l.st = .valid ∧ l.dirty = false := fun l hl =>
    have ⟨hmem, hctx, _⟩ := mem_poolLines.mp hl
    hclean l hmem hctx
  have hbusy : (poolLines s core ctx).any (fun l => l.st = .filling || l.st = .evicting) = false :=
    List.any_eq_false.mpr fun l hl => by simp [(hmine l hl).1]
  have hdirty : (poolLines s core ctx).filter (fun l => l.st = .valid && l.dirty) = [] :=
    List.filter_eq_nil_iff.mpr fun l hl => by simp [(hmine l hl).2]
  have hrest : (poolLines s core ctx).filter (fun l => !(l.st = .valid && l.dirty)) = poolLines s core ctx :=
    List.filter_eq_self.mpr fun l hl => by simp [(hmine l hl).2]
  have hflush : flushLines core ctx ((poolLines s core ctx).filter (fun l => l.st = .valid && l.dirty)) s = .ok s := by
    rw [hdirty]
    rfl
  simp only [poolLines] at hbusy hflush hrest ⊢
  simp only [execPoolUseEnd, hbusy, hcopies, hflush, hrest, Bool.or_self, Bool.false_eq_true, if_false]

/-- While a line of the context moves, the end only becomes due again. -/
theorem execPoolUseEnd_of_busy {l : Line} (hl : l ∈ (s.core core).lines) (hctx : l.ctx = ctx)
    (hst : l.st = .filling ∨ l.st = .evicting) : execPoolUseEnd core ctx s = .next (s.post (.poolUseEnd core ctx)) := by
  refine if_pos (Bool.or_eq_true_iff.mpr (.inl (List.any_eq_true.mpr ⟨l, mem_poolLines.mpr ⟨hl, hctx, ?_⟩, ?_⟩)))
  · rcases hst with h | h <;> rw [h] <;> decide
  · rcases hst with h | h <;> rw [h] <;> decide

end

/-- The end of pool use of a clean context leaves it no line, and memory as it was. -/
theorem poolUseEnd_frees {core ctx : Nat} {s : State} (hcore : core < s.cores.length)
    (hclean : ∀ l ∈ (s.core core).lines, l.ctx = ctx → l.st = .valid ∧ l.dirty = false)
    (hcopies : (s.core core).copies.any (fun k => k.ctx = ctx && !k.held && k.ofPool (s.core core)) = false) :
    ∃ s', exec (.poolUseEnd core ctx) s = .next s' ∧ (∀ l ∈ (s'.core core).lines, l.ctx ≠ ctx) ∧ s'.mem = s.mem := by
  refine ⟨_, execPoolUseEnd_of_clean hclean hcopies, fun l hl hctx => ?_, ?_⟩
  · obtain ⟨es, hes⟩ := foldl_postOnce_eq (fun l : Launch => .teamPlacement l.id []) _
      ((poolLines s core ctx).foldl (fun s l => freeLine s core l.num) s)
    rw [wakeLaunches, hes] at hl
    obtain ⟨hmem, hothers⟩ := mem_lines_foldl_freeLine (poolLines s core ctx) hcore hl
    have hvalid := (hclean l hmem hctx).1
    exact hothers l (mem_poolLines.mpr ⟨hmem, hctx, by rw [hvalid]; decide⟩) rfl
  · rw [wakeLaunches_mem]
    exact foldl_mem _ (fun _ _ => freeLine_mem ..) _ _

/-! ## The obligation -/

/-- Settles O35: each event is run to the state it answers, whose lines, scratchpad, memory and issuer are then read. -/
theorem lineTransfersFillAndWriteBack : Obligations.LineTransfersFillAndWriteBack := by
  refine ⟨?fill, ?fillFailure, ?writeback, ?writebackFailure, ?poolEnd, fun core ctx s l hl hctx hst =>
    execPoolUseEnd_of_busy hl hctx hst⟩
  case fill =>
    intro core n s l bs hl hst hcore hfirst s1 hread
    obtain ⟨s', hs', hline, hscratch, hmem⟩ := fillComplete_fills hl hst hcore hfirst rfl hread
    exact ⟨s', _, hs', hline, rfl, rfl, rfl, rfl, hscratch, fun a => congrArg (·.get a) hmem⟩
  case fillFailure =>
    intro core n cause s l t hl hst ht hcore
    obtain ⟨t', ht', htrap⟩ := team?_failed (s := freeLine s core n) (core := core) (cause := cause) ⟨t, ht⟩
    exact ⟨_, t', execFillFailure_of_filling hl hst, (lineOf_lineDone ..).trans (lineOf_freeLine hcore n), ht', htrap⟩
  case writeback =>
    intro core n s l segs hl hst hcore hfirst s1 hsegs
    exact writebackComplete_writes hl hst hcore hfirst rfl hsegs
  case writebackFailure =>
    intro core n cause s l t hl hst ht hcore
    obtain ⟨t', ht', htrap⟩ := team?_failed (s := onLine s core n (fun l => { l with st := .valid, dirty := true }))
      (core := core) (cause := cause) ⟨t, ht⟩
    refine ⟨_, { l with st := .valid, dirty := true }, t', execWritebackFailure_of_evicting hl hst, ?_, rfl, rfl, fun a => ?_,
      ht', htrap⟩
    · exact (lineOf_lineDone ..).trans
        (lineOf_onLine (f := fun l => { l with st := .valid, dirty := true }) hcore (fun _ => rfl) hl)
    · rw [addPending_mem, lineDone_mem, onLine_mem]
  case poolEnd =>
    intro core ctx s hcore hclean hcopies
    obtain ⟨s', hs', hlines, hmem⟩ := poolUseEnd_frees hcore hclean hcopies
    exact ⟨s', hs', hlines, fun a => congrArg (·.get a) hmem⟩

end Sys2Proof.Machine
end

section
/-!
PROOFS. The copy engine (10 R239-R250): the effects of group copy at issue, the read of a descriptor, and the end of a copy.
-/

namespace Sys2Proof.Machine

/-! ## Effects at issue (10 R239, R240, R247-R250) -/

section
variable {c : C} {s : State}

/-- The rows that a `cpyg` names at issue; a `cpy` names none (10 R248). -/
def C.copyRows (c : C) (gather : Bool) : Option (List Nat) :=
  if gather then some (c.actives.map (fun l => (c.t.lane c.x.b.code.toNat l).toNat)) else none

/-- The flight that reads the descriptor of a copy has started, behind the stores of its team (10 R240). -/
def C.startDescRead (c : C) (s : State) (gather : Bool) : State :=
  let r := c.launch s ((if gather then c.actives else [0]).map (fun l =>
    { lane := l, addr := BitVec.ofNat 64 (c.base s),
      data := BitVec.ofNat 64 (if gather then (c.t.lane c.x.b.code.toNat l).toNat else 0), st := .todo })) [] [0] true
  { r with flights := r.flights.map (fun (f : Flight) =>
      if f.id = s.nextId then { f with waits := storesBefore s c.t.uid } else f) }.post (.copyDescriptorRead c.t.core s.nextId)

/-- A gather that names a lane executes, and every other copy does. -/
theorem copy_executes {gather : Bool} (h : gather = true → c.any = true) : (gather && !c.any) = false := by
  cases gather with
  | false => rfl
  | true => rw [h rfl]; rfl

/-- A copy of a descriptor in scratch starts at once. -/
theorem effCpy_of_scratch {gather : Bool} (hany : gather = true → c.any = true) (hfull : copiesFull s c.t.core = false)
    (hal : offAddr c.x (c.base s) % 128 = 0) (hx : c.x.bit 14 = true)
    (hok : scratchOk (s.core c.t.core) c.t.place c.t.ctx (offAddr c.x (c.base s)) 128 = true)
    (hheld : scratchHeld (s.core c.t.core) c.t.place c.t.ctx (offAddr c.x (c.base s)) 128 = false) :
    effCpy gather c s = .done (startCopy s c.t c.x.d.toNat (parseCopy ((s.core c.t.core).scratch.bytes
      (offAddr c.x (c.base s)) 128) (c.copyRows gather) (latchCount s c.t)) (c.copyRows gather)) := by
  simp only [effCpy, copy_executes hany, hal, hx, hok, hfull, hheld, ne_eq, not_true_eq_false, Bool.not_true, Bool.and_false,
    Bool.false_eq_true, if_false, if_true, C.copyRows]

/-- A copy of a descriptor in memory puts its read in flight. -/
theorem effCpy_of_memory {gather : Bool} (hany : gather = true → c.any = true) (hfull : copiesFull s c.t.core = false)
    (hal : offAddr c.x (c.base s) % 128 = 0) (hx : c.x.bit 14 = false) :
    effCpy gather c s = .done (c.startDescRead s gather) := by
  simp only [effCpy, copy_executes hany, hal, hx, hfull, ne_eq, not_true_eq_false, Bool.false_and, Bool.false_eq_true, if_false,
    C.startDescRead]

theorem effCpyw_of_room (hfull : copiesFull s c.t.core = false) :
    effCpyw c s = .done (startCopy s c.t c.x.d.toNat (wordCopy (c.t.sval (c.x.a.code.toNat + 0)).toNat
      (c.t.sval (c.x.a.code.toNat + 1)).toNat (c.t.sval (c.x.a.code.toNat + 2)).toNat
      (c.t.sval (c.x.a.code.toNat + 3)).toNat (latchCount s c.t)) none) :=
  if_neg (ne_true_of_eq_false hfull)

/-- The end word of a copy that is over: the one noted, or that of an unknown copy (10 R250). -/
def endWord (s : State) (core id : Nat) : Word64 :=
  match (s.core core).ended.find? (fun e => e.1 = id) with
  | some (_, code, cause, idx) => copyWord code cause idx
  | none => copyWord 6 0 0

theorem effCpyq_of_ended {id : Nat} (hid : (c.sc64 s c.x.a).toNat = id)
    (hout : (s.core c.t.core).copies.any (fun k => k.id = id) = false) :
    effCpyq c s = .done (c.putS s (endWord s c.t.core id)) := by
  simp only [effCpyq, copyOut, hid, hout, Bool.false_eq_true, if_false]
  rfl

end

/-- `cpy` and `cpyg` start their copy or the read of its descriptor as R239 and R240 say. -/
theorem copyIssue_of_effCpy {mk : Ext → Instr} {sub : Nat} {gather : Bool}
    (hexec : ∀ x s, exec (mk x) s = issue (mk x) 0x4E sub (extLen x) x (onGo (effCpy gather)) s) : CopyIssue mk sub gather := by
  intro x s t hi hgo base va row rows hany hfull hal
  have hbase : (ctxAt (mk x) 0x4E sub (extLen x) x t).base s = base := base_ctxAt ..
  have heff := onGo_of_go (c := ctxAt (mk x) 0x4E sub (extLen x) x t) hgo (effCpy gather) s
  refine ⟨fun hx hok hheld => ?_, fun hx => ?_⟩
  · have h := heff.trans (effCpy_of_scratch hany hfull (hbase ▸ hal) hx (hbase ▸ hok) (hbase ▸ hheld))
    rw [hbase] at h
    exact exec_of_done (hexec x s) hi h
  · have h := heff.trans (effCpy_of_memory hany hfull (hbase ▸ hal) hx)
    rw [C.startDescRead, hbase] at h
    exact exec_of_done (hexec x s) hi h

/-! ## COPY_DESCRIPTOR_READ (10 R240) -/

/-- A descriptor that waits for nothing and can be read starts its copy. -/
theorem execCopyDescriptorRead_of_read {core id : Nat} {s : State} {f : Flight} {t : Team} {x : Ext} {r : LaneReq}
    {rs : List LaneReq} {segs : List Seg} (hf : s.flight? id = some f) (ht : s.team? f.team = some t)
    (hx : copyExt f.instr = some x) (hw : f.waits = []) (hr : f.lanes = r :: rs)
    (hfirst : descBehind (tlbFill s core t.ctx (offAddr x r.addr.toNat)) t (offAddr x r.addr.toNat) = false)
    (hsegs : piecesOf (tlbFill s core t.ctx (offAddr x r.addr.toNat)) core t.ctx .read (offAddr x r.addr.toNat) 128 = .ok segs) :
    let s1 := tlbFill s core t.ctx (offAddr x r.addr.toNat)
    execCopyDescriptorRead core id s = .next (clearWait (endFlight (startCopy s1 t x.d.toNat
      (parseCopy ((segKeys segs).map (fun k => coreByte s1 core false k)) f.rows (latchCount s1 t)) f.rows)
      { f with lanes := [] }) id) := by
  simp only [execCopyDescriptorRead, hf, ht, hx, hr, hw, hfirst, hsegs, List.isEmpty_nil, Bool.not_true, Bool.or_self,
    Bool.false_eq_true, if_false]

/-! ## COPY_COMPLETE (10 R243-R245) -/

/-- A copy whose units move at its completion: it is outstanding, well described, within bounds, and waits for nothing. -/
structure CopyRuns (s : State) (core id : Nat) (k : Copy) (e : CopyEnv) : Prop where
  found : (s.core core).copies.find? (fun c => c.id = id) = some k
  running : k.held = false
  good : k.desc.bad = false
  env : copyEnv s core k = .ok e
  inside : copyOutside s core k e = false
  ready : copyWaits s core k e = false
  first : copyBehind s core k = false

section
variable {s s1 : State} {core id : Nat} {k : Copy} {e : CopyEnv}

/-- A copy whose units all move ends with code 0. -/
theorem CopyRuns.exec_moved (h : CopyRuns s core id k e) (hmove : moveUnits core k e k.units s = (s1, none)) :
    execCopyComplete core id s = .next (endCopy s1 core k 0 0 0) := by
  simp only [execCopyComplete, h.found, h.running, h.good, h.env, h.inside, h.ready, h.first, hmove, Bool.or_self,
    Bool.false_eq_true, if_false]

/-- A copy that a unit stops is left at that unit. -/
theorem CopyRuns.exec_stopped {stop : CopyStop} (h : CopyRuns s core id k e)
    (hmove : moveUnits core k e k.units s = (s1, some stop)) :
    execCopyComplete core id s = .next (copyStopped s s1 core k stop) := by
  simp only [execCopyComplete, h.found, h.running, h.good, h.env, h.inside, h.ready, h.first, hmove, Bool.or_self,
    Bool.false_eq_true, if_false]

/-- A copy of a bad description ends with code 5. -/
theorem execCopyComplete_of_bad (hk : (s.core core).copies.find? (fun c => c.id = id) = some k) (hheld : k.held = false)
    (hbad : k.desc.bad = true) : execCopyComplete core id s = .next (endCopy s core k 5 0 0) := by
  simp only [execCopyComplete, hk, hheld, hbad, Bool.false_eq_true, if_false, if_true]

/-- A unit whose bytes go to a range that the issuer's open task declares ends its copy (14 R320). -/
theorem writeUnit_of_declared {u va : Nat} {t : Team} {bs : List Byte} (ht : s.team? k.team = some t)
    (hloc : k.dstLoc (s.core core) e u = .mem va) (hdecl : t.declares va bs.length = true) :
    writeUnit s core k e u bs = .error (.ended 3 8 u) := by
  simp only [writeUnit, hloc, ht, hdecl, if_true]

end

/-! ## The obligation -/

/-- Settles O36: the instructions by their effects at issue, the events by what each leads to under its conditions. -/
theorem copiesStartRunAndEnd : Obligations.CopiesStartRunAndEnd := by
  refine ⟨copyIssue_of_effCpy fun _ _ => rfl, copyIssue_of_effCpy fun _ _ => rfl, ?words, ?query, ?read, ?moved, ?stopped,
    fun core k e u s t va bs ht hloc hdecl => ⟨s, writeUnit_of_declared ht hloc hdecl, rfl⟩,
    fun core id s k hk hheld hbad => execCopyComplete_of_bad hk hheld hbad⟩
  case words =>
    intro x s t hi hgo hfull w
    exact exec_of_done rfl hi
      ((onGo_of_go (c := ctxAt (.cpyw x) 0x4E 2 (extLen x) x t) hgo effCpyw s).trans (effCpyw_of_room hfull))
  case query =>
    intro x s t hi hgo hout
    have hid := toNat_sc64_ctxAt (.cpyq x) 0x4E 3 (extLen x) x t s x.a
    exact exec_of_done rfl hi
      ((onGo_of_go (c := ctxAt (.cpyq x) 0x4E 3 (extLen x) x t) hgo effCpyq s).trans (effCpyq_of_ended hid hout))
  case read =>
    intro core id s f t x r rs segs hf ht hx hw hr va s1 hfirst hsegs
    exact execCopyDescriptorRead_of_read hf ht hx hw hr hfirst hsegs
  case moved =>
    intro core id s k e s1 hk hheld hgood henv hin hready hfirst hmove
    exact CopyRuns.exec_moved ⟨hk, hheld, hgood, henv, hin, hready, hfirst⟩ hmove
  case stopped =>
    intro core id s k e s1 code cause idx hk hheld hgood henv hin hready hfirst hmove
    exact CopyRuns.exec_stopped ⟨hk, hheld, hgood, henv, hin, hready, hfirst⟩ hmove

end Sys2Proof.Machine
end

section
/-!
PROOFS. Fences, the heartbeat and the events of `mwait` (11 R261, R271-R274, R280): what a fence waits for, its effect at issue, the
holds of a team after a change, and the read of a parked `mwait`.
-/

namespace Sys2Proof.Machine

/-! ## What a fence waits for (11 R258, R271) -/

theorem mem_lsFlights {s : State} {u : Nat} {f : Flight} : f ∈ lsFlights s u ↔
    f ∈ s.flights ∧ f.team = u ∧ ∃ m, memOp? f.instr = some m ∧ m.kind ≠ .red := by
  rw [lsFlights, State.flightsOf, List.mem_filter, List.mem_filter]
  cases hm : memOp? f.instr <;> simp [and_assoc]

theorem MemKind.load_or_atomic_iff (k : MemKind) : k = .load ∨ k = .atomic ↔ k ≠ .red ∧ k ≠ .store := by
  cases k <;> decide

/-- A fence of kind acquire waits for the reads of its team on `ls`. -/
theorem mem_readWaits {s : State} {u i : Nat} : i ∈ readWaits s u ↔ ∃ f ∈ s.flights, f.team = u ∧ f.id = i ∧
    ∃ m, memOp? f.instr = some m ∧ (m.kind = .load ∨ m.kind = .atomic) := by
  simp only [readWaits, List.mem_map, List.mem_filter, mem_lsFlights, MemKind.load_or_atomic_iff]
  refine exists_congr fun f => ?_
  cases hm : memOp? f.instr with
  | none => simp
  | some m =>
    simp only [Option.some.injEq, exists_eq_left', decide_eq_true_eq]
    tauto

theorem BufWrite.seenBy_iff {w : BufWrite} {core : Nat} :
    w.seenBy core = true ↔ w.core = core ∧ w.path = 0 ∧ w.waits = [] := by
  simp [BufWrite.seenBy, and_assoc]

/-- A release or fence waits for the team's flights on `ls`, for its own writes there that are not performed at the scope, and
beyond scope `core` for those that its core's loads can have read. -/
theorem mem_lsWaits {s : State} {u scope i : Nat} : i ∈ lsWaits s u scope ↔
    (∃ f ∈ s.flights, f.team = u ∧ f.id = i ∧ ∃ m, memOp? f.instr = some m ∧ m.kind ≠ .red) ∨
    (∃ w ∈ s.writes, w.id = i ∧ w.path = 0 ∧ ((w.team = u ∧ (2 ≤ scope ∨ w.waits ≠ [])) ∨
      (2 ≤ scope ∧ w.waits = [] ∧ ∃ t, s.team? u = some t ∧ w.core = t.core))) := by
  rw [lsWaits, List.mem_append]
  refine or_congr ?_ ?_
  · simp only [List.mem_map, mem_lsFlights]
    exact exists_congr fun f => by tauto
  · simp only [List.mem_map, List.mem_filter]
    refine exists_congr fun w => ?_
    simp only [Bool.or_eq_true, Bool.and_eq_true, decide_eq_true_eq, Bool.not_eq_true', List.isEmpty_eq_false_iff,
      Option.any_eq_true, BufWrite.seenBy_iff]
    constructor
    · rintro ⟨⟨hw, ⟨⟨hteam, hpath⟩, hscope⟩ | ⟨hscope, t, ht, hcore, hpath, hnil⟩⟩, hid⟩
      · exact ⟨hw, hid, hpath, .inl ⟨hteam, hscope⟩⟩
      · exact ⟨hw, hid, hpath, .inr ⟨hscope, hnil, t, ht, hcore⟩⟩
    · rintro ⟨hw, hid, hpath, ⟨hteam, hscope⟩ | ⟨hscope, hnil, t, ht, hcore⟩⟩
      · exact ⟨⟨hw, .inl ⟨⟨hteam, hpath⟩, hscope⟩⟩, hid⟩
      · exact ⟨⟨hw, .inr ⟨hscope, t, ht, hcore, hpath, hnil⟩⟩, hid⟩

/-! ## fence and xfence at issue (11 R261, R271, R272) -/

/-- What the holds of a `fence` have in common. -/
def C.fenceHold (c : C) (s : State) : Hold :=
  { waits := [], paths := holdAll, writesOnly := false, scope := c.x.f 4 2, sc := false, dropL1 := false, heart := none,
    op := s.nextId, pc := c.t.pc, npc := c.npc, instr := c.i }

/-- The hold of a `fence` that acquires. -/
def C.acquireHold (c : C) (s : State) : Hold :=
  { c.fenceHold s with waits := readWaits s c.t.uid, dropL1 := decide (2 ≤ c.x.f 4 2) }

/-- The hold of a `fence` that releases. -/
def C.releaseHold (c : C) (s : State) : Hold :=
  { c.fenceHold s with waits := lsWaits s c.t.uid (c.x.f 4 2), paths := 1, writesOnly := true }

/-- The hold of a `fence` of kind sc. -/
def C.scHold (c : C) (s : State) : Hold :=
  { c.acquireHold s with waits := lsWaits s c.t.uid (c.x.f 4 2), sc := true }

/-- The state in which a `fence` has put its holds, by its kind. -/
def C.withFence (c : C) (s : State) : State :=
  let s1 := { s with nextId := s.nextId + 1 }
  if c.x.f 1 0 = 0 then addHold s1 c.t.uid (c.acquireHold s)
  else if c.x.f 1 0 = 1 then addHold s1 c.t.uid (c.releaseHold s)
  else if c.x.f 1 0 = 2 then addHold (addHold s1 c.t.uid (c.acquireHold s)) c.t.uid (c.releaseHold s)
  else addHold s1 c.t.uid (c.scHold s)

section
variable {c : C} {s : State}

theorem effFence_of_team (h : c.x.f 4 2 = 0) :
    effFence c s = .done (s.onTeam c.t.uid (fun t => { t with ordAt := s.nextId })) := if_pos h

theorem effFence_of_wider (h : c.x.f 4 2 ≠ 0) : effFence c s = .done (advanceHolds (c.withFence s) c.t.uid) := by
  simp only [effFence, if_neg h, C.withFence]
  generalize c.x.f 1 0 = sem
  match sem with
  | 0 => rfl
  | 1 => rfl
  | 2 => rfl
  | n + 3 => rfl

end

/-- The caches that an `xfence` drops at issue, by the mask of its destination paths. -/
def xfenceDrops (s : State) (core dst : Nat) : State :=
  let s1 := if dst.testBit 0 then l1Drop s core else s
  if dst.testBit 5 then texDrop s1 core else s1

theorem xfenceDrops_nextId (s : State) (core dst : Nat) : (xfenceDrops s core dst).nextId = s.nextId := by
  unfold xfenceDrops
  dsimp only
  split <;> split <;> rfl

/-- The hold of an `xfence`. -/
def C.xfenceHold (c : C) (s : State) : Hold :=
  { waits := pathWaits s c.t (c.x.f 7 0) (c.x.f 15 8) (c.x.f 18 16), paths := c.x.f 15 8, writesOnly := false,
    scope := c.x.f 18 16, sc := false, dropL1 := (c.x.f 15 8).testBit 0, heart := none, op := s.nextId, pc := c.t.pc,
    npc := c.npc, instr := c.i }

theorem effXfence_eq (c : C) (s : State) : effXfence c s =
    let s0 := xfenceDrops s c.t.core (c.x.f 15 8)
    .done (advanceHolds (addHold { s0 with nextId := s.nextId + 1 } c.t.uid { c.xfenceHold s0 with op := s.nextId }) c.t.uid) := by
  simp only [C.xfenceHold, ← xfenceDrops_nextId s c.t.core (c.x.f 15 8)]
  rfl

/-! ## The holds of a team after a change (11 R271, R274) -/

/-- A hold that has drained and needs the heartbeat has read its counter. -/
def Hold.timed (beat : Nat) (h : Hold) : Hold :=
  if h.waits.isEmpty && h.sc && 4 ≤ h.scope && h.heart.isNone then { h with heart := some (beat + 1) } else h

/-- The holds that are not over. -/
def holdsLeft (beat : Nat) (hs : List Hold) : List Hold := (hs.map (Hold.timed beat)).filter (fun h => !h.over beat)

theorem Hold.timed_of_waits {h : Hold} (hw : h.waits ≠ []) (beat : Nat) : h.timed beat = h := by
  simp [Hold.timed, hw]

theorem Hold.over_of_waits {h : Hold} (hw : h.waits ≠ []) (beat : Nat) : h.over beat = false := by
  simp [Hold.over, hw]

/-- What still waits for something is held on as it stands. -/
theorem mem_holdsLeft_of_waits {h : Hold} {hs : List Hold} (hmem : h ∈ hs) (hw : h.waits ≠ []) (beat : Nat) :
    h ∈ holdsLeft beat hs :=
  List.mem_filter.mpr ⟨List.mem_map.mpr ⟨h, hmem, h.timed_of_waits hw beat⟩, by rw [h.over_of_waits hw]; rfl⟩

/-- A hold that has read the counter and is not over waits for something, or for a later tick. -/
theorem Hold.timed_waits {h : Hold} {beat : Nat} (hover : (h.timed beat).over beat = false) : (h.timed beat).waits ≠ [] ∨
    ((h.timed beat).sc = true ∧ 4 ≤ (h.timed beat).scope ∧ ∃ n, (h.timed beat).heart = some n ∧ beat < n) := by
  by_cases hw : h.waits = []
  · by_cases hsc : h.sc = true ∧ 4 ≤ h.scope
    · right
      cases hn : h.heart with
      | none => simp [Hold.timed, hw, hsc, hn]
      | some n => simpa [Hold.timed, Hold.over, hw, hsc, hn] using hover
    · have hnone : (h.sc && decide (4 ≤ h.scope)) = false := by simpa using hsc
      have htimed : h.timed beat = h := by simp [Hold.timed, Bool.and_assoc h.waits.isEmpty, hnone]
      have hdone : h.over beat = true := by simp only [Hold.over, hw, hnone]; rfl
      rw [htimed, hdone] at hover
      cases hover
  · left
    rwa [Hold.timed_of_waits hw]

theorem Hold.drops_eq (h : Hold) (s : State) (core : Nat) : ∃ cs, h.drops s core = { s with cores := cs } := by
  unfold Hold.drops
  dsimp only
  split <;> split <;> exact ⟨_, rfl⟩

theorem foldl_drops_eq (core : Nat) (hs : List Hold) (s : State) :
    ∃ cs, hs.foldl (fun s h => h.drops s core) s = { s with cores := cs } := by
  induction hs generalizing s with
  | nil => exact ⟨s.cores, rfl⟩
  | cons h hs ih =>
    obtain ⟨cs, hcs⟩ := h.drops_eq s core
    rw [List.foldl_cons, hcs]
    exact ih _

/-- After a change a team has the holds that are not over; caches are dropped, and a tick may be due. -/
theorem advanceHolds_eq {s : State} {u : Nat} {t : Team} (ht : s.team? u = some t) : ∃ cs es, advanceHolds s u =
    State.onTeam { s with cores := cs, agenda := es } u (fun v => { v with holds := holdsLeft s.beat.toNat t.holds }) := by
  obtain ⟨cs, hcs⟩ := foldl_drops_eq t.core ((t.holds.map (Hold.timed s.beat.toNat)).filter (fun h => h.over s.beat.toNat)) s
  obtain ⟨es, hes⟩ := postOnce_eq { s with cores := cs } .heartbeatTick
  have hset : advanceHolds s u = (if (t.holds.map (Hold.timed s.beat.toNat)).any
      (fun h => h.heart.isSome && !h.over s.beat.toNat) then ({ s with cores := cs } : State).postOnce .heartbeatTick
      else { s with cores := cs }).onTeam u (fun v => { v with holds := holdsLeft s.beat.toNat t.holds }) := by
    rw [← hcs, advanceHolds, ht]
    rfl
  rw [hset]
  split
  · exact ⟨cs, _, by rw [hes]⟩
  · exact ⟨cs, s.agenda, rfl⟩

theorem team?_advanceHolds {s : State} {u : Nat} {t : Team} (ht : s.team? u = some t) :
    (advanceHolds s u).team? u = some { t with holds := holdsLeft s.beat.toNat t.holds } := by
  obtain ⟨cs, es, h⟩ := advanceHolds_eq ht
  rw [h]
  exact team_onTeam_same (fun _ => rfl) ht

@[simp] theorem advanceHolds_beat (s : State) (u : Nat) : (advanceHolds s u).beat = s.beat := by
  cases ht : s.team? u with
  | none => simp only [advanceHolds, ht]
  | some t =>
    obtain ⟨cs, es, h⟩ := advanceHolds_eq ht
    rw [h]
    rfl

theorem foldl_advanceHolds_beat (ts : List Team) (s : State) :
    (ts.foldl (fun s t => advanceHolds s t.uid) s).beat = s.beat := by
  induction ts generalizing s with
  | nil => rfl
  | cons t ts ih => rw [List.foldl_cons, ih, advanceHolds_beat]

theorem execHeartbeatTick_spec (s : State) : ∃ s', exec .heartbeatTick s = .next s' ∧ s'.beat = s.beat + 1 ∧
    (∀ a, s'.mem.get a = s.mem.get a) := by
  refine ⟨_, rfl, foldl_advanceHolds_beat .., fun a => ?_⟩
  rw [foldl_mem _ (fun s (t : Team) => advanceHolds_mem s t.uid)]

theorem execFenceComplete_spec {u : Nat} {s : State} {t : Team} (ht : s.team? u = some t) : ∃ s' t',
    exec (.fenceComplete u) s = .next s' ∧ s'.team? u = some t' ∧
    (∀ h ∈ t'.holds, h.waits ≠ [] ∨ (h.sc = true ∧ 4 ≤ h.scope ∧ ∃ n, h.heart = some n ∧ s.beat.toNat < n)) ∧
    (∀ h ∈ t.holds, h.waits ≠ [] → h ∈ t'.holds) ∧ (∀ a, s'.mem.get a = s.mem.get a) := by
  refine ⟨_, _, rfl, team?_advanceHolds ht, fun h hmem => ?_, fun h hmem hw => mem_holdsLeft_of_waits hmem hw _, fun a => ?_⟩
  · obtain ⟨hmap, hover⟩ := List.mem_filter.mp hmem
    obtain ⟨h0, -, rfl⟩ := List.mem_map.mp hmap
    exact Hold.timed_waits (by simpa using hover)
  · rw [advanceHolds_mem]

/-- Settles O31: `fence` and `xfence` by their effects at issue, what a fence waits for by membership, and the two events by the
holds that `advanceHolds` leaves. -/
theorem fencesHoldTheirPathsUntilDrained : Obligations.FencesHoldTheirPathsUntilDrained := by
  refine ⟨?wider, ?off, ?team, fun _ _ _ _ => mem_lsWaits, fun _ _ _ => mem_readWaits, ?xfence,
    fun _ _ _ ht => execFenceComplete_spec ht, execHeartbeatTick_spec⟩
  case wider =>
    intro x s t hi hgo hscope
    let c := ctxAt (.fence x) 0x4C 0 (extLen x) x t
    exact exec_of_done rfl hi ((onGo_of_go (c := c) hgo effFence s).trans (effFence_of_wider hscope))
  case off =>
    intro x s t hi hgo
    exact exec_of_done rfl hi (if_neg (ne_true_of_eq_false hgo))
  case team =>
    intro x s t hi hgo hscope
    let c := ctxAt (.fence x) 0x4C 0 (extLen x) x t
    exact exec_of_done rfl hi ((onGo_of_go (c := c) hgo effFence s).trans (effFence_of_team hscope))
  case xfence =>
    intro x s t hi hgo
    let c := ctxAt (.xfence x) 0x4C 1 (extLen x) x t
    exact exec_of_done rfl hi ((onGo_of_go (c := c) hgo effXfence s).trans (effXfence_eq c s))

/-! ## A parked mwait (11 R280) -/

section
variable {s : State} {u id : Nat} {t : Team}

theorem mwaitFlight_of_parked (hrun : t.run = .parked .mwait) (hid : t.aux[2]? = some id) : mwaitFlight t = some id :=
  (if_pos hrun).trans hid

/-- A parked `mwait` that is tested again makes the read that it waits for due. -/
theorem mwaitRead_of_parked (ht : s.team? u = some t) (hrun : t.run = .parked .mwait) (hid : t.aux[2]? = some id) :
    mwaitRead s u = s.postOnce (.accessResponse id) := by
  simp only [mwaitRead, ht, Option.bind_some, mwaitFlight_of_parked hrun hid]

/-- A timeout that is due marks the wait as timed out and makes its read due. -/
theorem execMwaitTimeout_of_due (ht : s.team? u = some t) (hrun : t.run = .parked .mwait) (hid : t.aux[2]? = some id)
    (hne : t.aux.getD 3 0 ≠ 0) (hdue : t.aux.getD 3 0 ≤ s.clk.toNat + 1) : execMwaitTimeout u s =
      .next ((s.onTeam u (fun v => { v with mwEnd := .timeout })).postOnce (.accessResponse id)) := by
  have hmarked : (s.onTeam u (fun v => { v with mwEnd := .timeout })).team? u = some { t with mwEnd := .timeout } :=
    team_onTeam_same (fun _ => rfl) ht
  rw [← mwaitRead_of_parked hmarked hrun hid]
  simp only [execMwaitTimeout, ht, mwaitFlight_of_parked hrun hid, hne, hdue, Option.isSome_some, ne_eq, not_false_eq_true,
    decide_true, Bool.and_self, if_true]

/-- A timeout that comes before its time changes nothing. -/
theorem execMwaitTimeout_of_early (ht : s.team? u = some t) (hearly : s.clk.toNat + 1 < t.aux.getD 3 0) :
    execMwaitTimeout u s = .next s := by
  simp only [execMwaitTimeout, ht, Nat.not_le.mpr hearly, decide_false, Bool.and_false, Bool.false_eq_true, if_false]

end

/-- Settles O32: MWAIT_WAKE and MWAIT_REPOLL are `mwaitRead` of the team, and so is a MWAIT_TIMEOUT that is due. -/
theorem mwaitIsTestedAgain : Obligations.MwaitIsTestedAgain := by
  intro u s t id ht hrun hid
  have hread : Host.Outcome.next (mwaitRead s u) = (Host.Outcome.next (s.postOnce (.accessResponse id)) : Out) :=
    congrArg _ (mwaitRead_of_parked ht hrun hid)
  exact ⟨hread, hread, execMwaitTimeout_of_due ht hrun hid, execMwaitTimeout_of_early ht⟩

end Sys2Proof.Machine
end

section
/-!
PROOFS. The failure of a write that counts itself (11 R278), which `WritesReachMemory` allows.
-/

namespace Sys2Proof.Machine

/-- A release at its gate that counts itself. -/
def ownRelease : BufWrite := { Tests.wrel with id := 7, op := 7, waits := [7] }

/-- A release of the same team with other data that counts the first and nothing else. -/
def nextRelease : BufWrite := { Tests.wrel with id := 8, op := 8, waits := [7], data := 5 }

/-- A device with both at their gates. -/
def gateState : State := { Tests.ws with writes := [ownRelease, nextRelease] }

/-- When the first fails, it is the only one that is withdrawn: its end leaves the second nothing to count, which stays buffered, with
its gate to be opened. -/
theorem ownRelease_fails_alone : (match exec (.storeFailure 7 1) gateState with
    | .next s => some (s.flights.map (fun f => f.lanes.map (fun r => r.data)), s.writes.map (fun w => (w.id, w.waits)), s.agenda)
    | _ => none) = some ([[0]], [(8, [])], [.releaseGateOpen 8]) := by decide +kernel

/-- Refutes O28: a release that counts the failing write is not withdrawn where that write is itself withdrawn before it, since what
is withdrawn no longer keeps others at their gates. The clause on STORE_FAILURE takes every buffered write that fails, and so also
one that stands at its gate and counts itself, which no issue makes. -/
theorem not_writesReachMemory : ¬ Obligations.WritesReachMemory := by
  intro h
  obtain ⟨-, -, -, -, hcounted, -⟩ := h
  obtain ⟨s', hexec, -, f, hf, -, -, r, hr, -, -, hdata, -⟩ := hcounted 7 1 gateState ownRelease nextRelease rfl
    (by decide) rfl (by decide) (by decide) rfl
  have hdone := ownRelease_fails_alone
  rw [hexec] at hdone
  obtain ⟨hlanes, -⟩ := Prod.mk.inj (Option.some.inj hdone)
  have hzero : r.data ∈ s'.flights.flatMap (fun f => f.lanes.map (fun r => r.data)) :=
    List.mem_flatMap.mpr ⟨f, hf, List.mem_map_of_mem hr⟩
  rw [List.flatMap_def, hlanes, hdata] at hzero
  exact absurd hzero (by decide)

end Sys2Proof.Machine
end

section
/-!
PROOFS. Leases and the pintle (13 R289-R291, R301): what a request, a grant and an end leave of a core's lease, and which waits they
end.
-/

namespace Sys2Proof.Machine

/-! ## The lease of a core -/

theorem core_onLease {s : State} {core : Nat} (hcore : core < s.cores.length) (f : Lease → Lease) :
    (onLease s core f).core core = { s.core core with lease := f (s.core core).lease } :=
  (core_onCore ..).trans (if_pos ⟨rfl, hcore⟩)

theorem postLease_eq (s : State) (core : Nat) : ∃ es, postLease s core = { s with agenda := s.agenda ++ es } := by
  unfold postLease
  dsimp only
  split
  · exact ⟨[], by rw [List.append_nil]⟩
  · split <;> exact postOnce_eq ..

@[simp] theorem core_postLease (s : State) (core n : Nat) : (postLease s core).core n = s.core n := by
  obtain ⟨es, h⟩ := postLease_eq s core
  rw [h]
  rfl

theorem team?_postLease (s : State) (core u : Nat) : (postLease s core).team? u = s.team? u := by
  obtain ⟨es, h⟩ := postLease_eq s core
  rw [h]
  rfl

/-- A lease that stands free beside a queue is to be granted. -/
theorem mem_agenda_postLease {s : State} {core : Nat} (hfree : (s.core core).lease.holder = none)
    (hqueue : (s.core core).lease.queue ≠ []) : .leaseGrant core ∈ (postLease s core).agenda := by
  have hdue : postLease s core = s.postOnce (.leaseGrant core) := by
    simp only [postLease, List.isEmpty_iff, hqueue, hfree, Option.isNone_none, if_true, if_false]
  rw [hdue]
  exact mem_agenda_postOnce ..

/-- A lease that ends leaves its holder only the relation that is kept as lost. -/
theorem lease_endLease {s : State} {core k : Nat} (hcore : core < s.cores.length)
    (hk : (s.core core).lease.holder = some k) (lost : Bool) :
    ((endLease s core lost).core core).lease = { (s.core core).lease with
      holder := none
      count := 0
      lost := if lost then { key := k, count := (s.core core).lease.count, last := (s.core core).lease.last } ::
        (s.core core).lease.lost.filter (fun x => x.key ≠ k) else (s.core core).lease.lost } := by
  rw [endLease, core_postLease, core_onLease hcore]
  simp only [hk]

theorem endLease_eq (s : State) (core : Nat) (lost : Bool) : ∃ f : Lease → Lease, ∃ es,
    endLease s core lost = { onLease s core f with agenda := s.agenda ++ es } := by
  obtain ⟨es, h⟩ := postLease_eq (onLease s core _) core
  exact ⟨_, es, h⟩

/-! ## mlease and mrelease -/

/-- The state in which a team has given up a lease that it holds, for another one. -/
def leaseLaidDown (s : State) (t : Team) : State :=
  if (s.core t.core).lease.holder = some (leaseKey t) then onLease s t.core (fun l => { l with holder := none, count := 0 }) else s

theorem effMlease_of_count {c : C} {s : State} {n : Nat} (hn : (c.sc64 s c.x.a).toNat = n) (hlow : 1 ≤ n) (hhigh : n ≤ 4096) :
    effMlease c s = .wait ((requestLease (leaseLaidDown s c.t) c.t n n true).onTeam c.t.uid (fun t =>
      { t with run := .parked .lease, aux := [c.npc.toNat] })) := by
  have hin : (decide (n < 1) || decide (4096 < n)) = false := by
    rw [decide_eq_false (by omega), decide_eq_false (by omega), Bool.or_self]
  simp only [effMlease, hn, hin, Bool.false_eq_true, if_false, leaseLaidDown]

theorem effMlease_of_bad_count {c : C} {s : State} {n : Nat} (hn : (c.sc64 s c.x.a).toNat = n) (hbad : n = 0 ∨ 4096 < n) :
    effMlease c s = .trap s (c.trap 0x09 0x0002) := by
  have hout : (decide (n < 1) || decide (4096 < n)) = true := by
    rw [Bool.or_eq_true, decide_eq_true_iff, decide_eq_true_iff]
    omega
  simp only [effMlease, hn, hout, if_true]

/-- The state in which a team's holder has no lease, and no lost one either. -/
def leaseReleased (s : State) (t : Team) : State :=
  onLease (if (s.core t.core).lease.holder = some (leaseKey t) then endLease s t.core false else s) t.core
    (fun l => { l with lost := l.lost.filter (fun x => x.key ≠ leaseKey t) })

theorem effMrelease_eq (c : C) (s : State) : effMrelease c s = .done (leaseReleased s c.t) := rfl

theorem leaseReleased_frame (s : State) (t : Team) : (leaseReleased s t).teams = s.teams ∧ (leaseReleased s t).mem = s.mem := by
  obtain ⟨f, es, h⟩ := endLease_eq s t.core false
  rw [leaseReleased, h]
  split <;> exact ⟨rfl, rfl⟩

/-- What `mrelease` leaves of the lease of its core. -/
theorem lease_leaseReleased {s : State} {t : Team} (hcore : t.core < s.cores.length) :
    let l := (s.core t.core).lease
    ((leaseReleased s t).core t.core).lease = { l with
      holder := if l.holder = some (leaseKey t) then none else l.holder
      count := if l.holder = some (leaseKey t) then 0 else l.count
      lost := l.lost.filter (fun x => x.key ≠ leaseKey t) } := by
  intro l
  rw [leaseReleased]
  by_cases hk : l.holder = some (leaseKey t)
  · obtain ⟨f, es, h⟩ := endLease_eq s t.core false
    have hcore' : t.core < (endLease s t.core false).cores.length := by
      rw [h]
      exact (List.length_modify ..).symm ▸ hcore
    rw [if_pos hk, if_pos hk, if_pos hk, core_onLease hcore', lease_endLease hcore hk]
    rfl
  · rw [if_neg hk, if_neg hk, if_neg hk, core_onLease hcore]

/-- `mrelease` leaves its holder neither the lease nor a lost one, and another holder's lease as it was. -/
theorem leaseReleased_spec {s : State} {t : Team} (hcore : t.core < s.cores.length) :
    ((leaseReleased s t).core t.core).lease.holder ≠ some (leaseKey t) ∧
    (∀ y ∈ ((leaseReleased s t).core t.core).lease.lost, y.key ≠ leaseKey t) ∧
    ((leaseReleased s t).core t.core).lease.queue = (s.core t.core).lease.queue ∧
    ((s.core t.core).lease.holder ≠ some (leaseKey t) →
      ((leaseReleased s t).core t.core).lease.holder = (s.core t.core).lease.holder ∧
      ((leaseReleased s t).core t.core).lease.count = (s.core t.core).lease.count) := by
  rw [lease_leaseReleased hcore]
  refine ⟨?_, fun y hy => of_decide_eq_true (List.mem_filter.mp hy).2, rfl, fun hne => ⟨if_neg hne, if_neg hne⟩⟩
  dsimp only
  split
  · exact Option.some_ne_none _ |>.symm
  · assumption

/-! ## LEASE_GRANT and LEASE_IDLE_EXPIRY (R289, R290) -/

/-- The state in which the head r of the queue holds the lease of a core, and the waits of its teams have ended. -/
def leaseGranted (s : State) (core : Nat) (r : LeaseReq) (rest : List LeaseReq) : State :=
  { onLease s core (fun l => { l with
      holder := some r.key, count := r.count, last := r.last, since := s.clk.toNat, queue := rest }) with
    teams := s.teams.map (fun t => if t.core = core && leaseKey t = r.key && t.run = .parked .lease then t.granted r else t) }

theorem execLeaseGrant_of_free {s : State} {core : Nat} {r : LeaseReq} {rest : List LeaseReq}
    (hfree : (s.core core).lease.holder = none) (hqueue : (s.core core).lease.queue = r :: rest) :
    execLeaseGrant core s = .next (postLease (leaseGranted s core r rest) core) := by
  simp only [execLeaseGrant, hfree, hqueue]
  rfl

theorem lease_leaseGranted {s : State} {core : Nat} (hcore : core < s.cores.length) (r : LeaseReq) (rest : List LeaseReq) :
    ((leaseGranted s core r rest).core core).lease = { (s.core core).lease with
      holder := some r.key, count := r.count, last := r.last, since := s.clk.toNat, queue := rest } :=
  congrArg Core.lease (core_onLease hcore (fun l => { l with
    holder := some r.key, count := r.count, last := r.last, since := s.clk.toNat, queue := rest }))

theorem Team.granted_uid (t : Team) (r : LeaseReq) : (t.granted r).uid = t.uid := by
  unfold Team.granted
  split
  · rfl
  · split <;> rfl

/-- The `mlease` that made the request is over. -/
theorem Team.granted_of_mlease {t : Team} {r : LeaseReq} {pc : Nat} (haux : t.aux = [pc]) (hml : r.isMlease = true)
    (hteam : t.uid = r.team) : t.granted r = { t with run := .running, aux := [], pc := BitVec.ofNat 64 pc } := by
  simp only [Team.granted, haux, hml, hteam, decide_true, Bool.and_self, if_true]

/-- An operation that waited for the lease issues again. -/
theorem Team.granted_of_operation {t : Team} (haux : t.aux = []) (r : LeaseReq) : t.granted r = { t with run := .running } := by
  simp only [Team.granted, haux]

/-- A team of the holder that is parked for the lease has its wait ended by the grant. -/
theorem team?_leaseGranted {s : State} {core v : Nat} {r : LeaseReq} {t : Team} (rest : List LeaseReq) (ht : s.team? v = some t)
    (hcore : t.core = core) (hkey : leaseKey t = r.key) (hrun : t.run = .parked .lease) :
    (leaseGranted s core r rest).team? v = some (t.granted r) := by
  refine (team?_map (s := s) fun u => ?_).trans ?_
  · split
    · exact u.granted_uid r
    · rfl
  · rw [ht, Option.map_some, if_pos (by simp only [hcore, hkey, hrun, decide_true, Bool.and_self])]

/-- What LEASE_IDLE_EXPIRY does with a lease that is held beside a queue depends on its last use. -/
theorem execLeaseIdleExpiry_of_queue {s : State} {core k : Nat} (hk : (s.core core).lease.holder = some k)
    (hqueue : (s.core core).lease.queue ≠ []) : execLeaseIdleExpiry core s =
      if (s.core core).lease.since + 4096 ≤ s.clk.toNat then .next (endLease s core true)
      else .next (s.postOnce (.leaseIdleExpiry core)) := by
  have hwaited : (s.core core).lease.queue.isEmpty = false := List.isEmpty_eq_false_iff.mpr hqueue
  simp only [execLeaseIdleExpiry, hk, Option.isNone_some, hwaited, Bool.or_self, Bool.false_eq_true, if_false]

/-- An idle lease beside a queue ends, is kept as lost, and the next grant is due. -/
theorem leaseIdleExpiry_ends {s : State} {core k : Nat} (hcore : core < s.cores.length)
    (hk : (s.core core).lease.holder = some k) (hqueue : (s.core core).lease.queue ≠ [])
    (hidle : (s.core core).lease.since + 4096 ≤ s.clk.toNat) : ∃ s' y, exec (.leaseIdleExpiry core) s = .next s' ∧
      (s'.core core).lease.holder = none ∧ y ∈ (s'.core core).lease.lost ∧ y.key = k ∧
      y.count = (s.core core).lease.count ∧ (s'.core core).lease.queue = (s.core core).lease.queue ∧
      .leaseGrant core ∈ s'.agenda := by
  have hlease := lease_endLease hcore hk true
  refine ⟨_, { key := k, count := (s.core core).lease.count, last := (s.core core).lease.last },
    (execLeaseIdleExpiry_of_queue hk hqueue).trans (if_pos hidle), ?_, ?_, rfl, rfl, ?_, ?_⟩
  · rw [hlease]
  · rw [hlease]
    exact List.mem_cons_self
  · rw [hlease]
  · rw [endLease, core_postLease] at hlease
    exact mem_agenda_postLease (congrArg Lease.holder hlease) (by rw [hlease]; exact hqueue)

/-! ## The pintle (R291) -/

section
variable {c : C} {s : State}

theorem effPintle_of_unpaired (h : c.t.leaf = 2) : effPintle c s = .trap s (c.trap 0x09 0x0003) := if_pos h

theorem effPintle_of_partner (h : c.t.leaf ≠ 2) (hp : pintleOf s c.t ≠ c.t.leaf) : effPintle c s = .done s :=
  (if_neg h).trans (if_pos hp)

theorem effPintle_of_own (h : c.t.leaf ≠ 2) (hp : pintleOf s c.t = c.t.leaf) (hopen : storesOpen s c.t.uid = false) :
    effPintle c s = .done (passPintle s c.t (1 - c.t.leaf)) :=
  (if_neg h).trans ((if_neg (not_not_intro hp)).trans (if_neg (ne_true_of_eq_false hopen)))

theorem effPnwait_of_unpaired (h : c.t.leaf = 2) : effPnwait c s = .trap s (c.trap 0x09 0x0003) := if_pos h

theorem effPnwait_of_own (h : c.t.leaf ≠ 2) (hp : pintleOf s c.t = c.t.leaf) : effPnwait c s = .done s :=
  (if_neg h).trans (if_pos hp)

theorem effPnwait_of_partner (h : c.t.leaf ≠ 2) (hp : pintleOf s c.t ≠ c.t.leaf) :
    effPnwait c s = .wait (s.onTeam c.t.uid (fun t => { t with run := .parked .pnwait, aux := [c.npc.toNat] })) :=
  (if_neg h).trans (if_neg hp)

end

/-- After a pass the named leaf holds the pintle. -/
theorem pintleOf_passPintle {s : State} {t : Team} (hcore : t.core < s.cores.length) (leaf : Nat) :
    pintleOf (passPintle s t leaf) t = leaf := by
  have hlist : ((passPintle s t leaf).core t.core).pintle =
      (leaseKey t, leaf) :: (s.core t.core).pintle.filter (fun p => p.1 ≠ leaseKey t) :=
    congrArg Core.pintle ((core_onCore ..).trans (if_pos ⟨rfl, hcore⟩))
  simp only [pintleOf, hlist, List.find?_cons, decide_true]

/-- A pass ends the `pnwait` of the leaf that it names. -/
theorem team?_passPintle {s : State} {t u : Team} {leaf v pc : Nat} (hv : s.team? v = some u) (hcore : u.core = t.core)
    (hkey : leaseKey u = leaseKey t) (hleaf : u.leaf = leaf) (hrun : u.run = .parked .pnwait) (haux : u.aux = [pc]) :
    (passPintle s t leaf).team? v = some { u with run := .running, pc := BitVec.ofNat 64 pc, aux := [] } := by
  refine (team?_map (s := s) fun w => ?_).trans ?_
  · split
    · split <;> rfl
    · rfl
  · rw [hv, Option.map_some, if_pos (by simp only [hcore, hkey, hleaf, decide_true, Bool.and_self])]
    simp only [hrun, haux]

/-! ## The obligation -/

/-- Settles O40: each instruction by its effect at issue, the events by the lease and the teams that they leave. -/
theorem leasesAndPintlePass : Obligations.LeasesAndPintlePass := by
  refine ⟨?mlease, ?mrelease, ?pintle, ?pnwait, ?pnwaitUnpaired, fun s t leaf =>
    ⟨fun hcore => pintleOf_passPintle hcore leaf, fun v u pc hv hcore hkey hleaf hrun haux =>
      team?_passPintle hv hcore hkey hleaf hrun haux⟩, ?grant, fun core s k hcore hk hqueue =>
    ⟨leaseIdleExpiry_ends hcore hk hqueue, fun hused =>
      (execLeaseIdleExpiry_of_queue hk hqueue).trans (if_neg (Nat.not_le.mpr hused))⟩⟩
  case mlease =>
    intro x s t hi hgo n
    have hn : ((ctxAt (.mlease x) 0x50 0 (extLen x) x t).sc64 s x.a).toNat = n := toNat_sc64_ctxAt ..
    have heff := onGo_of_go (c := ctxAt (.mlease x) 0x50 0 (extLen x) x t) hgo effMlease s
    exact ⟨fun hlow hhigh => exec_of_wait rfl hi (heff.trans (effMlease_of_count hn hlow hhigh)),
      fun hbad => exec_of_trap rfl hi (heff.trans (effMlease_of_bad_count hn hbad)) (team?_uid_of_issues hi)⟩
  case mrelease =>
    intro x s t hi hgo hcore
    have heff := onGo_of_go (c := ctxAt (.mrelease x) 0x50 1 (extLen x) x t) hgo effMrelease s
    obtain ⟨hteams, hmem⟩ := leaseReleased_frame s t
    obtain ⟨hholder, hlost, hqueue, hother⟩ := leaseReleased_spec (s := s) hcore
    exact ⟨_, exec_of_done rfl hi (heff.trans (effMrelease_eq ..)), hholder, hlost, hqueue, hteams, hmem, hother⟩
  case pintle =>
    intro x s t hi hgo
    have heff := onGo_of_go (c := ctxAt (.pintle x) 0x50 2 (extLen x) x t) hgo effPintle s
    exact ⟨fun hleaf => exec_of_trap rfl hi (heff.trans (effPintle_of_unpaired hleaf)) (team?_uid_of_issues hi),
      fun hleaf hp => exec_of_done rfl hi (heff.trans (effPintle_of_partner hleaf hp)),
      fun hleaf hp hopen => exec_of_done rfl hi (heff.trans (effPintle_of_own hleaf hp hopen))⟩
  case pnwait =>
    intro x s t hi hgo hleaf
    have heff := onGo_of_go (c := ctxAt (.pnwait x) 0x50 3 (extLen x) x t) hgo effPnwait s
    exact ⟨fun hp => exec_of_done rfl hi (heff.trans (effPnwait_of_own hleaf hp)),
      fun hp => exec_of_wait rfl hi (heff.trans (effPnwait_of_partner hleaf hp))⟩
  case pnwaitUnpaired =>
    intro x s t hi hgo hleaf
    have heff := onGo_of_go (c := ctxAt (.pnwait x) 0x50 3 (extLen x) x t) hgo effPnwait s
    exact exec_of_trap rfl hi (heff.trans (effPnwait_of_unpaired hleaf)) (team?_uid_of_issues hi)
  case grant =>
    intro core s r rest hcore hfree hqueue
    have hlease := (congrArg Core.lease (core_postLease (leaseGranted s core r rest) core core)).trans
      (lease_leaseGranted hcore r rest)
    refine ⟨_, execLeaseGrant_of_free hfree hqueue, congrArg Lease.holder hlease, congrArg Lease.count hlease,
      congrArg Lease.queue hlease, fun t pc ht hc hkey hrun haux hml => ?_, fun v t ht hc hkey hrun haux => ?_⟩
    · rw [team?_postLease, team?_leaseGranted rest ht hc hkey hrun, Team.granted_of_mlease haux hml (uid_of_team? ht)]
    · rw [team?_postLease, team?_leaseGranted rest ht hc hkey hrun, Team.granted_of_operation haux]

end Sys2Proof.Machine
end

section
/-!
PROOFS. The operand buffer (13 R294, R295, R298, R299, R302, R303): the checks of `obres`, `obfree` and `obput` in their order, and the
end of a reservation.
-/

namespace Sys2Proof.Machine

/-! ## obres (R302) -/

/-- The range of a reservation is aligned, not empty and inside the allotment, and so are its deltas in the range. -/
abbrev RangeFits (osize off sz d : Nat) : Prop :=
  off % 256 = 0 ∧ sz % 256 = 0 ∧ sz ≠ 0 ∧ off + sz ≤ 256 * osize ∧ d % 64 = 0 ∧ d < sz

/-- A record has scale blocks exactly when its elements are scaled. -/
abbrev TypeFits (ty : Ty) (bl : Nat) : Prop := (ty = .e4m3 ∨ ty = .e5m2 ∨ ty = .e2m1) ↔ bl ≠ 0

/-- A record of a core meets a range, both counted in 256 bytes. -/
abbrev MeetsRecord (s : State) (core base size : Nat) : Prop :=
  ∃ r ∈ (s.core core).obres, r.base < base + size ∧ base < r.base + r.size

/-- The state in which `obres` has made its record, and zeroed its bytes where X24 [4] asks for it. -/
def C.reserved (c : C) (s : State) (off sz d : Nat) : State :=
  let base := (s.bind c.t).obase + off / 256
  s.onCore c.t.core (fun k => { k with
    obres := { num := c.x.d.toNat, own := c.t.place, lay := c.x.f 1 0, bl := c.x.f 3 2, ty := c.x.ty.code, doff := d / 64,
               size := sz / 256, base := base, ctx := c.t.ctx, hdr := hdrOf s c.t } :: k.obres
    obuf := if c.x.bit 4 then k.obuf.filter (fun y => !(256 * base ≤ y.1 && y.1 < 256 * base + sz)) else k.obuf })

theorem effObres_of_valid {c : C} {s : State} (h : (s.rcd? c.t.core c.x.d.toNat).isSome = true) :
    effObres c s = .trap s (c.trap 0x0A (0x0200 + c.x.d.toNat)) := if_pos h

/-- The checks of `obres` of a number that no record has, in their order. -/
theorem effObres_of_free {c : C} {s : State} {off sz d : Nat} (hoff : (c.sc64 s c.x.a).toNat = off)
    (hsz : (c.sc64 s c.x.b).toNat = sz) (hd : (if c.x.c.cls = .vec then 0 else (c.sc64 s c.x.c).toNat) = d)
    (hfree : s.rcd? c.t.core c.x.d.toNat = none) :
    effObres c s =
      if ¬ RangeFits (s.bind c.t).osize off sz d then .trap s (c.trap 0x0A (0x0300 + c.x.d.toNat))
      else if ¬ TypeFits c.x.ty (c.x.f 3 2) then .trap s (c.trap 0x0A (0x0600 + c.x.d.toNat))
      else if MeetsRecord s c.t.core ((s.bind c.t).obase + off / 256) (sz / 256)
      then .trap s (c.trap 0x0A (0x0100 + c.x.d.toNat))
      else .done (c.reserved s off sz d) := by
  simp only [effObres, hoff, hsz, hd, hfree, Option.isSome_none, Bool.false_eq_true, if_false]
  refine if_congr ?range rfl (if_congr ?type rfl (if_congr ?overlap rfl rfl))
  case range =>
    simp only [Bool.or_eq_true, decide_eq_true_iff]
    omega
  case type =>
    simp only [ne_eq, Bool.or_eq_true, decide_eq_true_iff, eq_iff_iff, or_assoc]
  case overlap => simp only [List.any_eq_true, Bool.and_eq_true, decide_eq_true_iff]

/-! ## The checks of a record (R299) -/

theorem rcdCheck_of_none {s : State} {t : Team} {n : Nat} (h : s.rcd? t.core n = none) : rcdCheck s t n = .error (0x0400 + n) := by
  simp only [rcdCheck, h]

theorem rcdCheck_of_foreign {s : State} {t : Team} {n : Nat} {r : Reserve} (h : s.rcd? t.core n = some r)
    (hother : r.ctx ≠ t.ctx ∨ r.hdr ≠ hdrOf s t) : rcdCheck s t n = .error (0x0500 + n) := by
  simp only [rcdCheck, h]
  refine if_neg ?_
  rw [Bool.and_eq_true, decide_eq_true_iff, decide_eq_true_iff, not_and_or]
  exact hother

/-! ## obput (R303) -/

/-- The bytes that the lanes of an `obput` take, up to the end of the last active one. -/
def C.putTop (c : C) (lb : Nat) : Nat :=
  match c.actives.getLast? with
  | some l => lb * (1 + l)
  | none => 0

/-- The lanes of an `obput` reach beyond an end exactly when one of them does, or the offset itself. -/
theorem lt_add_putTop (c : C) (lb b e : Nat) :
    e < b + c.putTop lb ↔ (∃ l ∈ c.actives, e < b + lb * (1 + l)) ∨ e < b := by
  cases hlast : c.actives.getLast? with
  | none =>
    have htop : c.putTop lb = 0 := by simp only [C.putTop, hlast]
    simp [htop, List.getLast?_eq_none_iff.mp hlast]
  | some l =>
    have htop : c.putTop lb = lb * (1 + l) := by simp only [C.putTop, hlast]
    have hmax : ∀ k ∈ c.actives, k ≤ l := fun k hk => by
      obtain ⟨ls, hls⟩ := List.getLast?_eq_some_iff.mp hlast
      have hsorted : (ls ++ [l]).Pairwise (· < ·) := hls ▸ lanesOf_pairwise c.act
      rw [hls, List.mem_append, List.mem_singleton] at hk
      rcases hk with hk | rfl
      · exact Nat.le_of_lt ((List.pairwise_append.mp hsorted).2.2 k hk l (List.mem_singleton_self l))
      · exact Nat.le_refl k
    rw [htop]
    constructor
    · exact fun h => .inl ⟨l, List.mem_of_getLast? hlast, h⟩
    · rintro (⟨k, hk, h⟩ | h)
      · exact Nat.lt_of_lt_of_le h (Nat.add_le_add_left (Nat.mul_le_mul_left lb (Nat.add_le_add_left (hmax k hk) 1)) b)
      · omega

/-- The state in which the active lanes of an `obput` at offset b have written their bytes into a record. -/
def C.putBytes (c : C) (s : State) (r : Reserve) (b : Nat) : State :=
  let lb := c.x.ty.width / 8
  c.actives.foldl (fun s l => s.onCore c.t.core (fun k => { k with
    obuf := k.obuf.setBytes (256 * r.base + b + lb * l) (leBytes lb (c.opnd s c.x.a c.x.ty.width l)) })) s

theorem effObput_of_error {c : C} {s : State} {e : Nat} (h : rcdCheck s c.t c.x.d.toNat = .error e) :
    effObput c s = .trap s (c.trap 0x0A e) := by
  simp only [effObput, h]

/-- The checks of `obput` into one of its kernel's records, in their order. -/
theorem effObput_of_record {c : C} {s : State} {r : Reserve} {b : Nat} (h : rcdCheck s c.t c.x.d.toNat = .ok r)
    (hb : (c.sc64 s c.x.b).toNat = b) :
    effObput c s =
      if ¬ (c.x.ty = .b32 ∨ c.x.ty.elem.code = r.ty) then .trap s (c.trap 0x0A (0x0600 + c.x.d.toNat))
      else if b % (c.x.ty.width / 8) ≠ 0 then .trap s (c.trapAt 0x04 0x0102 b [])
      else if (∃ l ∈ c.actives, 256 * r.size < b + c.x.ty.width / 8 * (1 + l)) ∨ 256 * r.size < b
      then .trap s (c.trap 0x0A (0x0300 + c.x.d.toNat))
      else if engineReads s c.t.core (256 * r.base + b) (c.putTop (c.x.ty.width / 8)) then .wait s
      else .done (c.putBytes s r b) := by
  simp only [effObput, h, hb]
  refine if_congr ?type rfl (if_congr Iff.rfl rfl (if_congr (lt_add_putTop ..) rfl rfl))
  case type => rw [Bool.and_eq_true, decide_eq_true_iff, decide_eq_true_iff, not_or]

/-- `obput` names a record that is not one of its kernel's. -/
theorem exec_obput_of_error {x : Ext} {s : State} {t : Team} {e : Nat} (hgo : t.go x.g x.neg = true)
    (h : rcdCheck s t x.d.toNat = .error e) (hi : Issues 0x50 6 x s t) : exec (.obput x) s =
      .next (takeTrap s t (trapHere t.pc (t.pc + BitVec.ofNat 64 (extLen x)) 0x0A e)) :=
  exec_of_trap rfl hi ((onGo_of_go (c := ctxAt (.obput x) 0x50 6 (extLen x) x t) hgo effObput s).trans (effObput_of_error h))
    (team?_uid_of_issues hi)

/-! ## obfree and OBFREE_RELEASE (R302) -/

theorem effObfree_of_error {c : C} {s : State} {e : Nat} (h : rcdCheck s c.t c.x.d.toNat = .error e) :
    effObfree c s = .trap s (c.trap 0x0A e) := by
  simp only [effObfree, h]

theorem effObfree_of_record {c : C} {s : State} {r : Reserve} (h : rcdCheck s c.t c.x.d.toNat = .ok r) :
    effObfree c s = .done ((c.launch s [{ lane := 0, addr := BitVec.ofNat 64 c.x.d.toNat, data := 0, st := .ready [] }] [] [0]
      true).post (.obfreeRelease c.t.core c.x.d.toNat)) := by
  simp only [effObfree, h]

/-- `obfree` names a record that is not one of its kernel's. -/
theorem exec_obfree_of_error {x : Ext} {s : State} {t : Team} {e : Nat} (hgo : t.go x.g x.neg = true)
    (h : rcdCheck s t x.d.toNat = .error e) (hi : Issues 0x50 5 x s t) : exec (.obfree x) s =
      .next (takeTrap s t (trapHere t.pc (t.pc + BitVec.ofNat 64 (extLen x)) 0x0A e)) :=
  exec_of_trap rfl hi ((onGo_of_go (c := ctxAt (.obfree x) 0x50 5 (extLen x) x t) hgo effObfree s).trans (effObfree_of_error h))
    (team?_uid_of_issues hi)

/-- What the end of a flight changes beside dropping it: teams and what is due. -/
def TeamsChange (s s' : State) : Prop := ∃ ts es, s' = { s with teams := ts, agenda := es }

theorem TeamsChange.refl (s : State) : TeamsChange s s := ⟨s.teams, s.agenda, rfl⟩

theorem TeamsChange.trans {s s1 s2 : State} (h : TeamsChange s s1) (h' : TeamsChange s1 s2) : TeamsChange s s2 := by
  obtain ⟨_, _, rfl⟩ := h
  obtain ⟨ts, es, rfl⟩ := h'
  exact ⟨ts, es, rfl⟩

theorem teamsChange_onTeam (s : State) (u : Nat) (f : Team → Team) : TeamsChange s (s.onTeam u f) := ⟨_, s.agenda, rfl⟩

theorem teamsChange_postOnce (s : State) (e : Ev) : TeamsChange s (s.postOnce e) := by
  obtain ⟨es, h⟩ := postOnce_eq s e
  exact ⟨s.teams, _, h⟩

theorem teamsChange_settle (s : State) (u : Nat) : TeamsChange s (settle s u) := by
  unfold settle
  split
  · exact .refl s
  · split
    · split
      · exact .refl s
      · exact teamsChange_onTeam ..
    · split
      · exact .refl s
      · split
        · exact teamsChange_onTeam ..
        · exact (teamsChange_onTeam ..).trans (teamsChange_postOnce ..)
    · split
      · exact teamsChange_postOnce ..
      · exact .refl s
    · exact .refl s

theorem teamsChange_raiseFlight (s : State) (f : Flight) (tr : Trap) : TeamsChange s (raiseFlight s f tr) := by
  unfold raiseFlight
  split
  · exact teamsChange_onTeam ..
  · split
    · exact teamsChange_onTeam ..
    · split
      · exact teamsChange_onTeam ..
      · exact .refl s

theorem teamsChange_endFlight (s : State) (f : Flight) : TeamsChange (s.dropFlight f.id) (endFlight s f) := by
  have hfilled : TeamsChange (s.dropFlight f.id) (fillDst (s.dropFlight f.id) f) := teamsChange_onTeam ..
  unfold endFlight
  refine .trans ?_ (teamsChange_settle ..)
  split
  · exact hfilled
  · exact hfilled.trans (teamsChange_raiseFlight ..)

/-- The end of flights leaves the cores alone, and of the flights those with other numbers. -/
theorem foldl_endFlight (fs : List Flight) (s : State) :
    (fs.foldl (fun s f => endFlight s f) s).cores = s.cores ∧
    ∀ g ∈ (fs.foldl (fun s f => endFlight s f) s).flights, g ∈ s.flights ∧ ∀ f ∈ fs, g.id ≠ f.id := by
  induction fs generalizing s with
  | nil => exact ⟨rfl, fun g hg => ⟨hg, fun f hf => absurd hf List.not_mem_nil⟩⟩
  | cons f fs ih =>
    obtain ⟨ts, es, hend⟩ := teamsChange_endFlight s f
    obtain ⟨hcores, hflights⟩ := ih (endFlight s f)
    rw [List.foldl_cons]
    refine ⟨hcores.trans (by rw [hend]; rfl), fun g hg => ?_⟩
    obtain ⟨hmem, hothers⟩ := hflights g hg
    rw [hend] at hmem
    obtain ⟨hmem, hne⟩ := List.mem_filter.mp hmem
    exact ⟨hmem, List.forall_mem_cons.mpr ⟨of_decide_eq_true hne, hothers⟩⟩

/-- The state in which a record of a core is no longer valid. -/
def recordDropped (s : State) (core n : Nat) : State :=
  s.onCore core (fun k => { k with obres := k.obres.filter (fun r => r.num ≠ n) })

theorem rcd?_recordDropped (s : State) (core n : Nat) : (recordDropped s core n).rcd? core n = none := by
  rw [State.rcd?, List.find?_eq_none, recordDropped, core_onCore]
  intro r hr
  by_cases hcore : core < s.cores.length
  · rw [if_pos ⟨rfl, hcore⟩] at hr
    simpa using (List.mem_filter.mp hr).2
  · rw [if_neg (fun h => hcore h.2), State.core, List.getD_eq_default _ _ (Nat.le_of_not_lt hcore)] at hr
    exact absurd hr List.not_mem_nil

/-- OBFREE_RELEASE of a record that neither the engine nor a copy uses ends the flights of every `obfree` of it. -/
theorem execObfreeRelease_of_unused {core n : Nat} {s : State} {r : Reserve} {f : Flight} {x : Ext} {t : Team}
    (hr : s.rcd? core n = some r) (hreads : engineReads s core (256 * r.base) (256 * r.size) = false)
    (hcopies : copyWrites s core n = false) (hf : f ∈ s.flights) (hi : f.instr = .obfree x) (hn : x.d.toNat = n)
    (ht : s.team? f.team = some t) (hcore : t.core = core) : ∃ fs : List Flight, f ∈ fs ∧
      execObfreeRelease core n s = .next (fs.foldl (fun s f => endFlight s f) (recordDropped s core n)) := by
  simp only [execObfreeRelease, hr, hreads, hcopies, Bool.or_self, Bool.false_eq_true, if_false]
  refine ⟨_, ?frees, if_neg fun h => List.ne_nil_of_mem ?frees (List.isEmpty_iff.mp h)⟩
  case frees => exact List.mem_filter.mpr ⟨hf, by simp only [hi, hn, ht, hcore, decide_true, Bool.and_self]⟩

/-- The release of an unused record drops it and ends the flight of its `obfree`. -/
theorem obfreeRelease_drops {core n : Nat} {s : State} {r : Reserve} {f : Flight} {x : Ext} {t : Team}
    (hr : s.rcd? core n = some r) (hreads : engineReads s core (256 * r.base) (256 * r.size) = false)
    (hcopies : copyWrites s core n = false) (hf : f ∈ s.flights) (hi : f.instr = .obfree x) (hn : x.d.toNat = n)
    (ht : s.team? f.team = some t) (hcore : t.core = core) : ∃ s', exec (.obfreeRelease core n) s = .next s' ∧
      s'.rcd? core n = none ∧ s'.flight? f.id = none ∧ s'.mem = s.mem := by
  obtain ⟨fs, hmem, hrun⟩ := execObfreeRelease_of_unused hr hreads hcopies hf hi hn ht hcore
  obtain ⟨hcores, hflights⟩ := foldl_endFlight fs (recordDropped s core n)
  refine ⟨_, hrun, ?_, ?_, foldl_mem _ endFlight_mem _ _⟩
  · rw [State.rcd?, State.core, hcores]
    exact rcd?_recordDropped s core n
  · refine List.find?_eq_none.mpr fun g hg => ?_
    rw [decide_eq_true_iff]
    exact (hflights g hg).2 f hmem

end Sys2Proof.Machine
end

section
/-!
PROOFS. The matrix engine (13 R291, R293, R296-R299, R305; 04 R102): the checks of `mma` and `mmas` in their order, the right to issue
on the engine, and the element of a tile after a product.
-/

namespace Sys2Proof.Machine

/-! ## The checks of mma and mmas (R299, R305) -/

/-- The operands of an `mma` or `mmas`: records of its kernel, of fitting layouts and of a pair of types with k products. -/
structure MmaRecords (sparse : Bool) (c : C) (s : State) (a b : Reserve) (k : Nat) : Prop where
  first : rcdCheck s c.t (c.x.f 3 0) = .ok a
  second : rcdCheck s c.t (c.x.f 7 4) = .ok b
  rowLayout : a.lay = 0
  colLayout : b.lay = if sparse then 2 else 1
  types : pairK a.elem b.elem = some k

/-- A group of a sparse operand holds more than 32 elements (R296). -/
abbrev GroupOverfull (s : State) (core : Nat) (b : Reserve) (g : Nat) : Prop :=
  32 < ((List.range 64).filter (fun i =>
    (groupMap (s.core core).obuf (256 * b.base + g * groupBytes b.elem.width)).testBit i)).length

/-- The operation that the engine accepts. -/
def C.mmaOf (c : C) (s : State) (sparse : Bool) (a b : Reserve) : Mma :=
  { team := c.t.uid, tile := tileIx s c.t c.x.d.toNat, x := a, y := b, ea := baseExpOf (c.sc64 s c.x.a),
    eb := baseExpOf (c.sc64 s c.x.b), sparse := sparse }

/-- What follows from the answer to whether the team may issue on the engine. -/
def C.enterEngine (c : C) (sparse : Bool) (a b : Reserve) : Except Eff State → Eff
  | .error e => e
  | .ok s => .done ((s.onCore c.t.core (fun k => { k with engine := k.engine ++ [c.mmaOf s sparse a b] })).post
      (.mmaExecute c.t.core))

section
variable {sparse : Bool} {c : C} {s : State} {a b : Reserve} {e k : Nat}

theorem effMma_of_first_error (h : rcdCheck s c.t (c.x.f 3 0) = .error e) :
    effMma sparse c s = .trap s (c.trap 0x0A e) := by
  simp only [effMma, h]

theorem effMma_of_second_error (ha : rcdCheck s c.t (c.x.f 3 0) = .ok a) (h : rcdCheck s c.t (c.x.f 7 4) = .error e) :
    effMma sparse c s = .trap s (c.trap 0x0A e) := by
  simp only [effMma, ha, h]

/-- Records of other layouts, or of types that are no pair, do not fit. -/
theorem effMma_of_misfit (ha : rcdCheck s c.t (c.x.f 3 0) = .ok a) (hb : rcdCheck s c.t (c.x.f 7 4) = .ok b)
    (hfit : a.lay ≠ 0 ∨ b.lay ≠ (if sparse then 2 else 1) ∨ pairK a.elem b.elem = none) :
    effMma sparse c s = .trap s (c.trap 0x0A (0x0600 + c.x.f 3 0)) := by
  have hnone : (if (decide (a.lay = 0) && decide (b.lay = if sparse then 2 else 1)) = true then pairK a.elem b.elem
      else none) = none := by
    by_cases hlay : (decide (a.lay = 0) && decide (b.lay = if sparse then 2 else 1)) = true
    · rw [if_pos hlay]
      rw [Bool.and_eq_true, decide_eq_true_iff, decide_eq_true_iff] at hlay
      exact (hfit.resolve_left (not_not_intro hlay.1)).resolve_left (not_not_intro hlay.2)
    · exact if_neg hlay
  simp only [effMma, ha, hb, hnone]

/-- The checks of operands that fit, in their order, and then the right to issue. -/
theorem effMma_of_records (h : MmaRecords sparse c s a b k) :
    effMma sparse c s =
      if a.exceeds k = true then .trap s (c.trap 0x0A (0x0700 + c.x.f 3 0))
      else if b.exceeds k = true then .trap s (c.trap 0x0A (0x0700 + c.x.f 7 4))
      else if sparse = true ∧ ∃ g < k, GroupOverfull s c.t.core b g then .trap s (c.trap 0x0A (0x0800 + c.x.f 7 4))
      else if tileLoads s c.t c.x.d.toNat = true then .wait s
      else c.enterEngine sparse a b (engineRight c s) := by
  obtain ⟨ha, hb, hrow, hcol, hk⟩ := h
  have hsome : (if (decide (a.lay = 0) && decide (b.lay = if sparse then 2 else 1)) = true then pairK a.elem b.elem
      else none) = some k := by
    rw [if_pos (by rw [decide_eq_true hrow, decide_eq_true hcol, Bool.and_self]), hk]
  simp only [effMma, ha, hb, hsome]
  refine if_congr Iff.rfl rfl (if_congr Iff.rfl rfl (if_congr ?groups rfl (if_congr Iff.rfl rfl ?enter)))
  case groups => simp only [Bool.and_eq_true, List.any_eq_true, List.mem_range, decide_eq_true_iff]
  case enter => cases engineRight c s <;> rfl

/-- Operands that pass every check leave the answer to the right to issue. -/
theorem effMma_of_checked (h : MmaRecords sparse c s a b k) (ha : a.exceeds k = false) (hb : b.exceeds k = false)
    (hfull : ¬ (sparse = true ∧ ∃ g < k, GroupOverfull s c.t.core b g)) (hloads : tileLoads s c.t c.x.d.toNat = false) :
    effMma sparse c s = c.enterEngine sparse a b (engineRight c s) := by
  rw [effMma_of_records h, if_neg (ne_true_of_eq_false ha), if_neg (ne_true_of_eq_false hb), if_neg hfull,
    if_neg (ne_true_of_eq_false hloads)]

end

/-! ## The right to issue on the engine (R290, R291) -/

/-- The state in which an issue has counted the lease down. -/
def leaseUsed (s : State) (t : Team) : State :=
  onLease s t.core (fun l => { l with count := (s.core t.core).lease.count - 1, since := s.clk.toNat })

section
variable {c : C} {s : State}

/-- No leaf waits for the pintle that it has. -/
theorem not_pintle_wait (hleaf : c.t.leaf = 2 ∨ pintleOf s c.t = c.t.leaf) :
    (decide (c.t.leaf ≠ 2) && decide (pintleOf s c.t ≠ c.t.leaf)) = false := by
  rw [Bool.and_eq_false_iff, decide_eq_false_iff_not, decide_eq_false_iff_not, not_not, not_not]
  exact hleaf

theorem engineRight_of_lease (hleaf : c.t.leaf = 2 ∨ pintleOf s c.t = c.t.leaf)
    (hholder : (s.core c.t.core).lease.holder = some (leaseKey c.t)) (hcount : (s.core c.t.core).lease.count ≠ 0) :
    engineRight c s = .ok (leaseUsed s c.t) := by
  simp only [engineRight, not_pintle_wait hleaf, hholder, hcount, Bool.false_eq_true, if_false, if_true, ne_eq,
    not_false_eq_true, leaseUsed]

/-- A holder without a lease, a lost one or a request has no right to issue. -/
theorem engineRight_of_stranger (hleaf : c.t.leaf = 2 ∨ pintleOf s c.t = c.t.leaf)
    (hholder : (s.core c.t.core).lease.holder ≠ some (leaseKey c.t))
    (hlost : ∀ y ∈ (s.core c.t.core).lease.lost, y.key ≠ leaseKey c.t)
    (hqueue : ∀ q ∈ (s.core c.t.core).lease.queue, q.key ≠ leaseKey c.t) :
    engineRight c s = .error (.trap s (c.trap 0x09 0x0001)) := by
  have hnone : (s.core c.t.core).lease.lost.find? (fun x => x.key = leaseKey c.t) = none :=
    List.find?_eq_none.mpr fun y hy => by simpa using hlost y hy
  have hany : (s.core c.t.core).lease.queue.any (fun q => q.key = leaseKey c.t) = false :=
    List.any_eq_false.mpr fun q hq => by simpa using hqueue q hq
  simp only [engineRight, not_pintle_wait hleaf, hholder, hnone, hany, Bool.false_eq_true, if_false]

end

/-- The use of a lease changes no operand of the operation. -/
theorem mmaOf_leaseUsed (c : C) (s : State) (t : Team) (sparse : Bool) (a b : Reserve) :
    c.mmaOf (leaseUsed s t) sparse a b = c.mmaOf s sparse a b := by
  have htile : tileIx (leaseUsed s t) c.t c.x.d.toNat = tileIx s c.t c.x.d.toNat := by
    rw [tileIx, tileIx, State.bind, State.bind, leaseUsed, onLease, recs_onCore]
    exact fun _ => rfl
  simp only [C.mmaOf, htile]
  rfl

/-! ## mma and mmas at issue -/

theorem mmaOp_of_effMma {mk : Ext → Instr} {sub : Nat} {sparse : Bool}
    (hexec : ∀ x s, exec (mk x) s = issue (mk x) 0x51 sub (extLen x) x (onGo (effMma sparse)) s) : MmaOp mk sub sparse := by
  intro x s t a b k hi hgo ha hb hrow hcol hk hfita hfitb hgroups hleaf hholder hcount hloads
  let c := ctxAt (mk x) 0x51 sub (extLen x) x t
  have hrecords : MmaRecords sparse c s a b k := ⟨ha, hb, hrow, hcol, hk⟩
  have hfull : ¬ (sparse = true ∧ ∃ g < k, GroupOverfull s t.core b g) := fun ⟨hsparse, g, hg, hover⟩ =>
    Nat.not_lt.mpr (hgroups hsparse g hg) hover
  have hentered := effMma_of_checked hrecords hfita hfitb hfull hloads
  rw [engineRight_of_lease hleaf hholder hcount, C.enterEngine, mmaOf_leaseUsed, C.mmaOf, sc64_ctxAt, sc64_ctxAt] at hentered
  exact exec_of_done (hexec x s) hi ((onGo_of_go (c := c) hgo ..).trans hentered)

theorem mmaTraps_of_effMma {mk : Ext → Instr} {sub : Nat} {sparse : Bool}
    (hexec : ∀ x s, exec (mk x) s = issue (mk x) 0x51 sub (extLen x) x (onGo (effMma sparse)) s) : MmaTraps mk sub sparse := by
  intro x s t hi hgo na nb trap full
  let c := ctxAt (mk x) 0x51 sub (extLen x) x t
  have htrap : ∀ {code n : Nat}, effMma sparse c s = .trap s (c.trap code n) → exec (mk x) s = trap code n := fun heff =>
    exec_of_trap (hexec x s) hi ((onGo_of_go (c := c) hgo ..).trans heff) (team?_uid_of_issues hi)
  refine ⟨fun e h => htrap (effMma_of_first_error h), fun a e ha h => htrap (effMma_of_second_error ha h), fun a b ha hb =>
    ⟨fun hfit => htrap (effMma_of_misfit ha hb hfit), fun k hrow hcol hk => ?_⟩⟩
  have hrecords : MmaRecords sparse c s a b k := ⟨ha, hb, hrow, hcol, hk⟩
  have hchecks := effMma_of_records hrecords
  refine ⟨fun hout => ?rows, fun hfita hout => ?columns, fun hfita hfitb hsparse hfull => ?groups,
    fun hfita hfitb hgroups hloads hleaf hholder hlost hqueue => ?lease⟩
  case rows => exact htrap (hchecks.trans (if_pos hout))
  case columns => exact htrap (hchecks.trans ((if_neg (ne_true_of_eq_false hfita)).trans (if_pos hout)))
  case groups =>
    exact htrap (hchecks.trans ((if_neg (ne_true_of_eq_false hfita)).trans ((if_neg (ne_true_of_eq_false hfitb)).trans
      (if_pos ⟨hsparse, hfull⟩))))
  case lease =>
    have hchecked := effMma_of_checked hrecords hfita hfitb (fun ⟨hsparse, g, hg, hover⟩ => hgroups hsparse g hg hover) hloads
    rw [engineRight_of_stranger hleaf hholder hlost hqueue] at hchecked
    exact htrap hchecked

/-! ## MMA_EXECUTE (R293, R305; 04 R102) -/

theorem execMmaExecute_of_accepted {core : Nat} {s : State} {m : Mma} {rest : List Mma}
    (h : (s.core core).engine = m :: rest) : execMmaExecute core s = .next (setTile
      (s.onCore core (fun k => { k with engine := rest })) core m.tile ((s.tile core m.tile).mma (s.core core).obuf m)) := by
  simp only [execMmaExecute, h]

/-- In a list of pairs, row by row, the pair of row i and column j stands behind i full rows. -/
theorem getElem?_pairs {α β : Type} {rows : List α} {cols : List β} {i j : Nat} {r : α} {q : β} (hr : rows[i]? = some r)
    (hq : cols[j]? = some q) : (rows.flatMap (fun r => cols.map (fun q => (r, q))))[cols.length * i + j]? = some (r, q) := by
  have hj : j < (cols.map (fun q => (r, q))).length := by
    rw [List.length_map]
    exact (List.getElem?_eq_some_iff.mp hq).1
  induction rows generalizing i with
  | nil => cases hr
  | cons r' rows ih =>
    rw [List.flatMap_cons]
    cases i with
    | zero =>
      cases hr
      rw [Nat.mul_zero, Nat.zero_add, List.getElem?_append_left hj, List.getElem?_map, hq, Option.map_some]
    | succ i =>
      rw [List.getElem?_append_right (by rw [List.length_map, Nat.mul_succ]; omega), List.length_map,
        show cols.length * (i + 1) + j - cols.length = cols.length * i + j by rw [Nat.mul_succ]; omega]
      exact ih hr

theorem Tile.getElem?_all (T : Tile) {n : Nat} (hn : n < 4096) : T.all[n]? = some (T.get n) := by
  rw [Tile.all, List.getElem?_take_of_lt hn, Tile.get, List.getD_eq_getElem?_getD]
  by_cases hlen : n < T.elems.length
  · rw [List.getElem?_append_left hlen, List.getElem?_eq_getElem hlen, Option.getD_some]
  · rw [List.getElem?_append_right (Nat.le_of_not_lt hlen), List.getElem?_replicate, if_pos (by omega),
      List.getElem?_eq_none (Nat.le_of_not_lt hlen), Option.getD_none]

/-- An operation of the engine adds to each element of a tile the products of its row and column, in their order. -/
theorem Tile.get_mma (T : Tile) (ob : Memory) {m : Mma} {k i j : Nat} (hk : pairK m.x.elem m.y.elem = some k) (hi : i < 64)
    (hj : j < 64) : (T.mma ob m).get (64 * i + j) =
      ((m.x.scaled ob k i m.ea).zip (m.y.scaled ob k j m.eb)).foldl (fun e p => e.enter T.anc p.1 p.2) (T.get (64 * i + j)) := by
  have hrow : ((List.range 64).map (fun i => m.x.scaled ob k i m.ea))[i]? = some (m.x.scaled ob k i m.ea) := by
    rw [List.getElem?_map, List.getElem?_range hi, Option.map_some]
  have hcol : ((List.range 64).map (fun i => m.y.scaled ob k i m.eb))[j]? = some (m.y.scaled ob k j m.eb) := by
    rw [List.getElem?_map, List.getElem?_range hj, Option.map_some]
  have hpair := getElem?_pairs hrow hcol
  rw [List.length_map, List.length_range] at hpair
  rw [Tile.get, List.getD_eq_getElem?_getD]
  simp only [Tile.mma, hk]
  rw [List.getElem?_zipWith', hpair, T.getElem?_all (by omega)]
  rfl

theorem Tile.anc_mma (T : Tile) (ob : Memory) (m : Mma) : (T.mma ob m).anc = T.anc := by
  unfold Tile.mma
  split <;> rfl

/-! ## The obligation -/

/-- Settles O41: the instructions by the checks of their effects, the events by the engine and the records that they leave, and a
product by the element of its tile. -/
theorem reservationsFeedTheEngine : Obligations.ReservationsFeedTheEngine := by
  refine ⟨?obres, ?traps, ?obfree, fun core n s r f x t hr hreads hcopies hf hi hn ht hcore =>
    obfreeRelease_drops hr hreads hcopies hf hi hn ht hcore, ?obput, mmaOp_of_effMma fun _ _ => rfl,
    mmaOp_of_effMma fun _ _ => rfl, mmaTraps_of_effMma fun _ _ => rfl, mmaTraps_of_effMma fun _ _ => rfl,
    fun core s m rest h => execMmaExecute_of_accepted h, fun T ob m k i j hk hi hj => ⟨T.anc_mma ob m, T.get_mma ob hk hi hj⟩⟩
  case obres =>
    intro x s t hi hgo off sz d base
    let c := ctxAt (.obres x) 0x50 4 (extLen x) x t
    have heff := onGo_of_go (c := c) hgo effObres s
    have hoff : (c.sc64 s x.a).toNat = off := toNat_sc64_ctxAt ..
    have hsz : (c.sc64 s x.b).toNat = sz := toNat_sc64_ctxAt ..
    have hd : (if x.c.cls = .vec then 0 else (c.sc64 s x.c).toNat) = d := by rw [toNat_sc64_ctxAt]
    have htrap : ∀ {n : Nat}, effObres c s = .trap s (c.trap 0x0A n) → exec (.obres x) s =
        .next (takeTrap s t (trapHere t.pc (t.pc + BitVec.ofNat 64 (extLen x)) 0x0A n)) := fun h =>
      exec_of_trap rfl hi (heff.trans h) (team?_uid_of_issues hi)
    refine ⟨fun hvalid => htrap (effObres_of_valid hvalid), fun hfree ho hs hne hin hd64 hlt hfits hapart => ?reserved,
      fun hfree => ⟨fun hbad => ?range, fun hgood hmisfit => ?type, fun hgood hfits hmeets => ?overlap⟩⟩
    all_goals have hchecks := effObres_of_free hoff hsz hd hfree
    case reserved =>
      have hgood : RangeFits (s.bind t).osize off sz d := ⟨ho, hs, hne, hin, hd64, hlt⟩
      have hnone : ¬ MeetsRecord s t.core base (sz / 256) := fun ⟨r, hr, hmeets⟩ => hapart r hr hmeets
      exact exec_of_done rfl hi (heff.trans (hchecks.trans ((if_neg (not_not_intro hgood)).trans
        ((if_neg (not_not_intro hfits)).trans (if_neg hnone)))))
    case range => exact htrap (hchecks.trans (if_pos hbad))
    case type => exact htrap (hchecks.trans ((if_neg (not_not_intro hgood)).trans (if_pos hmisfit)))
    case overlap =>
      exact htrap (hchecks.trans ((if_neg (not_not_intro hgood)).trans ((if_neg (not_not_intro hfits)).trans (if_pos hmeets))))
  case traps =>
    intro x s t hgo trap
    refine ⟨fun hnone => ⟨exec_obfree_of_error hgo (rcdCheck_of_none hnone), exec_obput_of_error hgo (rcdCheck_of_none hnone)⟩,
      fun r hr hother => ⟨exec_obfree_of_error hgo (rcdCheck_of_foreign hr hother),
        exec_obput_of_error hgo (rcdCheck_of_foreign hr hother)⟩, fun r hr hi => ?record⟩
    intro lb b fits
    let c := ctxAt (.obput x) 0x50 6 (extLen x) x t
    have hb : (c.sc64 s x.b).toNat = b := toNat_sc64_ctxAt ..
    have hchecks := (onGo_of_go (c := c) hgo effObput s).trans (effObput_of_record hr hb)
    refine ⟨fun hmisfit => ?type, fun hfits hal => ?align, fun hfits hal hout => ?range⟩
    case type => exact exec_of_trap rfl hi (hchecks.trans (if_pos hmisfit)) (team?_uid_of_issues hi)
    case align =>
      exact exec_of_trap rfl hi (hchecks.trans ((if_neg (not_not_intro hfits)).trans (if_pos hal))) (team?_uid_of_issues hi)
    case range =>
      exact exec_of_trap rfl hi (hchecks.trans ((if_neg (not_not_intro hfits)).trans
        ((if_neg (not_not_intro hal)).trans (if_pos hout)))) (team?_uid_of_issues hi)
  case obfree =>
    intro x s t r hi hgo hr
    exact exec_of_done rfl hi ((onGo_of_go (c := ctxAt (.obfree x) 0x50 5 (extLen x) x t) hgo effObfree s).trans
      (effObfree_of_record hr))
  case obput =>
    intro x s t r hi hgo hr lb b ls hfits hal hlanes hin hreads
    let c := ctxAt (.obput x) 0x50 6 (extLen x) x t
    have hb : (c.sc64 s x.b).toNat = b := toNat_sc64_ctxAt ..
    have hinside : ¬ ((∃ l ∈ c.actives, 256 * r.size < b + lb * (1 + l)) ∨ 256 * r.size < b) := by
      rintro (⟨l, hl, hout⟩ | hout)
      · exact Nat.not_lt.mpr (hlanes l hl) hout
      · exact Nat.not_lt.mpr hin hout
    have hchecks := (onGo_of_go (c := c) hgo effObput s).trans (effObput_of_record hr hb)
    refine exec_of_done rfl hi (hchecks.trans ((if_neg (not_not_intro hfits)).trans ((if_neg (not_not_intro hal)).trans
      ((if_neg hinside).trans ((if_neg (ne_true_of_eq_false (hreads _))).trans ?_)))))
    simp only [C.putBytes, c, opnd_ctxAt]
    rfl

end Sys2Proof.Machine
end

section
/-!
PROOFS. Taking a wound and rolling a task back (14 R328, R329): which operations leave the run states of the teams alone, and what the
restart of a task leaves in its registers.
-/

namespace Sys2Proof.Machine

/-! ## Run states -/

/-- A fold keeps what each of its steps keeps. -/
theorem foldl_keeps {α β γ : Type} (p : β → γ) {g : β → α → β} (h : ∀ b a, p (g b a) = p b) (l : List α) (b : β) :
    p (l.foldl g b) = p b := by
  induction l generalizing b with
  | nil => rfl
  | cons a l ih => exact (ih _).trans (h b a)

/-- The run state of a team. -/
def State.runOf (s : State) (u : Nat) : Option RunState := (s.team? u).map Team.run

theorem runOf_congr {s s' : State} (h : s'.teams = s.teams) (u : Nat) : s'.runOf u = s.runOf u := by
  rw [State.runOf, State.runOf, team?_congr h]

/-- A change of the teams that leaves their numbers and run states leaves every run state. -/
theorem runOf_map {s s' : State} {c : Team → Team} (hc : ∀ t, (c t).uid = t.uid ∧ (c t).run = t.run)
    (h : s'.teams = s.teams.map c) (u : Nat) : s'.runOf u = s.runOf u := by
  have hteam : s'.team? u = (s.team? u).map c := (team?_congr (s' := s') (s := { s with teams := s.teams.map c }) h u).trans
    (team?_map fun t => (hc t).1)
  rw [State.runOf, hteam, Option.map_map, State.runOf]
  exact congrArg (fun g => (s.team? u).map g) (funext fun t => (hc t).2)

@[simp] theorem runOf_postOnce (s : State) (e : Ev) (u : Nat) : (s.postOnce e).runOf u = s.runOf u :=
  runOf_congr (teams_postOnce s e) u

theorem runOf_onTeam (s : State) (v : Nat) {f : Team → Team} (hf : ∀ t, (f t).uid = t.uid ∧ (f t).run = t.run) (u : Nat) :
    (s.onTeam v f).runOf u = s.runOf u :=
  runOf_map (c := fun t => if t.uid = v then f t else t)
    (fun t => by
      split
      · exact hf t
      · exact ⟨rfl, rfl⟩) rfl u

@[simp] theorem runOf_apply (s : State) (cells : List (Nat × Byte)) (u : Nat) : (s.apply cells).runOf u = s.runOf u := by
  obtain ⟨es, h⟩ := apply_eq s cells
  refine runOf_map (c := Team.marked cells) (fun t => ?_) (congrArg State.teams h) u
  obtain ⟨e, ht⟩ := t.marked_eq cells
  rw [ht]
  exact ⟨rfl, rfl⟩

@[simp] theorem runOf_clearWait (s : State) (id u : Nat) : (clearWait s id).runOf u = s.runOf u := by
  obtain ⟨es, h⟩ := clearWait_eq s id
  exact runOf_map (c := fun t => { t with holds := t.holds.map (fun h => { h with waits := h.waits.filter (· ≠ id) }) })
    (fun _ => ⟨rfl, rfl⟩) (congrArg State.teams h) u

@[simp] theorem runOf_fillDst (s : State) (f : Flight) (u : Nat) : (fillDst s f).runOf u = s.runOf u := by
  let p (t : Team) : Nat × RunState := (t.uid, t.run)
  refine runOf_onTeam _ _ (fun t => Prod.mk.inj (?_ : p _ = p t)) u
  refine (foldl_keeps p (fun b a => ?_) _ _).trans (foldl_keeps p (fun b a => ?_) _ _)
  · split <;> rfl
  · split
    · rfl
    · split <;> rfl

theorem runOf_releaseHasps (s : State) (v : Nat) (p : Hasp → Bool) (u : Nat) : (releaseHasps s v p).runOf u = s.runOf u :=
  foldl_keeps (fun s : State => s.runOf u) (fun _ _ => runOf_postOnce ..) _ _

theorem runOf_retestAll (s : State) (u : Nat) : (retestAll s).runOf u = s.runOf u :=
  foldl_keeps (fun s : State => s.runOf u) (fun _ _ => runOf_postOnce ..) _ _

/-! ## The uses of a task end (17 R387) -/

theorem runOf_wr {a : Agent} {s s' : State} {va n x : Nat} (h : a.wr s va n x = .ok s') (u : Nat) : s'.runOf u = s.runOf u := by
  simp only [Agent.wr, Agent.put, writeVA] at h
  cases hp : piecesOf s a.core a.ctx .write va (leBytes n x).length with
  | error e => simp [hp] at h
  | ok l =>
    simp only [hp] at h
    cases h
    exact runOf_apply ..

theorem runOf_setErr (a : Agent) (s : State) (k : KMap) (u : Nat) : (setErr a s k).runOf u = s.runOf u := by
  unfold setErr
  split
  · split
    · rfl
    · cases h : a.wr s k.desc 1 (_ ||| 2) with
      | error e => rfl
      | ok s' => exact runOf_wr h u
  · rfl

theorem runOf_pushFree {a : Agent} {s s' : State} {k : KMap} {b : Nat} (h : pushFree a s k b = .ok s') (u : Nat) :
    s'.runOf u = s.runOf u := by
  obtain ⟨n, -, h⟩ := bind_eq_ok h
  obtain ⟨s1, h1, h⟩ := bind_eq_ok h
  exact (runOf_wr h u).trans (runOf_wr h1 u)

theorem runOf_dropUse {a : Agent} {s s' : State} {seqb m b : Nat} (h : dropUse a s seqb m b = .ok s') (u : Nat) :
    s'.runOf u = s.runOf u := by
  obtain ⟨r, -, h⟩ := bind_eq_ok h
  cases r with
  | bad code => cases h; rfl
  | ok k =>
    obtain ⟨n, -, h⟩ := bind_eq_ok h
    obtain ⟨s1, h1, h⟩ := bind_eq_ok h
    obtain ⟨x, -, h⟩ := bind_eq_ok h
    refine Eq.trans ?_ (runOf_wr h1 u)
    split at h
    · exact runOf_pushFree h u
    · cases h; rfl

theorem runOf_dropUseOr (t : Team) (s : State) (p : Nat × Nat) (u : Nat) : (dropUseOr t s p).runOf u = s.runOf u := by
  unfold dropUseOr
  split
  · next h => exact runOf_dropUse h u
  · split
    · exact runOf_setErr ..
    · rfl

theorem runOf_dropUses (s : State) (t : Team) (u : Nat) : (dropUses s t).runOf u = s.runOf u := by
  unfold dropUses
  split
  · rfl
  · rw [runOf_retestAll, runOf_onTeam]
    · exact foldl_keeps (fun s : State => s.runOf u) (fun _ _ => runOf_dropUseOr ..) _ _
    · exact fun _ => ⟨rfl, rfl⟩

/-! ## What a wound discards, drains and withdraws (14 R329) -/

theorem runOf_discard (s : State) (f : Flight) (u : Nat) : (discard s f).runOf u = s.runOf u := by
  rw [discard, runOf_clearWait, runOf_fillDst]
  exact runOf_congr rfl u

theorem runOf_discardFlights (s : State) (t : Team) (u : Nat) : (discardFlights s t).runOf u = s.runOf u := by
  have hdiscard : ∀ (fs : List Flight) (s : State), (fs.foldl discard s).runOf u = s.runOf u :=
    foldl_keeps (fun s : State => s.runOf u) (fun _ _ => runOf_discard ..)
  rw [discardFlights, runOf_onTeam]
  · refine (foldl_keeps (fun s : State => s.runOf u) (fun _ _ => runOf_fillDst ..) _ _).trans
      ((foldl_keeps (fun s : State => s.runOf u) (fun s f => ?_) _ _).trans ?_)
    · split
      · exact runOf_discard ..
      · rfl
    · exact (runOf_congr rfl u).trans ((hdiscard _ _).trans (runOf_congr rfl u))
  · exact fun _ => ⟨rfl, rfl⟩

theorem runOf_applyWrite (s : State) (w : BufWrite) (u : Nat) : (applyWrite s w).runOf u = s.runOf u := by
  have hline : ∀ (cs : List (Nat × Byte)) (s : State),
      (cs.foldl (fun s c => l1DropLine s w.core c.1) s).runOf u = s.runOf u :=
    foldl_keeps (fun s : State => s.runOf u) (fun _ _ => runOf_congr rfl u)
  rw [applyWrite, runOf_clearWait, runOf_apply]
  split
  · refine (runOf_congr rfl u).trans ?_
    split
    · exact (hline _ _).trans (runOf_congr rfl u)
    · exact runOf_congr rfl u
  · split
    · exact (hline _ _).trans (runOf_congr rfl u)
    · exact runOf_congr rfl u

theorem runOf_drainSets (s : State) (t : Team) (u : Nat) : (drainSets s t).runOf u = s.runOf u := by
  refine (foldl_keeps (fun s : State => s.runOf u) (fun s w => ?_) _ _).trans
    (foldl_keeps (fun s : State => s.runOf u) (fun s w => ?_) _ _)
  · split
    · exact runOf_applyWrite ..
    · rfl
  · exact (runOf_clearWait ..).trans (runOf_congr rfl u)

/-- The team itself is not among those that request the lease anew. -/
theorem runOf_withdrawLease (s : State) (t : Team) : (withdrawLease s t).runOf t.uid = s.runOf t.uid := by
  have hself : ∀ (c : Team → Team), (∀ x, (c x).uid = x.uid) → (∀ x, x.uid = t.uid → c x = x) → ∀ s' : State,
      s'.teams = s.teams.map c → s'.runOf t.uid = s.runOf t.uid := by
    intro c huid hown s' hs'
    have hteam : s'.team? t.uid = (s.team? t.uid).map c :=
      (team?_congr (s := { s with teams := s.teams.map c }) hs' t.uid).trans (team?_map huid)
    rw [State.runOf, hteam, State.runOf]
    cases ht : s.team? t.uid with
    | none => rfl
    | some x => simp only [Option.map_some, hown x (uid_of_team? ht)]
  refine hself _ (fun x => ?_) (fun x hx => ?_) _ rfl
  · split <;> rfl
  · simp [hx]

theorem runOf_withdrawRequests (s : State) (t : Team) : (withdrawRequests s t).runOf t.uid = s.runOf t.uid := by
  rw [withdrawRequests, runOf_withdrawLease, runOf_onTeam, runOf_releaseHasps]
  exact fun _ => ⟨rfl, rfl⟩

/-- What a wound leaves before the undo engine begins. -/
def woundLeft (s : State) (t : Team) : State := drainSets (withdrawRequests (discardFlights (dropUses s t) t) t) t

theorem runOf_woundLeft (s : State) (t : Team) : (woundLeft s t).runOf t.uid = s.runOf t.uid := by
  rw [woundLeft, runOf_drainSets, runOf_withdrawRequests, runOf_discardFlights, runOf_dropUses]

/-- A team that takes a wound goes off issue, with no trap due and no partial run. -/
def Team.offIssue (t : Team) : Team :=
  match t.run with
  | .saved _ => { t with run := .saved (some .setWait), due := none, part := none }
  | _ => { t with run := .parked .setWait, due := none, part := none }

theorem Team.offIssue_uid (t : Team) : t.offIssue.uid = t.uid := by
  unfold Team.offIssue
  split <;> rfl

theorem Team.offIssue_of_running {t : Team} (h : t.run = .running) :
    t.offIssue = { t with run := .parked .setWait, due := none, part := none } := by
  simp only [Team.offIssue, h]

theorem exec_woundTake {u : Nat} {s : State} {t : Team} (ht : s.team? u = some t) (hcan : canTakeWound t = true)
    (huses : usesAbsent s t = none) :
    exec (.woundTake u) s = .next (((woundLeft s t).onTeam u Team.offIssue).postOnce (.rollbackComplete u)) := by
  show execWoundTake u s = _
  simp only [execWoundTake, ht, hcan, huses, Bool.not_true, Bool.false_eq_true, if_false]
  rfl

/-! ## Rolling back -/

/-- Records that can all be written back are written back alike, whether firmware has declined a page or not. -/
theorem undoRecords_of_ok {t : Team} {is : List Nat} {s s' : State} (h : undoRecords t false is s = .ok s') (declined : Bool) :
    undoRecords t declined is s = .ok s' := by
  induction is generalizing s with
  | nil => exact h
  | cons i is ih =>
    rw [undoRecords] at h ⊢
    cases hrec : undoRecord t s i with
    | ok s1 =>
      rw [hrec] at h
      exact ih h
    | error e =>
      obtain ⟨va, tr⟩ := e
      rw [hrec] at h
      cases tr with
      | absent => cases h
      | ok seg => exact ih h
      | fail code cause => exact ih h

theorem rollback_of_unlogged {s s' : State} {t : Team} {k : Task} (hk : t.task = some k) (hlog : k.logged = [])
    (hclear : clearUndo s t = .ok s') (declined : Bool) :
    rollback declined s t = .ok (releaseHasps s' t.uid (fun _ => true)) := by
  simp only [rollback, hk, hlog, List.isEmpty_nil, Bool.not_true, Bool.false_eq_true, if_false]
  show (passOver declined s (clearUndo s t) >>= _) = _
  rw [hclear]
  rfl

theorem rollback_of_logged {s s' s'' : State} {t : Team} {k : Task} {n : Nat} (hk : t.task = some k) (hlog : k.logged ≠ [])
    (hn : undoRead s t = .ok n) (hrec : undoRecords t false (List.range n).reverse s = .ok s')
    (hclear : clearUndo s' t = .ok s'') (declined : Bool) :
    rollback declined s t = .ok (releaseHasps s'' t.uid (fun _ => true)) := by
  have hlogged : k.logged.isEmpty = false := isEmpty_eq_false_of_ne_nil hlog
  have hback : passOver declined s (undoRead s t >>= fun n => undoRecords t declined (List.range n).reverse s) = .ok s' := by
    rw [hn]
    exact congrArg (passOver declined s) (undoRecords_of_ok hrec declined)
  simp only [rollback, hk, hlogged, Bool.not_false, if_true, hback]
  show (passOver declined s' (clearUndo s' t) >>= _) = _
  rw [hclear]
  rfl

theorem exec_rollbackComplete {u : Nat} {s s' : State} {t : Team} (ht : s.team? u = some t) (hw : t.wound = true)
    (hroll : ∀ declined, rollback declined s t = .ok s') : exec (.rollbackComplete u) s =
      .next ({ s' with declined := s'.declined.erase (.rollbackComplete u) }.onTeam u restartTask) := by
  show execRollbackComplete u s = _
  simp only [execRollbackComplete, ht, hw, hroll, uid_of_team? ht, Bool.not_true, Bool.false_eq_true, if_false]

theorem clearUndo_of_written {s s' : State} {t : Team} (hlen : t.undol ≠ 0) (htask : t.task.isSome = true)
    (hw : writeVA s t.core t.ctx t.undob.toNat (leBytes 12 0) = .ok s') : clearUndo s t = .ok s' := by
  have hsome : t.task.isNone = false := by rwa [Option.isNone_eq_false_iff]
  simp only [clearUndo, hlen, decide_false, hsome, Bool.or_false, Bool.false_eq_true, if_false, hw]

/-! ## The registers of a task that begins again -/

theorem Team.length_s_setSs (t : Team) (n : Nat) (ws : List Word64) : (t.setSs n ws).s.length = t.s.length := by
  induction ws generalizing t n with
  | nil => rfl
  | cons w ws ih => exact (ih _ _).trans (List.length_modify ..)

theorem Team.sval_setSs (t : Team) (n : Nat) (ws : List Word64) (k : Nat) : (t.setSs n ws).sval k =
    if n ≤ k ∧ k < n + ws.length ∧ k < t.s.length then ws.getD (k - n) 0 else t.sval k := by
  induction ws generalizing t n with
  | nil => exact (if_neg (by simp; omega)).symm
  | cons w ws ih =>
    rw [Team.setSs, ih, Team.sval_setS, Team.setS, List.length_modify, List.length_cons]
    by_cases hk : k < t.s.length
    · rcases Nat.lt_trichotomy k n with h | h | h
      · rw [if_neg (by omega), if_neg (by omega), if_neg (by omega)]
      · subst h
        rw [if_neg (by omega), if_pos ⟨rfl, hk⟩, if_pos (by omega), Nat.sub_self, List.getD_cons_zero]
      · obtain ⟨j, hj⟩ : ∃ j, k = n + 1 + j := ⟨k - (n + 1), by omega⟩
        subst hj
        rw [show n + 1 + j - (n + 1) = j by omega, show n + 1 + j - n = j + 1 by omega, List.getD_cons_succ]
        by_cases hlast : j < ws.length
        · rw [if_pos (by omega), if_pos (by omega)]
        · rw [if_neg (by omega), if_neg (by omega), if_neg (by omega)]
    · rw [if_neg (by omega), if_neg (by omega), if_neg (by omega)]

/-- Full/empty bits of scalar registers keep the values and the length of the file. -/
theorem Team.setFull_scalar (t : Team) (n : Nat) (b : Bool) (m k : Nat) :
    (t.setFull false n b m).s.length = t.s.length ∧ (t.setFull false n b m).sval k = t.sval k ∧
    (t.setFull false n b m).sfull k = if n ≤ k ∧ k < n + m ∧ k < t.s.length then b else t.sfull k := by
  induction m generalizing t with
  | zero => exact ⟨rfl, rfl, (if_neg (by omega)).symm⟩
  | succ m ih =>
    obtain ⟨hlen, hval, hfull⟩ := ih (t.setSFull (n + m) b)
    have hlen1 : (t.setSFull (n + m) b).s.length = t.s.length := List.length_modify ..
    refine ⟨hlen.trans hlen1, hval.trans ?_, hfull.trans ?_⟩
    · simp only [Team.setSFull, Team.sval, List.getD_eq_getElem?_getD, List.getElem?_modify]
      by_cases hk : k < t.s.length <;> by_cases hn : n + m = k <;> simp [hk, hn]
    · rw [hlen1, Team.sfull_setSFull]
      split
      · rw [if_pos (by omega)]
      · refine if_congr ?_ rfl rfl
        omega

theorem restartTask_of_task {t : Team} {k : Task} (hk : t.task = some k) : ∃ run, restartTask t =
    { ((t.setSs k.dst k.entry).setFull false k.dst true 4) with
      task := some { k with restarts := min (2 ^ 32 - 1) (k.restarts + 1), deferred := [], logged := [], declared := false }
      sets := List.replicate 8 SetSlot.zero, pc := k.restart, wound := false, aux := [], mwEnd := .none
      entries := t.entries.filter (fun f => f.id ≠ 0), run := run } := by
  simp only [restartTask, hk]
  exact ⟨_, rfl⟩

/-- Settles O22: a team that takes a wound keeps its run state through what is discarded, drained and withdrawn, and is then taken
off issue; records that can be written back are, whether firmware declined a page or not. -/
theorem woundsRollTheTaskBack : Obligations.WoundsRollTheTaskBack := by
  unfold Obligations.WoundsRollTheTaskBack
  refine ⟨?take, ?unlogged, ?logged, fun s t s' hlen htask hw => clearUndo_of_written hlen htask hw, ?restart⟩
  case take =>
    intro u s t ht hcan hrun huses
    obtain rfl : t.uid = u := uid_of_team? ht
    have hleft := runOf_woundLeft s t
    simp only [State.runOf, ht, Option.map_some, Option.map_eq_some_iff, hrun] at hleft
    obtain ⟨t1, ht1, hrun1⟩ := hleft
    refine ⟨_, t1.offIssue, exec_woundTake ht hcan huses, ?_, ?_⟩
    · rw [team?_postOnce]
      exact team_onTeam_same Team.offIssue_uid ht1
    · rw [Team.offIssue_of_running hrun1]
      exact ⟨rfl, rfl, rfl, mem_agenda_postOnce ..⟩
  case unlogged =>
    intro u s t k s' ht hw hk hlog hclear
    exact exec_rollbackComplete ht hw (rollback_of_unlogged hk hlog hclear)
  case logged =>
    intro u s t k n s' s'' ht hw hk hlog hn hrec hclear
    exact exec_rollbackComplete ht hw (rollback_of_logged hk hlog hn hrec hclear)
  case restart =>
    intro t k hk hentry hdst
    obtain ⟨run, h⟩ := restartTask_of_task hk
    rw [h]
    refine ⟨rfl, rfl, fun j hj => ?_, rfl, _, rfl, rfl, rfl, rfl, rfl⟩
    obtain ⟨-, hval, hfull⟩ := (t.setSs k.dst k.entry).setFull_scalar k.dst true 4 (k.dst + j)
    rw [Team.sval_setSs, if_pos (by omega), Nat.add_sub_cancel_left] at hval
    rw [Team.length_s_setSs, if_pos (by omega)] at hfull
    exact ⟨hval, hfull⟩

end Sys2Proof.Machine
end

section
/-!
PROOFS. Atomic sets (14 R315-R318, R322, R333): the effects of group aset at their issue, the arrival of a request, and how a request
is settled at its slice.
-/

namespace Sys2Proof.Machine

/-! ## Effects at issue (14 R333) -/

section
variable {c : C} {s : State} {b n : Nat}

/-- The state of a declaration slot. -/
def Team.slotSt (t : Team) (k : Nat) : SetState :=
  match t.sets[k]? with
  | some sl => sl.st
  | none => .empty

theorem slotSt_not_busy {t : Team} {k : Nat} (hfree : ∀ sl, t.sets[k]? = some sl → sl.st = .empty ∨ sl.st = .declared) :
    (decide (t.slotSt k = .waiting) || decide (t.slotSt k = .acquired)) = false := by
  unfold Team.slotSt
  cases hsl : t.sets[k]? with
  | none => rfl
  | some sl =>
    dsimp only
    rcases hfree sl hsl with h | h <;> simp only [h] <;> rfl

/-- A team whose slot declares a range of its task. -/
def Team.declaring (t : Team) (k b n : Nat) : Team :=
  { t with
    task := t.task.map (fun k => { k with declared := true })
    sets := t.sets.modify k (fun _ => { st := .declared, base := BitVec.ofNat 64 b, len := BitVec.ofNat 64 n }) }

theorem effAsdecl_of_no_task (h : c.t.task = none) : effAsdecl c s = .trap s (c.trap 0x05 0x0812) := by
  simp only [effAsdecl, h, Option.isNone_none, if_true]

/-- `asdecl` in a task of an aligned range that is no longer than a set: what is left are the checks of the addresses and of the
slot. -/
theorem effAsdecl_of_aligned (hb : (c.sc64 s c.x.a).toNat = b) (hn : (c.sc64 s c.x.b).toNat = n) (htask : c.t.task.isSome = true)
    (hal : b % 64 = 0) (hpos : 0 < n) (hlen : n % 64 = 0) (hmax : n ≤ 2 ^ 20) : effAsdecl c s =
      if !canonical b || !canonical ((b + n - 1) % 2 ^ 64) then .trap s (c.trapAt 0x06 0x0400 b [])
      else if c.t.slotSt c.x.d.toNat = .waiting || c.t.slotSt c.x.d.toNat = .acquired then .trap s (c.trap 0x05 0x0811)
      else .done (s.onTeam c.t.uid (fun t => t.declaring c.x.d.toNat b n)) := by
  have hsome : ¬ c.t.task.isNone = true := by rw [Option.isNone_eq_false_iff.mpr htask]; exact Bool.false_ne_true
  have hrange : ¬ (decide (n = 0) || decide (n % 64 ≠ 0) || decide (2 ^ 20 < n)) = true := by
    simp only [Bool.or_eq_true, decide_eq_true_eq]
    omega
  subst hb hn
  exact (if_neg hsome).trans ((if_neg (not_not_intro hal)).trans (if_neg hrange))

theorem effAsdecl_of_range (hb : (c.sc64 s c.x.a).toNat = b) (hn : (c.sc64 s c.x.b).toNat = n) (htask : c.t.task.isSome = true)
    (hfree : ∀ sl, c.t.sets[c.x.d.toNat]? = some sl → sl.st = .empty ∨ sl.st = .declared)
    (hal : b % 64 = 0) (hpos : 0 < n) (hlen : n % 64 = 0) (hmax : n ≤ 2 ^ 20) (hfirst : canonical b = true)
    (hlast : canonical ((b + n - 1) % 2 ^ 64) = true) :
    effAsdecl c s = .done (s.onTeam c.t.uid (fun t => t.declaring c.x.d.toNat b n)) := by
  rw [effAsdecl_of_aligned hb hn htask hal hpos hlen hmax, hfirst, hlast, slotSt_not_busy hfree]
  rfl

theorem effAsclr_of_free (hfree : ∀ sl, c.t.sets[c.x.d.toNat]? = some sl → sl.st = .empty ∨ sl.st = .declared) :
    effAsclr c s = .done (s.onTeam c.t.uid (fun t => { t with sets := t.sets.modify c.x.d.toNat (fun _ => SetSlot.zero) })) :=
  if_neg (ne_true_of_eq_false (slotSt_not_busy hfree))

end

/-! ## asqry -/

section
variable {s : State} {t : Team} {q : Nat} {sl : SetSlot}

theorem asqryWord_of_base (hq : q < 8) (hsl : t.sets[q]? = some sl) : asqryWord s t q = match sl.st with
    | .empty => 0
    | .declared => sl.base.toNat % 2 ^ 57 / 64 * 64 + 1
    | .waiting => sl.base.toNat % 2 ^ 57 / 64 * 64 + 2
    | .acquired => sl.base.toNat % 2 ^ 57 / 64 * 64 + 3 := by
  simp only [asqryWord, hq, if_true, List.getD_eq_getElem?_getD, hsl, Option.getD_some]
  cases sl.st <;> rfl

theorem asqryWord_of_length (hlow : 8 ≤ q) (hq : q < 16) (hsl : t.sets[q - 8]? = some sl) :
    asqryWord s t q = if sl.st = .empty then 0 else sl.len.toNat := by
  simp only [asqryWord, Nat.not_lt.mpr hlow, hq, if_true, if_false, List.getD_eq_getElem?_getD, hsl, Option.getD_some]

theorem asqryWord_of_counts {k : Task} (hk : t.task = some k) : asqryWord s t 16 = k.restarts * 2 ^ 32 + undoCount s t := by
  simp only [asqryWord, hk]
  rfl

theorem asqryWord_of_large (hq : 16 < q) : asqryWord s t q = 0 := by
  simp only [asqryWord, show ¬ q < 8 by omega, show ¬ q < 16 by omega, show ¬ q = 16 by omega, if_false]

end

/-! ## asundo -/

section
variable {c : C} {s s1 : State} {b n cnt : Nat}

/-- The undo area of a team. -/
def undoArea (s : State) (u b n : Nat) : State :=
  s.onTeam u (fun t => { t with undob := BitVec.ofNat 64 b, undol := BitVec.ofNat 64 n })

variable (hb : (c.sc64 s c.x.a).toNat = b) (hn : (c.sc64 s c.x.b).toNat = n) (hal : b % 64 = 0) (hlen : n % 64 = 0)
  (hmax : n ≤ 2 ^ 24) (hcnt : undoRead s c.t = .ok cnt) (hfit : cnt = 0 ∨ 64 + 72 * cnt ≤ n)
include hb hn hal hlen hmax hcnt hfit

/-- What `asundo` does when its operands are good and the records in use fit the new area. -/
theorem effAsundo_of_fit : effAsundo c s =
    if n = 0 then .done (undoArea s c.t.uid b n)
    else if c.t.undol = 0 then (match writeVA s c.t.core c.t.ctx b (leBytes 64 0) with
      | .ok s => .done (undoArea s c.t.uid b n)
      | .error e => c.meet s b 0 e)
    else moveBytes c s c.t.undob.toNat b (64 + 72 * cnt) (fun s => .done (undoArea s c.t.uid b n)) := by
  have hbig : ¬ 2 ^ 24 < n := by omega
  have hroom : (decide (cnt ≠ 0) && decide (n < 64 + 72 * cnt)) = false := by
    rcases hfit with rfl | h
    · rfl
    · simp [Nat.not_lt.mpr h]
  simp only [effAsundo, hb, hn, hal, hlen, ne_eq, not_true_eq_false, decide_false, hbig, Bool.or_false, Bool.false_eq_true,
    if_false, hcnt]
  exact if_neg (ne_true_of_eq_false hroom)

theorem effAsundo_of_empty (hzero : n = 0) : effAsundo c s = .done (undoArea s c.t.uid b n) :=
  (effAsundo_of_fit hb hn hal hlen hmax hcnt hfit).trans (if_pos hzero)

theorem effAsundo_of_first (hpos : n ≠ 0) (hold : c.t.undol = 0)
    (hw : writeVA s c.t.core c.t.ctx b (leBytes 64 0) = .ok s1) : effAsundo c s = .done (undoArea s1 c.t.uid b n) := by
  rw [effAsundo_of_fit hb hn hal hlen hmax hcnt hfit, if_neg hpos, if_pos hold, hw]

theorem effAsundo_of_moved {segs : List Seg} (hpos : n ≠ 0) (hold : c.t.undol ≠ 0)
    (hsegs : piecesOf s c.t.core c.t.ctx .read c.t.undob.toNat (64 + 72 * cnt) = .ok segs) {s0 : State}
    (hs0 : s0 = applyAll s (writesOn s c.t.core c.t.uid (segKeys segs) false))
    (hw : writeVA s0 c.t.core c.t.ctx b (homeBytes s0 segs) = .ok s1) :
    effAsundo c s = .done (undoArea (l1Drop s1 c.t.core) c.t.uid b n) := by
  rw [effAsundo_of_fit hb hn hal hlen hmax hcnt hfit, if_neg hpos, if_neg hold]
  have hput : enginePut s0 c.t.core c.t.ctx b 0 0 (.instructionFetch c.t.uid) (homeBytes s0 segs) = .done s1 := by
    simp only [enginePut, writeUpto, hw]
  subst hs0
  simp only [moveBytes, hsegs, hput]

end

/-! ## SET_REQUEST_ARRIVAL (14 R316, R317) -/

/-- The state in which a slot is declared again, its requests are withdrawn and its team goes on. -/
def acquisitionBack (s : State) (u k : Nat) (aux : Team → List Nat) : State :=
  ((releaseHasps s u (fun h => h.slot = k)).onTeam u (fun v => { v with
    sets := v.sets.modify k (fun y => { y with st := .declared }) })).onTeam u (fun v => { v with run := .running, aux := aux v })

theorem acquireFails_of_parked {u k code sub va : Nat} {access : Bool} {s : State} {t : Team} (ht : s.team? u = some t)
    (hrun : t.run = .parked .setWait) :
    acquireFails s t k code sub va access =
      (match (acquisitionBack s u k (fun v => if access then [v.pc.toNat, k, code, sub, va, 0] else [])).team? u with
      | none => acquisitionBack s u k (fun v => if access then [v.pc.toNat, k, code, sub, va, 0] else [])
      | some t' => if access then acquisitionBack s u k (fun v => if access then [v.pc.toNat, k, code, sub, va, 0] else [])
        else fetchTrap (acquisitionBack s u k (fun v => if access then [v.pc.toNat, k, code, sub, va, 0] else [])) t' code sub va) := by
  obtain rfl : t.uid = u := uid_of_team? ht
  simp only [acquireFails, hrun, ne_eq, not_true_eq_false, if_false]
  rfl

section
variable {u k : Nat} {s : State} {t : Team} {sl : SetSlot} {task : Task} (ht : s.team? u = some t)
  (hsl : t.sets[k]? = some sl) (htask : t.task = some task) (hst : sl.st = .waiting)
include ht hsl htask hst

/-- The arrival when the range has its pages on the HBM or CXL tier and every request made so far has granted. -/
theorem exec_setRequestArrival_of_pieces {segs : List Seg}
    (hsegs : piecesOf s t.core t.ctx .read sl.base.toNat sl.len.toNat = .ok segs) (hfar : farAddr sl.base.toNat segs = none)
    (hgranted : ∀ h ∈ s.hasps.filter (fun h => h.team = u && h.slot = k), h.granted = true) :
    exec (.setRequestArrival u k) s =
      (match (slicesOf s (lineKeys segs)).find? (fun x => !(s.hasps.filter (fun h => h.team = u && h.slot = k)).any
        (fun h => h.slice = x)) with
      | some x => .next (if s.agenda.contains (.setGrant x) then s.postOnce (.setRequestArrival u k) else settleHasp s
          { slice := x, age := task.age, team := u, slot := k, lines := linesHomed s (lineKeys segs) x, granted := false })
      | none => .next ((acqDrop (setSlot s u k .acquired) t.core).onTeam u
          (fun t => if t.run = .parked .setWait then { t with run := .running } else t))) := by
  have hall : (s.hasps.filter (fun h => h.team = u && h.slot = k)).any (fun h => !h.granted) = false := by
    rw [List.any_eq_false]
    exact fun h hh => by rw [hgranted h hh]; exact Bool.false_ne_true
  show execSetRequestArrival u k s = _
  simp only [execSetRequestArrival, ht, hsl, htask, hst, ne_eq, not_true_eq_false, if_false, hsegs, hfar, hall,
    Bool.false_eq_true] <;> rfl

/-- When every slice has granted, the slot is acquired and the team goes on. -/
theorem setRequestArrival_acquires {segs : List Seg}
    (hsegs : piecesOf s t.core t.ctx .read sl.base.toNat sl.len.toNat = .ok segs) (hfar : farAddr sl.base.toNat segs = none)
    (hgranted : ∀ h ∈ s.hasps.filter (fun h => h.team = u && h.slot = k), h.granted = true)
    (hslices : ∀ sc ∈ slicesOf s (lineKeys segs), ∃ h ∈ s.hasps.filter (fun h => h.team = u && h.slot = k), h.slice = sc)
    (hrun : t.run = .parked .setWait) :
    ∃ s' t', exec (.setRequestArrival u k) s = .next s' ∧ s'.team? u = some t' ∧ t'.run = .running ∧
      (t'.sets[k]?).map (fun y => y.st) = some .acquired ∧ s'.hasps = s.hasps := by
  have hnone : (slicesOf s (lineKeys segs)).find? (fun x => !(s.hasps.filter (fun h => h.team = u && h.slot = k)).any
      (fun h => h.slice = x)) = none := by
    rw [List.find?_eq_none]
    intro sc hsc
    obtain ⟨h, hh, hsl⟩ := hslices sc hsc
    have hany : (s.hasps.filter (fun h => h.team = u && h.slot = k)).any (fun h => h.slice = sc) = true :=
      List.any_eq_true.mpr ⟨h, hh, decide_eq_true hsl⟩
    rw [hany]
    exact Bool.false_ne_true
  have hexec := exec_setRequestArrival_of_pieces ht hsl htask hst hsegs hfar hgranted
  rw [hnone] at hexec
  have hslot : (acqDrop (setSlot s u k .acquired) t.core).team? u =
      some { t with sets := t.sets.modify k (fun sl => { sl with st := .acquired }) } :=
    team_onTeam_same (s := s) (fun _ => rfl) ht
  refine ⟨_, _, hexec, team_onTeam_same (fun v => ?_) hslot, ?_, ?_, rfl⟩
  · split <;> rfl
  · rw [if_pos hrun]
  · rw [if_pos hrun]
    simp [hsl]

/-- A range with a page on the host or peer tier traps its access at that page (R322). -/
theorem exec_setRequestArrival_of_far {segs : List Seg} {va : Nat} {t' : Team} (hrun : t.run = .parked .setWait)
    (hsegs : piecesOf s t.core t.ctx .read sl.base.toNat sl.len.toNat = .ok segs) (hfar : farAddr sl.base.toNat segs = some va)
    (ht' : (acquisitionBack s u k (fun _ => [])).team? u = some t') : exec (.setRequestArrival u k) s =
      .next (fetchTrap (acquisitionBack s u k (fun _ => [])) t' 0x05 0x0813 va) := by
  have hexec : exec (.setRequestArrival u k) s = .next (acquireFails s t k 0x05 0x0813 va false) := by
    show execSetRequestArrival u k s = _
    simp only [execSetRequestArrival, ht, hsl, htask, hst, ne_eq, not_true_eq_false, if_false, hsegs, hfar]
  rw [hexec, acquireFails_of_parked ht hrun]
  simp only [Bool.false_eq_true, if_false, ht']

/-- A range that fails for good leaves the failure to the access, whose team goes on (09 R205). -/
theorem exec_setRequestArrival_of_fail {code cause : Nat} (hrun : t.run = .parked .setWait)
    (hsegs : piecesOf s t.core t.ctx .read sl.base.toNat sl.len.toNat = .error (.fail code cause)) :
    exec (.setRequestArrival u k) s = .next (acquisitionBack s u k (fun v => [v.pc.toNat, k, code, cause * 256,
      failVA s t.core t.ctx .read sl.base.toNat sl.len.toNat, 0])) := by
  have hexec : exec (.setRequestArrival u k) s = .next (acquireFails s t k code (cause * 256)
      (failVA s t.core t.ctx .read sl.base.toNat sl.len.toNat) true) := by
    show execSetRequestArrival u k s = _
    simp only [execSetRequestArrival, ht, hsl, htask, hst, ne_eq, not_true_eq_false, if_false, hsegs, meetFault]
  rw [hexec, acquireFails_of_parked ht hrun]
  simp only [if_true]
  split <;> rfl

end

/-! ## Requests settled at a slice (14 R317, R318, R328) -/

/-- What the marking of wounds can do to a team: it keeps its number and task, is not put before its commit, and no wound goes. -/
def Team.Marked (t t' : Team) : Prop :=
  t'.uid = t.uid ∧ t'.task = t.task ∧ (t.wound = true → t'.wound = true) ∧
  (t.run ≠ .parked .apply → t'.run ≠ .parked .apply)

/-- A change of the state in which teams are only marked, and no hasp changes. -/
def MarksOnly (s s' : State) : Prop :=
  s'.hasps = s.hasps ∧ ∀ v t, s.team? v = some t → ∃ t', s'.team? v = some t' ∧ t.Marked t'

theorem MarksOnly.refl (s : State) : MarksOnly s s := ⟨rfl, fun _ t ht => ⟨t, ht, rfl, rfl, id, id⟩⟩

theorem MarksOnly.trans {s1 s2 s3 : State} (h : MarksOnly s1 s2) (h' : MarksOnly s2 s3) : MarksOnly s1 s3 := by
  refine ⟨h'.1.trans h.1, fun v t ht => ?_⟩
  obtain ⟨t2, ht2, huid, htask, hw, hrun⟩ := h.2 v t ht
  obtain ⟨t3, ht3, huid', htask', hw', hrun'⟩ := h'.2 v t2 ht2
  exact ⟨t3, ht3, huid'.trans huid, htask'.trans htask, hw' ∘ hw, hrun' ∘ hrun⟩

theorem MarksOnly.postOnce (s : State) (e : Ev) : MarksOnly s (s.postOnce e) := by
  obtain ⟨es, h⟩ := postOnce_eq s e
  rw [h]
  exact MarksOnly.refl s

theorem MarksOnly.onTeam (s : State) (u : Nat) {f : Team → Team} (hf : ∀ t, Team.Marked t (f t)) : MarksOnly s (s.onTeam u f) := by
  refine ⟨rfl, fun v t ht => ?_⟩
  rw [team_onTeam s u v f fun t => (hf t).1, ht]
  refine ⟨_, rfl, ?_⟩
  dsimp only
  split
  · exact hf t
  · exact ⟨rfl, rfl, id, id⟩

/-- The state in which a team is wounded. -/
def State.withWound (s : State) (u : Nat) : State := s.onTeam u (fun t => { t with wound := true })

theorem marksOnly_withWound (s : State) (u : Nat) : MarksOnly s (s.withWound u) :=
  MarksOnly.onTeam s u fun _ => ⟨rfl, rfl, fun _ => rfl, id⟩

/-- What follows the wound of a team that has a task short of its commit changes no more than the marking itself. -/
theorem markWound_of_task {s : State} {u : Nat} {t : Team} (ht : s.team? u = some t) (htask : t.task.isSome = true)
    (hrun : t.run ≠ .parked .apply) : MarksOnly (s.withWound u) (markWound s u) := by
  have hopen : (t.task.isNone || decide (t.run = .parked .apply)) = false := by
    rw [Option.isNone_eq_false_iff.mpr htask, decide_eq_false hrun]
    rfl
  simp only [markWound, ht, hopen, Bool.false_eq_true, if_false]
  split
  · refine MarksOnly.onTeam _ _ fun t => ?_
    split
    · exact ⟨rfl, rfl, id, nofun⟩
    · exact ⟨rfl, rfl, id, id⟩
  · split <;> simp only [State.withWound, MarksOnly.postOnce, MarksOnly.refl]

theorem marksOnly_markWound (s : State) (u : Nat) : MarksOnly s (markWound s u) := by
  cases ht : s.team? u with
  | none =>
    rw [markWound, ht]
    exact MarksOnly.refl s
  | some t =>
    by_cases hopen : t.task.isSome = true ∧ t.run ≠ .parked .apply
    · exact (marksOnly_withWound s u).trans (markWound_of_task ht hopen.1 hopen.2)
    · have hskip : (t.task.isNone || decide (t.run = .parked .apply)) = true := by
        rw [Bool.or_eq_true, decide_eq_true_eq, Option.isNone_iff_eq_none, ← Option.not_isSome_iff_eq_none]
        exact Decidable.or_iff_not_imp_left.mpr fun h => of_not_not fun hr => hopen ⟨of_not_not h, hr⟩
      simp only [markWound, ht, hskip, if_true]
      exact MarksOnly.refl s

theorem marksOnly_foldl_markWound (ms : List Hasp) (s : State) : MarksOnly s (ms.foldl (fun s x => markWound s x.team) s) := by
  induction ms generalizing s with
  | nil => exact MarksOnly.refl s
  | cons x ms ih => exact (marksOnly_markWound s x.team).trans (ih _)

/-- Each holder in a list that is in a task short of its commit is wounded. -/
theorem foldl_markWound_wounds {ms : List Hasp} {m : Hasp} (hm : m ∈ ms) {s : State} {t : Team} (ht : s.team? m.team = some t)
    (htask : t.task.isSome = true) (hrun : t.run ≠ .parked .apply) :
    ∃ t', (ms.foldl (fun s x => markWound s x.team) s).team? m.team = some t' ∧ t'.wound = true := by
  induction ms generalizing s t with
  | nil => cases hm
  | cons x ms ih =>
    rcases List.mem_cons.mp hm with rfl | hm
    · obtain ⟨-, hmarks⟩ := (markWound_of_task ht htask hrun).trans (marksOnly_foldl_markWound ms _)
      obtain ⟨t', ht', -, -, hw, -⟩ := hmarks m.team _ (team_onTeam_same (fun _ => rfl) ht)
      exact ⟨t', ht', hw rfl⟩
    · obtain ⟨t1, ht1, -, htask1, -, hrun1⟩ := (marksOnly_markWound s x.team).2 m.team t ht
      exact ih hm ht1 (htask1 ▸ htask) (hrun1 hrun)

section
variable {s : State} {h : Hasp}

/-- The entries of a state other than that of a request. -/
def otherHasps (s : State) (h : Hasp) : List Hasp :=
  s.hasps.filter (fun x => !(x.slice = h.slice && x.team = h.team && x.slot = h.slot))

theorem settleHasp_of_granted (hmeets : haspMeets s h.slice h.team h.lines = [])
    (hroom : (haspHeld s h.slice).length < haspCap) : settleHasp s h =
      ({ s with hasps := otherHasps s h ++ [{ h with granted := true }] }).post (.setRequestArrival h.team h.slot) := by
  simp only [settleHasp, hmeets, List.isEmpty_nil, Bool.not_true, Bool.false_eq_true, if_false, Nat.not_le.mpr hroom]
  rfl

theorem settleHasp_of_full (hmeets : haspMeets s h.slice h.team h.lines = [])
    (hfull : haspCap ≤ (haspHeld s h.slice).length) :
    (settleHasp s h).hasps = otherHasps s h ++ [{ h with granted := false }] := by
  simp only [settleHasp, hmeets, List.isEmpty_nil, Bool.not_true, Bool.false_eq_true, if_false, hfull, if_true]
  split
  · exact (marksOnly_markWound ..).1
  · rfl

theorem settleHasp_of_meets (hmeets : haspMeets s h.slice h.team h.lines ≠ []) : settleHasp s h =
    ((haspMeets s h.slice h.team h.lines).filter (fun x => h.age < x.age)).foldl (fun s x => markWound s x.team)
      { s with hasps := otherHasps s h ++ [{ h with granted := false }] } := by
  simp only [settleHasp, isEmpty_eq_false_of_ne_nil hmeets, Bool.not_false, if_true]
  rfl

theorem settleHasp_hasps_of_meets (hmeets : haspMeets s h.slice h.team h.lines ≠ []) :
    (settleHasp s h).hasps = otherHasps s h ++ [{ h with granted := false }] := by
  rw [settleHasp_of_meets hmeets]
  exact (marksOnly_foldl_markWound ..).1

/-- A request that meets held lines wounds each younger holder that is in a task short of its commit. -/
theorem settleHasp_wounds {m : Hasp} {v : Team} (hm : m ∈ haspMeets s h.slice h.team h.lines) (hage : h.age < m.age)
    (hv : s.team? m.team = some v) (htask : v.task.isSome = true) (hrun : v.run ≠ .parked .apply) :
    ∃ v', (settleHasp s h).team? m.team = some v' ∧ v'.wound = true := by
  rw [settleHasp_of_meets (List.ne_nil_of_mem hm)]
  exact foldl_markWound_wounds (List.mem_filter.mpr ⟨hm, decide_eq_true hage⟩) hv htask hrun

end

/-! ## The obligation -/

/-- Settles O37: each instruction by the effect at its issue, an arrival by what its range and the entries of its slot are, and a
request by what it meets at its slice. -/
theorem setsAreDeclaredRequestedAndGranted : Obligations.SetsAreDeclaredRequestedAndGranted := by
  unfold Obligations.SetsAreDeclaredRequestedAndGranted
  refine ⟨?asdecl, ?asclr, ?asqry, ?asundo, ?arrival, ?back, fun s h => ?settle, fun _ _ => rfl⟩
  case asdecl =>
    intro x s t hi hgo b n hfree
    let c := ctxAt (.asdecl x) 0x52 0 (extLen x) x t
    have heff := onGo_of_go (c := c) hgo effAsdecl s
    refine ⟨fun htask => exec_of_trap rfl hi (heff.trans (effAsdecl_of_no_task htask)) (team?_uid_of_issues hi),
      fun htask hal hpos hlen hmax hfirst hlast => exec_of_done rfl hi (heff.trans
        (effAsdecl_of_range (toNat_sc64_ctxAt ..) (toNat_sc64_ctxAt ..) htask hfree hal hpos hlen hmax hfirst hlast))⟩
  case asclr =>
    intro x s t hi hgo hfree
    exact exec_of_done rfl hi ((onGo_of_go hgo effAsclr s).trans (effAsclr_of_free hfree))
  case asqry =>
    intro x s t hi hgo q say
    have hword : ∀ v, asqryWord s t q = v → exec (.asqry x) s = .next (say v) := by
      intro v hv
      refine exec_of_done rfl hi ((onGo_of_go (c := ctxAt (.asqry x) 0x52 2 (extLen x) x t) hgo effAsqry s).trans ?_)
      rw [effAsqry, toNat_sc64_ctxAt, putS_ctxAt]
      exact congrArg (fun v => Eff.done (putScalar s t x.d (BitVec.ofNat 64 v))) hv
    refine ⟨fun sl hq hsl => hword _ ((asqryWord_of_base hq hsl).trans (by cases sl.st <;> rfl)),
      fun sl hlow hq hsl => hword _ (asqryWord_of_length hlow hq hsl),
      fun k hq hk => hword _ (hq ▸ asqryWord_of_counts hk), fun hq => hword _ (asqryWord_of_large hq)⟩
  case asundo =>
    intro x s t hi hgo b n area cnt hal hlen hmax hcnt hfit
    let c := ctxAt (.asundo x) 0x52 3 (extLen x) x t
    have heff := onGo_of_go (c := c) hgo effAsundo s
    have hb : (c.sc64 s x.a).toNat = b := toNat_sc64_ctxAt ..
    have hn : (c.sc64 s x.b).toNat = n := toNat_sc64_ctxAt ..
    refine ⟨fun hzero => exec_of_done rfl hi (heff.trans (effAsundo_of_empty hb hn hal hlen hmax hcnt hfit hzero)),
      fun s1 hpos hold hw => exec_of_done rfl hi (heff.trans (effAsundo_of_first hb hn hal hlen hmax hcnt hfit hpos hold hw)),
      fun segs s1 hpos hold hsegs hw => exec_of_done rfl hi
        (heff.trans (effAsundo_of_moved hb hn hal hlen hmax hcnt hfit hpos hold hsegs rfl hw))⟩
  case arrival =>
    intro u k s t sl task segs ht hsl htask hst hsegs hfar ls mine hgranted
    refine ⟨fun sc hfind hno => ?_, fun hslices hrun =>
      setRequestArrival_acquires ht hsl htask hst hsegs hfar hgranted hslices hrun⟩
    have hexec := exec_setRequestArrival_of_pieces ht hsl htask hst hsegs hfar hgranted
    rw [hfind] at hexec
    exact hexec.trans (congrArg Host.Outcome.next (if_neg fun h => hno (List.contains_iff_mem.mp h)))
  case back =>
    intro u k s t sl task ht hsl htask hst hrun back
    exact ⟨fun segs va t' hsegs hfar ht' => exec_setRequestArrival_of_far ht hsl htask hst hrun hsegs hfar ht',
      fun code cause hsegs => exec_setRequestArrival_of_fail ht hsl htask hst hrun hsegs⟩
  case settle =>
    intro others
    refine ⟨fun hmeets hroom => ?_, settleHasp_of_full, fun hmeets => ⟨settleHasp_hasps_of_meets hmeets,
      fun m hm hage v hv htask hrun => settleHasp_wounds hm hage hv htask hrun⟩⟩
    rw [settleHasp_of_granted hmeets hroom]
    exact ⟨rfl, mem_agenda_post ..⟩

end Sys2Proof.Machine
end

section
/-!
PROOFS. Tiles (13 R306-R312): what the tile instructions do to a tile that is free, the flights that `resolve`, `acst` and `acld`
leave, and their ends.
-/

namespace Sys2Proof.Machine

/-! ## A flight that an instruction starts -/

/-- The flight that an instruction starts (06 R148). -/
def C.flight (c : C) (s : State) (lanes : List LaneReq) (snap aux : List Nat) (gate : Bool) : Flight :=
  { id := s.nextId, team := c.t.uid, pc := c.t.pc, npc := c.npc, instr := c.i, dvec := c.row.d = .vec,
    dst := c.x.d.toNat, dnum := rowFills c.row, lanes := lanes, snap := snap, aux := aux, again := c.t.part.isSome,
    gate := gate, waits := [], status := c.t.status, no := c.t.issueNo }

theorem launch_flights (c : C) (s : State) (lanes : List LaneReq) (snap aux : List Nat) (gate : Bool) :
    (c.launch s lanes snap aux gate).flights = s.flights ++ [c.flight s lanes snap aux gate] := rfl

/-- Among numbers that are all used up, the new one names the flight. -/
theorem flight?_launch {s : State} (hfresh : FreshIds s) (c : C) (lanes : List LaneReq) (snap aux : List Nat) (gate : Bool) :
    (c.launch s lanes snap aux gate).flight? s.nextId = some (c.flight s lanes snap aux gate) :=
  flight?_append_of_fresh (f := c.flight s lanes snap aux gate) hfresh.1 (launch_flights ..)

/-! ## acz and acanch (13 R306) -/

section
variable {c : C} {s : State} {f : Tile → Int → Tile}

theorem effAnchor_of_range (hlow : -256 ≤ (c.sc64 s c.x.a).toInt) (hhigh : (c.sc64 s c.x.a).toInt ≤ 255)
    (hfree : tileBusy s c.t c.x.d.toNat = false) : effAnchor f c s = .done (setTile s c.t.core (tileIx s c.t c.x.d.toNat)
      (f (s.tile c.t.core (tileIx s c.t c.x.d.toNat)) (c.sc64 s c.x.a).toInt)) := by
  have hok : anchorOk (c.sc64 s c.x.a).toInt = true := by
    rw [anchorOk, decide_eq_true hlow, decide_eq_true hhigh]
    rfl
  simp only [effAnchor, hok, Bool.not_true, hfree, Bool.false_eq_true, if_false]

theorem effAnchor_of_beyond (h : (c.sc64 s c.x.a).toInt < -256 ∨ 255 < (c.sc64 s c.x.a).toInt) :
    effAnchor f c s = .trap s (c.trap 0x05 0x1102) := by
  have hbad : anchorOk (c.sc64 s c.x.a).toInt = false := by
    rw [anchorOk, Bool.and_eq_false_iff, decide_eq_false_iff_not, decide_eq_false_iff_not]
    omega
  simp only [effAnchor, hbad, Bool.not_false, if_true]

/-- An instruction that anchors a free tile (R306). -/
theorem exec_effAnchor {mk : Ext → Instr} {sub : Nat} {x : Ext} {t : Team}
    (hexec : exec (mk x) s = issueExt (mk x) 0x51 sub x (onGo (effAnchor f)) s) (hi : Issues 0x51 sub x s t)
    (hgo : t.go x.g x.neg = true) (hfree : tileBusy s t x.d.toNat = false) : let a := (srcScalar s t x x.a).toInt
    (-256 ≤ a → a ≤ 255 → exec (mk x) s = .next (retire (setTile s t.core (tileIx s t x.d.toNat)
      (f (s.tile t.core (tileIx s t x.d.toNat)) a)) t (extLen x))) ∧
    (a < -256 ∨ 255 < a → exec (mk x) s =
      .next (takeTrap s t (trapHere t.pc (t.pc + BitVec.ofNat 64 (extLen x)) 0x05 0x1102))) := by
  intro a
  let c := ctxAt (mk x) 0x51 sub (extLen x) x t
  have ha : (c.sc64 s x.a).toInt = a := congrArg BitVec.toInt (sc64_ctxAt ..)
  have heff := onGo_of_go (c := c) hgo (effAnchor f) s
  refine ⟨fun hlow hhigh => exec_of_done hexec hi (heff.trans ?_), fun h => exec_of_trap hexec hi (heff.trans ?_)
    (team?_uid_of_issues hi)⟩
  · exact (effAnchor_of_range (c := c) (ha ▸ hlow) (ha ▸ hhigh) hfree).trans (by rw [← ha]; rfl)
  · exact effAnchor_of_beyond (c := c) (ha ▸ h)

end

/-! ## acadd, accmp and resolve (13 R307-R310) -/

theorem span_ctxAt (i : Instr) (opc sub len : Nat) (x : Ext) (t : Team) (s : State) (n : Nat) :
    (ctxAt i opc sub len x t).span (srcVal s t x x.b 32 0) n = tileSpan s t x n := rfl

section
variable {i : Instr} {opc sub n : Nat} {x : Ext} {t : Team} {s : State}

/-- A tile whose elements of a span have the lanes of a run of registers added. -/
def Tile.addLanes (T : Tile) (t : Team) (x : Ext) (sp : List (Nat × Nat × Nat)) : Tile :=
  { T with elems := sp.foldl (fun es p => es.modify p.2.2 (fun e => e.addFV T.anc
      (elemFV x.ty ((t.lane (x.a.code.toNat + p.1) p.2.1).toNat % 2 ^ x.ty.width)))) T.all }

theorem effAcadd_ctxAt (hfree : tileBusy s t x.d.toNat = false) : effAcadd (ctxAt i opc sub n x t) s =
    .done (if (tileSpan s t x (x.f 7 0 + 1)).isEmpty then s else setTile s t.core (tileIx s t x.d.toNat)
      ((s.tile t.core (tileIx s t x.d.toNat)).addLanes t x (tileSpan s t x (x.f 7 0 + 1)))) := by
  simp only [effAcadd, ctxAt_x, ctxAt_t, hfree, Bool.and_false, Bool.false_eq_true, if_false, opnd_ctxAt, span_ctxAt,
    Tile.addLanes]

/-- What `accmp` compares for a lane of one of its predicates; none where no element stands for the lane. -/
def accmpAt (s : State) (t : Team) (x : Ext) (j l : Nat) : Option Bool :=
  let T := s.tile t.core (tileIx s t x.a.code.toNat)
  ((tileSpan s t x (x.f 5 3 + 1)).find? (fun p => p.1 = j && p.2.1 = l)).map
    (fun p => condF (x.f 2 0) ((T.get p.2.2).value T.anc) (elemFV x.ty (srcVal s t x x.c 32 l)))

theorem effAccmp_ctxAt (hfree : tileBusy s t x.a.code.toNat = false) : effAccmp (ctxAt i opc sub n x t) s =
    .done (s.onTeam t.uid (fun u => (List.range (x.f 5 3 + 1)).foldl (fun u j =>
      u.writeP (x.d.toNat + j) ((List.range t.width).map (fun l => (accmpAt s t x j l).isSome))
        ((List.range t.width).map (fun l => (accmpAt s t x j l).getD false))) u)) := by
  simp only [effAccmp, ctxAt_x, ctxAt_t, hfree, Bool.and_false, Bool.false_eq_true, if_false, opnd_ctxAt, span_ctxAt,
    accmpAt, Team.laneIxs]

/-- The results of `resolve`: register, lane, value and flags of each element of its span. -/
def resolved (s : State) (t : Team) (x : Ext) : List (Nat × Nat × Nat × Nat) :=
  let T := s.tile t.core (tileIx s t x.a.code.toNat)
  (tileSpan s t x (x.f 7 0 + 1)).map (fun p => (p.1, p.2.1, (T.get p.2.2).resolve T.anc x.ty (t.mode x.rnd) t.ftz))

/-- The flight of `resolve` in its state. -/
def C.resolving (c : C) (s : State) (rs : List (Nat × Nat × Nat × Nat)) : State :=
  c.launch s (c.actives.map (fun l => { lane := l, addr := 0, data := 0, st := .ready [] })) []
    (0 :: rs.flatMap (fun r => [r.1, r.2.1, r.2.2.1, r.2.2.2])) (rs.any (fun r => enabled c.t.status r.2.2.2 ≠ 0))

theorem effResolve_of_no_lane (h : (activeLanes t x).any id = false) : effResolve (ctxAt i opc sub n x t) s = .done s := by
  have hany : (ctxAt i opc sub n x t).any = false := h
  simp only [effResolve, hany, Bool.not_false, if_true]

theorem effResolve_of_free (h : (activeLanes t x).any id = true) (hfree : tileBusy s t x.a.code.toNat = false) :
    effResolve (ctxAt i opc sub n x t) s = if (resolved s t x).isEmpty then .done s
      else .done (((ctxAt i opc sub n x t).resolving s (resolved s t x)).post (.resolveComplete s.nextId)) := by
  have hany : (ctxAt i opc sub n x t).any = true := h
  simp only [effResolve, hany, Bool.not_true, ctxAt_x, ctxAt_t, hfree, Bool.false_eq_true, if_false, opnd_ctxAt, span_ctxAt,
    resolved, C.resolving]
  rfl

end

/-- The quadruples that are listed are read back. -/
theorem quads_flatMap (rs : List (Nat × Nat × Nat × Nat)) :
    quads (rs.flatMap (fun r => [r.1, r.2.1, r.2.2.1, r.2.2.2])) = rs := by
  induction rs with
  | nil => rfl
  | cons r rs ih => exact congrArg (r :: ·) ih

/-! ## RESOLVE_COMPLETE (13 R308) -/

section
variable {id : Nat} {s : State} {f : Flight} {t : Team}

/-- The team of a `resolve` with its run filled and the flags added. -/
def Team.resolvedInto (f : Flight) (rs : List (Nat × Nat × Nat × Nat)) (u : Team) : Team :=
  let v := (List.range f.dnum).foldl (fun v j => v.fillV (f.dst + j)
    ((rs.filter (fun r => r.1 = j)).map (fun r => (r.2.1, BitVec.ofNat 32 r.2.2.1))) .gen) u
  { v with status := orFlags v.status (rs.foldl (fun a r => a ||| r.2.2.2) 0) }

/-- The end of a `resolve`, and the trap of R99 when a flag that it raised was enabled at issue. -/
theorem exec_resolveComplete (hf : s.flight? id = some f) (ht : s.team? f.team = some t) :
    let rs := quads (f.aux.drop 1)
    let all := rs.foldl (fun a r => a ||| r.2.2.2) 0
    let s1 := endFlight (s.onTeam f.team (Team.resolvedInto f rs)) f
    exec (.resolveComplete id) s = .next (if enabled f.status all = 0 then s1
      else settle (raise s1 f.team f.again { trapHere f.pc f.npc 0x0D (enabled f.status all) with
        skip := true, op := id
        lanes := uniq ((rs.filter (fun r => enabled f.status r.2.2.2 ≠ 0)).map (fun r => r.2.1)) }) f.team) := by
  intro rs all s1
  have hall : (rs.map (fun r => (r.2.1, r.2.2.2))).foldl (fun a x => a ||| x.2) 0 = all := List.foldl_map
  have hlanes : ((rs.map (fun r => (r.2.1, r.2.2.2))).filter (fun p => enabled f.status p.2 ≠ 0)).map (fun p => p.1) =
      (rs.filter (fun r => enabled f.status r.2.2.2 ≠ 0)).map (fun r => r.2.1) := by
    simp only [List.filter_map, List.map_map, Function.comp_def]
  have htrap : fpTrap { t with status := f.status } f.pc f.npc (rs.map (fun r => (r.2.1, r.2.2.2))) =
      if enabled f.status all = 0 then none
      else some { trapHere f.pc f.npc 0x0D (enabled f.status all) with
        skip := true, lanes := (rs.filter (fun r => enabled f.status r.2.2.2 ≠ 0)).map (fun r => r.2.1) } := by
    rw [← hall, ← hlanes]
    rfl
  show execResolveComplete id s = _
  simp only [execResolveComplete, hf, ht, Option.bind_some]
  rw [htrap]
  by_cases hoff : enabled f.status all = 0
  · rw [if_pos hoff, if_pos hoff, hall]
    rfl
  · rw [if_neg hoff, if_neg hoff, hall]
    rfl

end

/-! ## Images (13 R311, R312) -/

theorem testBit_flags : ∀ a b c : Bool, (bitNat a + 2 * bitNat b + 4 * bitNat c).testBit 0 = a ∧
    (bitNat a + 2 * bitNat b + 4 * bitNat c).testBit 1 = b ∧ (bitNat a + 2 * bitNat b + 4 * bitNat c).testBit 2 = c := by
  decide

theorem go_captured (es : List Acc) : tileOfSnap.go (es.flatMap (fun e =>
    [e.sum.toNat, bitNat e.nan + 2 * bitNat e.pinf + 4 * bitNat e.ninf])) = es := by
  induction es with
  | nil => rfl
  | cons e es ih =>
    have hacc : ({ sum := BitVec.ofNat 72 e.sum.toNat
                   nan := (bitNat e.nan + 2 * bitNat e.pinf + 4 * bitNat e.ninf).testBit 0
                   pinf := (bitNat e.nan + 2 * bitNat e.pinf + 4 * bitNat e.ninf).testBit 1
                   ninf := (bitNat e.nan + 2 * bitNat e.pinf + 4 * bitNat e.ninf).testBit 2 } : Acc) = e := by
      obtain ⟨hnan, hpinf, hninf⟩ := testBit_flags e.nan e.pinf e.ninf
      rw [hnan, hpinf, hninf, BitVec.ofNat_toNat, BitVec.setWidth_eq]
    rw [List.flatMap_cons]
    exact (congrArg (· :: _) hacc).trans (congrArg (e :: ·) ih)

/-- A captured tile. -/
def Tile.captured (T : Tile) : List Nat :=
  patN 16 T.anc :: T.elems.flatMap (fun e => [e.sum.toNat, bitNat e.nan + 2 * bitNat e.pinf + 4 * bitNat e.ninf])

/-- A tile whose anchor is in its range is captured whole. -/
theorem tileOfSnap_captured {T : Tile} (h : anchorOk T.anc = true) : tileOfSnap T.captured = T := by
  obtain ⟨anc, elems⟩ := T
  simp only [anchorOk, Bool.and_eq_true, decide_eq_true_eq] at h
  obtain ⟨hlow, hhigh⟩ := h
  have hanc : sextN 16 (patN 16 anc) = anc := by
    simp only [sextN, patN]
    omega
  show ({ anc := sextN 16 (patN 16 anc), elems := tileOfSnap.go (elems.flatMap _) } : Tile) = _
  rw [hanc, go_captured]

section
variable {c : C} {s : State} {ea : Nat} (hea : c.spadEa s = ea)
include hea

theorem imageCheck_of_not_canonical (h : canonical ea = false) : c.imageCheck s = .error (c.trapAt 0x06 0x0402 ea []) := by
  simp only [C.imageCheck, hea, h, Bool.not_false, if_true]

theorem imageCheck_of_misaligned (hc : canonical ea = true) (h : ea % 64 ≠ 0) :
    c.imageCheck s = .error (c.trapAt 0x04 0x0102 ea []) := by
  simp only [C.imageCheck, hea, hc, Bool.not_true, Bool.false_eq_true, if_false, h, ne_eq, not_false_eq_true, if_true]

theorem imageCheck_of_aligned (hc : canonical ea = true) (h : ea % 64 = 0) : c.imageCheck s = .ok ea := by
  simp only [C.imageCheck, hea, hc, Bool.not_true, Bool.false_eq_true, if_false, h, ne_eq, not_true_eq_false]

end

section
variable {c : C} {s : State} {ea : Nat}

/-- The one lane of an image transfer. -/
def imageLane (ea : Nat) : LaneReq := { lane := 0, addr := BitVec.ofNat 64 ea, data := 0, st := .ready [] }

theorem effAcst_of_error {tr : Trap} (h : c.imageCheck s = .error tr) : effAcst c s = .trap s tr := by
  simp only [effAcst, h]

theorem effAcld_of_error {tr : Trap} (h : c.imageCheck s = .error tr) : effAcld c s = .trap s tr := by
  simp only [effAcld, h]

theorem effAcst_of_declared (h : c.imageCheck s = .ok ea) (hd : c.t.declares ea imageSize = true) :
    effAcst c s = .trap s (c.trapAt 0x05 0x0802 ea []) := by
  simp only [effAcst, h, hd, if_true]

theorem effAcst_of_free (h : c.imageCheck s = .ok ea) (hd : c.t.declares ea imageSize = false)
    (hfree : tileBusy s c.t c.x.d.toNat = false) : effAcst c s = .done ((c.launch s [imageLane ea]
      (s.tile c.t.core (tileIx s c.t c.x.d.toNat)).captured (0 :: latchAux c.latchC) false).post (.acstComplete s.nextId)) := by
  simp only [effAcst, h, hd, hfree, Bool.false_eq_true, if_false]
  rfl

theorem effAcld_of_free (h : c.imageCheck s = .ok ea) (hfree : tileBusy s c.t c.x.d.toNat = false) :
    effAcld c s = .done ((c.launch s [imageLane ea] [] (0 :: latchAux c.latchC) false).post (.acldComplete s.nextId)) := by
  simp only [effAcld, h, hfree, Bool.false_eq_true, if_false]
  rfl

end

section
variable {id : Nat} {s : State} {f : Flight} {t : Team} {r : LaneReq} (hf : s.flight? id = some f)
  (ht : s.team? f.team = some t) (hl : f.lanes = [r]) (hfirst : imageBehind s f = false)
include hf ht hl hfirst

theorem exec_acstComplete_of_written {s1 : State}
    (hw : writeVA s t.core t.ctx r.addr.toNat ((tileOfSnap f.snap).image id) = .ok s1) :
    exec (.acstComplete id) s = .next (imageDone s1 f t.core) := by
  show execAcstComplete id s = _
  simp only [execAcstComplete, hf, Option.bind_some, ht, hl, hfirst, Bool.false_eq_true, if_false, enginePut, writeUpto, hw]

theorem exec_acldComplete_of_read {x : Ext} {bs : List Byte} {T : Tile} (hx : f.instr = .acld x)
    (hr : readVA s t.core t.ctx r.addr.toNat imageSize = .ok bs) (hT : tileOfImage bs = some T) :
    exec (.acldComplete id) s = .next (imageDone (setTile s t.core (tileIx s t x.d.toNat) T) f t.core) := by
  show execAcldComplete id s = _
  simp only [execAcldComplete, hf, Option.bind_some, ht, hl, hfirst, Bool.false_eq_true, if_false, hx, hr, hT]

end

/-! ## The obligation -/

/-- Settles O42: each instruction by the effect at its issue on a free tile, and each completion by what its flight holds. -/
theorem tilesAreClearedReadAndStored : Obligations.TilesAreClearedReadAndStored := by
  unfold Obligations.TilesAreClearedReadAndStored
  refine ⟨fun x s t hi hgo hfree => exec_effAnchor (mk := .acz) rfl hi hgo hfree,
    fun x s t hi hgo hfree => exec_effAnchor (mk := .acanch) rfl hi hgo hfree, ?acadd,
    fun x s t hi hfree => exec_of_done rfl hi (effAccmp_ctxAt hfree), ?resolve, ?resolved, ?traps, ?acst, ?acld,
    fun id s s1 f t r hf ht hl hfirst hw => exec_acstComplete_of_written hf ht hl hfirst hw,
    fun id s f t r x bs T hf ht hx hl hfirst hr hT => exec_acldComplete_of_read hf ht hl hfirst hx hr hT⟩
  case acadd =>
    intro x s t hi hfree T sp
    have hexec := exec_of_done (i := .acadd x) rfl hi (effAcadd_ctxAt hfree)
    refine ⟨fun hnil => ?_, fun hne => ?_⟩
    · rwa [show tileSpan s t x (x.f 7 0 + 1) = [] from hnil] at hexec
    · rwa [isEmpty_eq_false_of_ne_nil hne] at hexec
  case resolve =>
    intro x s t hi
    refine ⟨fun hnone => exec_of_done rfl hi (effResolve_of_no_lane hnone), fun hany hfree hnil => ?_,
      fun hany hfree hfresh hne => ?_⟩
    · refine exec_of_done rfl hi ((effResolve_of_free hany hfree).trans (if_pos ?_))
      rw [resolved, hnil]
      rfl
    · intro T
      have hne' : resolved s t x ≠ [] := fun h => hne (List.map_eq_nil_iff.mp h)
      refine ⟨_, _, exec_of_done rfl hi ((effResolve_of_free hany hfree).trans
        (if_neg (ne_true_of_eq_false (isEmpty_eq_false_of_ne_nil hne')))), flight?_launch hfresh .., mem_agenda_post .., rfl, rfl,
        quads_flatMap _⟩
  case resolved =>
    intro id s f t hf ht rs all s1
    have hexec := exec_resolveComplete hf ht
    exact ⟨fun hoff => hexec.trans (congrArg Host.Outcome.next (if_pos hoff)),
      fun hon => hexec.trans (congrArg Host.Outcome.next (if_neg hon))⟩
  case traps =>
    intro x s t hgo ea trap
    let st := ctxAt (.acst x) 0x51 5 (extLen x) x t
    let ld := ctxAt (.acld x) 0x51 6 (extLen x) x t
    have hst : st.spadEa s = ea := spadEa_ctxAt ..
    have hld : ld.spadEa s = ea := spadEa_ctxAt ..
    have hacst := onGo_of_go (c := st) hgo effAcst s
    have hacld := onGo_of_go (c := ld) hgo effAcld s
    exact ⟨fun hc => ⟨fun hi => exec_of_trap rfl hi (hacst.trans (effAcst_of_error (imageCheck_of_not_canonical hst hc)))
        (team?_uid_of_issues hi), fun hi => exec_of_trap rfl hi (hacld.trans (effAcld_of_error
        (imageCheck_of_not_canonical hld hc))) (team?_uid_of_issues hi)⟩,
      fun hc hal => ⟨fun hi => exec_of_trap rfl hi (hacst.trans (effAcst_of_error (imageCheck_of_misaligned hst hc hal)))
        (team?_uid_of_issues hi), fun hi => exec_of_trap rfl hi (hacld.trans (effAcld_of_error
        (imageCheck_of_misaligned hld hc hal))) (team?_uid_of_issues hi)⟩,
      fun hc hal hd hi => exec_of_trap rfl hi (hacst.trans (effAcst_of_declared (imageCheck_of_aligned hst hc hal) hd))
        (team?_uid_of_issues hi)⟩
  case acst =>
    intro x s t hi hgo hfree hfresh base ea T hc hal hd
    let c := ctxAt (.acst x) 0x51 5 (extLen x) x t
    have hcheck := imageCheck_of_aligned (c := c) (spadEa_ctxAt ..) hc hal
    exact ⟨_, _, exec_of_done rfl hi ((onGo_of_go (c := c) hgo effAcst s).trans (effAcst_of_free hcheck hd hfree)),
      flight?_launch hfresh .., rfl, rfl, mem_agenda_post .., tileOfSnap_captured⟩
  case acld =>
    intro x s t hi hgo hfree hfresh ea hc hal
    let c := ctxAt (.acld x) 0x51 6 (extLen x) x t
    have hcheck := imageCheck_of_aligned (c := c) (spadEa_ctxAt ..) hc hal
    exact ⟨_, _, exec_of_done rfl hi ((onGo_of_go (c := c) hgo effAcld s).trans (effAcld_of_free hcheck hfree)),
      flight?_launch hfresh .., rfl, rfl, rfl, mem_agenda_post ..⟩

end Sys2Proof.Machine
end

section
/-!
PROOFS. The end of a task and dependence counters (14 R327; 15 R343, R346-R349). First what the end of a flight leaves in the
registers of the teams; then `tend` and its commit, `dcdec` and `qwpush`, at issue and when they are performed.
-/

namespace Sys2Proof.Machine

/-! ## The words of registers at the end of a flight -/

/-- The registers of a team hold the same words. -/
def Team.SameWords (t t' : Team) : Prop :=
  t'.uid = t.uid ∧ t'.s.length = t.s.length ∧ (∀ n, t'.sval n = t.sval n) ∧ ∀ n l, t'.lane n l = t.lane n l

theorem Team.SameWords.refl (t : Team) : t.SameWords t := ⟨rfl, rfl, fun _ => rfl, fun _ _ => rfl⟩

theorem Team.SameWords.trans {t1 t2 t3 : Team} (h : t1.SameWords t2) (h' : t2.SameWords t3) : t1.SameWords t3 := by
  obtain ⟨hu, hlen, hs, hv⟩ := h
  obtain ⟨hu', hlen', hs', hv'⟩ := h'
  exact ⟨hu'.trans hu, hlen'.trans hlen, fun n => (hs' n).trans (hs n), fun n l => (hv' n l).trans (hv n l)⟩

theorem Team.sameWords_setSFull (t : Team) (n : Nat) (b : Bool) : t.SameWords (t.setSFull n b) :=
  ⟨rfl, (t.setFull_scalar n b 1 0).1, fun k => (t.setFull_scalar n b 1 k).2.1, fun _ _ => rfl⟩

theorem Team.sameWords_setVFull (t : Team) (n : Nat) (b : Bool) : t.SameWords (t.setVFull n b) := by
  refine ⟨rfl, rfl, fun _ => rfl, fun k l => ?_⟩
  rw [Team.lane, Team.lane, Team.vreg_setVFull]
  split <;> rfl

/-- A team stays, and its registers hold the same words. -/
def WordsKept (s s' : State) (u : Nat) : Prop := ∀ t, s.team? u = some t → ∃ t', s'.team? u = some t' ∧ t.SameWords t'

theorem WordsKept.trans {s1 s2 s3 : State} {u : Nat} (h : WordsKept s1 s2 u) (h' : WordsKept s2 s3 u) : WordsKept s1 s3 u := by
  intro t ht
  obtain ⟨t2, ht2, hsame⟩ := h t ht
  obtain ⟨t3, ht3, hsame'⟩ := h' t2 ht2
  exact ⟨t3, ht3, hsame.trans hsame'⟩

theorem wordsKept_of_teams {s s' : State} (h : s'.teams = s.teams) (u : Nat) : WordsKept s s' u :=
  fun t ht => ⟨t, (team?_congr h u).trans ht, .refl t⟩

theorem wordsKept_map {s s' : State} {c : Team → Team} (hc : ∀ t, Team.SameWords t (c t)) (h : s'.teams = s.teams.map c) (u : Nat) :
    WordsKept s s' u := by
  intro t ht
  refine ⟨c t, ?_, hc t⟩
  rw [team?_congr (s := { s with teams := s.teams.map c }) h, team?_map (fun t => (hc t).1), ht]
  rfl

theorem wordsKept_onTeam (s : State) (v : Nat) {f : Team → Team} (hf : ∀ t, Team.SameWords t (f t)) (u : Nat) :
    WordsKept s (s.onTeam v f) u :=
  wordsKept_map (c := fun t => if t.uid = v then f t else t) (fun t => by
    split
    · exact hf t
    · exact .refl t) rfl u

theorem wordsKept_postOnce (s : State) (e : Ev) (u : Nat) : WordsKept s (s.postOnce e) u := wordsKept_of_teams (teams_postOnce s e) u

theorem wordsKept_clearWait (s : State) (id u : Nat) : WordsKept s (clearWait s id) u := by
  obtain ⟨es, h⟩ := clearWait_eq s id
  exact wordsKept_map (c := fun t => { t with holds := t.holds.map (fun h => { h with waits := h.waits.filter (· ≠ id) }) })
    (fun t => .refl t) (congrArg State.teams h) u

/-- A fold of changes that keep the words keeps them. -/
theorem Team.sameWords_foldl {α : Type} {g : Team → α → Team} (h : ∀ t a, Team.SameWords t (g t a)) (l : List α) (t : Team) :
    t.SameWords (l.foldl g t) := by
  induction l generalizing t with
  | nil => exact .refl t
  | cons a l ih => exact (h t a).trans (ih _)

theorem wordsKept_fillDst (s : State) (f : Flight) (u : Nat) : WordsKept s (fillDst s f) u := by
  refine wordsKept_onTeam _ _ (fun t => (Team.sameWords_foldl (fun t k => ?_) _ _).trans (Team.sameWords_foldl (fun t k => ?_) _ _)) u
  · split
    · exact .refl t
    · split
      · exact t.sameWords_setVFull ..
      · exact t.sameWords_setSFull ..
  · split
    · exact .refl t
    · exact t.sameWords_setSFull ..

theorem wordsKept_setRun (s : State) (v : Nat) (r : RunState) (u : Nat) : WordsKept s (s.onTeam v (fun t => { t with run := r })) u :=
  wordsKept_onTeam s v (f := fun t => { t with run := r }) (fun t => .refl t) u

theorem wordsKept_settle (s : State) (v u : Nat) : WordsKept s (settle s v) u := by
  unfold settle
  split
  · exact wordsKept_of_teams rfl u
  · split
    · split
      · exact wordsKept_of_teams rfl u
      · exact wordsKept_setRun s v _ u
    · split
      · exact wordsKept_of_teams rfl u
      · split
        · exact wordsKept_setRun s v _ u
        · exact (wordsKept_setRun s v _ u).trans (wordsKept_postOnce _ _ u)
    · split
      · exact wordsKept_postOnce _ _ u
      · exact wordsKept_of_teams rfl u
    · exact wordsKept_of_teams rfl u

theorem wordsKept_endFlight {f : Flight} (h : flightTrap f = none) (s : State) (u : Nat) : WordsKept s (endFlight s f) u := by
  rw [endFlight_of_noTrap h]
  exact ((wordsKept_of_teams rfl u).trans (wordsKept_fillDst (s.dropFlight f.id) f u)).trans (wordsKept_settle _ _ u)

/-! ## What the end of a flight leaves alone -/

theorem flight?_dropFlight_same (s : State) (id : Nat) : (s.dropFlight id).flight? id = none :=
  List.find?_eq_none.mpr fun f hf => by simpa using (List.mem_filter.mp hf).2

theorem flight?_endFlight_same (s : State) (f : Flight) : (endFlight s f).flight? f.id = none := by
  obtain ⟨ts, es, h⟩ := teamsChange_endFlight s f
  rw [h]
  exact flight?_dropFlight_same s f.id

theorem pushes_endFlight (s : State) (f : Flight) : (endFlight s f).pushes = s.pushes := by
  obtain ⟨ts, es, h⟩ := teamsChange_endFlight s f
  rw [h]
  rfl

theorem pushes_clearWait (s : State) (id : Nat) : (clearWait s id).pushes = s.pushes := by
  obtain ⟨es, h⟩ := clearWait_eq s id
  rw [h]

/-! ## tend (14 R327, 15 R347) -/

section
variable {aux : List Nat} {k : State → Eff} {c : C} {s : State}

theorem endTask_of_undeclared (h : ∀ d, c.t.task = some d → d.declared = false) (huses : usesAbsent s c.t = none) :
    endTask aux k c s = k (closeTask (dropUses s c.t) c.t.uid) := by
  cases htask : c.t.task with
  | none => simp only [endTask, htask, huses]
  | some d => simp only [endTask, htask, h d htask, huses, Bool.not_false, if_true]

variable {d : Task} (htask : c.t.task = some d) (hdecl : d.declared = true)
include htask hdecl

theorem endTask_of_wound (hw : c.t.wound = true) :
    endTask aux k c s = .wait (s.setTeam { c.t.fillRdst with handler := false, caught := [] }) := by
  simp only [endTask, htask, hdecl, hw, Bool.not_true, Bool.false_eq_true, if_false, if_true]

theorem endTask_of_accesses (hw : c.t.wound = false) (hls : lsDone s c.t.uid = false) : endTask aux k c s = .wait s := by
  simp only [endTask, htask, hdecl, hw, hls, Bool.not_true, Bool.not_false, Bool.false_eq_true, if_false, if_true]

theorem endTask_of_commit (hw : c.t.wound = false) (hls : lsDone s c.t.uid = true) : endTask aux k c s =
    .wait ((s.onTeam c.t.uid (fun t => { t with run := .parked .apply, aux := aux })).post (.tendCommit c.t.uid)) := by
  simp only [endTask, htask, hdecl, hw, hls, Bool.not_true, Bool.false_eq_true, if_false]

end

/-- An instruction whose effect is that of `tend` is a `TendOp`. -/
theorem tendOp_of_effect {α : Type} {mk : α → Instr} {ext : α → Ext} {len : α → Nat}
    (hexec : ∀ y s, exec (mk y) s = issue (mk y) 0x53 3 (len y) (ext y) (onGo effTend) s) : TendOp mk ext len := by
  intro y s t x hi hgo
  let c := ctxAt (mk y) 0x53 3 (len y) x t
  have heff := onGo_of_go (c := c) hgo effTend s
  exact ⟨fun hun huses => exec_of_done (hexec y s) hi (heff.trans (endTask_of_undeclared (c := c) hun huses)),
    fun k hk hdecl hw hls => exec_of_wait (hexec y s) hi (heff.trans (endTask_of_commit (c := c) hk hdecl hw hls)),
    fun k hk hdecl hw hls => exec_of_wait (hexec y s) hi (heff.trans (endTask_of_accesses (c := c) hk hdecl hw hls)),
    fun k hk hdecl hw => exec_of_wait (hexec y s) hi (heff.trans (endTask_of_wound (c := c) hk hdecl hw))⟩

/-! ## TEND_COMMIT (14 R327) -/

theorem commit_turn {t : Team} (h : t.run = .parked .apply ∨ t.run = .saved (some .apply)) :
    (decide (t.run ≠ .parked .apply) && decide (t.run ≠ .saved (some .apply))) = false := by
  rcases h with h | h <;> rw [h] <;> rfl

section
variable {u : Nat} {s s1 : State} {t t1 : Team} {k : Task} (ht : s.team? u = some t)
  (hrun : t.run = .parked .apply ∨ t.run = .saved (some .apply)) (hsets : commitSets s t = .ok s1) (hpush : pushing s1 u = false)
  (ht1 : s1.team? u = some t1) (hk : t1.task = some k)
include ht hrun hsets hpush ht1 hk

theorem exec_tendCommit_of_deferred {d : Deferred} {ds : List Deferred} (hd : k.deferred = d :: ds) :
    exec (.tendCommit u) s = .next (commitNext s1 t1 d) := by
  have hturn := commit_turn hrun
  obtain ⟨age, queue, entry, dst, restart, restarts, deferred, logged, declared⟩ := k
  subst hd
  show execTendCommit u s = _
  simp only [execTendCommit, ht, hturn, hsets, hpush, Bool.false_eq_true, if_false, ht1, hk]

theorem exec_tendCommit_of_none (hd : k.deferred = []) (huses : usesAbsent s1 t1 = none) :
    exec (.tendCommit u) s = .next (commitDone (dropUses s1 t1) t1) := by
  have hturn := commit_turn hrun
  obtain ⟨age, queue, entry, dst, restart, restarts, deferred, logged, declared⟩ := k
  subst hd
  show execTendCommit u s = _
  simp only [execTendCommit, ht, hturn, hsets, hpush, Bool.false_eq_true, if_false, ht1, hk, huses]

end

/-! ## dcdec at issue (15 R349) -/

theorem Team.listFull_of_task {t : Team} {k : Task} (h : t.task = some k) : t.listFull = decide (16 ≤ k.deferred.length) := by
  simp only [Team.listFull, h]

section
variable {c : C} {s : State} {ea : Nat} (hea : offAddr c.x (c.base s) = ea)
include hea

theorem effDcdec_of_not_canonical (h : canonical ea = false) : effDcdec c s = .trap s (c.trapAt 0x06 0x0400 ea []) := by
  simp only [effDcdec, hea, h, Bool.not_false, if_true]

variable (hcan : canonical ea = true)
include hcan

theorem effDcdec_of_misaligned (h : ea % 64 ≠ 0) : effDcdec c s = .trap s (c.trapAt 0x04 0x0100 ea []) := by
  simp only [effDcdec, hea, hcan, h, Bool.not_true, Bool.false_eq_true, if_false, if_true, ne_eq, not_false_iff]

variable (hal : ea % 64 = 0)
include hal

theorem effDcdec_of_tier {e : Word64} (hleaf : leafFor s c.t.core c.t.ctx ea = some e) (htier : pteTier e ≠ 0) :
    effDcdec c s = .trap s (c.trap 0x0E 4) := by
  have hat : counterAt s c.t ea = .tier := by
    simp only [counterAt, hleaf, htier, ne_eq, not_false_iff, if_true]
  simp only [effDcdec, hea, hcan, hal, hat, Bool.not_true, Bool.false_eq_true, if_false, ne_eq, not_true]

variable {k : Nat} (hk : counterAt s c.t ea = .key k)
include hk

theorem effDcdec_of_list_full (hd : c.t.defers = true) (hfull : c.t.listFull = true) :
    effDcdec c s = .trap (tlbFill s c.t.core c.t.ctx ea) (c.trap 0x0E 0x0010) := by
  simp only [effDcdec, hea, hcan, hal, hk, hd, hfull, Bool.not_true, Bool.false_eq_true, if_false, if_true, ne_eq, not_true]

theorem effDcdec_of_deferred (hd : c.t.defers = true) (hfull : c.t.listFull = false) : effDcdec c s =
    .done (c.putS (deferOp (tlbFill s c.t.core c.t.ctx ea) c.t.uid (.dec (BitVec.ofNat 64 ea))) 0) := by
  simp only [effDcdec, hea, hcan, hal, hk, hd, hfull, Bool.not_true, Bool.false_eq_true, if_false, if_true, ne_eq, not_true]

end

/-- The lane of a decrement on its way. -/
def decLane (base k : Nat) : LaneReq :=
  { lane := 0, addr := BitVec.ofNat 64 base, data := 0, st := .ready [{ key := k, len := 64, kind := 0 }] }

/-- The decrement goes into flight behind the team's earlier accesses (15 R349). -/
def C.decSent (c : C) (s : State) (base k : Nat) (waits : List Nat) : State :=
  let s1 := c.launch s [decLane base k] [] [0] true
  { s1 with flights := s1.flights.map (fun (f : Flight) => if f.id = s.nextId then { f with waits := waits } else f) }.post
    (.dcdecApply s.nextId)

theorem flight?_decSent {s : State} (hfresh : FreshIds s) (c : C) (base k : Nat) (waits : List Nat) :
    (c.decSent s base k waits).flight? s.nextId = some { c.flight s [decLane base k] [] [0] true with waits := waits } := by
  have h := flight?_map (s := c.launch s [decLane base k] [] [0] true) (id := s.nextId)
    (g := fun f => if f.id = s.nextId then { f with waits := waits } else f) (fun f => by split <;> rfl)
  rw [flight?_launch hfresh, Option.map_some] at h
  exact h.trans (congrArg some (if_pos rfl))

theorem effDcdec_of_sent {c : C} {s : State} {ea k : Nat} (hea : offAddr c.x (c.base s) = ea) (hcan : canonical ea = true)
    (hal : ea % 64 = 0) (hk : counterAt s c.t ea = .key k) (hd : c.t.defers = false) (hroom : outstanding s c.t.uid < outstandingCap) :
    ∃ cs, effDcdec c s = .done (c.decSent { s with cores := cs } (c.base s) k (lsWaits s c.t.uid 3)) := by
  obtain ⟨cs, hcs⟩ := tlbFill_eq_cores s c.t.core c.t.ctx ea
  have hroom' : ¬ outstandingCap ≤ outstanding ({ s with cores := cs } : State) c.t.uid := Nat.not_le.mpr hroom
  refine ⟨cs, ?_⟩
  simp only [effDcdec, hea, hcan, hal, hk, hcs, hd, if_neg hroom', Bool.not_true, Bool.false_eq_true, if_false, ne_eq, not_true]
  rfl

/-! ## DCDEC_APPLY (15 R348, R349) -/

/-- The status of a decrement of a counter that stood at c. -/
def decStatus (c : Int) (own : Bool) : Nat := if c = 1 then (if own = true then 1 else 3) else if c ≤ 0 then 2 else 0

/-- The flags of the record after it. -/
def decFlags (c : Int) (own : Bool) (fl : Nat) : Nat :=
  if c = 1 ∧ own = true then fl ||| 2 else if c ≤ 1 then fl ||| 1 else fl

/-- The count of the record at a key. -/
def counted (s : State) (k : Nat) : Int := sextN 32 (s.mem.num k 4)

/-- Whether its successor's queue is the context's. -/
def ownsQueue (s : State) (ctx k : Nat) : Bool := (s.queue? (s.mem.num (k + 4) 2)).any (fun y => y.ctx = ctx)

/-- The record with its count one less (R348). -/
def decCells (s : State) (ctx k : Nat) : List (Nat × Byte) :=
  cellsAt k (leBytes 4 (patN 32 (counted s k - 1)) ++ leBytes 2 (s.mem.num (k + 4) 2) ++
    leBytes 2 (decFlags (counted s k) (ownsQueue s ctx k) (s.mem.num (k + 6) 2)))

/-- The push of the successor's entry. -/
def decPush (s : State) (ctx k : Nat) : PushMsg :=
  { id := 0, queue := s.mem.num (k + 4) 2, entry := entryAt (s.apply (decCells s ctx k)).mem (k + 32), team := 0, kind := .counter,
    nb := false, dst := 0, len := 0 }

theorem counterDec_eq (s : State) (ctx k : Nat) : counterDec s ctx k =
    (if decStatus (counted s k) (ownsQueue s ctx k) = 1 then startPush (s.apply (decCells s ctx k)) (decPush s ctx k)
     else s.apply (decCells s ctx k), decStatus (counted s k) (ownsQueue s ctx k)) := by
  have hflags : (if counted s k = 1 then (if ownsQueue s ctx k then (s.mem.num (k + 6) 2 ||| 2, 1) else (s.mem.num (k + 6) 2 ||| 1, 3))
      else if counted s k ≤ 0 then (s.mem.num (k + 6) 2 ||| 1, 2) else (s.mem.num (k + 6) 2, 0)) =
      (decFlags (counted s k) (ownsQueue s ctx k) (s.mem.num (k + 6) 2), decStatus (counted s k) (ownsQueue s ctx k)) := by
    by_cases hone : counted s k = 1
    · cases hown : ownsQueue s ctx k <;> simp [decFlags, decStatus, hone]
    · by_cases hlow : counted s k ≤ 0
      · simp [decFlags, decStatus, hone, hlow, show counted s k ≤ 1 by omega]
      · simp [decFlags, decStatus, hone, hlow, show ¬ counted s k ≤ 1 by omega]
  unfold counterDec
  dsimp only
  rw [counted, ownsQueue] at hflags
  rw [hflags]
  rfl

theorem counterDec_mem (s : State) (ctx k : Nat) : (counterDec s ctx k).1.mem = s.mem.setAll (decCells s ctx k) := by
  rw [counterDec_eq]
  dsimp only
  split
  · exact apply_mem ..
  · exact apply_mem ..

theorem wordsKept_apply (s : State) (cells : List (Nat × Byte)) (u : Nat) : WordsKept s (s.apply cells) u := by
  obtain ⟨es, h⟩ := apply_eq s cells
  refine wordsKept_map (c := Team.marked cells) (fun t => ?_) (congrArg State.teams h) u
  obtain ⟨e, ht⟩ := t.marked_eq cells
  rw [ht]
  exact .refl t

theorem wordsKept_counterDec (s : State) (ctx k u : Nat) : WordsKept s (counterDec s ctx k).1 u := by
  rw [counterDec_eq]
  dsimp only
  split
  · exact (wordsKept_apply s (decCells s ctx k) u).trans (wordsKept_of_teams rfl u)
  · exact wordsKept_apply s (decCells s ctx k) u

theorem counterDec_fires {s : State} {ctx k : Nat} (h : decStatus (counted s k) (ownsQueue s ctx k) = 1) :
    ∃ m ∈ (counterDec s ctx k).1.pushes, m.queue = s.mem.num (k + 4) 2 ∧
      m.entry = entryAt (s.mem.setAll (decCells s ctx k)) (k + 32) ∧ m.kind = .counter := by
  rw [counterDec_eq, if_pos h]
  refine ⟨_, List.mem_append_right _ (List.mem_singleton_self _), rfl, ?_, rfl⟩
  rw [← apply_mem]
  rfl

/-- The state in which a decrement by a team is made and its lines have left the core's L1 (R349). -/
def decMade (s : State) (t : Team) (k : Nat) : State :=
  ((List.range 64).map (fun i => k + i)).foldl (fun s x => l1DropLine s t.core x) (counterDec s t.ctx k).1

theorem decAt_of_no_write {s : State} {t : Team} {k : Nat}
    (h : writesOn s t.core t.uid ((List.range 64).map (fun i => k + i)) true = []) :
    decAt s t k = (decMade s t k, some (decStatus (counted s k) (ownsQueue s t.ctx k))) := by
  rw [decAt, h]
  simp only [applyAll, h, List.isEmpty_nil, Bool.not_true, Bool.false_eq_true, if_false]
  show (decMade s t k, some (counterDec s t.ctx k).2) = _
  rw [counterDec_eq]

/-- The end of a decrement: the status reaches sD, and the flight is over. -/
def decEnd (s : State) (f : Flight) (u d st : Nat) : State :=
  endFlight (clearWait (setLane (s.onTeam u (fun t => t.setS d (BitVec.ofNat 64 st))) f.id 0 .done) f.id) { f with lanes := [] }

theorem exec_dcdecApply {id : Nat} {s : State} {f : Flight} {t : Team} {x : Ext} {r : LaneReq} {rs : List LaneReq} {k : Nat}
    (hf : s.flight? id = some f) (ht : s.team? f.team = some t) (hi : f.instr = .dcdec x) (hl : f.lanes = r :: rs)
    (hwaits : f.waits = []) (hw : f.withdrawn = false) (hst : ∀ l ∈ f.lanes, l.st ≠ .faulted)
    (hk : counterAt s t (offAddr x r.addr.toNat) = .key k)
    (hfree : writesOn s t.core t.uid ((List.range 64).map (fun i => k + i)) true = []) : exec (.dcdecApply id) s =
      .next (decEnd (decMade s t k) f f.team x.d.toNat (decStatus (counted s k) (ownsQueue s t.ctx k))) := by
  have hagain : dcdecAgain s f = s := if_neg fun h => by
    obtain ⟨l, hl, hfault⟩ := List.any_eq_true.mp h
    exact hst l hl (of_decide_eq_true hfault)
  show execDcdecApply id s = _
  simp only [execDcdecApply, hf, ht, hi, hl, hagain, hw, hwaits, List.isEmpty_nil, Bool.not_true, Bool.false_eq_true, if_false, hk,
    decAt_of_no_write hfree, uid_of_team? ht]
  rw [decEnd, id_of_flight? hf, hi, hwaits]

/-! ## qwpush (15 R346) -/

section
variable {c : C} {s : State} {q : Queue} {src dst n : Nat} (hq : c.queueOf s = some q)
  (hn : (c.t.sval (c.x.c.code.toNat + 2)).toNat = n)
include hq hn

theorem effQwpush_of_length (h : ¬ (n ≠ 0 ∧ n ≤ 4096)) : effQwpush c s = .trap s (c.trap 0x0E 3) := by
  have hbad : (decide (n = 0) || decide (4096 < n)) = true := by
    rw [← Bool.decide_or, decide_eq_true_iff]
    omega
  simp only [effQwpush, hq, hn, hbad, if_true]

variable (hlen : n ≠ 0 ∧ n ≤ 4096) (hsrc : (c.t.sval c.x.c.code.toNat).toNat = src)
include hlen hsrc

theorem effQwpush_of_source (h : scratchOk (s.core c.t.core) c.t.place c.t.ctx src n = false) :
    effQwpush c s = .trap s (c.trapAt 0x05 0x0701 src []) := by
  have hgood : (decide (n = 0) || decide (4096 < n)) = false := by
    rw [← Bool.decide_or, decide_eq_false_iff_not]
    omega
  simp only [effQwpush, hq, hsrc, hn, hgood, h, Bool.not_false, Bool.false_eq_true, if_false, if_true]

variable (hhere : scratchOk (s.core c.t.core) c.t.place c.t.ctx src n = true)
  (hdst : (c.t.sval (c.x.c.code.toNat + 1)).toNat = dst)
include hhere hdst

theorem effQwpush_of_destination (h : ¬ (canonical dst = true ∧ canonical ((dst + (n - 1)) % 2 ^ 64) = true)) :
    effQwpush c s = .trap s (c.trapAt 0x06 0x0401 dst []) := by
  have hgood : (decide (n = 0) || decide (4096 < n)) = false := by
    rw [← Bool.decide_or, decide_eq_false_iff_not]
    omega
  have hbad : (!canonical dst || !canonical ((dst + (n - 1)) % 2 ^ 64)) = true := by
    rw [← Bool.not_and, Bool.not_eq_true', ← Bool.not_eq_true, Bool.and_eq_true]
    exact h
  simp only [effQwpush, hq, hsrc, hdst, hn, hgood, hhere, hbad, Bool.not_true, Bool.false_eq_true, if_false, if_true]

variable (hthere : canonical dst = true ∧ canonical ((dst + (n - 1)) % 2 ^ 64) = true)
include hthere

/-- Past the checks of its length and ranges, `qwpush` looks at the declared ranges and the room (R346). -/
theorem effQwpush_of_ranges : effQwpush c s =
    if c.t.declares dst n then .trap s (c.trapAt 0x05 0x0801 dst [])
    else if c.t.defers && c.t.listFull then .trap s (c.trap 0x0E 0x0010)
    else if scratchHeld (s.core c.t.core) c.t.place c.t.ctx src n || outstandingCap ≤ outstanding s c.t.uid then .wait s
    else
      let e := c.entry c.x.b.code.toNat
      let s1 := c.launch s [{ lane := 0, addr := c.sc64 s c.x.a, data := c.t.sval c.x.b.code.toNat, st := .todo }] []
        ([0, src, n, 0, bitNat c.t.defers, q.num, dst] ++ e.map (fun w => w.toNat)) true
      .done ((if c.t.defers then c.putS (deferOp s1 c.t.uid (.push s.nextId q.num e)) 0 else s1).post
        (.qwpushPayloadDone s.nextId)) := by
  have hgood : (decide (n = 0) || decide (4096 < n)) = false := by
    rw [← Bool.decide_or, decide_eq_false_iff_not]
    omega
  simp only [effQwpush, hq, hsrc, hdst, hn, hgood, hhere, hthere.1, hthere.2, Bool.not_true, Bool.or_self, Bool.false_eq_true,
    if_false]

end

theorem queueOf_ctxAt {i : Instr} {opc sub n : Nat} {x : Ext} {t : Team} {s : State} {q : Queue}
    (hn : (srcScalar s t x x.a).toNat < 65536) (hq : s.queue? (srcScalar s t x x.a).toNat = some q) (hctx : q.ctx = t.ctx) :
    (ctxAt i opc sub n x t).queueOf s = some q := by
  simp only [C.queueOf, toNat_sc64_ctxAt, ctxAt_x, ctxAt_t, if_neg (Nat.not_le.mpr hn), hq]
  exact if_pos hctx

theorem exec_qwpushPayloadDone {id : Nat} {s s1 : State} {f : Flight} {t : Team} {x : Ext} {off : Nat} (hf : s.flight? id = some f)
    (ht : s.team? f.team = some t) (hi : f.instr = .qwpush x)
    (hfirst : payloadBehind s t (f.aux.getD 6 0) (f.aux.getD 2 0) = false)
    (hw : payload t.core t.ctx (f.aux.getD 6 0) (f.aux.getD 2 0) (payloadByte t.core f) 4 s (f.aux.getD 3 0) = (s1, off, none)) :
    exec (.qwpushPayloadDone id) s = .next (payloadWritten s1 t f x.d.toNat (x.bit 0)) := by
  show execQwpushPayloadDone id s = _
  simp only [execQwpushPayloadDone, hf, ht, hi, hfirst, Bool.false_eq_true, if_false, hw]

/-- The end of a decrement: the flight is gone, memory and the pushes stay, and sD holds the status. -/
theorem decEnd_says (s : State) (f : Flight) (d st : Nat) : (decEnd s f f.team d st).flight? f.id = none ∧
    (decEnd s f f.team d st).mem = s.mem ∧ (decEnd s f f.team d st).pushes = s.pushes ∧
    ∀ t, s.team? f.team = some t → d < t.s.length →
      ∃ t', (decEnd s f f.team d st).team? f.team = some t' ∧ t'.sval d = BitVec.ofNat 64 st := by
  refine ⟨flight?_endFlight_same _ { f with lanes := [] }, ?_, ?_, fun t ht hd => ?_⟩
  · rw [decEnd, endFlight_mem, clearWait_mem, setLane_mem, State.onTeam_mem]
  · rw [decEnd, pushes_endFlight, pushes_clearWait]
    rfl
  · let s1 := s.onTeam f.team (fun t => t.setS d (BitVec.ofNat 64 st))
    have hset : s1.team? f.team = some (t.setS d (BitVec.ofNat 64 st)) :=
      team_onTeam_same (f := fun t => t.setS d (BitVec.ofNat 64 st)) (fun _ => rfl) ht
    have hkept : WordsKept s1 (decEnd s f f.team d st) f.team :=
      ((wordsKept_of_teams rfl f.team).trans (wordsKept_clearWait (setLane s1 f.id 0 .done) f.id f.team)).trans
        (wordsKept_endFlight (f := { f with lanes := [] }) rfl _ f.team)
    obtain ⟨t', ht', _, _, hval, _⟩ := hkept _ hset
    exact ⟨t', ht', by rw [hval, Team.sval_setS, if_pos ⟨rfl, hd⟩]⟩

theorem decMade_mem (s : State) (t : Team) (k : Nat) : (decMade s t k).mem = s.mem.setAll (decCells s t.ctx k) := by
  rw [decMade, foldl_keeps (g := fun s x => l1DropLine s t.core x) State.mem (fun _ _ => rfl), counterDec_mem]

theorem wordsKept_decMade (s : State) (t : Team) (k u : Nat) : WordsKept s (decMade s t k) u := by
  refine (wordsKept_counterDec s t.ctx k u).trans (wordsKept_of_teams ?_ u)
  rw [decMade, foldl_keeps (g := fun s x => l1DropLine s t.core x) State.teams (fun _ _ => rfl)]

theorem decMade_pushes (s : State) (t : Team) (k : Nat) : (decMade s t k).pushes = (counterDec s t.ctx k).1.pushes := by
  rw [decMade, foldl_keeps (g := fun s x => l1DropLine s t.core x) State.pushes (fun _ _ => rfl)]

theorem word_decStatus (c : Int) (own : Bool) : BitVec.ofNat 64 (decStatus c own) =
    if c = 1 then (if own = true then (1 : Word64) else 3) else if c ≤ 0 then 2 else 0 := by
  rw [decStatus, apply_ite (BitVec.ofNat 64), apply_ite (BitVec.ofNat 64), apply_ite (BitVec.ofNat 64)]
  rfl

theorem decStatus_of_fire {c : Int} {own : Bool} (hc : c = 1) (hown : own = true) : decStatus c own = 1 := by
  rw [decStatus, if_pos hc, if_pos hown]

/-- What a decrement that is made and over leaves (R348, R349). -/
theorem decMade_decEnd {s : State} {f : Flight} {t : Team} {d : Nat} (ht : s.team? f.team = some t) (k : Nat) :
    let s' := decEnd (decMade s t k) f f.team d (decStatus (counted s k) (ownsQueue s t.ctx k))
    s'.flight? f.id = none ∧ s'.mem = s.mem.setAll (decCells s t.ctx k) ∧
    (t.s.length = 128 → d < 128 → ∃ t', s'.team? f.team = some t' ∧ t'.sval d = if counted s k = 1 then
      (if ownsQueue s t.ctx k = true then (1 : Word64) else 3) else if counted s k ≤ 0 then 2 else 0) ∧
    (counted s k = 1 → ownsQueue s t.ctx k = true → ∃ m ∈ s'.pushes, m.queue = s.mem.num (k + 4) 2 ∧
      m.entry = entryAt s'.mem (k + 32) ∧ m.kind = .counter) := by
  intro s'
  obtain ⟨hgone, hmem, hpushes, hval⟩ := decEnd_says (decMade s t k) f d (decStatus (counted s k) (ownsQueue s t.ctx k))
  refine ⟨hgone, hmem.trans (decMade_mem s t k), fun hlen hd => ?_, fun hone hown => ?_⟩
  · obtain ⟨t1, ht1, _, hlen1, _⟩ := wordsKept_decMade s t k f.team t ht
    obtain ⟨t', ht', hd'⟩ := hval t1 ht1 (by rwa [hlen1, hlen])
    exact ⟨t', ht', hd'.trans (word_decStatus ..)⟩
  · obtain ⟨m, hm, hqueue, hentry, hkind⟩ := counterDec_fires (decStatus_of_fire hone hown)
    refine ⟨m, ?_, hqueue, ?_, hkind⟩
    · rw [hpushes, decMade_pushes]
      exact hm
    · rw [hmem, decMade_mem]
      exact hentry

/-! ## The obligation -/

/-- Settles O39: `tend` and its commit by the task at hand, `dcdec` and `qwpush` by the checks at issue, and their completions by
what the record and the payload become. -/
theorem tasksEndAndCountersCount : Obligations.TasksEndAndCountersCount := by
  unfold Obligations.TasksEndAndCountersCount
  refine ⟨tendOp_of_effect (fun _ _ => rfl), tendOp_of_effect (fun _ _ => rfl), ?commit, ?dcdec, ?apply, ?qwpush,
    fun id s f t x s1 off hf ht hi hfirst hw => exec_qwpushPayloadDone hf ht hi hfirst hw, ?dcdecTraps, ?qwpushTraps⟩
  case commit =>
    exact fun u s t ht hrun s1 t1 k hsets hpush ht1 hk =>
      ⟨fun d ds hd => exec_tendCommit_of_deferred ht hrun hsets hpush ht1 hk hd,
        fun hd huses => exec_tendCommit_of_none ht hrun hsets hpush ht1 hk hd huses⟩
  case dcdec =>
    intro x s t k hi hgo base ea hcan hal hk hfresh hroom
    let c := ctxAt (.dcdec x) 0x53 4 (extLen x) x t
    have hea : offAddr c.x (c.base s) = ea := congrArg (offAddr x) (base_ctxAt ..)
    have hrun := onGo_of_go (c := c) hgo effDcdec s
    refine ⟨fun hd => ?_, fun task hd htask hlen => ?_⟩
    · obtain ⟨cs, heff⟩ := effDcdec_of_sent (c := c) hea hcan hal hk hd hroom
      refine ⟨_, { c.flight { s with cores := cs } [decLane (c.base s) k] [] [0] true with
        waits := lsWaits s t.uid 3 }, exec_of_done rfl hi (hrun.trans heff),
        flight?_decSent (s := { s with cores := cs }) hfresh .., rfl, rfl, ?_, mem_agenda_post .., rfl⟩
      exact congrArg (fun b => [BitVec.ofNat 64 b]) (base_ctxAt ..)
    · exact exec_of_done rfl hi (hrun.trans (effDcdec_of_deferred (c := c) hea hcan hal hk hd
        ((Team.listFull_of_task htask).trans (decide_eq_false (Nat.not_le.mpr hlen)))))
  case apply =>
    intro id s f t x r rs k hf ht hi hl hwaits hw hst hk hfree c q own fl
    obtain ⟨hgone, hmem, hval, hfires⟩ := decMade_decEnd (d := x.d.toNat) ht k
    exact ⟨_, exec_dcdecApply hf ht hi hl hwaits hw hst hk hfree, id_of_flight? hf ▸ hgone, hmem, hval, hfires⟩
  case qwpush =>
    intro x s t q hi hgo hnum hq hctx k src dst n e hpos hmax hhere hcan hcan' hdecl hlist hroom hfree s1
    let c := ctxAt (.qwpush x) 0x53 2 (extLen x) x t
    have hfull : (c.t.defers && c.t.listFull) = false := by
      cases hd : t.defers with
      | false => exact (congrArg (· && c.t.listFull) hd)
      | true => exact (congrArg (· && c.t.listFull) hd).trans (hlist hd)
    have hgoes : (scratchHeld (s.core c.t.core) c.t.place c.t.ctx src n || decide (outstandingCap ≤ outstanding s c.t.uid)) = false := by
      rw [Bool.or_eq_false_iff, decide_eq_false_iff_not]
      exact ⟨hfree, Nat.not_le.mpr hroom⟩
    have heff := effQwpush_of_ranges (c := c) (queueOf_ctxAt hnum hq hctx) rfl ⟨Nat.ne_of_gt hpos, hmax⟩ rfl hhere rfl
      ⟨hcan, hcan'⟩
    rw [sc64_ctxAt] at heff
    exact exec_of_done rfl hi ((onGo_of_go (c := c) hgo effQwpush s).trans (heff.trans ((if_neg (ne_true_of_eq_false hdecl)).trans
      ((if_neg (ne_true_of_eq_false hfull)).trans (if_neg (ne_true_of_eq_false hgoes))))))
  case dcdecTraps =>
    intro x s t hi hgo base ea trap
    let c := ctxAt (.dcdec x) 0x53 4 (extLen x) x t
    have hea : offAddr c.x (c.base s) = ea := congrArg (offAddr x) (base_ctxAt ..)
    have hrun := onGo_of_go (c := c) hgo effDcdec s
    have ht := team?_uid_of_issues hi
    refine ⟨fun h => exec_of_trap rfl hi (hrun.trans (effDcdec_of_not_canonical (c := c) hea h)) ht,
      fun hcan h => exec_of_trap rfl hi (hrun.trans (effDcdec_of_misaligned (c := c) hea hcan h)) ht,
      fun e hcan hal hleaf htier => exec_of_trap rfl hi (hrun.trans (effDcdec_of_tier (c := c) hea hcan hal hleaf htier)) ht,
      fun k task hcan hal hk hd htask hlen => exec_of_trap rfl hi
        (hrun.trans (effDcdec_of_list_full (c := c) hea hcan hal hk hd
          ((Team.listFull_of_task htask).trans (decide_eq_true hlen)))) ?_⟩
    obtain ⟨cs, hcs⟩ := tlbFill_eq_cores s t.core t.ctx ea
    exact (team?_congr (congrArg State.teams hcs) t.uid).trans ht
  case qwpushTraps =>
    intro x s t q hi hgo hnum hq hctx k src dst n len here there trap
    let c := ctxAt (.qwpush x) 0x53 2 (extLen x) x t
    have hof : c.queueOf s = some q := queueOf_ctxAt hnum hq hctx
    have hrun := onGo_of_go (c := c) hgo effQwpush s
    have ht := team?_uid_of_issues hi
    refine ⟨fun h => exec_of_trap rfl hi (hrun.trans (effQwpush_of_length hof rfl h)) ht,
      fun hlen h => exec_of_trap rfl hi (hrun.trans (effQwpush_of_source hof rfl hlen rfl (Bool.eq_false_of_not_eq_true h))) ht,
      fun hlen hhere h => exec_of_trap rfl hi (hrun.trans (effQwpush_of_destination hof rfl hlen rfl hhere rfl h)) ht,
      fun hlen hhere hthere hd => exec_of_trap rfl hi
        (hrun.trans ((effQwpush_of_ranges hof rfl hlen rfl hhere rfl hthere).trans (if_pos hd))) ht,
      fun hlen hhere hthere hd hdef hfull => exec_of_trap rfl hi
        (hrun.trans ((effQwpush_of_ranges hof rfl hlen rfl hhere rfl hthere).trans
          ((if_neg (ne_true_of_eq_false hd)).trans (if_pos ?_)))) ht⟩
    exact Bool.and_eq_true_iff.mpr ⟨hdef, hfull⟩

end Sys2Proof.Machine
end

section
/-!
PROOFS. Surfaces (18 R398-R408): `sld`, `samp` and `sst` at issue, SAMPLER_COMPLETE of one lane, and `sqry`.
-/

namespace Sys2Proof.Machine

/-! ## Accesses at issue (18 R405, 14 R320) -/

section
variable {mk : Ext → Instr} {sub : Nat} {x : Ext} {s : State} {t : Team} {g : Surf} (hany : (activeLanes t x).any id = true)
  (hg : readSurf t.agent s t.surfb.toNat (srcScalar s t x x.a).toNat = .ok (.ok g))
include hany hg

theorem effSurf_of_load (hroom : outstanding s t.uid < outstandingCap) :
    effSurf false (ctxAt (mk x) 0x56 sub (extLen x) x t) s = .done (surfIssue mk sub x s t g) := by
  simp only [effSurf, C.any, ctxAt_act, hany, toNat_sc64_ctxAt, ctxAt_x, ctxAt_t, hg, Bool.not_true, Bool.false_eq_true, if_false,
    Bool.false_and, List.isEmpty_nil, if_neg (Nat.not_le.mpr hroom)]
  rfl

theorem effSurf_of_unwritable (h : g.wr = false ∨ g.layout = 2) :
    effSurf true (ctxAt (mk x) 0x56 sub (extLen x) x t) s = .trap s ((ctxAt (mk x) 0x56 sub (extLen x) x t).trap 0x05 0x0B03) := by
  have hbad : (!g.wr || decide (g.layout = 2)) = true := by
    rcases h with h | h <;> rw [h]
    · rfl
    · exact Bool.or_true _
  simp only [effSurf, C.any, ctxAt_act, hany, toNat_sc64_ctxAt, ctxAt_x, ctxAt_t, hg, Bool.not_true, Bool.false_eq_true, if_false,
    Bool.true_and, hbad, if_true]

end

/-- The declared texels among those of each lane, as lane and address, are those of the lanes that have one (R320). -/
theorem filter_flatMap_of_any {T : Nat → List (Nat × Nat)} {p : Nat × Nat → Bool} {q : Nat → Bool}
    (h : ∀ l, ∀ a ∈ T l, p a = q a.1) (ls : List Nat) :
    ((ls.filter (fun l => (T l).any p)).flatMap (fun l => (T l).map (fun a => (l, a.1)))).filter (fun y => q y.2) =
      ls.flatMap (fun l => ((T l).filter p).map (fun a => (l, a.1))) := by
  induction ls with
  | nil => rfl
  | cons l ls ih =>
    have hone : ((T l).map (fun a => (l, a.1))).filter (fun y => q y.2) = ((T l).filter p).map (fun a => (l, a.1)) := by
      rw [List.filter_map]
      exact congrArg _ (List.filter_congr fun a ha => (h l a ha).symm)
    cases hany : (T l).any p with
    | true =>
      rw [List.filter_cons_of_pos (p := fun l => (T l).any p) hany, List.flatMap_cons, List.filter_append, ih, List.flatMap_cons, hone]
    | false =>
      have hnone : (T l).filter p = [] := List.filter_eq_nil_iff.mpr (List.any_eq_false.mp hany)
      rw [List.filter_cons_of_neg (p := fun l => (T l).any p) (ne_true_of_eq_false hany), ih, List.flatMap_cons, hnone]
      rfl

/-- What an `sst` writes of a texel is one channel. -/
theorem width_of_mem_sstTargets {g : Surf} {x : Ext} {ps : List Word64} {a : Nat × Nat} (h : a ∈ sstTargets g x ps) :
    a.2 = chanBytes g.fmt := by
  obtain ⟨p, _, h⟩ := List.mem_flatMap.mp h
  split at h
  · obtain ⟨c, _, rfl⟩ := List.mem_map.mp h
    rfl
  · exact absurd h List.not_mem_nil

/-- The texels of a lane of `sst`. -/
def laneTargets (t : Team) (x : Ext) (g : Surf) (l : Nat) : List (Nat × Nat) := sstTargets g x [lanePair t x.b.code.toNat l]

/-- The lanes of an `sst` that would write a declared texel. -/
def ownLanes (t : Team) (x : Ext) (g : Surf) : List Nat :=
  (lanesOf (activeLanes t x)).filter (fun l => (laneTargets t x g l).any (fun a => t.declares a.1 a.2))

/-- The declared texels of an `sst`, as lane and address. -/
def ownTexels (t : Team) (x : Ext) (g : Surf) : List (Nat × Nat) :=
  (lanesOf (activeLanes t x)).flatMap (fun l => ((laneTargets t x g l).filter (fun a => t.declares a.1 a.2)).map (fun a => (l, a.1)))

theorem ownTexels_eq (t : Team) (x : Ext) (g : Surf) :
    ((ownLanes t x g).flatMap (fun l => (laneTargets t x g l).map (fun a => (l, a.1)))).filter
      (fun y => t.declares y.2 (chanBytes g.fmt)) = ownTexels t x g :=
  filter_flatMap_of_any (q := fun a => t.declares a (chanBytes g.fmt))
    (fun _ a ha => congrArg (t.declares a.1) (width_of_mem_sstTargets ha)) _

section
variable {x : Ext} {s : State} {t : Team} {g : Surf} (hany : (activeLanes t x).any id = true)
  (hg : readSurf t.agent s t.surfb.toNat (srcScalar s t x x.a).toNat = .ok (.ok g)) (hwr : g.wr = true) (hlay : g.layout ≠ 2)
include hany hg hwr hlay

/-- On a writable surface an `sst` looks at the declared texels and the room (R320, R405). -/
theorem effSurf_of_writable : effSurf true (ctxAt (.sst x) 0x56 1 (extLen x) x t) s =
    if !(ownLanes t x g).isEmpty then .trap s ((ctxAt (.sst x) 0x56 1 (extLen x) x t).addrTrap 0x05 0x0805 (ownTexels t x g))
    else if outstandingCap ≤ outstanding s t.uid then .wait s else .done (surfIssue .sst 1 x s t g) := by
  have hgood : (!g.wr || decide (g.layout = 2)) = false := by rw [hwr, decide_eq_false hlay]; rfl
  rw [← ownTexels_eq]
  simp only [effSurf, C.any, ctxAt_act, hany, toNat_sc64_ctxAt, ctxAt_x, ctxAt_t, hg, Bool.not_true, Bool.false_eq_true, if_false,
    Bool.true_and, hgood, if_true]
  rfl

theorem effSurf_of_declared (hown : ownTexels t x g ≠ []) : effSurf true (ctxAt (.sst x) 0x56 1 (extLen x) x t) s =
    .trap s ((ctxAt (.sst x) 0x56 1 (extLen x) x t).addrTrap 0x05 0x0805 (ownTexels t x g)) := by
  have hlanes : ownLanes t x g ≠ [] := fun h => hown (by rw [← ownTexels_eq, h]; rfl)
  rw [effSurf_of_writable hany hg hwr hlay, isEmpty_eq_false_of_ne_nil hlanes]
  rfl

theorem effSurf_of_store (hown : ∀ l ∈ lanesOf (activeLanes t x), ∀ a ∈ laneTargets t x g l, t.declares a.1 a.2 = false)
    (hroom : outstanding s t.uid < outstandingCap) :
    effSurf true (ctxAt (.sst x) 0x56 1 (extLen x) x t) s = .done (surfIssue .sst 1 x s t g) := by
  have hlanes : ownLanes t x g = [] := List.filter_eq_nil_iff.mpr fun l hl h => by
    obtain ⟨a, ha, hd⟩ := List.any_eq_true.mp h
    exact absurd hd (ne_true_of_eq_false (hown l hl a ha))
  rw [effSurf_of_writable hany hg hwr hlay, hlanes]
  exact if_neg (Nat.not_le.mpr hroom)

end

/-! ## The values of a lane of `sld` (18 R406) -/

/-- A coordinate outside the surface reads 0 in every channel. -/
theorem sldVals_of_outside {g : Surf} {x y : Int} (h : x < 0 ∨ (g.width : Int) ≤ x ∨ y < 0 ∨ (g.height : Int) ≤ y) (a : Agent)
    (s : State) (bits : Bool) (cs : List Nat) : sldVals a s g bits x y cs = .ok (.inl (cs.map (fun _ => 0))) := by
  have hout : (decide (0 ≤ x) && decide (x < g.width) && decide (0 ≤ y) && decide (y < g.height)) = false := by
    simp only [Bool.and_eq_false_iff, decide_eq_false_iff_not]
    omega
  induction cs with
  | nil => rfl
  | cons c cs ih =>
    simp only [sldVals, hout, Bool.false_and, Bool.false_eq_true, if_false, Bool.not_false, Bool.true_or, if_true, ih]
    rfl

/-! ## sqry (18 R408) -/

section
variable {c : C} {s : State} {h : Nat} (hh : (c.sc64 s c.x.a).toNat = h)
include hh

theorem effSqry_of_large (hlarge : 2 ^ 20 ≤ h) : effSqry c s = .done (c.putS s 0) := by
  simp only [effSqry, hh, if_pos hlarge]

theorem effSqry_of_read {bs : List Byte} (hsmall : h < 2 ^ 20)
    (hbs : c.t.agent.bytes s (c.t.surfb.toNat + 64 * h) 64 = .ok bs) :
    effSqry c s = .done (c.putS s (BitVec.ofNat 64 (sqryWord (c.x.f 1 0) bs))) := by
  simp only [effSqry, hh, if_neg (Nat.not_le.mpr hsmall), hbs]

end

/-! ## SAMPLER_COMPLETE of one lane (18 R405-R409) -/

/-- A flight of one lane that the engine answers ends. -/
theorem engineRun_of_done {s s1 : State} {id path : Nat} {retry : Ev} {work : State → Team → Flight → LaneReq → Found}
    {close : State → Flight → State} {f : Flight} {t : Team} {r : LaneReq} (hf : s.flight? id = some f)
    (ht : s.team? f.team = some t) (hl : f.lanes = [r]) (hr : r.st = .todo) (hw : work s t f r = .done s1)
    (hf1 : s1.flight? id = some f) : engineRun s id path retry work close =
      clearWait (close (setLane s1 id r.lane .done) (f.withLane r.lane .done)) id := by
  have hlane : engineLane id path retry work s r = setLane s1 id r.lane .done := by simp only [engineLane, hf, ht, hw]
  have hlanes := withLane_lanes_of_one hl .done
  simp only [engineRun, hf, hl, List.filter_cons, hr, decide_true, Bool.true_or, List.filter_nil, if_true, List.foldl_cons,
    List.foldl_nil, hlane, flight?_setLane hf1, Flight.over, hlanes, List.any_cons, List.any_nil, List.all_cons, List.all_nil]
  rfl

theorem prefetched_texFetch (s : State) (core key : Nat) : Prefetched false s (texFetch s core key) := by
  unfold texFetch
  dsimp only
  split
  · exact .refl false s
  · exact (prefetched_sliceHold false s key).trans ⟨rfl, rfl, rfl, rfl, fun h => absurd h Bool.false_ne_true⟩

theorem prefetched_texFetchVA (a : Agent) (s : State) (va : Nat) : Prefetched false s (texFetchVA a s va) := by
  unfold texFetchVA
  split
  · split
    · exact prefetched_texFetch ..
    · exact .refl false s
  · exact .refl false s

theorem prefetched_indexFetch (a : Agent) (s : State) (g : Surf) (n : Nat) : Prefetched false s (indexFetch a s g n) := by
  unfold indexFetch
  split
  · exact ⟨rfl, rfl, rfl, rfl, fun h => absurd h Bool.false_ne_true⟩
  · exact .refl false s

/-- What a texel leaves in the sampler's caches changes no memory, team, flight or write (R409). -/
theorem prefetched_texelFill (a : Agent) (g : Surf) (s : State) (q : Nat × Nat) : Prefetched false s (texelFill a g s q) := by
  unfold texelFill
  refine Prefetched.trans ?_ (Prefetched.foldl (prefetched_texFetchVA a) _ _)
  split
  · exact prefetched_indexFetch ..
  · exact .refl false s

/-! ### The registers that a lane fills -/

theorem Team.vreg_fillV (t : Team) (n k : Nat) (ws : List (Nat × Word)) (tag : Tag) : (t.fillV n ws tag).vreg k =
    if n = k ∧ k < t.v.length then { t.vreg k with
      tag := if ws.length = t.width then tag else .gen, lanes := ws.foldl (fun l w => l.set w.1 w.2) (t.vreg k).lanes } else t.vreg k := by
  simp only [Team.fillV, Team.vreg, List.getD_eq_getElem?_getD, List.getElem?_modify]
  by_cases hk : k < t.v.length <;> by_cases hn : n = k <;> simp [hk, hn]

/-- A word that arrives in one lane of one register. -/
theorem Team.lane_fillV_same {t : Team} {n l : Nat} (h : l < (t.vreg n).lanes.length) (w : Word) (tag : Tag) :
    (t.fillV n [(l, w)] tag).lane n l = w := by
  have hn : n < t.v.length := by
    by_contra hn
    rw [Team.vreg, List.getD_eq_default _ _ (Nat.le_of_not_lt hn)] at h
    exact absurd h (Nat.not_lt_zero l)
  rw [Team.lane, Team.vreg_fillV, if_pos ⟨rfl, hn⟩]
  simp [List.getD_eq_getElem?_getD, h]

theorem Team.vreg_fillV_other {t : Team} {n k : Nat} (h : n ≠ k) (ws : List (Nat × Word)) (tag : Tag) :
    (t.fillV n ws tag).vreg k = t.vreg k := by
  rw [Team.vreg_fillV, if_neg fun he => h he.1]

/-- Words that arrive in one lane of some registers from d. -/
def Team.fillRun (t : Team) (d lane : Nat) (ms : List (Nat × Nat)) : Team :=
  ms.foldl (fun t m => t.fillV (d + m.1) [(lane, BitVec.ofNat 32 m.2)] .gen) t

theorem Team.uid_fillRun (t : Team) (d lane : Nat) (ms : List (Nat × Nat)) : (t.fillRun d lane ms).uid = t.uid := by
  rw [Team.fillRun, foldl_keeps (g := fun (t : Team) (m : Nat × Nat) => t.fillV (d + m.1) [(lane, BitVec.ofNat 32 m.2)] .gen)
    Team.uid (fun _ _ => rfl)]

theorem Team.vreg_fillRun_other {d lane k : Nat} {ms : List (Nat × Nat)} (h : ∀ m ∈ ms, d + m.1 ≠ k) (t : Team) :
    (t.fillRun d lane ms).vreg k = t.vreg k := by
  induction ms generalizing t with
  | nil => rfl
  | cons m ms ih =>
    obtain ⟨hm, hms⟩ := List.forall_mem_cons.mp h
    exact (ih hms _).trans (Team.vreg_fillV_other hm ..)

theorem Team.lane_fillRun {d lane : Nat} {ms : List (Nat × Nat)} (hnd : (ms.map Prod.fst).Nodup) {t : Team}
    (hlen : ∀ m ∈ ms, lane < (t.vreg (d + m.1)).lanes.length) {m : Nat × Nat} (hm : m ∈ ms) :
    (t.fillRun d lane ms).lane (d + m.1) lane = BitVec.ofNat 32 m.2 := by
  induction ms generalizing t with
  | nil => exact absurd hm List.not_mem_nil
  | cons m1 ms ih =>
    obtain ⟨hfirst, hnd⟩ := List.nodup_cons.mp hnd
    obtain ⟨hlen1, hlen⟩ := List.forall_mem_cons.mp hlen
    have hne : ∀ q ∈ ms, q.1 ≠ m1.1 := fun q hq h => hfirst (h ▸ List.mem_map_of_mem hq)
    rcases List.mem_cons.mp hm with rfl | hm
    · have hkept := Team.vreg_fillRun_other (d := d) (lane := lane) (k := d + m.1) (ms := ms)
        (fun q hq h => hne q hq (Nat.add_left_cancel h)) (t.fillV (d + m.1) [(lane, BitVec.ofNat 32 m.2)] .gen)
      refine (congrArg (fun v : VReg => v.lanes.getD lane 0) hkept).trans (Team.lane_fillV_same hlen1 ..)
    · refine ih hnd (fun q hq => ?_) hm
      rw [Team.vreg_fillV_other (fun h => hne q hq (Nat.add_left_cancel h).symm)]
      exact hlen q hq

theorem putRun_eq (s : State) (u d lane : Nat) (vs : List Nat) :
    putRun s u d lane vs = s.onTeam u (fun t => t.fillRun d lane ((List.range vs.length).zip vs)) := rfl

/-! ### The end of the flight -/

theorem flight?_clearWait_of_none {s : State} {n : Nat} (h : s.flight? n = none) (id : Nat) : (clearWait s id).flight? n = none := by
  obtain ⟨es, he⟩ := clearWait_eq s id
  refine (?_ : _ = (s.flight? n).map (fun f => { f with waits := f.waits.filter (· ≠ id) })).trans (by rw [h]; rfl)
  rw [he]
  exact flight?_map (s := s) (fun _ => rfl)

theorem clearWait_writes_cells (s : State) (id : Nat) :
    (clearWait s id).writes.map (fun w => (w.id, w.cells)) = s.writes.map (fun w => (w.id, w.cells)) := by
  obtain ⟨es, he⟩ := clearWait_eq s id
  rw [he]
  exact List.map_map

theorem writes_endFlight (s : State) (f : Flight) : (endFlight s f).writes = s.writes := by
  obtain ⟨ts, es, h⟩ := teamsChange_endFlight s f
  rw [h]
  rfl

theorem flightTrap_of_done {f : Flight} {r : LaneReq} (hl : f.lanes = [r]) : flightTrap (f.withLane r.lane .done) = none := by
  simp only [flightTrap, withLane_lanes_of_one hl]
  rfl

/-- Without a failed lane, a flight of the group ends like any other. -/
theorem surfClose_of_noTrap {f : Flight} (h : flightTrap f = none) (s : State) : surfClose s f = endFlight s f := by
  unfold surfClose
  split
  · rw [endFlight_of_noTrap h, closeLate, h]
  · rfl

/-- SAMPLER_COMPLETE of a flight whose one lane is answered: the flight is gone, and what the answer left stands. -/
theorem exec_samplerComplete_of_done {id : Nat} {s s1 : State} {f : Flight} {t : Team} {r : LaneReq} (hf : s.flight? id = some f)
    (ht : s.team? f.team = some t) (hl : f.lanes = [r]) (hr : r.st = .todo) (hturn : surfTurn s t f r = .done s1)
    (hflights : s1.flights = s.flights) : ∃ s', exec (.samplerComplete id) s = .next s' ∧ s'.flight? id = none ∧ s'.mem = s1.mem ∧
      s'.writes.map (fun w => (w.id, w.cells)) = s1.writes.map (fun w => (w.id, w.cells)) ∧ ∀ u, WordsKept s1 s' u := by
  have hf1 : s1.flight? id = some f := by rw [State.flight?, hflights, ← State.flight?, hf]
  have hnone := flightTrap_of_done hl
  have hid : f.id = id := id_of_flight? hf
  refine ⟨_, congrArg Host.Outcome.next ((engineRun_of_done hf ht hl hr hturn hf1).trans
    (congrArg (clearWait · id) (surfClose_of_noTrap hnone _))), flight?_clearWait_of_none ?_ id, ?_, ?_, fun u => ?_⟩
  · exact hid ▸ flight?_endFlight_same _ (f.withLane r.lane .done)
  · rw [clearWait_mem, endFlight_mem, setLane_mem]
  · rw [clearWait_writes_cells, writes_endFlight]
    rfl
  · exact ((wordsKept_of_teams rfl u).trans (wordsKept_endFlight hnone (setLane s1 id r.lane .done) u)).trans
      (wordsKept_clearWait _ id u)

/-! ### sld and samp -/

section
variable {id : Nat} {s : State} {f : Flight} {t : Team} {r : LaneReq} {g : Surf}

/-- The state in which a lane of `sld` or `samp` has its values: the texels it read are in the caches. -/
def lanePut (s : State) (t : Team) (f : Flight) (r : LaneReq) (g : Surf) (vs : List Nat) : State :=
  putRun ((laneTexels g f.instr r.data).foldl (texelFill { t.agent with surf := some r.addr.toNat } g) s) f.team f.dst r.lane vs

theorem surfTurn_of_turn (hbehind : pathBehind s f isSurf isSst = false)
    (hwrites : isSst f.instr = false → ∀ w ∈ s.writes, w.team = t.uid → w.path = 5 → f.id ≤ w.id) :
    surfTurn s t f r = surfLane s t f r := by
  have hfirst : (!isSst f.instr && s.writes.any (fun w => w.team = t.uid && w.path = 5 && w.id < f.id)) = false := by
    cases hsst : isSst f.instr with
    | true => rfl
    | false =>
      refine List.any_eq_false.mpr fun w hw h => ?_
      simp only [Bool.and_eq_true, decide_eq_true_iff] at h
      obtain ⟨⟨hteam, hpath⟩, hid⟩ := h
      exact absurd hid (Nat.not_lt.mpr (hwrites hsst w hw hteam hpath))
  simp only [surfTurn, hbehind, hfirst, Bool.or_self, Bool.false_eq_true, if_false]

theorem surfLane_of_sld {x : Ext} {vs : List Nat} (hi : f.instr = .sld x)
    (hg : flightSurf { t.agent with surf := some r.addr.toNat } s t f r = .ok (.ok g))
    (hvs : sldVals { t.agent with surf := some r.addr.toNat } s g (x.ty = .b32) (pairX r.data) (pairY r.data) (chansOf x) =
      .ok (.inl vs)) : surfLane s t f r = .done (lanePut s t f r g vs) := by
  simp only [surfLane, hi, hg, hvs, lanePut]

theorem surfLane_of_samp {x : Ext} {vs : List Nat} (hi : f.instr = .samp x)
    (hg : flightSurf { t.agent with surf := some r.addr.toNat } s t f r = .ok (.ok g))
    (hvs : sampVals { t.agent with surf := some r.addr.toNat } s g x r.data (chansOf x) = .ok (.inl vs)) :
    surfLane s t f r = .done (lanePut s t f r g vs) := by
  simp only [surfLane, hi, hg, hvs, lanePut]

/-- The registers of the run hold the values of the lane, and memory and the flights are as before. -/
theorem lanePut_says (ht : s.team? f.team = some t) {vs : List Nat}
    (hlen : ∀ m < vs.length, r.lane < (t.vreg (f.dst + m)).lanes.length) : (lanePut s t f r g vs).flights = s.flights ∧
    (lanePut s t f r g vs).mem = s.mem ∧ ∃ t1, (lanePut s t f r g vs).team? f.team = some t1 ∧
      ∀ m v, vs[m]? = some v → t1.lane (f.dst + m) r.lane = BitVec.ofNat 32 v := by
  obtain ⟨hmem, hteams, hflights, _, _⟩ := Prefetched.foldl (prefetched_texelFill { t.agent with surf := some r.addr.toNat } g)
    (laneTexels g f.instr r.data) s
  refine ⟨hflights, (putRun_mem ..).trans hmem, _, team_onTeam_same (f := fun t => t.fillRun f.dst r.lane _) (fun t => ?uid)
    ((team?_congr hteams _).trans ht), fun m v hv => ?_⟩
  case uid => exact Team.uid_fillRun ..
  obtain ⟨hm, rfl⟩ := List.getElem?_eq_some_iff.mp hv
  refine Team.lane_fillRun (m := (m, vs[m])) ?_ (fun q hq => ?_) ?_
  · rw [List.map_fst_zip (by simp)]
    exact List.nodup_range
  · exact hlen q.1 (List.mem_range.mp (List.of_mem_zip hq).1)
  · refine List.mem_of_getElem? (i := m) ?_
    rw [List.getElem?_zip_eq_some]
    exact ⟨List.getElem?_range hm, hv⟩

variable (hf : s.flight? id = some f) (ht : s.team? f.team = some t) (hl : f.lanes = [r]) (hr : r.st = .todo)
include hf ht hl hr

/-- SAMPLER_COMPLETE of a `sld` or `samp` whose one lane has its values: they are in the registers of the run. -/
theorem exec_samplerComplete_of_values {vs : List Nat} (hturn : surfTurn s t f r = .done (lanePut s t f r g vs))
    (hlen : ∀ m < vs.length, r.lane < (t.vreg (f.dst + m)).lanes.length) :
    ∃ s' t', exec (.samplerComplete id) s = .next s' ∧ s'.flight? id = none ∧ s'.team? f.team = some t' ∧
      s'.mem = s.mem ∧ ∀ m v, vs[m]? = some v → t'.lane (f.dst + m) r.lane = BitVec.ofNat 32 v := by
  obtain ⟨hflights, hmem, t1, ht1, hlanes⟩ := lanePut_says (g := g) ht hlen
  obtain ⟨s', hexec, hgone, hmem', _, hkept⟩ := exec_samplerComplete_of_done hf ht hl hr hturn hflights
  obtain ⟨t', ht', _, _, _, hsame⟩ := hkept f.team t1 ht1
  exact ⟨s', t', hexec, hgone, ht', hmem'.trans hmem, fun m v hv => (hsame ..).trans (hlanes m v hv)⟩

end

/-! ### sst -/

/-- The writes of a lane of `sst` leave memory and the flights as they are (R406). -/
theorem sstWrites_keeps {t : Team} {f : Flight} {g : Surf} {x : Ext} {r : LaneReq} {cs : List Nat} {s s1 : State}
    (h : sstWrites t f g x r cs s = .ok s1) : s1.flights = s.flights ∧ s1.mem = s.mem := by
  induction cs generalizing s with
  | nil =>
    cases h
    exact ⟨rfl, rfl⟩
  | cons c cs ih =>
    rw [sstWrites] at h
    split at h
    · cases h
      exact ⟨rfl, rfl⟩
    · dsimp only at h
      split at h
      · cases h
      · obtain ⟨hflights, hmem⟩ := ih h
        exact ⟨hflights.trans rfl, hmem.trans rfl⟩

section
variable {s : State} {f : Flight} {t : Team} {r : LaneReq} {g : Surf} {x : Ext} (hi : f.instr = .sst x)
  (hg : flightSurf { t.agent with surf := some r.addr.toNat } s t f r = .ok (.ok g))
include hi hg

theorem surfLane_of_outside (hout : ¬ (0 ≤ pairX r.data ∧ pairX r.data < g.width ∧ 0 ≤ pairY r.data ∧ pairY r.data < g.height)) :
    surfLane s t f r = .done s := by
  have hfalse : (decide (0 ≤ pairX r.data) && decide (pairX r.data < g.width) && decide (0 ≤ pairY r.data) &&
      decide (pairY r.data < g.height)) = false := by
    simp only [Bool.and_eq_false_iff, decide_eq_false_iff_not]
    omega
  simp only [surfLane, hi, hg, hfalse, Bool.not_false, if_true]

theorem surfLane_of_inside {s1 : State} (hl : f.lanes = [r])
    (hin : 0 ≤ pairX r.data ∧ pairX r.data < g.width ∧ 0 ≤ pairY r.data ∧ pairY r.data < g.height)
    (hw : sstWrites t f g x r (chansOf x) s = .ok s1) : surfLane s t f r = .done s1 := by
  obtain ⟨h0, h1, h2, h3⟩ := hin
  have hbehind : sstBehind f r = false := by
    simp only [sstBehind, hl, List.any_cons, List.any_nil, Nat.lt_irrefl, decide_false, Bool.false_and, Bool.or_self]
  simp only [surfLane, hi, hg, hbehind, h0, h1, h2, h3, decide_true, Bool.and_self, Bool.not_true, Bool.false_eq_true, if_false, hw]

end

/-! ## The obligation -/

theorem flightSurf_of_list {a : Agent} {s : State} {t : Team} {f : Flight} {r : LaneReq} {g : Surf} (h : f.aux = 0 :: g.list) :
    flightSurf a s t f r = .ok (.ok g) := by
  obtain ⟨wr, fmt, layout, width, height, pitch, base, side⟩ := g
  simp only [flightSurf, h, Surf.list]
  cases wr <;> rfl

/-- Settles O47: each access by the checks at its issue, SAMPLER_COMPLETE by the answer of its one lane, and `sqry` by the bytes of
the descriptor. -/
theorem surfacesAreReadWrittenAndSampled : Obligations.SurfacesAreReadWrittenAndSampled := by
  unfold Obligations.SurfacesAreReadWrittenAndSampled
  refine ⟨?loads, ?stores, ?answers, ?written, fun a s t f r g h => flightSurf_of_list h, ?reread,
    fun a s g bits x y cs h => sldVals_of_outside h a s bits cs, ?sqry⟩
  case loads =>
    rintro mk sub (⟨rfl, rfl⟩ | ⟨rfl, rfl⟩) x s t g hi hany hg hroom
    · exact exec_of_done rfl hi (effSurf_of_load (mk := .sld) hany hg hroom)
    · exact exec_of_done rfl hi (effSurf_of_load (mk := .samp) hany hg hroom)
  case stores =>
    intro x s t g hi hany hg
    have ht := team?_uid_of_issues hi
    exact ⟨fun h => exec_of_trap rfl hi (effSurf_of_unwritable (mk := .sst) hany hg h) ht,
      fun hwr hlay hown => exec_of_trap rfl hi (effSurf_of_declared hany hg hwr hlay hown) ht,
      fun hwr hlay hown hroom => exec_of_done rfl hi (effSurf_of_store hany hg hwr hlay hown hroom)⟩
  case answers =>
    intro id s f t r g hf ht hl hr a hbehind hg answers hwrites
    have hturn := surfTurn_of_turn (r := r) hbehind fun _ => hwrites
    exact ⟨fun x vs hi hvs hlen => exec_samplerComplete_of_values hf ht hl hr (hturn.trans (surfLane_of_sld hi hg hvs)) hlen,
      fun x vs hi hvs hlen => exec_samplerComplete_of_values hf ht hl hr (hturn.trans (surfLane_of_samp hi hg hvs)) hlen⟩
  case written =>
    intro id s f t r g x hf ht hl hr a hbehind hg hi inside
    have hturn := surfTurn_of_turn (t := t) (r := r) hbehind fun h => absurd (show isSst f.instr = true by rw [hi]; rfl)
      (ne_true_of_eq_false h)
    refine ⟨fun hout => ?_, fun s1 hin hw => ?_⟩
    · obtain ⟨s', hexec, hgone, hmem, hcells, _⟩ := exec_samplerComplete_of_done hf ht hl hr
        (hturn.trans (surfLane_of_outside hi hg hout)) rfl
      exact ⟨s', hexec, hgone, hmem, by simpa using congrArg List.length hcells⟩
    · obtain ⟨hflights, hkeep⟩ := sstWrites_keeps hw
      obtain ⟨s', hexec, hgone, hmem, hcells, _⟩ := exec_samplerComplete_of_done hf ht hl hr
        (hturn.trans (surfLane_of_inside hi hg hl hin hw)) hflights
      exact ⟨s', hexec, hgone, hmem.trans hkeep, hcells⟩
  case reread =>
    intro a s t f r h
    simp only [flightSurf, h]
  case sqry =>
    intro x s t hi hgo h say
    let c := ctxAt (.sqry x) 0x56 3 (extLen x) x t
    have hh : (c.sc64 s c.x.a).toNat = h := toNat_sc64_ctxAt ..
    have hrun := onGo_of_go (c := c) hgo effSqry s
    refine ⟨fun hlarge => exec_of_done rfl hi (hrun.trans (effSqry_of_large hh hlarge)), fun bs hsmall hbs => ?_⟩
    have hexec := exec_of_done (i := .sqry x) rfl hi (hrun.trans (effSqry_of_read (c := c) hh hsmall hbs))
    rw [ctxAt_x] at hexec
    refine ⟨fun hsel => ?_, fun hsel => ?_, fun hsel => ?_, fun hsel => ?_⟩ <;>
    · rw [hsel] at hexec
      exact hexec

end Sys2Proof.Machine
end

section
/-!
PROOFS. Render passes (18 R410-R420): the arithmetic of a tile, the instructions of group tile, and the events that process a pass.
-/

namespace Sys2Proof.Machine

/-! ## The arithmetic of a tile (18 R414) -/

/-- Whether a splat is seen at a pixel: T has not fallen below the threshold, the pixel is within the radius, and it is in front. -/
def splatSeen (opq okey : Nat) (b : Blend) (q : Prim) (dx dy : Nat) : Bool :=
  let near (d : Nat) : Bool := !(fmt32.value d).isNan && !lt32 (q.words.getD 10 0).toNat (d % 2 ^ 31)
  !(fmt32.value b.t).isNan && !lt32 b.t opq && near dx && near dy && decide (q.key < okey)

/-- A splat at a pixel acts with the arithmetic of R414. -/
theorem blendSays : BlendSays := by
  intro opq okey cx cy b q w below dx dy within seen
  have hseen : seen ↔ splatSeen opq okey b q dx dy = true := by
    simp only [seen, within, splatSeen, Bool.and_eq_true, Bool.not_eq_true', decide_eq_true_iff, and_assoc]
    rfl
  refine ⟨fun h => if_neg ?_, fun h => if_pos ?_⟩
  · exact fun hs => h (hseen.mpr hs)
  · exact hseen.mp h

/-- The sum of some counts, as a fold. -/
theorem foldl_add_eq_sum {α : Type} (f : α → Nat) (l : List α) : l.foldl (fun a q => a + f q) 0 = (l.map f).sum := by
  have hfrom : ∀ n, l.foldl (fun a q => a + f q) n = n + (l.map f).sum := by
    induction l with
    | nil => exact fun n => rfl
    | cons q l ih => exact fun n => by rw [List.foldl_cons, ih, List.map_cons, List.sum_cons, Nat.add_assoc]
  rw [hfrom, Nat.zero_add]

/-- The writes of a tile's resolve are those of its pixels inside the target. -/
theorem mem_resolveOf {n : Nat} {p : Pass} {w : Nat × List Byte} : w ∈ (resolveOf n p).1 ↔
    ∃ i x y, (i, x, y) ∈ p.view.pixels p.tile ∧ x < p.view.surf.width ∧ y < p.view.surf.height ∧
      w = (p.view.surf.texel x y, texelBytes p.view.surf (finalColour n p i x y).1) := by
  simp only [resolveOf, List.mem_map, List.mem_filter, Bool.and_eq_true, decide_eq_true_iff]
  constructor
  · rintro ⟨_, ⟨⟨⟨i, x, y⟩, hpixel, rfl⟩, hx, hy⟩, rfl⟩
    exact ⟨i, x, y, hpixel, hx, hy, rfl⟩
  · rintro ⟨i, x, y, hpixel, hx, hy, rfl⟩
    exact ⟨_, ⟨⟨_, hpixel, rfl⟩, hx, hy⟩, rfl⟩

/-- The resolve of a tile is that of R414. -/
theorem resolveSays : ResolveSays := by
  intro n p v clear
  refine ⟨?colour, fun w => mem_resolveOf, ?evals, ?cut⟩
  case colour =>
    rintro i x y okey ocol (⟨htop, rfl, rfl⟩ | ⟨q, c, htop, rfl, hc, rfl⟩) splats b
    · simp only [finalColour, htop]
      rfl
    · simp only [finalColour, htop, hc]
      rfl
  case evals =>
    simp only [resolveOf, foldl_add_eq_sum, List.map_map]
    rfl
  case cut =>
    simp only [resolveOf, foldl_add_eq_sum, List.map_map]
    rfl

/-! ## A pass after a change -/

theorem pass?_onPass {s : State} {die id : Nat} {f : Pass → Pass} (hf : ∀ p, (f p).die = p.die ∧ (f p).id = p.id) :
    (s.onPass die id f).pass? die id = (s.pass? die id).map f := by
  have hkey : ∀ p : Pass, (if p.die = die && p.id = id then f p else p).die = p.die ∧
      (if p.die = die && p.id = id then f p else p).id = p.id := fun p => by
    split
    · exact hf p
    · exact ⟨rfl, rfl⟩
  simp only [State.pass?, State.onPass, List.find?_map, Function.comp_def, (hkey _).1, (hkey _).2]
  cases h : s.passes.find? (fun p => p.die = die && p.id = id) with
  | none => rfl
  | some p => exact congrArg some (if_pos (List.find?_some (p := fun p : Pass => decide (p.die = die) && decide (p.id = id)) h))

theorem pass?_postOnce (s : State) (e : Ev) (die id : Nat) : (s.postOnce e).pass? die id = s.pass? die id := by
  obtain ⟨es, h⟩ := postOnce_eq s e
  rw [h]
  rfl

/-- A pass whose tile has committed: its counts are added, and the next tile is to be processed (R414, R417). -/
def Pass.committed (p : Pass) (cover evals cut : Nat) : Pass :=
  { p with
    counts := (((p.counts.modify 3 (· + p.frags.length)).modify 4 (· + cover)).modify 5 (· + evals)).modify 6 (· + cut)
    active := false, attempt := 0, frags := [], colours := [], tile := p.tile + 1 }

/-- The pixels that the entries of a tile cover. -/
def coveredBy (fs : List Frag) : Nat := (fs.map (fun f => ((List.range 32).filter (fun i => f.cover.testBit i)).length)).sum

theorem commitTile_eq (s : State) (p : Pass) (evals cut : Nat) : commitTile s p evals cut =
    (s.onPass p.die p.id (fun q => q.committed (coveredBy p.frags) evals cut)).postOnce
      (if p.tile + 1 < p.view.tiles then .tileProcess p.die p.id else .tileComposite p.die p.id) := by
  have hcover : p.frags.foldl (fun a f => a + ((List.range 32).filter (fun i => f.cover.testBit i)).length) 0 = coveredBy p.frags :=
    foldl_add_eq_sum ..
  simp only [commitTile, hcover, Pass.count, Pass.committed]
  split
  · rfl
  · rfl

/-- The commit of a tile is that of R414 and R417. -/
theorem commitSays : CommitSays := by
  intro s p evals cut hp s' covered
  have hs' : s' = _ := commitTile_eq s p evals cut
  refine ⟨?pass, ?mem, ?teams, fun h => ?_, fun h => ?_⟩
  case pass =>
    have hafter := pass?_onPass (s := s) (die := p.die) (id := p.id)
      (f := fun q => q.committed (coveredBy p.frags) evals cut) (fun _ => ⟨rfl, rfl⟩)
    rw [hp] at hafter
    rw [hs', pass?_postOnce, hafter]
    rfl
  case mem =>
    rw [hs', postOnce_mem]
    rfl
  case teams =>
    rw [hs', teams_postOnce]
    rfl
  · rw [hs', if_pos h]
    exact mem_agenda_postOnce ..
  · rw [hs', if_neg (Nat.not_lt.mpr h)]
    exact mem_agenda_postOnce ..

/-! ## binbeg (18 R419) -/

section
variable {c : C} {s : State} {va : Nat} (hva : c.passAddr s = va)
include hva

theorem effBinbeg_of_misaligned (h : va % 128 ≠ 0) : effBinbeg c s = .trap s (c.trapAt 0x04 0x0101 va []) := by
  simp only [effBinbeg, hva, ne_eq, h, not_false_iff, if_true]

variable (hal : va % 128 = 0)
include hal

theorem effBinbeg_of_malformed (h : readView c.t.agent s c.t.surfb.toNat va = .ok none) :
    effBinbeg c s = .trap s (c.trap 0x05 0x0C02) := by
  simp only [effBinbeg, hva, hal, ne_eq, not_true, if_false, h]

/-- The lowest number of a die's passes that is free. -/
def freePass (s : State) (die : Nat) : Option Nat :=
  (List.range 16).find? (fun i => !s.passes.any (fun p => p.die = die && p.id = i && (p.isOpen || p.closing)))

variable {v : View} (hv : readView c.t.agent s c.t.surfb.toNat va = .ok (some v))
include hv

theorem effBinbeg_of_none_free (h : freePass s (dieOf c.t.core) = none) :
    effBinbeg c s = .done (c.putS s (BitVec.ofInt 64 (-1))) := by
  rw [freePass] at h
  simp only [effBinbeg, hva, hal, ne_eq, not_true, if_false, hv, h]
  rfl

theorem effBinbeg_of_free {i : Nat} (h : freePass s (dieOf c.t.core) = some i) : effBinbeg c s = .done (c.putS { s with
    passes := s.passes.filter (fun p => !(p.die = dieOf c.t.core && p.id = i)) ++
      [Pass.fresh (dieOf c.t.core) i c.t.ctx c.t.uid v] } (BitVec.ofNat 64 i)) := by
  rw [freePass] at h
  simp only [effBinbeg, hva, hal, ne_eq, not_true, if_false, hv, h]

end

/-! ## The pass that an operand names (18 R419) -/

section
variable {i : Instr} {opc sub n : Nat} {x : Ext} {s : State} {t : Team}

theorem passOf_of_open {p : Pass} (hn : (srcScalar s t x x.a).toNat < 16)
    (hp : s.pass? (dieOf t.core) (srcScalar s t x x.a).toNat = some p) (hctx : p.ctx = t.ctx) (hopen : p.isOpen = true) :
    (ctxAt i opc sub n x t).passOf s = some p := by
  simp only [C.passOf, toNat_sc64_ctxAt, ctxAt_x, ctxAt_t, if_neg (Nat.not_lt.mpr (Nat.le_of_lt_succ hn)), hp, hctx, hopen,
    decide_true, Bool.and_self, if_true]

theorem passOf_of_not_open (h : ∀ p, (srcScalar s t x x.a).toNat < 16 →
    s.pass? (dieOf t.core) (srcScalar s t x x.a).toNat = some p → p.ctx = t.ctx → p.isOpen = false) :
    (ctxAt i opc sub n x t).passOf s = none := by
  simp only [C.passOf, toNat_sc64_ctxAt, ctxAt_x, ctxAt_t]
  split
  · rfl
  · next hn =>
    split
    · next p hp =>
      refine if_neg fun hboth => ?_
      obtain ⟨hctx, hopen⟩ := Bool.and_eq_true_iff.mp hboth
      exact absurd hopen (ne_true_of_eq_false (h p (Nat.lt_succ_of_le (Nat.not_lt.mp hn)) hp (of_decide_eq_true hctx)))
    · rfl

end

/-! ## primr, primt and prims (18 R411, R412) -/

section
variable {form n : Nat} {c : C} {s : State}

theorem effPrim_of_no_lane (h : c.any = false) : effPrim form n c s = .done s := by
  simp only [effPrim, h, Bool.not_false, if_true]

variable (hany : c.any = true)
include hany

theorem effPrim_of_no_pass (h : c.passOf s = none) : effPrim form n c s = .trap s (c.trap 0x05 0x0C01) := by
  simp only [effPrim, hany, Bool.not_true, Bool.false_eq_true, if_false, h]

/-- One record of the bin area is written, its bytes free (R411, log 17). -/
def binRecord (c : C) (acc : Got State) (w : Nat × Nat) : Got State :=
  match acc with
  | .ok s => c.t.agent.put s w.1 ((List.range w.2).map (fun i => Config.privateByte (s.stepNo * 2 ^ 64 + w.1 + i)))
  | e => e

/-- What emission into an open pass ends in, by what the writes of its records do. -/
def emitted (c : C) (s : State) (p : Pass) (r : Pass × List (Nat × Nat)) : Got State → Eff
  | .error (va, e) => c.meet s va 6 e
  | .ok s1 => .done (s1.onPass p.die p.id (fun _ => r.1))

theorem effPrim_of_pass {p : Pass} (h : c.passOf s = some p) : effPrim form n c s =
    emitted c s p (emitLanes c form n c.actives p []) ((emitLanes c form n c.actives p []).2.foldl (binRecord c) (.ok s)) := by
  simp only [effPrim, hany, Bool.not_true, Bool.false_eq_true, if_false, h]
  rfl

theorem effPrim_of_put {p : Pass} {s1 : State} (h : c.passOf s = some p)
    (hput : (emitLanes c form n c.actives p []).2.foldl (binRecord c) (.ok s) = .ok s1) :
    effPrim form n c s = .done (s1.onPass p.die p.id (fun _ => (emitLanes c form n c.actives p []).1)) := by
  rw [effPrim_of_pass hany h, hput]
  rfl

end

/-- An instruction whose effect is `effPrim` is a `PrimOp`, and traps on a pass that is not open. -/
theorem primOp_of_effect {mk : Ext → Instr} {sub form n : Nat}
    (hexec : ∀ x s, exec (mk x) s = issueExt (mk x) 0x57 sub x (effPrim form n) s) : PrimOp mk sub form n ∧ PrimTraps mk sub := by
  refine ⟨fun x s t hi => ⟨fun hnone => exec_of_done (hexec x s) hi (effPrim_of_no_lane hnone), ?_⟩, fun x s t hi hany hp =>
    exec_of_trap (hexec x s) hi (effPrim_of_no_pass hany (passOf_of_not_open hp)) (team?_uid_of_issues hi)⟩
  intro p s1 hany hn hp hctx hopen r hput
  exact exec_of_done (hexec x s) hi
    (effPrim_of_put (c := ctxAt (mk x) 0x57 sub (extLen x) x t) hany (passOf_of_open hn hp hctx hopen) hput)

/-- The three ends of the emission of a primitive (R411, R412). -/
theorem emit_says (p : Pass) (form : Nat) (ws : List Word) : let q : Prim := { seq := p.nextSeq, form := form, words := ws, tiles := [] }
    let ts := q.touches p.view
    (q.culled p.view = true → p.emit form ws = ({ p with counts := p.counts.modify 1 (· + 1) }, none)) ∧
    (q.culled p.view = false → p.view.binsz < p.binUsed + (64 + 8 * ts.length) → p.emit form ws = ({ p with ovf := true }, none)) ∧
    (q.culled p.view = false → p.binUsed + (64 + 8 * ts.length) ≤ p.view.binsz → ∃ p',
      p.emit form ws = (p', some (p.view.binb + p.binUsed, 64 + 8 * ts.length)) ∧
      p'.prims = p.prims ++ [{ q with tiles := ts }] ∧ p'.nextSeq = p.nextSeq + 1 ∧
      p'.binUsed = p.binUsed + (64 + 8 * ts.length)) := by
  intro q ts
  refine ⟨fun h => if_pos h, fun h hroom => (if_neg (ne_true_of_eq_false h)).trans (if_pos hroom), fun h hroom =>
    ⟨_, (if_neg (ne_true_of_eq_false h)).trans (if_neg (Nat.not_lt.mpr hroom)), rfl, rfl, rfl⟩⟩

/-! ## binend, fragout and tstat (18 R416, R419) -/

section
variable {c : C} {s : State}

theorem effBinend_of_no_pass (h : c.passOf s = none) : effBinend c s = .trap s (c.trap 0x05 0x0C01) := by
  simp only [effBinend, h]

theorem effBinend_of_pass {p : Pass} (h : c.passOf s = some p) : effBinend c s = .wait ((closePass s p.die p.id).onTeam c.t.uid
    (fun t => { t with run := .parked .binend, aux := [p.die, p.id, c.npc.toNat] })) := by
  simp only [effBinend, h]

end

section
variable {i : Instr} {opc sub n : Nat} {x : Ext} {s : State} {t : Team}

theorem effTstat_of_no_pass (h : ∀ p, (srcScalar s t x x.a).toNat < 16 →
    s.pass? (dieOf t.core) (srcScalar s t x x.a).toNat = some p → p.ctx ≠ t.ctx) : effTstat (ctxAt i opc sub n x t) s =
      .trap s ((ctxAt i opc sub n x t).trap 0x05 0x0C01) := by
  simp only [effTstat, toNat_sc64_ctxAt, ctxAt_x, ctxAt_t]
  by_cases hn : 15 < (srcScalar s t x x.a).toNat
  · simp only [if_pos hn]
  · cases hp : s.pass? (dieOf t.core) (srcScalar s t x x.a).toNat with
    | none => simp only [if_neg hn]
    | some p => simp only [if_neg hn, ne_eq, h p (Nat.lt_succ_of_le (Nat.not_lt.mp hn)) hp, not_false_iff, if_true]

theorem effTstat_of_pass {p : Pass} (hn : (srcScalar s t x x.a).toNat < 16)
    (hp : s.pass? (dieOf t.core) (srcScalar s t x x.a).toNat = some p) (hctx : p.ctx = t.ctx) :
    effTstat (ctxAt i opc sub n x t) s = .done (putScalar s t x.d (BitVec.ofNat 64 (if x.f 2 0 < 7 then p.counts.getD (x.f 2 0) 0
      else bitNat (p.isOpen || p.closing) + 2 * bitNat p.ovf + 4 * bitNat p.err))) := by
  simp only [effTstat, toNat_sc64_ctxAt, ctxAt_x, ctxAt_t, if_neg (Nat.not_lt.mpr (Nat.le_of_lt_succ hn)), hp, hctx, ne_eq, not_true,
    if_false, putS_ctxAt]
  rfl

end

/-! ### fragout -/

/-- The first word of the entry that `fragout` answers. -/
def Team.fragWord (t : Team) (x : Ext) : Nat := (t.sval x.a.code.toNat).toNat

/-- Whether an entry of a tile is the one that `fragout` answers. -/
def Team.answers (t : Team) (x : Ext) (f : Frag) : Bool :=
  f.pushed && f.block = bitsN (t.fragWord x) 31 24 && f.seq = (t.sval (x.a.code.toNat + 2)).toNat

/-- Whether the entry that `fragout` answers is of the tile and attempt at hand. -/
def Pass.isNow (p : Pass) (w : Nat) : Bool := p.active && p.tile = w / 2 ^ 32 && p.attempt % 4 = bitsN w 23 22

theorem Pass.isNow_iff (p : Pass) (w : Nat) :
    p.isNow w = true ↔ p.active = true ∧ p.tile = w / 2 ^ 32 ∧ p.attempt % 4 = bitsN w 23 22 := by
  simp only [Pass.isNow, Bool.and_eq_true, decide_eq_true_iff, and_assoc]

/-- The state in which an entry is answered with its colours (R416). -/
def fragAnswered (c : C) (s : State) (p : Pass) (f : Frag) : State :=
  (s.onPass p.die p.id (fun p => { p with
    frags := p.frags.map (fun g => if c.t.answers c.x g then { g with answered := true } else g)
    colours := p.colours ++ fragColours c f })).postOnce (.fragmentPush p.die p.id)

/-- What `fragout` does with the entry that it finds. -/
def fragEnd (c : C) (s : State) (p : Pass) : Option Frag → Eff
  | none => .done (putScalar s c.t c.x.d 1)
  | some f => if f.answered then .done (putScalar s c.t c.x.d 2) else .done (putScalar (fragAnswered c s p f) c.t c.x.d 0)

section
variable {i : Instr} {opc sub n : Nat} {x : Ext} {s : State} {t : Team}

theorem effFragout_of_kind (h : t.fragWord x % 2 ^ 16 ≠ 0x0F00) : effFragout (ctxAt i opc sub n x t) s =
    .trap s ((ctxAt i opc sub n x t).trap 0x05 0x0C03) := if_pos h

variable (hkind : t.fragWord x % 2 ^ 16 = 0x0F00)
include hkind

theorem effFragout_of_no_pass (h : ∀ p, s.pass? (bitsN (t.fragWord x) 21 20) (bitsN (t.fragWord x) 19 16) = some p → p.ctx = t.ctx →
    p.isOpen = false ∧ p.closing = false) : effFragout (ctxAt i opc sub n x t) s =
      .trap s ((ctxAt i opc sub n x t).trap 0x05 0x0C01) := by
  have hw : (((ctxAt i opc sub n x t).entry x.a.code.toNat).getD 0 0).toNat = t.fragWord x := rfl
  simp only [effFragout, ctxAt_x, hw, hkind, ne_eq, not_true, if_false]
  cases hp : s.pass? (bitsN (t.fragWord x) 21 20) (bitsN (t.fragWord x) 19 16) with
  | none => rfl
  | some p =>
    refine if_pos ?_
    by_cases hctx : p.ctx = t.ctx
    · obtain ⟨hopen, hclosing⟩ := h p hp hctx
      rw [hopen, hclosing]
      exact Bool.or_true _
    · rw [ctxAt_t, decide_eq_true hctx]
      rfl

variable {p : Pass} (hp : s.pass? (bitsN (t.fragWord x) 21 20) (bitsN (t.fragWord x) 19 16) = some p) (hctx : p.ctx = t.ctx)
  (hopen : p.isOpen = true ∨ p.closing = true)
include hp hctx hopen

theorem effFragout_of_pass : effFragout (ctxAt i opc sub n x t) s =
    fragEnd (ctxAt i opc sub n x t) s p (if p.isNow (t.fragWord x) then p.frags.find? (t.answers x) else none) := by
  have hw : (((ctxAt i opc sub n x t).entry x.a.code.toNat).getD 0 0).toNat = t.fragWord x := rfl
  have hgood : ¬ ((decide (p.ctx ≠ t.ctx) || !(p.isOpen || p.closing)) = true) := by
    rw [decide_eq_false (not_not.mpr hctx), Bool.or_eq_true_iff.mpr hopen]
    exact Bool.false_ne_true
  simp only [effFragout, ctxAt_x, ctxAt_t, hw, hkind, ne_eq, not_true, if_false, hp]
  exact (if_neg hgood).trans rfl

theorem effFragout_of_stale (h : ¬ (p.active = true ∧ p.tile = t.fragWord x / 2 ^ 32 ∧ p.attempt % 4 = bitsN (t.fragWord x) 23 22) ∨
    p.frags.find? (t.answers x) = none) : effFragout (ctxAt i opc sub n x t) s = .done (putScalar s t x.d 1) := by
  refine (effFragout_of_pass hkind hp hctx hopen).trans (congrArg (fragEnd _ s p) (?_ : _ = none))
  rcases h with h | h
  · exact if_neg fun hnow => h ((p.isNow_iff _).mp hnow)
  · rw [h, ite_self]

variable {f : Frag} (hnow : p.active = true ∧ p.tile = t.fragWord x / 2 ^ 32 ∧ p.attempt % 4 = bitsN (t.fragWord x) 23 22)
  (hfind : p.frags.find? (t.answers x) = some f)
include hnow hfind

theorem effFragout_of_found : effFragout (ctxAt i opc sub n x t) s = fragEnd (ctxAt i opc sub n x t) s p (some f) := by
  rw [effFragout_of_pass hkind hp hctx hopen, if_pos ((p.isNow_iff _).mpr hnow), hfind]

theorem effFragout_of_answered (h : f.answered = true) : effFragout (ctxAt i opc sub n x t) s = .done (putScalar s t x.d 2) :=
  (effFragout_of_found hkind hp hctx hopen hnow hfind).trans (if_pos h)

theorem effFragout_of_fresh (h : f.answered = false) : effFragout (ctxAt i opc sub n x t) s =
    .done (putScalar (fragAnswered (ctxAt i opc sub n x t) s p f) t x.d 0) :=
  (effFragout_of_found hkind hp hctx hopen hnow hfind).trans (if_neg (ne_true_of_eq_false h))

end

/-! ## The events of a pass (18 R414, R417) -/

section
variable {die id : Nat} {s : State} {p : Pass} (hp : s.pass? die id = some p)
include hp

theorem exec_tileProcess (hclosing : p.closing = true) (hidle : p.active = false)
    (hfree : ∀ q ∈ s.passes, q.die = die → q.active = false) (hin : ∀ c, s.ctx? p.ctx = some c → c.isIn = true) : exec (.tileProcess die id) s = .next ((s.onPass die id (fun q => { q with
      attempt := q.attempt + 1, active := true, colours := [], frags := q.entries })).postOnce (.fragmentPush die id)) := by
  have hfree' : s.passes.any (fun q => q.die = die && q.active) = false := List.any_eq_false.mpr fun q hq h => by
    obtain ⟨hdie, hact⟩ := Bool.and_eq_true_iff.mp h
    exact absurd hact (ne_true_of_eq_false (hfree q hq (of_decide_eq_true hdie)))
  show execTileProcess die id s = _
  simp only [execTileProcess, hp, hclosing, hidle, hfree', Bool.not_true, Bool.false_or, Bool.false_eq_true, if_false]
  cases hc : s.ctx? p.ctx with
  | none => rfl
  | some c => simp only [hin c hc, Bool.not_true, Bool.false_eq_true, if_false]

/-- The push of a fragment entry. -/
def fragPush (p : Pass) (f : Frag) (die id : Nat) : PushMsg :=
  { id := 0, queue := p.view.fragq, entry := fragEntry p f, team := 0, kind := .fragment, nb := false, dst := die, len := id }

theorem exec_fragmentPush_of_entry {f : Frag} (hact : p.active = true) (hf : p.frags.find? (fun f => !f.pushed) = some f) :
    exec (.fragmentPush die id) s = .next (startPush (s.onPass die id (fun p => { p with frags := p.frags.map (fun g =>
      if g.block = f.block && g.seq = f.seq then { g with pushed := true } else g) })) (fragPush p f die id)) := by
  show execFragmentPush die id s = _
  simp only [execFragmentPush, hp, hact, hf, Bool.not_true, Bool.false_eq_true, if_false, fragPush]

theorem exec_fragmentPush_of_answered (hact : p.active = true) (hf : ∀ f ∈ p.frags, f.pushed = true ∧ f.answered = true) :
    exec (.fragmentPush die id) s = .next (s.postOnce (.tileComposite die id)) := by
  have hnone : p.frags.find? (fun f => !f.pushed) = none :=
    List.find?_eq_none.mpr fun f h => by simp only [(hf f h).1, Bool.not_true, Bool.false_eq_true, not_false_iff]
  have hall : p.frags.all (fun f => f.answered) = true := List.all_eq_true.mpr fun f h => (hf f h).2
  show execFragmentPush die id s = _
  simp only [execFragmentPush, hp, hact, hnone, hall, Bool.not_true, Bool.false_eq_true, if_false, if_true]

/-- The state in which the tile that a pass processes is given up (R417). -/
def tileGivenUp (s : State) (die id : Nat) : State :=
  dropFragments (s.onPass die id (fun p => { p with active := false, frags := [], colours := [] })) die id

theorem exec_tileKill (hact : p.active = true) :
    exec (.tileKill die id) s = .next ((tileGivenUp s die id).postOnce (.tileProcess die id)) := by
  show execTileKill die id s = _
  simp only [execTileKill, hp, hact, Bool.not_true, Bool.false_eq_true, if_false, tileGivenUp]

theorem pass?_tileGivenUp : (tileGivenUp s die id).pass? die id = some { p with active := false, frags := [], colours := [] } := by
  have h := pass?_onPass (s := s) (die := die) (id := id) (f := fun p => { p with active := false, frags := [], colours := [] })
    (fun _ => ⟨rfl, rfl⟩)
  rw [hp] at h
  exact h

end

/-! ## TILE_COMPOSITE (18 R414) -/

theorem tilerPut_of_present {s : State} {p : Pass} {ws : List (Nat × List Byte)} (h : absentOf (hubAgent p.ctx) s ws = none) (retry : Ev)
    (k : State → State) : tilerPut s p ws retry k = k (tilerWrites (hubAgent p.ctx) p.opener s ws) := by
  simp only [tilerPut, h]

/-- The seven counters of a pass at their places in its descriptor (R417). -/
def counterWrites (p : Pass) : List (Nat × List Byte) :=
  (List.range 7).map (fun i => (p.view.at_ + 72 + 8 * i, leBytes 8 (p.counts.getD i 0)))

section
variable {die id : Nat} {s : State} {p : Pass} (hp : s.pass? die id = some p) (hclosing : p.closing = true)
include hp hclosing

theorem exec_tileComposite_of_last (hlast : p.view.tiles ≤ p.tile) (hpages : absentOf (hubAgent p.ctx) s (counterWrites p) = none) :
    exec (.tileComposite die id) s = .next (endPass (tilerWrites (hubAgent p.ctx) p.opener s (counterWrites p)) p) := by
  rw [counterWrites] at hpages ⊢
  show execTileComposite die id s = _
  simp only [execTileComposite, hp, hclosing, Bool.not_true, Bool.false_eq_true, if_false, if_pos hlast, tilerPut_of_present hpages]

variable (hmore : p.tile < p.view.tiles) (hact : p.active = true) (hall : ∀ f ∈ p.frags, f.answered = true)
include hmore hact hall

theorem exec_tileComposite_of_written (hown : declaredAt s p (resolveOf s.stepNo p).1 = none)
    (hpages : absentOf (hubAgent p.ctx) s (resolveOf s.stepNo p).1 = none) : exec (.tileComposite die id) s = .next (commitTile
      (tilerWrites (hubAgent p.ctx) p.opener s (resolveOf s.stepNo p).1) p (resolveOf s.stepNo p).2.1 (resolveOf s.stepNo p).2.2) := by
  have hall' : p.frags.all (fun f => f.answered) = true := List.all_eq_true.mpr hall
  show execTileComposite die id s = _
  simp only [execTileComposite, hp, hclosing, hact, hall', Bool.not_true, Bool.or_self, Bool.false_eq_true, if_false,
    if_neg (Nat.not_le.mpr hmore), hown, tilerPut_of_present hpages]

/-- A pass with an address in a declared range: the lowest one is kept (14 R320). -/
def Pass.withErr (p : Pass) (a : Nat) : Pass :=
  { p with
    err := true
    errAt := some (match p.errAt with
      | some b => min a b
      | none => a) }

theorem exec_tileComposite_of_declared {a : Nat} (hown : declaredAt s p (resolveOf s.stepNo p).1 = some a) :
    exec (.tileComposite die id) s = .next (commitTile (s.onPass die id (fun q => q.withErr a)) p (resolveOf s.stepNo p).2.1
      (resolveOf s.stepNo p).2.2) := by
  have hall' : p.frags.all (fun f => f.answered) = true := List.all_eq_true.mpr hall
  show execTileComposite die id s = _
  simp only [execTileComposite, hp, hclosing, hact, hall', Bool.not_true, Bool.or_self, Bool.false_eq_true, if_false,
    if_neg (Nat.not_le.mpr hmore), hown]
  rfl

end

/-! ## The end of a pass (18 R414, R419) -/

theorem team?_clearWait (s : State) (id u : Nat) : (clearWait s id).team? u =
    (s.team? u).map (fun t => { t with holds := t.holds.map (fun h => { h with waits := h.waits.filter (· ≠ id) }) }) := by
  obtain ⟨es, h⟩ := clearWait_eq s id
  rw [h]
  exact team?_map (s := s) (fun _ => rfl)

/-- A team whose `binend` waits for a pass, after its end. -/
def Team.passEnded (p : Pass) (t : Team) : Team :=
  let npc : Word64 := BitVec.ofNat 64 (t.aux.getD 2 0)
  let t := { t with
    aux := []
    run := match t.run with
      | .saved _ => .saved none
      | _ => .running }
  match p.errAt with
  | some a => { t with due := some { trapHere t.pc npc 0x05 0x0806 with addr := BitVec.ofNat 64 a } }
  | none => { t with pc := npc }

/-- Whether the `binend` of a team waits for a pass. -/
def Pass.awaitedBy (p : Pass) (t : Team) : Bool :=
  (t.run = .parked .binend || t.run = .saved (some .binend)) && t.aux.take 2 = [p.die, p.id]

theorem Team.passEnded_uid (p : Pass) (t : Team) : (t.passEnded p).uid = t.uid := by
  unfold Team.passEnded
  dsimp only
  split <;> rfl

theorem Team.passEnded_of_noErr {p : Pass} {t : Team} (hrun : t.run = .parked .binend) (herr : p.errAt = none) :
    t.passEnded p = { t with aux := [], run := .running, pc := BitVec.ofNat 64 (t.aux.getD 2 0) } := by
  simp only [Team.passEnded, herr, hrun]

theorem Team.passEnded_of_err {p : Pass} {t : Team} {a : Nat} (hrun : t.run = .parked .binend) (herr : p.errAt = some a) :
    t.passEnded p = { t with
      aux := []
      run := .running
      due := some { trapHere t.pc (BitVec.ofNat 64 (t.aux.getD 2 0)) 0x05 0x0806 with addr := BitVec.ofNat 64 a } } := by
  simp only [Team.passEnded, herr, hrun]

theorem team?_endPass (s : State) (p : Pass) (v : Nat) : (endPass s p).team? v =
    ((s.team? v).map (fun t => if p.awaitedBy t then t.passEnded p else t)).map (fun t => { t with
      holds := t.holds.map (fun h => { h with waits := h.waits.filter (· ≠ passKey p.die p.id) }) }) := by
  rw [endPass, team?_clearWait]
  refine congrArg _ ((team?_congr (s := { s with teams := s.teams.map (fun t => if p.awaitedBy t then t.passEnded p else t) }) rfl
    v).trans (team?_map (s := s) fun t => ?_))
  split
  · exact Team.passEnded_uid p t
  · rfl

/-- The `binend` that waits for a pass goes on, or traps where a tile met a declared range (14 R320). -/
theorem endPass_says {s : State} {p : Pass} {v : Nat} {t : Team} (ht : s.team? v = some t) (hrun : t.run = .parked .binend)
    (haux : t.aux.take 2 = [p.die, p.id]) : let npc : Word64 := BitVec.ofNat 64 (t.aux.getD 2 0)
    ∃ t', (endPass s p).team? v = some t' ∧ t'.run = .running ∧ (p.errAt = none → t'.pc = npc ∧ t'.due = t.due) ∧
      ∀ a, p.errAt = some a → t'.pc = t.pc ∧ t'.due = some { trapHere t.pc npc 0x05 0x0806 with addr := BitVec.ofNat 64 a } := by
  have hmine : p.awaitedBy t = true := by
    rw [Pass.awaitedBy, hrun, haux]
    simp
  intro npc
  refine ⟨_, (team?_endPass s p v).trans (by rw [ht, Option.map_some, if_pos hmine]; rfl), ?_⟩
  cases herr : p.errAt with
  | none =>
    rw [Team.passEnded_of_noErr hrun herr]
    refine ⟨rfl, fun _ => ⟨rfl, rfl⟩, fun a h => ?_⟩
    cases h
  | some a =>
    rw [Team.passEnded_of_err hrun herr]
    refine ⟨rfl, fun h => ?_, fun b h => ?_⟩
    · cases h
    · cases h
      exact ⟨rfl, rfl⟩

/-! ## The obligation -/

/-- Settles O48: the instructions of group tile by the pass that they name, the events of a pass by where its tile stands, and the
arithmetic of a tile by R414. -/
theorem passesAreBinnedTiledAndCommitted : Obligations.PassesAreBinnedTiledAndCommitted := by
  unfold Obligations.PassesAreBinnedTiledAndCommitted
  obtain ⟨hprimr, hprimrTraps⟩ := primOp_of_effect (mk := .primr) (fun _ _ => rfl)
  obtain ⟨hprimt, hprimtTraps⟩ := primOp_of_effect (mk := .primt) (fun _ _ => rfl)
  obtain ⟨hprims, hprimsTraps⟩ := primOp_of_effect (mk := .prims) (fun _ _ => rfl)
  refine ⟨?binbeg, hprimr, hprimt, hprims, hprimrTraps, hprimtTraps, hprimsTraps, blendSays, resolveSays, commitSays, ?traps,
    emit_says, ?binend, ?fragout, ?tstat, ?tile, ?composite, fun s p v t ht hrun haux => endPass_says ht hrun haux⟩
  case binbeg =>
    intro x s t hi hgo va die id? hal
    let c := ctxAt (.binbeg x) 0x57 0 (extLen x) x t
    have hva : c.passAddr s = va := congrArg (offAddr x) (base_ctxAt ..)
    have hrun := onGo_of_go (c := c) hgo effBinbeg s
    exact ⟨fun h => exec_of_trap rfl hi (hrun.trans (effBinbeg_of_malformed hva hal h)) (team?_uid_of_issues hi), fun v hv =>
      ⟨fun hnone => exec_of_done rfl hi (hrun.trans (effBinbeg_of_none_free hva hal hv hnone)),
        fun i hi' => exec_of_done rfl hi (hrun.trans (effBinbeg_of_free hva hal hv hi'))⟩⟩
  case traps =>
    intro x s t hgo n trap va
    refine ⟨fun hi h => ?_, fun hi h => ?_, fun hi h => ?_, fun hi => ?_⟩
    · let c := ctxAt (.binbeg x) 0x57 0 (extLen x) x t
      have hva : c.passAddr s = va := congrArg (offAddr x) (base_ctxAt ..)
      exact exec_of_trap rfl hi ((onGo_of_go (c := c) hgo effBinbeg s).trans (effBinbeg_of_misaligned hva h)) (team?_uid_of_issues hi)
    · exact exec_of_trap rfl hi ((onGo_of_go (c := ctxAt (.binend x) 0x57 4 (extLen x) x t) hgo effBinend s).trans
        (effBinend_of_no_pass (passOf_of_not_open h))) (team?_uid_of_issues hi)
    · exact exec_of_trap rfl hi ((onGo_of_go (c := ctxAt (.tstat x) 0x57 6 (extLen x) x t) hgo effTstat s).trans
        (effTstat_of_no_pass h)) (team?_uid_of_issues hi)
    · have hrun := onGo_of_go (c := ctxAt (.fragout x) 0x57 5 (extLen x) x t) hgo effFragout s
      exact ⟨fun h => exec_of_trap rfl hi (hrun.trans (effFragout_of_kind h)) (team?_uid_of_issues hi),
        fun hkind h => exec_of_trap rfl hi (hrun.trans (effFragout_of_no_pass hkind h)) (team?_uid_of_issues hi)⟩
  case binend =>
    exact fun x s t p hi hgo hn hp hctx hopen => exec_of_wait rfl hi
      ((onGo_of_go (c := ctxAt (.binend x) 0x57 4 (extLen x) x t) hgo effBinend s).trans
        (effBinend_of_pass (passOf_of_open hn hp hctx hopen)))
  case fragout =>
    intro x s t p hi hgo w here current hkind hp hctx hopen
    have hrun := onGo_of_go (c := ctxAt (.fragout x) 0x57 5 (extLen x) x t) hgo effFragout s
    exact ⟨fun h => exec_of_done rfl hi (hrun.trans (effFragout_of_stale hkind hp hctx hopen h)),
      fun f hnow hfind h => exec_of_done rfl hi (hrun.trans (effFragout_of_answered hkind hp hctx hopen hnow hfind h)),
      fun f hnow hfind h => exec_of_done rfl hi (hrun.trans (effFragout_of_fresh hkind hp hctx hopen hnow hfind h))⟩
  case tstat =>
    exact fun x s t p hi hgo hn hp hctx => exec_of_done rfl hi
      ((onGo_of_go (c := ctxAt (.tstat x) 0x57 6 (extLen x) x t) hgo effTstat s).trans (effTstat_of_pass hn hp hctx))
  case tile =>
    intro die id s p hp
    refine ⟨exec_tileProcess hp, fun f hact hf => ⟨_, _, exec_fragmentPush_of_entry hp hact hf,
      List.mem_append_right _ (List.mem_singleton_self _), rfl, rfl, rfl, rfl⟩, exec_fragmentPush_of_answered hp,
      fun hact => ⟨_, _, exec_tileKill hp hact, (pass?_postOnce ..).trans (pass?_tileGivenUp hp), rfl, rfl, rfl, rfl,
        mem_agenda_postOnce ..⟩⟩
  case composite =>
    exact fun die id s p hp hclosing => ⟨fun hmore hact hall => exec_tileComposite_of_written hp hclosing hmore hact hall,
      fun a hmore hact hall => exec_tileComposite_of_declared hp hclosing hmore hact hall,
      fun hlast hpages => exec_tileComposite_of_last hp hclosing hlast hpages⟩

end Sys2Proof.Machine
end
